-- ==== Sys2Proof/Word.lean ====
section
/-! DEFINITION. The word types of the device (spec/00_scope.md, R4 to R6) and the sparse map that registers and memories
are held in. -/
namespace Sys2Proof

/-- A byte. -/
abbrev Byte := BitVec 8

/-- A 16-bit halfword. -/
abbrev Half := BitVec 16

/-- A 32-bit word: every register (R6), handle and address register. -/
abbrev Word := BitVec 32

/-- A 64-bit doubleword: host addresses and doorbell words. -/
abbrev Quad := BitVec 64

/-- A 64-byte descriptor (R67), byte `b` at bits `8 b + 7 : 8 b` (R5). -/
abbrev Desc := BitVec 512

/-- A sparse map from addresses to `w`-bit cells. An address that is not listed reads zero; the canonical form (addresses
strictly rising, no zero cell) makes equal maps equal data. With `w = 8` this is a list of `Host.Cell`. -/
abbrev Sparse (w : Nat) := List (Nat × BitVec w)

end Sys2Proof
end

