-- ==== Sys2Proof/Syntax.lean ====
section
/-! DEFINITION. The commands of the block: one constructor of `Instr` per row of spec/opcode_table.json, with what the
command brings from outside the block as its operands (addresses, values, host memory that the device reads, packets,
measured times, temperatures and voltages, the symbols that a codec's bit stream yields). -/
namespace Sys2Proof

/-- What a read of host memory that a command names returns: its bytes, or the address of the first failing 64-byte block
(R72). -/
inductive HostRead where
  | ok (bytes : List Byte)
  | fail (addr : Quad)
  deriving DecidableEq, Repr

/-- What fetching a ring's pending descriptors returns: the descriptors in index order, or a failed or poisoned read (R60). -/
inductive RingRead where
  | ok (descs : List Desc)
  | fail
  deriving DecidableEq, Repr

/-- A read of a doorbell page (R59): the doorbell words of rings 0, 1, …, and what fetching pending descriptors of a
submission ring returns. -/
structure PageRead where
  words : List Quad
  fetch : List (Nat × RingRead)
  deriving DecidableEq, Repr

/-- A unit as UNIT_STOP names it (spec/03_host_interface.md, table Unit operand). -/
structure UnitId where
  cls : Nat
  quarter : Nat
  index : Nat
  deriving DecidableEq, Repr

/-- What comes with an instruction that a media core issues: the core (64 q + 8 t + c), its guard (predicate and the value
it must have), which LS slot a load or store uses, and whether it is the last instruction of its bundle. -/
structure Issue where
  core : Fin 256
  guard : Option (Fin 8 × Bool) := none
  ls1 : Bool := false
  last : Bool := true
  deriving DecidableEq, Repr

/-- Addressing modes (spec/05_media_core.md, table Addressing modes); immediates are signed 12-bit byte offsets. -/
inductive Ea where
  | ind (a : Fin 8)
  | off (a : Fin 8) (imm : BitVec 12)
  | postM (a : Fin 8)
  | postI (a : Fin 8) (imm : BitVec 12)
  deriving DecidableEq, Repr

/-- A scalar operand: a scalar register or an immediate. -/
inductive ScSrc where
  | reg (s : Fin 16)
  | imm (v : Word)
  deriving DecidableEq, Repr

/-- The register files that amov writes. -/
inductive AFile where
  | a | m | b | l
  deriving DecidableEq, Repr

/-- Vector arithmetic, logic and shift operations (table Principal instructions). -/
inductive VOp where
  | add | sub | adds | subs | and | or | xor | min | max | shl | asr | mov
  deriving DecidableEq, Repr

/-- Scalar operations (table Principal instructions). -/
inductive SOp where
  | add | sub | and | or | shl | asr | mov
  deriving DecidableEq, Repr

/-- Compare operations. -/
inductive COp where
  | eq | lt | ltu
  deriving DecidableEq, Repr

/-- What the line check finds on a lane (R143, table Lane fault detection and outcomes): fault code 0 to 6, and the second
lane of a PAIR_SHORT. -/
structure LaneFound where
  lane : Fin 16
  code : Nat
  second : Fin 16 := 0
  deriving DecidableEq, Repr

/-- What auto-negotiation receives (R138): the types that the partner advertises, its FEC request (0 none, 1 BASE-R, 2 RS) and whether it
is able to run BASE-R FEC; or, with no base pages, the signal of 1G-1L or 10G-1L that the receiver locks to. -/
structure AnPartner where
  types : List Nat := []
  fec : Fin 3 := 0
  baseR : Bool := true
  parallel : Option (Fin 2) := none
  deriving DecidableEq, Repr

/-- Measurements of craft accessory detection (R203): loads in ohms from tip, ring 1, ring 2 and sleeve, and the voltages of
the microphone poles in mV. -/
structure Detect where
  loads : List Nat
  volts : List Nat
  deriving DecidableEq, Repr

/-- A picture as groom firmware's header parsing gives it (R210 to R212, R216): packets of an unsupported type, a header that
does not parse, what is unsupported (0 size, 1 tool, 2 payload format, 3 references), the cropped size, HEVC's CTB size, the number
of tiles and for each segment that they are cut into its CTUs in decode order, whether it is monochrome, whether it is a reference, a
random access picture or completes a recovery point, the pictures of the context (by number in decode order) that it refers to
and that stay references after it, and whether it names a reference that was never received. -/
structure PicIn where
  bad : Nat := 0
  unparseable : Bool := false
  unsupported : Option (Fin 4) := none
  w : Nat := 16
  h : Nat := 16
  ctb : Nat := 16
  tiles : Nat := 1
  areas : List (List Nat) := []
  mono : Bool := false
  isRef : Bool := true
  rap : Bool := false
  recovery : Bool := false
  uses : List Nat := []
  keeps : List Nat := []
  missing : Bool := false
  deriving DecidableEq, Repr

/-- What decoding a card's bit stream yields: cycles of the entropy and the pixel stage, luma samples reconstructed, decoded
level-0 tiles (index; 256 Y, 64 Cb, 64 Cr samples), CTUs that the data does not reach, HBM addresses of accesses that
the data leads it to (address, CTU; the fence windows are checked against them), and an error met (1 syntax, 2 uncorrectable HBM read); the CTU is that of the error, of
the limit, or at which an abandoned card stops. -/
structure CodedOut where
  entCycles : Nat := 0
  pixCycles : Nat := 0
  pixels : Nat := 0
  tiles : List (Nat × List Nat) := []
  missing : List Nat := []
  strays : List (Nat × Nat) := []
  err : Fin 3 := 0
  ctu : Nat := 0
  deriving DecidableEq, Repr

/-- A partition of a unit that an encode pipe predicts: its rectangle within the unit; from the layer below (AV1) or from the reference
picture; and the half-sample and quarter-sample steps that its last search takes, 1 for none (R254). -/
structure PartCode where
  x : Nat
  z : Nat
  w : Nat
  h : Nat
  layer : Bool := false
  halfX : Fin 3 := 1
  halfZ : Fin 3 := 1
  quarterX : Fin 3 := 1
  quarterZ : Fin 3 := 1
  deriving DecidableEq, Repr

/-- What an encode pipe makes of a unit: its bits coded in full and at minimum cost; whether it decides for prediction, and the partitions;
the samples that the coded unit and its minimum-cost intra form reconstruct to: Y, Cb, Cr in raster order, 64 luma columns wide. -/
structure UnitCode where
  bits : Nat := 0
  minBits : Nat := 0
  inter : Bool := false
  parts : List PartCode := []
  samples : List Nat := []
  flat : List Nat := []
  deriving DecidableEq, Repr

/-- What an encode pipe makes of the rows of one layer that a band carries: the layer, the quantiser that its rate model
chooses, its units, and the coded slice data or tile group data. -/
structure LayerCode where
  s : Nat
  qp : Nat
  units : List UnitCode
  data : List Byte
  deriving DecidableEq, Repr

/-- An uncorrectable Paddock read of a band buffer (R338): its offset in the Paddock, the plane, its first sample and their number. -/
structure BandGap where
  off : Nat
  plane : Nat
  first : Nat
  n : Nat
  deriving DecidableEq, Repr

/-- What coding a band yields: its layers; cycles; an uncorrectable read of the staging area (layer, surface, tile); and those of the
band's buffer. -/
structure CodedUnits where
  layers : List LayerCode := []
  cycles : Nat := 0
  ue : Option (Nat × Nat × Nat) := none
  gaps : List BandGap := []
  deriving DecidableEq, Repr

/-- A template of an AV1 dependency descriptor: its ID, its spatial and temporal layer, and the layers of the frames that a frame
of it depends on. -/
structure Template where
  id : Nat
  s : Nat
  t : Nat
  deps : List (Nat × Nat) := []
  deriving DecidableEq, Repr

/-- What groom firmware makes of an inbound video packet (spec/13_leg_forwarding.md, table Selective formats): whether it marks the
packet's picture as random access (fmt 0), and the templates of a template structure that the packet carries (fmt 3). -/
structure LayerRead where
  mark : Bool := false
  templates : Option (List Template) := none
  deriving DecidableEq, Repr

/-- What groom firmware makes of an RTCP packet (R269): its new bandwidth estimates by leg in b/s, and the legs that it
sends a sender report for. -/
structure Feedback where
  estimates : List (Nat × Nat) := []
  reports : List Nat := []
  deriving DecidableEq, Repr

/-- What the servo makes of a PTP message (R309): the port of the master that its best master selection chooses; of a Sync exchange,
the measured offset in ns, the frequency adjustment that the servo computes, and whether it steps the clock; and the Delay_Req frame
that it sends. -/
structure Ptp where
  master : Option (Fin 8) := none
  offset : Int := 0
  freq : Word := 0
  step : Bool := false
  delayReq : Option (List Byte) := none
  deriving DecidableEq, Repr

/-- A request that reaches a pseudo-channel scheduler (R326): the requesting unit, its class, physical address, the data of
a write or the length of a read, whether the requester is its quarter's groom core, and whether its read meets a correctable (1) or an uncorrectable (2) error. -/
structure HbmAsk where
  unit : UnitId
  write : Bool
  live : Bool
  addr : Nat
  bytes : List Byte := []
  len : Nat := 0
  groom : Bool := false
  err : Fin 3 := 0
  deriving DecidableEq, Repr

/-- A request at a Paddock bank's arbiter (R341): the master in master order (0–3 band writers, 4–11 band readers, 12–15
groom cores, 16 audio mixing unit, 17–80 media cores, 81–88 DMA channels) and the beats it wants. -/
structure PadAsk where
  master : Fin 89
  beats : Nat
  deriving DecidableEq, Repr

/-- A boot image as read from its source (R369). -/
structure BootImage where
  version : Nat
  payloadLen : Nat
  rollback : Nat
  header : List Byte
  payload : List Byte
  deriving DecidableEq, Repr

/-- What a host load reads (R370): an image, no image, or a failed read. -/
inductive HostImage where
  | image (i : BootImage)
  | none
  | fail
  deriving DecidableEq, Repr

/-- What comes with a stride boundary from outside: stack temperatures in °C (R328), the mean microphone-pole voltage of
the stride in mV and the block of microphone samples (R204, R206), the audio blocks that decode cards have produced and the
right channels of stereo Opus streams among them, the playout delays that the codec library chooses, by participant, and the
Paddock offsets of blocks that the mixing unit reads with an uncorrectable error (R338). -/
structure BoundaryEnv where
  temps : List Int := []
  micMv : Nat := 0
  mic : List Int := []
  blocks : List (Nat × List Int) := []
  right : List (Nat × List Int) := []
  delays : List (Nat × Nat) := []
  padUe : List (Nat × Nat) := []
  deriving DecidableEq, Repr

/-- The commands: one constructor per row of spec/opcode_table.json, in the table's order. -/
inductive Instr where
  /-- REGISTER_WRITE (R9). -/
  | registerWrite (fn : Fin 64) (addr : Nat) (val : Word)
  /-- SUB_WORD (R50). -/
  | subWord (fn : Fin 64) (addr : Nat)
  /-- STRIDE_BOUNDARY (R24). -/
  | strideBoundary (env : BoundaryEnv)
  /-- STRIDE_COUNT_READ (R29). -/
  | strideCountRead (fn : Fin 64)
  /-- DEADLINE_DROP (R31). -/
  | deadlineDrop (slot : Nat)
  /-- OVERRUN (R32). -/
  | overrun (slot : Nat) (cycles : Nat)
  /-- DOORBELL_FETCH (R59). -/
  | doorbellFetch (fn : Fin 64) (page : PageRead)
  /-- HIF_NUDGE (R59). -/
  | hifNudge (fn : Fin 64) (val : Word)
  /-- DESCRIPTOR_ACCEPT (R62). -/
  | descriptorAccept
  /-- FEATURE_WRITE (R54). -/
  | featureWrite (fn : Fin 64) (i : Fin 8) (val : Word)
  /-- FEATURE_LOCK (R54). -/
  | featureLock (fn : Fin 64) (val : Word)
  /-- RING_ENABLE (R69). -/
  | ringEnable (fn : Fin 64) (r : Fin 52) (cfg : Word)
  /-- RING_DISABLE (R69). -/
  | ringDisable (fn : Fin 64) (r : Fin 52) (cfg : Word)
  /-- RING_IDLE (R62). -/
  | ringIdle (fn : Fin 64) (r : Fin 52)
  /-- LINK_CHANGE (R48). -/
  | linkChange (rate : Fin 6) (width : Fin 17)
  /-- VF_FLR (R78). -/
  | vfFlr (v : Fin 63)
  /-- PF_FLR (R79). -/
  | pfFlr
  /-- NOP (R73). -/
  | nop (fn : Fin 64) (ring : Fin 32)
  /-- SESSION_OPEN (R37). -/
  | sessionOpen (fn : Fin 64) (ring : Fin 32)
  /-- SESSION_CLOSE (R38). -/
  | sessionClose (fn : Fin 64) (ring : Fin 32)
  /-- SESSION_CLOSE_DONE (R38). -/
  | sessionCloseDone (session : Nat)
  /-- OBJ_RELEASE (R39). -/
  | objRelease (fn : Fin 64) (ring : Fin 32)
  /-- OBJ_QUERY (R40). -/
  | objQuery (fn : Fin 64) (ring : Fin 32)
  /-- CONF_CREATE (R184). -/
  | confCreate (fn : Fin 64) (ring : Fin 32)
  /-- PART_CREATE (R186). -/
  | partCreate (fn : Fin 64) (ring : Fin 32)
  /-- PART_SET (R187). -/
  | partSet (fn : Fin 64) (ring : Fin 32)
  /-- CRAFT_SET (R206). -/
  | craftSet (fn : Fin 64) (ring : Fin 32)
  /-- LEG_CREATE (R267). -/
  | legCreate (fn : Fin 64) (ring : Fin 32) (rule : HostRead)
  /-- LEG_SET (R286). -/
  | legSet (fn : Fin 64) (ring : Fin 32)
  /-- FANOUT_ADD (R270). -/
  | fanoutAdd (fn : Fin 64) (ring : Fin 32)
  /-- FANOUT_DEL (R273). -/
  | fanoutDel (fn : Fin 64) (ring : Fin 32)
  /-- KEY_LOAD (R174). -/
  | keyLoad (fn : Fin 64) (ring : Fin 32) (blob : HostRead)
  /-- KEY_RETIRE (R178). -/
  | keyRetire (fn : Fin 64) (ring : Fin 32)
  /-- CTX_CREATE (R207). -/
  | ctxCreate (fn : Fin 64) (ring : Fin 32)
  /-- CTX_REFRESH (R223). -/
  | ctxRefresh (fn : Fin 64) (ring : Fin 32)
  /-- LAYOUT_CREATE (R229). -/
  | layoutCreate (fn : Fin 64) (ring : Fin 32)
  /-- LAYOUT_SHADOW (R231). -/
  | layoutShadow (fn : Fin 64) (ring : Fin 32) (data : HostRead)
  /-- LAYOUT_COMMIT (R239). -/
  | layoutCommit (fn : Fin 64) (ring : Fin 32)
  /-- ENC_CREATE (R246). -/
  | encCreate (fn : Fin 64) (ring : Fin 32)
  /-- ENC_SET (R266). -/
  | encSet (fn : Fin 64) (ring : Fin 32)
  /-- FLOW_CREATE (R89). -/
  | flowCreate (fn : Fin 64) (ring : Fin 32)
  /-- CARD_SUBMIT (R82). -/
  | cardSubmit (fn : Fin 64) (ring : Fin 32)
  /-- CARD_CANCEL (R103). -/
  | cardCancel (fn : Fin 64) (ring : Fin 32)
  /-- KERNEL_LOAD (R133). -/
  | kernelLoad (fn : Fin 64) (ring : Fin 32) (image : HostRead)
  /-- RULE_WRITE (R165). -/
  | ruleWrite (fn : Fin 64) (ring : Fin 32) (data : HostRead)
  /-- RULE_SWAP (R167). -/
  | ruleSwap (fn : Fin 64) (ring : Fin 32)
  /-- SWAP_DRAIN_DONE (R167). -/
  | swapDrainDone (pauseNs : Nat)
  /-- SWAP_TIMEOUT (R167). -/
  | swapTimeout
  /-- TX_FRAME (R149). -/
  | txFrame (fn : Fin 64) (ring : Fin 32) (frame : HostRead)
  /-- UNIT_STOP (R76). -/
  | unitStop (fn : Fin 64) (ring : Fin 32)
  /-- UNIT_STOPPED (R76). -/
  | unitStopped (u : UnitId)
  /-- UNIT_CMD_TIMEOUT (R76). -/
  | unitCmdTimeout (u : UnitId)
  /-- UNIT_START (R77). -/
  | unitStart (fn : Fin 64) (ring : Fin 32)
  /-- UNIT_RUNNING (R77). -/
  | unitRunning (u : UnitId)
  /-- MODE_SET (R374). -/
  | modeSet (fn : Fin 64) (ring : Fin 32)
  /-- MODE_CHANGE (R374). -/
  | modeChange
  /-- QUARTER_FENCE (R379). -/
  | quarterFence (fn : Fin 64) (ring : Fin 32)
  /-- TACK_STORE (R388). -/
  | tackStore (fn : Fin 64) (ring : Fin 32) (boot : HostRead) (drv : HostRead)
  /-- TACK_STORE_DONE (R386). -/
  | tackStoreDone (ok : Bool) (us : Nat)
  /-- TACK_LOAD (R388). -/
  | tackLoad (fn : Fin 64) (ring : Fin 32)
  /-- DMA_CHAIN (R345). -/
  | dmaChain (fn : Fin 64) (ring : Fin 32) (chain : HostRead)
  /-- DIAG (R365). -/
  | diag (fn : Fin 64) (ring : Fin 32)
  /-- CARD_RETIRE (R81). -/
  | cardRetire (slot : Nat)
  /-- CARD_DEAL (R94). -/
  | cardDeal (quarter : Nat) (team : Nat)
  /-- ENGINE_QUEUE_WRITE (R98). -/
  | engineQueueWrite (u : UnitId)
  /-- PREEMPT (R96). -/
  | preempt (quarter : Nat) (team : Nat)
  /-- PREEMPT_LATE (R96). -/
  | preemptLate (core : Fin 256)
  /-- FLOW_STALL (R102). -/
  | flowStall (flow : Nat)
  /-- SUBMIT_STALL (R100). -/
  | submitStall (fn : Fin 64) (ring : Fin 32)
  /-- LD_V (R111). -/
  | ldV (i : Issue) (dst : Fin 32) (ea : Ea) (ue : Bool)
  /-- ST_V (R121). -/
  | stV (i : Issue) (ea : Ea) (src : Fin 32)
  /-- LD_W (R111). -/
  | ldW (i : Issue) (half : Bool) (dst : Fin 16) (ea : Ea) (ue : Bool)
  /-- ST_W (R110). -/
  | stW (i : Issue) (half : Bool) (ea : Ea) (src : Fin 16)
  /-- LD_BC_W (R111). -/
  | ldBcW (i : Issue) (dst : Fin 32) (ea : Ea) (ue : Bool)
  /-- AMOV (R113). -/
  | amov (i : Issue) (file : AFile) (dst : Fin 8) (src : ScSrc)
  /-- MAC (R114). -/
  | mac (i : Issue) (sub clear half : Bool) (x : Fin 8) (s1 s2 : Fin 32)
  /-- TAPM (R117). -/
  | tapm (i : Issue) (clear half : Bool) (x : Fin 8) (dS dT dC : Fin 32) (k : Fin 16)
  /-- VALU_OP (R106). -/
  | valuOp (i : Issue) (op : VOp) (half : Bool) (dst s1 s2 : Fin 32)
  /-- EXT (R115). -/
  | ext (i : Issue) (half : Bool) (dst : Fin 32) (x : Fin 8) (sh : ScSrc)
  /-- EXP (R118). -/
  | exp (i : Issue) (half : Bool) (dst : Fin 32) (x : Fin 8)
  /-- NORM (R118). -/
  | norm (i : Issue) (half : Bool) (dst : Fin 32) (x : Fin 8) (e : Fin 32)
  /-- NORMX (R118). -/
  | normx (i : Issue) (half : Bool) (dst e : Fin 32) (x : Fin 8)
  /-- SCALAR_OP (R107). -/
  | scalarOp (i : Issue) (op : SOp) (dst s1 : Fin 16) (s2 : ScSrc)
  /-- CMP (R107). -/
  | cmp (i : Issue) (op : COp) (p : Fin 8) (s1 : Fin 16) (s2 : ScSrc)
  /-- BRANCH (R108). -/
  | branch (i : Issue) (target : Word)
  /-- LOOP (R119). -/
  | loop (i : Issue) (count : ScSrc) (endPc : Word)
  /-- RLOOP (R120). -/
  | rloop (i : Issue) (count : ScSrc) (stages : Fin 5) (endPc : Word)
  /-- GETD (R125). -/
  | getd (i : Issue) (dst : Fin 16) (w : Fin 8)
  /-- RDFLAG (R125). -/
  | rdflag (i : Issue) (dst : Fin 16)
  /-- SPAWN (R126). -/
  | spawn (i : Issue) (dst : Fin 16) (p a : Fin 8)
  /-- SIGNAL (R127). -/
  | signal (i : Issue) (src : Fin 16)
  /-- DONE (R128). -/
  | done (i : Issue) (cycles : Nat)
  /-- YIELD (R129). -/
  | yield (i : Issue)
  /-- SAVECTX (R129). -/
  | savectx (i : Issue)
  /-- FENCE (R121). -/
  | fence (i : Issue)
  /-- LOCK (R123). -/
  | lock (i : Issue) (a : Fin 8)
  /-- UNLOCK (R123). -/
  | unlock (i : Issue)
  /-- WRITE_BUFFER_DRAIN (R121). -/
  | writeBufferDrain (core : Fin 256)
  /-- PREEMPT_INTERRUPT (R129). -/
  | preemptInterrupt (core : Fin 256)
  /-- CORE_HALT (R134). -/
  | coreHalt (core : Fin 256) (ctrl : Word)
  /-- CORE_STEP (R134). -/
  | coreStep (core : Fin 256) (ctrl : Word)
  /-- TEAM_MEM_UE (R132). -/
  | teamMemUe (q : Fin 4) (t : Fin 8) (off : Nat)
  /-- LINE_CHECK (R143). -/
  | lineCheck (p : Fin 8) (found : List LaneFound)
  /-- AN_RESOLVE (R138). -/
  | anResolve (p : Fin 8) (partner : AnPartner)
  /-- TRAINING_DONE (R139). -/
  | trainingDone (p : Fin 8) (taps : List Word) (inverted : List Bool)
  /-- TRAIN_TIMEOUT (R139). -/
  | trainTimeout (p : Fin 8)
  /-- LINK_UP (R141). -/
  | linkUp (p : Fin 8) (order : List Nat) (inverted : List Bool) (deskew : Nat)
  /-- LINK_DOWN (R143). -/
  | linkDown (p : Fin 8) (lane : Fin 16)
  /-- LINK_RETRY (R139). -/
  | linkRetry (p : Fin 8)
  /-- LANE_FAULT (R143). -/
  | laneFault (lane : Fin 16) (code : Nat) (second : Fin 16)
  /-- LANE_RECHECK (R143). -/
  | laneRecheck (lane : Fin 16) (pass : Bool)
  /-- ROLE_WRITE (R137). -/
  | roleWrite (p : Fin 8) (val : Word)
  /-- FAILOVER (R145). -/
  | failover (p : Fin 8)
  /-- FRAME_RECEIVE (R146). -/
  | frameReceive (p : Fin 8) (bytes : List Byte) (capture : Nat) (fifoFull : Option Nat)
  /-- PAUSE_FRAME (R150). -/
  | pauseFrame (p : Fin 8) (at_ : Nat) (pfc : Bool) (enables : BitVec 8) (quanta : List Nat)
  /-- PAUSE_EXPIRY (R150). -/
  | pauseExpiry (p : Fin 8) (at_ : Nat) (prio : Option (Fin 8))
  /-- MAC_TRANSMIT (R148). -/
  | macTransmit (p : Fin 8) (capture : Nat)
  /-- PARSE_DISPATCH (R155). -/
  | parseDispatch (th : Fin 256)
  /-- LD (R156). -/
  | parseLd (th : Fin 256)
  /-- ALU (R155). -/
  | parseAlu (th : Fin 256)
  /-- BR (R157). -/
  | parseBr (th : Fin 256)
  /-- ADV (R156). -/
  | parseAdv (th : Fin 256)
  /-- NODE (R156). -/
  | parseNode (th : Fin 256)
  /-- KEYW (R157). -/
  | parseKeyw (th : Fin 256)
  /-- KEYP (R156). -/
  | parseKeyp (th : Fin 256)
  /-- LENCHK (R158). -/
  | parseLenchk (th : Fin 256)
  /-- META (R156). -/
  | parseMeta (th : Fin 256)
  /-- VERD (R159). -/
  | parseVerd (th : Fin 256)
  /-- EM_LOOKUP_RETURN (R161). -/
  | emLookupReturn (th : Fin 256) (ueA ueB : Bool)
  /-- SRTP_INBOUND (R179). -/
  | srtpInbound (r : LayerRead) (fault : Bool)
  /-- SRTP_OUTBOUND (R180). -/
  | srtpOutbound (fault : Bool)
  /-- SEC_SELFTEST (R171). -/
  | secSelftest (val : Word)
  /-- SELFTEST_DONE (R171). -/
  | selftestDone (fail0 fail1 : Word)
  /-- KEK_GEN_WRITE (R173). -/
  | kekGenWrite (f : Fin 64) (val : Word)
  /-- JITTER_CARD (R415). -/
  | jitterCard (slot : Nat)
  /-- AUDIO_MIX_DONE (R198). -/
  | audioMixDone (q : Fin 4) (us : Nat)
  /-- CASCADE_PAYLOAD (R201). -/
  | cascadePayload (part : Nat)
  /-- JACK_INSERT (R203). -/
  | jackInsert
  /-- DEBOUNCE_END (R203). -/
  | debounceEnd
  /-- DETECTION_DONE (R203). -/
  | detectionDone (m : Detect)
  /-- JACK_REMOVE (R203). -/
  | jackRemove
  /-- BUTTON_PRESS (R204). -/
  | buttonPress
  /-- BUTTON_RELEASE (R204). -/
  | buttonRelease
  /-- BUTTON_LONG (R204). -/
  | buttonLong
  /-- OUTPUT_SHORT (R205). -/
  | outputShort (left : Bool)
  /-- FAULT_RETRY (R205). -/
  | faultRetry (left : Bool) (stillShort : Bool)
  /-- BIAS_SHORT (R205). -/
  | biasShort
  /-- MIC_OPEN (R205). -/
  | micOpen
  /-- FAULT_CLEAR (R205). -/
  | faultClear
  /-- PICTURE_READY (R211). -/
  | pictureReady (ctx : Nat) (pic : PicIn)
  /-- SEGMENT_CARD (R213). -/
  | segmentCard (slot : Nat) (r : CodedOut)
  /-- PARSE_CARD (R212). -/
  | parseCard (slot : Nat) (r : CodedOut)
  /-- REBUILD_CARD (R213). -/
  | rebuildCard (slot : Nat) (r : CodedOut)
  /-- FINISH_CARD (R215). -/
  | finishCard (slot : Nat)
  /-- CONCEAL_CARD (R220). -/
  | concealCard (slot : Nat) (r : CodedOut)
  /-- CTU_LIMIT (R217). -/
  | ctuLimit (slot : Nat) (cycles : Nat) (r : CodedOut)
  /-- PIC_LIMIT (R217). -/
  | picLimit (ctx : Nat) (pic : Nat) (ctus : Nat)
  /-- REFRESH_INTERVAL_END (R221). -/
  | refreshIntervalEnd (ctx : Nat)
  /-- COMPOSE_BAND (R243). -/
  | composeBand (slot : Nat) (cycles : Nat)
  /-- ENCODE_BAND (R253). -/
  | encodeBand (slot : Nat) (r : CodedUnits)
  /-- FILL_PICTURE (R262). -/
  | fillPicture (stream : Nat)
  /-- CELL_WAIT (R265). -/
  | cellWait (u : UnitId) (cycles : Nat)
  /-- FORWARD_PACKET (R278). -/
  | forwardPacket
  /-- NACK (R282). -/
  | nack
  /-- RTCP_RECEIVE (R269). -/
  | rtcpReceive (fb : Feedback)
  /-- SELECTION (R288). -/
  | selection (p : Fin 8) (at_ : Nat)
  /-- POST_WHEEL_TICK (R291). -/
  | postWheelTick (p : Fin 8) (at_ : Nat)
  /-- SHAPER_TICK (R294). -/
  | shaperTick (p : Fin 8) (at_ : Nat)
  /-- SHAPER_WRITE (R295). -/
  | shaperWrite (addr : Nat) (val : Word)
  /-- GATE_ENTRY (R296). -/
  | gateEntry (p : Fin 8) (at_ : Nat)
  /-- GCL_ARM (R298). -/
  | gclArm (p : Fin 8) (val : Word) (at_ : Nat)
  /-- GCL_TAKEOVER (R298). -/
  | gclTakeover (p : Fin 8) (at_ : Nat)
  /-- WATERMARK_CLEAR (R360). -/
  | watermarkClear (addr : Nat) (val : Word)
  /-- TIME_READ (R304). -/
  | timeRead (n : Bool) (at_ : Nat)
  /-- TIM_MODE_WRITE (R307). -/
  | timModeWrite (val : Word)
  /-- FREQ_WRITE (R305). -/
  | freqWrite (val : Word)
  /-- STEP_APPLY (R306). -/
  | stepApply (val : Word) (env : BoundaryEnv)
  /-- STEP_FORCE (R306). -/
  | stepForce (val : Word) (env : BoundaryEnv)
  /-- PTP_MESSAGE (R309). -/
  | ptpMessage (m : Ptp) (env : BoundaryEnv)
  /-- HOLDOVER (R308). -/
  | holdover (syncLost : Bool)
  /-- FREERUN (R308). -/
  | freerun
  /-- TXTS_POP (R312). -/
  | txtsPop (p : Fin 8)
  /-- PULSE_ARM (R315). -/
  | pulseArm (g : Fin 4) (val : Word) (at_ : Nat)
  /-- PULSE_TAKEOVER (R315). -/
  | pulseTakeover (g : Fin 4) (at_ : Nat)
  /-- PULSE_EDGE (R318). -/
  | pulseEdge (g : Fin 4) (at_ : Nat)
  /-- HBM_COMMAND_SLOT (R326). -/
  | hbmCommandSlot (h : Fin 4) (pc : Fin 32) (arrivals : List HbmAsk) (cycles : Nat)
  /-- HBM_REFRESH (R328). -/
  | hbmRefresh (h : Fin 4) (pc : Fin 32) (bank : Fin 48)
  /-- SCRUB (R331). -/
  | scrub (addr : Nat) (result : Fin 3)
  /-- DRIFT_TRACKING (R335). -/
  | driftTracking (h : Fin 4) (ch : Fin 16)
  /-- CE_THRESH (R336). -/
  | ceThresh (h : Fin 4) (ch : Fin 16)
  /-- RETRAIN_STEP (R336). -/
  | retrainStep (h : Fin 4) (ch : Fin 16)
  /-- STACK_TRAINING (R333). -/
  | stackTraining (h : Fin 4) (phase : Fin 3) (ok : Bool)
  /-- PADDOCK_ROUND (R341). -/
  | paddockRound (q : Fin 4) (bank : Fin 32) (asks : List PadAsk)
  /-- QUOTA_WINDOW (R342). -/
  | quotaWindow (q : Fin 4) (bank : Fin 32)
  /-- DMA_DESCRIPTOR (R350). -/
  | dmaDescriptor (u : UnitId) (host : List Byte) (hostFail : Option Nat) (poisoned : Bool) (padUe : Option Nat) (cycles : Nat)
  /-- FATAL_LATCH_CLEAR (R359). -/
  | fatalLatchClear (val : Word)
  /-- LEDGER_AUDIT_DONE (R362). -/
  | ledgerAuditDone (us : Nat)
  /-- UNIT_FAULT (R364). -/
  | unitFault (u : UnitId)
  /-- DUMP_READ (R382): `ue` is whether the word of a Paddock or a core-local memory is uncorrectable. -/
  | dumpRead (ue : Bool)
  /-- POWER_ON_RESET (R383). -/
  | powerOnReset (bootSrc : Fin 4)
  /-- WARM_RESET (R383). -/
  | warmReset (bootSrc : Fin 4)
  /-- SYS_RESET_WARM (R383). -/
  | sysResetWarm (val : Word) (bootSrc : Fin 4)
  /-- FLASH_BOOT (R368). -/
  | flashBoot (slot : Bool) (image : Option BootImage)
  /-- HOST_GO (R370). -/
  | hostGo (val : Word) (image : HostImage)
  /-- IMAGE_ACCEPTED (R371). -/
  | imageAccepted
  /-- BOOT_GO (R371). -/
  | bootGo (val : Word)
  /-- POWER_STEP (R372). -/
  | powerStep (at_ : Nat)
  /-- POWER_STEP_FAIL (R373). -/
  | powerStepFail (at_ : Nat)
  /-- FUSE_PROG (R390). -/
  | fuseProg (val : Word) (vpp : Nat)
  /-- FUSE_LOCK (R390). -/
  | fuseLock (val : Word)
  /-- THERM_ALERT (R398). -/
  | thermAlert (celsius : Int)
  /-- SMBUS_READ_BYTE (R407). -/
  | smbusReadByte (cmd : Byte) (die : Int)
  /-- REGISTER_READ (R50). -/
  | registerRead (fn : Fin 64) (addr n : Nat) (at_ : Nat)
  /-- FLR_COMPLETE (R78). -/
  | flrComplete (fn : Fin 64)
  /-- SLOW_PATH_SERVICE (R164). -/
  | slowPathService
  /-- PULSE_WIDTH_END (R30). -/
  | pulseWidthEnd (g : Fin 4)
  deriving DecidableEq, Repr

end Sys2Proof
end

