-- ==== Sys2Proof/Machine/Bits.lean ====
section
/-! DEFINITION. Bit fields, clamps, modular and signed arithmetic shared by every unit (R4, R5, R26). -/
namespace Sys2Proof.Machine

/-- The field of `len` bits of `x` at bit `lo` (R4: `[lo + len - 1 : lo]`). -/
def fld (x : Word) (lo len : Nat) : Nat := (x.toNat >>> lo) % 2 ^ len
/-- Bit `i` of `x`. -/
def bit (x : Word) (i : Nat) : Bool := x.toNat.testBit i
/-- The mask of `len` bits at bit `lo`. -/
def mask (lo len : Nat) : Word := BitVec.ofNat 32 ((2 ^ len - 1) <<< lo)
/-- `x` with its field of `len` bits at `lo` set to the low bits of `v`. -/
def setFld (x : Word) (lo len v : Nat) : Word :=
  (x &&& ~~~ mask lo len) ||| BitVec.ofNat 32 ((v % 2 ^ len) <<< lo)
/-- `x` with bit `i` set to `b`. -/
def setBit (x : Word) (i : Nat) (b : Bool) : Word := setFld x i 1 b.toNat
/-- The value nearest to `v` in `lo … hi`. -/
def clamp (lo hi v : Nat) : Nat := if v < lo then lo else if hi < v then hi else v
/-- A word of a natural number, modulo 2^32. -/
def wd (n : Nat) : Word := BitVec.ofNat 32 n
/-- One more, saturating at `hi`. -/
def satAdd (v k hi : Nat) : Nat := if hi < v + k then hi else v + k
/-- The signed 32-bit difference of two stride-count words (R26). -/
def sdiff (a b : Word) : Int := (a - b).toInt
/-- `l[i]` or a default. -/
def nth {α : Type} (l : List α) (i : Nat) (dflt : α) : α := (l[i]?).getD dflt
/-- `l` with entry `i` replaced, where there is one. -/
def upd {α : Type} (l : List α) (i : Nat) (v : α) : List α := l.set i v
/-- Bytes of a little-endian number, the low byte first (R5). -/
def leBytes (n : Nat) : Nat → List Byte
  | 0 => []
  | k + 1 => BitVec.ofNat 8 n :: leBytes (n / 256) k
/-- The number that little-endian bytes spell (R5). -/
def leNat : List Byte → Nat
  | [] => 0
  | b :: bs => b.toNat + 256 * leNat bs
/-- The number that big-endian bytes spell (packet fields, R5). -/
def beNat (l : List Byte) : Nat := leNat l.reverse
/-- `k` bytes of a number, high byte first. -/
def beBytes (n k : Nat) : List Byte := (leBytes n k).reverse
/-- Floor division of integers to the smallest whole number not below the quotient. -/
def ceilDiv (a b : Nat) : Nat := (a + b - 1) / b
/-- Bytes `i … i + n - 1` of a list. -/
def slice {α : Type} (l : List α) (i n : Nat) : List α := (l.drop i).take n
/-- Replace the bytes from `i` on by `new` within the list. -/
def splice {α : Type} (l : List α) (i : Nat) (new : List α) : List α := l.take i ++ new ++ l.drop (i + new.length)
/-- Two's complement value of the low `w` bits of an integer. -/
def wrapS (w : Nat) (v : Int) : Int := (BitVec.ofInt w v).toInt
/-- An integer held within `lo … hi`. -/
def clampI (lo hi v : Int) : Int := if v < lo then lo else if hi < v then hi else v
/-- Saturation to signed `w` bits. -/
def satS (w : Nat) (v : Int) : Int := clampI (-(2 ^ (w - 1) : Int)) (2 ^ (w - 1) - 1) v
/-- Convergent rounding of v / 2^sh (R115, R183). -/
def rndC (v : Int) (sh : Nat) : Int :=
  let q := v / 2 ^ sh
  let r := v - q * 2 ^ sh
  let half : Int := 2 ^ (sh - 1)
  if 0 < sh && (half < r || (r = half && q % 2 = 1)) then q + 1 else q
/-- CRC-32 of IEEE 802.3 (reflected, polynomial 0xEDB88320), one byte at a time. -/
def crc32Bit : Nat → Nat → Nat
  | 0, c => c
  | k + 1, c => crc32Bit k (if c % 2 = 1 then (c / 2) ^^^ 0xEDB88320 else c / 2)
def crc32From (c : Nat) : List Byte → Nat
  | [] => c
  | b :: bs => crc32From (crc32Bit 8 (c ^^^ b.toNat)) bs
def crc32 (bs : List Byte) : Nat := (crc32From 0xFFFFFFFF bs) ^^^ 0xFFFFFFFF
/-- CRC-32C (Castagnoli): reflected, initial and final value all ones. -/
def crc32cBit : Nat → Nat → Nat
  | 0, c => c
  | k + 1, c => crc32cBit k (if c % 2 = 1 then (c / 2) ^^^ 0x82F63B78 else c / 2)
def crc32cFrom (c : Nat) : List Byte → Nat
  | [] => c
  | b :: bs => crc32cFrom (crc32cBit 8 (c ^^^ b.toNat)) bs
def crc32c (bs : List Byte) : Nat := (crc32cFrom 0xFFFFFFFF bs) ^^^ 0xFFFFFFFF

end Sys2Proof.Machine
end

