-- ==== Sys2Proof/Machine/AudMix.lean ====
section
/-! DEFINITION. The arithmetic of the mixing unit on blocks of 40 samples (R183, R194 to R196). -/
namespace Sys2Proof.Machine

def clamp24 (v : Int) : Int := satS 24 v
/-- A 24-bit two's complement field as a number. -/
def signed24 (n : Nat) : Int := wrapS 24 n
/-- A block of exactly 40 samples of 24 bits. -/
def block40 (xs : List Int) : List Int := (xs.take 40 ++ List.replicate (40 - xs.length) 0).map clamp24
def silence : List Int := List.replicate 40 0

/-- Coefficients of a filter: b0, b1, b2, a1, a2. -/
structure Coef where
  b0 : Int
  b1 : Int
  b2 : Int
  a1 : Int
  a2 : Int
  deriving DecidableEq, Repr
/-- The level of a block in −dBov, 0 to 127, from its RMS: the nearest number of decibels to −20 log10 of the RMS over 2^23 (RFC
6464). (PRESUMED, log entry 111.) -/
def rmsLevel (xs : List Int) : Nat :=
  let s := (xs.map fun x => x.natAbs ^ 2).sum
  ((List.range 127).find? fun v => decide ((xs.length * 2 ^ 46) ^ 20 < s ^ 20 * 10 ^ (2 * v + 1))).getD 127
/-- The high-pass filter of R194 over a block, with its history x[i−1], x[i−2], h[i−1], h[i−2]. -/
def biquad (k : Coef) : Int × Int × Int × Int → List Int → List Int × (Int × Int × Int × Int)
  | hist, [] => ([], hist)
  | (x1, x2, h1, h2), x :: xs =>
    let h := clamp24 (rndC (k.b0 * x + k.b1 * x1 + k.b2 * x2 - k.a1 * h1 - k.a2 * h2) 22)
    let r := biquad k (x, x1, h, h1) xs
    (h :: r.1, r.2)
/-- c = clamp24(rnd(h × gain, 14)) (R194). -/
def gainBlock (gain : Nat) (hs : List Int) : List Int := hs.map fun h => clamp24 (rndC (h * gain) 14)
/-- y = rnd(M × out_gain, 14) (R196). -/
def outBlock (gain : Nat) (ms : List Int) : List Int := ms.map fun m => rndC (m * gain) 14
/-- Samples with their indexes from i on. -/
def mapIx (f : Nat → Int → Int) : Nat → List Int → List Int
  | _, [] => []
  | i, x :: xs => f i x :: mapIx f (i + 1) xs
/-- A fade-in and a fade-out, truncated toward zero (R193). -/
def fadeIn (cs : List Int) : List Int := mapIx (fun i c => (c * (i + 1 : Int)).tdiv 40) 0 cs
def fadeOut (cs : List Int) : List Int := mapIx (fun i c => (c * (39 - i : Int)).tdiv 40) 0 cs
/-- The sum and the difference of blocks, sample by sample (R195). -/
def addBlock (a b : List Int) : List Int := List.zipWith (· + ·) a b
def subBlock (a b : List Int) : List Int := List.zipWith (· - ·) a b
def sumBlocks (bs : List (List Int)) : List Int := bs.foldl addBlock silence

/-- The target of a block under threshold T (R196). -/
def limTarget (thr : Nat) (ys : List Int) : Nat :=
  let pk := (ys.map Int.natAbs).foldl max 0
  if pk ≤ thr then 32768 else thr * 32768 / pk
/-- The gain at sample i, from the gain g0 at the end of the last stride and the target gt (R196). -/
def limGain (low : Bool) (g0 gt rel : Nat) (i : Nat) : Nat :=
  if gt < g0 then
    (if low then gt else ((g0 : Int) + (((gt : Int) - g0) * (i + 1 : Int)).tdiv 40).toNat)
  else min gt (g0 + rel * (i + 1))
/-- A block through a limiter: its samples, the gain at its end, and whether the gain was reduced in it. (DEDUCED, log entry 113.) -/
def limRun (low : Bool) (g0 gt rel : Nat) (ys : List Int) : List Int × Nat × Bool :=
  (mapIx (fun i y => clamp24 (rndC (y * limGain low g0 gt rel i) 15)) 0 ys, limGain low g0 gt rel 39,
    (List.range 40).any fun i => decide (limGain low g0 gt rel i < 32768))

/-! ### Cascade payloads (table Cascade payload) -/

def be24 (v : Int) : List Byte := beBytes (BitVec.ofInt 24 v).toNat 3
def memberBytes (m : Nat × List Int) : List Byte := beBytes m.1 4 ++ (block40 m.2).flatMap be24
/-- One packet of a payload. -/
def payloadPacket (part block check crc : Nat) (last : Bool) (ms : List (Nat × List Int)) : List Byte :=
  [1, BitVec.ofNat 8 (ms.length + if last then 0x80 else 0), BitVec.ofNat 8 part, 0] ++ beBytes block 4 ++ beBytes check 4 ++
    beBytes crc 4 ++ ms.flatMap memberBytes
/-- Packets of a payload, eight members each, `n` packets at most. -/
def payloadPackets : Nat → Nat → Nat → Nat → Nat → List (Nat × List Int) → List (List Byte)
  | 0, _, _, _, _, _ => []
  | n + 1, part, block, check, crc, ms =>
    if ms.length ≤ 8 then [payloadPacket part block check crc true ms]
    else payloadPacket part block check crc false (ms.take 8) :: payloadPackets n (part + 1) block check crc (ms.drop 8)
/-- Samples of 3 bytes each, `n` of them. -/
def readSamples : Nat → List Byte → List Int
  | 0, _ => []
  | n + 1, b => signed24 (beNat (b.take 3)) :: readSamples n (b.drop 3)
/-- Members of a payload packet, `n` of them. -/
def readMembers : Nat → List Byte → List (Nat × List Int)
  | 0, _ => []
  | n + 1, b => (beNat (b.take 4), readSamples 40 (b.drop 4)) :: readMembers n (b.drop 124)
/-- The CRC of a pot (R202). -/
def potCrc (pot : List Int) : Nat := crc32 (pot.flatMap fun p => beBytes (BitVec.ofInt 32 p).toNat 4)

end Sys2Proof.Machine
end

