-- ==== Sys2Proof/Config.lean ====
section
/-! DEFINITION. What the spec leaves open: uninterpreted functions without a body. Nothing in Lean can evaluate one, so a
claim about the model holds whatever they are. -/
namespace Sys2Proof.Config

/-- A fresh free value: the `n`-th value of `w` bits that the spec leaves undefined. (DESIGN CHOICE, log entry 8.) -/
opaque freeValue (w n : Nat) : BitVec w

/-- Whether the ECDSA P-384 signature of a boot image verifies under the fused public key (R369). (DEDUCED, log entry 62.) -/
opaque imageSigned (header payload : List Byte) : Bool

/-- Krykenan's codec library as firmware loads it into the library region of a team, by special-operation set and offset
(R116, R132). (DESIGN CHOICE, log entry 9.) -/
opaque libraryByte (set : Bool) (off : Nat) : Byte

/-- The offset of the pre-empt handler in the library region (TEAM_PREEMPT_VEC, R129). (DESIGN CHOICE, log entry 9.) -/
opaque preemptVec (set : Bool) : Word

/-- The two hashes that choose a key's candidate buckets in the exact-match table: CRC-32C with seeds that the spec does
not give (spec/07_packet_engine.md, "The exact-match table"). (DESIGN CHOICE, log entry 96.) -/
opaque emHash (which : Nat) (profile : Nat) (key : List Byte) : BitVec 18

/-- Which of its two usual forms (Galois, else Fibonacci) the neighbour-refresh LFSR has: R329 gives the polynomial. (DESIGN CHOICE, log entry 157.) -/
opaque lfsrGalois : Bool

/-- The coded form of an audio encoder's frame: the codec, its bitrate, the samples, the stream that it began with and how
many frames came before (R183: Krykenan's codec library resamples and codes). (DESIGN CHOICE, log entry 9; DEDUCED, log entry 115.) -/
opaque codedAudio (codec bitrate : Nat) (samples : List Int) (stream frame : Nat) : List Byte

/-- A chroma sample at the site of a luma sample, from the nine chroma samples about it, and a luma sample at the site of a chroma
sample, from the four luma samples that it covers: the colour matrix needs both, and R236 does not give them. (DESIGN CHOICE, log entry 9; DEDUCED, log entry 127.) -/
opaque chromaSite (px py : Nat) (around : List Nat) : BitVec 10
/-- (DESIGN CHOICE, log entry 9; DEDUCED, log entry 127.) -/
opaque lumaSite (covered : List Nat) : BitVec 10

/-- What the parameter sets of a layer, or the sequence header and the scalability metadata of an AV1 stream, say (R250, R252, R263): codec,
profile, depth, the ids of the layer's sets, coded and shown size (frame cropping, or the conformance window), block size, temporal layers,
gaps_in_frame_num_value_allowed_flag, and the sizes of the spatial layers that an AV1 structure describes. -/
structure SeqHeader where
  codec : Nat
  prof : Nat
  ten : Bool
  id : Nat
  codedW : Nat
  codedH : Nat
  w : Nat
  h : Nat
  block : Nat
  tLayers : Nat
  gaps : Bool
  layers : List (Nat × Nat)
  deriving DecidableEq, Repr
/-- What the header of a slice, of a frame or of a tile group says (R251, R252, R263): picture number, layer, temporal id, IDR picture or key
frame, the pictures that it refers to, the pictures that it removes from the references (MMCO), prediction from the layer below, the row,
its quantiser; and of a fill picture that temporal motion vector prediction, CDEF and loop restoration are off (R262). -/
structure PicHeader where
  codec : Nat
  num : Nat
  s : Nat
  tl : Nat
  key : Bool
  refs : List Nat
  removed : List Nat
  fromBelow : Bool
  row : Nat
  qp : Nat
  fill : Bool
  deriving DecidableEq, Repr
/-- The bits that groom firmware writes for a parameter set or a sequence-level OBU of a type, behind its header byte or bytes; for a slice
header, a frame header or a tile group header; and the cheapest coding of a row of units with zero motion and no residual. The coding
standards define them. (DESIGN CHOICE, log entry 9; DEDUCED, log entry 202.) -/
opaque seqBits (type : Nat) (h : SeqHeader) : List Byte
/-- (DESIGN CHOICE, log entry 9; DEDUCED, log entry 202.) -/
opaque picBits (type : Nat) (h : PicHeader) : List Byte
/-- (DESIGN CHOICE, log entry 9; DEDUCED, log entry 202.) -/
opaque zeroBits (h : PicHeader) (units : Nat) : List Byte
/-- nal_ref_idc of a NAL unit that is not 0, less 1; and which of its two NAL unit types an HEVC IDR picture has: the spec gives neither. (DESIGN CHOICE, log entry 9.) -/
opaque refIdc (type : Nat) : Fin 3
/-- (DESIGN CHOICE, log entry 9.) -/
opaque idrLeading : Bool

/-- The dependency descriptor of an AV1 packet (R264): stream, picture number, spatial layer, packet of the picture. (DESIGN CHOICE, log entry 9; DEDUCED, log entry 136.) -/
opaque depDescriptor (stream pic s packet : Nat) : List Byte

end Sys2Proof.Config
end

