-- ==== Sys2Proof/Machine/Sparse.lean ====
section
/-! DEFINITION. Reading and writing a sparse map, keeping its canonical form. -/
namespace Sys2Proof.Machine

/-- The cell at `a`: zero where no entry lists it. (DESIGN CHOICE, log entry 3.) -/
def spGet {w : Nat} : Sparse w → Nat → BitVec w
  | [], _ => 0
  | (b, v) :: m, a => if a = b then v else spGet m a

/-- The map with the cell at `a` set to `v`: a zero removes the entry. -/
def spPut {w : Nat} : Sparse w → Nat → BitVec w → Sparse w
  | [], a, v => if v = 0 then [] else [(a, v)]
  | (b, u) :: m, a, v =>
    if a < b then (if v = 0 then (b, u) :: m else (a, v) :: (b, u) :: m)
    else if a = b then (if v = 0 then m else (a, v) :: m)
    else (b, u) :: spPut m a v

/-- Every address listed lies above `lo` and the addresses rise; no cell is zero. -/
def spWfFrom {w : Nat} : Option Nat → Sparse w → Bool
  | _, [] => true
  | lo, (a, v) :: m => (match lo with | none => true | some l => decide (l < a)) && decide (v ≠ 0) && spWfFrom (some a) m

/-- The canonical form of a sparse map. -/
def spWf {w : Nat} (m : Sparse w) : Bool := spWfFrom none m

/-- The map without the cells that `p` picks (they read zero). -/
def spClear {w : Nat} (m : Sparse w) (p : Nat → Bool) : Sparse w := m.filter (fun e => !p e.1)

/-- Bytes `a … a + n - 1`. (DESIGN CHOICE, log entry 3.) -/
def spRead (m : Sparse 8) (a : Nat) : Nat → List Byte
  | 0 => []
  | n + 1 => spGet m a :: spRead m (a + 1) n

/-- `bs` written from `a` upward, in ascending order. -/
def spWrite (m : Sparse 8) (a : Nat) : List Byte → Sparse 8
  | [] => m
  | b :: bs => spWrite (spPut m a b) (a + 1) bs

end Sys2Proof.Machine
end

