-- ==== Sys2Proof/Machine/Variant.lean ====
section
/-! DEFINITION. The four variants and the capacities each has (spec/00_scope.md, "Variants"; spec/01_architecture.md,
"Capacity by variant"; R12, R20, R41, R53). -/
namespace Sys2Proof.Machine

/-- The variants of the Clolis family's Seinanu (spec/00_scope.md, table Variants). -/
inductive Variant where
  | v4 | v2 | a4 | f4
  deriving DecidableEq, Repr

/-- Quarters present. -/
def Variant.quarters : Variant → Nat | .v2 => 2 | _ => 4
/-- HBM stacks present. -/
def Variant.stacks : Variant → Nat | .v2 => 2 | _ => 4
/-- Teams present in a present quarter. -/
def Variant.teams : Variant → Nat | .f4 => 2 | _ => 8
/-- Whether decode pipes, compositors and encode pipes are present. -/
def Variant.video : Variant → Bool | .v4 => true | .v2 => true | _ => false
/-- Whether the craft port is present. -/
def Variant.craft : Variant → Bool | .f4 => false | _ => true
/-- The figure of SNU-V4, halved on SNU-V2 (spec/00_scope.md: every capacity that scales with quarters or stacks). -/
def Variant.half (v : Variant) (n : Nat) : Nat := match v with | .v2 => n / 2 | _ => n
def Variant.capCores (v : Variant) : Nat := v.quarters * v.teams * 8
def Variant.capSessions (_ : Variant) : Nat := 65536
def Variant.capConferences : Variant → Nat | .v2 => 2048 | .f4 => 1024 | _ => 4096
def Variant.capAudioPart : Variant → Nat | .v2 => 8192 | .f4 => 4096 | _ => 16384
def Variant.capLegs (v : Variant) : Nat := v.half 65536
def Variant.capContexts (v : Variant) : Nat := if v.video then v.half 8192 else 0
def Variant.capLayouts (v : Variant) : Nat := if v.video then v.half 512 else 0
def Variant.capEncStreams : Variant → Nat | .v2 => 12288 | .f4 => 6144 | _ => 24576
def Variant.capKeySlots (v : Variant) : Nat := v.half 131072
def Variant.capCardSlots (v : Variant) : Nat := v.half 262144
def Variant.capFlows (v : Variant) : Nat := v.half 65536
def Variant.capRtx (v : Variant) : Nat := v.half 16777216
def Variant.capClass (v : Variant) : Nat := v.half 2097152
def Variant.capHbmMib (v : Variant) : Nat := v.half 98304
def Variant.capPaddockKib (v : Variant) : Nat := v.half 98304
def Variant.decPipes (v : Variant) : Nat := if v.video then 16 * v.quarters else 0
def Variant.compositors (v : Variant) : Nat := if v.video then 4 * v.quarters else 0
def Variant.encPipes (v : Variant) : Nat := if v.video then 8 * v.quarters else 0
/-- The firmware reserve of card slots, a quarter of them (R80). -/
def Variant.fwSlots (v : Variant) : Nat := v.capCardSlots / 4
/-- The shared slot pool, the other three quarters (R80). -/
def Variant.poolSlots (v : Variant) : Nat := v.capCardSlots - v.fwSlots
/-- Paddock units of 4 KiB in a quarter's shared pool; the banks of absent teams join it (R12, R41). -/
def Variant.padUnits (v : Variant) : Nat := (24 + (8 - v.teams)) * 192

/-- Admission budgets (R41): whether budget `b` is kept per quarter. -/
def budgetQuarter (b : Nat) : Bool := b == 0 || b == 2 || b == 3 || b == 5 || b == 9

/-- Capacity of budget `b` in each of its scope instances (R41), by variant. -/
def Variant.budgetCap (v : Variant) (b : Nat) : Nat :=
  match b with
  | 0 => v.teams * 8 * 1333333
  | 1 => if v.video then v.half 53333333 else 0
  | 2 => if v.video then 9000000 else 0
  | 3 => if v.video then 8000000 else 0
  | 4 => v.half 3166666666
  | 5 => v.padUnits
  | 6 => v.capLegs
  | 7 => v.capContexts
  | 8 => v.capKeySlots
  | 9 => if v.video then 128 else 0
  | 10 => v.capAudioPart
  | 11 => v.capConferences
  | 12 => v.capEncStreams
  | 13 => v.capSessions
  | _ => 0

/-- The number of scope instances of budget `b`. -/
def Variant.budgetInsts (v : Variant) (b : Nat) : Nat := if budgetQuarter b then v.quarters else 1

/-- Bits `32 i + 31 : 32 i` of the feature vector of a variant (R53). -/
def Variant.feat (v : Variant) (i : Nat) : Nat :=
  let q := 2 ^ v.quarters - 1
  match i with
  | 0 => q + q * 16 + (if v.video then 0x700 else 0) + 0x800 + (if v.craft then 0x1000 else 0) + 0x6000 + 0x1F0000
      + (if v.video then 0x200000 else 0) + 0xC00000
  | 1 => (2 ^ v.teams - 1) * (match v with | .v2 => 0x101 | _ => 0x1010101)
  | 2 => if v.video then 0x3F03FF else 0
  | 3 => 0x7FFF
  | 4 => 0x3007F
  | 5 => 0xF
  | _ => 0

end Sys2Proof.Machine
end

