-- ==== Sys2Proof/Machine/RegMap.lean ====
section
/-! DEFINITION. The register map: every register block (R410, R411), every register of it with its offset, instances,
reset value and the access types of its fields (the register tables of each chapter). The model's register address is the
PF BAR0 address; the HIF and EVT views of VFv, which only that VF's BAR0 shows (R414), stand at
0x0400_0000 + v × 0x2_0000, and BAR2 of function f at 0x0500_0000 + f × 0x4000. -/
namespace Sys2Proof.Machine

/-- The register blocks of spec/21_register_index.md, table Register blocks. -/
inductive Blk where
  | hif | evt | sys | ldg | pwr | tck | fus | tim | dlr | dmaDev | team | mdc | aud | vdc | cmp | ven | pad | dmaQ
  | pke | sec | fwd | brd | mac | sds | cft | mem | msix
  deriving DecidableEq, Repr

/-- One register of a block: offset, dimensions (count, pitch; outermost first), reset value (of the variant and the
indices: block instances first, then the register's own), and the masks of its RW, RWC, RWS and W1C fields. Every other
bit is RO, WO, W1S with a rule of its own, or reserved. -/
structure RegRow where
  name : String
  off : Nat
  reset : Variant → List Nat → Nat := fun _ _ => 0
  dims : List (Nat × Nat) := []
  rw : Nat := 0
  rwc : Nat := 0
  rws : Nat := 0
  w1c : Nat := 0
  /-- Indices at which the register ignores writes. -/
  roIx : Variant → List Nat → Bool := fun _ _ => false

/-- A reset value that depends on nothing. -/
def k (n : Nat) : Variant → List Nat → Nat := fun _ _ => n
/-- The last index. -/
def lastIx (is : List Nat) : Nat := is.getLastD 0

/-- The row's instance is a VF's view: its PF-only registers ignore writes (R51). (DEDUCED, log entry 39.) -/
def vfView (_ : Variant) (is : List Nat) : Bool := decide (is.headD 0 ≠ 0)

def rowsHif : List RegRow := [
  { name := "HIF_STATUS", off := 0x0 },
  { name := "HIF_DEV_FEAT", off := 0x10, dims := [(8, 4)], reset := fun v is => if is.headD 0 = 0 then v.feat (lastIx is) else 0 },
  { name := "HIF_DRV_FEAT", off := 0x30, dims := [(8, 4)] },
  { name := "HIF_FEAT_LOCK", off := 0x50 },
  { name := "HIF_DB_BASE_LO", off := 0x60, rw := 0xFFFFF000 },
  { name := "HIF_DB_BASE_HI", off := 0x64, rw := 0xFFFFFFFF },
  { name := "HIF_NUDGE", off := 0x68 },
  { name := "HIF_ACCESS_ERR", off := 0x70, w1c := 1 },
  { name := "HIF_CMD_TIMEOUT", off := 0x80, reset := fun _ is => if is = [0] then 0x78 else 0, rw := 0xFFFF, roIx := vfView },
  { name := "HIF_VF_SESSIONS", off := 0x100, dims := [(63, 4)],
    reset := fun _ is => if is.headD 0 = 0 then 0x400 else 0, rw := 0x1FFFF, roIx := vfView },
  { name := "HIF_CAP", off := 0x800, dims := [(27, 4)] },
  { name := "HIF_RING_BASE_LO", off := 0x1000, dims := [(52, 0x20)], rw := 0xFFFFF000 },
  { name := "HIF_RING_BASE_HI", off := 0x1004, dims := [(52, 0x20)], rw := 0xFFFFFFFF },
  { name := "HIF_RING_CFG", off := 0x1008, dims := [(52, 0x20)], rw := 0xFFF7 },
  { name := "HIF_RING_EPOCH", off := 0x100C, dims := [(52, 0x20)], rw := 0xFFFF },
  { name := "HIF_RING_HEAD", off := 0x1010, dims := [(52, 0x20)] },
  { name := "HIF_RING_STATUS", off := 0x1014, dims := [(52, 0x20)], reset := k 1, w1c := 0x3E },
  { name := "HIF_VF_FEAT_MASK", off := 0x2000, dims := [(63, 0x20), (8, 4)],
    reset := fun _ is => if is.headD 0 = 0 then 0xFFFFFFFF else 0, rw := 0xFFFFFFFF, roIx := vfView }]

def rowsEvt : List RegRow := [
  { name := "EVT_STATUS", off := 0x0, w1c := 1 },
  { name := "EVT_MASKED_CNT", off := 0x4 },
  { name := "EVT_UNDELIV_CNT", off := 0x8 },
  { name := "EVT_FATAL_REC", off := 0x10, dims := [(8, 4)] },
  { name := "EVT_ROUTE", off := 0x1000, dims := [(2048, 4)], reset := k 1, rw := 7 }]

def rowsSys : List RegRow := [
  { name := "SYS_MODE", off := 0x0 },
  { name := "SYS_BOOT_CTRL", off := 0x4, rws := 1 },
  { name := "SYS_BOOT_STATUS", off := 0x8 },
  { name := "SYS_BOOT_ADDR_LO", off := 0xC, rw := 0xFFFFFFFF },
  { name := "SYS_BOOT_ADDR_HI", off := 0x10, rw := 0xFFFFFFFF },
  { name := "SYS_BOOT_LEN", off := 0x14, rw := 0xFFFFFFFF },
  { name := "SYS_RESET", off := 0x18 },
  { name := "SYS_DUMP_ADDR_LO", off := 0x20, rw := 0xFFFFFFFF },
  { name := "SYS_DUMP_ADDR_HI", off := 0x24, rw := 0x3FFFFFF, w1c := 0x80000000 },
  { name := "SYS_DUMP_DATA", off := 0x28 }]

def rowsLdg : List RegRow := [
  { name := "LDG_STATUS", off := 0x0 },
  { name := "LDG_AUDIT_CNT", off := 0x4 },
  { name := "LDG_AUDIT_MAX", off := 0x8 },
  { name := "LDG_SEL", off := 0x10, rw := 0xFFFF },
  { name := "LDG_CAP", off := 0x14 },
  { name := "LDG_USE", off := 0x18 },
  { name := "LDG_FREE", off := 0x1C },
  { name := "LDG_TRANSIT", off := 0x20 },
  { name := "LDG_BREAK_INFO", off := 0x30, w1c := 0x80000000 },
  { name := "LDG_ADM_CAP", off := 0x400, dims := [(14, 4)], reset := fun v is => v.budgetCap (lastIx is) },
  { name := "LDG_ADM_RESERVE", off := 0x440, dims := [(14, 4)],
    reset := fun _ is => if lastIx is ≤ 4 then 100 else 0, rw := 0x3FF, roIx := fun _ is => decide (5 ≤ lastIx is) },
  { name := "LDG_ADM_REFUSE", off := 0x480, dims := [(14, 4)] },
  { name := "LDG_ADM_BOOKED", off := 0x500, dims := [(14, 0x20), (8, 4)] }]

def rowsPwr : List RegRow := [
  { name := "PWR_STATUS", off := 0x0 },
  { name := "PWR_STAGGER", off := 0x4, reset := k 0x32, rw := 0x3FF },
  { name := "PWR_PORT_AUTO", off := 0x8, rws := 0xFF },
  { name := "PWR_LAST_US", off := 0xC }]

def rowsTck : List RegRow := [
  { name := "TCK_STATUS", off := 0x0, w1c := 4 },
  { name := "TCK_GEN", off := 0x4 },
  { name := "TCK_STORES", off := 0x8, dims := [(2, 4)] }]

def rowsFus : List RegRow := [
  { name := "FUS_STATUS", off := 0x0 },
  { name := "FUS_CTRL", off := 0x4 },
  { name := "FUS_KEY_DATA", off := 0x10, dims := [(8, 4)] }]

def rowsTim : List RegRow := [
  { name := "TIM_STATUS", off := 0x0, w1c := 0x60 },
  { name := "TIM_CTRL", off := 0x4, reset := k 0xFF1800, rw := 0xFFFF07 },
  { name := "TIM_TIME_NS", off := 0x8 },
  { name := "TIM_TIME_SEC_LO", off := 0xC },
  { name := "TIM_TIME_SEC_HI", off := 0x10 },
  { name := "TIM_TIME_N_LO", off := 0x14 },
  { name := "TIM_TIME_N_HI", off := 0x18 },
  { name := "TIM_FREQ", off := 0x20 },
  { name := "TIM_STEP_LO", off := 0x24, rw := 0xFFFFFFFF },
  { name := "TIM_STEP_HI", off := 0x28, rw := 0xFFFFFFFF },
  { name := "TIM_STEP_CTRL", off := 0x2C },
  { name := "TIM_JUMP_LIMIT", off := 0x30, reset := k 0x3E8, rw := 0xFFFFFFFF },
  { name := "TIM_OFFSET", off := 0x34 },
  { name := "TIM_LOCK_CFG", off := 0x38, reset := k 0x27100064, rw := 0xFFFFFFFF },
  { name := "TIM_HOLD_CFG", off := 0x3C, reset := k 0x3840, rw := 0xFFFF },
  { name := "TIM_HOLD_SEC", off := 0x40 },
  { name := "TIM_PORT_DLY", off := 0x60, dims := [(8, 4)], rw := 0xFFFFFFFF },
  { name := "TIM_STRIDE_CTRL", off := 0x100, w1c := 2 },
  { name := "TIM_STRIDE_IDX", off := 0x104 },
  { name := "TIM_STRIDE_CNT_LO", off := 0x108 },
  { name := "TIM_STRIDE_CNT_HI", off := 0x10C },
  { name := "TIM_STRIDE_SKIP", off := 0x110 },
  { name := "TIM_STRIDE_OUT", off := 0x114, reset := k 0x01064064, rw := 0x3FFFFFF },
  { name := "TIM_TXTS_STAT", off := 0x200, dims := [(8, 0x10)], w1c := 0x100 },
  { name := "TIM_TXTS_POP", off := 0x204, dims := [(8, 0x10)] },
  { name := "TIM_TXTS_LO", off := 0x208, dims := [(8, 0x10)] },
  { name := "TIM_TXTS_HI", off := 0x20C, dims := [(8, 0x10)] },
  { name := "TIM_PULSE_CFG", off := 0x300, dims := [(4, 0x20)],
    reset := fun _ is => if lastIx is = 0 then 2 else if lastIx is = 1 then 3 else 0, rw := 0xFFFF0037, w1c := 0x200 },
  { name := "TIM_PULSE_START_LO", off := 0x304, dims := [(4, 0x20)], rw := 0xFFFFFFFF },
  { name := "TIM_PULSE_START_HI", off := 0x308, dims := [(4, 0x20)], rw := 0xFFFF },
  { name := "TIM_PULSE_PERIOD", off := 0x30C, dims := [(4, 0x20)],
    reset := fun _ is => if lastIx is = 0 then 0x3B9ACA00 else 0, rw := 0xFFFFFFFF },
  { name := "TIM_PULSE_WIDTH", off := 0x310, dims := [(4, 0x20)],
    reset := fun _ is => if lastIx is = 0 then 0x2710 else 0, rw := 0xFFFFFF },
  { name := "TIM_PULSE_SKIP", off := 0x314, dims := [(4, 0x20)] }]

def rowsDlr : List RegRow := [
  { name := "DLR_STATUS", off := 0x0 },
  { name := "DLR_CTRL", off := 0x4, reset := k 0x10030C, rw := 0xFF03FF },
  { name := "DLR_PREEMPT_LIMIT", off := 0x8, reset := k 0x1000, rw := 0xFFFF },
  { name := "DLR_SLOTS_USED", off := 0x10 },
  { name := "DLR_SLOT_WM", off := 0x14, reset := fun v _ => v.half 0x38000, rw := 0x7FFFF },
  { name := "DLR_SLOT_WM_STAT", off := 0x18, w1c := 1 },
  { name := "DLR_SLOT_WM_MAX", off := 0x1C },
  { name := "DLR_OVERRUN_CNT", off := 0x30 },
  { name := "DLR_DROP_CNT", off := 0x34 },
  { name := "DLR_STALL_CNT", off := 0x38 },
  { name := "DLR_EXCESS_CNT", off := 0x3C },
  { name := "DLR_PREEMPT_CNT", off := 0x40 },
  { name := "DLR_FN_SLOTS", off := 0x100, dims := [(64, 4)],
    reset := fun v is => if lastIx is = 0 then v.poolSlots else 0x1000, rw := 0x7FFFF },
  { name := "DLR_FN_USED", off := 0x200, dims := [(64, 4)] },
  { name := "DLR_READY", off := 0x300, dims := [(4, 0x10), (3, 4)] },
  { name := "DLR_READY_ANY", off := 0x340, dims := [(3, 4)] },
  { name := "DLR_TEAM_SPAWN", off := 0x400, dims := [(4, 0x20), (8, 4)], reset := k 0x40, rw := 0x7FFFF }]

def rowsDma : List RegRow := [
  { name := "DMA_STATUS", off := 0x0, w1c := 0x100 },
  { name := "DMA_CTRL", off := 0x4, reset := k 0x40, rwc := 0x7F },
  { name := "DMA_BYTES_CNT", off := 0x10 },
  { name := "DMA_DESC_CNT", off := 0x14 },
  { name := "DMA_BAD_CNT", off := 0x18 },
  { name := "DMA_BUSY", off := 0x1C },
  { name := "DMA_BAD_ADDR_LO", off := 0x20 },
  { name := "DMA_BAD_ADDR_HI", off := 0x24 },
  { name := "DMA_BAD_INFO", off := 0x28 }]

def rowsTeam : List RegRow := [
  { name := "TEAM_STATUS", off := 0x0, w1c := 0x100 },
  { name := "TEAM_CFG", off := 0x4, reset := k 0x181800, rwc := 0x3F1F01 },
  { name := "TEAM_PREEMPT_VEC", off := 0x8 },
  { name := "TEAM_FAULT", off := 0xC, w1c := 0x1FF },
  { name := "TEAM_MEM_ECC", off := 0x10 },
  { name := "TEAM_BUSY", off := 0x40, dims := [(8, 4)] }]

def rowsMdc : List RegRow := [
  { name := "MDC_CTRL", off := 0x0, rw := 0xF05 },
  { name := "MDC_STATUS", off := 0x4, reset := k 2 },
  { name := "MDC_PC", off := 0x8 },
  { name := "MDC_FLAGS", off := 0xC, w1c := 3 },
  { name := "MDC_FAULT_PC", off := 0x10 },
  { name := "MDC_FAULT_ADDR", off := 0x14 },
  { name := "MDC_CARD", off := 0x18 },
  { name := "MDC_BP", off := 0x20, dims := [(4, 4)], rw := 0xFFFFFFFF },
  { name := "MDC_REG_SEL", off := 0x30, rw := 0x3FF },
  { name := "MDC_REG_DATA", off := 0x40, dims := [(8, 4)] }]

/-- Reset coefficients of the high-pass filter sets (AUD_HPF, spec/09_audio.md). -/
def hpfReset (s i : Nat) : Nat :=
  if s = 7 then (if i = 0 then 0x400000 else 0)
  else match i with | 0 => 0x3FA544 | 1 => 0x80B578 | 2 => 0x3FA544 | 3 => 0x80B5FA | _ => 0x3F4B0A

def rowsAud : List RegRow := [
  { name := "AUD_STATUS", off := 0x0, w1c := 0x100 },
  { name := "AUD_SEL", off := 0x8, reset := k 0x02414306, rw := 0x7777FFF },
  { name := "AUD_HOLD", off := 0xC, reset := k 0x025800F0, rw := 0xFFFFFFFF },
  { name := "AUD_LIM", off := 0x10, reset := k 0x720000, rw := 0xFFFFFF },
  { name := "AUD_LIM_REL", off := 0x14, reset := k 3, rw := 0xFFFF },
  { name := "AUD_HPF", off := 0x100, dims := [(8, 0x20), (5, 4)],
    reset := fun _ is => hpfReset (is.dropLast.getLastD 0) (lastIx is), rw := 0xFFFFFF },
  { name := "AUD_LATE_CNT", off := 0x200 },
  { name := "AUD_SILENT_CNT", off := 0x204 },
  { name := "AUD_LIM_CNT", off := 0x208 },
  { name := "AUD_HAND_CHG_CNT", off := 0x20C },
  { name := "AUD_CASC_LATE_CNT", off := 0x210 },
  { name := "AUD_POT_MISMATCH_CNT", off := 0x214 },
  { name := "AUD_MIX_MAX", off := 0x218 }]

def rowsCft : List RegRow := [
  { name := "CFT_STATUS", off := 0x0, w1c := 0x800100 },
  { name := "CFT_CFG", off := 0x4, reset := k 3, rwc := 0x1F },
  { name := "CFT_MEAS", off := 0x8 },
  { name := "CFT_LOAD", off := 0xC },
  { name := "CFT_BTN_CNT", off := 0x10 }]

def rowsVdc : List RegRow := [
  { name := "VDC_STATUS", off := 0x0, w1c := 0x100 },
  { name := "VDC_CTRL", off := 0x4, reset := k 0x1000, rwc := 0xFFFF },
  { name := "VDC_PIX_CNT", off := 0x10 },
  { name := "VDC_PIX_BUSY", off := 0x14 },
  { name := "VDC_ENT_BUSY", off := 0x18 },
  { name := "VDC_CTU_LIMIT_CNT", off := 0x1C },
  { name := "VDC_SYNTAX_CNT", off := 0x20 },
  { name := "VDC_FENCE_CNT", off := 0x24 },
  { name := "VDC_CONCEAL_CNT", off := 0x28 },
  { name := "VDC_FENCE_ADDR_LO", off := 0x30 },
  { name := "VDC_FENCE_ADDR_HI", off := 0x34 }]

def rowsCmp : List RegRow := [
  { name := "CMP_STATUS", off := 0x0, w1c := 0x100 },
  { name := "CMP_BAND_POOL", off := 0x4, reset := k 0x400, rwc := 0x1FFF },
  { name := "CMP_BAND_USED", off := 0x8 },
  { name := "CMP_BAND_WM", off := 0xC, reset := k 0x380, rw := 0x1FFF },
  { name := "CMP_BAND_WM_STAT", off := 0x10, w1c := 1 },
  { name := "CMP_BAND_WM_MAX", off := 0x14 },
  { name := "CMP_PIX_CNT", off := 0x20 },
  { name := "CMP_BUSY", off := 0x24 },
  { name := "CMP_WAIT_CYC", off := 0x28 },
  { name := "CMP_STALE_CNT", off := 0x2C },
  { name := "CMP_NOSRC_CNT", off := 0x30 },
  { name := "CMP_UE_CNT", off := 0x34 },
  { name := "CMP_COPY_SKIP_CNT", off := 0x38 }]

def rowsVen : List RegRow := [
  { name := "VEN_STATUS", off := 0x0, w1c := 0x100 },
  { name := "VEN_SEARCH", off := 0x4, reset := k 0xA1020, rwc := 0xF3F7F },
  { name := "VEN_PIX_CNT", off := 0x10 },
  { name := "VEN_BUSY", off := 0x14 },
  { name := "VEN_BYTES_CNT", off := 0x18 },
  { name := "VEN_BUDGET_CNT", off := 0x1C },
  { name := "VEN_FILL_CNT", off := 0x20 },
  { name := "VEN_WAVE_CNT", off := 0x24 },
  { name := "VEN_CELL_WAIT", off := 0x28 },
  { name := "VEN_UE_CNT", off := 0x2C }]

def rowsPad : List RegRow := [
  { name := "PAD_CTRL", off := 0x0, reset := k 0x624830, rw := 0xFFFF7F },
  { name := "PAD_UNITS_USED", off := 0x10 },
  { name := "PAD_UNITS_WM", off := 0x14, reset := k 0x1000, rw := 0x1FFF },
  { name := "PAD_UNITS_WM_STAT", off := 0x18, w1c := 1 },
  { name := "PAD_UNITS_WM_MAX", off := 0x1C },
  { name := "PAD_ABORT_INFO", off := 0x20, w1c := 0x80000000 },
  { name := "PAD_ABORT_ADDR", off := 0x24 },
  { name := "PAD_CE_CNT", off := 0x30 },
  { name := "PAD_UE_CNT", off := 0x34 },
  { name := "PAD_ABORT_CNT", off := 0x38 },
  { name := "PAD_QUOTA_CNT", off := 0x3C },
  { name := "PAD_TWO_HOLD_CNT", off := 0x40 },
  { name := "PAD_BANK_HOLD_MAX", off := 0x100, dims := [(32, 4)] }]

def rowsPke : List RegRow := [
  { name := "PKE_STATUS", off := 0x0, w1c := 0x100 },
  { name := "PKE_CTRL", off := 0x4, reset := k 3, rw := 1, rwc := 2 },
  { name := "PKE_EPOCH", off := 0x8 },
  { name := "PKE_SWAP_LIMIT", off := 0xC, reset := k 0x32, rw := 0xFFFF },
  { name := "PKE_CELLS_USED", off := 0x10 },
  { name := "PKE_CELL_WM", off := 0x14, reset := k 0xE000, rw := 0x1FFFF },
  { name := "PKE_CELL_WM_STAT", off := 0x18, w1c := 1 },
  { name := "PKE_CELL_WM_MAX", off := 0x1C },
  { name := "PKE_PORT_CELLS", off := 0x20, dims := [(8, 4)], reset := k 0x200, rwc := 0x1FFF },
  { name := "PKE_VERDICT_CNT", off := 0x40, dims := [(9, 4)] },
  { name := "PKE_SLOW_RATE", off := 0x80, dims := [(16, 4)], reset := k 0x400, rw := 0xFFFF },
  { name := "PKE_SLOW_DROP", off := 0xC0, dims := [(16, 4)] },
  { name := "PKE_EM_ENTRIES", off := 0x100 },
  { name := "PKE_EM_HIT", off := 0x104 },
  { name := "PKE_EM_MISS", off := 0x108 },
  { name := "PKE_EM_NOMATCH", off := 0x10C },
  { name := "PKE_ACL_HIT", off := 0x110 },
  { name := "PKE_ACL_MISS", off := 0x114 },
  { name := "PKE_RECIRC_CNT", off := 0x118 },
  { name := "PKE_RECIRC_DROP", off := 0x11C },
  { name := "PKE_SWAP_LAST", off := 0x120 },
  { name := "PKE_RULE_CNT", off := 0x400, dims := [(256, 4)] }]

def rowsSec : List RegRow := [
  { name := "SEC_STATUS", off := 0x0, w1c := 0x100 },
  { name := "SEC_SELFTEST", off := 0x4 },
  { name := "SEC_SELFTEST_FAIL", off := 0x8, dims := [(2, 4)] },
  { name := "SEC_SLOTS_USED", off := 0x10 },
  { name := "SEC_SLOT_WM", off := 0x14, reset := k 0x1C000, rw := 0x3FFFF },
  { name := "SEC_SLOT_WM_STAT", off := 0x18, w1c := 1 },
  { name := "SEC_SLOT_WM_MAX", off := 0x1C },
  { name := "SEC_ERR_CNT", off := 0x40, dims := [(8, 4)] },
  { name := "SEC_PKT_IN", off := 0x60 },
  { name := "SEC_PKT_OUT", off := 0x64 },
  { name := "SEC_KEK_GEN", off := 0x100, dims := [(64, 4)], rw := 0xFFFF }]

def rowsFwd : List RegRow := [
  { name := "FWD_STATUS", off := 0x0, w1c := 0x100 },
  { name := "FWD_CTRL", off := 0x4, reset := k 0xC078, rw := 0xFFFFF },
  { name := "FWD_RTX_DATA", off := 0x8, reset := k 0x2000, rwc := 0xFFFF },
  { name := "FWD_RTX_VALID", off := 0x10 },
  { name := "FWD_RTX_WM", off := 0x14, reset := k 0xF00000, rw := 0x1FFFFFF },
  { name := "FWD_RTX_WM_STAT", off := 0x18, w1c := 1 },
  { name := "FWD_RTX_WM_MAX", off := 0x1C },
  { name := "FWD_RTX_SPAN", off := 0x20 },
  { name := "FWD_PKT_OUT", off := 0x40 },
  { name := "FWD_LAYER_SKIP", off := 0x44 },
  { name := "FWD_IN_UNUSED", off := 0x48 },
  { name := "FWD_NACK_SEQ", off := 0x4C },
  { name := "FWD_RTX_SENT", off := 0x50 },
  { name := "FWD_FEC_SENT", off := 0x54 },
  { name := "FWD_SWITCH_CNT", off := 0x58 },
  { name := "FWD_RTX_COLLIDE", off := 0x5C },
  { name := "FWD_CELL_WAIT", off := 0x60 },
  { name := "FWD_RTX_MISS", off := 0x80, dims := [(8, 4)] }]

def rowsBrd : List RegRow := [
  { name := "BRD_STATUS", off := 0x0, w1c := 0x100 },
  { name := "BRD_PORT_SHAPE", off := 0x4, rw := 0xBFFFFFFF },
  { name := "BRD_PORT_BURST", off := 0x8, reset := k 0x4000, rw := 0xFFFFFF },
  { name := "BRD_GUARD", off := 0xC, rw := 0xFFFF },
  { name := "BRD_GCL_CTRL", off := 0x10, rw := 0x7F },
  { name := "BRD_GCL_BASE_LO", off := 0x14, rw := 0xFFFFFFFF },
  { name := "BRD_GCL_BASE_HI", off := 0x18, rw := 0xFFFF },
  { name := "BRD_GCL_STATUS", off := 0x1C, w1c := 0x700 },
  { name := "BRD_GCL_CYCLE", off := 0x20 },
  { name := "BRD_DROP_LINK", off := 0x30 },
  { name := "BRD_DROP_STANDBY", off := 0x34 },
  { name := "BRD_GATE_DROP", off := 0x38 },
  { name := "BRD_POST_FAR", off := 0x3C },
  { name := "BRD_Q_CFG", off := 0x100, dims := [(16, 0x40)], reset := k 0x780010, rw := 0xFFF00FF, rwc := 0x100 },
  { name := "BRD_Q_SHAPE", off := 0x104, dims := [(16, 0x40)], rw := 0xBFFFFFFF },
  { name := "BRD_Q_BURST", off := 0x108, dims := [(16, 0x40)], reset := k 0x4000, rw := 0xFFFFFF },
  { name := "BRD_Q_LIMIT", off := 0x10C, dims := [(16, 0x40)], reset := k 0x40000, rw := 0xFFFFFF },
  { name := "BRD_Q_DEPTH", off := 0x110, dims := [(16, 0x40)] },
  { name := "BRD_Q_DEPTH_WM", off := 0x114, dims := [(16, 0x40)], reset := k 0x30000, rw := 0xFFFFFF },
  { name := "BRD_Q_DEPTH_WM_STAT", off := 0x118, dims := [(16, 0x40)], w1c := 1 },
  { name := "BRD_Q_DEPTH_WM_MAX", off := 0x11C, dims := [(16, 0x40)] },
  { name := "BRD_Q_DELAY_LAST", off := 0x120, dims := [(16, 0x40)] },
  { name := "BRD_Q_DELAY_WM", off := 0x124, dims := [(16, 0x40)], reset := k 0x7A120, rw := 0xFFFFFFFF },
  { name := "BRD_Q_DELAY_WM_STAT", off := 0x128, dims := [(16, 0x40)], w1c := 1 },
  { name := "BRD_Q_DELAY_WM_MAX", off := 0x12C, dims := [(16, 0x40)] },
  { name := "BRD_Q_TOKENS", off := 0x130, dims := [(16, 0x40)], reset := k 0x4000 },
  { name := "BRD_Q_TX_PKTS", off := 0x134, dims := [(16, 0x40)] },
  { name := "BRD_Q_DROP_FULL", off := 0x138, dims := [(16, 0x40)] },
  { name := "BRD_Q_DROP_AGE", off := 0x13C, dims := [(16, 0x40)] },
  { name := "BRD_GCL", off := 0x800, dims := [(2, 0x200), (64, 8), (2, 4)], rw := 0xFFFFFFFF }]

def rowsMac : List RegRow := [
  { name := "MAC_PORT_STATUS", off := 0x0, w1c := 0x700 },
  { name := "MAC_PORT_CFG", off := 0x4, reset := fun _ is => 0x1701 + 0x20 * is.headD 0, rwc := 0x7FFF },
  { name := "MAC_PORT_ADV", off := 0x8, reset := k 0x3FF, rwc := 0x3FF },
  { name := "MAC_PORT_ROLE", off := 0xC, reset := fun _ is => 1 + 0x10 * (is.headD 0 ^^^ 1), rw := 0x171 },
  { name := "MAC_MAX_FRAME", off := 0x10, reset := k 0x5F2, rwc := 0x3FFF },
  { name := "MAC_PAUSE_CFG", off := 0x14, reset := k 0x1D, rwc := 0x1F },
  { name := "MAC_PAUSE_STATUS", off := 0x18 },
  { name := "MAC_PFC_MAP", off := 0x20, dims := [(8, 4)], rwc := 0xFFFF },
  { name := "MAC_RX_FRAMES", off := 0x40 },
  { name := "MAC_RX_RUNT", off := 0x44 },
  { name := "MAC_RX_FCS_ERR", off := 0x48 },
  { name := "MAC_RX_OVERSIZE", off := 0x4C },
  { name := "MAC_RX_NOBUF", off := 0x50 },
  { name := "MAC_RX_ABORT", off := 0x54 },
  { name := "MAC_RX_CTRL", off := 0x58 },
  { name := "MAC_TX_FRAMES", off := 0x5C },
  { name := "MAC_TX_LONG_DROP", off := 0x60 },
  { name := "MAC_TX_FLUSH", off := 0x64 },
  { name := "MAC_FEC_CORR", off := 0x68 },
  { name := "MAC_FEC_UNCORR", off := 0x6C },
  { name := "MAC_LINK_DOWN_CNT", off := 0x70 }]

def rowsSds : List RegRow := [
  { name := "SDS_LANE_STATUS", off := 0x0, w1c := 0x1000100 },
  { name := "SDS_LANE_CFG", off := 0x4, reset := k 0xA08, rwc := 0xFF0F },
  { name := "SDS_LANE_TXEQ", off := 0x8 },
  { name := "SDS_LANE_FAULT_CNT", off := 0xC }]

/-- Reset mask of mapping output `o` on SNU-V4 (spec/16_memory.md, table Mapping outputs and reset masks). -/
def mapMaskV4 (o : Nat) : Nat :=
  match o with
  | 0 => 0x20000800 | 1 => 0x40001000 | 2 => 0x200080 | 3 => 0x400100 | 4 => 0x800200 | 5 => 0x1000400
  | 6 => 0x20040 | 7 => 0x800000000 | 8 => 0x1000000000 | 9 => 0x2002000 | 10 => 0x4004000 | 11 => 0x8008000
  | 12 => 0x10010000 | _ => 0

/-- Reset mask of output `o`: on SNU-V2 bit 12 is removed and each higher bit moves down by one (R323). -/
def Variant.mapMask (v : Variant) (o : Nat) : Nat :=
  match v with
  | .v2 => if o = 1 then 0 else mapMaskV4 o % 2 ^ 12 + (mapMaskV4 o / 2 ^ 13) * 2 ^ 12
  | _ => mapMaskV4 o

def rowsMem : List RegRow := [
  { name := "MEM_STATUS", off := 0x0, w1c := 0x300 },
  { name := "MEM_CTRL", off := 0x4, reset := k 0x12000A0, rw := 0x1000000, rwc := 0xFF03F3 },
  { name := "MEM_NBR_SEED", off := 0x8, reset := k 1, rwc := 0xFFFFFFFF },
  { name := "MEM_SCRUB_CFG", off := 0xC, reset := k 0x18, rw := 0xFF },
  { name := "MEM_CE_THRESH", off := 0x10, reset := k 0x40, rw := 0xFFFF },
  { name := "MEM_SURF_KIB", off := 0x14 },
  { name := "MEM_SURF_FREE_KIB", off := 0x18 },
  { name := "MEM_MAP_LO", off := 0x40, dims := [(13, 8)], reset := fun v is => v.mapMask (lastIx is) % 2 ^ 32,
    rwc := 0xFFFFFFFF, roIx := fun v is => lastIx is == 7 || lastIx is == 8 || (v == .v2 && lastIx is == 1) },
  { name := "MEM_MAP_HI", off := 0x44, dims := [(13, 8)], reset := fun v is => v.mapMask (lastIx is) / 2 ^ 32,
    rwc := 0x1F, roIx := fun v is => lastIx is == 7 || lastIx is == 8 || (v == .v2 && lastIx is == 1) },
  { name := "MEM_CE_CNT", off := 0x100 },
  { name := "MEM_UE_CNT", off := 0x104 },
  { name := "MEM_NBR_CNT", off := 0x108 },
  { name := "MEM_RETRAIN_CNT", off := 0x10C },
  { name := "MEM_SCRUB_FIX_CNT", off := 0x110 },
  { name := "MEM_REPAIR_CNT", off := 0x114 },
  { name := "MEM_STACK_STATUS", off := 0x200, dims := [(4, 4)], roIx := fun v is => decide (v.stacks ≤ lastIx is) },
  { name := "MEM_GROUP_CE", off := 0x400, dims := [(4, 0x40), (16, 4)] }]

/-- BAR2 of a function (R49): the MSI-X table, 32 entries of 16 bytes as PCI Express lays them out, and the pending bit array. (PRESUMED, log entry 180.) -/
def rowsMsix : List RegRow := [
  { name := "MSIX_ADDR_LO", off := 0x0, dims := [(32, 0x10)], rw := 0xFFFFFFFC },
  { name := "MSIX_ADDR_HI", off := 0x4, dims := [(32, 0x10)], rw := 0xFFFFFFFF },
  { name := "MSIX_DATA", off := 0x8, dims := [(32, 0x10)], rw := 0xFFFFFFFF },
  { name := "MSIX_CTRL", off := 0xC, dims := [(32, 0x10)], reset := k 1, rw := 1 },
  { name := "MSIX_PBA", off := 0x1000 }]

/-- The rows of a block. (DESIGN CHOICE, log entry 176.) -/
def Blk.rows : Blk → List RegRow
  | .hif => rowsHif | .evt => rowsEvt | .sys => rowsSys | .ldg => rowsLdg | .pwr => rowsPwr | .tck => rowsTck
  | .fus => rowsFus | .tim => rowsTim | .dlr => rowsDlr | .dmaDev => rowsDma | .team => rowsTeam | .mdc => rowsMdc
  | .aud => rowsAud | .vdc => rowsVdc | .cmp => rowsCmp | .ven => rowsVen | .pad => rowsPad | .dmaQ => rowsDma
  | .pke => rowsPke | .sec => rowsSec | .fwd => rowsFwd | .brd => rowsBrd | .mac => rowsMac | .sds => rowsSds
  | .cft => rowsCft | .mem => rowsMem | .msix => rowsMsix

/-- A located register address: its block, the block's instance indices (function for the views; quarter, then the
block's own instances), and the offset within the instance. -/
structure Loc where
  blk : Blk
  idx : List Nat
  off : Nat
  deriving DecidableEq, Repr

/-- The block within quarter `q` at window offset `o` (R410, R411). -/
def locQuarter (q o : Nat) : Option Loc :=
  if o < 0x8000 then some ⟨.team, [q, o / 0x1000], o % 0x1000⟩
  else if o < 0x10000 then none
  else if o < 0x14000 then some ⟨.mdc, [q, (o - 0x10000) / 0x800, (o - 0x10000) % 0x800 / 0x100], o % 0x100⟩
  else if o < 0x20000 then none
  else if o < 0x21000 then some ⟨.aud, [q], o - 0x20000⟩
  else if o < 0x30000 then none
  else if o < 0x31000 then some ⟨.vdc, [q, (o - 0x30000) / 0x100], o % 0x100⟩
  else if o < 0x40000 then none
  else if o < 0x40400 then some ⟨.cmp, [q, (o - 0x40000) / 0x100], o % 0x100⟩
  else if o < 0x50000 then none
  else if o < 0x50800 then some ⟨.ven, [q, (o - 0x50000) / 0x100], o % 0x100⟩
  else if o < 0x60000 then none
  else if o < 0x61000 then some ⟨.pad, [q], o - 0x60000⟩
  else if o < 0x70000 then none
  else if o < 0x70200 then some ⟨.dmaQ, [q, (o - 0x70000) / 0x40], o % 0x40⟩
  else none

/-- The block that register address `a` falls in, `none` outside every block (R410 to R412). -/
def locate (a : Nat) : Option Loc :=
  if a < 0x10000 then some ⟨.hif, [0], a⟩
  else if a < 0x20000 then some ⟨.evt, [0], a - 0x10000⟩
  else if a < 0x21000 then some ⟨.sys, [], a - 0x20000⟩
  else if a < 0x22000 then some ⟨.ldg, [], a - 0x21000⟩
  else if a < 0x23000 then some ⟨.pwr, [], a - 0x22000⟩
  else if a < 0x24000 then some ⟨.tck, [], a - 0x23000⟩
  else if a < 0x25000 then some ⟨.fus, [], a - 0x24000⟩
  else if a < 0x26000 then some ⟨.tim, [], a - 0x25000⟩
  else if a < 0x100000 then none
  else if a < 0x101000 then some ⟨.dlr, [], a - 0x100000⟩
  else if a < 0x200000 then none
  else if a < 0x200100 then some ⟨.dmaDev, [(a - 0x200000) / 0x40], a % 0x40⟩
  else if a < 0x1000000 then none
  else if a < 0x3000000 then locQuarter ((a - 0x1000000) / 0x800000) ((a - 0x1000000) % 0x800000)
  else if a < 0x3001000 then some ⟨.pke, [], a - 0x3000000⟩
  else if a < 0x3010000 then none
  else if a < 0x3011000 then some ⟨.sec, [], a - 0x3010000⟩
  else if a < 0x3020000 then none
  else if a < 0x3021000 then some ⟨.fwd, [], a - 0x3020000⟩
  else if a < 0x3030000 then none
  else if a < 0x3038000 then some ⟨.brd, [(a - 0x3030000) / 0x1000], a % 0x1000⟩
  else if a < 0x3400000 then none
  else if a < 0x3400800 then some ⟨.mac, [(a - 0x3400000) / 0x100], a % 0x100⟩
  else if a < 0x3410000 then none
  else if a < 0x3410400 then some ⟨.sds, [(a - 0x3410000) / 0x40], a % 0x40⟩
  else if a < 0x3420000 then none
  else if a < 0x3421000 then some ⟨.cft, [], a - 0x3420000⟩
  else if a < 0x3800000 then none
  else if a < 0x3801000 then some ⟨.mem, [], a - 0x3800000⟩
  else if a < 0x4000000 then none
  else if a < 0x4000000 + 63 * 0x20000 then
    (let v := (a - 0x4000000) / 0x20000
     let o := (a - 0x4000000) % 0x20000
     if o < 0x10000 then some ⟨.hif, [v + 1], o⟩ else some ⟨.evt, [v + 1], o - 0x10000⟩)
  else if a < 0x5000000 then none
  else if a < 0x5000000 + 64 * 0x4000 then some ⟨.msix, [(a - 0x5000000) / 0x4000], (a - 0x5000000) % 0x4000⟩
  else none

/-- The indices of offset `o` from a row's first word over its dimensions, `none` between words. -/
def dimIx : List (Nat × Nat) → Nat → Option (List Nat)
  | [], o => if o = 0 then some [] else none
  | (c, p) :: ds, o =>
    if o / p < c then (match dimIx ds (o % p) with | some is => some (o / p :: is) | none => none) else none

/-- The row that offset `o` of a block belongs to, with the row's indices. -/
def findRow : List RegRow → Nat → Option (RegRow × List Nat)
  | [], _ => none
  | r :: rs, o =>
    if o < r.off then findRow rs o
    else match dimIx r.dims (o - r.off) with
      | some is => some (r, is)
      | none => findRow rs o

/-- Whether a located block instance is absent in the variant (R2, R412). -/
def Variant.absent (v : Variant) (l : Loc) : Bool :=
  let q := l.idx.headD 0
  match l.blk with
  | .team | .mdc => decide (v.quarters ≤ q) || decide (v.teams ≤ (l.idx.drop 1).headD 0)
  | .aud | .pad | .dmaQ => decide (v.quarters ≤ q)
  | .vdc | .cmp | .ven => decide (v.quarters ≤ q) || !v.video
  | .cft => !v.craft
  | .mem => (decide (0x400 ≤ l.off) && decide (v.stacks ≤ (l.off - 0x400) / 0x40 % 4)) ||
            (decide (0x200 ≤ l.off) && decide (l.off < 0x210) && decide (v.stacks ≤ (l.off - 0x200) / 4))
  | _ => false

/-- The register at an address: its place, row and all its indices, `none` where the map has no register or the unit is
absent. -/
def regAt (v : Variant) (a : Nat) : Option (Loc × RegRow × List Nat) :=
  match locate a with
  | none => none
  | some l => if v.absent l then none else
    match findRow l.blk.rows l.off with
    | none => none
    | some (r, is) => some (l, r, l.idx ++ is)

/-- The reset value of the register at an address, zero where there is none (R8, R412). -/
def regReset (v : Variant) (a : Nat) : Word :=
  match regAt v a with
  | none => 0
  | some (_, r, is) => BitVec.ofNat 32 (r.reset v is)

end Sys2Proof.Machine
end

