-- ==== Sys2Proof/Machine/State.lean ====
section
/-! DEFINITION. The state of the block as plain data: the register file, and everything the spec gives the machine beside
its registers, unit by unit; the commands waiting; the state after reset. -/
namespace Sys2Proof.Machine

/-- Modes of the device (spec/19_bringup.md, table Modes). -/
inductive Mode where
  | reset | boot | train | configure | bridge | forward | audio | drain | standby | diagnostic | degraded | haltSafe
  deriving DecidableEq, Repr

/-- One thing that leaves the block: the model's record of every write to host memory, message, answer and frame. (DESIGN CHOICE, log entry 6; DESIGN CHOICE, log entry 177.) -/
inductive Out where
  /-- A completion entry (R61): function, ring, index, host address of its slot (R60), the 16 bytes. -/
  | completion (fn ring index addr : Nat) (entry : BitVec 128)
  /-- An event record (R354): function, ring, index, host address of its slot (R60), the 16 bytes. -/
  | event (fn ring index addr : Nat) (rec : BitVec 128)
  /-- An MSI-X message (R64): function and vector, with the address and data of its table entry (R49). -/
  | msix (fn vector addr : Nat) (data : Word)
  /-- Bytes written to host memory for a command (R66). -/
  | hostWrite (fn : Nat) (addr : Nat) (bytes : List Byte)
  /-- The answer to a register read: function, address of the first byte read, the bytes read as a number. -/
  | readData (fn addr : Nat) (val : Word)
  /-- A frame a MAC starts, with its FCS (R148): port and bytes. -/
  | frame (port : Nat) (bytes : List Byte)
  /-- An output pin's new level, at a network time. -/
  | pin (name : String) (level : Bool) (time : Nat)
  /-- An SMBus byte read (R407). -/
  | smbus (val : Byte)
  /-- One block of the craft port's output to its two converters, empty where the output is off (R205, R206). -/
  | dac (left right : List Int)
  deriving DecidableEq, Repr

/-- A host interface ring as the device runs it (R57 to R69), beside its registers. -/
structure RingRt where
  fn : Nat
  ring : Nat
  /-- Descriptors fetched and not yet accepted, in ring order. -/
  fetched : List Desc := []
  /-- The consumer index last read from the doorbell page (completion and event rings). -/
  consumer : Word := 0
  /-- Completion ring entries that accepted commands hold (R62). -/
  reserved : Nat := 0
  /-- Event records lost since the last EV_HIF_EQ_OVERFLOW (R63). -/
  lostPend : Nat := 0
  deriving DecidableEq, Repr

/-- An accepted command that has not completed (R62, R67). -/
structure Cmd where
  id : Nat
  fn : Nat
  ring : Nat
  cq : Nat
  desc : Desc
  started : Bool := false
  /-- Its function's FLR began after it started: it runs to its end and writes no completion (R78). -/
  discard : Bool := false
  /-- Its completion ring has faulted since it was accepted: its completion is lost (R62). -/
  lostCq : Bool := false
  /-- Whole strides since it started, or since a CARD_SUBMIT began to wait for credit (R76, R100). -/
  strides : Nat := 0
  /-- It waits for a Dealer credit (R99). -/
  waiting : Bool := false
  /-- EV_DLR_SUBMIT_STALL has been raised for it (R100). -/
  stalled : Bool := false
  n1 : Nat := 0
  n2 : Nat := 0
  /-- The mode that an accepted MODE_SET leaves (R377), or a result byte that the command completes with. -/
  mode : Nat := 0
  /-- The objects that an OBJ_RELEASE released and that are to leave service before it completes (R39). -/
  awaits : List Nat := []
  deriving DecidableEq, Repr

/-- The host interface beyond its registers. -/
structure HifSt where
  rings : List RingRt := []
  accepted : List Cmd := []
  nextId : Nat := 0
  /-- Last function served, by arbitration class (0 high, 1 normal), and last ring by class and function (R67). -/
  rrFn : List Nat := [63, 63]
  rrRing : List (Nat × Nat × Nat) := []
  /-- Functions inside an FLR (R78). -/
  flr : List Nat := []
  /-- Functions whose HIF_NUDGE has been written since their doorbell page was last read (R59). -/
  nudged : List Nat := []
  /-- Functions whose doorbell page is due to be read in this stride (R59). -/
  pageDue : List Nat := []
  /-- VF Enable of the PF's SR-IOV capability (R79). -/
  vfEnable : Bool := true
  /-- MSI-X Enable of the PF's configuration space (R359). -/
  msixEnable : Bool := true
  deriving DecidableEq, Repr

/-- An event limited to one record per stride per instance, waiting for the boundary (R356). -/
structure OnceEv where
  code : Nat
  cls : Nat
  scope : Nat
  quarter : Nat
  uclass : Nat
  index : Nat
  fn : Nat
  detail : List (Nat × Nat)
  stride : Nat
  count : Nat
  key : Nat := 0
  deriving DecidableEq, Repr

/-- The event unit beyond its registers. -/
structure EvtSt where
  once : List OnceEv := []
  deriving DecidableEq, Repr

/-- One ledger of one scope instance (R361): three separate counts and the capacity. -/
structure Ledg where
  l : Nat
  inst : Nat
  cap : Nat
  inUse : Nat
  free : Int
  transit : Nat
  deriving DecidableEq, Repr

/-- The ledgers and their last snapshot (R361, R362). -/
structure LedgSt where
  cur : List Ledg := []
  snap : List Ledg := []
  /-- Ledgers of the snapshot that fail the audit (R361, R363). -/
  breaks : List Ledg := []
  auditing : Bool := false
  deriving DecidableEq, Repr

/-- What an object holds of one budget scope (R41). -/
structure Book where
  b : Nat
  inst : Nat
  amt : Nat
  deriving DecidableEq, Repr

/-- The part of an object that every kind has: handle, owner, session, the object it depends on, its bookings and the
quarter it is homed on (0xFF for none). -/
structure Obj where
  handle : Nat
  fn : Nat
  session : Nat
  parent : Nat
  home : Nat := 0xFF
  /-- Leg: its media code (0 audio, 1 video, 2 cascade). Encode stream: 1 for a video stream. Else 0. -/
  media : Nat := 0
  books : List Book := []
  deriving DecidableEq, Repr

/-- A session (R37, R38). -/
structure Session where
  handle : Nat
  fn : Nat
  closing : Bool := false
  /-- Closed; its SESSIONS booking is in transit until the boundary (R74). -/
  closed : Bool := false
  released : Nat := 0
  cancelled : Nat := 0
  /-- The objects that its close released: their cards are to retire before it completes (R38). -/
  awaits : List Nat := []
  deriving DecidableEq, Repr

/-- Objects of kinds 1 to 8. -/
structure ObjSt where
  sessions : List Session := []
  objs : List Obj := []
  deriving DecidableEq, Repr
/-- A DMA descriptor (spec/17_dma.md, table DMA descriptor). -/
structure DmaDesc where
  srcSp : Nat
  dstSp : Nat
  mode : Nat
  sx : Bool
  fence : Bool
  sw : Nat
  dw : Nat
  nch : Nat
  count : Nat
  src : Nat
  dst : Nat
  rows : Nat
  srcPitch : Nat
  dstPitch : Nat
  deriving DecidableEq, Repr

/-- What a card does when it is executed. -/
inductive Work where
  /-- A relay card (R88). -/
  | relay
  /-- A media-core kernel: entry and argument (R94). -/
  | kernel (entry arg : Word)
  /-- A DMA chain with the host address of its status, 0 for none (R345, R350). -/
  | dma (chain : List DmaDesc) (status : Nat)
  /-- Decode of participant `part`'s audio frame on a media core (R189). -/
  | audioDecode (part : Nat)
  /-- Encode of a block of an audio encode stream, or of participant `part`'s personal encode (R193, R198). -/
  | audioEncode (stream part : Nat)
  /-- A participant's jitter card for one packet (R415). -/
  | jitter (part pkt : Nat)
  /-- Decode of tile `tile` of picture `pic` of a context (R213). -/
  | segment (ctx pic tile : Nat)
  /-- Entropy decode of an untiled picture (R212). -/
  | parse (ctx pic : Nat)
  /-- Reconstruction of an untiled picture (R212). -/
  | rebuild (ctx pic i k : Nat)
  /-- The finish card of a picture (R215). -/
  | finish (ctx pic : Nat)
  /-- Concealment of a picture (R220). -/
  | conceal (ctx pic : Nat)
  /-- Composition of band `band` of a layout's frame (R243). -/
  | compose (layout frame band : Nat)
  /-- Coding of the layer rows of a band of the picture of a phase stride (R253). -/
  | encode (stream phase band : Nat)
  deriving DecidableEq, Repr

/-- Card states (spec/04_dealer.md, table Card states). -/
inductive CState where
  | waiting | ready | inService | finished | zombie
  deriving DecidableEq, Repr

/-- Where a card's credit comes from (R99). -/
inductive Source where
  | fn (f : Nat)
  | spawn (f q t : Nat)
  | firmware
  deriving DecidableEq, Repr

/-- A card in the Dealer's store. -/
structure Card where
  slot : Nat
  /-- Order of submission, device-wide: orders the cards of an ordered flow (R91). -/
  seq : Nat
  /-- Order of release (R92). -/
  rel : Nat := 0
  state : CState := .waiting
  cls : Nat
  notify : Bool := false
  nbEn : Bool := false
  notBefore : Word := 0
  /-- Where the card executes: 0 relay, 1 media-core pool, 2 decode pipe, 3 compositor, 4 encode pipe, 5 groom core,
  6 DMA channel (the unit classes of UNIT_STOP, with 5 for the groom cores). -/
  exec : Nat
  quarter : Nat := 0xFF
  team : Nat := 0xFF
  /-- The fixed unit's index, 0xFF for any of its group. -/
  unit : Nat := 0xFF
  deadline : Word
  counter : Nat := 0
  pendingReg : Nat := 0
  succ : List Nat := []
  predShort : Bool := false
  flow : Nat
  fn : Nat
  source : Source
  /-- The admitted object that firmware built the card for, or the card's flow (R31). -/
  owner : Nat
  work : Work
  /-- Core (64 q + 8 t + c) or the unit that holds it, in service. -/
  core : Option Nat := none
  at_ : Option UnitId := none
  /-- Pre-empted: it waits for its core again (R97). -/
  preempted : Bool := false
  /-- Cycles past its deadline when it completed, for EV_DLR_CARD_DONE. -/
  late : Nat := 0
  /-- An overrun has been counted for it (R32). -/
  overran : Bool := false
  /-- Its execution has ended and it only waits for its retirement. -/
  done : Bool := false
  /-- The CARD_CANCEL commands that wait for its retirement (R103). -/
  cancelCmds : List Nat := []
  deriving DecidableEq, Repr

/-- A flow: those of FLOW_CREATE have kind-9 handles; firmware's own flows are named by the object they serve, with bit 32
set for the second flow of an object. -/
structure Flow where
  id : Nat
  fn : Nat
  session : Nat
  host : Bool
  ordered : Bool
  limit : Nat := 0
  closing : Bool := false
  /-- Whole strides without progress (R102). -/
  stall : Nat := 0
  progressed : Bool := true
  raised : Bool := false
  /-- The core that ran the flow's previous card (R95). -/
  lastCore : Option Nat := none
  deriving DecidableEq, Repr

/-- A pool's dealing state (R92, R95): the pair of quarter and team fields, deals since the last background deal and the
last core dealt. -/
structure Pool where
  quarter : Nat
  team : Nat
  deals : Nat := 0
  last : Option Nat := none
  deriving DecidableEq, Repr

/-- A core that has been told to yield to a trump card (R96). -/
structure Preempt where
  core : Nat
  trump : Nat
  background : Nat
  late : Bool := false
  deriving DecidableEq, Repr

/-- The Dealer. -/
structure DlrSt where
  cards : List Card := []
  flows : List Flow := []
  pools : List Pool := []
  preempts : List Preempt := []
  nextSeq : Nat := 0
  nextRel : Nat := 0
  /-- Engine queues: the slots each fixed unit holds, oldest first (R98). -/
  queues : List (UnitId × List Nat) := []
  deriving DecidableEq, Repr
/-- A destination of a media core's delayed result (R107); register numbers are physical. -/
inductive CReg where
  | d (i : Nat) | x (i : Nat) | a (i : Nat) | m (i : Nat) | b (i : Nat) | l (i : Nat) | s (i : Nat) | p (i : Nat)
  deriving DecidableEq, Repr

/-- A result that waits for its bundle: bundles left, order of issue, destination, value. -/
structure CPend where
  left : Nat
  dst : CReg
  val : BitVec 640
  /-- An accumulator result adds `val` to what the accumulator holds when it lands (R107: a later MAC into the same
  accumulator always accumulates onto it); otherwise it replaces. -/
  acc : Bool := false
  /-- Lane width of an accumulating result. -/
  lane : Nat := 80
  deriving DecidableEq, Repr

/-- An effect that an instruction of the open bundle has at the bundle's end (R107, R131). -/
inductive CEff where
  | write (slot : Nat) (p : CPend)
  | store (slot : Nat) (addr : Nat) (bytes : List Byte)
  /-- The bundle accesses a Paddock bank (R123). -/
  | access (bank : Nat)
  | sat
  | circ (reg : Nat)
  | branch (target : Word)
  | loop (count : Nat) (endPc : Word)
  | rloop (count stages : Nat) (endPc : Word)
  | lock (bank : Nat)
  | unlock
  | spawn (s p : Nat) (block : List Byte)
  | signal (handle : Word)
  | done (cycles : Nat)
  | yield
  | savectx
  | fence
  deriving DecidableEq, Repr

/-- One of the three hardware loop levels, or the rotating loop. -/
structure CLoop where
  start : Word
  endPc : Word
  left : Nat
  rot : Bool := false
  stages : Nat := 0
  passes : Nat := 0
  deriving DecidableEq, Repr

/-- The architectural state that savectx saves (R129). (DEDUCED, log entry 33.) -/
structure CoreCtx where
  d : List (BitVec 256)
  x : List (BitVec 640)
  a : List Word
  m : List Word
  b : List Word
  l : List Word
  s : List Word
  lc : List Half
  loops : List CLoop
  rrb : Nat
  epc : Word
  epcP : BitVec 8
  sat : Bool
  circ : Bool
  deriving DecidableEq, Repr

/-- A media core (spec/05_media_core.md). (DESIGN CHOICE, log entry 19.) -/
structure Core where
  id : Nat
  card : Option Nat := none
  d : List (BitVec 256) := List.replicate 32 0
  x : List (BitVec 640) := List.replicate 8 0
  a : List Word := List.replicate 8 0
  m : List Word := List.replicate 8 0
  b : List Word := List.replicate 8 0
  l : List Word := List.replicate 8 0
  p : BitVec 8 := 0
  s : List Word := List.replicate 16 0
  lc : List Half := [0, 0, 0]
  rrb : Nat := 0
  pc : Word := 0
  epc : Word := 0
  epcP : BitVec 8 := 0
  loops : List CLoop := []
  pend : List CPend := []
  buf : List CEff := []
  /-- The first fault of the open bundle: code and address. -/
  flt : Option (Nat × Word) := none
  /-- The open bundle has issued an instruction. -/
  issuing : Bool := false
  wbuf : List (Nat × List Byte) := []
  /-- The bank held by a locked sequence and the bundles counted (R123). -/
  hold : Option (Nat × Nat) := none
  holdAddr : Word := 0
  sat : Bool := false
  circ : Bool := false
  /-- Inside the pre-empt handler (R129). -/
  handler : Bool := false
  halted : Bool := false
  /-- Halted at a fault with its card held (R131): the fault code. -/
  faultHalt : Bool := false
  /-- A halt was written and waits for the bundle boundary or unlock (R134). -/
  haltReq : Bool := false
  stepReq : Bool := false
  preemptReq : Bool := false
  /-- The context in the save area (R129). -/
  ctx : Option CoreCtx := none
  /-- The deal record (R125). -/
  deal : List Word := List.replicate 8 0
  deriving DecidableEq, Repr
/-- A packet in the packet buffer with its record (spec/07_packet_engine.md, table Packet record). -/
structure Pkt where
  id : Nat
  port : Nat
  bytes : List Byte
  oversize : Bool := false
  /-- Receive time-stamp word (R310). -/
  rxTime : Nat := 0
  epoch : Nat := 0
  lap : Nat := 0
  verdict : Nat := 0
  profile : Nat := 0
  l4Off : Nat := 0
  lap2Base : Nat := 0
  entry : Nat := 0
  /-- Cells held, and how many of them came from the port's reserve (R153). -/
  cells : Nat := 0
  fromReserve : Nat := 0
  /-- The rule action's target, tag and slow-path class (table Action word). -/
  target : Nat := 0
  tag : Nat := 0
  cls : Nat := 0
  /-- Its place in the arrival order of its port while order_en holds results back (R155). -/
  ticket : Nat := 0
  /-- Set by the SRTP engines: RTCP packet, and the plaintext's length. -/
  rtcp : Bool := false
  deriving DecidableEq, Repr

/-- A parse thread (R155, R156). -/
structure Thread where
  th : Nat
  pkt : Pkt
  pc : Nat
  cursor : Nat := 0
  nodes : Nat := 0
  issued : Nat := 0
  w : List Word := List.replicate 8 0
  key : List Byte := List.replicate 40 0
  profile : Nat := 0
  /-- The lap2_base and l4_off fields as the lap has set them. -/
  lap2 : Nat := 0
  l4 : Nat := 0
  /-- End of the innermost checked IP packet (R158). -/
  ipEnd : Option Nat := none
  /-- The lap has ended and an exact-match lookup waits for HBM (R161). -/
  waiting : Bool := false
  verdict : Nat := 0
  deriving DecidableEq, Repr

/-- A classification result that order_en holds back (R155). -/
structure Held where
  pkt : Pkt
  /-- Action word; `none` while its lookup has not returned. -/
  action : Option (BitVec 128)
  deriving DecidableEq, Repr

/-- An ACL entry (table RULE_WRITE records). -/
structure AclRow where
  idx : Nat
  value : List Byte
  mask : List Byte
  action : BitVec 128
  deriving DecidableEq, Repr

/-- An exact-match entry: bucket, entry of the bucket, profile, key, action word, and the leg that LEG_CREATE inserted it
for. -/
structure EmRow where
  bucket : Nat
  slot : Nat
  profile : Nat
  key : List Byte
  action : BitVec 128
  leg : Option Nat := none
  deriving DecidableEq, Repr

/-- A rule swap in progress (R167): its command, the epoch that it leads to, and the network time at which the pause began. -/
structure Swap where
  cmd : Nat
  epoch : Nat
  since : Nat
  deriving DecidableEq, Repr

/-- The packet engine. -/
structure PkeSt where
  nextPkt : Nat := 0
  /-- Ready records of first laps in arrival order. -/
  ready : List Pkt := []
  recirc : List Pkt := []
  threads : List Thread := []
  /-- Order restoration, by port (R155). -/
  held : List Held := []
  slow : List Pkt := []
  /-- Packets admitted to each slow-path class in this stride (R164). -/
  slowCnt : List Nat := List.replicate 16 0
  slowRate : List Nat := List.replicate 16 1024
  prog : List (Sparse 64) := [[], []]
  acl : List (List AclRow) := [[], []]
  em : List EmRow := []
  /-- Keys in the classification cache, most recent first (65,536 entries). -/
  cache : List (Nat × List Byte) := []
  swap : Option Swap := none
  /-- Cells held by each port from its reserve (R153). -/
  portUsed : List Nat := List.replicate 8 0
  /-- Cells taken from the shared pool. -/
  poolUsed : Nat := 0
  deriving DecidableEq, Repr

/-- Key-slot states (spec/08_srtp_engines.md, table Key-slot states; FREE slots are not listed). -/
inductive KState where
  | standby | active | draining | erasing
  deriving DecidableEq, Repr

/-- A key slot. -/
structure Key where
  handle : Nat
  fn : Nat
  leg : Nat
  profile : Nat
  rtcp : Bool
  state : KState
  fromIndex : Nat
  window : Nat
  invLimit : Nat
  inv : Nat := 0
  aged : Bool := false
  /-- Master key and salt. -/
  master : BitVec 256
  salt : BitVec 128
  deriving DecidableEq, Repr

/-- A leg's crypto context (R179, R180). -/
structure Crypto where
  leg : Nat
  /-- 0 the media stream, 1 the RFC 4588 stream, 2 the FlexFEC stream. -/
  stream : Nat := 0
  started : Bool := false
  roc : Nat := 0
  /-- Highest authenticated index (inbound) or the previous sequence number (outbound). -/
  high : Nat := 0
  /-- Bit i is index high − i. -/
  bitmap : BitVec 1024 := 0
  rtcpStarted : Bool := false
  rtcpHigh : Nat := 0
  rtcpBitmap : BitVec 1024 := 0
  deriving DecidableEq, Repr

/-- A packet that groom firmware gives the SRTP engines to protect: leg, RTCP packet. -/
structure OutRtcp where
  leg : Nat
  bytes : List Byte
  deriving DecidableEq, Repr

/-- The SRTP engines. -/
structure SecSt where
  /-- A fault inside an engine makes its results wrong, without any indication (R171). -/
  faulty : Bool := false
  keys : List Key := []
  crypto : List Crypto := []
  /-- Packets classified MEDIA, waiting for the engines (R170). -/
  inq : List Pkt := []
  /-- RTCP packets of groom firmware, waiting for the engines. -/
  outq : List OutRtcp := []
  deriving DecidableEq, Repr

/-- A frame that TX_FRAME, the forwarding stage or firmware hands to the Bridle (R290). -/
structure TxFrame where
  id : Nat
  port : Nat
  queue : Nat
  bytes : List Byte
  /-- Cells it holds in the packet buffer. -/
  cells : Nat := 0
  /-- Stride and network time of its entry. -/
  stride : Nat := 0
  time : Nat := 0
  /-- Post time (R291), `none` for immediate. -/
  post : Option Nat := none
  leg : Nat := 0
  /-- The TX_FRAME command that waits for it. -/
  cmd : Option Nat := none
  /-- Transmit time-stamp requested, with this identifier. -/
  tsId : Option Nat := none
  deriving DecidableEq, Repr

/-- A MAC port beyond its registers. -/
structure MacPort where
  /-- Training failures in a row (R139). -/
  fails : Nat := 0
  failRaised : Bool := false
  /-- Network times in ps at which the link pause and each priority's pause end (R150). -/
  pauseEnd : Nat := 0
  pfcEnd : List Nat := List.replicate 8 0
  /-- Frames the Bridle has handed over, in the transmit crossing (R148). -/
  txq : List TxFrame := []
  /-- Lanes of the port in the group it runs on (R144). -/
  group : List Nat := []
  /-- Lanes whose inversion has been reported since the link last came up (R140). -/
  polarity : List Nat := []
  /-- The deskew that the last link-up measured on a multi-lane type, in 2^−16 ns (R310). -/
  deskew : Nat := 0
  /-- A full-width retrain waits for the boundary (R143). -/
  retrain : Bool := false
  /-- Active with failover_en, its link left UP in this stride: R145 waits for the boundary. -/
  failPend : Option Nat := none
  deriving DecidableEq, Repr

/-- The backplane ports. -/
structure MacSt where
  ports : List MacPort := List.replicate 8 {}
  /-- Checks passed in a row by each excluded lane (R143). -/
  passes : List Nat := List.replicate 16 0
  /-- Lanes stopped by UNIT_STOP class 12 while their port runs. -/
  stopped : List Nat := []
  deriving DecidableEq, Repr
/-- A power step in the single queue (R372). -/
structure PStep where
  unit : UnitId
  /-- 0 an HBM stack's training, 1 a start of a unit, 2 the powering of a unit in TRAIN or in a quarter reset. -/
  kind : Nat
  deriving DecidableEq, Repr

/-- A mode change in progress (R374): the command, the boundary's stride, the mode it leaves, the units it waits for. -/
structure ModeChange where
  cmd : Nat
  stride : Nat
  target : Mode
  stops : List UnitId
  starts : List UnitId
  /-- The stops are complete and the starts have begun. -/
  begun : Bool := false
  deriving DecidableEq, Repr

/-- A Tack store in progress (R386): its command, the copy it writes (0 A, 1 B) and the generation. -/
structure Store where
  cmd : Nat
  copy : Nat
  gen : Nat
  deriving DecidableEq, Repr

/-- Power-up, modes, Tack store and fuses. -/
structure SysSt where
  mode : Mode
  /-- The base mode of DRAIN: the service mode that DRAIN was entered from (table Modes). -/
  drainBase : Mode := .bridge
  fenced : List Bool := [false, false, false, false]
  reject : Nat := 0
  /-- MODE_SETs accepted and waiting for the boundary, in acceptance order. -/
  modeCmds : List Nat := []
  /-- MODE_SETs whose boundary has come, with its stride, in acceptance order (R377). -/
  modeDue : List (Nat × Nat) := []
  /-- Band pools booked (R230): compositor 4 q + c, units, and the MODE_SET whose booking it still is. -/
  pools : List (Nat × Nat × Option Nat) := []
  changes : List ModeChange := []
  steps : List PStep := []
  /-- The HBM stack in training and its next phase: 0 repair, 1 initial, 2 re-centre (R333, R372). -/
  training : Option (Nat × Nat) := none
  /-- Units whose power step failed: their reset repeats it (R373). -/
  stepFailed : List UnitId := []
  /-- A stagger is in progress, its steps done, and the network time it started. -/
  stagger : Bool := false
  stepsDone : Nat := 0
  stagStart : Nat := 0
  lastStep : Option Nat := none
  /-- The unfence command whose quarter reset runs (R380). -/
  unfence : List (Nat × Nat) := []
  /-- An image has been accepted; firmware waits to leave BOOT (R371). -/
  imageOk : Bool := false
  /-- Firmware has loaded the Tack store and its settings. -/
  fwUp : Bool := false
  hostLoading : Bool := false
  bootSrc : Nat := 0
  /-- Boot slot to be tried next. -/
  bootSlot : Nat := 0
  store : Option Store := none
  /-- The Tack store, copy A at 0 and copy B at 0x4_0000, and the stores made to each copy (table TCK_STORES[c]). -/
  tack : Sparse 8 := []
  stores : List Nat := [0, 0]
  /-- Repair records that firmware keeps (R332), eight bytes each as a number. -/
  repairs : List (BitVec 64) := []
  /-- EV_TCK_LOADED waits for the first boundary after the PF's lock (R387). -/
  tckEvent : Bool := false
  rootKey : BitVec 256 := 0
  keyProg : Bool := false
  keyLock : Bool := false
  rbFloor : Nat := 0
  /-- THERM_N is low (R398). -/
  thermLow : Bool := false
  /-- TRAIN's last step is done; CONFIGURE follows at the boundary (R375). -/
  trainDone : Bool := false
  deriving DecidableEq, Repr
/-- A pulse generator's programme (R315). -/
structure PulseProg where
  mode : Nat
  invert : Bool
  start : Nat
  period : Nat
  width : Nat
  deriving DecidableEq, Repr

/-- A pulse generator. -/
structure Pulse where
  cur : PulseProg
  /-- Network time of the next edge of a SINGLE or PERIODIC programme. -/
  next : Option Nat := none
  pending : Option (PulseProg × Nat) := none
  /-- Network time at which the pulse in progress ends. -/
  widthEnd : Option Nat := none
  /-- The scheduled time of the last edge emitted, and of the first edge of the programme in force (R316). -/
  lastEdge : Option Nat := none
  first : Nat := 0
  deriving DecidableEq, Repr

/-- An entry of a transmit time-stamp queue (R312). -/
structure TxTs where
  tsId : Nat
  sent : Bool
  stamp : Nat
  deriving DecidableEq, Repr

/-- A PTP frame that groom firmware has taken from slow-path class 7 for the servo (R309): port, frame, receive time-stamp. -/
structure PtpIn where
  port : Nat
  bytes : List Byte
  stamp : Nat
  deriving DecidableEq, Repr

/-- The network time unit. -/
structure TimSt where
  /-- The clock in whole ns since the PTP epoch, and its fraction: 2^−32 ns units (R302), each in 256,000,000,000 parts, which a scaled
  increment leaves (DESIGN CHOICE, log entry 5). -/
  clock : Nat := 0
  frac : Nat := 0
  /-- The stride count (R25). -/
  stride : Nat := 0
  /-- Strides are produced (not in RESET, R28). -/
  running : Bool := false
  /-- Servo: consecutive offsets within lock_thresh, and beyond 4 × lock_thresh (table Servo states). -/
  inBand : Nat := 0
  outBand : Nat := 0
  /-- A step was refused in this acquisition: finish it by frequency alone (R307). -/
  noStep : Bool := false
  /-- Stride of the last EV_TIM_JUMP_REFUSED (R306). -/
  refusedAt : Option Nat := none
  /-- Frequencies in force while LOCKED, newest first, each with its ns, back to 16 s; and since when the present one
  counts (R308). -/
  lockLog : List (Nat × Word) := []
  lockSince : Nat := 0
  /-- Strides spent in the current holdover. -/
  holdStrides : Nat := 0
  /-- PTP frames that wait for the servo, oldest first, and the two-step Sync that waits for its Follow_Up: port, sequence
  number (R309). -/
  ptp : List PtpIn := []
  syncWait : Option (Nat × Nat) := none
  txts : List (List TxTs) := List.replicate 8 []
  pulses : List Pulse := []
  deriving DecidableEq, Repr

/-- The Bridle's state of one queue (R288 to R301). -/
structure BrdQ where
  frames : List TxFrame := []
  deficit : Nat := 0
  /-- Bucket in millibytes (R294). -/
  bucket : Int := 16384000
  /-- Largest sojourn of the frames started in this stride. -/
  sojourn : Nat := 0
  deriving DecidableEq, Repr

/-- The Bridle's state of one port. -/
structure BrdPort where
  qs : List BrdQ := List.replicate 16 {}
  bucket : Int := 16384000
  wheel : List TxFrame := []
  /-- Weighted queue being served and whether its quantum has been added on this visit (R293). -/
  turn : Nat := 4
  visited : Bool := false
  /-- Shaper settings in force, taken at ticks (R295): rate and burst and enable of the port (index 16) and queues. -/
  shape : List (Nat × Nat × Bool) := List.replicate 17 (0, 16384, false)
  forgive : List Nat := []
  /-- Operating gate list: entries (interval, open), its takeover time, and the entry in force. -/
  oper : List (Nat × Nat) := []
  operBase : Nat := 0
  entry : Nat := 0
  /-- The pending list and its takeover time (R298). -/
  pend : Option (List (Nat × Nat) × Nat) := none
  /-- Network time in ps at which the frame in progress or committed ends on the wire. -/
  busyUntil : Nat := 0
  /-- The last 8,000 ns and 256 ns ticks done. -/
  lastShape : Nat := 0
  lastWheel : Nat := 0
  /-- Port that a failover moved this port's traffic to. -/
  movedTo : Option Nat := none
  deriving DecidableEq, Repr

/-- The Bridle. -/
structure BrdSt where
  ports : List BrdPort := List.replicate 8 {}
  nextFrame : Nat := 0
  deriving DecidableEq, Repr

/-- A request in a pseudo-channel's queues (R326). -/
structure HbmReq where
  id : Nat
  unit : UnitId
  write : Bool
  live : Bool
  addr : Nat
  /-- For a write, its bytes; for a read, how many it wants. -/
  bytes : List Byte
  len : Nat
  /-- Controller cycles it has waited. -/
  age : Nat := 0
  /-- The error that its read meets: 0 none, 1 correctable, 2 uncorrectable. -/
  err : Nat := 0
  deriving DecidableEq, Repr

/-- A bank's page state: open row, last activated row, the 2-bit counter (R327), and refresh due. -/
structure HbmBank where
  bank : Nat
  openRow : Option Nat := none
  lastRow : Option Nat := none
  ctr : Nat := 2
  refreshDue : Bool := false
  /-- Neighbour rows to refresh before the bank's next activation (R329). -/
  nbr : List Nat := []
  deriving DecidableEq, Repr

/-- A pseudo-channel scheduler. -/
structure HbmPc where
  h : Nat
  pc : Nat
  reads : List HbmReq := []
  writes : List HbmReq := []
  drain : Bool := false
  lfsr : Word := 1
  banks : List HbmBank := []
  deriving DecidableEq, Repr

/-- A retrain window of a group (R336). -/
structure Retrain where
  h : Nat
  c : Nat
  steps : Nat := 0
  running : Bool := false
  deriving DecidableEq, Repr

/-- A Paddock requester at a bank (R341): master number, class, priority, beats left. -/
structure PadReq where
  master : Nat
  trump : Bool
  prio : Nat
  beats : Nat
  deriving DecidableEq, Repr

/-- A Paddock bank's arbiter (R339 to R342). -/
structure PadBank where
  q : Nat
  n : Nat
  reqs : List PadReq := []
  owner : Option Nat := none
  lastWin : Option Nat := none
  grants : Nat := 0
  masked : Bool := false
  /-- PAD_CTRL as of the last quota window (R342, R343). -/
  ctrl : Word := 0x624830
  deriving DecidableEq, Repr

/-- HBM controllers and Paddock. -/
structure MemSt where
  hbm : Sparse 8 := []
  /-- 64-byte units that read as uncorrectable until written whole (R330). -/
  hbmBad : List Nat := []
  pcs : List HbmPc := []
  nextReq : Nat := 0
  retrains : List Retrain := []
  /-- Strides at which each group's last window ended (R336). -/
  lastRetrain : List (Nat × Nat × Nat) := []
  /-- Stride at which the running 1,200-stride period of group counts began. -/
  periodStart : Nat := 0
  /-- Groups whose EV_MEM_CE_THRESH of the running period has been raised. -/
  ceRaised : List (Nat × Nat) := []
  /-- Stacks that have read below 82 °C: their refresh is normal from the next stride (R328). -/
  cooling : List Nat := []
  /-- Rows' correctable errors in the last 1,200 strides (R332): row key, strides. -/
  rowCe : List (Nat × Nat) := []
  /-- Read data answered: request and bytes, poisoned. -/
  answers : List (Nat × List Byte × Bool) := []
  /-- Arenas: handle and ordered extents (R325). -/
  arenas : List (Nat × List Nat) := []
  /-- Extents of released arenas, in transit until the boundary. -/
  transitExt : List Nat := []
  pad : List (Sparse 8) := [[], [], [], []]
  padBanks : List PadBank := []
  local_ : List (Nat × Sparse 8) := []
  /-- Teams (8 q + t) whose library region firmware has loaded, with the special-operation set (R116, R132). -/
  library : List (Nat × Bool) := []
  /-- Drift tracking owed by channels on leaving STANDBY (R335). -/
  driftOwed : List (Nat × Nat) := []
  selfRefresh : Bool := false
  deriving DecidableEq, Repr

/-- A DMA channel's card in service (R350). -/
structure DmaRun where
  unit : UnitId
  slot : Nat
  next : Nat := 0
  done : Nat := 0
  bad : Nat := 0
  first : Nat := 0xFFFF
  cause : Nat := 0
  addr : Nat := 0
  deriving DecidableEq, Repr

/-- The DMA engines. -/
structure DmaSt where
  runs : List DmaRun := []
  deriving DecidableEq, Repr
/-- Settings of an outbound leg (spec/13_leg_forwarding.md, table LEG_SET operands). -/
structure LegCfg where
  bweFixed : Bool := false
  hold : Bool := false
  sCap : Nat := 2
  tCap : Nat := 2
  minRate : Nat := 64000
  maxRate : Nat := 50000000
  fixedRate : Nat := 0
  headroom : Nat := 100
  rtxMode : Nat := 0
  rtxMax : Nat := 2
  retain : Nat := 1200
  rtxRate : Nat := 100
  fecMode : Nat := 0
  fecL : Nat := 10
  fecD : Nat := 4
  pace : Nat := 4
  port : Nat := 0
  queue : Nat := 0
  deriving DecidableEq, Repr

/-- A leg (R267 to R286). -/
structure Leg where
  handle : Nat
  fn : Nat
  part : Nat
  /-- Outbound. -/
  out : Bool
  media : Nat
  mix : Bool := false
  rtcp : Bool := false
  vlan : Bool := false
  pt : Nat := 0
  ssrc : Nat
  rtxSsrc : Nat := 0
  fecSsrc : Nat := 0
  rtxPt : Nat := 0
  fecPt : Nat := 0
  clock : Nat := 0
  fmt : Nat := 0
  simIndex : Nat := 0
  fbLeg : Nat := 0
  simGroup : Nat := 0
  addr : List Byte := []
  extKeep : Nat := 0
  ddId : Nat := 0
  /-- Settings in force, and as set (R286). -/
  cfg : LegCfg := {}
  want : LegCfg := {}
  /-- The source that feeds it; the one it is to join, and whether that replaces. -/
  source : Option Nat := none
  join : Option (Nat × Bool) := none
  /-- FANOUT_DEL that waits for the end of the picture (R273). -/
  delCmd : Option Nat := none
  /-- Next RTP sequence number, timestamp and stride of the last packet, offset (R277). -/
  seq : Nat := 0
  ts0 : Nat := 0
  sent : Bool := false
  tsLast : Nat := 0
  cLast : Nat := 0
  off : Nat := 0
  /-- Layer choice, target, and the stride since which the target has ranked above the choice (R276). -/
  s : Nat := 0
  t : Nat := 0
  ts : Nat := 0
  tt : Nat := 0
  upSince : Option Nat := none
  /-- The picture being handled, and whether its last packet has been. -/
  pic : Option Nat := none
  picEnd : Bool := true
  /-- Bytes of the leg's earlier packets of the picture (R279). -/
  picBytes : Nat := 0
  /-- Groom firmware's estimate in b/s (R269). -/
  bwe : Nat := 0
  /-- FlexFEC: L, D (0 for rows), the group's rewritten packets with their post times (R285). -/
  fecGroup : Option (Nat × Nat) := none
  fecPkts : List (List Byte × Option Nat) := []
  fecSeq : Nat := 0
  rtxSeq : Nat := 0
  /-- Resend bucket in bits (R283). -/
  bucket : Nat := 0
  packets : Nat := 0
  octets : Nat := 0
  /-- Last identifiers read and written: VP8 or VP9 picture ID, TL0PICIDX (R277). -/
  pidIn : Option Nat := none
  pidOut : Nat := 0
  tl0In : Option Nat := none
  tl0Out : Nat := 0
  /-- Inbound, fmt 3: the template table that groom firmware has filled. -/
  templates : List Template := []
  /-- Inbound: latest RTP timestamp received; bits by stride, spatial and temporal layer (R275). -/
  inPic : Option Nat := none
  rate : List (Nat × Nat × Nat × Nat) := []
  /-- Stride of the last refresh request on its fb_leg, and the leg whose request waits (R271). -/
  lastReq : Option Nat := none
  reqWait : Option Nat := none
  deriving DecidableEq, Repr

/-- A media packet after decryption: its plaintext, its leg, the consumers that still hold it (R154, R268). -/
structure MPkt where
  pkt : Pkt
  leg : Nat
  refs : Nat
  deriving DecidableEq, Repr

/-- A packet of a source that waits for the forwarding stage (R278). -/
structure SPkt where
  /-- The source: an encode stream, an inbound leg, or the one leg that a mix or a cascade payload is for. -/
  src : Nat
  /-- The inbound packet that it is, and the cells that a packetiser has taken for it. -/
  held : Option Nat := none
  cells : Nat := 0
  bytes : List Byte
  s : Nat := 0
  t : Nat := 0
  /-- Picture number, or RTP timestamp of an inbound packet. -/
  pic : Nat := 0
  first : Bool := true
  last : Bool := true
  /-- A leg may join at it, or move its temporal layer up. -/
  join : Bool := false
  up : Bool := true
  /-- fmt 3: the layers that its frame depends on, and whether its template is known. -/
  deps : List (Nat × Nat) := []
  known : Bool := true
  /-- Payload format whose identifiers are rewritten: 1 VP8, 2 VP9. -/
  fmt : Nat := 0
  /-- The legs that are still to be served, once its turn has come (R278). -/
  dests : Option (List Nat) := none
  /-- Time of hand-off in ns and the stream's period: post-class (R279). -/
  post : Option (Nat × Nat) := none
  /-- Bytes 22 to 31 of its packet record (table Encode action fields of the packet record). -/
  act : List Byte := []
  deriving DecidableEq, Repr

/-- An entry of the retransmission index (R280). -/
structure RtxEnt where
  slot : Nat
  leg : Nat
  gen : Nat
  n : Nat
  /-- Log position, length of the packet, stride of storing. -/
  pos : Nat
  len : Nat
  stride : Nat
  resends : Nat := 0
  lastResend : Option Nat := none
  deriving DecidableEq, Repr

/-- The forwarding stage. -/
structure FwdSt where
  legs : List Leg := []
  inq : List SPkt := []
  mpkts : List MPkt := []
  /-- RTCP packets received: inbound leg, the packet whose cells they hold, one RTCP packet (R269). -/
  rtcp : List (Nat × Nat × List Byte) := []
  rtx : List RtxEnt := []
  /-- The log's write head and its records: position, length, stride. -/
  head : Nat := 0
  recs : List (Nat × Nat × Nat) := []
  /-- Generations of leg indexes that have been released. -/
  gens : List (Nat × Nat) := []
  sweep : Nat := 0
  deriving DecidableEq, Repr

/-- A limiter (R196): gain in Q1.15, the block read last with its target. -/
structure Limiter where
  g : Nat := 32768
  prev : List Int := List.replicate 40 0
  tgt : Nat := 32768
  deriving DecidableEq, Repr

/-- An audio encoder at work: its limiter, the output blocks of the frame so far, frames coded. -/
structure AEnc where
  lim : Limiter := {}
  /-- Limited output blocks that wait for their encode cards: block number, samples. -/
  blocks : List (Nat × List Int) := []
  frame : List Int := []
  coded : Nat := 0
  deriving DecidableEq, Repr

/-- A conference (R183 to R202). -/
structure Conf where
  handle : Nat
  fn : Nat
  handMax : Nat
  handEv : Bool
  hpf : Nat
  delay : Nat
  home : Nat
  /-- Own cascade payloads kept for the loop-back: block, members (participant or 0 for the craft talker, tag, samples). -/
  own : List (Nat × List (Nat × Nat × List Int)) := []
  /-- CRCs of the last 16 pots: block, CRC (R202). -/
  crcs : List (Nat × Nat) := []
  deriving DecidableEq, Repr

/-- The fields that PART_SET changes at the next boundary (R187). -/
structure PartSet where
  mask : Nat
  mute : Bool
  deaf : Bool
  pin : Bool
  bar : Bool
  gain : Nat
  deriving DecidableEq, Repr

/-- A participant. -/
structure Part where
  handle : Nat
  fn : Nat
  conf : Nat
  peer : Bool
  levelExt : Bool
  always : Bool
  codec : Nat
  extId : Nat
  peerMax : Nat
  jbMin : Nat
  jbMax : Nat
  tag : Nat
  gain : Nat
  mute : Bool
  deaf : Bool := false
  pin : Bool := false
  bar : Bool := false
  group : Nat
  /-- Changes that wait for the boundary, in order, and a group that waits for its frame boundary. -/
  sets : List PartSet := []
  nextGroup : Option Nat := none
  /-- Playout delay in strides (R415). -/
  delay : Nat
  /-- Level v in −dBov, latest λ, S, strides below the floor, stride of the last packet (R190 to R192). -/
  vLevel : Nat := 127
  lambda : Nat := 0
  level : Nat := 0
  below : Nat := 0
  lastPkt : Option Nat := none
  /-- Member: first block j, and k where it leaves (R193); the blocks j to k − 1 for which personal encodes run. -/
  hand : Option (Nat × Option Nat) := none
  pers : List (Nat × Option Nat) := []
  cand : Bool := false
  /-- Decoded since this stride without a break. -/
  decodeFrom : Option Nat := none
  decoded : Bool := false
  /-- Filter history: x[i−1], x[i−2], h[i−1], h[i−2] (R194). -/
  hist : Int × Int × Int × Int := (0, 0, 0, 0)
  /-- The block of the present stride is written. -/
  written : Bool := false
  /-- Jitter buffer: playout stride, payload; and the timestamp and stride that map one to the other. -/
  jb : List (Nat × List Byte) := []
  jbBase : Option (Nat × Nat) := none
  /-- Strides of its codec's frame as its packets have it, 0 before the first; arrivals of the last 2 s: stride, lateness. -/
  frame : Nat := 0
  late : List (Nat × Int) := []
  /-- Its personal encode (R193), for blocks j to k − 1. -/
  enc : AEnc := {}
  deriving DecidableEq, Repr

/-- An audio encode stream: a listener group. -/
structure AStream where
  handle : Nat
  fn : Nat
  conf : Nat
  codec : Nat
  frame : Nat
  lowLat : Bool
  bitrate : Nat
  gain : Nat
  nextGain : Option Nat := none
  nextRate : Option Nat := none
  enc : AEnc := {}
  deriving DecidableEq, Repr

/-- A cascade payload packet that a peer has sent (R200, R201). -/
structure CascPkt where
  part : Nat
  block : Nat
  index : Nat
  last : Bool
  /-- Members: tag, samples. -/
  members : List (Nat × List Int)
  /-- The packet whose cells it holds. -/
  held : Nat
  deriving DecidableEq, Repr

/-- What CRAFT_SET attaches the craft port to. -/
structure CraftCfg where
  conf : Nat
  listen : Bool
  talk : Bool
  talkGain : Nat
  listenGain : Nat
  tag : Nat
  deriving DecidableEq, Repr

/-- The craft port beyond its registers (R203 to R206). -/
structure CraftSt where
  cfg : Option CraftCfg := none
  /-- A CRAFT_SET that waits for the boundary. -/
  next : Option (Option CraftCfg) := none
  /-- The stride in which the jack switch closed, and whether detection is running. -/
  jack : Option Nat := none
  detecting : Bool := false
  /-- Readings in a row in one window: 0 none, 1 A … 4 D, 5 idle, 6 above 2.55 V. -/
  win : Nat := 0
  winRun : Nat := 0
  /-- The button pressed, strides held, long reported; strides in any button window since the last idle. -/
  pressed : Option Nat := none
  held : Nat := 0
  long : Bool := false
  /-- The microphone is silent for a button until 3 strides after release: strides left. -/
  quiet : Nat := 0
  /-- Outputs shorted and switched off, left and right: since when, or since the last retry. -/
  offL : Option Nat := none
  offR : Option Nat := none
  /-- Faults present, the latest first: code, strides for which the condition has been absent (R205). -/
  faults : List (Nat × Nat) := []
  hist : Int × Int × Int × Int := (0, 0, 0, 0)
  lim : Limiter := {}
  /-- The mix that plays in the next stride. -/
  play : List Int := []
  deriving DecidableEq, Repr

/-- A record unit of Paddock (R185): the participants and the stream whose records it holds. -/
structure RecUnit where
  conf : Nat
  home : Nat
  parts : List Nat := []
  stream : Option Nat := none
  deriving DecidableEq, Repr

/-- Audio. -/
structure AudSt where
  confs : List Conf := []
  parts : List Part := []
  streams : List AStream := []
  units : List RecUnit := []
  casc : List CascPkt := []
  /-- Cascade packets as their legs give them: peer participant, packet. -/
  cascq : List (Nat × Nat) := []
  /-- Cards that wait for the mixing unit of a quarter: quarter, slot (R198). -/
  waiting : List (Nat × Nat) := []
  craft : CraftSt := {}
  deriving DecidableEq, Repr

/-- A picture record (spec/10_video_decode.md, table Picture record). -/
structure PicRec where
  surface : Nat
  concealed : Bool := false
  tainted : Bool := false
  grey : Bool := false
  levels : Nat
  tenBit : Bool
  width : Nat
  height : Nat
  rtpTs : Nat
  ready : Nat
  published : Nat
  concealBlk : Nat := 0
  seq : Nat
  deriving DecidableEq, Repr

/-- A picture in decode, or a decoded picture that the context holds. -/
structure Pic where
  id : Nat
  rtpTs : Nat
  ready : Nat
  w : Nat
  h : Nat
  /-- Its surface, once decoding has taken one (R215). -/
  surface : Option Nat := none
  /-- It is (to be) a reference; a random access picture; completes a recovery point. -/
  isRef : Bool
  rap : Bool
  recovery : Bool
  /-- The pictures that it refers to, and the references that it keeps held after it. -/
  uses : List Nat
  keeps : List Nat
  /-- CTU size; CTUs of each segment card in decode order; monochrome; the CTU at which its parse card ended short. -/
  ctb : Nat := 16
  areas : List (List Nat) := []
  mono : Bool := false
  stopAt : Option Nat := none
  /-- Bytes of the bitstream buffer that it holds. -/
  bytes : Nat
  /-- Packets lost, a reference missing, or an error met in a card: part of it is concealed. -/
  damaged : Bool := false
  concealBlk : Nat := 0
  /-- Every concealed area came from mid-grey. -/
  allGrey : Bool := true
  concealed : Bool := false
  tainted : Bool := false
  /-- Its finish card, and its pixel work cards that have not ended. -/
  finish : Option Nat := none
  work : List Nat := []
  /-- Stride of the first deal of a card of it (R217). -/
  firstDeal : Option Nat := none
  /-- A pixel work card was dropped: not published (R220). Abandoned (R217). -/
  dropped : Bool := false
  abandoned : Bool := false
  /-- Its finish card has retired. -/
  done : Bool := false
  deriving DecidableEq, Repr

/-- A decode context (R207 to R223). -/
structure Ctx where
  handle : Nat
  fn : Nat
  codec : Nat
  prof : Nat
  deferred : Bool
  pyr : Nat
  waitRap : Bool
  refReq : Nat
  slack : Nat
  reasm : Nat
  segMax : Nat
  maxW : Nat
  maxH : Nat
  backlog : Nat
  tenBit : Bool
  layer : Nat
  pt : Nat
  inLeg : Nat
  fbLeg : Nat
  dpb : Nat
  surfaces : Nat
  bufBytes : Nat
  /-- Bytes of the bitstream buffer in use by pictures in decode. -/
  bufUsed : Nat := 0
  /-- RTP packets in the bitstream buffer and not yet cut into pictures: packet, stride of arrival. -/
  pkts : List (List Byte × Nat) := []
  /-- The sequence number that the next picture begins with. -/
  nextSeq : Option Nat := none
  /-- The RTP timestamp of the last picture that became ready. -/
  lastTs : Option Nat := none
  pics : List Pic := []
  nextPic : Nat := 0
  waiting : Bool
  /-- A flush that waits for the end of this picture, which is in decode (R223). -/
  flush : Option Nat := none
  /-- Pictures published, and the timestamp of the last. -/
  seq : Nat := 0
  pubTs : Nat := 0
  pubTaint : Bool := false
  record : Option PicRec := none
  concealCnt : Nat := 0
  /-- The last picture published or dropped was untainted (R221). -/
  clean : Bool := true
  lastReq : Option Nat := none
  /-- A request deferred to the end of the interval: kind and source. -/
  reqWait : Option (Nat × Nat) := none
  released : Bool := false
  deriving DecidableEq, Repr

/-- A layer of a layout (spec/11_compositor.md, table Layer descriptor). -/
structure Layer where
  source : Nat := 0
  visible : Bool := false
  auto_ : Bool := false
  greyPh : Bool := false
  level : Nat := 0
  vtap : Nat := 0
  alpha : Nat := 0
  slate : Nat := 0
  dstX : Nat := 0
  dstY : Nat := 0
  dstW : Nat := 2
  dstH : Nat := 2
  cropX : Nat := 0
  cropY : Nat := 0
  cropW : Nat := 0
  cropH : Nat := 0
  cmode : Nat := 0
  srcCs : Nat := 0
  stale : Nat := 0
  ph : Nat := 0
  c : List Int := List.replicate 9 0
  inOff : List Int := [0, 0, 0]
  outOff : List Int := [0, 0, 0]
  deriving DecidableEq, Repr

/-- A copy of a layout's tables: 64 layers and the background colour. -/
structure LayerSet where
  layers : List Layer := List.replicate 64 {}
  bg : Nat
  deriving DecidableEq, Repr

/-- What a layer shows in a frame (R241, R242): 0 nothing, 1 a picture, 2 a slate, 3 the placeholder colour. -/
structure Latch where
  layer : Nat
  kind : Nat
  /-- The object whose arena holds the surface, the surface, its offset there, its record. -/
  owner : Nat := 0
  surface : Nat := 0
  off : Nat := 0
  record : Option PicRec := none
  level : Nat := 0
  direct : Bool := false
  deriving DecidableEq, Repr

/-- A frame of a layout in composition. -/
structure Frame where
  phase : Nat
  set : LayerSet
  latches : List Latch
  /-- Copy surface that it writes. -/
  copy : Option Nat
  bandsLeft : List Nat
  dropped : Bool := false
  deriving DecidableEq, Repr

/-- What a layer did in the last frame, for OBJ_QUERY. -/
structure LayerRt where
  level : Nat := 0
  direct : Bool := false
  stale : Bool := false
  placeholder : Bool := false
  staleCount : Nat := 0
  seq : Nat := 0
  deriving DecidableEq, Repr

/-- A layout (R229 to R245). -/
structure Layout where
  handle : Nat
  fn : Nat
  home : Nat
  comp : Nat
  period : Nat
  phase : Nat
  tenBit : Bool
  outCs : Nat
  hbmCopy : Bool
  slates : Nat
  outW : Nat
  outH : Nat
  /-- ENCODE_PIX that the layout books. -/
  encPix : Nat
  active : LayerSet
  shadow : LayerSet
  pending : Option LayerSet := none
  /-- Stored slates: index, width, height. -/
  slateAt : List (Nat × Nat × Nat) := []
  frames : List Frame := []
  rt : List LayerRt := List.replicate 64 {}
  /-- The record of the copy surface published last. -/
  record : Option PicRec := none
  copies : Nat := 0
  deriving DecidableEq, Repr

/-- A band buffer (R243): its compositor, frame and band, its units, and its planes level by level. -/
structure BandBuf where
  comp : Nat
  layout : Nat
  phase : Nat
  band : Nat
  units : Nat
  planes : List (List Nat)
  deriving DecidableEq, Repr

/-- A pair of spatial layer and temporal id under rate control (R255 to R258). -/
structure RatePair where
  s : Nat
  t : Nat
  debt : Int := 0
  /-- Cost of each band in the pair's last picture. -/
  wgt : List Nat := []
  firstQp : Option Nat := none
  deriving DecidableEq, Repr

/-- A predicted partition of a unit: its rectangle within the unit, whether it is taken from the layer below, its vector in quarter
samples. -/
structure PartVec where
  x : Nat
  z : Nat
  w : Nat
  h : Nat
  layer : Bool
  vx : Int
  vz : Int
  deriving DecidableEq, Repr

/-- The form in which a unit is coded (R257): intra, predicted, zero motion without a residual, DC intra without a residual. -/
inductive UnitForm where
  | intra
  | inter (parts : List PartVec)
  | zero
  | dc
  deriving DecidableEq, Repr

/-- A picture that later ones may refer to (R251): number, temporal id, which of the stream's three surfaces per layer hold it, and the
marks of each layer's wave as they stood in it (R260). -/
structure EncRef where
  num : Nat
  tl : Nat
  slot : Nat
  marks : List (List (Nat × Nat)) := []
  deriving DecidableEq, Repr

/-- A layer of a picture in coding. -/
structure EncLayer where
  s : Nat
  target : Nat
  hard : Nat
  used : Nat := 0
  /-- Units not yet coded, and coded at minimum cost. -/
  unitsLeft : Nat
  minUnits : Nat := 0
  exhausted : Bool := false
  /-- Budget of the band coded last (R256). -/
  budget : Nat := 0
  costs : List Nat := []
  qps : List Nat := []
  /-- Wave group that the picture codes as intra. -/
  group : Option Nat := none
  /-- Forms of the units coded so far, and the vector that each one's search kept (R254). -/
  forms : List UnitForm := []
  vecs : List (Int × Int) := []
  deriving DecidableEq, Repr

/-- A picture in coding. -/
structure EncPic where
  num : Nat := 0
  phase : Nat
  tl : Nat := 0
  start : Bool := false
  params : Bool := false
  layers : List EncLayer := []
  /-- Coded data: spatial layer, NAL unit or OBU. -/
  units : List (Nat × List Byte) := []
  /-- Bands not yet coded, the source surface that a surface input holds (R249). -/
  bandsLeft : List Nat := []
  src : Option (Nat × Nat) := none
  /-- The phase stride in which its picture was composed (R264). -/
  ts : Nat := 0
  /-- The surfaces that its reconstruction takes, and the picture that it refers to. -/
  slot : Nat := 0
  ref : Option EncRef := none
  /-- Staging area (R253): L1 to L3 rows of bands, as planes level by level. -/
  staged : List (Nat × List (List Nat)) := []
  /-- Its phase boundary has passed. -/
  started : Bool := false
  /-- Why it is to be replaced by a fill picture (R262). -/
  fill : Option Nat := none
  deriving DecidableEq, Repr

/-- What ENC_SET changes at the next phase boundary (R266), and the settings of the stream. -/
structure EncCfg where
  rates : List Nat
  waveN : Nat
  qpMin : Nat
  qpMax : Nat
  cap : Nat
  deriving DecidableEq, Repr

/-- The refresh wave of one spatial layer (R259 to R261): remaining count, current group, marks by group. -/
structure Wave where
  left : Nat := 0
  group : Nat := 0
  marks : List (Nat × Nat) := []
  deriving DecidableEq, Repr

/-- A video encode stream (R246 to R266). -/
structure EncS where
  handle : Nat
  fn : Nat
  layout : Nat
  codec : Nat
  prof : Nat
  surface : Bool
  sLayers : Nat
  tLayers : Nat
  period : Nat
  phase : Nat
  home : Nat
  pipe : Nat
  outW : Nat
  outH : Nat
  tenBit : Bool
  mtu : Nat
  pt : Nat
  ddId : Nat
  cfg : EncCfg
  next : Option EncCfg := none
  /-- Number of the next picture; the start picture has been sent. -/
  num : Nat := 0
  begun : Bool := false
  pairs : List RatePair := []
  waves : List Wave := []
  waving : Bool := false
  /-- A request that waits for a TL0 picture: its source; the source of the last request taken. -/
  waveReq : Option Nat := none
  waveSrc : Nat := 0
  /-- Parameter sets are due in the next TL0 picture (R263). -/
  paramsDue : Bool := true
  /-- Pictures whose cards are built, oldest first. -/
  pics : List EncPic := []
  /-- References, newest first (R251). -/
  refs : List EncRef := []
  /-- The vectors of the units of the last picture by layer and temporal id (R254). -/
  vecs : List ((Nat × Nat) × List (Int × Int)) := []
  /-- The last picture sent was a fill picture. -/
  filled : Bool := false
  seqs : List Nat := [0, 0, 0]
  sent : Nat := 0
  noSource : Bool := false
  /-- Its source layout has been released (R249). -/
  gone : Bool := false
  deriving DecidableEq, Repr

/-- Decode contexts, layouts and video encode streams. -/
structure VidSt where
  ctxs : List Ctx := []
  layouts : List Layout := []
  bufs : List BandBuf := []
  encs : List EncS := []
  deriving DecidableEq, Repr
/-- Everything but the queue of waiting commands. -/
structure Dev where
  variant : Variant
  /-- The register file: each register's value XOR its reset value (`regReset`), so that an unlisted register is at
  reset. -/
  regs : Sparse 32 := []
  /-- The register file as of the last stride boundary, for fields that take effect at a boundary. -/
  regsB : Sparse 32 := []
  /-- Latched HI halves, by the HI register's address (R29, R304, R414). -/
  latch : Sparse 32 := []
  /-- Free values drawn so far: the model's own counter (`Config.freeValue`). -/
  freeCtr : Nat := 0
  out : List Out := []
  tim : TimSt := {}
  hif : HifSt := {}
  evt : EvtSt := {}
  ldg : LedgSt := {}
  obj : ObjSt := {}
  dlr : DlrSt := {}
  cores : List Core := []
  mac : MacSt := {}
  pke : PkeSt := {}
  sec : SecSt := {}
  brd : BrdSt := {}
  mem : MemSt := {}
  dma : DmaSt := {}
  fwd : FwdSt := {}
  aud : AudSt := {}
  vid : VidSt := {}
  sys : SysSt
  deriving DecidableEq, Repr

/-- The state: the device and the commands waiting, first in, first out. -/
structure State where
  dev : Dev
  pending : List Instr
  deriving DecidableEq, Repr

/-- Why a step would stop. No meaning of this model raises a fault: the spec gives every access and every command its
effect (R50, R70, R72, R364, R412). The type keeps the one stop that memory as plain data asks for. -/
inductive Fault where
  /-- An access outside every memory of the device. Raised by no command: unmapped accesses have effects of their own
  (R109, R320, R344). Safe. -/
  | noSuchAddress (addr : Nat)
  deriving DecidableEq, Repr

/-- Why a command has no meaning. -/
inductive Refusal where
  /-- The command's meaning is not written yet. Raised by its arm of `exec`; safe. -/
  | notModelled (mnemonic : String)
  deriving DecidableEq, Repr

/-- The pulse programmes after power-on reset (R314): G0 every second, G1 with the strides, G2 and G3 off. -/
def pulsesReset : List Pulse := [
  { cur := ⟨2, false, 0, 1000000000, 0x2710⟩, next := some 1000000000, lastEdge := some 0 },
  { cur := ⟨3, false, 0, 0, 0⟩ },
  { cur := ⟨0, false, 0, 0, 0⟩ },
  { cur := ⟨0, false, 0, 0, 0⟩ }]

/-- A ledger with everything free. -/
def ledgFull (l inst cap : Nat) : Ledg := ⟨l, inst, cap, 0, cap, 0⟩

/-- Capacity of each of the ledgers 0 to 6 (R361, table Ledgers). -/
def Variant.ledgCap (v : Variant) : Nat → Nat
  | 0 => 65536
  | 1 => v.capCardSlots
  | 2 => v.capFlows
  | 3 => v.capKeySlots
  | 4 => v.capClass
  | 5 => v.capRtx
  | 6 => match v with | .v2 => (49152 - 2304 - 8192) / 2 | _ => 43776
  | _ => 0

/-- The ledgers after reset: everything free (R361, R384); band pools have their reset size and take part once their
compositors have started. -/
def ledgersReset (v : Variant) : List Ledg :=
  (List.range 7).map (fun l => ledgFull l 0 (v.ledgCap l)) ++
  (List.range v.quarters).map (fun q => ledgFull 7 q v.padUnits) ++
  (if v.video then (List.range (4 * v.quarters)).map (fun i => ledgFull 8 i 0x400) else []) ++
  (List.range 14).flatMap (fun b => (List.range (v.budgetInsts b)).map (fun i => ledgFull (16 + b) i (v.budgetCap b)))

/-- The device right after power-on reset: mode RESET, every register at its reset value, the clock at 0 (R28), nothing
booked, every memory empty (R384). (DESIGN CHOICE, log entry 4; DESIGN CHOICE, log entry 19.) -/
def Dev.reset (v : Variant) : Dev :=
  { variant := v
    ldg := { cur := ledgersReset v }
    tim := { pulses := pulsesReset }
    sys := { mode := .reset } }

/-- The machine right after reset: an SNU-V4 (the variant that the spec's figures are for) with no command waiting. (DESIGN CHOICE, log entry 4.) -/
def State.reset : State := ⟨Dev.reset .v4, []⟩

end Sys2Proof.Machine
end

