-- ==== Sys2Proof/Machine/Ops.lean ====
section
/-! DEFINITION. Named operations that every unit shares: registers and their fields, unit states, the mode, free values,
the output log. -/
namespace Sys2Proof.Machine

/-! ### Register addresses -/

/-- Base of quarter `q`'s window (R410). -/
def qBase (q : Nat) : Nat := 0x1000000 + q * 0x800000
/-- Word `o` of MSI-X table entry `v` of function `fn`: 0 address, 4 its upper half, 8 data, 0xC vector control; and the pending
bit array (R49). (PRESUMED, log entry 180.) -/
def msixReg (fn v o : Nat) : Nat := 0x5000000 + fn * 0x4000 + 0x10 * v + o
def msixPba (fn : Nat) : Nat := 0x5000000 + fn * 0x4000 + 0x1000
/-- Base of function `fn`'s HIF view (R414); its EVT view lies 0x1_0000 above. (PRESUMED, log entry 20.) -/
def viewBase (fn : Nat) : Nat := if fn = 0 then 0 else 0x4000000 + (fn - 1) * 0x20000
def evtBase (fn : Nat) : Nat := viewBase fn + 0x10000
/-- Register word `o` of ring `r` in function `fn`'s view: 0 BASE_LO, 4 BASE_HI, 8 CFG, 0xC EPOCH, 0x10 HEAD, 0x14 STATUS. -/
def ringReg (fn r o : Nat) : Nat := viewBase fn + 0x1000 + 0x20 * r + o
def SYS : Nat := 0x20000
def LDG : Nat := 0x21000
def PWR : Nat := 0x22000
def TCK : Nat := 0x23000
def FUS : Nat := 0x24000
def TIM : Nat := 0x25000
def DLR : Nat := 0x100000
def PKE : Nat := 0x3000000
def SEC : Nat := 0x3010000
def FWD : Nat := 0x3020000
def CFT : Nat := 0x3420000
def MEM : Nat := 0x3800000
def TEAM (q t : Nat) : Nat := qBase q + t * 0x1000
def MDC (q t c : Nat) : Nat := qBase q + 0x10000 + t * 0x800 + c * 0x100
/-- The MDC block of core 64 q + 8 t + c. -/
def MDCi (core : Nat) : Nat := MDC (core / 64) (core / 8 % 8) (core % 8)
def AUD (q : Nat) : Nat := qBase q + 0x20000
def VDC (q p : Nat) : Nat := qBase q + 0x30000 + p * 0x100
def CMP (q c : Nat) : Nat := qBase q + 0x40000 + c * 0x100
def VEN (q p : Nat) : Nat := qBase q + 0x50000 + p * 0x100
def PAD (q : Nat) : Nat := qBase q + 0x60000
def BRD (p : Nat) : Nat := 0x3030000 + p * 0x1000
/-- Queue `q`'s register group of port `p`. -/
def BRDQ (p q : Nat) : Nat := BRD p + 0x100 + 0x40 * q
def MACP (p : Nat) : Nat := 0x3400000 + p * 0x100
def SDS (l : Nat) : Nat := 0x3410000 + l * 0x40
/-- The DMA block of channel `c` of quarter `q`, or of device channel `c` for quarter 0xFF. -/
def DMA (q c : Nat) : Nat := if q = 0xFF then 0x200000 + c * 0x40 else qBase q + 0x70000 + c * 0x40

/-! ### Registers -/

/-- The value a register holds. (DESIGN CHOICE, log entry 7.) -/
def reg (d : Dev) (a : Nat) : Word := spGet d.regs a ^^^ regReset d.variant a
/-- The device with a register's value replaced. (DESIGN CHOICE, log entry 7.) -/
def setReg (d : Dev) (a : Nat) (v : Word) : Dev := { d with regs := spPut d.regs a (v ^^^ regReset d.variant a) }
/-- The value a register held at the last stride boundary. -/
def regB (d : Dev) (a : Nat) : Word := spGet d.regsB a ^^^ regReset d.variant a
/-- A field of a register. -/
def getF (d : Dev) (a lo len : Nat) : Nat := fld (reg d a) lo len
/-- The device with a field of a register replaced. -/
def setF (d : Dev) (a lo len v : Nat) : Dev := setReg d a (setFld (reg d a) lo len v)
/-- Whether bit `i` of a register is set. -/
def getB (d : Dev) (a i : Nat) : Bool := bit (reg d a) i
/-- The device with bit `i` of a register set to `b`. -/
def putB (d : Dev) (a i : Nat) (b : Bool) : Dev := setF d a i 1 b.toNat
/-- A counter register raised by `n`, wrapping at 2^32. -/
def cnt (d : Dev) (a n : Nat) : Dev := setReg d a (reg d a + wd n)
/-- A field raised by `n`, saturating at its largest value. -/
def satF (d : Dev) (a lo len n : Nat) : Dev := setF d a lo len (satAdd (getF d a lo len) n (2 ^ len - 1))
/-- A register raised to `v` where that is larger. -/
def maxReg (d : Dev) (a v : Nat) : Dev := if (reg d a).toNat < v then setReg d a (wd v) else d
/-- The latch of a HI register (R29). (DEDUCED, log entry 11.) -/
def setLatch (d : Dev) (a : Nat) (v : Word) : Dev := { d with latch := spPut d.latch a v }

/-- A command's meaning: an effect on the device, the queue left as it is. (DESIGN CHOICE, log entry 2.) -/
def onDev (f : Dev → Dev) (s : State) : Host.Outcome State Fault Refusal := .next { s with dev := f s.dev }

/-! ### Output and free values -/

/-- The output log with one more entry. (DESIGN CHOICE, log entry 6.) -/
def emitOut (d : Dev) (o : Out) : Dev := { d with out := d.out ++ [o] }
/-- MSI-X message `v` of function `fn` is sent with the address and data of its table entry; of a masked entry it stays pending.
(PRESUMED, log entry 180.) -/
def sendMsix (d : Dev) (fn v : Nat) : Dev :=
  if getB d (msixReg fn v 0xC) 0 then putB d (msixPba fn) v true
  else emitOut d (.msix fn v ((reg d (msixReg fn v 0)).toNat + 2 ^ 32 * (reg d (msixReg fn v 4)).toNat) (reg d (msixReg fn v 8)))
/-- The next free value of `w` bits, and the device with the counter advanced. (DESIGN CHOICE, log entry 8.) -/
def drawFree (d : Dev) (w : Nat) : BitVec w × Dev := (Config.freeValue w d.freeCtr, { d with freeCtr := d.freeCtr + 1 })

/-! ### Mode -/

/-- The code of a mode (spec/19_bringup.md, table Modes). -/
def Mode.code : Mode → Nat
  | .reset => 0 | .boot => 1 | .train => 2 | .configure => 3 | .bridge => 4 | .forward => 5 | .audio => 6 | .drain => 7
  | .standby => 8 | .diagnostic => 9 | .degraded => 10 | .haltSafe => 11
/-- The mode of a code; 12 to 15 name none. -/
def Mode.ofCode : Nat → Option Mode
  | 0 => some .reset | 1 => some .boot | 2 => some .train | 3 => some .configure | 4 => some .bridge
  | 5 => some .forward | 6 => some .audio | 7 => some .drain | 8 => some .standby | 9 => some .diagnostic
  | 10 => some .degraded | 11 => some .haltSafe | _ => none
/-- The service modes. -/
def Mode.service (m : Mode) : Bool := m == .bridge || m == .forward || m == .audio
/-- Whether the mode permits ring fetch (R75). -/
def Mode.fetches (m : Mode) : Bool := m != .reset && m != .boot && m != .train
/-- Whether quarter `q` is fenced. -/
def fenced (d : Dev) (q : Nat) : Bool := nth d.sys.fenced q false
/-- Whether quarter `q` is present and not fenced. -/
def quarterUp (d : Dev) (q : Nat) : Bool := decide (q < d.variant.quarters) && !fenced d q
/-- The mode that SYS_MODE shows: DEGRADED while a present quarter is fenced and the base mode is a service mode or DRAIN
(R378). (DEDUCED, log entry 47.) -/
def shownMode (d : Dev) : Mode :=
  if (d.sys.mode.service || d.sys.mode == .drain) && (List.range d.variant.quarters).any (fenced d) then .degraded
  else d.sys.mode
/-- The device in HALT-SAFE (R381). (DEDUCED, log entry 60.) -/
def halted (d : Dev) : Bool := d.sys.mode == .haltSafe

/-! ### Units -/

/-- The number of units of a class in a present quarter (classes 1 to 6) or in the device (6 with quarter 0xFF, 7 to 13). -/
def clsCount (v : Variant) (cls quarter : Nat) : Nat :=
  match cls with
  | 1 => v.teams
  | 2 => if v.video then 16 else 0
  | 3 => if v.video then 4 else 0
  | 4 => if v.video then 8 else 0
  | 5 => 1
  | 6 => if quarter = 0xFF then 4 else 8
  | 7 | 8 | 9 => 1
  | 10 | 11 => 8
  | 12 => 16
  | 13 => if v.craft then 1 else 0
  | _ => 0

/-- The number of instances the class has in any variant: an index at or above it names no unit. -/
def clsMax (cls quarter : Nat) : Nat :=
  match cls with
  | 1 => 8 | 2 => 16 | 3 => 4 | 4 => 8 | 5 => 1
  | 6 => if quarter = 0xFF then 4 else 8
  | 7 | 8 | 9 | 13 => 1
  | 10 | 11 => 8
  | 12 => 16
  | _ => 0

/-- A unit operand whose class, quarter and index agree (spec/03_host_interface.md, table Unit operand). -/
def unitWf (u : UnitId) : Bool :=
  decide (u.index < clsMax u.cls u.quarter) &&
  (if u.cls ≤ 5 then decide (u.quarter < 4)
   else if u.cls = 6 then decide (u.quarter < 4) || u.quarter == 0xFF
   else u.quarter == 0xFF)

/-- Whether a unit is present in the variant (R2). -/
def unitPresent (v : Variant) (u : UnitId) : Bool :=
  unitWf u && decide (u.index < clsCount v u.cls u.quarter) && (u.quarter == 0xFF || decide (u.quarter < v.quarters))

/-- The status register of a unit. -/
def statusReg (u : UnitId) : Nat :=
  match u.cls with
  | 1 => TEAM u.quarter u.index
  | 2 => VDC u.quarter u.index
  | 3 => CMP u.quarter u.index
  | 4 => VEN u.quarter u.index
  | 5 => AUD u.quarter
  | 6 => DMA u.quarter u.index
  | 7 => PKE
  | 8 => SEC
  | 9 => FWD
  | 10 => BRD u.index
  | 11 => MACP u.index
  | 12 => SDS u.index
  | _ => CFT

/-- Unit states (R76): 0 STOPPED, 1 STARTING, 2 RUNNING, 3 STOPPING, 4 FAULT. -/
def uState (d : Dev) (u : UnitId) : Nat := getF d (statusReg u) 0 3
def setUState (d : Dev) (u : UnitId) (s : Nat) : Dev := setF d (statusReg u) 0 3 s
/-- A running unit. -/
def running (d : Dev) (u : UnitId) : Bool := uState d u == 2 && !halted d

/-- The units of quarter `q` in stagger order (R372): teams, decode pipes, encode pipes, compositors, the audio mixing unit
and the DMA channels. -/
def quarterUnits (v : Variant) (q : Nat) : List UnitId :=
  (List.range v.teams).map (UnitId.mk 1 q) ++ (List.range (clsCount v 2 q)).map (UnitId.mk 2 q) ++
  (List.range (clsCount v 4 q)).map (UnitId.mk 4 q) ++ (List.range (clsCount v 3 q)).map (UnitId.mk 3 q) ++
  [⟨5, q, 0⟩] ++ (List.range 8).map (UnitId.mk 6 q)

/-- The device-level units that a mode starts, in stagger order (R372): device DMA channels, packet engine, SRTP engines,
forwarding stage, Bridle, craft port. -/
def deviceUnits (v : Variant) : List UnitId :=
  (List.range 4).map (UnitId.mk 6 0xFF) ++ [⟨7, 0xFF, 0⟩, ⟨8, 0xFF, 0⟩, ⟨9, 0xFF, 0⟩] ++
  (List.range 8).map (UnitId.mk 10 0xFF) ++ (if v.craft then [⟨13, 0xFF, 0⟩] else [])

/-- Every unit of the variant that modes start and stop. -/
def modeUnits (v : Variant) : List UnitId := (List.range v.quarters).flatMap (quarterUnits v) ++ deviceUnits v

/-! ### Time -/

/-- Stride count at network time `t` ns (R24, R25): 1,200 s + k with floor(k × 2,500,000 / 3) ≤ t − s. -/
def strideAt (t : Nat) : Nat := 1200 * (t / 1000000000) + ((t % 1000000000) * 3 + 2) / 2500000
/-- Network time in ns at which stride `c` begins (R24). -/
def strideStart (c : Nat) : Nat := (c / 1200) * 1000000000 + (c % 1200) * 2500000 / 3
/-- The nanosecond count N of a time (R302). -/
def nCount (t : Nat) : Nat := t % 2 ^ 48
/-- The signed 48-bit difference of two nanosecond counts (R303). -/
def ndiff (a b : Nat) : Int := (BitVec.ofNat 48 a - BitVec.ofNat 48 b).toInt
/-- The clock moved forward to time `t`, never back. (DESIGN CHOICE, log entry 5.) -/
def advance (d : Dev) (t : Nat) : Dev := if d.tim.clock < t then { d with tim := { d.tim with clock := t, frac := 0 } } else d
/-- A network time at which something can happen next: not before the clock, and before the next stride boundary. (DESIGN CHOICE, log entry 5.) -/
def timely (d : Dev) (t : Nat) : Bool :=
  decide (d.tim.clock ≤ t) && (!d.tim.running || decide (t < strideStart (d.tim.stride + 1)))
/-- The stride count's low word (R26). -/
def strideW (d : Dev) : Word := wd d.tim.stride

end Sys2Proof.Machine
end

