-- ==== Sys2Proof/Machine/Flags.lean ====
section
/-! DEFINITION. What the units report and count: MSI-X messages, event records and their delivery (R353 to R359),
completion entries (R61), watermark monitors (R360). -/
namespace Sys2Proof.Machine

/-! ### Rings -/

/-- Ring `r` of function `fn` as the device runs it. -/
def getRing (d : Dev) (fn r : Nat) : RingRt :=
  (d.hif.rings.find? fun x => x.fn == fn && x.ring == r).getD { fn := fn, ring := r }
/-- The device with a ring replaced. -/
def putRing (d : Dev) (x : RingRt) : Dev :=
  { d with hif := { d.hif with rings := x :: d.hif.rings.filter fun y => !(y.fn == x.fn && y.ring == x.ring) } }

def ringCfg (d : Dev) (fn r : Nat) : Word := reg d (ringReg fn r 8)
def ringEnabled (d : Dev) (fn r : Nat) : Bool := bit (ringCfg d fn r) 0
/-- Entries of a ring (R57). -/
def ringSize (d : Dev) (fn r : Nat) : Nat := 2 ^ fld (ringCfg d fn r) 4 4
def ringBind (d : Dev) (fn r : Nat) : Nat := fld (ringCfg d fn r) 8 8
def ringHead (d : Dev) (fn r : Nat) : Word := reg d (ringReg fn r 0x10)
/-- Entries of a completion or event ring that the consumer has not returned: HEAD − index (R60). -/
def ringTaken (d : Dev) (fn r : Nat) : Nat := (ringHead d fn r - (getRing d fn r).consumer).toNat
/-- Free entries of a completion or event ring (R60). -/
def ringFree (d : Dev) (fn r : Nat) : Nat := ringSize d fn r - ringTaken d fn r
/-- Set bit `i` of the ring's status. -/
def ringFlag (d : Dev) (fn r i : Nat) : Dev := putB d (ringReg fn r 0x14) i true
/-- `n` lost entries: lost saturates, overflow sets (R62, R63). -/
def ringLose (d : Dev) (fn r n : Nat) : Dev := ringFlag (satF d (ringReg fn r 0x14) 16 16 n) fn r 5
/-- Whether a function's negotiation lock is set (R54). -/
def locked (d : Dev) (fn : Nat) : Bool := getB d (viewBase fn + 0x50) 0
/-- Whether a function is inside an FLR (R78). -/
def inFlr (d : Dev) (fn : Nat) : Bool := d.hif.flr.contains fn
/-- The ring's MSI-X message where irq_en is set (R64). (DESIGN CHOICE, log entry 32.) -/
def ringIrq (d : Dev) (fn r : Nat) : Dev :=
  if bit (ringCfg d fn r) 2 then sendMsix d fn (ringBind d fn r) else d
/-- The host address of entry `i` of a ring with entries of `n` bytes: slot i mod 2^size_log2 (R60). -/
def slotAddr (d : Dev) (fn r i n : Nat) : Nat :=
  (reg d (ringReg fn r 0)).toNat + 2 ^ 32 * (reg d (ringReg fn r 4)).toNat + n * (i % ringSize d fn r)
/-- Advance a ring's device index by `n`. -/
def ringAdvance (d : Dev) (fn r n : Nat) : Dev := setReg d (ringReg fn r 0x10) (ringHead d fn r + wd n)

/-! ### Event records -/

/-- An event as a unit raises it: code and class, the instance fields of R354, the function whose route it takes (0 for
device events), and its detail fields as (width in bytes, value). -/
structure Ev where
  code : Nat
  cls : Nat
  scope : Nat := 0
  quarter : Nat := 0
  uclass : Nat := 0
  index : Nat := 0
  fn : Nat := 0
  detail : List (Nat × Nat) := []
  /-- Tells instances apart that share the instance fields: a queue, a bank, a pseudo-channel, a class. -/
  key : Nat := 0
  deriving DecidableEq, Repr

/-- The instance fields of an event of unit `u`. (DEDUCED, log entry 34.) -/
def evUnit (u : UnitId) (code cls : Nat) (detail : List (Nat × Nat)) : Ev :=
  { code := code, cls := cls, scope := if u.quarter = 0xFF then 0 else 1, quarter := if u.quarter = 0xFF then 0 else u.quarter,
    uclass := u.cls, index := u.index, detail := detail }
/-- An event about a function, delivered under the PF's route. (DEDUCED, log entry 34.) -/
def evFn (f code cls : Nat) (detail : List (Nat × Nat)) : Ev :=
  { code := code, cls := cls, scope := 2, index := f, detail := detail }
/-- A device event of no unit. -/
def evDev (code cls : Nat) (detail : List (Nat × Nat)) : Ev := { code := code, cls := cls, detail := detail }
/-- The same event as an object event of function `f`; where no unit stands behind it, the record names the function. -/
def evTo (e : Ev) (f : Nat) : Ev := if e.uclass = 0 then { e with scope := 2, index := f, fn := f } else { e with fn := f }

/-- Detail fields that fit in `room` bytes, in order, and the fields that do not (R355). (DEDUCED, log entry 35.) -/
def packFields : Nat → List (Nat × Nat) → List Byte × List (Nat × Nat)
  | _, [] => ([], [])
  | room, (w, v) :: fs =>
    if w ≤ room then
      (let r := packFields (room - w) fs
       (leBytes v w ++ r.1, r.2))
    else ([], (w, v) :: fs)

/-- A list of bytes padded with zeros, or cut, to `n`. -/
def padTo (bs : List Byte) (n : Nat) : List Byte := bs.take n ++ List.replicate (n - bs.length) 0

/-- The records of an event raised in a stride: one, or two with a continuation (R354, R355). (DEDUCED, log entry 35.) -/
def evRecords (e : Ev) (stride : Word) : List (BitVec 128) :=
  let head := leBytes (e.code % 4096 + e.cls % 4 * 4096) 2 ++
    leBytes (e.index % 256 + e.uclass % 16 * 256 + e.quarter % 4 * 4096 + e.scope % 4 * 16384) 2 ++ leBytes stride.toNat 4
  let p := packFields 8 e.detail
  let first := BitVec.ofNat 128 (leNat (head ++ padTo p.1 8))
  if p.2.isEmpty then [first]
  else [first, BitVec.ofNat 128 (leNat (leBytes (0xFFF + e.cls % 4 * 4096) 2 ++ padTo (packFields 14 p.2).1 14))]

/-- The event source of a code (R353). -/
def evSource (code : Nat) : Nat := code / 256 % 16 * 128 + code % 128

/-- Records written at a ring's device index, one after another. -/
def writeRecs (d : Dev) (fn r : Nat) : List (BitVec 128) → Dev
  | [] => d
  | rec :: rs => writeRecs (ringAdvance (emitOut d (.event fn r (ringHead d fn r).toNat (slotAddr d fn r (ringHead d fn r).toNat 16) rec)) fn r 1) fn r rs

/-- EV_HIF_EQ_OVERFLOW, once a ring that lost records has space again (R63). (DEDUCED, log entry 31.) -/
def eqOverflow (d : Dev) (fn r : Nat) : Dev :=
  let x := getRing d fn r
  if x.lostPend = 0 || !ringEnabled d fn r || ringFree d fn r = 0 then d
  else
    let d := putRing d { x with lostPend := 0 }
    ringIrq (writeRecs d fn r
      (evRecords (evFn fn 0x102 1 [(2, min x.lostPend 0xFFFF)]) (strideW d))) fn r

/-- Records offered to an enabled event ring: written together, or lost together (R63, R355). (DEDUCED, log entry 31.) -/
def offerRecs (d : Dev) (fn r : Nat) (recs : List (BitVec 128)) : Dev :=
  let d := eqOverflow d fn r
  if recs.length ≤ ringFree d fn r then ringIrq (writeRecs d fn r recs) fn r
  else
    let d := ringLose d fn r recs.length
    let x := getRing d fn r
    putRing d { x with lostPend := x.lostPend + recs.length }

/-- The PF's MSI-X vector 0 for a fatal record that reaches no ring (R359). (DESIGN CHOICE, log entry 32.) -/
def fatalIrq (d : Dev) : Dev := if d.hif.msixEnable then sendMsix d 0 0 else d

/-- The latch of the first fatal record (R359). (DEDUCED, log entry 37.) -/
def latchFatal (d : Dev) (recs : List (BitVec 128)) : Dev :=
  if getB d (evtBase 0) 0 then d
  else
    let w (i : Nat) : Word := wd ((nth recs (i / 4) 0).toNat / 2 ^ (32 * (i % 4)))
    (List.range 8).foldl (fun d i => setReg d (evtBase 0 + 0x10 + 4 * i) (w i)) (putB d (evtBase 0) 0 true)

/-- Deliver an event's records under its function's route (R357, R359). -/
def deliver (d : Dev) (e : Ev) (stride : Word) : Dev :=
  let recs := evRecords e stride
  let route := reg d (evtBase e.fn + 0x1000 + 4 * evSource e.code)
  let ring := 48 + fld route 1 2
  let usable := ringEnabled d e.fn ring && locked d e.fn && !inFlr d e.fn
  if e.cls = 3 then
    let d := latchFatal d recs
    if usable then
      let fits := decide (recs.length ≤ ringFree (eqOverflow d e.fn ring) e.fn ring)
      let irq := bit (ringCfg d e.fn ring) 2
      let d := offerRecs d e.fn ring recs
      if fits then (if irq then d else sendMsix d 0 0) else fatalIrq d
    else fatalIrq (cnt d (evtBase 0 + 8) recs.length)
  else if !bit route 0 then cnt d (evtBase e.fn + 4) recs.length
  else if usable then offerRecs d e.fn ring recs
  else cnt d (evtBase e.fn + 8) recs.length

/-- An event that goes to one event ring of the PF whatever its route says (R78). -/
def raiseOn (d : Dev) (ring : Nat) (e : Ev) : Dev :=
  let recs := evRecords e (strideW d)
  if ringEnabled d 0 ring && locked d 0 && !inFlr d 0 then offerRecs d 0 ring recs else cnt d (evtBase 0 + 8) recs.length

/-- An event raised now (R354: with the stride in which it is raised). -/
def raise (d : Dev) (e : Ev) : Dev := deliver d e (strideW d)

/-- Whether a waiting record is of the same event and instance. -/
def sameOnce (o : OnceEv) (e : Ev) : Bool :=
  o.code == e.code && o.scope == e.scope && o.quarter == e.quarter && o.uclass == e.uclass && o.index == e.index && o.fn == e.fn && o.key == e.key

/-- An event limited to one record per stride per instance (R356). (DEDUCED, log entry 36.) -/
def raiseOnce (d : Dev) (e : Ev) : Dev :=
  let once :=
    if d.evt.once.any (sameOnce · e) then d.evt.once.map fun o => if sameOnce o e then { o with count := o.count + 1 } else o
    else d.evt.once ++ [⟨e.code, e.cls, e.scope, e.quarter, e.uclass, e.index, e.fn, e.detail, (strideW d).toNat, 1, e.key⟩]
  { d with evt := { d.evt with once := once } }

/-- The records of R356 written at the boundary that ends the stride: the first occurrence's detail and the count. (DEDUCED, log entry 36.) -/
def flushOnce (d : Dev) : Dev :=
  d.evt.once.foldl
    (fun d o => deliver d ⟨o.code, o.cls, o.scope, o.quarter, o.uclass, o.index, o.fn, o.detail ++ [(2, min o.count 0xFFFF)], 0⟩
      (wd o.stride))
    { d with evt := { d.evt with once := [] } }

/-! ### Watermarks -/

/-- A monitor's registers: level, status and maximum, and the event that a crossing raises. (DEDUCED, log entry 172.) -/
def wmStep (d : Dev) (wm stat mx before after : Nat) (e : Option Ev) : Dev :=
  let w := (reg d wm).toNat
  let d := maxReg d mx after
  if before < w && w ≤ after then
    let d := satF (putB d stat 0 true) stat 16 16 1
    match e with
    | none => d
    | some e => raiseOnce d e
  else d

/-- Writing 1 to crossed: crossed, count and the maximum clear together, the maximum restarting at the level (R360). (DEDUCED, log entry 172.) -/
def wmClear (d : Dev) (stat mx level : Nat) : Dev := setReg (setReg d stat 0) mx (wd level)

end Sys2Proof.Machine
end

