-- ==== Sys2Proof/Machine/Ledger.lean ====
section
/-! DEFINITION. The ledgers of every countable resource (R33 to R45, R361): three counts each, moved only by the operations
below, and the admission of bookings. -/
namespace Sys2Proof.Machine

/-- Ledger `l` of scope instance `i`. -/
def ledg (d : Dev) (l i : Nat) : Ledg := (d.ldg.cur.find? fun x => x.l == l && x.inst == i).getD ⟨l, i, 0, 0, 0, 0⟩

/-- `n` of the free quantity comes into use. -/
def Ledg.take (x : Ledg) (n : Nat) : Ledg := { x with inUse := x.inUse + n, free := x.free - n }
/-- `n` of the quantity in use moves to in transit. -/
def Ledg.release (x : Ledg) (n : Nat) : Ledg :=
  { x with inUse := x.inUse - min n x.inUse, transit := x.transit + min n x.inUse }
/-- `n` of the quantity in transit becomes free. -/
def Ledg.land (x : Ledg) (n : Nat) : Ledg :=
  { x with transit := x.transit - min n x.transit, free := x.free + (min n x.transit : Nat) }
/-- `n` of the quantity in transit comes (back) into use. -/
def Ledg.arrive (x : Ledg) (n : Nat) : Ledg :=
  { x with transit := x.transit - min n x.transit, inUse := x.inUse + min n x.transit }
/-- `n` of the free quantity goes in transit. -/
def Ledg.issue (x : Ledg) (n : Nat) : Ledg := { x with transit := x.transit + n, free := x.free - n }
/-- All that is in transit becomes free (R36). -/
def Ledg.settle (x : Ledg) : Ledg := { x with transit := 0, free := x.free + x.transit }
/-- Capacity changes, the free count with it (R362). -/
def Ledg.setCap (x : Ledg) (c : Nat) : Ledg := { x with cap := c, free := x.free + c - x.cap }

/-- The level that a ledger's watermark monitor watches: what is not free, or what is in use (R360 with the register
tables of the owning chapters). -/
def ledgLevel (x : Ledg) : Nat :=
  if x.l = 0 || x.l = 1 || x.l = 3 then x.inUse + x.transit else x.inUse

/-- The monitor of a ledger: its watermark, status and maximum registers, and its event (R360). -/
def ledgMonitor (x : Ledg) (wm : Nat → Nat) : Option (Nat × Nat × Nat × Option Ev) :=
  let n := ledgLevel x
  match x.l with
  | 0 => some (PKE + 0x14, PKE + 0x18, PKE + 0x1C, some (evUnit ⟨7, 0xFF, 0⟩ 0x905 1 [(4, n), (4, wm (PKE + 0x14))]))
  | 1 => some (DLR + 0x14, DLR + 0x18, DLR + 0x1C, none)
  | 3 => some (SEC + 0x14, SEC + 0x18, SEC + 0x1C, some (evUnit ⟨8, 0xFF, 0⟩ 0x945 1 [(4, n), (4, wm (SEC + 0x14))]))
  | 5 => some (FWD + 0x14, FWD + 0x18, FWD + 0x1C, some (evUnit ⟨9, 0xFF, 0⟩ 0x804 1 [(4, n), (4, wm (FWD + 0x14))]))
  | 7 => some (PAD x.inst + 0x14, PAD x.inst + 0x18, PAD x.inst + 0x1C,
      some { code := 0xC43, cls := 1, scope := 1, quarter := x.inst,
             detail := [(1, x.inst), (4, n), (4, wm (PAD x.inst + 0x14))] })
  | 8 => (let a := CMP (x.inst / 4) (x.inst % 4)
          some (a + 0xC, a + 0x10, a + 0x14,
            some (evUnit ⟨3, x.inst / 4, x.inst % 4⟩ 0x606 1 [(1, x.inst % 4), (4, n), (4, wm (a + 0xC))])))
  | _ => none

/-- Change one ledger by `f`, and run its watermark monitor over the change. -/
def ledgMod (d : Dev) (l i : Nat) (f : Ledg → Ledg) : Dev :=
  let old := ledg d l i
  let new := f old
  let d := { d with ldg := { d.ldg with cur := d.ldg.cur.map fun x => if x.l == l && x.inst == i then f x else x } }
  match ledgMonitor new (fun a => (reg d a).toNat) with
  | none => d
  | some (wm, stat, mx, e) => wmStep d wm stat mx (ledgLevel old) (ledgLevel new) e

/-- (DEDUCED, log entry 173.) -/
def ledgTake (d : Dev) (l i n : Nat) : Dev := ledgMod d l i (·.take n)
def ledgRelease (d : Dev) (l i n : Nat) : Dev := ledgMod d l i (·.release n)
def ledgLand (d : Dev) (l i n : Nat) : Dev := ledgMod d l i (·.land n)
def ledgArrive (d : Dev) (l i n : Nat) : Dev := ledgMod d l i (·.arrive n)
def ledgIssue (d : Dev) (l i n : Nat) : Dev := ledgMod d l i (·.issue n)
/-- What is in use becomes free at once. (DEDUCED, log entry 173.) -/
def ledgGive (d : Dev) (l i n : Nat) : Dev := ledgMod d l i (fun x => (x.release n).land (min n x.inUse))
/-- Free count of a ledger, zero where it is negative. -/
def ledgFree (d : Dev) (l i : Nat) : Nat := (ledg d l i).free.toNat

/-! ### Admission -/

/-- The admissible amount of budget `b` in scope `i` (R42), with reserve_pm as of the last boundary. -/
def admissible (d : Dev) (b i : Nat) : Nat :=
  let c := (ledg d (16 + b) i).cap
  if b ≤ 4 then c * (1000 - fld (regB d (LDG + 0x440 + 4 * b)) 0 10) / 1000 else c
/-- booked + in transit of a budget. -/
def bookedTransit (d : Dev) (b i : Nat) : Nat := (ledg d (16 + b) i).inUse + (ledg d (16 + b) i).transit
/-- Whether `n` more of budget `b` fits in scope `i` (R42). -/
def fits (d : Dev) (b i n : Nat) : Bool := decide (bookedTransit d b i + n ≤ admissible d b i)
/-- What a booking of `n` lacks. -/
def shortfall (d : Dev) (b i n : Nat) : Nat := bookedTransit d b i + n - admissible d b i

/-- A demand on a budget: the amount is booked in the chosen quarter where the budget is kept per quarter. -/
structure Need where
  b : Nat
  amt : Nat
  deriving DecidableEq, Repr

/-- The scope instance of a need in quarter `q`. -/
def needInst (q : Nat) (n : Need) : Nat := if budgetQuarter n.b then q else 0
/-- Whether every quarter-scoped need fits in quarter `q`. -/
def quarterFits (d : Dev) (ns : List Need) (q : Nat) : Bool := ns.all fun n => !budgetQuarter n.b || fits d n.b q n.amt
/-- Present, unfenced quarters. -/
def candidates (d : Dev) : List Nat := (List.range d.variant.quarters).filter (quarterUp d)
/-- The first of a list whose measure is largest. -/
def bestBy (m : Nat → Int) : List Nat → Option Nat
  | [] => none
  | x :: xs => match bestBy m xs with
    | none => some x
    | some y => if m x < m y then some y else some x
/-- The quarter that an unpinned command books (R43): among those where every quarter-scoped budget fits, the one with most
of budget `by_` (2, or 0 for conferences) remaining after the bookings. -/
def chooseQuarter (d : Dev) (by_ : Nat) (ns : List Need) : Option Nat :=
  bestBy (fun q => (admissible d by_ q : Int) - (ledg d (16 + by_) q).inUse -
      (((ns.filter fun n => n.b == by_).map Need.amt).sum : Nat))
    ((candidates d).filter (quarterFits d ns))

/-- The refused budget that R44 reports: budget, scope (0xFF for device), shortfall and remaining. -/
structure Refused where
  b : Nat
  scope : Nat
  short : Nat
  remain : Nat
  deriving DecidableEq, Repr

/-- What R44 reports of budget `b` and amount `n` in scope `i`. (DEDUCED, log entry 13.) -/
def refusal44 (d : Dev) (b i n : Nat) : Refused :=
  ⟨b, if budgetQuarter b then i else 0xFF, shortfall d b i n, admissible d b i - bookedTransit d b i⟩

/-- The failing needs in ascending budget order, in quarter `q` where pinned, else over the candidates: a quarter-scoped
budget fails when it fits in no candidate (R44). -/
def refused (d : Dev) (pin : Option Nat) (ns : List Need) : Option Refused :=
  (List.range 14).findSome? fun b =>
    (ns.filter fun n => n.b == b).findSome? fun n =>
      if !budgetQuarter b then (if fits d b 0 n.amt then none else some (refusal44 d b 0 n.amt))
      else match pin with
        | some q => if fits d b q n.amt then none else some (refusal44 d b q n.amt)
        | none =>
          if (candidates d).any fun q => fits d b q n.amt then none
          else (bestBy (fun q => -(shortfall d b q n.amt : Int)) (candidates d)).map fun q => refusal44 d b q n.amt

/-- Where no single quarter holds every quarter-scoped need although each budget fits somewhere, the lowest budget that
fails in the candidate that fails it least (R44). (DEDUCED, log entry 13.) -/
def refusedJoint (d : Dev) (ns : List Need) : Option Refused :=
  (List.range 14).findSome? fun b =>
    (ns.filter fun n => n.b == b).findSome? fun n =>
      if budgetQuarter b && (candidates d).any fun q => !fits d b q n.amt then
        (bestBy (fun q => -(shortfall d b q n.amt : Int)) ((candidates d).filter fun q => !fits d b q n.amt)).map
          fun q => refusal44 d b q n.amt
      else none

/-- Admission of a create command's needs: the quarter it is placed in (0 where nothing is quarter-scoped), or the
refusal. -/
def admission (d : Dev) (pin : Option Nat) (by_ : Nat) (ns : List Need) : Except Refused Nat :=
  match refused d pin ns with
  | some r => .error r
  | none => match pin with
    | some q => .ok q
    | none =>
      if ns.any fun n => budgetQuarter n.b then
        (match chooseQuarter d by_ ns with
         | some q => .ok q
         | none => .error ((refusedJoint d ns).getD ⟨0, 0, 0, 0⟩))
      else .ok 0

/-- Book needs in quarter `q`; PAD_UNITS are also units of the quarter's pool (ledger 7). (DEDUCED, log entry 15.) -/
def book (d : Dev) (q : Nat) (ns : List Need) : Dev :=
  ns.foldl (fun d n =>
    let d := ledgTake d (16 + n.b) (needInst q n) n.amt
    if n.b = 5 then ledgTake d 7 q n.amt else d) d
/-- The bookings as an object holds them. -/
def booksOf (q : Nat) (ns : List Need) : List Book := ns.map fun n => ⟨n.b, needInst q n, n.amt⟩
/-- Move bookings to in transit (R36). (DEDUCED, log entry 15.) -/
def unbook (d : Dev) (bs : List Book) : Dev :=
  bs.foldl (fun d x =>
    let d := ledgRelease d (16 + x.b) x.inst x.amt
    if x.b = 5 then ledgRelease d 7 x.inst x.amt else d) d

/-- At the boundary, quantities in transit become free: budgets and Paddock units (R36). Ledgers of other resources settle
with their owners. -/
def settleLedgers (d : Dev) : Dev :=
  { d with ldg := { d.ldg with cur := d.ldg.cur.map fun x => if x.l == 7 || 16 ≤ x.l then x.settle else x } }

/-- The audit's equation on one ledger (R361). -/
def Ledg.sound (x : Ledg) : Bool := decide ((x.inUse : Int) + x.free + x.transit = x.cap)

end Sys2Proof.Machine
end

