-- ==== Sys2Proof/Machine/Operands.lean ====
section
/-! DEFINITION. The operands of commands: fields of a descriptor, handles, the checks that R71 and R72 order, and the
failures they report. -/
namespace Sys2Proof.Machine

/-! ### Descriptors -/

/-- Byte `i` of a descriptor. -/
def dByte (x : Desc) (i : Nat) : Nat := x.toNat / 256 ^ i % 256
/-- The `n`-byte little-endian field at byte `i`. -/
def dNum (x : Desc) (i n : Nat) : Nat := x.toNat / 256 ^ i % 256 ^ n
/-- Bits `hi … lo` of the byte at `i`, as a field of `len` bits at bit `lo`. -/
def dBits (x : Desc) (i lo len : Nat) : Nat := dByte x i / 2 ^ lo % 2 ^ len
def dOpcode (x : Desc) : Nat := dByte x 0
def dFlags (x : Desc) : Nat := dByte x 1
def dTag (x : Desc) : Nat := dNum x 2 2
def dHandle (x : Desc) : Nat := dNum x 4 4
def dSilent (x : Desc) : Bool := dBits x 1 0 1 == 1
def dNoSnoop (x : Desc) : Bool := dBits x 1 1 1 == 1
def dFence (x : Desc) : Bool := dBits x 1 2 1 == 1

/-! ### Status codes (R70) -/

def ST_OK : Nat := 0
def ST_BAD_OPCODE : Nat := 2
def ST_BAD_HANDLE : Nat := 3
def ST_BAD_FIELD : Nat := 4
def ST_UNIT_ABSENT : Nat := 5
def ST_FEATURE_OFF : Nat := 6
def ST_NO_CAPACITY : Nat := 7
def ST_UNIT_RUNNING : Nat := 8
def ST_UNIT_STOPPED : Nat := 9
def ST_LINEBUF_SHORT : Nat := 0xA
def ST_UNWRAP_FAIL : Nat := 0xB
def ST_LENGTH_LIMIT : Nat := 0xC
def ST_BUS_ERROR : Nat := 0xD
def ST_EPOCH_STALE : Nat := 0xE
def ST_PROTECTED : Nat := 0xF
def ST_TIMEOUT : Nat := 0x10
def ST_MODE : Nat := 0x11

/-- Why a command fails: its status, its result bytes from byte 4, and what the failure leaves behind: events raised,
registers that count one, the cause that SYS_MODE shows. -/
structure Fail where
  st : Nat
  res : List Byte := []
  evs : List Ev := []
  counts : List Nat := []
  reject : Option Nat := none
  deriving DecidableEq, Repr

/-- Result bytes made of (width, value) fields. -/
def resBytes : List (Nat × Nat) → List Byte
  | [] => []
  | (w, v) :: fs => leBytes v w ++ resBytes fs

def badField (off : Nat) : Fail := { st := ST_BAD_FIELD, res := [BitVec.ofNat 8 off] }
def badHandle : Fail := { st := ST_BAD_HANDLE }
/-- The refusal of R44, which counts in LDG_ADM_REFUSE (R45). -/
def noCapacity (r : Refused) : Fail :=
  { st := ST_NO_CAPACITY, res := resBytes [(1, r.b), (1, r.scope), (2, 0), (4, r.short), (4, r.remain)],
    counts := [LDG + 0x480 + 4 * r.b] }
/-- A failed or poisoned host read of a command (R72). (DEDUCED, log entry 46.) -/
def busError (c : Cmd) (addr : Nat) : Fail :=
  { st := ST_BUS_ERROR, res := leBytes addr 8,
    evs := [evFn c.fn 0x104 2 [(1, c.fn), (1, dOpcode c.desc), (2, dTag c.desc), (8, addr / 4096 * 4096)]] }

/-! ### Checks -/

/-- The first of an ordered list of (offset, holds) that does not hold, with the flags' reserved bits before all. (DESIGN CHOICE, log entry 22.) -/
def checkFields (x : Desc) (fs : List (Nat × Bool)) : Except Fail Unit :=
  match ((1, dBits x 1 3 5 == 0) :: fs).find? fun f => !f.2 with
  | some (off, _) => .error (badField off)
  | none => .ok ()
/-- Bytes `lo … hi` are zero, byte by byte. (DESIGN CHOICE, log entry 22.) -/
def zeros (x : Desc) (lo hi : Nat) : List (Nat × Bool) :=
  (List.range (hi + 1 - lo)).map fun i => (lo + i, dByte x (lo + i) == 0)
/-- A check that fails with a given failure. -/
def require (ok : Bool) (f : Fail) : Except Fail Unit := if ok then .ok () else .error f

/-! ### Handles (R10, R52) -/

def hKind (h : Nat) : Nat := h / 2 ^ 28
def hIndex (h : Nat) : Nat := h % 2 ^ 28
def mkHandle (kind index : Nat) : Nat := kind * 2 ^ 28 + index

/-- Capacity of a handle kind. -/
def Variant.kindCap (v : Variant) : Nat → Nat
  | 1 => v.capSessions | 2 => v.capConferences | 3 => v.capAudioPart | 4 => v.capLegs | 5 => v.capContexts
  | 6 => v.capLayouts | 7 => v.capEncStreams | 8 => v.capKeySlots | 9 => v.capFlows | 10 => v.capCardSlots | _ => 0

/-- The live object of kinds 2 to 8 that a handle names. -/
def findObj (d : Dev) (h : Nat) : Option Obj := d.obj.objs.find? fun o => o.handle == h
/-- The session that a handle names; one whose close has completed is gone. -/
def findSession (d : Dev) (h : Nat) : Option Session := d.obj.sessions.find? fun s => s.handle == h && !s.closed
/-- The object of kind `k` that function `fn` names, or ST_BAD_HANDLE. -/
def objOf (d : Dev) (fn k h : Nat) : Except Fail Obj :=
  match findObj d h with
  | some o => if hKind h == k && o.fn == fn then .ok o else .error badHandle
  | none => .error badHandle
/-- A handle in an operand field that allows 0 for none: an object of kind `k` of the function, or ST_BAD_HANDLE at the handle step,
before the fields (R10, R52, R71). -/
def operandOf (d : Dev) (fn k h : Nat) : Except Fail Unit := if h = 0 then .ok () else (objOf d fn k h).map fun _ => ()
/-- The session that function `fn` names, or ST_BAD_HANDLE. -/
def sessionOf (d : Dev) (fn h : Nat) : Except Fail Session :=
  match findSession d h with
  | some s => if s.fn == fn then .ok s else .error badHandle
  | none => .error badHandle
/-- A session that takes creates: open and not closing (R33, R38). -/
def openSession (d : Dev) (fn h : Nat) : Except Fail Session :=
  match sessionOf d fn h with
  | .ok s => if s.closing then .error badHandle else .ok s
  | .error f => .error f
/-- The session of object `o` takes creates. -/
def parentOpen (d : Dev) (o : Obj) : Except Fail Unit :=
  match findSession d o.session with
  | some s => if s.closing then .error badHandle else .ok ()
  | none => .error badHandle
/-- A command whose handle field shall be zero (R73). -/
def noHandle (x : Desc) : Except Fail Unit := require (dHandle x == 0) badHandle
/-- The lowest free index of a kind: the device's choice of a new handle. (DESIGN CHOICE, log entry 14.) -/
def freeIndex (used : List Nat) (cap : Nat) : Option Nat :=
  (List.range (min cap (used.length + 1))).find? fun i => !used.contains i
/-- The handle of a new object of kind `k` (2 to 8); not one whose arena a compositor still holds, or whose cards still run. (DESIGN CHOICE, log entry 14.) -/
def newHandle (d : Dev) (k : Nat) : Option Nat :=
  (freeIndex (((d.obj.objs.map Obj.handle ++ d.mem.arenas.map Prod.fst ++
      (d.dlr.cards.filter fun c => c.source == .firmware).map Card.owner).filter fun h => hKind h == k).map hIndex)
    (d.variant.kindCap k)).map (mkHandle k)
/-- The device with an object added. -/
def addObj (d : Dev) (o : Obj) : Dev := { d with obj := { d.obj with objs := d.obj.objs ++ [o] } }
/-- The device with an object replaced. -/
def putObj (d : Dev) (o : Obj) : Dev :=
  { d with obj := { d.obj with objs := d.obj.objs.map fun x => if x.handle == o.handle then o else x } }
/-- The device without an object; its bookings go in transit (R36). -/
def dropObj (d : Dev) (o : Obj) : Dev :=
  unbook { d with obj := { d.obj with objs := d.obj.objs.filter fun x => x.handle != o.handle } } o.books
/-- The device with a session replaced. -/
def putSession (d : Dev) (s : Session) : Dev :=
  { d with obj := { d.obj with sessions := d.obj.sessions.map fun x => if x.handle == s.handle then s else x } }
/-- Objects that depend on `h` directly. -/
def children (d : Dev) (h : Nat) : List Obj := d.obj.objs.filter fun o => o.parent == h

end Sys2Proof.Machine
end

