-- ==== Sys2Proof/Machine/Hif.lean ====
section
/-! DEFINITION. Commands of the rings: the command catalogue (R73), the modes that accept a command (R75), starting,
failing and completing (R61, R62, R67, R71). -/
namespace Sys2Proof.Machine

/-- The opcodes of the catalogue (R73). -/
def opcodes : List Nat := [0x00, 0x01, 0x02, 0x03, 0x04, 0x10, 0x11, 0x12, 0x13, 0x18, 0x19, 0x1A, 0x1B, 0x20, 0x21, 0x28,
  0x29, 0x30, 0x31, 0x32, 0x38, 0x39, 0x40, 0x41, 0x42, 0x48, 0x50, 0x51, 0x58, 0x60, 0x61, 0x62, 0x63, 0x68, 0x69, 0x70,
  0x7F]
/-- Commands that only the PF may use. -/
def pfOnly (op : Nat) : Bool :=
  [0x13, 0x48, 0x50, 0x51, 0x58, 0x60, 0x61, 0x62, 0x63, 0x68, 0x69, 0x7F].contains op
/-- The creates of R75. -/
def isCreate (op : Nat) : Bool := [0x01, 0x10, 0x11, 0x18, 0x28, 0x30, 0x38, 0x40].contains op
/-- The releases of R75. -/
def isRelease (op : Nat) : Bool := [0x02, 0x03, 0x21, 0x42, 0x1B].contains op

/-- What R232 and R239 reserve to the PF: layer 63 and another function's layout. (DEDUCED, log entry 129.) -/
def protectedUse (x : Desc) : Bool :=
  match dOpcode x with
  | 0x31 => dByte x 10 != 0xFF || (dBits x 8 0 2 == 0 && dByte x 9 ≤ 63 && 63 < dByte x 9 + dBits x 11 0 7)
  | 0x32 => dByte x 10 != 0xFF || dBits x 8 1 1 == 1
  | _ => false

/-! ### Targets -/

/-- The unit that UNIT_STOP and UNIT_START name (table Unit operand). (DEDUCED, log entry 27.) -/
def dUnit (x : Desc) : UnitId := ⟨dByte x 8, dByte x 9, dByte x 10⟩
/-- Object `h` is of kind `k`, owned by `fn`, and has media code `m`. -/
def objMedia (d : Dev) (fn k h m : Nat) : Bool :=
  match objOf d fn k h with
  | .ok o => o.media == m
  | .error _ => false

/-- The command is aimed at decode pipes, compositors or encode pipes (R75). -/
def aimedVideo (d : Dev) (c : Cmd) : Bool :=
  match dOpcode c.desc with
  | 0x28 | 0x29 | 0x30 | 0x31 | 0x32 => true
  | 0x38 => hKind (dHandle c.desc) == 6
  | 0x39 => objMedia d c.fn 7 (dHandle c.desc) 1
  | 0x60 | 0x61 => dByte c.desc 8 == 2 || dByte c.desc 8 == 3 || dByte c.desc 8 == 4
  | _ => false

/-- The quarters that a command names: a create's pin, a unit's quarter, a kernel load's mask. The target of a card is a
field of it, checked at step 7 (R82). (DEDUCED, log entry 26.) -/
def namedQuarters (x : Desc) : List Nat :=
  let pin (i : Nat) : List Nat := if dByte x i < 4 then [dByte x i] else []
  match dOpcode x with
  | 0x10 => pin 11
  | 0x30 => pin 9
  | 0x38 => if hKind (dHandle x) == 6 && dBits x 8 4 1 == 1 then pin 11 else []
  | 0x60 | 0x61 => if dByte x 8 ≤ 6 then pin 9 else []
  | 0x48 => (List.range 4).filter fun q => dBits x 24 q 1 == 1
  | _ => []

/-- Step 3 of R71: a target absent in the variant (R2). (DEDUCED, log entry 26.) -/
def targetAbsent (d : Dev) (x : Desc) : Bool :=
  let v := d.variant
  let absentQ (q : Nat) : Bool := decide (v.quarters ≤ q) && decide (q < 4)
  (namedQuarters x).any absentQ ||
  (match dOpcode x with
  | 0x13 => !v.craft
  | 0x28 | 0x29 | 0x30 | 0x31 | 0x32 => !v.video
  | 0x38 => hKind (dHandle x) == 6 && !v.video
  | 0x48 => (List.range 8).any fun t => dBits x 25 t 1 == 1 && decide (v.teams ≤ t)
  | 0x60 | 0x61 => unitWf (dUnit x) && !unitPresent v (dUnit x)
  | 0x63 => absentQ (dByte x 8)
  | _ => false)

/-- The feature bits that a command needs (R54 with the owning chapters): those of its flags, and of what it names. (DEDUCED, log entry 28.) -/
def needFeats (x : Desc) : List Nat :=
  (if dSilent x then [163] else []) ++ (if dNoSnoop x then [162] else []) ++
  (match dOpcode x with
  | 0x13 => [12]
  | 0x18 => (if dBits x 8 1 2 == 2 then [19] else []) ++ (if dNum x 16 4 = 0 then [] else [16]) ++
      (if dNum x 20 4 = 0 then [] else [17])
  | 0x1A => if hKind (dNum x 8 4) == 4 then [18] else []
  | 0x20 => (if dBits x 8 0 3 < 6 then [128 + dBits x 8 0 3] else []) ++ (if dBits x 8 3 1 == 1 then [134] else [])
  | 0x28 => (match dBits x 8 0 4, dBits x 8 4 4 with
      | 0, 0 => [64] | 0, 1 => [65] | 0, 2 => [66] | 1, 0 => [67] | 1, 1 => [68] | 2, 0 => [69] | 2, 1 => [70]
      | 3, 0 => [71] | 4, 0 => [72] | 4, 1 => [73] | _, _ => [])
  | 0x38 => if hKind (dHandle x) == 6 then
      (match dBits x 8 0 2 with | 0 => [80] | 1 => [81] | 2 => [82] | _ => []) ++
      (if 1 < dBits x 9 2 2 then [83] else []) ++
      (if 1 < dBits x 9 0 2 then (if dBits x 8 0 2 == 2 then [84] else [85]) else []) else []
  | 0x68 | 0x69 => [22]
  | _ => [])

/-- Whether feature `b` is accepted in the function's DRV_FEAT. (DEDUCED, log entry 28.) -/
def featOn (d : Dev) (fn b : Nat) : Bool := getB d (viewBase fn + 0x30 + 4 * (b / 32)) (b % 32)

/-- What a mode's row of R75 excludes, for the base mode of a DEGRADED device. (DEDUCED, log entry 47.) -/
def modeAccepts (d : Dev) (c : Cmd) : Bool :=
  let op := dOpcode c.desc
  let forward := !aimedVideo d c
  match d.sys.mode with
  | .reset | .boot | .train => false
  | .configure => [0x00, 0x04, 0x01, 0x02, 0x48, 0x50, 0x51, 0x60, 0x61, 0x62, 0x63, 0x68, 0x69, 0x70, 0x7F].contains op
  | .diagnostic =>
    [0x00, 0x04, 0x01, 0x02, 0x48, 0x50, 0x51, 0x60, 0x61, 0x62, 0x63, 0x68, 0x69, 0x70, 0x7F, 0x58].contains op
  | .bridge | .degraded => true
  | .forward => forward
  | .audio => forward && !(op == 0x1A && objMedia d c.fn 4 (dHandle c.desc) 1)
  | .drain => !(isCreate op || op == 0x1A || op == 0x20) && (d.sys.drainBase == .bridge || forward)
  | .standby => op == 0x00 || op == 0x04 || isRelease op || op == 0x62 || op == 0x68
  | .haltSafe => op == 0x00 || op == 0x04 || op == 0x7F

/-- The command is aimed at a fenced quarter: one that it names, or the home of the object that it changes (R3, R75). (DEDUCED, log entry 27.) -/
def aimedFenced (d : Dev) (c : Cmd) : Bool :=
  (namedQuarters c.desc).any (fenced d) ||
  ([0x11, 0x12, 0x13, 0x31, 0x32, 0x38, 0x39].contains (dOpcode c.desc) &&
    (match findObj d (dHandle c.desc) with
     | some o => o.fn == c.fn && fenced d o.home
     | none => false))

/-- Steps 1 to 4 of R71. -/
def staticFail (d : Dev) (c : Cmd) : Option Fail :=
  let op := dOpcode c.desc
  if !opcodes.contains op then some { st := ST_BAD_OPCODE }
  else if c.fn != 0 && (pfOnly op || protectedUse c.desc) then some { st := ST_PROTECTED }
  else if targetAbsent d c.desc then some { st := ST_UNIT_ABSENT }
  else if (needFeats c.desc).any fun b => !featOn d c.fn b then some { st := ST_FEATURE_OFF }
  else none

/-- Step 5 of R71. A fence command's unfence records reject 5 with any failure on mode (R380). -/
def modeFail (d : Dev) (c : Cmd) : Option Fail :=
  let unfence := dOpcode c.desc == 0x63 && dBits c.desc 9 0 1 == 1
  if modeAccepts d c && !aimedFenced d c && !(unfence && d.sys.mode != .configure) then none
  else some { st := ST_MODE, reject := if unfence then some 5 else none }

/-! ### Completion (R61, R62, R64) -/

/-- Give back one reserved entry of a completion ring. -/
def unreserve (d : Dev) (fn cq : Nat) : Dev :=
  let x := getRing d fn cq
  putRing d { x with reserved := x.reserved - 1 }

/-- The 16 bytes of a completion entry at a ring index (R61). -/
def entryBytes (size index tag st : Nat) (res : List Byte) : BitVec 128 :=
  BitVec.ofNat 128 (leNat (leBytes tag 2 ++ [BitVec.ofNat 8 st, if index / size % 2 = 0 then 1 else 0] ++ padTo res 12))

/-- The command leaves the device: its entry is written with status and result, or returns unused when the command is
silent and succeeded, or is lost on a faulted ring, or is dropped after its function's FLR. -/
def finish (d : Dev) (c : Cmd) (st : Nat) (res : List Byte) : Dev :=
  let d := { d with hif := { d.hif with accepted := d.hif.accepted.filter fun x => x.id != c.id } }
  if c.discard then d
  else
    let d := unreserve d c.fn c.cq
    if dSilent c.desc && st == ST_OK then d
    else if c.lostCq then ringLose d c.fn c.cq 1
    else
      let i := (ringHead d c.fn c.cq).toNat
      let d := emitOut d (.completion c.fn c.cq i (slotAddr d c.fn c.cq i 16) (entryBytes (ringSize d c.fn c.cq) i (dTag c.desc) st res))
      ringIrq (ringAdvance d c.fn c.cq 1) c.fn c.cq

/-- What a failure leaves behind, and its completion. -/
def failCmd (d : Dev) (c : Cmd) (f : Fail) : Dev :=
  let d := f.counts.foldl (fun d a => cnt d a 1) d
  let d := f.evs.foldl raise d
  let d := match f.reject with
    | some r => { d with sys := { d.sys with reject := r } }
    | none => d
  finish d c f.st f.res

/-! ### Starting (R62, R67) -/

/-- Whether an accepted command may start: the first of its ring that has not completed, except that MODE_SETs in
progress let a further MODE_SET start (R377); with the fence flag, only once every earlier-accepted command of its function
has completed. (DEDUCED, log entry 25.) -/
def startable (d : Dev) (c : Cmd) : Bool :=
  !c.started && !c.discard &&
  (d.hif.accepted.all fun x =>
    !(x.fn == c.fn && decide (x.id < c.id) &&
      (dFence c.desc || (x.ring == c.ring && !(x.started && dOpcode x.desc == 0x62 && dOpcode c.desc == 0x62)))))

/-- Commands that book or release, or that act on a leg: they take effect in acceptance order (R35, R178, R273). -/
def ordered (op : Nat) : Bool := isCreate op || [0x02, 0x03, 0x19, 0x1A, 0x1B, 0x20, 0x21, 0x39, 0x61, 0x62].contains op
/-- No such command accepted before `c` may start and has not. (DEDUCED, log entry 181.) -/
def inTurn (d : Dev) (c : Cmd) : Bool :=
  !ordered (dOpcode c.desc) || d.hif.accepted.all fun x => !(decide (x.id < c.id) && ordered (dOpcode x.desc) && startable d x)

/-- The command of a ring that may start, with the opcode of a row. -/
def readyCmd (d : Dev) (op fn ring : Nat) : Option Cmd :=
  d.hif.accepted.find? fun c => c.fn == fn && c.ring == ring && dOpcode c.desc == op && startable d c && inTurn d c

/-- Complete the commands that may start and fail steps 1 to 4 of R71, `n` of them at most: no row of their own runs a
command with an opcode outside the catalogue. -/
def settleN : Nat → Dev → Dev
  | 0, d => d
  | n + 1, d =>
    match d.hif.accepted.find? fun c => startable d c && (staticFail d c).isSome with
    | none => d
    | some c => settleN n (failCmd d c ((staticFail d c).getD badHandle))
/-- (DEDUCED, log entry 24.) -/
def settle (d : Dev) : Dev := settleN d.hif.accepted.length d

/-- The device with a command's record replaced. -/
def putCmd (d : Dev) (c : Cmd) : Dev :=
  { d with hif := { d.hif with accepted := d.hif.accepted.map fun x => if x.id == c.id then c else x } }
/-- The accepted command with an identity. -/
def findCmd (d : Dev) (id : Nat) : Option Cmd := d.hif.accepted.find? fun c => c.id == id
/-- Complete the command with identity `id`, where it is in progress. -/
def complete (d : Dev) (id st : Nat) (res : List Byte) : Dev :=
  match findCmd d id with
  | none => d
  | some c => settle (finish d c st res)
/-- Fail the command with identity `id`, where it is in progress. -/
def failId (d : Dev) (id : Nat) (f : Fail) : Dev :=
  match findCmd d id with
  | none => d
  | some c => settle (failCmd d c f)

/-- What a command that passes its checks does: it completes now, or goes on started, or waits unstarted. -/
inductive Act where
  | done (d : Dev) (res : List Byte)
  | wait (d : Dev)
  | stay (d : Dev)

/-- A command row of a ring: the ring's command with this opcode that may start runs the checks of R71 in order; a check
that fails completes it with no other effect than the failure names; `act` makes steps 6 to 10 and the command's effect. (DEDUCED, log entry 24.) -/
def runCmd (op : Nat) (fn ring : Nat) (act : Dev → Cmd → Except Fail Act) (d : Dev) : Dev :=
  match readyCmd d op fn ring with
  | none => d
  | some c =>
    match staticFail d c with
    | some f => settle (failCmd d c f)
    | none =>
    match modeFail d c with
    | some f => settle (failCmd d c f)
    | none =>
    match act d c with
    | .error f => settle (failCmd d c f)
    | .ok (.done d res) => settle (finish d c ST_OK res)
    | .ok (.wait d) =>
      putCmd d { ((findCmd d c.id).getD c) with started := true, waiting := false, strides := 0 }
    | .ok (.stay d) => d

end Sys2Proof.Machine
end

