-- ==== Sys2Proof/Machine/Media.lean ====
section
/-! DEFINITION. Packet-buffer cells (R153, R154), the records of media objects, and what the end of a card of groom firmware's
leaves behind in them. -/
namespace Sys2Proof.Machine

/-! ### Cells (ledger 0) -/

/-- The cell reserve of a port. -/
def cellReserve (d : Dev) (p : Nat) : Nat := getF d (PKE + 0x20 + 4 * p) 0 13
/-- Free cells of a port's reserve, and of the shared pool (R153). -/
def portFree (d : Dev) (p : Nat) : Nat := cellReserve d p - nth d.pke.portUsed p 0
def poolFree (d : Dev) : Nat := 65536 - ((List.range 8).map (cellReserve d)).sum - d.pke.poolUsed
/-- Cells that `n` stored bytes occupy. -/
def cellsFor (n : Nat) : Nat := ceilDiv n 256
/-- A producer other than a port takes `n` cells of the shared pool. -/
def takeCells (d : Dev) (n : Nat) : Dev :=
  ledgTake { d with pke := { d.pke with poolUsed := d.pke.poolUsed + n } } 0 0 n
/-- Cells return, `r` of `n` to the reserve of port `p`. -/
def freeCells (d : Dev) (p n r : Nat) : Dev :=
  ledgGive { d with pke := { d.pke with poolUsed := d.pke.poolUsed - (n - r)
                                        portUsed := upd d.pke.portUsed p (nth d.pke.portUsed p 0 - r) } } 0 0 n
/-- A packet's last holder releases it (R154). -/
def freePkt (d : Dev) (k : Pkt) : Dev := freeCells d k.port k.cells k.fromReserve

/-! ### Media packets held by their consumers (R154, R268) -/

def findMPkt (d : Dev) (id : Nat) : Option MPkt := d.fwd.mpkts.find? fun m => m.pkt.id == id
/-- A consumer lets go of a packet: the last one frees its cells. -/
def releaseMPkt (d : Dev) (id : Nat) : Dev :=
  match findMPkt d id with
  | none => d
  | some m =>
    if m.refs ≤ 1 then
      freePkt { d with fwd := { d.fwd with mpkts := d.fwd.mpkts.filter fun x => x.pkt.id != id } } m.pkt
    else { d with fwd := { d.fwd with mpkts := d.fwd.mpkts.map fun x => if x.pkt.id == id then { x with refs := x.refs - 1 } else x } }

/-! ### Records of objects -/

def findLeg (d : Dev) (h : Nat) : Option Leg := d.fwd.legs.find? fun x => x.handle == h
def putLeg (d : Dev) (l : Leg) : Dev :=
  { d with fwd := { d.fwd with legs := d.fwd.legs.map fun x => if x.handle == l.handle then l else x } }
/-- Change a leg's record, where there is one. -/
def modLeg (d : Dev) (h : Nat) (f : Leg → Leg) : Dev :=
  { d with fwd := { d.fwd with legs := d.fwd.legs.map fun x => if x.handle == h then f x else x } }
def findConf (d : Dev) (h : Nat) : Option Conf := d.aud.confs.find? fun x => x.handle == h
def modConf (d : Dev) (h : Nat) (f : Conf → Conf) : Dev :=
  { d with aud := { d.aud with confs := d.aud.confs.map fun x => if x.handle == h then f x else x } }
def findPart (d : Dev) (h : Nat) : Option Part := d.aud.parts.find? fun x => x.handle == h
def modPart (d : Dev) (h : Nat) (f : Part → Part) : Dev :=
  { d with aud := { d.aud with parts := d.aud.parts.map fun x => if x.handle == h then f x else x } }
def findStream (d : Dev) (h : Nat) : Option AStream := d.aud.streams.find? fun x => x.handle == h
def modStream (d : Dev) (h : Nat) (f : AStream → AStream) : Dev :=
  { d with aud := { d.aud with streams := d.aud.streams.map fun x => if x.handle == h then f x else x } }
def findCtx (d : Dev) (h : Nat) : Option Ctx := d.vid.ctxs.find? fun x => x.handle == h
def modCtx (d : Dev) (h : Nat) (f : Ctx → Ctx) : Dev :=
  { d with vid := { d.vid with ctxs := d.vid.ctxs.map fun x => if x.handle == h then f x else x } }
def findPic (x : Ctx) (id : Nat) : Option Pic := x.pics.find? fun p => p.id == id
def modPic (d : Dev) (h id : Nat) (f : Pic → Pic) : Dev :=
  modCtx d h fun x => { x with pics := x.pics.map fun p => if p.id == id then f p else p }
def findLayout (d : Dev) (h : Nat) : Option Layout := d.vid.layouts.find? fun x => x.handle == h
def modLayout (d : Dev) (h : Nat) (f : Layout → Layout) : Dev :=
  { d with vid := { d.vid with layouts := d.vid.layouts.map fun x => if x.handle == h then f x else x } }
def findEnc (d : Dev) (h : Nat) : Option EncS := d.vid.encs.find? fun x => x.handle == h
def modEnc (d : Dev) (h : Nat) (f : EncS → EncS) : Dev :=
  { d with vid := { d.vid with encs := d.vid.encs.map fun x => if x.handle == h then f x else x } }

/-! ### Audio cards (R189, R193, R198) -/

/-- A block decoded after its pot was summed (R189, R32): counted, and reported once per stride per quarter. -/
def lateBlock (d : Dev) (p : Part) (block : Nat) : Dev :=
  let q := ((findConf d p.conf).map Conf.home).getD 0
  let d := cnt d (AUD q + 0x200) 1
  let fn := match d.evt.once.find? fun o => o.code == 0x401 && o.quarter == q with
    | some o => o.fn
    | none => p.fn
  raiseOnce d (evTo (evUnit ⟨5, q, 0⟩ 0x401 0 [(4, p.handle), (4, block)]) fn)
/-- A decode card has completed: its block is in the participant's record, or too late. -/
def endDecode (d : Dev) (part : Nat) (deadline : Word) : Dev :=
  match findPart d part with
  | none => d
  | some p =>
    if deadline == strideW d then modPart d part fun x => { x with written := true }
    else lateBlock d p deadline.toNat
/-- The participant receives output block `o` by a personal encode (R193). -/
def personalAt (p : Part) (o : Nat) : Bool := p.pers.any fun x => decide (x.1 ≤ o) && (match x.2 with | some k => decide (o < k) | none => true)
/-- A personal encode of the participant covers a block of the frame of `n` blocks from `first` on. -/
def personalIn (p : Part) (first n : Nat) : Bool :=
  p.pers.any fun x => decide (x.1 < first + n) && (match x.2 with | some k => decide (first < k) | none => true)
/-- The RTP clock of an audio codec (RFC 3551, RFC 7587). -/
def audioClock (codec : Nat) : Nat := if codec = 3 then 48000 else 8000
/-- A coded frame that begins at a block, as an RTP packet for one mix leg: the forwarding stage writes its own number, offset,
type and SSRC. -/
def framePacket (codec first : Nat) (payload : List Byte) : List Byte :=
  [0x80, 0x60, 0, 0] ++ beBytes (first * (audioClock codec) / 1200) 4 ++ [0, 0, 0, 0] ++ payload
def sendFrame (d : Dev) (leg codec first : Nat) (payload : List Byte) : Dev :=
  { d with fwd := { d.fwd with inq := d.fwd.inq ++
    [{ src := leg, bytes := framePacket codec first payload, pic := first * (audioClock codec) / 1200 % 2 ^ 32 }] } }
def mixLeg (d : Dev) (part : Nat) : Option Leg := d.fwd.legs.find? fun l => l.part == part && l.mix && l.out
/-- An encoder takes its oldest output block: the encoder after it, and the first block and coded form of a frame that it
completes. (DEDUCED, log entry 115.) -/
def encodeBlock (s : AStream) (e : AEnc) : AEnc × Option (Nat × List Byte) :=
  match e.blocks with
  | [] => (e, none)
  | (o, ys) :: rest =>
    let frame := (if o % s.frame = 0 then [] else e.frame) ++ ys
    if (o + 1) % s.frame = 0 then
      (if frame.length = 40 * s.frame then
        ({ e with blocks := rest, frame := [], coded := e.coded + 1 },
          some (o + 1 - s.frame, Config.codedAudio s.codec s.bitrate frame s.handle e.coded))
       else ({ e with blocks := rest, frame := [] }, none))
    else ({ e with blocks := rest, frame := frame }, none)
/-- An encode card has completed: a complete frame goes to the mix legs of those who receive it. -/
def endEncode (d : Dev) (stream part : Nat) : Dev :=
  match findStream d stream with
  | none => d
  | some s =>
    if part = 0 then
      let r := encodeBlock s s.enc
      let d := modStream d stream fun x => { x with enc := r.1 }
      match r.2 with
      | none => d
      | some (first, payload) =>
        (d.aud.parts.filter fun p => p.group == stream && !p.deaf && !p.peer && !personalIn p first s.frame).foldl
          (fun d p => match mixLeg d p.handle with
            | some l => sendFrame d l.handle s.codec first payload
            | none => d) d
    else
      match findPart d part with
      | none => d
      | some p =>
        let r := encodeBlock s p.enc
        let d := modPart d part fun x => { x with enc := r.1 }
        match r.2, mixLeg d part with
        | some (first, payload), some l => if p.deaf then d else sendFrame d l.handle s.codec first payload
        | _, _ => d

/-! ### The end of a card -/

/-- EV_CMP_COPY_SKIP: a frame's copy is not published (R244, R245). -/
def copySkip (d : Dev) (l : Layout) (reason : Nat) : Dev :=
  if l.hbmCopy then
    raiseOnce (cnt d (CMP l.home l.comp + 0x38) 1)
      (evTo { evUnit ⟨3, l.home, l.comp⟩ 0x605 1 [(4, l.handle), (1, reason)] with key := l.handle } l.fn)
  else d
/-- A band card of a frame has retired; after the last, the copy is published and the holds end (R241, R244, R245). -/
def endBand (d : Dev) (layout phase band : Nat) (outcome : Nat) : Dev :=
  match findLayout d layout with
  | none => d
  | some l =>
    match l.frames.find? fun f => f.phase == phase with
    | none => d
    | some f =>
      let d := if outcome != 0 && !f.dropped then copySkip d l 1 else d
      let f := { f with bandsLeft := f.bandsLeft.filter (· != band), dropped := f.dropped || outcome != 0 }
      let fs := l.frames.filter fun x => x.phase != phase
      if !f.bandsLeft.isEmpty then modLayout d layout fun x => { x with frames := fs ++ [f] }
      else
        match f.copy, f.dropped with
        | some s, false =>
          modLayout d layout fun x =>
            { x with frames := fs
                     record := some { surface := s, levels := 3, tenBit := l.tenBit, width := l.outW, height := l.outH,
                                      rtpTs := 0, ready := phase % 2 ^ 32, published := phase % 2 ^ 32,
                                      seq := (l.copies + 1) % 2 ^ 32 }
                     copies := l.copies + 1 }
        | _, _ => modLayout d layout fun x => { x with frames := fs }
/-- A band's buffer returns to its pool when the encode card retires (R243, R245). -/
def returnBand (d : Dev) (stream phase band : Nat) : Dev :=
  match findEnc d stream with
  | none => d
  | some e =>
    if e.surface then d
    else
      let mine (b : BandBuf) : Bool := b.layout == e.layout && b.phase == phase && b.band == band
      (d.vid.bufs.filter mine).foldl (fun d b => ledgGive d 8 b.comp b.units)
        { d with vid := { d.vid with bufs := d.vid.bufs.filter fun b => !mine b } }
/-- References and the record go: the layer shows no source until a random access picture (R223, R242). -/
def flushNow (x : Ctx) : Ctx := { x with pics := x.pics.filter fun p => !p.done, record := none, flush := none }
/-- A finish card that does not run ends its picture unpublished: its buffer returns, a refresh request falls due, a flush that waits
takes effect (R220, R221, R223). (DEDUCED, log entry 120.) -/
def endFinish (d : Dev) (ctx pic outcome : Nat) : Dev :=
  let d := modPic d ctx pic fun p => { p with finish := none, done := true, dropped := p.dropped || outcome != 0 }
  if outcome = 0 then d
  else modCtx d ctx fun x =>
    match findPic x pic with
    | none => x
    | some p =>
      let ask := x.clean && x.refReq != 0 && !x.released
      let x := { x with bufUsed := x.bufUsed - p.bytes, clean := false
                        reqWait := if ask then some (x.reqWait.getD (x.refReq, 0)) else x.reqWait }
      if x.flush == some pic then flushNow x else x
/-- What a card that retires with an outcome (0 completed, 1 dropped, 2 cancelled) leaves in the record that it works
for. -/
def endWork (d : Dev) (c : Card) (outcome : Nat) : Dev :=
  let pixel (ctx pic : Nat) : Dev :=
    modPic d ctx pic fun p => { p with work := p.work.filter (· != c.slot), dropped := p.dropped || outcome == 1 }
  match c.work with
  | .segment ctx pic _ => pixel ctx pic
  | .parse ctx pic => pixel ctx pic
  | .rebuild ctx pic _ _ => pixel ctx pic
  | .conceal ctx pic => modPic d ctx pic fun p => { p with work := p.work.filter (· != c.slot) }
  | .finish ctx pic => endFinish d ctx pic outcome
  | .compose l f b => endBand d l f b outcome
  | .encode s n b =>
    let d := returnBand d s n b
    if outcome = 0 then d
    else modEnc d s fun e => { e with pics := e.pics.map fun p => if p.phase == n then { p with fill := some (p.fill.getD 1) } else p }
  | .jitter _ k => if outcome = 0 then d else releaseMPkt d k
  | .audioDecode p => if outcome = 0 && !c.predShort then endDecode d p c.deadline else d
  | .audioEncode s p => if outcome = 0 then endEncode d s p else d
  | _ => d

/-- The first deal of a card of a picture starts its limit (R217). -/
def noteDeal (d : Dev) (c : Card) : Dev :=
  let note (ctx pic : Nat) : Dev := modPic d ctx pic fun p => { p with firstDeal := some (p.firstDeal.getD d.tim.stride) }
  match c.work with
  | .segment ctx pic _ => note ctx pic
  | .parse ctx pic => note ctx pic
  | .rebuild ctx pic _ _ => note ctx pic
  | _ => d

end Sys2Proof.Machine
end

