-- ==== Sys2Proof/Machine/Dealer.lean ====
section
/-! DEFINITION. The Dealer's operations (R80 to R104): cards, flows, credits, release, retirement and dealing. -/
namespace Sys2Proof.Machine

/-! ### Lookups -/

def cardHandle (slot : Nat) : Nat := mkHandle 10 slot
def findCard (d : Dev) (slot : Nat) : Option Card := d.dlr.cards.find? fun c => c.slot == slot
def putCard (d : Dev) (c : Card) : Dev :=
  { d with dlr := { d.dlr with cards := d.dlr.cards.map fun x => if x.slot == c.slot then c else x } }
/-- A card of the store that has not retired: it holds a slot and is not ZOMBIE. -/
def Card.live (c : Card) : Bool := c.state != .zombie
def findFlow (d : Dev) (id : Nat) : Option Flow := d.dlr.flows.find? fun f => f.id == id
def putFlow (d : Dev) (f : Flow) : Dev :=
  { d with dlr := { d.dlr with flows := d.dlr.flows.map fun x => if x.id == f.id then f else x } }
/-- The flow has progressed in this stride (R102). -/
def flowProgress (d : Dev) (id : Nat) : Dev :=
  match findFlow d id with
  | none => d
  | some f => putFlow d { f with progressed := true, raised := false }
def flowCards (d : Dev) (id : Nat) : List Card := d.dlr.cards.filter fun c => c.flow == id
def liveInFlow (d : Dev) (id : Nat) : Nat := ((flowCards d id).filter Card.live).length
/-- A flow of firmware's own, made at its first card: id, function, whether it is ordered. -/
def ensureFlow (d : Dev) (id fn : Nat) (ordered : Bool) : Dev :=
  match findFlow d id with
  | some _ => d
  | none => { d with dlr := { d.dlr with flows := d.dlr.flows ++
      [{ id := id, fn := fn, session := 0, host := false, ordered := ordered }] } }

def findCore (d : Dev) (k : Nat) : Core := (d.cores.find? fun c => c.id == k).getD { id := k }
def putCore (d : Dev) (c : Core) : Dev := { d with cores := c :: d.cores.filter fun x => x.id != c.id }

/-! ### Credits (R80, R99) -/

/-- A card of the firmware reserve. -/
def Card.ofFirmware (c : Card) : Bool := c.source == .firmware
def fwUsed (d : Dev) : Nat := (d.dlr.cards.filter Card.ofFirmware).length
def poolUsedSlots (d : Dev) : Nat := (d.dlr.cards.filter fun c => !c.ofFirmware).length
/-- Slots that function `f`'s cards and its kernels' spawned cards hold (R99). -/
def fnUsed (d : Dev) (f : Nat) : Nat :=
  (d.dlr.cards.filter fun c => c.live && (match c.source with | .fn g => g == f | .spawn g _ _ => g == f | .firmware => false)).length
/-- Live cards that a team has spawned. -/
def teamSpawned (d : Dev) (q t : Nat) : Nat :=
  (d.dlr.cards.filter fun c => c.live && (match c.source with | .spawn _ a b => a == q && b == t | _ => false)).length
/-- Whether a card from `src` in flow `id` has a credit from every source that applies to it. -/
def hasCredit (d : Dev) (src : Source) (id : Nat) : Bool :=
  let fnOk (f : Nat) : Bool := decide (fnUsed d f < (reg d (DLR + 0x100 + 4 * f)).toNat)
  let flowOk : Bool := match findFlow d id with
    | some f => f.limit == 0 || decide (liveInFlow d id < f.limit)
    | none => true
  flowOk && (match src with
    | .fn f => fnOk f && decide (poolUsedSlots d < d.variant.poolSlots)
    | .spawn f q t => fnOk f && decide (teamSpawned d q t < (reg d (DLR + 0x400 + 0x20 * q + 4 * t)).toNat) &&
        decide (poolUsedSlots d < d.variant.poolSlots)
    | .firmware => decide (fwUsed d < d.variant.fwSlots))
def freeSlot (d : Dev) : Option Nat := freeIndex (d.dlr.cards.map Card.slot) d.variant.capCardSlots

/-! ### Events of cards -/

/-- EV_DLR_DEADLINE_DROP and its counter (R31, R93). -/
def raiseDrop (d : Dev) (c : Card) : Dev :=
  raise (cnt d (DLR + 0x34) 1) (evTo (evDev 0x210 1 [(4, cardHandle c.slot), (4, c.owner), (4, c.deadline.toNat)]) c.fn)
/-- EV_DLR_EXCESS_DEC and its counter (R86): the handle named and the source. -/
def raiseExcess (d : Dev) (fn h src : Nat) : Dev :=
  raise (cnt d (DLR + 0x3C) 1) (evTo (evDev 0x201 2 [(4, h), (1, src)]) fn)

/-! ### Release and retirement

Retirements cascade: each step answers what follows from it, and the queue of such steps is worked off in order. -/

inductive Task where
  /-- WAITING to READY (R85). -/
  | release (slot : Nat)
  /-- Its work has ended: FINISHED or retired (R91). -/
  | complete (slot : Nat)
  /-- Retire with an outcome (0 completed, 1 dropped, 2 cancelled), decrementing successors or not. -/
  | retire (slot outcome : Nat) (succ : Bool)
  deriving DecidableEq, Repr

/-- Free a slot: the card is gone, `n` of its ledger count moving to free by `give` (from in use) or landing (ZOMBIE). -/
def removeCard (d : Dev) (slot : Nat) : Dev :=
  { d with dlr := { d.dlr with cards := d.dlr.cards.filter fun c => c.slot != slot } }

/-- The first stride in which a card may be released has come (R85). -/
def nbReached (d : Dev) (c : Card) : Bool := !c.nbEn || decide (0 ≤ sdiff (strideW d) c.notBefore)

/-- One registered decrement of successor `slot` (R85, R86), or, when the producer was cancelled without release_succ, only
the end of its registration. -/
def decSucc (d : Dev) (slot : Nat) (dec short : Bool) : Dev × List Task :=
  match findCard d slot with
  | none => (d, [])
  | some c =>
    if c.state == .zombie then
      (if c.pendingReg ≤ 1 then (ledgLand (removeCard d slot) 1 0 1, [])
       else (putCard d { c with pendingReg := c.pendingReg - 1 }, []))
    else if dec then
      (let c := { c with counter := c.counter - 1, pendingReg := c.pendingReg - 1, predShort := c.predShort || short }
       let d := flowProgress (putCard d c) c.flow
       if c.counter = 0 && c.state == .waiting && nbReached d c then (d, [.release slot]) else (d, []))
    else (putCard d { c with pendingReg := c.pendingReg - 1 }, [])

/-- All of a card's successors, in succ order. -/
def decAll : List Nat → Dev → Bool → Bool → Dev × List Task
  | [], d, _, _ => (d, [])
  | s :: ss, d, dec, short =>
    (let r := decSucc d s dec short
     let r' := decAll ss r.1 dec short
     (r'.1, r.2 ++ r'.2))

/-- An earlier-submitted card of the flow has not retired (R91). -/
def earlierLive (d : Dev) (c : Card) : Bool := (flowCards d c.flow).any fun x => x.live && decide (x.seq < c.seq)

/-- The oldest FINISHED card of an ordered flow that nothing earlier holds back. -/
def nextFinished (d : Dev) (id : Nat) : List Task :=
  match (flowCards d id).find? fun c => c.state == .finished && !earlierLive d c with
  | some c => [.retire c.slot 0 true]
  | none => []

/-- A closing session's flow leaves when its last card retires; a ZOMBIE card has retired (R38, R103). -/
def closeFlow (d : Dev) (id : Nat) : Dev :=
  match findFlow d id with
  | some f =>
    if f.closing && liveInFlow d id == 0 then
      (let d := { d with dlr := { d.dlr with flows := d.dlr.flows.filter fun x => x.id != id } }
       if f.host then ledgLand d 2 0 1 else d)
    else d
  | none => d

/-- A unit's engine queue (R98). -/
def queueOf (d : Dev) (u : UnitId) : List Nat :=
  match d.dlr.queues.find? fun x => x.1 == u with
  | some x => x.2
  | none => []
def setQueue (d : Dev) (u : UnitId) (l : List Nat) : Dev :=
  { d with dlr := { d.dlr with queues := (u, l) :: d.dlr.queues.filter fun x => x.1 != u } }
/-- The unit's engine queue without a card. -/
def unqueue (d : Dev) (c : Card) : Dev :=
  match c.at_ with
  | none => d
  | some u => setQueue d u ((queueOf d u).filter fun s => s != c.slot)

/-- A core that holds the card becomes idle. -/
def freeCore (d : Dev) (c : Card) : Dev :=
  match c.core with
  | none => d
  | some k =>
    let x := findCore d k
    let d := { d with dlr := { d.dlr with preempts := d.dlr.preempts.filter fun p => p.core != k } }
    if x.card == some c.slot then putCore d { id := k, ctx := x.ctx, halted := x.halted, haltReq := x.haltReq }
    else if c.preempted then putCore d { x with ctx := none } else d

/-- The chain status (table Chain status) of a DMA card that does not complete: what its run has done, and the outcome
(R350). (DEDUCED, log entry 166.) -/
def chainStatus (r : DmaRun) (outcome : Nat) : List Byte :=
  leBytes r.done 2 ++ leBytes r.bad 2 ++ leBytes r.first 2 ++ leBytes r.cause 1 ++ leBytes outcome 1 ++ leBytes r.addr 8
/-- A DMA card leaves its channel; one that did not complete writes its chain status (R350). -/
def endDma (d : Dev) (c : Card) (outcome : Nat) : Dev :=
  match c.work with
  | .dma _ st =>
    let r := (d.dma.runs.find? fun r => r.slot == c.slot).getD { unit := ⟨6, 0xFF, 0⟩, slot := c.slot }
    let d := { d with dma := { d.dma with runs := d.dma.runs.filter fun r => r.slot != c.slot } }
    if outcome = 0 || st = 0 then d else emitOut d (.hostWrite c.fn st (chainStatus r outcome))
  | _ => d

/-- One of the objects that a release took out of service still has a card of firmware's (R38, R39). -/
def serving (d : Dev) (hs : List Nat) : Bool := d.dlr.cards.any fun c => c.ofFirmware && c.live && hs.contains c.owner
/-- OBJ_RELEASE commands whose objects have all left service complete (R39). -/
def endReleases (d : Dev) : Dev :=
  (d.hif.accepted.filter fun c => c.started && dOpcode c.desc == 0x03 && !serving d c.awaits).foldl
    (fun d c => complete d c.id ST_OK (leBytes c.n1 4)) d

/-- Retirement (R81): successors, credit, notification, slot; a dropped or cancelled card with registrations left stays
ZOMBIE (R86). -/
def retireCard (d : Dev) (c : Card) (outcome : Nat) (succ : Bool) : Dev × List Task :=
  let d := endWork (endDma (freeCore (unqueue d c) c) c outcome) c outcome
  let r := decAll c.succ d succ (outcome != 0)
  let d := r.1
  let d := if c.notify then
      raise d (evTo (evDev 0x202 0 [(4, cardHandle c.slot), (1, outcome), (4, c.late)]) c.fn)
    else d
  let c := ((findCard d c.slot).getD c)
  let d := if outcome != 0 && c.pendingReg != 0 then
      ledgRelease (putCard d { c with state := .zombie, core := none, at_ := none }) 1 0 1
    else ledgGive (removeCard d c.slot) 1 0 1
  let d := flowProgress d c.flow
  let d := c.cancelCmds.foldl (fun d id => complete d id ST_OK [1]) d
  (closeFlow (endReleases d) c.flow, r.2 ++ nextFinished d c.flow)

/-- One step of the cascade. -/
def runTask (d : Dev) (t : Task) : Dev × List Task :=
  match t with
  | .release slot =>
    (match findCard d slot with
    | none => (d, [])
    | some c =>
      if c.state != .waiting then (d, [])
      else
        let d := putCard { d with dlr := { d.dlr with nextRel := d.dlr.nextRel + 1 } }
          { c with state := .ready, rel := d.dlr.nextRel }
        if c.cls = 0 && decide (sdiff c.deadline (strideW d) < 0) then
          (raiseDrop d c, [.retire slot 1 true])
        else if c.exec = 0 then (d, [.complete slot])
        else (d, []))
  | .complete slot =>
    (match findCard d slot with
    | none => (d, [])
    | some c =>
      let ordered := match findFlow d c.flow with | some f => f.ordered | none => false
      if ordered && earlierLive d c then
        (freeCore (unqueue (putCard d { c with state := .finished, done := true, at_ := none, core := none }) c) c, [])
      else retireCard d c 0 true)
  | .retire slot outcome succ =>
    (match findCard d slot with
    | none => (d, [])
    | some c => if c.live then retireCard d c outcome succ else (d, []))

/-- Work off a queue of tasks, `n` at most. -/
def runTasksN : Nat → Dev → List Task → Dev
  | 0, d, _ => d
  | _, d, [] => d
  | n + 1, d, t :: ts =>
    (let r := runTask d t
     runTasksN n r.1 (ts ++ r.2))
/-- Enough steps for every card of the store to be released, completed and retired. (DEDUCED, log entry 71.) -/
def runTasks (d : Dev) (ts : List Task) : Dev := runTasksN (ts.length + 4 * d.dlr.cards.length + 8) d ts

/-- A card that completes. -/
def completeCard (d : Dev) (slot : Nat) : Dev := runTasks d [.complete slot]
/-- A card that is cancelled, with its successors decremented. -/
def cancelCard (d : Dev) (slot : Nat) : Dev := runTasks d [.retire slot 2 true]
/-- A card that is dropped, with its successors decremented (R88). -/
def dropCard (d : Dev) (slot : Nat) : Dev := runTasks d [.retire slot 1 true]

/-- Register successors and put a card into the store; it is released at once where nothing holds it (R84, R85). The
slot and order numbers are the Dealer's. -/
def storeCard (d : Dev) (c : Card) : Dev :=
  match freeSlot d with
  | none => d
  | some slot =>
    let c := { c with slot := slot, seq := d.dlr.nextSeq }
    let d := c.succ.foldl (fun d s => match findCard d s with
      | some x => putCard d { x with pendingReg := x.pendingReg + 1 }
      | none => d) d
    let d := { d with dlr := { d.dlr with cards := d.dlr.cards ++ [c], nextSeq := d.dlr.nextSeq + 1 } }
    let d := flowProgress (ledgTake d 1 0 1) c.flow
    if c.counter = 0 && nbReached d c then runTasks d [.release slot] else d

/-- A card of groom firmware for an admitted object (R80), in a flow of the object's: made only while the reserve has a
slot. (DEDUCED, log entry 73.) -/
def fwCard (d : Dev) (c : Card) (ordered : Bool) : Dev :=
  let d := ensureFlow d c.flow c.fn ordered
  if hasCredit d .firmware c.flow then storeCard d { c with source := .firmware } else d

/-- An external decrement of the card that handle `h` names, by function `fn` from source `src` (R84, R86, R127). -/
def signalCard (d : Dev) (fn h src : Nat) : Dev :=
  match findCard d (hIndex h) with
  | some c =>
    if hKind h == 10 && c.fn == fn && c.state == .waiting && decide (c.pendingReg < c.counter) then
      (let c := { c with counter := c.counter - 1 }
       let d := flowProgress (putCard d c) c.flow
       if c.counter = 0 && nbReached d c then runTasks d [.release c.slot] else d)
    else raiseExcess d fn h src
  | none => raiseExcess d fn h src

/-! ### Dealing (R90 to R97) -/

/-- The flow lets the card be dealt: in an atomic flow the oldest released card with none in service; in an ordered flow
while fewer than 64 are in service or FINISHED. (DEDUCED, log entry 71.) -/
def flowAllows (d : Dev) (c : Card) : Bool :=
  let cs := flowCards d c.flow
  match findFlow d c.flow with
  | some f =>
    if f.ordered then decide ((cs.filter fun x => x.state == .inService || x.state == .finished).length < 64)
    else cs.all fun x => x.state != .inService && !(x.state == .ready && decide (x.rel < c.rel))
  | none => true

/-- Earlier deadline by signed difference from the current stride count, then earlier release (R92). -/
def dealsBefore (d : Dev) (a b : Card) : Bool :=
  let x := sdiff a.deadline (strideW d)
  let y := sdiff b.deadline (strideW d)
  decide (x < y) || (x == y && decide (a.rel < b.rel))
/-- The card that is dealt first. -/
def firstCard (d : Dev) : List Card → Option Card
  | [] => none
  | c :: cs => match firstCard d cs with
    | none => some c
    | some x => if dealsBefore d x c then some x else some c

def coreQuarter (k : Nat) : Nat := k / 64
def coreTeam (k : Nat) : Nat := k / 8 % 8
/-- Cores that a quarter and a team field allow. -/
def poolCores (d : Dev) (q t : Nat) : List Nat :=
  (List.range 256).filter fun k => (q == 0xFF || coreQuarter k == q) && (t == 0xFF || coreTeam k == t) &&
    quarterUp d (coreQuarter k) && decide (coreTeam k < d.variant.teams)
def teamState (d : Dev) (k : Nat) : Nat := getF d (TEAM (coreQuarter k) (coreTeam k)) 0 3
/-- A core that can take a new deal (R94); a team in STOPPING takes none (R132). -/
def coreIdle (d : Dev) (k : Nat) : Bool :=
  teamState d k == 2 && !halted d && (let x := findCore d k; x.card.isNone && !x.halted && !x.haltReq)
/-- The pre-empted card that waits for core `k` (R97). -/
def preemptedOn (d : Dev) (k : Nat) : Option Card := d.dlr.cards.find? fun c => c.preempted && c.core == some k
/-- The pool's record. -/
def getPool (d : Dev) (q t : Nat) : Pool := (d.dlr.pools.find? fun p => p.quarter == q && p.team == t).getD ⟨q, t, 0, none⟩
def putPool (d : Dev) (p : Pool) : Dev :=
  { d with dlr := { d.dlr with pools := p :: d.dlr.pools.filter fun x => !(x.quarter == p.quarter && x.team == p.team) } }
/-- A READY trump card, of any pool, could take core `k` (R92). -/
def trumpWants (d : Dev) (k : Nat) : Bool :=
  coreIdle d k && d.dlr.cards.any fun c => c.state == .ready && c.exec == 1 && c.cls == 0 && flowAllows d c &&
    (poolCores d c.quarter c.team).contains k
/-- Core `k` is idle for a card of class `cls`: a trump card is never deferred for a card of another class (R92). -/
def coreFor (d : Dev) (cls k : Nat) : Bool := coreIdle d k && (cls == 0 || !trumpWants d k)
/-- The first idle core after the last dealt one, cyclically (R95). -/
def nextIdle (d : Dev) (cls q t : Nat) (last : Option Nat) : Option Nat :=
  let ks := (poolCores d q t).filter (coreFor d cls)
  match last with
  | none => ks.head?
  | some l => match ks.find? fun k => decide (l < k) with
    | some k => some k
    | none => ks.head?
/-- The core for a card (R95). -/
def chooseCore (d : Dev) (c : Card) : Option Nat :=
  let p := getPool d c.quarter c.team
  match findFlow d c.flow with
  | some f =>
    (match f.ordered, f.lastCore with
     | false, some k =>
       if (poolCores d c.quarter c.team).contains k && coreFor d c.cls k then some k else nextIdle d c.cls c.quarter c.team p.last
     | _, _ => nextIdle d c.cls c.quarter c.team p.last)
  | none => nextIdle d c.cls c.quarter c.team p.last

/-- The deal record (R125). -/
def dealRecord (d : Dev) (c : Card) (resume : Bool) : List Word :=
  let (entry, arg) := match c.work with | .kernel e a => (e, a) | _ => (0, 0)
  [entry, arg, wd (cardHandle c.slot), wd c.flow, c.deadline,
   wd (c.predShort.toNat + 2 * resume.toNat + 4 * c.cls), strideW d, 0]

/-- Deal card `c` to core `k` (R94, R125, R129). -/
def dealTo (d : Dev) (c : Card) (k : Nat) (resume : Bool) : Dev :=
  let r := dealRecord d c resume
  let x := findCore d k
  let core : Core :=
    match resume, x.ctx with
    | true, some cx =>
      { id := k, card := some c.slot, d := cx.d, x := cx.x, a := cx.a, m := cx.m, b := cx.b, l := cx.l, s := cx.s, lc := cx.lc,
        loops := cx.loops, rrb := cx.rrb, p := cx.epcP, pc := cx.epc, epc := cx.epc, epcP := cx.epcP, sat := cx.sat,
        circ := cx.circ, deal := r }
    | _, _ =>
      { id := k, card := some c.slot, s := [nth r 1 0, wd (cardHandle c.slot), c.deadline] ++ List.replicate 13 0,
        p := BitVec.ofNat 8 c.predShort.toNat, pc := nth r 0 0, deal := r, ctx := x.ctx }
  let d := putCore d core
  let d := setReg d (MDCi k + 0x18) (wd (cardHandle c.slot))
  let d := putCard d { c with state := .inService, core := some k, preempted := false }
  let d := flowProgress d c.flow
  let d := match findFlow d c.flow with
    | some f => putFlow d { f with lastCore := some k }
    | none => d
  let p := getPool d c.quarter c.team
  putPool d { p with last := some k, deals := if c.cls = 2 then 0 else p.deals + 1 }

/-- READY cards of a pool and class that may be dealt. -/
def readyIn (d : Dev) (q t cls : Nat) : List Card :=
  d.dlr.cards.filter fun c => c.state == .ready && c.exec == 1 && c.quarter == q && c.team == t && c.cls == cls && flowAllows d c

/-- Pre-empted cards of a pool whose core is idle, not halted for debug, and wanted by no trump card; a team in STOPPING still
resumes its own (R92, R97, R132, R134). -/
def resumable (d : Dev) (q t : Nat) : List Card :=
  d.dlr.cards.filter fun c => c.preempted && c.quarter == q && c.team == t &&
    (match c.core with
     | some k => (findCore d k).card.isNone && !(findCore d k).halted && !(findCore d k).haltReq &&
         (teamState d k == 2 || teamState d k == 3) && !halted d && !trumpWants d k
     | none => false)

/-- The background share in force (DLR_CTRL, from the last boundary). (DEDUCED, log entry 70.) -/
def bgEvery (d : Dev) : Nat := fld (regB d (DLR + 4)) 16 8

/-- A card with the core that it is dealt to, and whether it resumes there. -/
abbrev Deal := Card × Nat × Bool
/-- The first READY card of a class of the pool, on a core for it; a background card gives way to the pre-empted card of the core
that it would take (R97). -/
def readyDeal (d : Dev) (q t cls : Nat) : Option Deal :=
  match firstCard d (readyIn d q t cls) with
  | none => none
  | some c => match chooseCore d c with
    | none => none
    | some k => match cls, preemptedOn d k with
      | 2, some p => some (p, k, true)
      | _, _ => some (c, k, false)
/-- The next background deal of the pool: a pre-empted card resumes on its own core before a new one starts (R97). -/
def backgroundDeal (d : Dev) (q t : Nat) : Option Deal :=
  match resumable d q t with
  | p :: _ => p.core.map fun k => (p, k, true)
  | [] => readyDeal d q t 2
/-- Background is due: standard and background cards are both ready, and this is one deal of bg_every (R92). -/
def bgDue (d : Dev) (q t : Nat) : Bool := decide (bgEvery d ≤ (getPool d q t).deals + 1)
/-- The next deal of the pool of quarter and team fields `q`, `t` (R92, R95, R97): trump, then standard, but background in one
deal of bg_every; a class that no core can take leaves the deal to the next. (DEDUCED, log entry 70.) -/
def nextDeal (d : Dev) (q t : Nat) : Option Deal :=
  (readyDeal d q t 0).orElse fun _ =>
    if bgDue d q t then (backgroundDeal d q t).orElse fun _ => readyDeal d q t 1
    else (readyDeal d q t 1).orElse fun _ => backgroundDeal d q t
/-- One deal from a pool. -/
def dealPool (d : Dev) (q t : Nat) : Dev :=
  match nextDeal d q t with
  | some (c, k, resume) => dealTo d c k resume
  | none => d

/-! ### Engine queues (R98) -/

def queueDepth (u : UnitId) : Nat := match u.cls with | 5 => 64 | 6 => 16 | _ => 8
/-- Groom firmware runs in a quarter: present, unfenced, and past TRAIN. -/
def groomUp (d : Dev) (q : Nat) : Bool := quarterUp d q && d.sys.mode.fetches && !halted d
/-- The unit takes cards: running, or for a groom queue its quarter up. -/
def unitTakes (d : Dev) (u : UnitId) : Bool :=
  if u.cls = 5 then u.index == 0 && groomUp d u.quarter else unitPresent d.variant u && running d u
/-- Units of the same group that take cards. -/
def groupUnits (d : Dev) (u : UnitId) : List UnitId :=
  ((List.range (clsMax u.cls u.quarter)).map (UnitId.mk u.cls u.quarter)).filter (unitTakes d)
/-- The card names unit `u`, or the group in which `u` is least queued. (DEDUCED, log entry 69.) -/
def cardFor (d : Dev) (u : UnitId) (c : Card) : Bool :=
  c.exec == u.cls && (c.quarter == u.quarter || (c.quarter == 0xFF && u.quarter != 0xFF && u.cls != 6)) &&
  (c.unit == u.index || (c.unit == 0xFF &&
    ((groupUnits d u).all fun w => decide ((queueOf d u).length ≤ (queueOf d w).length))))
/-- Write the next released card into the unit's engine queue. (DEDUCED, log entry 69.) -/
def writeQueue (d : Dev) (u : UnitId) : Dev :=
  if !unitTakes d u || decide (queueDepth u ≤ (queueOf d u).length) then d
  else
    let ready (k : Nat) : List Card :=
      d.dlr.cards.filter fun c => c.state == .ready && c.cls == k && cardFor d u c && flowAllows d c
    match (List.range 3).findSome? fun k => firstCard d (ready k) with
    | none => d
    | some c =>
      let d := setQueue d u (queueOf d u ++ [c.slot])
      noteDeal (flowProgress (putCard d { c with state := .inService, at_ := some u }) c.flow) c
/-- The card at the head of the queue of the unit that holds it: the one the unit works on. -/
def atHead (d : Dev) (c : Card) : Bool :=
  match c.at_ with
  | some u => (queueOf d u).head? == some c.slot && unitTakes d u
  | none => false

/-! ### Boundary steps (R101) -/

/-- Step 1: trump cards due in the stride just ended, or in a stride that a step skipped, that have not started. (DEDUCED, log entry 12.) -/
def dropDue (d : Dev) (old : Word) : Dev :=
  let due := d.dlr.cards.filter fun c => c.cls == 0 && (c.state == .waiting || c.state == .ready) &&
    decide (0 ≤ sdiff c.deadline old) && decide (sdiff c.deadline (strideW d) < 0)
  due.foldl (fun d c => match findCard d c.slot with
    | some x => if x.state == .waiting || x.state == .ready then dropCard (raiseDrop d x) x.slot else d
    | none => d) d
/-- Step 2: cards held only by not_before. -/
def releaseDue (d : Dev) : Dev :=
  runTasks d ((d.dlr.cards.filter fun c => c.state == .waiting && c.counter == 0 && nbReached d c).map fun c => .release c.slot)
/-- A flow is pending (R102). -/
def flowPending (d : Dev) (id : Nat) : Bool :=
  (flowCards d id).any fun c => c.state == .ready || (c.state == .waiting && !(c.counter == 0 && !nbReached d c))
/-- The watchdog and submit-stall limit in force. -/
def wdLimit (d : Dev) : Nat := fld (regB d (DLR + 4)) 0 8
/-- EV_DLR_STALL for a flow whose count has reached the limit, once per stall. -/
def stallFlow (d : Dev) (id : Nat) : Dev :=
  match findFlow d id with
  | none => d
  | some f =>
    if f.raised || f.progressed || !bit (regB d (DLR + 4)) 9 || f.stall < wdLimit d || !flowPending d id then d
    else
      let cs := flowCards d id
      let old := (cs.find? fun c => c.state == .waiting).orElse fun _ => cs.find? fun c => c.state == .ready
      let h := match old with | some c => cardHandle c.slot | none => 0
      raise (cnt (putFlow d { f with raised := true }) (DLR + 0x38) 1)
        (evTo (evDev 0x200 1 [(4, f.id), (4, h), (4, f.stall)]) f.fn)
/-- Step 3: the watchdog count of every flow. (DEDUCED, log entry 18.) -/
def watchdog (d : Dev) : Dev :=
  (d.dlr.flows.map Flow.id).foldl (fun d id => match findFlow d id with
    | none => d
    | some f =>
      let n := if flowPending d id && !f.progressed then f.stall + 1 else 0
      stallFlow (putFlow d { f with stall := n, progressed := false }) id) d
/-- EV_DLR_SUBMIT_STALL for a command that has waited for credit through the limit, once (R100): for a DMA_CHAIN as for a
CARD_SUBMIT. (DEDUCED, log entry 18; DEDUCED, log entry 182.) -/
def submitStallCmd (d : Dev) (c : Cmd) : Dev :=
  if c.waiting && !c.stalled && decide (wdLimit d < c.strides) then
    raise (putCmd d { c with stalled := true }) (evFn c.fn 0x204 1 [(1, c.fn), (1, c.ring)])
  else d
/-- The Dealer's boundary steps, from the old stride count's word. -/
def dealerBoundary (d : Dev) (old : Word) : Dev :=
  let d := watchdog (releaseDue (dropDue d old))
  let d := { d with hif := { d.hif with accepted := d.hif.accepted.map fun (c : Cmd) =>
    if c.waiting || c.started then { c with strides := c.strides + 1 } else c } }
  d.hif.accepted.foldl submitStallCmd d

end Sys2Proof.Machine
end

