-- ==== Sys2Proof/Machine/MacOps.lean ====
section
/-! DEFINITION. Port types, lanes and links as shared operations (R135 to R145, R149). -/
namespace Sys2Proof.Machine

/-! ### Port types (table Port types) -/

def typeLanes (t : Nat) : Nat := nth [1, 1, 1, 1, 1, 2, 4, 2, 4, 4, 8] t 1
/-- Nominal rate in Gb/s. -/
def typeRate (t : Nat) : Nat := nth [1, 10, 25, 50, 100, 100, 100, 200, 200, 400, 400] t 1
/-- FEC modes that a type permits. -/
def typeFec (t : Nat) : List Nat :=
  match t with | 0 => [0] | 1 => [0, 1] | 2 => [0, 1, 2] | 6 => [2] | _ => [3]
/-- The degrade ladder (R144). -/
def ladder (t : Nat) : List Nat :=
  match t with | 9 => [7, 4] | 10 => [8, 5, 3] | 8 => [5, 3] | 7 => [4] | 6 => [2] | 5 => [3] | _ => []

/-! ### Configuration and status fields -/

def portUnit (p : Nat) : UnitId := ⟨11, 0xFF, p⟩
def cfgType (d : Dev) (p : Nat) : Nat := getF d (MACP p + 4) 0 4
def laneBase (d : Dev) (p : Nat) : Nat := getF d (MACP p + 4) 4 4
def maxFrame (d : Dev) (p : Nat) : Nat := getF d (MACP p + 0x10) 0 14
/-- Link states: 0 DOWN, 1 CHECK, 2 AN, 3 TRAIN, 4 ALIGN, 5 UP. -/
def link (d : Dev) (p : Nat) : Nat := getF d (MACP p) 12 3
def linkUp (d : Dev) (p : Nat) : Bool := link d p == 5
def typeNow (d : Dev) (p : Nat) : Nat := getF d (MACP p) 16 4
def fecNow (d : Dev) (p : Nat) : Nat := getF d (MACP p) 20 2
def isDegraded (d : Dev) (p : Nat) : Bool := getB d (MACP p) 22
/-- Role: true for active. -/
def isActive (d : Dev) (p : Nat) : Bool := getB d (MACP p + 0xC) 0
def partner (d : Dev) (p : Nat) : Nat := getF d (MACP p + 0xC) 4 3
def getPort (d : Dev) (p : Nat) : MacPort := nth d.mac.ports p {}
def putPort (d : Dev) (p : Nat) (x : MacPort) : Dev := { d with mac := { d.mac with ports := upd d.mac.ports p x } }
/-- A port in STARTING, RUNNING or STOPPING. -/
def portStarted (d : Dev) (p : Nat) : Bool := let s := uState d (portUnit p); s == 1 || s == 2 || s == 3
/-- A port's rate in force in Gb/s. -/
def portRate (d : Dev) (p : Nat) : Nat := typeRate (typeNow d p)
/-- The lanes of a configured type. -/
def cfgLanes (d : Dev) (p : Nat) : List Nat := (List.range (typeLanes (cfgType d p))).map fun i => laneBase d p + i
/-- R136's configuration checks. -/
def portCfgOk (d : Dev) (p : Nat) : Bool :=
  let t := cfgType d p
  let ls := cfgLanes d p
  decide (t ≤ 10) && laneBase d p % typeLanes t == 0 && decide (laneBase d p + typeLanes t ≤ 16) &&
  (typeFec t).contains (getF d (MACP p + 4) 10 2) && !(getB d (MACP p + 4) 8 && t == 10) &&
  (List.range 8).all fun r => r == p || !portStarted d r || ls.all fun l => !(cfgLanes d r).contains l

/-! ### Roles (R137) -/

/-- The active sum in Gb/s, port `skip` left out. -/
def activeSum (d : Dev) (skip : Nat) : Nat :=
  ((List.range 8).map fun p => if p != skip && portStarted d p && isActive d p then portRate d p else 0).sum
/-- The role that a port shows. (DEDUCED, log entry 90.) -/
def showRole (d : Dev) (p : Nat) : Dev := putB d (MACP p) 15 (portStarted d p && isActive d p)
def setRole (d : Dev) (p : Nat) (a : Bool) : Dev := showRole (putB d (MACP p + 0xC) 0 a) p
/-- A started active port that does not fit at its type becomes standby and sets bw_reject. -/
def fitRole (d : Dev) (p : Nat) : Dev :=
  if isActive d p && decide (800 < activeSum d p + portRate d p) then putB (setRole d p false) (MACP p) 10 true
  else showRole d p
/-- A write to MAC_PORT_ROLE. (DEDUCED, log entry 90.) -/
def writeRole (d : Dev) (p : Nat) (v : Word) : Dev :=
  if bit v 0 && portStarted d p && decide (800 < activeSum d p + portRate d p) then putB d (MACP p) 10 true
  else
    let d := showRole (setReg d (MACP p + 0xC) (v &&& 0x171)) p
    if bit v 0 then
      { d with brd := { d.brd with ports := upd d.brd.ports p { nth d.brd.ports p {} with movedTo := none } } }
    else d

/-! ### Links -/

def setTypeNow (d : Dev) (p t fec : Nat) : Dev := setF (setF d (MACP p) 16 4 t) (MACP p) 20 2 fec
/-- A link state; the lanes field shows lanes in use, which is while the link is UP. -/
def setLink (d : Dev) (p s : Nat) : Dev :=
  let d := putB (setF d (MACP p) 12 3 s) (MACP p) 11 (s == 5)
  if s = 5 then
    setF d (MACP p) 24 8 (((getPort d p).group.map fun l => 2 ^ (l - laneBase d p)).sum)
  else setF d (MACP p) 24 8 0
/-- Every pause timer of the port clears. -/
def clearPause (d : Dev) (p : Nat) : Dev :=
  putPort (setReg d (MACP p + 0x18) 0) p { getPort d p with pauseEnd := 0, pfcEnd := List.replicate 8 0 }
/-- What a link leaving UP leaves behind: pauses clear (R150), failover waits for the boundary (R145). (DEDUCED, log entry 88.) -/
def leaveUp (d : Dev) (p : Nat) : Dev :=
  if !linkUp d p then d
  else
    let d := clearPause d p
    let fo := isActive d p && getB d (MACP p + 0xC) 8
    putPort d p { getPort d p with polarity := [], failPend := if fo then some d.tim.stride else none }
/-- A link lost on lane `l` (R143): UP to CHECK. -/
def loseLink (d : Dev) (p l : Nat) : Dev :=
  if !linkUp d p then d
  else
    let d := cnt (setLink (leaveUp d p) p 1) (MACP p + 0x70) 1
    raise d (evUnit (portUnit p) 0xA01 1 [(1, p), (1, 5), (1, l)])

/-! ### Lanes -/

def laneUnit (l : Nat) : UnitId := ⟨12, 0xFF, l⟩
def laneExcluded (d : Dev) (l : Nat) : Bool := getB d (SDS l) 16
def laneUsable (d : Dev) (l : Nat) : Bool := uState d (laneUnit l) == 2 && !laneExcluded d l
/-- The port whose configured lanes hold lane `l`, among started ports. -/
def portOfLane (d : Dev) (l : Nat) : Option Nat := (List.range 8).find? fun p => portStarted d p && (cfgLanes d p).contains l
/-- A lane fault sets fault, excluded and fault_sticky and counts (R143). -/
def markLane (d : Dev) (l code : Nat) : Dev :=
  let d := setF (putB d (SDS l) 16 true) (SDS l) 12 4 code
  let d := cnt (putB d (SDS l) 24 true) (SDS l + 0xC) 1
  { d with mac := { d.mac with passes := upd d.mac.passes l 0 } }
/-- The link of another port that uses lane `l` leaves its state when the lane fails (R143). -/
def hitLink (d : Dev) (l : Nat) : Dev :=
  match portOfLane d l with
  | none => d
  | some p =>
    if !(getPort d p).group.contains l then d
    else if linkUp d p then loseLink d p l
    else if link d p == 2 || link d p == 3 || link d p == 4 then setLink d p 0 else d
/-- A detected lane fault: both lanes of a PAIR_SHORT are excluded, with one event. (DEDUCED, log entry 87.) -/
def faultLane (d : Dev) (l code second : Nat) : Dev :=
  let d := markLane d l code
  let d := if code = 4 && second != l then markLane (hitLink d second) second 4 else d
  raise d (evUnit (laneUnit l) 0xA10 2 ([(1, l), (1, code)] ++ if code = 4 then [(1, second)] else []))

/-- The group that a port comes up on (R144): its type on all its lanes, or the first rung with a usable aligned group. -/
def chooseGroup (d : Dev) (p : Nat) : Option (Nat × List Nat) :=
  let t := cfgType d p
  let ls := cfgLanes d p
  if ls.all (laneUsable d) then some (t, ls)
  else
    let rungs := match getF d (MACP p + 4) 12 2 with | 0 => [] | 1 => (ladder t).take 1 | _ => ladder t
    rungs.findSome? fun r =>
      (List.range (ls.length / typeLanes r)).findSome? fun k =>
        let g := slice ls (k * typeLanes r) (typeLanes r)
        if g.all (laneUsable d) then some (r, g) else none

/-- From type resolution to training or alignment (R139): the type in force tells whether the port trains. (DEDUCED, log
entry 89.) -/
def afterType (d : Dev) (p : Nat) : Dev :=
  if getB d (MACP p + 4) 9 && typeNow d p != 0 && typeNow d p != 10 then setLink d p 3 else setLink d p 4

/-- The line check has ended (R143, R144): the port goes on with the group it can run on, with sig_det of its lanes set, or its link goes
DOWN, with type_now and degraded as they were. (DESIGN CHOICE, log entry 197; DESIGN CHOICE, log entry 198.) -/
def endCheck (d : Dev) (p : Nat) : Dev :=
  match chooseGroup d p with
  | none => setLink (putPort d p { getPort d p with group := [] }) p 0
  | some (t, g) =>
    let d := putPort d p { getPort d p with group := g, retrain := false }
    let d := putB d (MACP p) 22 (t != cfgType d p)
    let d := fitRole (setTypeNow d p t (getF d (MACP p + 4) 10 2)) p
    let d := g.foldl (fun d l => putB (putB d (SDS l) 18 true) (SDS l) 19 false) d
    if getB d (MACP p + 4) 8 && cfgType d p != 10 then setLink d p 2 else afterType d p

/-! ### Starting and stopping (R76, R77, R135 to R137) -/

/-- A port enters STARTING: its STOPPED lanes start with it, and its role is held to the active sum. -/
def portStarting (d : Dev) (p : Nat) : Dev :=
  let ls := cfgLanes d p
  let d := ls.foldl (fun d l => if uState d (laneUnit l) == 0 then setUState d (laneUnit l) 1 else d) d
  let d := { d with mac := { d.mac with stopped := d.mac.stopped.filter fun l => !ls.contains l } }
  fitRole (setTypeNow d p (cfgType d p) (getF d (MACP p + 4) 10 2)) p

/-- A lane reaches RUNNING; one that UNIT_STOP had excluded is usable again. (DEDUCED, log entry 91.) -/
def laneRunning (d : Dev) (l : Nat) : Dev :=
  let d := { d with mac := { d.mac with stopped := d.mac.stopped.filter (· != l) } }
  if laneExcluded d l && getF d (SDS l) 12 4 == 0 then putB d (SDS l) 16 false else d

/-- A port reaches RUNNING: its lanes run and its link starts with the line check. -/
def portRunning (d : Dev) (p : Nat) : Dev :=
  let d := (cfgLanes d p).foldl (fun d l =>
    if uState d (laneUnit l) == 1 then laneRunning (setUState d (laneUnit l) 2) l else d) d
  setLink (putPort d p { getPort d p with fails := 0, failRaised := false, polarity := [], retrain := false }) p 1

/-- A port reaches STOPPED. -/
def portStopped (d : Dev) (p : Nat) : Dev :=
  let d := setLink (leaveUp d p) p 0
  let d := (getPort d p).group.foldl (fun d l => putB (putB (setF d (SDS l) 20 3 0) (SDS l) 18 false) (SDS l) 19 false) d
  let d := putB (setTypeNow d p 0 0) (MACP p) 22 false
  showRole (putPort d p { getPort d p with group := [], retrain := false }) p

/-- A lane stopped while its port runs is excluded with fault 0 (R143); a link that uses it leaves UP. (DEDUCED, log entry 91.) -/
def laneStopped (d : Dev) (l : Nat) : Dev :=
  match portOfLane d l with
  | none => d
  | some p =>
    let d := putB (setF d (SDS l) 12 4 0) (SDS l) 16 true
    let d := { d with mac := { d.mac with stopped := if d.mac.stopped.contains l then d.mac.stopped else d.mac.stopped ++ [l] } }
    if (getPort d p).group.contains l then loseLink d p l else d

end Sys2Proof.Machine
end

