-- ==== Sys2Proof/Machine/UnitOps.lean ====
section
/-! DEFINITION. Unit states, power steps, mode changes, fences and HALT-SAFE as shared operations (R76, R77, R364, R372 to
R381). -/
namespace Sys2Proof.Machine

/-! ### Paddock holds of media cores (R124) -/

/-- A core as 64 q + 8 t + c. -/
def coreUnit (k : Nat) : UnitId := ⟨1, coreQuarter k, coreTeam k⟩
/-- The bank arbiter `n` of quarter `q`. -/
def getBank (d : Dev) (q n : Nat) : PadBank := (d.mem.padBanks.find? fun b => b.q == q && b.n == n).getD { q := q, n := n }
def putBank (d : Dev) (b : PadBank) : Dev :=
  { d with mem := { d.mem with padBanks := b :: d.mem.padBanks.filter fun x => !(x.q == b.q && x.n == b.n) } }
/-- The master number of a media core in its quarter (R341: 17 to 80). -/
def coreMaster (k : Nat) : Nat := 17 + k % 64
/-- The bank loses its owner `m`. -/
def releaseBank (d : Dev) (q n m : Nat) : Dev :=
  let b := getBank d q n
  if b.owner == some m then putBank d { b with owner := none } else d
/-- A hold that ends by fault or team reset (R124). -/
def dropHold (d : Dev) (k : Nat) : Dev :=
  let x := findCore d k
  match x.hold with
  | none => d
  | some (bank, _) =>
    let q := coreQuarter k
    let d := releaseBank (putCore d { x with hold := none }) q bank (coreMaster k)
    let d := cnt d (PAD q + 0x38) 1
    let d := setReg d (PAD q + 0x20) (wd (bank + 0x100 * coreTeam k + 0x1000 * (k % 8) + 0x80000000))
    let d := setReg d (PAD q + 0x24) x.holdAddr
    raise d { code := 0xC40, cls := 1, scope := 1, quarter := q, uclass := 1, index := coreTeam k,
              detail := [(1, q), (1, bank), (8, x.holdAddr.toNat), (1, k)] }

/-! ### Mode -/

/-- The base mode changes; EV_SYS_MODE reports a change of the mode shown (R378, R391). HALT-SAFE ends only through a reset
(R381). (DEDUCED, log entry 60.) -/
def setMode (d : Dev) (m : Mode) (cause : Nat) : Dev :=
  let old := shownMode d
  let e : Dev := { d with sys := { d.sys with
    mode := if halted d then .haltSafe else m
    drainBase := if m == .drain && d.sys.mode.service then d.sys.mode else d.sys.drainBase } }
  if shownMode e == old then e
  else raise e (evDev 0x20 0 [(1, old.code), (1, (shownMode e).code), (1, cause)])

/-- Complete MODE_SETs with ST_MODE. -/
def failModeSets (d : Dev) (ids : List Nat) : Dev := ids.foldl (fun d id => complete d id ST_MODE []) d

/-- Entry to HALT-SAFE with the causing event's code (R377, R381): MODE_SETs overtaken complete with ST_MODE. -/
def enterHalt (d : Dev) (code cause : Nat) : Dev :=
  if halted d then d
  else
    let ids := d.sys.changes.map ModeChange.cmd ++ d.sys.modeDue.map Prod.fst ++ d.sys.modeCmds
    let d := { d with sys := { d.sys with modeCmds := [], modeDue := [], changes := [] } }
    let d := setMode d .haltSafe cause
    let d := raise d (evDev 0x22 3 [(2, code)])
    failModeSets d ids

/-! ### Commands that wait on a unit -/

/-- UNIT_STOP (0x60) or UNIT_START (0x61) commands in progress on a unit. -/
def unitCmds (d : Dev) (op : Nat) (u : UnitId) : List Cmd :=
  d.hif.accepted.filter fun c => c.started && dOpcode c.desc == op && dUnit c.desc == u
def completeAll (d : Dev) (cs : List Cmd) (st : Nat) (res : List Byte) : Dev :=
  cs.foldl (fun d c => complete d c.id st res) d

/-! ### Band pools (R230) -/

/-- A compositor's band pool is booked in PAD_UNITS of its quarter and sized by CMP_BAND_POOL. -/
def bookPool (d : Dev) (q c : Nat) (cmd : Option Nat) : Dev :=
  let n := getF d (CMP q c + 4) 0 13
  let d := book d q [⟨5, n⟩]
  { d with sys := { d.sys with pools := (4 * q + c, n, cmd) :: d.sys.pools } }
/-- The pool takes its size when the compositor starts. -/
def sizePool (d : Dev) (q c : Nat) : Dev :=
  match d.sys.pools.find? fun p => p.1 == 4 * q + c with
  | none => d
  | some p => ledgMod d 8 (4 * q + c) (·.setCap p.2.1)
/-- A compositor's booking returns under R36. -/
def unbookPool (d : Dev) (q c : Nat) : Dev :=
  match d.sys.pools.find? fun p => p.1 == 4 * q + c with
  | none => d
  | some p =>
    unbook { d with sys := { d.sys with pools := d.sys.pools.filter fun x => x.1 != 4 * q + c } } [⟨5, q, p.2.1⟩]
/-- The bookings that a MODE_SET made and that no start has taken over return. -/
def unbookCmd (d : Dev) (cmd : Nat) : Dev :=
  (d.sys.pools.filter fun p => p.2.2 == some cmd).foldl (fun d p => unbookPool d (p.1 / 4) (p.1 % 4)) d

/-! ### Stopping and starting -/

/-- UNIT_START of the forwarding stage empties the retransmission store (R287). -/
def emptyStore (d : Dev) : Dev :=
  let n := d.fwd.rtx.length
  ledgGive { d with fwd := { d.fwd with rtx := [], recs := [], head := 0 } } 5 0 n

/-- A start enters the power-step queue (R77, R372); in a mode change, the DMA channels of a quarter share the audio mixing
unit's step and the Bridle is one step. -/
def startUnit (d : Dev) (u : UnitId) (shared : Bool) : Dev :=
  let d := setUState d u 1
  let d := if u.cls = 3 then sizePool d u.quarter u.index else if u.cls = 11 then portStarting d u.index
    else if u.cls = 9 then emptyStore d else d
  if shared && (u.cls = 6 || (u.cls = 10 && u.index != 0)) then d
  else { d with sys := { d.sys with steps := d.sys.steps ++ [⟨u, 1⟩] } }

/-- Leaving STANDBY waits for the drift tracking of every channel (R335). (DEDUCED, log entry 52.) -/
def driftDone (d : Dev) : Bool := d.sys.mode != .standby || d.mem.driftOwed.isEmpty

/-- A mode change goes on (R374): once its units have stopped, its starts begin; once they run, the mode changes and the
command completes. STANDBY puts the stacks in self-refresh (R376). -/
def progressChange (d : Dev) (c : ModeChange) : Dev :=
  if !c.stops.isEmpty then d
  else if !c.begun then
    let d := { d with sys := { d.sys with changes := d.sys.changes.map fun x => if x.cmd == c.cmd then { x with begun := true } else x } }
    c.starts.foldl (fun d u => if uState d u == 0 then startUnit d u true else d) d
  else if !c.starts.isEmpty || !driftDone d then d
  else
    let d := { d with sys := { d.sys with changes := d.sys.changes.filter fun x => x.cmd != c.cmd }
                      mem := { d.mem with selfRefresh := c.target == .standby } }
    complete (setMode d c.target 0) c.cmd ST_OK (leBytes c.stride 4)
/-- Every change in progress, twice: a change with nothing to stop or start begins and ends at once. -/
def progressChanges (d : Dev) : Dev :=
  let d := d.sys.changes.foldl progressChange d
  d.sys.changes.foldl progressChange d

/-- Mode changes no longer wait for the unit to stop (`stop`) or to run (`start`). -/
def unawait (d : Dev) (u : UnitId) (stop start : Bool) : Dev :=
  progressChanges { d with sys := { d.sys with changes := d.sys.changes.map fun c =>
    { c with stops := if stop then c.stops.filter (· != u) else c.stops,
             starts := if start then c.starts.filter (· != u) else c.starts } } }
/-- A mode change waits for the unit to stop. -/
def stopAwaited (d : Dev) (u : UnitId) : Bool := d.sys.changes.any fun c => c.stops.contains u

/-- Cards that a stopped unit still holds wait again for a unit (R76, R352). (DEDUCED, log entry 50.) -/
def returnQueue (d : Dev) (u : UnitId) : Dev :=
  (queueOf d u).foldl (fun d s => match findCard d s with
    | some c => putCard d { c with state := .ready, at_ := none }
    | none => d) (setQueue d u [])

/-- STOPPED is reached: UNIT_STOPs complete, a compositor's pool returns, mode changes go on (R76, R230). (DEDUCED, log entry 50.) -/
def reachStopped (d : Dev) (u : UnitId) : Dev :=
  let cs := unitCmds d 0x60 u
  let d := returnQueue (setUState d u 0) u
  let d := if u.cls = 3 then unbookPool d u.quarter u.index else if u.cls = 11 then portStopped d u.index
    else if u.cls = 12 then laneStopped d u.index else d
  unawait (completeAll d cs ST_OK []) u true true

/-- Firmware loads the library region and the handler's offset for the team's special-operation set (R116, R132). -/
def loadLibrary (d : Dev) (q t : Nat) : Dev :=
  let set := getB d (TEAM q t + 4) 0
  let d := { d with mem := { d.mem with library := (8 * q + t, set) :: d.mem.library.filter fun e => e.1 != 8 * q + t } }
  setReg d (TEAM q t + 8) (Config.preemptVec set)

/-- RUNNING is reached: UNIT_STARTs complete; a UNIT_STOP that waited through STARTING acts now (R76, R77). -/
def reachRunning (d : Dev) (u : UnitId) : Dev :=
  let d := setUState d u 2
  let d := if u.cls = 1 then loadLibrary d u.quarter u.index else if u.cls = 11 then portRunning d u.index
    else if u.cls = 12 then laneRunning d u.index else d
  let d := { d with sys := { d.sys with pools := d.sys.pools.map fun p =>
    if u.cls = 3 && p.1 = 4 * u.quarter + u.index then (p.1, p.2.1, none) else p } }
  let d := completeAll d (unitCmds d 0x61 u) ST_OK []
  let d := unawait d u false true
  if (unitCmds d 0x60 u).isEmpty && !stopAwaited d u then d else setUState d u 3

/-- Cards queued in a unit retire as dropped, with pred_short to their successors (R364); the queue numbered with class 5 is
that of the quarter's groom cores. -/
def dropQueue (d : Dev) (u : UnitId) : Dev := if u.cls = 5 then d else (queueOf d u).foldl dropCard d

/-- A unit in FAULT: its queue dropped, commands and mode changes no longer wait for it (R364). (DEDUCED, log entry 48; DEDUCED, log entry 59.) -/
def enterFault (d : Dev) (u : UnitId) : Dev :=
  let d := setUState d u 4
  let d := if u.cls = 11 then portStopped d u.index else if u.cls = 12 then laneStopped d u.index else d
  let d := dropQueue d u
  let d := { d with sys := { d.sys with steps := d.sys.steps.filter fun s => s.unit != u || s.kind == 0 } }
  let d := completeAll d (unitCmds d 0x60 u) ST_MODE []
  let d := completeAll d (unitCmds d 0x61 u) ST_MODE []
  unawait d u true true

/-- A unit enters FAULT with EV_SYS_UNIT_FAULT (R364). -/
def faultUnit (d : Dev) (u : UnitId) : Dev :=
  enterFault (raise d (evUnit u 1 2 [(1, uState d u)])) u

/-! ### Fences (R379) -/

/-- The DECODE_PIX capacity while quarters are fenced (R222). -/
def decodeCap (d : Dev) : Nat :=
  let n := d.variant.quarters
  d.variant.budgetCap 1 * ((List.range n).filter (quarterUp d)).length / n
/-- The capacity follows the fences. -/
def setDecodeCap (d : Dev) : Dev :=
  let c := decodeCap d
  setReg (ledgMod d 17 0 (·.setCap c)) (LDG + 0x404) (wd c)

/-- Cards that a fence of quarter `q` retires: in service on its units, or queued naming it. (DEDUCED, log entry 56.) -/
def fenceCards (d : Dev) (q : Nat) : List Nat :=
  (d.dlr.cards.filter fun c =>
    (c.state == .inService && ((match c.core with | some k => coreQuarter k == q | none => false) ||
      (match c.at_ with | some u => u.quarter == q | none => false))) ||
    (c.state == .ready && c.quarter == q && c.exec != 5)).map Card.slot

/-- A fence of quarter `q`, by cause (0 command, 1 ledger break, 2 quarter fatal) with the causing event's code: it never
leaves every present quarter fenced. (DEDUCED, log entry 48; DEDUCED, log entry 55; DEDUCED, log entry 56.) -/
def fenceQuarter (d : Dev) (q cause code : Nat) : Dev :=
  if fenced d q || halted d then d
  else if (candidates d).all (· == q) then enterHalt d code 1
  else
    let old := shownMode d
    let d := (List.range 64).foldl (fun d i => dropHold d (64 * q + i)) d
    let d := (fenceCards d q).foldl dropCard d
    let d := { d with dlr := { d.dlr with cards := d.dlr.cards.map fun (c : Card) =>
      if c.exec = 5 && c.quarter = q && (c.state == CState.ready || c.state == CState.waiting) then { c with quarter := 0xFF } else c } }
    let us := quarterUnits d.variant q
    let d := { d with sys := { d.sys with steps := d.sys.steps.filter fun s => s.unit.quarter != q } }
    let d := us.foldl (fun d u =>
      let d := setUState d u 0
      let d := completeAll d (unitCmds d 0x60 u) ST_OK []
      let d := completeAll d (unitCmds d 0x61 u) ST_MODE []
      unawait d u true true) d
    let d := { d with mem := { d.mem with padBanks := d.mem.padBanks.filter fun b => b.q != q } }
    let d := { d with sys := { d.sys with fenced := d.sys.fenced.set q true } }
    let d := setDecodeCap d
    let d := raise d { code := 0x21, cls := 2, scope := 1, quarter := q, detail := [(1, q), (1, cause), (1, 1)] }
    if shownMode d == old then d
    else raise d (evDev 0x20 0 [(1, old.code), (1, (shownMode d).code), (1, 1)])

end Sys2Proof.Machine
end

