-- ==== Sys2Proof/Machine/CoreOps.lean ====
section
/-! DEFINITION. The media core (R106 to R134): register names, lanes, the address map, the write buffer, the bundle with its
delayed results, faults, and the Dealer interface. -/
namespace Sys2Proof.Machine

/-! ### Lanes (R106) -/

/-- Lane `i` of width `w` as a signed number. -/
def lane {n : Nat} (w i : Nat) (v : BitVec n) : Int := (BitVec.ofNat w (v.toNat / 2 ^ (w * i))).toInt
/-- The lanes of a register. -/
def lanes {n : Nat} (w k : Nat) (v : BitVec n) : List Int := (List.range k).map fun i => lane w i v
/-- Lanes packed, each wrapped to `w` bits. -/
def packLanes (w : Nat) : List Int → Nat
  | [] => 0
  | v :: vs => (BitVec.ofInt w v).toNat + 2 ^ w * packLanes w vs
/-- Data-lane width, lanes and accumulator-lane width of the .w and .h forms. -/
def dw (half : Bool) : Nat := if half then 16 else 32
def dn (half : Bool) : Nat := if half then 16 else 8
def xw (half : Bool) : Nat := if half then 40 else 80

/-- The physical number of a d register: d16 to d31 rotate with rrb (R107, R120). -/
def physD (x : Core) (n : Nat) : Nat := if n < 16 then n else 16 + (n - 16 + x.rrb) % 16
def rdD (x : Core) (n : Fin 32) : BitVec 256 := nth x.d (physD x n.val) 0
def rdX (x : Core) (n : Fin 8) : BitVec 640 := nth x.x n.val 0
def rdS (x : Core) : ScSrc → Word
  | .reg s => nth x.s s.val 0
  | .imm v => v
def rdP (x : Core) (n : Fin 8) : Bool := x.p.toNat.testBit n.val

/-- A result that appears `left` bundle ends later. (DEDUCED, log entry 76.) -/
def res (left : Nat) (dst : CReg) (v : Nat) : CPend := { left := left, dst := dst, val := BitVec.ofNat 640 v }
def resD (x : Core) (left : Nat) (n : Fin 32) (w : Nat) (ls : List Int) : CPend := res left (.d (physD x n.val)) (packLanes w ls)
def resS (n : Fin 16) (v : Word) : CPend := res 0 (.s n.val) v.toNat
def resP (n : Fin 8) (b : Bool) : CPend := res 0 (.p n.val) b.toNat

/-- Landing of a result in its register; an accumulating result adds, lane by lane (R107, R114). -/
def land (x : Core) (r : CPend) : Core :=
  let v := r.val.toNat
  match r.dst with
  | .d i => { x with d := x.d.set i (BitVec.ofNat 256 v) }
  | .x i =>
    if r.acc then
      (let k := 640 / r.lane
       let old := nth x.x i 0
       { x with x := x.x.set i (BitVec.ofNat 640
          (packLanes r.lane ((List.range k).map fun j => lane r.lane j old + lane r.lane j r.val))) })
    else { x with x := x.x.set i r.val }
  | .a i => { x with a := x.a.set i (wd v) }
  | .m i => { x with m := x.m.set i (wd v) }
  | .b i => { x with b := x.b.set i (wd v) }
  | .l i => { x with l := x.l.set i (wd v) }
  | .s i => { x with s := x.s.set i (wd v) }
  | .p i => { x with p := BitVec.ofNat 8 (x.p.toNat - (x.p.toNat / 2 ^ i % 2) * 2 ^ i + (v % 2) * 2 ^ i) }

/-! ### Address map (R109) -/

/-- Where an access of `n` bytes goes: core-local memory, or an offset into the quarter's Paddock (R337). -/
inductive Place where
  | loc (off : Nat)
  | pad (off : Nat)
  deriving DecidableEq, Repr

def bankSize : Nat := 0xC0000
def place (k a n : Nat) : Option Place :=
  if a + n ≤ 0x20000 then some (.loc a)
  else if 0x100000 ≤ a && a + n ≤ 0x1C0000 then some (.pad ((24 + coreTeam k) * bankSize + (a - 0x100000)))
  else if 0x1000000 ≤ a && a + n ≤ 0x1000000 + 24 * bankSize then some (.pad (a - 0x1000000))
  else none
/-- Core-local memory of core `k`. -/
def localMem (d : Dev) (k : Nat) : Sparse 8 :=
  match d.mem.local_.find? fun e => e.1 == k with
  | some e => e.2
  | none => []
def setLocal (d : Dev) (k : Nat) (m : Sparse 8) : Dev :=
  { d with mem :=
    { d.mem with local_ := (d.mem.local_.filter fun e => decide (e.1 < k)) ++ (if m.isEmpty then [] else [(k, m)]) ++
        d.mem.local_.filter fun e => decide (k < e.1) } }
/-- The Paddock of quarter `q`. -/
def padMem (d : Dev) (q : Nat) : Sparse 8 := nth d.mem.pad q []
def setPad (d : Dev) (q : Nat) (m : Sparse 8) : Dev := { d with mem := { d.mem with pad := d.mem.pad.set q m } }
def padWrite (d : Dev) (q off : Nat) (bs : List Byte) : Dev := setPad d q (spWrite (padMem d q) off bs)

/-- Byte `o` of a quarter's Paddock, held as `m`: the library region of a loaded team reads as firmware loaded it (R132). -/
def padByte (d : Dev) (q : Nat) (m : Sparse 8) (o : Nat) : Byte :=
  if o < 24 * bankSize || 0x40000 ≤ o % bankSize then spGet m o
  else match d.mem.library.find? fun e => e.1 == 8 * q + (o / bankSize - 24) with
    | some e => Config.libraryByte e.2 (o % bankSize)
    | none => spGet m o
/-- `n` bytes of it. -/
def padBytes (d : Dev) (q : Nat) (m : Sparse 8) (o n : Nat) : List Byte := (List.range n).map fun i => padByte d q m (o + i)
def padRead (d : Dev) (q o n : Nat) : List Byte := padBytes d q (padMem d q) o n

/-- Bytes that a core's load reads: buffered stores cover Paddock memory (R121). -/
def coreRead (d : Dev) (x : Core) (p : Place) (n : Nat) : List Byte :=
  match p with
  | .loc off => spRead (localMem d x.id) off n
  | .pad off =>
    padBytes d (coreQuarter x.id) (x.wbuf.foldl (fun m e => spWrite m e.1 e.2) (padMem d (coreQuarter x.id))) off n
/-- All of a core's buffered stores drain, in order. (DEDUCED, log entry 81.) -/
def drainAll (d : Dev) (k : Nat) : Dev :=
  let x := findCore d k
  let d := x.wbuf.foldl (fun d e => padWrite d (coreQuarter k) e.1 e.2) d
  putCore d { x with wbuf := [] }
/-- The oldest buffered store drains. -/
def drainOne (d : Dev) (k : Nat) : Dev :=
  let x := findCore d k
  match x.wbuf with
  | [] => d
  | e :: es => putCore (padWrite d (coreQuarter k) e.1 e.2) { x with wbuf := es }

/-- TEAM_CFG of the core's team. -/
def teamCfg (d : Dev) (k : Nat) : Word := reg d (TEAM (coreQuarter k) (coreTeam k) + 4)
/-- End of the code region in team memory. -/
def codeEnd (d : Dev) (k : Nat) : Nat := fld (teamCfg d k) 16 6 * 0x4000
/-- Class of the card on the core. -/
def coreClass (d : Dev) (x : Core) : Nat :=
  match x.card with
  | some s => (match findCard d s with | some c => c.cls | none => 0)
  | none => 0
/-- A store the rules forbid: to the code region, or into the background region by a card of another class (R130). -/
def badStore (d : Dev) (x : Core) (a : Nat) (p : Place) : Bool :=
  match p with
  | .loc off => decide (fld (teamCfg d x.id) 8 5 * 0x1000 ≤ off) && coreClass d x != 2
  | .pad _ => decide (0x100000 ≤ a) && decide (a < 0x100000 + codeEnd d x.id) && decide (a < 0x1C0000)

/-! ### Addressing (R112, R113) -/

/-- The circular wrap: the new address and whether the CIRC condition sets. -/
def wrapCirc (v b l : Word) : Word × Bool :=
  let e := b + l
  let v := if e ≤ v then v - l else if v < b then v + l else v
  if v < b || e ≤ v then (b, true) else (v, false)
/-- adj of address register `n`. -/
def adj (x : Core) (n : Nat) (v : Word) : Word × Bool :=
  if n < 4 || nth x.l n 0 = 0 then (v, false) else wrapCirc v (nth x.b n 0) (nth x.l n 0)
/-- Effective address, and the effects on the address register. -/
def effAddr (x : Core) (slot : Nat) (e : Ea) : Word × List CEff :=
  let upd (n : Nat) (v : Word) : List CEff :=
    let r := adj x n v
    .write slot (res 0 (.a n) r.1.toNat) :: if r.2 then [.circ n] else []
  match e with
  | .ind a => (nth x.a a.val 0, [])
  | .off a imm => ((adj x a.val (nth x.a a.val 0 + imm.signExtend 32)).1,
      if (adj x a.val (nth x.a a.val 0 + imm.signExtend 32)).2 then [.circ a.val] else [])
  | .postM a => (nth x.a a.val 0, upd a.val (nth x.a a.val 0 + nth x.m a.val 0))
  | .postI a imm => (nth x.a a.val 0, upd a.val (nth x.a a.val 0 + imm.signExtend 32))

/-! ### Faults (R131) -/

def F_ILLEGAL : Nat := 1
def F_ADDR : Nat := 2
def F_MISALIGN : Nat := 3
def F_LOCK_LEN : Nat := 4
def F_LOCK_TWICE : Nat := 5
def F_LOCK_RULE : Nat := 6
def F_PAD_ERR : Nat := 7

/-- An event of a core: its team is the unit. -/
def evCore (k code cls : Nat) (detail : List (Nat × Nat)) : Ev := evUnit (coreUnit k) code cls detail

/-- The bank that a lock of the open bundle has been granted. -/
def grantedIn : List CEff → Option Nat
  | [] => none
  | .lock b :: _ => some b
  | _ :: es => grantedIn es
/-- The bank that the core holds in its open bundle: a locked sequence begins with its lock bundle (R123). -/
def heldBank (x : Core) : Option Nat := (x.hold.map Prod.fst).orElse fun _ => grantedIn x.buf
/-- Inside a locked sequence, an access to another bank (R123). -/
def badBank (x : Core) (p : Place) : Bool :=
  match heldBank x, p with
  | some b, .pad off => off / bankSize != b
  | _, _ => false

/-- Every result in flight lands, in the order of its bundle ends (R131). -/
def landRest (x : Core) : Core :=
  ((List.range 3).flatMap fun n => x.pend.filter fun r => r.left == n).foldl land { x with pend := [] }
/-- A fault: the open bundle has no effect, earlier bundles complete, the write buffer drains, a hold drops, the fault is recorded,
and the card retires as cancelled or the core halts with it. -/
def coreFault (d : Dev) (k code : Nat) (addr : Word) : Dev :=
  let x := findCore d k
  let d := match grantedIn x.buf with
    | some b => releaseBank d (coreQuarter k) b (coreMaster k)
    | none => d
  let d := dropHold (drainAll (putCore d { landRest x with buf := [], flt := none, issuing := false }) k) k
  let d := setReg (setReg d (MDCi k + 0x10) x.pc) (MDCi k + 0x14) addr
  let d := setF d (MDCi k + 4) 8 8 code
  let d := putB d (TEAM (coreQuarter k) (coreTeam k) + 0xC) (k % 8) true
  let h := match x.card with | some s => cardHandle s | none => 0
  let d := raise d (evCore k 0x300 2 [(1, k), (1, code), (4, x.pc.toNat), (4, h)])
  if getB d (MDCi k) 2 then
    putCore d { findCore d k with halted := true, faultHalt := true, stepReq := false }
  else match x.card with
    | some s => cancelCard d s
    | none => d

/-! ### The Dealer interface -/

/-- The fields of a spawn block (table Spawn block) and whether they are in range. -/
structure SpawnBlock where
  cls : Nat
  notify : Bool
  nbEn : Bool
  exec : Nat
  quarter : Nat
  team : Nat
  deadline : Word
  notBefore : Word
  counter : Nat
  nsucc : Nat
  entry : Word
  arg : Word
  succ : List Nat
  ok : Bool
  deriving DecidableEq, Repr

/-- A quarter field that names a present unfenced quarter or any. -/
def quarterField (d : Dev) (q : Nat) : Bool := q == 0xFF || quarterUp d q
/-- A team field that agrees with its quarter field. -/
def teamField (d : Dev) (q t : Nat) : Bool := t == 0xFF || (q != 0xFF && decide (t < d.variant.teams))

/-- The fields of a spawn block; a nonzero successor beyond nsucc is out of range. (DESIGN CHOICE, log entry 195.) -/
def spawnBlock (d : Dev) (bs : List Byte) : SpawnBlock :=
  let b (i : Nat) : Nat := (nth bs i 0).toNat
  let w (i : Nat) : Word := wd (leNat (slice bs i 4))
  let ns := b 13 % 4
  let succ := (List.range (min ns 2)).map fun i => (w (24 + 4 * i)).toNat
  { cls := b 0 % 4, notify := (b 0).testBit 2, nbEn := (b 0).testBit 3, exec := b 1, quarter := b 2, team := b 3,
    deadline := w 4, notBefore := w 8, counter := b 12, nsucc := ns, entry := w 16, arg := w 20, succ := succ,
    ok := decide (b 0 % 4 ≠ 3) && decide (b 0 < 16) && decide (b 1 ≤ 1) && quarterField d (b 2) && teamField d (b 2) (b 3) &&
      !((b 0).testBit 3 && decide (0 < sdiff (w 8) (w 4))) && decide (ns ≤ 2) && decide (b 13 < 4) && b 14 == 0 && b 15 == 0 &&
      (List.range 2).all fun i => decide (i < ns) || w (24 + 4 * i) == 0 }

/-- A successor list names WAITING cards of the function and passes the registration rule, entry by entry (R82, R84). -/
def succOk (d : Dev) (fn : Nat) : List Nat → List Nat → Bool
  | _, [] => true
  | seen, h :: hs =>
    (match findCard d (hIndex h) with
     | some c => hKind h == 10 && c.fn == fn && c.state == .waiting &&
         decide (c.pendingReg + seen.count (hIndex h) + 1 ≤ c.counter)
     | none => false) && succOk d fn (hIndex h :: seen) hs

/-- spawn (R126): the new handle, or the failure code, of several causes 4, then 2, 3 and 1. (DESIGN CHOICE, log entry 193.) -/
def spawnCard (d : Dev) (k : Nat) (parent : Card) (bs : List Byte) : Dev × Bool × Word :=
  let b := spawnBlock d bs
  let closing := match findFlow d parent.flow with | some f => f.closing | none => false
  let src := Source.spawn parent.fn (coreQuarter k) (coreTeam k)
  if closing then (d, false, 4)
  else if !b.ok then (d, false, 2)
  else if !succOk d parent.fn [] b.succ then (d, false, 3)
  else if !hasCredit d src parent.flow then (d, false, 1)
  else match freeSlot d with
    | none => (d, false, 1)
    | some slot =>
      (storeCard d
        { slot := slot, seq := 0, cls := b.cls, notify := b.notify, nbEn := b.nbEn, notBefore := b.notBefore,
          exec := b.exec, quarter := b.quarter, team := b.team, deadline := b.deadline, counter := b.counter,
          succ := b.succ.map hIndex, flow := parent.flow, fn := parent.fn, source := src, owner := parent.flow % 2 ^ 32,
          work := if b.exec = 0 then .relay else .kernel b.entry b.arg },
       true, wd (cardHandle slot))

/-! ### Bundles -/

/-- Whether a core issues: its team runs, or finishes work in hand while it stops, a card is on the core, and it is not
halted but for a step. -/
def coreRuns (d : Dev) (x : Core) : Bool :=
  (teamState d x.id == 2 || teamState d x.id == 3) && !halted d && x.card.isSome && !x.faultHalt && (!x.halted || x.stepReq)
/-- A fetch outside the code region or not 32-byte aligned (R125). -/
def badFetch (d : Dev) (x : Core) : Bool := x.pc.toNat % 32 != 0 || decide (codeEnd d x.id < x.pc.toNat + 32)

/-- Stores of a bundle: local at once, the held bank directly, other Paddock through the write buffer, whose oldest entry
drains where it is full (R108, R110, R121, R123); what the buffer held of the bank before the lock drains later. (DEDUCED, log entry 81;
DESIGN CHOICE, log entry 192.) -/
def doStore (d : Dev) (k a : Nat) (bs : List Byte) : Dev :=
  match place k a bs.length with
  | none => d
  | some (.loc off) => setLocal d k (spWrite (localMem d k) off bs)
  | some (.pad off) =>
    let x := findCore d k
    if x.hold.any fun h => off / bankSize == h.1 then padWrite d (coreQuarter k) off bs
    else
      let d := if 8 ≤ x.wbuf.length then drainOne d k else d
      let x := findCore d k
      putCore d { x with wbuf := x.wbuf ++ [(off, bs)] }

/-- End of a bundle inside the loops: the next bundle address and the loops left (R119, R120). `p` and `rrb` rotate at
the end of each pass of an RLOOP. -/
def endLoops : List CLoop → Core → Core
  | [], x => { x with pc := x.pc + 32, loops := [] }
  | lp :: rest, x =>
    if x.pc != lp.endPc then { x with pc := x.pc + 32, loops := lp :: rest }
    else if lp.rot then
      (let passes := lp.passes + 1
       let p := x.p.toNat
       let p4 := if passes < lp.left then 1 else 0
       let x := { x with rrb := (x.rrb + 15) % 16,
                         p := BitVec.ofNat 8 (p % 16 + 16 * p4 + 32 * (p / 16 % 2) + 64 * (p / 32 % 2) + 128 * (p / 64 % 2)) }
       if passes < lp.left + lp.stages - 1 then { x with pc := lp.start, loops := { lp with passes := passes } :: rest }
       else endLoops rest x)
    else
      (let lvl := (rest.filter fun l => !l.rot).length
       let x := { x with lc := x.lc.set lvl (BitVec.ofNat 16 (lp.left - 1)) }
       if 1 < lp.left then { x with pc := lp.start, loops := { lp with left := lp.left - 1 } :: rest }
       else endLoops rest x)

/-- A taken branch ends the loops whose body it leaves (R119). -/
def leaveLoops (t : Word) : List CLoop → List CLoop
  | [] => []
  | lp :: rest => if t < lp.start || lp.endPc < t then leaveLoops t rest else lp :: rest

/-- The program flow at a bundle's end. -/
def nextPc (x : Core) : List CEff → Core
  | [] => endLoops x.loops x
  | .branch t :: _ => { x with pc := t, loops := leaveLoops t x.loops }
  | .loop count e :: _ =>
    if count = 0 then endLoops x.loops { x with pc := e }
    else
      { x with pc := x.pc + 32, loops := { start := x.pc + 32, endPc := e, left := count } :: x.loops,
               lc := x.lc.set (x.loops.filter fun l => !l.rot).length (BitVec.ofNat 16 count) }
  | .rloop count stages e :: _ =>
    { x with pc := x.pc + 32, rrb := 0, p := BitVec.ofNat 8 (x.p.toNat % 16 + 16),
             loops := { start := x.pc + 32, endPc := e, left := count, rot := true, stages := stages } :: x.loops }
  | _ :: es => nextPc x es

/-- Age the pending results and land those whose bundle has come, older first, then by slot (R107). (DEDUCED, log entry 76.) -/
def landAll (x : Core) : Core :=
  let new := (List.range 5).flatMap fun s => x.buf.filterMap fun e => match e with
    | .write t p => if t = s then some p else none
    | _ => none
  let all := x.pend ++ new
  let x := { x with pend := (all.filter fun r => r.left != 0).map fun r => { r with left := r.left - 1 } }
  (all.filter fun r => r.left == 0).foldl land x

/-- Sticky flags of a core: sat, and circ with its event (R112, R115). (DEDUCED, log entry 85.) -/
def setSat (d : Dev) (k : Nat) : Dev := putB (putCore d { findCore d k with sat := true }) (MDCi k + 0xC) 0 true
/-- (DEDUCED, log entry 85.) -/
def setCirc (d : Dev) (k n : Nat) (pc : Word) : Dev :=
  let was := getB d (MDCi k + 0xC) 1
  let d := putB (putCore d { findCore d k with circ := true }) (MDCi k + 0xC) 1 true
  if was then d else raise d (evCore k 0x301 0 [(1, k), (1, n), (4, pc.toNat)])

/-- The architectural state that savectx saves (R129). (DEDUCED, log entry 33; DEDUCED, log entry 79.) -/
def ctxOf (x : Core) : CoreCtx :=
  { d := x.d, x := x.x, a := x.a, m := x.m, b := x.b, l := x.l, s := x.s, lc := x.lc, loops := x.loops, rrb := x.rrb,
    epc := x.epc, epcP := x.epcP, sat := x.sat, circ := x.circ }

/-- A lock, which begins its sequence with its own bundle (R123). -/
def CEff.isLock : CEff → Bool
  | .lock _ => true
  | _ => false

/-- Effects beyond registers, stores and flow, at the end of a bundle at `pc`; an unlock with no hold in place does nothing. (DEDUCED,
log entry 79; DESIGN CHOICE, log entry 191.) -/
def applyEff (k : Nat) (pc : Word) (d : Dev) (e : CEff) : Dev :=
  let x := findCore d k
  match e with
  | .sat => setSat d k
  | .circ n => setCirc d k n pc
  | .lock b => putCore d { x with hold := some (b, 1) }
  | .unlock =>
    (match x.hold with
     | some (b, n) =>
       let d := maxReg d (PAD (coreQuarter k) + 0x100 + 4 * b) (min n 0xFFFF)
       releaseBank (putCore d { x with hold := none }) (coreQuarter k) b (coreMaster k)
     | none => d)
  | .spawn s p block =>
    (match x.card.bind (findCard d) with
     | none => d
     | some c =>
       let r := spawnCard d k c block
       let x := findCore r.1 k
       putCore r.1 (land (land x (res 0 (.s s) r.2.2.toNat)) (res 0 (.p p) r.2.1.toNat)))
  | .signal h =>
    (match x.card.bind (findCard d) with
     | none => d
     | some c => signalCard d c.fn h.toNat k)
  | .fence => drainAll d k
  | .done cycles =>
    let d := drainAll d k
    let d := cnt d (TEAM (coreQuarter k) (coreTeam k) + 0x40 + 4 * (k % 8)) cycles
    (match x.card with
     | none => d
     | some s => completeCard d s)
  | .savectx =>
    let r := drawFree d 16384
    putCore (setLocal r.2 k (spWrite (localMem r.2 k) 0x1F800 (leBytes r.1.toNat 2048))) { x with ctx := some (ctxOf x) }
  | .yield =>
    let d := drainAll d k
    (match x.card.bind (findCard d) with
     | none => d
     | some c =>
       let d := putCard d { c with preempted := true, core := some k }
       let d := { d with dlr := { d.dlr with preempts := d.dlr.preempts.filter fun p => p.core != k } }
       putCore d { id := k, ctx := x.ctx, halted := x.halted, haltReq := x.haltReq })
  | .write _ _ | .store _ _ _ | .access _ | .branch _ | .loop _ _ | .rloop _ _ _ => d

/-- A breakpoint at the core's next bundle halts it, or inside a locked sequence asks for the halt that waits for unlock (R123, R134). -/
def breakCheck (d : Dev) (k : Nat) : Dev :=
  let x := findCore d k
  let c := reg d (MDCi k)
  if x.card.isNone || x.halted then d
  else match (List.range 4).find? fun n => bit c (8 + n) && reg d (MDCi k + 0x20 + 4 * n) == x.pc with
    | none => d
    | some n => raise (putCore d (if x.hold.isSome then { x with haltReq := true } else { x with halted := true })) (evCore k 0x302 0 [(1, k), (1, n), (4, x.pc.toNat)])

/-- The halt that was asked for takes effect at a bundle boundary outside a locked sequence. -/
def haltCheck (d : Dev) (k : Nat) : Dev :=
  let x := findCore d k
  if x.issuing || x.hold.isSome then d
  else putCore d { x with halted := x.halted || x.haltReq, haltReq := false, stepReq := false }

/-- The bundle ends: a fault discards it; else results land, stores and effects take place, and the flow goes on. (DEDUCED, log entry 80.) -/
def closeBundle (d : Dev) (k : Nat) : Dev :=
  let x := findCore d k
  let tooLong := match x.hold with | some (_, n) => decide (16 ≤ n) | none => false
  match x.flt with
  | some (code, addr) => coreFault d k code addr
  | none =>
    if tooLong then coreFault d k F_LOCK_LEN 0
    else
      let pc := x.pc
      let effs := x.buf
      let y := nextPc { landAll x with buf := [], issuing := false, hold := x.hold.map fun h => (h.1, h.2 + 1) } effs
      let d := putCore d y
      let d := (effs.filter CEff.isLock).foldl (applyEff k pc) d
      let stores := (List.range 2).flatMap fun s => effs.filterMap fun e => match e with
        | .store t a bs => if t = s then some (a, bs) else none
        | _ => none
      let d := stores.foldl (fun d e => doStore d k e.1 e.2) d
      let d := (effs.filter fun e => !e.isLock).foldl (applyEff k pc) d
      breakCheck (haltCheck d k) k

/-- What an instruction does at issue: it stalls, it faults, or it adds effects to its bundle. -/
inductive IRes where
  | stall
  | fault (code : Nat) (addr : Word)
  | ok (d : Dev) (es : List CEff)

/-- The bundle has issued done: what follows in it does not execute (R128). -/
def CEff.isDone : CEff → Bool
  | .done _ => true
  | _ => false
/-- Issue of an instruction of a core's open bundle. (DESIGN CHOICE, log entry 2; DEDUCED, log entry 80.) -/
def issue (d : Dev) (i : Issue) (act : Dev → Core → IRes) : Dev :=
  let k := i.core.val
  let x := findCore d k
  if !coreRuns d x then d
  else if !x.issuing && badFetch d x then coreFault d k F_ADDR x.pc
  else
    let close (d : Dev) : Dev := if i.last then closeBundle d k else d
    let runs := match i.guard with
      | none => true
      | some (p, v) => rdP x p == v
    if !runs || x.buf.any CEff.isDone then close (putCore d { x with issuing := true })
    else match act d x with
      | .stall => d
      | .fault c a => close (putCore d { x with issuing := true, flt := x.flt.orElse fun _ => some (c, a) })
      | .ok d es => (let x := findCore d k
                     close (putCore d { x with issuing := true, buf := x.buf ++ es }))

/-- Slot of a load or store. -/
def lsSlot (i : Issue) : Nat := if i.ls1 then 1 else 0
/-- An instruction that a locked sequence forbids (R123). -/
def notInLock (x : Core) (r : IRes) : IRes := if x.hold.isSome || (grantedIn x.buf).isSome then .fault F_LOCK_RULE 0 else r

/-- The Paddock bank that an access touches, noted for a lock of the same bundle (R123). -/
def touches (p : Place) : List CEff := match p with | .loc _ => [] | .pad off => [.access (off / bankSize)]
/-- Checks of an access at its effective address: alignment, mapping, locked bank. -/
def accessCheck (x : Core) (a : Word) (n : Nat) : Except (Nat × Word) Place :=
  if a.toNat % n ≠ 0 then .error (F_MISALIGN, a)
  else match place x.id a.toNat n with
    | none => .error (F_ADDR, a)
    | some p => if badBank x p then .error (F_LOCK_RULE, a) else .ok p

/-! ### Paddock errors (R338) -/

/-- An uncorrectable Paddock read at offset `o` of quarter `q`'s Paddock. -/
def padUe (d : Dev) (q o : Nat) : Dev :=
  raiseOnce (cnt d (PAD q + 0x34) 1)
    { code := 0xC42, cls := 2, scope := 1, quarter := q, detail := [(1, q), (1, o / bankSize), (8, 0x1000000 + o)], key := o / bankSize + 1 }

/-- A load of `n` bytes: with `ue` a Paddock read is uncorrectable (R338). `f` makes the result of the bytes; of a Paddock load, for
which the core stalls, it lands as that of a local one. (DESIGN CHOICE, log entry 190.) -/
def loadInstr (i : Issue) (e : Ea) (n : Nat) (ue : Bool) (f : Core → Nat → CPend) (d : Dev) (x : Core) : IRes :=
  let r := effAddr x (lsSlot i) e
  match accessCheck x r.1 n with
  | .error (c, a) => .fault c a
  | .ok p =>
    match p, ue with
    | .pad off, true =>
      let d := padUe d (coreQuarter x.id) off
      .ok (putCore d { findCore d x.id with flt := x.flt.orElse fun _ => some (F_PAD_ERR, r.1) }) []
    | _, _ => .ok d (.write (lsSlot i) (f x (leNat (coreRead d x p n))) :: touches p ++ r.2)

/-- A store of bytes at its effective address. -/
def storeInstr (i : Issue) (e : Ea) (bs : List Byte) (d : Dev) (x : Core) : IRes :=
  let r := effAddr x (lsSlot i) e
  match accessCheck x r.1 bs.length with
  | .error (c, a) => .fault c a
  | .ok p => if badStore d x r.1.toNat p then .fault F_ADDR r.1 else .ok d (.store (lsSlot i) r.1.toNat bs :: touches p ++ r.2)

/-- The team is configured for set B (1) or set A (0) (R116). -/
def opset (d : Dev) (k : Nat) : Nat := fld (teamCfg d k) 0 1

end Sys2Proof.Machine
end

