-- ==== Sys2Proof/Machine/DealerCmd.lean ====
section
/-! DEFINITION. The Dealer's commands (R82 to R103). -/
namespace Sys2Proof.Machine

/-- The host flow that function `fn` names, or ST_BAD_HANDLE; with `opened`, one whose session takes cards (R38). -/
def flowOf (d : Dev) (fn h : Nat) (opened : Bool) : Except Fail Flow :=
  match findFlow d h with
  | some f => if f.host && f.fn == fn && !(opened && f.closing) then .ok f else .error badHandle
  | none => .error badHandle

/-- FLOW_CREATE (R89). -/
def flowCreateAct (d : Dev) (c : Cmd) : Except Fail Act := do
  let x := c.desc
  let s ← openSession d c.fn (dHandle x)
  let limit := dNum x 12 4
  checkFields x ([(8, dBits x 8 1 7 == 0)] ++ zeros x 9 11 ++ [(12, decide (limit ≤ d.variant.poolSlots))] ++ zeros x 16 63)
  match freeIndex ((d.dlr.flows.filter Flow.host).map fun f => hIndex f.id) d.variant.capFlows with
  | none => .error { st := ST_NO_CAPACITY, res := resBytes [(1, 0xF0), (1, 0xFF), (2, 0), (4, 1), (4, 0)] }
  | some i =>
    let f : Flow := { id := mkHandle 9 i, fn := c.fn, session := s.handle, host := true, ordered := dBits x 8 0 1 == 1,
                      limit := limit }
    .ok (.done (ledgTake { d with dlr := { d.dlr with flows := d.dlr.flows ++ [f] } } 2 0 1) (leBytes f.id 4))

def execFlowCreate (fn : Fin 64) (ring : Fin 32) (s : State) : Host.Outcome State Fault Refusal :=
  onDev (runCmd 0x40 fn.val ring.val flowCreateAct) s

/-- The successor entries of a card descriptor from byte `at0`. -/
def succEntries (x : Desc) (at0 n : Nat) : List Nat := (List.range (min n 8)).map fun i => dNum x (at0 + 4 * i) 4
/-- The field checks of successor entries from byte `at0`: registered cards up to nsucc, zero above. -/
def succFields (d : Dev) (fn : Nat) (x : Desc) (at0 n : Nat) : List (Nat × Bool) :=
  (List.range 8).map fun i =>
    (at0 + 4 * i, if i < n then succOk d fn [] ((succEntries x at0 n).take (i + 1)) else dNum x (at0 + 4 * i) 4 == 0)

/-- A submitted card waits unstarted for a credit (R99). (DEDUCED, log entry 75.) -/
def waitCredit (d : Dev) (c : Cmd) : Act := .stay (putCmd d { c with waiting := true, strides := if c.waiting then c.strides else 0 })

/-- CARD_SUBMIT (R82, R83); a not_before after the deadline names the byte of not_before. (DEDUCED, log entry 75; DESIGN CHOICE, log entry 183.) -/
def cardSubmitAct (d : Dev) (c : Cmd) : Except Fail Act := do
  let x := c.desc
  let f ← flowOf d c.fn (dHandle x) true
  let ns := dBits x 21 0 4
  checkFields x ([(8, dBits x 8 0 2 != 3 && dBits x 8 4 4 == 0), (9, decide (dByte x 9 ≤ 1)), (10, quarterField d (dByte x 10)),
    (11, teamField d (dByte x 10) (dByte x 11)),
    (16, !(dBits x 8 3 1 == 1 && decide (0 < sdiff (wd (dNum x 16 4)) (wd (dNum x 12 4))))),
    (21, decide (ns ≤ 8) && dBits x 21 4 4 == 0)] ++ zeros x 22 23 ++ succFields d c.fn x 32 ns)
  if !hasCredit d (.fn c.fn) f.id then .ok (waitCredit d c)
  else match freeSlot d with
    | none => .ok (waitCredit d c)
    | some slot =>
      let card : Card :=
        { slot := slot, seq := 0, cls := dBits x 8 0 2, notify := dBits x 8 2 1 == 1, nbEn := dBits x 8 3 1 == 1,
          notBefore := wd (dNum x 16 4), exec := dByte x 9, quarter := dByte x 10, team := dByte x 11,
          deadline := wd (dNum x 12 4), counter := dByte x 20, succ := (succEntries x 32 ns).map hIndex, flow := f.id,
          fn := c.fn, source := .fn c.fn, owner := f.id,
          work := if dByte x 9 = 0 then .relay else .kernel (wd (dNum x 24 4)) (wd (dNum x 28 4)) }
      .ok (.done (storeCard d card) (leBytes (cardHandle slot) 4))

def execCardSubmit (fn : Fin 64) (ring : Fin 32) (s : State) : Host.Outcome State Fault Refusal :=
  onDev (runCmd 0x41 fn.val ring.val cardSubmitAct) s

/-- CARD_CANCEL (R103). -/
def cardCancelAct (d : Dev) (c : Cmd) : Except Fail Act := do
  let x := c.desc
  let card ← (match findCard d (hIndex (dHandle x)) with
    | some k => if hKind (dHandle x) == 10 && k.fn == c.fn then .ok k else .error badHandle
    | none => .error badHandle)
  checkFields x ([(8, dBits x 8 1 7 == 0)] ++ zeros x 9 63)
  match card.state with
  | .waiting | .ready => .ok (.done (runTasks d [.retire card.slot 2 (dBits x 8 0 1 == 1)]) [0])
  | .inService | .finished => .ok (.wait (putCard d { card with cancelCmds := card.cancelCmds ++ [c.id] }))
  | .zombie => .ok (.done d [2])

def execCardCancel (fn : Fin 64) (ring : Fin 32) (s : State) : Host.Outcome State Fault Refusal :=
  onDev (runCmd 0x42 fn.val ring.val cardCancelAct) s

/-- Work whose steps the spec leaves to Krykenan's codec library: its card retires when its core reports it done. -/
def Work.library : Work → Bool
  | .audioDecode _ => true
  | .audioEncode _ _ => true
  | _ => false

/-- CARD_RETIRE (R81): a card whose work has ended. -/
def execCardRetire (slot : Nat) (s : State) : Host.Outcome State Fault Refusal :=
  onDev (fun d => match findCard d slot with
    | none => d
    | some c =>
      if c.state == .inService && !c.preempted && !halted d && (c.done || c.work.library) then completeCard d slot else d) s

/-- CARD_DEAL (R92, R94, R95): one deal from the pool that a quarter and a team field name. -/
def execCardDeal (quarter team : Nat) (s : State) : Host.Outcome State Fault Refusal :=
  onDev (fun d =>
    if halted d then d
    else
      let e := dealPool d quarter team
      (poolCores e quarter team).foldl (fun e k =>
        if (findCore d k).card == (findCore e k).card then e else breakCheck e k) e) s

/-- ENGINE_QUEUE_WRITE (R98). -/
def execEngineQueueWrite (u : UnitId) (s : State) : Host.Outcome State Fault Refusal :=
  onDev (fun d => if unitWf u || u.cls = 5 then writeQueue d u else d) s

/-- Background cards on cores of the pool that have not been told to yield. -/
def preemptable (d : Dev) (q t : Nat) : List (Nat × Card) :=
  (poolCores d q t).filterMap fun k =>
    if d.dlr.preempts.any fun p => p.core == k then none
    else match (findCore d k).card.bind (findCard d) with
      | some c => if c.cls = 2 && teamState d k == 2 then some (k, c) else none
      | none => none

/-- PREEMPT (R96): the first READY trump card of a pool with no idle core that has no pre-emption pending takes the background
card with the latest deadline. (DEDUCED, log entry 72.) -/
def preemptPool (d : Dev) (q t : Nat) : Dev :=
  match firstCard d ((readyIn d q t 0).filter fun c => !d.dlr.preempts.any fun p => p.trump == c.slot) with
  | none => d
  | some c =>
    if halted d || !bit (regB d (DLR + 4)) 8 || (poolCores d q t).any (coreIdle d) then d
    else
      let late (a b : Nat × Card) : Bool := decide (sdiff a.2.deadline (strideW d) < sdiff b.2.deadline (strideW d))
      match (preemptable d q t).foldl (fun best x => match best with
          | none => some x
          | some y => if late y x then some x else some y) none with
      | none => d
      | some (k, b) =>
        let d := { d with dlr := { d.dlr with preempts := d.dlr.preempts ++ [{ core := k, trump := c.slot, background := b.slot }] } }
        cnt (putCore d { findCore d k with preemptReq := true }) (DLR + 0x40) 1

def execPreempt (quarter team : Nat) (s : State) : Host.Outcome State Fault Refusal :=
  onDev (fun d => preemptPool d quarter team) s

/-- PREEMPT_LATE (R96): the core has not yielded within DLR_PREEMPT_LIMIT. (DEDUCED, log entry 72.) -/
def preemptLate (d : Dev) (k : Nat) : Dev :=
  match d.dlr.preempts.find? fun p => p.core == k && !p.late with
  | none => d
  | some p =>
    let d := { d with dlr := { d.dlr with preempts := d.dlr.preempts.map fun (x : Preempt) =>
      if x.core == k then { x with late := true } else x } }
    raise d (evCore k 0x203 1 [(1, k), (4, cardHandle p.trump), (4, cardHandle p.background)])

def execPreemptLate (core : Fin 256) (s : State) : Host.Outcome State Fault Refusal :=
  onDev (fun d => preemptLate d core.val) s

/-- FLOW_STALL (R102). -/
def execFlowStall (flow : Nat) (s : State) : Host.Outcome State Fault Refusal := onDev (fun d => stallFlow d flow) s

/-- SUBMIT_STALL (R100). -/
def execSubmitStall (fn : Fin 64) (ring : Fin 32) (s : State) : Host.Outcome State Fault Refusal :=
  onDev (fun d => match d.hif.accepted.find? fun c => c.fn == fn.val && c.ring == ring.val && c.waiting with
    | some c => submitStallCmd d c
    | none => d) s

/-- DEADLINE_DROP (R31): at the boundary, a trump card due in the stride just ended that has not started. (DEDUCED, log entry 12.) -/
def deadlineDrop (d : Dev) (slot : Nat) : Dev :=
  match findCard d slot with
  | none => d
  | some c =>
    if c.cls = 0 && (c.state == .waiting || c.state == .ready) && c.deadline == strideW d - 1 &&
       d.tim.clock == strideStart d.tim.stride && !halted d then dropCard (raiseDrop d c) slot
    else d

def execDeadlineDrop (slot : Nat) (s : State) : Host.Outcome State Fault Refusal := onDev (fun d => deadlineDrop d slot) s

/-- OVERRUN (R32): a trump card in service past its deadline stride, counted once, with the cycles run past the
boundary; the record's executor is the card's exec code in one byte. (DESIGN CHOICE, log entry 184.) -/
def overrunCard (d : Dev) (slot cycles : Nat) : Dev :=
  match findCard d slot with
  | none => d
  | some c =>
    if c.cls = 0 && c.state == .inService && !c.overran && decide (sdiff c.deadline (strideW d) < 0) then
      raise (cnt (putCard d { c with overran := true, late := cycles }) (DLR + 0x30) 1)
        (evTo (evDev 0x211 1 [(4, cardHandle slot), (1, c.exec), (4, cycles)]) c.fn)
    else d

/-- (DEDUCED, log entry 84.) -/
def execOverrun (slot : Nat) (cycles : Nat) (s : State) : Host.Outcome State Fault Refusal :=
  onDev (fun d => overrunCard d slot cycles) s

end Sys2Proof.Machine
end

