-- ==== Sys2Proof/Machine/Crypto.lean ====
section
/-! DEFINITION. The algorithms of the standards that the SRTP engines follow (R168 to R175): AES (FIPS 197), its counter mode,
CMAC, GCM, SHA-1 and HMAC, the key wrap of RFC 5649. Bytes are numbers below 256 here. -/
namespace Sys2Proof.Machine

/-! ### AES -/

/-- The S-box and its inverse, byte `i` at bits `8 i + 7 : 8 i`. -/
def sboxTable : Nat :=
  0x75b227ebe28012079a059618c323c7041531d871f1e5a534ccf73f362693fdb7c072a49cafa2d4adf04759fa7dc982ca76abd7fe2b670130c56f6bf27b777c63 + 2 ^ 512 *
  (0xd2f3ff1021dab6bcf5389d928f40a351a89f3c507f02f94585334d43fbaaefd0cf584c4a39becb6a5bb1fc20ed00d153842fe329b3d63b52a05a6e1b1a2c8309 + 2 ^ 512 *
  (0x08ae7a65eaf4566ca94ed58d6d37c8e779e4959162acd3c25c2406490a3a32e0db0b5ede14b8ee4688902a22dc4f816073195d643d7ea7c41744975fec130ccd + 2 ^ 512 *
   0x16bb54b00f2d99416842e6bf0d89a18cdf2855cee9871e9b948ed9691198f8e19e1dc186b95735610ef6034866b53e708a8bbd4b1f74dde8c6b4a61c2e2578ba))
def sboxInvTable : Nat :=
  0x25d18b6d49a25b76b224d92866a12e084ec3fa420b954cee3d23c2a632947b54cbe9dec444438e3487ff2f9b8239e37cfbd7f3819ea340bf38a53630d56a0952 + 2 ^ 512 *
  (0x6b8a130103bdafc1020f3fca8f1e2cd00645b3b80558e4f70ad3bc8c00abd890849d8da75746155edab9edfd5048706c92b6655dcc5ca4d41698688664f6f872 + 2 ^ 512 *
  (0xf45acd78fec0db9a2079d2c64b3e56fc1bbe18aa0e62b76f89c5291d711af1476edf751ce837f9e28535ade72274ac9673e6b4f0cecff297eadc674f4111913a + 2 ^ 512 *
   0x7d0c2155631469e126d677ba7e042b17619953833cbbebc8b0f52aae4d3be0a0ef9cc9939f7ae52d0d4ab519a97f51605fec8027591012b131c7078833a8dd1f))
def sbox (b : Nat) : Nat := sboxTable >>> (8 * b) % 256
def sboxInv (b : Nat) : Nat := sboxInvTable >>> (8 * b) % 256
/-- Exclusive or of byte lists, as long as the shorter. -/
def xorL : List Nat → List Nat → List Nat
  | a :: as, b :: bs => (a ^^^ b) :: xorL as bs
  | _, _ => []
/-- Multiplication by x in GF(2^8). -/
def xtime (b : Nat) : Nat := if b < 128 then 2 * b else (2 * b) ^^^ 0x11B
/-- Multiplication by 9, 11, 13 or 14 and smaller constants: bit `i` of `k` selects b x^i. -/
def gmul (k b : Nat) : Nat :=
  let b1 := xtime b
  let b2 := xtime b1
  let b3 := xtime b2
  (if k.testBit 0 then b else 0) ^^^ (if k.testBit 1 then b1 else 0) ^^^ (if k.testBit 2 then b2 else 0) ^^^
    (if k.testBit 3 then b3 else 0)
/-- One column times the circulant matrix whose first row is `k`. -/
def mixColumn (k0 k1 k2 k3 : Nat) (a b c d : Nat) : List Nat :=
  [gmul k0 a ^^^ gmul k1 b ^^^ gmul k2 c ^^^ gmul k3 d, gmul k3 a ^^^ gmul k0 b ^^^ gmul k1 c ^^^ gmul k2 d,
   gmul k2 a ^^^ gmul k3 b ^^^ gmul k0 c ^^^ gmul k1 d, gmul k1 a ^^^ gmul k2 b ^^^ gmul k3 c ^^^ gmul k0 d]
/-- MixColumns, or its inverse. -/
def mixColumns (inv : Bool) : List Nat → List Nat
  | a :: b :: c :: d :: s =>
    (if inv then mixColumn 14 11 13 9 a b c d else mixColumn 2 3 1 1 a b c d) ++ mixColumns inv s
  | _ => []
/-- SubBytes and ShiftRows, or their inverses. -/
def subShift (s : List Nat) : List Nat := (List.range 16).map fun i => sbox (nth s (5 * i % 16) 0)
def subShiftInv (s : List Nat) : List Nat := (List.range 16).map fun i => sboxInv (nth s (13 * i % 16) 0)

/-- Key expansion: `n` more words onto `w`, `i` of them so far, with `nk` words of key and round constant `rc`. -/
def expandKey (nk : Nat) : Nat → Nat → Nat → List (List Nat) → List (List Nat)
  | 0, _, _, w => w
  | n + 1, i, rc, w =>
    let t := nth w (i - 1) []
    let t' :=
      if i % nk = 0 then xorL (((t.drop 1) ++ (t.take 1)).map sbox) [rc, 0, 0, 0]
      else if 6 < nk && i % nk = 4 then t.map sbox else t
    expandKey nk n (i + 1) (if i % nk = 0 then xtime rc else rc) (w ++ [xorL (nth w (i - nk) []) t'])
/-- Words of four bytes. -/
def wordsOf : List Nat → List (List Nat)
  | a :: b :: c :: d :: s => [a, b, c, d] :: wordsOf s
  | _ => []
/-- The round keys of a 16-byte or 32-byte key, 16 bytes each. -/
def roundKeys (key : List Nat) : List (List Nat) :=
  let nk := key.length / 4
  let w := expandKey nk (4 * (nk + 7) - nk) nk 1 (wordsOf key)
  (List.range (nk + 7)).map fun r => (slice w (4 * r) 4).flatten
/-- AES rounds over the round keys after the first. -/
def aesRounds : List (List Nat) → List Nat → List Nat
  | [], s => s
  | [k], s => xorL (subShift s) k
  | k :: ks, s => aesRounds ks (xorL (mixColumns false (subShift s)) k)
/-- AES encryption of a 16-byte block under expanded round keys. -/
def aesWith (ks : List (List Nat)) (block : List Nat) : List Nat := aesRounds (ks.drop 1) (xorL block (nth ks 0 []))
/-- (PRESUMED, log entry 102.) -/
def aes (key block : List Nat) : List Nat := aesWith (roundKeys key) block
/-- AES decryption rounds over the round keys in reverse order after the last. -/
def aesInvRounds : List (List Nat) → List Nat → List Nat
  | [], s => s
  | [k], s => xorL (subShiftInv s) k
  | k :: ks, s => aesInvRounds ks (mixColumns true (xorL (subShiftInv s) k))
def aesInv (key block : List Nat) : List Nat :=
  let ks := (roundKeys key).reverse
  aesInvRounds (ks.drop 1) (xorL block (nth ks 0 []))

/-! ### Numbers and bytes, most significant first -/

def natBe : List Nat → Nat := fun l => l.foldl (fun n b => 256 * n + b) 0
def beList (n : Nat) : Nat → List Nat
  | 0 => []
  | k + 1 => beList (n / 256) k ++ [n % 256]

/-! ### Counter mode -/

/-- `n` blocks of key stream from the counter block `c` on. -/
def ctrBlocks (ks : List (List Nat)) (c : Nat) : Nat → List Nat
  | 0 => []
  | n + 1 => aesWith ks (beList (c % 2 ^ 128) 16) ++ ctrBlocks ks (c + 1) n
/-- `n` bytes of AES counter-mode key stream that starts at counter block `iv`. -/
def aesCtr (key : List Nat) (iv n : Nat) : List Nat := (ctrBlocks (roundKeys key) iv (ceilDiv n 16)).take n

/-! ### CMAC (NIST SP 800-38B) -/

/-- Doubling in GF(2^128). -/
def dbl (x : Nat) : Nat := if x < 2 ^ 127 then 2 * x else (2 * x) % 2 ^ 128 ^^^ 0x87
/-- The MAC chain over whole blocks. -/
def cmacChain (ks : List (List Nat)) : Nat → List Nat → Nat → Nat
  | 0, _, x => x
  | n + 1, m, x => cmacChain ks n (m.drop 16) (natBe (aesWith ks (beList (x ^^^ natBe (m.take 16)) 16)))
/-- AES-CMAC of a message of at least one byte. -/
def cmac (key m : List Nat) : List Nat :=
  let ks := roundKeys key
  let k1 := dbl (natBe (aesWith ks (List.replicate 16 0)))
  let n := (m.length - 1) / 16
  let last := m.drop (16 * n)
  let tail := if last.length = 16 then natBe last ^^^ k1
    else natBe (last ++ [0x80] ++ List.replicate (15 - last.length) 0) ^^^ dbl k1
  aesWith ks (beList (cmacChain ks n m 0 ^^^ tail) 16)

/-! ### GHASH and GCM (NIST SP 800-38D) -/

/-- The product of two blocks in GHASH's field: `n` bits of `x` are left, from its most significant on. -/
def ghashMul : Nat → Nat → Nat → Nat → Nat
  | 0, _, _, z => z
  | n + 1, x, v, z =>
    ghashMul n x (if v % 2 = 1 then v / 2 ^^^ 0xE1 * 2 ^ 120 else v / 2) (if x.testBit n then z ^^^ v else z)
/-- GHASH over `n` blocks of bytes. -/
def ghash (h : Nat) : Nat → List Nat → Nat → Nat
  | 0, _, y => y
  | n + 1, m, y => ghash h n (m.drop 16) (ghashMul 128 (y ^^^ natBe (m.take 16)) h 0)
/-- Bytes padded with zeros to whole blocks. -/
def pad16 (m : List Nat) : List Nat := m ++ List.replicate ((16 - m.length % 16) % 16) 0
/-- The 16-byte GCM tag of ciphertext `c` with associated data `a` and a 12-byte nonce. (PRESUMED, log entry 102.) -/
def gcmTag (key : List Nat) (iv a c : List Nat) : List Nat :=
  let h := natBe (aes key (List.replicate 16 0))
  let m := pad16 a ++ pad16 c ++ beList (8 * a.length) 8 ++ beList (8 * c.length) 8
  xorL (aes key (iv ++ [0, 0, 0, 1])) (beList (ghash h (m.length / 16) m 0) 16)
/-- GCM's encryption, and decryption, of bytes. -/
def gcmCrypt (key iv m : List Nat) : List Nat := xorL m (aesCtr key (natBe (iv ++ [0, 0, 0, 2])) m.length)

/-! ### SHA-1 and HMAC -/

def rotl32 (x k : Nat) : Nat := (x * 2 ^ k % 2 ^ 32) ||| (x >>> (32 - k))
/-- The message schedule: `n` more words, newest first. -/
def shaSchedule : Nat → List Nat → List Nat
  | 0, w => w
  | n + 1, w =>
    shaSchedule n (rotl32 (nth w 2 0 ^^^ nth w 7 0 ^^^ nth w 13 0 ^^^ nth w 15 0) 1 :: w)
/-- The rounds from round `t` on. -/
def shaRounds : List Nat → Nat → Nat → Nat → Nat → Nat → Nat → List Nat
  | [], _, a, b, c, d, e => [a, b, c, d, e]
  | w :: ws, t, a, b, c, d, e =>
    let f := if t < 20 then (b &&& c) ||| ((b ^^^ 0xFFFFFFFF) &&& d)
      else if t < 40 then b ^^^ c ^^^ d
      else if t < 60 then (b &&& c) ||| (b &&& d) ||| (c &&& d) else b ^^^ c ^^^ d
    let k := if t < 20 then 0x5A827999 else if t < 40 then 0x6ED9EBA1 else if t < 60 then 0x8F1BBCDC else 0xCA62C1D6
    shaRounds ws (t + 1) ((rotl32 a 5 + f + e + k + w) % 2 ^ 32) a (rotl32 b 30) c d
/-- One 64-byte block into the five words. -/
def shaBlock (h m : List Nat) : List Nat :=
  let w := (shaSchedule 64 ((wordsOf m).map natBe).reverse).reverse
  let r := shaRounds w 0 (nth h 0 0) (nth h 1 0) (nth h 2 0) (nth h 3 0) (nth h 4 0)
  (h.zip r).map fun p => (p.1 + p.2) % 2 ^ 32
def shaBlocks : Nat → List Nat → List Nat → List Nat
  | 0, _, h => h
  | n + 1, m, h => shaBlocks n (m.drop 64) (shaBlock h (m.take 64))
/-- SHA-1 of a byte string. -/
def sha1 (m : List Nat) : List Nat :=
  let p := m ++ [0x80] ++ List.replicate ((119 - m.length % 64) % 64) 0 ++ beList (8 * m.length) 8
  (shaBlocks (p.length / 64) p [0x67452301, 0xEFCDAB89, 0x98BADCFE, 0x10325476, 0xC3D2E1F0]).flatMap (beList · 4)
/-- HMAC-SHA1 under a key of at most 64 bytes. -/
def hmacSha1 (key m : List Nat) : List Nat :=
  let k := key ++ List.replicate (64 - key.length) 0
  sha1 (k.map (· ^^^ 0x5C) ++ sha1 (k.map (· ^^^ 0x36) ++ m))

/-! ### Key wrap (RFC 5649) -/

/-- The unwrap's steps from step `t` down to 1 over `n` 8-byte registers, the integrity value first. -/
def unwrapSteps (key : List Nat) (n : Nat) : Nat → Nat → List (List Nat) → Nat × List (List Nat)
  | 0, a, r => (a, r)
  | t + 1, a, r =>
    let i := t % n
    let b := aesInv key (beList (a ^^^ (t + 1)) 8 ++ nth r i [])
    unwrapSteps key n t (natBe (b.take 8)) (r.set i (b.drop 8))
/-- 8-byte pieces. -/
def octets : Nat → List Nat → List (List Nat)
  | 0, _ => []
  | n + 1, m => m.take 8 :: octets n (m.drop 8)
/-- The unwrap of a blob of three or more 8-byte blocks: `none` where the integrity check fails. -/
def keyUnwrap (key blob : List Nat) : Option (List Nat) :=
  let n := blob.length / 8 - 1
  let r := unwrapSteps key n (6 * n) (natBe (blob.take 8)) (octets n (blob.drop 8))
  let m := r.2.flatten
  let len := r.1 % 2 ^ 32
  if r.1 / 2 ^ 32 = 0xA65959A6 && decide (8 * (n - 1) < len) && decide (len ≤ 8 * n) && (m.drop len).all (· == 0) then
    some (m.take len)
  else none

end Sys2Proof.Machine
end

