-- ==== Sys2Proof/Machine/Formats.lean ====
section
/-! DEFINITION. What an inbound packet says of itself: elements of its header extension (RFC 8285), and the layers and marks of
the payload formats (spec/13_leg_forwarding.md, table Selective formats). -/
namespace Sys2Proof.Machine

/-! ### Header extensions -/

/-- The first byte of the element with an ID in a header extension's body (RFC 8285). -/
def extByte (wide : Bool) (id : Nat) : Nat → List Nat → Option Nat
  | 0, _ => none
  | _, [] => none
  | n + 1, b :: bs =>
    if b = 0 then extByte wide id n bs
    else if wide then
      let len := nth bs 0 0
      if b = id && 1 ≤ len then bs[1]? else extByte wide id n (bs.drop (1 + len))
    else if b / 16 = 15 then none
    else if b / 16 = id then bs[0]? else extByte wide id n (bs.drop (b % 16 + 1))
/-- The first byte of the element with an ID of a packet's header extension, in the one-byte or the two-byte form. -/
def elementByte (id : Nat) (b : List Nat) : Option Nat :=
  let o := 12 + 4 * (nth b 0 0 % 16)
  if !(nth b 0 0).testBit 4 then none
  else
    let prof := natBe (slice b o 2)
    let body := slice b (o + 4) (4 * natBe (slice b (o + 2) 2))
    if prof = 0xBEDE then extByte false id body.length body
    else if prof / 16 = 0x100 then extByte true id body.length body else none

/-! ### VP8 (RFC 7741) and VP9 (RFC 9628) -/

/-- The VP8 payload descriptor: offset and length of the picture ID, offset of TL0PICIDX, TID, Y, and whether the packet starts
a key frame. -/
def vp8Read (b : List Nat) : Option (Nat × Nat) × Option Nat × Nat × Bool × Bool :=
  let b0 := nth b 0 0
  if !b0.testBit 7 then (none, none, 0, false, b0.testBit 4 && b0 % 8 == 0 && !(nth b 1 1).testBit 0)
  else
    let x := nth b 1 0
    let pid : Option (Nat × Nat) := if x.testBit 7 then some (2, if (nth b 2 0).testBit 7 then 2 else 1) else none
    let o := 2 + (pid.map Prod.snd).getD 0
    let tl0 : Option Nat := if x.testBit 6 then some o else none
    let o := o + (x.testBit 6).toNat
    let tk := x.testBit 5 || x.testBit 4
    let v := nth b o 0
    let p := o + tk.toNat
    (pid, tl0, if x.testBit 5 then v / 64 else 0, tk && v.testBit 5, b0.testBit 4 && b0 % 8 == 0 && !(nth b p 1).testBit 0)
/-- The VP9 payload descriptor: offset and length of the picture ID, SID, TID, U, the P bit and the B bit (first packet of a
layer's frame). -/
def vp9Read (b : List Nat) : Option (Nat × Nat) × Nat × Nat × Bool × Bool × Bool :=
  let b0 := nth b 0 0
  let pid : Option (Nat × Nat) := if b0.testBit 7 then some (1, if (nth b 1 0).testBit 7 then 2 else 1) else none
  let o := 1 + (pid.map Prod.snd).getD 0
  let v := nth b o 0
  if b0.testBit 5 then (pid, v / 2 % 8, v / 32, v.testBit 4, b0.testBit 6, b0.testBit 3)
  else (pid, 0, 0, false, b0.testBit 6, b0.testBit 3)
/-! ### H.264 (RFC 6184) and HEVC (RFC 7798) -/

/-- The NAL units behind the header of an aggregation packet, `n` at most. -/
def aggregated : Nat → List Nat → List (List Nat)
  | 0, _ => []
  | n + 1, b =>
    if b.length < 3 then []
    else slice b 2 (natBe (b.take 2)) :: aggregated n (b.drop (2 + natBe (b.take 2)))
/-- The NAL units that begin in an H.264 packet: type, and whether a slice's first bit is set, which is a first_mb_in_slice of 0. -/
def h264Starts (b : List Nat) : List (Nat × Bool) :=
  let unit (u : List Nat) : Nat × Bool := (nth u 0 0 % 32, (nth u 1 0).testBit 7)
  match nth b 0 0 % 32 with
  | 24 => (aggregated b.length (b.drop 1)).map unit
  | 28 => if (nth b 1 0).testBit 7 then [(nth b 1 0 % 32, (nth b 2 0).testBit 7)] else []
  | _ => [unit b]
/-- The NAL units that begin in an HEVC packet: type, and first_slice_segment_in_pic_flag. -/
def hevcStarts (b : List Nat) : List (Nat × Bool) :=
  let unit (u : List Nat) : Nat × Bool := (nth u 0 0 / 2 % 64, (nth u 2 0).testBit 7)
  match nth b 0 0 / 2 % 64 with
  | 48 => (aggregated b.length (b.drop 2)).map unit
  | 49 => if (nth b 2 0).testBit 7 then [(nth b 2 0 % 64, (nth b 3 0).testBit 7)] else []
  | _ => [unit b]
/-- An H.264 packet begins an IDR picture, with its first slice or with a sequence parameter set. (DEDUCED, log entry 140.) -/
def h264Join (b : List Nat) : Bool := (h264Starts b).any fun u => (u.1 == 5 && u.2) || u.1 == 7
/-- An HEVC packet begins an IDR, CRA or BLA picture, with its first slice or with its parameter sets. (DEDUCED, log entry 140.) -/
def hevcJoin (b : List Nat) : Bool :=
  (hevcStarts b).any fun u => (decide (16 ≤ u.1) && decide (u.1 ≤ 21) && u.2) || u.1 == 32 || u.1 == 33
/-- An HEVC packet begins a TSA or STSA picture. -/
def hevcUp (b : List Nat) : Bool := (hevcStarts b).any fun u => decide (2 ≤ u.1) && decide (u.1 ≤ 5) && u.2

/-! ### Layers and marks -/

/-- Layers of an inbound packet; whether a leg may join at it, or move its temporal layer up; the layers that its frame depends on
(fmt 3), and whether the frame's template is known. -/
structure Layers where
  s : Nat := 0
  t : Nat := 0
  join : Bool := false
  up : Bool := false
  deps : List (Nat × Nat) := []
  known : Bool := true
  deriving DecidableEq, Repr
/-- What the stage reads of an inbound packet of a leg (table Selective formats); `first` is whether the packet is the first of its
RTP timestamp, `mark` groom firmware's mark of a random access picture. -/
def readLayers (l : Leg) (b payload : List Nat) (first mark : Bool) : Layers :=
  if l.media != 1 then { join := true, up := true }
  else match l.fmt with
    | 0 => { join := first && mark }
    | 1 =>
      let v := vp8Read payload
      { t := v.2.2.1, join := v.2.2.2.2, up := first && v.2.2.2.1 }
    | 2 =>
      let v := vp9Read payload
      { s := v.2.1, t := v.2.2.1, join := v.2.2.2.2.2 && !v.2.2.2.2.1, up := first && v.2.2.2.1 }
    | 3 =>
      let dd := (elementByte l.ddId b).getD 0
      match l.templates.find? fun x => x.id == dd % 64 with
      | none => { known := false }
      | some x => { s := x.s, t := x.t, join := dd.testBit 7 && x.deps.isEmpty, up := dd.testBit 7, deps := x.deps }
    | 4 => { s := l.simIndex, join := h264Join payload }
    | _ => { s := l.simIndex, t := nth payload 1 0 % 8 - 1, join := hevcJoin payload, up := hevcUp payload }

end Sys2Proof.Machine
end

