-- ==== Sys2Proof/Machine/Audio.lean ====
section
/-! DEFINITION. Audio: conferences, participants and listener groups (R183 to R188), jitter cards and levels (R189 to R191,
R415), the hand (R192, R193), the mixing unit's stride (R194 to R199), the cascade (R200 to R202). -/
namespace Sys2Proof.Machine

def audUnit (q : Nat) : UnitId := ⟨5, q, 0⟩

/-! ### Record units (R185) -/

/-- A unit of the conference with a free participant record. -/
def RecUnit.hasPart (c : Nat) (u : RecUnit) : Bool := u.conf == c && decide (u.parts.length < 7)
def RecUnit.hasStream (c : Nat) (u : RecUnit) : Bool := u.conf == c && u.stream.isNone
/-- Change the first unit that `p` picks. -/
def modFirst (p : RecUnit → Bool) (f : RecUnit → RecUnit) : List RecUnit → List RecUnit
  | [] => []
  | u :: us => if p u then f u :: us else u :: modFirst p f us
/-- A participant takes a record; a new unit has been booked where none was free. (DEDUCED, log entry 116.) -/
def takePartRecord (d : Dev) (c : Conf) (h : Nat) : Dev :=
  let us := if d.aud.units.any (RecUnit.hasPart c.handle) then d.aud.units else d.aud.units ++ [{ conf := c.handle, home := c.home }]
  { d with aud := { d.aud with units := modFirst (RecUnit.hasPart c.handle) (fun u => { u with parts := u.parts ++ [h] }) us } }
/-- (DEDUCED, log entry 116.) -/
def takeStreamRecord (d : Dev) (c h : Nat) : Dev :=
  { d with aud := { d.aud with units := modFirst (RecUnit.hasStream c) (fun u => { u with stream := some h }) d.aud.units } }
/-- A record is released; a unit whose last record it was returns under R36. -/
def dropRecord (d : Dev) (h : Nat) : Dev :=
  let us := d.aud.units.map fun u => { u with parts := u.parts.filter (· != h), stream := if u.stream == some h then none else u.stream }
  let gone := us.filter fun u => u.parts.isEmpty && u.stream.isNone
  gone.foldl (fun d u => unbook d [⟨5, u.home, 1⟩])
    { d with aud := { d.aud with units := us.filter fun u => !(u.parts.isEmpty && u.stream.isNone) } }

/-! ### Creating -/

def confParts (d : Dev) (c : Nat) : List Part := d.aud.parts.filter fun p => p.conf == c
def confStreams (d : Dev) (c : Nat) : List AStream := d.aud.streams.filter fun s => s.conf == c

/-- CONF_CREATE (R184). -/
def confCreateAct (d : Dev) (c : Cmd) : Except Fail Act := do
  let x := c.desc
  let s ← openSession d c.fn (dHandle x)
  let cycles := dNum x 12 4
  checkFields x ([(8, decide (1 ≤ dBits x 8 0 5) && decide (dBits x 8 0 5 ≤ 16) && dBits x 8 6 2 == 0), (9, dBits x 9 3 5 == 0),
    (10, decide (dByte x 10 ≤ 8)), (11, quarterField d (dByte x 11)), (12, cycles != 0)] ++ zeros x 16 63)
  let ns : List Need := [⟨0, cycles⟩, ⟨11, 1⟩]
  match admission d (if dByte x 11 = 0xFF then none else some (dByte x 11)) 0 ns, newHandle d 2 with
  | .error r, _ => .error (noCapacity r)
  | .ok _, none => .error (noCapacity (refusal44 d 11 0 1))
  | .ok q, some h =>
    let k : Conf := { handle := h, fn := c.fn, handMax := dBits x 8 0 5, handEv := dBits x 8 5 1 == 1, hpf := dByte x 9,
                      delay := dByte x 10, home := q }
    let d := addObj (book d q ns) { handle := h, fn := c.fn, session := s.handle, parent := s.handle, home := q, books := booksOf q ns }
    .ok (.done { d with aud := { d.aud with confs := d.aud.confs ++ [k] } } (leBytes h 4))
def execConfCreate (fn : Fin 64) (ring : Fin 32) (s : State) : Host.Outcome State Fault Refusal :=
  onDev (runCmd 0x10 fn.val ring.val confCreateAct) s

/-- A group field names a stream of the conference, or none. -/
def groupOk (d : Dev) (c g : Nat) : Bool := g == 0 || (findStream d g).any fun s => s.conf == c
/-- The pot bound of R186 with one more peer of `n`. -/
def potBound (d : Dev) (c : Conf) (n : Nat) : Bool :=
  decide (c.handMax + 1 + (((confParts d c.handle).filter Part.peer).map fun p => p.peerMax + 1).sum + (n + 1) ≤ 64)
/-- PART_CREATE (R184, R186, R415). -/
def partCreateAct (d : Dev) (c : Cmd) : Except Fail Act := do
  let x := c.desc
  let o ← objOf d c.fn 2 (dHandle x)
  parentOpen d o
  let k ← (match findConf d o.handle with | some k => .ok k | none => .error badHandle)
  let peer := dBits x 8 0 1 == 1
  let ext := dBits x 8 1 1 == 1
  let jmin := if dByte x 14 = 0 then 24 else dByte x 14
  let jmax := if dByte x 15 = 0 then 120 else dByte x 15
  let cycles := dNum x 20 4
  let pm := dBits x 11 0 5
  operandOf d c.fn 7 (dNum x 16 4)
  checkFields x [(8, dBits x 8 4 4 == 0 && !(peer && k.delay == 0)), (9, if peer then dByte x 9 == 0 else decide (dByte x 9 ≤ 3)),
    (10, if ext then decide (1 ≤ dByte x 10) && decide (dByte x 10 ≤ 14) else dByte x 10 == 0),
    (11, dBits x 11 5 3 == 0 && (if peer then decide (1 ≤ pm) && decide (pm ≤ 16) && potBound d k pm else pm == 0)),
    (14, decide (jmin ≤ jmax)), (16, groupOk d k.handle (dNum x 16 4)), (20, peer == (cycles == 0)),
    (24, !peer || dNum x 24 4 == 0)]
  checkFields x (zeros x 28 63)
  let ns : List Need := (if peer then [] else [⟨0, cycles⟩]) ++
    (if d.aud.units.any (RecUnit.hasPart k.handle) then [] else [⟨5, 1⟩]) ++ [⟨10, 1⟩]
  match admission d (some k.home) 0 ns, newHandle d 3 with
  | .error r, _ => .error (noCapacity r)
  | .ok _, none => .error (noCapacity (refusal44 d 10 0 1))
  | .ok _, some h =>
    let p : Part := { handle := h, fn := c.fn, conf := k.handle, peer := peer, levelExt := ext, always := dBits x 8 2 1 == 1,
                      codec := dByte x 9, extId := dByte x 10, peerMax := pm, jbMin := jmin, jbMax := jmax, tag := dNum x 24 4,
                      gain := dNum x 12 2, mute := dBits x 8 3 1 == 1, group := dNum x 16 4, delay := if peer then 0 else jmin }
    let d := book d k.home ns
    let d := addObj d { handle := h, fn := c.fn, session := o.session, parent := k.handle, home := k.home,
                        books := (booksOf k.home ns).filter fun b => b.b != 5 }
    .ok (.done (takePartRecord { d with aud := { d.aud with parts := d.aud.parts ++ [p] } } k h) (leBytes h 4))
def execPartCreate (fn : Fin 64) (ring : Fin 32) (s : State) : Host.Outcome State Fault Refusal :=
  onDev (runCmd 0x11 fn.val ring.val partCreateAct) s

/-- Frame lengths and bitrates that a codec has (table Audio codecs of the codec library). -/
def frameOk (codec f : Nat) : Bool := [12, 24, 48, 72].contains f || (codec == 3 && (f == 3 || f == 6))
def bitrateOk (codec b : Nat) : Bool := if codec = 3 then decide (6000 ≤ b) && decide (b ≤ 510000) else b == 64000
/-- ENC_CREATE of an audio stream (R185). -/
def audioEncCreate (d : Dev) (c : Cmd) : Except Fail Act := do
  let x := c.desc
  let o ← objOf d c.fn 2 (dHandle x)
  parentOpen d o
  let k ← (match findConf d o.handle with | some k => .ok k | none => .error badHandle)
  let codec := dBits x 8 0 3
  let cycles := dNum x 20 4
  checkFields x ([(8, decide (dByte x 8 ≤ 3)), (9, frameOk codec (dByte x 9)), (10, decide (dByte x 10 ≤ 1))] ++ zeros x 11 11 ++
    [(12, bitrateOk codec (dNum x 12 4))] ++ zeros x 18 19 ++ [(20, cycles != 0)] ++ zeros x 24 63)
  let ns : List Need := [⟨0, cycles⟩, ⟨12, 1⟩]
  let full : Refused := ⟨5, k.home, 1, 0⟩
  match refused d (some k.home) [⟨0, cycles⟩] with
  | some r => .error (noCapacity r)
  | none =>
    if !d.aud.units.any (RecUnit.hasStream k.handle) then .error (noCapacity full)
    else match refused d (some k.home) ns, newHandle d 7 with
      | some r, _ => .error (noCapacity r)
      | none, none => .error (noCapacity (refusal44 d 12 0 1))
      | none, some h =>
        let s : AStream := { handle := h, fn := c.fn, conf := k.handle, codec := codec, frame := dByte x 9,
                             lowLat := dByte x 10 == 1, bitrate := dNum x 12 4, gain := dNum x 16 2 }
        let d := addObj (book d k.home ns) { handle := h, fn := c.fn, session := o.session, parent := k.handle, home := k.home,
                                             books := booksOf k.home ns }
        .ok (.done (takeStreamRecord { d with aud := { d.aud with streams := d.aud.streams ++ [s] } } k.handle h) (leBytes h 4))
/-- ENC_SET of an audio stream (R188). -/
def audioEncSet (d : Dev) (c : Cmd) (s : AStream) : Except Fail Act := do
  let x := c.desc
  let m (i : Nat) : Bool := dBits x 8 i 1 == 1
  checkFields x ([(8, dBits x 8 2 6 == 0)] ++ zeros x 9 11 ++ [(12, !m 1 || bitrateOk s.codec (dNum x 12 4))] ++ zeros x 18 63)
  .ok (.done (modStream d s.handle fun s =>
    { s with nextGain := if m 0 then some (dNum x 16 2) else s.nextGain,
             nextRate := if m 1 then some (dNum x 12 4) else s.nextRate }) [])

/-! ### PART_SET (R187, R199) -/

/-- One change applied. -/
def applySet (p : Part) (s : PartSet) : Part :=
  let m (i : Nat) : Bool := s.mask.testBit i
  { p with gain := if m 0 then s.gain else p.gain
           mute := if m 1 then s.mute else p.mute
           deaf := if m 2 then s.deaf else p.deaf
           pin := if m 3 then s.pin else p.pin
           bar := if m 4 then s.bar else p.bar }
/-- The participant with every change that waits applied. (DEDUCED, log entry 117.) -/
def applySets (p : Part) : Part := { p.sets.foldl applySet p with sets := [] }
/-- (DEDUCED, log entry 117.) -/
def partSetAct (d : Dev) (c : Cmd) : Except Fail Act := do
  let x := c.desc
  let o ← objOf d c.fn 3 (dHandle x)
  let p ← (match findPart d o.handle with | some p => .ok p | none => .error badHandle)
  let k ← (match findConf d p.conf with | some k => .ok k | none => .error badHandle)
  let b (i : Nat) : Bool := dBits x 9 i 1 == 1
  let s : PartSet := { mask := dBits x 8 0 5, mute := b 0, deaf := b 1, pin := b 2, bar := b 3, gain := dNum x 12 2 }
  let q := applySet (applySets p) s
  let pins := ((confParts d k.handle).filter fun y => y.handle != p.handle && (applySets y).pin).length + q.pin.toNat
  let g := dBits x 8 5 1 == 1
  operandOf d c.fn 7 (if g then dNum x 16 4 else 0)
  checkFields x ([(8, dBits x 8 6 2 == 0 && !(p.peer && decide (4 ≤ dByte x 8))),
    (9, dBits x 9 4 4 == 0 && !(q.pin && q.bar) && !(s.mask.testBit 3 && s.pin && decide (k.handMax < pins)))] ++ zeros x 10 11 ++
    zeros x 14 15 ++ [(16, !g || groupOk d k.handle (dNum x 16 4))] ++ zeros x 20 63)
  .ok (.done (modPart d p.handle fun p =>
    { p with sets := p.sets ++ [s], nextGroup := if g then some (dNum x 16 4) else p.nextGroup }) [])
def execPartSet (fn : Fin 64) (ring : Fin 32) (s : State) : Host.Outcome State Fault Refusal :=
  onDev (runCmd 0x12 fn.val ring.val partSetAct) s

/-! ### Jitter cards (R189, R190, R415) -/

/-- The audio level that a packet carries (R190). (PRESUMED, log entry 111.) -/
def packetLevel (id : Nat) (b : List Nat) : Option Nat :=
  (elementByte id b).map (· % 128)
/-- Where a packet's payload begins. -/
def payloadAt (b : List Nat) : Nat :=
  let o := 12 + 4 * (nth b 0 0 % 16)
  if (nth b 0 0).testBit 4 then o + 4 + 4 * (256 * nth b (o + 2) 0 + nth b (o + 3) 0) else o
/-- Strides of an Opus packet's frames, from its TOC byte (RFC 6716). -/
def opusFrame (toc : Nat) : Nat :=
  let c := toc / 8
  if c < 12 then nth [12, 24, 48, 72] (c % 4) 12 else if c < 16 then nth [12, 24] (c % 2) 12 else nth [3, 6, 12, 24] (c % 4) 3
/-- Strides of the codec frame that a payload holds: the 64,000 b/s codecs carry 8 bytes in a millisecond. (DEDUCED, log entry 109.) -/
def codecFrame (codec : Nat) (payload : List Nat) : Nat :=
  if codec = 3 then opusFrame (nth payload 0 0) else payload.length * 3 / 20
/-- A packet enters its participant's jitter buffer: its level is read, and it is kept unless its playout stride has
passed. (DEDUCED, log entry 110.) -/
def jitterPacket (now : Nat) (b : List Nat) (p : Part) : Part :=
  let ts := beNat ((slice b 4 4).map (BitVec.ofNat 8))
  let base := p.jbBase.getD (ts, now)
  let due : Int := base.2 + sdiff (wd ts) (wd base.1) * 1200 / (audioClock p.codec : Nat)
  let v := ((if p.levelExt then packetLevel p.extId b else none)).getD p.vLevel
  let payload := b.drop (payloadAt b)
  let p := { p with vLevel := v, lambda := 127 - v, lastPkt := some now, jbBase := some base, frame := codecFrame p.codec payload,
                    late := (p.late.filter fun x => decide (now < x.1 + 2400)) ++ [(now, now - due)] }
  if due + p.delay < now then p else { p with jb := p.jb ++ [((due + p.delay).toNat, payload.map (BitVec.ofNat 8))] }
/-- JITTER_CARD. -/
def jitterCard (d : Dev) (slot : Nat) : Dev :=
  match findCard d slot with
  | none => d
  | some c =>
    match c.work with
    | .jitter part k =>
      if c.state != .inService || c.done || c.preempted || halted d then d
      else
        let b := ((findMPkt d k).map fun m => m.pkt.bytes.map BitVec.toNat).getD []
        let d := modPart d part (jitterPacket d.tim.stride b)
        putCard (releaseMPkt d k) { c with done := true }
    | _ => d
def execJitterCard (slot : Nat) (s : State) : Host.Outcome State Fault Refusal := onDev (fun d => jitterCard d slot) s

/-! ### Hand selection (R191 to R193) -/

/-- The settings of a conference's selection at the boundary that starts stride `now`. -/
structure SelCfg where
  hyst : Nat
  floor : Nat
  atk : Nat
  dec : Nat
  extra : Nat
  minHold : Nat
  leave : Nat
  handMax : Nat
  now : Nat
  /-- Frame lengths of the groups, by stream. -/
  frames : List (Nat × Nat)
  deriving DecidableEq, Repr
def selCfg (d : Dev) (c : Conf) : SelCfg :=
  let s := AUD c.home + 8
  let h := AUD c.home + 0xC
  { hyst := getF d s 0 8, floor := getF d s 8 7, atk := getF d s 16 3, dec := getF d s 20 3, extra := getF d s 24 3,
    minHold := getF d h 0 16, leave := getF d h 16 16, handMax := c.handMax, now := d.tim.stride,
    frames := (confStreams d c.handle).map fun s => (s.handle, s.frame) }
def frameOf (k : SelCfg) (g : Nat) : Nat := ((k.frames.find? fun x => x.1 == g).map Prod.snd).getD 1
/-- F of R193. -/
def handFrame (k : SelCfg) (p : Part) : Nat := if p.deaf || p.group = 0 then 1 else frameOf k p.group
/-- The first multiple of `f` that is at least `n`. -/
def nextMul (f n : Nat) : Nat := ceilDiv n (max 1 f) * max 1 f

/-- Levels at the boundary (R190, R191). (PRESUMED, log entry 111.) -/
def updateLevel (k : SelCfg) (p : Part) : Part :=
  let fresh := match p.lastPkt with | some s => decide (k.now < s + 48) | none => false
  let p := { p with lambda := if fresh then 127 - p.vLevel else 0 }
  let t := p.lambda * 256
  let s := if p.level < t then p.level + (t - p.level) / 2 ^ k.atk else p.level - (p.level - t) / 2 ^ k.dec
  { p with level := s, below := if s < k.floor * 256 then p.below + 1 else 0 }
def handEligible (k : SelCfg) (p : Part) : Bool :=
  !p.peer && !p.mute && (p.pin || (!p.bar && decide (k.floor * 256 ≤ p.level)))
/-- Decoded without a break for at least one codec frame of its own codec. (DEDUCED, log entry 109.) -/
def warm (k : SelCfg) (p : Part) : Bool := p.decoded && p.frame != 0 && p.decodeFrom.any fun s => decide (s + p.frame ≤ k.now)
def member (p : Part) : Bool := p.hand.isSome
/-- A member not marked to leave. -/
def staying (p : Part) : Bool := p.hand.any fun h => h.2.isNone
def leaving (p : Part) : Bool := p.hand.any fun h => h.2.isSome
/-- The loudest and the weakest of a list, the lower index first among equals. -/
def loudest : List Part → Option Part
  | [] => none
  | p :: ps => match loudest ps with
    | none => some p
    | some q => if p.level < q.level || (p.level == q.level && decide (q.handle < p.handle)) then some q else some p
def weakest : List Part → Option Part
  | [] => none
  | p :: ps => match weakest ps with
    | none => some p
    | some q => if q.level < p.level || (p.level == q.level && decide (q.handle < p.handle)) then some q else some p
def replaceP (ps : List Part) (p : Part) : List Part := ps.map fun x => if x.handle == p.handle then p else x

/-- A hand change: participant, join, its first or last block. -/
structure HandEv where
  part : Nat
  join : Bool
  block : Nat
  deriving DecidableEq, Repr
/-- A member is marked to leave (R193). -/
def markLeave (k : SelCfg) (p : Part) : Part × HandEv :=
  let b := nextMul (handFrame k p) (k.now + 1)
  ({ p with hand := p.hand.map fun h => (h.1, some b)
            pers := p.pers.map fun x => if x.2.isNone then (x.1, some b) else x }, ⟨p.handle, false, b - 1⟩)
/-- A non-member is marked to join, not before stride `from_`. -/
def markJoin (k : SelCfg) (from_ : Nat) (p : Part) : Part × HandEv :=
  let j := nextMul (handFrame k p) (max k.now from_)
  ({ p with hand := some (j, none)
            pers := if p.group = 0 then p.pers else p.pers ++ [(j, none)] }, ⟨p.handle, true, j⟩)
abbrev Sel := List Part × List HandEv
def Sel.set (s : Sel) (r : Part × HandEv) : Sel := (replaceP s.1 r.1, s.2 ++ [r.2])
/-- Step 1. (DEDUCED, log entry 112.) -/
def selLeave (k : SelCfg) (s : Sel) : Sel :=
  (s.1.filter fun p => staying p && (p.mute || (!p.pin && (p.bar || decide (k.leave ≤ p.below))))).foldl
    (fun s p => s.set (markLeave k p)) s
/-- The k of the leaver whose place the next joiner takes; 0 where a place is free. -/
def placeFrom (k : SelCfg) (ps : List Part) : Nat :=
  let ks := ((ps.filter leaving).filterMap fun p => p.hand.bind Prod.snd).mergeSort (fun a b => decide (a ≤ b))
  let excess := (ps.filter staying).length + 1 + ks.length - k.handMax
  if excess = 0 then 0 else nth ks (excess - 1) 0
/-- Step 2, `n` joins at most. -/
def selFill (k : SelCfg) : Nat → Sel → Sel
  | 0, s => s
  | n + 1, s =>
    if k.handMax ≤ (s.1.filter staying).length then s
    else
      let cand := (s.1.filter fun p => !member p && p.pin && handEligible k p)
      let cand := if cand.isEmpty then s.1.filter fun p => !member p && handEligible k p && warm k p else cand
      match loudest cand with
      | none => s
      | some p => selFill k n (s.set (markJoin k (placeFrom k s.1) p))
/-- Step 3. -/
def selSwap (k : SelCfg) (s : Sel) : Sel :=
  match loudest (s.1.filter fun p => !member p && handEligible k p && warm k p), weakest (s.1.filter fun p => staying p && !p.pin) with
  | some x, some w =>
    let held := w.hand.any fun h => decide (h.1 + k.minHold ≤ k.now)
    if w.level + k.hyst * 256 ≤ x.level && held then
      let r := markLeave k w
      let s := s.set r
      s.set (markJoin k (r.2.block + 1) x)
    else s
  | _, _ => s
/-- The `n` loudest of a list. -/
def loudestN : Nat → List Part → List Nat
  | 0, _ => []
  | n + 1, ps => match loudest ps with
    | none => []
    | some p => p.handle :: loudestN n (ps.filter fun x => x.handle != p.handle)
/-- Step 4. -/
def selCand (k : SelCfg) (ps : List Part) : List Part :=
  let extra := loudestN k.extra (ps.filter fun p => !member p && handEligible k p)
  ps.map fun p => { p with cand := member p || p.pin || extra.contains p.handle }
/-- (DEDUCED, log entry 112.) -/
def selectHand (k : SelCfg) (ps : List Part) : Sel :=
  let s := selSwap k (selFill k (k.handMax + 1) (selLeave k (ps, [])))
  (selCand k s.1, s.2)

/-! ### Contributions (R194) -/

def coefOf (d : Dev) (q s : Nat) : Coef :=
  let c (i : Nat) : Int := signed24 (getF d (AUD q + 0x100 + 0x20 * s + 4 * i) 0 24)
  ⟨c 0, c 1, c 2, c 3, c 4⟩
/-- The participant's block contributes to the pot of block `n`. -/
def contributes (n : Nat) (p : Part) : Bool :=
  p.hand.any fun h => decide (h.1 ≤ n) && (match h.2 with | some k => decide (n < k) | none => true)
/-- The block that a decode card has produced: mono, or the downmix of a stereo Opus stream (R183). -/
def decodedBlock (env : BoundaryEnv) (p : Part) : List Int :=
  let ch (l : List (Nat × List Int)) : Option (List Int) := (l.find? fun b => b.1 == p.handle).map Prod.snd
  let left := block40 ((ch env.blocks).getD [])
  match if p.codec = 3 then ch env.right else none with
  | none => left
  | some r => List.zipWith (fun a b => rndC (a + b) 1) left (block40 r)
/-- The mixing unit reads the participant's block with an uncorrectable error of the Paddock: as zeros (R338). (DESIGN CHOICE, log entry 206.) -/
def blockBad (env : BoundaryEnv) (p : Part) : Bool := p.decoded && p.written && env.padUe.any fun x => x.1 == p.handle
/-- Such reads in quarter `q`, counted and reported. -/
def blockErrors (env : BoundaryEnv) (d : Dev) (q : Nat) (ps : List Part) : Dev :=
  (env.padUe.filter fun x => ps.any fun p => p.handle == x.1 && blockBad env p).foldl (fun d x => padUe d q x.2) d
/-- A decoded participant's filtered block, with its history run on. -/
def filterPart (env : BoundaryEnv) (co : Coef) (p : Part) : Part × List Int :=
  if !p.decoded then (p, silence)
  else
    let x := if p.written && !blockBad env p then decodedBlock env p else silence
    let r := biquad co p.hist x
    ({ p with hist := r.2 }, r.1)
/-- c of block `n`, faded (R193, R194). -/
def contribution (n : Nat) (p : Part) (h : List Int) : List Int :=
  let c := if p.mute then silence else gainBlock p.gain h
  match p.hand with
  | some (j, k) =>
    let c := if j = n then fadeIn c else c
    if k == some (n + 1) then fadeOut c else c
  | none => c
/-- A contribution: participant (0 the craft talker), tag, samples. -/
abbrev Contrib := Nat × Nat × List Int
def own (h : Nat) (cs : List Contrib) : List Int := ((cs.find? fun c => c.1 == h).map fun c => c.2.2).getD silence

/-! ### Mixes (R195, R196) -/

/-- A mix through gain and limiter: the limiter after it, the output block, and whether it was limited. (DEDUCED, log entry 113.) -/
def limitMix (d : Dev) (q : Nat) (low : Bool) (gain : Nat) (l : Limiter) (mix : List Int) : Limiter × List Int × Bool :=
  let y := outBlock gain mix
  let t := limTarget (getF d (AUD q + 0x10) 0 24) y
  let rel := getF d (AUD q + 0x14) 0 16
  let r := if low then limRun true l.g t rel y else limRun false l.g (min l.tgt t) rel l.prev
  ({ g := r.2.1, prev := y, tgt := t }, r.1, r.2.2)
/-- An encode card that waits for its output block (R198). -/
def encodeCard (d : Dev) (c : Conf) (s : AStream) (part : Nat) : Dev :=
  let owner := if part = 0 then s.handle else part
  let e := fwCard d { slot := 0, seq := 0, cls := 1, exec := 1, quarter := c.home, deadline := strideW d, counter := 1,
                      flow := if part = 0 then owner else owner + 2 ^ 32, fn := s.fn, source := .firmware, owner := owner,
                      work := .audioEncode s.handle part } false
  match freeSlot d with
  | some slot => if (findCard e slot).isSome then { e with aud := { e.aud with waiting := e.aud.waiting ++ [(c.home, slot)] } } else e
  | none => e
/-- An encoder reads the mix of pot block `b`: its output block joins those that wait for an encode card, where firmware has
a slot for one. (DEDUCED, log entry 115.) -/
def encodeMix (d : Dev) (c : Conf) (s : AStream) (part : Nat) (e : AEnc) (b : Nat) (mix : List Int) (out : Nat → Bool) : Dev × AEnc :=
  let r := limitMix d c.home s.lowLat s.gain e.lim mix
  let e := { e with lim := r.1 }
  let d := if r.2.2 then cnt d (AUD c.home + 0x208) 1 else d
  if !s.lowLat && b = 0 then (d, e)
  else
    let o := if s.lowLat then b else b - 1
    if out o && decide (fwUsed d < d.variant.fwSlots) && (freeSlot d).isSome then
      (encodeCard d c s part, { e with blocks := e.blocks ++ [(o, r.2.1)] })
    else (d, e)
/-- The personal encodes of a conference's participants on pot block `b`: each begins with a copy of its group's encoder. -/
def personalMix (c : Conf) (b : Nat) (pot : List Int) (cs : List Contrib) (d : Dev) (h : Nat) : Dev :=
  match findPart d h with
  | none => d
  | some p =>
    match findStream d p.group with
    | none => modPart d h fun p => { p with pers := [] }
    | some s =>
      let p := if p.pers.any fun x => x.1 == b then { p with enc := { s.enc with blocks := [], frame := [] } } else p
      let last (x : Nat × Option Nat) : Bool := x.2.any fun k => decide (k ≤ b) && (s.lowLat || decide (k + 1 ≤ b))
      let on := p.pers.any fun x => decide (x.1 ≤ b) && !last x
      let r := if on then encodeMix d c s h p.enc b (subBlock pot (own h cs)) (personalAt p) else (d, p.enc)
      modPart r.1 h fun x => { x with enc := r.2, pers := p.pers.filter fun x => !(x.2.any fun k => decide (k + 80 ≤ b)) }
/-- The groups' encodes on pot block `b`. -/
def groupMix (c : Conf) (b : Nat) (pot : List Int) (d : Dev) (h : Nat) : Dev :=
  match findStream d h with
  | none => d
  | some s =>
    let r := encodeMix d c s 0 s.enc b pot fun _ => true
    modStream r.1 h fun x => { x with enc := r.2 }

/-! ### Cascade (R200 to R202) -/

def confPeers (d : Dev) (c : Nat) : List Part := (confParts d c).filter Part.peer
/-- A payload is complete: packets from index 0 to the last one. -/
def payloadDone (ps : List CascPkt) : Bool :=
  match ps.find? CascPkt.last with
  | none => false
  | some l => (List.range (l.index + 1)).all fun i => ps.any fun p => p.index == i
def payloadOf (d : Dev) (part block : Nat) : List CascPkt := d.aud.casc.filter fun p => p.part == part && p.block == block
/-- The members of a peer's payload of block `b` (its stride count's low word), or silence where it is not complete. -/
def peerMembers (c : Conf) (b : Nat) (d : Dev) (p : Part) : Dev × List Contrib :=
  let ps := payloadOf d p.handle (b % 2 ^ 32)
  if !payloadDone ps then
    (raise (cnt d (AUD c.home + 0x210) 1)
      (evTo (evUnit (audUnit c.home) 0x402 1 [(4, c.handle), (4, p.handle), (4, b)]) c.fn), [])
  else
    let ms := (List.range 3).flatMap fun i => ((ps.find? fun q => q.index == i).map CascPkt.members).getD []
    let n := p.peerMax + 1
    let d := if ms.length ≤ n then d
      else raise d (evTo (evUnit (audUnit c.home) 0x404 1 [(4, c.handle), (4, p.handle), (2, ms.length - n)]) c.fn)
    (d, (ms.take n).map fun m => (p.handle, m.1, m.2))
/-- The packets of a payload are freed. -/
def freePayloads (d : Dev) (f : CascPkt → Bool) : Dev :=
  let gone := d.aud.casc.filter f
  gone.foldl (fun d p => releaseMPkt d p.held) { d with aud := { d.aud with casc := d.aud.casc.filter fun p => !f p } }
/-- The pot that a cascaded conference sums with its own contributions of block `n` at hand: the block, its contributions
and pot, and the device with the payloads used and freed. A block from before the conference has no loop-back copy: its
pot is silence. (DEDUCED, log entry 114.) -/
def cascadePot (d : Dev) (c : Conf) (b : Nat) : Dev × List Contrib × List Int :=
  match c.own.find? fun o => o.1 == b with
  | none => (d, [], silence)
  | some o =>
    let r := (confPeers d c.handle).foldl (fun (r : Dev × List Contrib) p =>
      let x := peerMembers c b r.1 p
      (x.1, r.2 ++ x.2)) (d, [])
    let cs := o.2 ++ r.2
    let pot := sumBlocks (cs.map fun x => x.2.2)
    let d := modConf r.1 c.handle fun x =>
      { x with crcs := (x.crcs ++ [(b, potCrc pot)]).drop (x.crcs.length - 15), own := x.own.filter fun o => decide (b < o.1) }
    let peers := (confPeers d c.handle).map Part.handle
    (freePayloads d fun p => peers.contains p.part && decide (sdiff (wd p.block) (wd b) ≤ 0), o.2, pot)
/-- A payload of block `n` goes to every peer by its cascade leg, with the check of the pot of block `b`. -/
def sendPayload (d : Dev) (c : Conf) (n b crc : Nat) (cs : List Contrib) : Dev :=
  let ms := ((cs.map fun x => (x.2.1, x.2.2)).mergeSort fun a b => decide (a.1 ≤ b.1))
  let pkts := payloadPackets 3 0 (n % 2 ^ 32) (b % 2 ^ 32) crc ms
  let head : List Byte := [0x80, 0x60, 0, 0] ++ beBytes (40 * n) 4 ++ [0, 0, 0, 0]
  let legs := d.fwd.legs.filter fun l => l.out && l.media == 2 && (confPeers d c.handle).any fun p => p.handle == l.part
  { d with fwd := { d.fwd with inq := d.fwd.inq ++ legs.flatMap fun l => pkts.map fun k =>
    { src := l.handle, bytes := head ++ k, pic := 40 * n % 2 ^ 32 } } }
/-- CASCADE_PAYLOAD: a packet from a peer. (DEDUCED, log entry 114.) -/
def cascadePayload (d : Dev) (part : Nat) : Dev :=
  match d.aud.cascq.find? fun x => x.1 == part with
  | none => d
  | some (_, k) =>
    let d := { d with aud := { d.aud with cascq := d.aud.cascq.filter fun x => x != (part, k) } }
    match findPart d part, (findPart d part).bind fun p => findConf d p.conf, findMPkt d k with
    | some p, some c, some m =>
      let b := m.pkt.bytes
      let y := b.drop (payloadAt (b.map BitVec.toNat))
      let count := (nth y 1 0).toNat % 16
      let block := beNat (slice y 4 4)
      let check := beNat (slice y 8 4)
      let bad := nth y 0 0 != 1 || decide (8 < count) || decide (y.length < 16 + 124 * count)
      let late := decide ((c.delay : Int) + 1 ≤ sdiff (strideW d) (wd block))
      if bad || late then releaseMPkt d k
      else
        let q : CascPkt := { part := part, block := block, index := (nth y 2 0).toNat, last := (nth y 1 0).toNat.testBit 7,
                             members := readMembers count (y.drop 16), held := k }
        let d := { d with aud := { d.aud with casc := d.aud.casc ++ [q] } }
        let mine := (c.crcs.find? fun x => x.1 % 2 ^ 32 == check).map Prod.snd
        if payloadDone (payloadOf d part block) && mine.any fun x => x != beNat (slice y 12 4) then
          raise (cnt d (AUD c.home + 0x214) 1)
            (evTo (evUnit (audUnit c.home) 0x403 2 [(4, c.handle), (4, p.handle), (4, check)]) c.fn)
        else d
    | _, _, _ => releaseMPkt d k
def execCascadePayload (part : Nat) (s : State) : Host.Outcome State Fault Refusal := onDev (fun d => cascadePayload d part) s

/-! ### The craft port's part (R206) -/

/-- The microphone gives sound: a headset's, with no button, no microphone fault. -/
def micLive (d : Dev) : Bool :=
  let acc := getF d CFT 12 3
  running d ⟨13, 0xFF, 0⟩ && (acc == 2 || acc == 3) && getB d CFT 9 && d.aud.craft.quiet == 0 &&
    !(d.aud.craft.faults.any fun f => f.1 == 1 || f.1 == 4)
/-- The craft contribution of the block just captured, where the port talks to the conference. -/
def craftTalk (d : Dev) (env : BoundaryEnv) (c : Conf) (co : Coef) : Dev × List Contrib :=
  match d.aud.craft.cfg with
  | none => (d, [])
  | some g =>
    if g.conf != c.handle || !g.talk then (d, [])
    else
      let r := biquad co d.aud.craft.hist (if micLive d then block40 env.mic else silence)
      ({ d with aud := { d.aud with craft := { d.aud.craft with hist := r.2 } } }, [(0, g.tag, gainBlock g.talkGain r.1)])
/-- The craft mix of a pot goes to the converter in the next stride. -/
def craftListen (d : Dev) (c : Conf) (pot : List Int) (cs : List Contrib) : Dev :=
  match d.aud.craft.cfg with
  | none => d
  | some g =>
    if g.conf != c.handle || !g.listen then d
    else
      let r := limitMix d c.home true g.listenGain d.aud.craft.lim (subBlock pot (own 0 cs))
      let d := { d with aud := { d.aud with craft := { d.aud.craft with lim := r.1, play := r.2.1 } } }
      if r.2.2 then cnt d (AUD c.home + 0x208) 1 else d

/-! ### One boundary (R198) -/

/-- A group change that has reached a multiple of both frame lengths (R187). -/
def changeGroup (k : SelCfg) (p : Part) : Part :=
  match p.nextGroup with
  | none => p
  | some g =>
    if k.now % frameOf k p.group = 0 && k.now % frameOf k g = 0 then
      { p with group := g, nextGroup := none,
               pers := match p.hand with
                 | some (j, k') => if g = 0 then [] else (p.pers.filter fun x => x.2.any fun e => decide (e ≤ k.now)) ++ [(max j k.now, k')]
                 | none => [] }
    else p
/-- Parameter changes of a conference. -/
def applyChanges (d : Dev) (c : Conf) (k : SelCfg) : Dev :=
  { d with aud :=
    { d.aud with
      parts := d.aud.parts.map fun p => if p.conf == c.handle then changeGroup k (applySets p) else p
      streams := d.aud.streams.map fun s =>
        if s.conf != c.handle then s
        else
          let s := { s with gain := s.nextGain.getD s.gain, nextGain := none }
          if k.now % s.frame = 0 then { s with bitrate := s.nextRate.getD s.bitrate, nextRate := none } else s } }
/-- The 95th percentile of a list by nearest rank, 0 of an empty one. (DEDUCED, log entry 110.) -/
def percentile95 (xs : List Int) : Int := nth (xs.mergeSort fun a b => decide (a ≤ b)) (ceilDiv (95 * xs.length) 100 - 1) 0
/-- The delay that the library adapts toward (R415): the 95th percentile of arrival lateness over the last 2 s, plus one codec
frame. -/
def delayGoal (now : Nat) (p : Part) : Nat :=
  let xs := (p.late.filter fun x => decide (now < x.1 + 2400)).map Prod.snd
  clamp p.jbMin p.jbMax (percentile95 xs + p.frame).toNat
/-- The library's part in the stride just ended: playout delays, which it moves toward their goals by steps of its own, and levels of
blocks without the extension. (DEDUCED, log entry 110.) -/
def libraryStep (env : BoundaryEnv) (k : SelCfg) (p : Part) : Part :=
  let goal := delayGoal k.now p
  let p := match (env.delays.find? fun x => x.1 == p.handle).map Prod.snd with
    | some n => if p.peer || p.late.isEmpty || k.floor * 256 ≤ p.level then p
      else { p with delay := clamp (min p.delay goal) (max p.delay goal) n }
    | none => p
  let p := if !p.levelExt && p.decoded && p.written then { p with vLevel := rmsLevel (decodedBlock env p) } else p
  { p with jb := p.jb.filter fun x => decide (k.now ≤ x.1) }
/-- Report the hand's changes. -/
def handEvents (d : Dev) (c : Conf) (es : List HandEv) : Dev :=
  es.foldl (fun d e =>
    let d := cnt d (AUD c.home + 0x20C) 1
    if c.handEv then
      raise d (evTo (evUnit (audUnit c.home) 0x400 0 [(4, c.handle), (4, e.part), (1, e.join.toNat), (4, e.block)]) c.fn)
    else d) d
/-- The participant is decoded in the stride that starts now; `was` is whether the last boundary made it a candidate
(R189). (DEDUCED, log entry 170.) -/
def startDecoding (k : SelCfg) (was : Bool) (p : Part) : Part :=
  let on := !p.peer && (member p || was || p.always || !p.levelExt)
  if !on then { p with decoded := false, decodeFrom := none, written := false }
  else if p.decoded then { p with written := false }
  else { p with decoded := true, decodeFrom := some k.now, written := false, hist := (0, 0, 0, 0) }
/-- A decode card of the stride (R189). -/
def decodeCard (c : Conf) (d : Dev) (p : Part) : Dev :=
  if !p.decoded then d
  else fwCard d { slot := 0, seq := 0, cls := 0, exec := 1, quarter := c.home, deadline := strideW d, flow := p.handle, fn := p.fn,
                  source := .firmware, owner := p.handle, work := .audioDecode p.handle } false
/-- Replace the participants of a conference. -/
def putParts (d : Dev) (ps : List Part) : Dev :=
  { d with aud := { d.aud with parts := d.aud.parts.map fun x => (ps.find? fun p => p.handle == x.handle).getD x } }
/-- The mixing unit's boundary for one conference: stride `now` has begun, block now − 1 is complete. -/
def confBoundary (env : BoundaryEnv) (d : Dev) (h : Nat) : Dev :=
  match findConf d h with
  | none => d
  | some c =>
    let k := selCfg d c
    let n := k.now - 1
    let d := applyChanges d c k
    let was := (confParts d h).map fun p => (p.handle, p.cand)
    let sel := selectHand k ((confParts d h).map fun p => updateLevel k (libraryStep env k p))
    let d := handEvents d c sel.2
    let co := coefOf d c.home c.hpf
    let fs := sel.1.map fun p => (filterPart env co p)
    let d := blockErrors env d c.home (fs.map Prod.fst)
    let inPot := fs.filter fun f => contributes n f.1
    let d := cnt d (AUD c.home + 0x204) (inPot.filter fun f => !f.1.written).length
    let cs : List Contrib := inPot.map fun f => (f.1.handle, f.1.tag, contribution n f.1 f.2)
    let d := putParts d (fs.map Prod.fst)
    let t := craftTalk d env c co
    let d := t.1
    let cs := cs ++ t.2
    let r : Dev × List Contrib × List Int × Nat :=
      if c.delay = 0 then (d, cs, sumBlocks (cs.map fun x => x.2.2), n)
      else
        let d := modConf d h fun x => { x with own := x.own ++ [(n, cs)] }
        let c := (findConf d h).getD c
        let b := n - c.delay
        let x := cascadePot d c b
        (sendPayload x.1 c n b (potCrc x.2.2) cs, x.2.1, x.2.2, b)
    let d := r.1
    let d := ((confParts d h).map Part.handle).foldl (personalMix c r.2.2.2 r.2.2.1 r.2.1) d
    let d := ((confStreams d h).map AStream.handle).foldl (groupMix c r.2.2.2 r.2.2.1) d
    let d := craftListen d c r.2.2.1 r.2.1
    let ps := (confParts d h).map fun p =>
      let p := { p with hand := if p.hand.any fun x => x.2.any fun k => decide (k ≤ n + 1) then none else p.hand }
      startDecoding k ((was.find? fun w => w.1 == p.handle).any Prod.snd) p
    let d := putParts d ps
    ps.foldl (decodeCard c) d
/-- The mixing units of the quarters at a boundary. -/
def audioBoundary (env : BoundaryEnv) (d : Dev) : Dev :=
  (d.aud.confs.map Conf.handle).foldl (fun d h => match findConf d h with
    | some c => if running d (audUnit c.home) then confBoundary env d h else d
    | none => d) d

/-- AUDIO_MIX_DONE (R198): the waiting encode cards of a quarter are released, the processing time is kept. -/
def audioMixDone (d : Dev) (q us : Nat) : Dev :=
  let w := d.aud.waiting.filter fun x => x.1 == q
  if w.isEmpty || halted d then d
  else
    let d := { d with aud := { d.aud with waiting := d.aud.waiting.filter fun x => x.1 != q } }
    let d := maxReg d (AUD q + 0x218) (min us 65535)
    w.foldl (fun d x => match findCard d x.2 with
      | some c => if c.state == .waiting && c.counter != 0 then runTasks (putCard d { c with counter := 0 }) [.release c.slot] else d
      | none => d) d
def execAudioMixDone (q : Fin 4) (us : Nat) (s : State) : Host.Outcome State Fault Refusal := onDev (fun d => audioMixDone d q.val us) s

/-! ### Releases and queries -/

/-- The participant or stream is gone; what it held returns. -/
def releasePart (d : Dev) (h : Nat) : Dev :=
  let d := freePayloads d fun p => p.part == h
  let gone := d.aud.cascq.filter fun x => x.1 == h
  let d := gone.foldl (fun d x => releaseMPkt d x.2) { d with aud := { d.aud with cascq := d.aud.cascq.filter fun x => x.1 != h } }
  dropRecord { d with aud := { d.aud with parts := d.aud.parts.filter fun p => p.handle != h } } h
def releaseStream (d : Dev) (h : Nat) : Dev :=
  dropRecord { d with aud := { d.aud with streams := d.aud.streams.filter fun s => s.handle != h } } h
/-- A released conference's craft attachment ends with it. -/
def releaseConf (d : Dev) (h : Nat) : Dev :=
  let cr := d.aud.craft
  let mine (g : Option CraftCfg) : Bool := g.any fun x => x.conf == h
  { d with aud := { d.aud with confs := d.aud.confs.filter fun c => c.handle != h
                               craft := { cr with cfg := if mine cr.cfg then none else cr.cfg
                                                  play := if mine cr.cfg then [] else cr.play
                                                  next := if cr.next.any mine then none else cr.next } } }
/-- A stream that a participant names cannot be released (R188). -/
def streamNamed (d : Dev) (h : Nat) : Bool := d.aud.parts.any fun p => p.group == h || p.nextGroup == some h

/-- CORE_CYCLES that an object books. -/
def cyclesOf (o : Obj) : Nat := ((o.books.filter fun b => b.b == 0).map Book.amt).sum
def queryConf (d : Dev) (c : Conf) : List Byte :=
  let ps := confParts d c.handle
  let cyc := ((d.obj.objs.filter fun o => o.handle == c.handle || (o.parent == c.handle && (hKind o.handle == 3 || hKind o.handle == 7))).map
    cyclesOf).sum
  resBytes [(1, c.home + 4 * (fenced d c.home).toNat), (1, (ps.filter (contributes d.tim.stride)).length), (1, c.handMax), (1, c.delay),
    (4, ps.length), (4, cyc)]
/-- (DEDUCED, log entry 44; DEDUCED, log entry 170.) -/
def queryPart (d : Dev) (p : Part) : List Byte :=
  let a := applySets p
  resBytes [(1, (contributes d.tim.stride p).toNat + 2 * p.cand.toNat + 4 * p.decoded.toNat + 8 * a.mute.toNat + 16 * a.deaf.toNat +
      32 * a.pin.toNat + 64 * a.bar.toNat + 128 * p.peer.toNat), (1, p.lambda), (2, p.level), (4, p.nextGroup.getD p.group), (1, p.delay),
    (3, 0)]
def queryStream (d : Dev) (s : AStream) : List Byte :=
  let ps := d.aud.parts.filter fun p => p.group == s.handle && !p.peer && !p.deaf
  let n := (ps.filter fun p => personalAt p d.tim.stride).length
  resBytes [(1, s.codec + 8 * s.lowLat.toNat), (1, s.frame), (2, n), (4, s.bitrate), (4, ps.length - n)]

end Sys2Proof.Machine
end

