-- ==== Sys2Proof/Machine/BrdOps.lean ====
section
/-! DEFINITION. Transmit time-stamp queues (R312, R313), and frames in the Bridle as shared
operations (R290 to R292, R299, R301). -/
namespace Sys2Proof.Machine

/-! ### Transmit time-stamp queues -/

/-- An entry of port `p`'s queue of 32 (R312, R313). -/
def pushTxTs (d : Dev) (p : Nat) (e : TxTs) : Dev :=
  let q := nth d.tim.txts p []
  let a := TIM + 0x200 + 0x10 * p
  if 32 ≤ q.length then
    raiseOnce (satF (putB d a 8 true) a 16 16 1) { code := 0xB06, cls := 1, index := p, detail := [(1, p)], key := p + 1 }
  else
    let d := { d with tim := { d.tim with txts := upd d.tim.txts p (q ++ [e]) } }
    setF d a 0 6 (q.length + 1)

/-! ### Frames -/

/-- Bytes of a frame with padding and FCS (R148). -/
def sentLen (f : TxFrame) : Nat := max 60 f.bytes.length + 4
/-- Wire length (R289). -/
def wireLen (f : TxFrame) : Nat := sentLen f + 20

/-- A frame leaves the device without having been sent: its cells are freed, its time-stamp entry says so, and the TX_FRAME
that waits for it completes with an outcome. (DEDUCED, log entry 149.) -/
def endFrame (d : Dev) (p : Nat) (f : TxFrame) (outcome : Nat) : Dev :=
  let d := freeCells d 0 f.cells 0
  let d := match f.tsId with
    | some i => pushTxTs d p ⟨i, false, 0⟩
    | none => d
  match f.cmd with
  | some c => complete d c ST_OK (resBytes [(2, 0), (1, outcome)])
  | none => d
/-- A frame that a Bridle rule discards: R149 names no outcome for it, so the byte is a free value. (DEDUCED, log entry 149.) -/
def dropFrame (d : Dev) (p : Nat) (f : TxFrame) : Dev :=
  match f.cmd with
  | some _ => (let r := drawFree d 8
               endFrame r.2 p f r.1.toNat)
  | none => endFrame d p f 0

/-! ### Queues -/

def getBrd (d : Dev) (p : Nat) : BrdPort := nth d.brd.ports p {}
def putBrd (d : Dev) (p : Nat) (b : BrdPort) : Dev := { d with brd := { d.brd with ports := upd d.brd.ports p b } }
def getQ (d : Dev) (p q : Nat) : BrdQ := nth (getBrd d p).qs q {}
def putQ (d : Dev) (p q : Nat) (x : BrdQ) : Dev :=
  let b := getBrd d p
  putBrd d p { b with qs := upd b.qs q x }
/-- An event of a queue: at most one record per stride, port and queue. -/
def evBrd (p q code : Nat) (detail : List (Nat × Nat)) : Ev :=
  { evUnit ⟨10, 0xFF, p⟩ code 1 ([(1, p), (1, q)] ++ detail) with key := q + 1 }
def qDepth (d : Dev) (p q : Nat) : Nat := getF d (BRDQ p q + 0x10) 0 24
/-- The depth of a queue changes, with its watermark (R301). -/
def setDepth (d : Dev) (p q n : Nat) : Dev :=
  let old := qDepth d p q
  let a := BRDQ p q
  let w := getF d (a + 0x14) 0 24
  wmStep (setReg d (a + 0x10) (wd n)) (a + 0x14) (a + 0x18) (a + 0x1C) old n (some (evBrd p q 0x842 [(4, n), (4, w)]))
/-- A frame comes to the tail of its queue. -/
def pushQ (d : Dev) (p : Nat) (f : TxFrame) : Dev :=
  let x := getQ d p f.queue
  putQ d p f.queue { x with frames := x.frames ++ [{ f with stride := d.tim.stride, time := d.tim.clock }] }
/-- The head frame leaves its queue; a weighted queue that becomes empty loses its deficit (R293). -/
def popQ (d : Dev) (p q : Nat) : Dev :=
  let x := getQ d p q
  match x.frames with
  | [] => d
  | f :: fs =>
    let d := putQ d p q { x with frames := fs, deficit := if fs.isEmpty then 0 else x.deficit }
    setDepth d p q (qDepth d p q - wireLen f)

/-- The port whose Bridle takes port `p`'s traffic (R145, R299). -/
def brdPort (d : Dev) (p : Nat) : Nat := ((getBrd d p).movedTo).getD p

/-- Entry into the Bridle (R290 to R292): discarded for a standby port or a full queue, else into the queue or the wheel. -/
def enterBridle (d : Dev) (f0 : TxFrame) : Dev :=
  let p := brdPort d f0.port
  let f := { f0 with id := d.brd.nextFrame, port := p }
  let d := { d with brd := { d.brd with nextFrame := d.brd.nextFrame + 1 } }
  let a := BRDQ p f.queue
  if !isActive d p && p == f0.port then dropFrame (cnt d (BRD p + 0x34) 1) p f
  else if getF d (a + 0xC) 0 24 < qDepth d p f.queue + wireLen f then
    dropFrame (raiseOnce (cnt d (a + 0x38) 1) (evBrd p f.queue 0x840 [])) p f
  else
    let d := setDepth d p f.queue (qDepth d p f.queue + wireLen f)
    match f.post with
    | none => pushQ d p f
    | some t =>
      let ahead := ndiff t d.tim.clock
      if ahead ≤ 0 then pushQ d p f
      else if (2 ^ 28 : Int) < ahead then
        pushQ (raiseOnce (cnt d (BRD p + 0x3C) 1) (evBrd p f.queue 0x847 [])) p { f with post := none }
      else
        let b := getBrd d p
        putBrd d p { b with wheel := b.wheel ++ [{ f with time := d.tim.clock }] }

/-- Every frame of a port, queued, in the wheel or in the transmit crossing, is discarded and counts in MAC_TX_FLUSH
(R145). -/
def flushPort (d : Dev) (p : Nat) : Dev :=
  let b := getBrd d p
  let fs := b.qs.flatMap BrdQ.frames ++ b.wheel ++ (getPort d p).txq
  let d := putBrd d p { b with qs := b.qs.map fun x => { x with frames := [], deficit := 0 }, wheel := [] }
  let d := putPort d p { getPort d p with txq := [] }
  let d := (List.range 16).foldl (fun d q => setDepth d p q 0) d
  let d := cnt d (MACP p + 0x64) fs.length
  fs.foldl (fun d f => endFrame d p f 2) d

end Sys2Proof.Machine
end

