-- ==== Sys2Proof/Machine/MemOps.lean ====
section
/-! DEFINITION. HBM as its requesters see it: regions, arenas, uncorrectable units (R320 to R325, R330), and Paddock errors
(R338). -/
namespace Sys2Proof.Machine

def mib : Nat := 1048576
/-- The end of the HBM address space (R320, R323). -/
def hbmSize (v : Variant) : Nat := v.capHbmMib * mib
/-- Bases of the TABLE, RTX and SURFACE regions (R324). -/
def tableBase : Nat := 2048 * mib
def rtxBase (v : Variant) : Nat := tableBase + v.half 512 * mib
def rtxMib (d : Dev) : Nat := getF d (FWD + 8) 0 16
/-- (DEDUCED, log entry 169.) -/
def surfBase (d : Dev) : Nat := rtxBase d.variant + rtxMib d * mib
/-- Size of the SURFACE region in MiB. -/
def surfMib (d : Dev) : Nat := d.variant.capHbmMib - (2048 + d.variant.half 512 + rtxMib d)
/-- The surface-extent ledger takes the capacity that FWD_RTX_DATA leaves (table Ledgers). (DEDUCED, log entry 169.) -/
def fitSurface (d : Dev) : Dev := ledgMod d 6 0 (·.setCap (surfMib d / 2))
/-- The region of an address: 0 FW, 1 TABLE, 2 RTX, 3 SURFACE; none at or above the end. -/
def hbmRegion (d : Dev) (a : Nat) : Option Nat :=
  if a < tableBase then some 0
  else if a < rtxBase d.variant then some 1
  else if a < surfBase d then some 2
  else if a < hbmSize d.variant then some 3
  else none

/-- The 64-byte units that `n` bytes at `a` touch. -/
def unitsOf (a n : Nat) : List Nat := if n = 0 then [] else (List.range ((a + n - 1) / 64 - a / 64 + 1)).map fun i => a / 64 + i
/-- The first unit of an access that reads as uncorrectable (R330). -/
def hbmBadUnit (d : Dev) (a n : Nat) : Option Nat := (unitsOf a n).find? fun u => d.mem.hbmBad.contains u
def hbmBytes (d : Dev) (a n : Nat) : List Byte := spRead d.mem.hbm a n
/-- A write: the units that it writes whole are correctable again (R330); at or above the end of HBM it is discarded (R320). (DEDUCED, log entry 159.) -/
def hbmPut (d : Dev) (a : Nat) (bs : List Byte) : Dev :=
  if hbmSize d.variant ≤ a then d
  else { d with mem := { d.mem with
    hbm := spWrite d.mem.hbm a bs
    hbmBad := d.mem.hbmBad.filter fun u => !(decide (a ≤ 64 * u) && decide (64 * u + 64 ≤ a + bs.length)) } }

/-- The place of a physical address (R321): stack, channel, pseudo-channel of the stack (0 to 31), bank as
sid × 16 + bg × 4 + ba, row, column unit. -/
structure HbmPlace where
  h : Nat
  c : Nat
  pc : Nat
  bank : Nat
  row : Nat
  col : Nat
  deriving DecidableEq, Repr

/-- The parity of a number's bits. -/
def parity (n : Nat) : Nat := ((List.range 37).filter fun i => n.testBit i).length % 2
/-- Output `o` of the mapping. -/
def mapOut (d : Dev) (a o : Nat) : Nat :=
  parity (a &&& (getF d (MEM + 0x44 + 8 * o) 0 5 * 2 ^ 32 + (reg d (MEM + 0x40 + 8 * o)).toNat))
def hbmPlace (d : Dev) (a : Nat) : HbmPlace :=
  let o := mapOut d a
  let low : Nat := match d.variant with | .v2 => 16 | _ => 17
  let ch := o 2 + 2 * o 3 + 4 * o 4 + 8 * o 5
  { h := o 0 + (match d.variant with | .v2 => 0 | _ => 2 * o 1), c := ch, pc := 2 * ch + o 6,
    bank := 16 * (o 7 + 2 * o 8) + 4 * (o 9 + 2 * o 10) + (o 11 + 2 * o 12),
    row := a / 2 ^ (low + 4) % 2 ^ 14, col := a / 2 ^ low % 2 ^ 4 }

/-! ### Errors of a read (R330, R332, R336) -/

/-- The repair record of a row (table Repair record), a candidate. -/
def repairRecord (p : HbmPlace) (stride : Word) : BitVec 64 :=
  BitVec.ofNat 64 (p.h + 4 * p.c + 64 * (p.pc % 2) + 256 * (p.bank / 16) + 1024 * (p.bank / 4 % 4) + 4096 * (p.bank % 4) +
    2 ^ 16 * p.row + 2 ^ 32 * stride.toNat)
/-- The row of a record. -/
def recordKey (r : BitVec 64) : Nat := r.toNat % 2 ^ 14 + 2 ^ 14 * (r.toNat / 2 ^ 16 % 2 ^ 14)
/-- Firmware records a repair candidate once: no spare is left where the bank's is used (R332). (DEDUCED, log entry 161.) -/
def addRepair (d : Dev) (p : HbmPlace) : Dev :=
  let r := repairRecord p (strideW d)
  if (d.sys.repairs.any fun x => recordKey x == recordKey r) || 2048 ≤ d.sys.repairs.length then d
  else
    let used := d.sys.repairs.any fun x => x.toNat % 2 ^ 14 == r.toNat % 2 ^ 14 && x.toNat / 2 ^ 14 % 4 == 1
    let r := if used then BitVec.ofNat 64 (r.toNat + 2 * 2 ^ 14) else r
    let d := cnt { d with sys := { d.sys with repairs := d.sys.repairs ++ [r] } } (MEM + 0x114) 1
    raise d (evDev 0xC05 0 [(8, r.toNat)])
/-- An uncorrectable read of the unit `u`, of a request (0) or the scrub (1). -/
def hbmUe (d : Dev) (u src : Nat) : Dev :=
  let p := hbmPlace d (64 * u)
  let d := cnt d (MEM + 0x104) 1
  let d := raiseOnce d { evDev 0xC02 2 [(1, p.h), (1, p.pc), (8, u), (1, src)] with key := 32 * p.h + p.pc + 1 }
  addRepair d p
/-- A corrected error of the unit `u`: the counts of its group and its row. (DEDUCED, log entry 159.) -/
def hbmCe (d : Dev) (u : Nat) : Dev :=
  let p := hbmPlace d (64 * u)
  let d := satF (cnt d (MEM + 0x100) 1) (MEM + 0x400 + 0x40 * p.h + 4 * p.c) 0 16 1
  let key := recordKey (repairRecord p 0)
  let d := { d with mem := { d.mem with rowCe :=
    (d.mem.rowCe.filter fun e => decide (d.tim.stride < e.2 + 1200)) ++ [(key, d.tim.stride)] } }
  if 8 ≤ (d.mem.rowCe.filter fun e => e.1 == key).length then addRepair d p else d

/-- An access that R320 and R324 refuse. -/
def hbmUnmapped (d : Dev) (u : UnitId) (a : Nat) : Dev :=
  raise d (evUnit u 0xC06 2 [(4, u.cls + 0x100 * u.quarter + 0x10000 * u.index), (8, a)])

/-! ### Arenas (R325) -/

def extent : Nat := 2 * mib
/-- The physical address of an arena's byte; none at or beyond its size. -/
def arenaAddr (d : Dev) (h off : Nat) : Option Nat :=
  match d.mem.arenas.find? fun a => a.1 == h with
  | none => none
  | some a => (a.2[off / extent]?).map fun e => surfBase d + e * extent + off % extent
/-- Bytes of an arena. -/
def arenaSize (d : Dev) (h : Nat) : Nat :=
  match d.mem.arenas.find? fun a => a.1 == h with
  | none => 0
  | some a => a.2.length * extent
/-- Extents of `n` bytes. -/
def extentsFor (n : Nat) : Nat := ceilDiv n extent
/-- The lowest `k` extents that no arena holds and that are not in transit. -/
def pickExtents (d : Dev) (k : Nat) : List Nat :=
  let used := d.mem.arenas.flatMap Prod.snd ++ d.mem.transitExt
  ((List.range (used.length + k)).filter fun e => !used.contains e).take k
/-- The surface-extent ledger covers `k` more extents. -/
def extentsFit (d : Dev) (k : Nat) : Bool := decide (k ≤ ledgFree d 6 0)
/-- An arena of `k` extents for object `h`. -/
def takeArena (d : Dev) (h k : Nat) : Dev :=
  ledgTake { d with mem := { d.mem with arenas := d.mem.arenas ++ [(h, pickExtents d k)] } } 6 0 k
/-- The extents of a released arena go in transit. -/
def dropArena (d : Dev) (h : Nat) : Dev :=
  match d.mem.arenas.find? fun a => a.1 == h with
  | none => d
  | some a =>
    ledgRelease { d with mem := { d.mem with arenas := d.mem.arenas.filter fun x => x.1 != h
                                             transitExt := d.mem.transitExt ++ a.2 } } 6 0 a.2.length
/-- Extents in transit become free at the boundary. -/
def settleExtents (d : Dev) : Dev :=
  ledgLand { d with mem := { d.mem with transitExt := [] } } 6 0 d.mem.transitExt.length

end Sys2Proof.Machine
end

