-- ==== Sys2Proof/Machine/Units.lean ====
section
/-! DEFINITION. UNIT_STOP, UNIT_START and how units reach their states (R76, R77). -/
namespace Sys2Proof.Machine

/-! ### Unit reset (R76, R384) -/

/-- The register window of a unit: (first address, bytes). SEC_KEK_GEN keeps its value (table Register blocks). -/
def unitWindow (u : UnitId) : List (Nat × Nat) :=
  match u.cls with
  | 1 => [(TEAM u.quarter u.index, 0x1000), (MDC u.quarter u.index 0, 0x800)]
  | 5 => [(AUD u.quarter, 0x10000)]
  | 6 => [(DMA u.quarter u.index, 0x40)]
  | 7 => [(PKE, 0x10000)]
  | 8 => [(SEC, 0x100), (SEC + 0x200, 0xE00)]
  | 9 => [(FWD, 0x10000)]
  | 10 => [(BRD u.index, 0x1000)]
  | 12 => [(SDS u.index, 0x40)]
  | _ => [(statusReg u, 0x100)]
/-- Registers of a window return to their reset values. -/
def clearWindow (d : Dev) (ws : List (Nat × Nat)) : Dev :=
  let gone (a : Nat) : Bool := ws.any fun w => decide (w.1 ≤ a) && decide (a < w.1 + w.2)
  { d with regs := spClear d.regs gone, latch := spClear d.latch gone }

/-- A team's cores and memories are cleared (R132). -/
def clearTeam (d : Dev) (q t : Nat) : Dev :=
  let d := setPad d q (spClear (padMem d q) fun a => decide (a / bankSize = 24 + t))
  { d with
    cores := d.cores.filter fun c => !(coreQuarter c.id == q && coreTeam c.id == t)
    mem := { d.mem with
      local_ := d.mem.local_.filter fun e => !(coreQuarter e.1 == q && coreTeam e.1 == t)
      library := d.mem.library.filter fun e => e.1 != 8 * q + t } }

/-- What a unit holds beside its registers and shows in them. (DEDUCED, log entry 58.) -/
def clearUnitState (d : Dev) (u : UnitId) : Dev :=
  match u.cls with
  | 1 => clearTeam d u.quarter u.index
  | 3 => unbookPool d u.quarter u.index
  | 9 => fitSurface d
  | 7 =>
    let ks := d.pke.threads.map Thread.pkt ++ d.pke.recirc
    ks.foldl freePkt { d with pke :=
      { d.pke with threads := [], recirc := [], held := d.pke.held.filter fun h => !ks.any fun k => k.id == h.pkt.id } }
  | 10 =>
    let b := nth d.brd.ports u.index {}
    let b := { b with bucket := 16384000, oper := [], pend := none, forgive := [], shape := List.replicate 17 (0, 16384, false),
                      qs := b.qs.map fun q => { q with bucket := 16384000, sojourn := 0 } }
    let d := { d with brd := { d.brd with ports := upd d.brd.ports u.index b } }
    (List.range 16).foldl (fun d q =>
      let fs := (nth b.qs q {}).frames ++ b.wheel.filter fun f => f.queue == q
      setReg d (BRDQ u.index q + 0x10) (wd ((fs.map fun f => max 60 f.bytes.length + 24).sum))) d
  | 11 => putPort d u.index { txq := (getPort d u.index).txq }
  | 12 => { d with mac := { d.mac with passes := upd d.mac.passes u.index 0, stopped := d.mac.stopped.filter (· != u.index) } }
  | _ => d

/-- UNIT_STOP with reset of a unit in FAULT: registers at their reset values, the unit STOPPED; a power step that failed is
repeated (R373). (DEDUCED, log entry 58.) -/
def resetUnit (d : Dev) (u : UnitId) : Dev :=
  let d := clearUnitState (clearWindow d (unitWindow u)) u
  if d.sys.stepFailed.contains u then
    { d with sys := { d.sys with stepFailed := d.sys.stepFailed.filter (· != u), steps := d.sys.steps ++ [⟨u, 2⟩] } }
  else d

/-! ### Commands -/

/-- Field checks of the unit operand; bit 0 of byte 11 belongs to UNIT_STOP. -/
def unitFields (x : Desc) (stop : Bool) : List (Nat × Bool) :=
  let u := dUnit x
  [(8, decide (1 ≤ u.cls) && decide (u.cls ≤ 13)),
   (9, if u.cls ≤ 5 then decide (u.quarter < 4) else if u.cls = 6 then decide (u.quarter < 4) || u.quarter == 0xFF
       else u.quarter == 0xFF),
   (10, decide (u.index < clsMax u.cls u.quarter)),
   (11, dBits x 11 1 7 == 0 && (stop || dBits x 11 0 1 == 0))] ++ zeros x 12 63

/-- UNIT_STOP (R76). -/
def unitStopAct (d : Dev) (c : Cmd) : Except Fail Act := do
  let x := c.desc
  let u := dUnit x
  noHandle x
  checkFields x (unitFields x true)
  match uState d u with
  | 0 => .error { st := ST_UNIT_STOPPED }
  | 1 => .ok (.wait d)
  | 2 => .ok (.wait (setUState d u 3))
  | 3 => .ok (.wait d)
  | _ => if dBits x 11 0 1 == 1 then .ok (.done (resetUnit d u) []) else .error { st := ST_MODE }

def execUnitStop (fn : Fin 64) (ring : Fin 32) (s : State) : Host.Outcome State Fault Refusal :=
  onDev (runCmd 0x60 fn.val ring.val unitStopAct) s

/-- The owning chapters' checks before a STOPPED unit starts: a port's configuration (R136). The cfg_bad bit of a refused
port is the one thing that a refusal leaves behind. (DEDUCED, log entry 57.) -/
def startCheck (d : Dev) (u : UnitId) : Except Fail Unit :=
  if u.cls = 11 then
    (let t := cfgType d u.index
     if decide (t ≤ 10) && !featOn d 0 (96 + t) then .error { st := ST_FEATURE_OFF }
     else if portCfgOk d u.index then .ok ()
     else .error (badField 10))
  else .ok ()

/-- A compositor's band pool fits in its quarter, or the refusal of R230. -/
def poolCheck (d : Dev) (u : UnitId) : Except Fail Unit :=
  let n := getF d (CMP u.quarter u.index + 4) 0 13
  if u.cls = 3 && !fits d 5 u.quarter n then .error (noCapacity (refusal44 d 5 u.quarter n)) else .ok ()

/-- UNIT_START (R77). -/
def unitStartAct (d : Dev) (c : Cmd) : Except Fail Act := do
  let x := c.desc
  let u := dUnit x
  noHandle x
  checkFields x (unitFields x false)
  match uState d u with
  | 0 =>
    startCheck d u
    poolCheck d u
    .ok (.wait (startUnit (if u.cls = 3 then bookPool d u.quarter u.index none else d) u false))
  | 1 => .ok (.wait d)
  | 2 => .error { st := ST_UNIT_RUNNING }
  | 3 => .error { st := ST_UNIT_STOPPED }
  | _ => .error { st := ST_MODE }

/-- The command at the head of the ring is a UNIT_START of a port whose configuration is refused: cfg_bad sets. -/
def flagCfgBad (d : Dev) (fn ring : Nat) : Dev :=
  match readyCmd d 0x61 fn ring with
  | none => d
  | some c =>
    match unitStartAct d c with
    | .error f =>
      if (dUnit c.desc).cls = 11 && f.st == ST_BAD_FIELD && (startCheck d (dUnit c.desc)).toOption.isNone &&
         (checkFields c.desc (unitFields c.desc false)).toOption.isSome && (staticFail d c).isNone && (modeFail d c).isNone then
        putB d (MACP (dUnit c.desc).index) 9 true
      else d
    | .ok _ => d

def execUnitStart (fn : Fin 64) (ring : Fin 32) (s : State) : Host.Outcome State Fault Refusal :=
  onDev (fun d => runCmd 0x61 fn.val ring.val unitStartAct (flagCfgBad d fn.val ring.val)) s

/-! ### Reaching a state -/

/-- The unit has finished its work in hand (R76, R132, R352). -/
def unitIdle (d : Dev) (u : UnitId) : Bool :=
  (u.cls == 5 || (queueOf d u).all fun s => match findCard d s with
    | some c => !c.done
    | none => true) &&
  match u.cls with
  | 1 => (List.range 8).all fun c =>
      let k := 64 * u.quarter + 8 * u.index + c
      let x := findCore d k
      x.card.isNone && !x.halted && (preemptedOn d k).isNone
  | 5 => !d.aud.waiting.any fun x => x.1 == u.quarter
  | 6 => !d.dma.runs.any fun r => r.unit == u
  | 7 => d.pke.threads.isEmpty && d.pke.recirc.isEmpty
  | 11 => (getPort d u.index).txq.isEmpty
  | _ => true

/-- A unit in STOPPING reaches STOPPED (R76). -/
def execUnitStopped (u : UnitId) (s : State) : Host.Outcome State Fault Refusal :=
  onDev (fun d =>
    if unitPresent d.variant u && uState d u == 3 && unitIdle d u && !halted d then reachStopped d u else d) s

/-- A unit in STARTING whose power step is done reaches RUNNING (R77); a quarter's DMA channels share the step of its
audio mixing unit (R372). -/
def execUnitRunning (u : UnitId) (s : State) : Host.Outcome State Fault Refusal :=
  onDev (fun d =>
    let own := d.sys.steps.any fun s => s.unit == u
    let owner : UnitId := if own then u else if u.cls = 6 && u.quarter != 0xFF then ⟨5, u.quarter, 0⟩
      else if u.cls = 10 then ⟨10, 0xFF, 0⟩ else u
    if unitPresent d.variant u && uState d u == 1 && !(d.sys.steps.any fun s => s.unit == owner && s.kind == 1) && !halted d then
      reachRunning d u
    else d) s

/-- A UNIT_STOP, UNIT_START or MODE_SET that has waited on the unit for the limit ends with ST_TIMEOUT (R76, R374). -/
def timeoutUnit (d : Dev) (u : UnitId) : Dev :=
  let limit := getF d 0x80 0 16
  let d := ((unitCmds d 0x60 u) ++ unitCmds d 0x61 u).foldl (fun d c =>
    if limit ≤ c.strides then
      failId d c.id { st := ST_TIMEOUT, evs := [evUnit u 0x107 1 [(4, dNum c.desc 8 4), (1, uState d u)]] }
    else d) d
  d.sys.changes.foldl (fun d ch =>
    match findCmd d ch.cmd with
    | some c =>
      if ch.stops.contains u && decide (limit ≤ c.strides) then
        let d := { d with sys := { d.sys with changes := d.sys.changes.filter fun x => x.cmd != ch.cmd, reject := 4 } }
        failId (unbookCmd d ch.cmd) ch.cmd { st := ST_TIMEOUT, evs := [evUnit u 0x107 1 [(4, u.cls + 0x100 * u.quarter + 0x10000 * u.index), (1, uState d u)]] }
      else d
    | none => d) d

def execUnitCmdTimeout (u : UnitId) (s : State) : Host.Outcome State Fault Refusal :=
  onDev (fun d => if unitPresent d.variant u && !halted d then timeoutUnit d u else d) s

end Sys2Proof.Machine
end

