-- ==== Sys2Proof/Machine/Modes.lean ====
section
/-! DEFINITION. Modes, fences and quarter resets (R374 to R381), power steps (R372, R373) and the training of the HBM
stacks (R322, R332 to R334). -/
namespace Sys2Proof.Machine

/-! ### Mode rules -/

/-- Whether a MODE_SET from one mode may name another (R375, table Mode transitions). -/
def permits : Mode → Mode → Bool
  | .configure, t => [Mode.train, .bridge, .forward, .audio, .standby, .diagnostic, .haltSafe].contains t
  | .bridge, t => [Mode.forward, .audio, .drain, .haltSafe].contains t
  | .forward, t => [Mode.bridge, .audio, .drain, .haltSafe].contains t
  | .audio, t => [Mode.bridge, .forward, .drain, .haltSafe].contains t
  | .drain, t => [Mode.bridge, .forward, .audio, .configure, .standby, .haltSafe].contains t
  | .standby, t => [Mode.configure, .haltSafe].contains t
  | .diagnostic, t => [Mode.configure, .haltSafe].contains t
  | _, _ => false

/-- Whether a mode runs a unit that modes start and stop (table Modes). -/
def modeRuns (m : Mode) (u : UnitId) : Bool :=
  match m with
  | .bridge | .drain | .degraded => true
  | .forward | .audio => !(u.cls == 2 || u.cls == 3 || u.cls == 4)
  | _ => false

/-- The mode that a MODE_SET names. -/
def modeTarget (x : Desc) : Mode := (Mode.ofCode (dBits x 8 0 4)).getD .reset
/-- The MODE_SETs that have not completed, in acceptance order. -/
def modeWaiting (d : Dev) : List Nat := d.sys.changes.map ModeChange.cmd ++ d.sys.modeDue.map Prod.fst ++ d.sys.modeCmds
/-- The mode that the MODE_SETs accepted before will leave (R377). -/
def modeLeft (d : Dev) : Mode :=
  match (modeWaiting d).getLast?.bind (findCmd d) with
  | some c => modeTarget c.desc
  | none => d.sys.mode

/-- Every present stack is trained and re-centred (R333). -/
def stacksReady (d : Dev) : Bool :=
  (List.range d.variant.stacks).all fun h => getB d MEM (16 + h) && getB d MEM (20 + h)

/-- The compositors that a change to `m` starts and whose band pools are not booked yet. -/
def poolsToBook (d : Dev) (m : Mode) : List UnitId :=
  if !m.service then []
  else (modeUnits d.variant).filter fun u =>
    u.cls == 3 && modeRuns m u && !fenced d u.quarter && uState d u == 0 && !d.sys.pools.any fun p => p.1 == 4 * u.quarter + u.index
/-- Their pools fit together in each quarter (R376). -/
def poolsFit (d : Dev) (us : List UnitId) : Bool :=
  (List.range d.variant.quarters).all fun q =>
    fits d 5 q (((us.filter fun u => u.quarter == q).map fun u => getF d (CMP q u.index + 4) 0 13).sum)
/-- The reject code of R376 for a change from one mode to another, `none` where it is permitted. (DEDUCED, log entry 54.) -/
def modeReject (d : Dev) (src tgt : Mode) : Option Nat :=
  if !permits src tgt then some 1
  else if (tgt == .forward || tgt == .audio) &&
      d.obj.objs.any fun o => hKind o.handle == 5 || hKind o.handle == 6 || (hKind o.handle == 7 && o.media == 1) then some 2
  else if tgt.service && !stacksReady d then some 3
  else if tgt == .train && d.obj.sessions.any fun s => !s.closed then some 6
  else if !poolsFit d (poolsToBook d tgt) then some 7
  else none
/-- A refused MODE_SET. (DEDUCED, log entry 54.) -/
def modeRefused (r : Nat) : Fail := { st := ST_MODE, reject := some r }
/-- Book the pools that a MODE_SET starts. -/
def bookPools (d : Dev) (tgt : Mode) (cmd : Nat) : Dev :=
  (poolsToBook d tgt).foldl (fun d u => bookPool d u.quarter u.index (some cmd)) d

/-- MODE_SET (R374 to R377). -/
def modeSetAct (d : Dev) (c : Cmd) : Except Fail Act := do
  let x := c.desc
  noHandle x
  checkFields x ([(8, dBits x 8 4 4 == 0 && decide (dBits x 8 0 4 < 12))] ++ zeros x 9 63)
  let tgt := modeTarget x
  if tgt == modeLeft d then
    (if (modeWaiting d).isEmpty then .ok (.done d (leBytes (strideW d).toNat 4))
     else .ok (.wait { d with sys := { d.sys with modeCmds := d.sys.modeCmds ++ [c.id] } }))
  else match modeReject d (modeLeft d) tgt with
    | some r => .error (modeRefused r)
    | none => .ok (.wait (bookPools { d with sys := { d.sys with modeCmds := d.sys.modeCmds ++ [c.id] } } tgt c.id))

def execModeSet (fn : Fin 64) (ring : Fin 32) (s : State) : Host.Outcome State Fault Refusal :=
  onDev (runCmd 0x62 fn.val ring.val modeSetAct) s

/-! ### Training (R322, R332 to R334) -/

/-- The home bits of the mapping outputs (R321, R323): output number and bit. -/
def homeBits (v : Variant) : List (Nat × Nat) :=
  match v with
  | .v2 => [(0, 11), (2, 7), (3, 8), (4, 9), (5, 10), (6, 6), (7, 34), (8, 35), (9, 12), (10, 13), (11, 14), (12, 15)]
  | _ => [(0, 11), (1, 12), (2, 7), (3, 8), (4, 9), (5, 10), (6, 6), (7, 35), (8, 36), (9, 13), (10, 14), (11, 15), (12, 16)]
/-- Address bits of the variant. -/
def addrBits (v : Variant) : Nat := match v with | .v2 => 36 | _ => 37
/-- The mask of output `o`: MEM_MAP_HI bits [4:0] above MEM_MAP_LO. -/
def mapMask (d : Dev) (o : Nat) : Nat := getF d (MEM + 0x44 + 8 * o) 0 5 * 2 ^ 32 + (reg d (MEM + 0x40 + 8 * o)).toNat
/-- R322's conditions on one mask. -/
def maskOk (d : Dev) (o home : Nat) : Bool :=
  let m := mapMask d o
  m.testBit home && (homeBits d.variant).all (fun e => e.1 == o || !m.testBit e.2) && m % 64 == 0 &&
  decide (m < 2 ^ addrBits d.variant)
/-- Every writable mask passes. (DEDUCED, log entry 53.) -/
def masksOk (d : Dev) : Bool := (homeBits d.variant).all fun e => e.1 == 7 || e.1 == 8 || maskOk d e.1 e.2

/-- HBM contents are not preserved: nothing is listed, and with the TABLE region go the exact-match table, its entries free again, and its
cache. (DEDUCED, log entry 97.) -/
def clearHbm (d : Dev) : Dev :=
  let d := setF (ledgGive d 4 0 d.pke.em.length) (PKE + 0x100) 0 22 0
  { d with mem := { d.mem with hbm := [], hbmBad := [], pcs := [], answers := [], retrains := [] }
           pke := { d.pke with em := [], cache := [] } }

/-- The stacks' training enters the power-step queue, from the beginning. -/
def queueStacks (d : Dev) : Dev :=
  let d := setF (clearHbm d) MEM 16 12 0
  { d with sys := { d.sys with training := none, trainDone := false,
                               steps := d.sys.steps ++ (List.range d.variant.stacks).map fun h => ⟨⟨0, 0xFF, h⟩, 0⟩ } }

/-- The units powered in TRAIN (R372): those of the quarters, the packet engine, SRTP engines, forwarding stage, Bridle and
craft port, and the ports. -/
def trainUnits (v : Variant) : List UnitId :=
  ((List.range v.quarters).flatMap fun q => (quarterUnits v q).filter fun u => u.cls != 6) ++
  [⟨7, 0xFF, 0⟩, ⟨8, 0xFF, 0⟩, ⟨9, 0xFF, 0⟩, ⟨10, 0xFF, 0⟩] ++ (if v.craft then [⟨13, 0xFF, 0⟩] else []) ++
  (List.range 8).map (UnitId.mk 11 0xFF)

/-- At entry to TRAIN the controllers check their masks and start; where one fails they stay STOPPED (R322, R343). (DEDUCED, log entry 53.) -/
def startControllers (d : Dev) : Dev :=
  if masksOk d then queueStacks (setF d MEM 0 3 2) else raise (putB d MEM 9 true) (evDev 0xC03 2 [(1, 0), (1, 0)])
/-- Entry to TRAIN from BOOT (R371, R372). -/
def enterTrain (d : Dev) : Dev :=
  let d := startControllers (setMode d .train 3)
  { d with sys := { d.sys with trainDone := false, steps := d.sys.steps ++ (trainUnits d.variant).map fun u => ⟨u, 2⟩ } }

/-- The place of a repair record: stack, and the rest of the bank's position (table Repair record). -/
def recStack (r : BitVec 64) : Nat := r.toNat % 4
def recBank (r : BitVec 64) : Nat := r.toNat % 2 ^ 14
def recState (r : BitVec 64) : Nat := r.toNat / 2 ^ 14 % 4
def setRecState (r : BitVec 64) (s : Nat) : BitVec 64 := BitVec.ofNat 64 (r.toNat - recState r * 2 ^ 14 + s * 2 ^ 14)
/-- Soft repair of a stack (R332): each bank has one spare row, and an applied record keeps it. (DEDUCED, log entry 161.) -/
def applyRepairs (h : Nat) : List (BitVec 64) → List Nat → List (BitVec 64)
  | [], _ => []
  | r :: rs, used =>
    if recStack r = h && recState r = 0 then
      (if used.contains (recBank r) then setRecState r 2 :: applyRepairs h rs used
       else setRecState r 1 :: applyRepairs h rs (recBank r :: used))
    else r :: applyRepairs h rs used
/-- Banks whose spare row is used. -/
def usedBanks (rs : List (BitVec 64)) : List Nat := (rs.filter fun r => recState r == 1).map recBank

/-! ### The power-step queue (R372) -/

/-- The queue has run empty: EV_PWR_STAGGER_DONE, and in TRAIN the way to CONFIGURE is open (R375). (DESIGN CHOICE, log entry 68.) -/
def endStagger (d : Dev) : Dev :=
  if !d.sys.stagger || !d.sys.steps.isEmpty || d.sys.training.isSome then d
  else
    let us := (d.tim.clock - d.sys.stagStart) / 1000
    let d := setReg d (PWR + 0xC) (wd us)
    let d := raise d (evDev 0xE41 0 [(4, d.sys.stepsDone), (4, us)])
    { d with sys := { d.sys with stagger := false, trainDone := d.sys.mode == .train } }

/-- The unfence commands of quarters whose steps are done complete, and the quarters leave their fence (R380). -/
def endUnfence (d : Dev) : Dev :=
  d.sys.unfence.foldl (fun d e =>
    if d.sys.steps.any fun s => s.unit.quarter == e.2 then d
    else
      let d := { d with sys := { d.sys with unfence := d.sys.unfence.filter (· != e), fenced := d.sys.fenced.set e.2 false } }
      let d := raise d { code := 0x21, cls := 2, scope := 1, quarter := e.2, detail := [(1, e.2), (1, 0), (1, 0)] }
      complete d e.1 ST_OK [0]) d

/-- The head of the queue may start at time `t`. (DESIGN CHOICE, log entry 68.) -/
def stepDue (d : Dev) (t : Nat) : Bool :=
  timely d t && d.sys.training.isNone && !halted d &&
  (match d.sys.lastStep with
   | none => true
   | some l => decide (l + getF d (PWR + 4) 0 10 * 1000 ≤ t))
/-- The head leaves the queue at time `t`. -/
def popStep (d : Dev) (t : Nat) : Dev :=
  let d := advance d t
  { d with sys :=
    { d.sys with
      steps := d.sys.steps.drop 1
      lastStep := some t
      stepsDone := if d.sys.stagger then d.sys.stepsDone + 1 else 1
      stagStart := if d.sys.stagger then d.sys.stagStart else t
      stagger := true } }

/-- A port powered in TRAIN whose bit is set in PWR_PORT_AUTO starts (R372), if its configuration passes R136. (DEDUCED, log entry 57.) -/
def autoStart (d : Dev) (u : UnitId) : Dev :=
  if u.cls != 11 || !getB d (PWR + 8) u.index || uState d u != 0 then d
  else if portCfgOk d u.index then portStarting (setUState d u 1) u.index
  else putB d (MACP u.index) 9 true

/-- The next power step. -/
def powerStep (d : Dev) (t : Nat) : Dev :=
  match d.sys.steps with
  | [] => d
  | p :: _ =>
    if !stepDue d t then d
    else
      let d := popStep d t
      let d := if p.kind = 0 then { d with sys := { d.sys with training := some (p.unit.index, 0) } }
        else if p.kind = 2 && d.sys.mode == .train then autoStart d p.unit else d
      endUnfence (endStagger d)

def execPowerStep (at_ : Nat) (s : State) : Host.Outcome State Fault Refusal := onDev (fun d => powerStep d at_) s

/-- The units that a step powers: the audio mixing unit's with the quarter's DMA channels, the Bridle's as one. (DEDUCED, log entry 49.) -/
def stepUnits (d : Dev) (p : PStep) : List UnitId :=
  let rest : List UnitId := if p.unit.cls = 5 then (List.range 8).map (UnitId.mk 6 p.unit.quarter)
    else if p.unit.cls = 10 && p.unit.index = 0 then (List.range 7).map fun i => ⟨10, 0xFF, i + 1⟩
    else []
  p.unit :: rest.filter fun u => p.kind == 2 || (uState d u == 1 && !d.sys.steps.any fun s => s.unit == u)

/-- A domain without power-good leaves its unit in FAULT, and the stagger continues (R373). (DEDUCED, log entry 49.) -/
def powerStepFail (d : Dev) (t : Nat) : Dev :=
  match d.sys.steps with
  | [] => d
  | p :: _ =>
    if !stepDue d t then d
    else
      let d := popStep d t
      let d := if p.kind = 0 then d
        else (let us := stepUnits d p
              let d := us.foldl enterFault d
              { d with sys := { d.sys with stepFailed := d.sys.stepFailed ++ us.filter fun u => !d.sys.stepFailed.contains u } })
      let d := raise d (evUnit p.unit 0xE40 2 [(1, p.unit.quarter), (1, p.unit.cls), (1, p.unit.index)])
      endUnfence (endStagger d)

def execPowerStepFail (at_ : Nat) (s : State) : Host.Outcome State Fault Refusal := onDev (fun d => powerStepFail d at_) s

/-- A phase of a stack's training ends (R333): repair, initial training, loaded re-centre. -/
def stackPhase (d : Dev) (h phase : Nat) (ok : Bool) : Dev :=
  if d.sys.training != some (h, phase) || halted d then d
  else if !ok then
    let d := { d with sys := { d.sys with training := none } }
    endStagger (raise (putB d MEM (24 + h) true) (evDev 0xC03 2 [(1, h), (1, phase + 1)]))
  else if phase = 0 then
    { d with sys := { d.sys with training := some (h, 1), repairs := applyRepairs h d.sys.repairs (usedBanks d.sys.repairs) } }
  else if phase = 1 then
    let d := putB d MEM (16 + h) true
    { d with sys := { d.sys with training := some (h, 2) } }
  else
    let d := putB d MEM (20 + h) true
    endStagger { d with sys := { d.sys with training := none } }

def execStackTraining (h : Fin 4) (phase : Fin 3) (ok : Bool) (s : State) : Host.Outcome State Fault Refusal :=
  onDev (fun d => stackPhase d h.val phase.val ok) s

/-! ### Mode changes at the boundary (R374, R377) -/

/-- The units that a change to `m` waits for: those that stop, and those that start. (DEDUCED, log entry 51.) -/
def changeStops (d : Dev) (m : Mode) : List UnitId :=
  if m == .drain then []
  else (modeUnits d.variant).filter fun u => !modeRuns m u && (uState d u == 1 || uState d u == 2 || uState d u == 3)
/-- (DEDUCED, log entry 51.) -/
def changeStarts (d : Dev) (m : Mode) : List UnitId :=
  if m == .drain then []
  else (modeUnits d.variant).filter fun u =>
    modeRuns m u && (u.quarter == 0xFF || !fenced d u.quarter) && (uState d u == 0 || uState d u == 1)

/-- A change that has passed its second check begins. -/
def beginChange (d : Dev) (cmd stride : Nat) (tgt : Mode) : Dev :=
  if tgt == .haltSafe then complete (enterHalt d 0x20 0) cmd ST_OK (leBytes stride 4)
  else if tgt == .train then
    let d := startControllers (setMode d .train 0)
    let d := { d with sys := { d.sys with trainDone := false } }
    complete d cmd ST_OK (leBytes stride 4)
  else
    let d := if d.sys.mode == .standby then
        { d with mem := { d.mem with driftOwed := (List.range d.variant.stacks).flatMap fun h => (List.range 16).map fun c => (h, c) } }
      else d
    let stops := changeStops d tgt
    let starts := changeStarts d tgt
    let d := stops.foldl (fun d u => if uState d u == 2 then setUState d u 3 else d) d
    progressChanges { d with sys := { d.sys with changes := d.sys.changes ++ [⟨cmd, stride, tgt, stops, starts, false⟩] } }

/-- The first due MODE_SET takes its turn (R377). -/
def modeChange (d : Dev) : Dev :=
  if !d.sys.changes.isEmpty || halted d then d
  else match d.sys.modeDue with
    | [] => d
    | (id, stride) :: rest =>
      let d := { d with sys := { d.sys with modeDue := rest } }
      match findCmd d id with
      | none => d
      | some c =>
        let tgt := modeTarget c.desc
        if tgt == d.sys.mode then complete (unbookCmd d id) id ST_OK (leBytes stride 4)
        else match modeReject d d.sys.mode tgt with
          | some r => failId (unbookCmd d id) id (modeRefused r)
          | none => beginChange (bookPools d tgt id) id stride tgt

def execModeChange (s : State) : Host.Outcome State Fault Refusal := onDev modeChange s

/-! ### QUARTER_FENCE (R379, R380) -/

/-- An object holds a booking in a scope of the quarter. -/
def quarterBooked (d : Dev) (q : Nat) : Bool :=
  d.obj.objs.any fun o => o.books.any fun x => budgetQuarter x.b && x.inst == q && x.amt != 0

/-- A quarter reset (R380, R384): memories zeroed, registers at reset, the power steps queued. -/
def quarterReset (d : Dev) (q : Nat) : Dev :=
  let us := quarterUnits d.variant q
  let d := us.foldl (fun d u => clearUnitState (clearWindow d (unitWindow u)) u) d
  let d := setPad d q []
  { d with
    cores := d.cores.filter fun c => coreQuarter c.id != q
    mem := { d.mem with
      local_ := d.mem.local_.filter fun e => coreQuarter e.1 != q
      library := d.mem.library.filter fun e => e.1 / 8 != q }
    sys := { d.sys with
      stepFailed := d.sys.stepFailed.filter fun u => u.quarter != q
      steps := d.sys.steps ++ (us.filter fun u => u.cls != 6).map fun u => ⟨u, 2⟩ } }

/-- (DEDUCED, log entry 55.) -/
def quarterFenceAct (d : Dev) (c : Cmd) : Except Fail Act := do
  let x := c.desc
  let q := dByte x 8
  noHandle x
  checkFields x ([(8, decide (q < 4)), (9, dBits x 9 1 7 == 0)] ++ zeros x 10 63)
  if dBits x 9 0 1 == 0 then
    (if fenced d q then .ok (.done d [1]) else .ok (.done (fenceQuarter d q 0 0x21) [0]))
  else if !fenced d q then .ok (.done d [1])
  else if quarterBooked d q then .error (modeRefused 5)
  else
    let d := if d.sys.unfence.any fun e => e.2 == q then d else quarterReset d q
    .ok (.wait { d with sys := { d.sys with unfence := d.sys.unfence ++ [(c.id, q)] } })

def execQuarterFence (fn : Fin 64) (ring : Fin 32) (s : State) : Host.Outcome State Fault Refusal :=
  onDev (runCmd 0x63 fn.val ring.val quarterFenceAct) s

end Sys2Proof.Machine
end

