-- ==== Sys2Proof/Machine/DefaultRules.lean ====
section
/-! DEFINITION. The default rule set that firmware loads at BOOT (R416): a program of the parse engine that ends every lap
as the table "Verdicts and profiles of the default program" states, and the five entries of the default ACL. The spec gives
what the program decides, not its instructions: these are the model's. -/
namespace Sys2Proof.Machine

/-- A parse instruction (table Parse instruction layout). -/
def pInsn (op wdst wa ib sub imm tgt off wid : Nat) : Nat :=
  op * 2 ^ 58 + wdst * 2 ^ 55 + wa * 2 ^ 52 + ib * 2 ^ 48 + sub * 2 ^ 44 + imm * 2 ^ 28 + tgt * 2 ^ 16 + off * 2 ^ 5 + wid
def pLd (w off n : Nat) : Nat := pInsn 1 w 0 0 0 0 0 off (n - 1)
def pOr (w imm : Nat) : Nat := pInsn 2 w w 1 3 imm 0 0 0
def pBr (wa cond imm tgt : Nat) : Nat := pInsn 3 0 wa 1 cond imm tgt 0 0
def pAdv (n : Nat) : Nat := pInsn 4 0 0 0 0 n 0 0 0
def pAdvW (n wa scale : Nat) : Nat := pInsn 4 0 wa 0 scale n 0 0 0
def pNode : Nat := pInsn 5 0 0 0 0 0 0 0 0
def pKeyw (wa n pos : Nat) : Nat := pInsn 6 0 wa 0 (n - 1) pos 0 0 0
def pKeyp (off n pos : Nat) : Nat := pInsn 7 0 0 0 (n - 1) pos 0 off 0
def pLenchk (wa kind : Nat) : Nat := pInsn 8 0 wa 0 kind 0 0 0 0
def pMeta (kind imm : Nat) : Nat := pInsn 9 0 0 0 kind imm 0 0 0
def pVerd (v : Nat) : Nat := pInsn 10 0 0 0 0 v 0 0 0

/-- From instruction 0: Ethernet and tags. -/
def defaultProg0 : List Nat := [
  pNode, pLd 0 96 16, pAdv 14, pBr 0 1 0x8100 12, pNode, pLd 0 16 16, pAdv 4, pBr 0 1 0x8100 12, pNode,
  pLd 0 16 16, pAdv 4, pBr 0 0 0x8100 16]

/-- From instruction 12: EtherType. -/
def defaultProg12 : List Nat := [
  pBr 0 0 0x800 25, pBr 0 0 0x86DD 45, pBr 0 0 0x88F7 17, pBr 0 0 0x806 19]

/-- From instruction 16: UNKNOWN_NH. -/
def defaultProg16 : List Nat := [
  pVerd 7]

/-- From instruction 17: PTP. -/
def defaultProg17 : List Nat := [
  pMeta 0 7, pVerd 0]

/-- From instruction 19: ARP and neighbour discovery. -/
def defaultProg19 : List Nat := [
  pMeta 0 5, pVerd 0]

/-- From instruction 21: ICMP. -/
def defaultProg21 : List Nat := [
  pMeta 0 6, pVerd 0]

/-- From instruction 23: FRAGMENT. -/
def defaultProg23 : List Nat := [
  pVerd 5]

/-- From instruction 24: IP_OPTIONS. -/
def defaultProg24 : List Nat := [
  pVerd 6]

/-- From instruction 25: IPv4. -/
def defaultProg25 : List Nat := [
  pNode, pLd 1 4 4, pLd 2 16 16, pLenchk 2 0, pLd 3 50 14, pBr 3 1 0x0 23, pBr 1 3 0x6 24, pLd 0 72 8,
  pBr 0 0 0x11 38, pBr 0 0 0x1 21, pBr 0 1 0x3A 16, pAdv 20, pBr 0 4 0x0 96]

/-- From instruction 38: UDP over IPv4: addresses in mapped form. -/
def defaultProg38 : List Nat := [
  pOr 5 0xFFFF, pKeyw 5 2 10, pKeyp 128 4 12, pKeyw 5 2 26, pKeyp 96 4 28, pAdv 20, pBr 0 4 0x0 65]

/-- From instruction 45: IPv6. -/
def defaultProg45 : List Nat := [
  pNode, pLd 2 32 16, pLenchk 2 1, pLd 0 48 8, pKeyp 192 16 0, pKeyp 64 16 16, pAdv 40]

/-- From instruction 52: IPv6 next header. -/
def defaultProg52 : List Nat := [
  pBr 0 0 0x11 65, pBr 0 0 0x3A 96, pBr 0 0 0x1 104, pBr 0 0 0x2C 106, pBr 0 0 0x0 60, pBr 0 0 0x2B 60,
  pBr 0 0 0x3C 60, pBr 0 4 0x0 108]

/-- From instruction 60: hop-by-hop, routing, destination options. -/
def defaultProg60 : List Nat := [
  pNode, pLd 0 0 8, pLd 1 8 8, pAdvW 8 1 3, pBr 0 4 0x0 52]

/-- From instruction 65: UDP. -/
def defaultProg65 : List Nat := [
  pNode, pLd 2 32 16, pLenchk 2 2, pMeta 2 0, pLd 3 16 16, pBr 3 0 0x13F 102, pBr 3 0 0x140 102,
  pKeyp 16 2 32, pKeyp 0 2 34, pBr 2 0 0x8 108, pAdv 8, pNode, pLd 3 0 8, pBr 3 2 0x4 92, pBr 3 2 0x14 108,
  pBr 3 2 0x40 94, pBr 3 2 0x80 108, pBr 3 3 0xC0 108, pLd 4 9 7, pBr 4 2 0x40 89, pBr 4 3 0x60 89,
  pKeyp 32 4 36, pMeta 0 2, pVerd 0]

/-- From instruction 89: RTP. -/
def defaultProg89 : List Nat := [
  pKeyp 64 4 36, pMeta 0 1, pVerd 0]

/-- From instruction 92: STUN. -/
def defaultProg92 : List Nat := [
  pMeta 0 3, pVerd 0]

/-- From instruction 94: DTLS. -/
def defaultProg94 : List Nat := [
  pMeta 0 4, pVerd 0]

/-- From instruction 96: ICMPv6. -/
def defaultProg96 : List Nat := [
  pNode, pLd 3 0 8, pBr 3 2 0x85 104, pBr 3 3 0x8A 104, pOr 6 0x1, pBr 0 4 0x0 109]

/-- From instruction 102: PTP over UDP. -/
def defaultProg102 : List Nat := [
  pOr 6 0x2, pBr 0 4 0x0 109]

/-- From instruction 104: other ICMP. -/
def defaultProg104 : List Nat := [
  pOr 6 0x3, pBr 0 4 0x0 109]

/-- From instruction 106: IPv6 fragment. -/
def defaultProg106 : List Nat := [
  pOr 6 0x4, pBr 0 4 0x0 109]

/-- From instruction 108: not followed. -/
def defaultProg108 : List Nat := [
  pOr 6 0x5]

/-- From instruction 109: the key is cleared, then the end that w6 names. -/
def defaultProg109 : List Nat := [
  pKeyw 7 4 0, pKeyw 7 4 4, pKeyw 7 4 8, pKeyw 7 4 12, pKeyw 7 4 16, pKeyw 7 4 20, pKeyw 7 4 24,
  pKeyw 7 4 28, pKeyw 7 4 32, pKeyw 7 4 36, pBr 6 0 0x1 19, pBr 6 0 0x2 17, pBr 6 0 0x3 21, pBr 6 0 0x4 23,
  pBr 0 4 0x0 16]

/-- The default program. (DESIGN CHOICE, log entry 95.) -/
def defaultProg : List Nat :=
  defaultProg0 ++ defaultProg12 ++ defaultProg16 ++ defaultProg17 ++ defaultProg19 ++ defaultProg21 ++
  defaultProg23 ++ defaultProg24 ++ defaultProg25 ++ defaultProg38 ++ defaultProg45 ++ defaultProg52 ++
  defaultProg60 ++ defaultProg65 ++ defaultProg89 ++ defaultProg92 ++ defaultProg94 ++ defaultProg96 ++
  defaultProg102 ++ defaultProg104 ++ defaultProg106 ++ defaultProg108 ++ defaultProg109

/-- An entry of the default ACL: profile, and slow-path class. -/
def defaultAclRow (i : Nat) (e : Nat × Nat) : AclRow :=
  { idx := i
    value := List.replicate 40 0 ++ [BitVec.ofNat 8 e.1, 0, 0, 0]
    mask := List.replicate 40 0 ++ [0x0F, 0xFF, 0, 0]
    action := BitVec.ofNat 128 (1 + 256 * e.2) }
/-- The default ACL (table Default ACL). -/
def defaultAcl : List AclRow :=
  [defaultAclRow 0 (3, 4), defaultAclRow 1 (4, 5), defaultAclRow 2 (5, 6), defaultAclRow 3 (6, 8), defaultAclRow 4 (7, 7)]

/-- A program as the engine holds it: instruction `i` at index `i`. -/
def progOf : Nat → List Nat → Sparse 64
  | _, [] => []
  | i, x :: xs => (i, BitVec.ofNat 64 x) :: progOf (i + 1) xs

end Sys2Proof.Machine
end

