-- ==== Sys2Proof/Machine/Ports.lean ====
section
/-! DEFINITION. Links, lanes and roles of the backplane ports (R135 to R145). -/
namespace Sys2Proof.Machine

/-- A RUNNING port in a link state, on a device that is not frozen. -/
def portIn (d : Dev) (p s : Nat) : Bool := uState d (portUnit p) == 2 && link d p == s && !halted d

/-! ### The line check and type resolution -/

/-- One finding of the line check: codes 3 to 6 on a lane of the port whose check is enabled (table Lane fault detection). -/
def lineFault (d : Dev) (p : Nat) (f : LaneFound) : Dev :=
  let l := f.lane.val
  if (cfgLanes d p).contains l && laneUsable d l && getB d (SDS l + 4) 3 && decide (3 ≤ f.code) && decide (f.code ≤ 6) then
    faultLane d l f.code f.second.val
  else d
/-- The line check ends (R143, R144). (DEDUCED, log entry 87.) -/
def lineCheck (d : Dev) (p : Nat) (found : List LaneFound) : Dev :=
  if portIn d p 1 then endCheck (found.foldl (fun d f => lineFault d p f) d) p else d
def execLineCheck (p : Fin 8) (found : List LaneFound) (s : State) : Host.Outcome State Fault Refusal :=
  onDev (fun d => lineCheck d p.val found) s

/-- The types that a port advertises (R138). (DEDUCED, log entry 89.) -/
def advertises (d : Dev) (p t : Nat) : Bool :=
  if isDegraded d p then t == typeNow d p else decide (t ≤ 9) && getB d (MACP p + 8) t
/-- The priority order of Clause 73, highest first: by rate, then by fewer lanes. (PRESUMED, log entry 200.) -/
def anOrder : List Nat := [9, 7, 8, 4, 5, 6, 3, 2, 1, 0]
/-- The FEC that Clause 73 resolves for a type from both sides' requests (R138). (PRESUMED, log entry 200.) -/
def anFec (d : Dev) (p t : Nat) (x : AnPartner) : Nat :=
  let mine := getF d (MACP p + 4) 10 2
  let asks (f : Nat) : Bool := mine == f || x.fec.val == f
  match t with
  | 1 => if asks 1 && x.baseR then 1 else 0
  | 2 => if asks 2 then 2 else if asks 1 then 1 else 0
  | _ => (typeFec t).headD 0
/-- What auto-negotiation finds: the highest common type and its FEC, or by parallel detection a signal of 1G-1L or 10G-1L with no FEC
(R138). -/
def anFinds (d : Dev) (p : Nat) (x : AnPartner) : Option (Nat × Nat) :=
  let can (t : Nat) : Bool := advertises d p t && decide (typeLanes t ≤ (getPort d p).group.length)
  match x.parallel with
  | some t => if can t.val then some (t.val, 0) else none
  | none => (anOrder.find? fun t => can t && x.types.contains t).map fun t => (t, anFec d p t x)
/-- Clause 73 resolves a type on the port's group (R138). (DEDUCED, log entry 89.) -/
def anResolve (d : Dev) (p : Nat) (x : AnPartner) : Dev :=
  match portIn d p 2, anFinds d p x with
  | true, some (t, f) =>
    let d := putPort d p { getPort d p with group := (getPort d p).group.take (typeLanes t) }
    afterType (fitRole (setTypeNow d p t f) p) p
  | _, _ => d
def execAnResolve (p : Fin 8) (partner : AnPartner) (s : State) : Host.Outcome State Fault Refusal :=
  onDev (fun d => anResolve d p.val partner) s

/-! ### Training and alignment -/

/-- A receive lane that finds its data inverted or not (R140). -/
def polarity (d : Dev) (p l : Nat) (inv : Bool) : Dev :=
  match getF d (SDS l + 4) 1 2 with
  | 0 =>
    let d := putB d (SDS l) 17 inv
    let x := getPort d p
    if inv && !x.polarity.contains l then
      raise (putPort d p { x with polarity := x.polarity ++ [l] }) (evUnit (laneUnit l) 0xA12 0 [(1, l)])
    else d
  | 1 => putB d (SDS l) 17 false
  | _ => putB d (SDS l) 17 true
/-- The port's group with its positions. -/
def groupLanes (d : Dev) (p : Nat) : List (Nat × Nat) := (List.range (getPort d p).group.length).zip (getPort d p).group

/-- Training completes (R139): taps and inversions by lane of the group. -/
def trainingDone (d : Dev) (p : Nat) (taps : List Word) (inv : List Bool) : Dev :=
  if !portIn d p 3 then d
  else
    let d := (groupLanes d p).foldl (fun d e =>
      let d := setReg (putB d (SDS e.2) 19 true) (SDS e.2 + 8) (nth taps e.1 0 &&& 0xFFFFFF)
      polarity d p e.2 (nth inv e.1 false)) d
    setLink d p 4
def execTrainingDone (p : Fin 8) (taps : List Word) (inverted : List Bool) (s : State) : Host.Outcome State Fault Refusal :=
  onDev (fun d => trainingDone d p.val taps inverted) s

/-- The training timer expires (R139): three failures in a row raise EV_MAC_AN_FAIL once. -/
def trainTimeout (d : Dev) (p : Nat) : Dev :=
  if !portIn d p 3 then d
  else
    let x := getPort d p
    let d := setLink (putPort d p { x with fails := x.fails + 1, failRaised := x.failRaised || decide (3 ≤ x.fails + 1) }) p 0
    if decide (3 ≤ x.fails + 1) && !x.failRaised then raise d (evUnit (portUnit p) 0xA04 2 [(1, p), (1, 3)]) else d
def execTrainTimeout (p : Fin 8) (s : State) : Host.Outcome State Fault Refusal := onDev (fun d => trainTimeout d p.val) s

/-- Alignment completes (R141): `order` gives the logical lane that each lane of the group carries, `skew` the deskew measured. -/
def linkComesUp (d : Dev) (p : Nat) (order : List Nat) (inv : List Bool) (skew : Nat) : Dev :=
  let n := (getPort d p).group.length
  if !portIn d p 4 || order.length != n || !(List.range n).all fun i => order.contains i then d
  else
    let d := (groupLanes d p).foldl (fun d e =>
      polarity (putB (setF d (SDS e.2) 20 3 (nth order e.1 0)) (SDS e.2) 18 true) p e.2 (nth inv e.1 false)) d
    let d := setLink (putPort d p { getPort d p with fails := 0, failRaised := false, deskew := if 1 < n then skew else 0 }) p 5
    let d := if 1 < n && order == (List.range n).reverse then raise d (evUnit (portUnit p) 0xA13 0 [(1, p), (1, n)]) else d
    let d := raise d (evUnit (portUnit p) 0xA00 0 [(1, p), (1, typeNow d p), (1, fecNow d p), (1, getF d (MACP p) 24 8)])
    if isDegraded d p then raise d (evUnit (portUnit p) 0xA02 1 [(1, p), (1, cfgType d p), (1, typeNow d p)]) else d
def execLinkUp (p : Fin 8) (order : List Nat) (inverted : List Bool) (deskew : Nat) (s : State) : Host.Outcome State Fault Refusal :=
  onDev (fun d => linkComesUp d p.val order inverted deskew) s

/-- Alignment or signal is lost on a lane in use (table Link states). -/
def execLinkDown (p : Fin 8) (lane : Fin 16) (s : State) : Host.Outcome State Fault Refusal :=
  onDev (fun d =>
    if portIn d p.val 5 && (getPort d p.val).group.contains lane.val then loseLink d p.val lane.val else d) s

/-- The retry interval ends (R139). -/
def execLinkRetry (p : Fin 8) (s : State) : Host.Outcome State Fault Refusal :=
  onDev (fun d => if portIn d p.val 0 then setLink d p.val 1 else d) s

/-! ### Lane faults (R142, R143) -/

/-- Whether a fault code can be found on a lane of a port now (table Lane fault detection). -/
def faultPossible (d : Dev) (p l code : Nat) : Bool :=
  code == 1 || code == 2 || (decide (3 ≤ code) && decide (code ≤ 6) && link d p == 1 && getB d (SDS l + 4) 3) ||
  (code == 7 && (link d p == 3 || link d p == 4))
/-- A fault on a lane of a started port; the link that uses the lane leaves its state. -/
def laneFails (d : Dev) (l code second : Nat) : Dev :=
  match portOfLane d l with
  | none => d
  | some p =>
    if uState d (laneUnit l) != 2 || laneExcluded d l || !faultPossible d p l code || halted d then d
    else
      let used := (getPort d p).group.contains l
      let s := link d p
      let d := if used then loseLink d p l else d
      let d := faultLane d l code second
      if used && (s == 2 || s == 3 || s == 4) then setLink d p 0 else d
def execLaneFault (lane : Fin 16) (code : Nat) (second : Fin 16) (s : State) : Host.Outcome State Fault Refusal :=
  onDev (fun d => laneFails d lane.val code second.val) s

/-- A recheck of an excluded lane (R143): three passes in a row clear it. -/
def laneRecheck (d : Dev) (l : Nat) (pass : Bool) : Dev :=
  if !laneExcluded d l || getF d (SDS l) 12 4 == 0 || d.mac.stopped.contains l || halted d then d
  else
    let n := if pass then nth d.mac.passes l 0 + 1 else 0
    if n < 3 then { d with mac := { d.mac with passes := upd d.mac.passes l n } }
    else
      let d := { d with mac := { d.mac with passes := upd d.mac.passes l 0 } }
      let d := putB (setF d (SDS l) 12 4 0) (SDS l) 16 false
      let d := raise d (evUnit (laneUnit l) 0xA11 0 [(1, l)])
      match portOfLane d l with
      | some p =>
        if linkUp d p && getB d (MACP p + 4) 14 && !(getPort d p).group.contains l then
          putPort d p { getPort d p with retrain := true }
        else d
      | none => d
def execLaneRecheck (lane : Fin 16) (pass : Bool) (s : State) : Host.Outcome State Fault Refusal :=
  onDev (fun d => laneRecheck d lane.val pass) s

/-- At the boundary, a port whose lanes have cleared retrains at full width (R143). (DEDUCED, log entry 88.) -/
def retrainPorts (d : Dev) : Dev :=
  (List.range 8).foldl (fun d p =>
    let x := getPort d p
    if x.retrain && linkUp d p then setLink (putPort (leaveUp d p) p { getPort (leaveUp d p) p with retrain := false }) p 1
    else d) d

/-! ### Roles and failover (R137, R145) -/

def execRoleWrite (p : Fin 8) (val : Word) (s : State) : Host.Outcome State Fault Refusal :=
  onDev (fun d => writeRole d p.val val) s

/-- The boundary after an active port's link left UP: the swap with its partner, or its refusal. -/
def failover (d : Dev) (p : Nat) : Dev :=
  match (getPort d p).failPend with
  | none => d
  | some s =>
    if d.tim.stride ≤ s || halted d then d
    else
      let d := putPort d p { getPort d p with failPend := none }
      if !isActive d p || !getB d (MACP p + 0xC) 8 || linkUp d p then d
      else
        let r := partner d p
        let ok := r != p && portStarted d r && !isActive d r && linkUp d r && decide (activeSum d p + portRate d r ≤ 800)
        if !ok then raise d (evUnit (portUnit p) 0xA03 1 [(1, p), (1, r), (1, 1)])
        else
          let d := flushPort (setRole (setRole d p false) r true) p
          let d := putBrd d p { getBrd d p with movedTo := some r }
          let d := putBrd d r { getBrd d r with movedTo := none }
          raise d (evUnit (portUnit p) 0xA03 1 [(1, p), (1, r), (1, 0)])
def execFailover (p : Fin 8) (s : State) : Host.Outcome State Fault Refusal := onDev (fun d => failover d p.val) s

end Sys2Proof.Machine
end

