-- ==== Sys2Proof/Machine/MacFrames.lean ====
section
/-! DEFINITION. Frames at the MAC (R146 to R150, R310 to R313): reception, transmission, PAUSE and PFC, TX_FRAME. -/
namespace Sys2Proof.Machine

/-! ### Time-stamps (R310, R311) -/

/-- Receive and transmit corrections in tenths of a nanosecond, by type and FEC (table Time-stamp corrections). (DEDUCED, log entry 156.) -/
def stampCorr (t fec : Nat) : Nat × Nat :=
  match t, fec with
  | 0, _ => (2368, 1640)
  | 1, 0 => (848, 624) | 1, _ => (1312, 704)
  | 2, 0 => (465, 349) | 2, 1 => (722, 388) | 2, _ => (1687, 524)
  | 3, _ => (1526, 483) | 4, _ => (1184, 412) | 5, _ => (1469, 440) | 6, _ => (1325, 397) | 7, _ => (1041, 336)
  | 8, _ => (1288, 362) | 9, _ => (927, 285) | _, _ => (1103, 309)
/-- Tenths of a nanosecond, and eighths, in units of 2^−16 ns. -/
def tenths (n : Nat) : Nat := n * 65536 / 10
def eighths (n : Nat) : Nat := n * 8192
/-- The time-stamp word of an instant in units of 2^−16 ns (table Time formats). -/
def stampWord (t : Nat) : Nat := t / 65536 % 2 ^ 48 + t % 65536 * 2 ^ 48
/-- The receive stamp; the correction of a multi-lane type includes the deskew of the last link-up (R310). -/
def rxStamp (d : Dev) (p capture : Nat) : Nat :=
  stampWord (capture - tenths (stampCorr (typeNow d p) (fecNow d p)).1 - (getPort d p).deskew - eighths (getF d (TIM + 0x60 + 4 * p) 0 16))
def txStamp (d : Dev) (p capture : Nat) : Nat :=
  stampWord (capture + tenths (stampCorr (typeNow d p) (fecNow d p)).2 + eighths (getF d (TIM + 0x60 + 4 * p) 16 16))

/-- A frame's wire time in ps at the port's rate (R289). -/
def wireTime (d : Dev) (p n : Nat) : Nat := n * 8000 / portRate d p

/-! ### PAUSE and PFC (R150) -/

/-- Picoseconds of `n` quanta at the port's rate. -/
def quantaPs (d : Dev) (p n : Nat) : Nat := n * (512000 / portRate d p)
/-- The link is paused, or a priority is, at a time in ps. -/
def linkPaused (d : Dev) (p t : Nat) : Bool := decide (t < (getPort d p).pauseEnd)
def prioPaused (d : Dev) (p i t : Nat) : Bool := decide (t < nth (getPort d p).pfcEnd i 0)
/-- A PAUSE or PFC frame that ends at `t` ps loads the timers. (DEDUCED, log entry 94.) -/
def loadPause (d : Dev) (p t : Nat) (pfc : Bool) (enables : Nat) (quanta : List Nat) : Dev :=
  let cfg := MACP p + 0x14
  if pfc then
    if !getB d cfg 1 then d
    else (List.range 8).foldl (fun d i =>
      if enables.testBit i then
        let n := nth quanta i 0 % 65536
        let x := getPort d p
        putB (putPort d p { x with pfcEnd := upd x.pfcEnd i (if n = 0 then 0 else t + quantaPs d p n) }) (MACP p + 0x18) i (n != 0)
      else d) d
  else if getB d cfg 1 || !getB d cfg 0 then d
  else
    let n := nth quanta 0 0 % 65536
    putB (putPort d p { getPort d p with pauseEnd := if n = 0 then 0 else t + quantaPs d p n }) (MACP p + 0x18) 8 (n != 0)

/-- The port discards what it receives and counts it in MAC_RX_FRAMES only (R137, R376, R381). -/
def rxBlind (d : Dev) (p : Nat) : Bool := halted d || d.sys.mode == .standby || !isActive d p
/-- The port receives: started, with its link UP. -/
def receives (d : Dev) (p : Nat) : Bool := portStarted d p && linkUp d p

def pauseFrame (d : Dev) (p t : Nat) (pfc : Bool) (enables : Nat) (quanta : List Nat) : Dev :=
  if !receives d p || !timely d t then d
  else
    let d := advance d t
    if rxBlind d p then cnt d (MACP p + 0x40) 1
    else loadPause (cnt d (MACP p + 0x58) 1) p (1000 * t) pfc enables quanta
def execPauseFrame (p : Fin 8) (at_ : Nat) (pfc : Bool) (enables : BitVec 8) (quanta : List Nat) (s : State) :
    Host.Outcome State Fault Refusal :=
  onDev (fun d => pauseFrame d p.val at_ pfc enables.toNat quanta) s

/-- A pause timer reaches zero. -/
def pauseExpiry (d : Dev) (p t : Nat) (prio : Option Nat) : Dev :=
  if !timely d t || halted d then d
  else match prio with
    | none => if linkPaused d p (1000 * t) then d else putB (advance d t) (MACP p + 0x18) 8 false
    | some i => if prioPaused d p i (1000 * t) then d else putB (advance d t) (MACP p + 0x18) i false
def execPauseExpiry (p : Fin 8) (at_ : Nat) (prio : Option (Fin 8)) (s : State) : Host.Outcome State Fault Refusal :=
  onDev (fun d => pauseExpiry d p.val at_ (prio.map Fin.val)) s

/-! ### Reception (R146, R147, R152, R153) -/

/-- A MAC control frame: a PAUSE or PFC frame among them acts at the clock's time. (DEDUCED, log entry 94.) -/
def controlFrame (d : Dev) (p : Nat) (bytes : List Byte) : Dev :=
  let d := cnt d (MACP p + 0x58) 1
  let t := 1000 * d.tim.clock
  match beNat (slice bytes 14 2) with
  | 0x0001 => loadPause d p t false 0 [beNat (slice bytes 16 2)]
  | 0x0101 => loadPause d p t true (beNat (slice bytes 16 2)) ((List.range 8).map fun i => beNat (slice bytes (18 + 2 * i) 2))
  | _ => d

/-- A frame's cells as MAC credit, and what it stores (R153): the cells it does not fill return. (DEDUCED, log entry 92.) -/
def storeFrame (d : Dev) (p : Nat) (bytes : List Byte) (oversize : Bool) (stamp : Nat) (aborted : Bool) : Dev :=
  let need := cellsFor (maxFrame d p - 4)
  if portFree d p + poolFree d < need then cnt d (MACP p + 0x50) 1
  else
    let d := ledgIssue d 0 0 need
    if aborted then cnt (ledgLand d 0 0 need) (MACP p + 0x54) 1
    else
      let n := cellsFor bytes.length
      let r := min n (portFree d p)
      let d := ledgLand (ledgArrive d 0 0 n) 0 0 (need - n)
      let k : Pkt := { id := d.pke.nextPkt, port := p, bytes := bytes, oversize := oversize, rxTime := stamp, cells := n, fromReserve := r }
      let d := { d with pke :=
        { d.pke with
          nextPkt := d.pke.nextPkt + 1
          ready := d.pke.ready ++ [k]
          portUsed := upd d.pke.portUsed p (nth d.pke.portUsed p 0 + r)
          poolUsed := d.pke.poolUsed + (n - r) } }
      cnt d (MACP p + if oversize then 0x4C else 0x40) 1

/-- The FCS that ends a frame is right (R146). (DEDUCED, log entry 92.) -/
def fcsGood (bytes : List Byte) : Bool := leNat (bytes.drop (bytes.length - 4)) == crc32 (bytes.take (bytes.length - 4))
/-- A frame arrives, FCS included (table Receive frame handling); `fifoFull` is set when the crossing FIFO fills. (DEDUCED, log entry 92.) -/
def receiveFrame (d : Dev) (p : Nat) (bytes : List Byte) (capture : Nat) (fifoFull : Option Nat) : Dev :=
  if !receives d p then d
  else if rxBlind d p then cnt d (MACP p + 0x40) 1
  else if bytes.length < 64 then cnt d (MACP p + 0x44) 1
  else if !fcsGood bytes then cnt d (MACP p + 0x48) 1
  else if beNat (slice bytes 12 2) == 0x8808 then controlFrame d p bytes
  else
    let excess := decide (maxFrame d p < bytes.length)
    storeFrame d p (bytes.take (min bytes.length (maxFrame d p) - 4)) excess (rxStamp d p capture) fifoFull.isSome

def execFrameReceive (p : Fin 8) (bytes : List Byte) (capture : Nat) (fifoFull : Option Nat) (s : State) :
    Host.Outcome State Fault Refusal :=
  onDev (fun d => receiveFrame d p.val bytes capture fifoFull) s

/-! ### Transmission (R148, R149) -/

/-- A frame with padding and FCS. -/
def wireBytes (f : TxFrame) : List Byte :=
  let b := f.bytes ++ List.replicate (60 - f.bytes.length) 0
  b ++ leBytes (crc32 b) 4

/-- The MAC starts the frame that the Bridle has handed over; `capture` is the instant of its first bit, eight bytes into its wire
time: a start later than the Bridle projected moves the end on the wire that the next selection looks to (R288). (DEDUCED, log entry
199.) -/
def macTransmit (d : Dev) (p capture : Nat) : Dev :=
  match (getPort d p).txq with
  | [] => d
  | f :: fs =>
    if halted d || linkPaused d p (capture * 1000 / 65536) then d
    else
      let d := putPort d p { getPort d p with txq := fs }
      if !linkUp d p then endFrame d p f 1
      else if !isActive d p then dropFrame d p f
      else if maxFrame d p < sentLen f then dropFrame (cnt d (MACP p + 0x60) 1) p f
      else
        let d := emitOut (cnt d (MACP p + 0x5C) 1) (.frame p (wireBytes f))
        let b := getBrd d p
        let d := putBrd d p { b with busyUntil := max b.busyUntil (capture * 1000 / 65536 + wireTime d p (wireLen f - 8)) }
        let d := freeCells d 0 f.cells 0
        let d := match f.tsId with
          | some i => pushTxTs d p ⟨i, true, txStamp d p capture⟩
          | none => d
        match f.cmd with
        | some c => complete d c ST_OK (resBytes [(2, sentLen f), (1, 0)])
        | none => d
def execMacTransmit (p : Fin 8) (capture : Nat) (s : State) : Host.Outcome State Fault Refusal :=
  onDev (fun d => macTransmit d p.val capture) s

/-- TX_FRAME (R149). (DEDUCED, log entry 93.) -/
def txFrameAct (frame : HostRead) (d : Dev) (c : Cmd) : Except Fail Act := do
  let x := c.desc
  let p := dBits x 8 0 3
  let n := dNum x 12 2
  noHandle x
  checkFields x ([(8, dBits x 8 3 5 == 0), (9, dBits x 9 4 4 == 0), (10, dBits x 10 1 7 == 0), (11, dByte x 11 == 0),
    (12, decide (1 ≤ n) && decide (n < 2 ^ 14))] ++ zeros x 24 63)
  require (uState d (portUnit p) == 2 && uState d ⟨10, 0xFF, p⟩ == 2) { st := ST_UNIT_STOPPED }
  require (decide (n + 4 ≤ maxFrame d p)) { st := ST_LENGTH_LIMIT }
  match frame with
  | .fail a => .error (busError c a.toNat)
  | .ok bs =>
    if poolFree d < cellsFor n then .ok (.stay d)
    else
      let f : TxFrame :=
        { id := 0, port := p, queue := dBits x 9 0 4, bytes := padTo bs n, cells := cellsFor n, cmd := some c.id,
          tsId := if dBits x 10 0 1 == 1 then some (dNum x 14 2) else none }
      .ok (.wait (enterBridle (takeCells d f.cells) f))

/-- (DEDUCED, log entry 93.) -/
def execTxFrame (fn : Fin 64) (ring : Fin 32) (frame : HostRead) (s : State) : Host.Outcome State Fault Refusal :=
  onDev (runCmd 0x58 fn.val ring.val (txFrameAct frame)) s

end Sys2Proof.Machine
end

