-- ==== Sys2Proof/Machine/PktOps.lean ====
section
/-! DEFINITION. The packet engine's shared operations (R152 to R164): lookups, actions, order restoration, slow path. -/
namespace Sys2Proof.Machine

/-! ### Action words (table Action word) -/

def actByte (a : BitVec 128) (i : Nat) : Nat := a.toNat / 256 ^ i % 256
def actKind (a : BitVec 128) : Nat := actByte a 0 % 16
def actCount (a : BitVec 128) : Bool := a.toNat.testBit 4
def actClass (a : BitVec 128) : Nat := actByte a 1 % 16
def actCounter (a : BitVec 128) : Nat := actByte a 2
def actTarget (a : BitVec 128) : Nat := a.toNat / 2 ^ 32 % 2 ^ 32
def actTag (a : BitVec 128) : Nat := a.toNat / 2 ^ 64 % 2 ^ 32
/-- The word of a SLOW action of a class, and of DROP. -/
def slowAct (cls : Nat) : BitVec 128 := BitVec.ofNat 128 (1 + 256 * cls)
def dropAct : BitVec 128 := 0
/-- The device accepts the action (table Action word, R164, R417). -/
def actOk (v : Variant) (a : BitVec 128) : Bool :=
  decide (actKind a ≤ 3) && decide (actByte a 0 / 32 = 0) && decide (actByte a 1 / 16 = 0) &&
  (if actKind a = 1 then decide (actClass a ≤ 13) else actClass a == 0) && actByte a 3 == 0 &&
  (if actKind a = 2 then hKind (actTarget a) == 4 && decide (hIndex (actTarget a) < v.capLegs)
   else if actKind a = 3 then decide (actTarget a < 4096) else true) && a.toNat / 2 ^ 96 == 0

/-! ### The exact-match table (R161, R162) -/

def emBuckets (v : Variant) : Nat := v.capClass / 8
/-- A key's candidate buckets, first and second. -/
def emBucket (v : Variant) (i profile : Nat) (key : List Byte) : Nat := (Config.emHash i profile key).toNat % emBuckets v
def emFind (d : Dev) (profile : Nat) (key : List Byte) : Option EmRow :=
  d.pke.em.find? fun r => r.profile == profile && r.key == key
def bucketFree (d : Dev) (b : Nat) : Bool := decide ((d.pke.em.filter fun r => r.bucket == b).length < 8)
/-- The bucket that a new key takes: the first candidate with a free entry. (DESIGN CHOICE, log entry 96.) -/
def emPlace (d : Dev) (profile : Nat) (key : List Byte) : Option Nat :=
  [emBucket d.variant 0 profile key, emBucket d.variant 1 profile key].find? (bucketFree d)
/-- A free entry of a bucket. -/
def emSlot (d : Dev) (b : Nat) : Nat := (freeIndex ((d.pke.em.filter fun r => r.bucket == b).map EmRow.slot) 8).getD 0
/-- PKE_EM_ENTRIES shows the entries in use. -/
def showEm (d : Dev) : Dev := setF d (PKE + 0x100) 0 22 d.pke.em.length
/-- The key becomes the cache's most recent of 65,536. -/
def touchCache (d : Dev) (profile : Nat) (key : List Byte) : Dev :=
  { d with pke := { d.pke with cache := ((profile, key) :: d.pke.cache.filter fun c => !(c.1 == profile && c.2 == key)).take 65536 } }

/-- An insert (R162), which updates the cache (R161): in place where the key exists, else in a candidate bucket; `none` where both are
full. -/
def emInsert (d : Dev) (profile : Nat) (key : List Byte) (a : BitVec 128) (leg : Option Nat) : Option Dev :=
  match emFind d profile key with
  | some _ =>
    some (touchCache { d with pke := { d.pke with em := d.pke.em.map fun r =>
      if r.profile == profile && r.key == key then { r with action := a, leg := leg } else r } } profile key)
  | none =>
    match emPlace d profile key with
    | none => none
    | some b =>
      let r : EmRow := ⟨b, emSlot d b, profile, key, a, leg⟩
      some (touchCache (showEm (ledgTake { d with pke := { d.pke with em := d.pke.em ++ [r] } } 4 0 1)) profile key)
/-- A delete; the cache forgets the key. -/
def emDelete (d : Dev) (profile : Nat) (key : List Byte) : Dev :=
  match emFind d profile key with
  | none => d
  | some _ =>
    showEm (ledgGive { d with pke :=
      { d.pke with
        em := d.pke.em.filter fun r => !(r.profile == profile && r.key == key)
        cache := d.pke.cache.filter fun c => !(c.1 == profile && c.2 == key) } } 4 0 1)
/-! ### The ACL -/

/-- The 44-byte lookup key (spec/07_packet_engine.md, "Verdicts and lookup"). -/
def lookupKey (k : Pkt) (key : List Byte) : List Byte :=
  key ++ [BitVec.ofNat 8 (k.profile % 16), BitVec.ofNat 8 k.verdict, BitVec.ofNat 8 (k.port + 8 * k.lap), 0]
/-- (key AND mask) = (value AND mask), byte by byte. -/
def ternary : List Byte → List Byte → List Byte → Bool
  | k :: ks, v :: vs, m :: ms => (k &&& m) == (v &&& m) && ternary ks vs ms
  | _, _, _ => true
/-- The lowest-indexed matching entry of a bank; rows stand in index order. -/
def aclFind (d : Dev) (bank : Nat) (key : List Byte) : Option AclRow :=
  (nth d.pke.acl bank []).find? fun r => ternary key r.value r.mask
/-- The built-in action on an ACL miss (R159). -/
def builtIn (d : Dev) (verdict : Nat) : BitVec 128 :=
  match verdict with
  | 0 => if getB d (PKE + 4) 0 then slowAct 0 else dropAct
  | 5 => slowAct 1
  | 6 => slowAct 2
  | 7 => slowAct 3
  | _ => dropAct
/-- The ACL's answer, counted. -/
def aclAction (d : Dev) (k : Pkt) (key : List Byte) : Dev × BitVec 128 :=
  match aclFind d (k.epoch % 2) (lookupKey k key) with
  | some r => (cnt d (PKE + 0x110) 1, r.action)
  | none => (cnt d (PKE + 0x114) 1, builtIn d k.verdict)

/-! ### Where packets go -/

/-- The slow path (R164): within the class's rate and the queue of 8,192, else dropped. (DEDUCED, log entry 100.) -/
def enterSlow (d : Dev) (k : Pkt) (cls : Nat) : Dev :=
  if nth d.pke.slowCnt cls 0 < nth d.pke.slowRate cls 0 ∧ d.pke.slow.length < 8192 then
    { d with pke :=
      { d.pke with
        slowCnt := upd d.pke.slowCnt cls (nth d.pke.slowCnt cls 0 + 1)
        slow := d.pke.slow ++ [{ k with cls := cls }] } }
  else
    let e : Ev := { evUnit ⟨7, 0xFF, 0⟩ 0x903 1 [(1, cls)] with key := cls + 1 }
    freePkt (raiseOnce (cnt d (PKE + 0xC0 + 4 * cls) 1) e) k
/-- A result leaves the packet engine. -/
def deliverPkt (d : Dev) (k : Pkt) (a : BitVec 128) : Dev :=
  match actKind a with
  | 1 => enterSlow d k (actClass a)
  | 2 => { d with sec := { d.sec with inq := d.sec.inq ++ [{ k with target := actTarget a, tag := actTag a }] } }
  | 3 => enterSlow d k 12
  | _ => freePkt d k
/-- The oldest results of each port leave while they are known (R155), `n` at most. (DEDUCED, log entry 99.) -/
def releaseHeldN : Nat → Dev → Nat → Dev
  | 0, d, _ => d
  | n + 1, d, port =>
    match d.pke.held.find? fun h => h.pkt.port == port with
    | some ⟨k, some a⟩ =>
      releaseHeldN n (deliverPkt { d with pke := { d.pke with held := d.pke.held.filter fun h => h.pkt.id != k.id } } k a) port
    | _ => d
/-- A packet with its action: counted, sent on its second lap, or delivered in order (R155, R163). -/
def classify (d : Dev) (k : Pkt) (a : BitVec 128) : Dev :=
  let d := if actCount a then cnt d (PKE + 0x400 + 4 * actCounter a) 1 else d
  let leave (d : Dev) : Dev := { d with pke := { d.pke with held := d.pke.held.filter fun h => h.pkt.id != k.id } }
  if actKind a = 3 && k.lap = 0 then
    let d := leave d
    let d := if d.pke.recirc.length < 1024 then
        { d with pke := { d.pke with recirc := d.pke.recirc ++ [{ k with lap := 1, entry := actTarget a, tag := actTag a }] } }
      else freePkt (raiseOnce (cnt d (PKE + 0x11C) 1) (evUnit ⟨7, 0xFF, 0⟩ 0x904 1 [])) k
    releaseHeldN d.pke.held.length d k.port
  else if d.pke.held.any fun h => h.pkt.id == k.id then
    let d := { d with pke := { d.pke with held := d.pke.held.map fun h => if h.pkt.id == k.id then ⟨k, some a⟩ else h } }
    releaseHeldN d.pke.held.length d k.port
  else deliverPkt d k a

/-- The lookup of a packet whose lap has ended (R159): the exact-match table for PARSED, then the ACL; `hbm` says whether
both copies failed where the cache missed and HBM answered. (DEDUCED, log entry 160.) -/
def lookupDone (d : Dev) (k : Pkt) (key : List Byte) (found : Option EmRow) : Dev :=
  match found with
  | some r => classify (touchCache (cnt d (PKE + 0x104) 1) k.profile key) k r.action
  | none =>
    let d := if k.verdict = 0 then cnt d (PKE + 0x10C) 1 else d
    let r := aclAction d k key
    classify r.1 k r.2
/-- A lap ends with a verdict (R157, R159); `fault` is the instruction index of a PROGRAM_FAULT. -/
def endLap (d : Dev) (t : Thread) (v : Nat) (fault : Nat) : Dev :=
  let k := { t.pkt with verdict := v, profile := t.profile, l4Off := t.l4, lap2Base := t.lap2 }
  let d := cnt d (PKE + 0x40 + 4 * v) 1
  let d := if v = 8 then raiseOnce d (evUnit ⟨7, 0xFF, 0⟩ 0x902 1 [(2, fault), (1, k.port), (1, k.lap)]) else d
  let drop (d : Dev) : Dev := { d with pke := { d.pke with threads := d.pke.threads.filter fun x => x.th != t.th } }
  if v = 0 && !(d.pke.cache.contains (t.profile, t.key)) then
    let t := { t with pkt := k, waiting := true, verdict := v }
    let d := cnt d (PKE + 0x108) 1
    { d with pke := { d.pke with threads := d.pke.threads.map fun x => if x.th == t.th then t else x } }
  else lookupDone (drop d) k t.key (if v = 0 then emFind d t.profile t.key else none)

end Sys2Proof.Machine
end

