-- ==== Sys2Proof/Machine/Packet.lean ====
section
/-! DEFINITION. The packet engine: dispatch, the parse instructions, lookups, rule writes and swaps (R152 to R167). -/
namespace Sys2Proof.Machine

/-! ### Dispatch (R155) -/

/-- The packet engine works: running, or stopping with laps in hand. -/
def pkeWorks (d : Dev) : Bool := (uState d ⟨7, 0xFF, 0⟩ == 2 || uState d ⟨7, 0xFF, 0⟩ == 3) && !halted d
def liveEpoch (d : Dev) : Nat := getF d (PKE + 8) 0 16
/-- A lap starts on a free thread. -/
def startLap (d : Dev) (th : Nat) (k : Pkt) (pc : Nat) : Dev :=
  let d := if getB d (PKE + 4) 1 then { d with pke := { d.pke with held := d.pke.held ++ [⟨k, none⟩] } } else d
  let t : Thread := { th := th, pkt := k, pc := pc, lap2 := k.lap2Base, l4 := k.l4Off }
  { d with pke := { d.pke with threads := d.pke.threads ++ [t] } }
/-- The next record goes to a free thread: the recirculation queue first, then new packets in arrival order. (DEDUCED, log entry 99.) -/
def dispatch (d : Dev) (th : Nat) : Dev :=
  if !pkeWorks d || d.pke.threads.any fun t => t.th == th then d
  else match d.pke.recirc with
    | k :: ks => startLap (cnt { d with pke := { d.pke with recirc := ks } } (PKE + 0x118) 1) th k k.entry
    | [] =>
      match d.pke.ready with
      | [] => d
      | k :: ks =>
        if d.pke.swap.isSome || uState d ⟨7, 0xFF, 0⟩ != 2 then d
        else
          let k := { k with epoch := liveEpoch d }
          let d := startLap { d with pke := { d.pke with ready := ks } } th k 0
          if k.oversize then
            match d.pke.threads.find? fun t => t.th == th with
            | some t => endLap d t 4 0
            | none => d
          else d
def execParseDispatch (th : Fin 256) (s : State) : Host.Outcome State Fault Refusal := onDev (fun d => dispatch d th.val) s

/-! ### Parse instructions (R156 to R158) -/

/-- What an instruction does to its thread: go on, with a step of the model's free-value counter where it drew one, or end
the lap with a verdict. -/
inductive Lap where
  | go (t : Thread)
  | open_ (f : Word → Thread)
  | fin (verdict : Nat) (t : Thread)

def iOp (w : Nat) : Nat := w / 2 ^ 58 % 64
def iWd (w : Nat) : Nat := w / 2 ^ 55 % 8
def iWa (w : Nat) : Nat := w / 2 ^ 52 % 8
def iWb (w : Nat) : Nat := w / 2 ^ 49 % 8
def iIb (w : Nat) : Bool := w.testBit 48
def iSub (w : Nat) : Nat := w / 2 ^ 44 % 16
def iImm (w : Nat) : Nat := w / 2 ^ 28 % 65536
def iTgt (w : Nat) : Nat := w / 2 ^ 16 % 4096
def iOff (w : Nat) : Nat := w / 2 ^ 5 % 2048
def iWid (w : Nat) : Nat := w % 32

/-- Where the lap's offsets count from: 0, or the lap2_base with which a second lap began. -/
def lapBase (t : Thread) : Nat := if t.pkt.lap = 0 then 0 else t.pkt.lap2Base
def reg32 (t : Thread) (i : Nat) : Word := nth t.w i 0
/-- The second operand of ALU and BR. -/
def opB (t : Thread) (w : Nat) : Word := if iIb w then wd (iImm w) else reg32 t (iWb w)
/-- An access of `n` bytes at `off` from the lap's base: the verdict that ends the lap, if any (R156). -/
def accessBad (t : Thread) (off n : Nat) : Option Nat :=
  if 256 < off + n then some 1
  else if t.pkt.bytes.length < lapBase t + off + n then some 3
  else none
/-- The field of `n` bits that starts `off` bits into a list of bytes, high bit first. -/
def bitsOf (bs : List Byte) (off n : Nat) : Nat :=
  beNat bs / 2 ^ (8 * bs.length - off - n) % 2 ^ n

def lapLd (w : Nat) (t : Thread) : Lap :=
  let n := iWid w + 1
  let first := t.cursor + iOff w / 8
  let len := (iOff w % 8 + n + 7) / 8
  if iSub w ≠ 0 then .fin 8 t
  else match accessBad t first len with
    | some v => .fin v t
    | none => .go { t with w := upd t.w (iWd w) (wd (bitsOf (slice t.pkt.bytes (lapBase t + first) len) (iOff w % 8) n)) }

/-- ALU; a shift by 32 or more has no stated result and yields a free value. (DEDUCED, log entry 98.) -/
def lapAlu (w : Nat) (t : Thread) : Lap :=
  let a := reg32 t (iWa w)
  let b := opB t w
  let put (v : Word) : Thread := { t with w := upd t.w (iWd w) v }
  match iSub w with
  | 0 => .go (put (a + b))
  | 1 => .go (put (a - b))
  | 2 => .go (put (a &&& b))
  | 3 => .go (put (a ||| b))
  | 4 => .go (put (a ^^^ b))
  | 5 => if 32 ≤ b.toNat then .open_ put else .go (put (a <<< b.toNat))
  | 6 => if 32 ≤ b.toNat then .open_ put else .go (put (a >>> b.toNat))
  | _ => .fin 8 t

def lapBr (w : Nat) (t : Thread) : Lap :=
  let a := (reg32 t (iWa w)).toNat
  let b := (opB t w).toNat
  let go (c : Bool) : Lap := .go (if c then { t with pc := iTgt w } else t)
  match iSub w with
  | 0 => go (a == b)
  | 1 => go (a != b)
  | 2 => go (decide (a < b))
  | 3 => go (decide (b ≤ a))
  | 4 => go true
  | _ => .fin 8 t

def lapAdv (w : Nat) (t : Thread) : Lap :=
  let c := t.cursor + iImm w + nth [0, 1, 4, 8] (iSub w) 0 * (reg32 t (iWa w)).toNat
  if 3 < iSub w then .fin 8 t else if 256 < c then .fin 1 t else .go { t with cursor := c }

def lapNode (w : Nat) (t : Thread) : Lap :=
  if iSub w ≠ 0 then .fin 8 t else if t.nodes = 12 then .fin 1 t else .go { t with nodes := t.nodes + 1 }

def lapKeyw (w : Nat) (t : Thread) : Lap :=
  let n := iSub w + 1
  let pos := iImm w % 64
  if 4 < n ∨ 40 < pos + n then .fin 8 t
  else .go { t with key := splice t.key pos (beBytes (reg32 t (iWa w)).toNat n) }

def lapKeyp (w : Nat) (t : Thread) : Lap :=
  let n := iSub w + 1
  let pos := iImm w % 64
  let first := t.cursor + iOff w / 8
  if iOff w % 8 ≠ 0 ∨ 40 < pos + n then .fin 8 t
  else match accessBad t first n with
    | some v => .fin v t
    | none => .go { t with key := splice t.key pos (slice t.pkt.bytes (lapBase t + first) n) }

/-- LENCHK (R158), positions counted from the frame's first byte. (DEDUCED, log entry 98.) -/
def lapLenchk (w : Nat) (t : Thread) : Lap :=
  let n := (reg32 t (iWa w)).toNat
  let c := lapBase t + t.cursor
  let len := t.pkt.bytes.length
  let b := t.ipEnd.getD len
  let ip (e : Nat) (ok : Bool) : Lap :=
    if ok && decide (e ≤ b) && (e == b || (t.ipEnd.isNone && len == 60)) then .go { t with ipEnd := some e } else .fin 2 t
  match iSub w with
  | 0 => ip (c + n) (decide (4 * ((nth t.pkt.bytes c 0).toNat % 16) ≤ n))
  | 1 => ip (c + 40 + n) true
  | 2 =>
    let ok := match t.ipEnd with
      | some e => decide (8 ≤ n) && c + n == e
      | none => decide (8 ≤ n) && decide (c + n ≤ len)
    if ok then .go t else .fin 2 t
  | _ => .fin 8 t

def lapMeta (w : Nat) (t : Thread) : Lap :=
  let c := lapBase t + t.cursor
  match iSub w with
  | 0 => .go { t with profile := iImm w % 16 }
  | 1 => if 255 < c + iImm w then .fin 1 t else .go { t with lap2 := c + iImm w }
  | 2 => if 255 < c then .fin 1 t else .go { t with l4 := c }
  | _ => .fin 8 t

def lapVerd (w : Nat) (t : Thread) : Lap :=
  if iSub w ≠ 0 ∨ 9 ≤ iImm w % 16 then .fin 8 t else .fin (iImm w % 16) t

def putThread (d : Dev) (t : Thread) : Dev :=
  { d with pke := { d.pke with threads := d.pke.threads.map fun x => if x.th == t.th then t else x } }
/-- One instruction of a thread, where its opcode is `op` or none of the program's (R157): the 129th instruction and an
undefined opcode end the lap with PROGRAM_FAULT. -/
def parseStep (d : Dev) (th op : Nat) (f : Nat → Thread → Lap) : Dev :=
  match d.pke.threads.find? fun t => t.th == th with
  | none => d
  | some t =>
    let w := if t.pc < 4096 then (spGet (nth d.pke.prog (t.pkt.epoch % 2) []) t.pc).toNat else 0
    if t.waiting || !pkeWorks d then d
    else if t.issued = 128 ∨ iOp w = 0 ∨ 10 < iOp w then endLap d t 8 t.pc
    else if iOp w ≠ op then d
    else match f w { t with pc := t.pc + 1, issued := t.issued + 1 } with
      | .go t => putThread d t
      | .open_ g => (let r := drawFree d 32
                     putThread r.2 (g r.1))
      | .fin v t' => endLap d t' v t.pc

def execParseLd (th : Fin 256) (s : State) : Host.Outcome State Fault Refusal := onDev (fun d => parseStep d th.val 1 lapLd) s
def execParseAlu (th : Fin 256) (s : State) : Host.Outcome State Fault Refusal := onDev (fun d => parseStep d th.val 2 lapAlu) s
def execParseBr (th : Fin 256) (s : State) : Host.Outcome State Fault Refusal := onDev (fun d => parseStep d th.val 3 lapBr) s
def execParseAdv (th : Fin 256) (s : State) : Host.Outcome State Fault Refusal := onDev (fun d => parseStep d th.val 4 lapAdv) s
def execParseNode (th : Fin 256) (s : State) : Host.Outcome State Fault Refusal := onDev (fun d => parseStep d th.val 5 lapNode) s
def execParseKeyw (th : Fin 256) (s : State) : Host.Outcome State Fault Refusal := onDev (fun d => parseStep d th.val 6 lapKeyw) s
def execParseKeyp (th : Fin 256) (s : State) : Host.Outcome State Fault Refusal := onDev (fun d => parseStep d th.val 7 lapKeyp) s
def execParseLenchk (th : Fin 256) (s : State) : Host.Outcome State Fault Refusal := onDev (fun d => parseStep d th.val 8 lapLenchk) s
def execParseMeta (th : Fin 256) (s : State) : Host.Outcome State Fault Refusal := onDev (fun d => parseStep d th.val 9 lapMeta) s
def execParseVerd (th : Fin 256) (s : State) : Host.Outcome State Fault Refusal := onDev (fun d => parseStep d th.val 10 lapVerd) s

/-! ### Lookups and the slow path -/

/-- The address of a bucket in copy A (0) or B (1): eight entries of 64 bytes; the copies lie in alternating pages of TABLE, of 4 KiB, or of
2 KiB on SNU-V2 (R324). (DEDUCED, log entry 160.) -/
def emAddr (v : Variant) (copy bucket : Nat) : Nat :=
  let g := v.half 4096
  tableBase + 512 * bucket / g * (2 * g) + copy * g + 512 * bucket % g
/-- A copy of a key's buckets reads as uncorrectable. -/
def emBad (d : Dev) (copy profile : Nat) (key : List Byte) : Bool :=
  [0, 1].any fun i => (hbmBadUnit d (emAddr d.variant copy (emBucket d.variant i profile key)) 512).isSome
/-- An exact-match lookup returns from HBM (R161): errors in both copies count as a miss. (DEDUCED, log entry 160.) -/
def emReturn (d : Dev) (th : Nat) (ueA ueB : Bool) : Dev :=
  match d.pke.threads.find? fun t => t.th == th with
  | none => d
  | some t =>
    if !t.waiting || !pkeWorks d then d
    else
      let d := { d with pke := { d.pke with threads := d.pke.threads.filter fun x => x.th != th } }
      if (ueA || emBad d 0 t.profile t.key) && (ueB || emBad d 1 t.profile t.key) then
        lookupDone (raise d (evUnit ⟨7, 0xFF, 0⟩ 0x906 2 [(4, emBucket d.variant 0 t.profile t.key), (1, 2)])) t.pkt t.key none
      else lookupDone d t.pkt t.key (emFind d t.profile t.key)
def execEmLookupReturn (th : Fin 256) (ueA ueB : Bool) (s : State) : Host.Outcome State Fault Refusal :=
  onDev (fun d => emReturn d th.val ueA ueB) s

/-- Groom firmware consumes the packet at the head of the slow-path queue (R154, R164); one of class 7 reaches the PTP servo (R309).
(DEDUCED, log entry 100; DESIGN CHOICE, log entry 178.) -/
def slowService (d : Dev) : Dev :=
  match d.pke.slow with
  | [] => d
  | k :: ks =>
    if (List.range 4).any (groomUp d) then
      let d := if k.cls = 7 then { d with tim := { d.tim with ptp := d.tim.ptp ++ [⟨k.port, k.bytes, k.rxTime⟩] } } else d
      freePkt { d with pke := { d.pke with slow := ks } } k
    else d
def execSlowPathService (s : State) : Host.Outcome State Fault Refusal := onDev slowService s

/-- At the boundary, slow-path rates apply and the stride's admissions restart (R164). -/
def pkeBoundary (d : Dev) : Dev :=
  { d with pke := { d.pke with slowCnt := List.replicate 16 0
                               slowRate := (List.range 16).map fun c => getF d (PKE + 0x80 + 4 * c) 0 16 } }

/-! ### RULE_WRITE (R165, R166) -/

/-- The bank that is not live, and what it stands for. -/
def shadowBank (d : Dev) : Nat := (liveEpoch d + 1) % 2
def nextEpoch (d : Dev) : Nat := (liveEpoch d + 1) % 65536
/-- The defined sub values of an opcode. -/
def subMax (op : Nat) : Nat := match op with | 2 => 6 | 3 => 4 | 4 => 3 | 6 => 3 | 7 => 15 | 8 => 2 | 9 => 2 | _ => 0
def insnOk (w : Nat) : Bool :=
  decide (1 ≤ iOp w) && decide (iOp w ≤ 10) && decide (iSub w ≤ subMax (iOp w)) && (iOp w != 7 || iOff w % 8 == 0)
/-- Action word at byte `i` of a record. -/
def recAction (r : List Byte) (i : Nat) : BitVec 128 := BitVec.ofNat 128 (leNat (slice r i 16))
def allZero (bs : List Byte) : Bool := bs.all (· == 0)
/-- An ACL record; MEDIA and RECIRC need verdict 0 matched in full (R160). -/
def aclRecOk (v : Variant) (r : List Byte) : Bool :=
  let a := recAction r 88
  actOk v a && (!(actKind a == 2 || actKind a == 3) || (nth r 85 0 == 0xFF && nth r 41 0 == 0)) &&
  (nth r 104 0).toNat < 2 && allZero (slice r 105 23)
/-- An exact-match record; a delete ignores the action word. -/
def emRecOk (v : Variant) (delete : Bool) (r : List Byte) : Bool :=
  (nth r 40 0).toNat < 16 && allZero (slice r 41 7) && (delete || actOk v (recAction r 48))
/-- Record size of a target. -/
def ruleSize (target : Nat) : Nat := match target with | 0 => 8 | 1 => 128 | _ => 64
/-- The `n` records of a read. -/
def recordsOf (size n : Nat) (bs : List Byte) : List (List Byte) := (List.range n).map fun i => padTo (slice bs (i * size) size) size
def ruleRecOk (v : Variant) (target : Nat) (r : List Byte) : Bool :=
  match target with | 0 => insnOk (leNat r) | 1 => aclRecOk v r | t => emRecOk v (t == 3) r
/-- Instructions placed from `i` on. -/
def putProg (m : Sparse 64) : Nat → List (List Byte) → Sparse 64
  | _, [] => m
  | i, r :: rs => putProg (spPut m i (BitVec.ofNat 64 (leNat r))) (i + 1) rs
/-- A row into its place of the index order. -/
def insertAcl (r : AclRow) : List AclRow → List AclRow
  | [] => [r]
  | x :: xs => if r.idx < x.idx then r :: x :: xs else x :: insertAcl r xs
/-- An ACL record at its index: valid, or removed. -/
def putAcl (l : List AclRow) (i : Nat) (r : List Byte) : List AclRow :=
  let l := l.filter fun x => x.idx != i
  if (nth r 104 0) == 1 then insertAcl ⟨i, slice r 0 44, slice r 44 44, recAction r 88⟩ l else l
def putAclFrom (l : List AclRow) : Nat → List (List Byte) → List AclRow
  | _, [] => l
  | i, r :: rs => putAclFrom (putAcl l i r) (i + 1) rs
/-- Inserts in order: the device, and the records not applied from a failing one on. -/
def emInsertAll (d : Dev) : List (List Byte) → Dev × Nat
  | [] => (d, 0)
  | r :: rs =>
    match emInsert d ((nth r 40 0).toNat % 16) (slice r 0 40) (recAction r 48) none with
    | some d => emInsertAll d rs
    | none => (d, rs.length + 1)
/-- Deletes in order: the device, and the number that found no entry. -/
def emDeleteAll (d : Dev) : List (List Byte) → Dev × Nat
  | [] => (d, 0)
  | r :: rs =>
    let p := (nth r 40 0).toNat % 16
    let miss := if (emFind d p (slice r 0 40)).isSome then 0 else 1
    let x := emDeleteAll (emDelete d p (slice r 0 40)) rs
    (x.1, x.2 + miss)

/-- (DEDUCED, log entry 101.) -/
def ruleWriteAct (data : HostRead) (d : Dev) (c : Cmd) : Except Fail Act := do
  let x := c.desc
  let t := dBits x 8 0 2
  let first := dNum x 16 4
  let n := dNum x 20 4
  noHandle x
  checkFields x ([(8, dBits x 8 2 6 == 0)] ++ zeros x 9 11 ++ zeros x 14 15 ++
    [(16, if t = 0 then decide (first + n ≤ 4096) && decide (first < 4096)
          else if t = 1 then decide (first + n ≤ 8192) && decide (first < 8192) else first == 0),
     (20, decide (1 ≤ n) && decide (n ≤ if t = 0 then 4096 else 256)), (24, dNum x 24 8 % 64 == 0)] ++ zeros x 32 63)
  require (1 < t || (dNum x 12 2 == nextEpoch d && d.pke.swap.isNone)) { st := ST_EPOCH_STALE }
  match data with
  | .fail a => .error (busError c a.toNat)
  | .ok bs =>
    let rs := recordsOf (ruleSize t) n bs
    require (rs.all (ruleRecOk d.variant t)) (badField 24)
    let b := shadowBank d
    match t with
    | 0 => .ok (.done { d with pke := { d.pke with prog := upd d.pke.prog b (putProg (nth d.pke.prog b []) first rs) } } [])
    | 1 => .ok (.done { d with pke := { d.pke with acl := upd d.pke.acl b (putAclFrom (nth d.pke.acl b []) first rs) } } [])
    | 2 =>
      let r := emInsertAll d rs
      if r.2 = 0 then .ok (.done r.1 (leBytes 0 4))
      else
        let left := (ledg r.1 4 0).free.toNat
        .ok (.wait (failId r.1 c.id { st := ST_NO_CAPACITY, res := resBytes [(1, 0xF1), (1, 0xFF), (2, 0), (4, r.2), (4, left)] }))
    | _ =>
      let r := emDeleteAll d rs
      .ok (.done r.1 (leBytes r.2 4))

def execRuleWrite (fn : Fin 64) (ring : Fin 32) (data : HostRead) (s : State) : Host.Outcome State Fault Refusal :=
  onDev (runCmd 0x50 fn.val ring.val (ruleWriteAct data)) s

/-! ### RULE_SWAP (R167) -/

/-- The live epoch moves on, after a pause of `ns`. -/
def goEpoch (d : Dev) (ns : Nat) : Dev :=
  let old := liveEpoch d
  let e := nextEpoch d
  let d := setReg (putB (setReg d (PKE + 8) (wd (e + 65536 * (e % 2)))) PKE 9 false) (PKE + 0x120) (wd ns)
  raise { d with pke := { d.pke with swap := none } } (evUnit ⟨7, 0xFF, 0⟩ 0x900 0 [(2, old), (2, e), (4, ns)])
/-- The result of a completed swap. -/
def swapResult (epoch ns : Nat) : List Byte := resBytes [(2, epoch), (2, 0), (4, ns)]

/-- (DEDUCED, log entry 101.) -/
def ruleSwapAct (d : Dev) (c : Cmd) : Except Fail Act := do
  let x := c.desc
  noHandle x
  checkFields x (zeros x 8 11 ++ zeros x 14 63)
  require (dNum x 12 2 == nextEpoch d && d.pke.swap.isNone) { st := ST_EPOCH_STALE }
  if uState d ⟨7, 0xFF, 0⟩ == 0 then .ok (.done (goEpoch d 0) (swapResult (nextEpoch d) 0))
  else
    let d := putB d PKE 9 true
    .ok (.wait { d with pke := { d.pke with swap := some ⟨c.id, nextEpoch d, d.tim.clock⟩ } })
def execRuleSwap (fn : Fin 64) (ring : Fin 32) (s : State) : Host.Outcome State Fault Refusal :=
  onDev (runCmd 0x51 fn.val ring.val ruleSwapAct) s

/-- No packet of the old epoch remains in a thread or in the recirculation queue. -/
def drained (d : Dev) : Bool := d.pke.threads.isEmpty && d.pke.recirc.isEmpty
/-- PKE_SWAP_LIMIT in ns. -/
def swapLimit (d : Dev) : Nat := 1000 * getF d (PKE + 0xC) 0 16
/-- The drain ends `ns` after the pause began, within the limit: the swap completes. -/
def swapDrained (d : Dev) (ns : Nat) : Dev :=
  match d.pke.swap with
  | none => d
  | some w =>
    if drained d && !halted d && decide (ns ≤ swapLimit d) && timely d (w.since + ns) then
      complete (goEpoch (advance d (w.since + ns)) ns) w.cmd ST_OK (swapResult w.epoch ns)
    else d
def execSwapDrainDone (pauseNs : Nat) (s : State) : Host.Outcome State Fault Refusal := onDev (fun d => swapDrained d pauseNs) s

/-- The drain limit passes with the drain not ended: the swap is abandoned. -/
def swapTimedOut (d : Dev) : Dev :=
  match d.pke.swap with
  | none => d
  | some w =>
    let t := w.since + swapLimit d
    let now := max d.tim.clock t
    if (drained d && decide (d.tim.clock ≤ t)) || halted d || !timely d now then d
    else
      let d := advance d now
      let d := { putB d PKE 9 false with pke := { d.pke with swap := none } }
      let d := raise d (evUnit ⟨7, 0xFF, 0⟩ 0x901 1 [(2, liveEpoch d), (4, d.pke.threads.length + d.pke.recirc.length)])
      complete d w.cmd ST_TIMEOUT []
def execSwapTimeout (s : State) : Host.Outcome State Fault Refusal := onDev swapTimedOut s

/-- Firmware loads the default rule set into epoch 0 (R416). (DESIGN CHOICE, log entry 95.) -/
def loadDefaultRules (d : Dev) : Dev :=
  { d with pke := { d.pke with prog := upd d.pke.prog 0 (progOf 0 defaultProg), acl := upd d.pke.acl 0 defaultAcl } }

end Sys2Proof.Machine
end

