-- ==== Sys2Proof/Machine/Craft.lean ====
section
/-! DEFINITION. The craft port (R203 to R206): jack, detection, buttons, faults, attachment to a conference. -/
namespace Sys2Proof.Machine

def cftUnit : UnitId := ⟨13, 0xFF, 0⟩
def craftUp (d : Dev) : Bool := d.variant.craft && running d cftUnit
def setCraft (d : Dev) (c : CraftSt) : Dev := { d with aud := { d.aud with craft := c } }
def craftInserted (d : Dev) : Bool := getB d CFT 9
def accessory (d : Dev) : Nat := getF d CFT 12 3
/-- The fault that CFT_STATUS shows: the latest of those present. (DEDUCED, log entry 118.) -/
def showFaults (d : Dev) : Dev := setF d CFT 20 3 ((d.aud.craft.faults.head?.map Prod.fst).getD 0)
def hasFault (d : Dev) (code : Nat) : Bool := d.aud.craft.faults.any fun f => f.1 == code
/-- An accessory with a microphone. -/
def headset (d : Dev) : Bool := craftInserted d && (accessory d == 2 || accessory d == 3)
/-- The microphone bias is on. -/
def craftBias (d : Dev) : Bool := headset d && getB d (CFT + 4) 0
def evCraft (code cls : Nat) (detail : List (Nat × Nat)) : Ev := evUnit cftUnit code cls detail

/-! ### Insertion and detection (R203) -/

/-- The jack switch closes. -/
def jackInsert (d : Dev) : Dev :=
  if d.variant.craft && d.aud.craft.jack.isNone then setCraft d { d.aud.craft with jack := some d.tim.stride } else d
/-- An accessory has been classified or taken. -/
def insertAs (d : Dev) (acc : Nat) : Dev :=
  let d := setCraft (setF d CFT 12 3 acc) { d.aud.craft with detecting := false, win := 0, winRun := 0, pressed := none, quiet := 0 }
  raise (setF d CFT 16 3 0) (evCraft 0x410 0 [(1, acc), (2, getF d (CFT + 0xC) 0 16), (2, getF d (CFT + 0xC) 16 16)])
/-- Detection runs, or force_acc applies. -/
def detectAccessory (d : Dev) : Dev :=
  if getB d (CFT + 4) 1 then setCraft d { d.aud.craft with detecting := true }
  else insertAs d (let n := getF d (CFT + 4) 2 3; if 1 ≤ n && n ≤ 4 then n else 1)
def debounceEnd (d : Dev) : Dev :=
  match d.aud.craft.jack with
  | some s => if craftUp d && !craftInserted d && decide (s + 24 ≤ d.tim.stride) then detectAccessory (putB d CFT 9 true) else d
  | none => d
/-- Table Detection thresholds and outcomes, FAULT before the rest. -/
def accessoryOf (fault : Bool) (l r vs vr : Nat) : Nat :=
  let mid (v : Nat) : Bool := decide (850 ≤ v) && decide (v ≤ 2400)
  let low := decide (vs < 80) && decide (vr < 80)
  if fault || l < 4 || r < 4 then 6
  else if low && (l ≤ 5000 || r ≤ 5000) then 1
  else if mid vs && vr < 850 then 2
  else if mid vr && vs < 850 then 3
  else if low then 4
  else 5
def detectionDone (d : Dev) (m : Detect) : Dev :=
  if !craftUp d || !craftInserted d || !d.aud.craft.detecting then d
  else
    let l := nth m.loads 0 0
    let r := nth m.loads 1 0
    let d := setReg d (CFT + 0xC) (wd (min l 65535 + 65536 * min r 65535))
    insertAs d (accessoryOf (!d.aud.craft.faults.isEmpty) l r (nth m.volts 0 0) (nth m.volts 1 0))
def jackRemove (d : Dev) : Dev :=
  let c := d.aud.craft
  if c.jack.isNone then d
  else
    let was := craftInserted d
    let d := setF (setF (putB d CFT 9 false) CFT 12 3 0) CFT 16 3 0
    let d := setCraft d { c with jack := none, detecting := false, win := 0, winRun := 0, pressed := none, quiet := 0, offL := none,
                                 offR := none }
    if was then raise d (evCraft 0x411 0 []) else d

/-! ### Buttons (R204) -/

/-- The window of a reading: 1 A … 4 D, 5 idle, 6 above 2.55 V, 0 between windows. -/
def micWindow (mv : Nat) : Nat :=
  if mv < 80 then 1
  else if 120 ≤ mv && mv ≤ 240 then 2
  else if 280 ≤ mv && mv ≤ 450 then 3
  else if 520 ≤ mv && mv ≤ 780 then 4
  else if 850 ≤ mv && mv ≤ 2400 then 5
  else if 2550 < mv then 6
  else 0
def buttonPress (d : Dev) : Dev :=
  let c := d.aud.craft
  if craftUp d && headset d && c.pressed.isNone && decide (1 ≤ c.win) && decide (c.win ≤ 4) && decide (3 ≤ c.winRun) then
    let d := cnt (setF (setCraft d { c with pressed := some c.win, held := c.winRun, long := false }) CFT 16 3 c.win) (CFT + 0x10) 1
    raise d (evCraft 0x412 0 [(1, c.win), (1, 0)])
  else d
def buttonRelease (d : Dev) : Dev :=
  let c := d.aud.craft
  match c.pressed with
  | none => d
  | some b =>
    if craftUp d && c.win == 5 && decide (3 ≤ c.winRun) then
      raise (setF (setCraft d { c with pressed := none, held := 0, long := false }) CFT 16 3 0) (evCraft 0x412 0 [(1, b), (1, 1)])
    else d
def buttonLong (d : Dev) : Dev :=
  let c := d.aud.craft
  match c.pressed with
  | none => d
  | some b =>
    if craftUp d && !c.long && decide (960 ≤ c.held) then
      raise (setCraft d { c with long := true }) (evCraft 0x412 0 [(1, b), (1, 2)])
    else d

/-! ### Faults (R205) -/

def craftSetFault (d : Dev) (code : Nat) : Dev :=
  let c := d.aud.craft
  let d := showFaults (setCraft d { c with faults := (code, 0) :: c.faults.filter fun f => f.1 != code })
  raise (putB d CFT 23 true) (evCraft 0x413 2 [(1, code), (2, getF d (CFT + 8) 0 12)])
/-- An output draws more than 120 mA peak for 1 ms: it switches off. -/
def outputShort (d : Dev) (left : Bool) : Dev :=
  let c := d.aud.craft
  if !craftUp d || !craftInserted d || (if left then c.offL else c.offR).isSome then d
  else
    let now := some d.tim.stride
    craftSetFault (setCraft d (if left then { c with offL := now } else { c with offR := now })) (if left then 2 else 3)
/-- Every 1 s an output that is off is switched on again; it stays on unless the short is still there. -/
def faultRetry (d : Dev) (left stillShort : Bool) : Dev :=
  let c := d.aud.craft
  match if left then c.offL else c.offR with
  | none => d
  | some s =>
    if !craftUp d || d.tim.stride < s + 1200 then d
    else
      let n := if stillShort then some d.tim.stride else none
      setCraft d (if left then { c with offL := n } else { c with offR := n })
def biasShort (d : Dev) : Dev :=
  let c := d.aud.craft
  if craftUp d && c.pressed == some 1 && decide (12000 ≤ c.held) && !hasFault d 1 then craftSetFault d 1 else d
def micOpen (d : Dev) : Dev :=
  let c := d.aud.craft
  if craftUp d && headset d && c.win == 6 && decide (24 ≤ c.winRun) && !hasFault d 4 then craftSetFault d 4 else d
/-- The faults whose conditions have been absent for 3 strides clear, and detection runs again. -/
def faultClear (d : Dev) : Dev :=
  let c := d.aud.craft
  if craftUp d && c.faults.any fun f => decide (3 ≤ f.2) then
    let d := showFaults (setCraft d { c with faults := c.faults.filter fun f => !decide (3 ≤ f.2) })
    if craftInserted d then detectAccessory d else d
  else d
/-- The condition of a fault in a stride with the microphone pole in window `w`. -/
def faultOn (c : CraftSt) (w code : Nat) : Bool :=
  match code with
  | 1 => w == 1
  | 2 => c.offL.isSome
  | 3 => c.offR.isSome
  | _ => w == 6

/-! ### CRAFT_SET (R206) -/

def craftSetAct (d : Dev) (c : Cmd) : Except Fail Act := do
  let x := c.desc
  let h := dHandle x
  require (h == 0 || (objOf d c.fn 2 h).toOption.isSome) badHandle
  checkFields x ([(8, decide (dByte x 8 < 4))] ++ zeros x 9 11 ++ zeros x 20 63)
  let g : CraftCfg := { conf := h, listen := dBits x 8 0 1 == 1, talk := dBits x 8 1 1 == 1, talkGain := dNum x 12 2,
                        listenGain := dNum x 14 2, tag := dNum x 16 4 }
  .ok (.done (setCraft d { d.aud.craft with next := some (if h = 0 then none else some g) }) [])
def execCraftSet (fn : Fin 64) (ring : Fin 32) (s : State) : Host.Outcome State Fault Refusal :=
  onDev (runCmd 0x13 fn.val ring.val craftSetAct) s

/-! ### The boundary -/

/-- Before the pots: the converter plays the last mix, an attachment takes effect, the stride's reading is taken. (DEDUCED, log entry 118.) -/
def craftBefore (env : BoundaryEnv) (d : Dev) : Dev :=
  if !craftUp d then d
  else
    let c := d.aud.craft
    let old := (c.cfg.map CraftCfg.conf).getD 0
    let new := match c.next with | some g => (g.map CraftCfg.conf).getD 0 | none => old
    let c := match c.next with
      | none => c
      | some g => if old = new then { c with cfg := g, next := none }
        else { c with cfg := g, next := none, play := [], hist := (0, 0, 0, 0), lim := {} }
    let heard := craftInserted d && c.cfg.any CraftCfg.listen && !c.play.isEmpty
    let d := if heard then emitOut d (.dac (if c.offL.isNone then c.play else []) (if c.offR.isNone then c.play else [])) else d
    let mv := min env.micMv 4095
    let d := setF d (CFT + 8) 0 12 mv
    let w := if headset d then micWindow mv else 0
    let c := if w = 0 then c else if c.win = w then { c with winRun := c.winRun + 1 } else { c with win := w, winRun := 1 }
    let c := if 1 ≤ w && w ≤ 4 then { c with quiet := 255 }
      else if c.quiet = 255 && c.win = 5 && 3 ≤ c.winRun then { c with quiet := 4 } else c
    let c := { c with held := if c.pressed.isSome then c.held + 1 else c.held
                      faults := c.faults.map fun f => (f.1, if faultOn c w f.1 then 0 else f.2 + 1), play := [] }
    setCraft d c
/-- After the pots: the microphone's silence runs out. (DEDUCED, log entry 118.) -/
def craftAfter (d : Dev) : Dev :=
  let c := d.aud.craft
  if 0 < c.quiet && c.quiet < 255 then setCraft d { c with quiet := c.quiet - 1 } else d

def execJackInsert (s : State) : Host.Outcome State Fault Refusal := onDev jackInsert s
def execDebounceEnd (s : State) : Host.Outcome State Fault Refusal := onDev debounceEnd s
def execDetectionDone (m : Detect) (s : State) : Host.Outcome State Fault Refusal := onDev (fun d => detectionDone d m) s
def execJackRemove (s : State) : Host.Outcome State Fault Refusal := onDev jackRemove s
def execButtonPress (s : State) : Host.Outcome State Fault Refusal := onDev buttonPress s
def execButtonRelease (s : State) : Host.Outcome State Fault Refusal := onDev buttonRelease s
def execButtonLong (s : State) : Host.Outcome State Fault Refusal := onDev buttonLong s
def execOutputShort (left : Bool) (s : State) : Host.Outcome State Fault Refusal := onDev (fun d => outputShort d left) s
def execFaultRetry (left stillShort : Bool) (s : State) : Host.Outcome State Fault Refusal :=
  onDev (fun d => faultRetry d left stillShort) s
def execBiasShort (s : State) : Host.Outcome State Fault Refusal := onDev biasShort s
def execMicOpen (s : State) : Host.Outcome State Fault Refusal := onDev micOpen s
def execFaultClear (s : State) : Host.Outcome State Fault Refusal := onDev faultClear s

end Sys2Proof.Machine
end

