-- ==== Sys2Proof/Machine/Pack.lean ====
section
/-! DEFINITION. Pack surfaces and pyramids (R224 to R228) in the arenas of contexts and layouts. -/
namespace Sys2Proof.Machine

/-! ### Arena accesses -/

/-- A write of a unit that serves an arena's object: beyond the end of HBM it is discarded and reported under R320; the report names the
class and quarter of the unit that serves objects of the arena's kind there. (DEDUCED, log entry 204.) -/
def arenaStore (d : Dev) (h a : Nat) (bs : List Byte) : Dev :=
  if a < hbmSize d.variant then hbmPut d a bs
  else hbmUnmapped d ⟨hKind h - 3, ((findObj d h).map Obj.home).getD 0xFF, 0xFF⟩ a
/-- Bytes written at an arena offset, extent by extent, `n` pieces at most; bytes beyond the arena are lost. -/
def arenaPut : Nat → Dev → Nat → Nat → List Byte → Dev
  | 0, d, _, _, _ => d
  | n + 1, d, h, off, bs =>
    if bs.isEmpty then d
    else
      let k := extent - off % extent
      let d := match arenaAddr d h off with
        | some a => arenaStore d h a (bs.take k)
        | none => d
      arenaPut n d h (off + k) (bs.drop k)
/-- Bytes at an arena offset. -/
def arenaGet (d : Dev) (h off n : Nat) : List Byte :=
  (List.range n).map fun i => match arenaAddr d h (off + i) with | some a => spGet d.mem.hbm a | none => 0
/-- Some unit of the bytes reads as uncorrectable. -/
def arenaBad (d : Dev) (h off n : Nat) : Bool :=
  (List.range n).any fun i => match arenaAddr d h (off + i) with
    | some a => d.mem.hbmBad.contains (a / 64) || decide (hbmSize d.variant ≤ a)
    | none => false

/-! ### Geometry (R224, R228) -/

/-- The size of level `k` from that of level 0. -/
def levelDim (n : Nat) : Nat → Nat
  | 0 => n
  | k + 1 => (levelDim n k + 1) / 2
def up4k (n : Nat) : Nat := 4096 * ceilDiv n 4096
/-- A surface's shape. -/
structure Geo where
  w : Nat
  h : Nat
  levels : Nat
  ten : Bool
  deriving DecidableEq, Repr
def Geo.depth (g : Geo) : Nat := if g.ten then 10 else 8
def Geo.slot (g : Geo) : Nat := if g.ten then 480 else 384
def Geo.tx (g : Geo) (k : Nat) : Nat := ceilDiv (levelDim g.w k) 32
def Geo.ty (g : Geo) (k : Nat) : Nat := ceilDiv (levelDim g.h k) 8
def Geo.tiles (g : Geo) (k : Nat) : Nat := g.tx k * g.ty k
/-- Bytes of a level: header table and body. -/
def Geo.levelBytes (g : Geo) (k : Nat) : Nat := up4k (4 * g.tiles k) + up4k (g.tiles k * g.slot)
def Geo.hdrOff (g : Geo) (k : Nat) : Nat := 4096 + ((List.range k).map g.levelBytes).sum
def Geo.bodyOff (g : Geo) (k : Nat) : Nat := g.hdrOff k + up4k (4 * g.tiles k)
/-- Bytes of the whole surface: the worst case. -/
def Geo.size (g : Geo) : Nat := g.hdrOff (g.levels + 1)
/-- Width and height of a plane (0 Y, 1 Cb, 2 Cr) of level `k`. -/
def Geo.planeW (g : Geo) (k p : Nat) : Nat := if p = 0 then levelDim g.w k else (levelDim g.w k + 1) / 2
def Geo.planeH (g : Geo) (k p : Nat) : Nat := if p = 0 then levelDim g.h k else (levelDim g.h k + 1) / 2
/-- Mid-grey. -/
def Geo.grey (g : Geo) : Nat := 2 ^ (g.depth - 1)
/-- The surface header (table Surface header). -/
def Geo.header (g : Geo) : List Byte :=
  let offs (f : Nat → Nat) : List Byte := (List.range 4).flatMap fun k => leBytes (if k ≤ g.levels then f k else 0) 4
  leBytes g.w 2 ++ leBytes g.h 2 ++ [BitVec.ofNat 8 (g.ten.toNat + 2 * g.levels), 0, 0, 0] ++ offs g.hdrOff ++ offs g.bodyOff ++
    List.replicate 24 0

/-! ### Tiles (R225 to R227) -/

/-- Fields packed least significant bit first. (DEDUCED, log entry 126.) -/
def packNat : List (Nat × Nat) → Nat
  | [] => 0
  | (w, v) :: fs => v % 2 ^ w + 2 ^ w * packNat fs
/-- The samples of group `g` of a tile: 256 Y, 64 Cb, 64 Cr in raster order. -/
def groupOf (t : List Nat) (g : Nat) : List Nat :=
  let at0 : Nat × Nat := if g < 16 then (g / 8 * 128 + g % 8 * 4, 32) else (256 + (g - 16) / 4 * 64 + g % 4 * 4, 16)
  (List.range 4).flatMap fun r => slice t (at0.1 + r * at0.2) 4
def bitsFor (n : Nat) : Nat := if n = 0 then 0 else Nat.log2 n + 1
/-- A group's fields (R226). -/
def groupFields (depth : Nat) (s : List Nat) : List (Nat × Nat) :=
  let base := s.foldl min (s.headD 0)
  let w := bitsFor ((s.map (· - base)).foldl max 0)
  [(4, w), (depth, base)] ++ s.map fun v => (w, v - base)
def allEq (l : List Nat) : Bool := l.all (· == l.headD 0)
/-- A tile's header and body in the first mode that applies (R225). (DEDUCED, log entry 126.) -/
def encodeTile (g : Geo) (t : List Nat) : Nat × List Byte :=
  let ys := t.take 256
  let cb := slice t 256 64
  let cr := slice t 320 64
  let up (v : Nat) : Nat := if g.ten then v else 4 * v
  if allEq ys && allEq cb && allEq cr then
    (2 + 4 * up (ys.headD 0) + 2 ^ 12 * up (cb.headD 0) + 2 ^ 22 * up (cr.headD 0), [])
  else
    let fs := (List.range 24).flatMap fun i => groupFields g.depth (groupOf t i)
    let n := ceilDiv ((fs.map Prod.fst).sum) 256
    let raw := g.slot / 32
    if n < raw then (1 + 4 * n, leBytes (packNat fs) (32 * n))
    else (4 * raw, leBytes (packNat (t.map fun v => (g.depth, v))) g.slot)
/-- `n` values of `w` bits from a bit stream. -/
def unpackN (w : Nat) : Nat → Nat → List Nat
  | 0, _ => []
  | n + 1, s => s % 2 ^ w :: unpackN w n (s / 2 ^ w)
/-- The groups of a packed stream, or none where a w exceeds the depth. -/
def unpackGroups (depth : Nat) : Nat → Nat → Option (List (List Nat))
  | 0, _ => some []
  | n + 1, s =>
    let w := s % 16
    if depth < w then none
    else
      let base := s / 16 % 2 ^ depth
      let r := s / 16 / 2 ^ depth
      (unpackGroups depth n (r / 2 ^ (16 * w))).map fun gs => ((unpackN w 16 r).map (· + base)) :: gs
/-- Sample `i` of a tile from its groups. -/
def fromGroups (gs : List (List Nat)) (i : Nat) : Nat :=
  let pick (g r c : Nat) : Nat := nth (nth gs g []) (4 * r + c) 0
  if i < 256 then (let r := i / 32; let c := i % 32; pick (r / 4 * 8 + c / 4) (r % 4) (c % 4))
  else (let j := (i - 256) % 64; let r := j / 16; let c := j % 16; pick (16 + (i - 256) / 64 * 4 + c / 4) r (c % 4))
/-- The samples that a header and body give; none where the reader meets a value outside its range (R227). -/
def decodeTile (g : Geo) (hdr : Nat) (body : List Byte) : Option (List Nat) :=
  let raw := g.slot / 32
  let sectors := hdr / 4 % 16
  match hdr % 4 with
  | 0 => if sectors = raw then some (unpackN g.depth 384 (leNat body)) else none
  | 1 => if 1 ≤ sectors && sectors < raw then
      (unpackGroups g.depth 24 (leNat (body.take (32 * sectors)))).map fun gs => (List.range 384).map (fromGroups gs)
    else none
  | 2 => (let down (v : Nat) : Nat := if g.ten then v else v / 4
          some (List.replicate 256 (down (hdr / 4 % 1024)) ++ List.replicate 64 (down (hdr / 2 ^ 12 % 1024)) ++
            List.replicate 64 (down (hdr / 2 ^ 22 % 1024))))
  | _ => some (List.replicate 384 g.grey)
/-- A surface: the arena that holds it, its offset, its shape. -/
structure Surf where
  owner : Nat
  off : Nat
  geo : Geo
  deriving DecidableEq, Repr
def tileHdr (s : Surf) (k t : Nat) : Nat := s.off + s.geo.hdrOff k + 4 * t
def tileBody (s : Surf) (k t : Nat) : Nat := s.off + s.geo.bodyOff k + t * s.geo.slot
/-- A tile read: its samples, mid-grey and bad where the read fails. -/
def readTile (d : Dev) (s : Surf) (k t : Nat) : List Nat × Bool :=
  let grey := List.replicate 384 s.geo.grey
  let hdr := leNat (arenaGet d s.owner (tileHdr s k t) 4)
  let body := if hdr % 4 < 2 then s.geo.slot else 0
  if arenaBad d s.owner (tileHdr s k t) 4 || arenaBad d s.owner (tileBody s k t) body then (grey, true)
  else match decodeTile s.geo hdr (arenaGet d s.owner (tileBody s k t) body) with
    | some l => (l, false)
    | none => (grey, true)
/-- A tile written. -/
def writeTile (s : Surf) (k : Nat) (d : Dev) (x : Nat × List Nat) : Dev :=
  let r := encodeTile s.geo x.2
  arenaPut 2 (arenaPut 2 d s.owner (tileHdr s k x.1) (leBytes r.1 4)) s.owner (tileBody s k x.1) r.2
/-- A tile never written since the surface was new. -/
def tileAbsent (d : Dev) (s : Surf) (k t : Nat) : Bool := leNat (arenaGet d s.owner (tileHdr s k t) 4) % 4 == 3
/-- A new surface: its header, and every tile header ABSENT (R225). -/
def newSurf (d : Dev) (s : Surf) : Dev :=
  let d := arenaPut 2 d s.owner s.off s.geo.header
  (List.range (s.geo.levels + 1)).foldl (fun d k => (List.range (s.geo.tiles k)).foldl (fun d t =>
    arenaPut 2 d s.owner (tileHdr s k t) (leBytes 3 4)) d) d

/-! ### Samples -/

/-- Sample (x, y) of a plane of level `k`, the nearest edge sample where it lies outside the picture; and whether its tile
reads as uncorrectable. -/
def sampleAt (d : Dev) (s : Surf) (k p : Nat) (x y : Int) : Nat × Bool :=
  let cx := (clampI 0 ((s.geo.planeW k p : Int) - 1) x).toNat
  let cy := (clampI 0 ((s.geo.planeH k p : Int) - 1) y).toNat
  let tw := if p = 0 then 32 else 16
  let th := if p = 0 then 8 else 4
  let r := readTile d s k (cy / th * s.geo.tx k + cx / tw)
  let i := (if p = 0 then 0 else 256 + (p - 1) * 64) + cy % th * tw + cx % tw
  (nth r.1 i 0, r.2)
/-- The 384 samples of tile `t` of a level whose planes are given; edge samples repeat (R227). -/
def tileFrom (g : Geo) (k t : Nat) (f : Nat → Nat → Nat → Nat) : List Nat :=
  let ox := t % g.tx k
  let oy := t / g.tx k
  (List.range 384).map fun i =>
    let p := if i < 256 then 0 else (i - 256) / 64 + 1
    let j := if i < 256 then i else (i - 256) % 64
    let tw := if p = 0 then 32 else 16
    let th := if p = 0 then 8 else 4
    f p (min (ox * tw + j % tw) (g.planeW k p - 1)) (min (oy * th + j / tw) (g.planeH k p - 1))
/-- A sample of the next pyramid level from the 2 × 2 samples that it covers (R228). -/
def pyrSample (f : Nat → Nat → Nat) (w h x y : Nat) : Nat :=
  let x0 := min (2 * x) (w - 1)
  let x1 := min (2 * x + 1) (w - 1)
  let y0 := min (2 * y) (h - 1)
  let y1 := min (2 * y + 1) (h - 1)
  (f x0 y0 + f x1 y0 + f x0 y1 + f x1 y1 + 2) / 4
/-- Pyramid level k + 1 written from level k. -/
def writePyrLevel (s : Surf) (d : Dev) (k : Nat) : Dev :=
  (List.range (s.geo.tiles (k + 1))).foldl (fun e t =>
    writeTile s (k + 1) e (t, tileFrom s.geo (k + 1) t fun p x y =>
      pyrSample (fun x y => (sampleAt d s k p x y).1) (s.geo.planeW k p) (s.geo.planeH k p) x y)) d
/-- The whole pyramid. -/
def writePyramid (d : Dev) (s : Surf) : Dev := (List.range s.geo.levels).foldl (writePyrLevel s) d
/-- A sample of the co-located area of the concealment source, or mid-grey (R218). -/
def concealSample (d : Dev) (src : Option Surf) (s : Surf) (p x y : Nat) : Nat :=
  match src with
  | none => s.geo.grey
  | some c => if x < c.geo.planeW 0 p && y < c.geo.planeH 0 p then (sampleAt d c 0 p x y).1 else s.geo.grey
/-- Level-0 tiles that have not been written are copied from the co-located area of the concealment source, or are
mid-grey (R218, R220). -/
def concealTile (src : Option Surf) (s : Surf) (d : Dev) (t : Nat) : Dev :=
  writeTile s 0 d (t, tileFrom s.geo 0 t fun p x y => concealSample d src s p x y)
def concealAbsent (d : Dev) (src : Option Surf) (s : Surf) : Dev :=
  ((List.range (s.geo.tiles 0)).filter fun t => tileAbsent d s 0 t).foldl (concealTile src s) d
/-- A planar 4:2:0 image stored as a surface (R231). -/
def storeImage (d : Dev) (s : Surf) (img : List Byte) : Dev :=
  let w := s.geo.w
  let n := w * s.geo.h
  let f (p x y : Nat) : Nat :=
    (nth img (if p = 0 then y * w + x else n + (p - 1) * (n / 4) + y * (w / 2) + x) 0).toNat
  let d := newSurf d s
  let d := (List.range (s.geo.tiles 0)).foldl (fun d t => writeTile s 0 d (t, tileFrom s.geo 0 t f)) d
  writePyramid d s

/-! ### Refusals of arenas (R208) -/

/-- NO_CAPACITY with budget 0xF3: KiB missing and KiB free. -/
def arenaRefused (d : Dev) (k : Nat) : Fail :=
  let f := ledgFree d 6 0
  { st := ST_NO_CAPACITY, res := resBytes [(1, 0xF3), (1, 0xFF), (2, 0), (4, (k - f) * 2048), (4, f * 2048)] }

end Sys2Proof.Machine
end

