-- ==== Sys2Proof/Machine/Layers.lean ====
section
/-! DEFINITION. Layers of a layout: levels and the line-buffer rule (R233, R234), scalers (R235), colour (R236, R237), blending
(R238), bands (R243). -/
namespace Sys2Proof.Machine

/-! ### Levels (R233) -/

/-- The crop at a level in one dimension: start and size. -/
def cropAt (x w pic k : Nat) : Nat × Nat :=
  let x := if w = 0 then 0 else x
  let w := if w = 0 then pic else w
  (x / 2 ^ k, ceilDiv (x + w) (2 ^ k) - x / 2 ^ k)
/-- Vertical taps T. -/
def Layer.taps (y : Layer) : Nat := 4 + 2 * y.vtap
/-- The layer takes the direct path at level `k` of a picture. -/
def directAt (y : Layer) (w h k : Nat) : Bool := (cropAt y.cropX y.cropW w k).2 == y.dstW && (cropAt y.cropY y.cropH h k).2 == y.dstH
/-- L × W. -/
def lineNeed (y : Layer) (w h k : Nat) : Nat :=
  (ceilDiv ((cropAt y.cropY y.cropH h k).2 * y.taps) (max 1 y.dstH) + 2) * (cropAt y.cropX y.cropW w k).2
def levelOk (y : Layer) (w h k : Nat) : Bool := directAt y w h k || decide (lineNeed y w h k ≤ 49152)
/-- The level of a picture with levels 0 to `n`: none where the layer finds none. -/
def chooseLevel (y : Layer) (w h n : Nat) : Option Nat :=
  if y.auto_ then
    let covers (k : Nat) : Bool := decide (y.dstW ≤ (cropAt y.cropX y.cropW w k).2) && decide (y.dstH ≤ (cropAt y.cropY y.cropH h k).2)
    ((List.range (n + 1)).reverse.find? fun k => levelOk y w h k && covers k).orElse fun _ => (List.range (n + 1)).find? (levelOk y w h)
  else if levelOk y w h (min y.level n) then some (min y.level n) else none
/-- The finest level tried. -/
def finestTried (y : Layer) : Nat := if y.auto_ then 0 else y.level

/-! ### Colour (R236, R237) -/

/-- Kr and Kb of a standard. -/
def matrixConst : Nat → Rat × Rat
  | 0 => (299 / 1000, 114 / 1000)
  | 1 => (2126 / 10000, 722 / 10000)
  | _ => (2627 / 10000, 593 / 10000)
/-- The conversion in normalised values. -/
def convertColour (s o : Rat × Rat) (y cb cr : Rat) : List Rat :=
  let kg := 1 - s.1 - s.2
  let kg2 := 1 - o.1 - o.2
  let r := y + 2 * (1 - s.1) * cr
  let b := y + 2 * (1 - s.2) * cb
  let g := (y - s.1 * r - s.2 * b) / kg
  let y2 := o.1 * r + kg2 * g + o.2 * b
  [y2, (b - y2) / (2 * (1 - o.2)), (r - y2) / (2 * (1 - o.1))]
/-- Rounding half away from zero. -/
def roundAway (r : Rat) : Int := if 0 ≤ r then (r + 1 / 2).floor else -((-r + 1 / 2).floor)
/-- The nine coefficients of a preset. -/
def presetMatrix (src out : Nat) : List Int :=
  let s := matrixConst src
  let o := matrixConst out
  let cols := [convertColour s o 1 0 0, convertColour s o 0 1 0, convertColour s o 0 0 1]
  (List.range 3).flatMap fun j => (List.range 3).map fun i =>
    let scale : Rat := if j = 0 ∧ i ≠ 0 then 219 / 224 else if j ≠ 0 ∧ i = 0 then 224 / 219 else 1
    roundAway (nth (nth cols i []) j 0 * scale * 4096)
def identityMatrix : List Int := [4096, 0, 0, 0, 4096, 0, 0, 0, 4096]
/-- The layer with its matrix as the compositor uses it: the preset is computed at commit. -/
def withMatrix (outCs : Nat) (y : Layer) : Layer :=
  match y.cmode with
  | 0 => { y with c := identityMatrix, inOff := [0, 0, 0], outOff := [0, 0, 0] }
  | 1 => { y with c := presetMatrix y.srcCs outCs, inOff := [64, 512, 512], outOff := [64, 512, 512] }
  | _ => y
/-- Output component `j` (R236). -/
def matrixOut (y : Layer) (j : Nat) (v : List Int) : Nat :=
  let t (i : Nat) : Int := nth y.c (3 * j + i) 0 * (nth v i 0 - nth y.inOff i 0)
  (clampI 0 1023 (rndC (t 0 + t 1 + t 2) 12 + nth y.outOff j 0)).toNat

/-! ### Samples of a layer (R234, R235) -/

/-- The surface that a latch names. -/
def latchSurf (t : Latch) : Option Surf := t.record.map fun r => ⟨t.owner, t.off, ⟨r.width, r.height, r.levels, r.tenBit⟩⟩
/-- Component `p` of a 30-bit colour. -/
def colourOf (c p : Nat) : Nat := c / 2 ^ (10 * p) % 1024
/-- A 10-bit source sample. (DEDUCED, log entry 127.) -/
def srcSample (d : Dev) (s : Surf) (k p : Nat) (x z : Int) : Nat :=
  let r := sampleAt d s k p x z
  if s.geo.ten then r.1 else 4 * r.1
/-- π, and sin(π x) by its series about the nearest whole number. -/
def piQ : Rat := 314159265358979323846 / 100000000000000000000
def sinTerms (y : Rat) : Nat → Nat → Rat → Rat
  | 0, _, _ => 0
  | n + 1, k, t => t + sinTerms y n (k + 2) (-t * y * y / ((k + 1) * (k + 2) : Nat))
def sinPi (x : Rat) : Rat :=
  let n := (x + 1 / 2).floor
  let s := sinTerms (piQ * (x - n)) 16 1 (piQ * (x - n))
  if n % 2 = 0 then s else -s
def sincPi (x : Rat) : Rat := if x = 0 then 1 else sinPi x / (piQ * x)
/-- The filter coefficients of a scaler at one of its 64 phases (R235): a Lanczos kernel with a = taps / 2 and cutoff
min(1, dst / source), its values 10-bit signed, what their sum lacks of 512 added to the centre tap. (DEDUCED, log entry 127.) -/
def lanczos (taps phase dst src : Nat) : List Int :=
  let c : Rat := if dst < src then (dst : Rat) / src else 1
  let v := (List.range taps).map fun (i : Nat) =>
    let t : Rat := (i : Rat) + 1 - (taps : Rat) / 2 - (phase : Rat) / 64
    clampI (-512) 511 (roundAway (512 * c * sincPi (c * t) * sincPi (2 * t / taps)))
  let mid := taps / 2 - 1 + (decide (32 < phase)).toNat
  upd v mid (nth v mid 0 + (512 - v.foldl (· + ·) 0))
/-- Where output sample `j` of `dst` lies in a crop: whole position, and phase 0 to 63. (DEDUCED, log entry 127.) -/
def scalePos (start size dst j : Nat) : Int × Nat :=
  let p : Int := (start : Int) * 65536 + ((2 * j + 1) * size * 65536 : Nat) / (2 * max 1 dst : Nat) - 32768
  (p / 65536, (p % 65536).toNat / 1024)
/-- A filter over samples `f`, taps outside the crop repeating its edge samples. -/
def filter (taps start size dst j : Nat) (f : Int → Int) : Int :=
  if size = dst then f (start + j : Nat)
  else
    let p := scalePos start size dst j
    let lo : Int := start
    let hi : Int := (start + size : Nat) - 1
    let sum := ((List.range taps).map fun t =>
      nth (lanczos taps p.2 dst size) t 0 * f (clampI lo hi (p.1 - (taps / 2 - 1 : Nat) + t))).foldl (· + ·) 0
    clampI 0 1023 (rndC sum 9)
/-- A scaled dimension of plane `p` of a layer: the crop's start and size in the plane, and the destination's size; on the direct
path the size is the destination's, so that samples are copied (R233). (DEDUCED, log entry 127.) -/
structure Span where
  start : Nat
  size : Nat
  dst : Nat
  deriving DecidableEq, Repr
def spanOf (direct : Bool) (p : Nat) (c : Nat × Nat) (dst : Nat) : Span :=
  let dst := if p = 0 then dst else dst / 2
  let c := if p = 0 then c else (c.1 / 2, (c.1 + c.2 + 1) / 2 - c.1 / 2)
  ⟨c.1, if direct then dst else c.2, dst⟩
def spanX (y : Layer) (s : Surf) (k p : Nat) : Span := spanOf (directAt y s.geo.w s.geo.h k) p (cropAt y.cropX y.cropW s.geo.w k) y.dstW
def spanY (y : Layer) (s : Surf) (k p : Nat) : Span := spanOf (directAt y s.geo.w s.geo.h k) p (cropAt y.cropY y.cropH s.geo.h k) y.dstH
/-- The sample of plane `p` at (ox, oy) of the destination before the matrix. -/
def layerSample (d : Dev) (y : Layer) (s : Surf) (k p ox oy : Nat) : Nat :=
  let cx := spanX y s k p
  let cy := spanY y s k p
  (filter 8 cx.start cx.size cx.dst ox fun x => filter y.taps cy.start cy.size cy.dst oy fun z => (srcSample d s k p x z : Int)).toNat
/-- The source sample that lies nearest to output sample `j`. -/
def Span.near (c : Span) (j : Nat) : Int :=
  if c.size = c.dst then (c.start + j : Nat)
  else
    let q := scalePos c.start c.size c.dst j
    clampI c.start ((c.start + c.size : Nat) - 1) (q.1 + (decide (32 ≤ q.2)).toNat)
/-- First and last source sample that output samples `i` to `j` read through `taps` taps. -/
def Span.reads (c : Span) (taps i j : Nat) : Int × Int :=
  if c.size = c.dst then ((c.start + i : Nat), (c.start + j : Nat))
  else
    let hi : Int := (c.start + c.size : Nat) - 1
    (clampI c.start hi ((scalePos c.start c.size c.dst i).1 - (taps / 2 - 1 : Nat)),
      clampI c.start hi ((scalePos c.start c.size c.dst j).1 + (taps / 2 : Nat)))
/-- The tile in which an output sample lies reads as uncorrectable (R242). (DEDUCED, log entry 130.) -/
def tileLost (d : Dev) (y : Layer) (s : Surf) (k p ox oy : Nat) : Bool :=
  (sampleAt d s k p ((spanX y s k p).near ox) ((spanY y s k p).near oy)).2
/-- Tiles of a level that rows `z0` to `z1` of a layer's destination read. (DEDUCED, log entry 130.) -/
def tilesRead (y : Layer) (s : Surf) (k z0 z1 : Nat) : List Nat :=
  ([0, 1].flatMap fun p =>
    let cx := spanX y s k p
    let cy := spanY y s k p
    let i := if p = 0 then z0 else z0 / 2 - 1
    let j := if p = 0 then z1 else min (cy.dst - 1) (z1 / 2 + 1)
    let at_ (n : Nat) (v : Int) : Nat := (clampI 0 ((n : Int) - 1) v).toNat
    let xs := cx.reads 8 0 (cx.dst - 1)
    let zs := cy.reads y.taps i j
    let c0 := at_ (s.geo.planeW k p) xs.1 / (if p = 0 then 32 else 16)
    let c1 := at_ (s.geo.planeW k p) xs.2 / (if p = 0 then 32 else 16)
    let r0 := at_ (s.geo.planeH k p) zs.1 / (if p = 0 then 8 else 4)
    let r1 := at_ (s.geo.planeH k p) zs.2 / (if p = 0 then 8 else 4)
    (List.range (r1 + 1 - r0)).flatMap fun r => (List.range (c1 + 1 - c0)).map fun c => (r0 + r) * s.geo.tx k + c0 + c).eraseDups
/-- Component `p` of a layer at (ox, oy) of its destination, after the matrix. -/
def layerOut (d : Dev) (y : Layer) (s : Surf) (k p ox oy : Nat) : Nat :=
  let v (q x z : Nat) : Nat := layerSample d y s k q x z
  let site (q : Nat) : Nat :=
    (Config.chromaSite (ox % 2) (oy % 2) ((List.range 9).map fun i => v q (ox / 2 + i % 3 - 1) (oy / 2 + i / 3 - 1))).toNat
  let vals : List Nat :=
    if p = 0 then [v 0 ox oy, site 1, site 2]
    else [(Config.lumaSite [v 0 (2 * ox) (2 * oy), v 0 (2 * ox + 1) (2 * oy), v 0 (2 * ox) (2 * oy + 1), v 0 (2 * ox + 1) (2 * oy + 1)]).toNat,
          v 1 ox oy, v 2 ox oy]
  matrixOut y p (vals.map fun (n : Nat) => (n : Int))

/-! ### Blending and bands (R238, R243) -/

/-- The picture below with a layer over it. -/
def blend (alpha s b : Nat) : Nat := (s * alpha + b * (255 - alpha) + 127) / 255
/-- What a layer shows at a sample: the placeholder colour over the area of a tile that cannot be read (R242). -/
def shownAt (d : Dev) (y : Layer) (s : Surf) (k p ox oy : Nat) : Nat :=
  if tileLost d y s k p ox oy then colourOf y.ph p else layerOut d y s k p ox oy
/-- Layer `t` over `below` at a sample of the output. -/
def overlay (d : Dev) (set : LayerSet) (p x z : Nat) (below : Nat) (t : Latch) : Nat :=
  let y := nth set.layers t.layer {}
  let sh := if p = 0 then 1 else 2
  let x0 := y.dstX / sh
  let y0 := y.dstY / sh
  if x < x0 || x0 + y.dstW / sh ≤ x || z < y0 || y0 + y.dstH / sh ≤ z then below
  else match t.kind, latchSurf t with
    | 1, some s => blend y.alpha (shownAt d y s t.level p (x - x0) (z - y0)) below
    | 2, some s =>
      blend y.alpha (shownAt d (withMatrix 0 { y with cropW := 0, cropH := 0, cmode := 0 }) s t.level p (x - x0) (z - y0)) below
    | 0, _ => below
    | _, _ => blend y.alpha (colourOf y.ph p) below
/-- A sample of the output picture. -/
def outSample (d : Dev) (l : Layout) (f : Frame) (p x z : Nat) : Nat :=
  let v := f.latches.foldl (overlay d f.set p x z) (colourOf f.set.bg p)
  if l.tenBit then v else (clampI 0 255 (rndC v 2)).toNat
/-- Rows of band `b`, and of its level `k`. -/
def bandRows (l : Layout) (b : Nat) : Nat := min 64 (l.outH - 64 * b)
def bandCount (l : Layout) : Nat := ceilDiv l.outH 64
/-- Bytes and 4 KiB units of a band buffer. -/
def bandUnits (l : Layout) (b : Nat) : Nat :=
  let bps := if l.tenBit then 2 else 1
  let pad (w : Nat) : Nat := 32 * ceilDiv (w * bps) 32
  let rows (k : Nat) : Nat := levelDim (bandRows l b) k
  ceilDiv (((List.range 4).map fun k =>
    rows k * pad (levelDim l.outW k) + 2 * ((rows k + 1) / 2 * pad ((levelDim l.outW k + 1) / 2))).sum) 4096
/-- A plane as rows of samples in raster order. -/
def planeOf (w h : Nat) (f : Nat → Nat → Nat) : List Nat := (List.range h).flatMap fun z => (List.range w).map fun x => f x z
/-- The planes of a band, level by level: level 0 is composed, each next level follows R228. -/
def bandPlanes (d : Dev) (l : Layout) (f : Frame) (b : Nat) : List (List Nat) :=
  let h0 := bandRows l b
  let dim (k p : Nat) : Nat × Nat :=
    if p = 0 then (levelDim l.outW k, levelDim h0 k) else ((levelDim l.outW k + 1) / 2, (levelDim h0 k + 1) / 2)
  let base := (List.range 3).map fun p =>
    planeOf (dim 0 p).1 (dim 0 p).2 fun x z => outSample d l f p x (z + (if p = 0 then 64 * b else 32 * b))
  (List.range 3).foldl (fun ps k => ps ++ (List.range 3).map fun p =>
    let prev := nth ps (3 * k + p) []
    planeOf (dim (k + 1) p).1 (dim (k + 1) p).2 fun x z =>
      pyrSample (fun x z => nth prev (z * (dim k p).1 + x) 0) (dim k p).1 (dim k p).2 x z) base
/-- The band is written as pack tiles of a copy surface with its pyramid (R244). -/
def writeBand (d : Dev) (l : Layout) (s : Surf) (b : Nat) (planes : List (List Nat)) : Dev :=
  (List.range 4).foldl (fun d k =>
    let row0 := 64 * b / 2 ^ k
    let rows := levelDim (bandRows l b) k
    let first := row0 / 8 * s.geo.tx k
    (List.range (ceilDiv rows 8 * s.geo.tx k)).foldl (fun d i =>
      let t := first + i
      let f (p x z : Nat) : Nat :=
        let w := s.geo.planeW k p
        let top := if p = 0 then row0 else row0 / 2
        nth (nth planes (3 * k + p) []) ((z - top) * w + x) 0
      writeTile s k d (t, tileFrom s.geo k t f)) d) d

end Sys2Proof.Machine
end

