-- ==== Sys2Proof/Machine/Srtp.lean ====
section
/-! DEFINITION. The SRTP engines: profiles and key derivation (R168 to R175), key slots (R176 to R178), index tracking
(R179, R180), protection and its limits (R181, R182), and where decrypted packets go (R268, R269). -/
namespace Sys2Proof.Machine

def secUnit : UnitId := ⟨8, 0xFF, 0⟩
def toNats (bs : List Byte) : List Nat := bs.map BitVec.toNat
def ofNats (ns : List Nat) : List Byte := ns.map (BitVec.ofNat 8)

/-! ### Profiles (R168, table Protection profiles) -/

def gcmProfile (p : Nat) : Bool := p == 2 || p == 3
def keyLen (p : Nat) : Nat := if p = 3 || p = 4 || p = 5 then 32 else 16
def saltLen (p : Nat) : Nat := if gcmProfile p then 12 else 14
/-- Bytes of the tag: SRTCP's is 10 for every HMAC profile. -/
def tagLen (p : Nat) (rtcp : Bool) : Nat := if gcmProfile p then 16 else if rtcp then 10 else if p = 1 || p = 5 then 4 else 10
def blobLen (p : Nat) : Nat := 8 + 8 * ceilDiv (keyLen p + saltLen p) 8

/-! ### Keys -/

/-- The key-encryption key of a function (R173). -/
def kek (root : BitVec 256) (fn gen : Nat) : List Nat :=
  let m (i : Nat) : List Nat := [i, 0x53, 0x4E, 0x55, 0x2D, 0x4B, 0x45, 0x4B, 0x00, fn, gen / 256 % 256, gen % 256, 0x01, 0x00]
  let k := beList root.toNat 32
  cmac k (m 1) ++ cmac k (m 2)
/-- `n` bytes of session key with a label, from the slot's master key and salt (RFC 3711, RFC 6188, RFC 7714; key derivation
rate 0). -/
def sessionKey (k : Key) (label n : Nat) : List Nat :=
  let salt := if gcmProfile k.profile then k.salt.toNat * 2 ^ 16 else k.salt.toNat
  aesCtr (beList k.master.toNat (keyLen k.profile)) ((label * 2 ^ 48 ^^^ salt) * 2 ^ 16) n
/-- Labels of SRTP (0, 1, 2) and SRTCP (3, 4, 5): encryption, authentication, salt. -/
def encKey (k : Key) (rtcp : Bool) : List Nat := sessionKey k (if rtcp then 3 else 0) (keyLen k.profile)
def authKey (k : Key) (rtcp : Bool) : List Nat := sessionKey k (if rtcp then 4 else 1) 20
def saltKey (k : Key) (rtcp : Bool) : Nat := natBe (sessionKey k (if rtcp then 5 else 2) (saltLen k.profile))
/-- The key check value (R175). -/
def keyCheck (k : Key) : List Nat := (aes (encKey k false) (List.replicate 16 0)).take 3

/-- The cipher of a packet's body: counter mode or GCM, with its SSRC and index; encryption and decryption alike. -/
def cipher (k : Key) (rtcp : Bool) (ssrc index : Nat) (body : List Nat) : List Nat :=
  let s := saltKey k rtcp
  if gcmProfile k.profile then gcmCrypt (encKey k rtcp) (beList (s ^^^ (ssrc * 2 ^ 48 + index)) 12) body
  else xorL body (aesCtr (encKey k rtcp) (s * 2 ^ 16 ^^^ ssrc * 2 ^ 64 ^^^ index * 2 ^ 16) body.length)
/-- The tag of an SRTP packet with header `h` and encrypted body `c`. -/
def srtpTag (k : Key) (ssrc index : Nat) (h c : List Nat) : List Nat :=
  if gcmProfile k.profile then gcmTag (encKey k false) (beList (saltKey k false ^^^ (ssrc * 2 ^ 48 + index)) 12) h c
  else (hmacSha1 (authKey k false) (h ++ c ++ beList (index / 65536) 4)).take (tagLen k.profile false)
/-- The tag of an SRTCP packet with 8-byte header `h`, body `c` and index word `e`. -/
def srtcpTag (k : Key) (ssrc index : Nat) (h c e : List Nat) : List Nat :=
  if gcmProfile k.profile then gcmTag (encKey k true) (beList (saltKey k true ^^^ (ssrc * 2 ^ 48 + index)) 12) (h ++ e) c
  else (hmacSha1 (authKey k true) (h ++ c ++ e)).take 10

/-! ### RTP headers -/

/-- Length of an RTP header with CSRC list and extension; `none` where the packet is shorter. -/
def rtpHeader (b : List Nat) : Option Nat :=
  let n := 12 + 4 * (nth b 0 0 % 16)
  let ext := (nth b 0 0).testBit 4
  if b.length < 12 then none
  else if !ext then (if n ≤ b.length then some n else none)
  else if b.length < n + 4 then none
  else
    let m := n + 4 + 4 * natBe (slice b (n + 2) 2)
    if m ≤ b.length then some m else none
def rtpSeq (b : List Nat) : Nat := natBe (slice b 2 2)
def rtpTs (b : List Nat) : Nat := natBe (slice b 4 4)
def rtpSsrc (b : List Nat) : Nat := natBe (slice b 8 4)

/-! ### Slots (R176 to R178) -/

/-- (DEDUCED, log entry 138.) -/
def legKeys (d : Dev) (leg : Nat) : List Key := d.sec.keys.filter fun k => k.leg == leg && k.state != .erasing
def findKey (d : Dev) (h : Nat) : Option Key := d.sec.keys.find? fun k => k.handle == h
def putKey (d : Dev) (k : Key) : Dev :=
  { d with sec := { d.sec with keys := d.sec.keys.map fun x => if x.handle == k.handle then k else x } }
def keyIn (d : Dev) (leg : Nat) (s : KState) : Option Key := (legKeys d leg).find? fun k => k.state == s
/-- A slot retires: its contents are zeroed, and it and its booking are in transit until the boundary. -/
def retireKey (d : Dev) (h : Nat) : Dev :=
  match findKey d h with
  | none => d
  | some k =>
    if k.state == .erasing then d
    else
      let d := ledgRelease (putKey d { k with state := .erasing, master := 0, salt := 0 }) 3 0 1
      match findObj d h with
      | some o => unbook (putObj d { o with books := [] }) o.books
      | none => d
/-- Erased slots become FREE at the boundary (R178). -/
def freeErased (d : Dev) : Dev :=
  let gone := (d.sec.keys.filter fun k => k.state == KState.erasing).map Key.handle
  ledgLand { d with sec := { d.sec with keys := d.sec.keys.filter fun k => !gone.contains k.handle }
                    obj := { d.obj with objs := d.obj.objs.filter fun o => !gone.contains o.handle } } 3 0 gone.length
/-- A slot becomes ACTIVE in place of `old` at an index; EV_SEC_KEY_SWITCH. (DEDUCED, log entry 104.) -/
def activateKey (d : Dev) (k : Key) (old index : Nat) : Dev :=
  let d := putKey d { ((findKey d k.handle).getD k) with state := .active }
  raise d (evTo (evUnit secUnit 0x943 0 [(4, k.leg), (4, old), (4, k.handle), (6, index)]) k.fn)

/-! ### Crypto contexts (R179, R180) -/

def getCrypto (d : Dev) (leg stream : Nat) : Crypto :=
  (d.sec.crypto.find? fun c => c.leg == leg && c.stream == stream).getD { leg := leg, stream := stream }
def putCrypto (d : Dev) (c : Crypto) : Dev :=
  { d with sec := { d.sec with crypto := c :: d.sec.crypto.filter fun x => !(x.leg == c.leg && x.stream == c.stream) } }
/-- Packets of a window code. -/
def windowSize (w : Nat) : Nat := match w with | 0 => 64 | 1 => 128 | 2 => 256 | _ => 1024
/-- The index of a packet with sequence number `seq` (RFC 3711, Appendix A). (DEDUCED, log entry 108.) -/
def estimateIndex (c : Crypto) (seq : Nat) : Nat :=
  if !c.started then 65536 * c.roc + seq
  else
    let l := c.high % 65536
    let roc := c.high / 65536
    let v := if l < 32768 then (if l + 32768 < seq then (roc + 2 ^ 32 - 1) % 2 ^ 32 else roc)
      else if seq + 32768 < l then roc + 1 else roc
    65536 * v + seq
/-- The index lies at or below the window or has been seen. -/
def replayed (started : Bool) (high : Nat) (bitmap : BitVec 1024) (window index : Nat) : Bool :=
  started && (decide (index + window ≤ high) || (decide (index ≤ high) && bitmap.toNat.testBit (high - index)))
/-- The bitmap and highest index after an index authenticates. (DEDUCED, log entry 108.) -/
def seen (started : Bool) (high : Nat) (bitmap : BitVec 1024) (index : Nat) : Nat × BitVec 1024 :=
  if !started then (index, 1)
  else if high < index then (index, (bitmap <<< (index - high)) ||| 1)
  else (high, bitmap ||| (1 <<< (high - index)))

/-! ### Limits (R181, R182) -/

/-- An event limited to one record per stride whatever the function that it names. (DEDUCED, log entry 106.) -/
def raiseOnceAny (d : Dev) (e : Ev) : Dev :=
  match d.evt.once.find? fun o => o.code == e.code && o.key == e.key with
  | some o => raiseOnce d { e with fn := o.fn, scope := o.scope, quarter := o.quarter, uclass := o.uclass, index := o.index }
  | none => raiseOnce d e
/-- A drop of a reason, with its counter and event: the leg and the slot, 0 for none. -/
def secDrop (d : Dev) (reason fn leg slot : Nat) : Dev :=
  let d := cnt d (SEC + 0x40 + 4 * reason) 1
  if reason = 0 then raiseOnceAny d (evTo (evUnit secUnit 0x940 1 [(4, leg), (4, slot)]) fn)
  else raiseOnceAny d { evTo (evUnit secUnit 0x941 2 [(1, reason), (4, leg), (4, slot)]) fn with key := reason }
/-- GCM invocations that the slot may make. -/
def invSpent (k : Key) : Bool := gcmProfile k.profile && decide (2 ^ k.invLimit ≤ k.inv)
/-- One more GCM invocation, with EV_SEC_KEY_AGING at 15/16 of a limit; the index is 0 for a packet that does not
authenticate, whose index says nothing (R181). (DEDUCED, log entry 106.) -/
def useKey (d : Dev) (h : Nat) (index limit : Nat) : Dev :=
  match findKey d h with
  | none => d
  | some k =>
    let k := if gcmProfile k.profile then { k with inv := k.inv + 1 } else k
    let byIndex := decide (limit * 15 / 16 ≤ index)
    let byInv := gcmProfile k.profile && decide (2 ^ k.invLimit * 15 / 16 ≤ k.inv)
    if !k.aged && (byIndex || byInv) then
      raise (putKey d { k with aged := true })
        (evTo (evUnit secUnit 0x942 1 [(4, k.handle), (1, if byIndex then 0 else 1), (6, if byIndex then index else k.inv)]) k.fn)
    else putKey d k

/-! ### Outbound packets -/

/-- The slot that protects an index of the leg's media stream: a STANDBY slot takes over at its from_index (R176). -/
def outSlot (d : Dev) (leg index : Nat) : Dev :=
  match keyIn d leg .standby with
  | none => d
  | some k =>
    if index < k.fromIndex then d
    else
      let old := ((keyIn d leg .active).map Key.handle).getD 0
      activateKey (if old = 0 then d else retireKey d old) k old index
/-- A protected packet's ciphertext and tag as the engines give them: a faulty engine's are free (R171). (DESIGN CHOICE, log
entry 201.) -/
def engineOut (d : Dev) (out : List Nat) : Dev × List Nat :=
  if d.sec.faulty then (let r := drawFree d (8 * out.length); (r.2, beList r.1.toNat out.length)) else (d, out)
/-- An outbound RTP packet, protected; `none` where it is dropped. `stored` is the index of a resend that leaves the rollover
counter alone (R284). -/
def protectRtp (d : Dev) (l : Leg) (stream : Nat) (pkt : List Nat) (stored : Option Nat) : Dev × Option (List Nat) :=
  let c := getCrypto d l.handle stream
  let seq := rtpSeq pkt
  let roc := if c.started && decide (seq < c.high) && decide (32768 ≤ c.high) then c.roc + 1 else c.roc
  let index := stored.getD (65536 * roc + seq)
  let d := if stream = 0 && stored.isNone then outSlot d l.handle index else d
  match keyIn d l.handle .active with
  | none => (secDrop d 2 l.fn l.handle 0, none)
  | some k =>
    let h := (rtpHeader pkt).getD 12
    if 9216 < pkt.length + tagLen k.profile false then (secDrop d 3 l.fn l.handle k.handle, none)
    else if 2 ^ 48 ≤ index then (secDrop d 4 l.fn l.handle k.handle, none)
    else if invSpent k then (secDrop d 5 l.fn l.handle k.handle, none)
    else
      let d := useKey d k.handle index (2 ^ 48)
      let d := if stored.isNone then putCrypto d { c with started := true, roc := roc, high := seq } else d
      let ct := cipher k false (rtpSsrc pkt) index (pkt.drop h)
      let r := engineOut d (ct ++ srtpTag k (rtpSsrc pkt) index (pkt.take h) ct)
      (cnt r.1 (SEC + 0x64) 1, some (pkt.take h ++ r.2))
/-- Bytes of a GCM packet's index word, which follows the tag. -/
def indexWord (p : Nat) : Nat := if gcmProfile p then 4 else 0
/-- An outbound RTCP packet, protected with the active slot (R177, R180). -/
def protectRtcp (d : Dev) (l : Leg) (pkt : List Nat) : Dev × Option (List Nat) :=
  match keyIn d l.handle .active with
  | none => (secDrop d 2 l.fn l.handle 0, none)
  | some k =>
    let c := getCrypto d l.handle 0
    let index := c.rtcpHigh
    if !k.rtcp then (secDrop d 2 l.fn l.handle k.handle, none)
    else if 9216 < pkt.length + (4 - indexWord k.profile) + tagLen k.profile true then (secDrop d 3 l.fn l.handle k.handle, none)
    else if 2 ^ 31 ≤ index then (secDrop d 4 l.fn l.handle k.handle, none)
    else if invSpent k then (secDrop d 5 l.fn l.handle k.handle, none)
    else
      let d := putCrypto (useKey d k.handle index (2 ^ 31)) { c with rtcpHigh := index + 1 }
      let ssrc := natBe (slice pkt 4 4)
      let ct := cipher k true ssrc index (pkt.drop 8)
      let e := beList (2 ^ 31 + index) 4
      let tag := srtcpTag k ssrc index (pkt.take 8) ct e
      let r := engineOut d (if gcmProfile k.profile then ct ++ tag ++ e else ct ++ e ++ tag)
      (cnt r.1 (SEC + 0x64) 1, some (pkt.take 8 ++ r.2))

/-! ### Where decrypted packets go (R268) -/

/-- The source that an inbound leg is or belongs to: its simulcast group's first leg (R270). (DEDUCED, log entry 140.) -/
def legSource (l : Leg) : Nat := if l.simGroup = 0 then l.handle else l.simGroup
/-- Outbound legs that a source feeds or that are to join it. -/
def feeds (d : Dev) (src : Nat) : List Leg :=
  d.fwd.legs.filter fun l => l.out && (l.source == some src || (l.join.map Prod.fst) == some src)
/-- Firmware's reserve can take a card. (DEDUCED, log entry 107.) -/
def fwRoom (d : Dev) : Bool := decide (fwUsed d < d.variant.fwSlots) && (freeSlot d).isSome
/-- The decode contexts that take a packet of the leg. -/
def ctxTakes (d : Dev) (l : Leg) (pt ts : Nat) : List Nat :=
  (d.vid.ctxs.filter fun (x : Ctx) => x.inLeg == l.handle && !x.released && x.pt == pt &&
    (match x.lastTs with | some t => decide (0 < sdiff (wd ts) (wd t)) | none => true)).map Ctx.handle
/-- Bits by stride and layers of an inbound leg, for R275. -/
def addRate (d : Dev) (leg s t bits : Nat) : Dev :=
  let now := d.tim.stride
  modLeg d leg fun l =>
    let log := l.rate.filter fun x => decide (now < x.1 + 1200)
    if log.any fun x => x.1 == now && x.2.1 == s && x.2.2.1 == t then
      { l with rate := log.map fun x => if x.1 == now && x.2.1 == s && x.2.2.1 == t then (x.1, x.2.1, x.2.2.1, x.2.2.2 + bits) else x }
    else { l with rate := log ++ [(now, s, t, bits)] }
/-- The packet is the first of its RTP timestamp on its leg (R274). (DEDUCED, log entry 141.) -/
def newTs (l : Leg) (ts : Nat) : Bool := match l.inPic with | none => true | some t => decide (0 < sdiff (wd ts) (wd t))
/-- The inbound leg's record after a packet: its template table, its latest timestamp, its bit rate. -/
def noteInbound (d : Dev) (l : Leg) (ts bits : Nat) (v : Layers) : Dev :=
  let d := modLeg d l.handle fun x => { x with templates := l.templates, inPic := if newTs l ts then some ts else x.inPic }
  if l.media = 1 then addRate d l.handle v.s v.t bits else d
/-- A decrypted RTP packet goes to every consumer that names its leg; a decode context copies it into its bitstream buffer.
(DEDUCED, log entry 107.) -/
def deliverMedia (d : Dev) (l : Leg) (k : Pkt) (plain : List Nat) (r : LayerRead) : Dev :=
  let l := { l with templates := r.templates.getD l.templates }
  let ts := rtpTs plain
  let v := readLayers l plain (plain.drop ((rtpHeader plain).getD 12)) (newTs l ts) r.mark
  let part := findPart d l.part
  let home := ((part.bind fun p => findConf d p.conf).map Conf.home).getD 0xFF
  let jit := l.media == 0 && part.isSome && quarterUp d home && fwRoom d
  let casc := l.media == 2
  let ctxs := if l.media = 1 then ctxTakes d l (nth plain 1 0 % 128) ts else []
  let fan := !(feeds d (legSource l)).isEmpty
  let refs := jit.toNat + casc.toNat + fan.toNat
  let d := noteInbound d l ts (8 * plain.length) v
  let d := ctxs.foldl (fun d c => modCtx d c fun x => { x with pkts := x.pkts ++ [(ofNats plain, d.tim.stride)] }) d
  if refs = 0 then freePkt (if ctxs.isEmpty then cnt d (FWD + 0x48) 1 else d) k
  else
    let m : MPkt := { pkt := { k with bytes := ofNats plain }, leg := l.handle, refs := refs }
    let d := { d with fwd := { d.fwd with mpkts := d.fwd.mpkts ++ [m] } }
    let d := if fan then
        { d with fwd := { d.fwd with inq := d.fwd.inq ++
          [{ src := legSource l, held := some k.id, bytes := ofNats plain, pic := ts, s := v.s, t := v.t, first := newTs l ts,
             last := l.media != 1 || (nth plain 1 0).testBit 7, join := v.join, up := v.up, deps := v.deps, known := v.known,
             fmt := if l.media = 1 then l.fmt else 0 }] } }
      else d
    let d := if casc then { d with aud := { d.aud with cascq := d.aud.cascq ++ [(l.part, k.id)] } } else d
    match part, jit with
    | some p, true =>
      fwCard d { slot := 0, seq := 0, cls := 1, exec := 1, quarter := home, deadline := strideW d, flow := p.handle, fn := p.fn,
                 source := .firmware, owner := p.handle, work := .jitter p.handle k.id } false
    | _, _ => d
/-- RTCP packets of a compound packet, `n` at most. -/
def splitRtcp : Nat → List Nat → List (List Nat)
  | 0, _ => []
  | n + 1, b =>
    if b.length < 4 then []
    else
      let len := 4 * (natBe (slice b 2 2) + 1)
      b.take len :: splitRtcp n (b.drop len)
/-- A decrypted RTCP packet goes to the forwarding stage and groom firmware, one RTCP packet after another (R269). -/
def deliverRtcp (d : Dev) (l : Leg) (k : Pkt) (plain : List Nat) : Dev :=
  let ps := splitRtcp plain.length plain
  if ps.isEmpty then freePkt d k
  else
    { d with fwd :=
      { d.fwd with
        mpkts := d.fwd.mpkts ++ [{ pkt := { k with bytes := ofNats plain }, leg := l.handle, refs := ps.length }]
        rtcp := d.fwd.rtcp ++ ps.map fun p => (l.handle, k.id, ofNats p) } }

/-! ### Inbound packets (R177, R179, R181) -/

/-- A drop of an inbound packet. -/
def dropIn (d : Dev) (k : Pkt) (reason fn leg slot : Nat) : Dev := freePkt (secDrop d reason fn leg slot) k
/-- The slot that checks an inbound index (R176): a STANDBY slot or the ACTIVE one from from_index on, else the old one.
(DEDUCED, log entry 104.) -/
def inSlot (d : Dev) (leg index : Nat) : Option Key :=
  let old := match keyIn d leg .active, keyIn d leg .draining with
    | some a, some o => if index < a.fromIndex then some o else some a
    | a, _ => a
  match keyIn d leg .standby with
  | some s => if s.fromIndex ≤ index then some s else old
  | none => old
/-- An index has authenticated under a slot: a STANDBY slot takes over, a DRAINING one retires once its window has
passed. -/
def authSwitch (d : Dev) (leg index : Nat) (k : Key) : Dev :=
  let d := if k.state == .standby then
      (match keyIn d leg .active with
       | some a => activateKey (putKey d { ((findKey d a.handle).getD a) with state := .draining }) k a.handle index
       | none => activateKey d k 0 index)
    else d
  match keyIn d leg .active, keyIn d leg .draining with
  | some a, some o =>
    if a.handle == k.handle && decide (a.fromIndex + windowSize a.window ≤ index) then retireKey d o.handle else d
  | _, _ => d
/-- (DEDUCED, log entry 103.) -/
def inboundRtp (d : Dev) (l : Leg) (k : Pkt) (b : List Nat) (r : LayerRead) : Dev :=
  match rtpHeader b with
  | none => dropIn d k 6 l.fn l.handle 0
  | some h =>
    let c := getCrypto d l.handle 0
    let index := estimateIndex c (rtpSeq b)
    match inSlot d l.handle index with
    | none => dropIn d k 2 l.fn l.handle 0
    | some s =>
      let n := tagLen s.profile false
      if b.length < h + n then dropIn d k 6 l.fn l.handle s.handle
      else if replayed c.started c.high c.bitmap (windowSize s.window) index then dropIn d k 1 l.fn l.handle s.handle
      else if 2 ^ 48 ≤ index then dropIn d k 4 l.fn l.handle s.handle
      else if invSpent s then dropIn d k 5 l.fn l.handle s.handle
      else
        let hd := b.take h
        let ct := slice b h (b.length - h - n)
        let ok := !d.sec.faulty && srtpTag s (rtpSsrc b) index hd ct == b.drop (b.length - n)
        let d := useKey d s.handle (if ok then index else 0) (2 ^ 48)
        if !ok then dropIn d k 0 l.fn l.handle s.handle
        else
          let v := seen c.started c.high c.bitmap index
          let d := putCrypto d { c with started := true, roc := v.1 / 65536, high := v.1, bitmap := v.2 }
          let d := authSwitch (cnt d (SEC + 0x60) 1) l.handle index s
          deliverMedia d l k (hd ++ cipher s false (rtpSsrc b) index ct) r
/-- An SRTCP packet checked with one slot: its plaintext where the tag agrees. -/
def openRtcp (s : Key) (b : List Nat) : Option (List Nat) :=
  let n := tagLen s.profile true
  let len := b.length
  let body := slice b 8 (len - 12 - n)
  let e := if gcmProfile s.profile then b.drop (len - 4) else slice b (len - n - 4) 4
  let tag := if gcmProfile s.profile then slice b (len - 4 - n) n else b.drop (len - n)
  let index := natBe e % 2 ^ 31
  let ssrc := natBe (slice b 4 4)
  if 2 ^ 31 ≤ natBe e then
    (if srtcpTag s ssrc index (b.take 8) body e == tag then some (b.take 8 ++ cipher s true ssrc index body) else none)
  else
    let t := if gcmProfile s.profile then srtcpTag s ssrc index (b.take 8 ++ body) [] e else srtcpTag s ssrc index (b.take 8) body e
    if t == tag then some (b.take 8 ++ body) else none
/-- The SRTCP index of a packet under a profile. -/
def rtcpIndex (p : Nat) (b : List Nat) : Nat :=
  natBe (if gcmProfile p then b.drop (b.length - 4) else slice b (b.length - tagLen p true - 4) 4) % 2 ^ 31
/-- One check of an SRTCP packet with one slot: its index and plaintext, or the reason that it fails. (DEDUCED, log entry 103.) -/
def checkRtcp (d : Dev) (l : Leg) (s : Key) (b : List Nat) : Dev × Except Nat (Nat × List Nat) :=
  let c := getCrypto d l.handle 0
  let i := rtcpIndex s.profile b
  if b.length < 8 + 4 + tagLen s.profile true then (d, .error 6)
  else if replayed c.rtcpStarted c.rtcpHigh c.rtcpBitmap (windowSize s.window) i then (d, .error 1)
  else if invSpent s then (d, .error 5)
  else match d.sec.faulty, openRtcp s b with
    | false, some p => (useKey d s.handle i (2 ^ 31), .ok (i, p))
    | _, _ => (useKey d s.handle 0 (2 ^ 31), .error 0)
/-- An SRTCP packet has authenticated with an index. -/
def acceptRtcp (d : Dev) (l : Leg) (k : Pkt) (i : Nat) (plain : List Nat) : Dev :=
  let c := getCrypto d l.handle 0
  let v := seen c.rtcpStarted c.rtcpHigh c.rtcpBitmap i
  deliverRtcp (cnt (putCrypto d { c with rtcpStarted := true, rtcpHigh := v.1, rtcpBitmap := v.2 }) (SEC + 0x60) 1) l k plain
/-- An SRTCP packet that fails authentication with the active slot is checked once with the leg's other slot (R177). -/
def inboundRtcp (d : Dev) (l : Leg) (k : Pkt) (b : List Nat) : Dev :=
  match keyIn d l.handle .active with
  | none => dropIn d k 2 l.fn l.handle 0
  | some a =>
    if !a.rtcp then dropIn d k 2 l.fn l.handle a.handle
    else if 9216 + indexWord a.profile < b.length then dropIn d k 3 l.fn l.handle a.handle
    else match checkRtcp d l a b with
      | (d, .ok v) => acceptRtcp d l k v.1 v.2
      | (d, .error 0) =>
        (match (legKeys d l.handle).find? fun s => (s.state == .standby || s.state == .draining) && s.rtcp with
         | none => dropIn d k 0 l.fn l.handle a.handle
         | some s => match checkRtcp d l s b with
           | (d, .ok v) => acceptRtcp d l k v.1 v.2
           | (d, .error r) => dropIn d k r l.fn l.handle (if r = 0 then a.handle else s.handle))
      | (d, .error r) => dropIn d k r l.fn l.handle a.handle
/-- The UDP payload of a packet, from its layer-4 header. -/
def udpPayload (k : Pkt) : List Nat :=
  let b := toNats (k.bytes.drop k.l4Off)
  (b.take (natBe (slice b 4 2))).drop 8
/-- The oldest packet of class MEDIA through the engines, of which one may be faulty (R171). (DESIGN CHOICE, log entry 201.) -/
def srtpInbound (d : Dev) (r : LayerRead) (fault : Bool) : Dev :=
  match d.sec.inq with
  | [] => d
  | k :: ks =>
    if !running d secUnit then d
    else
      let d := { d with sec := { d.sec with inq := ks, faulty := fault } }
      match findLeg d k.target with
      | none => dropIn d k 2 0 k.target 0
      | some l =>
        let b := udpPayload k
        if l.out then dropIn d k 2 0 k.target 0
        else if k.profile = 2 then inboundRtcp d l k b
        else if 9216 < b.length then dropIn d k 3 l.fn l.handle 0
        else inboundRtp d l k b r
def execSrtpInbound (r : LayerRead) (fault : Bool) (s : State) : Host.Outcome State Fault Refusal :=
  onDev (fun d => srtpInbound d r fault) s

/-! ### Self-test (R171) and key generations (R173) -/

/-- SEC_SELFTEST: run, while the engines are STOPPED; else the write is ignored, and reported where it differs from run's present
value (R9). -/
def secSelftest (d : Dev) (val : Word) : Dev :=
  let a := SEC + 4
  if bit val 0 == getB d a 0 then d
  else if uState d secUnit != 0 then putB d SEC 8 true
  else if !bit val 0 then d
  else putB (putB (putB d a 0 true) a 1 false) a 2 false
def execSecSelftest (val : Word) (s : State) : Host.Outcome State Fault Refusal := onDev (fun d => secSelftest d val) s
/-- The test ends: run reads 0, done, and pass where no engine failed. -/
def selftestDone (d : Dev) (fail0 fail1 : Word) : Dev :=
  let a := SEC + 4
  if !getB d a 0 then d
  else
    let d := setReg (setReg d (SEC + 8) fail0) (SEC + 0xC) fail1
    putB (putB (putB d a 0 false) a 1 true) a 2 (fail0 == 0 && fail1 == 0)
def execSelftestDone (fail0 fail1 : Word) (s : State) : Host.Outcome State Fault Refusal :=
  onDev (fun d => selftestDone d fail0 fail1) s
/-- SEC_KEK_GEN of a function. -/
def execKekGenWrite (f : Fin 64) (val : Word) (s : State) : Host.Outcome State Fault Refusal :=
  onDev (fun d => setF d (SEC + 0x100 + 4 * f.val) 0 16 (fld val 0 16)) s

/-! ### KEY_LOAD and KEY_RETIRE -/

/-- A programmed and locked root key is present (R172). (DEDUCED, log entry 105.) -/
def rootOk (d : Dev) : Bool := d.sys.keyProg && d.sys.keyLock
/-- The master key and salt of a blob, with their lengths checked. -/
def openBlob (d : Dev) (fn gen p : Nat) (blob : List Byte) : Option (List Nat × List Nat) :=
  if !rootOk d then none
  else match keyUnwrap (kek d.sys.rootKey fn gen) (toNats blob) with
    | none => none
    | some m => if m.length = keyLen p + saltLen p then some (m.take (keyLen p), m.drop (keyLen p)) else none
/-- (DEDUCED, log entry 104; DEDUCED, log entry 105.) -/
def keyLoadAct (blob : HostRead) (d : Dev) (c : Cmd) : Except Fail Act := do
  let x := c.desc
  let o ← objOf d c.fn 4 (dHandle x)
  parentOpen d o
  let l ← (match findLeg d o.handle with | some l => .ok l | none => .error badHandle)
  let p := dBits x 8 0 3
  let atIndex := dBits x 9 0 1 == 1
  let active := keyIn d l.handle .active
  let inv := dBits x 34 0 6
  checkFields x ([(8, decide (p ≤ 5) && dBits x 8 4 4 == 0), (9, dBits x 9 4 4 == 0 && (!atIndex || active.isSome))] ++
    zeros x 10 11 ++ [(16, dNum x 22 2 == 0), (24, dNum x 24 8 % 8 == 0), (32, dNum x 32 2 == blobLen p),
    (34, dBits x 34 6 2 == 0 && (inv == 0 || (gcmProfile p && decide (16 ≤ inv) && decide (inv ≤ 47)))),
    (35, dByte x 35 == 0)] ++ zeros x 36 63)
  require (decide ((legKeys d l.handle).length < 2))
    { st := ST_NO_CAPACITY, res := resBytes [(1, 0xF2), (1, 0xFF), (2, 0), (4, 1), (4, 0)] }
  let ns : List Need := [⟨8, 1⟩]
  match admission d none 2 ns, newHandle d 8 with
  | .error r, _ => .error (noCapacity r)
  | .ok _, none => .error (noCapacity (refusal44 d 8 0 1))
  | .ok _, some h =>
    match blob with
    | .fail a => .error (busError c a.toNat)
    | .ok bytes =>
      match openBlob d c.fn c.n1 p (bytes.take (blobLen p)) with
      | none => .error { st := ST_UNWRAP_FAIL, evs := [evTo (evUnit secUnit 0x944 1 [(1, c.fn), (4, l.handle)]) c.fn] }
      | some (mk, ms) =>
        let k : Key := { handle := h, fn := c.fn, leg := l.handle, profile := p, rtcp := dBits x 8 3 1 == 1, state := .standby,
                         fromIndex := if atIndex then dNum x 16 6 else 0, window := dBits x 9 1 2,
                         invLimit := if inv = 0 then 47 else inv, master := BitVec.ofNat 256 (natBe mk),
                         salt := BitVec.ofNat 128 (natBe ms) }
        let d := ledgTake (book d 0 ns) 3 0 1
        let d := addObj d { handle := h, fn := c.fn, session := o.session, parent := l.handle, books := booksOf 0 ns }
        let d := { d with sec := { d.sec with keys := d.sec.keys ++ [k] } }
        let cr := getCrypto d l.handle 0
        let d := if cr.started then d
          else putCrypto d { cr with roc := if dBits x 9 3 1 = 1 then dNum x 12 4 else 0 }
        let d := if atIndex then d
          else
            let old := (active.map Key.handle).getD 0
            activateKey (if old = 0 then d else retireKey d old) k old (if cr.started then (if l.out then 65536 * cr.roc + cr.high else cr.high) else 65536 * (getCrypto d l.handle 0).roc)
        .ok (.done d (leBytes h 4 ++ ofNats (keyCheck k)))
def execKeyLoad (fn : Fin 64) (ring : Fin 32) (blob : HostRead) (s : State) : Host.Outcome State Fault Refusal :=
  onDev (runCmd 0x20 fn.val ring.val (keyLoadAct blob)) s

/-- The slot retires (R178); one that is ERASING is ST_BAD_FIELD, byte 4. (DEDUCED, log entry 42.) -/
def keyRetireAct (d : Dev) (c : Cmd) : Except Fail Act := do
  let o ← objOf d c.fn 8 (dHandle c.desc)
  let k ← (match findKey d o.handle with | some k => .ok k | none => .error badHandle)
  checkFields c.desc ([(4, k.state != .erasing)] ++ zeros c.desc 8 63)
  .ok (.done (retireKey d k.handle) [])
def execKeyRetire (fn : Fin 64) (ring : Fin 32) (s : State) : Host.Outcome State Fault Refusal :=
  onDev (runCmd 0x21 fn.val ring.val keyRetireAct) s

end Sys2Proof.Machine
end

