-- ==== Sys2Proof/Machine/Legs.lean ====
section
/-! DEFINITION. Legs: layer choice (R274 to R276), rewriting and hand-off (R277 to R279), the retransmission store and NACK
service (R280 to R284), FlexFEC (R285), refresh requests (R221, R271), releases (R273). -/
namespace Sys2Proof.Machine

def fwdUnit : UnitId := ⟨9, 0xFF, 0⟩
def evLeg (l : Leg) (code cls : Nat) (detail : List (Nat × Nat)) : Ev :=
  { evTo (evUnit fwdUnit code cls ([(4, l.handle)] ++ detail)) l.fn with key := l.handle }

/-! ### Frames (R277) -/

/-- The Internet checksum's sum of 16-bit words. -/
def sum16 : List Nat → Nat
  | a :: b :: l => 256 * a + b + sum16 l
  | [a] => 256 * a
  | [] => 0
def fold16 (n : Nat) : Nat := (n % 65536 + n / 65536) % 65536 + (n % 65536 + n / 65536) / 65536
def checksum (l : List Nat) : Nat := 65535 - fold16 (sum16 l)
/-- The address block is of IPv4 addresses. -/
def mapped (a : List Nat) : Bool := (a.take 10).all (· == 0) && slice a 10 2 == [0xFF, 0xFF]
/-- The frame that carries a UDP payload under an address block. -/
def legFrame (l : Leg) (payload : List Nat) : List Byte :=
  let b := toNats l.addr
  let v4 := mapped (b.take 16)
  let eth := slice b 36 6 ++ slice b 42 6 ++ (if l.vlan then [0x81, 0x00] ++ slice b 48 2 else []) ++
    (if v4 then [0x08, 0x00] else [0x86, 0xDD])
  let len := 8 + payload.length
  let src := if v4 then slice b 12 4 else b.take 16
  let dst := if v4 then slice b 28 4 else slice b 16 16
  let tc := 4 * (nth b 50 0 % 64)
  let udp (c : Nat) : List Nat := slice b 32 4 ++ beList len 2 ++ beList c 2 ++ payload
  let c := checksum (src ++ dst ++ [0, 17] ++ beList len 4 ++ udp 0)
  let ip :=
    if v4 then
      (let h (c : Nat) : List Nat := [0x45, tc] ++ beList (20 + len) 2 ++ [0, 0, 0x40, 0, nth b 51 0, 17] ++ beList c 2 ++ src ++ dst
       h (checksum (h 0)))
    else beList (6 * 2 ^ 28 + tc * 2 ^ 20) 4 ++ beList len 2 ++ [17, nth b 51 0] ++ src ++ dst
  ofNats (eth ++ ip ++ udp (if c = 0 then 0xFFFF else c))
/-- A protected payload goes to the Bridle in cells of its own. -/
def handOff (d : Dev) (l : Leg) (payload : List Nat) (post : Option Nat) : Dev :=
  let f := legFrame l payload
  let n := cellsFor f.length
  enterBridle (cnt (takeCells d n) (FWD + 0x40) 1)
    { id := 0, port := l.cfg.port, queue := l.cfg.queue, bytes := f, cells := n, post := post, leg := l.handle }
/-- The shared pool holds what has been taken of it: a producer without credit waits (R19). (DEDUCED, log entry 143.) -/
def creditHeld (d : Dev) : Bool := decide (d.pke.poolUsed + ((List.range 8).map (cellReserve d)).sum ≤ 65536)
/-- An action of a producer that waits, and changes nothing, where it would overdraw the pool. (DEDUCED, log entry 143.) -/
def withCredit (d e : Dev) : Dev := if creditHeld e then e else d

/-! ### Refresh requests (R221, R271) -/

/-- A payload-specific feedback packet: PLI (kind 1), FIR (2), from a leg's SSRC about a media SSRC. -/
def feedbackPacket (kind ssrc media seq : Nat) : List Nat :=
  if kind = 2 then [0x84, 206, 0, 4] ++ beList ssrc 4 ++ [0, 0, 0, 0] ++ beList media 4 ++ [seq % 256, 0, 0, 0]
  else [0x81, 206, 0, 2] ++ beList ssrc 4 ++ beList media 4
/-- An RTCP packet of groom firmware's waits for the engines. -/
def sendRtcp (d : Dev) (leg : Nat) (pkt : List Nat) : Dev :=
  { d with sec := { d.sec with outq := d.sec.outq ++ [⟨leg, ofNats pkt⟩] } }
/-- A request on a source leg's feedback leg, for leg `dest`. -/
def sendRefresh (d : Dev) (src : Leg) (kind dest : Nat) : Dev :=
  match findLeg d src.fbLeg with
  | none => d
  | some fb =>
    let d := sendRtcp d fb.handle (feedbackPacket kind fb.ssrc src.ssrc d.tim.stride)
    let d := modLeg d src.handle fun x => { x with lastReq := some d.tim.stride, reqWait := none }
    raise d (evTo (evUnit fwdUnit 0x805 0 [(4, src.handle), (1, kind), (4, dest)]) src.fn)
/-- The 24-stride limit, kept per source leg. -/
def reqDue (d : Dev) (last : Option Nat) : Bool := match last with | some n => decide (n + 24 ≤ d.tim.stride) | none => true
/-- A refresh request for leg `dest`'s source (R261 source 0, R271). -/
def requestRefresh (d : Dev) (src kind dest : Nat) : Dev :=
  if hKind src = 7 then modEnc d src fun e => { e with waveReq := some (e.waveReq.getD 0) }
  else match findLeg d src with
    | none => d
    | some x =>
      if x.media != 1 || x.fbLeg = 0 then d
      else if reqDue d x.lastReq then sendRefresh d x kind dest
      else modLeg d src fun x => { x with reqWait := some dest }

/-! ### Layer choice (R274 to R276) -/

/-- e of R274. -/
def legRate (l : Leg) : Nat := if l.cfg.bweFixed then l.cfg.fixedRate else min (max l.bwe l.cfg.minRate) l.cfg.maxRate
/-- The allowance. -/
def allowance (l : Leg) : Nat :=
  let a := legRate l * (1000 - l.cfg.headroom) / 1000
  match l.cfg.fecMode with
  | 1 => a * l.cfg.fecL / (l.cfg.fecL + 1)
  | 2 => a * l.cfg.fecD / (l.cfg.fecD + 1)
  | _ => a
/-- share(t) times `r` (table share(t)). -/
def shareOf (tLayers t r : Nat) : Nat :=
  match tLayers, t with
  | 2, 0 => r * 2 / 3
  | 3, 0 => r / 2
  | 3, 1 => r * 3 / 4
  | _, _ => r
/-- The source is a simulcast of independent layers. -/
def simulcast (d : Dev) (src : Nat) : Bool :=
  match findEnc d src with
  | some e => e.codec != 2
  | none => match findLeg d src with
    | some x => x.fmt == 4 || x.fmt == 5
    | none => false
/-- Members of an inbound source. -/
def members (d : Dev) (src : Nat) : List Leg := d.fwd.legs.filter fun x => !x.out && legSource x == src
/-- The choices of a source with their costs (R275). (DEDUCED, log entry 141.) -/
def choices (d : Dev) (src : Nat) : List ((Nat × Nat) × Nat) :=
  match findEnc d src with
  | some e =>
    (List.range e.sLayers).flatMap fun s => (List.range e.tLayers).map fun t =>
      let r := if e.codec = 2 then (e.cfg.rates.take (s + 1)).sum else nth e.cfg.rates s 0
      ((s, t), shareOf e.tLayers t r)
  | none =>
    let ms := members d src
    let now := d.tim.stride
    let sim := simulcast d src
    (if sim then (List.range 3).filter fun s => ms.any fun m => m.simIndex == s else List.range 3).flatMap fun s =>
      (List.range 3).map fun t =>
        ((s, t), ((ms.flatMap Leg.rate).filterMap fun x =>
          if now < x.1 + 1200 && (if sim then x.2.1 == s else decide (x.2.1 ≤ s)) && decide (x.2.2.1 ≤ t) then some x.2.2.2
          else none).sum)
def ranksBelow (a b : Nat × Nat) : Bool := decide (a.1 < b.1) || (a.1 == b.1 && decide (a.2 < b.2))
/-- The target within caps and allowance (R276). (DEDUCED, log entry 141.) -/
def targetOf (d : Dev) (l : Leg) (src : Nat) : Nat × Nat :=
  let a := allowance l
  (choices d src).foldl (fun best c =>
    if c.1.1 ≤ l.cfg.sCap && c.1.2 ≤ l.cfg.tCap && c.2 ≤ a && ranksBelow best c.1 then c.1 else best) (0, 0)
/-- The choice changes, with its count and event. -/
def setChoice (d : Dev) (l : Leg) (c : Nat × Nat) : Dev × Leg :=
  if c == (l.s, l.t) then (d, l)
  else
    (raiseOnce (cnt d (FWD + 0x58) 1) (evLeg l 0x800 0 [(1, l.s + 4 * l.t), (1, c.1 + 4 * c.2), (4, legRate l / 1000)]),
     { l with s := c.1, t := c.2, upSince := none })

/-! ### FlexFEC (R285, RFC 8627 with fixed L and D) -/

def xorPad : List Nat → List Nat → List Nat
  | a :: as, b :: bs => (a ^^^ b) :: xorPad as bs
  | [], bs => bs
  | as, [] => as
/-- The bits of a packet that a repair packet protects: its first 8 header bytes, its length beyond 12, what follows byte
12. -/
def fecBits (p : List Nat) : List Nat := p.take 8 ++ beList (p.length - 12) 2 ++ p.drop 12
/-- One repair packet's RTP packet over rewritten packets, with L and D. -/
def repairPacket (l : Leg) (seq : Nat) (ps : List (List Nat)) (cols rows : Nat) : List Nat :=
  let x := ps.foldl (fun a p => xorPad a (fecBits p)) []
  let base := (ps.head?.map rtpSeq).getD 0
  let head := [0x81, l.fecPt] ++ beList seq 2 ++ beList (l.tsLast % 2 ^ 32) 4 ++ beList l.fecSsrc 4 ++ beList l.ssrc 4
  head ++ [nth x 0 0 % 64 + 0x40, nth x 1 0] ++ slice x 8 2 ++ slice x 4 4 ++ beList base 2 ++ [cols % 256, rows % 256] ++ x.drop 10
/-- Protect and hand off one repair packet. -/
def sendRepair (d : Dev) (l : Leg) (ps : List (List Nat)) (post : Option Nat) (cols rows : Nat) : Dev × Leg :=
  let pkt := repairPacket l (l.fecSeq % 65536) ps cols rows
  let r := protectRtp d l 2 pkt none
  let l := { l with fecSeq := l.fecSeq + 1 }
  match r.2 with
  | none => (r.1, l)
  | some b => (cnt (handOff r.1 l b post) (FWD + 0x54) 1, l)
/-- The repair packets of a group's `k` columns from column `i` on. -/
def sendColumns : Nat → Nat → Nat → Nat → Dev → Leg → Dev × Leg
  | 0, _, _, _, d, l => (d, l)
  | n + 1, i, k, rows, d, l =>
    let ps := ((List.range l.fecPkts.length).zip l.fecPkts).filterMap fun x => if x.1 % k = i then some x.2 else none
    if ps.isEmpty then sendColumns n (i + 1) k rows d l
    else
      let r := sendRepair d l (ps.map fun x => toNats x.1) ((ps.getLast?.map Prod.snd).getD none) k rows
      sendColumns n (i + 1) k rows r.1 r.2
/-- The open group is closed with the packets it has. (DEDUCED, log entry 146.) -/
def closeFec (d : Dev) (l : Leg) : Dev × Leg :=
  match l.fecGroup with
  | none => (d, { l with fecPkts := [] })
  | some (cols, rows) =>
    let clear (r : Dev × Leg) : Dev × Leg := (r.1, { r.2 with fecPkts := [], fecGroup := none })
    if l.fecPkts.isEmpty then clear (d, l)
    else if rows = 0 then
      clear (sendRepair d l (l.fecPkts.map fun x => toNats x.1) ((l.fecPkts.getLast?.map Prod.snd).getD none) l.fecPkts.length 0)
    else clear (sendColumns cols 0 cols rows d l)
/-- A media packet joins the leg's group, which opens with the mode, L and D in force. (DEDUCED, log entry 146.) -/
def addFec (l : Leg) (pkt : List Nat) (post : Option Nat) : Leg :=
  if l.cfg.fecMode = 0 then l
  else
    { l with fecGroup := some (l.fecGroup.getD (l.cfg.fecL, if l.cfg.fecMode = 1 then 0 else l.cfg.fecD))
             fecPkts := l.fecPkts ++ [(ofNats pkt, post)] }
/-- A full group sends its repair packets. -/
def fullFec (d : Dev) (l : Leg) : Dev × Leg :=
  match l.fecGroup with
  | none => (d, l)
  | some g => if g.1 * max 1 g.2 ≤ l.fecPkts.length then closeFec d l else (d, l)

/-! ### The retransmission store (R280, R281) -/

def logSize (d : Dev) : Nat := rtxMib d * mib
/-- Bytes of the data log at a position, and a write there: the area is circular. -/
def logRead (d : Dev) (pos n : Nat) : List Byte :=
  let o := pos % logSize d
  let k := min n (logSize d - o)
  hbmBytes d (rtxBase d.variant + o) k ++ hbmBytes d (rtxBase d.variant) (n - k)
def logWrite (d : Dev) (pos : Nat) (bs : List Byte) : Dev :=
  let o := pos % logSize d
  let k := min bs.length (logSize d - o)
  hbmPut (hbmPut d (rtxBase d.variant + o) (bs.take k)) (rtxBase d.variant) (bs.drop k)
def logBad (d : Dev) (pos n : Nat) : Bool :=
  let o := pos % logSize d
  let k := min n (logSize d - o)
  (hbmBadUnit d (rtxBase d.variant + o) k).isSome || (hbmBadUnit d (rtxBase d.variant) (n - k)).isSome
def legGen (d : Dev) (i : Nat) : Nat := ((d.fwd.gens.find? fun g => g.1 == i).map Prod.snd).getD 0
/-- The slot of a leg's packet with a number: CRC-32C of the leg's index and the number, modulo 2^24. (DEDUCED, log entry 145.) -/
def rtxSlotOf (d : Dev) (leg n : Nat) : Nat := crc32c (beBytes (hIndex leg) 4 ++ beBytes n 2) % d.variant.capRtx
/-- The record of an entry has not been overwritten. -/
def recordHeld (d : Dev) (e : RtxEnt) : Bool := decide (d.fwd.head ≤ e.pos + logSize d)
/-- A lookup by leg and number: the entry, or the reason that it is not served (0 NOT_FOUND, 1 EXPIRED). (DEDUCED, log entry 145.) -/
def rtxFind (d : Dev) (l : Leg) (n : Nat) : Except Nat RtxEnt :=
  match d.fwd.rtx.find? fun e => e.slot == rtxSlotOf d l.handle n with
  | none => .error 0
  | some e =>
    if e.leg != hIndex l.handle || e.gen != legGen d (hIndex l.handle) || e.n != n then .error 0
    else if !recordHeld d e || decide (e.stride + l.cfg.retain < d.tim.stride) then .error 1
    else .ok e
/-- Store a rewritten packet with its SRTP index. (DEDUCED, log entry 145.) -/
def rtxStore (d : Dev) (l : Leg) (pkt : List Nat) (index : Nat) : Dev :=
  let slot := rtxSlotOf d l.handle (rtpSeq pkt)
  let old := d.fwd.rtx.any fun e => e.slot == slot
  let pos := d.fwd.head
  let len := 64 * ceilDiv (pkt.length + 6) 64
  let d := logWrite d pos (ofNats (pkt ++ beList index 6))
  let e : RtxEnt := { slot := slot, leg := hIndex l.handle, gen := legGen d (hIndex l.handle), n := rtpSeq pkt, pos := pos,
                      len := pkt.length, stride := d.tim.stride }
  let d := { d with fwd :=
    { d.fwd with
      rtx := e :: d.fwd.rtx.filter fun x => x.slot != slot
      head := pos + len
      recs := (d.fwd.recs.filter fun r => decide (pos + len ≤ r.1 + logSize d)) ++ [(pos, len, d.tim.stride)] } }
  if old then cnt d (FWD + 0x5C) 1 else ledgTake d 5 0 1
/-- The entry still answers some lookup: its leg is live, its record held and young enough. -/
def entryLive (d : Dev) (e : RtxEnt) : Bool :=
  recordHeld d e && e.gen == legGen d e.leg &&
  (match findLeg d (mkHandle 4 e.leg) with
   | some l => decide (d.tim.stride ≤ e.stride + l.cfg.retain)
   | none => false)
/-- One stride of the sweep: 16,384 entries. -/
def rtxSweep (d : Dev) : Dev :=
  let lo := d.fwd.sweep
  let dead := d.fwd.rtx.filter fun e => decide (lo ≤ e.slot) && decide (e.slot < lo + 16384) && !entryLive d e
  ledgGive { d with fwd :=
    { d.fwd with
      rtx := d.fwd.rtx.filter fun e => !dead.contains e
      sweep := if d.variant.capRtx ≤ lo + 16384 then 0 else lo + 16384 } } 5 0 dead.length

/-! ### Rewriting (R277) -/

def clockHz (c : Nat) : Nat := match c with | 0 => 90000 | 1 => 48000 | _ => 8000
def ticks (clock n : Nat) : Nat := n * clockHz clock / 1200
/-- Elements of a header extension whose IDs are kept: one-byte form, or two-byte form where `wide`; `n` bytes at most. -/
def keepExt (keep : Nat) (wide : Bool) : Nat → List Nat → List Nat
  | 0, _ => []
  | n + 1, b =>
    match b with
    | [] => []
    | 0 :: rest => keepExt keep wide n rest
    | x :: rest =>
      if wide then
        (let len := nth rest 0 0
         let e := (x :: rest).take (2 + len)
         (if 1 ≤ x && x ≤ 14 && keep.testBit (x - 1) then e else []) ++ keepExt keep wide n ((x :: rest).drop (2 + len)))
      else if x / 16 = 15 then []
      else
        let e := (x :: rest).take (2 + x % 16)
        (if keep.testBit (x / 16 - 1) then e else []) ++ keepExt keep wide n ((x :: rest).drop (2 + x % 16))
/-- The header extension of a packet with only the kept elements, empty where none is left. -/
def rewriteExt (keep : Nat) (b : List Nat) : List Nat :=
  let o := 12 + 4 * (nth b 0 0 % 16)
  if !(nth b 0 0).testBit 4 then []
  else
    let prof := natBe (slice b o 2)
    let body := slice b (o + 4) (4 * natBe (slice b (o + 2) 2))
    let kept := if prof = 0xBEDE then keepExt keep false body.length body
      else if prof / 16 = 0x100 then keepExt keep true body.length body else []
    if kept.isEmpty then []
    else
      let p := kept ++ List.replicate ((4 - kept.length % 4) % 4) 0
      beList prof 2 ++ beList (p.length / 4) 2 ++ p
/-- An identifier made continuous: the value written, and the pair kept. (DEDUCED, log entry 142.) -/
def follow (last : Option Nat) (out width v : Nat) : Nat :=
  match last with
  | none => v
  | some i => if i = v then out else (out + 1) % 2 ^ width
/-- The payload with VP8's PictureID and TL0PICIDX, or VP9's picture ID, continuous for the leg's receiver. (DEDUCED, log entry 142.) -/
def rewriteIds (l : Leg) (fmt : Nat) (b : List Nat) : Leg × List Nat :=
  let pid (l : Leg) (b : List Nat) (f : Option (Nat × Nat)) : Leg × List Nat :=
    match f with
    | none => (l, b)
    | some (o, n) =>
      let width := if n = 2 then 15 else 7
      let v := natBe (slice b o n) % 2 ^ width
      let w := follow l.pidIn l.pidOut width v
      ({ l with pidIn := some v, pidOut := w }, splice b o (beList (w + (if n = 2 then 2 ^ 15 else 0)) n))
  match fmt with
  | 1 =>
    let r := vp8Read b
    let p := pid l b r.1
    (match r.2.1 with
     | none => p
     | some o =>
       let v := nth b o 0
       let w := follow p.1.tl0In p.1.tl0Out 8 v
       ({ p.1 with tl0In := some v, tl0Out := w }, splice p.2 o [w]))
  | 2 => pid l b (vp9Read b).1
  | _ => (l, b)
/-- A source packet as a leg sends it. -/
def rewrite (l : Leg) (fmt : Nat) (b : List Nat) : Leg × List Nat :=
  let o := 12 + 4 * (nth b 0 0 % 16)
  let h := (rtpHeader b).getD 12
  let ext := rewriteExt l.extKeep b
  let b0 := (nth b 0 0) - (if (nth b 0 0).testBit 4 then 16 else 0) + (if ext.isEmpty then 0 else 16)
  let r := rewriteIds l fmt (b.drop h)
  (r.1, [b0, nth b 1 0 / 128 * 128 + l.pt] ++ beList l.seq 2 ++ beList ((rtpTs b + l.off) % 2 ^ 32) 4 ++ beList l.ssrc 4 ++
    slice b 12 (o - 12) ++ ext ++ r.2)
/-- off at the first packet and at a join. -/
def joinOffset (d : Dev) (l : Leg) (ts : Nat) : Leg :=
  let base := if l.sent then l.tsLast + ticks l.clock (d.tim.stride - l.cLast) else l.ts0
  { l with off := (base + 2 ^ 32 - ts % 2 ^ 32) % 2 ^ 32 }

/-! ### One packet on one leg (R271, R272, R278) -/

/-- The packet comes from an encode stream. -/
def fromEnc (k : SPkt) : Bool := hKind k.src == 7
/-- The SRTP index that the packet with a sequence number will have on the leg. -/
def nextIndex (d : Dev) (l : Leg) (seq : Nat) : Nat :=
  let c := getCrypto d l.handle 0
  65536 * (if c.started && decide (seq < c.high) && decide (32768 ≤ c.high) then c.roc + 1 else c.roc) + seq
/-- The post time (R279): `rest` is what the leg sends of the picture from this packet on. (DEDUCED, log entry 144.) -/
def postTime (l : Leg) (p : SPkt) (rest : Nat) : Option Nat :=
  match p.post with
  | none => none
  | some (h, period) =>
    if l.cfg.pace = 0 then some h
    else some (h + period * l.cfg.pace * 2500000 / 48 * l.picBytes / max 1 (l.picBytes + rest))
/-- The packet passes the leg's layer choice. -/
def passes (sim : Bool) (l : Leg) (s t : Nat) : Bool := decide (t ≤ l.t) && (if sim then s == l.s else decide (s ≤ l.s))
/-- Bytes of a source's packet as the leg sends it. -/
def sentBytes (l : Leg) (b : List Nat) : Nat :=
  12 + 4 * (nth b 0 0 % 16) + (rewriteExt l.extKeep b).length + (b.length - (rtpHeader b).getD 12)
/-- Bytes that the leg sends of a packet's picture from that packet on. -/
def restBytes (d : Dev) (l : Leg) (k : SPkt) (sim : Bool) : Nat :=
  ((d.fwd.inq.filter fun q => q.src == k.src && q.pic == k.pic && passes sim l q.s q.t).map fun q => sentBytes l (toNats q.bytes)).sum
/-- Steps 2 to 6 of R278 for a packet that passes; repair packets follow the packet that completes their group. (DEDUCED, log
entry 144.) -/
def sendOn (d : Dev) (l : Leg) (k : SPkt) (rest : Nat) : Dev × Leg :=
  let b := toNats k.bytes
  let l := if l.sent then l else joinOffset d l (rtpTs b)
  let r := rewrite l k.fmt b
  let pkt := r.2
  let l := r.1
  let post := postTime l k rest
  let seq := l.seq
  let l := addFec { l with seq := (seq + 1) % 65536, sent := true, tsLast := rtpTs pkt, cLast := d.tim.stride,
                           picBytes := l.picBytes + pkt.length } pkt post
  let d := rtxStore d l pkt (nextIndex d l seq)
  let x := protectRtp d l 0 pkt none
  match x.2 with
  | none => fullFec x.1 l
  | some y =>
    fullFec (handOff x.1 l y post)
      { l with packets := (l.packets + 1) % 2 ^ 32, octets := (l.octets + pkt.length - (rtpHeader pkt).getD 12) % 2 ^ 32 }
/-- The frame of a fmt 3 packet depends on layers that the leg has not been sent. -/
def lacksRefs (l : Leg) (k : SPkt) : Bool := k.deps.any fun x => decide (l.s < x.1) || decide (l.t < x.2)
/-- The target has ranked above the choice for up_hold strides. -/
def upHeld (d : Dev) (l : Leg) : Bool :=
  match l.upSince with
  | some n => decide (n + max 1 (getF d (FWD + 4) 0 12) ≤ d.tim.stride)
  | none => false
/-- At a picture boundary: settings taken over, allowance, target, and the moves of the layer choice (R274, R276, R286). (DEDUCED, log
entry 141.) -/
def atBoundary (d : Dev) (l : Leg) (k : SPkt) : Dev × Leg :=
  let newFec := l.want.fecMode != l.cfg.fecMode || l.want.fecL != l.cfg.fecL || l.want.fecD != l.cfg.fecD
  let r := if newFec then closeFec d l else (d, l)
  let d := r.1
  let l := r.2
  let l := { l with cfg := { l.want with port := l.cfg.port, queue := l.cfg.queue }, pic := some k.pic, picBytes := 0 }
  if l.media != 1 then (d, l)
  else
    let g := targetOf d l k.src
    let l := { l with ts := g.1, tt := g.2 }
    let ask := (requestRefresh d k.src 1 l.handle, l)
    if ranksBelow g (l.s, l.t) then
      (let l := { l with upSince := none }
       if g.1 < l.s && (simulcast d k.src || lacksRefs l k) then (if fromEnc k && k.join then setChoice d l g else ask)
       else if fromEnc k then setChoice d l g
       else setChoice d l (g.1, min l.t g.2))
    else if ranksBelow (l.s, l.t) g then
      (let l := { l with upSince := some (l.upSince.getD d.tim.stride) }
       if !upHeld d l then (d, l)
       else if l.s < g.1 then (if fromEnc k && k.join then setChoice d l g else (requestRefresh d k.src 1 l.handle, l))
       else if fromEnc k then setChoice d l g
       else (d, l))
    else (d, { l with upSince := none })
/-- The packet is of the layer that a switch or a join to spatial layer `s` waits for: of it, or where layers build on each other in
templates, of no higher one. -/
def ofLayer (sim : Bool) (k : SPkt) (s : Nat) : Bool := if sim || k.fmt == 2 then k.s == s else decide (k.s ≤ s)
/-- A switch that waits for a join point of an inbound source's layer, or for its temporal up-switch point. (DEDUCED, log entry 140.) -/
def lateSwitch (d : Dev) (l : Leg) (k : SPkt) : Dev × Leg :=
  let g := (l.ts, l.tt)
  if fromEnc k || l.media != 1 || g == (l.s, l.t) then (d, l)
  else if l.ts != l.s then
    (if k.join && ofLayer (simulcast d k.src) k l.ts && (ranksBelow g (l.s, l.t) || upHeld d l) then setChoice d l g else (d, l))
  else if l.t < l.tt && upHeld d l && k.up && !lacksRefs l k then setChoice d l g
  else (d, l)
/-- The leg joins at this packet (R271, R272). -/
def joins (d : Dev) (l : Leg) (k : SPkt) : Bool :=
  match l.join with
  | none => false
  | some (src, rep) =>
    src == k.src && k.join && (!rep || l.picEnd) &&
    (l.media != 1 || fromEnc k || ofLayer (simulcast d src) k (targetOf d l src).1)
def doJoin (d : Dev) (l : Leg) (k : SPkt) : Dev × Leg :=
  let rep := (l.join.map Prod.snd).getD false
  let r := if rep then closeFec d l else (d, l)
  let g := targetOf r.1 r.2 k.src
  let l := { joinOffset r.1 r.2 (rtpTs (toNats k.bytes)) with
    source := some k.src, join := none, pic := none, s := if l.media = 1 then g.1 else 0, t := if l.media = 1 then g.2 else 0,
    upSince := none }
  (raise r.1 (evTo (evUnit fwdUnit 0x802 0 [(4, l.handle), (4, k.src), (1, rep.toNat)]) l.fn), l)
/-- The leg leaves its source: an open FlexFEC group is closed. (DEDUCED, log entry 148.) -/
def detach (d : Dev) (l : Leg) : Dev :=
  let r := closeFec d l
  putLeg r.1 { r.2 with source := none, pic := none, picEnd := true, delCmd := none }
/-- The picture on the leg has ended: a FANOUT_DEL that waits completes (R273). -/
def endPicture (d : Dev) (h : Nat) : Dev :=
  match findLeg d h with
  | none => d
  | some l => match l.delCmd with
    | some c => complete (detach d l) c ST_OK []
    | none => putLeg d { l with picEnd := true }
/-- The packet is of a picture that the leg receives: on a simulcast source, of the member of its choice (R272, R273). -/
def ofPicture (d : Dev) (l : Leg) (k : SPkt) : Bool := l.source == some k.src && (!simulcast d k.src || k.s == l.s)
/-- A packet begins a picture boundary of the leg (R274). -/
def boundaryAt (l : Leg) (k : SPkt) : Bool := l.pic != some k.pic && (fromEnc k || k.first || l.pic.isNone) && l.delCmd.isNone
/-- One packet of a source on one leg. -/
def forwardTo (k : SPkt) (d : Dev) (h : Nat) : Dev :=
  let d := match findLeg d h with
    | some l => if l.delCmd.isSome && k.first && ofPicture d l k then endPicture d h else d
    | none => d
  match findLeg d h with
  | none => d
  | some l =>
    let own := k.src == h
    let r := if joins d l k then doJoin d l k else (d, l)
    let d := r.1
    let l := r.2
    if !own && l.source != some k.src then putLeg d l
    else if !k.known && l.media == 1 then putLeg d l
    else
      let r := if boundaryAt l k then atBoundary d l k else (d, l)
      let r := if l.delCmd.isSome then r else lateSwitch r.1 r.2 k
      let d := r.1
      let l := if ofPicture r.1 r.2 k then { r.2 with picEnd := false } else r.2
      let sim := simulcast d k.src
      let r :=
        if !(l.media != 1 || passes sim l k.s k.t) then (cnt d (FWD + 0x44) 1, l)
        else if l.cfg.hold then (d, l)
        else sendOn d l k (restBytes d l k sim)
      let d := putLeg r.1 r.2
      if k.last && ofPicture d r.2 k then endPicture d h else d

/-! ### FORWARD_PACKET -/

/-- Cells of a source's packet return once the stage has handled it. -/
def dropSource (d : Dev) (p : SPkt) : Dev :=
  match p.held with
  | some id => releaseMPkt d id
  | none => freeCells d 0 p.cells 0
/-- A packet over the legs of a list, until one has no credit for its copy (R278): the device and the legs still to be served. -/
def serveLegs (k : SPkt) : List Nat → Dev → Dev × List Nat
  | [], d => (d, [])
  | h :: hs, d => if creditHeld (forwardTo k d h) then serveLegs k hs (forwardTo k d h) else (d, h :: hs)
/-- The legs that a packet is still to be handed to. -/
def destsOf (d : Dev) (p : SPkt) : List Nat :=
  p.dests.getD (if hKind p.src = 4 && (findLeg d p.src).any Leg.out then [p.src] else (feeds d p.src).map Leg.handle)
/-- The oldest packet of a source over every leg of its fan-out list that has credit. -/
def forwardPacket (d : Dev) : Dev :=
  match d.fwd.inq with
  | [] => d
  | p :: ps =>
    if !running d fwdUnit || !running d secUnit then d
    else
      let r := serveLegs p (destsOf d p) d
      if r.2.isEmpty then dropSource { r.1 with fwd := { r.1.fwd with inq := ps } } p
      else { r.1 with fwd := { r.1.fwd with inq := { p with dests := some r.2 } :: ps } }
/-- The oldest packet waits for credit for its next copy. -/
def fwdWaits (d : Dev) : Bool :=
  match d.fwd.inq with
  | [] => false
  | p :: _ => match destsOf d p with
    | [] => false
    | h :: _ => !creditHeld (forwardTo p d h)
def execForwardPacket (s : State) : Host.Outcome State Fault Refusal := onDev forwardPacket s

/-! ### SRTP_OUTBOUND: packets of groom firmware's -/

/-- The oldest RTCP packet of groom firmware's, protected and handed to the Bridle. (DEDUCED, log entry 147.) -/
def srtpOutbound (d : Dev) (fault : Bool) : Dev :=
  match d.sec.outq with
  | [] => d
  | q :: qs =>
    if !running d secUnit then d
    else
      let e := { d with sec := { d.sec with outq := qs, faulty := fault } }
      match findLeg e q.leg with
      | none => e
      | some l =>
        let r := protectRtcp e l (toNats q.bytes)
        match r.2 with
        | none => r.1
        | some b => withCredit d (handOff r.1 l b none)
def execSrtpOutbound (fault : Bool) (s : State) : Host.Outcome State Fault Refusal := onDev (fun d => srtpOutbound d fault) s

/-! ### NACK service (R282 to R284) -/

/-- A number that is not served. -/
def rtxMiss (d : Dev) (l : Leg) (reason : Nat) : Dev :=
  raiseOnce (cnt d (FWD + 0x80 + 4 * reason) 1) (evLeg l 0x801 1 [(1, reason)])
/-- Resend one stored packet. -/
def resend (d : Dev) (l : Leg) (e : RtxEnt) : Dev :=
  let rec_ := toNats (logRead d e.pos (e.len + 6))
  let pkt := rec_.take e.len
  let index := natBe (rec_.drop e.len)
  let tag := ((keyIn d l.handle .active).map fun k => tagLen k.profile false).getD 0
  let mode2 := l.cfg.rtxMode == 2
  let bits := 8 * (e.len + tag + (if mode2 then 2 else 0))
  if e.len = 0 || logBad d e.pos (e.len + 6) then rtxMiss d l 7
  else if l.bucket < bits then rtxMiss d l 4
  else
    let d := { d with fwd := { d.fwd with rtx := d.fwd.rtx.map fun x =>
      if x.slot == e.slot then { x with resends := x.resends + 1, lastResend := some d.tim.stride } else x } }
    let h := (rtpHeader pkt).getD 12
    let l := { l with bucket := l.bucket - bits, rtxSeq := if mode2 then l.rtxSeq + 1 else l.rtxSeq }
    let d := putLeg d l
    let out := if mode2 then
        pkt.take 1 ++ [nth pkt 1 0 / 128 * 128 + l.rtxPt] ++ beList ((l.rtxSeq + 65535) % 65536) 2 ++ slice pkt 4 4 ++ beList l.rtxSsrc 4 ++
          slice pkt 12 (h - 12) ++ slice pkt 2 2 ++ pkt.drop h
      else pkt
    let r := protectRtp d l (if mode2 then 1 else 0) out (if mode2 then none else some index)
    match r.2 with
    | none => r.1
    | some b => cnt (handOff r.1 l b none) (FWD + 0x50) 1
/-- Serve one number of a NACK on a leg. -/
def serveNumber (h : Nat) (d : Dev) (n : Nat) : Dev :=
  match findLeg d h with
  | none => d
  | some l =>
    if l.cfg.rtxMode = 0 then rtxMiss d l 5
    else match rtxFind d l n with
      | .error r => rtxMiss d l r
      | .ok e =>
        if l.cfg.rtxMax ≤ e.resends then rtxMiss d l 3
        else if (e.lastResend.any fun s => decide (d.tim.stride < s + max 1 (getF d (FWD + 4) 12 8))) then rtxMiss d l 2
        else resend d l e
/-- Numbers of a NACK's items, in order. -/
def nackNumbers : List (List Nat) → List Nat
  | w :: ws =>
    let pid := natBe (w.take 2)
    let blp := natBe (w.drop 2)
    (pid :: ((List.range 16).filter fun i => blp.testBit i).map fun i => (pid + i + 1) % 65536) ++ nackNumbers ws
  | [] => []
/-- The outbound leg of a participant that sends an SSRC. -/
def legOfSsrc (d : Dev) (part ssrc : Nat) : Option Leg :=
  d.fwd.legs.find? fun l => l.out && l.part == part && (l.ssrc == ssrc || (l.rtxSsrc != 0 && l.rtxSsrc == ssrc))
/-- An RTCP packet is a Generic NACK. -/
def isNack (b : List Nat) : Bool := nth b 1 0 == 205 && nth b 0 0 % 32 == 1
/-- Take the oldest RTCP packet off the queue. -/
def popRtcp (d : Dev) (id : Nat) (rest : List (Nat × Nat × List Byte)) : Dev :=
  releaseMPkt { d with fwd := { d.fwd with rtcp := rest } } id
/-- The oldest RTCP packet, a Generic NACK, is served. -/
def serveNack (d : Dev) : Dev :=
  match d.fwd.rtcp with
  | [] => d
  | (leg, id, bytes) :: rest =>
    let b := toNats bytes
    if !running d fwdUnit || !running d secUnit || !isNack b then d
    else
      let ns := nackNumbers (wordsOf (b.drop 12))
      let e := cnt (popRtcp d id rest) (FWD + 0x4C) ns.length
      let part := ((findLeg d leg).map Leg.part).getD 0
      match legOfSsrc d part (natBe (slice b 8 4)) with
      | none => cnt e (FWD + 0x80 + 4 * 6) ns.length
      | some l => withCredit d (ns.foldl (serveNumber l.handle) e)
def execNack (s : State) : Host.Outcome State Fault Refusal := onDev serveNack s

/-! ### Other RTCP (R269) -/

/-- A sender report of a leg: its time in NTP form is not given by the spec, and is a free value. (DEDUCED, log entry 147.) -/
def senderReport (d : Dev) (h : Nat) : Dev :=
  match findLeg d h with
  | none => d
  | some l =>
    if !l.out then d
    else
      let f := drawFree d 64
      let ts := (l.tsLast + ticks l.clock (d.tim.stride - l.cLast)) % 2 ^ 32
      sendRtcp f.2 h ([0x80, 200, 0, 6] ++ beList l.ssrc 4 ++ beList f.1.toNat 8 ++ beList ts 4 ++ beList l.packets 4 ++ beList l.octets 4)
/-- Groom firmware takes the oldest RTCP packet that is no NACK: PLI and FIR are refresh requests. (DESIGN CHOICE, log entry 178.) -/
def rtcpReceive (d : Dev) (fb : Feedback) : Dev :=
  match d.fwd.rtcp with
  | [] => d
  | (leg, id, bytes) :: rest =>
    let b := toNats bytes
    if isNack b then d
    else
      let part := ((findLeg d leg).map Leg.part).getD 0
      let d := popRtcp d id rest
      let fmt := nth b 0 0 % 32
      let media := if fmt = 4 then natBe (slice b 12 4) else natBe (slice b 8 4)
      let d := if nth b 1 0 == 206 && (fmt == 1 || fmt == 4) then
          (match legOfSsrc d part media with
           | some l => (match l.source with
             | some s => requestRefresh d s (if fmt = 4 then 2 else 1) l.handle
             | none => d)
           | none => d)
        else d
      let mine (h : Nat) : Bool := (findLeg d h).any fun l => l.out && l.part == part
      let d := fb.estimates.foldl (fun d x => if mine x.1 then modLeg d x.1 fun l => { l with bwe := x.2 } else d) d
      fb.reports.foldl (fun d h => senderReport d h) d
def execRtcpReceive (fb : Feedback) (s : State) : Host.Outcome State Fault Refusal := onDev (fun d => rtcpReceive d fb) s

/-! ### Commands -/

/-- The MEDIA action for a leg. -/
def mediaAct (h : Nat) : BitVec 128 := BitVec.ofNat 128 (2 + h * 2 ^ 32)
/-- The exact-match keys of an inbound leg (R268). -/
def legKey (addr : List Byte) (ssrc : Nat) : List Byte := addr.take 36 ++ ofNats (beList ssrc 4)
/-- What is wrong with an address block: nothing, or its field. (DEDUCED, log entry 138.) -/
def addrOk (a : List Nat) : Bool :=
  a.length == 64 && mapped (a.take 16) == mapped (slice a 16 16) && decide (nth a 50 0 < 64) && (a.drop 52).all (· == 0)
def legCreateAct (rule : HostRead) (d : Dev) (c : Cmd) : Except Fail Act := do
  let x := c.desc
  let o ← objOf d c.fn 3 (dHandle x)
  parentOpen d o
  let part ← (match findPart d o.handle with | some p => .ok p | none => .error badHandle)
  let out := dBits x 8 0 1 == 1
  let media := dBits x 8 1 2
  let mix := dBits x 8 3 1 == 1
  let fmt := dBits x 27 0 3
  let sim := dNum x 32 4
  let simIx := dBits x 27 3 2
  let fb := dNum x 28 4
  let bw := dNum x 36 4
  let mine (h : Nat) : Option Leg := (findLeg d h).filter fun l => l.part == o.handle
  let group := d.fwd.legs.filter fun l => !l.out && (l.handle == sim || l.simGroup == sim)
  operandOf d c.fn 4 fb
  operandOf d c.fn 4 sim
  checkFields x ([
    (8, media != 3 && dBits x 8 6 2 == 0 && (!mix || (out && media == 0)) && ((media == 2) == part.peer) &&
        !(mix && d.fwd.legs.any fun l => l.part == o.handle && l.mix)),
    (9, decide (dByte x 9 < 8) && (out || dByte x 9 == 0)), (10, decide (dByte x 10 < 16) && (out || dByte x 10 == 0)),
    (11, dBits x 11 7 1 == 0), (24, dBits x 24 7 1 == 0 && (dNum x 16 4 != 0 || dByte x 24 == 0)),
    (25, dBits x 25 7 1 == 0 && (dNum x 20 4 != 0 || dByte x 25 == 0)), (26, decide (dByte x 26 < 3)),
    (27, dBits x 27 5 3 == 0 && (if !out && media == 1 then decide (fmt < 6) else fmt == 0) &&
         (sim == 0 || !(group.any fun l => l.simIndex == simIx))),
    (28, fb == 0 || (mine fb).any Leg.out),
    (32, sim == 0 || ((mine sim).any fun l => !l.out && l.media == 1 && l.fmt == fmt)),
    (36, if out && media == 1 then bw != 0 else bw == 0), (40, dNum x 40 8 % 64 == 0),
    (48, decide (dNum x 48 2 < 2 ^ 14) && (out || dNum x 48 2 == 0)), (50, decide (dByte x 50 < 16))] ++ zeros x 51 51 ++
    zeros x 54 55 ++ zeros x 60 63)
  match rule with
  | .fail a => .error (busError c a.toNat)
  | .ok addr =>
    let addr := padTo addr 64
    require (addrOk (toNats addr)) (badField 40)
    let key := legKey addr (dNum x 12 4)
    let rtcp := !out && dBits x 8 4 1 == 1
    require (out || ((emFind d 1 key).isNone && (!rtcp || (emFind d 2 key).isNone))) (badField 40)
    let ns : List Need := (if bw = 0 then [] else [⟨4, bw⟩]) ++ [⟨6, 1⟩]
    match admission d none 2 ns, newHandle d 4 with
    | .error r, _ => .error (noCapacity r)
    | .ok _, none => .error (noCapacity (refusal44 d 6 0 1))
    | .ok _, some h =>
      let full : Fail := { st := ST_NO_CAPACITY, res := resBytes [(1, 0xF1), (1, 0xFF), (2, 0), (4, 1), (4, d.variant.capClass - d.pke.em.length)] }
      let d1 ← (if out then .ok d else match emInsert d 1 key (mediaAct h) (some h) with
        | none => .error full
        | some e => if !rtcp then .ok e else match emInsert e 2 key (mediaAct h) (some h) with
          | none => .error full
          | some e => .ok e)
      let cfg : LegCfg := { rtxMode := if media = 1 then 1 else 0, port := dByte x 9, queue := dByte x 10 }
      let l : Leg := { handle := h, fn := c.fn, part := o.handle, out := out, media := media, mix := mix, rtcp := rtcp,
                       vlan := out && dBits x 8 5 1 == 1, pt := dBits x 11 0 7, ssrc := dNum x 12 4, rtxSsrc := dNum x 16 4,
                       fecSsrc := dNum x 20 4, rtxPt := dByte x 24, fecPt := dByte x 25, clock := dByte x 26, fmt := fmt,
                       simIndex := simIx, fbLeg := fb, simGroup := sim, addr := addr, extKeep := dNum x 48 2,
                       ddId := dByte x 50, cfg := cfg, want := cfg, seq := dNum x 52 2, ts0 := dNum x 56 4 }
      let d := book d1 0 ns
      let d := addObj d { handle := h, fn := c.fn, session := o.session, parent := o.handle, media := media, books := booksOf 0 ns }
      .ok (.done { d with fwd := { d.fwd with legs := d.fwd.legs ++ [l] } } (leBytes h 4))
def execLegCreate (fn : Fin 64) (ring : Fin 32) (rule : HostRead) (s : State) : Host.Outcome State Fault Refusal :=
  onDev (runCmd 0x18 fn.val ring.val (legCreateAct rule)) s

/-- LEG_SET (R286). (DEDUCED, log entry 139.) -/
def legSetAct (d : Dev) (c : Cmd) : Except Fail Act := do
  let x := c.desc
  let o ← objOf d c.fn 4 (dHandle x)
  let l ← (match findLeg d o.handle with | some l => .ok l | none => .error badHandle)
  let m (i : Nat) : Bool := dBits x 8 i 1 == 1
  let minR := dNum x 12 4
  let maxR := dNum x 16 4
  checkFields x ([(8, dBits x 8 7 1 == 0), (9, dBits x 9 2 6 == 0),
    (10, dBits x 10 4 4 == 0 && (!m 1 || (decide (dBits x 10 0 2 ≤ 2) && decide (dBits x 10 2 2 ≤ 2))))] ++ zeros x 11 11 ++
    [(12, !m 0 || decide (32000 ≤ minR)), (16, !m 0 || (decide (minR ≤ maxR) && decide (maxR ≤ 100000000))),
     (24, !m 0 || decide (dNum x 24 2 ≤ 500)),
     (26, dBits x 26 2 6 == 0 && (!m 2 || (dByte x 26 != 3 && !(dByte x 26 == 2 && l.rtxSsrc == 0)))),
     (27, !m 2 || (decide (1 ≤ dByte x 27) && decide (dByte x 27 ≤ 8))),
     (28, !m 2 || (decide (12 ≤ dNum x 28 2) && decide (dNum x 28 2 ≤ 4800))),
     (30, !m 2 || decide (dNum x 30 2 ≤ 1000)),
     (32, dBits x 32 2 6 == 0 && (!m 3 || (dByte x 32 != 3 && !(dByte x 32 != 0 && l.fecSsrc == 0)))),
     (33, dBits x 33 7 1 == 0 && (!m 3 || (decide (1 ≤ dByte x 33) && decide (dByte x 33 ≤ 64)))),
     (34, dBits x 34 7 1 == 0 && (!m 3 || (decide (1 ≤ dByte x 34) && decide (dByte x 34 ≤ 64)))),
     (35, dBits x 35 5 3 == 0 && (!m 4 || decide (dByte x 35 ≤ 16))), (36, decide (dByte x 36 < 8)),
     (37, decide (dByte x 37 < 16))] ++ zeros x 38 63)
  let w := l.want
  let w := if m 0 then { w with bweFixed := dBits x 9 0 1 == 1, minRate := minR, maxRate := maxR, fixedRate := dNum x 20 4,
                                headroom := dNum x 24 2 } else w
  let w := if m 1 then { w with sCap := dBits x 10 0 2, tCap := dBits x 10 2 2 } else w
  let rtx (w : LegCfg) : LegCfg := if m 2 then { w with rtxMode := dByte x 26, rtxMax := dByte x 27, retain := dNum x 28 2,
                                                        rtxRate := dNum x 30 2 } else w
  let hold (w : LegCfg) : LegCfg := if m 6 then { w with hold := dBits x 9 1 1 == 1 } else w
  let w := hold (rtx w)
  let w := if m 3 then { w with fecMode := dByte x 32, fecL := dByte x 33, fecD := dByte x 34 } else w
  let w := if m 4 then { w with pace := dByte x 35 } else w
  let w := if m 5 then { w with port := dByte x 36, queue := dByte x 37 } else w
  .ok (.done (putLeg d { l with want := w, cfg := hold (rtx l.cfg) }) [])
def execLegSet (fn : Fin 64) (ring : Fin 32) (s : State) : Host.Outcome State Fault Refusal :=
  onDev (runCmd 0x19 fn.val ring.val legSetAct) s

/-- The source of a FANOUT_ADD: an encode stream or an inbound leg of the function. (DEDUCED, log entry 140.) -/
def sourceObj (d : Dev) (fn h : Nat) : Except Fail Obj :=
  if hKind h = 7 then objOf d fn 7 h else objOf d fn 4 h
/-- FANOUT_ADD (R270, R271). -/
def fanoutAddAct (d : Dev) (c : Cmd) : Except Fail Act := do
  let x := c.desc
  let o ← objOf d c.fn 4 (dHandle x)
  let l ← (match findLeg d o.handle with | some l => .ok l | none => .error badHandle)
  let src := dNum x 8 4
  let so ← sourceObj d c.fn src
  let inLeg := findLeg d src
  let rep := dBits x 12 0 1 == 1
  checkFields x ([(4, l.out && !l.mix && l.media != 2),
    (8, if hKind src = 7 then so.media == 1 && l.media == 1
        else (inLeg.any fun s => !s.out && s.media != 2 && s.media == l.media)),
    (12, dBits x 12 1 7 == 0 && (l.source.isNone || rep))] ++ zeros x 13 63)
  let s := match inLeg with | some q => legSource q | none => src
  let d := putLeg d { l with join := some (s, l.source.isSome) }
  .ok (.done (requestRefresh d s 1 l.handle) [])
def execFanoutAdd (fn : Fin 64) (ring : Fin 32) (s : State) : Host.Outcome State Fault Refusal :=
  onDev (runCmd 0x1A fn.val ring.val fanoutAddAct) s
/-- FANOUT_DEL (R273). -/
def fanoutDelAct (d : Dev) (c : Cmd) : Except Fail Act := do
  let x := c.desc
  let o ← objOf d c.fn 4 (dHandle x)
  let l ← (match findLeg d o.handle with | some l => .ok l | none => .error badHandle)
  checkFields x ([(4, l.source.isSome || l.join.isSome)] ++ zeros x 8 63)
  let l := { l with join := none }
  if l.source.isNone || l.picEnd then .ok (.done (detach d l) [])
  else .ok (.wait (putLeg d { l with delCmd := some c.id }))
def execFanoutDel (fn : Fin 64) (ring : Fin 32) (s : State) : Host.Outcome State Fault Refusal :=
  onDev (runCmd 0x1B fn.val ring.val fanoutDelAct) s

/-! ### Releases (R273) -/

/-- Every leg on a released source's list is detached, those that await their join too. (DEDUCED, log entry 148.) -/
def loseSource (d : Dev) (src fn : Nat) : Dev :=
  let ls := feeds d src
  let d := (feeds d src).foldl (fun d l => match findLeg d l.handle with
    | none => d
    | some l =>
      let cmd := l.delCmd
      let d := if l.source == some src then detach d l else d
      let d := modLeg d l.handle fun x => { x with join := if (x.join.map Prod.fst) == some src then none else x.join }
      match cmd with
      | some c => if l.source == some src then complete d c ST_OK [] else d
      | none => d) d
  let gone := d.fwd.inq.filter fun p => p.src == src
  let d := gone.foldl dropSource { d with fwd := { d.fwd with inq := d.fwd.inq.filter fun p => p.src != src } }
  if ls.isEmpty then d else raise d (evTo (evUnit fwdUnit 0x803 1 [(4, src), (2, min ls.length 65535)]) fn)
/-- A leg leaves its list, its slots retire, its copies become unservable, its exact-match entries go. -/
def releaseLeg (d : Dev) (h : Nat) : Dev :=
  match findLeg d h with
  | none => d
  | some l =>
    let d := if l.out then
        (let d := match l.delCmd with | some c => complete (detach d l) c ST_OK [] | none => detach d l
         let gone := d.fwd.inq.filter fun p => p.src == h
         gone.foldl dropSource { d with fwd := { d.fwd with inq := d.fwd.inq.filter fun p => p.src != h } })
      else loseSource d h l.fn
    let d := ((legKeys d h).map Key.handle).foldl retireKey d
    let i := hIndex h
    let d := { d with
      fwd :=
        { d.fwd with
          legs := d.fwd.legs.filter fun x => x.handle != h
          gens := (i, legGen d i + 1) :: d.fwd.gens.filter fun g => g.1 != i }
      sec := { d.sec with crypto := d.sec.crypto.filter fun x => x.leg != h, outq := d.sec.outq.filter fun x => x.leg != h } }
    (d.pke.em.filter fun r => r.leg == some h).foldl (fun d r => emDelete d r.profile r.key) d

/-! ### Boundary (R281, R283, R286) -/

/-- Egress changes, resend buckets and the sweep at a boundary. -/
def fwdBoundary (d : Dev) : Dev :=
  let d := { d with fwd := { d.fwd with legs := d.fwd.legs.map fun l =>
    let gain := legRate l * l.cfg.rtxRate / 1200000
    { l with cfg := { l.cfg with port := l.want.port, queue := l.want.queue }, bucket := min (l.bucket + gain) (240 * gain) } } }
  rtxSweep d

end Sys2Proof.Machine
end

