-- ==== Sys2Proof/Machine/VidDecode.lean ====
section
/-! DEFINITION. Video decode (R207 to R223): contexts, pictures cut into cards, the cards' work, publication, concealment,
refresh requests. -/
namespace Sys2Proof.Machine

/-! ### Contexts (R207, R208) -/

def Ctx.surfGeo (x : Ctx) : Geo := ⟨x.maxW, x.maxH, x.pyr, x.tenBit⟩
/-- A picture's surface in its context's arena. (DEDUCED, log entry 125.) -/
def picSurf (x : Ctx) (p : Pic) : Option Surf :=
  p.surface.map fun i => ⟨x.handle, i * x.surfGeo.size, ⟨p.w, p.h, x.pyr, x.tenBit⟩⟩
/-- Bytes of a bitstream buffer (R208). -/
def bitBuffer (bitrate : Nat) : Nat := max 524288 (65536 * ceilDiv bitrate (16 * 65536))
def profOk (codec prof : Nat) : Bool :=
  match codec with | 0 => decide (prof ≤ 2) | 1 | 2 | 4 => decide (prof ≤ 1) | 3 => prof == 0 | _ => false
def tenProf (codec prof : Nat) : Bool := prof == 1 && (codec == 1 || codec == 2 || codec == 4)
/-- DECODE_PIX and other demands of R34. -/
def pixDemand (w h num den : Nat) : Nat := ceilDiv (w * h * num) (den * 1200)

/-- CTX_CREATE. -/
def ctxCreateAct (d : Dev) (c : Cmd) : Except Fail Act := do
  let x := c.desc
  let o ← objOf d c.fn 3 (dHandle x)
  parentOpen d o
  let codec := dBits x 8 0 4
  let prof := dBits x 8 4 4
  let deferred := dBits x 9 0 1 == 1
  let refReq := dBits x 9 4 2
  let num := dNum x 16 2
  let den := dNum x 18 2
  let fb := dNum x 36 4
  let mine (h : Nat) (out : Bool) : Bool := (findLeg d h).any fun l => l.part == o.handle && l.out == out
  let w := dNum x 12 2
  let h := dNum x 14 2
  let _ ← objOf d c.fn 4 (dNum x 32 4)
  operandOf d c.fn 4 fb
  checkFields x ([(8, profOk codec prof), (9, dBits x 9 6 2 == 0 && refReq != 3 && !(refReq != 0 && fb == 0)),
    (10, dBits x 10 5 3 == 0 && (if codec ≤ 1 then decide (1 ≤ dByte x 10) && decide (dByte x 10 ≤ 16) else dByte x 10 == 0)),
    (11, dBits x 11 0 2 != 3 && decide (dBits x 11 4 4 ≤ 8)), (12, decide (16 ≤ w) && decide (w ≤ 4096)),
    (14, decide (16 ≤ h) && decide (h ≤ 2304) && decide (w * h ≤ 9437184)), (16, num != 0 && (den == 0 || decide (num ≤ 120 * den))),
    (18, den != 0), (20, dNum x 20 4 != 0), (24, decide (64000 ≤ dNum x 24 4)),
    (28, if deferred then decide (dByte x 28 ≤ 64) else dByte x 28 == 0),
    (29, dBits x 29 5 3 == 0 && (codec == 2 || (codec == 4 && decide (dByte x 29 ≤ 2)) || dByte x 29 == 0)), (30, dBits x 30 7 1 == 0)] ++
    zeros x 31 31 ++ [(32, mine (dNum x 32 4) false), (36, fb == 0 || mine fb true)] ++ zeros x 40 63)
  let dpb := if codec ≤ 1 then dByte x 10 else if codec = 3 then 3 else 8
  let buf := bitBuffer (dNum x 24 4)
  let geo : Geo := ⟨w, h, dBits x 9 1 2, tenProf codec prof⟩
  let ext := extentsFor ((dpb + 3) * geo.size + 2 * buf)
  let ns : List Need := [⟨1, pixDemand w h num den⟩, ⟨4, dNum x 20 4⟩, ⟨7, 1⟩]
  match admission d none 2 ns, newHandle d 5 with
  | .error r, _ => .error (noCapacity r)
  | .ok _, none => .error (noCapacity (refusal44 d 7 0 1))
  | .ok _, some hd =>
    if !extentsFit d ext then .error (arenaRefused d ext)
    else
      let k : Ctx := { handle := hd, fn := c.fn, codec := codec, prof := prof, deferred := deferred, pyr := dBits x 9 1 2,
                       waitRap := dBits x 9 3 1 == 1, refReq := refReq, slack := dBits x 11 0 2, reasm := dBits x 11 2 2,
                       segMax := dBits x 11 4 4, maxW := w, maxH := h, backlog := if dByte x 28 = 0 then 8 else dByte x 28,
                       tenBit := geo.ten, layer := dByte x 29, pt := dByte x 30, inLeg := dNum x 32 4, fbLeg := fb, dpb := dpb,
                       surfaces := dpb + 3, bufBytes := buf, waiting := dBits x 9 3 1 == 1 }
      let d := takeArena (book d 0 ns) hd ext
      let d := addObj d { handle := hd, fn := c.fn, session := o.session, parent := o.handle, books := booksOf 0 ns }
      .ok (.done { d with vid := { d.vid with ctxs := d.vid.ctxs ++ [k] } } (leBytes hd 4 ++ leBytes (ext * 2048) 4))
def execCtxCreate (fn : Fin 64) (ring : Fin 32) (s : State) : Host.Outcome State Fault Refusal :=
  onDev (runCmd 0x28 fn.val ring.val ctxCreateAct) s

/-! ### Refresh requests (R221, R223) -/

/-- An EV_VDC event of a context, once per stride per context (R222). -/
def evCtx (x : Ctx) (code cls : Nat) (detail : List (Nat × Nat)) : Ev :=
  { evTo (evDev code cls detail) x.fn with key := x.handle }
/-- The request goes out on fb_leg. -/
def sendCtxRefresh (d : Dev) (x : Ctx) (kind source : Nat) : Dev :=
  match findLeg d x.fbLeg with
  | none => d
  | some fb =>
    let media := ((findLeg d x.inLeg).map Leg.ssrc).getD 0
    let d := sendRtcp d fb.handle (feedbackPacket kind fb.ssrc media d.tim.stride)
    let d := modCtx d x.handle fun x => { x with lastReq := some d.tim.stride, reqWait := none }
    raiseOnce d (evCtx x 0x508 0 [(4, x.handle), (1, kind), (1, source)])
/-- A request under the 24-stride limit: the device, and 0 sent, 1 deferred, 2 not sent. (DEDUCED, log entry 123.) -/
def askRefresh (d : Dev) (h kind source : Nat) : Dev × Nat :=
  match findCtx d h with
  | none => (d, 2)
  | some x =>
    if kind = 0 || (findLeg d x.fbLeg).isNone then (d, 2)
    else if reqDue d x.lastReq then (sendCtxRefresh d x kind source, 0)
    else (modCtx d h fun x => { x with reqWait := some (kind, source) }, 1)
/-- A picture was published or dropped: clean, or concealed or tainted (R221). -/
def pictureOutcome (d : Dev) (h : Nat) (clean rap : Bool) : Dev :=
  match findCtx d h with
  | none => d
  | some x =>
    let d := modCtx d h fun x => { x with clean := clean, reqWait := if clean && rap then none else x.reqWait }
    if !clean && x.clean then (askRefresh d h x.refReq 0).1 else d
/-- REFRESH_INTERVAL_END: of a context, or of a source leg (R271). -/
def refreshIntervalEnd (d : Dev) (h : Nat) : Dev :=
  match findCtx d h, findLeg d h with
  | some x, _ =>
    (match x.reqWait with
     | some (kind, source) => if reqDue d x.lastReq then sendCtxRefresh d x kind source else d
     | none => d)
  | none, some l =>
    (match l.reqWait with
     | some dest => if reqDue d l.lastReq then sendRefresh d l 1 dest else d
     | none => d)
  | none, none => d
def execRefreshIntervalEnd (ctx : Nat) (s : State) : Host.Outcome State Fault Refusal := onDev (fun d => refreshIntervalEnd d ctx) s

/-! ### A ready picture (R211) -/

/-- A waiting packet: sequence number, timestamp, marker, length, stride of arrival. -/
structure CtxPkt where
  seq : Nat
  ts : Nat
  marker : Bool
  bytes : Nat
  at_ : Nat
  deriving DecidableEq, Repr
def readPkt (e : List Byte × Nat) : CtxPkt :=
  let b := toNats e.1
  ⟨rtpSeq b, rtpTs b, (nth b 1 0).testBit 7, b.length, e.2⟩
/-- Signed distance of 16-bit sequence numbers, and of timestamps. -/
def seqDiff (a b : Nat) : Int := (BitVec.ofNat 16 a - BitVec.ofNat 16 b).toInt
def tsDiff (a b : Nat) : Int := sdiff (wd a) (wd b)
/-- The first of a list by a signed distance. -/
def firstBy (f : CtxPkt → CtxPkt → Int) : List CtxPkt → Option CtxPkt
  | [] => none
  | p :: ps => match firstBy f ps with
    | none => some p
    | some q => if f q p < 0 then some q else some p
/-- The packets of the oldest picture: the packets, its first and last sequence numbers, whether it is complete, and the stride
of its last received packet. -/
structure Gathered where
  pkts : List CtxPkt
  ts : Nat
  first : Nat
  last : Nat
  complete : Bool
  lastAt : Nat
  deriving DecidableEq, Repr
/-- (DEDUCED, log entry 119.) -/
def gather (x : Ctx) : Option Gathered :=
  let ps := x.pkts.map readPkt
  match firstBy (fun a b => tsDiff a.ts b.ts) ps with
  | none => none
  | some old =>
    let mine := ps.filter fun p => p.ts == old.ts
    let later := ps.filter fun p => p.ts != old.ts
    let bySeq (a b : CtxPkt) : Int := seqDiff a.seq b.seq
    let lo := ((firstBy bySeq mine).getD old).seq
    let first := x.nextSeq.getD lo
    let ended := (mine.find? CtxPkt.marker).map CtxPkt.seq
    let next := (firstBy bySeq later).map fun p => (p.seq + 65535) % 65536
    let hi := ((firstBy (fun a b => seqDiff b.seq a.seq) mine).getD old).seq
    let last := (ended.orElse fun _ => next).getD hi
    let n := (seqDiff last first + 1).toNat
    some { pkts := mine, ts := old.ts, first := first, last := last,
           complete := (ended.orElse fun _ => next).isSome && (List.range n).all fun i =>
             mine.any fun p => p.seq == (first + i) % 65536,
           lastAt := (mine.map CtxPkt.at_).foldl max 0 }
/-- The packets of a picture leave the list of those not yet cut into pictures. -/
def takePkts (d : Dev) (h : Nat) (g : Gathered) : Dev :=
  modCtx d h fun x => { x with pkts := x.pkts.filter (fun e => (readPkt e).ts != g.ts),
                               nextSeq := some ((g.last + 1) % 65536), lastTs := some g.ts }

/-- Running decode pipes of unfenced quarters with their queue lengths. -/
def pipesUp (d : Dev) : List (UnitId × Nat) :=
  ((candidates d).flatMap fun q => (List.range (clsCount d.variant 2 q)).map (UnitId.mk 2 q)).filterMap fun u =>
    if running d u then some (u, (queueOf d u).length) else none
/-- (DEDUCED, log entry 171.) -/
def leastPipe : List (UnitId × Nat) → Option (UnitId × Nat)
  | [] => none
  | p :: ps => match leastPipe ps with
    | none => some p
    | some q => if q.2 < p.2 then some q else some p
/-- The next pipe, and the list with its queue one longer. (DEDUCED, log entry 171.) -/
def nextPipe (ps : List (UnitId × Nat)) : UnitId × List (UnitId × Nat) :=
  match leastPipe ps with
  | none => (⟨2, 0xFF, 0xFF⟩, ps)
  | some p => (p.1, ps.map fun x => if x.1 == p.1 then (x.1, x.2 + 1) else x)

/-- A card of firmware's with its slot. (DEDUCED, log entry 73.) -/
def buildCard (d : Dev) (c : Card) (ordered : Bool) : Dev × Nat := (fwCard d c ordered, (freeSlot d).getD 0)
/-- A card that is in the store gets one more successor. (DEDUCED, log entry 120.) -/
def addSucc (d : Dev) (slot succ : Nat) : Dev :=
  match findCard d slot, findCard d succ with
  | some c, some s =>
    putCard (putCard d { c with succ := c.succ ++ [succ] }) { s with counter := s.counter + 1, pendingReg := s.pendingReg + 1 }
  | _, _ => d
/-- The pixel cards from `i` on, `n` of them, each on its pipe, with the finish card as successor. -/
def buildPixel (base : Card) (work : Nat → Work) (fin hold : Nat) : Nat → Nat → List (UnitId × Nat) → Dev → Dev × List Nat
  | 0, _, _, d => (d, [])
  | n + 1, i, ps, d =>
    let p := nextPipe ps
    let r := buildCard d { base with quarter := p.1.quarter, unit := p.1.index, work := work i, succ := [fin], counter := hold } true
    let rest := buildPixel base work fin hold n (i + 1) p.2 r.1
    (rest.1, r.2 :: rest.2)
/-- The size of a codec's CTU (R212). -/
def ctbOf (codec ctb : Nat) : Nat := match codec with | 1 => max 1 ctb | 0 | 3 => 16 | _ => 64
/-- The cards that a picture's pixel work begins with take the finish card of the picture before as their producer, or are released
where there is none. -/
def startAfter (prev : Option Nat) (d : Dev) (slot : Nat) : Dev :=
  match findCard d slot with
  | none => d
  | some c =>
    match prev with
    | some f => addSucc (putCard d { c with counter := c.counter - 1 }) f slot
    | none => runTasks (putCard d { c with counter := 0 }) [.release slot]
/-- Strides by which a picture's finish card is due after its pixel work: R31 never drops it where R217 ends that work in time.
(DEDUCED, log entry 120.) -/
def finishSlack : Nat := 8
/-- The cards of a picture (R211, R212): the finish card, then the pixel work, whose first cards wait on the finish card of the
picture before: the parse card, or every segment card, so that they are released in index order (R213). (DEDUCED, log entry 120.) -/
def buildPicture (d : Dev) (x : Ctx) (p : Pic) (v : PicIn) : Dev :=
  let auto_ := min 8 (ceilDiv (v.w * v.h) 500000)
  let seg := max 1 (if x.segMax = 0 then auto_ else x.segMax)
  let tiled := 2 ≤ v.tiles && (x.codec == 1 || x.codec == 2 || x.codec == 4)
  let k := if tiled then min seg v.tiles else max 1 (min seg (ceilDiv v.h p.ctb))
  let base : Card := { slot := 0, seq := 0, cls := if x.deferred then 1 else 0, exec := 2, deadline := strideW d + wd x.slack,
                       flow := x.handle, fn := x.fn, source := .firmware, owner := x.handle, work := .relay }
  let ps := pipesUp d
  let home := ((nextPipe ps).1).quarter
  let fin := buildCard d { base with exec := 5, quarter := home, unit := 0xFF, flow := x.handle + 2 ^ 32, counter := k,
                                     deadline := strideW d + wd (x.slack + finishSlack), work := .finish x.handle p.id } false
  let prev := (x.pics.filter fun q => !q.done).getLast?.bind Pic.finish
  let d := modPic fin.1 x.handle p.id fun p => { p with finish := some fin.2 }
  if tiled then
    let r := buildPixel base (fun i => .segment x.handle p.id i) fin.2 1 k 0 ps d
    r.2.foldl (startAfter prev) (modPic r.1 x.handle p.id fun p => { p with work := r.2 })
  else
    let pipe := nextPipe ps
    let par := buildCard d { base with quarter := pipe.1.quarter, unit := pipe.1.index, work := .parse x.handle p.id, counter := 1 } true
    let r := buildPixel base (fun i => .rebuild x.handle p.id i k) fin.2 1 k 0 pipe.2 par.1
    let d := match findCard r.1 par.2 with
      | some c => (r.2.foldl (fun d s => match findCard d s with
          | some y => putCard d { y with pendingReg := y.pendingReg + 1 }
          | none => d) (putCard r.1 { c with succ := r.2 }))
      | none => r.1
    startAfter prev (modPic d x.handle p.id fun p => { p with work := par.2 :: r.2 }) par.2

/-- A picture that has not started leaves unpublished: what waits on its finish card waits on that of the picture before it. -/
def discardPic (d : Dev) (h : Nat) (p : Pic) : Dev :=
  match findCtx d h with
  | none => d
  | some x =>
    let prev := (x.pics.filter fun q => !q.done && decide (q.id < p.id)).getLast?.bind Pic.finish
    let succ := ((p.finish.bind (findCard d)).map Card.succ).getD []
    let d := match prev with
      | some f => succ.foldl (fun d s => addSucc d f s) d
      | none => d
    let d := modCtx d h fun x => { x with pics := x.pics.filter (fun q => q.id != p.id), bufUsed := x.bufUsed - p.bytes }
    (p.work ++ p.finish.toList).foldl cancelCard d
/-- A deferred context with too many ready pictures that have not started loses its oldest non-reference picture of them
(R214). -/
def skipBacklog (d : Dev) (h : Nat) : Dev :=
  match findCtx d h with
  | none => d
  | some x =>
    let idle := x.pics.filter fun p => !p.done && p.firstDeal.isNone
    match idle.find? fun p => !p.isRef with
    | none => d
    | some p =>
      if !x.deferred || idle.length ≤ x.backlog then d
      else
        raiseOnce (discardPic d h p) (evCtx x 0x50A 0 [(4, x.handle), (2, 1)])
/-- PICTURE_READY (R211, table Decode error outcomes). (DEDUCED, log entry 119; DEDUCED, log entry 121.) -/
def pictureReady (d : Dev) (h : Nat) (v : PicIn) : Dev :=
  match findCtx d h with
  | none => d
  | some x =>
    match gather x with
    | none => d
    | some g =>
      let due := g.complete || decide (g.lastAt + x.reasm + 1 ≤ d.tim.stride)
      if !due || x.released || halted d || d.variant.fwSlots < fwUsed d + 10 then d
      else
        let bytes := (g.pkts.map CtxPkt.bytes).sum
        let lost := ((seqDiff g.last g.first + 1).toNat - g.pkts.length) + v.bad
        let d := takePkts d h g
        let d := if lost = 0 then d else raiseOnce d (evCtx x 0x507 0 [(4, h), (2, lost), (4, g.ts)])
        let big := decide (x.maxW < v.w) || decide (x.maxH < v.h) || decide (4096 < v.w) || decide (2304 < v.h)
        let unsup : Option Nat := if big then some 0 else match v.unsupported with
          | some r => some r.val
          | none => if x.codec ≤ 1 && decide (x.dpb < v.keeps.length) then some 3 else none
        if x.bufBytes < x.bufUsed + bytes then
          pictureOutcome (raiseOnce d (evCtx x 0x506 1 [(4, h), (4, bytes)])) h false false
        else if v.unparseable then
          (let f := drawFree d 8
           pictureOutcome (raiseOnce f.2 (evCtx x 0x504 1 [(4, h), (1, f.1.toNat), (8, 0)])) h false false)
        else match unsup with
          | some r => raiseOnce (modCtx d h fun x => { x with waiting := true }) (evCtx x 0x505 1 [(4, h), (1, r)])
          | none =>
            if x.waiting && !v.rap then d
            else
              let held := x.pics.map Pic.id
              let missing := v.missing || v.uses.any fun i => !held.contains i
              let older := x.pics.any Pic.done
              let d := if missing then raiseOnce d (evCtx x 0x500 1 [(4, h), (4, g.ts), (1, (!older).toNat)]) else d
              let p : Pic := { id := x.nextPic, rtpTs := g.ts, ready := d.tim.stride, w := v.w, h := v.h, isRef := v.isRef, rap := v.rap,
                               recovery := v.recovery, uses := v.uses, keeps := v.keeps, bytes := bytes, ctb := ctbOf x.codec v.ctb,
                               areas := v.areas, mono := v.mono,
                               damaged := missing || lost != 0, allGrey := !(missing && older) }
              let d := modCtx d h fun x => { x with pics := x.pics ++ [p], nextPic := x.nextPic + 1, waiting := false,
                                                    bufUsed := x.bufUsed + bytes }
              skipBacklog (buildPicture d x p v) h
def execPictureReady (ctx : Nat) (pic : PicIn) (s : State) : Host.Outcome State Fault Refusal := onDev (fun d => pictureReady d ctx pic) s

/-! ### CTX_REFRESH (R223) -/

/-- A flush takes effect at the next picture boundary: the picture in decode completes first; ready pictures that have not started are
discarded up to a random access picture. (DEDUCED, log entry 123.) -/
def flushCtx (d : Dev) (h : Nat) : Dev :=
  match findCtx d h with
  | none => d
  | some x =>
    let open_ := x.pics.filter fun p => !p.done
    let idle := open_.filter fun p => p.firstDeal.isNone
    let gone := idle.takeWhile fun p => !p.rap
    modCtx (gone.foldl (fun d p => discardPic d h p) d) h fun y =>
      let y := { y with waiting := gone.length == idle.length }
      match open_.find? fun p => p.firstDeal.isSome with
      | some p => { y with flush := some p.id }
      | none => flushNow y
/-- CTX_REFRESH. (DEDUCED, log entry 123.) -/
def ctxRefreshAct (d : Dev) (c : Cmd) : Except Fail Act := do
  let x := c.desc
  let o ← objOf d c.fn 5 (dHandle x)
  let k ← (match findCtx d o.handle with | some k => .ok k | none => .error badHandle)
  checkFields x ([(8, dBits x 8 0 2 != 3 && dBits x 8 3 5 == 0)] ++ zeros x 9 63)
  let d := if dBits x 8 2 1 = 0 then d else flushCtx d k.handle
  let kind := if dBits x 8 0 2 = 0 then k.refReq else dBits x 8 0 2
  let r := askRefresh d k.handle kind 1
  .ok (.done r.1 [BitVec.ofNat 8 r.2])
def execCtxRefresh (fn : Fin 64) (ring : Fin 32) (s : State) : Host.Outcome State Fault Refusal :=
  onDev (runCmd 0x29 fn.val ring.val ctxRefreshAct) s

/-! ### CTUs (R212, R213, R217) -/

def ctuCols (p : Pic) : Nat := ceilDiv p.w p.ctb
def ctuRows (p : Pic) : Nat := ceilDiv p.h p.ctb
/-- The CTUs of a card in decode order, by raster address. -/
def cardCtus (p : Pic) : Work → List Nat
  | .segment _ _ i => nth p.areas i []
  | .rebuild _ _ i k => (List.range (ctuCols p * ctuRows p)).filter fun c => c / ctuCols p % max 1 k == i
  | _ => List.range (ctuCols p * ctuRows p)
/-- The CTU of a sample of a plane. -/
def ctuAt (p : Pic) (plane x y : Nat) : Nat :=
  let m := if plane = 0 then 1 else 2
  m * y / p.ctb * ctuCols p + m * x / p.ctb
/-- Luma samples of a CTU that lie inside the picture. -/
def ctuSamples (p : Pic) (c : Nat) : Nat :=
  min p.ctb (p.w - c % ctuCols p * p.ctb) * min p.ctb (p.h - c / ctuCols p * p.ctb)
/-- A rebuild card of the picture that has not ended, with its last CTU row, other than card `i`. -/
def otherRebuilds (d : Dev) (p : Pic) (i : Nat) : List (Card × Nat) :=
  (p.work.filterMap (findCard d)).filterMap fun c => match c.work with
    | .rebuild _ _ j k => if j = i then none else some (c, j + k * ((ctuRows p - 1 - j) / max 1 k))
    | _ => none
/-- What a card's work waits for inside the pipes (R213): a rebuild card ends its last row only after every row above it, in cards that
have ended or are under way; a segment card for the borders of lower segments. (DEDUCED, log entry 168.) -/
def waveOk (d : Dev) (p : Pic) (w : Work) : Bool :=
  let started (c : Card) : Bool := c.done || (c.state != .waiting && c.state != .ready)
  match w with
  | .rebuild _ _ i k =>
    let last := i + k * ((ctuRows p - 1 - i) / max 1 k)
    (otherRebuilds d p i).all fun x => if x.2 < last then x.1.done else started x.1
  | .segment _ _ i => (p.work.filterMap (findCard d)).all fun c => match c.work with
    | .segment _ _ j => decide (i ≤ j) || started c
    | _ => true
  | _ => true

/-! ### Surfaces and the work of a card (R213, R215, R217, R218) -/

/-- Surfaces of a context that frames hold. -/
def heldSurfs (d : Dev) (h : Nat) : List Nat :=
  d.vid.layouts.flatMap fun l => l.frames.flatMap fun f => (f.latches.filter fun y => y.kind == 1 && y.owner == h).map Latch.surface
/-- A surface that may be rewritten (R215). (DEDUCED, log entry 125.) -/
def surfFree (d : Dev) (x : Ctx) (i : Nat) : Bool :=
  !(x.pics.any fun p => p.surface == some i && (!p.done || p.isRef || p.dropped)) && !(x.record.any fun r => r.surface == i) &&
  !(heldSurfs d x.handle).contains i
/-- The picture has a surface: the one it has, or a free one made new; none while every surface is taken. -/
def withSurf (d : Dev) (h id : Nat) : Option (Dev × Surf) :=
  match findCtx d h with
  | none => none
  | some x =>
    match findPic x id with
    | none => none
    | some p =>
      match picSurf x p with
      | some s => some (d, s)
      | none =>
        match (List.range x.surfaces).find? (surfFree d x) with
        | none => none
        | some i =>
          let s : Surf := ⟨h, i * x.surfGeo.size, ⟨p.w, p.h, x.pyr, x.tenBit⟩⟩
          some (newSurf (modPic d h id fun p => { p with surface := some i }) s, s)
/-- The concealment source: the nearest older decoded picture that the context holds (R218). -/
def concealSource (d : Dev) (h id : Nat) : Option Surf :=
  match findCtx d h with
  | none => none
  | some x => ((x.pics.filter fun p => p.done && decide (p.id < id)).filterMap (picSurf x)).getLast?
/-- The card works on its pipe: in service, among the two entries that the stages hold. (DEDUCED, log entry 168.) -/
def onPipe (d : Dev) (c : Card) : Option UnitId :=
  match c.at_ with
  | some u => if c.state == .inService && !c.done && !halted d && u.cls == 2 && ((queueOf d u).take 2).contains c.slot &&
      (uState d u == 2 || uState d u == 3) then some u else none
  | none => none
/-- Kinds of cards in EV_VDC_SYNTAX, in the order of the table Cards of one picture. (DEDUCED, log entry 121.) -/
def cardKind : Work → Nat
  | .segment _ _ _ => 0 | .parse _ _ => 1 | .rebuild _ _ _ _ => 2 | .finish _ _ => 3 | _ => 4
/-- The offset in a context's arena of a physical address, where the arena holds it. -/
def arenaOff (d : Dev) (h a : Nat) : Option Nat :=
  match d.mem.arenas.find? fun y => y.1 == h with
  | none => none
  | some y =>
    if a < surfBase d then none
    else (y.2.findIdx? fun e => e == (a - surfBase d) / extent).map fun i => i * extent + (a - surfBase d) % extent
/-- The address lies in a fence window of the context: the surfaces, or the bitstream and token buffers behind them (R218). -/
def inFence (d : Dev) (x : Ctx) (a : Nat) : Bool :=
  (arenaOff d x.handle a).any fun o => decide (o < x.surfaces * x.surfGeo.size + 2 * x.bufBytes)
/-- A card's accesses outside the windows. -/
def fenceHits (d : Dev) (x : Ctx) (r : CodedOut) : List (Nat × Nat) := r.strays.filter fun s => !inFence d x s.1
/-- The CTUs of a card that are concealed: those from a stop on (a syntax error, a fence, a limit, the picture's end), those of a bad
read, those that the data does not reach, those behind the end of the parse (R217, R218). (DEDUCED, log entry 124.) -/
def concealedCtus (d : Dev) (x : Ctx) (p : Pic) (own : List Nat) (r : CodedOut) (limit : Bool) : List Nat :=
  let rest (c : Nat) : List Nat := own.dropWhile fun y => y != c
  let stopped := limit || p.abandoned || r.err == 1
  let gone := (if stopped then rest r.ctu else []) ++ ((fenceHits d x r).head?.map fun s => rest s.2).getD []
  own.filter fun c => gone.contains c || r.missing.contains c || (r.err == 2 && c == r.ctu) || p.stopAt.any fun n => decide (n ≤ c)
/-- What a card's run leaves in its pipe's counters, events and picture, with its concealed CTUs. (DEDUCED, log entry 124.) -/
def codedEffects (d : Dev) (u : UnitId) (x : Ctx) (p : Pic) (w : Work) (r : CodedOut) (gone : List Nat) : Dev :=
  let a := VDC u.quarter u.index
  let h := x.handle
  let blocks := ceilDiv (gone.map (ctuSamples p)).sum 256
  let d := cnt (cnt (cnt (cnt d (a + 0x10) r.pixels) (a + 0x14) r.pixCycles) (a + 0x18) r.entCycles) (a + 0x28) blocks
  let d := match r.err with
    | 0 => d
    | 1 => raiseOnce (cnt d (a + 0x20) 1) (evCtx x 0x504 1 [(4, h), (1, cardKind w), (8, r.ctu)])
    | 2 => raiseOnce d (evCtx x 0x509 2 [(4, h), (1, p.surface.getD 0), (8, r.ctu)])
  let hits := fenceHits d x r
  let d := hits.foldl (fun d s =>
    raiseOnce (setReg (setReg (cnt d (a + 0x24) 1) (a + 0x30) (wd s.1)) (a + 0x34) (wd (s.1 / 2 ^ 32)))
      (evCtx x 0x503 2 [(1, u.index), (4, h), (8, s.1 % 2 ^ 48)])) d
  let grey := (concealSource d h p.id).isNone
  let bad := r.err != 0 || !gone.isEmpty || !hits.isEmpty
  modPic d h p.id fun p => { p with damaged := p.damaged || bad, concealBlk := p.concealBlk + blocks,
                                    allGrey := p.allGrey && (!bad || grey) }
/-- The tile with the samples that a card gives it: decoded ones, the concealment source's in its concealed CTUs, what stood there in the
CTUs of other cards; mid-grey chroma of a monochrome picture (R227). -/
def mixTile (d : Dev) (p : Pic) (s : Surf) (own gone : List Nat) (tiles : List (Nat × List Nat)) (t : Nat) : List Nat :=
  let src := concealSource d s.owner p.id
  let new := (tiles.find? fun y => y.1 == t).map Prod.snd
  let ox := t % s.geo.tx 0
  let oy := t / s.geo.tx 0
  tileFrom s.geo 0 t fun plane x y =>
    let c := ctuAt p plane x y
    let tw := if plane = 0 then 32 else 16
    let th := if plane = 0 then 8 else 4
    let i := (if plane = 0 then 0 else 256 + (plane - 1) * 64) + (y - oy * th) * tw + (x - ox * tw)
    if gone.contains c then concealSample d src s plane x y
    else match if own.contains c then new else none with
      | some l => if p.mono && plane != 0 then s.geo.grey else min (nth l i s.geo.grey) (2 ^ s.geo.depth - 1)
      | none => (sampleAt d s 0 plane x y).1
/-- The tiles of a level-0 plane that some of a card's CTUs reach. -/
def tilesOf (p : Pic) (s : Surf) (own : List Nat) : List Nat :=
  (List.range (s.geo.tiles 0)).filter fun t =>
    let x0 := t % s.geo.tx 0 * 32
    let y := t / s.geo.tx 0 * 8
    own.any fun c => c / ctuCols p == y / p.ctb && decide (x0 / p.ctb ≤ c % ctuCols p) && decide (c % ctuCols p ≤ (x0 + 31) / p.ctb)
/-- Decoded tiles are written, the rest of the card's area is concealed: only within its own CTUs. -/
def codedTiles (d : Dev) (p : Pic) (s : Surf) (own gone : List Nat) (tiles : List (Nat × List Nat)) : Dev :=
  (tilesOf p s own).foldl (fun e t => writeTile s 0 e (t, mixTile e p s own gone tiles t)) d
/-- A segment or rebuild card runs to its end: it waits for the rows and borders that it needs, and while no surface is free. -/
def runPixel (d : Dev) (c : Card) (u : UnitId) (h id : Nat) (r : CodedOut) (limit : Bool) : Dev :=
  match findCtx d h with
  | none => putCard d { c with done := true }
  | some x =>
    match findPic x id with
    | none => putCard d { c with done := true }
    | some p =>
      if !waveOk d p c.work then d
      else match withSurf d h id with
        | none => d
        | some (d, s) =>
          let own := cardCtus p c.work
          let gone := concealedCtus d x p own r limit
          putCard (codedEffects (codedTiles d p s own gone r.tiles) u x p c.work r gone) { c with done := true }
/-- The entropy stage fills the token buffer, up to the CTU at which it ends short. -/
def runParse (d : Dev) (c : Card) (u : UnitId) (h id : Nat) (r : CodedOut) (limit : Bool) : Dev :=
  match findCtx d h with
  | none => putCard d { c with done := true }
  | some x =>
    match findPic x id with
    | none => putCard d { c with done := true }
    | some p =>
      let short := (concealedCtus d x p (cardCtus p c.work) { r with missing := [] } limit).head?
      let d := codedEffects d u x p c.work r []
      putCard (modPic d h id fun p => { p with stopAt := short, damaged := p.damaged || short.isSome }) { c with done := true }
/-- A pixel work card on its pipe runs to its end. -/
def pixelCard (d : Dev) (slot : Nat) (r : CodedOut) (limit : Bool) (isMine : Work → Bool) : Dev :=
  match findCard d slot with
  | none => d
  | some c =>
    match onPipe d c, isMine c.work, c.work with
    | some u, true, .segment h id _ => runPixel d c u h id r limit
    | some u, true, .rebuild h id _ _ => runPixel d c u h id r limit
    | some u, true, .parse h id => runParse d c u h id r limit
    | _, _, _ => d
def execSegmentCard (slot : Nat) (r : CodedOut) (s : State) : Host.Outcome State Fault Refusal :=
  onDev (fun d => pixelCard d slot r false fun w => cardKind w == 0) s
def execParseCard (slot : Nat) (r : CodedOut) (s : State) : Host.Outcome State Fault Refusal :=
  onDev (fun d => pixelCard d slot r false fun w => cardKind w == 1) s
def execRebuildCard (slot : Nat) (r : CodedOut) (s : State) : Host.Outcome State Fault Refusal :=
  onDev (fun d => pixelCard d slot r false fun w => cardKind w == 2) s

/-- A CTU reaches its limit of (CTU area / 256) × ctu_limit cycles: the card's decoding ends, the rest of it is concealed (R217). -/
def ctuLimit (d : Dev) (slot cycles : Nat) (r : CodedOut) : Dev :=
  match findCard d slot with
  | none => d
  | some c =>
    let go (h id : Nat) : Dev :=
      match onPipe d c, findCtx d h with
      | some u, some x =>
        (match findPic x id with
         | none => d
         | some p =>
           if cycles < p.ctb * p.ctb / 256 * getF d (VDC u.quarter u.index + 4) 0 16 then d
           else
             let e := pixelCard d slot { r with err := 0 } true fun _ => true
             if (findCard e slot).all Card.done then
               raiseOnce (cnt e (VDC u.quarter u.index + 0x1C) 1) (evCtx x 0x501 1 [(1, u.index), (4, h), (8, r.ctu)])
             else d)
      | _, _ => d
    match c.work with
    | .segment h id _ => go h id
    | .parse h id => go h id
    | .rebuild h id _ _ => go h id
    | _ => d
def execCtuLimit (slot cycles : Nat) (r : CodedOut) (s : State) : Host.Outcome State Fault Refusal :=
  onDev (fun d => ctuLimit d slot cycles r) s
/-- A picture not done 2 strides after its first deal (R217): cards not started are cancelled, those in service stop at their next CTU and
conceal the remainder. (DEDUCED, log entry 122.) -/
def picLimit (d : Dev) (h id ctus : Nat) : Dev :=
  match findCtx d h with
  | none => d
  | some x =>
    match findPic x id with
    | none => d
    | some p =>
      let due := p.firstDeal.any fun s => decide (s + 2 ≤ d.tim.stride)
      if !due || p.work.isEmpty || p.abandoned || p.done || halted d then d
      else
        let d := modPic d h id fun p => { p with abandoned := true, damaged := true }
        let d := raiseOnce d (evCtx x 0x502 1 [(4, h), (4, p.rtpTs), (2, ctus)])
        p.work.foldl (fun d s => match findCard d s with
          | some c => if c.state == .waiting || c.state == .ready then cancelCard d s else d
          | none => d) d
def execPicLimit (ctx pic ctus : Nat) (s : State) : Host.Outcome State Fault Refusal := onDev (fun d => picLimit d ctx pic ctus) s

/-! ### Finish and conceal cards (R215, R216, R220) -/

/-- The picture's flags at its finish (R216, R219). -/
def settlePic (x : Ctx) (p : Pic) : Pic :=
  let conceal := p.damaged || p.dropped || p.concealBlk != 0
  let taint := conceal || (!(p.rap || p.recovery) && x.pics.any fun q => p.uses.contains q.id && q.tainted)
  { p with concealed := conceal, tainted := taint, isRef := p.isRef || p.dropped }
/-- The pictures that the context goes on holding after a picture: those in decode, its references, itself, the one shown. -/
def keepPics (x : Ctx) (p : Pic) : List Pic :=
  (x.pics.map fun q => if q.id == p.id then p
    else if q.done then { q with isRef := q.isRef && p.keeps.contains q.id, dropped := q.dropped && p.keeps.contains q.id } else q).filter
    fun q => !q.done || q.id == p.id || q.isRef || x.record.any fun r => some r.surface == q.surface
/-- The surface that a picture is published from: a picture none of whose pixel work ran takes one now (R217). -/
def finishSurf (d : Dev) (h id : Nat) (dropped : Bool) : Dev :=
  if dropped then d
  else match withSurf d h id with
    | some (d, s) => writePyramid (concealAbsent d (concealSource d h id) s) s
    | none => d
/-- FINISH_CARD: publish, or order concealment. -/
def finishPicture (d : Dev) (h id : Nat) : Dev :=
  match findCtx d h with
  | none => d
  | some x =>
    match findPic x id with
    | none => d
    | some p0 =>
      let d := finishSurf d h id p0.dropped
      let surface := ((findCtx d h).bind fun x => findPic x id).bind Pic.surface
      let p := { settlePic x p0 with done := true, surface := surface }
      let show_ := !p0.dropped && surface.isSome && !x.released
      let ps := keepPics x p
      let rec_ : PicRec := { surface := p.surface.getD 0, concealed := p.concealed, tainted := p.tainted,
                             grey := p.concealed && p.allGrey, levels := x.pyr, tenBit := x.tenBit, width := p.w, height := p.h,
                             rtpTs := p.rtpTs, ready := p.ready % 2 ^ 32, published := d.tim.stride % 2 ^ 32, concealBlk := p.concealBlk,
                             seq := (x.seq + 1) % 2 ^ 32 }
      let d := modCtx d h fun x =>
        let y := { x with pics := ps, bufUsed := x.bufUsed - p.bytes, concealCnt := (x.concealCnt + p.concealed.toNat) % 65536 }
        let y := if show_ then { y with record := some rec_, seq := rec_.seq, pubTs := p.rtpTs, pubTaint := p.tainted } else y
        if y.flush == some id then flushNow y else y
      let d := if x.released then d else pictureOutcome d h (!p.tainted) p.rap
      if p0.dropped && !x.released then
        let pipe := (nextPipe (pipesUp d)).1
        fwCard d { slot := 0, seq := 0, cls := if x.deferred then 1 else 0, exec := 2, quarter := pipe.quarter, unit := pipe.index,
                   deadline := strideW d + wd x.slack,
                   flow := x.handle + 2 ^ 32, fn := x.fn, source := .firmware, owner := x.handle, work := .conceal h id } false
      else d
def finishCard (d : Dev) (slot : Nat) : Dev :=
  match findCard d slot with
  | none => d
  | some c =>
    match c.work with
    | .finish h id => if c.state != .inService || c.done || halted d then d else putCard (finishPicture d h id) { c with done := true }
    | _ => d
def execFinishCard (slot : Nat) (s : State) : Host.Outcome State Fault Refusal := onDev (fun d => finishCard d slot) s
/-- CONCEAL_CARD: every undecoded area of the picture from the concealment source; it waits while no surface is free. -/
def concealCard (d : Dev) (slot : Nat) (r : CodedOut) : Dev :=
  match findCard d slot with
  | none => d
  | some c =>
    match onPipe d c, c.work with
    | some u, .conceal h id =>
      (match findCtx d h, withSurf d h id with
       | some x, some (d, s) =>
         (match findPic x id with
          | some p =>
            let n := ((List.range (s.geo.tiles 0)).filter fun t => tileAbsent d s 0 t).length
            let d := writePyramid (concealAbsent d (concealSource d h id) s) s
            let d := cnt (codedEffects d u x p c.work { r with err := 0 } []) (VDC u.quarter u.index + 0x28) n
            putCard (modPic d h id fun p => { p with concealBlk := p.concealBlk + n }) { c with done := true }
          | none => putCard d { c with done := true })
       | _, _ => if ((findCtx d h).bind fun x => findPic x id).isSome then d else putCard d { c with done := true })
    | _, _ => d
def execConcealCard (slot : Nat) (r : CodedOut) (s : State) : Host.Outcome State Fault Refusal :=
  onDev (fun d => concealCard d slot r) s

/-! ### Release and query (R209) -/

/-- A released context accepts and publishes nothing more; its record stays while a frame holds its surfaces. -/
def releaseCtx (d : Dev) (h : Nat) : Dev :=
  match findCtx d h with
  | none => d
  | some _ => modCtx d h fun x => { x with released := true, pkts := [], reqWait := none }
/-- A layer's reference to a source that is gone (R240). -/
def detachSet (h : Nat) (s : LayerSet) : LayerSet :=
  { s with layers := s.layers.map fun y => if y.source == h then { y with source := 0 } else y }
def detachSource (d : Dev) (h : Nat) : Dev :=
  { d with vid := { d.vid with layouts := d.vid.layouts.map fun l =>
    { l with active := detachSet h l.active, shadow := detachSet h l.shadow, pending := l.pending.map (detachSet h) } } }
/-- Arenas of objects that are gone return once no frame holds their surfaces. -/
def sweepArenas (d : Dev) : Dev :=
  let gone := (d.mem.arenas.map Prod.fst).filter fun h => (findObj d h).isNone && (heldSurfs d h).isEmpty
  gone.foldl (fun d h => dropArena { d with vid := { d.vid with ctxs := d.vid.ctxs.filter fun x => x.handle != h } } h) d
def queryCtx (x : Ctx) : List Byte :=
  resBytes [(1, if x.waiting then 2 else if x.seq = 0 && x.record.isNone then 0 else 1), (1, x.pubTaint.toNat), (2, x.concealCnt),
    (4, x.seq), (4, x.pubTs)]

end Sys2Proof.Machine
end

