-- ==== Sys2Proof/Machine/Compose.lean ====
section
/-! DEFINITION. Layouts and composition (R229 to R245): creation and phases (R46, R47), shadow and commit, the frame. -/
namespace Sys2Proof.Machine

def cmpUnit (l : Layout) : UnitId := ⟨3, l.home, l.comp⟩
def encUnit (e : EncS) : UnitId := ⟨4, e.home, e.pipe⟩
/-- Period in strides of a frame-rate code (table Audio and video periods). -/
def periodOf (rate : Nat) : Nat := nth [20, 24, 40, 48, 50, 80, 160] rate 0
/-- An EV_CMP event of a layout, once per stride per layout (R242). -/
def evLayout (l : Layout) (code cls : Nat) (detail : List (Nat × Nat)) : Ev :=
  { evTo (evUnit (cmpUnit l) code cls detail) l.fn with key := l.handle }

/-! ### Placement (R47, R229) -/

/-- Base pixels that a compositor's layouts start in stride `c`. -/
def loadAt (d : Dev) (q comp c : Nat) : Nat :=
  ((d.vid.layouts.filter fun l => l.home == q && l.comp == comp && c % l.period == l.phase).map fun l => l.outW * l.outH).sum
/-- The largest entry over the strides c ≡ φ (mod P), and over the whole table. -/
def loadMax (f : Nat → Nat) (period phase : Nat) : Nat :=
  ((List.range (2400 / max 1 period)).map fun i => f (phase + i * period)).foldl max 0
/-- The φ of the lowest largest entry, the lowest among equals. (DEDUCED, log entry 16.) -/
def bestPhase (f : Nat → Nat) (period : Nat) : Nat :=
  (bestBy (fun p => -(loadMax f period p : Int)) (List.range period)).getD 0
/-- The compositor and phase for a new layout of `px` base pixels. (DEDUCED, log entry 16.) -/
def placeLayout (d : Dev) (q period px : Nat) (pin : Option Nat) : Option (Nat × Nat) :=
  let room (c : Nat) : Bool := decide ((d.vid.layouts.filter fun l => l.home == q && l.comp == c).length < 32)
  let phase (c : Nat) : Nat := pin.getD (bestPhase (loadAt d q c) period)
  let after (c : Nat) : Nat := max (loadMax (loadAt d q c) 1 0) (loadMax (loadAt d q c) period (phase c) + px)
  (bestBy (fun c => -(after c : Int)) ((List.range 4).filter room)).map fun c => (c, phase c)

/-! ### LAYOUT_CREATE (R229) -/

def outGeo (l : Layout) : Geo := ⟨l.outW, l.outH, 3, l.tenBit⟩
/-- (DEDUCED, log entry 128.) -/
def layoutCreateAct (d : Dev) (c : Cmd) : Except Fail Act := do
  let x := c.desc
  let o ← objOf d c.fn 2 (dHandle x)
  parentOpen d o
  let rate := dBits x 8 0 3
  let period := periodOf rate
  let pin := dBits x 8 7 1 == 1
  let ten := dBits x 8 3 1 == 1
  let w := dNum x 12 2
  let h := dNum x 14 2
  checkFields x ([(8, rate != 7 && dBits x 8 4 2 != 3), (9, quarterField d (dByte x 9)),
    (10, if pin then decide (dByte x 10 < period) else dByte x 10 == 0), (11, decide (dByte x 11 ≤ 4)),
    (12, w % 16 == 0 && decide (64 ≤ w) && decide (w ≤ 4096)), (14, h % 8 == 0 && decide (64 ≤ h) && decide (h ≤ 2304)),
    (16, dNum x 16 4 != 0), (20, decide (dNum x 20 4 < 2 ^ 30))] ++ zeros x 28 63)
  let enc := dNum x 24 4
  let ns : List Need := (if enc = 0 then [] else [⟨2, enc⟩]) ++ [⟨3, ceilDiv (w * h) period⟩, ⟨4, dNum x 16 4⟩, ⟨5, 4⟩, ⟨9, 1⟩]
  let copies := dBits x 8 6 1 == 1
  let geo : Geo := ⟨w, h, 3, ten⟩
  let ext := extentsFor (((if copies then 3 else 0) + dByte x 11) * geo.size)
  match admission d (if dByte x 9 = 0xFF then none else some (dByte x 9)) 2 ns, newHandle d 6 with
  | .error r, _ => .error (noCapacity r)
  | .ok q, none => .error (noCapacity (refusal44 d 9 q 1))
  | .ok q, some hd =>
    match placeLayout d q period (w * h) (if pin then some (dByte x 10) else none) with
    | none => .error (noCapacity (refusal44 d 9 q 1))
    | some (comp, phase) =>
      if !extentsFit d ext then .error (arenaRefused d ext)
      else
        let set : LayerSet := { bg := dNum x 20 4 }
        let l : Layout := { handle := hd, fn := c.fn, home := q, comp := comp, period := period, phase := phase, tenBit := ten,
                            outCs := dBits x 8 4 2, hbmCopy := copies, slates := dByte x 11, outW := w, outH := h, encPix := enc,
                            active := set, shadow := set }
        let d := book d q ns
        let d := if ext = 0 then d else takeArena d hd ext
        let d := addObj d { handle := hd, fn := c.fn, session := o.session, parent := o.handle, home := q, books := booksOf q ns }
        .ok (.done { d with vid := { d.vid with layouts := d.vid.layouts ++ [l] } }
          (resBytes [(4, hd), (1, comp), (1, q), (2, phase), (4, ext * 2048)]))
def execLayoutCreate (fn : Fin 64) (ring : Fin 32) (s : State) : Host.Outcome State Fault Refusal :=
  onDev (runCmd 0x30 fn.val ring.val layoutCreateAct) s

/-! ### LAYOUT_SHADOW (R231, R232) -/

/-- The number of little-endian bytes at `i` of a descriptor. -/
def leAt (b : List Byte) (i n : Nat) : Nat := leNat (slice b i n)
/-- A 14-bit two's complement field. -/
def signed14 (n : Nat) : Int := wrapS 14 n
/-- A layer descriptor. -/
def parseLayer (b : List Byte) : Layer :=
  let f (i lo len : Nat) : Nat := leAt b i 1 / 2 ^ lo % 2 ^ len
  { source := leAt b 0 4, visible := f 4 0 1 == 1, auto_ := f 4 1 1 == 1, greyPh := f 4 2 1 == 1, level := f 5 0 2, vtap := f 5 2 2,
    alpha := leAt b 6 1, slate := f 7 0 3, dstX := leAt b 8 2, dstY := leAt b 10 2, dstW := leAt b 12 2, dstH := leAt b 14 2,
    cropX := leAt b 16 2, cropY := leAt b 18 2, cropW := leAt b 20 2, cropH := leAt b 22 2, cmode := f 24 0 2, srcCs := f 24 2 2,
    stale := leAt b 26 2, ph := leAt b 28 4, c := (List.range 9).map fun i => signed14 (leAt b (32 + 2 * i) 2),
    inOff := (List.range 3).map fun i => signed14 (leAt b (50 + 2 * i) 2),
    outOff := (List.range 3).map fun i => signed14 (leAt b (56 + 2 * i) 2) }
/-- Largest size and pyramid levels of a source that the function may use. -/
def sourceSize (d : Dev) (fn h : Nat) : Option (Nat × Nat × Nat) :=
  match (findCtx d h).filter fun x => !x.released, findLayout d h with
  | some x, _ => if x.fn = fn then some (x.maxW, x.maxH, x.pyr) else none
  | none, some l => if l.fn = fn && l.hbmCopy then some (l.outW, l.outH, 3) else none
  | none, none => none
/-- The checks on a descriptor for layer `i` of a layout. -/
def layerValid (d : Dev) (l : Layout) (i : Nat) (b : List Byte) : Bool :=
  let y := parseLayer b
  let rep (n : Nat) : Bool := n / 2 ^ 13 == 0 || n / 2 ^ 13 == 7
  let even (n : Nat) : Bool := n % 2 == 0
  b.length == 64 && leAt b 4 1 / 8 == 0 && leAt b 5 1 / 16 == 0 && leAt b 7 1 / 8 == 0 && leAt b 24 1 / 16 == 0 && leAt b 25 1 == 0 &&
  leAt b 62 2 == 0 && decide (y.ph < 2 ^ 30) && y.vtap != 3 && y.cmode != 3 && y.srcCs != 3 &&
  ((List.range 15).all fun j => rep (leAt b (32 + 2 * j) 2)) &&
  [y.dstX, y.dstY, y.dstW, y.dstH, y.cropX, y.cropY, y.cropW, y.cropH].all even && decide (2 ≤ y.dstW) && decide (2 ≤ y.dstH) &&
  decide (y.dstX + y.dstW ≤ l.outW) && decide (y.dstY + y.dstH ≤ l.outH) && decide (y.slate ≤ l.slates) &&
  (i != 63 || y.source == 0) &&
  (y.source == 0 || (match sourceSize d l.fn y.source with
    | some (w, h, n) => (y.cropW == 0 || decide (y.cropX + y.cropW ≤ w)) && (y.cropH == 0 || decide (y.cropY + y.cropH ≤ h)) &&
        decide (y.level ≤ n)
    | none => false))
/-- Descriptors of 64 bytes each. -/
def chunks64 : Nat → List Byte → List (List Byte)
  | 0, _ => []
  | n + 1, b => b.take 64 :: chunks64 n (b.drop 64)
/-- Offset of a slate's surface in the layout's arena. -/
def slateOff (l : Layout) (i : Nat) : Nat := ((if l.hbmCopy then 3 else 0) + i) * (outGeo l).size
/-- The layout that LAYOUT_SHADOW or LAYOUT_COMMIT names: of the issuing function, or of function `owner` (R232). -/
def layoutOf (d : Dev) (c : Cmd) (owner : Nat) : Except Fail Layout := do
  let fn := if owner = 0xFF || c.fn != 0 || 63 < owner then c.fn else owner
  let o ← objOf d fn 6 (dHandle c.desc)
  require (!fenced d o.home) { st := ST_MODE }
  match findLayout d o.handle with
  | some l => .ok l
  | none => .error badHandle
/-- (DEDUCED, log entry 129.) -/
def layoutShadowAct (data : HostRead) (d : Dev) (c : Cmd) : Except Fail Act := do
  let x := c.desc
  let owner := dByte x 10
  let l ← layoutOf d c owner
  let op := dBits x 8 0 2
  let first := dByte x 9
  let n := dBits x 11 0 7
  let sw := dNum x 24 2
  let sh := dNum x 26 2
  checkFields x ([(8, op != 3 && dBits x 8 2 6 == 0), (9, if op = 0 then decide (first ≤ 63) else op == 1 || decide (first < l.slates)),
    (10, owner == 0xFF || (op == 0 && first == 63 && n == 1 && decide (owner ≤ 63))),
    (11, dBits x 11 7 1 == 0 && (op != 0 || (decide (1 ≤ n) && decide (first + n ≤ 64)))), (12, op != 1 || decide (dNum x 12 4 < 2 ^ 30)),
    (16, op != 0 || dNum x 16 8 % 64 == 0),
    (24, op != 2 || (sw % 2 == 0 && decide (16 ≤ sw) && decide (sw ≤ l.outW))),
    (26, op != 2 || (sh % 2 == 0 && decide (16 ≤ sh) && decide (sh ≤ l.outH)))] ++ zeros x 28 63)
  if op = 1 then
    .ok (.done (modLayout d l.handle fun l => { l with shadow := { l.shadow with bg := dNum x 12 4 } }) [])
  else match data with
    | .fail a => .error (busError c a.toNat)
    | .ok bs =>
      if op = 0 then
        let ds := chunks64 n (padTo bs (64 * n))
        require (((List.range n).zip ds).all fun p => layerValid d l (first + p.1) p.2) (badField 16)
        .ok (.done (modLayout d l.handle fun l =>
          { l with shadow := { l.shadow with layers := splice l.shadow.layers first (ds.map parseLayer) } }) [])
      else
        let d := storeImage d ⟨l.handle, slateOff l first, ⟨sw, sh, 3, false⟩⟩ (padTo bs (sw * sh * 3 / 2))
        .ok (.done (modLayout d l.handle fun l => { l with slateAt := (first, sw, sh) :: l.slateAt.filter fun s => s.1 != first }) [])
def execLayoutShadow (fn : Fin 64) (ring : Fin 32) (data : HostRead) (s : State) : Host.Outcome State Fault Refusal :=
  onDev (runCmd 0x31 fn.val ring.val (layoutShadowAct data)) s

/-! ### LAYOUT_COMMIT (R235, R237, R239) -/

/-- The first stride after `now` with c mod P = φ. -/
def nextPhase (now period phase : Nat) : Nat := now + 1 + (phase + period - (now + 1) % max 1 period) % max 1 period
/-- A visible layer with a source finds no level. -/
def layerShort (d : Dev) (l : Layout) (y : Layer) : Option (Nat × Nat) :=
  if !y.visible || y.source = 0 then none
  else match sourceSize d l.fn y.source with
    | none => none
    | some (w, h, n) =>
      match chooseLevel y w h n with
      | some _ => none
      | none => some (finestTried y, lineNeed y w h (finestTried y))
def layoutCommitAct (d : Dev) (c : Cmd) : Except Fail Act := do
  let x := c.desc
  let owner := dByte x 10
  let l ← layoutOf d c owner
  let main := dBits x 8 0 1 == 1
  let prot := dBits x 8 1 1 == 1
  checkFields x ([(8, dBits x 8 2 6 == 0 && (main || prot))] ++ zeros x 9 9 ++ [(10, owner == 0xFF || (!main && decide (owner ≤ 63)))] ++
    zeros x 11 63)
  let mine := (List.range 64).filter fun i => if i = 63 then prot else main
  match mine.findSome? fun i => (layerShort d l (nth l.shadow.layers i {})).map fun s => (i, s) with
  | some (i, k, need) => .error { st := ST_LINEBUF_SHORT, res := resBytes [(1, i), (1, k), (2, 0), (4, need)] }
  | none =>
    let base := l.pending.getD l.active
    let set : LayerSet :=
      { layers := (List.range 64).map fun i =>
          if mine.contains i then withMatrix l.outCs (nth l.shadow.layers i {}) else nth base.layers i {}
        bg := if main then l.shadow.bg else base.bg }
    .ok (.done (modLayout d l.handle fun l => { l with pending := some set }) (leBytes (nextPhase d.tim.stride l.period l.phase) 4))
def execLayoutCommit (fn : Fin 64) (ring : Fin 32) (s : State) : Host.Outcome State Fault Refusal :=
  onDev (runCmd 0x32 fn.val ring.val layoutCommitAct) s

/-! ### The latch (R234, R241, R242) -/

/-- The crop lies wholly outside the picture. -/
def cropOutside (y : Layer) (w h : Nat) : Bool := (y.cropW != 0 && decide (w ≤ y.cropX)) || (y.cropH != 0 && decide (h ≤ y.cropY))
/-- A slate that the layer can show, as a latch, and whether it does not fit. -/
def slateLatch (l : Layout) (i : Nat) (y : Layer) : Option Latch × Bool :=
  match l.slateAt.find? fun s => s.1 + 1 == y.slate with
  | none => (none, false)
  | some (j, w, h) =>
    match chooseLevel { y with auto_ := true, cropW := 0, cropH := 0 } w h 3 with
    | none => (none, true)
    | some k =>
      (some { layer := i, kind := 2, owner := l.handle, surface := 0x100 + j, off := slateOff l j, level := k,
              record := some { surface := j, levels := 3, tenBit := false, width := w, height := h, rtpTs := 0, ready := 0,
                               published := 0, seq := 0 } }, false)
/-- The surfaces of a context that frames hold and that are not references, with their latches. -/
def heldPlain (d : Dev) (x : Ctx) : List Latch :=
  (d.vid.layouts.flatMap fun l => l.frames.flatMap Frame.latches).filter fun t => t.kind == 1 && t.owner == x.handle &&
    !(x.pics.any fun p => p.surface == some t.surface && p.isRef)
/-- The picture that a source offers the layer: surface, offset, record. -/
def latchPicture (d : Dev) (h : Nat) : Option (Nat × Nat × PicRec) :=
  match findCtx d h, findLayout d h with
  | some x, _ =>
    if x.released then none
    else x.record.map fun r =>
      let held := heldPlain d x
      let isRef := x.pics.any fun p => p.surface == some r.surface && p.isRef
      let distinct := (held.map Latch.surface).eraseDups
      if isRef || distinct.contains r.surface || distinct.length < 2 then (r.surface, r.surface * x.surfGeo.size, r)
      else
        let newer (a b : Latch) : Bool := match a.record, b.record with | some p, some q => decide (p.seq < q.seq) | _, _ => false
        match held.foldl (fun best t => match best with | none => some t | some b => if newer b t then some t else some b) none with
        | some t => (t.surface, t.off, t.record.getD r)
        | none => (r.surface, r.surface * x.surfGeo.size, r)
  | none, some l => l.record.map fun r => (r.surface, r.surface * (outGeo l).size, r)
  | none, none => none
/-- One layer's latch: the device after its counts and events, the latch, and what the layer did. -/
def latchLayer (d : Dev) (l : Layout) (i : Nat) (y : Layer) (rt : LayerRt) : Dev × Option Latch × LayerRt :=
  if !y.visible then (d, none, { rt with stale := false, placeholder := false })
  else
    let a := CMP l.home l.comp
    let pic := (if y.source = 0 then none else latchPicture d y.source).filter fun p =>
      !(y.greyPh && p.2.2.grey) && !cropOutside y p.2.2.width p.2.2.height
    let fit := pic.bind fun p => (chooseLevel y p.2.2.width p.2.2.height p.2.2.levels).map fun k => (p, k)
    match fit with
    | some ((s, off, r), k) =>
      let lim := if y.stale = 0 then 2 * l.period else y.stale
      let age := sdiff (strideW d) (wd r.published)
      let stale := decide ((lim : Int) ≤ age)
      let d := if stale then cnt d (a + 0x2C) 1 else d
      let d := if stale && !rt.stale then raiseOnce d (evLayout l 0x600 1 [(4, l.handle), (2, i), (4, age.toNat)]) else d
      let direct := directAt y r.width r.height k
      (d, some { layer := i, kind := 1, owner := y.source, surface := s, off := off, record := some r, level := k, direct := direct },
        { level := k, direct := direct, stale := stale, placeholder := false,
          staleCount := (rt.staleCount + stale.toNat) % 2 ^ 32, seq := r.seq })
    | none =>
      let s := slateLatch l i y
      let d := if s.2 then raiseOnce d (evLayout l 0x604 1 [(4, l.handle), (2, i), (1, y.slate - 1)]) else d
      let d := cnt d (a + 0x30) 1
      let d := if rt.placeholder then d
        else raiseOnce d (evLayout l 0x601 0 [(4, l.handle), (2, i), (1, s.1.isSome.toNat)])
      (d, some (s.1.getD { layer := i, kind := 3 }),
        { rt with level := (s.1.map Latch.level).getD rt.level, direct := false, stale := false, placeholder := true })
/-- Latches of the layers from `i` on. -/
def latchAll (l : Layout) : List Nat → Dev → Dev × List Latch × List LayerRt
  | [], d => (d, [], [])
  | i :: is, d =>
    let r := latchLayer d l i (nth l.active.layers i {}) (nth l.rt i {})
    let rest := latchAll l is r.1
    (rest.1, r.2.1.toList ++ rest.2.1, r.2.2 :: rest.2.2)
/-- Surfaces of a layout's copies that an encoder holds. -/
def encHeld (d : Dev) (h : Nat) : List Nat := ((d.vid.encs.flatMap EncS.pics).filterMap EncPic.src).filterMap fun s => if s.1 = h then some s.2 else none
/-- A free copy surface (R244). -/
def freeCopy (d : Dev) (l : Layout) : Option Nat :=
  (List.range 3).find? fun i => !(l.record.any fun r => r.surface == i) && !(heldSurfs d l.handle).contains i &&
    !(encHeld d l.handle).contains i && !(l.frames.any fun f => f.copy == some i)
/-- The phase boundary of a layout (R241). -/
def phaseLatch (d : Dev) (h : Nat) : Dev :=
  match findLayout d h with
  | none => d
  | some l =>
    let n := d.tim.stride
    if n % l.period != l.phase || !running d (cmpUnit l) then d
    else
      let l := { l with active := l.pending.getD l.active, pending := none }
      let d := modLayout d h fun x => { x with active := l.active, pending := none }
      match l.frames.find? fun f => f.phase == n with
      | none => d
      | some f =>
        let r := latchAll l (List.range 64) d
        let copy := if l.hbmCopy then freeCopy r.1 l else none
        let d := if l.hbmCopy && copy.isNone then copySkip r.1 l 0 else r.1
        let d := match copy with
          | some i => newSurf d ⟨h, i * (outGeo l).size, outGeo l⟩
          | none => d
        let g : Frame := { f with set := l.active, latches := r.2.1, copy := copy }
        modLayout d h fun x => { x with rt := r.2.2, frames := x.frames.map fun y => if y.phase == n then g else y }

/-! ### Cards of a frame (R243) -/

/-- The band-input stream of a layout. -/
def bandStream (d : Dev) (h : Nat) : Option EncS := d.vid.encs.find? fun e => e.layout == h && !e.surface
/-- An encode card of a band (R253): of a chained band it waits for its band card. -/
def encodeBandCard (d : Dev) (e : EncS) (phase band : Nat) (chained : Bool) : Dev × Nat :=
  buildCard d { slot := 0, seq := 0, cls := 0, nbEn := true, notBefore := wd phase, exec := 4, quarter := e.home, unit := e.pipe,
                deadline := wd (phase + 2), counter := chained.toNat, flow := e.handle, fn := e.fn, source := .firmware,
                owner := e.handle, work := .encode e.handle phase band } false
/-- The band card and, for a band-input stream, the encode card that it decrements. -/
def buildBand (l : Layout) (phase : Nat) (d : Dev) (b : Nat) : Dev :=
  let r : Dev × List Nat := match bandStream d l.handle with
    | some e => (let x := encodeBandCard d e phase b true; (x.1, [x.2]))
    | none => (d, [])
  (buildCard r.1 { slot := 0, seq := 0, cls := 0, nbEn := true, notBefore := wd phase, exec := 3, quarter := l.home, unit := l.comp,
                   deadline := wd (phase + 1), succ := r.2, flow := l.handle, fn := l.fn, source := .firmware, owner := l.handle,
                   work := .compose l.handle phase b } false).1
/-- A picture of a stream begins to be built. -/
def addPic (d : Dev) (h : Nat) (p : EncPic) : Dev := modEnc d h fun e => { e with pics := e.pics ++ [p] }
/-- A frame that is skipped whole leaves its band-input stream's picture to be filled (R31, R262). -/
def skipFrame (d : Dev) (l : Layout) (phase reason : Nat) : Dev :=
  let d := copySkip d l reason
  match bandStream d l.handle with
  | some e => addPic d e.handle { phase := phase, fill := some 0 }
  | none => d
/-- In the stride before a phase stride, firmware builds the frame's cards; a compositor that does not run has its frames
skipped. (DEDUCED, log entry 128.) -/
def buildFrame (d : Dev) (h : Nat) : Dev :=
  match findLayout d h with
  | none => d
  | some l =>
    let phase := d.tim.stride + 1
    if phase % l.period != l.phase then d
    else if !running d (cmpUnit l) then skipFrame d l phase 2
    else if d.variant.fwSlots < fwUsed d + 2 * bandCount l then skipFrame d l phase 1
    else
      let f : Frame := { phase := phase, set := l.active, latches := [], copy := none, bandsLeft := List.range (bandCount l) }
      let d := modLayout d h fun x => { x with frames := x.frames ++ [f] }
      let d := match bandStream d h with
        | some e => addPic d e.handle { phase := phase, bandsLeft := f.bandsLeft }
        | none => d
      (List.range (bandCount l)).foldl (buildBand l phase) d

/-! ### COMPOSE_BAND (R242, R243, R244) -/

/-- Source tiles of a latched layer that band `b` reads and that read as uncorrectable. (DEDUCED, log entry 130.) -/
def badTiles (d : Dev) (l : Layout) (f : Frame) (b : Nat) (t : Latch) : List Nat :=
  match latchSurf t with
  | none => []
  | some s =>
    let y := nth f.set.layers t.layer {}
    let first := max (64 * b) y.dstY
    let past := min (64 * b + bandRows l b) (y.dstY + y.dstH)
    if t.kind = 1 ∧ first < past then
      (tilesRead y s t.level (first - y.dstY) (past - 1 - y.dstY)).filter fun i => (readTile d s t.level i).2
    else []
/-- EV_CMP_HBM_UE for the bad source tiles that band `b` of the frame reads. (DEDUCED, log entry 130.) -/
def reportTiles (d : Dev) (l : Layout) (f : Frame) (b : Nat) : Dev :=
  f.latches.foldl (fun d t => (badTiles d l f b t).foldl (fun d i =>
    raiseOnce (cnt d (CMP l.home l.comp + 0x34) 1) (evLayout l 0x603 2 [(4, l.handle), (2, t.layer), (1, t.surface), (2, i)])) d) d
/-- The encode card that the band card `c` decrements still waits for the band: one that was cancelled or dropped (R262) reads no
band. -/
def bandAwaited (d : Dev) (c : Card) (h phase b : Nat) : Bool :=
  match bandStream d h with
  | none => false
  | some e => d.dlr.cards.any fun x => c.succ.contains x.slot && x.state == .waiting && x.work == .encode e.handle phase b
/-- The compositor at work on the card at its queue's head: it takes a band buffer, or waits for one. -/
def composeBand (d : Dev) (slot cycles : Nat) : Dev :=
  match findCard d slot with
  | none => d
  | some c =>
    match c.work, c.at_ with
    | .compose h phase b, some u =>
      if c.state != .inService || halted d || (queueOf d u).head? != some slot || (uState d u != 2 && uState d u != 3) then d
      else
        match findLayout d h, (findLayout d h).bind fun l => l.frames.find? fun f => f.phase == phase with
        | some l, some f =>
          let a := CMP l.home l.comp
          let pool := 4 * l.home + l.comp
          let n := bandUnits l b
          if ledgFree d 8 pool < n then
            raiseOnce (cnt d (a + 0x28) cycles) (evLayout l 0x602 1 [(1, l.comp), (4, h), (4, cycles)])
          else
            let planes := bandPlanes d l f b
            let d := reportTiles d l f b
            let d := cnt (cnt d (a + 0x20) (l.outW * bandRows l b)) (a + 0x24) cycles
            let d := match f.copy with
              | some i => writeBand d l ⟨h, i * (outGeo l).size, outGeo l⟩ b planes
              | none => d
            let d := ledgTake d 8 pool n
            let d := if bandAwaited d c h phase b then
                { d with vid := { d.vid with bufs := d.vid.bufs ++ [⟨pool, h, phase, b, n, planes⟩] } }
              else ledgGive d 8 pool n
            completeCard d slot
        | _, _ => completeCard d slot
    | _, _ => d
def execComposeBand (slot cycles : Nat) (s : State) : Host.Outcome State Fault Refusal := onDev (fun d => composeBand d slot cycles) s

/-! ### Release and query -/

/-- A released layout: its frames end, its buffers return. -/
def releaseLayout (d : Dev) (h : Nat) : Dev :=
  let gone := d.vid.bufs.filter fun b => b.layout == h
  gone.foldl (fun d b => ledgGive d 8 b.comp b.units)
    { d with vid := { d.vid with bufs := d.vid.bufs.filter fun b => b.layout != h, layouts := d.vid.layouts.filter fun l => l.handle != h } }
def queryLayout (d : Dev) (l : Layout) (i : Nat) : List Byte :=
  let r := nth l.rt i {}
  let st := if fenced d l.home then 2 else if running d (cmpUnit l) then 0 else 1
  resBytes [(1, st), (1, r.level + 4 * r.direct.toNat + 8 * r.stale.toNat + 16 * r.placeholder.toNat), (2, l.phase), (4, r.staleCount),
    (4, r.seq)]

end Sys2Proof.Machine
end

