-- ==== Sys2Proof/Machine/Motion.lean ====
section
/-! DEFINITION. Layers of an encode stream and its references (R250, R251, R253), motion search (R254), refresh wave groups and clean
regions (R259, R260), the form of a unit (R257, R261), reconstruction. -/
namespace Sys2Proof.Machine

/-! ### Layers (R250, R251) -/

/-- Pyramid level that spatial layer `s` of `n` codes. -/
def layerLevel (n s : Nat) : Nat := n - 1 - s
def layerSize (w h n s : Nat) : Nat × Nat := (levelDim w (layerLevel n s), levelDim h (layerLevel n s))
/-- The size in which a codec codes a layer: whole macroblocks, multiples of 8, the exact size. -/
def codedSize (codec : Nat) (sz : Nat × Nat) : Nat × Nat :=
  let up (k n : Nat) : Nat := k * ceilDiv n k
  match codec with
  | 0 => (up 16 sz.1, up 16 sz.2)
  | 1 => (up 8 sz.1, up 8 sz.2)
  | _ => sz
/-- Pixels of one picture over all spatial layers. -/
def framePixels (w h n : Nat) : Nat := ((List.range n).map fun s => (layerSize w h n s).1 * (layerSize w h n s).2).sum
def EncS.level (e : EncS) (s : Nat) : Nat := layerLevel e.sLayers s
def EncS.size (e : EncS) (s : Nat) : Nat × Nat := layerSize e.outW e.outH e.sLayers s
/-- Length of the temporal pattern, the sum of its weights. -/
def patternLen (t : Nat) : Nat := 2 ^ (t - 1)
def weightSum : Nat → Nat
  | 1 => 1
  | 2 => 3
  | _ => 8
/-- Temporal id of picture `i` with `t` temporal layers. -/
def temporalId (t i : Nat) : Nat :=
  match t with
  | 1 => 0
  | 2 => i % 2
  | _ => nth [0, 2, 1, 2] (i % 4) 0
/-- Weight of temporal id `k`. -/
def temporalWeight (t k : Nat) : Nat := nth (match t with | 1 => [1] | 2 => [2, 1] | _ => [4, 2, 1]) k 0
/-- Whether pictures of temporal id `k` are references: TL0, and TL1 of three layers. -/
def refTl (t k : Nat) : Bool := k == 0 || (t == 3 && k == 1)
/-- The picture that a picture of temporal id `k` refers to: the previous TL0, for TL2 the preceding TL0 or TL1. -/
def EncS.refOf (e : EncS) (k : Nat) : Option EncRef := e.refs.find? fun r => r.tl == 0 || (k == 2 && r.tl == 1)
/-- The references after a picture: a TL0 picture takes the place of all, a TL1 picture that of the TL1 picture before. -/
def addRef (t : Nat) (r : EncRef) (refs : List EncRef) : List EncRef :=
  if !refTl t r.tl || (refs.any fun x => decide (r.num < x.num)) then refs
  else if r.tl = 0 then [r] else r :: refs.filter fun x => x.tl == 0
/-- The surfaces that the next picture's reconstruction takes: the lowest of three that no reference holds. -/
def freeRef (refs : List EncRef) : Nat := ((List.range 3).find? fun i => !(refs.any fun r => r.slot == i)).getD 0
/-- Reference surfaces in the stream's arena (R247): three per layer, with the levels of the composed picture that lie below the layer's. -/
def EncS.refGeo (e : EncS) (s : Nat) : Geo := ⟨(e.size s).1, (e.size s).2, 3 - e.level s, e.tenBit⟩
def EncS.refSurf (e : EncS) (s slot : Nat) : Surf :=
  ⟨e.handle, ((List.range s).map fun i => 3 * (e.refGeo i).size).sum + slot * (e.refGeo s).size, e.refGeo s⟩

def EncS.bands (e : EncS) : Nat := ceilDiv e.outH 64
/-- Rows of a layer that a band carries, at full height: 64 for AV1, else 64, 32 or 16 (R253). -/
def EncS.rowH (e : EncS) (s : Nat) : Nat := if e.codec = 2 then 64 else 64 / 2 ^ e.level s
/-- The row of a layer that band `b` codes (R253). -/
def EncS.rowAt (e : EncS) (s b : Nat) : Option Nat :=
  let k := e.level s
  if e.codec = 2 then (if (b + 1) % 2 ^ k = 0 || b + 1 = e.bands then some (b / 2 ^ k) else none) else some b
/-- That row's height. -/
def EncS.rowOf (e : EncS) (s b : Nat) : Option Nat := (e.rowAt s b).map fun r => min (e.rowH s) ((e.size s).2 - r * e.rowH s)
/-- Pixels of the rows of a layer, in the order of coding. -/
def EncS.rowPixels (e : EncS) (s : Nat) : List Nat :=
  (List.range e.bands).filterMap fun b => (e.rowOf s b).map fun h => h * (e.size s).1
/-- Units of a row of a layer: 64 columns each, the last one as wide as is left. -/
def EncS.rowUnits (e : EncS) (s : Nat) : Nat := ceilDiv (e.size s).1 64

/-! ### The picture that is coded (R253) -/

/-- Sample (x, z) of the luma plane of level `k` of the composed picture: from a copy surface, from a band's buffer, or from the staging
area. (DEDUCED, log entry 131.) -/
def inputLuma (d : Dev) (e : EncS) (p : EncPic) (k x z : Nat) : Nat :=
  match p.src with
  | some s => (sampleAt d ⟨s.1, s.2 * (Geo.mk e.outW e.outH 3 e.tenBit).size, ⟨e.outW, e.outH, 3, e.tenBit⟩⟩ k 0 x z).1
  | none =>
    let h := 64 / 2 ^ k
    let b := z / h
    let at_ (planes : List (List Nat)) (i : Nat) : Nat := nth (nth planes i []) (z % h * levelDim e.outW k + x) 0
    match d.vid.bufs.find? fun y => y.layout == e.layout && y.phase == p.phase && y.band == b with
    | some y => at_ y.planes (3 * k)
    | none => match p.staged.find? fun y => y.1 == b with
      | some y => at_ y.2 (3 * (k - 1))
      | none => 0
/-- What stays staged after band `b` of a band-input AV1 stream: the L1 to L3 rows of the bands whose L2 row is not coded yet. (DEDUCED, log entry 131.) -/
def stageBand (d : Dev) (e : EncS) (p : EncPic) (b : Nat) : List (Nat × List (List Nat)) :=
  if e.codec != 2 || e.surface || e.sLayers < 2 then []
  else
    let mine := (d.vid.bufs.find? fun y => y.layout == e.layout && y.phase == p.phase && y.band == b).map fun y => (b, y.planes.drop 3)
    (p.staged ++ mine.toList).filter fun y => decide ((b + 1) / 2 ^ (e.sLayers - 1) ≤ y.1 / 2 ^ (e.sLayers - 1))

/-! ### Groups and clean regions (R259, R260) -/

/-- Columns of a group, and groups, of a layer's wave. -/
def groupCols (e : EncS) (n s : Nat) : Nat := max 1 (ceilDiv (e.rowUnits s) n)
def waveGroups (e : EncS) (n s : Nat) : Nat := ceilDiv (e.rowUnits s) (groupCols e n s)
/-- The group of a column of 64 samples: group g holds the columns from g × w up to min((g + 1) × w, C) − 1. -/
def groupOfCol (e : EncS) (s c : Nat) : Nat := c / groupCols e e.cfg.waveN s
/-- Samples that a region loses at an edge that borders columns outside it. -/
def cleanMargin (codec : Nat) : Nat := if codec = 2 then 16 else 8
/-- Columns whose group's mark, as `marks` has it, is set and is at least `t`. -/
def cleanCols (e : EncS) (s : Nat) (marks : List (Nat × Nat)) (t : Nat) : List Nat :=
  (List.range (e.rowUnits s)).filter fun c => marks.any fun m => m.1 == groupOfCol e s c && decide (t ≤ m.2)
/-- The mark of the group of a column of layer `s` while a wave runs. -/
def markOf (e : EncS) (s c : Nat) : Option Nat :=
  if !e.waving then none else ((nth e.waves s {}).marks.find? fun m => m.1 == groupOfCol e s c).map Prod.snd
/-- Where a unit's vectors may point: the size of the picture referred to, its clean columns (none: all of them), their margin. -/
structure Reach where
  w : Nat
  h : Nat
  clean : Option (List Nat)
  margin : Nat
  deriving DecidableEq, Repr
/-- Columns `x0` to `x1`, held to the picture, lie in the clean region. -/
def Reach.cleanSpan (l : Reach) (x0 x1 : Int) : Bool :=
  match l.clean with
  | none => true
  | some cs =>
    let hi : Int := (l.w : Int) - 1
    let a := (clampI 0 hi x0).toNat - l.margin
    let b := min (l.w - 1) ((clampI 0 hi x1).toNat + l.margin)
    (List.range (b / 64 + 1 - a / 64)).all fun i => cs.contains (a / 64 + i)
/-- The reach of a unit of column `c` of layer `s` into the reference picture. -/
def reachOf (e : EncS) (s c : Nat) (r : EncRef) : Reach :=
  ⟨(e.size s).1, (e.size s).2, (markOf e s c).map (cleanCols e s (nth r.marks s [])), cleanMargin e.codec⟩
/-- The reach into the layer below in the same temporal unit, whose marks take in the group that this picture codes. (DEDUCED, log entry 134.) -/
def reachBelow (e : EncS) (p : EncPic) (s c : Nat) : Reach :=
  let marks := (nth e.waves (s - 1) {}).marks
  let marks := match (p.layers.find? fun x => x.s + 1 == s).bind EncLayer.group with
    | some g => (g, p.num) :: marks.filter fun m => m.1 != g
    | none => marks
  ⟨(e.size (s - 1)).1, (e.size (s - 1)).2, (markOf e s c).map (cleanCols e (s - 1) marks), cleanMargin e.codec⟩

/-! ### Motion search (R254) -/

/-- A rectangle of samples. -/
structure Area where
  x : Nat
  z : Nat
  w : Nat
  h : Nat
  deriving DecidableEq, Repr
/-- A block at a reference level. -/
def Area.down (b : Area) (w h j : Nat) : Area :=
  let x := b.x / 2 ^ j
  let z := b.z / 2 ^ j
  ⟨x, z, min (ceilDiv b.w (2 ^ j)) (levelDim w j - x), min (ceilDiv b.h (2 ^ j)) (levelDim h j - z)⟩
/-- A vector in whole samples of reference level `j` points at most 64 samples of the layer beyond the picture's edge, and into the clean
region. (DEDUCED, log entry 203.) -/
def Reach.allows (l : Reach) (j : Nat) (b : Area) (v : Int × Int) : Bool :=
  let k : Int := 2 ^ j
  let x0 := (b.x + v.1) * k
  let z0 := (b.z + v.2) * k
  decide (-64 ≤ x0) && decide (x0 + b.w * k ≤ l.w + 64) && decide (-64 ≤ z0) && decide (z0 + b.h * k ≤ l.h + 64) &&
  l.cleanSpan x0 (x0 + b.w * k - 1)
/-- The samples to the left and right that interpolation reads: 6 taps for H.264, 8 for HEVC and AV1. (PRESUMED, log entry 205.) -/
def interpReach (codec : Nat) : Nat × Nat := if codec = 0 then (2, 3) else (3, 4)
/-- The whole samples that a block reads at a vector in quarter samples: first and last of a dimension. -/
def readsAt (codec pos len : Nat) (q : Int) : Int × Int :=
  let r := interpReach codec
  let a : Int := pos + q / 4
  if q % 4 = 0 then (a, a + len - 1) else (a - r.1, a + len - 1 + r.2)
/-- A vector in quarter samples is allowed, with its interpolation support. -/
def Reach.allowsQ (l : Reach) (codec : Nat) (b : Area) (v : Int × Int) : Bool :=
  let x := readsAt codec b.x b.w v.1
  decide (-256 ≤ 4 * b.x + v.1) && decide (4 * (b.x + b.w) + v.1 ≤ 4 * l.w + 256) && decide (-256 ≤ 4 * b.z + v.2) &&
  decide (4 * (b.z + b.h) + v.2 ≤ 4 * l.h + 256) && l.cleanSpan x.1 x.2
/-- Sum of absolute differences of a block between the input and the reference moved by a vector. -/
def sad (inp : Nat → Nat → Nat) (ref : Int → Int → Nat) (b : Area) (v : Int × Int) : Nat :=
  ((List.range b.h).map fun z => ((List.range b.w).map fun x =>
    ((inp (b.x + x) (b.z + z) : Int) - ref (b.x + x + v.1) (b.z + z + v.2)).natAbs).sum).sum
/-- The vectors within ±rx × ±rz of one, in raster order. -/
def window (c : Int × Int) (rx rz : Nat) : List (Int × Int) :=
  (List.range (2 * rz + 1)).flatMap fun (z : Nat) => (List.range (2 * rx + 1)).map fun (x : Nat) => (c.1 + x - rx, c.2 + z - rz)
/-- The first vector of least cost, and the two best. (DEDUCED, log entry 203.) -/
def bestVec (cost : Int × Int → Nat) : List (Int × Int) → Option (Int × Int)
  | [] => none
  | v :: vs => match bestVec cost vs with
    | none => some v
    | some u => if cost u < cost v then some u else some v
def twoBest (cost : Int × Int → Nat) (vs : List (Int × Int)) : List (Int × Int) :=
  match bestVec cost vs with
  | none => []
  | some v => v :: (bestVec cost (vs.filter (· != v))).toList
/-- What a search compares: input and reference luma by reference level, the block, the reach. -/
structure Search where
  inp : Nat → Nat → Nat → Nat
  ref : Nat → Int → Int → Nat
  w : Nat
  h : Nat
  reach : Reach
  blk : Area
def Search.cost (q : Search) (j : Nat) : Int × Int → Nat := sad (q.inp j) (q.ref j) (q.blk.down q.w q.h j)
def Search.ok (q : Search) (j : Nat) : Int × Int → Bool := q.reach.allows j (q.blk.down q.w q.h j)
/-- Refinement from the reference level above down to level 0. -/
def Search.refine (q : Search) (r : Nat) : Nat → List (Int × Int) → List (Int × Int)
  | 0, vs => vs
  | j + 1, vs =>
    q.refine r j (twoBest (q.cost j) (((vs.flatMap fun v => window (2 * v.1, 2 * v.2) r r).filter (q.ok j)).eraseDups))
/-- The coarse search at reference level `j` and the refinement: the vectors kept, the better one first. (DEDUCED, log entry 203.) -/
def Search.run (q : Search) (j ch cv r : Nat) (prev : Int × Int) : List (Int × Int) :=
  let kept := twoBest (q.cost j) ((window (0, 0) ch cv).filter (q.ok j))
  q.refine r j (((kept ++ [(0, 0), (prev.1 / 2 ^ j, prev.2 / 2 ^ j)]).filter (q.ok j)).eraseDups)
/-- The settings of VEN_SEARCH: coarse_h, coarse_v, refine, subpel. -/
def searchH (d : Dev) (e : EncS) : Nat := getF d (VEN e.home e.pipe + 4) 0 7
def searchV (d : Dev) (e : EncS) : Nat := getF d (VEN e.home e.pipe + 4) 8 6
def searchRefine (d : Dev) (e : EncS) : Nat := getF d (VEN e.home e.pipe + 4) 16 2
def searchSubpel (d : Dev) (e : EncS) : Nat := getF d (VEN e.home e.pipe + 4) 18 2
/-- Unit `i` of the row of layer `s` that band `b` codes. -/
def unitBlk (e : EncS) (s b i : Nat) : Area :=
  ⟨64 * i, (e.rowAt s b).getD 0 * e.rowH s, min 64 ((e.size s).1 - 64 * i), (e.rowOf s b).getD 0⟩
/-- The search of a unit against the reference picture. -/
def searchOf (d : Dev) (e : EncS) (p : EncPic) (s b i : Nat) (r : EncRef) : Search :=
  { inp := fun j x z => inputLuma d e p (e.level s + j) x z
    ref := fun j x z => (sampleAt d (e.refSurf s r.slot) j 0 x z).1
    w := (e.size s).1, h := (e.size s).2, reach := reachOf e s i r, blk := unitBlk e s b i }
/-- Where unit `i` of band `b` stands among the layer's units. -/
def unitIndex (e : EncS) (s b i : Nat) : Nat := (e.rowAt s b).getD 0 * e.rowUnits s + i
/-- The vectors that a unit keeps: none where none may be used. -/
def unitVecs (d : Dev) (e : EncS) (p : EncPic) (s b i : Nat) (r : EncRef) : List (Int × Int) :=
  let prev := nth (((e.vecs.find? fun v => v.1 == (s, p.tl)).map Prod.snd).getD []) (unitIndex e s b i) (0, 0)
  (searchOf d e p s b i r).run (3 - e.level s) (searchH d e) (searchV d e) (searchRefine d e) prev
/-- A step of the last search: −1, 0 or 1. -/
def stepOf (f : Fin 3) : Int := (f.val : Int) - 1
/-- The vector of a partition in quarter samples: ±refine whole samples around the better vector, then half and quarter samples as far as
subpel allows; the interpolation of the coding standard decides the last two steps. (DEDUCED, log entry 203.) -/
def partVector (d : Dev) (e : EncS) (q : Search) (c : PartCode) (better : Int × Int) : Option PartVec :=
  let q := { q with blk := ⟨q.blk.x + c.x, q.blk.z + c.z, min c.w (q.blk.w - c.x), min c.h (q.blk.h - c.z)⟩ }
  let sub := searchSubpel d e
  (bestVec (q.cost 0) ((window better (searchRefine d e) (searchRefine d e)).filter (q.ok 0))).map fun v =>
    let step (h k : Fin 3) : Int := (if 1 ≤ sub then 2 * stepOf h else 0) + (if sub = 2 then stepOf k else 0)
    let f : Int × Int := (4 * v.1 + step c.halfX c.quarterX, 4 * v.2 + step c.halfZ c.quarterZ)
    let u := if q.reach.allowsQ e.codec q.blk f then f else (4 * v.1, 4 * v.2)
    ⟨c.x, c.z, q.blk.w, q.blk.h, false, u.1, u.2⟩

/-! ### The form of a unit (R257, R259, R261) -/

/-- A tile of level 0 that a rectangle of samples touches and that reads as uncorrectable. -/
def badTileIn (d : Dev) (s : Surf) (x z : Int × Int) : Option Nat :=
  let at_ (n : Nat) (v : Int) : Nat := (clampI 0 ((n : Int) - 1) v).toNat
  let c0 := at_ s.geo.w x.1 / 32
  let c1 := at_ s.geo.w x.2 / 32
  let r0 := at_ s.geo.h z.1 / 8
  let r1 := at_ s.geo.h z.2 / 8
  ((List.range (r1 + 1 - r0)).flatMap fun r => (List.range (c1 + 1 - c0)).map fun c => (r0 + r) * s.geo.tx 0 + c0 + c).find? fun t =>
    (readTile d s 0 t).2
/-- The unit lies in an intra region: the start picture but for what AV1 predicts from the layer below, and the wave group. -/
def intraRegion (e : EncS) (p : EncPic) (x : EncLayer) (i : Nat) : Bool := p.start || x.group == some (groupOfCol e x.s i)
/-- A partition as it is coded: none where it may not be. A partition from the layer below has no vector. (DEDUCED, log entry 203.) -/
def codePart (d : Dev) (e : EncS) (p : EncPic) (x : EncLayer) (b i : Nat) (vs : List (Int × Int)) (c : PartCode) : Option PartVec :=
  if c.layer then
    let k := unitBlk e x.s b i
    if e.codec = 2 && 0 < x.s && x.group != some (groupOfCol e x.s i) &&
        (reachBelow e p x.s i).cleanSpan ((k.x + c.x) / 2 : Nat) ((k.x + c.x + c.w - 1) / 2 : Nat) then
      some ⟨c.x, c.z, c.w, c.h, true, 0, 0⟩
    else none
  else match p.ref, vs.head? with
    | some r, some v => if intraRegion e p x i then none else partVector d e (searchOf d e p x.s b i r) c v
    | _, _ => none
/-- The surface that a partition reads, and an uncorrectable tile of it there: layer, surface, tile. -/
def partBad (d : Dev) (e : EncS) (p : EncPic) (x : EncLayer) (b i : Nat) (v : PartVec) : Option (Nat × Nat × Nat) :=
  let k := unitBlk e x.s b i
  if v.layer then
    (badTileIn d (e.refSurf (x.s - 1) p.slot) (((k.x + v.x) / 2 : Nat), ((k.x + v.x + v.w - 1) / 2 : Nat))
      (((k.z + v.z) / 2 : Nat), ((k.z + v.z + v.h - 1) / 2 : Nat))).map fun t => (x.s - 1, p.slot, t)
  else p.ref.bind fun r =>
    (badTileIn d (e.refSurf x.s r.slot) (readsAt e.codec (k.x + v.x) v.w v.vx) (readsAt e.codec (k.z + v.z) v.h v.vz)).map fun t => (x.s, r.slot, t)
/-- Zero motion: the whole unit from the co-located samples. -/
def zeroPart (e : EncS) (s b i : Nat) : PartVec := ⟨0, 0, (unitBlk e s b i).w, (unitBlk e s b i).h, false, 0, 0⟩
/-- The form of a unit, and a reference tile that could not be read for it. At minimum cost: zero motion without a residual, or DC intra in
an intra region and where zero motion would read outside the clean region. Otherwise as the pipe decides, but intra where no vector is
allowed or a tile that it would use cannot be read. (DEDUCED, log entry 203.) -/
def unitForm (d : Dev) (e : EncS) (p : EncPic) (x : EncLayer) (b i : Nat) (u : UnitCode) (vs : List (Int × Int)) (least : Bool) :
    UnitForm × Option (Nat × Nat × Nat) :=
  let free : Bool := match p.ref with
    | some r => !intraRegion e p x i && (reachOf e x.s i r).allows 0 (unitBlk e x.s b i) (0, 0)
    | none => false
  let parts := u.parts.map (codePart d e p x b i vs)
  if least then
    if !free then (.dc, none)
    else match partBad d e p x b i (zeroPart e x.s b i) with
      | some t => (.dc, some t)
      | none => (.zero, none)
  else if !u.inter || u.parts.isEmpty || parts.any Option.isNone then (.intra, none)
  else
    let ps := parts.filterMap id
    match ps.findSome? (partBad d e p x b i) with
    | some t => (.intra, some t)
    | none => (.inter ps, none)

/-! ### Reconstruction -/

/-- Sample (x, z) of plane `q` of a unit within the row: what coding gives, or the reference's. (DEDUCED, log entry 132.) -/
def reconSample (d : Dev) (e : EncS) (p : EncPic) (s : Nat) (h : Nat) (z0 : Nat) (form : UnitForm) (u : UnitCode) (q x z : Nat) : Nat :=
  let sh := if q = 0 then 1 else 2
  let w := 64 / sh
  let rows := if q = 0 then h else (h + 1) / 2
  let i := (if q = 0 then 0 else 64 * h + (q - 1) * (32 * ((h + 1) / 2))) + min (z - z0 / sh) (rows - 1) * w + x % w
  let top := 2 ^ (e.refGeo s).depth - 1
  match form with
  | .zero => match p.ref with
    | some r => (sampleAt d (e.refSurf s r.slot) 0 q x z).1
    | none => 0
  | .dc => min top (nth u.flat i 0)
  | _ => min top (nth u.samples i 0)
/-- The reconstruction of a row of a layer is written to its surface (R247). (DEDUCED, log entry 132.) -/
def writeRow (d : Dev) (e : EncS) (p : EncPic) (s b : Nat) (forms : List UnitForm) (us : List UnitCode) : Dev :=
  match e.rowAt s b, e.rowOf s b with
  | some r, some h =>
    let surf := e.refSurf s p.slot
    let z0 := r * e.rowH s
    let f (q x z : Nat) : Nat :=
      let c := x / (if q = 0 then 64 else 32)
      reconSample d e p s h z0 (nth forms c .intra) (nth us c {}) q x z
    (List.range (ceilDiv h 8 * surf.geo.tx 0)).foldl (fun d i =>
      let t := z0 / 8 * surf.geo.tx 0 + i
      writeTile surf 0 d (t, tileFrom surf.geo 0 t f)) d
  | _, _ => d
/-- New surfaces for a picture's reconstruction. -/
def newRefs (d : Dev) (e : EncS) (slot : Nat) : Dev := (List.range e.sLayers).foldl (fun d s => newSurf d (e.refSurf s slot)) d
/-- The pyramids of a picture's reconstruction. -/
def refPyramids (d : Dev) (e : EncS) (slot : Nat) : Dev := (List.range e.sLayers).foldl (fun d s => writePyramid d (e.refSurf s slot)) d

end Sys2Proof.Machine
end

