-- ==== Sys2Proof/Machine/Encode.lean ====
section
/-! DEFINITION. Video encode (R246 to R266): streams, layers, rate control, refresh waves, fill pictures, the packetiser. -/
namespace Sys2Proof.Machine

def codecQpMax (codec : Nat) : Nat := if codec = 2 then 255 else 51

/-! ### Placement and creation (R246 to R248) -/

/-- Frame encode pixels that a pipe's streams start in stride `c`. -/
def pipeLoad (d : Dev) (q p c : Nat) : Nat :=
  ((d.vid.encs.filter fun e => e.home == q && e.pipe == p && c % e.period == e.phase).map fun e =>
    framePixels e.outW e.outH e.sLayers).sum
/-- The pipe for a stream of a phase. -/
def choosePipe (d : Dev) (q period phase : Nat) : Nat :=
  (bestBy (fun p => -(loadMax (pipeLoad d q p) period phase : Int)) (List.range 8)).getD 0
/-- Bytes of a stream's arena (R247). (DEDUCED, log entry 132.) -/
def encArena (codec w h n : Nat) (ten : Bool) : Nat :=
  ((List.range n).map fun s =>
    3 * (Geo.mk (layerSize w h n s).1 (layerSize w h n s).2 (3 - layerLevel n s) ten).size).sum +
  (if codec = 2 && 2 ≤ n then up4k ((if ten then 80 else 64) * w) else 0)
/-- A bitrate of a layer that is present, or the zero of one that is not. -/
def rateOk (n s r : Nat) : Bool := if s < n then decide (32000 ≤ r) && decide (r ≤ 50000000) else r == 0
def profFits (codec prof : Nat) (ten : Bool) : Bool :=
  match codec with
  | 0 => decide (prof ≤ 2) && !ten
  | 1 => decide (prof ≤ 1) && (prof == 1) == ten
  | _ => prof == 0
def dRates (x : Desc) : List Nat := [dNum x 12 4, dNum x 16 4, dNum x 20 4]
def orDefault (v dflt : Nat) : Nat := if v = 0 then dflt else v
def videoEncCreate (d : Dev) (c : Cmd) : Except Fail Act := do
  let x := c.desc
  let o ← objOf d c.fn 6 (dHandle x)
  parentOpen d o
  let l ← (match findLayout d o.handle with | some l => .ok l | none => .error badHandle)
  let codec := dBits x 8 0 2
  let prof := dBits x 8 2 2
  let surface := dBits x 8 4 1 == 1
  let n := dBits x 9 0 2
  let t := dBits x 9 2 2
  let waveN := dBits x 10 0 7
  let rates := dRates x
  let qMin := dByte x 24
  let qMax := orDefault (dByte x 25) (codecQpMax codec)
  let cap := dBits x 26 0 7
  let mtu := dNum x 28 2
  let period := if surface then periodOf (dBits x 27 0 3) else l.period
  checkFields x ([(8, codec != 3 && profFits codec prof l.tenBit && dBits x 8 5 3 == 0 &&
      (if surface then l.hbmCopy else (bandStream d l.handle).isNone)),
    (9, n != 0 && t != 0 && dBits x 9 4 4 == 0 && decide (framePixels l.outW l.outH n ≤ 3240000)),
    (10, dBits x 10 7 1 == 0 && (waveN == 0 || (decide (4 ≤ waveN) && decide (waveN ≤ 64)))),
    (11, if surface then quarterField d (dByte x 11) else dByte x 11 == 0),
    (12, rateOk n 0 (nth rates 0 0)), (16, rateOk n 1 (nth rates 1 0)), (20, rateOk n 2 (nth rates 2 0)),
    (24, decide (qMin ≤ codecQpMax codec) && decide (qMin ≤ qMax)), (25, decide (qMax ≤ codecQpMax codec)),
    (26, dBits x 26 7 1 == 0 && (cap == 0 || (decide (16 ≤ cap) && decide (cap ≤ 64)))),
    (27, if surface then dBits x 27 3 5 == 0 && dBits x 27 0 3 != 7 && period % max 1 l.period == 0 else dByte x 27 == 0),
    (28, mtu == 0 || (decide (256 ≤ mtu) && decide (mtu ≤ 8800))), (30, dBits x 30 7 1 == 0),
    (31, dBits x 31 4 4 == 0 && decide (dBits x 31 0 4 ≤ 14) && (codec == 2 || dByte x 31 == 0)), (32, dNum x 32 4 != 0)] ++
    zeros x 36 63)
  let px := framePixels l.outW l.outH n
  let demand := ceilDiv px period
  let ownNs : List Need := (if surface then [⟨2, demand⟩] else []) ++ [⟨4, dNum x 32 4⟩, ⟨12, 1⟩]
  let raise_ : List Need := if !surface && l.encPix < demand then [⟨2, demand - l.encPix⟩] else []
  let pin := if !surface then some l.home else if dByte x 11 = 0xFF then none else some (dByte x 11)
  let ext := extentsFor (encArena codec l.outW l.outH n l.tenBit)
  match admission d pin 2 (ownNs ++ raise_), newHandle d 7 with
  | .error r, _ => .error (noCapacity r)
  | .ok q, none => .error (noCapacity (refusal44 d 12 q 1))
  | .ok q, some hd =>
    if !extentsFit d ext then .error (arenaRefused d ext)
    else
      let phase := if surface then (l.phase + 3) % max 1 period else l.phase
      let e : EncS := { handle := hd, fn := c.fn, layout := l.handle, codec := codec, prof := prof, surface := surface, sLayers := n,
                        tLayers := t, period := period, phase := phase, home := q, pipe := choosePipe d q period phase,
                        outW := l.outW, outH := l.outH, tenBit := l.tenBit, mtu := orDefault mtu 1200, pt := dBits x 30 0 7,
                        ddId := dBits x 31 0 4, waves := List.replicate n {},
                        cfg := { rates := rates, waveN := orDefault waveN 8, qpMin := qMin, qpMax := qMax, cap := orDefault cap 24 } }
      let d := takeArena (book d q (ownNs ++ raise_)) hd ext
      let d := match raise_ with
        | [] => d
        | r :: _ => putObj (modLayout d l.handle fun l => { l with encPix := demand }) { o with books := o.books ++ [⟨2, q, r.amt⟩] }
      let d := addObj d { handle := hd, fn := c.fn, session := o.session, parent := if surface then o.session else l.handle, home := q, media := 1,
                          books := booksOf q ownNs }
      .ok (.done { d with vid := { d.vid with encs := d.vid.encs ++ [e] } }
        (resBytes [(4, hd), (1, e.pipe), (1, q), (2, phase), (4, ext * 2048)]))
/-- ENC_CREATE: on a conference an audio stream (R185), on a layout a video stream (R246). (DEDUCED, log entry 137.) -/
def encCreateAct (d : Dev) (c : Cmd) : Except Fail Act :=
  if hKind (dHandle c.desc) = 6 then videoEncCreate d c else audioEncCreate d c
def execEncCreate (fn : Fin 64) (ring : Fin 32) (s : State) : Host.Outcome State Fault Refusal :=
  onDev (runCmd 0x38 fn.val ring.val encCreateAct) s

/-! ### ENC_SET (R188, R266) -/

def videoEncSet (d : Dev) (c : Cmd) (e : EncS) : Except Fail Act := do
  let x := c.desc
  let m (i : Nat) : Bool := dBits x 8 i 1 == 1
  let rates := dRates x
  let waveN := dBits x 10 0 7
  let qMin := dByte x 24
  let qMax := orDefault (dByte x 25) (codecQpMax e.codec)
  let cap := dBits x 26 0 7
  let rate (s : Nat) : Bool := !m 0 || rateOk e.sLayers s (nth rates s 0)
  checkFields x ([(8, dBits x 8 5 3 == 0), (9, dBits x 9 1 7 == 0),
    (10, dBits x 10 7 1 == 0 && (!m 2 || waveN == 0 || (decide (4 ≤ waveN) && decide (waveN ≤ 64))))] ++ zeros x 11 11 ++
    [(12, rate 0), (16, rate 1), (20, rate 2),
     (24, !m 3 || (decide (qMin ≤ codecQpMax e.codec) && decide (qMin ≤ qMax))), (25, !m 3 || decide (qMax ≤ codecQpMax e.codec)),
     (26, dBits x 26 7 1 == 0 && (!m 4 || cap == 0 || (decide (16 ≤ cap) && decide (cap ≤ 64))))] ++ zeros x 27 63)
  let k := e.next.getD e.cfg
  let k : EncCfg :=
    { rates := if m 0 then rates else k.rates, waveN := if m 2 then orDefault waveN 8 else k.waveN,
      qpMin := if m 3 then qMin else k.qpMin, qpMax := if m 3 then qMax else k.qpMax, cap := if m 4 then orDefault cap 24 else k.cap }
  .ok (.done (modEnc d e.handle fun e =>
    { e with next := some k, waveReq := if m 1 && dBits x 9 0 1 == 1 then some (e.waveReq.getD 1) else e.waveReq }) [])
def encSetAct (d : Dev) (c : Cmd) : Except Fail Act := do
  let o ← objOf d c.fn 7 (dHandle c.desc)
  match findEnc d o.handle, findStream d o.handle with
  | some e, _ => videoEncSet d c e
  | none, some s => audioEncSet d c s
  | none, none => .error badHandle
def execEncSet (fn : Fin 64) (ring : Fin 32) (s : State) : Host.Outcome State Fault Refusal :=
  onDev (runCmd 0x39 fn.val ring.val encSetAct) s

/-! ### Rate control (R255 to R258) -/

/-- An EV_VEN event of a stream, once per stride per stream. -/
def evEnc (e : EncS) (code cls : Nat) (detail : List (Nat × Nat)) : Ev :=
  { evTo (evUnit (encUnit e) code cls detail) e.fn with key := e.handle }
/-- The nominal target of a picture of temporal id `t` of layer `s`. -/
def nominal (e : EncS) (s t : Nat) : Nat :=
  nth e.cfg.rates s 0 * patternLen e.tLayers * e.period * temporalWeight e.tLayers t / (1200 * weightSum e.tLayers)
/-- Target and hard budget. (DEDUCED, log entry 133.) -/
def pictureTarget (start : Bool) (tnom : Nat) (debt : Int) (cap : Nat) : Nat × Nat :=
  let t := if start then 8 * tnom else (max ((tnom : Int) - debt) ((tnom / 4 : Nat) : Int)).toNat
  (t, t * cap / 16)
def findPair (e : EncS) (s t : Nat) : RatePair := (e.pairs.find? fun p => p.s == s && p.t == t).getD { s := s, t := t }
def putPair (e : EncS) (p : RatePair) : EncS := { e with pairs := p :: e.pairs.filter fun x => !(x.s == p.s && x.t == p.t) }
/-- The layers of a picture as its coding starts. -/
def layersFor (e : EncS) (p : EncPic) : List EncLayer :=
  (List.range e.sLayers).map fun s =>
    let t := pictureTarget p.start (nominal e s p.tl) (findPair e s p.tl).debt e.cfg.cap
    { s := s, target := t.1, hard := t.2, unitsLeft := (e.rowPixels s).length * e.rowUnits s,
      group := if p.tl = 0 && e.waving then some (nth e.waves s {}).group else none }
/-- Budget of the next row of a layer (R256). -/
def rowBudget (e : EncS) (p : EncPic) (x : EncLayer) : Nat :=
  let i := x.costs.length
  let w := (findPair e x.s p.tl).wgt
  let w := if w.isEmpty then e.rowPixels x.s else w
  if x.used < x.target then (x.target - x.used) * nth w i 0 / max 1 ((w.drop i).sum) else 0
/-- One unit: in full, or at minimum cost once the budget is exhausted (R257). (DEDUCED, log entry 131; DEDUCED, log entry 133.) -/
def codeUnit (x : EncLayer) (u : Nat × Nat) : EncLayer :=
  let ex := x.exhausted || decide (x.hard ≤ x.used + 16 * x.unitsLeft)
  { x with used := x.used + (if ex then u.2 else u.1), unitsLeft := x.unitsLeft - 1, minUnits := x.minUnits + ex.toNat, exhausted := ex }
/-- The quantiser of a row, held to its limits (R256). -/
def rowQp (e : EncS) (p : EncPic) (x : EncLayer) (q : Nat) : Nat :=
  let near := match x.qps.getLast?.orElse (fun _ => (findPair e x.s p.tl).firstQp) with
    | some r => min (r + 4) (max (r - 4) q)
    | none => q
  min e.cfg.qpMax (max e.cfg.qpMin near)
/-- An uncorrectable read of a reference tile or of the staging area: layer, surface, tile (R261). -/
def refError (d : Dev) (e : EncS) (ue : Nat × Nat × Nat) : Dev :=
  let d := raiseOnce (cnt d (VEN e.home e.pipe + 0x2C) 1) (evEnc e 0x704 2 [(4, e.handle), (1, ue.1), (1, ue.2.1), (2, ue.2.2)])
  modEnc d e.handle fun e => { e with waveReq := some (e.waveReq.getD 2) }
/-- Unit `i` of a row: its cost, its search, its form. -/
def unitStep (e : EncS) (p : EncPic) (b : Nat) (acc : Dev × EncLayer) (i : Nat) (u : UnitCode) : Dev × EncLayer :=
  let d := acc.1
  let x := codeUnit acc.2 (u.bits, u.minBits)
  let vs := if x.exhausted then [] else match p.ref with | some r => unitVecs d e p x.s b i r | none => []
  let f := unitForm d e p x b i u vs x.exhausted
  (match f.2 with | some t => refError d e t | none => d, { x with forms := x.forms ++ [f.1], vecs := x.vecs ++ [vs.headD (0, 0)] })
/-- The units of a row from the `i`-th on. -/
def unitSteps (e : EncS) (p : EncPic) (b : Nat) : Nat → List UnitCode → Dev × EncLayer → Dev × EncLayer
  | _, [], acc => acc
  | i, u :: us, acc => unitSteps e p b (i + 1) us (unitStep e p b acc i u)
/-- A row of a layer: units that coding does not name cost nothing. (DEDUCED, log entry 131.) -/
def codeRow (e : EncS) (p : EncPic) (b : Nat) (r : LayerCode) (acc : Dev × EncLayer) : Dev × EncLayer :=
  let x := acc.2
  let us := (List.range (e.rowUnits x.s)).map fun i => nth r.units i {}
  let y := unitSteps e p b 0 us acc
  (writeRow y.1 e p x.s b (y.2.forms.drop x.forms.length) us,
    { y.2 with budget := rowBudget e p x, costs := x.costs ++ [y.2.used - x.used], qps := x.qps ++ [rowQp e p x r.qp] })
/-- A layer over band `b`. -/
def codeLayer (e : EncS) (p : EncPic) (r : CodedUnits) (b : Nat) (d : Dev) (x : EncLayer) : Dev × EncLayer :=
  match e.rowOf x.s b with
  | none => (d, x)
  | some _ => codeRow e p b ((r.layers.find? fun y => y.s == x.s).getD ⟨x.s, 0, [], []⟩) (d, x)
/-- Every layer over band `b`, the lowest first. -/
def codeLayers (e : EncS) (p : EncPic) (r : CodedUnits) (b : Nat) : List EncLayer → Dev → Dev × List EncLayer
  | [], d => (d, [])
  | x :: xs, d =>
    let y := codeLayer e p r b d x
    let rest := codeLayers e p r b xs y.1
    (rest.1, y.2 :: rest.2)
/-- Debt, weights and first quantiser of the pair after a picture (R258). -/
def settlePair (e : EncS) (p : EncPic) (x : EncLayer) : EncS :=
  let tnom := nominal e x.s p.tl
  let pair := findPair e x.s p.tl
  let debt := min ((2 : Int) ^ 31 - 1) (max (-((tnom / 2 : Nat) : Int)) (pair.debt + x.used - tnom))
  putPair e { pair with debt := debt, wgt := x.costs.map (max 64), firstQp := x.qps.head? }

/-! ### Refresh waves (R259 to R261) -/

/-- A TL0 picture of the wave has been coded. (DEDUCED, log entry 134.) -/
def waveStep (e : EncS) (num : Nat) : EncS :=
  { e with waves := (List.range e.sLayers).map fun s =>
      let w := nth e.waves s {}
      { left := w.left - 1, group := (w.group + 1) % waveGroups e e.cfg.waveN s,
        marks := (w.group, num) :: w.marks.filter fun m => m.1 != w.group } }
/-- The wave goes on with the picture, and ends when every remaining count is 0. (DEDUCED, log entry 134.) -/
def waveAfter (d : Dev) (e : EncS) (p : EncPic) : Dev × EncS :=
  if !e.waving || p.tl != 0 then (d, e)
  else
    let e := waveStep e p.num
    let d := cnt d (VEN e.home e.pipe + 0x24) e.sLayers
    if e.waves.all fun w => w.left == 0 then
      (raiseOnce d (evEnc e 0x702 0 [(4, e.handle), (1, 2), (1, e.waveSrc)]),
        { e with waving := false, waves := e.waves.map fun w => { w with marks := [] } })
    else (d, e)

/-! ### The phase boundary -/

/-- Settings taken over (R266). -/
def takeCfg (e : EncS) : EncS :=
  match e.next with
  | none => e
  | some k =>
    { e with cfg := k, next := none,
             waves := (List.range e.sLayers).map fun s =>
               let w := nth e.waves s {}
               if k.waveN = e.cfg.waveN then w else { w with group := w.group % max 1 (waveGroups e k.waveN s) } }
/-- A request takes effect at a TL0 picture (R261). -/
def takeRequest (d : Dev) (e : EncS) (tl : Nat) : Dev × EncS :=
  match e.waveReq with
  | none => (d, e)
  | some src =>
    if tl != 0 then (d, e)
    else
      (raiseOnce d (evEnc e 0x702 0 [(4, e.handle), (1, e.waving.toNat), (1, src)]),
        { e with waveReq := none, waveSrc := src, waving := true, paramsDue := true,
                 waves := (List.range e.sLayers).map fun s => { nth e.waves s {} with left := waveGroups e e.cfg.waveN s } })
/-- The picture that a surface-input stream reads: the latest copy of its layout, while that lives (R249). -/
def sourceRecord (d : Dev) (e : EncS) : Option PicRec := if e.gone then none else (findLayout d e.layout).bind Layout.record
/-- The picture of a stream starts at its phase boundary: its number, temporal id, requests and source. -/
def startPicture (d : Dev) (e : EncS) (p : EncPic) : Dev :=
  let e := takeCfg e
  let start := !e.begun && !(e.pics.any EncPic.started)
  let num := if start then 0 else e.num
  let tl := temporalId e.tLayers num
  let r := takeRequest d e tl
  let d := r.1
  let e := r.2
  let rec_ := if e.surface then sourceRecord d e else none
  let lost := e.surface && rec_.isNone
  let gone := lost && e.gone
  let d := if gone && !e.noSource then raiseOnce d (evEnc e 0x705 0 [(4, e.handle), (4, e.layout)]) else d
  let p := { p with num := num, tl := tl, start := start, params := tl == 0 && (start || e.paramsDue),
                    src := rec_.map fun r => (e.layout, r.surface), ts := (rec_.map PicRec.ready).getD p.phase, started := true,
                    fill := if lost then some 2 else p.fill }
  modEnc d e.handle fun _ =>
    { e with num := num + 1, noSource := e.noSource || gone, pics := e.pics.map fun y => if y.phase == p.phase then p else y }
/-- Phase boundary of a stream. -/
def encPhase (d : Dev) (h : Nat) : Dev :=
  match findEnc d h with
  | none => d
  | some e =>
    match e.pics.find? fun p => p.phase == d.tim.stride && !p.started with
    | none => d
    | some p => startPicture d e p
/-- In the stride before its phase, firmware builds the cards of a surface-input stream's picture; with too few slots of its
reserve the picture is a fill picture. (DEDUCED, log entry 137.) -/
def buildEnc (d : Dev) (h : Nat) : Dev :=
  match findEnc d h with
  | none => d
  | some e =>
    let phase := d.tim.stride + 1
    if !e.surface || phase % e.period != e.phase then d
    else if d.variant.fwSlots < fwUsed d + e.bands then addPic d h { phase := phase, fill := some 1 }
    else
      (List.range e.bands).foldl (fun d b => (encodeBandCard d e phase b false).1)
        (addPic d h { phase := phase, bandsLeft := List.range e.bands })

/-! ### The packetiser (R264, R265) -/

/-- A NAL unit in pieces of `k` bytes. -/
def pieces (k : Nat) : Nat → List Nat → List (List Nat)
  | 0, _ => []
  | n + 1, b => if b.isEmpty then [] else b.take k :: pieces k n (b.drop k)
/-- Fragments with a mark of first and last. -/
def withEnds : List (List Nat) → List (List Nat × Bool × Bool)
  | l => (List.range l.length).map fun i => (nth l i [], i == 0, i + 1 == l.length)
/-- Payloads of a NAL unit under RFC 6184 (single NAL unit, FU-A). (DEDUCED, log entry 136.) -/
def h264Payloads (mtu : Nat) (nal : List Nat) : List (List Nat) :=
  if nal.length ≤ mtu then [nal]
  else
    let h := nal.headD 0
    (withEnds (pieces (mtu - 2) nal.length (nal.drop 1))).map fun f =>
      [h / 32 * 32 + 28, 128 * f.2.1.toNat + 64 * f.2.2.toNat + h % 32] ++ f.1
/-- Payloads of a NAL unit under RFC 7798 (single NAL unit, FU). -/
def hevcPayloads (mtu : Nat) (nal : List Nat) : List (List Nat) :=
  if nal.length ≤ mtu then [nal]
  else
    let h := nal.headD 0
    (withEnds (pieces (mtu - 3) nal.length (nal.drop 2))).map fun f =>
      [h / 128 * 128 + 98 + h % 2, nth nal 1 0, 128 * f.2.1.toNat + 64 * f.2.2.toNat + h / 2 % 64] ++ f.1
/-- Parameter sets in one STAP-A, or one AP. -/
def aggregate (codec : Nat) (nals : List (List Nat)) : List (List Nat) :=
  let body := nals.flatMap fun n => [n.length / 256 % 256, n.length % 256] ++ n
  match nals with
  | [] => []
  | n :: _ =>
    let heads := nals.map fun m => m.headD 0
    if codec = 0 then [((heads.map fun h => h / 128).foldl max 0 * 128 + (heads.map fun h => h / 32 % 4).foldl max 0 * 32 + 24) :: body]
    else [[(heads.map fun h => h / 128).foldl max 0 * 128 + 96 + n.headD 0 % 2,
           (nals.map fun m => nth m 1 0).foldl min (nth n 1 0)] ++ body]
/-- Payloads of an OBU under the AV1 payload format: one OBU element a packet (W = 1), with Z and Y where it is a fragment. (DEDUCED, log entry 136.) -/
def av1Payloads (mtu : Nat) (obu : List Nat) : List (List Nat) :=
  (withEnds (pieces (mtu - 1) (obu.length + 1) obu)).map fun f => (128 * (!f.2.1).toNat + 64 * (!f.2.2).toNat + 16) :: f.1
/-- Payloads of a layer picture: parameter sets first. -/
def layerPayloads (e : EncS) (params units : List (List Nat)) : List (List Nat) :=
  match e.codec with
  | 0 => aggregate 0 params ++ units.flatMap (h264Payloads e.mtu)
  | 1 => aggregate 1 params ++ units.flatMap (hevcPayloads e.mtu)
  | _ => (params ++ units).flatMap (av1Payloads e.mtu)
/-- A header extension of one element with the stream's dd_id, in the two-byte form of RFC 8285. -/
def ddExtension (id : Nat) (dd : List Nat) : List Nat :=
  let el := [id, dd.length % 256] ++ dd.take 255
  let w := ceilDiv el.length 4
  [0x10, 0, w / 256 % 256, w % 256] ++ el ++ List.replicate (4 * w - el.length) 0
/-- Bytes 22 to 31 of the packet record. -/
def encAct (e : EncS) (p : EncPic) (s : Nat) (first last wave fill params : Bool) : List Byte :=
  [BitVec.ofNat 8 (s + 4 * p.tl + 16 * first.toNat + 32 * last.toNat + 64 * wave.toNat + 128 * p.start.toNat),
   BitVec.ofNat 8 (fill.toNat + 2 * params.toNat)] ++ leBytes (p.num % 65536) 2 ++ [0, 0] ++ leBytes e.handle 4
/-- A payload on its way: its spatial layer, whether it is the first and last of its layer picture, carries parameters. -/
structure EncPay where
  s : Nat
  first : Bool
  last : Bool
  params : Bool
  payload : List Nat
  deriving DecidableEq, Repr
/-- Every payload of a picture, layer by layer. -/
def picturePays (e : EncS) (units params : List (Nat × List Byte)) : List EncPay :=
  (List.range e.sLayers).flatMap fun s =>
    let of (l : List (Nat × List Byte)) : List (List Nat) := (l.filter fun u => u.1 == s && !u.2.isEmpty).map fun u => toNats u.2
    let ps := layerPayloads e (of params) (of units)
    let np := (layerPayloads e (of params) []).length
    (List.range ps.length).map fun i => ⟨s, i == 0, i + 1 == ps.length, decide (i < np), nth ps i []⟩
/-- The RTP packets of a picture, with the numbers that they take. -/
def pictureSend (e : EncS) (p : EncPic) (fill : Bool) (now : Nat) : List EncPay → Nat → EncS → EncS × List SPkt
  | [], _, e => (e, [])
  | y :: ys, k, e1 =>
    let i := if e.codec = 2 then 0 else y.s
    let seq := nth e1.seqs i 0
    let marker := if e.codec = 2 then ys.isEmpty else y.last
    let n0 := e.codec == 2 && p.start && k == 0
    let payload := if n0 then (y.payload.headD 0 + 8) :: y.payload.drop 1 else y.payload
    let ext := if e.ddId = 0 then [] else ddExtension e.ddId (toNats (Config.depDescriptor e.handle p.num y.s k))
    let hdr := [0x80 + (if e.ddId = 0 then 0 else 16), 128 * marker.toNat + e.pt, seq / 256, seq % 256] ++
      beList (75 * p.ts % 2 ^ 32) 4 ++ [0, 0, 0, 0] ++ ext
    let wave := e.waving && p.tl == 0 && !fill
    let pkt : SPkt := { src := e.handle, cells := cellsFor (hdr ++ payload).length, bytes := ofNats (hdr ++ payload), s := y.s, t := p.tl,
                        pic := p.num, first := if e.codec = 2 then k == 0 else y.first, last := marker, join := k == 0 && p.params && !fill,
                        post := some (now, e.period), act := encAct e p y.s y.first y.last wave fill (y.params && !fill) }
    let r := pictureSend e p fill now ys (k + 1) { e1 with seqs := upd e1.seqs i ((seq + 1) % 65536) }
    (r.1, pkt :: r.2)
/-- NAL unit header: nal_ref_idc and type; and of HEVC type and temporal id; and of an OBU its type and, where it has an extension, the temporal
and spatial id (R252). (DEDUCED, log entry 202.) -/
def h264Nal (idc type : Nat) : List Byte := [BitVec.ofNat 8 (32 * idc + type)]
def hevcNal (type tl : Nat) : List Byte := [BitVec.ofNat 8 (2 * type), BitVec.ofNat 8 (tl + 1)]
def obuHeader (type : Nat) (ids : Option (Nat × Nat)) : List Byte :=
  match ids with
  | none => [BitVec.ofNat 8 (8 * type)]
  | some (t, s) => [BitVec.ofNat 8 (8 * type + 4), BitVec.ofNat 8 (32 * t + 8 * s)]
/-- nal_ref_idc of a type: 0 where the picture is no reference. -/
def refIdcOf (isRef : Bool) (type : Nat) : Nat := if isRef then (Config.refIdc type).val + 1 else 0
/-- What a layer's parameter sets, or the sequence header and the scalability metadata, say (R250, R252). -/
def seqHeader (e : EncS) (s : Nat) : Config.SeqHeader :=
  let c := codedSize e.codec (e.size s)
  { codec := e.codec, prof := e.prof, ten := e.tenBit, id := if e.codec = 2 then 0 else s, codedW := c.1, codedH := c.2, w := (e.size s).1,
    h := (e.size s).2, block := match e.codec with | 0 => 16 | 1 => 64 / 2 ^ e.level s | _ => 64, tLayers := e.tLayers, gaps := e.codec == 0,
    layers := if e.codec = 2 then (List.range e.sLayers).map e.size else [] }
/-- The parameter sets of a layer, the sequence header and scalability metadata of a stream (R263). (DEDUCED, log entry 202.) -/
def paramSets (e : EncS) (s : Nat) : List (List Byte) :=
  match e.codec with
  | 0 => [7, 8].map fun t => h264Nal (refIdcOf true t) t ++ Config.seqBits t (seqHeader e s)
  | 1 => [32, 33, 34].map fun t => hevcNal t 0 ++ Config.seqBits t (seqHeader e s)
  | _ => if s = 0 then [1, 5].map fun t => obuHeader t none ++ Config.seqBits t (seqHeader e (e.sLayers - 1)) else []
/-- What the header of a row's slice, or of its frame and tile group, says (R251, R252, R262, R263). -/
def picHeader (e : EncS) (p : EncPic) (s row qp : Nat) (fill : Bool) : Config.PicHeader :=
  { codec := e.codec, num := p.num, s := s, tl := p.tl, key := p.start, refs := ((e.refOf p.tl).toList.filter fun _ => !p.start).map EncRef.num,
    removed := if e.codec = 0 && p.tl == 0 && !p.start then (e.refs.filter fun r => r.tl == 1).map EncRef.num else [],
    fromBelow := e.codec == 2 && decide (0 < s) && !fill, row := row, qp := qp, fill := fill }
/-- The NAL unit, or the OBUs, of a row: in AV1 the frame header stands before the layer picture's first tile group. TL1 and TL2 of HEVC are TSA
pictures, those that are no reference of the sub-layer non-reference kind. (DEDUCED, log entry 202.) -/
def rowUnit (e : EncS) (p : EncPic) (s row qp : Nat) (fill : Bool) (data : List Byte) : List (List Byte) :=
  let h := picHeader e p s row qp fill
  let isRef := refTl e.tLayers p.tl
  match e.codec with
  | 0 =>
    let t := if p.start then 5 else 1
    [h264Nal (refIdcOf isRef t) t ++ Config.picBits t h ++ data]
  | 1 =>
    let t := if p.start then (if Config.idrLeading then 19 else 20) else if p.tl = 0 then 1 else if isRef then 3 else 2
    [hevcNal t p.tl ++ Config.picBits t h ++ data]
  | _ =>
    (if row = 0 then [obuHeader 3 (some (p.tl, s)) ++ Config.picBits 3 h] else []) ++
      [obuHeader 4 (some (p.tl, s)) ++ Config.picBits 4 h ++ data]
/-- A fill picture's units: every row of every layer with zero motion and no residual (R262). (DEDUCED, log entry 202.) -/
def fillUnits (e : EncS) (p : EncPic) : List (Nat × List Byte) :=
  (List.range e.sLayers).flatMap fun s => (List.range (e.rowPixels s).length).flatMap fun r =>
    (rowUnit e p s r (codecQpMax e.codec) true (Config.zeroBits (picHeader e p s r (codecQpMax e.codec) true) (e.rowUnits s))).map fun b => (s, b)
/-- The parameter sets that a picture carries. -/
def picParams (e : EncS) (p : EncPic) (fill : Bool) : List (Nat × List Byte) :=
  if p.params && !fill then (List.range e.sLayers).flatMap fun s => (paramSets e s).map fun b => (s, b) else []
/-- The packets of a picture pass to the forwarding stage together, in cells of the packet buffer. -/
def handPicture (d : Dev) (e : EncS) (p : EncPic) (units : List (Nat × List Byte)) (fill : Bool) : Dev :=
  let params := picParams e p fill
  let r := pictureSend e p fill d.tim.clock (picturePays e units params) 0 e
  let d := takeCells d ((r.2.map SPkt.cells).sum)
  let d := cnt d (VEN e.home e.pipe + 0x18) ((units ++ params).map fun u => u.2.length).sum
  let d := modEnc d e.handle fun _ =>
    { r.1 with begun := true, filled := fill, sent := (e.sent + 1) % 2 ^ 32, pics := e.pics.filter fun y => y.phase != p.phase }
  { d with fwd := { d.fwd with inq := d.fwd.inq ++ r.2 } }

/-! ### ENCODE_BAND (R253) -/

/-- EV_VEN_BUDGET for the exhausted layers of a picture. -/
def reportBudget (e : EncS) (p : EncPic) (d : Dev) (x : EncLayer) : Dev :=
  if !x.exhausted then d
  else raiseOnce d (evEnc e 0x700 1 [(4, e.handle), (1, x.s), (1, p.tl), (4, x.minUnits),
    (4, (BitVec.ofInt 32 (findPair e x.s p.tl).debt).toNat)])
/-- A picture becomes a reference where its temporal id makes it one, and its vectors serve the next picture of its temporal id (R251, R254). -/
def keepRef (e : EncS) (p : EncPic) (slot : Nat) (vecs : List (Nat × List (Int × Int))) : EncS :=
  { e with refs := addRef e.tLayers { num := p.num, tl := p.tl, slot := slot, marks := e.waves.map Wave.marks } e.refs
           vecs := (vecs.map fun v => ((v.1, p.tl), v.2)) ++ e.vecs.filter fun v => v.1.2 != p.tl }
/-- The last band of a picture is coded: rate control, the wave, the packets (R258, R261, R265). -/
def endPicCoding (d : Dev) (e : EncS) (p : EncPic) : Dev :=
  let e := p.layers.foldl (fun e x => settlePair e p x) e
  let d := p.layers.foldl (reportBudget e p) (refPyramids d e p.slot)
  let d := handPicture d e p p.units false
  match findEnc d e.handle with
  | none => d
  | some e2 =>
    let r := waveAfter d { e2 with paramsDue := e2.paramsDue && !p.params } p
    modEnc r.1 e.handle fun _ => keepRef r.2 p p.slot (p.layers.map fun x => (x.s, x.vecs))
/-- Encode pixels of a band. -/
def bandPixels (e : EncS) (b : Nat) : Nat := ((List.range e.sLayers).map fun s => ((e.rowOf s b).getD 0) * (e.size s).1).sum
/-- The picture as its first band finds it: its layers' targets, what it refers to, the surfaces of its reconstruction. -/
def openPicture (e : EncS) (p : EncPic) : EncPic :=
  if p.layers.isEmpty then
    { p with layers := layersFor e p, slot := freeRef e.refs, ref := if p.start then none else e.refOf p.tl }
  else p
/-- Samples `first` to `first + n − 1` of a plane set to a value. -/
def fillSamples (plane : List Nat) (first n v : Nat) : List Nat :=
  (List.range plane.length).map fun i => if first ≤ i && i < first + n then v else nth plane i 0
/-- An uncorrectable read of band `b`'s buffer, counted and reported: the pipe receives mid-grey samples (R338). (DESIGN CHOICE, log entry 206.) -/
def bandGap (e : EncS) (p : EncPic) (b : Nat) (d : Dev) (g : BandGap) : Dev :=
  if p.src.isSome then d
  else
    let d := padUe d e.home g.off
    { d with vid := { d.vid with bufs := d.vid.bufs.map fun y =>
        if y.layout == e.layout && y.phase == p.phase && y.band == b then
          { y with planes := upd y.planes g.plane (fillSamples (nth y.planes g.plane []) g.first g.n (2 ^ (if e.tenBit then 9 else 7))) }
        else y } }
/-- A band of a picture in coding: its rows, their units and data, the layers newly exhausted, what is staged. -/
def bandCoded (d : Dev) (e : EncS) (p : EncPic) (b : Nat) (r : CodedUnits) : Dev × EncPic :=
  let d := r.gaps.foldl (bandGap e p b) (match r.ue with | some ue => refError d e ue | none => d)
  let q := openPicture e p
  let d := if p.layers.isEmpty then newRefs d e q.slot else d
  let y := codeLayers e q r b q.layers d
  let newly := ((y.2.zip q.layers).filter fun z => z.1.exhausted && !z.2.exhausted).length
  let data (x : EncLayer) : List (Nat × List Byte) :=
    match e.rowAt x.s b with
    | none => []
    | some row =>
      let c := (r.layers.find? fun c => c.s == x.s).getD ⟨x.s, 0, [], []⟩
      (rowUnit e q x.s row (x.qps.getLast?.getD 0) false c.data).map fun u => (x.s, u)
  (cnt y.1 (VEN e.home e.pipe + 0x1C) newly,
    { q with layers := y.2, bandsLeft := q.bandsLeft.filter (· != b), units := q.units ++ y.2.flatMap data, staged := stageBand y.1 e q b })
/-- The pipe at work on the card at its queue's head. -/
def encodeBand (d : Dev) (slot : Nat) (r : CodedUnits) : Dev :=
  match findCard d slot with
  | none => d
  | some c =>
    match c.work, c.at_ with
    | .encode h phase b, some u =>
      if c.state != .inService || halted d || (queueOf d u).head? != some slot || (uState d u != 2 && uState d u != 3) then d
      else
        match findEnc d h, (findEnc d h).bind fun e => e.pics.find? fun p => p.phase == phase && p.started with
        | some e, some p =>
          let a := VEN u.quarter u.index
          if p.fill.isSome then completeCard d slot
          else if c.predShort then
            completeCard (modEnc d h fun e =>
              { e with pics := e.pics.map fun y => if y.phase == phase then { y with fill := some 0 } else y }) slot
          else
            let r := bandCoded (setF (cnt (cnt d (a + 0x10) (bandPixels e b)) (a + 0x14) r.cycles) a 10 1 0) e p b r
            let d1 := modEnc r.1 h fun e => { e with pics := e.pics.map fun y => if y.phase == phase then r.2 else y }
            if !r.2.bandsLeft.isEmpty then completeCard d1 slot
            else match findEnc d1 h with
              | some e => withCredit d (completeCard (endPicCoding d1 e r.2) slot)
              | none => d1
        | _, _ => completeCard d slot
    | _, _ => d
def execEncodeBand (slot : Nat) (r : CodedUnits) (s : State) : Host.Outcome State Fault Refusal := onDev (fun d => encodeBand d slot r) s

/-! ### FILL_PICTURE (R262) -/

/-- Pictures after a withheld start picture are numbered from 0 again. (DEDUCED, log entry 135.) -/
def renumber (e : EncS) : EncS :=
  let n := (e.pics.filter EncPic.started).length
  { e with num := n, pics := (List.range e.pics.length).map fun i =>
      let p := nth e.pics i { phase := 0 }
      if p.started then { p with num := i, start := i == 0, tl := temporalId e.tLayers i, params := p.params || i == 0 } else p }
/-- Firmware replaces the oldest picture of a stream that is to be filled. (DEDUCED, log entry 135.) -/
def fillPicture (d : Dev) (h : Nat) : Dev :=
  match findEnc d h with
  | none => d
  | some e =>
    match e.pics with
    | [] => d
    | p :: ps =>
      match p.fill with
      | none => d
      | some reason =>
        if !p.started || halted d then d
        else
          let idle := d.dlr.cards.filter fun c => (c.state == .waiting || c.state == .ready) &&
            (match c.work with | .encode s n _ => s == h && n == p.phase | _ => false)
          let cancel (d : Dev) : Dev := (idle.map Card.slot).foldl cancelCard d
          let ev (r : Nat) : Ev := evEnc e 0x701 1 [(4, h), (2, p.num % 65536), (1, r)]
          if p.start then
            raiseOnce (cancel (modEnc d h fun e => renumber { e with pics := ps })) (ev 3)
          else
            let d1 := raiseOnce (cnt (p.layers.foldl (reportBudget e p) d) (VEN e.home e.pipe + 0x20) 1) (ev reason)
            let d1 := handPicture d1 e p (fillUnits e p) true
            let d1 := modEnc d1 h fun e => match e.refOf p.tl with
              | some r => keepRef e p r.slot []
              | none => e
            withCredit d (cancel d1)
def execFillPicture (stream : Nat) (s : State) : Host.Outcome State Fault Refusal := onDev (fun d => fillPicture d stream) s

/-! ### CELL_WAIT (R265, R278) -/

/-- A packetiser or the forwarding stage waits for cell credit. -/
def cellWait (d : Dev) (u : UnitId) (cycles : Nat) : Dev :=
  if !running d u then d
  else if u.cls = 4 then
    (if (queueOf d u).isEmpty then d
     else
       let a := VEN u.quarter u.index
       raiseOnce (setF (cnt d (a + 0x28) cycles) a 10 1 1)
         { evUnit u 0x703 1 [(1, u.index), (4, cycles)] with key := 256 * u.quarter + u.index })
  else if u.cls = 9 then (if fwdWaits d then cnt d (FWD + 0x60) cycles else d)
  else d
def execCellWait (u : UnitId) (cycles : Nat) (s : State) : Host.Outcome State Fault Refusal := onDev (fun d => cellWait d u cycles) s

/-! ### Release and query -/

/-- A released stream leaves its legs and its pipe. -/
def releaseEnc (d : Dev) (h : Nat) : Dev :=
  match findEnc d h with
  | none => d
  | some e =>
    let d := loseSource d h e.fn
    let mine (b : BandBuf) : Bool := b.layout == e.layout && !e.surface
    (d.vid.bufs.filter mine).foldl (fun d b => ledgGive d 8 b.comp b.units)
      { d with vid := { d.vid with bufs := d.vid.bufs.filter fun b => !mine b, encs := d.vid.encs.filter fun x => x.handle != h } }
def queryEnc (d : Dev) (e : EncS) (s t : Nat) : List Byte :=
  let st := if fenced d e.home || !running d (encUnit e) then 3 else if !e.begun then 1 else if e.filled then 2 else 0
  let w := nth e.waves s {}
  let debt := BitVec.ofInt 32 (findPair e s t).debt
  resBytes [(1, st), (1, if e.waving then w.left else 0), (2, w.group), (4, debt.toNat), (4, e.sent)]

end Sys2Proof.Machine
end

