-- ==== Sys2Proof/Machine/Session.lean ====
section
/-! DEFINITION. Sessions and objects: opening and closing sessions, releasing objects with their dependents, queries
(R33 to R40, R74). -/
namespace Sys2Proof.Machine

/-! ### NOP -/

/-- NOP (R73): the 64-bit stride count. -/
def nopAct (d : Dev) (c : Cmd) : Except Fail Act := do
  noHandle c.desc
  checkFields c.desc (zeros c.desc 8 63)
  .ok (.done d (leBytes d.tim.stride 8))
def execNop (fn : Fin 64) (ring : Fin 32) (s : State) : Host.Outcome State Fault Refusal :=
  onDev (runCmd 0x00 fn.val ring.val nopAct) s

/-! ### SESSION_OPEN (R37, R74) -/

/-- Sessions of a function whose SESSIONS booking has not become free. (DEDUCED, log entry 40.) -/
def heldSessions (d : Dev) (fn : Nat) : Nat := (d.obj.sessions.filter fun s => s.fn == fn).length
/-- The refusal of a VF at its limit, which does not count in LDG_ADM_REFUSE. (DEDUCED, log entry 40.) -/
def vfLimitFail (n limit : Nat) : Fail :=
  { st := ST_NO_CAPACITY, res := resBytes [(1, 13), (1, 0xFF), (2, 0), (4, n + 1 - limit), (4, 0)] }
def sessionOpenAct (d : Dev) (c : Cmd) : Except Fail Act := do
  noHandle c.desc
  checkFields c.desc (zeros c.desc 8 63)
  let n := heldSessions d c.fn
  let limit := getF d (0x100 + 4 * (c.fn - 1)) 0 17
  require (c.fn == 0 || decide (n < limit)) (vfLimitFail n limit)
  let ns : List Need := [⟨13, 1⟩]
  match admission d none 2 ns, freeIndex (d.obj.sessions.map fun s => hIndex s.handle) (d.variant.kindCap 1) with
  | .error r, _ => .error (noCapacity r)
  | .ok _, none => .error (noCapacity (refusal44 d 13 0 1))
  | .ok _, some i =>
    let h := mkHandle 1 i
    let d := book d 0 ns
    .ok (.done { d with obj := { d.obj with sessions := d.obj.sessions ++ [{ handle := h, fn := c.fn }] } } (leBytes h 4))
def execSessionOpen (fn : Fin 64) (ring : Fin 32) (s : State) : Host.Outcome State Fault Refusal :=
  onDev (runCmd 0x01 fn.val ring.val sessionOpenAct) s

/-! ### Releases (R36, R39) -/

/-- The object is still in service: a key slot in ERASING has been released. (DEDUCED, log entry 42.) -/
def objLive (d : Dev) (o : Obj) : Bool := !(d.sec.keys.any fun k => k.handle == o.handle && k.state == .erasing)
/-- The object with every dependent, dependents first, `n` levels deep: of a conference, its participants first (R188). -/
def releaseOrder : Nat → Dev → Obj → List Obj
  | 0, _, o => [o]
  | n + 1, d, o =>
    let cs := (children d o.handle).filter (objLive d)
    ((cs.filter fun x => hKind x.handle == 3) ++ cs.filter fun x => hKind x.handle != 3).flatMap (releaseOrder n d) ++ [o]
/-- Cards that wait for an object, or are ready, are cancelled; those of a context run to their end or are dropped (R209). -/
def cancelOwned (d : Dev) (h : Nat) : Dev :=
  if hKind h = 5 || hKind h = 8 then d
  else ((d.dlr.cards.filter fun c => c.ofFirmware && c.owner == h && (c.state == .waiting || c.state == .ready)).map Card.slot).foldl
    cancelCard d
/-- Firmware's flows of an object leave with their last card. -/
def endFlows (d : Dev) (h : Nat) : Dev :=
  [h, h + 2 ^ 32].foldl (fun d i => match findFlow d i with
    | some f => if f.host then d else closeFlow (putFlow d { f with closing := true }) i
    | none => d) d
/-- An object leaves service. -/
def releaseObj (d : Dev) (o : Obj) : Dev :=
  let h := o.handle
  let d := match hKind h with
    | 2 => releaseConf d h
    | 3 => releasePart d h
    | 4 => releaseLeg d h
    | 5 => releaseCtx (detachSource d h) h
    | 6 => releaseLayout (detachSource d h) h
    | 7 => if o.media = 1 then releaseEnc d h else releaseStream (loseSource d h o.fn) h
    | _ => retireKey d h
  if hKind h = 8 then d
  else
    let d := endFlows (cancelOwned d h) h
    match findObj d h with
    | some o => dropObj d o
    | none => d
/-- The objects of a list leave service, each with its dependents; the device and how many there were. -/
def releaseAll (d : Dev) (os : List Obj) : Dev × Nat :=
  os.foldl (fun r o => match findObj r.1 o.handle with
    | some o => if objLive r.1 o then (releaseObj r.1 o, r.2 + 1) else r
    | none => r) (d, 0)
/-- OBJ_RELEASE (R39): it completes once every released object has left service. (DEDUCED, log entry 185.) -/
def objReleaseAct (d : Dev) (c : Cmd) : Except Fail Act := do
  let h := dHandle c.desc
  let o ← objOf d c.fn (hKind h) h
  checkFields c.desc ([(4, objLive d o && !(hKind h == 7 && streamNamed d h))] ++ zeros c.desc 8 63)
  let os := releaseOrder 4 d o
  let r := releaseAll d os
  let hs := os.map Obj.handle
  if serving r.1 hs then .ok (.wait (putCmd r.1 { c with awaits := hs, n1 := r.2 })) else .ok (.done r.1 (leBytes r.2 4))
def execObjRelease (fn : Fin 64) (ring : Fin 32) (s : State) : Host.Outcome State Fault Refusal :=
  onDev (runCmd 0x03 fn.val ring.val objReleaseAct) s

/-! ### SESSION_CLOSE (R38) -/

def sessionFlows (d : Dev) (h : Nat) : List Flow := d.dlr.flows.filter fun f => f.host && f.session == h
/-- Every live object of a session, dependents first. -/
def sessionObjs (d : Dev) (h : Nat) : List Obj :=
  (d.obj.objs.filter fun o => o.session == h && o.parent == h).flatMap (releaseOrder 4 d)
/-- A session's close takes effect. (DEDUCED, log entry 41.) -/
def closeSession (d : Dev) (s : Session) : Dev :=
  let fs := sessionFlows d s.handle
  let ids := fs.map Flow.id
  let d := fs.foldl (fun d f => putFlow d { f with closing := true }) (ledgRelease d 2 0 fs.length)
  let os := sessionObjs d s.handle
  let r := releaseAll d os
  let cards := r.1.dlr.cards.filter fun c => ids.contains c.flow && (c.state == .waiting || c.state == .ready)
  let d := (cards.map Card.slot).foldl (fun d i => runTasks d [.retire i 2 false]) r.1
  let d := ids.foldl closeFlow d
  putSession d { s with closing := true, released := r.2, cancelled := cards.length, awaits := os.map Obj.handle }
def sessionCloseAct (d : Dev) (c : Cmd) : Except Fail Act := do
  let s ← sessionOf d c.fn (dHandle c.desc)
  checkFields c.desc (zeros c.desc 8 63)
  .ok (.wait (if s.closing then d else closeSession d s))
def execSessionClose (fn : Fin 64) (ring : Fin 32) (s : State) : Host.Outcome State Fault Refusal :=
  onDev (runCmd 0x02 fn.val ring.val sessionCloseAct) s
/-- The SESSION_CLOSE commands in progress that name a session. -/
def closeCmds (d : Dev) (h : Nat) : List Cmd :=
  d.hif.accepted.filter fun c => c.started && dOpcode c.desc == 0x02 && dHandle c.desc == h
/-- SESSION_CLOSE_DONE: every card of its flows and of its objects has retired and every flow is free. (DEDUCED, log entry 41.) -/
def sessionCloseDone (d : Dev) (h : Nat) : Dev :=
  match findSession d h with
  | none => d
  | some s =>
    if !s.closing || !(sessionFlows d h).isEmpty || serving d s.awaits || halted d then d
    else
      let d := unbook (putSession d { s with closed := true }) [⟨13, 0, 1⟩]
      (closeCmds d h).foldl (fun d c => complete d c.id ST_OK (resBytes [(4, s.released), (4, s.cancelled)])) d
def execSessionCloseDone (session : Nat) (s : State) : Host.Outcome State Fault Refusal := onDev (fun d => sessionCloseDone d session) s
/-- Sessions that have closed leave at the boundary, with their booking (R74). -/
def dropClosed (d : Dev) : Dev :=
  { d with obj := { d.obj with sessions := d.obj.sessions.filter fun s => !s.closed } }

/-! ### OBJ_QUERY (R40) -/

def querySession (d : Dev) (s : Session) : List Byte :=
  resBytes [(1, s.closing.toNat), (1, s.fn), (2, 0), (4, (d.obj.objs.filter fun o => o.session == s.handle && objLive d o).length),
    (4, (sessionFlows d s.handle).length)]
/-- (DEDUCED, log entry 139.) -/
def queryLeg (l : Leg) : List Byte :=
  let fed := l.source.isSome || (l.out && (l.mix || l.media == 2))
  let st := if l.cfg.hold then 3 else if fed then 2 else if l.join.isSome then 1 else 0
  resBytes [(1, st), (1, l.s + 4 * l.t), (1, l.ts + 4 * l.tt), (1, 0), (4, legRate l / 1000), (4, l.packets)]
def KState.code : KState → Nat
  | .standby => 1 | .active => 2 | .draining => 3 | .erasing => 4
def queryKey (k : Key) : List Byte := resBytes [(1, k.state.code), (1, k.profile + 8 * k.rtcp.toNat), (2, 0), (4, k.leg), (4, 0)]
def CState.code : CState → Nat
  | .waiting => 1 | .ready => 2 | .inService => 3 | .finished => 4 | .zombie => 5
def queryFlow (d : Dev) (f : Flow) : List Byte :=
  let cs := flowCards d f.id
  resBytes [(1, f.ordered.toNat + 2 * (flowPending d f.id).toNat + 4 * f.closing.toNat), (1, min 255 f.stall),
    (2, (cs.filter fun c => c.state == .inService || c.state == .finished).length), (4, (cs.filter Card.live).length), (4, f.limit)]
/-- Where a card is: quarter, team and core; the spec gives no team and core of a card in service on a fixed unit. (DEDUCED, log entry 43.) -/
def cardWhere (d : Dev) (c : Card) : Dev × Nat :=
  if c.state != .inService then (d, 0xFFFFFFFF)
  else match c.core with
    | some k => (d, k / 64 * 2 ^ 24 + k / 8 % 8 * 2 ^ 16 + k % 8 * 2 ^ 8)
    | none => (let f := drawFree d 16
               (f.2, (match c.at_ with | some u => u.quarter | none => 0xFF) * 2 ^ 24 + f.1.toNat * 2 ^ 8))
/-- (DEDUCED, log entry 43.) -/
def queryCard (d : Dev) (c : Card) : Dev × List Byte :=
  let w := cardWhere d c
  (w.1, resBytes [(1, c.state.code), (1, c.counter), (1, c.pendingReg), (1, c.cls), (4, c.deadline.toNat), (4, w.2)])
/-- The result of a query of an object of kinds 2 to 8, with its selector. -/
def queryObj (d : Dev) (h sel : Nat) : Option (List Byte) :=
  match hKind h with
  | 2 => (findConf d h).map (queryConf d)
  | 3 => (findPart d h).map (queryPart d)
  | 4 => (findLeg d h).map queryLeg
  | 5 => (findCtx d h).map queryCtx
  | 6 => (findLayout d h).map fun l => queryLayout d l sel
  | 7 => match findEnc d h with
    | some e => some (queryEnc d e (sel % 4) (sel / 4))
    | none => (findStream d h).map (queryStream d)
  | _ => (findKey d h).map queryKey
/-- The selectors that an object takes. (DEDUCED, log entry 23.) -/
def selectorOk (d : Dev) (h sel : Nat) : Bool :=
  if hKind h = 6 then decide (sel ≤ 63)
  else match findEnc d h with
    | some e => decide (sel % 4 < e.sLayers) && decide (sel / 4 < e.tLayers)
    | none => sel == 0
/-- (DEDUCED, log entry 23.) -/
def objQueryAct (d : Dev) (c : Cmd) : Except Fail Act := do
  let x := c.desc
  let h := dHandle x
  let sel := dByte x 8
  let ops (ok : Bool) : Except Fail Unit := checkFields x ([(8, ok)] ++ zeros x 9 63)
  match hKind h with
  | 1 => (do
      let s ← sessionOf d c.fn h
      ops (sel == 0)
      .ok (.done d (querySession d s)))
  | 9 => (do
      let f ← (match findFlow d h with
        | some f => if f.host && f.fn == c.fn then .ok f else .error badHandle
        | none => .error badHandle)
      ops (sel == 0)
      .ok (.done d (queryFlow d f)))
  | 10 => (do
      let k ← (match findCard d (hIndex h) with
        | some k => if k.fn == c.fn then .ok k else .error badHandle
        | none => .error badHandle)
      ops (sel == 0)
      let r := queryCard d k
      .ok (.done r.1 r.2))
  | k => (do
      let o ← objOf d c.fn k h
      ops (selectorOk d o.handle sel)
      match queryObj d h sel with
      | some b => .ok (.done d b)
      | none => .error badHandle)
def execObjQuery (fn : Fin 64) (ring : Fin 32) (s : State) : Host.Outcome State Fault Refusal :=
  onDev (runCmd 0x04 fn.val ring.val objQueryAct) s

end Sys2Proof.Machine
end

