-- ==== Sys2Proof/Machine/Tack.lean ====
section
/-! DEFINITION. The Tack store: its two copies, TACK_STORE, TACK_LOAD and what BOOT loads (R385 to R389). -/
namespace Sys2Proof.Machine

/-! ### Copies (table Layout of one copy) -/

def tackMagic : Nat := 0x4B434154
def copyBase (c : Nat) : Nat := 0x40000 * c
def tackNum (d : Dev) (c off n : Nat) : Nat := leNat (spRead d.sys.tack (copyBase c + off) n)
/-- The CRC that a copy ought to carry. -/
def tackCrc (d : Dev) (c : Nat) : Nat := crc32 (spRead d.sys.tack (copyBase c) 0x3FFFC)
/-- The copy's magic is correct: it has been begun. -/
def tackBegun (d : Dev) (c : Nat) : Bool := tackNum d c 0 4 == tackMagic
/-- The copy is valid: magic, version and CRC. -/
def tackValid (d : Dev) (c : Nat) : Bool := tackBegun d c && tackNum d c 8 4 == 1 && tackNum d c 0x3FFFC 4 == tackCrc d c
def tackGen (d : Dev) (c : Nat) : Nat := tackNum d c 4 4
/-- The copy that TCK_STATUS shows as loaded. -/
def tackLoaded (d : Dev) : Option Nat :=
  match getF d TCK 0 2 with
  | 0 => none
  | n => some (n - 1)
/-- The copy that BOOT loads: the valid one of the higher generation (R387). -/
def tackBest (d : Dev) : Option Nat :=
  match tackValid d 0, tackValid d 1 with
  | true, true => some (if tackGen d 0 < tackGen d 1 then 1 else 0)
  | true, false => some 0
  | false, true => some 1
  | false, false => none
/-- Sections: offset and size (0 repair records, 1 boot settings, else the driver area). -/
def tackSection : Nat → Nat × Nat
  | 0 => (0x1000, 0x4000)
  | 1 => (0x5000, 0x1000)
  | _ => (0x6000, 233472)

/-- The device with the Tack store's contents replaced. -/
def putTack (d : Dev) (m : Sparse 8) : Dev := { d with sys := { d.sys with tack := m } }
/-- `n` bytes of a map copied from `src` to `dst`, onto cells that read zero. -/
def spCopy (m : Sparse 8) (src dst n : Nat) : Sparse 8 :=
  (m.filter fun e => decide (src ≤ e.1) && decide (e.1 < src + n)).foldl (fun m e => spPut m (e.1 - src + dst) e.2) m
/-- A section of the copy being written, taken from the loaded copy (R388). -/
def keepSection (m : Sparse 8) (loaded : Option Nat) (c sect : Nat) : Sparse 8 :=
  match loaded with
  | none => m
  | some l => spCopy m (copyBase l + (tackSection sect).1) (copyBase c + (tackSection sect).1) (tackSection sect).2

/-! ### TACK_STORE -/

/-- What a store writes: the repair records and boot pairs where they are selected, and the driver bytes with their offset. -/
structure TackNew where
  repairs : Option (List (BitVec 64))
  boot : Option (List Byte)
  drv : Option (Nat × List Byte)

/-- Steps 1 to 4 of R386: the target, with a CRC word of zero. (DEDUCED, log entry 67.) -/
def writeCopy (m : Sparse 8) (loaded : Option Nat) (c gen reps pairs : Nat) (new : TackNew) : Sparse 8 :=
  let b := copyBase c
  let m := spClear m fun a => decide (b ≤ a) && decide (a < b + 0x40000)
  let m := spWrite m b (leBytes tackMagic 4 ++ leBytes gen 4 ++ leBytes 1 4 ++ leBytes reps 4 ++ leBytes pairs 4)
  let m := match new.repairs with
    | some rs => spWrite m (b + 0x1000) (rs.flatMap fun r => leBytes r.toNat 8)
    | none => keepSection m loaded c 0
  let m := match new.boot with
    | some bs => spWrite m (b + 0x5000) bs
    | none => keepSection m loaded c 1
  let m := keepSection m loaded c 2
  match new.drv with
  | some (off, bs) => spWrite m (b + 0x6000 + off) bs
  | none => m

/-- A header count of the loaded copy, zero where nothing is loaded. -/
def loadedCount (d : Dev) (off : Nat) : Nat :=
  match tackLoaded d with
  | some l => tackNum d l off 4
  | none => 0

/-- The store starts: it writes the copy that is not loaded (R386). (DEDUCED, log entry 67.) -/
def startStore (d : Dev) (cmd : Nat) (new : TackNew) : Dev :=
  let loaded := tackLoaded d
  let c := match loaded with
    | some 0 => 1
    | _ => 0
  let gen := match loaded with
    | some l => tackGen d l + 1
    | none => 1
  let reps := match new.repairs with
    | some rs => rs.length
    | none => loadedCount d 0xC
  let pairs := match new.boot with
    | some bs => bs.length / 8
    | none => loadedCount d 0x10
  let d := putTack d (writeCopy d.sys.tack loaded c gen reps pairs new)
  { d with sys := { d.sys with store := some ⟨cmd, c, gen⟩, stores := upd d.sys.stores c (nth d.sys.stores c 0 + 1) } }

/-- A read of a command's host data, where it is selected. -/
def takeHost (c : Cmd) (selected : Bool) (n : Nat) (r : HostRead) : Except Fail (Option (List Byte)) :=
  if !selected then .ok none
  else if n = 0 then .ok (some [])
  else match r with
    | .ok bs => .ok (some (padTo bs n))
    | .fail a => .error (busError c a.toNat)

/-- The failing address of a read of `n` bytes (R72). -/
def hostFail (n : Nat) (r : HostRead) : List Nat :=
  match r with
  | .fail a => if n = 0 then [] else [a.toNat]
  | .ok _ => []

/-- TACK_STORE (R388), with what the reads of src_boot and src_drv return. -/
def tackStoreAct (boot drv : HostRead) (d : Dev) (c : Cmd) : Except Fail Act := do
  let x := c.desc
  let n := dNum x 12 2
  let off := dNum x 32 4
  let len := dNum x 36 4
  let sel (i : Nat) : Bool := dBits x 8 i 1 == 1
  noHandle x
  checkFields x ([(8, dBits x 8 0 3 != 0 && dBits x 8 3 5 == 0)] ++ zeros x 9 11 ++ [(12, decide (n ≤ 512))] ++ zeros x 14 15 ++
    [(16, dNum x 16 8 % 64 == 0), (24, dNum x 24 8 % 64 == 0), (32, off % 64 == 0),
     (36, len % 64 == 0 && (!sel 2 || decide (64 ≤ len)))] ++ zeros x 40 63)
  require (!sel 2 || decide (off + len ≤ 233472)) { st := ST_LENGTH_LIMIT }
  if d.sys.store.isSome then .ok (.stay d)
  else
    let failed := (if sel 1 then hostFail (8 * n) boot else []) ++ (if sel 2 then hostFail len drv else [])
    (match failed.min? with | some a => .error (busError c a) | none => .ok ())
    let b ← takeHost c (sel 1) (8 * n) boot
    let v ← takeHost c (sel 2) len drv
    .ok (.wait (startStore d c.id
      { repairs := if sel 0 then some (d.sys.repairs.take 2048) else none, boot := b, drv := v.map fun bs => (off, bs) }))

def execTackStore (fn : Fin 64) (ring : Fin 32) (boot drv : HostRead) (s : State) : Host.Outcome State Fault Refusal :=
  onDev (runCmd 0x68 fn.val ring.val (tackStoreAct boot drv)) s

/-- The store ends after `us` µs: the CRC is written and verified, or the verify fails (R386, R388). -/
def tackStoreDone (d : Dev) (ok : Bool) (us : Nat) : Dev :=
  match d.sys.store with
  | none => d
  | some s =>
    let d := { d with sys := { d.sys with store := none } }
    if ok then
      let d := putTack d (spWrite d.sys.tack (copyBase s.copy + 0x3FFFC) (leBytes (tackCrc d s.copy) 4))
      let d := setReg (setF d TCK 0 2 (s.copy + 1)) (TCK + 4) (wd s.gen)
      let d := raise d (evDev 0xE51 0 [(1, s.copy), (4, s.gen), (4, us)])
      complete d s.cmd ST_OK (resBytes [(4, s.gen), (1, s.copy)])
    else failId d s.cmd { st := ST_TIMEOUT, evs := [evDev 0xE52 2 [(1, s.copy), (4, s.gen)]] }
def execTackStoreDone (ok : Bool) (us : Nat) (s : State) : Host.Outcome State Fault Refusal :=
  onDev (fun d => tackStoreDone d ok us) s

/-! ### TACK_LOAD -/

/-- TACK_LOAD (R388): zero data where nothing is loaded. -/
def tackLoadAct (d : Dev) (c : Cmd) : Except Fail Act := do
  let x := c.desc
  let dst := dNum x 16 8
  let off := dNum x 24 4
  let len := dNum x 28 4
  let s := tackSection (dByte x 8)
  noHandle x
  checkFields x ([(8, decide (dByte x 8 ≤ 2))] ++ zeros x 9 15 ++ [(16, dst % 64 == 0)] ++ zeros x 32 63)
  require (decide (off + len ≤ s.2)) { st := ST_LENGTH_LIMIT }
  if d.sys.store.isSome then .ok (.stay d)
  else
    let bs := match tackLoaded d with
      | some l => spRead d.sys.tack (copyBase l + s.1 + off) len
      | none => List.replicate len 0
    let gen := match tackLoaded d with
      | some l => tackGen d l
      | none => 0
    .ok (.done (if len = 0 then d else emitOut d (.hostWrite c.fn dst bs)) (leBytes gen 4))

def execTackLoad (fn : Fin 64) (ring : Fin 32) (s : State) : Host.Outcome State Fault Refusal :=
  onDev (runCmd 0x69 fn.val ring.val tackLoadAct) s

/-! ### Loading at BOOT (R387) -/

/-- The valid copy of the higher generation is loaded; interrupted sets for an unfinished store of the other. -/
def tackBoot (d : Dev) : Dev :=
  let best := tackBest d
  let unfinished (c : Nat) : Bool := best != some c && tackBegun d c && tackNum d c 0x3FFFC 4 != tackCrc d c
  let d1 := match best with
    | some c => setReg (setF d TCK 0 2 (c + 1)) (TCK + 4) (wd (tackGen d c))
    | none => setReg (setF d TCK 0 2 0) (TCK + 4) 0
  if unfinished 0 || unfinished 1 then putB d1 TCK 2 true else d1
/-- The loaded copy's repair records: firmware's list. -/
def tackRepairs (d : Dev) : List (BitVec 64) :=
  match tackLoaded d with
  | none => []
  | some l => (List.range (min 2048 (tackNum d l 0xC 4))).map fun i => BitVec.ofNat 64 (tackNum d l (0x1000 + 8 * i) 8)
/-- The loaded copy's boot settings. -/
def tackSettings (d : Dev) : List (Nat × Word) :=
  match tackLoaded d with
  | none => []
  | some l => (List.range (min 512 (tackNum d l 0x10 4))).map fun i => (tackNum d l (0x5000 + 8 * i) 4, wd (tackNum d l (0x5004 + 8 * i) 4))

end Sys2Proof.Machine
end

