-- ==== Sys2Proof/Machine/Time.lean ====
section
/-! DEFINITION. Network time: reading it, the servo, steps, transmit time-stamps and the pulse generators (R302 to R319, R27
to R30). -/
namespace Sys2Proof.Machine

/-! ### The time base (R302) -/

/-- Parts of a ns in which the clock's fraction is kept: 2^32 × 256,000,000,000. -/
def nsParts : Nat := 2 ^ 32 * 256000000000
/-- What one time-base cycle of 1.25 ns adds to the clock, in those parts: the nominal increment scaled by the frequency adjustment in
force (R302, R305). -/
def increment (d : Dev) : Nat := (5368709120 * (256000000000 + (reg d (TIM + 0x20)).toInt)).toNat
/-- One time-base cycle passes (R302); the clock waits at the end of the stride for its STRIDE_BOUNDARY. (DESIGN CHOICE, log entry 5.) -/
def tick (d : Dev) : Dev :=
  let f := d.tim.frac + increment d
  if timely d (d.tim.clock + f / nsParts) then
    { d with tim := { d.tim with clock := d.tim.clock + f / nsParts, frac := f % nsParts } }
  else d

/-! ### Reading the clock (R304, R29) -/

/-- The instant of a register read: a time that the clock can reach, else the clock as it stands. -/
def readAt (d : Dev) (t : Nat) : Dev := if timely d t then advance d t else d
/-- A read of TIM_TIME_NS (`n` false) or TIM_TIME_N_LO, and its latches. -/
def timeRead (d : Dev) (n : Bool) : Word × Dev :=
  let t := d.tim.clock
  let s := t / 1000000000
  if n then (wd t, setLatch d (TIM + 0x18) (wd (nCount t / 2 ^ 32)))
  else (wd (t % 1000000000), setLatch (setLatch d (TIM + 0xC) (wd s)) (TIM + 0x10) (wd (s / 2 ^ 32 % 2 ^ 16)))

def execTimeRead (n : Bool) (at_ : Nat) (s : State) : Host.Outcome State Fault Refusal :=
  onDev (fun d =>
    let r := timeRead (readAt d at_) n
    emitOut r.2 (.readData 0 (TIM + if n then 0x14 else 8) r.1)) s

/-- A read of TIM_STRIDE_CNT_LO (R29). -/
def strideRead (d : Dev) : Word × Dev := (strideW d, setLatch d (TIM + 0x10C) (wd (d.tim.stride / 2 ^ 32)))

/-! ### Pulses (R314 to R318) -/

def getPulse (d : Dev) (g : Nat) : Pulse := nth d.tim.pulses g { cur := ⟨0, false, 0, 0, 0⟩ }
def putPulse (d : Dev) (g : Nat) (x : Pulse) : Dev := { d with tim := { d.tim with pulses := upd d.tim.pulses g x } }
def pulseCfg (g : Nat) : Nat := TIM + 0x300 + 0x20 * g
def pinName (g : Nat) : String := nth ["TPO0", "TPO1", "TPO2", "TPO3"] g ""
/-- Servo states: 0 FREERUN, 1 ACQUIRING, 2 LOCKED, 3 HOLDOVER. -/
def servo (d : Dev) : Nat := getF d TIM 0 2
/-- The generator's output is held inactive (R317). -/
def squelched (d : Dev) (g : Nat) : Bool :=
  match getF d (pulseCfg g) 4 2 with
  | 0 => false
  | 1 => servo d == 0 || servo d == 1
  | _ => servo d != 2
/-- The level of an inactive pin: the stride format governs in STRIDE mode (R314). -/
def restLevel (d : Dev) (g : Nat) : Bool :=
  let x := (getPulse d g).cur
  if x.mode = 3 then getB d (TIM + 0x114) 25 else x.invert
/-- How many ns before its scheduled time an edge leaves the generator, so that it crosses its ball in time: dly, less than the period
of a PERIODIC programme (R318). (DEDUCED, log entry 186.) -/
def edgeLead (d : Dev) (g : Nat) : Nat :=
  let lead := getF d (pulseCfg g) 16 16 / 8
  let x := (getPulse d g).cur
  if x.mode = 2 then min lead (x.period - 1) else lead
/-- The active edge scheduled for time `t`, given at time `at_`, for `w` ns, unless squelched. -/
def startPulse (d : Dev) (g t at_ w : Nat) : Dev :=
  if squelched d g then d
  else emitOut (putPulse d g { getPulse d g with widthEnd := some (at_ + w), lastEdge := some t })
    (.pin (pinName g) (!restLevel d g) (at_ - edgeLead d g))
/-- The pulse in progress ends at time `t`. -/
def endPulse (d : Dev) (g t : Nat) : Dev :=
  emitOut (putPulse d g { getPulse d g with widthEnd := none }) (.pin (pinName g) (restLevel d g) t)
/-- Pulses in progress on outputs that are now squelched end. -/
def applySquelch (d : Dev) : Dev :=
  (List.range 4).foldl (fun d g =>
    if (getPulse d g).widthEnd.isSome && squelched d g then endPulse d g d.tim.clock else d) d

/-- The edge that follows `t` in a PERIODIC programme as of time `now`: the first that is not before it, and how many were
passed over. -/
def firstAhead (t period now : Nat) : Nat × Nat :=
  if now ≤ t || period = 0 then (t, 0) else (let k := ceilDiv (now - t) period
                                             (t + k * period, k))

/-- A pending programme has taken over by time `t`, or does then (R315). -/
def replacedBy (x : Pulse) (t : Nat) : Bool := match x.pending with | some (_, tk) => decide (tk ≤ t) | none => false
/-- The scheduled edge of a SINGLE or PERIODIC programme, at its time or as soon after as the clock stands; not once the pending
programme takes over. (DEDUCED, log entry 155.) -/
def pulseEdge (d : Dev) (g at_ : Nat) : Dev :=
  let x := getPulse d g
  match x.next with
  | none => d
  | some t =>
    if !timely d at_ || at_ != max t d.tim.clock || replacedBy x at_ then d
    else
      let d := putPulse (advance d at_) g { x with next := if x.cur.mode = 2 then some (t + x.cur.period) else none }
      startPulse d g t at_ (10 * x.cur.width)
def execPulseEdge (g : Fin 4) (at_ : Nat) (s : State) : Host.Outcome State Fault Refusal :=
  onDev (fun d => pulseEdge d g.val at_) s

/-- The end of a pulse's width. -/
def pulseWidthEnd (d : Dev) (g : Nat) : Dev :=
  match (getPulse d g).widthEnd with
  | none => d
  | some t =>
    let t := max t d.tim.clock
    if timely d t then endPulse (advance d t) g (t - edgeLead d g) else d
def execPulseWidthEnd (g : Fin 4) (s : State) : Host.Outcome State Fault Refusal := onDev (fun d => pulseWidthEnd d g.val) s

/-- The programme in a generator's registers. -/
def pulseRegs (d : Dev) (g : Nat) : PulseProg :=
  let a := pulseCfg g
  { mode := getF d a 0 2, invert := getB d a 2, start := (reg d (a + 4)).toNat + 2 ^ 32 * getF d (a + 8) 0 16,
    period := (reg d (a + 0xC)).toNat, width := getF d (a + 0x10) 0 24 }
/-- Why a programme is not armed at time `t` (R315): 0 width, 1 period, 2 start. A STRIDE programme ignores the width (R314).
(DEDUCED, log entry 187.) -/
def pulseBad (p : PulseProg) (t : Nat) : Option Nat :=
  if p.mode != 3 && (p.width == 0 || decide (p.period ≤ 10 * p.width)) then some 0
  else if p.mode == 2 && decide (p.period < 1000) then some 1
  else if p.mode == 1 && decide (ndiff p.start t ≤ 0) then some 2
  else none
/-- When a programme armed at time `t` takes over. -/
def takeoverAt (p : PulseProg) (t : Nat) : Nat :=
  let ahead := ndiff p.start t
  if 0 < ahead then t + ahead.toNat
  else if p.mode = 2 then t + p.period - (-ahead).toNat % p.period
  else t
/-- A write to TIM_PULSE_CFG[g] at time `t`. -/
def writePulseCfg (d : Dev) (g : Nat) (v : Word) (t : Nat) : Dev :=
  let a := pulseCfg g
  if !featOn d 0 23 then d
  else
    let old := reg d a
    let sq := if fld v 4 2 = 3 then 2 else fld v 4 2
    let new := setFld ((v &&& 0xFFFF0007) ||| (old &&& 0x300)) 4 2 sq
    let new := if bit v 9 then setBit new 9 false else new
    let d := applySquelch (setReg d a new)
    if !bit v 8 then d
    else
      let p := pulseRegs d g
      match pulseBad p t with
      | some r => raise (putB d a 9 true) (evDev 0xB07 1 [(1, g), (1, r)])
      | none => putPulse (putB d a 8 true) g { getPulse d g with pending := some (p, takeoverAt p t) }
def execPulseArm (g : Fin 4) (val : Word) (at_ : Nat) (s : State) : Host.Outcome State Fault Refusal :=
  onDev (fun d => let d := readAt d at_
                  writePulseCfg d g.val (val ||| 0x100) d.tim.clock) s

/-- The takeover of a pending programme. -/
def pulseTakeover (d : Dev) (g at_ : Nat) : Dev :=
  let x := getPulse d g
  match x.pending with
  | none => d
  | some (p, t) =>
    if !timely d at_ || at_ != max t d.tim.clock then d
    else
      let d := advance d at_
      let rest := restLevel d g
      let n := firstAhead t p.period at_
      let d := if p.mode = 2 && !squelched d g then cnt d (pulseCfg g + 0x14) n.2 else d
      let d := putPulse d g { x with cur := p, pending := none, lastEdge := none, first := t,
                                     next := if p.mode = 1 then some t else if p.mode = 2 then some n.1 else none }
      let d := putB d (pulseCfg g) 8 false
      if x.widthEnd.isNone && rest != restLevel d g then emitOut d (.pin (pinName g) (restLevel d g) at_) else d
def execPulseTakeover (g : Fin 4) (at_ : Nat) (s : State) : Host.Outcome State Fault Refusal :=
  onDev (fun d => pulseTakeover d g.val at_) s

/-- How many of the `skipped` strides before stride `c` begin with an edge in the STRIDE_OUT format `f` (R30): those that begin a
second have a width of their own. -/
def edgesSkipped (f : Word) (c skipped : Nat) : Nat :=
  let secs := (c - 1) / 1200 - (c - 1 - skipped) / 1200
  (if fld f 0 12 = 0 then 0 else skipped - secs) + (if fld f 12 12 = 0 then 0 else secs)
/-- The edges of STRIDE generators at a boundary (R30, R316, R317): `skipped` strides were passed over. -/
def strideEdges (d : Dev) (skipped : Nat) : Dev :=
  let f := reg d (TIM + 0x114)
  let w := if d.tim.stride % 1200 = 0 then fld f 12 12 else fld f 0 12
  (List.range 4).foldl (fun d g =>
    if (getPulse d g).cur.mode != 3 || !bit f 24 || squelched d g then d
    else
      let d := cnt d (pulseCfg g + 0x14) (edgesSkipped f d.tim.stride skipped)
      if w != 0 then startPulse d g d.tim.clock d.tim.clock (10 * w) else d) d

/-! ### Steps (R306, R316, R27) -/

/-- A time as moved by a step of `off` ns, in units of 1 / `k` ns. -/
def shiftT (off : Int) (k t : Nat) : Nat := ((t : Int) + off * k).toNat
/-- What is under way keeps its duration over a step: frames on the wire, pauses, pulses, the stagger. (DEDUCED, log entry 153.) -/
def shiftTimes (d : Dev) (off : Int) : Dev :=
  let sh := shiftT off
  { d with
    brd := { d.brd with ports := d.brd.ports.map fun b =>
      { b with busyUntil := sh 1000 b.busyUntil
               qs := b.qs.map fun x => { x with frames := x.frames.map fun (f : TxFrame) => { f with time := sh 1 f.time } } } }
    mac := { d.mac with ports := d.mac.ports.map fun m =>
      { m with pauseEnd := if m.pauseEnd = 0 then 0 else sh 1000 m.pauseEnd
               pfcEnd := m.pfcEnd.map fun t => if t = 0 then 0 else sh 1000 t } }
    tim := { d.tim with lockSince := sh 1 d.tim.lockSince
                        pulses := d.tim.pulses.map fun (p : Pulse) => { p with widthEnd := p.widthEnd.map (sh 1) } }
    pke := { d.pke with swap := d.pke.swap.map fun (w : Swap) => { w with since := sh 1 w.since } }
    sys := { d.sys with lastStep := d.sys.lastStep.map (sh 1), stagStart := sh 1 d.sys.stagStart } }

/-- A generator after a forward step to time `now`: edges passed before a pending takeover are counted, a passed SINGLE edge is
emitted (R315, R316). (DEDUCED, log entry 155.) -/
def stepPulse (d : Dev) (g now : Nat) : Dev :=
  let x := getPulse d g
  match x.next with
  | none => d
  | some t =>
    if now ≤ t || replacedBy x t then d
    else if x.cur.mode = 1 then startPulse (putPulse d g { x with next := none }) g t now (10 * x.cur.width)
    else
      let stop := match x.pending with | some (_, tk) => min now tk | none => now
      let d := putPulse d g { x with next := some (firstAhead t x.cur.period now).1 }
      if squelched d g then d else cnt d (pulseCfg g + 0x14) (firstAhead t x.cur.period stop).2
/-- A PERIODIC generator after a backward step to time `now`: the next edge is the one after the last edge emitted (R316). -/
def unstepPulse (d : Dev) (g now : Nat) : Dev :=
  let x := getPulse d g
  if x.cur.mode != 2 then d
  else
    let t := match x.lastEdge with | some l => l + x.cur.period | none => x.first
    putPulse d g { x with next := some (firstAhead t x.cur.period now).1 }

/-- The clock steps by `off` ns: a backward step holds the stride generator; the boundary that a forward step crosses follows in the
same command (R27, `landStep`). (DEDUCED, log entry 153.) -/
def doStep (d : Dev) (off : Int) (forced : Bool) : Dev :=
  let now := ((d.tim.clock : Int) + off).toNat
  let d := shiftTimes d off
  let d := { d with tim := { d.tim with clock := now } }
  let d := if off < 0 then (List.range 4).foldl (fun d g => unstepPulse d g now) (putB d (TIM + 0x100) 2 true)
    else (List.range 4).foldl (fun d g => stepPulse d g now) d
  let d := putB (putB d TIM 4 false) (TIM + 0x2C) 1 false
  raise { d with tim := { d.tim with refusedAt := none } } (evDev 0xB01 0 [(4, (BitVec.ofInt 32 off).toNat), (1, forced.toNat)])

/-- TIM_OFFSET takes an offset, saturating. -/
def showOffset (d : Dev) (off : Int) : Dev := setReg d (TIM + 0x34) (BitVec.ofInt 32 (satS 32 off))

/-- A step of `off` ns from the servo (0) or TIM_STEP (1): applied, or refused beyond JUMP_LIMIT. -/
def tryStep (d : Dev) (off : Int) (src : Nat) : Dev × Bool :=
  let limit := (reg d (TIM + 0x30)).toNat
  let force := getB d (TIM + 0x2C) 1
  if decide (off.natAbs ≤ limit) || force then (doStep d off force, true)
  else
    let due := match d.tim.refusedAt with
      | none => true
      | some k => decide (k + 1200 ≤ d.tim.stride)
    let d := showOffset (putB d TIM 4 true) off
    if due then
      (raise { d with tim := { d.tim with refusedAt := some d.tim.stride } }
        (evDev 0xB00 1 [(4, (reg d (TIM + 0x34)).toNat), (4, limit), (1, src)]), false)
    else (d, false)

/-! ### Steering (R305 to R309) -/

def timMode (d : Dev) : Nat := getF d (TIM + 4) 0 2
/-- The frequencies of the last 16 s in LOCKED, newest first. -/
def trimLog : Nat → List (Nat × Word) → List (Nat × Word)
  | _, [] => []
  | 0, _ => []
  | n, (t, f) :: l => if t < n then (t, f) :: trimLog (n - t) l else [(n, f)]
/-- The frequency in force is entered in the log of LOCKED, up to now. -/
def logFreq (d : Dev) : Dev :=
  let l := if servo d = 2 then trimLog 16000000000 ((d.tim.clock - d.tim.lockSince, reg d (TIM + 0x20)) :: d.tim.lockLog) else d.tim.lockLog
  { d with tim := { d.tim with lockLog := l, lockSince := d.tim.clock } }
/-- The mean frequency of the log, toward zero. (DEDUCED, log entry 154.) -/
def meanFreq (d : Dev) : Word :=
  let n := (d.tim.lockLog.map Prod.fst).sum
  if n = 0 then reg d (TIM + 0x20)
  else BitVec.ofInt 32 (((d.tim.lockLog.map fun e => (e.1 : Int) * e.2.toInt).sum).tdiv n)
/-- A frequency adjustment, clamped to ± `lim` units of 2^−8 ppb; freq_clamp reports the clamp of R305. -/
def setFreq (d : Dev) (v : Int) (lim : Int) : Dev :=
  let d := logFreq d
  let d := if clampI (-128000000) 128000000 v == v then d else putB d TIM 6 true
  setReg d (TIM + 0x20) (BitVec.ofInt 32 (clampI (-lim) lim (clampI (-128000000) 128000000 v)))
/-- The servo's state changes: locked follows it, outputs are squelched by it. -/
def setServo (d : Dev) (st : Nat) : Dev :=
  let d := setF (logFreq d) TIM 0 2 st
  let d := putB d (TIM + 0x100) 0 (st == 2)
  let d := { d with tim := { d.tim with inBand := 0, outBand := 0, holdStrides := 0 } }
  applySquelch (setReg d (TIM + 0x40) 0)
/-- The servo enters FREERUN (R307). -/
def enterFreerun (d : Dev) : Dev :=
  let old := servo d
  if old = 0 then d else raise (setServo d 0) (evDev 0xB04 1 [(1, old)])

/-- A write to TIM_CTRL: mode 3 stores 2; a new mode clears jump_pending, and modes 1 and 2 are FREERUN. -/
def writeTimCtrl (d : Dev) (v : Word) : Dev :=
  let m := if fld v 0 2 = 3 then 2 else fld v 0 2
  let old := timMode d
  let d := setReg d (TIM + 4) (setFld (v &&& 0xFFFF07) 0 2 m)
  if m = old then d
  else
    let d := putB d TIM 4 false
    let d := { d with tim := { d.tim with refusedAt := none, noStep := false } }
    if m = 0 then d else enterFreerun d
def execTimModeWrite (val : Word) (s : State) : Host.Outcome State Fault Refusal := onDev (fun d => writeTimCtrl d val) s

/-- A write to TIM_FREQ by the driver. -/
def writeFreq (d : Dev) (v : Word) : Dev :=
  if timMode d = 1 then setFreq d v.toInt 128000000 else putB d TIM 5 true
def execFreqWrite (val : Word) (s : State) : Host.Outcome State Fault Refusal := onDev (fun d => writeFreq d val) s

/-- A write to TIM_STEP_CTRL: force may be set in every mode, apply acts in mode 1. -/
def writeStepCtrl (d : Dev) (v : Word) : Dev :=
  let d := if bit v 1 then putB d (TIM + 0x2C) 1 true else d
  if !bit v 0 then d
  else if timMode d != 1 then putB d TIM 5 true
  else (tryStep d (reg d (TIM + 0x28) ++ reg d (TIM + 0x24)).toInt 1).1

/-- The servo counts an offset against lock_thresh and changes state (table Servo states). -/
def servoState (d : Dev) (port : Nat) (off : Int) : Dev :=
  let th := getF d (TIM + 0x38) 0 16
  let n := off.natAbs
  let inb := if n ≤ th then d.tim.inBand + 1 else 0
  let outb := if 4 * th < n then d.tim.outBand + 1 else 0
  let d := { d with tim := { d.tim with inBand := inb, outBand := outb } }
  if servo d = 1 && decide (16 ≤ inb) then
    let d := setServo { d with tim := { d.tim with noStep := false } } 2
    raise d (evDev 0xB02 0 [(1, port), (4, (BitVec.ofInt 32 off).toNat)])
  else if servo d = 2 && decide (4 ≤ outb) then setServo d 1
  else d

/-- A Sync exchange in mode 0: the servo steps where it may, or steers by frequency, at no more than slew_max after a
refused step (R307). (DEDUCED, log entry 154.) -/
def servoSync (d : Dev) (port : Nat) (off : Int) (freq : Word) (step : Bool) : Dev :=
  let limit := (reg d (TIM + 0x30)).toNat
  let d := if getB d TIM 4 && decide (off.natAbs ≤ limit) then
      { putB d TIM 4 false with tim := { d.tim with refusedAt := none } }
    else d
  let slew : Int := getF d (TIM + 0x38) 16 16 * 256
  let d :=
    if step && servo d == 1 && !d.tim.noStep then
      (let r := tryStep d (-off) 0
       if r.2 then r.1 else { r.1 with tim := { r.1.tim with noStep := true } })
    else if getB d TIM 4 || d.tim.noStep then setFreq d freq.toInt slew
    else setFreq d freq.toInt 128000000
  servoState d port off

/-- LOCKED with no qualified master (R308). -/
def holdover (d : Dev) (syncLost : Bool) : Dev :=
  if servo d != 2 then d
  else
    let d := setServo d 3
    let f := meanFreq d
    raise (setReg d (TIM + 0x20) f) (evDev 0xB03 1 [(1, syncLost.toNat), (4, f.toNat)])
def execHoldover (syncLost : Bool) (s : State) : Host.Outcome State Fault Refusal := onDev (fun d => holdover d syncLost) s

/-- HOLDOVER that has lasted hold_max seconds. -/
def execFreerun (s : State) : Host.Outcome State Fault Refusal :=
  onDev (fun d => if servo d == 3 && decide (1200 * getF d (TIM + 0x3C) 0 16 ≤ d.tim.holdStrides) then enterFreerun d else d) s

/-- A stride of holdover has passed. (DEDUCED, log entry 156.) -/
def holdStride (d : Dev) : Dev :=
  if servo d != 3 then d
  else
    let n := d.tim.holdStrides + 1
    setReg { d with tim := { d.tim with holdStrides := n } } (TIM + 0x40) (wd (min (n / 1200) 0xFFFFFFFF))

/-! ### Transmit time-stamps (R312) -/

/-- A read of TIM_TXTS_POP[p]. -/
def txtsPop (d : Dev) (p : Nat) : Word × Dev :=
  let a := TIM + 0x200 + 0x10 * p
  match nth d.tim.txts p [] with
  | [] => (0, setReg (setReg d (a + 8) 0) (a + 0xC) 0)
  | e :: es =>
    let d := { d with tim := { d.tim with txts := upd d.tim.txts p es } }
    let d := setF d a 0 6 es.length
    let d := setReg (setReg d (a + 8) (wd e.stamp)) (a + 0xC) (wd (e.stamp / 2 ^ 32))
    let v := wd (e.tsId + 0x10000 + 0x20000 * e.sent.toNat)
    (v, setReg d (a + 4) v)
def execTxtsPop (p : Fin 8) (s : State) : Host.Outcome State Fault Refusal :=
  onDev (fun d => let r := txtsPop d p.val
                  emitOut r.2 (.readData 0 (TIM + 0x204 + 0x10 * p.val) r.1)) s

end Sys2Proof.Machine
end

