-- ==== Sys2Proof/Machine/Boot.lean ====
section
/-! DEFINITION. Resets (R383, R384), boot sources (R368 to R371), fuses (R390, R408), THERM_N (R398) and the SMBus target
(R407). -/
namespace Sys2Proof.Machine

/-! ### Resets -/

/-- RESET ends: the stride count is that of the clock (R25), strides are produced, and the device is in BOOT (R383). (DEDUCED, log entry 61.) -/
def leaveReset (d : Dev) : Dev :=
  setMode { d with tim := { d.tim with stride := strideAt d.tim.clock, running := true } } .boot 3

/-- Power-on reset: fuses and Tack store contents are kept (R384). (DEDUCED, log entry 61.) -/
def powerOn (d : Dev) (src : Nat) : Dev :=
  let z := Dev.reset d.variant
  leaveReset { z with
    out := d.out
    freeCtr := d.freeCtr
    sys := { z.sys with
      tack := d.sys.tack, stores := d.sys.stores, rootKey := d.sys.rootKey, keyProg := d.sys.keyProg,
      keyLock := d.sys.keyLock, rbFloor := d.sys.rbFloor, bootSrc := src } }
def execPowerOnReset (src : Fin 4) (s : State) : Host.Outcome State Fault Refusal := onDev (fun d => powerOn d src.val) s

/-- Registers that warm reset keeps whole: those of domain T but the counters and TIM_HOLD_SEC, the fatal latch, LDG_BREAK_INFO
and PWR_PORT_AUTO, whose only field is RWS. -/
def warmKeeps (a : Nat) : Bool :=
  (decide (TIM ≤ a) && decide (a < TIM + 0x1000) && a != TIM + 0x40 && a != TIM + 0x110 &&
    !((List.range 4).any fun g => a == TIM + 0x314 + 0x20 * g)) ||
  a == evtBase 0 || (decide (evtBase 0 + 0x10 ≤ a) && decide (a < evtBase 0 + 0x30)) || a == LDG + 0x30 || a == PWR + 8

/-- Warm reset (R384): the time base runs on, the PCI Express link stays trained, a store in progress is abandoned (R389). -/
def warmReset (d : Dev) (src : Nat) : Dev :=
  if !d.tim.running then d
  else
    let z := Dev.reset d.variant
    let w : Dev := { z with
      regs := spClear d.regs fun a => !warmKeeps a
      latch := spClear d.latch fun a => !(decide (TIM ≤ a) && decide (a < TIM + 0x1000))
      out := d.out
      freeCtr := d.freeCtr
      tim := { d.tim with holdStrides := 0 }
      hif := { z.hif with vfEnable := d.hif.vfEnable, msixEnable := d.hif.msixEnable }
      sys := { z.sys with
        tack := d.sys.tack, stores := d.sys.stores, rootKey := d.sys.rootKey, keyProg := d.sys.keyProg,
        keyLock := d.sys.keyLock, rbFloor := d.sys.rbFloor, bootSrc := src, thermLow := d.sys.thermLow } }
    let w := setF (setF w 0 0 4 (getF d 0 0 4)) 0 4 5 (getF d 0 4 5)
    let w := putB (putB w (SYS + 4) 0 (getB d (SYS + 4) 0)) TCK 2 (getB d TCK 2)
    let w := (List.range 8).foldl (fun w p => setF w (TIM + 0x200 + 0x10 * p) 16 16 0) (putB w (TIM + 0x100) 2 false)
    leaveReset w
def execWarmReset (src : Fin 4) (s : State) : Host.Outcome State Fault Refusal := onDev (fun d => warmReset d src.val) s

/-- A write to SYS_RESET. (DEDUCED, log entry 64.) -/
def writeReset (d : Dev) (v : Word) (src : Nat) : Dev :=
  if bit v 0 && fld v 8 8 == 0xA5 then warmReset d src else d
def execSysResetWarm (val : Word) (src : Fin 4) (s : State) : Host.Outcome State Fault Refusal :=
  onDev (fun d => writeReset d val src.val) s

/-! ### Boot sources -/

/-- SYS_BOOT_STATUS after an attempt: the source tried and its result. -/
def bootResult (d : Dev) (src result : Nat) : Dev := setF (setF d (SYS + 8) 0 2 src) (SYS + 8) 4 4 result
/-- An image is checked under R369; for a payload over 64 MiB the spec gives no result code. (DEDUCED, log entry 62.) -/
def checkImage (d : Dev) (src : Nat) (i : BootImage) : Dev :=
  if !Config.imageSigned i.header i.payload then bootResult d src 3
  else if i.rollback < d.sys.rbFloor then bootResult d src 4
  else if 67108864 < i.payloadLen then
    (let r := drawFree d 4
     bootResult r.2 src r.1.toNat)
  else
    let d := setF (bootResult d src 1) (SYS + 8) 16 16 i.version
    { d with sys := { d.sys with imageOk := true, hostLoading := false } }

/-- The device tries a flash slot (R368). (DEDUCED, log entry 62.) -/
def flashBoot (d : Dev) (slot : Nat) (image : Option BootImage) : Dev :=
  if d.sys.mode != .boot || d.sys.imageOk || d.sys.bootSrc = 1 || d.sys.bootSlot != slot then d
  else
    let d := { d with sys := { d.sys with bootSlot := slot + 1 } }
    match image with
    | none => bootResult d slot 2
    | some i => checkImage d slot i
def execFlashBoot (slot : Bool) (image : Option BootImage) (s : State) : Host.Outcome State Fault Refusal :=
  onDev (fun d => flashBoot d slot.toNat image) s

/-- A host load may start: in BOOT with no image accepted, by boot source 1, or 2 once both slots have failed. -/
def hostLoadOpen (d : Dev) : Bool :=
  d.sys.mode == .boot && !d.sys.imageOk && (d.sys.bootSrc == 1 || (d.sys.bootSrc == 2 && decide (2 ≤ d.sys.bootSlot)))

/-- The device leaves BOOT where firmware has prepared it, and hold is 0 or go has been written (R371). (DEDUCED, log entry 63.) -/
def tryLeaveBoot (d : Dev) : Dev :=
  if d.sys.mode == .boot && d.sys.fwUp && (!getB d (SYS + 4) 0 || getB d (SYS + 4) 1) then enterTrain (putB d (SYS + 4) 1 false)
  else d
/-- A write to SYS_BOOT_CTRL: hold is stored, go waits for firmware in BOOT, host_go starts a host load. (DEDUCED, log entry 63.) -/
def writeBootCtrl (d : Dev) (v : Word) : Dev :=
  let d := putB d (SYS + 4) 0 (bit v 0)
  let d := if bit v 2 && hostLoadOpen d then { d with sys := { d.sys with hostLoading := true } } else d
  if bit v 1 && d.sys.mode == .boot then tryLeaveBoot (putB d (SYS + 4) 1 true) else d

/-- What a host load reads arrives (R370). -/
def hostLoad (d : Dev) (image : HostImage) : Dev :=
  if !d.sys.hostLoading || d.sys.mode != .boot then d
  else
    let d := { d with sys := { d.sys with hostLoading := false } }
    match image with
    | .none => bootResult d 2 2
    | .fail => bootResult d 2 5
    | .image i => checkImage d 2 i
def execHostGo (val : Word) (image : HostImage) (s : State) : Host.Outcome State Fault Refusal :=
  onDev (fun d => hostLoad (writeBootCtrl d val) image) s

def execBootGo (val : Word) (s : State) : Host.Outcome State Fault Refusal := onDev (fun d => writeBootCtrl d val) s

/-! ### Fuses -/

/-- The bytes of FUS_KEY_DATA, word by word. -/
def keyData (d : Dev) : List Byte := (List.range 8).flatMap fun w => leBytes (reg d (FUS + 0x10 + 4 * w)).toNat 4
/-- The check value of the root key, three bytes; zero before programming and after lock. (DEDUCED, log entry 65.) -/
def rootCheck (d : Dev) : List Nat :=
  if d.sys.keyProg && !d.sys.keyLock then (aes (beList d.sys.rootKey.toNat 32) (List.replicate 16 0)).take 3 else [0, 0, 0]

/-- prog, with FUSE_VPP at `vpp` mV (R390, R408). -/
def fuseProg (d : Dev) (vpp : Nat) : Dev :=
  if d.sys.keyProg || d.sys.keyLock then d
  else
    let d1 := if vpp < 1710 then d
      else { d with sys := { d.sys with rootKey := BitVec.ofNat 256 (beNat (keyData d)), keyProg := true } }
    (List.range 8).foldl (fun d w => setReg d (FUS + 0x10 + 4 * w) 0) d1
/-- A write to FUS_CTRL, in CONFIGURE with confirm. (DEDUCED, log entry 64.) -/
def writeFusCtrl (d : Dev) (v : Word) (vpp : Nat) : Dev :=
  if fld v 8 8 != 0xA5 || d.sys.mode != .configure then d
  else
    let d := if bit v 0 then fuseProg d vpp else d
    if bit v 1 then { d with sys := { d.sys with keyLock := true } } else d
def execFuseProg (val : Word) (vpp : Nat) (s : State) : Host.Outcome State Fault Refusal := onDev (fun d => writeFusCtrl d val vpp) s
/-- The same write where nothing tells FUSE_VPP: a free voltage, in mV, for a write of prog. -/
def writeFusFree (d : Dev) (v : Word) : Dev :=
  if bit v 0 then
    (let r := drawFree d 12
     writeFusCtrl r.2 v r.1.toNat)
  else writeFusCtrl d v 0
def execFuseLock (val : Word) (s : State) : Host.Outcome State Fault Refusal := onDev (fun d => writeFusFree d val) s

/-! ### Package (R398, R407) -/

/-- The hottest sensor reads `c` °C. (DEDUCED, log entry 66; DESIGN CHOICE, log entry 175.) -/
def thermAlert (d : Dev) (c : Int) : Dev :=
  let low := if d.sys.thermLow then decide (110 ≤ c) else decide (115 ≤ c)
  if low == d.sys.thermLow then d
  else
    let d := { d with sys := { d.sys with thermLow := low } }
    emitOut (emitOut d (.pin "THERM_N" (!low) d.tim.clock)) (.pin "SMB_ALERT_N" (!low) d.tim.clock)
def execThermAlert (celsius : Int) (s : State) : Host.Outcome State Fault Refusal := onDev (fun d => thermAlert d celsius) s

/-- The hottest stack as MEM_STACK_STATUS shows it, a signed byte. -/
def hottestStack (d : Dev) : Int :=
  ((List.range d.variant.stacks).map fun h => (BitVec.ofNat 8 (getF d (MEM + 0x200 + 4 * h) 0 8)).toInt).foldl max (-128)
/-- What Read Byte returns for a command; none is acknowledged but those of the table. (DEDUCED, log entry 66.) -/
def smbusByte (d : Dev) (cmd : Nat) (die : Int) : Option Byte :=
  match cmd with
  | 0 => some (BitVec.ofNat 8 (shownMode d).code)
  | 1 => some (BitVec.ofInt 8 die)
  | 2 => some (BitVec.ofInt 8 (hottestStack d))
  | 3 => some (BitVec.ofNat 8 (d.sys.thermLow.toNat + 2 * d.sys.keyLock.toNat))
  | _ => none
/-- (DESIGN CHOICE, log entry 175.) -/
def smbusRead (d : Dev) (cmd : Nat) (die : Int) : Dev :=
  match smbusByte d cmd die with
  | some b => if d.sys.mode == .reset then d else emitOut d (.smbus b)
  | none => d
def execSmbusReadByte (cmd : Byte) (die : Int) (s : State) : Host.Outcome State Fault Refusal :=
  onDev (fun d => smbusRead d cmd.toNat die) s

end Sys2Proof.Machine
end

