-- ==== Sys2Proof/Machine/Bridle.lean ====
section
/-! DEFINITION. The Bridle (R288 to R301): selection, weighted queues, shapers, time gates, the post wheel, ages. -/
namespace Sys2Proof.Machine

/-- The Bridle of a port is RUNNING. (DEDUCED, log entry 152.) -/
def brdRuns (d : Dev) (p : Nat) : Bool := running d ⟨10, 0xFF, p⟩
def isUrgent (d : Dev) (p q : Nat) : Bool := getB d (BRDQ p q) 8

/-! ### Time gates (R296, R297) -/

/-- The cycle of a list in ns. -/
def gclCycle (l : List (Nat × Nat)) : Nat := (l.map Prod.fst).sum
/-- The entry in force `pos` ps into the cycle, and the ps left of it. -/
def entryAt : List (Nat × Nat) → Nat → Nat → Nat × Nat
  | [], _, i => (i, 0)
  | e :: es, pos, i => if pos < 1000 * e.1 then (i, 1000 * e.1 - pos) else entryAt es (pos - 1000 * e.1) (i + 1)
/-- The position in the operating list's cycle at a time in ps. -/
def gatePos (b : BrdPort) (t : Nat) : Nat := (((t : Int) - 1000 * b.operBase) % (1000 * gclCycle b.oper : Nat)).toNat
/-- Gate of queue `q` in an entry. -/
def gateOpen (e : Nat × Nat) (q : Nat) : Bool := e.2.testBit q
/-- Ps for which the gate stays open over the entries of a list, in order, until one closes it. -/
def openRun (q : Nat) : List (Nat × Nat) → Nat
  | [] => 0
  | e :: es => if gateOpen e q then 1000 * e.1 + openRun q es else 0
/-- A list begun at entry `i`. -/
def rotate (l : List (Nat × Nat)) (i : Nat) : List (Nat × Nat) := l.drop i ++ l.take i
/-- The gate is open at time `t` and stays so for `need` ps; with no operating list every gate is open. -/
def gateAllows (b : BrdPort) (q t need : Nat) : Bool :=
  if b.oper.isEmpty then true
  else
    let r := entryAt b.oper (gatePos b t) 0
    gateOpen (nth b.oper r.1 (0, 0)) q &&
    (b.oper.all (gateOpen · q) || decide (need ≤ r.2 + openRun q ((rotate b.oper r.1).drop 1)))
/-- The longest open interval of a queue's gate in ps (R297); a gate that never closes has none to exceed. -/
def longestOpen (b : BrdPort) (q : Nat) : Nat :=
  ((List.range b.oper.length).map fun i => openRun q (rotate b.oper i)).foldl max 0
def gateNever (b : BrdPort) (q need : Nat) : Bool :=
  !b.oper.isEmpty && !b.oper.all (gateOpen · q) && decide (longestOpen b q < need)
/-- The guard time in ps (R296). -/
def guardPs (d : Dev) (p : Nat) : Nat :=
  match getF d (BRD p + 0xC) 0 16 with
  | 0 => wireTime d p (maxFrame d p + 20)
  | n => 1000 * n
/-- Offsets in ps of the entries that open the gate of an urgent queue which the entry before had closed. -/
def urgentOpens (b : BrdPort) (urgent : List Nat) : List Nat :=
  ((List.range b.oper.length).filter fun i =>
    urgent.any fun q => gateOpen (nth b.oper i (0, 0)) q && !gateOpen (nth b.oper ((i + b.oper.length - 1) % b.oper.length) (0, 0)) q).map
    fun i => 1000 * gclCycle (b.oper.take i)
/-- A time in ps lies inside a guard band. -/
def inGuard (d : Dev) (p t : Nat) : Bool :=
  let b := getBrd d p
  if b.oper.isEmpty then false
  else
    let c := 1000 * gclCycle b.oper
    let pos := gatePos b t
    (urgentOpens b ((List.range 16).filter (isUrgent d p))).any fun s =>
      decide ((s + c - pos - 1) % c < guardPs d p)

/-! ### Eligibility (R289) -/

/-- The queue is held by a link PAUSE or a paused priority (R150, R151). -/
def queueHeld (d : Dev) (p q t : Nat) : Bool :=
  linkPaused d p t || ((List.range 8).any fun i => prioPaused d p i t && getB d (MACP p + 0x20 + 4 * i) q) ||
  (isUrgent d p q && prioPaused d p (getF d (MACP p + 0x14) 2 3) t)
/-- Shaper settings in force of a queue, or of the port (16). -/
def shapeOf (b : BrdPort) (i : Nat) : Nat × Nat × Bool := nth b.shape i (0, 16384, false)
def shaped (b : BrdPort) (i : Nat) : Bool := (shapeOf b i).2.2
/-- Whether the head of a queue may start at time `t` ps. -/
def eligible (d : Dev) (p q t : Nat) : Bool :=
  match (getQ d p q).frames with
  | [] => false
  | f :: _ =>
    let b := getBrd d p
    !queueHeld d p q t && gateAllows b q t (wireTime d p (wireLen f)) &&
    (isUrgent d p q ||
      (!inGuard d p t && (!shaped b q || decide (0 ≤ (getQ d p q).bucket)) && (!shaped b 16 || decide (0 ≤ b.bucket))))

/-! ### Deficit round robin (R293) -/

/-- The weighted queues as a selection sees them: for each of queues 4 to 15 its head's wire length where it may be taken. -/
def weighted (d : Dev) (p : Nat) (ok : Nat → Bool) : List (Option Nat) :=
  (List.range 12).map fun i => if ok (4 + i) then ((getQ d p (4 + i)).frames.head?).map wireLen else none

/-- Visits in cyclic order until a queue's head fits its deficit: the queue taken, whether its visit goes on, and the
deficits. -/
def drr (heads : List (Option Nat)) (quanta : List Nat) : Nat → Nat → Bool → List Nat → Option (Nat × List Nat)
  | 0, _, _, _ => none
  | n + 1, i, visited, defs =>
    match nth heads i none with
    | none => drr heads quanta n ((i + 1) % 12) false defs
    | some w =>
      (let defs := if visited then defs else upd defs i (nth defs i 0 + nth quanta i 0)
       if w ≤ nth defs i 0 then some (i, upd defs i (nth defs i 0 - w))
       else drr heads quanta n ((i + 1) % 12) false defs)

/-- The queues with the weighted queues' deficits replaced. -/
def setDeficits (qs : List BrdQ) (defs : List Nat) : List BrdQ :=
  (List.range 16).map fun q =>
    let x := nth qs q {}
    if q < 4 then x else { x with deficit := nth defs (q - 4) 0 }
/-- The queue whose head a selection takes, of those that `ok` passes: the lowest strict one, else by deficit round robin, with the
turn and the deficits that follow; where no queue passes, the visit under way ends (R288, R293). -/
def pickQueue (d : Dev) (p : Nat) (ok : Nat → Bool) : Dev × Option Nat :=
  match (List.range 4).find? ok with
  | some q => (d, some q)
  | none =>
    let b := getBrd d p
    let quanta := (List.range 12).map fun i => 128 * getF d (BRDQ p (4 + i)) 0 8
    let defs := (List.range 12).map fun i => (getQ d p (4 + i)).deficit
    match drr (weighted d p ok) quanta 1200 (b.turn - 4) b.visited defs with
    | none => (putBrd d p { b with visited := false }, none)
    | some (i, defs) => (putBrd d p { b with qs := setDeficits b.qs defs, turn := 4 + i, visited := true }, some (4 + i))

/-! ### Discards (R297, R300) -/

/-- A frame has been in its queue for more than `lim` strides of 2,500,000 / 3 ns (R300). (DEDUCED, log entry 149.) -/
def olderThan (d : Dev) (f : TxFrame) (lim : Nat) : Bool := decide (lim * 2500000 < 3 * (d.tim.clock - f.time))
/-- Head frames older than age_lim are discarded, `n` at most. -/
def ageDropN : Nat → Dev → Nat → Nat → Dev
  | 0, d, _, _ => d
  | n + 1, d, p, q =>
    match (getQ d p q).frames with
    | [] => d
    | f :: _ =>
      let lim := getF d (BRDQ p q) 16 12
      if lim ≠ 0 ∧ olderThan d f lim then
        ageDropN n (dropFrame (raiseOnce (cnt (popQ d p q) (BRDQ p q + 0x3C) 1) (evBrd p q 0x841 [])) p f) p q
      else d
/-- Head frames that no open interval of their gate can hold are discarded, `n` at most. -/
def gateDropN : Nat → Dev → Nat → Nat → Dev
  | 0, d, _, _ => d
  | n + 1, d, p, q =>
    match (getQ d p q).frames with
    | [] => d
    | f :: _ =>
      if gateNever (getBrd d p) q (wireTime d p (wireLen f)) then
        gateDropN n
          (dropFrame (raiseOnce (cnt (popQ d p q) (BRD p + 0x38) 1) (evBrd p q 0x846 [(4, wireLen f)])) p f) p q
      else d
def dropHeads (d : Dev) (p : Nat) : Dev :=
  (List.range 16).foldl (fun d q =>
    let n := (getQ d p q).frames.length
    gateDropN n (ageDropN n d p q) p q) d

/-! ### Selection (R288, R294, R299, R301) -/

/-- A bucket charged with a wire length, in millibytes, down to its floor. -/
def charge (b : Int) (n : Nat) : Int := max (b - 1000 * n) (-8388608000)
/-- BRD_Q_TOKENS shows whole bytes. -/
def showTokens (d : Dev) (p q : Nat) : Dev := setReg d (BRDQ p q + 0x30) (BitVec.ofInt 32 ((getQ d p q).bucket / 1000))
/-- A started frame's sojourn in ns against the delay watermark. -/
def noteDelay (d : Dev) (p q ns : Nat) : Dev :=
  let a := BRDQ p q
  let x := getQ d p q
  let d := maxReg (putQ d p q { x with sojourn := max x.sojourn ns }) (a + 0x2C) ns
  let w := (reg d (a + 0x24)).toNat
  if w ≤ ns then raiseOnce (satF (putB d (a + 0x28) 0 true) (a + 0x28) 16 16 1) (evBrd p q 0x843 [(4, ns), (4, w)]) else d

/-- The head frame of queue `q` starts at `t` ps. -/
def startFrame (d : Dev) (p q t : Nat) : Dev :=
  match (getQ d p q).frames with
  | [] => d
  | f :: _ =>
    let w := wireLen f
    let d := cnt (popQ d p q) (BRDQ p q + 0x34) 1
    let d := noteDelay d p q (t / 1000 - f.time)
    let b := getBrd d p
    let d := putBrd d p { b with busyUntil := t + wireTime d p w, bucket := if shaped b 16 then charge b.bucket w else b.bucket }
    let x := getQ d p q
    let d := if shaped b q then showTokens (putQ d p q { x with bucket := charge x.bucket w }) p q else d
    putPort d p { getPort d p with txq := (getPort d p).txq ++ [f] }

/-- With the link not UP, the head frame that a selection takes, gates, guard bands and shapers aside, is discarded at the port's
rate (R299). (DEDUCED, log entry 152.) -/
def drainDown (d : Dev) (p t : Nat) : Dev :=
  let r := pickQueue d p fun q => !(getQ d p q).frames.isEmpty
  let d := r.1
  match r.2 with
  | none => d
  | some q =>
    match (getQ d p q).frames with
    | [] => d
    | f :: _ =>
      let d := cnt (popQ d p q) (BRD p + 0x30) 1
      let d := putBrd d p { getBrd d p with busyUntil := t + wireTime d p (wireLen f) }
      endFrame d p f 1

/-- A selection whose projected start is `t` ps. -/
def selectAt (d : Dev) (p t : Nat) : Dev :=
  if !linkUp d p && (getBrd d p).movedTo.isNone then drainDown d p t
  else if !isActive d p then d
  else
    let d := dropHeads d p
    let r := pickQueue d p fun q => eligible d p q t
    match r.2 with
    | some q => startFrame r.1 p q t
    | none => r.1

def selection (d : Dev) (p at_ : Nat) : Dev :=
  let b := getBrd d p
  if !brdRuns d p || !timely d at_ || at_ < b.busyUntil / 1000 || !(getPort d p).txq.isEmpty then d
  else selectAt (advance d at_) p (max b.busyUntil (1000 * at_))
def execSelection (p : Fin 8) (at_ : Nat) (s : State) : Host.Outcome State Fault Refusal :=
  onDev (fun d => selection d p.val at_) s

/-! ### The post wheel (R291, R299) -/

/-- Insertion by post time, after those of the same time. -/
def insertPost (f : TxFrame) : List TxFrame → List TxFrame
  | [] => [f]
  | g :: gs => if ndiff (f.post.getD 0) (g.post.getD 0) < 0 then f :: g :: gs else g :: insertPost f gs
/-- The frames of the wheel that are due at tick time `t`, in order of release. -/
def dueFrames (b : BrdPort) (t : Nat) : List TxFrame :=
  (b.wheel.filter fun f => decide (0 ≤ ndiff t (f.post.getD 0))).foldl (fun l f => insertPost f l) []
/-- A tick of the wheel at network time `at_`. -/
def wheelTick (d : Dev) (p at_ : Nat) : Dev :=
  let b := getBrd d p
  if !brdRuns d p || !timely d at_ || at_ / 256 == b.lastWheel then d
  else
    let d := advance d at_
    let t := at_ / 256 * 256
    let due := dueFrames b t
    let d := putBrd d p { b with lastWheel := at_ / 256, wheel := b.wheel.filter fun f => decide (ndiff t (f.post.getD 0) < 0) }
    due.foldl (fun d f =>
      if !linkUp d p && b.movedTo.isNone then
        endFrame (cnt (setDepth d p f.queue (qDepth d p f.queue - wireLen f)) (BRD p + 0x30) 1) p f 1
      else pushQ d p f) d
def execPostWheelTick (p : Fin 8) (at_ : Nat) (s : State) : Host.Outcome State Fault Refusal :=
  onDev (fun d => wheelTick d p.val at_) s

/-! ### Shapers (R294, R295) -/

/-- The registers of a shaper: rate and en, burst. -/
def shapeRegs (p i : Nat) : Nat × Nat := if i = 16 then (BRD p + 4, BRD p + 8) else (BRDQ p i + 4, BRDQ p i + 8)
/-- A bucket at a tick: a shaper just enabled starts at burst, forgiven debt is cleared, the rate is added, burst limits. (DEDUCED, log entry 150.) -/
def tickBucket (bucket : Int) (was now : Bool) (rate burst : Nat) (forgive : Bool) : Int :=
  if !now then 1000 * burst
  else
    let b := if !was then (1000 * burst : Int) else if forgive && decide (bucket < 0) then 0 else bucket
    min (b + rate) (1000 * burst)
/-- The tick of one shaper takes its settings. (DEDUCED, log entry 150.) -/
def tickShaper (d : Dev) (p i : Nat) : Dev :=
  let b := getBrd d p
  let r := shapeRegs p i
  let rate := getF d r.1 0 30
  let burst := getF d r.2 0 24
  let en := getB d r.1 31
  let f (x : Int) : Int := tickBucket x (shaped b i) en rate burst (b.forgive.contains i)
  let b := { b with shape := upd b.shape i (rate, burst, en) }
  if i = 16 then putBrd d p { b with bucket := f b.bucket }
  else
    let d := putBrd d p b
    let x := getQ d p i
    showTokens (putQ d p i { x with bucket := f x.bucket }) p i
def shaperTick (d : Dev) (p at_ : Nat) : Dev :=
  if !timely d at_ || halted d || at_ / 8000 == (getBrd d p).lastShape then d
  else
    let d := (List.range 17).foldl (fun d i => tickShaper d p i) (advance d at_)
    putBrd d p { getBrd d p with forgive := [], lastShape := at_ / 8000 }
def execShaperTick (p : Fin 8) (at_ : Nat) (s : State) : Host.Outcome State Fault Refusal :=
  onDev (fun d => shaperTick d p.val at_) s

/-- The shaper whose rate register stands at an address: port and index. -/
def shaperAt (a : Nat) : Option (Nat × Nat) :=
  (List.range 8).findSome? fun p => (List.range 17).findSome? fun i => if (shapeRegs p i).1 == a then some (p, i) else none
/-- The port and index of a burst register. -/
def burstAt (a : Nat) : Option (Nat × Nat) :=
  (List.range 8).findSome? fun p => (List.range 17).findSome? fun i => if (shapeRegs p i).2 == a then some (p, i) else none
/-- A write to a shaper's registers: it takes effect at the next tick; forgive acts there too. -/
def writeShaper (d : Dev) (a : Nat) (v : Word) : Dev :=
  match shaperAt a with
  | some (p, i) =>
    let d := setReg d a (v &&& 0xBFFFFFFF)
    if bit v 30 then putBrd d p { getBrd d p with forgive := i :: (getBrd d p).forgive } else d
  | none => match burstAt a with
    | some _ => setReg d a (v &&& 0xFFFFFF)
    | none => d
def execShaperWrite (addr : Nat) (val : Word) (s : State) : Host.Outcome State Fault Refusal :=
  onDev (fun d => writeShaper d addr val) s

/-! ### Gate lists (R296, R298) -/

/-- The bank of the operating list. -/
def operBank (d : Dev) (p : Nat) : Nat := getF d (BRD p + 0x1C) 0 1
/-- Entries of a bank: interval and open mask. -/
def gclEntries (d : Dev) (p bank n : Nat) : List (Nat × Nat) :=
  (List.range n).map fun e =>
    ((reg d (BRD p + 0x800 + 0x200 * bank + 8 * e)).toNat, getF d (BRD p + 0x804 + 0x200 * bank + 8 * e) 0 16)
/-- A write to a bank: ignored for the operating bank, and for the admin bank while its list is pending. -/
def writeGcl (d : Dev) (p a : Nat) (v : Word) : Dev :=
  if (a - (BRD p + 0x800)) / 0x200 == operBank d p || (getBrd d p).pend.isSome then putB d (BRD p + 0x1C) 10 true
  else setReg d a (if a % 8 = 4 then v &&& 0xFFFF else v)
/-- A refused arm names the first failing entry, or 0xFF for the cycle. (DEDUCED, log entry 151.) -/
def armBad (d : Dev) (p bad : Nat) : Dev :=
  raiseOnce (putB d (BRD p + 0x1C) 8 true) (evBrd p 0 0x845 [] |> fun e =>
    { e with detail := [(1, p), (1, 1 - operBank d p), (1, bad)], key := 0 })
/-- The takeover time of a list armed at `t` (R298). -/
def takeoverTime (base cycle t : Nat) : Nat :=
  let x := ndiff base t
  if 0 ≤ x then t + x.toNat
  else if cycle = 0 then t
  else t + ceilDiv (-x).toNat cycle * cycle - (-x).toNat
/-- The pending list takes over (R298). -/
def gclTakeover (d : Dev) (p at_ : Nat) : Dev :=
  let b := getBrd d p
  match b.pend with
  | none => d
  | some (es, t) =>
    if !timely d at_ || at_ < t || halted d then d
    else
      let d := advance d at_
      let bank := 1 - operBank d p
      let d := putBrd d p { b with pend := none, oper := es, operBase := t, entry := 0 }
      let d := setF (putB (putB (putB d (BRD p + 0x1C) 1 false) (BRD p + 0x1C) 2 (!es.isEmpty)) (BRD p + 0x1C) 9 true)
        (BRD p + 0x1C) 0 1 bank
      let d := setReg (putB d (BRD p + 0x10) 8 false) (BRD p + 0x20) (wd (gclCycle es))
      raiseOnce d { evUnit ⟨10, 0xFF, p⟩ 0x844 0 [(1, p), (1, bank), (4, es.length), (6, t % 2 ^ 48)] with key := 0 }
/-- A write to BRD_GCL_CTRL; a list whose takeover time has come takes over before an arm (R298). (DEDUCED, log entry 151.) -/
def writeGclCtrl (d : Dev) (p : Nat) (v : Word) (t : Nat) : Dev :=
  let d := if bit v 8 then gclTakeover d p t else d
  let d := setF d (BRD p + 0x10) 0 7 (fld v 0 7)
  let n := fld v 0 7
  if !bit v 8 then d
  else if 64 < n then (let r := drawFree d 8
                       armBad r.2 p r.1.toNat)
  else
    let es := gclEntries d p (1 - operBank d p) n
    match (List.range n).find? fun i => decide ((nth es i (0, 0)).1 < 64) with
    | some i => armBad d p i
    | none =>
      if 2 ^ 32 ≤ gclCycle es then armBad d p 0xFF
      else
        let base := (reg d (BRD p + 0x14)).toNat + getF d (BRD p + 0x18) 0 16 * 2 ^ 32
        let d := putB (putB d (BRD p + 0x10) 8 true) (BRD p + 0x1C) 1 true
        putBrd d p { getBrd d p with pend := some (es, takeoverTime base (gclCycle es) t) }
def execGclArm (p : Fin 8) (val : Word) (at_ : Nat) (s : State) : Host.Outcome State Fault Refusal :=
  onDev (fun d => if timely d at_ then writeGclCtrl (advance d at_) p.val val at_ else d) s

def execGclTakeover (p : Fin 8) (at_ : Nat) (s : State) : Host.Outcome State Fault Refusal :=
  onDev (fun d => gclTakeover d p.val at_) s

/-- The next entry of the operating list begins (R296). -/
def gateEntry (d : Dev) (p at_ : Nat) : Dev :=
  let b := getBrd d p
  if b.oper.isEmpty || !timely d at_ || halted d then d
  else putBrd (advance d at_) p { b with entry := (entryAt b.oper (gatePos b (1000 * at_)) 0).1 }
def execGateEntry (p : Fin 8) (at_ : Nat) (s : State) : Host.Outcome State Fault Refusal :=
  onDev (fun d => gateEntry d p.val at_) s

/-! ### The boundary (R300, R301) -/

/-- Age drops, and the last stride's largest sojourns. -/
def brdBoundary (d : Dev) : Dev :=
  (List.range 8).foldl (fun d p => (List.range 16).foldl (fun d q =>
    let d := ageDropN (getQ d p q).frames.length d p q
    let x := getQ d p q
    putQ (setReg d (BRDQ p q + 0x20) (wd x.sojourn)) p q { x with sojourn := 0 }) d) d

/-! ### WATERMARK_CLEAR (R360, R301) -/

/-- The queue whose depth or delay status stands at an address: port, queue, and whether it is the delay's. -/
def brdStatAt (a : Nat) : Option (Nat × Nat × Bool) :=
  (List.range 8).findSome? fun p => (List.range 16).findSome? fun q =>
    if a == BRDQ p q + 0x18 then some (p, q, false) else if a == BRDQ p q + 0x28 then some (p, q, true) else none
/-- A write to a watermark status register. -/
def watermarkClear (d : Dev) (a : Nat) (v : Word) : Dev :=
  if !bit v 0 then d
  else match brdStatAt a with
    | some (p, q, false) => wmClear d a (a + 4) (qDepth d p q)
    | some (_, _, true) => wmClear d a (a + 4) 0
    | none =>
      match d.ldg.cur.findSome? fun x => match ledgMonitor x (fun _ => 0) with
        | some (_, stat, mx, _) => if stat == a then some (mx, ledgLevel x) else none
        | none => none with
      | some (mx, level) => wmClear d a mx level
      | none => d
def execWatermarkClear (addr : Nat) (val : Word) (s : State) : Host.Outcome State Fault Refusal :=
  onDev (fun d => watermarkClear d addr val) s

end Sys2Proof.Machine
end

