-- ==== Sys2Proof/Machine/EventsCmd.lean ====
section
/-! DEFINITION. The ledger audit (R361 to R363), DIAG (R365), the fatal latch (R359) and the dump of HALT-SAFE (R382). -/
namespace Sys2Proof.Machine

/-! ### Audit -/

/-- The quarter of a ledger's scope instance, `none` for scope device. -/
def ledgQuarter (l i : Nat) : Option Nat :=
  if l = 7 then some i else if l = 8 then some (i / 4) else if 16 ≤ l && budgetQuarter (l - 16) then some i else none
/-- What the live objects hold of budget `b` in scope `i`: the independent check (R361). -/
def bookedSum (d : Dev) (b i : Nat) : Nat :=
  (d.obj.objs.map fun o => ((o.books.filter fun x => x.b == b && x.inst == i).map Book.amt).sum).sum +
  (if b = 13 then (d.obj.sessions.filter fun s => !s.closed).length else 0) +
  (if b = 5 then ((d.sys.pools.filter fun p => p.1 / 4 == i).map fun p => p.2.1).sum else 0)
/-- A ledger passes the audit. -/
def ledgGood (d : Dev) (x : Ledg) : Bool := x.sound && (decide (x.l < 16) || x.inUse == bookedSum d (x.l - 16) x.inst)
/-- The ledger's scope is audited. -/
def audited (d : Dev) (x : Ledg) : Bool :=
  match ledgQuarter x.l x.inst with
  | none => true
  | some q => quarterUp d q
/-- The snapshot at the end of the boundary cycle (R362). (DEDUCED, log entry 38.) -/
def takeSnapshot (d : Dev) : Dev :=
  if halted d || d.sys.mode == .reset || d.sys.mode == .boot || d.sys.mode == .train then d
  else
    let old (x : Ledg) : Ledg := (d.ldg.snap.find? fun y => y.l == x.l && y.inst == x.inst).getD { x with cap := 0, inUse := 0, free := 0, transit := 0 }
    putB { d with ldg := { d.ldg with snap := d.ldg.cur.map fun x => if audited d x then x else old x
                                      breaks := (if d.ldg.auditing then d.ldg.breaks else []) ++ d.ldg.cur.filter fun x => audited d x && !ledgGood d x
                                      auditing := true } } LDG 0 true

/-- EV_LDG_BREAK and LDG_BREAK_INFO of one ledger break (R363). -/
def ledgBreak (d : Dev) (x : Ledg) : Dev :=
  let q := ledgQuarter x.l x.inst
  let d := if getB d (LDG + 0x30) 31 then d else setReg d (LDG + 0x30) (wd (x.l + 0x100 * x.inst + 0x80000000))
  raise d { code := 0xE00, cls := 3, scope := if q.isSome then 1 else 0, quarter := q.getD 0, index := x.l,
            detail := [(1, x.l), (1, x.inst), (4, x.cap), (4, x.inUse), (4, (BitVec.ofInt 32 x.free).toNat), (4, x.transit)] }

/-- The consequences of an audit's breaks (R363). (DEDUCED, log entry 38.) -/
def containBreaks (d : Dev) (bs : List Ledg) : Dev :=
  let qs := (bs.filterMap fun x => ledgQuarter x.l x.inst).eraseDups
  if bs.isEmpty then d
  else if bs.any fun x => (ledgQuarter x.l x.inst).isNone then enterHalt d 0xE00 2
  else if (candidates d).all qs.contains then enterHalt d 0xE00 1
  else qs.foldl (fun d q => fenceQuarter d q 1 0xE00) d

/-- The audit ends `us` µs after its boundary. -/
def auditDone (d : Dev) (us : Nat) : Dev :=
  if !d.ldg.auditing || halted d then d
  else
    let bs := d.ldg.breaks.filter (audited d)
    let d := putB { d with ldg := { d.ldg with auditing := false, breaks := [] } } LDG 0 false
    let d := maxReg (cnt d (LDG + 4) 1) (LDG + 8) (min us 0xFFFF)
    let d := if 50 < us then raise d (evDev 0xE01 1 [(4, us)]) else d
    containBreaks (bs.foldl ledgBreak d) bs

def execLedgerAuditDone (us : Nat) (s : State) : Host.Outcome State Fault Refusal := onDev (fun d => auditDone d us) s

/-! ### DIAG (R365) -/

def diagAct (d : Dev) (c : Cmd) : Except Fail Act := do
  let x := c.desc
  noHandle x
  checkFields x ([(8, decide (dByte x 8 ≤ 1))] ++
    (if dByte x 8 = 1 then [(9, d.ldg.cur.any fun l => l.l == dByte x 9 && l.inst == dByte x 10)] else []) ++
    zeros x 11 15 ++ zeros x 24 63)
  if dByte x 8 = 0 then .ok (.done (raise d (evDev 0x000 0 [(8, dNum x 16 8)])) [])
  else
    let l := (d.ldg.snap.find? fun l => l.l == dByte x 9 && l.inst == dByte x 10).getD ⟨0, 0, 0, 0, 0, 0⟩
    .ok (.done d (resBytes [(4, l.inUse), (4, (BitVec.ofInt 32 l.free).toNat), (4, l.transit)]))

def execDiag (fn : Fin 64) (ring : Fin 32) (s : State) : Host.Outcome State Fault Refusal :=
  onDev (runCmd 0x7F fn.val ring.val diagAct) s

/-! ### The fatal latch (R359) -/

/-- A write to EVT_STATUS of the PF: 1 in fatal empties the latch. (DEDUCED, log entry 37.) -/
def clearFatal (d : Dev) (val : Word) : Dev :=
  if bit val 0 then (List.range 8).foldl (fun d i => setReg d (evtBase 0 + 0x10 + 4 * i) 0) (putB d (evtBase 0) 0 false) else d

def execFatalLatchClear (val : Word) (s : State) : Host.Outcome State Fault Refusal := onDev (fun d => clearFatal d val) s

/-! ### The dump (R382) -/

/-- The word at a dump address, and whether it is uncorrectable: in HBM by what it holds, elsewhere by `ue`. (DESIGN CHOICE, log entry 206.) -/
def dumpWord (d : Dev) (ue : Bool) : Word × Bool :=
  let sram (bs : List Byte) : Word × Bool := if ue then (0xFFFFFFFF, true) else (wd (leNat bs), false)
  let hi := SYS + 0x24
  let a := (reg d (SYS + 0x20)).toNat + 2 ^ 32 * getF d hi 0 16
  let q := getF d hi 18 2
  let k := 64 * q + 8 * getF d hi 20 3 + getF d hi 23 3
  match getF d hi 16 2 with
  | 0 =>
    if hbmRegion d a == some 0 || hbmRegion d a == some 3 then
      (if (hbmBadUnit d a 4).isSome then (0xFFFFFFFF, true) else (wd (leNat (hbmBytes d a 4)), false))
    else (0, false)
  | 1 =>
    if q < d.variant.quarters && 0x1000000 ≤ a && a < 0x1000000 + 32 * bankSize then
      sram (padRead d q (a - 0x1000000) 4)
    else (0, false)
  | 2 =>
    if q < d.variant.quarters && coreTeam k < d.variant.teams && a < 0x20000 then sram (spRead (localMem d k) a 4)
    else (0, false)
  | _ => (0, false)

/-- A read of SYS_DUMP_DATA: the word and the device after it. -/
def dumpRead (d : Dev) (ue : Bool) : Word × Dev :=
  if !halted d then (0, d)
  else
    let w := dumpWord d ue
    let hi := SYS + 0x24
    let a := (reg d (SYS + 0x20)).toNat + 2 ^ 32 * getF d hi 0 16 + 4
    let d := setF (setReg d (SYS + 0x20) (wd a)) hi 0 16 (a / 2 ^ 32)
    (w.1, if w.2 then putB d hi 31 true else d)

def execDumpRead (ue : Bool) (s : State) : Host.Outcome State Fault Refusal :=
  onDev (fun d => emitOut (dumpRead d ue).2 (.readData 0 (SYS + 0x28) (dumpRead d ue).1)) s

end Sys2Proof.Machine
end

