-- ==== Sys2Proof/Machine/Hbm.lean ====
section
/-! DEFINITION. The HBM controllers: scheduling and pages (R326, R327), refresh and neighbour refresh (R328, R329), scrubbing
(R331), drift tracking (R335) and retrain windows (R336). -/
namespace Sys2Proof.Machine

/-! ### Pseudo-channels -/

/-- A pseudo-channel scheduler; its LFSR starts from MEM_NBR_SEED. -/
def getPc (d : Dev) (h pc : Nat) : HbmPc :=
  (d.mem.pcs.find? fun x => x.h == h && x.pc == pc).getD { h := h, pc := pc, lfsr := reg d (MEM + 8) }
def putPc (d : Dev) (x : HbmPc) : Dev :=
  { d with mem := { d.mem with pcs := x :: d.mem.pcs.filter fun y => !(y.h == x.h && y.pc == x.pc) } }
def getHBank (x : HbmPc) (b : Nat) : HbmBank := (x.banks.find? fun y => y.bank == b).getD { bank := b }
def putHBank (x : HbmPc) (b : HbmBank) : HbmPc := { x with banks := b :: x.banks.filter fun y => y.bank != b.bank }
/-- The controllers run, and the stack serves: not in self-refresh, its channel's drift tracking done (R335, R343). -/
def hbmServes (d : Dev) (h pc : Nat) : Bool :=
  getF d MEM 0 3 == 2 && decide (h < d.variant.stacks) && !d.mem.selfRefresh && !d.mem.driftOwed.contains (h, pc / 2)

/-- A step of the LFSR with polynomial x^32 + x^22 + x^2 + x + 1 (R329). (DESIGN CHOICE, log entry 157.) -/
def lfsrStep (l : Word) : Word :=
  if Config.lfsrGalois then (if bit l 31 then (l <<< 1) ^^^ 0x400007 else l <<< 1)
  else (l <<< 1) ||| (if (bit l 31 ^^ bit l 21 ^^ bit l 1 ^^ bit l 0) then 1 else 0)

/-! ### Arrivals -/

/-- The regions that a requester reaches (R324, table HBM regions): 0 FW, 1 TABLE, 2 RTX, 3 SURFACE. -/
def askRegions (a : HbmAsk) : List Nat :=
  if a.groom then [0]
  else match a.unit.cls with
    | 2 | 3 | 4 => [3]
    | 6 => [0, 3]
    | 7 => [1]
    | 9 => [1, 2]
    | _ => []
/-- A request that R320 or R324 refuses: an uncorrectable read or a discarded write. -/
def refuseAsk (d : Dev) (a : HbmAsk) : Dev :=
  let d := hbmUnmapped { d with mem := { d.mem with nextReq := d.mem.nextReq + 1 } } a.unit a.addr
  if a.write then d else { d with mem := { d.mem with answers := d.mem.answers ++ [(d.mem.nextReq - 1, [], true)] } }
/-- A request enters its queue where there is room: 64 reads, 32 writes. -/
def enterAsk (d : Dev) (h pc : Nat) (a : HbmAsk) : Dev :=
  match hbmRegion d a.addr with
  | none => refuseAsk d a
  | some r =>
    if !(askRegions a).contains r then refuseAsk d a
    else
      let p := hbmPlace d a.addr
      let x := getPc d h pc
      let room := 64 - a.addr % 64
      if p.h != h || p.pc != pc || decide ((if a.write then 32 else 64) ≤ (if a.write then x.writes else x.reads).length) then d
      else
        let q : HbmReq := { id := d.mem.nextReq, unit := a.unit, write := a.write, live := a.live, addr := a.addr,
                            bytes := a.bytes.take room, len := min a.len room, err := a.err.val }
        let d := { d with mem := { d.mem with nextReq := d.mem.nextReq + 1 } }
        if a.write then putPc d { x with writes := x.writes ++ [q], drain := x.drain || decide (24 ≤ x.writes.length + 1) }
        else putPc d { x with reads := x.reads ++ [q] }

/-! ### The choice (R326) -/

def reqRow (d : Dev) (r : HbmReq) : Nat := (hbmPlace d r.addr).row
def reqBank (d : Dev) (r : HbmReq) : Nat := (hbmPlace d r.addr).bank
def rowHit (d : Dev) (x : HbmPc) (r : HbmReq) : Bool := (getHBank x (reqBank d r)).openRow == some (reqRow d r)
/-- An older request to the unit that must come first: any from the same requester; for a write, any. -/
def mustWait (x : HbmPc) (r : HbmReq) : Bool :=
  (x.reads ++ x.writes).any fun o => decide (o.id < r.id) && o.addr / 64 == r.addr / 64 && (r.write || o.unit == r.unit)
def oldest : List HbmReq → Option HbmReq
  | [] => none
  | r :: rs => match oldest rs with
    | none => some r
    | some o => if o.id < r.id then some o else some r
/-- The request served at a command slot. (DEDUCED, log entry 158.) -/
def pickReq (d : Dev) (x : HbmPc) : Option HbmReq :=
  let rs := x.reads.filter fun r => !mustWait x r
  let ws := x.writes.filter fun r => !mustWait x r
  let limit := getF d (MEM + 4) 16 8 * 16
  let wr := x.drain || x.reads.isEmpty
  let first := if wr then ws else rs
  let second := if wr then rs else ws
  let hits (l : List HbmReq) (live : Bool) : Option HbmReq := oldest (l.filter fun r => rowHit d x r && r.live == live)
  (oldest (rs.filter fun r => decide (limit ≤ r.age))).orElse fun _ =>
  (hits first true).orElse fun _ => (hits first false).orElse fun _ =>
  (hits second true).orElse fun _ => (hits second false).orElse fun _ =>
  if wr then (oldest ws).orElse fun _ => oldest rs else oldest (rs ++ ws)

/-! ### Serving -/

/-- Activation of a row: the LFSR steps, and may call for neighbour refreshes (R329). -/
def activate (d : Dev) (x : HbmPc) (b : HbmBank) (row : Nat) : Dev × HbmPc × HbmBank :=
  let l := lfsrStep x.lfsr
  let k := getF d (MEM + 4) 4 5
  let b := { b with openRow := some row, lastRow := some row }
  if l.toNat % 2 ^ k = 0 then
    let two : List Int := if getB d (MEM + 4) 9 then [-2, 2] else []
    let ns := (([-1, 1] ++ two).map fun o => (row : Int) + o).filter fun r => decide (0 ≤ r) && decide (r < 16384)
    (cnt d (MEM + 0x108) 1, { x with lfsr := l }, { b with nbr := b.nbr ++ ns.map Int.toNat })
  else (d, { x with lfsr := l }, b)

/-- A read's data: older writes to its unit that still wait are seen in order. -/
def seenBytes (d : Dev) (x : HbmPc) (r : HbmReq) : List Byte :=
  let ws := x.writes.filter fun w => decide (w.id < r.id) && w.addr / 64 == r.addr / 64
  spRead (ws.foldl (fun m w => spWrite m w.addr w.bytes) d.mem.hbm) r.addr r.len

/-- Perform the access: a read answers, poisoned where its unit is uncorrectable; a part write is a read-modify-write
(R326, R330). -/
def access (d : Dev) (x : HbmPc) (r : HbmReq) : Dev :=
  let u := r.addr / 64
  let whole := r.write && r.bytes.length == 64
  let bad := !whole && (r.err == 2 || d.mem.hbmBad.contains u)
  let d := if bad then
      hbmUe (if d.mem.hbmBad.contains u then d else { d with mem := { d.mem with hbmBad := u :: d.mem.hbmBad } }) u 0
    else if !whole && r.err == 1 then hbmCe d u else d
  if r.write then hbmPut d r.addr r.bytes
  else { d with mem := { d.mem with answers := d.mem.answers ++ [(r.id, seenBytes d x r, bad)] } }

/-- The page policy after an access (R327). -/
def pageAfter (d : Dev) (x : HbmPc) (b : HbmBank) (row : Nat) : HbmBank :=
  let more := (x.reads ++ x.writes).any fun r => reqBank d r == b.bank && reqRow d r == row
  match getF d (MEM + 4) 0 2 with
  | 1 => b
  | 2 => { b with openRow := none }
  | _ => if more || 2 ≤ b.ctr then b else { b with openRow := none }

/-- Serve one request. -/
def serveReq (d : Dev) (x : HbmPc) (r : HbmReq) : Dev :=
  let bk := reqBank d r
  let row := reqRow d r
  let b := getHBank x bk
  let same := b.lastRow == some row
  let b := { b with ctr := if same then min 3 (b.ctr + 1) else b.ctr - 1 }
  let act := if b.openRow == some row then (d, x, b) else activate d x b row
  let d := access act.1 x r
  let x := act.2.1
  let x := { x with reads := x.reads.filter fun q => q.id != r.id, writes := x.writes.filter fun q => q.id != r.id }
  let x := { x with drain := x.drain && decide (8 < x.writes.length) }
  putPc d (putHBank x (pageAfter d x act.2.2 row))

/-- A due refresh, of a bank or of neighbour rows: the bank's page closes. -/
def refreshStep (x : HbmPc) : Option HbmPc :=
  match x.banks.find? fun b => b.refreshDue with
  | some b => some (putHBank x { b with refreshDue := false, openRow := none })
  | none => (x.banks.find? fun b => !b.nbr.isEmpty).map fun b => putHBank x { b with nbr := [], openRow := none }

/-- A command slot: the requests that have arrived enter, those waiting age, and one step is chosen. (DEDUCED, log entry 158.) -/
def commandSlot (d : Dev) (h pc : Nat) (arrivals : List HbmAsk) (cycles : Nat) : Dev :=
  if getF d MEM 0 3 != 2 || h ≥ d.variant.stacks then d
  else
    let x := getPc d h pc
    let d := putPc d { x with reads := x.reads.map fun r => { r with age := r.age + cycles } }
    let d := if halted d then d else arrivals.foldl (fun d a => enterAsk d h pc a) d
    if !hbmServes d h pc then d
    else
      let x := getPc d h pc
      match refreshStep x with
      | some y => putPc d y
      | none => if halted d then d else match pickReq d x with
        | none => d
        | some r => serveReq d x r

def execHbmCommandSlot (h : Fin 4) (pc : Fin 32) (arrivals : List HbmAsk) (cycles : Nat) (s : State) :
    Host.Outcome State Fault Refusal :=
  onDev (fun d => commandSlot d h.val pc.val arrivals cycles) s

/-- A bank refresh falls due (R328). -/
def execHbmRefresh (h : Fin 4) (pc : Fin 32) (bank : Fin 48) (s : State) : Host.Outcome State Fault Refusal :=
  onDev (fun d =>
    if getF d MEM 0 3 != 2 || h.val ≥ d.variant.stacks then d
    else
      let x := getPc d h.val pc.val
      putPc d (putHBank x { getHBank x bank.val with refreshDue := true })) s

/-! ### Scrub, drift tracking, retraining -/

/-- The group's retrain window runs. -/
def retraining (d : Dev) (h c : Nat) : Bool := d.mem.retrains.any fun r => r.h == h && r.c == c && r.running
/-- The patrol scrub of one unit (R331): clean (0), correctable (1) or uncorrectable (2). -/
def scrub (d : Dev) (a result : Nat) : Dev :=
  let p := hbmPlace d a
  let u := a / 64
  if !getB d (MEM + 4) 24 || getF d MEM 0 3 != 2 || d.mem.selfRefresh || halted d || hbmSize d.variant ≤ a || retraining d p.h p.c then d
  else if result = 2 || d.mem.hbmBad.contains u then
    hbmUe (if d.mem.hbmBad.contains u then d else { d with mem := { d.mem with hbmBad := u :: d.mem.hbmBad } }) u 1
  else if result = 1 then cnt (hbmCe d u) (MEM + 0x110) 1
  else d
def execScrub (addr : Nat) (result : Fin 3) (s : State) : Host.Outcome State Fault Refusal :=
  onDev (fun d => scrub d addr result.val) s

/-- Drift tracking of a channel (R335): what leaving STANDBY waits for. (DEDUCED, log entry 52.) -/
def execDriftTracking (h : Fin 4) (ch : Fin 16) (s : State) : Host.Outcome State Fault Refusal :=
  onDev (fun d => progressChanges
    { d with mem := { d.mem with driftOwed := d.mem.driftOwed.filter (· != (h.val, ch.val)) } }) s

/-- A group's count reaches MEM_CE_THRESH (R336): the event, and a window unless one ended within 1,200 strides. -/
def ceThresh (d : Dev) (h c : Nat) : Dev :=
  let n := getF d (MEM + 0x400 + 0x40 * h + 4 * c) 0 16
  if n < getF d (MEM + 0x10) 0 16 || d.mem.ceRaised.contains (h, c) || h ≥ d.variant.stacks || getF d MEM 0 3 != 2 then d
  else
    let d := raise { d with mem := { d.mem with ceRaised := (h, c) :: d.mem.ceRaised } } (evDev 0xC00 1 [(1, h), (1, c), (2, n)])
    let recent := d.mem.lastRetrain.any fun e => e.1 == h && e.2.1 == c && decide (d.tim.stride < e.2.2 + 1200)
    if recent || d.mem.retrains.any fun r => r.h == h && r.c == c then d
    else { d with mem := { d.mem with retrains := d.mem.retrains ++ [{ h := h, c := c }] } }
def execCeThresh (h : Fin 4) (ch : Fin 16) (s : State) : Host.Outcome State Fault Refusal :=
  onDev (fun d => ceThresh d h.val ch.val) s

/-- A step of a running window; the sixteenth ends it. -/
def retrainStep (d : Dev) (h c : Nat) : Dev :=
  match d.mem.retrains.find? fun r => r.h == h && r.c == c && r.running with
  | none => d
  | some r =>
    let rest := d.mem.retrains.filter fun x => !(x.h == h && x.c == c)
    if r.steps + 1 < 16 then { d with mem := { d.mem with retrains := { r with steps := r.steps + 1 } :: rest } }
    else
      let d := { d with mem :=
        { d.mem with
          retrains := rest
          lastRetrain := (h, c, d.tim.stride) :: d.mem.lastRetrain.filter fun e => !(e.1 == h && e.2.1 == c) } }
      let a := MEM + 0x200 + 4 * h
      raise (setF (putB d a 9 false) a 12 4 0) (evDev 0xC01 0 [(1, h), (1, c), (1, 1)])
def execRetrainStep (h : Fin 4) (ch : Fin 16) (s : State) : Host.Outcome State Fault Refusal :=
  onDev (fun d => retrainStep d h.val ch.val) s

/-! ### At the stride boundary -/

/-- Windows that wait start where no other of their stack runs. -/
def startWindows (d : Dev) : Dev :=
  d.mem.retrains.foldl (fun d r =>
    if r.running || d.mem.retrains.any fun x => x.h == r.h && x.running then d
    else
      let d := { d with mem := { d.mem with retrains := d.mem.retrains.map fun x =>
        if x.h == r.h && x.c == r.c then { x with running := true } else x } }
      let a := MEM + 0x200 + 4 * r.h
      raise (cnt (setF (putB d a 9 true) a 12 4 r.c) (MEM + 0x10C) 1) (evDev 0xC01 0 [(1, r.h), (1, r.c), (1, 0)])) d
/-- Every 1,200 strides the groups' counts start anew. -/
def cePeriod (d : Dev) : Dev :=
  if d.tim.stride < d.mem.periodStart + 1200 then d
  else
    let d := { d with mem := { d.mem with periodStart := d.tim.stride, ceRaised := [] } }
    (List.range 64).foldl (fun d i =>
      let a := MEM + 0x400 + 0x40 * (i / 16) + 4 * (i % 16)
      setReg d a (wd (getF d a 0 16 * 2 ^ 16))) d
/-- A stack's temperature reading (R328). -/
def stackTemp (d : Dev) (h : Nat) (t : Int) : Dev :=
  let a := MEM + 0x200 + 4 * h
  let d := setF d a 0 8 (BitVec.ofInt 8 t).toNat
  let hot := getB d a 8
  if 85 ≤ t then
    let d := { d with mem := { d.mem with cooling := d.mem.cooling.filter (· != h) } }
    if hot then d else raise (putB d a 8 true) (evDev 0xC04 1 [(1, h), (1, (BitVec.ofInt 8 t).toNat), (1, 1)])
  else if hot && decide (t < 82) && !d.mem.cooling.contains h then
    { d with mem := { d.mem with cooling := h :: d.mem.cooling } }
  else d
/-- Stacks that read below 82 °C in the stride before return to the normal rate. -/
def coolStacks (d : Dev) : Dev :=
  d.mem.cooling.foldl (fun d h =>
    let a := MEM + 0x200 + 4 * h
    raise (putB d a 8 false) (evDev 0xC04 1 [(1, h), (1, getF d a 0 8), (1, 0)]))
    { d with mem := { d.mem with cooling := [] } }
/-- The controllers' part of a boundary. -/
def hbmBoundary (d : Dev) (temps : List Int) : Dev :=
  if getF d MEM 0 3 != 2 then settleExtents d
  else
    let d := coolStacks d
    let d := (List.range (min temps.length d.variant.stacks)).foldl (fun d h => stackTemp d h (nth temps h 0)) d
    settleExtents (startWindows (cePeriod d))

end Sys2Proof.Machine
end

