-- ==== Sys2Proof/Machine/HostRings.lean ====
section
/-! DEFINITION. The host interface's own steps: negotiation, rings, doorbells and acceptance (R48, R54 to R69). -/
namespace Sys2Proof.Machine

/-! ### Feature negotiation (R54, R55) -/

/-- HIF_DEV_FEAT[i] as function `fn` reads it: a VF's follows the PF's locked vector. -/
def devFeat (d : Dev) (fn i : Nat) : Word :=
  if fn = 0 then reg d (0x10 + 4 * i)
  else if locked d 0 then reg d (0x30 + 4 * i) &&& reg d (0x2000 + 0x20 * (fn - 1) + 4 * i)
  else 0

/-- A write to HIF_DRV_FEAT[i]. -/
def writeFeature (d : Dev) (fn i : Nat) (v : Word) : Dev :=
  if locked d fn then d else setReg d (viewBase fn + 0x30 + 4 * i) (v &&& devFeat d fn i)

/-- A write to HIF_FEAT_LOCK: lock is set and never cleared by a write; a VF's waits for the PF's. -/
def writeLock (d : Dev) (fn : Nat) (v : Word) : Dev :=
  if bit v 0 && (fn == 0 || locked d 0) then putB d (viewBase fn + 0x50) 0 true else d

def execFeatureWrite (fn : Fin 64) (i : Fin 8) (val : Word) (s : State) : Host.Outcome State Fault Refusal :=
  onDev (fun d => writeFeature d fn.val i.val val) s

def execFeatureLock (fn : Fin 64) (val : Word) (s : State) : Host.Outcome State Fault Refusal :=
  onDev (fun d => writeLock d fn.val val) s

/-! ### Ring registers (R57, R69) -/

def ringIdle (d : Dev) (fn r : Nat) : Bool := getB d (ringReg fn r 0x14) 0

/-- A ring's size and binding are legal (table HIF_RING_CFG[r]). (DEDUCED, log entry 29.) -/
def ringLegal (r : Nat) (cfg : Word) : Bool :=
  decide (6 ≤ fld cfg 4 4) &&
  (if r < 32 then decide (32 ≤ fld cfg 8 8) && decide (fld cfg 8 8 ≤ 47) else decide (fld cfg 8 8 ≤ 31))

/-- The ring stops: descriptors fetched and not accepted are left. -/
def stopRing (d : Dev) (fn r : Nat) : Dev :=
  putRing (putB d (ringReg fn r 8) 0 false) { getRing d fn r with fetched := [] }

/-- A write to a ring's base or epoch register: ignored while the ring is not idle (R69). -/
def writeRingWord (d : Dev) (fn r o : Nat) (msk v : Word) : Dev :=
  let a := ringReg fn r o
  if v &&& msk == reg d a then d
  else if ringIdle d fn r then setReg d a (v &&& msk)
  else ringFlag d fn r 2

/-- A write to HIF_RING_CFG[r]: while the ring is not idle only enable changes; an illegal size or binding leaves enable
at 0 (R69). (DEDUCED, log entry 29; DEDUCED, log entry 167.) -/
def writeRingCfg (d : Dev) (fn r : Nat) (v : Word) : Dev :=
  let a := ringReg fn r 8
  let old := reg d a
  let new := v &&& 0xFFF6
  let d := if new == old &&& 0xFFF6 then d
    else if ringIdle d fn r then setReg d a (new ||| (old &&& 1))
    else ringFlag d fn r 2
  if bit v 0 then
    if bit old 0 then d
    else if ringLegal r (reg d a) then
      let d := putB d a 0 true
      let d := setReg d (ringReg fn r 0x10) 0
      let d := setF d (ringReg fn r 0x14) 16 16 0
      let d := putB d (ringReg fn r 0x14) 0 false
      putRing d { getRing d fn r with fetched := [], consumer := 0, lostPend := 0 }
    else ringFlag d fn r 3
  else if bit old 0 then stopRing d fn r
  else d

def execRingEnable (fn : Fin 64) (r : Fin 52) (cfg : Word) (s : State) : Host.Outcome State Fault Refusal :=
  onDev (fun d => writeRingCfg d fn.val r.val (cfg ||| 1)) s

def execRingDisable (fn : Fin 64) (r : Fin 52) (cfg : Word) (s : State) : Host.Outcome State Fault Refusal :=
  onDev (fun d => writeRingCfg d fn.val r.val (cfg &&& 0xFFFFFFFE)) s

/-- A disabled ring with nothing outstanding reports idle (table HIF_RING_STATUS[r], R62). (DEDUCED, log entry 167.) -/
def idleRing (d : Dev) (fn r : Nat) : Dev :=
  let quiet :=
    if r < 32 then !d.hif.accepted.any fun c => c.fn == fn && c.ring == r
    else (getRing d fn r).reserved == 0
  if ringEnabled d fn r || !quiet then d else ringFlag d fn r 0

def execRingIdle (fn : Fin 64) (r : Fin 52) (s : State) : Host.Outcome State Fault Refusal :=
  onDev (fun d => idleRing d fn.val r.val) s

/-! ### Doorbells (R58 to R60) -/

/-- A ring faults (R60): it stops, and a completion ring's reservations lose their entries (R62). -/
def faultRing (d : Dev) (fn r : Nat) (index : Word) : Dev :=
  let head := ringHead d fn r
  let d := ringFlag (stopRing d fn r) fn r 1
  let d := { d with hif := { d.hif with accepted := d.hif.accepted.map fun (c : Cmd) =>
    if c.fn == fn && c.cq == r then { c with lostCq := true } else c } }
  raise d (evFn fn 0x100 2 [(1, fn), (1, r), (4, head.toNat), (4, index.toNat)])

/-- One ring's part of a page read: its doorbell word, and what fetching its pending descriptors returns. (DEDUCED, log entry 30.) -/
def doorbell (d : Dev) (fn r : Nat) (w : Quad) (fetch : Option RingRead) : Dev :=
  let index := wd w.toNat
  let epoch := w.toNat / 2 ^ 32 % 2 ^ 16
  if !w.toNat.testBit 63 then d
  else if epoch != fld (reg d (ringReg fn r 0xC)) 0 16 then
    raise (ringFlag d fn r 4) (evFn fn 0x101 0 [(1, fn), (1, r), (2, epoch)])
  else if !ringEnabled d fn r then d
  else if r < 32 then
    let pending := (index - ringHead d fn r).toNat
    if ringSize d fn r < pending then faultRing d fn r index
    else if pending = 0 then d
    else match fetch with
      | none => d
      | some .fail => faultRing d fn r index
      | some (.ok ds) =>
        let ds := ds.take pending
        let x := getRing d fn r
        ringAdvance (putRing d { x with fetched := x.fetched ++ ds }) fn r ds.length
  else if ringSize d fn r < (ringHead d fn r - index).toNat then faultRing d fn r index
  else
    let d := putRing d { getRing d fn r with consumer := index }
    if 48 ≤ r then eqOverflow d fn r else d

/-- The functions whose page is read in the stride that begins (R59). -/
def pagesDue (d : Dev) : Dev := { d with hif := { d.hif with pageDue := (List.range 64).filter (locked d) } }
/-- A read of a function's doorbell page: once per stride and after a nudge, a locked function's, in a mode that fetches, outside
an FLR (R59). (DEDUCED, log entry 30.) -/
def fetchPage (d : Dev) (fn : Nat) (page : PageRead) : Dev :=
  if !locked d fn || inFlr d fn || !d.sys.mode.fetches || !(d.hif.pageDue.contains fn || d.hif.nudged.contains fn) then d
  else
    let d := { d with hif := { d.hif with nudged := d.hif.nudged.filter (· != fn), pageDue := d.hif.pageDue.filter (· != fn) } }
    (List.range 52).foldl
      (fun d r => doorbell d fn r (nth page.words r 0) ((page.fetch.find? fun f => f.1 == r).map Prod.snd)) d

def execDoorbellFetch (fn : Fin 64) (page : PageRead) (s : State) : Host.Outcome State Fault Refusal :=
  onDev (fun d => fetchPage d fn.val page) s

/-- A write of any value to HIF_NUDGE: the function's page is due to be read. -/
def nudge (d : Dev) (fn : Nat) : Dev :=
  if d.hif.nudged.contains fn then d else { d with hif := { d.hif with nudged := d.hif.nudged ++ [fn] } }

def execHifNudge (fn : Fin 64) (_val : Word) (s : State) : Host.Outcome State Fault Refusal :=
  onDev (fun d => nudge d fn.val) s

/-! ### Acceptance (R62, R67) -/

/-- The submission ring has a fetched descriptor, and its completion ring an entry to reserve. -/
def canAccept (d : Dev) (fn r : Nat) : Bool :=
  let q := ringBind d fn r
  !(getRing d fn r).fetched.isEmpty && ringEnabled d fn r && ringEnabled d fn q &&
  decide ((getRing d fn q).reserved < ringFree d fn q) && locked d fn && !inFlr d fn && d.sys.mode.fetches

/-- The entry of a list that follows `last` in rotation. -/
def nextAfter (last : Nat) (l : List Nat) : Option Nat :=
  match l.find? fun x => decide (last < x) with
  | some x => some x
  | none => l.head?

/-- Submission rings of an arbitration class (0 high, 1 normal) of a function that take part. -/
def classRings (d : Dev) (cls fn : Nat) : List Nat :=
  (List.range 32).filter fun r => canAccept d fn r && bit (ringCfg d fn r) 1 == (cls == 0)
/-- The last ring that a class served of a function; the turn starts at ring 0. -/
def lastRing (d : Dev) (cls fn : Nat) : Nat :=
  match d.hif.rrRing.find? fun x => x.1 == cls && x.2.1 == fn with
  | some x => x.2.2
  | none => 31
/-- The next ring in turn: class, function, ring. -/
def arbitrate (d : Dev) : Option (Nat × Nat × Nat) :=
  [0, 1].findSome? fun cls =>
    match nextAfter (nth d.hif.rrFn cls 63) ((List.range 64).filter fun fn => !(classRings d cls fn).isEmpty) with
    | none => none
    | some fn => (nextAfter (lastRing d cls fn) (classRings d cls fn)).map fun r => (cls, fn, r)

/-- Accept the next descriptor with its reservation, and settle what completes at once (R71). -/
def acceptOne (d : Dev) : Dev :=
  match arbitrate d with
  | none => d
  | some (cls, fn, r) =>
    let x := getRing d fn r
    match x.fetched with
    | [] => d
    | desc :: rest =>
      let q := ringBind d fn r
      let d := putRing d { x with fetched := rest }
      let y := getRing d fn q
      let d := putRing d { y with reserved := y.reserved + 1 }
      let c : Cmd :=
        { id := d.hif.nextId, fn := fn, ring := r, cq := q, desc := desc,
          n1 := if dOpcode desc = 0x20 then getF d (SEC + 0x100 + 4 * fn) 0 16 else 0 }
      settle { d with hif :=
        { d.hif with
          accepted := d.hif.accepted ++ [c]
          nextId := d.hif.nextId + 1
          rrFn := d.hif.rrFn.set cls fn
          rrRing := (cls, fn, r) :: d.hif.rrRing.filter fun x => !(x.1 == cls && x.2.1 == fn) } }

def execDescriptorAccept (s : State) : Host.Outcome State Fault Refusal := onDev acceptOne s

/-! ### The link (R48) -/

/-- A change of the PCI Express link's rate or width. (DESIGN CHOICE, log entry 177.) -/
def linkChange (d : Dev) (rate width : Nat) : Dev :=
  if getF d 0 0 4 == rate && getF d 0 4 5 == width then d
  else raise (setF (setF d 0 0 4 rate) 0 4 5 width) (evDev 0x106 0 [(1, rate), (1, width)])

def execLinkChange (rate : Fin 6) (width : Fin 17) (s : State) : Host.Outcome State Fault Refusal :=
  onDev (fun d => linkChange d rate.val width.val) s

end Sys2Proof.Machine
end

