-- ==== Sys2Proof/Machine/Boundary.lean ====
section
/-! DEFINITION. STRIDE_BOUNDARY (R24 to R31, R36, R101): the stride count advances, and every unit does what it does at a
boundary. -/
namespace Sys2Proof.Machine

/-- The stride that the boundary begins (R25, R27): the next, or, after a forward step across a boundary, that of the clock. (DEDUCED, log entry 17.) -/
def newStride (d : Dev) : Nat :=
  if strideStart (d.tim.stride + 1) ≤ d.tim.clock then max (d.tim.stride + 1) (strideAt d.tim.clock) else d.tim.stride + 1
/-- The time base at the boundary: the count, the clock at the stride's start or beyond it, the strides passed over. (DEDUCED, log entry 17.) -/
def beginStride (d : Dev) (stepped : Bool) (n : Nat) : Dev :=
  let skipped := n - d.tim.stride - 1
  let d := putB (advance { d with tim := { d.tim with stride := n } } (strideStart n)) (TIM + 0x100) 2 false
  if stepped then satF (putB d (TIM + 0x100) 1 true) (TIM + 0x110) 0 32 skipped else d
/-- MODE_SETs accepted in the stride fall due (R374); TRAIN ends at the boundary after its last step (R375). -/
def modeBoundary (d : Dev) : Dev :=
  let due := d.sys.modeCmds.map fun id => (id, d.tim.stride % 2 ^ 32)
  let d := { d with sys := { d.sys with modeCmds := [], modeDue := d.sys.modeDue ++ due } }
  if d.sys.mode == .train && d.sys.trainDone && !halted d then
    setMode { d with sys := { d.sys with trainDone := false } } .configure 3
  else d
/-- EV_TCK_LOADED at the first boundary after the PF's lock (R387). -/
def reportTack (d : Dev) : Dev :=
  if d.sys.tckEvent && locked d 0 then
    raise { d with sys := { d.sys with tckEvent := false } }
      (evDev 0xE50 0 [(1, getF d TCK 0 2), (4, (reg d (TCK + 4)).toNat), (1, getF d TCK 2 1)])
  else d
/-- Layouts latch at their phase, and encode streams start their pictures (R241, R255, R261). -/
def phaseBoundary (d : Dev) : Dev :=
  if halted d then d
  else
    let d := (d.vid.layouts.map Layout.handle).foldl phaseLatch d
    (d.vid.encs.map EncS.handle).foldl encPhase d
/-- Firmware builds the cards of the frames whose phase is the next stride. -/
def buildBoundary (d : Dev) : Dev :=
  if halted d then d
  else
    let d := (d.vid.layouts.map Layout.handle).foldl buildFrame d
    (d.vid.encs.map EncS.handle).foldl buildEnc d
/-- What the units do at a boundary, after the Dealer's steps. -/
def unitBoundary (env : BoundaryEnv) (d : Dev) : Dev :=
  let d := dropClosed (freeErased (hbmBoundary (sweepArenas d) env.temps))
  let d := if halted d then d else
    craftAfter (audioBoundary env (craftBefore env (fwdBoundary d)))
  buildBoundary d
/-- The whole boundary. -/
def strideBoundary (d : Dev) (env : BoundaryEnv) : Dev :=
  if !d.tim.running then d
  else
    let old := strideW d
    let n := newStride d
    let stepped := decide (strideStart (d.tim.stride + 1) ≤ d.tim.clock)
    let skipped := n - d.tim.stride - 1
    let d := beginStride (holdStride (flushOnce d)) stepped n
    let d := strideEdges { d with regsB := d.regs } skipped
    let d := reportTack (modeBoundary (setDecodeCap (pagesDue d)))
    let d := if halted d then d else pkeBoundary (brdBoundary (retrainPorts d))
    let d := if halted d then d else dealerBoundary (phaseBoundary d) old
    takeSnapshot (unitBoundary env (settleLedgers d))
/-- After a forward step that took the clock to the start of a later stride or beyond it, the boundary follows in the same command
(R27). -/
def landStep (env : BoundaryEnv) (d : Dev) : Dev :=
  if d.tim.running && decide (strideStart (d.tim.stride + 1) ≤ d.tim.clock) then strideBoundary d env else d
def execStepApply (val : Word) (env : BoundaryEnv) (s : State) : Host.Outcome State Fault Refusal :=
  onDev (fun d => landStep env (writeStepCtrl d (val ||| 1))) s
def execStepForce (val : Word) (env : BoundaryEnv) (s : State) : Host.Outcome State Fault Refusal :=
  onDev (fun d => landStep env (writeStepCtrl d (val ||| 2))) s
def execStrideBoundary (env : BoundaryEnv) (s : State) : Host.Outcome State Fault Refusal := onDev (fun d => strideBoundary d env) s

end Sys2Proof.Machine
end

