-- ==== Sys2Proof/Machine/CoreAlu.lean ====
section
/-! DEFINITION. Multiply-accumulate, vector and scalar arithmetic of a media core (R106, R107, R114 to R118). -/
namespace Sys2Proof.Machine

/-- Lane products of two d registers. -/
def products (half : Bool) (a b : BitVec 256) : List Int :=
  List.zipWith (· * ·) (lanes (dw half) (dn half) a) (lanes (dw half) (dn half) b)
/-- A result that accumulates lanes onto xN at the end of the next bundle, or replaces it where the lanes are cleared
first. -/
def accRes (half clear : Bool) (x : Nat) (ls : List Int) : CPend :=
  { left := 1, dst := .x x, val := BitVec.ofNat 640 (packLanes (xw half) ls), acc := !clear, lane := xw half }

/-- mac and msu, with .z (R114). -/
def macInstr (sub clear half : Bool) (n : Fin 8) (s1 s2 : Fin 32) (d : Dev) (x : Core) : IRes :=
  let ps := products half (rdD x s1) (rdD x s2)
  .ok d [.write 2 (accRes half clear n.val (if sub then ps.map (- ·) else ps))]

def execMac (i : Issue) (sub clear half : Bool) (x : Fin 8) (s1 s2 : Fin 32) (s : State) :
    Host.Outcome State Fault Refusal :=
  onDev (fun d => issue d i (macInstr sub clear half x s1 s2)) s

/-- tapm (R117): the lanes of dS times tap k of dC accumulate, and the pair dS, dT shifts one lane. With dS and dT the same
register the spec states no shifted value: a free value (Config.freeValue). A tap beyond the lanes is an undefined bundle. (DEDUCED, log
entry 196.) -/
def tapmInstr (clear half : Bool) (n : Fin 8) (dS dT dC : Fin 32) (k : Fin 16) (d : Dev) (x : Core) : IRes :=
  if opset d x.id ≠ 0 then .fault F_ILLEGAL 0
  else if dn half ≤ k.val then .fault F_ILLEGAL 0
  else
    let w := dw half
    let m := dn half
    let s := lanes w m (rdD x dS)
    let t := lanes w m (rdD x dT)
    let c := lane w k.val (rdD x dC)
    let acc := CEff.write 2 (accRes half clear n.val (s.map (· * c)))
    if dS = dT then
      (let r := drawFree d 256
       .ok r.2 [acc, .write 2 (res 0 (.d (physD x dS.val)) r.1.toNat)])
    else
      .ok d [acc, .write 2 (resD x 0 dS w (nth t (m - 1) 0 :: s.take (m - 1))),
        .write 2 (resD x 0 dT w (0 :: t.take (m - 1)))]

def execTapm (i : Issue) (clear half : Bool) (x : Fin 8) (dS dT dC : Fin 32) (k : Fin 16) (s : State) :
    Host.Outcome State Fault Refusal :=
  onDev (fun d => issue d i (tapmInstr clear half x dS dT dC k)) s

/-- One lane of a vector operation: its value and whether it saturated; `none` where the spec states no value (a shift by
less than zero or by the lane's width or more). -/
def vLane (op : VOp) (w : Nat) (a b : Int) : Option Int × Bool :=
  match op with
  | .add => (some (a + b), false)
  | .sub => (some (a - b), false)
  | .adds => (some (satS w (a + b)), satS w (a + b) != a + b)
  | .subs => (some (satS w (a - b)), satS w (a - b) != a - b)
  | .and => (some ((BitVec.ofInt w a &&& BitVec.ofInt w b).toInt), false)
  | .or => (some ((BitVec.ofInt w a ||| BitVec.ofInt w b).toInt), false)
  | .xor => (some ((BitVec.ofInt w a ^^^ BitVec.ofInt w b).toInt), false)
  | .min => (some (if a ≤ b then a else b), false)
  | .max => (some (if a ≤ b then b else a), false)
  | .shl => (if 0 ≤ b && b < w then some (a * 2 ^ b.toNat) else none, false)
  | .asr => (if 0 ≤ b && b < w then some (a / 2 ^ b.toNat) else none, false)
  | .mov => (some a, false)

/-- Lanes of a vector operation, with free lanes where no value is stated. (DEDUCED, log entry 77.) -/
def vLanes (op : VOp) (w : Nat) (free : BitVec 256) (as bs : List Int) : List Int :=
  (List.range as.length).map fun j => ((vLane op w (nth as j 0) (nth bs j 0)).1).getD (lane w j free)

/-- Lanewise vector operation (table Principal instructions). -/
def valuInstr (op : VOp) (half : Bool) (dst s1 s2 : Fin 32) (d : Dev) (x : Core) : IRes :=
  let w := dw half
  let as := lanes w (dn half) (rdD x s1)
  let bs := lanes w (dn half) (rdD x s2)
  let rs := List.zipWith (vLane op w) as bs
  let r := if rs.any fun r => r.1.isNone then drawFree d 256 else (0, d)
  .ok r.2 (.write 3 (resD x 0 dst w (vLanes op w r.1 as bs)) :: if rs.any fun r => r.2 then [.sat] else [])

def execValuOp (i : Issue) (op : VOp) (half : Bool) (dst s1 s2 : Fin 32) (s : State) :
    Host.Outcome State Fault Refusal :=
  onDev (fun d => issue d i (valuInstr op half dst s1 s2)) s

/-- ext_lane (R115): the scaled lane rounded to even and saturated to `w` bits, and whether it saturated. -/
def extLane (v : Int) (sh w : Nat) : Int × Bool :=
  let q := v / 2 ^ sh
  let r := v - q * 2 ^ sh
  let half : Int := 2 ^ (sh - 1)
  let q := if 0 < sh && (half < r || (r = half && q % 2 = 1)) then q + 1 else q
  (satS w q, satS w q != q)

/-- Results that set sat where a lane saturated. -/
def satEff (ps : List (Int × Bool)) : List CEff := if ps.any fun r => r.2 then [.sat] else []

/-- ext (R115). A scalar shift outside 0 to 63 (.w) or 0 to 31 (.h) has no stated result: a free value. -/
def extInstr (half : Bool) (dst : Fin 32) (n : Fin 8) (sh : ScSrc) (d : Dev) (x : Core) : IRes :=
  let k := (rdS x sh).toNat
  if (if half then 32 else 64) ≤ k then
    (let r := drawFree d 256
     .ok r.2 [.write 3 (res 1 (.d (physD x dst.val)) r.1.toNat)])
  else
    let ps := (lanes (xw half) (dn half) (rdX x n)).map fun v => extLane v k (dw half)
    .ok d (.write 3 (resD x 1 dst (dw half) (ps.map Prod.fst)) :: satEff ps)

def execExt (i : Issue) (half : Bool) (dst : Fin 32) (x : Fin 8) (sh : ScSrc) (s : State) :
    Host.Outcome State Fault Refusal :=
  onDev (fun d => issue d i (extInstr half dst x sh)) s

/-- rsb (R118): the bits directly below bit w − 1 that equal it. -/
def rsb (v : Int) (w : Nat) : Nat :=
  ((List.range (w - 1)).find? fun n => decide (2 ^ (w - 2 - n) ≤ (if v < 0 then -v - 1 else v))).getD (w - 1)
/-- The exponent of an accumulator lane. -/
def expLane (half : Bool) (v : Int) : Int := (rsb v (xw half) : Int) - (if half then 24 else 48)
/-- The normalised value of a lane under an exponent, and whether it saturated. -/
def normLane (half : Bool) (v e : Int) : Int × Bool :=
  let e := if half then clampI (-31) 15 e else clampI (-63) 31 e
  if 0 ≤ e then (satS (dw half) (v * 2 ^ e.toNat), satS (dw half) (v * 2 ^ e.toNat) != v * 2 ^ e.toNat)
  else extLane v (-e).toNat (dw half)

/-- Set B only (R116). -/
def setB (d : Dev) (x : Core) (r : IRes) : IRes := if opset d x.id = 1 then r else .fault F_ILLEGAL 0

/-- exp (R118). -/
def expInstr (half : Bool) (dst : Fin 32) (n : Fin 8) (d : Dev) (x : Core) : IRes :=
  setB d x (.ok d [.write 3 (resD x 1 dst (dw half) ((lanes (xw half) (dn half) (rdX x n)).map (expLane half)))])

def execExp (i : Issue) (half : Bool) (dst : Fin 32) (x : Fin 8) (s : State) : Host.Outcome State Fault Refusal :=
  onDev (fun d => issue d i (expInstr half dst x)) s

/-- norm (R118). -/
def normInstr (half : Bool) (dst : Fin 32) (n : Fin 8) (e : Fin 32) (d : Dev) (x : Core) : IRes :=
  let ps := List.zipWith (normLane half) (lanes (xw half) (dn half) (rdX x n)) (lanes (dw half) (dn half) (rdD x e))
  setB d x (.ok d (.write 3 (resD x 1 dst (dw half) (ps.map Prod.fst)) :: satEff ps))

def execNorm (i : Issue) (half : Bool) (dst : Fin 32) (x : Fin 8) (e : Fin 32) (s : State) :
    Host.Outcome State Fault Refusal :=
  onDev (fun d => issue d i (normInstr half dst x e)) s

/-- normx (R118): exponent and normalised value at once. With one register for both, the spec states no value: a free
value. -/
def normxInstr (half : Bool) (dst e : Fin 32) (n : Fin 8) (d : Dev) (x : Core) : IRes :=
  let vs := lanes (xw half) (dn half) (rdX x n)
  let es := vs.map (expLane half)
  let ps := List.zipWith (normLane half) vs es
  setB d x (if dst = e then
      (let r := drawFree d 256
       .ok r.2 (.write 3 (res 1 (.d (physD x dst.val)) r.1.toNat) :: satEff ps))
    else .ok d (.write 3 (resD x 1 e (dw half) es) :: .write 3 (resD x 1 dst (dw half) (ps.map Prod.fst)) :: satEff ps))

def execNormx (i : Issue) (half : Bool) (dst e : Fin 32) (x : Fin 8) (s : State) : Host.Outcome State Fault Refusal :=
  onDev (fun d => issue d i (normxInstr half dst e x)) s

/-- A scalar operation, 32-bit and wrapping; `none` for a shift by 32 or more, whose value is not stated. (DEDUCED, log entry 77.) -/
def scalarVal (op : SOp) (a b : Word) : Option Word :=
  match op with
  | .add => some (a + b)
  | .sub => some (a - b)
  | .and => some (a &&& b)
  | .or => some (a ||| b)
  | .shl => if b.toNat < 32 then some (a <<< b.toNat) else none
  | .asr => if b.toNat < 32 then some (a.sshiftRight b.toNat) else none
  | .mov => some b

/-- Scalar arithmetic (table Principal instructions); mov takes its second operand. -/
def scalarInstr (op : SOp) (dst s1 : Fin 16) (s2 : ScSrc) (d : Dev) (x : Core) : IRes :=
  match scalarVal op (nth x.s s1.val 0) (rdS x s2) with
  | some v => .ok d [.write 4 (resS dst v)]
  | none => (let r := drawFree d 32
             .ok r.2 [.write 4 (resS dst r.1)])

def execScalarOp (i : Issue) (op : SOp) (dst s1 : Fin 16) (s2 : ScSrc) (s : State) : Host.Outcome State Fault Refusal :=
  onDev (fun d => issue d i (scalarInstr op dst s1 s2)) s

/-- The outcome of a compare. -/
def cmpVal (op : COp) (a b : Word) : Bool :=
  match op with
  | .eq => a == b
  | .lt => decide (a.toInt < b.toInt)
  | .ltu => decide (a < b)

/-- cmp.eq, cmp.lt, cmp.ltu. -/
def execCmp (i : Issue) (op : COp) (p : Fin 8) (s1 : Fin 16) (s2 : ScSrc) (s : State) :
    Host.Outcome State Fault Refusal :=
  onDev (fun d => issue d i fun d x => .ok d [.write 4 (resP p (cmpVal op (nth x.s s1.val 0) (rdS x s2)))]) s

end Sys2Proof.Machine
end

