-- ==== Sys2Proof/Machine/CoreCtl.lean ====
section
/-! DEFINITION. What happens to media cores from outside their programs: drains, the pre-empt interrupt, debug control, team
memory errors, and KERNEL_LOAD (R121, R129, R132 to R134). -/
namespace Sys2Proof.Machine

/-- The oldest buffered Paddock store drains (R121). -/
def execWriteBufferDrain (core : Fin 256) (s : State) : Host.Outcome State Fault Refusal :=
  onDev (fun d => if halted d then d else drainOne d core.val) s

/-- The pre-empt interrupt (R96, R129): taken between bundles, outside a locked sequence and outside the handler. -/
def preemptCore (d : Dev) (k : Nat) : Dev :=
  let x := findCore d k
  if !coreRuns d x || !x.preemptReq || x.issuing || x.hold.isSome || x.handler then d
  else putCore d { x with epc := x.pc, epcP := x.p, handler := true, preemptReq := false,
                          pc := reg d (TEAM (coreQuarter k) (coreTeam k) + 8) }

def execPreemptInterrupt (core : Fin 256) (s : State) : Host.Outcome State Fault Refusal :=
  onDev (fun d => preemptCore d core.val) s

/-- A write to MDC_CTRL (table MDC_CTRL, R131, R134): halt waits for the bundle boundary or unlock; clearing it releases the
core, and a card held at a fault then retires; step runs one bundle of a halted core. (DEDUCED, log entry 86.) -/
def writeMdcCtrl (d : Dev) (k : Nat) (v : Word) : Dev :=
  if d.variant.quarters ≤ coreQuarter k || d.variant.teams ≤ coreTeam k then d
  else
    let d := setReg d (MDCi k) (v &&& 0xF05)
    let x := findCore d k
    if bit v 0 then
      (if x.halted then putCore d { x with stepReq := bit v 1 } else haltCheck (putCore d { x with haltReq := true }) k)
    else if x.faultHalt then
      (let d := putCore d { x with halted := false, faultHalt := false, haltReq := false }
       match x.card with
       | some c => cancelCard d c
       | none => d)
    else if x.halted && bit v 1 then putCore d { x with haltReq := false, stepReq := true }
    else putCore d { x with halted := false, haltReq := false }

def execCoreHalt (core : Fin 256) (ctrl : Word) (s : State) : Host.Outcome State Fault Refusal :=
  onDev (fun d => writeMdcCtrl d core.val (ctrl &&& 0xFFFFFFFD)) s

def execCoreStep (core : Fin 256) (ctrl : Word) (s : State) : Host.Outcome State Fault Refusal :=
  onDev (fun d => writeMdcCtrl d core.val (ctrl ||| 2)) s

/-- A team leaves service with its cores' cards cancelled and holds dropped (R124, R131, R132). -/
def cancelTeam (d : Dev) (q t : Nat) : Dev :=
  (List.range 8).foldl (fun d c =>
    let k := 64 * q + 8 * t + c
    let x := findCore d k
    let d := match grantedIn x.buf with
      | some b => releaseBank d q b (coreMaster k)
      | none => d
    let d := dropHold (drainAll (putCore d { x with buf := [], flt := none, issuing := false }) k) k
    let d := match preemptedOn d k with
      | some p => cancelCard d p.slot
      | none => d
    match x.card with
    | some s => cancelCard d s
    | none => d) d

/-- An uncorrectable team-memory error (R132): the team enters FAULT. -/
def execTeamMemUe (q : Fin 4) (t : Fin 8) (off : Nat) (s : State) : Host.Outcome State Fault Refusal :=
  onDev (fun d =>
    let u : UnitId := ⟨1, q.val, t.val⟩
    if !unitPresent d.variant u || halted d then d
    else
      let d := satF d (TEAM q.val t.val + 0x10) 16 16 1
      let d := putB d (TEAM q.val t.val + 0xC) 8 true
      let d := raise d (evUnit u 0x303 2 [(1, q.val), (1, t.val), (4, off)])
      faultUnit (cancelTeam d q.val t.val) u) s

/-- UNIT_FAULT (R364): an uncorrectable error in the unit's control state; a team's cards are cancelled (R132). (DEDUCED, log entry 59.) -/
def unitFault (d : Dev) (u : UnitId) : Dev :=
  if !unitPresent d.variant u || uState d u == 4 || halted d then d
  else faultUnit (if u.cls = 1 then cancelTeam d u.quarter u.index else d) u
def execUnitFault (u : UnitId) (s : State) : Host.Outcome State Fault Refusal := onDev (fun d => unitFault d u) s

/-- The target teams of a KERNEL_LOAD. (DEDUCED, log entry 83.) -/
def kernelTeams (x : Desc) : List (Nat × Nat) :=
  ((List.range 4).filter fun q => dBits x 24 q 1 == 1).flatMap fun q =>
    ((List.range 8).filter fun t => dBits x 25 t 1 == 1).map fun t => (q, t)

/-- KERNEL_LOAD (R133), with what reading the image returns. A failed host read, or with verify a mismatch (address 0),
leaves a partial image: the kernel regions written hold free bytes (Config.freeValue). A mismatch raises no event (R72).
(DEDUCED, log entry 83.) -/
def kernelLoadAct (image : HostRead) (d : Dev) (c : Cmd) : Except Fail Act := do
  let x := c.desc
  let src := dNum x 8 8
  let len := dNum x 16 4
  let off := dNum x 20 4
  noHandle x
  checkFields x ([(8, src % 64 == 0), (16, len != 0 && len % 32 == 0), (20, off % 32 == 0 && decide (0x40000 ≤ off)),
    (24, dBits x 24 0 4 != 0 && dBits x 24 4 4 == 0), (25, dByte x 25 != 0), (26, dBits x 26 1 7 == 0)] ++ zeros x 27 63)
  let ts := kernelTeams x
  require (ts.all fun (q, t) => uState d ⟨1, q, t⟩ == 0) { st := ST_UNIT_RUNNING }
  require (ts.all fun (q, t) => decide (off + len ≤ codeEnd d (64 * q + 8 * t))) { st := ST_LENGTH_LIMIT }
  match image with
  | .fail a =>
    let mismatch := dBits x 26 0 1 == 1 && a == 0 && src != 0
    let d := ts.foldl (fun d (q, t) =>
      let r := drawFree d (8 * len)
      padWrite r.2 q ((24 + t) * bankSize + off) (leBytes r.1.toNat len)) d
    .ok (.wait (failId d c.id (if mismatch then { st := ST_BUS_ERROR } else busError c a.toNat)))
  | .ok bs =>
    let bs := padTo bs len
    let d := ts.foldl (fun d (q, t) => padWrite d q ((24 + t) * bankSize + off) bs) d
    .ok (.done d (leBytes (crc32 bs) 4))

def execKernelLoad (fn : Fin 64) (ring : Fin 32) (image : HostRead) (s : State) : Host.Outcome State Fault Refusal :=
  onDev (runCmd 0x48 fn.val ring.val (kernelLoadAct image)) s

end Sys2Proof.Machine
end

