-- ==== Sys2Proof/Machine/CoreFlow.lean ====
section
/-! DEFINITION. Branches, loops and the Dealer interface of a media core (R119, R120, R125 to R129). -/
namespace Sys2Proof.Machine

/-- b label (R108, R119, R123). -/
def execBranch (i : Issue) (target : Word) (s : State) : Host.Outcome State Fault Refusal :=
  onDev (fun d => issue d i fun d x => notInLock x (.ok d [.branch target])) s

/-- A loop count: an immediate or scalar of 16 bits; a larger scalar states no count, so a free value stands for it. -/
def loopCount (d : Dev) (v : Word) : Nat × Dev :=
  if v.toNat < 65536 then (v.toNat, d)
  else (let r := drawFree d 16
        (r.1.toNat, r.2))

/-- loop (R119): a fourth level takes the ILLEGAL fault. (DEDUCED, log entry 78.) -/
def loopInstr (count : ScSrc) (endPc : Word) (d : Dev) (x : Core) : IRes :=
  notInLock x (if 3 ≤ (x.loops.filter fun l => !l.rot).length then .fault F_ILLEGAL 0
    else (let r := loopCount d (rdS x count)
          .ok r.2 [.loop r.1 endPc]))

def execLoop (i : Issue) (count : ScSrc) (endPc : Word) (s : State) : Host.Outcome State Fault Refusal :=
  onDev (fun d => issue d i (loopInstr count endPc)) s

/-- rloop (R120): an rloop inside another, a stage count outside 1 to 4 or a count of 0 is an undefined bundle. (DEDUCED, log entry 78.) -/
def rloopInstr (count : ScSrc) (stages : Nat) (endPc : Word) (d : Dev) (x : Core) : IRes :=
  notInLock x (if (x.loops.any fun l => l.rot) || stages = 0 || rdS x count = 0 then .fault F_ILLEGAL 0
    else (let r := loopCount d (rdS x count)
          .ok r.2 [.rloop (max r.1 1) stages endPc]))

def execRloop (i : Issue) (count : ScSrc) (stages : Fin 5) (endPc : Word) (s : State) : Host.Outcome State Fault Refusal :=
  onDev (fun d => issue d i (rloopInstr count stages.val endPc)) s

/-- getd sD, #w (R125). -/
def execGetd (i : Issue) (dst : Fin 16) (w : Fin 8) (s : State) : Host.Outcome State Fault Refusal :=
  onDev (fun d => issue d i fun d x => .ok d [.write 4 (resS dst (nth x.deal w.val 0))]) s

/-- rdflag sD (R125): sat in bit 0, circ in bit 1. -/
def execRdflag (i : Issue) (dst : Fin 16) (s : State) : Host.Outcome State Fault Refusal :=
  onDev (fun d => issue d i fun d x => .ok d [.write 4 (resS dst (wd (x.sat.toNat + 2 * x.circ.toNat)))]) s

/-- spawn sD, pD, [aN] (R126): the block is read from local memory, at any alignment; outside it the address is unmapped. (DESIGN
CHOICE, log entry 194.) -/
def spawnInstr (dst : Fin 16) (p a : Fin 8) (d : Dev) (x : Core) : IRes :=
  let v := nth x.a a.val 0
  notInLock x (match place x.id v.toNat 32 with
    | some (.loc off) => .ok d [.spawn dst.val p.val (spRead (localMem d x.id) off 32)]
    | _ => .fault F_ADDR v)

def execSpawn (i : Issue) (dst : Fin 16) (p a : Fin 8) (s : State) : Host.Outcome State Fault Refusal :=
  onDev (fun d => issue d i (spawnInstr dst p a)) s

/-- signal sH (R127). -/
def execSignal (i : Issue) (src : Fin 16) (s : State) : Host.Outcome State Fault Refusal :=
  onDev (fun d => issue d i fun d x => notInLock x (.ok d [.signal (nth x.s src.val 0)])) s

/-- done (R128), with the fabric cycles that the core has held its card. (DEDUCED, log entry 84.) -/
def execDone (i : Issue) (cycles : Nat) (s : State) : Host.Outcome State Fault Refusal :=
  onDev (fun d => issue d i fun d x => notInLock x (.ok d [.done cycles])) s

/-- yield (R129): outside the pre-empt handler it takes the ILLEGAL fault. -/
def execYield (i : Issue) (s : State) : Host.Outcome State Fault Refusal :=
  onDev (fun d => issue d i fun d x => notInLock x (if x.handler then .ok d [.yield] else .fault F_ILLEGAL 0)) s

/-- savectx (R129). -/
def execSavectx (i : Issue) (s : State) : Host.Outcome State Fault Refusal :=
  onDev (fun d => issue d i fun d x => notInLock x (.ok d [.savectx])) s

/-- fence (R121). -/
def execFence (i : Issue) (s : State) : Host.Outcome State Fault Refusal :=
  onDev (fun d => issue d i fun d _ => .ok d [.fence]) s

end Sys2Proof.Machine
end

