-- ==== Sys2Proof/Machine/CoreMem.lean ====
section
/-! DEFINITION. Loads, stores, address-register moves and locked sequences of a media core (R110 to R113, R121, R123). -/
namespace Sys2Proof.Machine

/-- ld.v dD, ea (R111). -/
def execLdV (i : Issue) (dst : Fin 32) (ea : Ea) (ue : Bool) (s : State) : Host.Outcome State Fault Refusal :=
  onDev (fun d => issue d i (loadInstr i ea 32 ue fun x v => res 2 (.d (physD x dst.val)) v)) s

/-- st.v ea, dS (R111, R121). -/
def execStV (i : Issue) (ea : Ea) (src : Fin 32) (s : State) : Host.Outcome State Fault Refusal :=
  onDev (fun d => issue d i fun d x => storeInstr i ea (leBytes (rdD x src).toNat 32) d x) s

/-- ld.w and ld.h, which sign-extends (table Principal instructions). -/
def execLdW (i : Issue) (half : Bool) (dst : Fin 16) (ea : Ea) (ue : Bool) (s : State) : Host.Outcome State Fault Refusal :=
  onDev (fun d => issue d i (loadInstr i ea (if half then 2 else 4) ue fun _ v =>
    res 2 (.s dst.val) (if half then ((BitVec.ofNat 16 v).signExtend 32).toNat else v))) s

/-- st.w and st.h. -/
def execStW (i : Issue) (half : Bool) (ea : Ea) (src : Fin 16) (s : State) : Host.Outcome State Fault Refusal :=
  onDev (fun d => issue d i fun d x =>
    storeInstr i ea (leBytes (nth x.s src.val 0).toNat (if half then 2 else 4)) d x) s

/-- ld.bc.w: a word into all eight lanes. -/
def execLdBcW (i : Issue) (dst : Fin 32) (ea : Ea) (ue : Bool) (s : State) : Host.Outcome State Fault Refusal :=
  onDev (fun d => issue d i (loadInstr i ea 4 ue fun x v =>
    res 2 (.d (physD x dst.val)) (packLanes 32 (List.replicate 8 (v : Int))))) s

/-- The destination of an amov; b0–b3 and l0–l3 do not exist. -/
def amovDst (file : AFile) (n : Nat) : Option CReg :=
  match file with
  | .a => some (.a n)
  | .m => some (.m n)
  | .b => if 4 ≤ n then some (.b n) else none
  | .l => if 4 ≤ n then some (.l n) else none

/-- amov (R113): the new value takes effect from the next bundle. -/
def execAmov (i : Issue) (file : AFile) (dst : Fin 8) (src : ScSrc) (s : State) : Host.Outcome State Fault Refusal :=
  onDev (fun d => issue d i fun d x => match amovDst file dst.val with
    | none => .fault F_ILLEGAL 0
    | some r => .ok d [.write (lsSlot i) (res 0 r (rdS x src).toNat)]) s

/-- What a lock forbids beside it in its bundle: an access to a bank other than `b`, program flow, the Dealer interface (R123). -/
def lockClash (b : Nat) : CEff → Bool
  | .access c => c != b
  | .branch _ | .loop _ _ | .rloop _ _ _ | .spawn _ _ _ | .signal _ | .done _ | .yield | .savectx => true
  | _ => false
/-- lock [aN] (R123): granted when the bank has no other owner; until then the core stalls. (DEDUCED, log entry 82.) -/
def lockInstr (a : Fin 8) (d : Dev) (x : Core) : IRes :=
  let v := nth x.a a.val 0
  if x.hold.isSome || (grantedIn x.buf).isSome then .fault F_LOCK_TWICE v
  else match place x.id v.toNat 1 with
    | some (.pad off) =>
      let q := coreQuarter x.id
      let b := getBank d q (off / bankSize)
      if x.buf.any (lockClash (off / bankSize)) then .fault F_LOCK_RULE v
      else (match b.owner with
       | some _ => .stall
       | none => .ok (putCore (putBank d { b with owner := some (coreMaster x.id) })
                  { findCore d x.id with holdAddr := v }) [.lock (off / bankSize)])
    | _ => .fault F_ADDR v

def execLock (i : Issue) (a : Fin 8) (s : State) : Host.Outcome State Fault Refusal :=
  onDev (fun d => issue d i (lockInstr a)) s

/-- unlock (R123). -/
def execUnlock (i : Issue) (s : State) : Host.Outcome State Fault Refusal :=
  onDev (fun d => issue d i fun d _ => .ok d [.unlock]) s

end Sys2Proof.Machine
end

