-- ==== Sys2Proof/Machine/Dma.lean ====
section
/-! DEFINITION. The DMA engines: chains and their checks (R344 to R346), and descriptors as a channel moves them (R346, R347,
R350, R351). -/
namespace Sys2Proof.Machine

/-! ### Descriptors (table DMA descriptor) -/

/-- A descriptor of 32 bytes, and whether its reserved bits are zero. -/
def dmaDesc (bs : List Byte) : DmaDesc × Bool :=
  let b (i : Nat) : Nat := (nth bs i 0).toNat
  let w (i n : Nat) : Nat := leNat (slice bs i n)
  ({ srcSp := b 0 % 16, dstSp := b 0 / 16, mode := b 1 % 4, sx := (b 1).testBit 2, fence := (b 1).testBit 3,
     sw := b 2 % 4 + 1, dw := b 2 / 4 % 4 + 1, nch := b 3 % 32, count := w 4 3, src := w 8 8, dst := w 16 8, rows := w 24 2,
     srcPitch := w 26 2, dstPitch := w 28 2 },
   decide (b 1 < 16) && decide (b 2 < 16) && decide (b 3 < 32) && b 7 == 0 && b 30 == 0 && b 31 == 0)

/-- WEAVE or UNWEAVE. -/
def DmaDesc.weaves (x : DmaDesc) : Bool := x.mode == 2 || x.mode == 3
/-- A side's rows are interleaved: the destination of WEAVE, the source of UNWEAVE. -/
def DmaDesc.inter (x : DmaDesc) (dst : Bool) : Bool := if dst then x.mode == 2 else x.mode == 3
/-- A side's element width, row length, pitch in force, base and rows in all. -/
def DmaDesc.width (x : DmaDesc) (dst : Bool) : Nat := if dst then x.dw else x.sw
def DmaDesc.rowLen (x : DmaDesc) (dst : Bool) : Nat := x.count * (if x.inter dst then x.nch else 1) * x.width dst
def DmaDesc.rawPitch (x : DmaDesc) (dst : Bool) : Nat := if dst then x.dstPitch else x.srcPitch
def DmaDesc.pitch (x : DmaDesc) (dst : Bool) : Nat := if x.rawPitch dst = 0 then x.rowLen dst else x.rawPitch dst
def DmaDesc.base (x : DmaDesc) (dst : Bool) : Nat := if dst then x.dst else x.src
def DmaDesc.allRows (x : DmaDesc) (dst : Bool) : Nat := if x.weaves && !x.inter dst then x.nch * x.rows else x.rows
/-- Bytes from a side's base to its end. -/
def DmaDesc.span (x : DmaDesc) (dst : Bool) : Nat := (x.allRows dst - 1) * x.pitch dst + x.rowLen dst

/-- Whether a channel group (quarter 0 to 3, or 0xFF) reaches a space (R344). -/
def spaceReach (q sp : Nat) : Bool := if q = 0xFF then sp == 1 || sp == 2 || sp == 3 else sp == 2 || sp == 3 || sp == 4 || sp == 5

/-- A side's addresses lie in the range of its space (R344, R345). -/
def sideRange (d : Dev) (fn : Nat) (x : DmaDesc) (dst : Bool) : Bool :=
  let a := x.base dst
  let n := x.span dst
  match if dst then x.dstSp else x.srcSp with
  | 1 => decide (a + n ≤ 2 ^ 64)
  | 2 => decide (a + n ≤ 256 * mib)
  | 3 =>
    let h := a / 2 ^ 32
    !dst && (hKind h == 5 || hKind h == 6 || hKind h == 7) && decide (a % 2 ^ 32 + n ≤ arenaSize d h) &&
      (match findObj d h with | some o => o.fn == fn | none => false)
  | 4 => decide (0x1000000 ≤ a) && decide (a + n ≤ 0x1000000 + 32 * bankSize)
  | 5 => a / 2 ^ 17 % 2 ^ 15 == 0 && decide (a < 2 ^ 38) && decide (a / 2 ^ 35 < d.variant.teams) && decide (a % 2 ^ 17 + n ≤ 0x20000)
  | _ => false
/-- A side's alignment and pitch (R346). -/
def sideAligned (x : DmaDesc) (dst : Bool) : Bool :=
  let w := x.width dst
  ((w != 2 && w != 4) || (x.base dst % w == 0 && x.rawPitch dst % w == 0)) &&
  (x.rawPitch dst == 0 || decide (x.rowLen dst ≤ x.rawPitch dst))
/-- A descriptor that breaks no rule. (DEDUCED, log entry 165.) -/
def descOk (d : Dev) (fn q : Nat) (x : DmaDesc × Bool) : Bool :=
  let y := x.1
  x.2 && decide (1 ≤ y.count) && decide (1 ≤ y.rows) && decide (y.rows ≤ 4096) &&
  (if y.weaves then decide (2 ≤ y.nch) && decide (y.nch ≤ 16) else y.nch == 0) &&
  spaceReach q y.dstSp && sideAligned y true && sideRange d fn y true &&
  (if y.mode = 1 then y.srcSp == 0 && decide (y.src < 2 ^ 32)
   else spaceReach q y.srcSp && sideAligned y false && sideRange d fn y false)
/-- A chain of `n` descriptors. -/
def chainOf (bs : List Byte) (n : Nat) : List (DmaDesc × Bool) := (List.range n).map fun i => dmaDesc (slice bs (32 * i) 32)
/-- A descriptor names SCRATCH, PADDOCK or LOCAL, which VFs may not. -/
def descProtected (x : DmaDesc) : Bool := [2, 4, 5].contains x.dstSp || [2, 4, 5].contains x.srcSp

/-! ### DMA_CHAIN -/

/-- The channel field agrees with the quarter field. -/
def channelField (q c : Nat) : Bool := c == 0xFF || decide (c < if q = 0xFF then 4 else 8)

/-- DMA_CHAIN; a not_before after the deadline names the byte of not_before. (DEDUCED, log entry 74; DEDUCED, log entry 165; DESIGN
CHOICE, log entry 183.) -/
def dmaChainAct (chain : HostRead) (d : Dev) (c : Cmd) : Except Fail Act := do
  let x := c.desc
  noHandle x
  let f ← flowOf d c.fn (dNum x 40 4) true
  let ns := dBits x 21 0 3
  let n := dNum x 22 2
  let q := dByte x 9
  checkFields x ([(8, dBits x 8 0 2 != 3 && dBits x 8 4 4 == 0), (9, quarterField d q), (10, channelField q (dByte x 10)),
    (11, dByte x 11 == 0), (16, !(dBits x 8 3 1 == 1 && decide (0 < sdiff (wd (dNum x 16 4)) (wd (dNum x 12 4))))),
    (21, decide (ns ≤ 4) && dBits x 21 3 5 == 0), (22, decide (1 ≤ n) && decide (n ≤ 256)), (24, dNum x 24 8 % 32 == 0),
    (32, dNum x 32 8 % 16 == 0)] ++ (succFields d c.fn x 44 ns).take 4 ++ zeros x 60 63)
  match chain with
  | .fail a => .error (busError c a.toNat)
  | .ok bs =>
    let ds := chainOf bs n
    require (c.fn == 0 || !ds.any fun y => descProtected y.1) { st := ST_PROTECTED }
    require (ds.all (descOk d c.fn q)) (badField 24)
    if !hasCredit d (.fn c.fn) f.id then .ok (waitCredit d c)
    else match freeSlot d with
      | none => .ok (waitCredit d c)
      | some slot =>
        let card : Card :=
          { slot := slot, seq := 0, cls := dBits x 8 0 2, notify := dBits x 8 2 1 == 1, nbEn := dBits x 8 3 1 == 1,
            notBefore := wd (dNum x 16 4), exec := 6, quarter := q, unit := dByte x 10, deadline := wd (dNum x 12 4),
            counter := dByte x 20, succ := (succEntries x 44 ns).map hIndex, flow := f.id, fn := c.fn, source := .fn c.fn,
            owner := f.id, work := .dma (ds.map Prod.fst) (dNum x 32 8) }
        .ok (.done (storeCard d card) (leBytes (cardHandle slot) 4))

def execDmaChain (fn : Fin 64) (ring : Fin 32) (chain : HostRead) (s : State) : Host.Outcome State Fault Refusal :=
  onDev (runCmd 0x70 fn.val ring.val (dmaChainAct chain)) s

/-! ### Moving a descriptor -/

/-- What a channel's access meets: the host bytes of the descriptor's source from its base, the 64-byte block whose host read
failed and whether it was poisoned, and the element whose Paddock read is uncorrectable. -/
structure DmaEnv where
  unit : UnitId
  fn : Nat
  quarter : Nat
  src : Nat
  host : List Byte
  hostFail : Option Nat
  poisoned : Bool
  padUe : Option Nat

/-- SCRATCH in HBM: the top 256 MiB of the FW region. -/
def scratchBase : Nat := tableBase - 256 * mib
/-- Core of a LOCAL address. -/
def localCore (q a : Nat) : Nat := 64 * q + a / 2 ^ 32 % 64
/-- The HBM addresses of `n` bytes of a space, `none` in it for a detached arena. -/
def hbmOf (d : Dev) (sp a n : Nat) : Option (List Nat) :=
  if sp = 2 then some ((List.range n).map fun i => scratchBase + a + i)
  else if (findObj d (a / 2 ^ 32)).isNone then none
  else (List.range n).mapM fun i => arenaAddr d (a / 2 ^ 32) (a % 2 ^ 32 + i)

/-- Read `n` bytes of a space for element `i`, or the cause of table Chain status. -/
def dmaRead (d : Dev) (e : DmaEnv) (sp a n i : Nat) : Except Nat (List Byte) :=
  match sp with
  | 1 =>
    (match e.hostFail with
     | some f =>
       if decide (f < a + n) && decide (a < f + 64) then .error (if e.poisoned then 2 else 1)
       else .ok (padTo (slice e.host (a - e.src) n) n)
     | none => .ok (padTo (slice e.host (a - e.src) n) n))
  | 4 => if e.padUe == some i then .error 4 else .ok (padRead d e.quarter (a - 0x1000000) n)
  | 5 => .ok (spRead (localMem d (localCore e.quarter a)) (a % 2 ^ 17) n)
  | _ =>
    (match hbmOf d sp a n with
     | none => .error 5
     | some as =>
       if as.any fun b => (hbmRegion d b).isNone then .error 6
       else if as.any fun b => d.mem.hbmBad.contains (b / 64) then .error 3
       else .ok (as.map (spGet d.mem.hbm)))

/-- Write bytes into a space. -/
def dmaWrite (d : Dev) (e : DmaEnv) (sp a : Nat) (bs : List Byte) : Dev :=
  match sp with
  | 1 => emitOut d (.hostWrite e.fn a bs)
  | 4 => padWrite d e.quarter (a - 0x1000000) bs
  | 5 => (let k := localCore e.quarter a
          setLocal d k (spWrite (localMem d k) (a % 2 ^ 17) bs))
  | _ => match hbmOf d sp a bs.length with
    | some (b :: _) => if (hbmRegion d b).isNone then hbmUnmapped d e.unit b else hbmPut d b bs
    | _ => d

/-- An element narrowed or widened to the destination (R346). -/
def convert (x : DmaDesc) (bs : List Byte) : List Byte :=
  let v := leNat bs
  let neg := x.sx && v.testBit (8 * bs.length - 1)
  leBytes (if neg then v + (2 ^ 32 - 2 ^ (8 * bs.length)) else v) x.dw

/-- Source and destination addresses of a descriptor's elements, in the order of R346. -/
def elements (x : DmaDesc) : List (Nat × Nat) :=
  let at_ (dst : Bool) (r i c : Nat) : Nat :=
    let w := x.width dst
    if x.inter dst then x.base dst + r * x.pitch dst + (i * x.nch + c) * w
    else x.base dst + (c * x.rows + r) * x.pitch dst + i * w
  (List.range x.rows).flatMap fun r => (List.range x.count).flatMap fun i =>
    (List.range (if x.weaves then x.nch else 1)).map fun c => (at_ false r i c, at_ true r i c)

/-- Move elements one by one, reading from `from_` where it is given, until a read fails: the device, bytes written, and
the cause and address of the failure. -/
def moveElems (e : DmaEnv) (x : DmaDesc) (from_ : Option Dev) :
    List (Nat × Nat) → Nat → Nat → Dev → Dev × Nat × Option (Nat × Nat)
  | [], _, n, d => (d, n, none)
  | (s, t) :: rest, i, n, d =>
    match if x.mode = 1 then .ok (leBytes x.src x.dw) else dmaRead (from_.getD d) e x.srcSp s x.sw i with
    | .error c => (d, n, some (c, s))
    | .ok bs => moveElems e x from_ rest (i + 1) (n + x.dw) (dmaWrite d e x.dstSp t (if x.mode = 1 then bs else convert x bs))

/-- Source and destination overlap with dst > src in one memory of the device (R347). (DEDUCED, log entry 164.) -/
def overlaps (x : DmaDesc) : Bool :=
  x.mode != 1 && x.srcSp == x.dstSp && (x.srcSp == 2 || x.srcSp == 4 || x.srcSp == 5) && decide (x.src < x.dst) &&
  decide (x.dst < x.src + x.span false)
/-- Each overlapping byte is the one or the other: a free choice. (DEDUCED, log entry 164.) -/
def freePick (e : DmaEnv) (sp : Nat) (old : Dev) : List Nat → Dev → Dev
  | [], d => d
  | a :: as, d =>
    match dmaRead d e sp a 1 0, dmaRead old e sp a 1 0 with
    | .ok x, .ok y =>
      if x == y then freePick e sp old as d
      else
        let r := drawFree d 1
        freePick e sp old as (if r.1 = 0 then r.2 else dmaWrite r.2 e sp a y)
    | _, _ => freePick e sp old as d

/-- A whole descriptor. -/
def moveDesc (d : Dev) (e : DmaEnv) (x : DmaDesc) : Dev × Nat × Option (Nat × Nat) :=
  let es := elements x
  let r := moveElems e x none es 0 0 d
  if !overlaps x then r
  else
    let o := moveElems e x (some d) es 0 0 d
    let top := x.src + x.span false
    let as := (es.flatMap fun p => (List.range x.dw).map fun i => p.2 + i).filter fun a => decide (a < top)
    (freePick { e with padUe := none } x.dstSp o.1 as r.1, r.2)

/-! ### DMA_DESCRIPTOR -/

/-- A bad descriptor (R351): counted, latched and reported. -/
def badDesc (d : Dev) (u : UnitId) (slot index cause a : Nat) : Dev :=
  let b := DMA u.quarter u.index
  let d := cnt d (b + 0x18) 1
  let d := setReg (setReg (setReg d (b + 0x20) (wd a)) (b + 0x24) (wd (a / 2 ^ 32))) (b + 0x28) (wd (cause + 0x10000 * index))
  raiseOnce d (evUnit u 0xD00 1 [(1, u.quarter), (1, u.index), (4, cardHandle slot), (2, index), (1, cause)])

/-- The channel works on the card at the head of its queue; a stopping channel only on the card it holds (R352). -/
def channelCard (d : Dev) (u : UnitId) : Option (Card × DmaRun × List DmaDesc × Nat) :=
  match (queueOf d u).head?.bind (findCard d) with
  | none => none
  | some c =>
    let run := d.dma.runs.find? fun r => r.unit == u && r.slot == c.slot
    if c.done || halted d || !(unitTakes d u || (uState d u == 3 && run.isSome)) then none
    else match c.work with
      | .dma ds st => some (c, run.getD { unit := u, slot := c.slot }, ds, st)
      | _ => none

/-- The next descriptor of the chain in service: when its writes have completed it is done; after the last one the chain
status is written and the card may retire (R350). (DEDUCED, log entry 166.) -/
def descriptorStep (d : Dev) (u : UnitId) (host : List Byte) (hostFail : Option Nat) (poisoned : Bool) (padBad : Option Nat) (cycles : Nat) : Dev :=
  match channelCard d u with
  | none => d
  | some (c, r, ds, st) =>
    match ds[r.next]? with
    | none => d
    | some x =>
      let b := DMA u.quarter u.index
      let m := moveDesc d { unit := u, fn := c.fn, quarter := u.quarter, src := x.src, host := host, hostFail := hostFail, poisoned := poisoned, padUe := padBad } x
      let d := cnt (cnt m.1 (b + 0x10) m.2.1) (b + 0x1C) cycles
      let res : Dev × DmaRun := match m.2.2 with
        | none => (cnt d (b + 0x14) 1, { r with done := r.done + 1 })
        | some (cause, a) =>
          (let d := if cause = 4 then padUe d u.quarter (a - 0x1000000)
             else if cause = 3 then (match hbmOf d x.srcSp a x.sw with
               | some as => (match as.find? fun b => d.mem.hbmBad.contains (b / 64) with
                 | some b => hbmUe d (b / 64) 0
                 | none => d)
               | none => d)
             else if cause = 6 then (match hbmOf d x.srcSp a x.sw with
               | some as => (match as.find? fun b => (hbmRegion d b).isNone with | some b => hbmUnmapped d u b | none => d)
               | none => d)
             else d
           (badDesc d u c.slot r.next cause a,
            { r with bad := r.bad + 1, first := if r.bad = 0 then r.next else r.first,
                     cause := if r.bad = 0 then cause else r.cause, addr := if r.bad = 0 then a else r.addr }))
      let d := res.1
      let r := { res.2 with next := r.next + 1 }
      let d := { d with dma := { d.dma with runs := r :: d.dma.runs.filter fun y => !(y.unit == u) } }
      if r.next < ds.length then d
      else
        let d := if st = 0 then d else emitOut d (.hostWrite c.fn st (chainStatus r 0))
        putCard d { c with done := true }

def execDmaDescriptor (u : UnitId) (host : List Byte) (hostFail : Option Nat) (poisoned : Bool) (padUe : Option Nat) (cycles : Nat) (s : State) :
    Host.Outcome State Fault Refusal :=
  onDev (fun d => descriptorStep d u host hostFail poisoned padUe cycles) s

end Sys2Proof.Machine
end

