-- ==== Sys2Proof/Machine/Flr.lean ====
section
/-! DEFINITION. Function level resets (R78, R79, R384). -/
namespace Sys2Proof.Machine

/-- The HIF and EVT views of a function and its MSI-X table return to reset values; of the PF, EVT_STATUS and EVT_FATAL_REC survive (R359), and
HIF_STATUS, which shows the trained PCI Express link (R79). -/
def clearView (d : Dev) (fn : Nat) : Dev :=
  let a0 := viewBase fn
  let gone (a : Nat) : Bool := (decide (msixReg fn 0 0 ≤ a) && decide (a < msixReg fn 0 0 + 0x4000)) ||
    decide (a0 ≤ a) && decide (a < a0 + 0x20000) && !(fn == 0 && (a == 0 || a == evtBase 0 || (evtBase 0 + 0x10 ≤ a && a < evtBase 0 + 0x30)))
  { d with regs := spClear d.regs gone, latch := spClear d.latch gone }
/-- The function's commands: those that have not started are discarded, the others finish without a completion. -/
def discardCmds (d : Dev) (fn : Nat) : Dev :=
  { d with hif := { d.hif with
      accepted := (d.hif.accepted.filter fun c => c.fn != fn || c.started).map fun c => if c.fn == fn then { c with discard := true } else c
      rings := d.hif.rings.filter fun r => r.fn != fn
      nudged := d.hif.nudged.filter (· != fn)
      pageDue := d.hif.pageDue.filter (· != fn)
      flr := d.hif.flr ++ [fn] } }
/-- The FLR of one function starts (R78): nothing more is fetched, its sessions close, its view returns to reset values. (DEDUCED, log entry 45.) -/
def startFlr (d : Dev) (fn : Nat) : Dev :=
  if inFlr d fn then d
  else
    let d := clearView (discardCmds d fn) fn
    (d.obj.sessions.filter fun s => s.fn == fn && !s.closing && !s.closed).foldl closeSession d
def execVfFlr (v : Fin 63) (s : State) : Host.Outcome State Fault Refusal :=
  onDev (fun d => if d.sys.mode == .reset then d else startFlr d (v.val + 1)) s

/-- Mode changes in progress end with the PF's FLR; a service mode returns to CONFIGURE, whose units stop (R79). -/
def flrMode (d : Dev) : Dev :=
  let ids := modeWaiting d
  let d := ids.foldl unbookCmd { d with sys := { d.sys with modeCmds := [], modeDue := [], changes := [] } }
  let d := ids.foldl (fun d id => complete d id ST_MODE []) d
  if d.sys.mode.service then
    let us := (modeUnits d.variant).filter fun u => uState d u == 1 || uState d u == 2
    setMode (us.foldl (fun d u => setUState d u 3) d) .configure 3
  else d
/-- The FLR of the PF, and of every VF. (DEDUCED, log entry 45.) -/
def pfFlr (d : Dev) : Dev :=
  if d.sys.mode == .reset then d
  else
    let d := (List.range 64).foldl startFlr d
    flrMode { d with hif := { d.hif with vfEnable := false } }
def execPfFlr (s : State) : Host.Outcome State Fault Refusal := onDev pfFlr s

/-- FLR_COMPLETE: every started command of the function has finished and every session of it has closed. The event carries the VF
number; of the PF's own FLR the spec states none. -/
def flrComplete (d : Dev) (fn : Nat) : Dev :=
  if !inFlr d fn || (d.hif.accepted.any fun c => c.fn == fn) || (d.obj.sessions.any fun s => s.fn == fn && !s.closed) then d
  else
    let d := { d with hif := { d.hif with flr := d.hif.flr.filter (· != fn) } }
    let n : Nat × Dev := if fn = 0 then (let f := drawFree d 8; (f.1.toNat, f.2)) else (fn - 1, d)
    raiseOn n.2 48 (evDev 0x105 0 [(1, n.1)])
def execFlrComplete (fn : Fin 64) (s : State) : Host.Outcome State Fault Refusal := onDev (fun d => flrComplete d fn.val) s

end Sys2Proof.Machine
end

