-- ==== Sys2Proof/Machine/HostRegs.lean ====
section
/-! DEFINITION. What registers read and what writes to them do: BAR0 of each function (R410 to R414), partial writes (R50),
access types and RWC fields (R9), read side effects (R29, R304). -/
namespace Sys2Proof.Machine

/-! ### Addresses -/

/-- The register address that a BAR0 offset of function `fn` reaches, 64 MiB of the PF, 128 KiB of a VF, or, with 2^32 added, a BAR2
offset, 16 KiB of the PF, 8 KiB of a VF (R49). (PRESUMED, log entry 20; DEDUCED, log entry 21; PRESUMED, log entry 180.) -/
def barAddr (fn addr : Nat) : Option Nat :=
  if 2 ^ 32 ≤ addr then (if addr < 2 ^ 32 + (if fn = 0 then 0x4000 else 0x2000) then some (msixReg fn 0 (addr - 2 ^ 32)) else none)
  else if fn = 0 then (if addr < 0x4000000 then some addr else none)
  else if addr < 0x20000 then some (viewBase fn + addr) else none

/-! ### Live values -/

/-- Bit `i` of a word made of flags. -/
def flagAt (i : Nat) (b : Bool) : Nat := b.toNat * 2 ^ i
/-- `x` with the fields of `m` taken from the number `n`. -/
def withBits (x : Word) (m n : Nat) : Word := (x &&& ~~~ wd m) ||| (wd n &&& wd m)

/-- The capacity registers (R56). -/
def capacities (v : Variant) : List Nat :=
  [v.capCores, v.capSessions, v.capConferences, v.capAudioPart, v.capLegs, v.capContexts, v.capLayouts, v.capEncStreams,
   v.capKeySlots, v.capCardSlots, v.capFlows, v.capRtx, v.capClass, 8192, v.capHbmMib, v.capPaddockKib, 2048, v.quarters,
   4 * v.quarters, v.quarters, v.decPipes, v.compositors, v.encPipes, 1200, 800, 0x03AC051E, v.quarters * v.teams]

/-- HIF view of function `fn`. (DEDUCED, log entry 39.) -/
def hifLive (d : Dev) (fn off a : Nat) : Word :=
  if off = 0 then
    wd (getF d 0 0 9 + flagAt 16 (locked d fn) + flagAt 17 (locked d fn && d.sys.mode.fetches))
  else if 0x10 ≤ off && off < 0x30 then devFeat d fn ((off - 0x10) / 4)
  else if 0x800 ≤ off && off < 0x86C then wd (nth (capacities d.variant) ((off - 0x800) / 4) 0)
  else reg d a

def sysLive (d : Dev) (off a : Nat) : Word :=
  match off with
  | 0 => wd ((shownMode d).code + 16 * d.sys.mode.code +
      ((List.range 4).map fun q => flagAt (8 + q) (fenced d q)).sum + 4096 * (d.sys.reject % 16))
  | 4 => withBits (reg d a) 4 (flagAt 2 d.sys.hostLoading)
  | _ => reg d a

/-- The ledger that LDG_SEL selects, as of the last snapshot. -/
def selected (d : Dev) : Ledg :=
  (d.ldg.snap.find? fun x => x.l == getF d (LDG + 0x10) 0 8 && x.inst == getF d (LDG + 0x10) 8 8).getD ⟨0, 0, 0, 0, 0, 0⟩
def ldgLive (d : Dev) (off a : Nat) : Word :=
  let x := selected d
  if off = 0x14 then wd x.cap
  else if off = 0x18 then wd x.inUse
  else if off = 0x1C then BitVec.ofInt 32 x.free
  else if off = 0x20 then wd x.transit
  else if 0x500 ≤ off then wd (ledg d (16 + (off - 0x500) / 0x20) ((off - 0x500) % 0x20 / 4)).inUse
  else reg d a

def pwrLive (d : Dev) (off a : Nat) : Word :=
  if off = 0 then wd (d.sys.stepsDone % 2 ^ 16 + flagAt 16 (!d.sys.steps.isEmpty)) else reg d a
def tckLive (d : Dev) (off a : Nat) : Word :=
  match off with
  | 0 => withBits (reg d a) 0x18 (flagAt 3 d.sys.store.isSome + flagAt 4 (d.sys.stores.any fun n => decide (90000 ≤ n)))
  | 8 => wd (nth d.sys.stores 0 0)
  | 0xC => wd (nth d.sys.stores 1 0)
  | _ => reg d a
def fusLive (d : Dev) (off : Nat) : Word :=
  let k := rootCheck d
  match off with
  | 0 => wd (flagAt 0 d.sys.keyProg + flagAt 1 d.sys.keyLock + 2 ^ 8 * (d.sys.rbFloor % 256) + 2 ^ 24 * nth k 2 0)
  | 4 => wd (2 ^ 16 * nth k 0 0 + 2 ^ 24 * nth k 1 0)
  | _ => 0
def timLive (d : Dev) (off a : Nat) : Word :=
  if off = 0x104 then wd (d.tim.stride % 1200)
  else if off = 0xC || off = 0x10 || off = 0x18 || off = 0x10C || (0x308 ≤ off && (off - 0x308) % 0x20 = 0) then spGet d.latch a
  else reg d a

/-- READY cards of class `c` whose quarter field is `q`. -/
def readyCards (d : Dev) (q c : Nat) : Nat :=
  (d.dlr.cards.filter fun x => x.state == .ready && x.cls == c && x.quarter == q).length
def dlrLive (d : Dev) (off a : Nat) : Word :=
  let used := ledgLevel (ledg d 1 0)
  if off = 0 then
    wd (flagAt 0 d.tim.running + flagAt 1 (decide (d.variant.fwSlots < fwUsed d + 4096)) +
      flagAt 2 (decide (d.variant.poolSlots ≤ poolUsedSlots d)))
  else if off = 0x10 then wd used
  else if 0x200 ≤ off && off < 0x300 then wd (fnUsed d ((off - 0x200) / 4))
  else if 0x300 ≤ off && off < 0x340 then wd (readyCards d ((off - 0x300) / 0x10) (off % 0x10 / 4))
  else if 0x340 ≤ off && off < 0x34C then wd (readyCards d 0xFF ((off - 0x340) / 4))
  else reg d a

def teamLive (d : Dev) (q t off a : Nat) : Word :=
  if off = 0 then
    if uState d ⟨1, q, t⟩ = 0 then reg d a else
    withBits (reg d a) 0xFF0000
      (((List.range 8).map fun c => flagAt (16 + c) (findCore d (64 * q + 8 * t + c)).card.isNone).sum)
  else reg d a

/-- The register that MDC_REG_SEL selects of a halted core. (DEDUCED, log entry 86.) -/
def coreSelected (x : Core) (sel : Word) : BitVec 256 :=
  let n := fld sel 3 5
  let part := fld sel 8 2
  match fld sel 0 3 with
  | 0 => nth x.d n 0
  | 1 => BitVec.ofNat 256 ((nth x.x n 0).toNat / 2 ^ (256 * part))
  | 2 => (nth x.a n 0).setWidth 256
  | 3 => (nth x.m n 0).setWidth 256
  | 4 => (nth x.b n 0).setWidth 256
  | 5 => (nth x.l n 0).setWidth 256
  | 6 => (nth x.s n 0).setWidth 256
  | _ => BitVec.ofNat 256 (x.p.toNat / 2 ^ n % 2)
def mdcLive (d : Dev) (k off a : Nat) : Word :=
  let x := findCore d k
  if off = 4 then
    withBits (reg d a) 0xF000F (flagAt 0 x.halted + flagAt 1 x.card.isNone + flagAt 2 x.hold.isSome + flagAt 3 x.ctx.isSome +
      2 ^ 16 * (x.rrb % 16))
  else if off = 8 then x.pc
  else if off = 0x18 then
    (match x.card with
     | some s => wd (cardHandle s)
     | none => 0)
  else if 0x40 ≤ off then
    (if x.halted then wd ((coreSelected x (reg d (MDCi k + 0x30))).toNat / 2 ^ (32 * ((off - 0x40) / 4))) else 0)
  else reg d a

/-- The work of the cards that a decode pipe's two stages hold (R213). (DEDUCED, log entry 168.) -/
def stageWork (d : Dev) (u : UnitId) : List Work := ((queueOf d u).take 2).filterMap fun s => (findCard d s).map Card.work
def inEntropy : Work → Bool
  | .segment _ _ _ => true
  | .parse _ _ => true
  | _ => false
def inPixel : Work → Bool
  | .segment _ _ _ => true
  | .rebuild _ _ _ _ => true
  | .conceal _ _ => true
  | _ => false
def vdcLive (d : Dev) (u : UnitId) (off a : Nat) : Word :=
  let w := stageWork d u
  if off = 0 then
    withBits (reg d a) 0xF0600 (flagAt 9 (w.any inEntropy) + flagAt 10 (w.any inPixel) + 2 ^ 16 * (queueOf d u).length)
  else if off = 0x34 then spGet d.latch a
  else reg d a

/-- The head of the compositor's queue waits for a band buffer. -/
def bandWaits (d : Dev) (u : UnitId) : Bool :=
  match (queueOf d u).head?.bind (findCard d) with
  | some c =>
    (match c.work with
     | .compose h _ b =>
       (match findLayout d h with
        | some l => decide (ledgFree d 8 (4 * u.quarter + u.index) < bandUnits l b)
        | none => false)
     | _ => false)
  | none => false
def cmpLive (d : Dev) (u : UnitId) (off a : Nat) : Word :=
  let n := (d.vid.layouts.filter fun l => l.home == u.quarter && l.comp == u.index).length
  if off = 0 then
    withBits (reg d a) 0x3F0600 (flagAt 9 (!(queueOf d u).isEmpty) + flagAt 10 (bandWaits d u) + 2 ^ 16 * n)
  else if off = 8 then wd (ledg d 8 (4 * u.quarter + u.index)).inUse
  else reg d a
def venLive (d : Dev) (u : UnitId) (off a : Nat) : Word :=
  let n := (d.vid.encs.filter fun e => e.home == u.quarter && e.pipe == u.index).length
  if off = 0 then
    withBits (reg d a) 0xFF0F0200 (flagAt 9 (!(queueOf d u).isEmpty) + 2 ^ 16 * (queueOf d u).length + 2 ^ 24 * n)
  else reg d a
def dmaLive (d : Dev) (u : UnitId) (off a : Nat) : Word :=
  if off = 0 then withBits (reg d a) 0x1F0200 (flagAt 9 (!(queueOf d u).isEmpty) + 2 ^ 16 * (queueOf d u).length)
  else if off = 0x24 then spGet d.latch a
  else reg d a

def fwdLive (d : Dev) (off a : Nat) : Word :=
  if off = 0x10 then wd (ledgLevel (ledg d 5 0))
  else if off = 0x20 then
    (match d.fwd.recs with
     | [] => 0
     | r :: rs => wd (d.tim.stride - rs.foldl (fun m x => min m x.2.2) r.2.2))
  else reg d a
def memLive (d : Dev) (off a : Nat) : Word :=
  if off = 0x14 then wd (surfMib d * 1024)
  else if off = 0x18 then wd (ledgFree d 6 0 * 2048)
  else reg d a

/-- What a register shows, read effects aside; `is` are the block's indices. -/
def liveReg (d : Dev) (l : Loc) (a : Nat) : Word :=
  let i (n : Nat) : Nat := nth l.idx n 0
  match l.blk with
  | .hif => hifLive d (i 0) l.off a
  | .sys => sysLive d l.off a
  | .ldg => ldgLive d l.off a
  | .pwr => pwrLive d l.off a
  | .tck => tckLive d l.off a
  | .fus => fusLive d l.off
  | .tim => timLive d l.off a
  | .dlr => dlrLive d l.off a
  | .team => teamLive d (i 0) (i 1) l.off a
  | .mdc => mdcLive d (64 * i 0 + 8 * i 1 + i 2) l.off a
  | .vdc => vdcLive d ⟨2, i 0, i 1⟩ l.off a
  | .cmp => cmpLive d ⟨3, i 0, i 1⟩ l.off a
  | .ven => venLive d ⟨4, i 0, i 1⟩ l.off a
  | .dmaQ => dmaLive d ⟨6, i 0, i 1⟩ l.off a
  | .dmaDev => dmaLive d ⟨6, 0xFF, i 0⟩ l.off a
  | .pad => if l.off = 0x10 then wd (ledg d 7 (i 0)).inUse else reg d a
  | .pke => if l.off = 0x10 then wd (ledgLevel (ledg d 0 0)) else reg d a
  | .sec => if l.off = 0 then withBits (reg d a) 0x200 (flagAt 9 (rootOk d)) else if l.off = 0x10 then wd (ledgLevel (ledg d 3 0)) else reg d a
  | .fwd => fwdLive d l.off a
  | .brd => if l.off = 0x18 then spGet d.latch a else reg d a
  | .mem => memLive d l.off a
  | .evt | .aud | .cft | .mac | .sds | .msix => reg d a

/-! ### Reads -/

/-- A read of a register has one of three effects beyond its value: it latches the HI register 4 above, it clears the
register, or none (tables of the owning chapters). -/
inductive ReadEffect where
  | none | latches | clears
  deriving DecidableEq, Repr
def readEffect (l : Loc) : ReadEffect :=
  match l.blk with
  | .vdc => if l.off = 0x30 then .latches else .none
  | .brd => if l.off = 0x14 then .latches else .none
  | .dmaQ | .dmaDev => if l.off = 0x20 then .latches else .none
  | .tim => if 0x304 ≤ l.off && (l.off - 0x304) % 0x20 = 0 then .latches else .none
  | .ldg => if l.off = 8 then .clears else .none
  | .aud => if l.off = 0x218 then .clears else .none
  | .pad => if 0x100 ≤ l.off then .clears else .none
  | _ => .none

/-- A read of the register at `a`: its value and the device after it (R50, R412). (DEDUCED, log entry 11; DESIGN CHOICE, log entry 206.) -/
def readReg (d : Dev) (a : Nat) : Word × Dev :=
  match regAt d.variant a with
  | none => (0, d)
  | some (l, _, _) =>
    if a = TIM + 8 then timeRead d false
    else if a = TIM + 0x14 then timeRead d true
    else if a = TIM + 0x108 then strideRead d
    else if l.blk == .tim && decide (0x204 ≤ l.off) && decide (l.off < 0x280) && l.off % 0x10 == 4 then
      txtsPop d ((l.off - 0x204) / 0x10)
    else if a = SYS + 0x28 then dumpRead d false
    else
      let v := liveReg d l a
      match readEffect l with
      | .none => (v, d)
      | .latches => (v, setLatch d (a + 4) (reg d (a + 4)))
      | .clears => (v, setReg d a 0)

/-- The bytes that a read of `n` bytes at `addr` takes of the word that holds the first of them (R50). (DEDUCED, log entry 21.) -/
def readBytes (v : Word) (addr n : Nat) : Word := wd (v.toNat / 256 ^ (addr % 4) % 256 ^ n)
/-- A read by function `fn` of `n` bytes at `addr`, all of one word: the whole register is read, and the addressed bytes leave the
block (R50). -/
def hostReadReg (d : Dev) (fn addr n : Nat) : Dev :=
  match barAddr fn (addr - addr % 4) with
  | none => emitOut d (.readData fn addr 0)
  | some a => (let r := readReg d a
               emitOut r.2 (.readData fn addr (readBytes r.1 addr n)))

/-! ### Writes -/

/-- The unit whose state governs the RWC fields of a register: `none` for MEM, and for blocks of no class (R411). (DEDUCED, log entry 163.) -/
def governor (l : Loc) : Option UnitId :=
  let i (n : Nat) : Nat := nth l.idx n 0
  match l.blk with
  | .team | .mdc => some ⟨1, i 0, i 1⟩
  | .vdc => some ⟨2, i 0, i 1⟩
  | .cmp => some ⟨3, i 0, i 1⟩
  | .ven => some ⟨4, i 0, i 1⟩
  | .aud => some ⟨5, i 0, 0⟩
  | .dmaQ => some ⟨6, i 0, i 1⟩
  | .dmaDev => some ⟨6, 0xFF, i 0⟩
  | .pke => some ⟨7, 0xFF, 0⟩
  | .sec => some ⟨8, 0xFF, 0⟩
  | .fwd => some ⟨9, 0xFF, 0⟩
  | .brd => some ⟨10, 0xFF, i 0⟩
  | .mac => some ⟨11, 0xFF, i 0⟩
  | .sds => some ⟨12, 0xFF, i 0⟩
  | .cft => some ⟨13, 0xFF, 0⟩
  | _ => none
/-- RWC fields of the block may be written now (R9, R343). (DEDUCED, log entry 163.) -/
def rwcOpen (d : Dev) (l : Loc) : Bool :=
  match governor l with
  | some u => uState d u == 0
  | none => l.blk == .mem && d.sys.mode == .boot
/-- The register that holds the block's cfg_reject, bit 8. -/
def rejectReg (l : Loc) : Nat := match governor l with | some u => statusReg u | none => MEM

/-- A field of a value held within limits. -/
def clampF (v : Word) (lo len least most : Nat) : Word := setFld v lo len (clamp least most (fld v lo len))
/-- A field of a value: where it exceeds `most`, `other` is stored. -/
def overF (v : Word) (lo len most other : Nat) : Word := if most < fld v lo len then setFld v lo len other else v

/-- What the field tables store for a written value: values out of a field's range are replaced as its row says. -/
def storedValue (d : Dev) (l : Loc) (v : Word) : Word :=
  let big := 2 ^ 32
  match l.blk with
  | .hif => if 0x100 ≤ l.off && l.off < 0x200 then clampF v 0 17 0 65536 else v
  | .ldg => if 0x440 ≤ l.off && l.off < 0x480 then clampF v 0 10 0 500 else v
  | .pwr => if l.off = 4 then clampF v 0 10 20 1000 else v
  | .tim => if l.off = 0x38 then clampF (clampF v 0 16 1 big) 16 16 1 big else v
  | .dlr =>
    if l.off = 4 then clampF (clampF v 0 8 1 big) 16 8 1 big
    else if (0x100 ≤ l.off && l.off < 0x200) || 0x400 ≤ l.off then clampF v 0 19 0 d.variant.poolSlots else v
  | .team => if l.off = 4 then clampF (clampF v 8 5 16 31) 16 6 16 48 else v
  | .mac =>
    if l.off = 4 then overF v 12 2 2 2
    else if l.off = 0x10 then
      (let w := clampF v 0 14 1518 9216
       if featOn d 0 110 then w else overF w 0 14 1522 1522)
    else v
  | .sds => if l.off = 4 then clampF (overF v 1 2 2 0) 8 8 1 big else v
  | .pke => if l.off = 0xC then clampF v 0 16 1 big else if 0x20 ≤ l.off && l.off < 0x40 then clampF v 0 13 36 4096 else v
  | .aud => if l.off = 8 then overF v 24 3 4 4 else if l.off = 0x10 then clampF v 0 24 1 big else if l.off = 0x14 then clampF v 0 16 1 big else v
  | .cft => if l.off = 4 then (if 1 ≤ fld v 2 3 && fld v 2 3 ≤ 4 then v else setFld v 2 3 1) else v
  | .vdc => if l.off = 4 then clampF v 0 16 256 big else v
  | .cmp => if l.off = 4 then clampF v 0 13 64 4608 else v
  | .ven => if l.off = 4 then overF (clampF (clampF (clampF v 0 7 8 64) 8 6 4 32) 16 2 1 3) 18 2 2 2 else v
  | .fwd => if l.off = 4 then clampF (clampF v 0 12 1 big) 12 8 1 big else if l.off = 8 then clampF v 0 16 1024 32768 else v
  | .brd => if 0x100 ≤ l.off && l.off < 0x500 && l.off % 0x40 = 0 then clampF v 0 8 1 big else v
  | .mem =>
    if l.off = 4 then clampF (clampF (overF v 0 2 2 0) 4 5 4 16) 16 8 1 big
    else if l.off = 8 then (if v = 0 then 1 else v)
    else if l.off = 0xC then clampF v 0 8 1 big
    else if l.off = 0x10 then clampF v 0 16 1 big
    else v
  | .pad => if l.off = 0 then clampF v 0 7 1 64 else v
  | .dmaQ | .dmaDev => if l.off = 4 then clampF v 0 7 1 64 else v
  | _ => v

/-- A write to a register with no rule of its own acts on each field under its access type (R9): RW and RWS fields are set, RWC
fields only where they are open, W1C fields clear where 1 is written; a refused RWC write that differs sets cfg_reject. -/
def writeFields (d : Dev) (l : Loc) (r : RegRow) (is : List Nat) (a : Nat) (v : Word) : Dev :=
  if r.roIx d.variant is then d
  else
    let old := reg d a
    let open_ := rwcOpen d l
    let d1 := if !open_ && ((v ^^^ old) &&& wd r.rwc) != 0 then putB d (rejectReg l) 8 true else d
    let take := wd r.rw ||| wd r.rws ||| (if open_ then wd r.rwc else 0)
    let old := reg d1 a
    setReg d1 a ((old &&& ~~~ take &&& ~~~ (v &&& wd r.w1c)) ||| (storedValue d l v &&& take))

/-- A W1C bit whose clearing clears a count beside it (tables HIF_ACCESS_ERR, TIM_TXTS_STAT). -/
def clearCounted (d : Dev) (a i : Nat) (v : Word) : Dev := if bit v i then setF (putB d a i false) a 16 16 0 else d

/-- HIF registers of function `fn`'s view with rules of their own. -/
def writeHif (d : Dev) (fn : Nat) (l : Loc) (r : RegRow) (is : List Nat) (a : Nat) (v : Word) : Dev :=
  let off := l.off
  if 0x30 ≤ off && off < 0x50 then writeFeature d fn ((off - 0x30) / 4) v
  else if off = 0x50 then writeLock d fn v
  else if off = 0x68 then nudge d fn
  else if off = 0x70 then clearCounted d a 0 v
  else if 0x1000 ≤ off && off < 0x1680 then
    (let ring := (off - 0x1000) / 0x20
     match (off - 0x1000) % 0x20 with
     | 0 => writeRingWord d fn ring 0 0xFFFFF000 v
     | 4 => writeRingWord d fn ring 4 0xFFFFFFFF v
     | 8 => writeRingCfg d fn ring v
     | 0xC => writeRingWord d fn ring 0xC 0xFFFF v
     | _ => writeFields d l r is a v)
  else writeFields d l r is a v

/-- SYS registers with rules of their own. -/
def writeSys (d : Dev) (l : Loc) (r : RegRow) (is : List Nat) (a : Nat) (v : Word) : Dev :=
  match l.off with
  | 4 => writeBootCtrl d v
  | 0x18 => writeReset d v d.sys.bootSrc
  | _ => writeFields d l r is a v

/-- TIM registers with rules of their own: pulse programmes need feature 23, and wait while one is pending (R315). -/
def writeTim (d : Dev) (l : Loc) (r : RegRow) (is : List Nat) (a : Nat) (v : Word) : Dev :=
  let off := l.off
  if off = 4 then writeTimCtrl d v
  else if off = 0x20 then writeFreq d v
  else if off = 0x2C then landStep {} (writeStepCtrl d v)
  else if 0x200 ≤ off && off < 0x280 && off % 0x10 = 0 then clearCounted d a 8 v
  else if 0x300 ≤ off then
    (let g := (off - 0x300) / 0x20
     if off % 0x20 = 0 then writePulseCfg d g v d.tim.clock
     else if !featOn d 0 23 || (getPulse d g).pending.isSome then d
     else writeFields d l r is a v)
  else writeFields d l r is a v

/-- Bridle registers with rules of their own. -/
def writeBrd (d : Dev) (l : Loc) (r : RegRow) (is : List Nat) (a : Nat) (v : Word) : Dev :=
  let p := nth l.idx 0 0
  if (shaperAt a).isSome || (burstAt a).isSome then writeShaper d a v
  else if l.off = 0x10 then writeGclCtrl d p v d.tim.clock
  else if 0x800 ≤ l.off then writeGcl d p a v
  else if (brdStatAt a).isSome then watermarkClear d a v
  else writeFields d l r is a v

/-- The ledger watermark statuses (R360). -/
def isWmStat (l : Loc) : Bool :=
  match l.blk with
  | .dlr | .pke | .sec | .fwd | .pad => l.off == 0x18
  | .cmp => l.off == 0x10
  | _ => false

/-- A write to a word of a function's MSI-X table: unmasking a vector sends its pending message. (PRESUMED, log entry 180.) -/
def writeMsix (d : Dev) (fn : Nat) (l : Loc) (r : RegRow) (is : List Nat) (a : Nat) (v : Word) : Dev :=
  let d := writeFields d l r is a v
  let i := l.off / 0x10
  if l.off < 0x200 && l.off % 0x10 = 0xC && !bit v 0 && getB d (msixPba fn) i then sendMsix (putB d (msixPba fn) i false) fn i else d

/-- A whole-word write to the register at `a` of what function `fn` sees. -/
def writeReg (d : Dev) (a : Nat) (v : Word) : Dev :=
  match regAt d.variant a with
  | none => d
  | some (l, r, is) =>
    let i (n : Nat) : Nat := nth l.idx n 0
    if isWmStat l then watermarkClear d a v
    else
      match l.blk with
      | .hif => writeHif d (i 0) l r is a v
      | .evt => if i 0 = 0 && l.off = 0 then clearFatal d v else writeFields d l r is a v
      | .sys => writeSys d l r is a v
      | .fus =>
        if l.off = 4 then writeFusFree d v
        else if 0x10 ≤ l.off then setReg d a v
        else d
      | .tim => writeTim d l r is a v
      | .mdc => if l.off = 0 then writeMdcCtrl d (64 * i 0 + 8 * i 1 + i 2) v else writeFields d l r is a v
      | .sec => if l.off = 4 then secSelftest d v else writeFields d l r is a v
      | .fwd => if l.off = 8 then fitSurface (writeFields d l r is a v) else writeFields d l r is a v
      | .mac => if l.off = 0xC then writeRole d (i 0) v else writeFields d l r is a v
      | .brd => writeBrd d l r is a v
      | .msix => writeMsix d (i 0) l r is a v
      | _ => writeFields d l r is a v

/-- A partial write is ignored, counted and reported (R50). -/
def subWord (d : Dev) (fn addr : Nat) : Dev :=
  let a := viewBase fn + 0x70
  raise (putB (satF d a 16 16 1) a 0 true) (evFn fn 0x103 1 [(1, fn), (4, addr - addr % 4)])

/-- A 32-bit write by function `fn`: an unaligned one covers no register whole. (DEDUCED, log entry 21.) -/
def hostWriteReg (d : Dev) (fn addr : Nat) (v : Word) : Dev :=
  match barAddr fn addr with
  | none => d
  | some a => if addr % 4 = 0 then writeReg d a v else subWord d fn addr

/-! ### The rows -/

def execRegisterWrite (fn : Fin 64) (addr : Nat) (val : Word) (s : State) : Host.Outcome State Fault Refusal :=
  onDev (fun d => hostWriteReg d fn.val addr val) s
def execSubWord (fn : Fin 64) (addr : Nat) (s : State) : Host.Outcome State Fault Refusal :=
  onDev (fun d => match barAddr fn.val addr with
    | some _ => subWord d fn.val addr
    | none => d) s
def execStrideCountRead (fn : Fin 64) (s : State) : Host.Outcome State Fault Refusal :=
  onDev (fun d => hostReadReg d fn.val (TIM + 0x108) 4) s
/-- REGISTER_READ of `n` bytes at network time `at_` (R50). -/
def execRegisterRead (fn : Fin 64) (addr n : Nat) (at_ : Nat) (s : State) : Host.Outcome State Fault Refusal :=
  onDev (fun d => hostReadReg (readAt d at_) fn.val addr n) s

/-! ### IMAGE_ACCEPTED (R371) -/

/-- Whether a boot setting's offset lies in the ranges of R385. -/
def settingOk (a : Nat) : Bool :=
  decide (a < 0x23000) || (decide (TIM ≤ a) && decide (a < TIM + 0x1000)) || (decide (MEM ≤ a) && decide (a < MEM + 0x1000))
/-- Boot settings, in order, as register writes of the PF; others are counted as skipped. -/
def applySettings (d : Dev) (ps : List (Nat × Word)) : Dev :=
  ps.foldl (fun d p =>
    if !d.sys.imageOk then d
    else if settingOk p.1 then hostWriteReg d 0 p.1 p.2
    else satF d TCK 16 10 1) d
/-- Firmware comes up: the Tack store, the boot settings, the repair records, the default rule set (R416); then TRAIN, or the
wait for go. -/
def imageAccepted (d : Dev) : Dev :=
  if d.sys.mode != .boot || !d.sys.imageOk || d.sys.fwUp then d
  else
    let d := setF (tackBoot d) TCK 16 10 0
    let d := applySettings d (tackSettings d)
    if !d.sys.imageOk then d
    else
      let d := loadDefaultRules d
      tryLeaveBoot { d with sys := { d.sys with repairs := tackRepairs d, fwUp := true, tckEvent := true } }
def execImageAccepted (s : State) : Host.Outcome State Fault Refusal := onDev imageAccepted s

end Sys2Proof.Machine
end

