-- ==== Sys2Proof/Machine/Paddock.lean ====
section
/-! DEFINITION. The Paddock bank arbiters (R339 to R342). -/
namespace Sys2Proof.Machine

/-- Trump-class masters: the compositors' band writers and the encode pipes' band readers. -/
def padTrump (m : Nat) : Bool := decide (m < 12)
def isCoreMaster (m : Nat) : Bool := decide (17 ≤ m) && decide (m ≤ 80)
/-- A master's base priority (table Paddock masters). -/
def basePrio (ctrl : Word) (m : Nat) : Nat :=
  if m < 12 then fld ctrl 8 4 else if m < 17 then fld ctrl 20 4 else if m < 81 then fld ctrl 12 4 else fld ctrl 16 4
/-- Beats that a master takes per grant: one, up to 64, or a DMA channel's burst (R348). -/
def grantBeats (d : Dev) (q m n : Nat) : Nat :=
  if m < 12 || isCoreMaster m then 1
  else if m < 81 then clamp 1 64 n
  else clamp 1 (clamp 1 64 (getF d (DMA q (m - 81) + 4) 0 7)) n
/-- The unit that a hardware master belongs to; the groom cores are of no unit class. -/
def masterUnit (q m : Nat) : Option UnitId :=
  if m < 4 then some ⟨3, q, m⟩ else if m < 12 then some ⟨4, q, m - 4⟩ else if m = 16 then some ⟨5, q, 0⟩
  else if 81 ≤ m then some ⟨6, q, m - 81⟩ else none

/-- The bank that master `m` owns, other than `n`. -/
def ownsOther (d : Dev) (q n m : Nat) : Option Nat :=
  (d.mem.padBanks.find? fun b => b.q == q && b.n != n && b.owner == some m).map PadBank.n

/-- A hardware master that asks for a second bank: its hold drops and its unit enters FAULT (R339). -/
def twoHold (d : Dev) (q n m held : Nat) : Dev :=
  let d := cnt (releaseBank d q held m) (PAD q + 0x40) 1
  let detail := [(1, q), (1, m), (1, held), (1, n)]
  match masterUnit q m with
  | some u => faultUnit (raise d (evUnit u 0xC41 2 detail)) u
  | none => raise d { code := 0xC41, cls := 2, scope := 1, quarter := q, index := m, detail := detail }

/-- Whether master `m` reaches a bank: team memory only the cores of its team and the DMA channels (R12); the cores of absent teams
reach none (R2). -/
def padReach (v : Variant) (n m : Nat) : Bool :=
  (!isCoreMaster m || decide ((m - 17) / 8 < v.teams)) &&
  (n < 24 || decide (v.teams ≤ n - 24) || decide (81 ≤ m) || (isCoreMaster m && (m - 17) / 8 == n - 24))
/-- A request enters at its base priority. -/
def padAsk (d : Dev) (q n : Nat) (a : PadAsk) : Dev :=
  let m := a.master.val
  if !padReach d.variant n m then d
  else match ownsOther d q n m with
  | some held => if isCoreMaster m then d else twoHold d q n m held
  | none =>
    let b := getBank d q n
    if b.reqs.any fun r => r.master == m then d
    else putBank d { b with reqs := b.reqs ++ [⟨m, padTrump m, basePrio b.ctrl m, grantBeats d q m a.beats⟩] }

/-- The first of tied masters after the last winner, in master order. -/
def tieWinner (last : Option Nat) (ms : List Nat) : Option Nat :=
  match last with
  | none => ms.min?
  | some l => ((ms.filter fun m => decide (l < m)).min?).orElse fun _ => ms.min?

/-- Quota in force. -/
def quota (b : PadBank) : Nat := clamp 1 64 (fld b.ctrl 0 7)

/-- A round (R341, R342): trump masters are masked once the quota is used, where an ordinary master asks. (DEDUCED, log entry 162.) -/
def padRound (b : PadBank) : PadBank :=
  let mask := decide (quota b ≤ b.grants) && b.reqs.any fun r => !r.trump
  let takes := b.reqs.filter fun r => !(mask && r.trump)
  match (takes.map PadReq.prio).max? with
  | none => b
  | some top =>
    match tieWinner b.lastWin ((takes.filter fun r => r.prio == top).map PadReq.master) with
    | none => b
    | some w =>
      { b with
        reqs := (b.reqs.filter fun r => r.master != w).map fun r => if mask && r.trump then r else { r with prio := min 15 (r.prio + 1) }
        owner := some w
        lastWin := some w
        grants := b.grants + (padTrump w).toNat
        masked := b.masked || (mask && b.reqs.any fun r => r.trump) }

/-- A core holds the bank in a locked sequence: no round is held (R123, R339). (DEDUCED, log entry 82.) -/
def bankLocked (d : Dev) (q n : Nat) : Bool :=
  match (getBank d q n).owner with
  | some m => isCoreMaster m && (findCore d (64 * q + (m - 17))).hold.isSome
  | none => false

/-- A cycle in which the bank's owner drops its request or the bank has none: requests enter and a round is held. (DEDUCED, log entry 162.) -/
def paddockRound (d : Dev) (q n : Nat) (asks : List PadAsk) : Dev :=
  if !quarterUp d q || halted d then d
  else
    let lock := bankLocked d q n
    let d := if lock then d else (let b := getBank d q n
                                  putBank d { b with owner := none })
    let d := asks.foldl (fun d a => padAsk d q n a) d
    if lock then d
    else
      let b := getBank d q n
      let c := padRound b
      let beats := match c.owner with
        | some w => ((b.reqs.find? fun r => r.master == w).map PadReq.beats).getD 1
        | none => 0
      let d := maxReg d (PAD q + 0x100 + 4 * n) beats
      putBank d (if beats ≤ 1 then { c with owner := none } else c)
def execPaddockRound (q : Fin 4) (bank : Fin 32) (asks : List PadAsk) (s : State) : Host.Outcome State Fault Refusal :=
  onDev (fun d => paddockRound d q.val bank.val asks) s

/-- A window of 64 cycles ends (R342). -/
def quotaWindow (d : Dev) (q n : Nat) : Dev :=
  if !quarterUp d q || halted d then d
  else
    let b := getBank d q n
    let d := if b.masked then cnt d (PAD q + 0x3C) 1 else d
    putBank d { b with grants := 0, masked := false, ctrl := reg d (PAD q) }
def execQuotaWindow (q : Fin 4) (bank : Fin 32) (s : State) : Host.Outcome State Fault Refusal :=
  onDev (fun d => quotaWindow d q.val bank.val) s

end Sys2Proof.Machine
end

