-- ==== Sys2Proof/Machine/Ptp.lean ====
section
/-! DEFINITION. PTP messages at the firmware servo (R309). -/
namespace Sys2Proof.Machine

/-- The PTP message in a frame, without its transport: 0 for Ethernet, 1 for UDP over IPv4, 2 for UDP over IPv6. (PRESUMED, log entry
188.) -/
def ptpPayload (bs : List Byte) : Option (Nat × List Byte) :=
  let o := if beNat (slice bs 12 2) = 0x8100 then 18 else 14
  let udp (u : Nat) : Bool := beNat (slice bs (u + 2) 2) == 319 || beNat (slice bs (u + 2) 2) == 320
  let h := 4 * ((nth bs o 0).toNat % 16)
  match beNat (slice bs (o - 2) 2) with
  | 0x88F7 => some (0, bs.drop o)
  | 0x0800 => if nth bs (o + 9) 0 == 17 && udp (o + h) then some (1, bs.drop (o + h + 8)) else none
  | 0x86DD => if nth bs (o + 6) 0 == 17 && udp (o + 40) then some (2, bs.drop (o + 48)) else none
  | _ => none
/-- Whether TIM_CTRL's profile takes a transport (table Supported profiles): G.8275.1 only Ethernet to its two multicast addresses. -/
def ptpTransport (d : Dev) (tr : Nat) (bs : List Byte) : Bool :=
  getB d (TIM + 4) 2 || (tr == 0 && (slice bs 0 6 == [0x01, 0x1B, 0x19, 0, 0, 0] || slice bs 0 6 == [0x01, 0x80, 0xC2, 0, 0, 0x0E]))
/-- Whether the profile accepts a domain (table Supported profiles). -/
def ptpDomain (d : Dev) (m : Nat) : Bool :=
  m == getF d (TIM + 4) 8 8 && if getB d (TIM + 4) 2 then decide (m < 128) else decide (24 ≤ m) && decide (m ≤ 43)
/-- Message types: 0 Sync, 8 Follow_Up, 9 Delay_Resp, 11 Announce. (PRESUMED, log entry 188.) -/
def ptpType (m : List Byte) : Nat := (nth m 0 0).toNat % 16
/-- Whether the profile accepts the message rate that a header names, as the binary logarithm of its interval (table Supported
profiles). (PRESUMED, log entry 188.) -/
def ptpRate (d : Dev) (m : List Byte) : Bool :=
  let r := (nth m 33 0).toInt
  let dflt := getB d (TIM + 4) 2
  match ptpType m with
  | 0 => if dflt then decide (-7 ≤ r) && decide (r ≤ 0) else r == -4
  | 11 => if dflt then decide (-3 ≤ r) && decide (r ≤ 0) else r == -3
  | _ => true
/-- Whether the servo takes a frame (R309): on an active port named in ports, under a profile whose feature bit is accepted, over the
profile's transport, in the domain, at an accepted rate. -/
def ptpAccepts (d : Dev) (k : PtpIn) : Option (List Byte) :=
  if !featOn d 0 (if getB d (TIM + 4) 2 then 145 else 144) || !getB d (TIM + 4) (16 + k.port) || !isActive d k.port then none
  else match ptpPayload k.bytes with
    | none => none
    | some (tr, m) =>
      if ptpTransport d tr k.bytes && (nth m 1 0).toNat % 16 == 2 && ptpDomain d (nth m 4 0).toNat && ptpRate d m then some m else none

/-- An Announce: the best master selection chooses the port of the master (R309). (DESIGN CHOICE, log entry 178.) -/
def ptpAnnounce (d : Dev) (p : Nat) : Dev :=
  if !getB d (TIM + 4) (16 + p) || !isActive d p then d
  else
    let old := getF d TIM 8 3
    let d := setF d TIM 8 3 p
    let d := if old = p then d else raise d (evDev 0xB05 0 [(1, old), (1, p)])
    if timMode d = 0 && (servo d == 0 || servo d == 3) then setServo d 1 else d
/-- The Delay_Req that the servo sends: its stamp takes the internal path, its queue is left open (R309). (DEDUCED, log entry 189.) -/
def ptpDelayReq (d : Dev) (p : Nat) (bs : List Byte) : Dev :=
  let r := drawFree d 4
  enterBridle r.2 { id := 0, port := p, queue := r.1.toNat, bytes := bs }
/-- A Sync exchange that is complete: the offset is shown, and in mode 0 the servo steers by it; a delay request may follow. -/
def ptpExchange (d : Dev) (p : Nat) (m : Ptp) : Dev :=
  let d := showOffset d m.offset
  let d := if timMode d = 0 && (servo d == 1 || servo d == 2) then servoSync d p m.offset m.freq m.step else d
  match m.delayReq with
  | some bs => ptpDelayReq d p bs
  | none => d
/-- A message of the selected master's port: a one-step Sync completes its exchange, a two-step Sync waits for its Follow_Up (R309). -/
def ptpSync (d : Dev) (p : Nat) (bs : List Byte) (m : Ptp) : Dev :=
  let seq := beNat (slice bs 30 2)
  if p != getF d TIM 8 3 then d
  else if ptpType bs = 0 then
    (if (nth bs 6 0).toNat.testBit 1 then { d with tim := { d.tim with syncWait := some (p, seq) } } else ptpExchange d p m)
  else if d.tim.syncWait == some (p, seq) then ptpExchange { d with tim := { d.tim with syncWait := none } } p m
  else d
/-- The servo takes the oldest PTP frame (R309). (PRESUMED, log entry 188.) -/
def ptpMessage (d : Dev) (m : Ptp) : Dev :=
  match d.tim.ptp with
  | [] => d
  | k :: ks =>
    let d := { d with tim := { d.tim with ptp := ks } }
    if !d.tim.running then d
    else match ptpAccepts d k with
      | none => d
      | some bs =>
        match ptpType bs with
        | 0 | 8 => ptpSync d k.port bs m
        | 11 => (match m.master with
                 | some p => ptpAnnounce d p.val
                 | none => d)
        | _ => d
def execPtpMessage (m : Ptp) (env : BoundaryEnv) (s : State) : Host.Outcome State Fault Refusal :=
  onDev (fun d => landStep env (ptpMessage d m)) s

end Sys2Proof.Machine
end

