-- ==== Sys2Proof/Machine/Dispatch.lean ====
section
/-! DEFINITION. One arm per command: a direct call of its meaning. -/
namespace Sys2Proof.Machine

def exec (i : Instr) (s : State) : Host.Outcome State Fault Refusal :=
  match i with
  | .registerWrite fn addr val => Sys2Proof.Machine.execRegisterWrite fn addr val s
  | .subWord fn addr => Sys2Proof.Machine.execSubWord fn addr s
  | .strideBoundary env => Sys2Proof.Machine.execStrideBoundary env s
  | .strideCountRead fn => Sys2Proof.Machine.execStrideCountRead fn s
  | .deadlineDrop slot => Sys2Proof.Machine.execDeadlineDrop slot s
  | .overrun slot cycles => Sys2Proof.Machine.execOverrun slot cycles s
  | .doorbellFetch fn page => Sys2Proof.Machine.execDoorbellFetch fn page s
  | .hifNudge fn val => Sys2Proof.Machine.execHifNudge fn val s
  | .descriptorAccept => Sys2Proof.Machine.execDescriptorAccept s
  | .featureWrite fn j val => Sys2Proof.Machine.execFeatureWrite fn j val s
  | .featureLock fn val => Sys2Proof.Machine.execFeatureLock fn val s
  | .ringEnable fn r cfg => Sys2Proof.Machine.execRingEnable fn r cfg s
  | .ringDisable fn r cfg => Sys2Proof.Machine.execRingDisable fn r cfg s
  | .ringIdle fn r => Sys2Proof.Machine.execRingIdle fn r s
  | .linkChange rate width => Sys2Proof.Machine.execLinkChange rate width s
  | .vfFlr v => Sys2Proof.Machine.execVfFlr v s
  | .pfFlr => Sys2Proof.Machine.execPfFlr s
  | .nop fn ring => Sys2Proof.Machine.execNop fn ring s
  | .sessionOpen fn ring => Sys2Proof.Machine.execSessionOpen fn ring s
  | .sessionClose fn ring => Sys2Proof.Machine.execSessionClose fn ring s
  | .sessionCloseDone session => Sys2Proof.Machine.execSessionCloseDone session s
  | .objRelease fn ring => Sys2Proof.Machine.execObjRelease fn ring s
  | .objQuery fn ring => Sys2Proof.Machine.execObjQuery fn ring s
  | .confCreate fn ring => Sys2Proof.Machine.execConfCreate fn ring s
  | .partCreate fn ring => Sys2Proof.Machine.execPartCreate fn ring s
  | .partSet fn ring => Sys2Proof.Machine.execPartSet fn ring s
  | .craftSet fn ring => Sys2Proof.Machine.execCraftSet fn ring s
  | .legCreate fn ring rule => Sys2Proof.Machine.execLegCreate fn ring rule s
  | .legSet fn ring => Sys2Proof.Machine.execLegSet fn ring s
  | .fanoutAdd fn ring => Sys2Proof.Machine.execFanoutAdd fn ring s
  | .fanoutDel fn ring => Sys2Proof.Machine.execFanoutDel fn ring s
  | .keyLoad fn ring blob => Sys2Proof.Machine.execKeyLoad fn ring blob s
  | .keyRetire fn ring => Sys2Proof.Machine.execKeyRetire fn ring s
  | .ctxCreate fn ring => Sys2Proof.Machine.execCtxCreate fn ring s
  | .ctxRefresh fn ring => Sys2Proof.Machine.execCtxRefresh fn ring s
  | .layoutCreate fn ring => Sys2Proof.Machine.execLayoutCreate fn ring s
  | .layoutShadow fn ring data => Sys2Proof.Machine.execLayoutShadow fn ring data s
  | .layoutCommit fn ring => Sys2Proof.Machine.execLayoutCommit fn ring s
  | .encCreate fn ring => Sys2Proof.Machine.execEncCreate fn ring s
  | .encSet fn ring => Sys2Proof.Machine.execEncSet fn ring s
  | .flowCreate fn ring => Sys2Proof.Machine.execFlowCreate fn ring s
  | .cardSubmit fn ring => Sys2Proof.Machine.execCardSubmit fn ring s
  | .cardCancel fn ring => Sys2Proof.Machine.execCardCancel fn ring s
  | .kernelLoad fn ring image => Sys2Proof.Machine.execKernelLoad fn ring image s
  | .ruleWrite fn ring data => Sys2Proof.Machine.execRuleWrite fn ring data s
  | .ruleSwap fn ring => Sys2Proof.Machine.execRuleSwap fn ring s
  | .swapDrainDone pauseNs => Sys2Proof.Machine.execSwapDrainDone pauseNs s
  | .swapTimeout => Sys2Proof.Machine.execSwapTimeout s
  | .txFrame fn ring frame => Sys2Proof.Machine.execTxFrame fn ring frame s
  | .unitStop fn ring => Sys2Proof.Machine.execUnitStop fn ring s
  | .unitStopped u => Sys2Proof.Machine.execUnitStopped u s
  | .unitCmdTimeout u => Sys2Proof.Machine.execUnitCmdTimeout u s
  | .unitStart fn ring => Sys2Proof.Machine.execUnitStart fn ring s
  | .unitRunning u => Sys2Proof.Machine.execUnitRunning u s
  | .modeSet fn ring => Sys2Proof.Machine.execModeSet fn ring s
  | .modeChange => Sys2Proof.Machine.execModeChange s
  | .quarterFence fn ring => Sys2Proof.Machine.execQuarterFence fn ring s
  | .tackStore fn ring boot drv => Sys2Proof.Machine.execTackStore fn ring boot drv s
  | .tackStoreDone ok us => Sys2Proof.Machine.execTackStoreDone ok us s
  | .tackLoad fn ring => Sys2Proof.Machine.execTackLoad fn ring s
  | .dmaChain fn ring chain => Sys2Proof.Machine.execDmaChain fn ring chain s
  | .diag fn ring => Sys2Proof.Machine.execDiag fn ring s
  | .cardRetire slot => Sys2Proof.Machine.execCardRetire slot s
  | .cardDeal quarter team => Sys2Proof.Machine.execCardDeal quarter team s
  | .engineQueueWrite u => Sys2Proof.Machine.execEngineQueueWrite u s
  | .preempt quarter team => Sys2Proof.Machine.execPreempt quarter team s
  | .preemptLate core => Sys2Proof.Machine.execPreemptLate core s
  | .flowStall flow => Sys2Proof.Machine.execFlowStall flow s
  | .submitStall fn ring => Sys2Proof.Machine.execSubmitStall fn ring s
  | .ldV j dst ea ue => Sys2Proof.Machine.execLdV j dst ea ue s
  | .stV j ea src => Sys2Proof.Machine.execStV j ea src s
  | .ldW j half dst ea ue => Sys2Proof.Machine.execLdW j half dst ea ue s
  | .stW j half ea src => Sys2Proof.Machine.execStW j half ea src s
  | .ldBcW j dst ea ue => Sys2Proof.Machine.execLdBcW j dst ea ue s
  | .amov j file dst src => Sys2Proof.Machine.execAmov j file dst src s
  | .mac j sub clear half x s1 s2 => Sys2Proof.Machine.execMac j sub clear half x s1 s2 s
  | .tapm j clear half x dS dT dC k => Sys2Proof.Machine.execTapm j clear half x dS dT dC k s
  | .valuOp j op half dst s1 s2 => Sys2Proof.Machine.execValuOp j op half dst s1 s2 s
  | .ext j half dst x sh => Sys2Proof.Machine.execExt j half dst x sh s
  | .exp j half dst x => Sys2Proof.Machine.execExp j half dst x s
  | .norm j half dst x e => Sys2Proof.Machine.execNorm j half dst x e s
  | .normx j half dst e x => Sys2Proof.Machine.execNormx j half dst e x s
  | .scalarOp j op dst s1 s2 => Sys2Proof.Machine.execScalarOp j op dst s1 s2 s
  | .cmp j op p s1 s2 => Sys2Proof.Machine.execCmp j op p s1 s2 s
  | .branch j target => Sys2Proof.Machine.execBranch j target s
  | .loop j count endPc => Sys2Proof.Machine.execLoop j count endPc s
  | .rloop j count stages endPc => Sys2Proof.Machine.execRloop j count stages endPc s
  | .getd j dst w => Sys2Proof.Machine.execGetd j dst w s
  | .rdflag j dst => Sys2Proof.Machine.execRdflag j dst s
  | .spawn j dst p a => Sys2Proof.Machine.execSpawn j dst p a s
  | .signal j src => Sys2Proof.Machine.execSignal j src s
  | .done j cycles => Sys2Proof.Machine.execDone j cycles s
  | .yield j => Sys2Proof.Machine.execYield j s
  | .savectx j => Sys2Proof.Machine.execSavectx j s
  | .fence j => Sys2Proof.Machine.execFence j s
  | .lock j a => Sys2Proof.Machine.execLock j a s
  | .unlock j => Sys2Proof.Machine.execUnlock j s
  | .writeBufferDrain core => Sys2Proof.Machine.execWriteBufferDrain core s
  | .preemptInterrupt core => Sys2Proof.Machine.execPreemptInterrupt core s
  | .coreHalt core ctrl => Sys2Proof.Machine.execCoreHalt core ctrl s
  | .coreStep core ctrl => Sys2Proof.Machine.execCoreStep core ctrl s
  | .teamMemUe q t off => Sys2Proof.Machine.execTeamMemUe q t off s
  | .lineCheck p found => Sys2Proof.Machine.execLineCheck p found s
  | .anResolve p partner => Sys2Proof.Machine.execAnResolve p partner s
  | .trainingDone p taps inverted => Sys2Proof.Machine.execTrainingDone p taps inverted s
  | .trainTimeout p => Sys2Proof.Machine.execTrainTimeout p s
  | .linkUp p order inverted deskew => Sys2Proof.Machine.execLinkUp p order inverted deskew s
  | .linkDown p lane => Sys2Proof.Machine.execLinkDown p lane s
  | .linkRetry p => Sys2Proof.Machine.execLinkRetry p s
  | .laneFault lane code second => Sys2Proof.Machine.execLaneFault lane code second s
  | .laneRecheck lane pass => Sys2Proof.Machine.execLaneRecheck lane pass s
  | .roleWrite p val => Sys2Proof.Machine.execRoleWrite p val s
  | .failover p => Sys2Proof.Machine.execFailover p s
  | .frameReceive p bytes capture fifoFull => Sys2Proof.Machine.execFrameReceive p bytes capture fifoFull s
  | .pauseFrame p at_ pfc enables quanta => Sys2Proof.Machine.execPauseFrame p at_ pfc enables quanta s
  | .pauseExpiry p at_ prio => Sys2Proof.Machine.execPauseExpiry p at_ prio s
  | .macTransmit p capture => Sys2Proof.Machine.execMacTransmit p capture s
  | .parseDispatch th => Sys2Proof.Machine.execParseDispatch th s
  | .parseLd th => Sys2Proof.Machine.execParseLd th s
  | .parseAlu th => Sys2Proof.Machine.execParseAlu th s
  | .parseBr th => Sys2Proof.Machine.execParseBr th s
  | .parseAdv th => Sys2Proof.Machine.execParseAdv th s
  | .parseNode th => Sys2Proof.Machine.execParseNode th s
  | .parseKeyw th => Sys2Proof.Machine.execParseKeyw th s
  | .parseKeyp th => Sys2Proof.Machine.execParseKeyp th s
  | .parseLenchk th => Sys2Proof.Machine.execParseLenchk th s
  | .parseMeta th => Sys2Proof.Machine.execParseMeta th s
  | .parseVerd th => Sys2Proof.Machine.execParseVerd th s
  | .emLookupReturn th ueA ueB => Sys2Proof.Machine.execEmLookupReturn th ueA ueB s
  | .srtpInbound r fault => Sys2Proof.Machine.execSrtpInbound r fault s
  | .srtpOutbound fault => Sys2Proof.Machine.execSrtpOutbound fault s
  | .secSelftest val => Sys2Proof.Machine.execSecSelftest val s
  | .selftestDone fail0 fail1 => Sys2Proof.Machine.execSelftestDone fail0 fail1 s
  | .kekGenWrite f val => Sys2Proof.Machine.execKekGenWrite f val s
  | .jitterCard slot => Sys2Proof.Machine.execJitterCard slot s
  | .audioMixDone q us => Sys2Proof.Machine.execAudioMixDone q us s
  | .cascadePayload part => Sys2Proof.Machine.execCascadePayload part s
  | .jackInsert => Sys2Proof.Machine.execJackInsert s
  | .debounceEnd => Sys2Proof.Machine.execDebounceEnd s
  | .detectionDone m => Sys2Proof.Machine.execDetectionDone m s
  | .jackRemove => Sys2Proof.Machine.execJackRemove s
  | .buttonPress => Sys2Proof.Machine.execButtonPress s
  | .buttonRelease => Sys2Proof.Machine.execButtonRelease s
  | .buttonLong => Sys2Proof.Machine.execButtonLong s
  | .outputShort left => Sys2Proof.Machine.execOutputShort left s
  | .faultRetry left stillShort => Sys2Proof.Machine.execFaultRetry left stillShort s
  | .biasShort => Sys2Proof.Machine.execBiasShort s
  | .micOpen => Sys2Proof.Machine.execMicOpen s
  | .faultClear => Sys2Proof.Machine.execFaultClear s
  | .pictureReady ctx pic => Sys2Proof.Machine.execPictureReady ctx pic s
  | .segmentCard slot r => Sys2Proof.Machine.execSegmentCard slot r s
  | .parseCard slot r => Sys2Proof.Machine.execParseCard slot r s
  | .rebuildCard slot r => Sys2Proof.Machine.execRebuildCard slot r s
  | .finishCard slot => Sys2Proof.Machine.execFinishCard slot s
  | .concealCard slot r => Sys2Proof.Machine.execConcealCard slot r s
  | .ctuLimit slot cycles r => Sys2Proof.Machine.execCtuLimit slot cycles r s
  | .picLimit ctx pic ctus => Sys2Proof.Machine.execPicLimit ctx pic ctus s
  | .refreshIntervalEnd ctx => Sys2Proof.Machine.execRefreshIntervalEnd ctx s
  | .composeBand slot cycles => Sys2Proof.Machine.execComposeBand slot cycles s
  | .encodeBand slot r => Sys2Proof.Machine.execEncodeBand slot r s
  | .fillPicture stream => Sys2Proof.Machine.execFillPicture stream s
  | .cellWait u cycles => Sys2Proof.Machine.execCellWait u cycles s
  | .forwardPacket => Sys2Proof.Machine.execForwardPacket s
  | .nack => Sys2Proof.Machine.execNack s
  | .rtcpReceive fb => Sys2Proof.Machine.execRtcpReceive fb s
  | .selection p at_ => Sys2Proof.Machine.execSelection p at_ s
  | .postWheelTick p at_ => Sys2Proof.Machine.execPostWheelTick p at_ s
  | .shaperTick p at_ => Sys2Proof.Machine.execShaperTick p at_ s
  | .shaperWrite addr val => Sys2Proof.Machine.execShaperWrite addr val s
  | .gateEntry p at_ => Sys2Proof.Machine.execGateEntry p at_ s
  | .gclArm p val at_ => Sys2Proof.Machine.execGclArm p val at_ s
  | .gclTakeover p at_ => Sys2Proof.Machine.execGclTakeover p at_ s
  | .watermarkClear addr val => Sys2Proof.Machine.execWatermarkClear addr val s
  | .timeRead n at_ => Sys2Proof.Machine.execTimeRead n at_ s
  | .timModeWrite val => Sys2Proof.Machine.execTimModeWrite val s
  | .freqWrite val => Sys2Proof.Machine.execFreqWrite val s
  | .stepApply val env => Sys2Proof.Machine.execStepApply val env s
  | .stepForce val env => Sys2Proof.Machine.execStepForce val env s
  | .ptpMessage m env => Sys2Proof.Machine.execPtpMessage m env s
  | .holdover syncLost => Sys2Proof.Machine.execHoldover syncLost s
  | .freerun => Sys2Proof.Machine.execFreerun s
  | .txtsPop p => Sys2Proof.Machine.execTxtsPop p s
  | .pulseArm g val at_ => Sys2Proof.Machine.execPulseArm g val at_ s
  | .pulseTakeover g at_ => Sys2Proof.Machine.execPulseTakeover g at_ s
  | .pulseEdge g at_ => Sys2Proof.Machine.execPulseEdge g at_ s
  | .hbmCommandSlot h pc arrivals cycles => Sys2Proof.Machine.execHbmCommandSlot h pc arrivals cycles s
  | .hbmRefresh h pc bank => Sys2Proof.Machine.execHbmRefresh h pc bank s
  | .scrub addr result => Sys2Proof.Machine.execScrub addr result s
  | .driftTracking h ch => Sys2Proof.Machine.execDriftTracking h ch s
  | .ceThresh h ch => Sys2Proof.Machine.execCeThresh h ch s
  | .retrainStep h ch => Sys2Proof.Machine.execRetrainStep h ch s
  | .stackTraining h phase ok => Sys2Proof.Machine.execStackTraining h phase ok s
  | .paddockRound q bank asks => Sys2Proof.Machine.execPaddockRound q bank asks s
  | .quotaWindow q bank => Sys2Proof.Machine.execQuotaWindow q bank s
  | .dmaDescriptor u host hostFail poisoned padUe cycles => Sys2Proof.Machine.execDmaDescriptor u host hostFail poisoned padUe cycles s
  | .fatalLatchClear val => Sys2Proof.Machine.execFatalLatchClear val s
  | .ledgerAuditDone us => Sys2Proof.Machine.execLedgerAuditDone us s
  | .unitFault u => Sys2Proof.Machine.execUnitFault u s
  | .dumpRead ue => Sys2Proof.Machine.execDumpRead ue s
  | .powerOnReset bootSrc => Sys2Proof.Machine.execPowerOnReset bootSrc s
  | .warmReset bootSrc => Sys2Proof.Machine.execWarmReset bootSrc s
  | .sysResetWarm val bootSrc => Sys2Proof.Machine.execSysResetWarm val bootSrc s
  | .flashBoot slot image => Sys2Proof.Machine.execFlashBoot slot image s
  | .hostGo val image => Sys2Proof.Machine.execHostGo val image s
  | .imageAccepted => Sys2Proof.Machine.execImageAccepted s
  | .bootGo val => Sys2Proof.Machine.execBootGo val s
  | .powerStep at_ => Sys2Proof.Machine.execPowerStep at_ s
  | .powerStepFail at_ => Sys2Proof.Machine.execPowerStepFail at_ s
  | .fuseProg val vpp => Sys2Proof.Machine.execFuseProg val vpp s
  | .fuseLock val => Sys2Proof.Machine.execFuseLock val s
  | .thermAlert celsius => Sys2Proof.Machine.execThermAlert celsius s
  | .smbusReadByte cmd die => Sys2Proof.Machine.execSmbusReadByte cmd die s
  | .registerRead fn addr n at_ => Sys2Proof.Machine.execRegisterRead fn addr n at_ s
  | .flrComplete fn => Sys2Proof.Machine.execFlrComplete fn s
  | .slowPathService => Sys2Proof.Machine.execSlowPathService s
  | .pulseWidthEnd g => Sys2Proof.Machine.execPulseWidthEnd g s

end Sys2Proof.Machine
end

