-- ==== Sys2Proof/WellFormed.lean ====
section
/-! DEFINITION. Which terms of `Instr` a table row can mean: operands within what the spec gives the command. No meaning
rests on it: every meaning is total. -/
namespace Sys2Proof
open Sys2Proof.Machine (unitWf)

/-- A BAR0 offset of the function, 64 MiB of the PF, 128 KiB of a VF (R410, R414), or 2^32 and a BAR2 offset, 16 KiB of the PF, 8 KiB of a VF
(R49). (PRESUMED, log entry 180.) -/
def barOk (fn : Fin 64) (addr : Nat) : Bool :=
  decide (addr < if fn = 0 then 0x4000000 else 0x20000) || (decide (2 ^ 32 ≤ addr) && decide (addr < 2 ^ 32 + if fn = 0 then 0x4000 else 0x2000))
/-- A failed host read names a 64-byte block (R72). (DEDUCED, log entry 46.) -/
def readOk : HostRead → Bool
  | .ok _ => true
  | .fail a => a.toNat % 64 == 0
/-- A pool: a quarter or 0xFF, a team or 0xFF (R82). -/
def poolOk (q t : Nat) : Bool := (decide (q < 4) || q == 0xFF) && (decide (t < 8) || t == 0xFF)
/-- A loop count is a register or a 16-bit immediate (R119). -/
def countOk : ScSrc → Bool
  | .reg _ => true
  | .imm v => decide (v.toNat < 65536)
/-- A request lies within one 64-byte unit (R326). -/
def askOk (a : HbmAsk) : Bool :=
  unitWf a.unit && decide (a.addr % 64 + (if a.write then a.bytes.length else a.len) ≤ 64)
/-- Tiles of 256 luma and 128 chroma samples, each of 10 bits at most (R224). -/
def codedOk (r : CodedOut) : Bool := r.tiles.all fun t => t.2.length == 384 && t.2.all fun v => decide (v < 1024)

/-- A partition lies within a unit of 64 × 64 samples. -/
def partOk (p : PartCode) : Bool := decide (1 ≤ p.w) && decide (1 ≤ p.h) && decide (p.x + p.w ≤ 64) && decide (p.z + p.h ≤ 64)
/-- A stride's readings: at most four stacks' temperatures; blocks of 40 samples. -/
def envOk (env : BoundaryEnv) : Bool :=
  decide (env.temps.length ≤ 4) && (env.mic.isEmpty || env.mic.length == 40) && (env.blocks ++ env.right).all fun b => b.2.length == 40
/-- The command is well formed. (DESIGN CHOICE, log entry 179.) -/
def Instr.wf : Instr → Bool
  | .registerWrite fn addr _ => barOk fn addr
  | .subWord fn addr => barOk fn addr
  | .strideBoundary env => envOk env
  | .strideCountRead _ => true
  | .deadlineDrop _ => true
  | .overrun _ _ => true
  | .doorbellFetch _ page => decide (page.words.length ≤ 52) && page.fetch.all fun f => decide (f.1 < 32)
  | .hifNudge _ _ => true
  | .descriptorAccept => true
  | .featureWrite _ _ _ => true
  | .featureLock _ _ => true
  | .ringEnable _ _ _ => true
  | .ringDisable _ _ _ => true
  | .ringIdle _ _ => true
  | .linkChange rate width => rate != 0 && [1, 2, 4, 8, 16].contains width.val
  | .vfFlr _ => true
  | .pfFlr => true
  | .nop _ _ => true
  | .sessionOpen _ _ => true
  | .sessionClose _ _ => true
  | .sessionCloseDone _ => true
  | .objRelease _ _ => true
  | .objQuery _ _ => true
  | .confCreate _ _ => true
  | .partCreate _ _ => true
  | .partSet _ _ => true
  | .craftSet _ _ => true
  | .legCreate _ _ r => readOk r
  | .legSet _ _ => true
  | .fanoutAdd _ _ => true
  | .fanoutDel _ _ => true
  | .keyLoad _ _ r => readOk r
  | .keyRetire _ _ => true
  | .ctxCreate _ _ => true
  | .ctxRefresh _ _ => true
  | .layoutCreate _ _ => true
  | .layoutShadow _ _ r => readOk r
  | .layoutCommit _ _ => true
  | .encCreate _ _ => true
  | .encSet _ _ => true
  | .flowCreate _ _ => true
  | .cardSubmit _ _ => true
  | .cardCancel _ _ => true
  | .kernelLoad _ _ r => readOk r
  | .ruleWrite _ _ r => readOk r
  | .ruleSwap _ _ => true
  | .swapDrainDone _ => true
  | .swapTimeout => true
  | .txFrame _ _ r => readOk r
  | .unitStop _ _ => true
  | .unitStopped u => unitWf u
  | .unitCmdTimeout u => unitWf u
  | .unitStart _ _ => true
  | .unitRunning u => unitWf u
  | .modeSet _ _ => true
  | .modeChange => true
  | .quarterFence _ _ => true
  | .tackStore _ _ b v => readOk b && readOk v
  | .tackStoreDone _ _ => true
  | .tackLoad _ _ => true
  | .dmaChain _ _ r => readOk r
  | .diag _ _ => true
  | .cardRetire _ => true
  | .cardDeal q t => poolOk q t
  | .engineQueueWrite u => unitWf u && u.cls != 1
  | .preempt q t => poolOk q t
  | .preemptLate _ => true
  | .flowStall _ => true
  | .submitStall _ _ => true
  | .ldV _ _ _ _ => true
  | .stV _ _ _ => true
  | .ldW _ _ _ _ _ => true
  | .stW _ _ _ _ => true
  | .ldBcW _ _ _ _ => true
  | .amov _ file dst _ => decide (file = .a ∨ file = .m) || decide (4 ≤ dst.val)
  | .mac _ _ _ _ _ _ _ => true
  | .tapm _ _ half _ dS dT _ k => dS != dT && (half || decide (k.val < 8))
  | .valuOp _ _ _ _ _ _ => true
  | .ext _ _ _ _ _ => true
  | .exp _ _ _ _ => true
  | .norm _ _ dst _ e => dst != e
  | .normx _ _ dst e _ => dst != e
  | .scalarOp _ _ _ _ _ => true
  | .cmp _ _ _ _ _ => true
  | .branch _ _ => true
  | .loop _ count _ => countOk count
  | .rloop _ count stages _ => countOk count && decide (count ≠ .imm 0) && stages != 0
  | .getd _ _ _ => true
  | .rdflag _ _ => true
  | .spawn _ _ _ _ => true
  | .signal _ _ => true
  | .done _ _ => true
  | .yield _ => true
  | .savectx _ => true
  | .fence _ => true
  | .lock _ _ => true
  | .unlock _ => true
  | .writeBufferDrain _ => true
  | .preemptInterrupt _ => true
  | .coreHalt _ _ => true
  | .coreStep _ _ => true
  | .teamMemUe _ _ off => decide (off < 0xC0000)
  | .lineCheck _ found => found.all fun f => decide (3 ≤ f.code) && decide (f.code ≤ 6)
  | .anResolve _ a => a.types.all fun t => decide (t ≤ 10)
  | .trainingDone _ taps inv => taps.length == inv.length
  | .trainTimeout _ => true
  | .linkUp _ order inv _ => order.length == inv.length
  | .linkDown _ _ => true
  | .linkRetry _ => true
  | .laneFault _ code _ => decide (1 ≤ code) && decide (code ≤ 7)
  | .laneRecheck _ _ => true
  | .roleWrite _ _ => true
  | .failover _ => true
  | .frameReceive _ bytes _ _ => !bytes.isEmpty
  | .pauseFrame _ _ pfc _ quanta => quanta.length == (if pfc then 8 else 1) && quanta.all fun x => decide (x < 65536)
  | .pauseExpiry _ _ _ => true
  | .macTransmit _ _ => true
  | .parseDispatch _ => true
  | .parseLd _ => true
  | .parseAlu _ => true
  | .parseBr _ => true
  | .parseAdv _ => true
  | .parseNode _ => true
  | .parseKeyw _ => true
  | .parseKeyp _ => true
  | .parseLenchk _ => true
  | .parseMeta _ => true
  | .parseVerd _ => true
  | .emLookupReturn _ _ _ => true
  | .srtpInbound _ _ => true
  | .srtpOutbound _ => true
  | .secSelftest _ => true
  | .selftestDone _ _ => true
  | .kekGenWrite _ _ => true
  | .jitterCard _ => true
  | .audioMixDone _ _ => true
  | .cascadePayload _ => true
  | .jackInsert => true
  | .debounceEnd => true
  | .detectionDone m => m.loads.length == 4
  | .jackRemove => true
  | .buttonPress => true
  | .buttonRelease => true
  | .buttonLong => true
  | .outputShort _ => true
  | .faultRetry _ _ => true
  | .biasShort => true
  | .micOpen => true
  | .faultClear => true
  | .pictureReady _ pic => [16, 32, 64, 128].contains pic.ctb && pic.tiles != 0 && decide (pic.areas.length ≤ pic.tiles)
  | .segmentCard _ r => codedOk r
  | .parseCard _ r => codedOk r
  | .rebuildCard _ r => codedOk r
  | .finishCard _ => true
  | .concealCard _ r => codedOk r
  | .ctuLimit _ _ r => codedOk r
  | .picLimit _ _ _ => true
  | .refreshIntervalEnd _ => true
  | .composeBand _ _ => true
  | .encodeBand _ r => r.layers.all fun l => decide (l.s < 3) && l.units.all fun u => u.parts.all partOk
  | .fillPicture _ => true
  | .cellWait u _ => unitWf u && (u.cls == 4 || u.cls == 9)
  | .forwardPacket => true
  | .nack => true
  | .rtcpReceive _ => true
  | .selection _ _ => true
  | .postWheelTick _ _ => true
  | .shaperTick _ _ => true
  | .shaperWrite _ _ => true
  | .gateEntry _ _ => true
  | .gclArm _ _ _ => true
  | .gclTakeover _ _ => true
  | .watermarkClear _ _ => true
  | .timeRead _ _ => true
  | .timModeWrite _ => true
  | .freqWrite _ => true
  | .stepApply _ env => envOk env
  | .stepForce _ env => envOk env
  | .ptpMessage _ env => envOk env
  | .holdover _ => true
  | .freerun => true
  | .txtsPop _ => true
  | .pulseArm _ _ _ => true
  | .pulseTakeover _ _ => true
  | .pulseEdge _ _ => true
  | .hbmCommandSlot _ _ asks _ => asks.all askOk
  | .hbmRefresh _ _ _ => true
  | .scrub addr _ => addr % 64 == 0
  | .driftTracking _ _ => true
  | .ceThresh _ _ => true
  | .retrainStep _ _ => true
  | .stackTraining _ _ _ => true
  | .paddockRound _ _ asks => asks.all fun a => a.beats != 0
  | .quotaWindow _ _ => true
  | .dmaDescriptor u _ _ _ _ _ => unitWf u && u.cls == 6
  | .fatalLatchClear _ => true
  | .ledgerAuditDone _ => true
  | .unitFault u => unitWf u
  | .dumpRead _ => true
  | .powerOnReset _ => true
  | .warmReset _ => true
  | .sysResetWarm _ _ => true
  | .flashBoot _ _ => true
  | .hostGo _ _ => true
  | .imageAccepted => true
  | .bootGo _ => true
  | .powerStep _ => true
  | .powerStepFail _ => true
  | .fuseProg _ _ => true
  | .fuseLock _ => true
  | .thermAlert _ => true
  | .smbusReadByte _ _ => true
  | .registerRead fn addr n _ => barOk fn addr && (n == 1 || n == 2 || n == 4) && decide (addr % 4 + n ≤ 4)
  | .flrComplete _ => true
  | .slowPathService => true
  | .pulseWidthEnd _ => true

end Sys2Proof
end

