-- ==== Sys2Proof/Safety.lean ====
section
/-! DEFINITION. What counts as a safe run, and the properties of a state that claims are stated in terms of. -/
namespace Sys2Proof.Machine

/-- Every sparse map of the device is in its canonical form: the register file and its boundary copy, the latches, HBM,
Paddock, the cores' local memories, the Tack store and both banks of the parse program. -/
def Memory.wf (d : Dev) : Bool :=
  spWf d.regs && spWf d.regsB && spWf d.latch && spWf d.mem.hbm && d.mem.pad.all spWf && (d.mem.local_.all fun e => spWf e.2) &&
  spWf d.sys.tack && d.pke.prog.all spWf

/-- The equation of R361 on every ledger: capacity = in use + free + in transit. -/
def ledgersSound (d : Dev) : Bool := d.ldg.cur.all Ledg.sound

/-- The step answers a next state: it neither faults nor refuses. -/
def Safe (s : State) : Prop := ∃ t, step s = .next t

/-- The fuses of a device: the root key with its two state bits, and the rollback floor (R390). -/
structure Fuses where
  rootKey : BitVec 256
  keyProg : Bool
  keyLock : Bool
  rbFloor : Nat
  deriving DecidableEq, Repr
def fuses (d : Dev) : Fuses := ⟨d.sys.rootKey, d.sys.keyProg, d.sys.keyLock, d.sys.rbFloor⟩

/-- What one step may do to the fuses (R384, R390): a programmed key stays, a locked one too, and the floor stays. -/
def FusesKept (f g : Fuses) : Prop :=
  (f.keyProg = true → g.rootKey = f.rootKey ∧ g.keyProg = true) ∧ (f.keyLock = true → g.keyLock = true) ∧
  (f.keyLock = true → g.rootKey = f.rootKey ∧ g.keyProg = f.keyProg) ∧ g.rbFloor = f.rbFloor

/-- The parts of the device. `tim`, `mem` and `sys` are what those hold beside the parts named on their own: the stride
count; HBM, Paddock and the cores' local memories; the mode, the Tack store and the fuses. `rst` stands for leaving
HALT-SAFE. -/
inductive Piece where
  | regs | regsB | latch | freeCtr | out | stride | tim | hif | evt | ldg | obj | dlr | cores | mac | pke | sec | brd | hbm
  | pad | local_ | mem | dma | fwd | aud | vid | tack | mode | sys | rst
  deriving DecidableEq, Repr

/-- The time unit without the stride count, the memories without their bytes, the power-up part without the mode, the Tack
store and the fuses. -/
def timRest (d : Dev) : TimSt := { d.tim with stride := 0 }
def memRest (d : Dev) : MemSt := { d.mem with hbm := [], pad := [], local_ := [] }
def sysRest (d : Dev) : SysSt :=
  { d.sys with tack := [], mode := .reset, rootKey := 0, keyProg := false, keyLock := false, rbFloor := 0 }

/-- A part is the same in two devices (for `rst`: HALT-SAFE is kept). -/
def SamePiece (a b : Dev) : Piece → Prop
  | .regs => b.regs = a.regs
  | .regsB => b.regsB = a.regsB
  | .latch => b.latch = a.latch
  | .freeCtr => b.freeCtr = a.freeCtr
  | .out => b.out = a.out
  | .stride => b.tim.stride = a.tim.stride
  | .tim => timRest b = timRest a
  | .hif => b.hif = a.hif
  | .evt => b.evt = a.evt
  | .ldg => b.ldg = a.ldg
  | .obj => b.obj = a.obj
  | .dlr => b.dlr = a.dlr
  | .cores => b.cores = a.cores
  | .mac => b.mac = a.mac
  | .pke => b.pke = a.pke
  | .sec => b.sec = a.sec
  | .brd => b.brd = a.brd
  | .hbm => b.mem.hbm = a.mem.hbm
  | .pad => b.mem.pad = a.mem.pad
  | .local_ => b.mem.local_ = a.mem.local_
  | .mem => memRest b = memRest a
  | .dma => b.dma = a.dma
  | .fwd => b.fwd = a.fwd
  | .aud => b.aud = a.aud
  | .vid => b.vid = a.vid
  | .tack => b.sys.tack = a.sys.tack
  | .mode => b.sys.mode = a.sys.mode
  | .sys => sysRest b = sysRest a
  | .rst => a.sys.mode = .haltSafe → b.sys.mode = .haltSafe

/-- Command `i` of state `s` answers a next state with the queue as it is, the variant and every part of the device but the
listed ones as they were. -/
def OnlyPieces (i : Instr) (s : State) (ps : List Piece) : Prop :=
  ∀ t, exec i s = .next t →
    t.pending = s.pending ∧ t.dev.variant = s.dev.variant ∧ ∀ p, p ∉ ps → SamePiece s.dev t.dev p

/-! ### Commands by what they may do -/

/-- The commands that may reset the device. -/
def mayReset : Instr → Bool
  | .powerOnReset _ | .warmReset _ | .sysResetWarm _ _ => true
  | .registerWrite fn addr _ => fn.val == 0 && addr == SYS + 0x18
  | _ => false
/-- The commands that may move the stride count. -/
def mayMoveStride : Instr → Bool
  | .strideBoundary _ | .ptpMessage _ _ | .stepApply _ _ | .stepForce _ _ | .registerWrite _ _ _ | .imageAccepted => true
  | .powerOnReset _ | .warmReset _ | .sysResetWarm _ _ => true
  | _ => false
/-- The commands that may write HBM. -/
def mayWriteHbm : Instr → Bool
  | .segmentCard _ _ | .rebuildCard _ _ | .concealCard _ _ | .ctuLimit _ _ _ | .finishCard _ => true
  | .composeBand _ _ | .encodeBand _ _ | .stepApply _ _ | .stepForce _ _ | .ptpMessage _ _ => true
  | .dmaDescriptor _ _ _ _ _ _ | .forwardPacket | .hbmCommandSlot _ _ _ _ | .layoutShadow _ _ _ => true
  | .strideBoundary _ | .modeChange | .bootGo _ | .hostGo _ _ | .registerWrite _ _ _ | .imageAccepted => true
  | .powerOnReset _ | .warmReset _ | .sysResetWarm _ _ => true
  | _ => false
/-- The instructions of media cores. -/
def coreInstr : Instr → Bool
  | .ldV _ _ _ _ | .stV _ _ _ | .ldW _ _ _ _ _ | .stW _ _ _ _ | .ldBcW _ _ _ _ | .amov _ _ _ _ => true
  | .mac _ _ _ _ _ _ _ | .tapm _ _ _ _ _ _ _ _ | .valuOp _ _ _ _ _ _ | .ext _ _ _ _ _ | .exp _ _ _ _ => true
  | .norm _ _ _ _ _ | .normx _ _ _ _ _ | .scalarOp _ _ _ _ _ | .cmp _ _ _ _ _ => true
  | .branch _ _ | .loop _ _ _ | .rloop _ _ _ _ | .getd _ _ _ | .rdflag _ _ | .spawn _ _ _ _ | .signal _ _ => true
  | .done _ _ | .yield _ | .savectx _ | .fence _ | .lock _ _ | .unlock _ => true
  | _ => false
/-- The commands that may write Paddock or core-local memory. -/
def mayWritePaddock (c : Instr) : Bool :=
  coreInstr c ||
  match c with
  | .writeBufferDrain _ | .teamMemUe _ _ _ | .dmaDescriptor _ _ _ _ _ _ | .kernelLoad _ _ _ => true
  | .unitStop _ _ | .unitFault _ | .quarterFence _ _ | .registerWrite _ _ _ | .imageAccepted => true
  | .powerOnReset _ | .warmReset _ | .sysResetWarm _ _ => true
  | _ => false

/-! ### What each command may change -/

/-- Every part of the device. -/
def everyPiece : List Piece :=
  [.regs, .regsB, .latch, .freeCtr, .out, .stride, .tim, .hif, .evt, .ldg, .obj, .dlr, .cores, .mac, .pke, .sec, .brd, .hbm,
   .pad, .local_, .mem, .dma, .fwd, .aud, .vid, .tack, .mode, .sys, .rst]
/-- The parts of the device that a command, with every rule that follows from it at once, may change; no other part changes. -/
def mayChange : Instr → List Piece
  | .registerWrite _ _ _ | .powerOnReset _ | .warmReset _ | .sysResetWarm _ _ | .imageAccepted => everyPiece
  | .subWord _ _ | .doorbellFetch _ _ | .linkChange _ _ | .submitStall _ _ => [.regs, .out, .hif]
  | .strideBoundary _ | .stepApply _ _ | .stepForce _ _ | .ptpMessage _ _ =>
      [.regs, .regsB, .freeCtr, .out, .stride, .tim, .hif, .evt, .ldg, .obj, .dlr, .cores, .mac, .pke, .sec, .brd, .hbm, .mem, .dma, .fwd, .aud, .vid, .mode, .sys]
  | .strideCountRead _ | .registerRead _ _ _ _ => [.regs, .latch, .out, .tim]
  | .deadlineDrop _ | .cardSubmit _ _ | .cardCancel _ _ | .dmaChain _ _ _ | .cardRetire _ | .coreHalt _ _ | .coreStep _ _
  | .audioMixDone _ _ | .picLimit _ _ _ | .fillPicture _ =>
      [.regs, .out, .hif, .evt, .ldg, .dlr, .cores, .pke, .dma, .fwd, .aud, .vid, .sys]
  | .overrun _ _ | .preemptLate _ | .flowStall _ => [.regs, .out, .hif, .dlr]
  | .hifNudge _ _ => [.hif]
  | .descriptorAccept | .nop _ _ | .tackLoad _ _ | .diag _ _ | .stackTraining _ _ _ => [.regs, .out, .hif, .sys]
  | .featureWrite _ _ _ | .featureLock _ _ | .ringIdle _ _ | .linkRetry _ | .secSelftest _ | .selftestDone _ _
  | .kekGenWrite _ _ | .watermarkClear _ _ | .fatalLatchClear _ => [.regs]
  | .ringEnable _ _ _ | .ringDisable _ _ _ => [.regs, .hif]
  | .vfFlr _ =>
      [.regs, .latch, .freeCtr, .out, .tim, .hif, .evt, .ldg, .obj, .dlr, .cores, .pke, .sec, .brd, .dma, .fwd, .aud, .vid, .sys]
  | .pfFlr =>
      [.regs, .latch, .freeCtr, .out, .tim, .hif, .evt, .ldg, .obj, .dlr, .cores, .pke, .sec, .brd, .dma, .fwd, .aud, .vid, .mode, .sys]
  | .sessionOpen _ _ | .sessionCloseDone _ => [.regs, .out, .hif, .evt, .ldg, .obj, .sys]
  | .sessionClose _ _ | .objRelease _ _ =>
      [.regs, .freeCtr, .out, .tim, .hif, .evt, .ldg, .obj, .dlr, .cores, .pke, .sec, .brd, .dma, .fwd, .aud, .vid, .sys]
  | .objQuery _ _ => [.regs, .freeCtr, .out, .hif, .sys]
  | .confCreate _ _ | .partCreate _ _ => [.regs, .out, .hif, .evt, .ldg, .obj, .aud, .sys]
  | .partSet _ _ | .craftSet _ _ => [.regs, .out, .hif, .aud, .sys]
  | .legCreate _ _ _ => [.regs, .out, .hif, .evt, .ldg, .obj, .pke, .fwd, .sys]
  | .legSet _ _ => [.regs, .out, .hif, .fwd, .sys]
  | .fanoutAdd _ _ => [.regs, .out, .hif, .sec, .fwd, .vid, .sys]
  | .fanoutDel _ _ | .nack => [.regs, .freeCtr, .out, .tim, .hif, .evt, .ldg, .obj, .pke, .sec, .brd, .fwd, .sys]
  | .keyLoad _ _ _ | .keyRetire _ _ => [.regs, .out, .hif, .evt, .ldg, .obj, .sec, .sys]
  | .ctxCreate _ _ | .layoutCreate _ _ => [.regs, .out, .hif, .evt, .ldg, .obj, .mem, .vid, .sys]
  | .ctxRefresh _ _ => [.regs, .out, .hif, .evt, .ldg, .dlr, .cores, .pke, .sec, .dma, .fwd, .aud, .vid, .sys]
  | .layoutShadow _ _ _ => [.regs, .out, .hif, .hbm, .mem, .vid, .sys]
  | .layoutCommit _ _ => [.regs, .out, .hif, .vid, .sys]
  | .encCreate _ _ => [.regs, .out, .hif, .evt, .ldg, .obj, .mem, .aud, .vid, .sys]
  | .encSet _ _ => [.regs, .out, .hif, .aud, .vid, .sys]
  | .flowCreate _ _ => [.regs, .out, .hif, .evt, .ldg, .dlr, .sys]
  | .kernelLoad _ _ _ => [.regs, .out, .hif, .pad, .sys, .freeCtr]
  | .ruleWrite _ _ _ => [.regs, .out, .hif, .evt, .ldg, .pke, .sys]
  | .ruleSwap _ _ => [.regs, .out, .hif, .pke, .sys]
  | .swapDrainDone _ | .swapTimeout => [.regs, .out, .tim, .hif, .pke, .sys]
  | .txFrame _ _ _ => [.regs, .freeCtr, .out, .tim, .hif, .evt, .ldg, .pke, .brd, .sys]
  | .unitStop _ _ => [.regs, .latch, .out, .hif, .evt, .ldg, .cores, .mac, .pke, .brd, .pad, .local_, .mem, .sys]
  | .unitStopped _ => [.regs, .out, .hif, .evt, .ldg, .dlr, .mac, .mem, .fwd, .mode, .sys]
  | .unitCmdTimeout _ | .modeSet _ _ => [.regs, .out, .hif, .evt, .ldg, .sys]
  | .unitStart _ _ => [.regs, .out, .hif, .evt, .ldg, .mac, .fwd, .sys]
  | .unitRunning _ | .driftTracking _ _ => [.regs, .out, .hif, .evt, .ldg, .mac, .mem, .fwd, .mode, .sys]
  | .modeChange => [.regs, .out, .hif, .evt, .ldg, .mac, .pke, .hbm, .mem, .fwd, .mode, .sys]
  | .quarterFence _ _ =>
      [.regs, .latch, .out, .hif, .evt, .ldg, .dlr, .cores, .mac, .pke, .brd, .pad, .local_, .mem, .dma, .fwd, .aud, .vid, .mode, .sys]
  | .tackStore _ _ _ _ | .tackStoreDone _ _ => [.regs, .out, .hif, .tack, .sys]
  | .cardDeal _ _ => [.regs, .out, .hif, .dlr, .cores]
  | .engineQueueWrite _ => [.dlr, .vid]
  | .preempt _ _ => [.regs, .dlr, .cores]
  | .ldV _ _ _ _ | .stV _ _ _ | .ldW _ _ _ _ _ | .stW _ _ _ _ | .ldBcW _ _ _ _ | .amov _ _ _ _ | .mac _ _ _ _ _ _ _
  | .tapm _ _ _ _ _ _ _ _ | .valuOp _ _ _ _ _ _ | .ext _ _ _ _ _ | .exp _ _ _ _ | .norm _ _ _ _ _ | .normx _ _ _ _ _
  | .scalarOp _ _ _ _ _ | .cmp _ _ _ _ _ | .branch _ _ | .loop _ _ _ | .rloop _ _ _ _ | .getd _ _ _ | .rdflag _ _
  | .spawn _ _ _ _ | .signal _ _ | .done _ _ | .yield _ | .savectx _ | .fence _ | .lock _ _ | .unlock _ =>
      [.regs, .freeCtr, .out, .hif, .evt, .ldg, .dlr, .cores, .pke, .pad, .local_, .mem, .dma, .fwd, .aud, .vid, .sys]
  | .writeBufferDrain _ => [.cores, .pad]
  | .preemptInterrupt _ => [.cores]
  | .teamMemUe _ _ _ | .unitFault _ =>
      [.regs, .out, .hif, .evt, .ldg, .dlr, .cores, .mac, .pke, .pad, .mem, .dma, .fwd, .aud, .vid, .mode, .sys]
  | .lineCheck _ _ | .trainingDone _ _ _ | .trainTimeout _ | .linkUp _ _ _ _ | .linkDown _ _ | .laneFault _ _ _
  | .laneRecheck _ _ => [.regs, .out, .hif, .mac]
  | .anResolve _ _ => [.regs, .mac]
  | .roleWrite _ _ | .shaperWrite _ _ => [.regs, .brd]
  | .failover _ => [.regs, .out, .tim, .hif, .evt, .ldg, .mac, .pke, .brd, .sys]
  | .frameReceive _ _ _ _ => [.regs, .evt, .ldg, .mac, .pke]
  | .pauseFrame _ _ _ _ _ => [.regs, .tim, .mac]
  | .pauseExpiry _ _ _ | .freqWrite _ => [.regs, .tim]
  | .parseDispatch _ => [.regs, .evt, .ldg, .pke, .sec]
  | .parseLd _ | .parseAlu _ | .parseBr _ | .parseAdv _ | .parseNode _ | .parseKeyw _ | .parseKeyp _ | .parseLenchk _
  | .parseMeta _ | .parseVerd _ => [.regs, .freeCtr, .evt, .ldg, .pke, .sec]
  | .emLookupReturn _ _ _ => [.regs, .out, .hif, .evt, .ldg, .pke, .sec]
  | .srtpInbound _ _ => [.regs, .out, .hif, .evt, .ldg, .obj, .dlr, .cores, .pke, .sec, .dma, .fwd, .aud, .vid, .sys]
  | .srtpOutbound _ => [.regs, .freeCtr, .out, .tim, .hif, .evt, .ldg, .pke, .sec, .brd, .sys]
  | .jitterCard _ => [.regs, .evt, .ldg, .dlr, .pke, .fwd, .aud]
  | .cascadePayload _ => [.regs, .out, .hif, .evt, .ldg, .pke, .fwd, .aud]
  | .jackInsert | .faultRetry _ _ => [.aud]
  | .debounceEnd | .detectionDone _ | .jackRemove | .buttonPress | .buttonRelease | .buttonLong | .outputShort _
  | .biasShort | .micOpen | .faultClear => [.regs, .out, .hif, .aud]
  | .pictureReady _ _ => [.regs, .freeCtr, .out, .hif, .evt, .ldg, .dlr, .cores, .pke, .sec, .dma, .fwd, .aud, .vid, .sys]
  | .parseCard _ _ => [.regs, .evt, .dlr, .vid]
  | .segmentCard _ _ | .rebuildCard _ _ | .concealCard _ _ | .ctuLimit _ _ _ =>
      [.regs, .out, .hif, .evt, .dlr, .hbm, .mem, .vid]
  | .finishCard _ => [.regs, .out, .hif, .evt, .ldg, .dlr, .cores, .pke, .sec, .hbm, .mem, .dma, .fwd, .aud, .vid, .sys]
  | .refreshIntervalEnd _ => [.regs, .out, .hif, .evt, .sec, .fwd, .vid]
  | .composeBand _ _ | .encodeBand _ _ => [.regs, .out, .hif, .evt, .ldg, .dlr, .cores, .pke, .hbm, .mem, .dma, .fwd, .aud, .vid, .sys]
  | .cellWait _ _ => [.regs, .evt]
  | .forwardPacket => [.regs, .freeCtr, .out, .tim, .hif, .evt, .ldg, .obj, .pke, .sec, .brd, .hbm, .mem, .fwd, .vid, .sys]
  | .rtcpReceive _ => [.regs, .freeCtr, .out, .hif, .evt, .ldg, .pke, .sec, .fwd, .vid]
  | .selection _ _ | .macTransmit _ _ => [.regs, .freeCtr, .out, .tim, .hif, .evt, .ldg, .mac, .pke, .brd, .sys]
  | .postWheelTick _ _ => [.regs, .out, .tim, .hif, .evt, .ldg, .pke, .brd, .sys]
  | .shaperTick _ _ => [.regs, .tim, .brd]
  | .gateEntry _ _ => [.tim, .brd]
  | .gclArm _ _ _ => [.regs, .freeCtr, .tim, .evt, .brd]
  | .gclTakeover _ _ => [.regs, .tim, .evt, .brd]
  | .timeRead _ _ => [.latch, .out, .tim]
  | .timModeWrite _ | .holdover _ | .freerun | .pulseArm _ _ _ => [.regs, .out, .tim, .hif]
  | .txtsPop _ | .pulseTakeover _ _ => [.regs, .out, .tim]
  | .pulseEdge _ _ | .pulseWidthEnd _ => [.out, .tim]
  | .hbmCommandSlot _ _ _ _ => [.regs, .out, .hif, .evt, .hbm, .mem, .sys]
  | .hbmRefresh _ _ _ => [.mem]
  | .scrub _ _ => [.regs, .out, .hif, .evt, .mem, .sys]
  | .ceThresh _ _ | .retrainStep _ _ => [.regs, .out, .hif, .mem]
  | .paddockRound _ _ _ | .ledgerAuditDone _ =>
      [.regs, .out, .hif, .evt, .ldg, .dlr, .cores, .mac, .pke, .mem, .dma, .fwd, .aud, .vid, .mode, .sys]
  | .quotaWindow _ _ => [.regs, .mem]
  | .dmaDescriptor _ _ _ _ _ _ => [.regs, .freeCtr, .out, .hif, .evt, .dlr, .hbm, .pad, .local_, .mem, .dma, .sys]
  | .dumpRead _ => [.regs, .out]
  | .flashBoot _ _ | .fuseLock _ => [.regs, .freeCtr, .sys]
  | .hostGo _ _ => [.regs, .freeCtr, .out, .hif, .evt, .ldg, .pke, .hbm, .mem, .mode, .sys]
  | .bootGo _ => [.regs, .out, .hif, .evt, .ldg, .pke, .hbm, .mem, .mode, .sys]
  | .powerStep _ => [.regs, .out, .tim, .hif, .mac, .sys]
  | .powerStepFail _ => [.regs, .out, .tim, .hif, .evt, .ldg, .dlr, .cores, .mac, .pke, .mem, .dma, .fwd, .aud, .vid, .mode, .sys]
  | .fuseProg _ _ => [.regs, .sys]
  | .thermAlert _ => [.out, .sys]
  | .smbusReadByte _ _ => [.out]
  | .flrComplete _ => [.regs, .freeCtr, .out, .hif]
  | .slowPathService => [.regs, .tim, .evt, .ldg, .pke]
/-- The issue of a media core's instruction. -/
def issueOf : Instr → Option Issue
  | .ldV i _ _ _ | .stV i _ _ | .ldW i _ _ _ _ | .stW i _ _ _ | .ldBcW i _ _ _ | .amov i _ _ _ | .mac i _ _ _ _ _ _
  | .tapm i _ _ _ _ _ _ _ | .valuOp i _ _ _ _ _ | .ext i _ _ _ _ | .exp i _ _ _ | .norm i _ _ _ _ | .normx i _ _ _ _
  | .scalarOp i _ _ _ _ | .cmp i _ _ _ _ | .branch i _ | .loop i _ _ | .rloop i _ _ _ | .getd i _ _ | .rdflag i _
  | .spawn i _ _ _ | .signal i _ | .done i _ | .yield i | .savectx i | .fence i | .lock i _ | .unlock i => some i
  | _ => none
/-- What a media core's instruction may change where its bundle goes on after it: the core, a sticky free value, the error counts of
a load, the bank that a LOCK asks for. -/
def changesInBundle : Instr → List Piece
  | .ldV _ _ _ _ | .ldW _ _ _ _ _ | .ldBcW _ _ _ _ => [.regs, .evt, .cores]
  | .tapm _ _ _ _ _ _ _ _ | .valuOp _ _ _ _ _ _ | .ext _ _ _ _ _ | .normx _ _ _ _ _ | .scalarOp _ _ _ _ _ | .loop _ _ _
  | .rloop _ _ _ _ => [.freeCtr, .cores]
  | .lock _ _ => [.cores, .mem]
  | _ => [.cores]

/-! ### Registers and commands by what rules they follow -/

/-- A command that completes: the next state has this device and the queue as it was. -/
abbrev nextWith (s : State) (d : Dev) : Host.Outcome State Fault Refusal := .next { s with dev := d }

/-- A register whose writes follow the access types of its fields and nothing else: of a block without rules of its own for
writes, and no watermark status (R9, R360). -/
def plainWrites (l : Loc) : Bool :=
  !isWmStat l &&
  match l.blk with
  | .fus | .brd => false
  | .hif => decide (l.off < 0x30) || (decide (0x54 ≤ l.off) && l.off != 0x68 && l.off != 0x70 && !(decide (0x1000 ≤ l.off) && decide (l.off < 0x1680)))
  | .sys => l.off != 4 && l.off != 0x18
  | .tim => l.off != 4 && l.off != 0x20 && l.off != 0x2C && decide (l.off < 0x300) && !(decide (0x200 ≤ l.off) && decide (l.off < 0x280))
  | .mdc => l.off != 0
  | .sec => l.off != 4
  | .fwd => l.off != 8
  | .mac => l.off != 0xC
  | .msix => decide (0x200 ≤ l.off) || l.off % 0x10 != 0xC
  | .evt => !(nth l.idx 0 0 == 0 && l.off == 0)
  | _ => true
/-- A register whose read has no side effect and that no rule of its own reads (R50, R29, R304, R312, R382). -/
def quietRead (l : Loc) (a : Nat) : Bool :=
  readEffect l == .none && a != TIM + 8 && a != TIM + 0x14 && a != TIM + 0x108 && a != SYS + 0x28 &&
  !(l.blk == .tim && decide (0x204 ≤ l.off) && decide (l.off < 0x280) && l.off % 0x10 == 4)
/-- The command that a ring's row runs: the ring's command with the row's opcode that may start, which passes steps 1 to 5 of
R71. -/
structure Runs (d : Dev) (op fn ring : Nat) (c : Cmd) : Prop where
  ready : readyCmd d op fn ring = some c
  static : staticFail d c = none
  mode : modeFail d c = none
/-- Steps 6 to 10 of R71 hold: the command's own checks let it act. -/
def checksPass : Except Fail Act → Bool
  | .ok _ => true
  | .error _ => false
/-- A command completes with ST_OK: its entry is written, and what completes at once behind it settles. -/
def completes (d : Dev) (c : Cmd) (res : List Byte) : Dev := settle (finish d c ST_OK res)
/-- A command goes on, started. -/
def goesOn (d : Dev) (c : Cmd) : Dev :=
  putCmd d { ((findCmd d c.id).getD c) with started := true, waiting := false, strides := 0 }

/-- The opcode, function and ring of a ring command's row. -/
def ringOf : Instr → Option (Nat × Nat × Nat)
  | .nop f r => some (0x00, f, r) | .sessionOpen f r => some (0x01, f, r) | .sessionClose f r => some (0x02, f, r)
  | .objRelease f r => some (0x03, f, r) | .objQuery f r => some (0x04, f, r) | .confCreate f r => some (0x10, f, r)
  | .partCreate f r => some (0x11, f, r) | .partSet f r => some (0x12, f, r) | .craftSet f r => some (0x13, f, r)
  | .legCreate f r _ => some (0x18, f, r) | .legSet f r => some (0x19, f, r) | .fanoutAdd f r => some (0x1A, f, r)
  | .fanoutDel f r => some (0x1B, f, r) | .keyLoad f r _ => some (0x20, f, r) | .keyRetire f r => some (0x21, f, r)
  | .ctxCreate f r => some (0x28, f, r) | .ctxRefresh f r => some (0x29, f, r) | .layoutCreate f r => some (0x30, f, r)
  | .layoutShadow f r _ => some (0x31, f, r) | .layoutCommit f r => some (0x32, f, r) | .encCreate f r => some (0x38, f, r)
  | .encSet f r => some (0x39, f, r) | .flowCreate f r => some (0x40, f, r) | .cardSubmit f r => some (0x41, f, r)
  | .cardCancel f r => some (0x42, f, r) | .kernelLoad f r _ => some (0x48, f, r) | .ruleWrite f r _ => some (0x50, f, r)
  | .ruleSwap f r => some (0x51, f, r) | .txFrame f r _ => some (0x58, f, r) | .unitStop f r => some (0x60, f, r)
  | .unitStart f r => some (0x61, f, r) | .modeSet f r => some (0x62, f, r) | .quarterFence f r => some (0x63, f, r)
  | .tackStore f r _ _ => some (0x68, f, r) | .tackLoad f r => some (0x69, f, r) | .dmaChain f r _ => some (0x70, f, r)
  | .diag f r => some (0x7F, f, r)
  | _ => none

/-! ### Media cores -/

/-- Core `i.core` issues instruction `i`: it runs, its bundle's fetch is sound, the instruction's guard holds (R107, R125), and no
DONE stands before it in its bundle (R128). -/
structure Issues (d : Dev) (i : Issue) : Prop where
  runs : coreRuns d (findCore d i.core.val) = true
  fetch : (findCore d i.core.val).issuing = true ∨ badFetch d (findCore d i.core.val) = false
  guard : ∀ p v, i.guard = some (p, v) → rdP (findCore d i.core.val) p = v
  live : (findCore d i.core.val).buf.any CEff.isDone = false
/-- The instruction's effects join its bundle, which ends with its last instruction. -/
def bundled (d : Dev) (i : Issue) (es : List CEff) : Dev :=
  let x := findCore d i.core.val
  let d := putCore d { x with issuing := true, buf := x.buf ++ es }
  if i.last then closeBundle d i.core.val else d
/-- The instruction faults: its bundle keeps the first fault and ends as above. -/
def faulted (d : Dev) (i : Issue) (code : Nat) (addr : Word) : Dev :=
  let x := findCore d i.core.val
  let d := putCore d { x with issuing := true, flt := x.flt.orElse fun _ => some (code, addr) }
  if i.last then closeBundle d i.core.val else d
/-- A core between bundles with nothing pending: no delayed results, no loop, no locked sequence, no halt, no breakpoint at the next
bundle. -/
structure Quiet (d : Dev) (k : Nat) : Prop where
  id : (findCore d k).id = k
  issuing : (findCore d k).issuing = false
  pend : (findCore d k).pend = []
  buf : (findCore d k).buf = []
  flt : (findCore d k).flt = none
  hold : (findCore d k).hold = none
  loops : (findCore d k).loops = []
  halted : (findCore d k).halted = false ∧ (findCore d k).haltReq = false ∧ (findCore d k).stepReq = false
  breaks : ∀ n, n < 4 → getB d (MDCi k) (8 + n) = false

/-! ### The packet engine -/

/-- Thread `th` holds `t` and issues the parse instruction `w` of its packet's program, whose opcode is `op` (R155, R157). -/
structure Parses (d : Dev) (th op : Nat) (t : Thread) (w : Nat) : Prop where
  thread : d.pke.threads.find? (fun x => x.th == th) = some t
  works : pkeWorks d = true
  waiting : t.waiting = false
  issued : t.issued < 128
  place : t.pc < 4096
  word : (spGet (nth d.pke.prog (t.pkt.epoch % 2) []) t.pc).toNat = w
  opcode : iOp w = op
/-- The thread after its next instruction, before the instruction's own effect. -/
def stepped (t : Thread) : Thread := { t with pc := t.pc + 1, issued := t.issued + 1 }

end Sys2Proof.Machine
end

