-- ==== Sys2Proof/Certificates/Slice0/Obligations.lean ====
section
/-! DEFINITION. The statements for the provers: what steps and commands do, family by family, what they leave alone, and what
every step keeps. -/
open Sys2Proof Sys2Proof.Machine

/-! ### One step, and reset -/

/-- For every state with a command at the front of its queue, one step is the execution of that command on the state with the
rest of the queue (the queue is the model's own form of an outside sender). -/
def Obligations.StepRunsFrontCommand : Prop :=
  ∀ (s : State) (c : Instr) (rest : List Instr), s.pending = c :: rest → step s = exec c { s with pending := rest }

/-- Model's choice (log entries 1 and 174): on an empty queue one cycle of the time base passes, with the queue, the stride count and
every register as they were. And for every state and every command at the front of the queue the step answers a next state
whose queue is the rest: no command of the table ends in a fault or a refusal. -/
def Obligations.EveryStepAnswersNext : Prop :=
  (∀ s : State, s.pending = [] → step s = .next { s with dev := tick s.dev } ∧ (tick s.dev).regs = s.dev.regs ∧
    (tick s.dev).tim.stride = s.dev.tim.stride) ∧
  ∀ (s : State) (c : Instr) (rest : List Instr), s.pending = c :: rest → ∃ t, step s = .next t ∧ t.pending = rest

/-- State.reset is an SNU-V4 in RESET with no command waiting, no stride count running, every register at its table's reset
value, nothing listed in any memory (bytes that nothing has written read zero: log entry 3), no quarter fenced, no object, no
session, no card, and every ledger sound. -/
def Obligations.ResetState : Prop :=
  State.reset.pending = [] ∧ State.reset.dev.variant = .v4 ∧ State.reset.dev.sys.mode = .reset ∧
  (∀ a, reg State.reset.dev a = regReset .v4 a) ∧
  State.reset.dev.tim.stride = 0 ∧ State.reset.dev.tim.running = false ∧
  State.reset.dev.mem.hbm = [] ∧ (∀ m ∈ State.reset.dev.mem.pad, m = []) ∧ State.reset.dev.mem.local_ = [] ∧ State.reset.dev.sys.tack = [] ∧
  (∀ q, fenced State.reset.dev q = false) ∧ State.reset.dev.obj.objs = [] ∧ State.reset.dev.obj.sessions = [] ∧
  State.reset.dev.dlr.cards = [] ∧ State.reset.dev.hif.accepted = [] ∧ State.reset.dev.out = [] ∧
  ledgersSound State.reset.dev = true

/-- Right after reset every sparse map of the device is in its canonical form and every ledger satisfies in use + free + in
transit = capacity, in each of the four variants. -/
def Obligations.ResetInvariant : Prop :=
  ∀ v : Variant, Memory.wf (Dev.reset v) = true ∧ ledgersSound (Dev.reset v) = true

/-! ### What every step keeps -/

/-- In every state whose ledgers all satisfy in use + free + in transit = capacity, and for every command, they all satisfy it
after the step: no command makes a ledger break. -/
def Obligations.StepKeepsLedgerEquation : Prop :=
  ∀ s t : State, ledgersSound s.dev = true → step s = .next t → ledgersSound t.dev = true

/-- In every state whose register file, latches, HBM, Paddock, core-local memories, Tack store and parse programs are in their
canonical form, they are so after every step (the form is the model's). -/
def Obligations.StepKeepsMemoryForm : Prop :=
  ∀ s t : State, Memory.wf s.dev = true → step s = .next t → Memory.wf t.dev = true

/-- Over every step of every state, resets included: a programmed root key stays programmed with the same value, a locked one
stays locked and, programmed or not, keeps its value and its key_prog bit, and the rollback floor stays. -/
def Obligations.FusesOnlyOneWay : Prop :=
  ∀ s t : State, step s = .next t → FusesKept (fuses s.dev) (fuses t.dev)

/-- In HALT-SAFE, every command but the three resets and a PF register write to SYS_RESET leaves the device in HALT-SAFE. -/
def Obligations.HaltSafeEndsOnlyByReset : Prop :=
  ∀ (s t : State) (c : Instr), s.dev.sys.mode = .haltSafe → mayReset c = false → exec c s = .next t → t.dev.sys.mode = .haltSafe

/-- Every command but STRIDE_BOUNDARY, the commands that may step the clock (a PTP message, the steps by hand, a register write, the
boot settings) and the resets leaves the stride count. -/
def Obligations.StrideCountMovesOnlyAtBoundaries : Prop :=
  ∀ (s t : State) (c : Instr), mayMoveStride c = false → exec c s = .next t → t.dev.tim.stride = s.dev.tim.stride

/-- Every byte of the Tack store reads after a command as before it, resets included, unless the command is TACK_STORE or the
end of one. -/
def Obligations.TackStoreChangesOnlyByStore : Prop :=
  ∀ (s t : State) (c : Instr), (∀ fn ring b d, c ≠ .tackStore fn ring b d) → (∀ ok us, c ≠ .tackStoreDone ok us) →
    exec c s = .next t → ∀ a, spGet t.dev.sys.tack a = spGet s.dev.sys.tack a

/-- For every command the output log after it begins with the log before it (host writes, interrupts, frames and pin events are
never taken back), and the variant stays. -/
def Obligations.OutputLogGrows : Prop :=
  ∀ (s t : State) (c : Instr), exec c s = .next t → s.dev.out <+: t.dev.out ∧ t.dev.variant = s.dev.variant

/-- Every byte of HBM reads after a command as before it, unless the command is a decode, composition or encode card, a DMA
descriptor, a forwarded packet (retransmission store), a controller slot, a layout write, a boundary, a step of the clock that may bring one, a mode
change or go (retraining), a register write, the boot settings or a reset. -/
def Obligations.HbmChangesOnlyByItsWriters : Prop :=
  ∀ (s t : State) (c : Instr), mayWriteHbm c = false → exec c s = .next t → ∀ a, spGet t.dev.mem.hbm a = spGet s.dev.mem.hbm a

/-- Every byte of every Paddock and of every core-local memory reads after a command as before it, unless the command is a core
instruction or buffer drain, a DMA descriptor, KERNEL_LOAD, a unit stop or fault, a fence command, a team's uncorrectable
error, a register write, the boot settings or a reset. -/
def Obligations.PaddockAndCoreMemoryChangeOnlyByTheirWriters : Prop :=
  ∀ (s t : State) (c : Instr), mayWritePaddock c = false → exec c s = .next t →
    (∀ q a, spGet (padMem t.dev q) a = spGet (padMem s.dev q) a) ∧ ∀ k a, spGet (localMem t.dev k) a = spGet (localMem s.dev k) a

/-! ### Host interface: registers, rings, function level resets -/

/-- An aligned 32-bit write to a register of a block whose registers have no rule of their own completes: each RW and RWS bit
takes the bit of the value that the field table stores for what was written, each RWC bit does so where its unit is STOPPED and
keeps its value elsewhere (a refused write that differs sets cfg_reject), each W1C bit clears where 1 is written, every other
bit keeps its value, and nothing but this register and the register that holds cfg_reject changes. -/
def Obligations.RegisterWriteActsPerField : Prop :=
  ∀ (s : State) (fn : Fin 64) (addr a : Nat) (val : Word) (l : Loc) (r : RegRow) (is : List Nat),
    spWf s.dev.regs = true → barAddr fn.val addr = some a → addr % 4 = 0 → regAt s.dev.variant a = some (l, r, is) →
    plainWrites l = true → r.roIx s.dev.variant is = false →
    ∃ t, exec (.registerWrite fn addr val) s = .next t ∧ t = { s with dev := { s.dev with regs := t.dev.regs } } ∧
      (∀ b, b ≠ a → b ≠ rejectReg l → reg t.dev b = reg s.dev b) ∧
      ((rwcOpen s.dev l = true ∨ (val ^^^ reg s.dev a) &&& wd r.rwc = 0) → rejectReg l ≠ a → reg t.dev (rejectReg l) = reg s.dev (rejectReg l)) ∧
      (rwcOpen s.dev l = false → (val ^^^ reg s.dev a) &&& wd r.rwc ≠ 0 → rejectReg l ≠ a →
        reg t.dev (rejectReg l) = setBit (reg s.dev (rejectReg l)) 8 true) ∧
      ∀ i, i < 32 → (rejectReg l = a → i ≠ 8) → (reg t.dev a).getLsbD i =
        (if (wd r.rw ||| wd r.rws).getLsbD i || (rwcOpen s.dev l && (wd r.rwc).getLsbD i) then (storedValue s.dev l val).getLsbD i
         else if (wd r.w1c).getLsbD i then (reg s.dev a).getLsbD i && !val.getLsbD i
         else (reg s.dev a).getLsbD i)

/-- FEATURE_WRITE of an unlocked function stores the value ANDed with HIF_DEV_FEAT, of a locked one changes nothing;
FEATURE_LOCK sets lock of the PF, of a VF once the PF is locked; HIF_NUDGE makes the function's page due to be read and changes
nothing else; SUB_WORD counts the ignored write, sets sub_word and raises EV_HIF_ACCESS_ERR; LINK_CHANGE shows the new rate and
width and raises EV_HIF_LINK_CHANGE. -/
def Obligations.NegotiationAndAccessErrors : Prop :=
  (∀ (s : State) (fn : Fin 64) (i : Fin 8) (v : Word), locked s.dev fn.val = false →
    exec (.featureWrite fn i v) s =
      nextWith s (setReg s.dev (viewBase fn.val + 0x30 + 4 * i.val) (v &&& devFeat s.dev fn.val i.val))) ∧
  (∀ (s : State) (fn : Fin 64) (i : Fin 8) (v : Word), locked s.dev fn.val = true → exec (.featureWrite fn i v) s = .next s) ∧
  (∀ (s : State) (fn : Fin 64) (v : Word), v.getLsbD 0 = true → (fn.val = 0 ∨ locked s.dev 0 = true) → spWf s.dev.regs = true →
    ∃ t, exec (.featureLock fn v) s = .next t ∧ locked t.dev fn.val = true ∧
      t = { s with dev := { s.dev with regs := t.dev.regs } } ∧
      ∀ b, b ≠ viewBase fn.val + 0x50 → reg t.dev b = reg s.dev b) ∧
  (∀ (s : State) (fn : Fin 64) (v : Word), ∃ t, exec (.hifNudge fn v) s = .next t ∧ t.dev.hif.nudged.contains fn.val = true ∧
    t = { s with dev := { s.dev with hif := { s.dev.hif with nudged := t.dev.hif.nudged } } }) ∧
  (∀ (s : State) (fn : Fin 64) (addr a : Nat), barAddr fn.val addr = some a →
    exec (.subWord fn addr) s = nextWith s (let e := viewBase fn.val + 0x70
       raise (putB (satF s.dev e 16 16 1) e 0 true) (evFn fn.val 0x103 1 [(1, fn.val), (4, addr - addr % 4)]))) ∧
  (∀ (s : State) (r : Fin 6) (w : Fin 17), (getF s.dev 0 0 4 ≠ r.val ∨ getF s.dev 0 4 5 ≠ w.val) →
    exec (.linkChange r w) s = nextWith s (raise (setF (setF s.dev 0 0 4 r.val) 0 4 5 w.val) (evDev 0x106 0 [(1, r.val), (1, w.val)])))

/-- A VF's read of HIF_DEV_FEAT[i], of one, two or four bytes, answers those bytes of the PF's DRV_FEAT[i] ANDed with
HIF_VF_FEAT_MASK of that VF once the PF is locked, and zero before, and changes nothing but the clock; a write to a VF's lock
while the PF is unlocked changes nothing. -/
def Obligations.VfFeaturesFollowPf : Prop :=
  (∀ (s : State) (v : Fin 63) (i : Fin 8) (o : Fin 4) (n t : Nat),
    exec (.registerRead v.succ (0x10 + 4 * i.val + o.val) n t) s = nextWith s (emitOut (readAt s.dev t)
      (.readData (v.val + 1) (0x10 + 4 * i.val + o.val)
        (wd ((if locked s.dev 0 then reg s.dev (0x30 + 4 * i.val) &&& reg s.dev (0x2000 + 0x20 * v.val + 4 * i.val) else 0).toNat
          / 256 ^ o.val % 256 ^ n))))) ∧
  (∀ (s : State) (v : Fin 63) (val : Word), locked s.dev 0 = false → exec (.featureLock v.succ val) s = .next s)

/-- A read of `n` bytes of a register without read side effects answers those bytes of the word its table describes (0 where the
address holds none) and changes nothing but the clock; the PF's read of TIM_STRIDE_CNT_LO answers the low word of the stride count
and latches the high word of the same count, a VF's, whose view ends below it, answers 0. -/
def Obligations.RegisterReadAnswers : Prop :=
  (∀ (s : State) (fn : Fin 64) (addr a n t : Nat) (l : Loc) (r : RegRow) (is : List Nat),
    barAddr fn.val (addr - addr % 4) = some a → regAt s.dev.variant a = some (l, r, is) → quietRead l a = true →
    exec (.registerRead fn addr n t) s = nextWith s (emitOut (readAt s.dev t)
      (.readData fn.val addr (wd ((liveReg (readAt s.dev t) l a).toNat / 256 ^ (addr % 4) % 256 ^ n))))) ∧
  (∀ (s : State) (fn : Fin 64) (addr a n t : Nat), barAddr fn.val (addr - addr % 4) = some a → regAt s.dev.variant a = none →
    exec (.registerRead fn addr n t) s = nextWith s (emitOut (readAt s.dev t) (.readData fn.val addr 0))) ∧
  (∀ s : State, exec (.strideCountRead 0) s = nextWith s (emitOut (setLatch s.dev (TIM + 0x10C) (wd (s.dev.tim.stride / 2 ^ 32))) (.readData 0 (TIM + 0x108) (wd s.dev.tim.stride)))) ∧
  (∀ (s : State) (fn : Fin 64), fn ≠ 0 → exec (.strideCountRead fn) s = nextWith s (emitOut s.dev (.readData fn.val (TIM + 0x108) 0)))

/-- Enabling an idle, disabled ring with a legal size and binding stores the configuration, enables the ring, and starts it at
index 0 with no entry pending, taken or lost; disabling an enabled ring leaves the descriptors that were fetched and not
accepted; a disabled ring with nothing outstanding reports idle. No other register changes. -/
def Obligations.RingsEnableDisableDrain : Prop :=
  (∀ (s : State) (fn : Fin 64) (r : Fin 52) (cfg : Word), spWf s.dev.regs = true → ringEnabled s.dev fn.val r.val = false →
    ringIdle s.dev fn.val r.val = true → ringLegal r.val cfg = true →
    ∃ t, exec (.ringEnable fn r cfg) s = .next t ∧ ringCfg t.dev fn.val r.val &&& 0xFFF7 = (cfg &&& 0xFFF6) ||| 1 ∧
      ringHead t.dev fn.val r.val = 0 ∧ getF t.dev (ringReg fn.val r.val 0x14) 16 16 = 0 ∧ ringIdle t.dev fn.val r.val = false ∧
      getRing t.dev fn.val r.val = { getRing s.dev fn.val r.val with fn := fn.val, ring := r.val, fetched := [], consumer := 0, lostPend := 0 } ∧
      (∀ b, b ≠ ringReg fn.val r.val 8 → b ≠ ringReg fn.val r.val 0x10 → b ≠ ringReg fn.val r.val 0x14 → reg t.dev b = reg s.dev b)) ∧
  (∀ (s : State) (fn : Fin 64) (r : Fin 52), spWf s.dev.regs = true → ringEnabled s.dev fn.val r.val = true →
    ∃ t, exec (.ringDisable fn r (ringCfg s.dev fn.val r.val)) s = .next t ∧ ringEnabled t.dev fn.val r.val = false ∧
      (getRing t.dev fn.val r.val).fetched = [] ∧ t.dev.hif.accepted = s.dev.hif.accepted ∧
      (∀ b, b ≠ ringReg fn.val r.val 8 → reg t.dev b = reg s.dev b)) ∧
  (∀ (s : State) (fn : Fin 64) (r : Fin 52), spWf s.dev.regs = true → ringEnabled s.dev fn.val r.val = false →
    (r.val < 32 → ∀ c ∈ s.dev.hif.accepted, ¬(c.fn = fn.val ∧ c.ring = r.val)) →
    (32 ≤ r.val → (getRing s.dev fn.val r.val).reserved = 0) →
    ∃ t, exec (.ringIdle fn r) s = .next t ∧ ringIdle t.dev fn.val r.val = true ∧
      t = { s with dev := { s.dev with regs := t.dev.regs } } ∧ ∀ b, b ≠ ringReg fn.val r.val 0x14 → reg t.dev b = reg s.dev b)

/-- A read of a locked function's page that is due, once per stride and after a nudge, in a mode that fetches, acts on its rings in
order. On one ring: a word that is not valid is ignored; a stale epoch, of a disabled ring too, sets stale_seen and raises
EV_HIF_DB_STALE; one of the right epoch on a disabled ring is ignored; pending descriptors are fetched
and HEAD advances past them; more pending or unreturned entries than the ring has, or a failed read, faults the ring; a
completion ring takes its consumer index. DESCRIPTOR_ACCEPT moves the next descriptor in turn from its ring into the accepted
commands and reserves one entry of the bound completion ring in the same step, and with no ring that can, changes nothing. -/
def Obligations.DoorbellsAndAcceptance : Prop :=
  (∀ (s : State) (fn : Fin 64) (page : PageRead), locked s.dev fn.val = true → inFlr s.dev fn.val = false → s.dev.sys.mode.fetches = true →
    (fn.val ∈ s.dev.hif.pageDue ∨ fn.val ∈ s.dev.hif.nudged) →
    exec (.doorbellFetch fn page) s = nextWith s ((List.range 52).foldl
      (fun d r => doorbell d fn.val r (nth page.words r 0) ((page.fetch.find? fun f => f.1 == r).map Prod.snd))
      { s.dev with hif := { s.dev.hif with nudged := s.dev.hif.nudged.filter (· != fn.val),
                                           pageDue := s.dev.hif.pageDue.filter (· != fn.val) } })) ∧
  (∀ (s : State) (fn : Fin 64) (page : PageRead), fn.val ∉ s.dev.hif.pageDue → fn.val ∉ s.dev.hif.nudged →
    exec (.doorbellFetch fn page) s = .next s) ∧
  (∀ (d : Dev) (fn r : Nat) (w : Quad) (f : Option RingRead), (w.getLsbD 63 = false ∨
    (ringEnabled d fn r = false ∧ w.toNat / 2 ^ 32 % 2 ^ 16 = fld (reg d (ringReg fn r 0xC)) 0 16)) → doorbell d fn r w f = d) ∧
  (∀ (d : Dev) (fn r : Nat) (w : Quad) (f : Option RingRead), w.getLsbD 63 = true →
    w.toNat / 2 ^ 32 % 2 ^ 16 ≠ fld (reg d (ringReg fn r 0xC)) 0 16 →
    doorbell d fn r w f = raise (ringFlag d fn r 4) (evFn fn 0x101 0 [(1, fn), (1, r), (2, w.toNat / 2 ^ 32 % 2 ^ 16)])) ∧
  (∀ (d : Dev) (fn r : Nat) (w : Quad) (ds : List Desc), w.getLsbD 63 = true → ringEnabled d fn r = true →
    w.toNat / 2 ^ 32 % 2 ^ 16 = fld (reg d (ringReg fn r 0xC)) 0 16 → r < 32 →
    0 < (wd w.toNat - ringHead d fn r).toNat → (wd w.toNat - ringHead d fn r).toNat ≤ ringSize d fn r → ds.length = (wd w.toNat - ringHead d fn r).toNat →
    ∃ d', doorbell d fn r w (some (.ok ds)) = d' ∧ (getRing d' fn r).fetched = (getRing d fn r).fetched ++ ds ∧
      (spWf d.regs = true → ringHead d' fn r = wd w.toNat ∧ ∀ b, b ≠ ringReg fn r 0x10 → reg d' b = reg d b) ∧
      d'.hif.accepted = d.hif.accepted) ∧
  (∀ (d : Dev) (fn r : Nat) (w : Quad) (f : Option RingRead), w.getLsbD 63 = true → ringEnabled d fn r = true →
    w.toNat / 2 ^ 32 % 2 ^ 16 = fld (reg d (ringReg fn r 0xC)) 0 16 →
    (if r < 32 then ringSize d fn r < (wd w.toNat - ringHead d fn r).toNat ∨ (f = some .fail ∧ wd w.toNat ≠ ringHead d fn r)
     else ringSize d fn r < (ringHead d fn r - wd w.toNat).toNat) →
    doorbell d fn r w f = faultRing d fn r (wd w.toNat)) ∧
  (∀ (d : Dev) (fn r : Nat) (w : Quad) (f : Option RingRead), w.getLsbD 63 = true → ringEnabled d fn r = true →
    w.toNat / 2 ^ 32 % 2 ^ 16 = fld (reg d (ringReg fn r 0xC)) 0 16 → 32 ≤ r → r < 48 →
    (ringHead d fn r - wd w.toNat).toNat ≤ ringSize d fn r →
    doorbell d fn r w f = putRing d { getRing d fn r with consumer := wd w.toNat }) ∧
  (∀ (s : State) (cls fn r : Nat) (x : Desc) (rest : List Desc), arbitrate s.dev = some (cls, fn, r) →
    (getRing s.dev fn r).fetched = x :: rest →
    ∃ d, exec .descriptorAccept s = nextWith s (settle d) ∧
      d.hif.accepted = s.dev.hif.accepted ++
        [{ id := s.dev.hif.nextId, fn := fn, ring := r, cq := ringBind s.dev fn r, desc := x,
           n1 := if dOpcode x = 0x20 then getF s.dev (SEC + 0x100 + 4 * fn) 0 16 else 0 }] ∧
      (getRing d fn r).fetched = rest ∧
      (getRing d fn (ringBind s.dev fn r)).reserved = (getRing s.dev fn (ringBind s.dev fn r)).reserved + 1 ∧ d.regs = s.dev.regs) ∧
  (∀ s : State, arbitrate s.dev = none → exec .descriptorAccept s = .next s)

/-- Outside RESET an FLR of a VF that is not already inside one starts: its commands that have not started are discarded, its
started ones finish without a completion, its rings and nudges go, its view and its MSI-X table return to reset values, and each of its open sessions
closes as SESSION_CLOSE closes it. The PF's FLR does this to every function and ends the mode changes in progress. Once no
command and no session of the function is left, FLR_COMPLETE ends the FLR and raises EV_HIF_FLR with the VF number on PF event ring
48, whatever the event's route. -/
def Obligations.FunctionLevelResets : Prop :=
  (∀ (s : State) (v : Fin 63), s.dev.sys.mode ≠ .reset → inFlr s.dev (v.val + 1) = false →
    exec (.vfFlr v) s = nextWith s ((s.dev.obj.sessions.filter fun x => x.fn == v.val + 1 && !x.closing && !x.closed).foldl closeSession
        (clearView (discardCmds s.dev (v.val + 1)) (v.val + 1)))) ∧
  (∀ (d : Dev) (fn : Nat), ∀ c ∈ (discardCmds d fn).hif.accepted, c.fn = fn → c.started = true ∧ c.discard = true) ∧
  (∀ (d : Dev) (fn a : Nat), spWf d.regs = true → 1 ≤ fn → fn ≤ 63 → reg (clearView d fn) a =
    if (viewBase fn ≤ a ∧ a < viewBase fn + 0x20000) ∨ (msixReg fn 0 0 ≤ a ∧ a < msixReg fn 0 0 + 0x4000) then regReset d.variant a else reg d a) ∧
  (∀ s : State, s.dev.sys.mode ≠ .reset → exec .pfFlr s = nextWith s (let d := (List.range 64).foldl startFlr s.dev
     flrMode { d with hif := { d.hif with vfEnable := false } })) ∧
  (∀ (s : State) (v : Fin 63), inFlr s.dev (v.val + 1) = true → (∀ c ∈ s.dev.hif.accepted, c.fn ≠ v.val + 1) →
    (∀ x ∈ s.dev.obj.sessions, x.fn = v.val + 1 → x.closed = true) →
    exec (.flrComplete v.succ) s = nextWith s (raiseOn { s.dev with hif := { s.dev.hif with flr := s.dev.hif.flr.filter (· != v.val + 1) } } 48 (evDev 0x105 0 [(1, v.val)])))

/-! ### Ring commands: checks, completions, sessions and objects -/

/-- For every ring command of the table: where no command of the ring with its opcode may start, nothing happens; where the one
that may fails steps 1 to 4, or passes them and fails step 5, it completes with that check's status and no effect but what the
failure names. Steps 1 to 4 fail, in this order, on an opcode outside the catalogue, on a PF-only use by a VF, on an absent
target and on a feature that the function has not accepted. -/
def Obligations.RingCommandsFailAtTheFirstCheck : Prop :=
  (∀ (i : Instr) (op fn ring : Nat) (s : State), ringOf i = some (op, fn, ring) → readyCmd s.dev op fn ring = none → exec i s = .next s) ∧
  (∀ (i : Instr) (op fn ring : Nat) (s : State) (c : Cmd) (f : Fail), ringOf i = some (op, fn, ring) → readyCmd s.dev op fn ring = some c →
    (staticFail s.dev c = some f ∨ (staticFail s.dev c = none ∧ modeFail s.dev c = some f)) →
    exec i s = nextWith s (settle (failCmd s.dev c f))) ∧
  (∀ (d : Dev) (c : Cmd),
    (dOpcode c.desc ∉ opcodes → (staticFail d c).map Fail.st = some ST_BAD_OPCODE) ∧
    (dOpcode c.desc ∈ opcodes → c.fn ≠ 0 → (pfOnly (dOpcode c.desc) = true ∨ protectedUse c.desc = true) →
      (staticFail d c).map Fail.st = some ST_PROTECTED) ∧
    (dOpcode c.desc ∈ opcodes → (c.fn = 0 ∨ (pfOnly (dOpcode c.desc) = false ∧ protectedUse c.desc = false)) → targetAbsent d c.desc = true →
      (staticFail d c).map Fail.st = some ST_UNIT_ABSENT) ∧
    (dOpcode c.desc ∈ opcodes → (c.fn = 0 ∨ (pfOnly (dOpcode c.desc) = false ∧ protectedUse c.desc = false)) → targetAbsent d c.desc = false →
      (∃ b ∈ needFeats c.desc, featOn d c.fn b = false) → (staticFail d c).map Fail.st = some ST_FEATURE_OFF))

/-- A command that leaves the device is gone from the accepted commands and gives its reservation back. Its entry goes to HEAD of
its completion ring, slot HEAD mod 2^size_log2 in host memory, HEAD advances by one and nothing else in the registers changes
but the pending bit of a masked vector, and the ring's MSI-X message follows it where irq_en is set and the vector is not masked. A silent
command that succeeded writes no entry, whatever its ring, one whose ring has faulted writes none and counts as lost, and one of a
function that was reset writes none. The entry holds tag, status, phase and result as laid out. The model's choice: the layout of
the MSI-X table and its mask (log entry 180). -/
def Obligations.CompletionsWriteOneEntry : Prop :=
  (∀ (d : Dev) (c : Cmd) (st : Nat) (res : List Byte),
    (∀ x ∈ (finish d c st res).hif.accepted, x.id ≠ c.id ∧ x ∈ d.hif.accepted) ∧
    (∀ x ∈ d.hif.accepted, x.id ≠ c.id → x ∈ (finish d c st res).hif.accepted) ∧
    (c.discard = false → (getRing (finish d c st res) c.fn c.cq).reserved = (getRing d c.fn c.cq).reserved - 1)) ∧
  (∀ (d : Dev) (c : Cmd) (st : Nat) (res : List Byte), spWf d.regs = true → c.discard = false → c.lostCq = false → c.fn < 64 → c.cq < 52 →
    ¬(dSilent c.desc = true ∧ st = ST_OK) →
    (let e := finish d c st res
     let i := (ringHead d c.fn c.cq).toNat
     let at_ := (reg d (ringReg c.fn c.cq 0)).toNat + 2 ^ 32 * (reg d (ringReg c.fn c.cq 4)).toNat + 16 * (i % ringSize d c.fn c.cq)
     let entry : Out := .completion c.fn c.cq i at_ (entryBytes (ringSize d c.fn c.cq) i (dTag c.desc) st res)
     let v := ringBind d c.fn c.cq
     let masked := getB d (msixReg c.fn v 0xC) 0
     e.out = d.out ++ [entry] ++ (if bit (ringCfg d c.fn c.cq) 2 = true ∧ masked = false then
       [.msix c.fn v ((reg d (msixReg c.fn v 0)).toNat + 2 ^ 32 * (reg d (msixReg c.fn v 4)).toNat) (reg d (msixReg c.fn v 8))] else []) ∧
     ringHead e c.fn c.cq = ringHead d c.fn c.cq + 1 ∧
     (bit (ringCfg d c.fn c.cq) 2 = true → masked = true → v < 32 → getB e (msixPba c.fn) v = true) ∧
     ∀ b, b ≠ ringReg c.fn c.cq 0x10 → (bit (ringCfg d c.fn c.cq) 2 = true → masked = true → b ≠ msixPba c.fn) → reg e b = reg d b)) ∧
  (∀ (d : Dev) (c : Cmd) (st : Nat) (res : List Byte), c.discard = false → dSilent c.desc = true → st = ST_OK →
    (finish d c st res).out = d.out ∧ (finish d c st res).regs = d.regs) ∧
  (∀ (d : Dev) (c : Cmd) (st : Nat) (res : List Byte), c.discard = false → c.lostCq = true → ¬(dSilent c.desc = true ∧ st = ST_OK) →
    (finish d c st res).out = d.out ∧ (spWf d.regs = true → ∀ b, b ≠ ringReg c.fn c.cq 0x14 → reg (finish d c st res) b = reg d b)) ∧
  (∀ (d : Dev) (c : Cmd) (st : Nat) (res : List Byte), c.discard = true →
    finish d c st res = { d with hif := { d.hif with accepted := (finish d c st res).hif.accepted } }) ∧
  (∀ (size index tag st : Nat) (res : List Byte), tag < 65536 → st < 256 → 0 < size →
    (entryBytes size index tag st res).toNat =
      tag + 65536 * st + 2 ^ 24 * (if index / size % 2 = 0 then 1 else 0) + 2 ^ 32 * leNat (padTo res 12))

/-- A NOP that passes its checks answers the stride count; OBJ_QUERY answers what the table gives for the kind of its handle and changes
nothing but, for a card, the count of free values; DIAG raises EV_TEST or answers the ledger's counts of the last
snapshot. SESSION_OPEN adds a session under a handle that no session has; SESSION_CLOSE starts the close of a session that is not
closing and goes on until SESSION_CLOSE_DONE, which takes place once no host flow of the session and no firmware card of its
released objects is left and answers what was released and cancelled; OBJ_RELEASE releases the object with its dependents, dependents
first, and answers how many, once no firmware card of them is left. The model's choice: which cards of a released object it waits
for (log entry 185). -/
def Obligations.SessionsAndQueriesComplete : Prop :=
  (∀ (s : State) (fn : Fin 64) (ring : Fin 32) (c : Cmd), Runs s.dev 0x00 fn ring c → checksPass (nopAct s.dev c) = true →
    exec (.nop fn ring) s = nextWith s (completes s.dev c (leBytes s.dev.tim.stride 8))) ∧
  (∀ (s : State) (fn : Fin 64) (ring : Fin 32) (c : Cmd), Runs s.dev 0x04 fn ring c → checksPass (objQueryAct s.dev c) = true →
    ∃ d res, exec (.objQuery fn ring) s = nextWith s (completes d c res) ∧ d = { s.dev with freeCtr := d.freeCtr } ∧
      (hKind (dHandle c.desc) = 1 → ∃ x, findSession s.dev (dHandle c.desc) = some x ∧ x.fn = c.fn ∧ res = querySession s.dev x) ∧
      (hKind (dHandle c.desc) = 9 → ∃ x, findFlow s.dev (dHandle c.desc) = some x ∧ x.host = true ∧ x.fn = c.fn ∧ res = queryFlow s.dev x) ∧
      (hKind (dHandle c.desc) = 10 → ∃ x, findCard s.dev (hIndex (dHandle c.desc)) = some x ∧ x.fn = c.fn ∧ res = (queryCard s.dev x).2) ∧
      (hKind (dHandle c.desc) ≠ 1 → hKind (dHandle c.desc) ≠ 9 → hKind (dHandle c.desc) ≠ 10 →
        ∃ x, findObj s.dev (dHandle c.desc) = some x ∧ x.fn = c.fn ∧ queryObj s.dev (dHandle c.desc) (dByte c.desc 8) = some res)) ∧
  (∀ (s : State) (fn : Fin 64) (ring : Fin 32) (c : Cmd), Runs s.dev 0x01 fn ring c → checksPass (sessionOpenAct s.dev c) = true →
    ∃ i, i < s.dev.variant.capSessions ∧ (∀ x ∈ s.dev.obj.sessions, x.handle ≠ mkHandle 1 i) ∧
      exec (.sessionOpen fn ring) s = nextWith s (completes
        (let d := book s.dev 0 [⟨13, 1⟩]
         { d with obj := { d.obj with sessions := d.obj.sessions ++ [{ handle := mkHandle 1 i, fn := c.fn }] } }) c (leBytes (mkHandle 1 i) 4))) ∧
  (∀ (s : State) (fn : Fin 64) (ring : Fin 32) (c : Cmd), Runs s.dev 0x02 fn ring c → checksPass (sessionCloseAct s.dev c) = true →
    ∃ x, findSession s.dev (dHandle c.desc) = some x ∧ x.fn = c.fn ∧
      exec (.sessionClose fn ring) s = nextWith s (goesOn (if x.closing then s.dev else closeSession s.dev x) c)) ∧
  (∀ (s : State) (h : Nat) (x : Session), findSession s.dev h = some x → x.closing = true → sessionFlows s.dev h = [] →
    serving s.dev x.awaits = false → halted s.dev = false → exec (.sessionCloseDone h) s = nextWith s (
      let d := unbook (putSession s.dev { x with closed := true }) [⟨13, 0, 1⟩]
      (closeCmds d h).foldl (fun d c => complete d c.id ST_OK (resBytes [(4, x.released), (4, x.cancelled)])) d)) ∧
  (∀ (s : State) (fn : Fin 64) (ring : Fin 32) (c : Cmd), Runs s.dev 0x03 fn ring c → checksPass (objReleaseAct s.dev c) = true →
    ∃ o, findObj s.dev (dHandle c.desc) = some o ∧ o.fn = c.fn ∧
      exec (.objRelease fn ring) s = nextWith s (
        let os := releaseOrder 4 s.dev o
        let r := releaseAll s.dev os
        if serving r.1 (os.map Obj.handle) then goesOn (putCmd r.1 { c with awaits := os.map Obj.handle, n1 := r.2 }) c
        else completes r.1 c (leBytes r.2 4))) ∧
  (∀ (d : Dev) (c : Cmd), d.hif.accepted.filter (fun c => c.started && dOpcode c.desc == 0x03 && !serving d c.awaits) = [c] → findCmd d c.id = some c →
    endReleases d = settle (finish d c ST_OK (leBytes c.n1 4)))

/-- DIAG op 0 that passes its checks raises EV_SYS_TEST, class info, as a device event with the given detail, and completes with
ST_OK; op 1 completes with ST_OK and the last snapshot of the named ledger, in use in entry bytes 4 to 7, free in 8 to 11, in transit in 12 to
15; op 1 on a ledger or instance that does not exist completes with ST_BAD_FIELD and 9 in entry byte 4. -/
def Obligations.DiagRaisesTestOrAnswersSnapshot : Prop :=
  (∀ (s : State) (fn : Fin 64) (ring : Fin 32) (c : Cmd), Runs s.dev 0x7F fn ring c → checksPass (diagAct s.dev c) = true → dByte c.desc 8 = 0 →
    exec (.diag fn ring) s = nextWith s (completes (raise s.dev (evDev 0x000 0 [(8, dNum c.desc 16 8)])) c [])) ∧
  (∀ (s : State) (fn : Fin 64) (ring : Fin 32) (c : Cmd), Runs s.dev 0x7F fn ring c → checksPass (diagAct s.dev c) = true → dByte c.desc 8 = 1 →
    ∃ res, exec (.diag fn ring) s = nextWith s (completes s.dev c res) ∧
      ∀ x ∈ s.dev.ldg.snap, (∀ y ∈ s.dev.ldg.snap, y.l = x.l → y.inst = x.inst → y = x) → x.l = dByte c.desc 9 → x.inst = dByte c.desc 10 →
        res = leBytes x.inUse 4 ++ leBytes (BitVec.ofInt 32 x.free).toNat 4 ++ leBytes x.transit 4) ∧
  (∀ (s : State) (fn : Fin 64) (ring : Fin 32) (c : Cmd), Runs s.dev 0x7F fn ring c → dHandle c.desc = 0 → dBits c.desc 1 3 5 = 0 →
    dByte c.desc 8 = 1 → (∀ x ∈ s.dev.ldg.cur, ¬(x.l = dByte c.desc 9 ∧ x.inst = dByte c.desc 10)) →
    exec (.diag fn ring) s = nextWith s (settle (finish s.dev c ST_BAD_FIELD [9])))

/-! ### Units, modes, fences, resets, boot, fuses, the Tack store -/

/-- In every state a read of SYS_MODE shows DEGRADED (10) in mode exactly when a present quarter is fenced and the base mode is
BRIDGE, FORWARD, AUDIO or DRAIN, and the base mode otherwise; base_mode holds the base mode; fenced shows the fenced quarters,
whatever the mode. The operation that ends a MODE_SET moves the base mode outside HALT-SAFE. -/
def Obligations.SysModeShowsDegraded : Prop :=
  (∀ (s : State) (t : Nat), ∃ v, exec (.registerRead 0 SYS 4 t) s = nextWith s (emitOut (readAt s.dev t) (.readData 0 SYS v)) ∧
    fld v 0 4 = (if (s.dev.sys.mode = .bridge ∨ s.dev.sys.mode = .forward ∨ s.dev.sys.mode = .audio ∨ s.dev.sys.mode = .drain) ∧
      (∃ q, q < s.dev.variant.quarters ∧ fenced s.dev q = true) then 10 else s.dev.sys.mode.code) ∧
    fld v 4 4 = s.dev.sys.mode.code ∧ ∀ q, q < 4 → bit v (8 + q) = fenced s.dev q) ∧
  (∀ (d : Dev) (m : Mode), halted d = false → (setMode d m 0).sys.mode = m)

/-- UNIT_STOP that passes its checks moves a RUNNING unit to STOPPING and goes on, goes on while the unit starts or stops, and
resets a unit in FAULT; UNIT_START moves a STOPPED unit to STARTING with its power step, a compositor's band pool booked, and
goes on. A unit in STOPPING that is idle reaches STOPPED, one in STARTING whose power step is done reaches RUNNING. A UNIT_STOP or
UNIT_START that has waited for the limit ends with ST_TIMEOUT and EV_HIF_CMD_TIMEOUT. A unit fault and an uncorrectable
team-memory error put the unit in FAULT, a team's cards cancelled first. -/
def Obligations.UnitsStopStartFault : Prop :=
  (∀ (s : State) (fn : Fin 64) (ring : Fin 32) (c : Cmd), Runs s.dev 0x60 fn ring c → checksPass (unitStopAct s.dev c) = true →
    exec (.unitStop fn ring) s = nextWith s (
      let u := dUnit c.desc
      if uState s.dev u = 2 then goesOn (setUState s.dev u 3) c
      else if uState s.dev u = 1 ∨ uState s.dev u = 3 then goesOn s.dev c
      else completes (resetUnit s.dev u) c [])) ∧
  (∀ (s : State) (fn : Fin 64) (ring : Fin 32) (c : Cmd), Runs s.dev 0x61 fn ring c → checksPass (unitStartAct s.dev c) = true →
    exec (.unitStart fn ring) s = nextWith s (
      let u := dUnit c.desc
      if uState s.dev u = 0 then goesOn (startUnit (if u.cls = 3 then bookPool s.dev u.quarter u.index none else s.dev) u false) c
      else goesOn s.dev c)) ∧
  (∀ (s : State) (u : UnitId), unitPresent s.dev.variant u = true → uState s.dev u = 3 → unitIdle s.dev u = true → halted s.dev = false →
    exec (.unitStopped u) s = nextWith s (reachStopped s.dev u)) ∧
  (∀ (s : State) (u : UnitId), unitPresent s.dev.variant u = true → uState s.dev u = 1 → (∀ p ∈ s.dev.sys.steps, p.kind ≠ 1) →
    halted s.dev = false → exec (.unitRunning u) s = nextWith s (reachRunning s.dev u)) ∧
  (∀ (s : State) (u : UnitId) (c : Cmd), unitPresent s.dev.variant u = true → halted s.dev = false → s.dev.sys.changes = [] →
    unitCmds s.dev 0x60 u ++ unitCmds s.dev 0x61 u = [c] → findCmd s.dev c.id = some c → getF s.dev 0x80 0 16 ≤ c.strides →
    exec (.unitCmdTimeout u) s = nextWith s (settle (finish
      (raise s.dev (evUnit u 0x107 1 [(4, dNum c.desc 8 4), (1, uState s.dev u)])) c ST_TIMEOUT []))) ∧
  (∀ (s : State) (u : UnitId), unitPresent s.dev.variant u = true → uState s.dev u ≠ 4 → halted s.dev = false →
    exec (.unitFault u) s = nextWith s (faultUnit (if u.cls = 1 then cancelTeam s.dev u.quarter u.index else s.dev) u)) ∧
  (∀ (s : State) (q : Fin 4) (t : Fin 8) (off : Nat), unitPresent s.dev.variant ⟨1, q, t⟩ = true → halted s.dev = false →
    exec (.teamMemUe q t off) s = nextWith s (
      let d := putB (satF s.dev (TEAM q t + 0x10) 16 16 1) (TEAM q t + 0xC) 8 true
      faultUnit (cancelTeam (raise d (evUnit ⟨1, q, t⟩ 0x303 2 [(1, q.val), (1, t.val), (4, off)])) q t) ⟨1, q, t⟩))

/-- A MODE_SET that passes its checks completes at once where it names the mode that is left and none waits, and otherwise waits
for its turn with the band pools of its compositors booked. At its turn the first due MODE_SET completes where its mode is already
in force, ends with ST_MODE and its reject code where the second check fails, and else begins. No MODE_SET leads out of RESET,
BOOT, TRAIN or HALT-SAFE, nor into RESET, BOOT or DEGRADED. QUARTER_FENCE fences a quarter that is not fenced and answers 0, answers 1 where
nothing changes, and an unfence resets the quarter and goes on. -/
def Obligations.ModesAndFences : Prop :=
  (∀ (s : State) (fn : Fin 64) (ring : Fin 32) (c : Cmd), Runs s.dev 0x62 fn ring c → checksPass (modeSetAct s.dev c) = true →
    exec (.modeSet fn ring) s = nextWith s (
      let d := { s.dev with sys := { s.dev.sys with modeCmds := s.dev.sys.modeCmds ++ [c.id] } }
      if modeTarget c.desc = modeLeft s.dev then
        (if modeWaiting s.dev = [] then completes s.dev c (leBytes (s.dev.tim.stride % 2 ^ 32) 4) else goesOn d c)
      else goesOn (bookPools d (modeTarget c.desc) c.id) c)) ∧
  (∀ (s : State) (id stride : Nat) (rest : List (Nat × Nat)) (c : Cmd), s.dev.sys.changes = [] → halted s.dev = false →
    s.dev.sys.modeDue = (id, stride) :: rest → findCmd s.dev id = some c →
    exec .modeChange s = nextWith s (
      let d := { s.dev with sys := { s.dev.sys with modeDue := rest } }
      if modeTarget c.desc = s.dev.sys.mode then complete (unbookCmd d id) id ST_OK (leBytes stride 4)
      else match modeReject d s.dev.sys.mode (modeTarget c.desc) with
        | some r => failId (unbookCmd d id) id { st := ST_MODE, reject := some r }
        | none => beginChange (bookPools d (modeTarget c.desc) id) id stride (modeTarget c.desc))) ∧
  (∀ (d : Dev) (a b : Mode), (a = .reset ∨ a = .boot ∨ a = .train ∨ a = .haltSafe ∨ b = .reset ∨ b = .boot ∨ b = .degraded) →
    modeReject d a b = some 1) ∧
  (∀ (s : State) (fn : Fin 64) (ring : Fin 32) (c : Cmd), Runs s.dev 0x63 fn ring c → checksPass (quarterFenceAct s.dev c) = true →
    exec (.quarterFence fn ring) s = nextWith s (
      let q := dByte c.desc 8
      if dBits c.desc 9 0 1 = 0 then
        (if fenced s.dev q then completes s.dev c [1] else completes (fenceQuarter s.dev q 0 0x21) c [0])
      else if fenced s.dev q = false then completes s.dev c [1]
      else
        let d := if s.dev.sys.unfence.any fun e => e.2 == q then s.dev else quarterReset s.dev q
        goesOn { d with sys := { d.sys with unfence := d.sys.unfence ++ [(c.id, q)] } } c))

/-- A power-on reset, a warm reset and a confirmed write to SYS_RESET complete in BOOT with strides running at the count of the
clock, every object, session, card, command, key, core, packet and queue gone and every memory empty, and with the fuses and the Tack store's bytes kept;
a store in progress is abandoned. A warm reset keeps the time base, a power-on reset restarts it. A write to SYS_RESET without warm or confirm does nothing. -/
def Obligations.ResetsClearAndKeep : Prop :=
  (∀ (s : State) (src : Fin 4), ∃ t, exec (.powerOnReset src) s = .next t ∧ t.pending = s.pending ∧
    t.dev.sys.mode = .boot ∧ t.dev.tim = { (Dev.reset s.dev.variant).tim with stride := strideAt 0, running := true } ∧
    fuses t.dev = fuses s.dev ∧ t.dev.sys.tack = s.dev.sys.tack ∧ t.dev.sys.store = none ∧ t.dev.sys.bootSrc = src.val ∧
    t.dev.obj = (Dev.reset s.dev.variant).obj ∧ t.dev.dlr = (Dev.reset s.dev.variant).dlr ∧ t.dev.cores = [] ∧ t.dev.hif.accepted = [] ∧
    t.dev.mem = (Dev.reset s.dev.variant).mem ∧ t.dev.pke = (Dev.reset s.dev.variant).pke ∧ t.dev.sec = (Dev.reset s.dev.variant).sec ∧
    t.dev.brd = (Dev.reset s.dev.variant).brd ∧ t.dev.fwd = (Dev.reset s.dev.variant).fwd ∧ t.dev.aud = (Dev.reset s.dev.variant).aud ∧
    t.dev.vid = (Dev.reset s.dev.variant).vid ∧ t.dev.ldg = (Dev.reset s.dev.variant).ldg) ∧
  (∀ (s : State) (src : Fin 4), s.dev.tim.running = true → ∃ t, exec (.warmReset src) s = .next t ∧ t.pending = s.pending ∧
    t.dev.sys.mode = .boot ∧
    t.dev.tim = { s.dev.tim with holdStrides := 0, stride := strideAt s.dev.tim.clock } ∧
    fuses t.dev = fuses s.dev ∧ t.dev.sys.tack = s.dev.sys.tack ∧ t.dev.sys.store = none ∧ t.dev.sys.bootSrc = src.val ∧
    t.dev.obj = (Dev.reset s.dev.variant).obj ∧ t.dev.dlr = (Dev.reset s.dev.variant).dlr ∧ t.dev.cores = [] ∧ t.dev.hif.accepted = [] ∧
    t.dev.mem = (Dev.reset s.dev.variant).mem ∧ t.dev.pke = (Dev.reset s.dev.variant).pke ∧ t.dev.sec = (Dev.reset s.dev.variant).sec ∧
    t.dev.brd = (Dev.reset s.dev.variant).brd ∧ t.dev.fwd = (Dev.reset s.dev.variant).fwd ∧ t.dev.aud = (Dev.reset s.dev.variant).aud ∧
    t.dev.vid = (Dev.reset s.dev.variant).vid ∧ t.dev.ldg = (Dev.reset s.dev.variant).ldg) ∧
  (∀ (s : State) (v : Word) (src : Fin 4), v.getLsbD 0 = true → fld v 8 8 = 0xA5 →
    exec (.sysResetWarm v src) s = exec (.warmReset src) s) ∧
  (∀ (s : State) (v : Word) (src : Fin 4), (v.getLsbD 0 = false ∨ fld v 8 8 ≠ 0xA5) → exec (.sysResetWarm v src) s = .next s)

/-- In BOOT the flash slots are tried in order: one that answers no image gives result 2, an image whose signature fails result 3,
one below the rollback floor result 4, and a good one result 1 with its version. A host load that has started takes what it reads the same
way (no image 2, a failed read 5). An accepted image brings firmware up: the Tack store's valid copy is loaded, its boot settings act as
register writes of the PF, its repair records are taken, the default rule set is loaded, and the device leaves BOOT unless it
is held there; go leaves BOOT for TRAIN once firmware is up. -/
def Obligations.BootTakesTheFirstGoodImage : Prop :=
  (∀ (s : State) (b : Bool), s.dev.sys.mode = .boot → s.dev.sys.imageOk = false → s.dev.sys.bootSrc ≠ 1 → s.dev.sys.bootSlot = b.toNat →
    exec (.flashBoot b none) s = nextWith s (bootResult { s.dev with sys := { s.dev.sys with bootSlot := b.toNat + 1 } } b.toNat 2)) ∧
  (∀ (s : State) (b : Bool) (i : BootImage), s.dev.sys.mode = .boot → s.dev.sys.imageOk = false → s.dev.sys.bootSrc ≠ 1 →
    s.dev.sys.bootSlot = b.toNat →
    (Config.imageSigned i.header i.payload = true ∧ s.dev.sys.rbFloor ≤ i.rollback → i.payloadLen ≤ 67108864) →
    exec (.flashBoot b (some i)) s = nextWith s (
      let d := { s.dev with sys := { s.dev.sys with bootSlot := b.toNat + 1 } }
      if Config.imageSigned i.header i.payload = false then bootResult d b.toNat 3
      else if i.rollback < s.dev.sys.rbFloor then bootResult d b.toNat 4
      else
        let d := setF (bootResult d b.toNat 1) (SYS + 8) 16 16 i.version
        { d with sys := { d.sys with imageOk := true, hostLoading := false } })) ∧
  (∀ (s : State) (v : Word) (im : HostImage), (writeBootCtrl s.dev v).sys.hostLoading = true → (writeBootCtrl s.dev v).sys.mode = .boot →
    exec (.hostGo v im) s = nextWith s (
      let w := writeBootCtrl s.dev v
      let d := { w with sys := { w.sys with hostLoading := false } }
      match im with
      | .none => bootResult d 2 2
      | .fail => bootResult d 2 5
      | .image i => checkImage d 2 i)) ∧
  (∀ s : State, s.dev.sys.mode = .boot → s.dev.sys.imageOk = true → s.dev.sys.fwUp = false →
    (applySettings (setF (tackBoot s.dev) TCK 16 10 0) (tackSettings (setF (tackBoot s.dev) TCK 16 10 0))).sys.imageOk = true →
    exec .imageAccepted s = nextWith s (
      let b := setF (tackBoot s.dev) TCK 16 10 0
      let d := loadDefaultRules (applySettings b (tackSettings b))
      tryLeaveBoot { d with sys := { d.sys with repairs := tackRepairs d, fwUp := true, tckEvent := true } })) ∧
  (∀ (s : State) (v : Word), v.getLsbD 1 = true → v.getLsbD 2 = false → s.dev.sys.mode = .boot → s.dev.sys.fwUp = true → spWf s.dev.regs = true →
    exec (.bootGo v) s = nextWith s (enterTrain (putB (putB (putB s.dev (SYS + 4) 0 (v.getLsbD 0)) (SYS + 4) 1 true) (SYS + 4) 1 false))) ∧
  (∀ (s : State) (v : Word), v.getLsbD 1 = false → v.getLsbD 2 = false →
    exec (.bootGo v) s = nextWith s (putB s.dev (SYS + 4) 0 (v.getLsbD 0)))

/-- The head of the power-step queue that is due leaves it at its time: a stack's step starts its training, a port powered in TRAIN
starts by itself where PWR_PORT_AUTO says so; a step that fails leaves its units in FAULT and raises EV_PWR_STEP_FAIL, and the
stagger goes on. The three phases of a stack's training apply the repair records, set trained and set re-centred, in this
order; one that fails sets the stack's failure bit, raises EV_MEM_TRAIN_FAIL and ends it. -/
def Obligations.PowerStepsAndStackTraining : Prop :=
  (∀ (s : State) (t : Nat) (p : PStep) (ps : List PStep), s.dev.sys.steps = p :: ps → stepDue s.dev t = true →
    exec (.powerStep t) s = nextWith s (
      let d := popStep s.dev t
      let d := if p.kind = 0 then { d with sys := { d.sys with training := some (p.unit.index, 0) } }
        else if p.kind = 2 ∧ d.sys.mode = .train then autoStart d p.unit else d
      endUnfence (endStagger d))) ∧
  (∀ (s : State) (t : Nat) (p : PStep) (ps : List PStep), s.dev.sys.steps = p :: ps → stepDue s.dev t = true → p.kind ≠ 0 →
    exec (.powerStepFail t) s = nextWith s (
      let d := popStep s.dev t
      let us := stepUnits d p
      let d := us.foldl enterFault d
      let d := { d with sys := { d.sys with stepFailed := d.sys.stepFailed ++ us.filter fun u => !d.sys.stepFailed.contains u } }
      endUnfence (endStagger (raise d (evUnit p.unit 0xE40 2 [(1, p.unit.quarter), (1, p.unit.cls), (1, p.unit.index)]))))) ∧
  (∀ (s : State) (h : Fin 4), s.dev.sys.training = some (h.val, 0) → halted s.dev = false →
    exec (.stackTraining h 0 true) s = nextWith s { s.dev with sys := { s.dev.sys with
      training := some (h.val, 1), repairs := applyRepairs h s.dev.sys.repairs (usedBanks s.dev.sys.repairs) } }) ∧
  (∀ (s : State) (h : Fin 4), s.dev.sys.training = some (h.val, 1) → halted s.dev = false →
    exec (.stackTraining h 1 true) s = nextWith s (
      let d := putB s.dev MEM (16 + h) true
      { d with sys := { d.sys with training := some (h.val, 2) } })) ∧
  (∀ (s : State) (h : Fin 4), s.dev.sys.training = some (h.val, 2) → halted s.dev = false →
    exec (.stackTraining h 2 true) s = nextWith s (
      let d := putB s.dev MEM (20 + h) true
      endStagger { d with sys := { d.sys with training := none } })) ∧
  (∀ (s : State) (h : Fin 4) (ph : Fin 3), s.dev.sys.training = some (h.val, ph.val) → halted s.dev = false →
    exec (.stackTraining h ph false) s = nextWith s (
      let d := { s.dev with sys := { s.dev.sys with training := none } }
      endStagger (raise (putB d MEM (24 + h) true) (evDev 0xC03 2 [(1, h.val), (1, ph.val + 1)]))))

/-- A confirmed write of prog in CONFIGURE with FUSE_VPP at 1.71 V or more blows the root key from FUS_KEY_DATA and sets key_prog, with less it blows
nothing; either way FUS_KEY_DATA reads zero after it; a write of lock sets key_lock. THERM_N and SMB_ALERT_N go low as the hottest sensor
reaches 115 °C and release below 110 °C. Read Byte answers its four commands in every mode but RESET. In HALT-SAFE a read of SYS_DUMP_DATA
answers the word at the dump address and advances the address by 4; outside it answers 0. -/
def Obligations.FusesPackageAndDump : Prop :=
  (∀ (s : State) (v : Word) (vpp : Nat), spWf s.dev.regs = true → s.dev.sys.mode = .configure → fld v 8 8 = 0xA5 → v.getLsbD 0 = true → v.getLsbD 1 = false →
    s.dev.sys.keyProg = false → s.dev.sys.keyLock = false →
    ∃ t, exec (.fuseProg v vpp) s = .next t ∧ t.pending = s.pending ∧
      fuses t.dev = (if vpp < 1710 then fuses s.dev else { fuses s.dev with rootKey := BitVec.ofNat 256 (beNat (keyData s.dev)), keyProg := true }) ∧
      (∀ w, w < 8 → reg t.dev (FUS + 0x10 + 4 * w) = 0) ∧
      ∀ a, (∀ w, w < 8 → a ≠ FUS + 0x10 + 4 * w) → reg t.dev a = reg s.dev a) ∧
  (∀ (s : State) (v : Word), s.dev.sys.mode = .configure → fld v 8 8 = 0xA5 → v.getLsbD 0 = false → v.getLsbD 1 = true →
    exec (.fuseLock v) s = nextWith s { s.dev with sys := { s.dev.sys with keyLock := true } }) ∧
  (∀ (s : State) (c : Int), s.dev.sys.thermLow = false → 115 ≤ c → ∃ t, exec (.thermAlert c) s = .next t ∧ t.pending = s.pending ∧
    t.dev = { s.dev with out := s.dev.out ++ [.pin "THERM_N" false s.dev.tim.clock, .pin "SMB_ALERT_N" false s.dev.tim.clock],
                         sys := { s.dev.sys with thermLow := true } }) ∧
  (∀ (s : State) (c : Int), s.dev.sys.thermLow = true → c < 110 → ∃ t, exec (.thermAlert c) s = .next t ∧ t.pending = s.pending ∧
    t.dev = { s.dev with out := s.dev.out ++ [.pin "THERM_N" true s.dev.tim.clock, .pin "SMB_ALERT_N" true s.dev.tim.clock],
                         sys := { s.dev.sys with thermLow := false } }) ∧
  (∀ (s : State) (c : Int), (s.dev.sys.thermLow = true ∧ 110 ≤ c ∨ s.dev.sys.thermLow = false ∧ c < 115) →
    exec (.thermAlert c) s = .next s) ∧
  (∀ (s : State) (c : Byte) (die : Int), s.dev.sys.mode ≠ .reset → c.toNat < 4 →
    exec (.smbusReadByte c die) s = nextWith s (emitOut s.dev (.smbus
      (if c = 0 then BitVec.ofNat 8 (shownMode s.dev).code else if c = 1 then BitVec.ofInt 8 die
       else if c = 2 then BitVec.ofInt 8 (hottestStack s.dev)
       else BitVec.ofNat 8 (s.dev.sys.thermLow.toNat + 2 * s.dev.sys.keyLock.toNat))))) ∧
  (∀ (s : State) (ue : Bool), halted s.dev = true → spWf s.dev.regs = true → ∃ t, exec (.dumpRead ue) s = .next t ∧
    t.dev.out = s.dev.out ++ [.readData 0 (SYS + 0x28) (dumpWord s.dev ue).1] ∧
    t = { s with dev := { s.dev with out := t.dev.out, regs := t.dev.regs } } ∧
    (reg t.dev (SYS + 0x20)).toNat + 2 ^ 32 * getF t.dev (SYS + 0x24) 0 16 =
      ((reg s.dev (SYS + 0x20)).toNat + 2 ^ 32 * getF s.dev (SYS + 0x24) 0 16 + 4) % 2 ^ 48 ∧
    ∀ a, a ≠ SYS + 0x20 → a ≠ SYS + 0x24 → reg t.dev a = reg s.dev a) ∧
  (∀ (s : State) (ue : Bool), halted s.dev = false → exec (.dumpRead ue) s = nextWith s (emitOut s.dev (.readData 0 (SYS + 0x28) 0)))

/-- TACK_STORE that passes its checks with no store running starts one and goes on; every byte of the loaded copy reads as before. While
another store runs it waits. At its end the CRC is written to the copy being stored, which becomes the loaded one, or the verify fails and
the command ends with ST_TIMEOUT; nothing outside that copy changes. TACK_LOAD answers the loaded copy's bytes, zero where nothing is
loaded. -/
def Obligations.StoresWriteTheOtherCopy : Prop :=
  (∀ (s : State) (fn : Fin 64) (ring : Fin 32) (b v : HostRead) (c : Cmd), Memory.wf s.dev = true → Runs s.dev 0x68 fn ring c →
    checksPass (tackStoreAct b v s.dev c) = true → s.dev.sys.store = none →
    ∃ new, exec (.tackStore fn ring b v) s = nextWith s (goesOn (startStore s.dev c.id new) c) ∧
      (new.repairs = if dBits c.desc 8 0 1 = 1 then some (s.dev.sys.repairs.take 2048) else none) ∧
      (new.boot.isSome = (dBits c.desc 8 1 1 == 1)) ∧ (new.drv.isSome = (dBits c.desc 8 2 1 == 1)) ∧
      ∀ l, tackLoaded s.dev = some l → ∀ a, copyBase l ≤ a → a < copyBase l + 0x40000 →
        spGet (startStore s.dev c.id new).sys.tack a = spGet s.dev.sys.tack a) ∧
  (∀ (s : State) (fn : Fin 64) (ring : Fin 32) (b v : HostRead) (c : Cmd), Runs s.dev 0x68 fn ring c →
    checksPass (tackStoreAct b v s.dev c) = true → s.dev.sys.store ≠ none → exec (.tackStore fn ring b v) s = .next s) ∧
  (∀ (s : State) (us : Nat) (x : Store), s.dev.sys.store = some x →
    exec (.tackStoreDone true us) s = nextWith s (
      let d := { s.dev with sys := { s.dev.sys with store := none } }
      let d := putTack d (spWrite d.sys.tack (copyBase x.copy + 0x3FFFC) (leBytes (tackCrc d x.copy) 4))
      let d := setReg (setF d TCK 0 2 (x.copy + 1)) (TCK + 4) (wd x.gen)
      complete (raise d (evDev 0xE51 0 [(1, x.copy), (4, x.gen), (4, us)])) x.cmd ST_OK (resBytes [(4, x.gen), (1, x.copy)]))) ∧
  (∀ (s : State) (us : Nat) (x : Store), s.dev.sys.store = some x →
    exec (.tackStoreDone false us) s = nextWith s (failId { s.dev with sys := { s.dev.sys with store := none } } x.cmd
      { st := ST_TIMEOUT, evs := [evDev 0xE52 2 [(1, x.copy), (4, x.gen)]] })) ∧
  (∀ (s : State) (fn : Fin 64) (ring : Fin 32) (c : Cmd), Runs s.dev 0x69 fn ring c → checksPass (tackLoadAct s.dev c) = true →
    s.dev.sys.store = none → 0 < dNum c.desc 28 4 →
    exec (.tackLoad fn ring) s = nextWith s (completes
      (emitOut s.dev (.hostWrite c.fn (dNum c.desc 16 8) (match tackLoaded s.dev with
        | some l => spRead s.dev.sys.tack (copyBase l + (tackSection (dByte c.desc 8)).1 + dNum c.desc 24 4) (dNum c.desc 28 4)
        | none => List.replicate (dNum c.desc 28 4) 0))) c
      (leBytes (match tackLoaded s.dev with | some l => tackGen s.dev l | none => 0) 4)))

/-- The end of an audit that found no break counts one audit, keeps the longest duration, raises EV_LDG_AUDIT_LATE beyond 50 µs and changes
nothing else; one that found breaks reports each of them and then halts or fences as their scopes say. An audit that is not in
progress ends nothing. Writing 1 to fatal empties the latch: the record and the bit read zero. -/
def Obligations.AuditsAndFatalLatch : Prop :=
  (∀ (s : State) (us : Nat), s.dev.ldg.auditing = true → halted s.dev = false → (s.dev.ldg.breaks.filter (audited s.dev)) = [] →
    exec (.ledgerAuditDone us) s = nextWith s (
      let d := putB { s.dev with ldg := { s.dev.ldg with auditing := false, breaks := [] } } LDG 0 false
      let d := maxReg (cnt d (LDG + 4) 1) (LDG + 8) (min us 0xFFFF)
      if 50 < us then raise d (evDev 0xE01 1 [(4, us)]) else d)) ∧
  (∀ (s : State) (us : Nat), s.dev.ldg.auditing = true → halted s.dev = false →
    exec (.ledgerAuditDone us) s = nextWith s (
      let bs := s.dev.ldg.breaks.filter (audited s.dev)
      let d := putB { s.dev with ldg := { s.dev.ldg with auditing := false, breaks := [] } } LDG 0 false
      let d := maxReg (cnt d (LDG + 4) 1) (LDG + 8) (min us 0xFFFF)
      let d := if 50 < us then raise d (evDev 0xE01 1 [(4, us)]) else d
      containBreaks (bs.foldl ledgBreak d) bs)) ∧
  (∀ (s : State) (us : Nat), s.dev.ldg.auditing = false → exec (.ledgerAuditDone us) s = .next s) ∧
  (∀ (s : State) (v : Word), v.getLsbD 0 = true → spWf s.dev.regs = true → ∃ t, exec (.fatalLatchClear v) s = .next t ∧
    t = { s with dev := { s.dev with regs := t.dev.regs } } ∧ getB t.dev (evtBase 0) 0 = false ∧
    (∀ i, i < 8 → reg t.dev (evtBase 0 + 0x10 + 4 * i) = 0) ∧
    ∀ a, a ≠ evtBase 0 → (∀ i, i < 8 → a ≠ evtBase 0 + 0x10 + 4 * i) → reg t.dev a = reg s.dev a) ∧
  (∀ (s : State) (v : Word), v.getLsbD 0 = false → exec (.fatalLatchClear v) s = .next s)

/-! ### The Dealer -/

/-- FLOW_CREATE that passes its checks adds a flow under a handle that no host flow has. CARD_SUBMIT and DMA_CHAIN with a credit and a free
slot store a WAITING card with the fields of the descriptor and answer its handle; without, they wait unstarted for one. CARD_CANCEL
retires a WAITING or READY card as cancelled and answers 0, waits for a card in service or FINISHED, and answers 2 for a ZOMBIE. -/
def Obligations.FlowsAndCardsComplete : Prop :=
  (∀ (s : State) (fn : Fin 64) (ring : Fin 32) (c : Cmd), Runs s.dev 0x40 fn ring c → checksPass (flowCreateAct s.dev c) = true →
    ∃ i, i < s.dev.variant.capFlows ∧ (∀ f ∈ s.dev.dlr.flows, f.host = true → f.id ≠ mkHandle 9 i) ∧
      exec (.flowCreate fn ring) s = nextWith s (
        let f : Flow := { id := mkHandle 9 i, fn := c.fn, session := dHandle c.desc, host := true, ordered := dBits c.desc 8 0 1 == 1,
                          limit := dNum c.desc 12 4 }
        completes (ledgTake { s.dev with dlr := { s.dev.dlr with flows := s.dev.dlr.flows ++ [f] } } 2 0 1) c (leBytes f.id 4))) ∧
  (∀ (s : State) (fn : Fin 64) (ring : Fin 32) (c : Cmd) (slot : Nat), Runs s.dev 0x41 fn ring c →
    checksPass (cardSubmitAct s.dev c) = true → hasCredit s.dev (.fn c.fn) (dHandle c.desc) = true → freeSlot s.dev = some slot →
    ∃ k : Card, exec (.cardSubmit fn ring) s = nextWith s (completes (storeCard s.dev k) c (leBytes (cardHandle slot) 4)) ∧
      k.state = .waiting ∧ k.cls = dBits c.desc 8 0 2 ∧ k.exec = dByte c.desc 9 ∧ k.quarter = dByte c.desc 10 ∧ k.team = dByte c.desc 11 ∧
      k.deadline.toNat = dNum c.desc 12 4 ∧ k.counter = dByte c.desc 20 ∧ k.flow = dHandle c.desc ∧ k.fn = c.fn ∧
      k.work = (if dByte c.desc 9 = 0 then .relay else .kernel (wd (dNum c.desc 24 4)) (wd (dNum c.desc 28 4)))) ∧
  (∀ (s : State) (fn : Fin 64) (ring : Fin 32) (c : Cmd), Runs s.dev 0x41 fn ring c →
    checksPass (cardSubmitAct s.dev c) = true → (hasCredit s.dev (.fn c.fn) (dHandle c.desc) = false ∨ freeSlot s.dev = none) →
    exec (.cardSubmit fn ring) s = nextWith s (putCmd s.dev { c with waiting := true, strides := if c.waiting then c.strides else 0 })) ∧
  (∀ (s : State) (fn : Fin 64) (ring : Fin 32) (bs : List Byte) (c : Cmd) (slot : Nat), Runs s.dev 0x70 fn ring c →
    checksPass (dmaChainAct (.ok bs) s.dev c) = true → hasCredit s.dev (.fn c.fn) (dNum c.desc 40 4) = true → freeSlot s.dev = some slot →
    ∃ k : Card, exec (.dmaChain fn ring (.ok bs)) s = nextWith s (completes (storeCard s.dev k) c (leBytes (cardHandle slot) 4)) ∧
      k.state = .waiting ∧ k.exec = 6 ∧ k.quarter = dByte c.desc 9 ∧ k.unit = dByte c.desc 10 ∧ k.flow = dNum c.desc 40 4 ∧ k.fn = c.fn ∧
      k.work = .dma ((chainOf bs (dNum c.desc 22 2)).map Prod.fst) (dNum c.desc 32 8)) ∧
  (∀ (s : State) (fn : Fin 64) (ring : Fin 32) (c : Cmd) (k : Card), Runs s.dev 0x42 fn ring c →
    checksPass (cardCancelAct s.dev c) = true → findCard s.dev (hIndex (dHandle c.desc)) = some k →
    exec (.cardCancel fn ring) s = nextWith s (
      if k.state = .waiting ∨ k.state = .ready then completes (runTasks s.dev [.retire k.slot 2 (dBits c.desc 8 0 1 == 1)]) c [0]
      else if k.state = .zombie then completes s.dev c [2]
      else goesOn (putCard s.dev { k with cancelCmds := k.cancelCmds ++ [c.id] }) c))

/-- CARD_DEAL gives the first READY trump card of the pool, or with no trump and no background card the first standard one, to the
core that R95 chooses, which for a card of another class is none that a READY trump card of any pool could take; with nothing READY it
resumes a pre-empted card on its own core, where that is idle and not halted. ENGINE_QUEUE_WRITE puts the first card for a unit into its queue; CARD_RETIRE completes a card whose work has ended.
PREEMPT asks the core of the background card with the latest deadline to yield for the first READY trump card without a pre-emption
pending, and PREEMPT_LATE reports one that has not. The
watchdog, the submit stall, the deadline drop (at the boundary, outside HALT-SAFE) and the overrun each report once and count. The
model's choice: the executor of EV_DLR_OVERRUN is the card's exec code in one byte (log entry 184). -/
def Obligations.DealerStepsComplete : Prop :=
  (∀ (s : State) (q t k : Nat) (c : Card), halted s.dev = false → c.cls ≠ 2 →
    (firstCard s.dev (readyIn s.dev q t 0) = some c ∨
      (readyIn s.dev q t 0 = [] ∧ firstCard s.dev (readyIn s.dev q t 1) = some c ∧ readyIn s.dev q t 2 = [] ∧ resumable s.dev q t = [])) →
    chooseCore s.dev c = some k →
    exec (.cardDeal q t) s = nextWith s (
      let e := dealTo s.dev c k false
      (poolCores e q t).foldl (fun e j => if (findCore s.dev j).card == (findCore e j).card then e else breakCheck e j) e)) ∧
  (∀ (s : State) (q t k : Nat) (p : Card) (ps : List Card), halted s.dev = false → readyIn s.dev q t 0 = [] → readyIn s.dev q t 1 = [] →
    resumable s.dev q t = p :: ps → p.core = some k →
    exec (.cardDeal q t) s = nextWith s (
      let e := dealTo s.dev p k true
      (poolCores e q t).foldl (fun e j => if (findCore s.dev j).card == (findCore e j).card then e else breakCheck e j) e)) ∧
  (∀ (d : Dev) (q t k : Nat) (p : Card), p ∈ resumable d q t → p.core = some k →
    p.preempted = true ∧ (findCore d k).card = none ∧ (findCore d k).halted = false ∧ halted d = false) ∧
  (∀ (d : Dev) (c : Card) (k : Nat), chooseCore d c = some k → coreIdle d k = true ∧ k ∈ poolCores d c.quarter c.team ∧
    (c.cls ≠ 0 → ∀ x ∈ d.dlr.cards, x.state = .ready → x.exec = 1 → x.cls = 0 → flowAllows d x = true → k ∉ poolCores d x.quarter x.team)) ∧
  (∀ (d : Dev) (c : Card) (k : Nat), ∃ x, findCore (dealTo d c k false) k = x ∧ x.card = some c.slot ∧ x.pc = nth (dealRecord d c false) 0 0 ∧
    x.deal = dealRecord d c false ∧ x.p = BitVec.ofNat 8 c.predShort.toNat ∧ x.wbuf = [] ∧
    x.s = [nth (dealRecord d c false) 1 0, wd (cardHandle c.slot), c.deadline] ++ List.replicate 13 0 ∧
    ∀ j, j ≠ k → findCore (dealTo d c k false) j = findCore d j) ∧
  (∀ (s : State) (u : UnitId) (n : Nat) (c : Card), unitWf u = true → unitTakes s.dev u = true → (queueOf s.dev u).length < queueDepth u → n < 3 →
    (∀ m, m < n → s.dev.dlr.cards.filter (fun c => c.state == .ready && c.cls == m && cardFor s.dev u c && flowAllows s.dev c) = []) →
    firstCard s.dev (s.dev.dlr.cards.filter (fun c => c.state == .ready && c.cls == n && cardFor s.dev u c && flowAllows s.dev c)) = some c →
    exec (.engineQueueWrite u) s = nextWith s (noteDeal (flowProgress (putCard (setQueue s.dev u (queueOf s.dev u ++ [c.slot]))
      { c with state := .inService, at_ := some u }) c.flow) c)) ∧
  (∀ (s : State) (slot : Nat) (c : Card), findCard s.dev slot = some c → c.state = .inService → c.preempted = false → halted s.dev = false →
    (c.done = true ∨ c.work.library = true) → exec (.cardRetire slot) s = nextWith s (runTasks s.dev [.complete slot])) ∧
  (∀ (s : State) (q t k : Nat) (c b : Card), halted s.dev = false →
    firstCard s.dev ((readyIn s.dev q t 0).filter fun c => !s.dev.dlr.preempts.any fun p => p.trump == c.slot) = some c →
    bit (regB s.dev (DLR + 4)) 8 = true → (∀ j ∈ poolCores s.dev q t, coreIdle s.dev j = false) →
    preemptable s.dev q t = [(k, b)] →
    exec (.preempt q t) s = nextWith s (
      let d := { s.dev with dlr := { s.dev.dlr with preempts := s.dev.dlr.preempts ++ [{ core := k, trump := c.slot, background := b.slot }] } }
      cnt (putCore d { findCore d k with preemptReq := true }) (DLR + 0x40) 1)) ∧
  (∀ (s : State) (k : Fin 256) (p : Preempt), s.dev.dlr.preempts.find? (fun p => p.core == k.val && !p.late) = some p →
    exec (.preemptLate k) s = nextWith s (raise
      (let f (x : Preempt) : Preempt := if x.core == k.val then { x with late := true } else x
       { s.dev with dlr := { s.dev.dlr with preempts := s.dev.dlr.preempts.map f } })
      (evCore k 0x203 1 [(1, k.val), (4, cardHandle p.trump), (4, cardHandle p.background)]))) ∧
  (∀ (s : State) (id : Nat) (f : Flow), findFlow s.dev id = some f → f.raised = false → f.progressed = false → bit (regB s.dev (DLR + 4)) 9 = true →
    wdLimit s.dev ≤ f.stall → flowPending s.dev id = true →
    ∃ h, exec (.flowStall id) s = nextWith s (raise (cnt (putFlow s.dev { f with raised := true }) (DLR + 0x38) 1)
      (evTo (evDev 0x200 1 [(4, f.id), (4, h), (4, f.stall)]) f.fn))) ∧
  (∀ (s : State) (fn : Fin 64) (ring : Fin 32) (c : Cmd),
    s.dev.hif.accepted.find? (fun c => c.fn == fn.val && c.ring == ring.val && c.waiting) = some c → c.stalled = false → wdLimit s.dev < c.strides →
    exec (.submitStall fn ring) s = nextWith s (raise (putCmd s.dev { c with stalled := true }) (evFn c.fn 0x204 1 [(1, c.fn), (1, c.ring)]))) ∧
  (∀ (s : State) (slot : Nat) (c : Card), findCard s.dev slot = some c → c.cls = 0 → (c.state = .waiting ∨ c.state = .ready) →
    c.deadline = strideW s.dev - 1 → s.dev.tim.clock = strideStart s.dev.tim.stride → halted s.dev = false →
    exec (.deadlineDrop slot) s = nextWith s (dropCard (raise (cnt s.dev (DLR + 0x34) 1)
      (evTo (evDev 0x210 1 [(4, cardHandle c.slot), (4, c.owner), (4, c.deadline.toNat)]) c.fn)) slot)) ∧
  (∀ (s : State) (slot cycles : Nat) (c : Card), findCard s.dev slot = some c → c.cls = 0 → c.state = .inService → c.overran = false →
    sdiff c.deadline (strideW s.dev) < 0 →
    exec (.overrun slot cycles) s = nextWith s (raise (cnt (putCard s.dev { c with overran := true, late := cycles }) (DLR + 0x30) 1)
      (evTo (evDev 0x211 1 [(4, cardHandle slot), (1, c.exec), (4, cycles)]) c.fn)))

/-! ### Media cores -/

/-- An instruction that its core issues, guard true, adds to its bundle the result that the instruction table gives it, in the latency that it
states: loads two bundles after their own, multiply-accumulates, ext, exp and norm one, the rest at the end of their own bundle; a store its
bytes; a branch, loop or rloop the flow. What a bundle's end does with them is one operation, of another statement. -/
def Obligations.CoreInstructionsJoinTheirBundle : Prop :=
  (∀ (s : State) (i : Issue) (sub clear half : Bool) (n : Fin 8) (s1 s2 : Fin 32), Issues s.dev i →
    exec (.mac i sub clear half n s1 s2) s = nextWith s (bundled s.dev i
      (let x := findCore s.dev i.core.val
       let ps := List.zipWith (· * ·) (lanes (dw half) (dn half) (rdD x s1)) (lanes (dw half) (dn half) (rdD x s2))
       [.write 2 { left := 1, dst := .x n.val, acc := !clear, lane := xw half,
                   val := BitVec.ofNat 640 (packLanes (xw half) (if sub then ps.map (- ·) else ps)) }]))) ∧
  (∀ (s : State) (i : Issue) (clear half : Bool) (n : Fin 8) (dS dT dC : Fin 32) (k : Fin 16), Issues s.dev i → opset s.dev i.core.val = 0 →
    (findCore s.dev i.core.val).id = i.core.val → k.val < dn half → dS ≠ dT →
    exec (.tapm i clear half n dS dT dC k) s = nextWith s (bundled s.dev i
      (let x := findCore s.dev i.core.val
       let sl := lanes (dw half) (dn half) (rdD x dS)
       let tl := lanes (dw half) (dn half) (rdD x dT)
       [.write 2 (accRes half clear n.val (sl.map (· * lane (dw half) k.val (rdD x dC)))),
        .write 2 (resD x 0 dS (dw half) (nth tl (dn half - 1) 0 :: sl.take (dn half - 1))),
        .write 2 (resD x 0 dT (dw half) (0 :: tl.take (dn half - 1)))]))) ∧
  (∀ (s : State) (i : Issue) (op : VOp) (half : Bool) (dst s1 s2 : Fin 32), Issues s.dev i → op ≠ .shl → op ≠ .asr →
    exec (.valuOp i op half dst s1 s2) s = nextWith s (bundled s.dev i
      (let x := findCore s.dev i.core.val
       let rs := List.zipWith (vLane op (dw half)) (lanes (dw half) (dn half) (rdD x s1)) (lanes (dw half) (dn half) (rdD x s2))
       .write 3 (resD x 0 dst (dw half) (rs.map fun r => r.1.getD 0)) :: if rs.any (fun r => r.2) then [.sat] else []))) ∧
  (∀ (s : State) (i : Issue) (op : VOp) (half : Bool) (dst s1 s2 : Fin 32), Issues s.dev i → (op = .shl ∨ op = .asr) →
    ∃ d es, exec (.valuOp i op half dst s1 s2) s = nextWith s (bundled d i es) ∧ d = { s.dev with freeCtr := d.freeCtr } ∧
      ∀ j, j < dn half → 0 ≤ lane (dw half) j (rdD (findCore s.dev i.core.val) s2) → lane (dw half) j (rdD (findCore s.dev i.core.val) s2) < dw half →
        ∃ ls : List Int, es = [.write 3 (resD (findCore s.dev i.core.val) 0 dst (dw half) ls)] ∧
          nth ls j 0 = (let a := lane (dw half) j (rdD (findCore s.dev i.core.val) s1)
                        let b := (lane (dw half) j (rdD (findCore s.dev i.core.val) s2)).toNat
                        if op = .shl then a * 2 ^ b else a / 2 ^ b)) ∧
  (∀ (s : State) (i : Issue) (half : Bool) (dst : Fin 32) (n : Fin 8) (sh : ScSrc), Issues s.dev i →
    (rdS (findCore s.dev i.core.val) sh).toNat < (if half then 32 else 64) →
    exec (.ext i half dst n sh) s = nextWith s (bundled s.dev i
      (let x := findCore s.dev i.core.val
       let ps := (lanes (xw half) (dn half) (rdX x n)).map fun v => extLane v (rdS x sh).toNat (dw half)
       .write 3 (resD x 1 dst (dw half) (ps.map Prod.fst)) :: satEff ps))) ∧
  (∀ (s : State) (i : Issue) (half : Bool) (dst : Fin 32) (n : Fin 8), Issues s.dev i → opset s.dev (findCore s.dev i.core.val).id = 1 →
    exec (.exp i half dst n) s = nextWith s (bundled s.dev i
      (let x := findCore s.dev i.core.val
       [.write 3 (resD x 1 dst (dw half) ((lanes (xw half) (dn half) (rdX x n)).map (expLane half)))]))) ∧
  (∀ (s : State) (i : Issue) (half : Bool) (dst e : Fin 32) (n : Fin 8), Issues s.dev i → opset s.dev (findCore s.dev i.core.val).id = 1 →
    exec (.norm i half dst n e) s = nextWith s (bundled s.dev i
      (let x := findCore s.dev i.core.val
       let ps := List.zipWith (normLane half) (lanes (xw half) (dn half) (rdX x n)) (lanes (dw half) (dn half) (rdD x e))
       .write 3 (resD x 1 dst (dw half) (ps.map Prod.fst)) :: satEff ps))) ∧
  (∀ (s : State) (i : Issue) (half : Bool) (dst e : Fin 32) (n : Fin 8), Issues s.dev i → opset s.dev (findCore s.dev i.core.val).id = 1 → dst ≠ e →
    exec (.normx i half dst e n) s = nextWith s (bundled s.dev i
      (let x := findCore s.dev i.core.val
       let vs := lanes (xw half) (dn half) (rdX x n)
       let ps := List.zipWith (normLane half) vs (vs.map (expLane half))
       .write 3 (resD x 1 e (dw half) (vs.map (expLane half))) :: .write 3 (resD x 1 dst (dw half) (ps.map Prod.fst)) :: satEff ps))) ∧
  (∀ (s : State) (i : Issue) (op : SOp) (dst s1 : Fin 16) (s2 : ScSrc) (v : Word), Issues s.dev i →
    scalarVal op (nth (findCore s.dev i.core.val).s s1.val 0) (rdS (findCore s.dev i.core.val) s2) = some v →
    exec (.scalarOp i op dst s1 s2) s = nextWith s (bundled s.dev i [.write 4 (resS dst v)])) ∧
  (∀ (s : State) (i : Issue) (op : COp) (p : Fin 8) (s1 : Fin 16) (s2 : ScSrc), Issues s.dev i →
    exec (.cmp i op p s1 s2) s = nextWith s (bundled s.dev i [.write 4 (resP p
      (cmpVal op (nth (findCore s.dev i.core.val).s s1.val 0) (rdS (findCore s.dev i.core.val) s2)))])) ∧
  (∀ (s : State) (i : Issue) (file : AFile) (dst : Fin 8) (src : ScSrc) (r : CReg), Issues s.dev i → amovDst file dst.val = some r →
    exec (.amov i file dst src) s = nextWith s (bundled s.dev i [.write (lsSlot i) (res 0 r (rdS (findCore s.dev i.core.val) src).toNat)])) ∧
  (∀ (s : State) (i : Issue) (dst : Fin 16) (w : Fin 8), Issues s.dev i →
    exec (.getd i dst w) s = nextWith s (bundled s.dev i [.write 4 (resS dst (nth (findCore s.dev i.core.val).deal w.val 0))])) ∧
  (∀ (s : State) (i : Issue) (dst : Fin 16), Issues s.dev i → exec (.rdflag i dst) s = nextWith s (bundled s.dev i [.write 4 (resS dst
    (wd ((findCore s.dev i.core.val).sat.toNat + 2 * (findCore s.dev i.core.val).circ.toNat)))]))

/-- A load or store whose effective address passes the checks of alignment, mapping and locked bank adds to its bundle the bytes that it reads, or
writes, with the Paddock bank it touches and the address register's update; branch, loop, rloop, spawn, signal, done, yield and savectx outside a locked sequence add
their effect; fence and unlock add theirs; lock of a Paddock bank without an owner takes the bank. -/
def Obligations.CoreMemoryAndFlowInstructions : Prop :=
  (∀ (s : State) (i : Issue) (dst : Fin 32) (ea : Ea) (p : Place), Issues s.dev i →
    accessCheck (findCore s.dev i.core.val) (effAddr (findCore s.dev i.core.val) (lsSlot i) ea).1 32 = .ok p →
    exec (.ldV i dst ea false) s = nextWith s (bundled s.dev i
      (let x := findCore s.dev i.core.val
       .write (lsSlot i) (res 2 (.d (physD x dst.val)) (leNat (coreRead s.dev x p 32))) :: touches p ++ (effAddr x (lsSlot i) ea).2))) ∧
  (∀ (s : State) (i : Issue) (half : Bool) (dst : Fin 16) (ea : Ea) (p : Place), Issues s.dev i →
    accessCheck (findCore s.dev i.core.val) (effAddr (findCore s.dev i.core.val) (lsSlot i) ea).1 (if half then 2 else 4) = .ok p →
    exec (.ldW i half dst ea false) s = nextWith s (bundled s.dev i
      (let x := findCore s.dev i.core.val
       let v := leNat (coreRead s.dev x p (if half then 2 else 4))
       .write (lsSlot i) (res 2 (.s dst.val) (if half then ((BitVec.ofNat 16 v).signExtend 32).toNat else v)) :: touches p ++ (effAddr x (lsSlot i) ea).2))) ∧
  (∀ (s : State) (i : Issue) (dst : Fin 32) (ea : Ea) (p : Place), Issues s.dev i →
    accessCheck (findCore s.dev i.core.val) (effAddr (findCore s.dev i.core.val) (lsSlot i) ea).1 4 = .ok p →
    exec (.ldBcW i dst ea false) s = nextWith s (bundled s.dev i
      (let x := findCore s.dev i.core.val
       .write (lsSlot i) (res 2 (.d (physD x dst.val)) (packLanes 32 (List.replicate 8 (leNat (coreRead s.dev x p 4) : Int)))) ::
         touches p ++ (effAddr x (lsSlot i) ea).2))) ∧
  (∀ (s : State) (i : Issue) (ea : Ea) (src : Fin 32) (p : Place), Issues s.dev i →
    accessCheck (findCore s.dev i.core.val) (effAddr (findCore s.dev i.core.val) (lsSlot i) ea).1 32 = .ok p →
    badStore s.dev (findCore s.dev i.core.val) (effAddr (findCore s.dev i.core.val) (lsSlot i) ea).1.toNat p = false →
    exec (.stV i ea src) s = nextWith s (bundled s.dev i
      (let x := findCore s.dev i.core.val
       .store (lsSlot i) (effAddr x (lsSlot i) ea).1.toNat (leBytes (rdD x src).toNat 32) :: touches p ++ (effAddr x (lsSlot i) ea).2))) ∧
  (∀ (s : State) (i : Issue) (half : Bool) (ea : Ea) (src : Fin 16) (p : Place), Issues s.dev i →
    accessCheck (findCore s.dev i.core.val) (effAddr (findCore s.dev i.core.val) (lsSlot i) ea).1 (if half then 2 else 4) = .ok p →
    badStore s.dev (findCore s.dev i.core.val) (effAddr (findCore s.dev i.core.val) (lsSlot i) ea).1.toNat p = false →
    exec (.stW i half ea src) s = nextWith s (bundled s.dev i
      (let x := findCore s.dev i.core.val
       .store (lsSlot i) (effAddr x (lsSlot i) ea).1.toNat (leBytes (nth x.s src.val 0).toNat (if half then 2 else 4)) :: touches p ++ (effAddr x (lsSlot i) ea).2))) ∧
  (∀ (s : State) (i : Issue), Issues s.dev i → (findCore s.dev i.core.val).hold = none → grantedIn (findCore s.dev i.core.val).buf = none →
    (∀ t, exec (.branch i t) s = nextWith s (bundled s.dev i [.branch t])) ∧
    (∀ c e, ((findCore s.dev i.core.val).loops.filter fun l => !l.rot).length < 3 → (rdS (findCore s.dev i.core.val) c).toNat < 65536 →
      exec (.loop i c e) s = nextWith s (bundled s.dev i [.loop (rdS (findCore s.dev i.core.val) c).toNat e])) ∧
    (∀ c st e, (∀ l ∈ (findCore s.dev i.core.val).loops, l.rot = false) → st.val ≠ 0 → (rdS (findCore s.dev i.core.val) c).toNat ≠ 0 →
      (rdS (findCore s.dev i.core.val) c).toNat < 65536 →
      exec (.rloop i c st e) s = nextWith s (bundled s.dev i [.rloop (rdS (findCore s.dev i.core.val) c).toNat st.val e])) ∧
    (∀ dst p a off, place (findCore s.dev i.core.val).id (nth (findCore s.dev i.core.val).a a.val 0).toNat 32 = some (.loc off) →
      exec (.spawn i dst p a) s = nextWith s (bundled s.dev i
        [.spawn dst.val p.val (spRead (localMem s.dev (findCore s.dev i.core.val).id) off 32)])) ∧
    (∀ r, exec (.signal i r) s = nextWith s (bundled s.dev i [.signal (nth (findCore s.dev i.core.val).s r.val 0)])) ∧
    (∀ n, exec (.done i n) s = nextWith s (bundled s.dev i [.done n])) ∧
    ((findCore s.dev i.core.val).handler = true → exec (.yield i) s = nextWith s (bundled s.dev i [.yield])) ∧
    exec (.savectx i) s = nextWith s (bundled s.dev i [.savectx])) ∧
  (∀ (s : State) (i : Issue), Issues s.dev i →
    exec (.fence i) s = nextWith s (bundled s.dev i [.fence]) ∧ exec (.unlock i) s = nextWith s (bundled s.dev i [.unlock])) ∧
  (∀ (s : State) (i : Issue) (a : Fin 8) (off : Nat), Issues s.dev i → (findCore s.dev i.core.val).id = i.core.val →
    (findCore s.dev i.core.val).hold = none → grantedIn (findCore s.dev i.core.val).buf = none →
    place i.core.val (nth (findCore s.dev i.core.val).a a.val 0).toNat 1 = some (.pad off) →
    (getBank s.dev (coreQuarter i.core.val) (off / bankSize)).owner = none → (findCore s.dev i.core.val).buf.any (lockClash (off / bankSize)) = false →
    exec (.lock i a) s = nextWith s (bundled
      (let d := putBank s.dev { getBank s.dev (coreQuarter i.core.val) (off / bankSize) with owner := some (coreMaster i.core.val) }
       putCore d { findCore d i.core.val with holdAddr := nth (findCore s.dev i.core.val).a a.val 0 }) i [.lock (off / bankSize)]))

/-- On a core between bundles with nothing pending, a bundle of one scalar operation, compare, address-register move, branch, multiply-accumulate or local
store ends with exactly its result in the core (the accumulation still one bundle away), the pc at the next bundle or the branch's target, a
stored word at its address in the core's local memory, and nothing else changed: no other register, flag, core, memory byte
or part of the device. -/
def Obligations.OneInstructionBundles : Prop :=
  (∀ (s : State) (i : Issue) (op : SOp) (dst s1 : Fin 16) (s2 : ScSrc) (v : Word), Issues s.dev i → Quiet s.dev i.core.val → i.last = true →
    scalarVal op (nth (findCore s.dev i.core.val).s s1.val 0) (rdS (findCore s.dev i.core.val) s2) = some v →
    exec (.scalarOp i op dst s1 s2) s = nextWith s (
      let x := findCore s.dev i.core.val
      putCore s.dev { x with s := x.s.set dst.val v, pc := x.pc + 32 })) ∧
  (∀ (s : State) (i : Issue) (op : COp) (p : Fin 8) (s1 : Fin 16) (s2 : ScSrc), Issues s.dev i → Quiet s.dev i.core.val → i.last = true →
    ∃ x, exec (.cmp i op p s1 s2) s = nextWith s (putCore s.dev { findCore s.dev i.core.val with p := x, pc := (findCore s.dev i.core.val).pc + 32 }) ∧
      ∀ j, j < 8 → x.getLsbD j = (if j = p.val then cmpVal op (nth (findCore s.dev i.core.val).s s1.val 0) (rdS (findCore s.dev i.core.val) s2)
        else (findCore s.dev i.core.val).p.getLsbD j)) ∧
  (∀ (s : State) (i : Issue) (dst : Fin 8) (src : ScSrc), Issues s.dev i → Quiet s.dev i.core.val → i.last = true →
    exec (.amov i .a dst src) s = nextWith s (
      let x := findCore s.dev i.core.val
      putCore s.dev { x with a := x.a.set dst.val (rdS x src), pc := x.pc + 32 })) ∧
  (∀ (s : State) (i : Issue) (t : Word), Issues s.dev i → Quiet s.dev i.core.val → i.last = true →
    exec (.branch i t) s = nextWith s (putCore s.dev { findCore s.dev i.core.val with pc := t })) ∧
  (∀ (s : State) (i : Issue) (sub clear half : Bool) (n : Fin 8) (s1 s2 : Fin 32), Issues s.dev i → Quiet s.dev i.core.val → i.last = true →
    exec (.mac i sub clear half n s1 s2) s = nextWith s (
      let x := findCore s.dev i.core.val
      let ps := List.zipWith (· * ·) (lanes (dw half) (dn half) (rdD x s1)) (lanes (dw half) (dn half) (rdD x s2))
      let r := accRes half clear n.val (if sub then ps.map (- ·) else ps)
      putCore s.dev { x with pc := x.pc + 32, pend := [{ r with left := 0 }] })) ∧
  (∀ (s : State) (i : Issue) (a : Fin 8) (src : Fin 16), Issues s.dev i → Quiet s.dev i.core.val → i.last = true → Memory.wf s.dev = true →
    (nth (findCore s.dev i.core.val).a a.val 0).toNat + 4 ≤ 0x10000 → (nth (findCore s.dev i.core.val).a a.val 0).toNat % 4 = 0 →
    fld (teamCfg s.dev i.core.val) 8 5 = 16 →
    ∃ t, exec (.stW i false (.ind a) src) s = .next t ∧ t.pending = s.pending ∧
      t.dev = { s.dev with cores := t.dev.cores, mem := { s.dev.mem with local_ := t.dev.mem.local_ } } ∧
      (∀ j, findCore t.dev j = if j = i.core.val then { findCore s.dev j with pc := (findCore s.dev j).pc + 32 } else findCore s.dev j) ∧
      ∀ k b, spGet (localMem t.dev k) b =
        (let o := (nth (findCore s.dev i.core.val).a a.val 0).toNat
         if k = i.core.val ∧ o ≤ b ∧ b < o + 4 then BitVec.ofNat 8 ((nth (findCore s.dev i.core.val).s src.val 0).toNat / 256 ^ (b - o))
         else spGet (localMem s.dev k) b))

/-- A misaligned access faults with MISALIGN, an aligned one outside the map with ADDR, an instruction of the other set and a fourth nested
loop with ILLEGAL, a branch in a locked sequence with LOCK_RULE, and so does a lock whose bundle has touched another bank or flows
before it; a guard that fails adds nothing, nor does an instruction after DONE in its bundle. From outside: the oldest buffered
store drains; the pre-empt interrupt saves pc and predicates and enters the handler at the team's vector; a halt that is written stops the
core at its bundle boundary, and step lets a halted core run one bundle. -/
def Obligations.CoreFaultsAndControl : Prop :=
  (∀ (s : State) (i : Issue) (dst : Fin 32) (ea : Ea) (ue : Bool), Issues s.dev i →
    (effAddr (findCore s.dev i.core.val) (lsSlot i) ea).1.toNat % 32 ≠ 0 →
    exec (.ldV i dst ea ue) s = nextWith s (faulted s.dev i F_MISALIGN (effAddr (findCore s.dev i.core.val) (lsSlot i) ea).1)) ∧
  (∀ (s : State) (i : Issue) (ea : Ea) (src : Fin 16), Issues s.dev i →
    (effAddr (findCore s.dev i.core.val) (lsSlot i) ea).1.toNat % 4 = 0 →
    place (findCore s.dev i.core.val).id (effAddr (findCore s.dev i.core.val) (lsSlot i) ea).1.toNat 4 = none →
    exec (.stW i false ea src) s = nextWith s (faulted s.dev i F_ADDR (effAddr (findCore s.dev i.core.val) (lsSlot i) ea).1)) ∧
  (∀ (s : State) (i : Issue) (half : Bool) (dst : Fin 32) (n : Fin 8), Issues s.dev i → opset s.dev (findCore s.dev i.core.val).id = 0 →
    exec (.exp i half dst n) s = nextWith s (faulted s.dev i F_ILLEGAL 0)) ∧
  (∀ (s : State) (i : Issue) (c : ScSrc) (e : Word), Issues s.dev i → (findCore s.dev i.core.val).hold = none →
    grantedIn (findCore s.dev i.core.val).buf = none → 3 ≤ ((findCore s.dev i.core.val).loops.filter fun l => !l.rot).length →
    exec (.loop i c e) s = nextWith s (faulted s.dev i F_ILLEGAL 0)) ∧
  (∀ (s : State) (i : Issue) (t : Word), Issues s.dev i → (findCore s.dev i.core.val).hold ≠ none →
    exec (.branch i t) s = nextWith s (faulted s.dev i F_LOCK_RULE 0)) ∧
  (∀ (s : State) (i : Issue) (p : Fin 8) (v : Bool) (t : Word), coreRuns s.dev (findCore s.dev i.core.val) = true →
    (findCore s.dev i.core.val).issuing = true → i.guard = some (p, v) → rdP (findCore s.dev i.core.val) p ≠ v → i.last = false →
    exec (.branch i t) s = nextWith s (putCore s.dev { findCore s.dev i.core.val with issuing := true })) ∧
  (∀ (s : State) (i : Issue) (ea : Ea) (src : Fin 16), coreRuns s.dev (findCore s.dev i.core.val) = true →
    (findCore s.dev i.core.val).issuing = true → (findCore s.dev i.core.val).buf.any CEff.isDone = true → i.last = false →
    exec (.stW i false ea src) s = nextWith s (putCore s.dev { findCore s.dev i.core.val with issuing := true })) ∧
  (∀ (s : State) (i : Issue) (a : Fin 8) (off : Nat), Issues s.dev i → (findCore s.dev i.core.val).id = i.core.val →
    (findCore s.dev i.core.val).hold = none → grantedIn (findCore s.dev i.core.val).buf = none →
    place i.core.val (nth (findCore s.dev i.core.val).a a.val 0).toNat 1 = some (.pad off) →
    (findCore s.dev i.core.val).buf.any (lockClash (off / bankSize)) = true →
    exec (.lock i a) s = nextWith s (faulted s.dev i F_LOCK_RULE (nth (findCore s.dev i.core.val).a a.val 0))) ∧
  (∀ (s : State) (k : Fin 256) (e : Nat × List Byte) (es : List (Nat × List Byte)), halted s.dev = false →
    (findCore s.dev k.val).wbuf = e :: es →
    exec (.writeBufferDrain k) s = nextWith s (putCore (padWrite s.dev (coreQuarter k.val) e.1 e.2) { findCore s.dev k.val with wbuf := es })) ∧
  (∀ (s : State) (k : Fin 256), coreRuns s.dev (findCore s.dev k.val) = true → (findCore s.dev k.val).preemptReq = true →
    (findCore s.dev k.val).issuing = false → (findCore s.dev k.val).hold = none → (findCore s.dev k.val).handler = false →
    exec (.preemptInterrupt k) s = nextWith s (
      let x := findCore s.dev k.val
      putCore s.dev { x with epc := x.pc, epcP := x.p, handler := true, preemptReq := false,
                             pc := reg s.dev (TEAM (coreQuarter k.val) (coreTeam k.val) + 8) })) ∧
  (∀ (s : State) (k : Fin 256) (v : Word), coreQuarter k.val < s.dev.variant.quarters → coreTeam k.val < s.dev.variant.teams →
    v.getLsbD 0 = true → (findCore s.dev k.val).halted = false → (findCore s.dev k.val).issuing = false → (findCore s.dev k.val).hold = none →
    (findCore s.dev k.val).id = k.val →
    exec (.coreHalt k v) s = nextWith s (putCore (setReg s.dev (MDCi k.val) (v &&& 0xF05))
      { findCore s.dev k.val with halted := true, haltReq := false, stepReq := false })) ∧
  (∀ (s : State) (k : Fin 256) (v : Word), coreQuarter k.val < s.dev.variant.quarters → coreTeam k.val < s.dev.variant.teams →
    v.getLsbD 0 = true → (findCore s.dev k.val).halted = true →
    exec (.coreStep k v) s = nextWith s (putCore (setReg s.dev (MDCi k.val) (v &&& 0xF05)) { findCore s.dev k.val with stepReq := true }))

/-! ### Ring commands of media objects -/

/-- A new handle is of its kind, below the kind's capacity, and no live object has it. CONF_CREATE, PART_CREATE and ENC_CREATE on a
conference, once their checks pass, book their needs in the quarter that admission gives, add the object and its record with the fields of
the descriptor, and answer the handle; a participant or stream takes a record of a unit, a participant a new unit where none is free.
PART_SET, ENC_SET and CRAFT_SET keep the change for the boundary. -/
def Obligations.AudioObjectsAreCreatedAndSet : Prop :=
  (∀ (d : Dev) (k h : Nat), k ∈ [2, 3, 4, 5, 6, 7, 8] → newHandle d k = some h →
    hKind h = k ∧ hIndex h < d.variant.kindCap k ∧ ∀ o ∈ d.obj.objs, o.handle ≠ h) ∧
  (∀ (s : State) (fn : Fin 64) (ring : Fin 32) (c : Cmd), Runs s.dev 0x10 fn ring c → checksPass (confCreateAct s.dev c) = true →
    ∃ q h k, let ns : List Need := [⟨0, dNum c.desc 12 4⟩, ⟨11, 1⟩]
      admission s.dev (if dByte c.desc 11 = 0xFF then none else some (dByte c.desc 11)) 0 ns = .ok q ∧ newHandle s.dev 2 = some h ∧
      exec (.confCreate fn ring) s = nextWith s (
        let d := addObj (book s.dev q ns) { handle := h, fn := c.fn, session := dHandle c.desc, parent := dHandle c.desc, home := q, books := booksOf q ns }
        completes { d with aud := { d.aud with confs := d.aud.confs ++ [k] } } c (leBytes h 4)) ∧
      k = { handle := h, fn := c.fn, handMax := dBits c.desc 8 0 5, handEv := dBits c.desc 8 5 1 == 1, hpf := dByte c.desc 9,
            delay := dByte c.desc 10, home := q }) ∧
  (∀ (s : State) (fn : Fin 64) (ring : Fin 32) (c : Cmd), Runs s.dev 0x11 fn ring c → checksPass (partCreateAct s.dev c) = true →
    ∃ o conf h p, findObj s.dev (dHandle c.desc) = some o ∧ findConf s.dev (dHandle c.desc) = some conf ∧ newHandle s.dev 3 = some h ∧
      exec (.partCreate fn ring) s = nextWith s (
        let ns : List Need := (if p.peer then [] else [⟨0, dNum c.desc 20 4⟩]) ++
          (if s.dev.aud.units.any (RecUnit.hasPart conf.handle) then [] else [⟨5, 1⟩]) ++ [⟨10, 1⟩]
        let d := addObj (book s.dev conf.home ns) { handle := h, fn := c.fn, session := o.session, parent := conf.handle, home := conf.home,
                                                    books := (booksOf conf.home ns).filter fun b => b.b != 5 }
        completes (takePartRecord { d with aud := { d.aud with parts := d.aud.parts ++ [p] } } conf h) c (leBytes h 4)) ∧
      p.handle = h ∧ p.fn = c.fn ∧ p.conf = conf.handle ∧ p.peer = (dBits c.desc 8 0 1 == 1) ∧ p.levelExt = (dBits c.desc 8 1 1 == 1) ∧
      p.always = (dBits c.desc 8 2 1 == 1) ∧ p.mute = (dBits c.desc 8 3 1 == 1) ∧ p.codec = dByte c.desc 9 ∧ p.extId = dByte c.desc 10 ∧
      p.peerMax = dBits c.desc 11 0 5 ∧ p.gain = dNum c.desc 12 2 ∧ p.jbMin = (if dByte c.desc 14 = 0 then 24 else dByte c.desc 14) ∧
      p.jbMax = (if dByte c.desc 15 = 0 then 120 else dByte c.desc 15) ∧ p.group = dNum c.desc 16 4 ∧ p.tag = dNum c.desc 24 4) ∧
  (∀ (s : State) (fn : Fin 64) (ring : Fin 32) (c : Cmd), Runs s.dev 0x38 fn ring c → hKind (dHandle c.desc) ≠ 6 →
    checksPass (encCreateAct s.dev c) = true →
    ∃ o conf h a, findObj s.dev (dHandle c.desc) = some o ∧ findConf s.dev (dHandle c.desc) = some conf ∧ newHandle s.dev 7 = some h ∧
      exec (.encCreate fn ring) s = nextWith s (
        let ns : List Need := [⟨0, dNum c.desc 20 4⟩, ⟨12, 1⟩]
        let d := addObj (book s.dev conf.home ns) { handle := h, fn := c.fn, session := o.session, parent := conf.handle, home := conf.home,
                                                    books := booksOf conf.home ns }
        completes (takeStreamRecord { d with aud := { d.aud with streams := d.aud.streams ++ [a] } } conf.handle h) c (leBytes h 4)) ∧
      a = { handle := h, fn := c.fn, conf := conf.handle, codec := dBits c.desc 8 0 3, frame := dByte c.desc 9,
            lowLat := dByte c.desc 10 == 1, bitrate := dNum c.desc 12 4, gain := dNum c.desc 16 2 }) ∧
  (∀ (s : State) (fn : Fin 64) (ring : Fin 32) (c : Cmd), Runs s.dev 0x12 fn ring c → checksPass (partSetAct s.dev c) = true →
    exec (.partSet fn ring) s = nextWith s (
      let v : PartSet := { mask := dBits c.desc 8 0 5, mute := dBits c.desc 9 0 1 == 1, deaf := dBits c.desc 9 1 1 == 1,
                           pin := dBits c.desc 9 2 1 == 1, bar := dBits c.desc 9 3 1 == 1, gain := dNum c.desc 12 2 }
      let g (p : Part) : Option Nat := if dBits c.desc 8 5 1 == 1 then some (dNum c.desc 16 4) else p.nextGroup
      completes (modPart s.dev (dHandle c.desc) fun p => { p with sets := p.sets ++ [v], nextGroup := g p }) c [])) ∧
  (∀ (s : State) (fn : Fin 64) (ring : Fin 32) (c : Cmd), Runs s.dev 0x39 fn ring c → findEnc s.dev (dHandle c.desc) = none →
    checksPass (encSetAct s.dev c) = true →
    exec (.encSet fn ring) s = nextWith s (completes (modStream s.dev (dHandle c.desc) fun a =>
      { a with nextGain := if dBits c.desc 8 0 1 == 1 then some (dNum c.desc 16 2) else a.nextGain,
               nextRate := if dBits c.desc 8 1 1 == 1 then some (dNum c.desc 12 4) else a.nextRate }) c [])) ∧
  (∀ (s : State) (fn : Fin 64) (ring : Fin 32) (c : Cmd), Runs s.dev 0x13 fn ring c → checksPass (craftSetAct s.dev c) = true →
    exec (.craftSet fn ring) s = nextWith s (
      let g : CraftCfg := { conf := dHandle c.desc, listen := dBits c.desc 8 0 1 == 1, talk := dBits c.desc 8 1 1 == 1,
                            talkGain := dNum c.desc 12 2, listenGain := dNum c.desc 14 2, tag := dNum c.desc 16 4 }
      let n : Option CraftCfg := if dHandle c.desc = 0 then none else some g
      completes (setCraft s.dev { s.dev.aud.craft with next := some n }) c []))

/-- LEG_CREATE that passes its checks adds the leg with the fields of its descriptor and its address block, books one leg and an outbound
video leg's HBM bandwidth, and gives an inbound leg its exact-match entries. LEG_SET keeps the settings for the boundary, hold
at once. FANOUT_ADD makes the leg join the source and asks for a refresh; FANOUT_DEL detaches a leg between pictures at once and
else waits for the end of the picture. KEY_LOAD unwraps the blob and stores a STANDBY slot whose check value it answers; it becomes
ACTIVE at once unless an index is given. A blob that does not unwrap fails with ST_UNWRAP_FAIL and no slot; KEY_RETIRE erases the slot. -/
def Obligations.LegsAndKeysComplete : Prop :=
  (∀ (s : State) (fn : Fin 64) (ring : Fin 32) (addr : List Byte) (c : Cmd), Runs s.dev 0x18 fn ring c →
    checksPass (legCreateAct (.ok addr) s.dev c) = true →
    ∃ o h e l, findObj s.dev (dHandle c.desc) = some o ∧ newHandle s.dev 4 = some h ∧
      exec (.legCreate fn ring (.ok addr)) s = nextWith s (
        let ns : List Need := (if dNum c.desc 36 4 = 0 then [] else [⟨4, dNum c.desc 36 4⟩]) ++ [⟨6, 1⟩]
        let d := addObj (book e 0 ns) { handle := h, fn := c.fn, session := o.session, parent := dHandle c.desc, media := l.media, books := booksOf 0 ns }
        completes { d with fwd := { d.fwd with legs := d.fwd.legs ++ [l] } } c (leBytes h 4)) ∧
      (l.out = true → e = s.dev) ∧
      (l.out = false → ∃ e1, emInsert s.dev 1 (legKey (padTo addr 64) l.ssrc) (mediaAct h) (some h) = some e1 ∧
        (if l.rtcp then emInsert e1 2 (legKey (padTo addr 64) l.ssrc) (mediaAct h) (some h) = some e else e = e1)) ∧
      l.handle = h ∧ l.fn = c.fn ∧ l.part = dHandle c.desc ∧ l.out = (dBits c.desc 8 0 1 == 1) ∧ l.media = dBits c.desc 8 1 2 ∧
      l.mix = (dBits c.desc 8 3 1 == 1) ∧ l.rtcp = (!l.out && dBits c.desc 8 4 1 == 1) ∧ l.vlan = (l.out && dBits c.desc 8 5 1 == 1) ∧ l.pt = dBits c.desc 11 0 7 ∧ l.ssrc = dNum c.desc 12 4 ∧
      l.rtxSsrc = dNum c.desc 16 4 ∧ l.fecSsrc = dNum c.desc 20 4 ∧ l.clock = dByte c.desc 26 ∧ l.fmt = dBits c.desc 27 0 3 ∧
      l.fbLeg = dNum c.desc 28 4 ∧ l.simGroup = dNum c.desc 32 4 ∧ l.addr = padTo addr 64 ∧ l.cfg.port = dByte c.desc 9 ∧ l.cfg.queue = dByte c.desc 10) ∧
  (∀ (s : State) (fn : Fin 64) (ring : Fin 32) (c : Cmd) (l : Leg), Runs s.dev 0x19 fn ring c → checksPass (legSetAct s.dev c) = true →
    findLeg s.dev (dHandle c.desc) = some l →
    ∃ m, exec (.legSet fn ring) s = nextWith s (completes (putLeg s.dev m) c []) ∧ m = { l with want := m.want, cfg := m.cfg } ∧
      m.cfg.hold = (if dBits c.desc 8 6 1 == 1 then dBits c.desc 9 1 1 == 1 else l.cfg.hold) ∧
      m.cfg.bweFixed = l.cfg.bweFixed ∧ m.cfg.fecMode = l.cfg.fecMode ∧ m.cfg.pace = l.cfg.pace ∧ m.cfg.port = l.cfg.port ∧ m.cfg.sCap = l.cfg.sCap ∧
      m.want.minRate = (if dBits c.desc 8 0 1 == 1 then dNum c.desc 12 4 else l.want.minRate) ∧
      m.want.maxRate = (if dBits c.desc 8 0 1 == 1 then dNum c.desc 16 4 else l.want.maxRate) ∧
      m.want.sCap = (if dBits c.desc 8 1 1 == 1 then dBits c.desc 10 0 2 else l.want.sCap) ∧
      m.want.rtxMode = (if dBits c.desc 8 2 1 == 1 then dByte c.desc 26 else l.want.rtxMode) ∧
      m.want.fecMode = (if dBits c.desc 8 3 1 == 1 then dByte c.desc 32 else l.want.fecMode) ∧
      m.want.pace = (if dBits c.desc 8 4 1 == 1 then dByte c.desc 35 else l.want.pace) ∧
      m.want.port = (if dBits c.desc 8 5 1 == 1 then dByte c.desc 36 else l.want.port)) ∧
  (∀ (s : State) (fn : Fin 64) (ring : Fin 32) (c : Cmd) (l : Leg), Runs s.dev 0x1A fn ring c → checksPass (fanoutAddAct s.dev c) = true →
    findLeg s.dev (dHandle c.desc) = some l →
    exec (.fanoutAdd fn ring) s = nextWith s (
      let src := match findLeg s.dev (dNum c.desc 8 4) with | some x => legSource x | none => dNum c.desc 8 4
      completes (requestRefresh (putLeg s.dev { l with join := some (src, l.source.isSome) }) src 1 l.handle) c [])) ∧
  (∀ (s : State) (fn : Fin 64) (ring : Fin 32) (c : Cmd) (l : Leg), Runs s.dev 0x1B fn ring c → checksPass (fanoutDelAct s.dev c) = true →
    findLeg s.dev (dHandle c.desc) = some l →
    exec (.fanoutDel fn ring) s = nextWith s (
      if l.source = none ∨ l.picEnd = true then completes (detach s.dev { l with join := none }) c []
      else goesOn (putLeg s.dev { l with join := none, delCmd := some c.id }) c)) ∧
  (∀ (s : State) (fn : Fin 64) (ring : Fin 32) (bytes : List Byte) (c : Cmd), Runs s.dev 0x20 fn ring c →
    checksPass (keyLoadAct (.ok bytes) s.dev c) = true →
    ∃ h k d mk ms, newHandle s.dev 8 = some h ∧
      exec (.keyLoad fn ring (.ok bytes)) s = nextWith s (completes d c (leBytes h 4 ++ ofNats (keyCheck k))) ∧
      openBlob s.dev c.fn c.n1 (dBits c.desc 8 0 3) (bytes.take (blobLen (dBits c.desc 8 0 3))) = some (mk, ms) ∧
      k.master = BitVec.ofNat 256 (natBe mk) ∧ k.salt = BitVec.ofNat 128 (natBe ms) ∧
      k.handle = h ∧ k.leg = dHandle c.desc ∧ k.profile = dBits c.desc 8 0 3 ∧ k.state = .standby ∧ k.window = dBits c.desc 9 1 2 ∧
      (dBits c.desc 9 0 1 = 1 → d.sec.keys = s.dev.sec.keys ++ [k] ∧ k.fromIndex = dNum c.desc 16 6 ∧ d.evt = s.dev.evt) ∧
      (dBits c.desc 9 0 1 = 0 → ∃ x ∈ d.sec.keys, x.handle = h ∧ x.state = .active)) ∧
  (∀ (s : State) (fn : Fin 64) (ring : Fin 32) (bytes : List Byte) (c : Cmd) (f : Fail), Runs s.dev 0x20 fn ring c →
    keyLoadAct (.ok bytes) s.dev c = .error f → f.st = ST_UNWRAP_FAIL →
    openBlob s.dev c.fn c.n1 (dBits c.desc 8 0 3) (bytes.take (blobLen (dBits c.desc 8 0 3))) = none ∧
    f.evs = [evTo (evUnit secUnit 0x944 1 [(1, c.fn), (4, dHandle c.desc)]) c.fn] ∧
    exec (.keyLoad fn ring (.ok bytes)) s = nextWith s (settle (failCmd s.dev c f)) ∧ (failCmd s.dev c f).sec = s.dev.sec) ∧
  (∀ (s : State) (fn : Fin 64) (ring : Fin 32) (c : Cmd), Runs s.dev 0x21 fn ring c → checksPass (keyRetireAct s.dev c) = true →
    exec (.keyRetire fn ring) s = nextWith s (completes (retireKey s.dev (dHandle c.desc)) c []) ∧
    ∀ k ∈ (retireKey s.dev (dHandle c.desc)).sec.keys, k.handle = dHandle c.desc → k.state = .erasing ∧ k.master = 0 ∧ k.salt = 0)

/-- CTX_CREATE, LAYOUT_CREATE and ENC_CREATE on a layout, once their checks pass, book their needs, take an arena of HBM for their
surfaces and buffers, add the object and its record with the fields of the descriptor, and answer the handle. LAYOUT_SHADOW changes the
shadow set only, by a background colour or by layers, or stores a slate; LAYOUT_COMMIT keeps the new set for the next phase of the
layout, which it answers. CTX_REFRESH flushes where it is told to, asks for a refresh and answers what became of it. ENC_SET keeps
the settings for the stream's next picture. -/
def Obligations.VideoObjectsComplete : Prop :=
  (∀ (s : State) (fn : Fin 64) (ring : Fin 32) (c : Cmd), Runs s.dev 0x28 fn ring c → checksPass (ctxCreateAct s.dev c) = true →
    ∃ o h k, findObj s.dev (dHandle c.desc) = some o ∧ newHandle s.dev 5 = some h ∧
      exec (.ctxCreate fn ring) s = nextWith s (
        let ns : List Need := [⟨1, pixDemand k.maxW k.maxH (dNum c.desc 16 2) (dNum c.desc 18 2)⟩, ⟨4, dNum c.desc 20 4⟩, ⟨7, 1⟩]
        let ext := extentsFor (k.surfaces * k.surfGeo.size + 2 * bitBuffer (dNum c.desc 24 4))
        let d := addObj (takeArena (book s.dev 0 ns) h ext) { handle := h, fn := c.fn, session := o.session, parent := dHandle c.desc, books := booksOf 0 ns }
        completes { d with vid := { d.vid with ctxs := d.vid.ctxs ++ [k] } } c (leBytes h 4 ++ leBytes (ext * 2048) 4)) ∧
      k.handle = h ∧ k.fn = c.fn ∧ k.codec = dBits c.desc 8 0 4 ∧ k.prof = dBits c.desc 8 4 4 ∧ k.deferred = (dBits c.desc 9 0 1 == 1) ∧
      k.pyr = dBits c.desc 9 1 2 ∧ k.waiting = (dBits c.desc 9 3 1 == 1) ∧ k.maxW = dNum c.desc 12 2 ∧ k.maxH = dNum c.desc 14 2 ∧
      k.inLeg = dNum c.desc 32 4 ∧ k.fbLeg = dNum c.desc 36 4 ∧ k.pics = [] ∧ k.record = none ∧
      k.surfaces = (if k.codec ≤ 1 then dByte c.desc 10 else if k.codec = 3 then 3 else 8) + 3) ∧
  (∀ b : Nat, bitBuffer b % 65536 = 0 ∧ 524288 ≤ bitBuffer b ∧ b ≤ 16 * bitBuffer b ∧
    ∀ n, n % 65536 = 0 → 524288 ≤ n → b ≤ 16 * n → bitBuffer b ≤ n) ∧
  (∀ (s : State) (fn : Fin 64) (ring : Fin 32) (c : Cmd) (x : Ctx), Runs s.dev 0x29 fn ring c → checksPass (ctxRefreshAct s.dev c) = true →
    findCtx s.dev (dHandle c.desc) = some x →
    exec (.ctxRefresh fn ring) s = nextWith s (
      let d := if dBits c.desc 8 2 1 = 0 then s.dev else flushCtx s.dev x.handle
      let r := askRefresh d x.handle (if dBits c.desc 8 0 2 = 0 then x.refReq else dBits c.desc 8 0 2) 1
      completes r.1 c [BitVec.ofNat 8 r.2])) ∧
  (∀ (s : State) (fn : Fin 64) (ring : Fin 32) (c : Cmd), Runs s.dev 0x30 fn ring c → checksPass (layoutCreateAct s.dev c) = true →
    ∃ o h l, findObj s.dev (dHandle c.desc) = some o ∧ newHandle s.dev 6 = some h ∧
      exec (.layoutCreate fn ring) s = nextWith s (
        let ns : List Need := (if l.encPix = 0 then [] else [⟨2, l.encPix⟩]) ++ [⟨3, ceilDiv (l.outW * l.outH) l.period⟩, ⟨4, dNum c.desc 16 4⟩, ⟨5, 4⟩, ⟨9, 1⟩]
        let ext := extentsFor (((if l.hbmCopy then 3 else 0) + l.slates) * (outGeo l).size)
        let d := book s.dev l.home ns
        let d := if ext = 0 then d else takeArena d h ext
        let d := addObj d { handle := h, fn := c.fn, session := o.session, parent := o.handle, home := l.home, books := booksOf l.home ns }
        completes { d with vid := { d.vid with layouts := d.vid.layouts ++ [l] } } c
          (resBytes [(4, h), (1, l.comp), (1, l.home), (2, l.phase), (4, ext * 2048)])) ∧
      l.handle = h ∧ l.fn = c.fn ∧ l.period = periodOf (dBits c.desc 8 0 3) ∧ l.tenBit = (dBits c.desc 8 3 1 == 1) ∧ l.outCs = dBits c.desc 8 4 2 ∧
      l.hbmCopy = (dBits c.desc 8 6 1 == 1) ∧ l.slates = dByte c.desc 11 ∧ l.outW = dNum c.desc 12 2 ∧ l.outH = dNum c.desc 14 2 ∧
      l.encPix = dNum c.desc 24 4 ∧ l.active = l.shadow ∧ l.active.bg = dNum c.desc 20 4 ∧
      (dBits c.desc 8 7 1 = 1 → l.phase = dByte c.desc 10)) ∧
  (∀ (s : State) (fn : Fin 64) (ring : Fin 32) (data : HostRead) (c : Cmd), Runs s.dev 0x31 fn ring c → dBits c.desc 8 0 2 = 1 →
    checksPass (layoutShadowAct data s.dev c) = true →
    exec (.layoutShadow fn ring data) s = nextWith s (
      completes (modLayout s.dev (dHandle c.desc) fun l => { l with shadow := { l.shadow with bg := dNum c.desc 12 4 } }) c [])) ∧
  (∀ (s : State) (fn : Fin 64) (ring : Fin 32) (bs : List Byte) (c : Cmd), Runs s.dev 0x31 fn ring c → dBits c.desc 8 0 2 = 0 →
    checksPass (layoutShadowAct (.ok bs) s.dev c) = true →
    exec (.layoutShadow fn ring (.ok bs)) s = nextWith s (
      let n := dBits c.desc 11 0 7
      let ds := (chunks64 n (padTo bs (64 * n))).map parseLayer
      completes (modLayout s.dev (dHandle c.desc) fun l =>
        { l with shadow := { l.shadow with layers := splice l.shadow.layers (dByte c.desc 9) ds } }) c [])) ∧
  (∀ (s : State) (fn : Fin 64) (ring : Fin 32) (bs : List Byte) (c : Cmd) (l : Layout), Runs s.dev 0x31 fn ring c → dBits c.desc 8 0 2 = 2 →
    checksPass (layoutShadowAct (.ok bs) s.dev c) = true → findLayout s.dev (dHandle c.desc) = some l →
    exec (.layoutShadow fn ring (.ok bs)) s = nextWith s (
      let w := dNum c.desc 24 2
      let h := dNum c.desc 26 2
      let d := storeImage s.dev ⟨l.handle, slateOff l (dByte c.desc 9), ⟨w, h, 3, false⟩⟩ (padTo bs (w * h * 3 / 2))
      completes (modLayout d l.handle fun l =>
        { l with slateAt := (dByte c.desc 9, w, h) :: l.slateAt.filter fun x => x.1 != dByte c.desc 9 }) c [])) ∧
  (∀ (s : State) (fn : Fin 64) (ring : Fin 32) (c : Cmd) (l : Layout), Runs s.dev 0x32 fn ring c → checksPass (layoutCommitAct s.dev c) = true →
    findLayout s.dev (dHandle c.desc) = some l →
    ∃ set : LayerSet, exec (.layoutCommit fn ring) s = nextWith s (completes (modLayout s.dev l.handle fun l => { l with pending := some set }) c
        (leBytes (nextPhase s.dev.tim.stride l.period l.phase) 4)) ∧
      set.bg = (if dBits c.desc 8 0 1 == 1 then l.shadow.bg else (l.pending.getD l.active).bg) ∧
      ∀ i, i < 64 → nth set.layers i {} =
        (if (if i = 63 then dBits c.desc 8 1 1 == 1 else dBits c.desc 8 0 1 == 1) then withMatrix l.outCs (nth l.shadow.layers i {})
         else nth (l.pending.getD l.active).layers i {})) ∧
  (∀ (now period phase : Nat), phase < period → now < nextPhase now period phase ∧ nextPhase now period phase ≤ now + period ∧
    nextPhase now period phase % period = phase) ∧
  (∀ (s : State) (fn : Fin 64) (ring : Fin 32) (c : Cmd) (l : Layout), Runs s.dev 0x38 fn ring c → hKind (dHandle c.desc) = 6 →
    checksPass (encCreateAct s.dev c) = true → findLayout s.dev (dHandle c.desc) = some l →
    ∃ h e d, newHandle s.dev 7 = some h ∧
      exec (.encCreate fn ring) s = nextWith s (completes d c (resBytes [(4, h), (1, e.pipe), (1, e.home), (2, e.phase),
        (4, extentsFor (encArena e.codec e.outW e.outH e.sLayers e.tenBit) * 2048)])) ∧
      d.vid.encs = s.dev.vid.encs ++ [e] ∧ e.handle = h ∧ e.fn = c.fn ∧ e.layout = l.handle ∧ e.codec = dBits c.desc 8 0 2 ∧ e.prof = dBits c.desc 8 2 2 ∧
      e.surface = (dBits c.desc 8 4 1 == 1) ∧ e.sLayers = dBits c.desc 9 0 2 ∧ e.tLayers = dBits c.desc 9 2 2 ∧
      e.mtu = (if dNum c.desc 28 2 = 0 then 1200 else dNum c.desc 28 2) ∧ e.outW = l.outW ∧ e.outH = l.outH ∧ e.tenBit = l.tenBit ∧
      e.cfg.rates = [dNum c.desc 12 4, dNum c.desc 16 4, dNum c.desc 20 4] ∧ e.cfg.qpMin = dByte c.desc 24 ∧
      (e.surface = false → e.home = l.home ∧ e.period = l.period ∧ e.phase = l.phase)) ∧
  (∀ (s : State) (fn : Fin 64) (ring : Fin 32) (c : Cmd) (e : EncS), Runs s.dev 0x39 fn ring c → findEnc s.dev (dHandle c.desc) = some e →
    checksPass (encSetAct s.dev c) = true →
    ∃ k : EncCfg, exec (.encSet fn ring) s = nextWith s (completes (modEnc s.dev e.handle fun e =>
        { e with next := some k,
                 waveReq := if dBits c.desc 8 1 1 == 1 && dBits c.desc 9 0 1 == 1 then some (e.waveReq.getD 1) else e.waveReq }) c []) ∧
      k.rates = (if dBits c.desc 8 0 1 == 1 then [dNum c.desc 12 4, dNum c.desc 16 4, dNum c.desc 20 4] else (e.next.getD e.cfg).rates) ∧
      k.qpMin = (if dBits c.desc 8 3 1 == 1 then dByte c.desc 24 else (e.next.getD e.cfg).qpMin))

/-- KERNEL_LOAD that passes its checks writes the image at its offset into the team memory of every named team and answers its CRC.
RULE_WRITE writes programs and ACL records into the shadow bank, and inserts or deletes exact-match entries. RULE_SWAP of the
next epoch moves the live epoch at once while the packet engine is stopped, else holds packets until no packet of the old
epoch is left; SWAP_DRAIN_DONE within PKE_SWAP_LIMIT then moves the epoch, after it or with packets left at it SWAP_TIMEOUT abandons
the swap and fails the command. TX_FRAME
takes cells for its frame and hands it to the Bridle. -/
def Obligations.KernelsRulesAndFramesComplete : Prop :=
  (∀ (s : State) (fn : Fin 64) (ring : Fin 32) (bs : List Byte) (c : Cmd), Runs s.dev 0x48 fn ring c →
    checksPass (kernelLoadAct (.ok bs) s.dev c) = true →
    exec (.kernelLoad fn ring (.ok bs)) s = nextWith s (
      let b := padTo bs (dNum c.desc 16 4)
      completes ((kernelTeams c.desc).foldl (fun d p => padWrite d p.1 ((24 + p.2) * bankSize + dNum c.desc 20 4) b) s.dev) c (leBytes (crc32 b) 4))) ∧
  (∀ (s : State) (fn : Fin 64) (ring : Fin 32) (bs : List Byte) (c : Cmd), Runs s.dev 0x50 fn ring c →
    checksPass (ruleWriteAct (.ok bs) s.dev c) = true →
    (let rs := recordsOf (ruleSize (dBits c.desc 8 0 2)) (dNum c.desc 20 4) bs
     let b := shadowBank s.dev
     (dBits c.desc 8 0 2 = 0 → exec (.ruleWrite fn ring (.ok bs)) s = nextWith s (
       let p := upd s.dev.pke.prog b (putProg (nth s.dev.pke.prog b []) (dNum c.desc 16 4) rs)
       completes { s.dev with pke := { s.dev.pke with prog := p } } c [])) ∧
     (dBits c.desc 8 0 2 = 1 → exec (.ruleWrite fn ring (.ok bs)) s = nextWith s (
       let p := upd s.dev.pke.acl b (putAclFrom (nth s.dev.pke.acl b []) (dNum c.desc 16 4) rs)
       completes { s.dev with pke := { s.dev.pke with acl := p } } c [])) ∧
     (dBits c.desc 8 0 2 = 2 → (emInsertAll s.dev rs).2 = 0 →
       exec (.ruleWrite fn ring (.ok bs)) s = nextWith s (completes (emInsertAll s.dev rs).1 c (leBytes 0 4))) ∧
     (dBits c.desc 8 0 2 = 3 →
       exec (.ruleWrite fn ring (.ok bs)) s = nextWith s (completes (emDeleteAll s.dev rs).1 c (leBytes (emDeleteAll s.dev rs).2 4))))) ∧
  (∀ (s : State) (fn : Fin 64) (ring : Fin 32) (c : Cmd), Runs s.dev 0x51 fn ring c → checksPass (ruleSwapAct s.dev c) = true →
    exec (.ruleSwap fn ring) s = nextWith s (
      if uState s.dev ⟨7, 0xFF, 0⟩ = 0 then completes (goEpoch s.dev 0) c (swapResult (nextEpoch s.dev) 0)
      else
        let d := putB s.dev PKE 9 true
        goesOn { d with pke := { d.pke with swap := some ⟨c.id, nextEpoch s.dev, s.dev.tim.clock⟩ } } c)) ∧
  (∀ (d : Dev) (ns : Nat), spWf d.regs = true → liveEpoch (goEpoch d ns) = (liveEpoch d + 1) % 65536 ∧ (goEpoch d ns).pke.swap = none ∧
    getF (goEpoch d ns) (PKE + 8) 16 16 = (liveEpoch d + 1) % 65536 % 2) ∧
  (∀ (s : State) (ns : Nat) (w : Swap), s.dev.pke.swap = some w → drained s.dev = true → halted s.dev = false → ns ≤ swapLimit s.dev →
    timely s.dev (w.since + ns) = true →
    exec (.swapDrainDone ns) s = nextWith s (complete (goEpoch (advance s.dev (w.since + ns)) ns) w.cmd ST_OK (swapResult w.epoch ns))) ∧
  (∀ (s : State) (ns : Nat), swapLimit s.dev < ns → exec (.swapDrainDone ns) s = .next s) ∧
  (∀ (s : State) (w : Swap), s.dev.pke.swap = some w → (drained s.dev = false ∨ w.since + swapLimit s.dev < s.dev.tim.clock) →
    halted s.dev = false → timely s.dev (max s.dev.tim.clock (w.since + swapLimit s.dev)) = true →
    exec .swapTimeout s = nextWith s (
      let d := advance s.dev (max s.dev.tim.clock (w.since + swapLimit s.dev))
      let d := { putB d PKE 9 false with pke := { d.pke with swap := none } }
      complete (raise d (evUnit ⟨7, 0xFF, 0⟩ 0x901 1 [(2, liveEpoch d), (4, d.pke.threads.length + d.pke.recirc.length)]))
        w.cmd ST_TIMEOUT [])) ∧
  (∀ (s : State) (w : Swap), s.dev.pke.swap = some w → drained s.dev = true → s.dev.tim.clock ≤ w.since + swapLimit s.dev →
    exec .swapTimeout s = .next s) ∧
  (∀ (s : State) (fn : Fin 64) (ring : Fin 32) (bs : List Byte) (c : Cmd), Runs s.dev 0x58 fn ring c →
    checksPass (txFrameAct (.ok bs) s.dev c) = true →
    exec (.txFrame fn ring (.ok bs)) s = nextWith s (
      let n := dNum c.desc 12 2
      let f : TxFrame :=
        { id := 0, port := dBits c.desc 8 0 3, queue := dBits c.desc 9 0 4, bytes := padTo bs n, cells := cellsFor n, cmd := some c.id,
          tsId := if dBits c.desc 10 0 1 == 1 then some (dNum c.desc 14 2) else none }
      if cellsFor n ≤ poolFree s.dev then goesOn (enterBridle (takeCells s.dev (cellsFor n)) f) c
      else s.dev))

/-! ### Backplane ports -/

/-- The line check of a RUNNING port in CHECK ends with DOWN where no group of usable lanes is left, else with the type and lanes
it found, and goes on to AN, TRAIN or ALIGN. Clause 73 resolves the highest type that both sides advertise and the group can carry, or
parallel detection a signal without FEC, and finds nothing where there is none; training done leads to ALIGN, the training timer
to DOWN with one event at the third failure in a row, alignment to UP with EV_MAC_LINK_UP, a lost lane in use from UP to CHECK, the end of the
retry interval from DOWN to CHECK; alignment of a multi-lane type keeps the deskew that it measured. A lane fault of a lane in use takes the
link down and excludes the lane, the second lane of a PAIR_SHORT too; three passing rechecks in a row
clear it. A role write that would pass 800 Gb/s of active ports only sets bw_reject; a failover swaps the roles of a port whose link
has left UP with its standby partner where that fits, else is refused; both raise EV_MAC_FAILOVER. The model's choices: the
priority order of Clause 73 and its FEC (log entry 200), sig_det (197), and the type that a port in DOWN shows (198). -/
def Obligations.LinksAndRolesComplete : Prop :=
  (∀ (s : State) (p : Fin 8) (found : List LaneFound), portIn s.dev p 1 = true →
    exec (.lineCheck p found) s = nextWith s (endCheck (found.foldl (fun d f => lineFault d p f) s.dev) p)) ∧
  (∀ (d : Dev) (p : Nat), p < 8 → spWf d.regs = true →
    (chooseGroup d p = none → link (endCheck d p) p = 0 ∧ (getPort (endCheck d p) p).group = []) ∧
    (∀ t g, chooseGroup d p = some (t, g) → typeNow (endCheck d p) p = t % 16 ∧
      (link (endCheck d p) p = 2 ∨ link (endCheck d p) p = 3 ∨ link (endCheck d p) p = 4))) ∧
  (∀ (s : State) (p : Fin 8) (x : AnPartner), portIn s.dev p 2 = true →
    (∀ t f, anFinds s.dev p x = some (t, f) → exec (.anResolve p x) s = nextWith s (
      let d := putPort s.dev p { getPort s.dev p with group := (getPort s.dev p).group.take (typeLanes t) }
      afterType (fitRole (setTypeNow d p t f) p) p)) ∧
    (anFinds s.dev p x = none → exec (.anResolve p x) s = .next s)) ∧
  (∀ (d : Dev) (p t f : Nat) (x : AnPartner), anFinds d p x = some (t, f) →
    advertises d p t = true ∧ typeLanes t ≤ (getPort d p).group.length ∧ (x.parallel ≠ none → f = 0) ∧
    (x.parallel = none → t ∈ x.types ∧ ∀ u ∈ x.types, advertises d p u = true → typeLanes u ≤ (getPort d p).group.length →
      anOrder.idxOf t ≤ anOrder.idxOf u)) ∧
  (∀ (s : State) (p : Fin 8) (taps : List Word) (inv : List Bool), portIn s.dev p 3 = true →
    exec (.trainingDone p taps inv) s = nextWith s (
      let d := (groupLanes s.dev p).foldl (fun d e =>
        polarity (setReg (putB d (SDS e.2) 19 true) (SDS e.2 + 8) (nth taps e.1 0 &&& 0xFFFFFF)) p e.2 (nth inv e.1 false)) s.dev
      setLink d p 4)) ∧
  (∀ (s : State) (p : Fin 8), portIn s.dev p 3 = true →
    exec (.trainTimeout p) s = nextWith s (
      let x := getPort s.dev p
      let d := setLink (putPort s.dev p { x with fails := x.fails + 1, failRaised := x.failRaised || decide (3 ≤ x.fails + 1) }) p 0
      if 3 ≤ x.fails + 1 ∧ x.failRaised = false then raise d (evUnit (portUnit p) 0xA04 2 [(1, p), (1, 3)]) else d)) ∧
  (∀ (s : State) (p : Fin 8) (order : List Nat) (inv : List Bool) (skew : Nat), portIn s.dev p 4 = true → order.length = (getPort s.dev p).group.length →
    (∀ i, i < (getPort s.dev p).group.length → i ∈ order) → (order.length ≤ 1 ∨ order ≠ (List.range order.length).reverse) →
    ∃ d, exec (.linkUp p order inv skew) s = nextWith s (
      let e := setLink (putPort d p { getPort d p with fails := 0, failRaised := false,
                                                       deskew := if 1 < (getPort s.dev p).group.length then skew else 0 }) p 5
      let e := raise e (evUnit (portUnit p) 0xA00 0 [(1, p), (1, typeNow e p), (1, fecNow e p), (1, getF e (MACP p) 24 8)])
      if isDegraded e p then raise e (evUnit (portUnit p) 0xA02 1 [(1, p), (1, cfgType e p), (1, typeNow e p)]) else e) ∧
      d = (groupLanes s.dev p).foldl (fun d e =>
        polarity (putB (setF d (SDS e.2) 20 3 (nth order e.1 0)) (SDS e.2) 18 true) p e.2 (nth inv e.1 false)) s.dev) ∧
  (∀ (s : State) (p : Fin 8) (l : Fin 16), portIn s.dev p 5 = true → l.val ∈ (getPort s.dev p).group →
    exec (.linkDown p l) s = nextWith s (
      raise (cnt (setLink (leaveUp s.dev p) p 1) (MACP p + 0x70) 1) (evUnit (portUnit p) 0xA01 1 [(1, p), (1, 5), (1, l)]))) ∧
  (∀ (s : State) (p : Fin 8), portIn s.dev p 0 = true → exec (.linkRetry p) s = nextWith s (setLink s.dev p 1)) ∧
  (∀ (d : Dev) (p n : Nat), p < 8 → n < 8 → spWf d.regs = true → link (setLink d p n) p = n ∧ getB (setLink d p n) (MACP p) 11 = (n == 5)) ∧
  (∀ (s : State) (l : Fin 16) (p code : Nat) (second : Fin 16), portOfLane s.dev l = some p → uState s.dev (laneUnit l) = 2 →
    laneExcluded s.dev l = false → faultPossible s.dev p l code = true → halted s.dev = false → l.val ∉ (getPort s.dev p).group →
    exec (.laneFault l code second) s = nextWith s (faultLane s.dev l code second)) ∧
  (∀ (s : State) (l : Fin 16) (p code : Nat) (second : Fin 16), portOfLane s.dev l = some p → uState s.dev (laneUnit l) = 2 →
    laneExcluded s.dev l = false → faultPossible s.dev p l code = true → halted s.dev = false → link s.dev p = 5 → l.val ∈ (getPort s.dev p).group →
    exec (.laneFault l code second) s = nextWith s (faultLane (loseLink s.dev p l) l code second)) ∧
  (∀ (d : Dev) (l second p : Nat), second ≠ l → portOfLane (markLane d l 4) second = some p → second ∈ (getPort (markLane d l 4) p).group →
    linkUp (markLane d l 4) p = true →
    faultLane d l 4 second = raise (markLane (loseLink (markLane d l 4) p second) second 4)
      (evUnit (laneUnit l) 0xA10 2 [(1, l), (1, 4), (1, second)])) ∧
  (∀ (s : State) (l : Fin 16) (pass : Bool), laneExcluded s.dev l = true → getF s.dev (SDS l) 12 4 ≠ 0 → l.val ∉ s.dev.mac.stopped →
    halted s.dev = false → (pass = false ∨ nth s.dev.mac.passes l 0 < 2) →
    exec (.laneRecheck l pass) s = nextWith s (
      let n := if pass then nth s.dev.mac.passes l 0 + 1 else 0
      { s.dev with mac := { s.dev.mac with passes := upd s.dev.mac.passes l n } })) ∧
  (∀ (s : State) (l : Fin 16), laneExcluded s.dev l = true → getF s.dev (SDS l) 12 4 ≠ 0 → l.val ∉ s.dev.mac.stopped →
    halted s.dev = false → 2 ≤ nth s.dev.mac.passes l 0 →
    exec (.laneRecheck l true) s = nextWith s (
      let d := { s.dev with mac := { s.dev.mac with passes := upd s.dev.mac.passes l 0 } }
      let d := raise (putB (setF d (SDS l) 12 4 0) (SDS l) 16 false) (evUnit (laneUnit l) 0xA11 0 [(1, l)])
      match portOfLane d l with
      | some p =>
        if linkUp d p = true ∧ getB d (MACP p + 4) 14 = true ∧ l.val ∉ (getPort d p).group then putPort d p { getPort d p with retrain := true } else d
      | none => d)) ∧
  (∀ (s : State) (p : Fin 8) (v : Word), exec (.roleWrite p v) s = nextWith s (writeRole s.dev p v) ∧
    (bit v 0 = true → portStarted s.dev p = true → 800 < activeSum s.dev p + portRate s.dev p → writeRole s.dev p v = putB s.dev (MACP p) 10 true) ∧
    (bit v 0 = false → writeRole s.dev p v = showRole (setReg s.dev (MACP p + 0xC) (v &&& 0x171)) p)) ∧
  (∀ (s : State) (p : Fin 8) (n : Nat), (getPort s.dev p).failPend = some n → n < s.dev.tim.stride → halted s.dev = false →
    isActive s.dev p = true → getB s.dev (MACP p + 0xC) 8 = true → linkUp s.dev p = false →
    exec (.failover p) s = nextWith s (
      let d := putPort s.dev p { getPort s.dev p with failPend := none }
      let r := partner d p
      if r ≠ p ∧ portStarted d r = true ∧ isActive d r = false ∧ linkUp d r = true ∧ activeSum d p + portRate d r ≤ 800 then
        let d := flushPort (setRole (setRole d p false) r true) p
        let d := putBrd d p { getBrd d p with movedTo := some r }
        let d := putBrd d r { getBrd d r with movedTo := none }
        raise d (evUnit (portUnit p) 0xA03 1 [(1, p), (1, r), (1, 0)])
      else raise d (evUnit (portUnit p) 0xA03 1 [(1, p), (1, r), (1, 1)])))

/-- A started port with its link UP takes a frame: a standby port, or one in STANDBY or HALT-SAFE, only counts it; a short frame and one
whose FCS is not the CRC of its bytes are counted and dropped; a frame for which the cells of a longest frame are not free is counted as dropped;
else its bytes without the FCS become a packet that is ready for the packet engine, its cells from the port's reserve first. A PAUSE
or PFC frame loads its timers where the configuration takes it and clears them with zero quanta, and a timer that ends clears
its bit. The MAC sends the oldest frame that the Bridle has handed over, padded, with its FCS, unless the link is paused; the port is busy
to its end on the wire, and the TX_FRAME that waits for it completes with what was sent. The model's reading: the capture lies eight
bytes into the wire time (log entry 199). -/
def Obligations.FramesAtAPort : Prop :=
  (∀ (s : State) (p : Fin 8) (bytes : List Byte) (capture : Nat) (fifo : Option Nat), receives s.dev p = true →
    (rxBlind s.dev p = true → exec (.frameReceive p bytes capture fifo) s = nextWith s (cnt s.dev (MACP p + 0x40) 1)) ∧
    (rxBlind s.dev p = false → bytes.length < 64 → exec (.frameReceive p bytes capture fifo) s = nextWith s (cnt s.dev (MACP p + 0x44) 1)) ∧
    (rxBlind s.dev p = false → 64 ≤ bytes.length → fcsGood bytes = false →
      exec (.frameReceive p bytes capture fifo) s = nextWith s (cnt s.dev (MACP p + 0x48) 1)) ∧
    (rxBlind s.dev p = false → 64 ≤ bytes.length → fcsGood bytes = true → beNat (slice bytes 12 2) ≠ 0x8808 →
      portFree s.dev p + poolFree s.dev < cellsFor (maxFrame s.dev p - 4) →
      exec (.frameReceive p bytes capture fifo) s = nextWith s (cnt s.dev (MACP p + 0x50) 1)) ∧
    (rxBlind s.dev p = false → 64 ≤ bytes.length → fcsGood bytes = true → beNat (slice bytes 12 2) ≠ 0x8808 → bytes.length ≤ maxFrame s.dev p →
      cellsFor (maxFrame s.dev p - 4) ≤ portFree s.dev p + poolFree s.dev → fifo = none →
      ∃ (d : Dev) (k : Pkt), exec (.frameReceive p bytes capture fifo) s = nextWith s (cnt d (MACP p + 0x40) 1) ∧
        d = { s.dev with ldg := d.ldg, pke := d.pke } ∧ d.pke.ready = s.dev.pke.ready ++ [k] ∧ k.port = p ∧
        k.bytes = bytes.take (bytes.length - 4) ∧ k.oversize = false ∧ k.cells = cellsFor (bytes.length - 4) ∧
        k.fromReserve = min k.cells (portFree s.dev p) ∧ d.pke.poolUsed = s.dev.pke.poolUsed + (k.cells - k.fromReserve))) ∧
  (∀ (s : State) (p : Fin 8) (t : Nat) (pfc : Bool) (en : BitVec 8) (quanta : List Nat), receives s.dev p = true → timely s.dev t = true →
    exec (.pauseFrame p t pfc en quanta) s = nextWith s (
      let d := advance s.dev t
      if rxBlind d p then cnt d (MACP p + 0x40) 1 else loadPause (cnt d (MACP p + 0x58) 1) p (1000 * t) pfc en.toNat quanta)) ∧
  (∀ (d : Dev) (p t n : Nat), getB d (MACP p + 0x14) 0 = true → getB d (MACP p + 0x14) 1 = false → n < 65536 →
    loadPause d p t false 0 [n] = putB (putPort d p { getPort d p with pauseEnd := if n = 0 then 0 else t + quantaPs d p n }) (MACP p + 0x18) 8 (n != 0)) ∧
  (∀ (s : State) (p : Fin 8) (t : Nat), timely s.dev t = true → halted s.dev = false →
    (linkPaused s.dev p (1000 * t) = false → exec (.pauseExpiry p t none) s = nextWith s (putB (advance s.dev t) (MACP p + 0x18) 8 false)) ∧
    ∀ i : Fin 8, prioPaused s.dev p i (1000 * t) = false →
      exec (.pauseExpiry p t (some i)) s = nextWith s (putB (advance s.dev t) (MACP p + 0x18) i false)) ∧
  (∀ (s : State) (p : Fin 8) (capture : Nat) (f : TxFrame) (fs : List TxFrame), (getPort s.dev p).txq = f :: fs → halted s.dev = false →
    linkPaused s.dev p (capture * 1000 / 65536) = false →
    exec (.macTransmit p capture) s = nextWith s (
      let d := putPort s.dev p { getPort s.dev p with txq := fs }
      if linkUp d p = false then endFrame d p f 1
      else if isActive d p = false then dropFrame d p f
      else if maxFrame d p < sentLen f then dropFrame (cnt d (MACP p + 0x60) 1) p f
      else
        let d := emitOut (cnt d (MACP p + 0x5C) 1) (.frame p (wireBytes f))
        let b := getBrd d p
        let d := putBrd d p { b with busyUntil := max b.busyUntil (capture * 1000 / 65536 + wireTime d p (wireLen f - 8)) }
        let d := freeCells d 0 f.cells 0
        let d := match f.tsId with | some i => pushTxTs d p ⟨i, true, txStamp d p capture⟩ | none => d
        match f.cmd with | some c => complete d c ST_OK (resBytes [(2, sentLen f), (1, 0)]) | none => d)) ∧
  (∀ (f : TxFrame), (wireBytes f).length = sentLen f ∧ (wireBytes f).take f.bytes.length = f.bytes ∧
    64 ≤ sentLen f ∧ f.bytes.length + 4 ≤ sentLen f)

/-! ### The packet engine and the SRTP engines -/

/-- A free thread takes the recirculation queue's oldest record first, else the oldest new packet unless a swap holds it. Each parse
instruction of a thread that issues it does what its table row says to the thread and to nothing else: LD, ALU, BR, ADV, NODE,
KEYW, KEYP, LENCHK, META; VERD ends the lap with its verdict. An access outside the parse window or the packet, a length that
does not fit and an undefined sub field end the lap with their verdicts. A lookup that returns from HBM ends with the entry that
the table holds, or as a miss where both copies failed, on the way or in their own bytes of TABLE; groom firmware takes the slow
path's oldest packet, one of class 7 for the PTP servo. -/
def Obligations.ParseInstructionsComplete : Prop :=
  (∀ (s : State) (th : Fin 256) (k : Pkt) (ks : List Pkt), pkeWorks s.dev = true → (∀ t ∈ s.dev.pke.threads, t.th ≠ th.val) → s.dev.pke.recirc = k :: ks →
    exec (.parseDispatch th) s = nextWith s (
      let d := { s.dev with pke := { s.dev.pke with recirc := ks } }
      startLap (cnt d (PKE + 0x118) 1) th k k.entry)) ∧
  (∀ (s : State) (th : Fin 256) (k : Pkt) (ks : List Pkt), pkeWorks s.dev = true → uState s.dev ⟨7, 0xFF, 0⟩ = 2 →
    (∀ t ∈ s.dev.pke.threads, t.th ≠ th.val) → s.dev.pke.recirc = [] → s.dev.pke.ready = k :: ks → s.dev.pke.swap = none → k.oversize = false →
    exec (.parseDispatch th) s = nextWith s (
      let d := { s.dev with pke := { s.dev.pke with ready := ks } }
      startLap d th { k with epoch := liveEpoch s.dev } 0)) ∧
  (∀ (s : State) (th : Fin 256) (t : Thread) (w : Nat), Parses s.dev th 1 t w → iSub w = 0 →
    (let first := t.cursor + iOff w / 8
     let len := (iOff w % 8 + (iWid w + 1) + 7) / 8
     (accessBad t first len = none → exec (.parseLd th) s = nextWith s (
       let v := wd (bitsOf (slice t.pkt.bytes (lapBase t + first) len) (iOff w % 8) (iWid w + 1))
       putThread s.dev { stepped t with w := upd t.w (iWd w) v })) ∧
     ∀ v, accessBad t first len = some v → exec (.parseLd th) s = nextWith s (endLap s.dev (stepped t) v t.pc))) ∧
  (∀ (s : State) (th : Fin 256) (t : Thread) (w : Nat) (v : Word), Parses s.dev th 2 t w →
    (let a := nth t.w (iWa w) 0
     let b := opB t w
     (iSub w = 0 ∧ v = a + b) ∨ (iSub w = 1 ∧ v = a - b) ∨ (iSub w = 2 ∧ v = a &&& b) ∨ (iSub w = 3 ∧ v = a ||| b) ∨
     (iSub w = 4 ∧ v = a ^^^ b) ∨ (iSub w = 5 ∧ b.toNat < 32 ∧ v = a <<< b.toNat) ∨ (iSub w = 6 ∧ b.toNat < 32 ∧ v = a >>> b.toNat)) →
    exec (.parseAlu th) s = nextWith s (putThread s.dev { stepped t with w := upd t.w (iWd w) v })) ∧
  (∀ (s : State) (th : Fin 256) (t : Thread) (w : Nat), Parses s.dev th 2 t w → (iSub w = 5 ∨ iSub w = 6) → 32 ≤ (opB t w).toNat →
    exec (.parseAlu th) s = nextWith s (
      let r := drawFree s.dev 32
      putThread r.2 { stepped t with w := upd t.w (iWd w) r.1 })) ∧
  (∀ (s : State) (th : Fin 256) (t : Thread) (w : Nat), Parses s.dev th 3 t w → iSub w ≤ 4 →
    exec (.parseBr th) s = nextWith s (
      let a := (nth t.w (iWa w) 0).toNat
      let b := (opB t w).toNat
      let taken := (iSub w = 0 ∧ a = b) ∨ (iSub w = 1 ∧ a ≠ b) ∨ (iSub w = 2 ∧ a < b) ∨ (iSub w = 3 ∧ b ≤ a) ∨ iSub w = 4
      putThread s.dev (if taken then { stepped t with pc := iTgt w } else stepped t))) ∧
  (∀ (s : State) (th : Fin 256) (t : Thread) (w : Nat), Parses s.dev th 4 t w → iSub w ≤ 3 →
    exec (.parseAdv th) s = nextWith s (
      let k := if iSub w = 0 then 0 else if iSub w = 1 then 1 else if iSub w = 2 then 4 else 8
      let c := t.cursor + iImm w + k * (nth t.w (iWa w) 0).toNat
      if c ≤ 256 then putThread s.dev { stepped t with cursor := c } else endLap s.dev (stepped t) 1 t.pc)) ∧
  (∀ (s : State) (th : Fin 256) (t : Thread) (w : Nat), Parses s.dev th 5 t w → iSub w = 0 →
    exec (.parseNode th) s = nextWith s (
      if t.nodes = 12 then endLap s.dev (stepped t) 1 t.pc else putThread s.dev { stepped t with nodes := t.nodes + 1 })) ∧
  (∀ (s : State) (th : Fin 256) (t : Thread) (w : Nat), Parses s.dev th 6 t w → iSub w ≤ 3 → iImm w % 64 + iSub w + 1 ≤ 40 →
    exec (.parseKeyw th) s = nextWith s (
      let bs := beBytes (nth t.w (iWa w) 0).toNat (iSub w + 1)
      putThread s.dev { stepped t with key := splice t.key (iImm w % 64) bs })) ∧
  (∀ (s : State) (th : Fin 256) (t : Thread) (w : Nat), Parses s.dev th 7 t w → iOff w % 8 = 0 → iImm w % 64 + iSub w + 1 ≤ 40 →
    accessBad t (t.cursor + iOff w / 8) (iSub w + 1) = none →
    exec (.parseKeyp th) s = nextWith s (
      let bs := slice t.pkt.bytes (lapBase t + (t.cursor + iOff w / 8)) (iSub w + 1)
      putThread s.dev { stepped t with key := splice t.key (iImm w % 64) bs })) ∧
  (∀ (s : State) (th : Fin 256) (t : Thread) (w : Nat), Parses s.dev th 8 t w → iSub w ≤ 1 →
    exec (.parseLenchk th) s = nextWith s (
      let n := (nth t.w (iWa w) 0).toNat
      let c := lapBase t + t.cursor
      let e := if iSub w = 0 then c + n else c + 40 + n
      let b := t.ipEnd.getD t.pkt.bytes.length
      if (iSub w = 1 ∨ 4 * ((nth t.pkt.bytes c 0).toNat % 16) ≤ n) ∧ e ≤ b ∧ (e = b ∨ (t.ipEnd = none ∧ t.pkt.bytes.length = 60)) then
        putThread s.dev { stepped t with ipEnd := some e }
      else endLap s.dev (stepped t) 2 t.pc)) ∧
  (∀ (s : State) (th : Fin 256) (t : Thread) (w : Nat), Parses s.dev th 8 t w → iSub w = 2 →
    exec (.parseLenchk th) s = nextWith s (
      let n := (nth t.w (iWa w) 0).toNat
      let c := lapBase t + t.cursor
      let fits : Bool := match t.ipEnd with | some e => c + n == e | none => decide (c + n ≤ t.pkt.bytes.length)
      if 8 ≤ n ∧ fits = true then putThread s.dev (stepped t)
      else endLap s.dev (stepped t) 2 t.pc)) ∧
  (∀ (s : State) (th : Fin 256) (t : Thread) (w : Nat), Parses s.dev th 9 t w →
    (iSub w = 0 → exec (.parseMeta th) s = nextWith s (putThread s.dev { stepped t with profile := iImm w % 16 })) ∧
    (iSub w = 1 → exec (.parseMeta th) s = nextWith s (
      if lapBase t + t.cursor + iImm w ≤ 255 then putThread s.dev { stepped t with lap2 := lapBase t + t.cursor + iImm w }
      else endLap s.dev (stepped t) 1 t.pc)) ∧
    (iSub w = 2 → exec (.parseMeta th) s = nextWith s (
      if lapBase t + t.cursor ≤ 255 then putThread s.dev { stepped t with l4 := lapBase t + t.cursor } else endLap s.dev (stepped t) 1 t.pc))) ∧
  (∀ (s : State) (th : Fin 256) (t : Thread) (w : Nat), Parses s.dev th 10 t w → iSub w = 0 → iImm w % 16 ≤ 8 →
    exec (.parseVerd th) s = nextWith s (endLap s.dev (stepped t) (iImm w % 16) t.pc)) ∧
  (∀ (s : State) (th : Fin 256) (t : Thread) (w : Nat), Parses s.dev th 10 t w → (iSub w ≠ 0 ∨ 8 < iImm w % 16) →
    exec (.parseVerd th) s = nextWith s (endLap s.dev (stepped t) 8 t.pc)) ∧
  (∀ (s : State) (th : Fin 256) (t : Thread) (ueA ueB : Bool), s.dev.pke.threads.find? (fun x => x.th == th.val) = some t → t.waiting = true →
    pkeWorks s.dev = true →
    exec (.emLookupReturn th ueA ueB) s = nextWith s (
      let d := { s.dev with pke := { s.dev.pke with threads := s.dev.pke.threads.filter fun x => x.th != th.val } }
      if (ueA || emBad d 0 t.profile t.key) = true ∧ (ueB || emBad d 1 t.profile t.key) = true then
        lookupDone (raise d (evUnit ⟨7, 0xFF, 0⟩ 0x906 2 [(4, emBucket d.variant 0 t.profile t.key), (1, 2)])) t.pkt t.key none
      else lookupDone d t.pkt t.key (emFind d t.profile t.key))) ∧
  (∀ (s : State) (k : Pkt) (ks : List Pkt), s.dev.pke.slow = k :: ks → (∃ q, q < 4 ∧ groomUp s.dev q = true) →
    exec .slowPathService s = nextWith s (
      let d := if k.cls = 7 then { s.dev with tim := { s.dev.tim with ptp := s.dev.tim.ptp ++ [⟨k.port, k.bytes, k.rxTime⟩] } } else s.dev
      freePkt { d with pke := { d.pke with slow := ks } } k)) ∧
  (∀ (t : Thread) (off n : Nat), accessBad t off n =
    if 256 < off + n then some 1 else if t.pkt.bytes.length < lapBase t + off + n then some 3 else none)

/-- An insert puts a key into its bucket or changes its action in place, and the table and its cache then find it; a delete removes it. A packet that
no earlier result of its port holds back goes where its action says: to the slow path within its class's rate, to the SRTP engines
with the action's leg and tag, or away with its cells freed. An ACL entry is chosen by lowest index among those that match. -/
def Obligations.LookupsAndActions : Prop :=
  (∀ (d e : Dev) (p : Nat) (key : List Byte) (a : BitVec 128) (leg : Option Nat), emInsert d p key a leg = some e →
    (p, key) ∈ e.pke.cache ∧ ∃ r, emFind e p key = some r ∧ r.action = a ∧ r.leg = leg ∧ ∀ q k, (q, k) ≠ (p, key) → emFind e q k = emFind d q k) ∧
  (∀ (d : Dev) (p : Nat) (key : List Byte), emFind (emDelete d p key) p key = none ∧
    ∀ q k, (q, k) ≠ (p, key) → emFind (emDelete d p key) q k = emFind d q k) ∧
  (∀ (d : Dev) (k : Pkt) (a : BitVec 128), actKind a = 2 →
    deliverPkt d k a = { d with sec := { d.sec with inq := d.sec.inq ++ [{ k with target := actTarget a, tag := actTag a }] } }) ∧
  (∀ (d : Dev) (k : Pkt) (a : BitVec 128), actKind a = 0 → deliverPkt d k a = freePkt d k) ∧
  (∀ (d : Dev) (k : Pkt) (a : BitVec 128), actKind a = 1 → nth d.pke.slowCnt (actClass a) 0 < nth d.pke.slowRate (actClass a) 0 →
    d.pke.slow.length < 8192 → (deliverPkt d k a).pke.slow = d.pke.slow ++ [{ k with cls := actClass a }] ∧
      (deliverPkt d k a).pke.slowCnt = upd d.pke.slowCnt (actClass a) (nth d.pke.slowCnt (actClass a) 0 + 1)) ∧
  (∀ (d : Dev) (bank : Nat) (key : List Byte) (r : AclRow), aclFind d bank key = some r → ternary key r.value r.mask = true ∧
    ((nth d.pke.acl bank []).Pairwise (fun x y => x.idx < y.idx) →
      ∀ x ∈ nth d.pke.acl bank [], ternary key x.value x.mask = true → r.idx ≤ x.idx))

/-- An inbound packet of a leg that passes the checks of its slot, in their order, and whose tag agrees marks its index as seen, switches
slots where that is due and goes on decrypted; a packet whose tag does not agree, or that meets a faulty engine, is dropped as a
failed authentication, one seen before as a replay, one of no live inbound leg or of a leg without a slot as keyless. An SRTCP packet that fails
authentication with the ACTIVE slot is checked once with the leg's other slot, each time with the index read under that slot's
layout. An index that has been marked is a replay from then on. An outbound packet of groom firmware's is protected with its leg's ACTIVE slot
and handed to the Bridle. A self-test runs while the engines are STOPPED and ends with its results; a write that differs from run
while they are not sets cfg_reject; a key generation is what was written. The model's choice: an engine's fault is an operand of
the packet that meets it (log entry 201). -/
def Obligations.SrtpEnginesComplete : Prop :=
  (∀ (s : State) (r : LayerRead) (fault : Bool) (k : Pkt) (ks : List Pkt) (l : Leg) (h index : Nat) (x : Key), s.dev.sec.inq = k :: ks →
    running s.dev secUnit = true → findLeg s.dev k.target = some l → l.out = false → (udpPayload k).length ≤ 9216 → k.profile ≠ 2 →
    rtpHeader (udpPayload k) = some h → index = estimateIndex (getCrypto s.dev l.handle 0) (rtpSeq (udpPayload k)) →
    inSlot s.dev l.handle index = some x →
    (let c := getCrypto s.dev l.handle 0
     let b := udpPayload k
     let n := tagLen x.profile false
     let d : Dev := { s.dev with sec := { s.dev.sec with inq := ks, faulty := fault } }
     (b.length < h + n → exec (.srtpInbound r fault) s = nextWith s (dropIn d k 6 l.fn l.handle x.handle)) ∧
     (h + n ≤ b.length → replayed c.started c.high c.bitmap (windowSize x.window) index = true →
       exec (.srtpInbound r fault) s = nextWith s (dropIn d k 1 l.fn l.handle x.handle)) ∧
     (h + n ≤ b.length → replayed c.started c.high c.bitmap (windowSize x.window) index = false → index < 2 ^ 48 → invSpent x = false →
       exec (.srtpInbound r fault) s = nextWith s (
         let ct := slice b h (b.length - h - n)
         let d := useKey d x.handle
           (if fault = false ∧ srtpTag x (rtpSsrc b) index (b.take h) ct = b.drop (b.length - n) then index else 0) (2 ^ 48)
         if fault = false ∧ srtpTag x (rtpSsrc b) index (b.take h) ct = b.drop (b.length - n) then
           let v := seen c.started c.high c.bitmap index
           let d := putCrypto d { c with started := true, roc := v.1 / 65536, high := v.1, bitmap := v.2 }
           let d := authSwitch (cnt d (SEC + 0x60) 1) l.handle index x
           deliverMedia d l k (b.take h ++ cipher x false (rtpSsrc b) index ct) r
         else dropIn d k 0 l.fn l.handle x.handle)))) ∧
  (∀ (s : State) (r : LayerRead) (fault : Bool) (k : Pkt) (ks : List Pkt), s.dev.sec.inq = k :: ks → running s.dev secUnit = true →
    (findLeg s.dev k.target = none ∨ ∃ l, findLeg s.dev k.target = some l ∧ l.out = true) →
    exec (.srtpInbound r fault) s = nextWith s (
      let d := { s.dev with sec := { s.dev.sec with inq := ks, faulty := fault } }
      dropIn d k 2 0 k.target 0)) ∧
  (∀ (s : State) (r : LayerRead) (fault : Bool) (k : Pkt) (ks : List Pkt) (l : Leg) (a : Key), s.dev.sec.inq = k :: ks →
    running s.dev secUnit = true → findLeg s.dev k.target = some l → l.out = false → k.profile = 2 →
    keyIn s.dev l.handle .active = some a → a.rtcp = true → (udpPayload k).length ≤ 9216 + indexWord a.profile →
    (let b := udpPayload k
     let d : Dev := { s.dev with sec := { s.dev.sec with inq := ks, faulty := fault } }
     let e := (checkRtcp d l a b).1
     let other (e : Dev) := (legKeys e l.handle).find? fun x => (x.state == .standby || x.state == .draining) && x.rtcp
     (∀ v, (checkRtcp d l a b).2 = .ok v → exec (.srtpInbound r fault) s = nextWith s (acceptRtcp e l k v.1 v.2)) ∧
     (∀ n, n ≠ 0 → (checkRtcp d l a b).2 = .error n → exec (.srtpInbound r fault) s = nextWith s (dropIn e k n l.fn l.handle a.handle)) ∧
     ((checkRtcp d l a b).2 = .error 0 → other e = none →
       exec (.srtpInbound r fault) s = nextWith s (dropIn e k 0 l.fn l.handle a.handle)) ∧
     ∀ x, (checkRtcp d l a b).2 = .error 0 → other e = some x →
       (∀ v, (checkRtcp e l x b).2 = .ok v → exec (.srtpInbound r fault) s = nextWith s (acceptRtcp (checkRtcp e l x b).1 l k v.1 v.2)) ∧
       (∀ n, (checkRtcp e l x b).2 = .error n → exec (.srtpInbound r fault) s = nextWith s
         (dropIn (checkRtcp e l x b).1 k n l.fn l.handle (if n = 0 then a.handle else x.handle))))) ∧
  (∀ (d : Dev) (l : Leg) (x : Key) (b : List Nat), 12 + tagLen x.profile true ≤ b.length →
    (let c := getCrypto d l.handle 0
     let i := rtcpIndex x.profile b
     let dup := replayed c.rtcpStarted c.rtcpHigh c.rtcpBitmap (windowSize x.window) i
     (dup = true → checkRtcp d l x b = (d, .error 1)) ∧
     (∀ p, dup = false → invSpent x = false → d.sec.faulty = false → openRtcp x b = some p →
       checkRtcp d l x b = (useKey d x.handle i (2 ^ 31), .ok (i, p))) ∧
     (dup = false → invSpent x = false → (d.sec.faulty = true ∨ openRtcp x b = none) →
       checkRtcp d l x b = (useKey d x.handle 0 (2 ^ 31), .error 0)))) ∧
  (∀ (started : Bool) (high : Nat) (bitmap : BitVec 1024) (window index : Nat), window ≤ 1024 →
    replayed true (seen started high bitmap index).1 (seen started high bitmap index).2 window index = true) ∧
  (∀ (s : State) (fault : Bool) (q : OutRtcp) (qs : List OutRtcp) (l : Leg), s.dev.sec.outq = q :: qs → running s.dev secUnit = true → findLeg s.dev q.leg = some l →
    exec (.srtpOutbound fault) s = nextWith s (
      let d := { s.dev with sec := { s.dev.sec with outq := qs, faulty := fault } }
      let r := protectRtcp d l (toNats q.bytes)
      match r.2 with
      | none => r.1
      | some b => withCredit s.dev (handOff r.1 l b none))) ∧
  (∀ (s : State) (v : Word), exec (.secSelftest v) s =
    (if bit v 0 = getB s.dev (SEC + 4) 0 then .next s
     else if uState s.dev secUnit ≠ 0 then nextWith s (putB s.dev SEC 8 true)
     else if bit v 0 = false then .next s
     else nextWith s (putB (putB (putB s.dev (SEC + 4) 0 true) (SEC + 4) 1 false) (SEC + 4) 2 false))) ∧
  (∀ (s : State) (f0 f1 : Word), spWf s.dev.regs = true → getB s.dev (SEC + 4) 0 = true →
    ∃ d, exec (.selftestDone f0 f1) s = nextWith s d ∧ reg d (SEC + 8) = f0 ∧ reg d (SEC + 0xC) = f1 ∧ getB d (SEC + 4) 0 = false ∧
      getB d (SEC + 4) 1 = true ∧ getB d (SEC + 4) 2 = (f0 == 0 && f1 == 0)) ∧
  (∀ (s : State) (f : Fin 64) (v : Word), spWf s.dev.regs = true →
    ∃ d, exec (.kekGenWrite f v) s = nextWith s d ∧ getF d (SEC + 0x100 + 4 * f) 0 16 = v.toNat % 65536 ∧ d = { s.dev with regs := d.regs })

/-- The oldest packet of a source goes, with the forwarding stage and the engines running, over the legs of its list in turn, each in
its place, until one has no credit for its copy, where it waits with the rest of its list; past the last it leaves the queue. A Generic NACK is
answered number by number from the leg's store, one that names no leg of the participant counts its numbers as unknown, and any
other RTCP packet sends a refresh request for a PLI or FIR and takes over firmware's estimates. A leg's sequence number goes up by one for
every packet that passes, and its packet count with it for each that the engines protect. -/
def Obligations.ForwardingCompletes : Prop :=
  (∀ (s : State) (p : SPkt) (ps : List SPkt), s.dev.fwd.inq = p :: ps → running s.dev fwdUnit = true → running s.dev secUnit = true →
    exec .forwardPacket s = nextWith s (
      let r := serveLegs p (destsOf s.dev p) s.dev
      if r.2 = [] then dropSource { r.1 with fwd := { r.1.fwd with inq := ps } } p
      else { r.1 with fwd := { r.1.fwd with inq := { p with dests := some r.2 } :: ps } })) ∧
  (∀ (k : SPkt) (hs : List Nat) (d : Dev), ∃ n, (serveLegs k hs d).2 = hs.drop n ∧ (serveLegs k hs d).1 = (hs.take n).foldl (forwardTo k) d ∧
    ∀ h rest, (serveLegs k hs d).2 = h :: rest → creditHeld (forwardTo k (serveLegs k hs d).1 h) = false) ∧
  (∀ (d : Dev) (l : Leg) (k : SPkt) (rest : Nat), (sendOn d l k rest).2.seq = (l.seq + 1) % 65536 ∧
    (sendOn d l k rest).2.handle = l.handle ∧ (sendOn d l k rest).2.sent = true ∧
    ((sendOn d l k rest).2.packets = (l.packets + 1) % 2 ^ 32 ∨
      ((sendOn d l k rest).2.packets = l.packets ∧ (sendOn d l k rest).2.octets = l.octets)) ∧
    (keyIn d l.handle .active = none → keyIn d l.handle .standby = none → (sendOn d l k rest).2.packets = l.packets)) ∧
  (∀ (l : Leg) (fmt : Nat) (b : List Nat), l.ssrc < 2 ^ 32 → l.seq < 65536 →
    rtpSeq (rewrite l fmt b).2 = l.seq ∧ rtpSsrc (rewrite l fmt b).2 = l.ssrc ∧ rtpTs (rewrite l fmt b).2 = (rtpTs b + l.off) % 2 ^ 32) ∧
  (∀ (s : State) (leg id : Nat) (bytes : List Byte) (rest : List (Nat × Nat × List Byte)), s.dev.fwd.rtcp = (leg, id, bytes) :: rest →
    running s.dev fwdUnit = true → running s.dev secUnit = true → isNack (toNats bytes) = true →
    exec .nack s = nextWith s (
      let b := toNats bytes
      let ns := nackNumbers (wordsOf (b.drop 12))
      let d := cnt (popRtcp s.dev id rest) (FWD + 0x4C) ns.length
      let part := ((findLeg s.dev leg).map Leg.part).getD 0
      match legOfSsrc d part (natBe (slice b 8 4)) with
      | none => cnt d (FWD + 0x80 + 4 * 6) ns.length
      | some l => withCredit s.dev (ns.foldl (serveNumber l.handle) d))) ∧
  (∀ (d : Dev) (h n : Nat) (l : Leg), findLeg d h = some l →
    (l.cfg.rtxMode = 0 → serveNumber h d n = rtxMiss d l 5) ∧
    (∀ r, l.cfg.rtxMode ≠ 0 → rtxFind d l n = .error r → serveNumber h d n = rtxMiss d l r) ∧
    (∀ e, l.cfg.rtxMode ≠ 0 → rtxFind d l n = .ok e → l.cfg.rtxMax ≤ e.resends → serveNumber h d n = rtxMiss d l 3) ∧
    (∀ e, l.cfg.rtxMode ≠ 0 → rtxFind d l n = .ok e → e.resends < l.cfg.rtxMax → e.lastResend = none → serveNumber h d n = resend d l e)) ∧
  (∀ (s : State) (fb : Feedback) (leg id : Nat) (bytes : List Byte) (rest : List (Nat × Nat × List Byte)), s.dev.fwd.rtcp = (leg, id, bytes) :: rest →
    isNack (toNats bytes) = false →
    exec (.rtcpReceive fb) s = nextWith s (
      let b := toNats bytes
      let part := ((findLeg s.dev leg).map Leg.part).getD 0
      let d := popRtcp s.dev id rest
      let fmt := nth b 0 0 % 32
      let asked : Option (Nat × Nat) := (legOfSsrc d part (natBe (slice b (if fmt = 4 then 12 else 8) 4))).bind fun l => l.source.map fun x => (x, l.handle)
      let d := if nth b 1 0 = 206 ∧ (fmt = 1 ∨ fmt = 4) then
          match asked with
          | some (src, h) => requestRefresh d src (if fmt = 4 then 2 else 1) h
          | none => d
        else d
      let mine (h : Nat) : Bool := (findLeg d h).any fun l => l.out && l.part == part
      let d := fb.estimates.foldl (fun d x => if mine x.1 then modLeg d x.1 fun l => { l with bwe := x.2 } else d) d
      fb.reports.foldl (fun d h => senderReport d h) d)) ∧
  (∀ (d : Dev) (l : Leg) (src : Nat), (targetOf d l src = (0, 0)) ∨
    ∃ c, (targetOf d l src, c) ∈ choices d src ∧ c ≤ allowance l ∧ (targetOf d l src).1 ≤ l.cfg.sCap ∧ (targetOf d l src).2 ≤ l.cfg.tCap) ∧
  (∀ (d : Dev) (l : Leg) (src : Nat) (x : Nat × Nat) (c : Nat), (x, c) ∈ choices d src → c ≤ allowance l → x.1 ≤ l.cfg.sCap → x.2 ≤ l.cfg.tCap →
    ranksBelow (targetOf d l src) x = false)

/-! ### Audio and the craft port -/

/-- A jitter card in service puts its packet into its participant's jitter buffer, unless the packet's playout stride has passed, and
lets go of the packet. The end of a stride's mixing releases the encode cards that wait in the quarter and keeps the longest time. A
cascade packet that is malformed or late is freed; any other is kept with its members, and one that completes a payload whose check
disagrees with this device's pot is counted and reported. A listener's mix of a pot is the sum of the contributions of everybody
else; fades and the limiter keep the samples within 24 bits. The library moves a playout delay only toward its goal, which
lies within the participant's limits. -/
def Obligations.AudioStepsComplete : Prop :=
  (∀ (s : State) (slot part k : Nat) (c : Card) (m : MPkt), findCard s.dev slot = some c → c.work = .jitter part k → c.state = .inService → c.done = false →
    c.preempted = false → halted s.dev = false → findMPkt s.dev k = some m →
    exec (.jitterCard slot) s = nextWith s (
      let d := modPart s.dev part (jitterPacket s.dev.tim.stride (m.pkt.bytes.map BitVec.toNat))
      putCard (releaseMPkt d k) { c with done := true })) ∧
  (∀ (now : Nat) (b : List Nat) (p : Part),
    (let ts := beNat ((slice b 4 4).map (BitVec.ofNat 8))
     let base := p.jbBase.getD (ts, now)
     let due : Int := base.2 + sdiff (wd ts) (wd base.1) * 1200 / (audioClock p.codec : Nat)
     let play := due + p.delay
     let q := jitterPacket now b p
     (play < now → q.jb = p.jb) ∧
     ((now : Int) ≤ play → q.jb = p.jb ++ [(play.toNat, (b.drop (payloadAt b)).map (BitVec.ofNat 8))]) ∧
     q.lastPkt = some now ∧ q.lambda = 127 - q.vLevel ∧ (p.levelExt = false → q.vLevel = p.vLevel) ∧
     (∀ v, p.levelExt = true → packetLevel p.extId b = some v → q.vLevel = v) ∧ (now, (now : Int) - due) ∈ q.late)) ∧
  (∀ (now : Nat) (p : Part), p.jbMin ≤ p.jbMax → p.jbMin ≤ delayGoal now p ∧ delayGoal now p ≤ p.jbMax) ∧
  (∀ (env : BoundaryEnv) (k : SelCfg) (p : Part), min p.delay (delayGoal k.now p) ≤ (libraryStep env k p).delay ∧
    (libraryStep env k p).delay ≤ max p.delay (delayGoal k.now p) ∧ (k.floor * 256 ≤ p.level → (libraryStep env k p).delay = p.delay)) ∧
  (∀ (s : State) (q : Fin 4) (us : Nat), (s.dev.aud.waiting.filter fun x => x.1 == q.val) ≠ [] → halted s.dev = false →
    exec (.audioMixDone q us) s = nextWith s (
      let d := { s.dev with aud := { s.dev.aud with waiting := s.dev.aud.waiting.filter fun x => x.1 != q.val } }
      (s.dev.aud.waiting.filter fun x => x.1 == q.val).foldl (fun d x => match findCard d x.2 with
        | some c => if c.state = .waiting ∧ c.counter ≠ 0 then runTasks (putCard d { c with counter := 0 }) [.release c.slot] else d
        | none => d) (maxReg d (AUD q + 0x218) (min us 65535)))) ∧
  (∀ (s : State) (part k : Nat) (p : Part) (c : Conf) (m : MPkt), s.dev.aud.cascq.find? (fun x => x.1 == part) = some (part, k) →
    findPart s.dev part = some p → findConf s.dev p.conf = some c → findMPkt s.dev k = some m →
    (let y := m.pkt.bytes.drop (payloadAt (m.pkt.bytes.map BitVec.toNat))
     let count := (nth y 1 0).toNat % 16
     let block := beNat (slice y 4 4)
     let check := beNat (slice y 8 4)
     let late : Prop := (c.delay : Int) + 1 ≤ sdiff (strideW s.dev) (wd block)
     let d : Dev := { s.dev with aud := { s.dev.aud with cascq := s.dev.aud.cascq.filter fun x => x != (part, k) } }
     let q : CascPkt := { part := part, block := block, index := (nth y 2 0).toNat, last := (nth y 1 0).toNat.testBit 7,
                          members := readMembers count (y.drop 16), held := k }
     ((nth y 0 0 ≠ 1 ∨ 8 < count ∨ y.length < 16 + 124 * count ∨ late) → exec (.cascadePayload part) s = nextWith s (releaseMPkt d k)) ∧
     (nth y 0 0 = 1 → count ≤ 8 → 16 + 124 * count ≤ y.length → ¬late →
       exec (.cascadePayload part) s = nextWith s (
         let d := { d with aud := { d.aud with casc := d.aud.casc ++ [q] } }
         let mine := (c.crcs.find? fun x => x.1 % 2 ^ 32 == check).map Prod.snd
         let differs : Bool := mine.any fun x => x != beNat (slice y 12 4)
         if payloadDone (payloadOf d part block) = true ∧ differs = true then
           raise (cnt d (AUD c.home + 0x214) 1) (evTo (evUnit (audUnit c.home) 0x403 2 [(4, c.handle), (4, p.handle), (4, check)]) c.fn)
         else d)))) ∧
  (∀ (cs : List Contrib) (h : Nat) (x : Nat × List Int), (cs.map Prod.fst).Nodup → (∀ c ∈ cs, c.2.2.length = 40) → (h, x) ∈ cs →
    subBlock (sumBlocks (cs.map fun c => c.2.2)) (own h cs) = sumBlocks ((cs.filter fun c => c.1 != h).map fun c => c.2.2)) ∧
  (∀ (low : Bool) (g t rel : Nat) (ys : List Int), (limRun low g t rel ys).1.length = ys.length ∧
    ∀ y ∈ (limRun low g t rel ys).1, -(2 ^ 23 : Int) ≤ y ∧ y < 2 ^ 23) ∧
  (∀ (thr : Nat) (ys : List Int), ∀ y ∈ ys, y.natAbs * limTarget thr ys ≤ thr * 32768) ∧
  (∀ (cs : List Int), cs.length = 40 → (∀ c ∈ cs, -(2 ^ 23 : Int) ≤ c ∧ c < 2 ^ 23) →
    (fadeIn cs)[39]? = cs[39]? ∧ (fadeOut cs)[39]? = some 0 ∧ ∀ y ∈ fadeIn cs ++ fadeOut cs, -(2 ^ 23 : Int) ≤ y ∧ y < 2 ^ 23)

/-- The craft port, where the variant has one and it runs: the jack closes, 24 strides later an accessory is inserted and detection runs
or the forced one is taken, a finished detection classifies it, an opened jack removes it. Three readings in a button's window press it, three idle
ones release it, 960 strides make it long; each raises EV_CRAFT_BUTTON. A short of an output or of the bias and an open microphone
latch a fault beside those present and raise EV_CRAFT_FAULT, a retry every 1,200 strides switches the output on unless the short is still
there, and a fault that has been absent for three strides clears. The status shows the latest fault present. -/
def Obligations.CraftPortCompletes : Prop :=
  (∀ (s : State), s.dev.variant.craft = true → s.dev.aud.craft.jack = none →
    exec .jackInsert s = nextWith s (setCraft s.dev { s.dev.aud.craft with jack := some s.dev.tim.stride })) ∧
  (∀ (s : State) (n : Nat), s.dev.aud.craft.jack = some n → craftUp s.dev = true → craftInserted s.dev = false → n + 24 ≤ s.dev.tim.stride →
    exec .debounceEnd s = nextWith s (
      let d := putB s.dev CFT 9 true
      if getB d (CFT + 4) 1 then setCraft d { d.aud.craft with detecting := true }
      else insertAs d (if 1 ≤ getF d (CFT + 4) 2 3 ∧ getF d (CFT + 4) 2 3 ≤ 4 then getF d (CFT + 4) 2 3 else 1))) ∧
  (∀ (s : State) (m : Detect), craftUp s.dev = true → craftInserted s.dev = true → s.dev.aud.craft.detecting = true →
    exec (.detectionDone m) s = nextWith s (
      let l := nth m.loads 0 0
      let r := nth m.loads 1 0
      insertAs (setReg s.dev (CFT + 0xC) (wd (min l 65535 + 65536 * min r 65535)))
        (accessoryOf (!s.dev.aud.craft.faults.isEmpty) l r (nth m.volts 0 0) (nth m.volts 1 0)))) ∧
  (∀ (s : State) (n : Nat), s.dev.aud.craft.jack = some n →
    exec .jackRemove s = nextWith s (
      let d := setF (setF (putB s.dev CFT 9 false) CFT 12 3 0) CFT 16 3 0
      let d := setCraft d { s.dev.aud.craft with jack := none, detecting := false, win := 0, winRun := 0, pressed := none, quiet := 0,
                                                  offL := none, offR := none }
      if craftInserted s.dev then raise d (evCraft 0x411 0 []) else d)) ∧
  (∀ (s : State) (b : Nat), craftUp s.dev = true → headset s.dev = true → s.dev.aud.craft.pressed = none → s.dev.aud.craft.win = b →
    1 ≤ b → b ≤ 4 → 3 ≤ s.dev.aud.craft.winRun →
    exec .buttonPress s = nextWith s (
      let d := setCraft s.dev { s.dev.aud.craft with pressed := some b, held := s.dev.aud.craft.winRun, long := false }
      raise (cnt (setF d CFT 16 3 b) (CFT + 0x10) 1) (evCraft 0x412 0 [(1, b), (1, 0)]))) ∧
  (∀ (s : State) (b : Nat), craftUp s.dev = true → s.dev.aud.craft.pressed = some b → s.dev.aud.craft.win = 5 → 3 ≤ s.dev.aud.craft.winRun →
    exec .buttonRelease s = nextWith s (
      let d := setCraft s.dev { s.dev.aud.craft with pressed := none, held := 0, long := false }
      raise (setF d CFT 16 3 0) (evCraft 0x412 0 [(1, b), (1, 1)]))) ∧
  (∀ (s : State) (b : Nat), craftUp s.dev = true → s.dev.aud.craft.pressed = some b → s.dev.aud.craft.long = false → 960 ≤ s.dev.aud.craft.held →
    exec .buttonLong s = nextWith s (
      raise (setCraft s.dev { s.dev.aud.craft with long := true }) (evCraft 0x412 0 [(1, b), (1, 2)]))) ∧
  (∀ (s : State), craftUp s.dev = true → craftInserted s.dev = true →
    (s.dev.aud.craft.offL = none → exec (.outputShort true) s = nextWith s
      (craftSetFault (setCraft s.dev { s.dev.aud.craft with offL := some s.dev.tim.stride }) 2)) ∧
    (s.dev.aud.craft.offR = none → exec (.outputShort false) s = nextWith s
      (craftSetFault (setCraft s.dev { s.dev.aud.craft with offR := some s.dev.tim.stride }) 3))) ∧
  (∀ (s : State) (n : Nat) (still : Bool), craftUp s.dev = true → n + 1200 ≤ s.dev.tim.stride →
    (s.dev.aud.craft.offL = some n → exec (.faultRetry true still) s = nextWith s
      (setCraft s.dev { s.dev.aud.craft with offL := if still then some s.dev.tim.stride else none })) ∧
    (s.dev.aud.craft.offR = some n → exec (.faultRetry false still) s = nextWith s
      (setCraft s.dev { s.dev.aud.craft with offR := if still then some s.dev.tim.stride else none }))) ∧
  (∀ (s : State) (n : Nat) (still : Bool), s.dev.aud.craft.offL = some n → s.dev.tim.stride < n + 1200 →
    exec (.faultRetry true still) s = .next s) ∧
  (∀ (s : State), craftUp s.dev = true → s.dev.aud.craft.pressed = some 1 → 12000 ≤ s.dev.aud.craft.held → hasFault s.dev 1 = false →
    exec .biasShort s = nextWith s (craftSetFault s.dev 1)) ∧
  (∀ (s : State), craftUp s.dev = true → headset s.dev = true → s.dev.aud.craft.win = 6 → 24 ≤ s.dev.aud.craft.winRun → hasFault s.dev 4 = false →
    exec .micOpen s = nextWith s (craftSetFault s.dev 4)) ∧
  (∀ (s : State), craftUp s.dev = true → (∃ f ∈ s.dev.aud.craft.faults, 3 ≤ f.2) →
    exec .faultClear s = nextWith s (
      let d := showFaults (setCraft s.dev { s.dev.aud.craft with faults := s.dev.aud.craft.faults.filter fun f => !decide (3 ≤ f.2) })
      if craftInserted d then detectAccessory d else d)) ∧
  (∀ (d : Dev) (code : Nat), code < 8 → spWf d.regs = true → ∃ e : Dev, craftSetFault d code = raise e (evCraft 0x413 2 [(1, code), (2, getF e (CFT + 8) 0 12)]) ∧
    getF e CFT 20 3 = code ∧ getB e CFT 23 = true ∧ getF e (CFT + 8) 0 12 = getF d (CFT + 8) 0 12 ∧
    e.aud.craft.faults = (code, 0) :: d.aud.craft.faults.filter fun f => f.1 != code) ∧
  (∀ d : Dev, spWf d.regs = true → (∀ f ∈ d.aud.craft.faults, f.1 < 8) →
    getF (showFaults d) CFT 20 3 = ((d.aud.craft.faults.head?.map Prod.fst).getD 0) ∧ ∀ a, a ≠ CFT → reg (showFaults d) a = reg d a)

/-! ### Video -/

/-- A ready picture of a context that can be decoded joins the context's pictures with its number and gets its cards. A segment or rebuild
card at work on its pipe waits for the rows and borders that it needs, and for a surface, writes its own CTUs' samples and is done; a parse card
marks where the data ends; from a CTU that reaches its limit on, the rest of the card is concealed. A surface that a picture takes is shown by no
record, held by no frame and no reference. A finish card publishes or orders concealment, a conceal card conceals what is left and
counts it. The picture limit abandons a picture two strides after its first deal, once, and cancels its cards that have not
started. A refresh request that waited goes out once its interval has passed. -/
def Obligations.VideoDecodeCompletes : Prop :=
  (∀ (s : State) (h : Nat) (v : PicIn) (x : Ctx) (g : Gathered), findCtx s.dev h = some x → gather x = some g →
    (g.complete = true ∨ g.lastAt + x.reasm + 1 ≤ s.dev.tim.stride) → x.released = false → halted s.dev = false →
    fwUsed s.dev + 10 ≤ s.dev.variant.fwSlots → x.bufUsed + (g.pkts.map CtxPkt.bytes).sum ≤ x.bufBytes → v.unparseable = false →
    v.w ≤ x.maxW → v.h ≤ x.maxH → v.w ≤ 4096 → v.h ≤ 2304 → v.unsupported = none → (2 ≤ x.codec ∨ v.keeps.length ≤ x.dpb) →
    (x.waiting = false ∨ v.rap = true) →
    ∃ (d : Dev) (p : Pic), exec (.pictureReady h v) s = nextWith s (
      let d := modCtx d h fun x => { x with pics := x.pics ++ [p], nextPic := x.nextPic + 1, waiting := false,
                                            bufUsed := x.bufUsed + (g.pkts.map CtxPkt.bytes).sum }
      skipBacklog (buildPicture d x p v) h) ∧
      p.id = x.nextPic ∧ p.rtpTs = g.ts ∧ p.ready = s.dev.tim.stride ∧ p.w = v.w ∧ p.h = v.h ∧ p.isRef = v.isRef ∧ p.rap = v.rap ∧
      p.uses = v.uses ∧ p.keeps = v.keeps ∧ p.done = false ∧
      ((seqDiff g.last g.first + 1).toNat = g.pkts.length → v.bad = 0 → v.missing = false → (∀ i ∈ v.uses, i ∈ x.pics.map Pic.id) →
        d = takePkts s.dev h g ∧ p.damaged = false)) ∧
  (∀ (s : State) (slot h id i k : Nat) (r : CodedOut) (c : Card) (u : UnitId) (x : Ctx) (p : Pic), findCard s.dev slot = some c →
    onPipe s.dev c = some u → findCtx s.dev h = some x → findPic x id = some p → (c.work = .segment h id i ∨ c.work = .rebuild h id i k) →
    (let i := match c.work with | .segment _ _ _ => Instr.segmentCard slot r | _ => Instr.rebuildCard slot r
     (waveOk s.dev p c.work = false ∨ withSurf s.dev h id = none → exec i s = .next s) ∧
     ∀ (e : Dev) (f : Surf), waveOk s.dev p c.work = true → withSurf s.dev h id = some (e, f) → exec i s = nextWith s (
       let own := cardCtus p c.work
       let gone := concealedCtus e x p own r false
       putCard (codedEffects (codedTiles e p f own gone r.tiles) u x p c.work r gone) { c with done := true }))) ∧
  (∀ (s : State) (slot h id : Nat) (r : CodedOut) (c : Card) (u : UnitId) (x : Ctx) (p : Pic), findCard s.dev slot = some c →
    onPipe s.dev c = some u → c.work = .parse h id → findCtx s.dev h = some x → findPic x id = some p →
    exec (.parseCard slot r) s = nextWith s (
      let short := (concealedCtus s.dev x p (cardCtus p c.work) { r with missing := [] } false).head?
      putCard (modPic (codedEffects s.dev u x p c.work r []) h id fun p => { p with stopAt := short, damaged := p.damaged || short.isSome })
        { c with done := true })) ∧
  (∀ (p : Pic) (h id i k c : Nat), k ≠ 0 →
    (c ∈ cardCtus p (.rebuild h id i k) ↔ c < ctuCols p * ctuRows p ∧ c / ctuCols p % k = i)) ∧
  (∀ (d : Dev) (x : Ctx) (p : Pic) (own : List Nat) (r : CodedOut) (c : Nat),
    (c ∈ own.dropWhile (fun y => y != r.ctu) → c ∈ concealedCtus d x p own r true) ∧
    (c ∈ own → c ∈ r.missing → c ∈ concealedCtus d x p own r false) ∧ (c ∈ concealedCtus d x p own r true → c ∈ own)) ∧
  (∀ (s : State) (slot h id : Nat) (c : Card), findCard s.dev slot = some c → c.work = .finish h id → c.state = .inService → c.done = false →
    halted s.dev = false → exec (.finishCard slot) s = nextWith s (putCard (finishPicture s.dev h id) { c with done := true })) ∧
  (∀ (s : State) (e : Dev) (slot h id : Nat) (r : CodedOut) (c : Card) (u : UnitId) (x : Ctx) (p : Pic) (f : Surf), findCard s.dev slot = some c →
    onPipe s.dev c = some u → c.work = .conceal h id → findCtx s.dev h = some x → findPic x id = some p → withSurf s.dev h id = some (e, f) →
    exec (.concealCard slot r) s = nextWith s (
      let n := ((List.range (f.geo.tiles 0)).filter fun t => tileAbsent e f 0 t).length
      let d := writePyramid (concealAbsent e (concealSource e h id) f) f
      let d := cnt (codedEffects d u x p c.work { r with err := 0 } []) (VDC u.quarter u.index + 0x28) n
      putCard (modPic d h id fun p => { p with concealBlk := p.concealBlk + n }) { c with done := true })) ∧
  (∀ (s : State) (slot cycles h id : Nat) (r : CodedOut) (c : Card) (u : UnitId) (x : Ctx) (p : Pic), findCard s.dev slot = some c →
    ((∃ i, c.work = .segment h id i) ∨ c.work = .parse h id ∨ ∃ i k, c.work = .rebuild h id i k) → onPipe s.dev c = some u →
    findCtx s.dev h = some x → findPic x id = some p →
    (let limit := p.ctb * p.ctb / 256 * getF s.dev (VDC u.quarter u.index + 4) 0 16
     let e := pixelCard s.dev slot { r with err := 0 } true fun _ => true
     (cycles < limit → exec (.ctuLimit slot cycles r) s = .next s) ∧
     (limit ≤ cycles → (∀ y, findCard e slot = some y → y.done = true) → exec (.ctuLimit slot cycles r) s = nextWith s (
       raiseOnce (cnt e (VDC u.quarter u.index + 0x1C) 1) (evCtx x 0x501 1 [(1, u.index), (4, h), (8, r.ctu)]))))) ∧
  (∀ (s : State) (h id ctus n : Nat) (x : Ctx) (p : Pic), findCtx s.dev h = some x → findPic x id = some p → p.firstDeal = some n →
    n + 2 ≤ s.dev.tim.stride → p.work ≠ [] → p.abandoned = false → p.done = false → halted s.dev = false →
    exec (.picLimit h id ctus) s = nextWith s (
      let d := modPic s.dev h id fun p => { p with abandoned := true, damaged := true }
      p.work.foldl (fun d s => match findCard d s with
        | some c => if c.state = .waiting ∨ c.state = .ready then cancelCard d s else d
        | none => d) (raiseOnce d (evCtx x 0x502 1 [(4, h), (4, p.rtpTs), (2, ctus)])))) ∧
  (∀ (s : State) (h kind source : Nat) (x : Ctx), findCtx s.dev h = some x → x.reqWait = some (kind, source) → reqDue s.dev x.lastReq = true →
    exec (.refreshIntervalEnd h) s = nextWith s (sendCtxRefresh s.dev x kind source)) ∧
  (∀ (s : State) (h dest : Nat) (l : Leg), findCtx s.dev h = none → findLeg s.dev h = some l → l.reqWait = some dest → reqDue s.dev l.lastReq = true →
    exec (.refreshIntervalEnd h) s = nextWith s (sendRefresh s.dev l 1 dest)) ∧
  (∀ (d e : Dev) (h id i : Nat) (x : Ctx) (p : Pic) (f : Surf), findCtx d h = some x → findPic x id = some p → p.surface = none →
    withSurf d h id = some (e, f) → f.off = i * x.surfGeo.size → x.surfGeo.size ≠ 0 →
    i < x.surfaces ∧ i ∉ heldSurfs d x.handle ∧ (∀ r, x.record = some r → r.surface ≠ i) ∧
    ∀ q ∈ x.pics, q.surface = some i → q.done = true ∧ q.isRef = false ∧ q.dropped = false)

/-- The band card at the head of a compositor's queue reports the tiles that it cannot read, takes its band buffer, writes the copy's rows
where the frame has a copy, leaves the band to the encode card that waits for it or returns the buffer, and completes; without a free buffer
it waits and reports. The encode card at the head of a pipe's queue codes its band of every layer within the budgets and completes; the last
band settles the rate, keeps the picture as a reference and hands it over. A picture that is to be filled is replaced by fill units with its
event, a withheld start picture is only reported. A wait for cells is counted. No payload of the H.264 packetiser is longer than the stream's
limit. The search keeps only vectors that point at most 64 samples beyond the reference and into its clean region; a unit of the wave group
is intra; a unit at minimum cost has zero motion or DC intra; a unit whose reference tile cannot be read is intra and names that tile. -/
def Obligations.CompositionAndEncodeComplete : Prop :=
  (∀ (s : State) (slot cycles h phase b : Nat) (c : Card) (u : UnitId) (l : Layout) (f : Frame), findCard s.dev slot = some c → c.work = .compose h phase b →
    c.at_ = some u → c.state = .inService → halted s.dev = false → (queueOf s.dev u).head? = some slot → (uState s.dev u = 2 ∨ uState s.dev u = 3) →
    findLayout s.dev h = some l → l.frames.find? (fun f => f.phase == phase) = some f →
    exec (.composeBand slot cycles) s = nextWith s (
      let pool := 4 * l.home + l.comp
      let n := bandUnits l b
      let a := CMP l.home l.comp
      if ledgFree s.dev 8 pool < n then raiseOnce (cnt s.dev (a + 0x28) cycles) (evLayout l 0x602 1 [(1, l.comp), (4, h), (4, cycles)])
      else
        let planes := bandPlanes s.dev l f b
        let d := reportTiles s.dev l f b
        let d := cnt (cnt d (a + 0x20) (l.outW * bandRows l b)) (a + 0x24) cycles
        let d := match f.copy with | some i => writeBand d l ⟨h, i * (outGeo l).size, outGeo l⟩ b planes | none => d
        let d := ledgTake d 8 pool n
        let bufs := d.vid.bufs ++ [⟨pool, h, phase, b, n, planes⟩]
        completeCard (if bandAwaited d c h phase b then { d with vid := { d.vid with bufs := bufs } } else ledgGive d 8 pool n) slot)) ∧
  (∀ (s : State) (slot h phase b : Nat) (r : CodedUnits) (c : Card) (u : UnitId) (e : EncS) (p : EncPic), findCard s.dev slot = some c →
    c.work = .encode h phase b → c.at_ = some u → c.state = .inService → c.predShort = false → halted s.dev = false → (queueOf s.dev u).head? = some slot →
    (uState s.dev u = 2 ∨ uState s.dev u = 3) → findEnc s.dev h = some e → e.pics.find? (fun p => p.phase == phase && p.started) = some p →
    p.fill = none →
    (let a := VEN u.quarter u.index
     let y := bandCoded (setF (cnt (cnt s.dev (a + 0x10) (bandPixels e b)) (a + 0x14) r.cycles) a 10 1 0) e p b r
     let d := modEnc y.1 h fun e => { e with pics := e.pics.map fun x => if x.phase == phase then y.2 else x }
     ((∃ x ∈ p.bandsLeft, x ≠ b) → exec (.encodeBand slot r) s = nextWith s (completeCard d slot)) ∧
     ((∀ x ∈ p.bandsLeft, x = b) → ∃ e2 : EncS, findEnc d h = some e2 ∧
       exec (.encodeBand slot r) s = nextWith s (withCredit s.dev (completeCard (endPicCoding d e2 y.2) slot))))) ∧
  (∀ (d : Dev) (e : EncS) (p : EncPic) (b : Nat) (r : CodedUnits),
    (bandCoded d e p b r).2.bandsLeft = p.bandsLeft.filter (· != b) ∧ ((bandCoded d e p b r).2.layers.map EncLayer.s = (openPicture e p).layers.map EncLayer.s) ∧
    (p.layers = [] → (openPicture e p).layers = layersFor e p ∧ (p.start = true → (openPicture e p).ref = none))) ∧
  (∀ (s : State) (slot h phase b : Nat) (r : CodedUnits) (c : Card) (u : UnitId) (e : EncS) (p : EncPic), findCard s.dev slot = some c →
    c.work = .encode h phase b → c.at_ = some u → c.state = .inService → halted s.dev = false → (queueOf s.dev u).head? = some slot →
    (uState s.dev u = 2 ∨ uState s.dev u = 3) → findEnc s.dev h = some e → e.pics.find? (fun p => p.phase == phase && p.started) = some p →
    (p.fill.isSome = true → exec (.encodeBand slot r) s = nextWith s (completeCard s.dev slot)) ∧
    (p.fill = none → c.predShort = true → exec (.encodeBand slot r) s = nextWith s (completeCard (modEnc s.dev h fun e =>
      { e with pics := e.pics.map fun y => if y.phase == phase then { y with fill := some 0 } else y }) slot))) ∧
  (∀ (s : State) (h n : Nat) (e : EncS) (p : EncPic) (ps : List EncPic), findEnc s.dev h = some e → e.pics = p :: ps →
    p.fill = some n → p.started = true → halted s.dev = false →
    (let mine (w : Work) : Bool := match w with | .encode x n _ => x == h && n == p.phase | _ => false
     let idle := s.dev.dlr.cards.filter fun c => (c.state == .waiting || c.state == .ready) && mine c.work
     (p.start = false → exec (.fillPicture h) s = nextWith s (
       let d := p.layers.foldl (reportBudget e p) s.dev
       let d := raiseOnce (cnt d (VEN e.home e.pipe + 0x20) 1) (evEnc e 0x701 1 [(4, h), (2, p.num % 65536), (1, n)])
       let d := modEnc (handPicture d e p (fillUnits e p) true) h fun e => match e.refOf p.tl with
         | some r => keepRef e p r.slot []
         | none => e
       withCredit s.dev ((idle.map Card.slot).foldl cancelCard d))) ∧
     (p.start = true → exec (.fillPicture h) s = nextWith s (
       raiseOnce ((idle.map Card.slot).foldl cancelCard (modEnc s.dev h fun e => renumber { e with pics := ps }))
         (evEnc e 0x701 1 [(4, h), (2, p.num % 65536), (1, 3)]))))) ∧
  (∀ (s : State) (u : UnitId) (cycles : Nat), running s.dev u = true →
    (u.cls = 4 → queueOf s.dev u ≠ [] → exec (.cellWait u cycles) s = nextWith s (
      let a := VEN u.quarter u.index
      raiseOnce (setF (cnt s.dev (a + 0x28) cycles) a 10 1 1) { evUnit u 0x703 1 [(1, u.index), (4, cycles)] with key := 256 * u.quarter + u.index })) ∧
    (u.cls = 9 → fwdWaits s.dev = true → exec (.cellWait u cycles) s = nextWith s (cnt s.dev (FWD + 0x60) cycles)) ∧
    (u.cls = 9 → fwdWaits s.dev = false → exec (.cellWait u cycles) s = .next s)) ∧
  (∀ (mtu : Nat) (nal : List Nat), 3 ≤ mtu → ∀ p ∈ h264Payloads mtu nal, p.length ≤ mtu) ∧
  (∀ (e : EncS) (p : EncPic) (x : EncLayer) (q : Nat), e.cfg.qpMin ≤ e.cfg.qpMax → e.cfg.qpMin ≤ rowQp e p x q ∧ rowQp e p x q ≤ e.cfg.qpMax) ∧
  (∀ (x : EncLayer) (u : Nat × Nat), (codeUnit x u).used = x.used + u.1 ∨ ((codeUnit x u).exhausted = true ∧ (codeUnit x u).used = x.used + u.2)) ∧
  (∀ (d : Dev) (e : EncS) (p : EncPic) (s b i : Nat) (r : EncRef), ∀ v ∈ unitVecs d e p s b i r, (searchOf d e p s b i r).ok 0 v = true) ∧
  (∀ (l : Reach) (j : Nat) (b : Area) (v : Int × Int), l.allows j b v = true →
    -64 ≤ (b.x + v.1) * 2 ^ j ∧ (b.x + v.1 + b.w) * 2 ^ j ≤ l.w + 64 ∧ -64 ≤ (b.z + v.2) * 2 ^ j ∧ (b.z + v.2 + b.h) * 2 ^ j ≤ l.h + 64) ∧
  (∀ (d : Dev) (e : EncS) (p : EncPic) (x : EncLayer) (b i : Nat) (u : UnitCode) (vs : List (Int × Int)) (least : Bool),
    (x.group = some (groupOfCol e x.s i) → (unitForm d e p x b i u vs least).1 = .intra ∨ (unitForm d e p x b i u vs least).1 = .dc) ∧
    (least = true → (unitForm d e p x b i u vs least).1 = .zero ∨ (unitForm d e p x b i u vs least).1 = .dc) ∧
    ((unitForm d e p x b i u vs least).2.isSome = true →
      (unitForm d e p x b i u vs least).1 = .intra ∨ (unitForm d e p x b i u vs least).1 = .dc) ∧
    (∀ ps, (unitForm d e p x b i u vs least).1 = .inter ps → ∀ v ∈ ps, partBad d e p x b i v = none))

/-! ### The stride, the Bridle, network time, memories and DMA -/

/-- Stride k of second s begins s + floor(2,500,000 k / 3) ns on the clock, stride 1,199 ends where stride 0 of the next second begins, and every
time lies in exactly one stride. A boundary of a device whose strides run moves the stride count forward, to the next stride or, after a
forward step, to the stride of the clock, which then stands at the start of that stride or where it was beyond it; without running
strides nothing happens. -/
def Obligations.StridesBeginOnTheClock : Prop :=
  (∀ s k, k < 1200 → strideStart (1200 * s + k) = 1000000000 * s + k * 2500000 / 3) ∧
  (∀ s, strideStart (1200 * s + 1199 + 1) = 1000000000 * (s + 1) ∧ strideStart (1200 * (s + 1)) = 1000000000 * (s + 1)) ∧
  (∀ t c, (strideStart c ≤ t ∧ t < strideStart (c + 1)) ↔ strideAt t = c) ∧
  (∀ (s : State) (env : BoundaryEnv), s.dev.tim.running = true →
    ∃ t, exec (.strideBoundary env) s = .next t ∧ t.dev.tim.stride = newStride s.dev ∧ s.dev.tim.stride < t.dev.tim.stride ∧
      (s.dev.tim.clock ≤ strideStart (s.dev.tim.stride + 1) →
        t.dev.tim.stride = s.dev.tim.stride + 1 ∧ t.dev.tim.clock = strideStart t.dev.tim.stride) ∧
      t.dev.tim.clock = max s.dev.tim.clock (strideStart t.dev.tim.stride)) ∧
  (∀ (s : State) (env : BoundaryEnv), s.dev.tim.running = false → exec (.strideBoundary env) s = .next s)

/-- A selection of a running Bridle starts the head of the lowest eligible urgent queue, else of the weighted queue that the deficit round
robin takes, at the time the port is free; the queue that it takes had credit for its head, and no other queue loses credit; with no
queue eligible nothing starts and the visit under way ends. A head frame is too old once it has been queued for more than its limit of
strides. The post wheel's tick releases the frames that are due, a shaper's tick refills every bucket up to its burst, a write to a shaper waits for that
tick. A list of gates, after a pending one whose time has come has taken over, is armed where its intervals and cycle are legal, takes over at its time, and goes from entry to entry. A write
to a watermark status clears it and starts its maximum from the present level. -/
def Obligations.BridleCompletes : Prop :=
  (∀ (s : State) (p : Fin 8) (t q : Nat), brdRuns s.dev p = true → timely s.dev t = true → (getBrd s.dev p).busyUntil / 1000 ≤ t →
    (getPort s.dev p).txq = [] → linkUp s.dev p = true → isActive s.dev p = true → q < 4 →
    (let start := max (getBrd s.dev p).busyUntil (1000 * t)
     let d := dropHeads (advance s.dev t) p
     eligible d p q start = true → (∀ r, r < q → eligible d p r start = false) →
     exec (.selection p t) s = nextWith s (startFrame d p q start))) ∧
  (∀ (s : State) (p : Fin 8) (t i : Nat) (defs : List Nat), brdRuns s.dev p = true → timely s.dev t = true → (getBrd s.dev p).busyUntil / 1000 ≤ t →
    (getPort s.dev p).txq = [] → linkUp s.dev p = true → isActive s.dev p = true →
    (let start := max (getBrd s.dev p).busyUntil (1000 * t)
     let d := dropHeads (advance s.dev t) p
     (∀ q, q < 4 → eligible d p q start = false) →
     drr (weighted d p fun q => eligible d p q start) ((List.range 12).map fun i => 128 * getF d (BRDQ p (4 + i)) 0 8) 1200 ((getBrd d p).turn - 4) (getBrd d p).visited
       ((List.range 12).map fun i => (getQ d p (4 + i)).deficit) = some (i, defs) →
     exec (.selection p t) s = nextWith s (
       let b := getBrd d p
       startFrame (putBrd d p { b with qs := setDeficits b.qs defs, turn := 4 + i, visited := true }) p (4 + i) start))) ∧
  (∀ (s : State) (p : Fin 8) (t : Nat), brdRuns s.dev p = true → timely s.dev t = true → (getBrd s.dev p).busyUntil / 1000 ≤ t →
    (getPort s.dev p).txq = [] → linkUp s.dev p = true → isActive s.dev p = true →
    (let start := max (getBrd s.dev p).busyUntil (1000 * t)
     let d := dropHeads (advance s.dev t) p
     (∀ q, q < 16 → eligible d p q start = false) → exec (.selection p t) s = nextWith s (putBrd d p { getBrd d p with visited := false }))) ∧
  (∀ (d : Dev) (f : TxFrame) (lim : Nat), olderThan d f lim = true ↔ lim * 2500000 < 3 * (d.tim.clock - f.time)) ∧
  (∀ (heads : List (Option Nat)) (quanta : List Nat) (n i : Nat) (v : Bool) (defs : List Nat) (j : Nat) (defs' : List Nat),
    drr heads quanta n i v defs = some (j, defs') →
    (∃ w c, nth heads j none = some w ∧ w ≤ c ∧ nth defs j 0 ≤ c ∧ nth defs' j 0 = c - w) ∧ defs'.length = defs.length ∧ ∀ k, k ≠ j → nth defs k 0 ≤ nth defs' k 0) ∧
  (∀ (s : State) (p : Fin 8) (t : Nat), brdRuns s.dev p = true → timely s.dev t = true → t / 256 ≠ (getBrd s.dev p).lastWheel →
    exec (.postWheelTick p t) s = nextWith s (
      let b := getBrd s.dev p
      let d := putBrd (advance s.dev t) p { b with lastWheel := t / 256, wheel := b.wheel.filter fun f => decide (ndiff (t / 256 * 256) (f.post.getD 0) < 0) }
      (dueFrames b (t / 256 * 256)).foldl (fun d f => if !linkUp d p && b.movedTo.isNone then
        endFrame (cnt (setDepth d p f.queue (qDepth d p f.queue - wireLen f)) (BRD p + 0x30) 1) p f 1 else pushQ d p f) d)) ∧
  (∀ (s : State) (p : Fin 8) (t : Nat), timely s.dev t = true → halted s.dev = false → t / 8000 ≠ (getBrd s.dev p).lastShape →
    exec (.shaperTick p t) s = nextWith s (
      let d := (List.range 17).foldl (fun d i => tickShaper d p i) (advance s.dev t)
      putBrd d p { getBrd d p with forgive := [], lastShape := t / 8000 })) ∧
  (∀ (b : Int) (was now forgive : Bool) (rate burst : Nat), tickBucket b was now rate burst forgive ≤ 1000 * burst ∧
    (now = true → was = true → 0 ≤ b → tickBucket b was now rate burst forgive = min (b + rate) (1000 * burst)) ∧
    (now = true → was = true → b < 0 → forgive = true → tickBucket b was now rate burst forgive = min rate (1000 * burst))) ∧
  (∀ (s : State) (p i : Nat) (v : Word), p < 8 → i < 17 →
    exec (.shaperWrite (shapeRegs p i).1 v) s = nextWith s (
      let d := setReg s.dev (shapeRegs p i).1 (v &&& 0xBFFFFFFF)
      if bit v 30 then putBrd d p { getBrd d p with forgive := i :: (getBrd d p).forgive } else d) ∧
    exec (.shaperWrite (shapeRegs p i).2 v) s = nextWith s (setReg s.dev (shapeRegs p i).2 (v &&& 0xFFFFFF))) ∧
  (∀ (s : State) (p : Fin 8) (v : Word) (t : Nat), timely s.dev t = true → bit v 8 = true →
    exec (.gclArm p v t) s = exec (.gclArm p v t) { s with dev := gclTakeover (advance s.dev t) p t }) ∧
  (∀ (s : State) (p : Fin 8) (v : Word) (t : Nat), timely s.dev t = true → bit v 8 = true → fld v 0 7 ≤ 64 →
    (∀ x, (getBrd s.dev p).pend = some x → t < x.2) →
    (let d := setF (advance s.dev t) (BRD p + 0x10) 0 7 (fld v 0 7)
     let es := gclEntries d p (1 - operBank d p) (fld v 0 7)
     (∀ e ∈ es, 64 ≤ e.1) → gclCycle es < 2 ^ 32 →
     exec (.gclArm p v t) s = nextWith s (
       let base := (reg d (BRD p + 0x14)).toNat + getF d (BRD p + 0x18) 0 16 * 2 ^ 32
       let d := putB (putB d (BRD p + 0x10) 8 true) (BRD p + 0x1C) 1 true
       putBrd d p { getBrd d p with pend := some (es, takeoverTime base (gclCycle es) t) }))) ∧
  (∀ (base cycle t : Nat), t ≤ takeoverTime base cycle t ∧ (0 < cycle → ndiff base t < 0 → takeoverTime base cycle t < t + cycle)) ∧
  (∀ (s : State) (p : Fin 8) (t t0 : Nat) (es : List (Nat × Nat)), (getBrd s.dev p).pend = some (es, t0) → timely s.dev t = true → t0 ≤ t → halted s.dev = false →
    ∃ d, exec (.gclTakeover p t) s = nextWith s (raiseOnce d
        { evUnit ⟨10, 0xFF, p⟩ 0x844 0 [(1, p.val), (1, 1 - operBank s.dev p), (4, es.length), (6, t0 % 2 ^ 48)] with key := 0 }) ∧
      d.brd = (putBrd s.dev p { getBrd s.dev p with pend := none, oper := es, operBase := t0, entry := 0 }).brd ∧
      (spWf s.dev.regs = true → operBank d p = 1 - operBank s.dev p ∧ reg d (BRD p + 0x20) = wd (gclCycle es))) ∧
  (∀ (s : State) (p : Fin 8) (t : Nat), (getBrd s.dev p).oper ≠ [] → timely s.dev t = true → halted s.dev = false →
    exec (.gateEntry p t) s = nextWith s (
      let b := getBrd s.dev p
      putBrd (advance s.dev t) p { b with entry := (entryAt b.oper (gatePos b (1000 * t)) 0).1 })) ∧
  (∀ (s : State) (p q : Nat) (v : Word), p < 8 → q < 16 → bit v 0 = true →
    exec (.watermarkClear (BRDQ p q + 0x18) v) s = nextWith s (wmClear s.dev (BRDQ p q + 0x18) (BRDQ p q + 0x1C) (qDepth s.dev p q)) ∧
    exec (.watermarkClear (BRDQ p q + 0x28) v) s = nextWith s (wmClear s.dev (BRDQ p q + 0x28) (BRDQ p q + 0x2C) 0))

/-- A time-base cycle adds the increment, scaled by the frequency adjustment, to the clock and its fraction. A read of the time answers
nanoseconds within the second and latches the seconds. A mode write takes the mode, mode 3 as 2; a frequency write acts in
mode 1, clamped, and is reported in any other. A step is applied within the jump limit or when forced and moves the clock by its amount,
else it is refused; force alone sets the force bit; the boundary that a forward step crosses follows in the same command. A PTP frame of an
unaccepted profile, port, transport, domain or rate does nothing. An Announce that the selection takes makes its port the master's and takes the
servo from FREERUN or HOLDOVER to ACQUIRING; a one-step Sync of the master's port shows its offset and steers, a two-step Sync waits for its
Follow_Up. LOCKED without a master is HOLDOVER, and HOLDOVER that has lasted its time
FREERUN. A pop takes the oldest transmit time-stamp. A programme of pulses is armed where its width, period and start are legal, takes
over at its time and emits its edges at theirs, each advanced by the generator's delay and ended after its width, none while squelched or
after the takeover of a pending programme. -/
def Obligations.NetworkTimeCompletes : Prop :=
  (∀ (s : State) (t : Nat), timely s.dev t = true →
    exec (.timeRead false t) s = nextWith s (
      let d := setLatch (advance s.dev t) (TIM + 0xC) (wd (t / 1000000000))
      emitOut (setLatch d (TIM + 0x10) (wd (t / 1000000000 / 2 ^ 32 % 2 ^ 16))) (.readData 0 (TIM + 8) (wd (t % 1000000000)))) ∧
    exec (.timeRead true t) s = nextWith s (
      emitOut (setLatch (advance s.dev t) (TIM + 0x18) (wd (t % 2 ^ 48 / 2 ^ 32))) (.readData 0 (TIM + 0x14) (wd t)))) ∧
  (∀ (d : Dev), (timely d (d.tim.clock + (d.tim.frac + increment d) / nsParts) = true →
      (tick d).tim.clock * nsParts + (tick d).tim.frac = d.tim.clock * nsParts + d.tim.frac + increment d ∧ (tick d).tim.frac < nsParts) ∧
    (timely d (d.tim.clock + (d.tim.frac + increment d) / nsParts) = false → tick d = d) ∧
    (increment d : Int) * 4 = max 0 (5 * 2 ^ 32 * (256000000000 + (reg d (TIM + 0x20)).toInt))) ∧
  (∀ (s : State) (v : Word), spWf s.dev.regs = true →
    exec (.timModeWrite v) s = nextWith s (writeTimCtrl s.dev v) ∧
    timMode (writeTimCtrl s.dev v) = min (fld v 0 2) 2 ∧
    (min (fld v 0 2) 2 ≠ timMode s.dev → getB (writeTimCtrl s.dev v) TIM 4 = false ∧ (writeTimCtrl s.dev v).tim.refusedAt = none ∧
      (writeTimCtrl s.dev v).tim.noStep = false ∧ (fld v 0 2 ≠ 0 → servo (writeTimCtrl s.dev v) = 0))) ∧
  (∀ (s : State) (v : Word), exec (.freqWrite v) s = nextWith s (if timMode s.dev = 1 then setFreq s.dev v.toInt 128000000 else putB s.dev TIM 5 true)) ∧
  (∀ (d : Dev) (v lim : Int), 0 ≤ lim → lim ≤ 128000000 → spWf d.regs = true →
    -lim ≤ (reg (setFreq d v lim) (TIM + 0x20)).toInt ∧ (reg (setFreq d v lim) (TIM + 0x20)).toInt ≤ lim) ∧
  (∀ (s : State) (v : Word) (env : BoundaryEnv), exec (.stepApply v env) s = nextWith s (landStep env (
    let d := if bit v 1 then putB s.dev (TIM + 0x2C) 1 true else s.dev
    if timMode d = 1 then (tryStep d (reg d (TIM + 0x28) ++ reg d (TIM + 0x24)).toInt 1).1 else putB d TIM 5 true))) ∧
  (∀ (d : Dev) (env : BoundaryEnv),
    (d.tim.running = true → strideStart (d.tim.stride + 1) ≤ d.tim.clock → landStep env d = strideBoundary d env) ∧
    (d.tim.running = false ∨ d.tim.clock < strideStart (d.tim.stride + 1) → landStep env d = d)) ∧
  (∀ (d : Dev) (off : Int) (src : Nat), (off.natAbs ≤ (reg d (TIM + 0x30)).toNat ∨ getB d (TIM + 0x2C) 1 = true) →
    (tryStep d off src).2 = true ∧ (tryStep d off src).1.tim.clock = ((d.tim.clock : Int) + off).toNat) ∧
  (∀ (d : Dev) (off : Int) (src : Nat), (reg d (TIM + 0x30)).toNat < off.natAbs → getB d (TIM + 0x2C) 1 = false →
    (tryStep d off src).2 = false ∧ (tryStep d off src).1.tim.clock = d.tim.clock) ∧
  (∀ (s : State) (v : Word) (env : BoundaryEnv), bit v 0 = false →
    exec (.stepForce v env) s = nextWith s (landStep env (putB s.dev (TIM + 0x2C) 1 true))) ∧
  (∀ (s : State) (m : Ptp) (env : BoundaryEnv), s.dev.tim.ptp = [] → exec (.ptpMessage m env) s = nextWith s (landStep env s.dev)) ∧
  (∀ (s : State) (m : Ptp) (env : BoundaryEnv) (k : PtpIn) (ks : List PtpIn), s.dev.tim.ptp = k :: ks → s.dev.tim.running = true →
    (let d := { s.dev with tim := { s.dev.tim with ptp := ks } }
     (ptpAccepts d k = none → exec (.ptpMessage m env) s = nextWith s (landStep env d)) ∧
     ∀ bs, ptpAccepts d k = some bs →
       (∀ p, ptpType bs = 11 → m.master = some p → getB d (TIM + 4) (16 + p) = true → isActive d p = true →
         exec (.ptpMessage m env) s = nextWith s (landStep env (
           let e := setF d TIM 8 3 p
           let e := if getF d TIM 8 3 = p then e else raise e (evDev 0xB05 0 [(1, getF d TIM 8 3), (1, p)])
           if timMode e = 0 ∧ (servo e = 0 ∨ servo e = 3) then setServo e 1 else e))) ∧
       (ptpType bs = 0 → k.port = getF d TIM 8 3 →
         ((nth bs 6 0).toNat.testBit 1 = true → exec (.ptpMessage m env) s = nextWith s (landStep env
           { d with tim := { d.tim with syncWait := some (k.port, beNat (slice bs 30 2)) } })) ∧
         ((nth bs 6 0).toNat.testBit 1 = false → exec (.ptpMessage m env) s = nextWith s (landStep env (ptpExchange d k.port m)))) ∧
       (ptpType bs = 8 → k.port = getF d TIM 8 3 → d.tim.syncWait = some (k.port, beNat (slice bs 30 2)) →
         exec (.ptpMessage m env) s = nextWith s (landStep env (ptpExchange { d with tim := { d.tim with syncWait := none } } k.port m))))) ∧
  (∀ (d : Dev) (p : Nat) (m : Ptp), m.delayReq = none → ptpExchange d p m =
    (let d := showOffset d m.offset
     if timMode d = 0 ∧ (servo d = 1 ∨ servo d = 2) then servoSync d p m.offset m.freq m.step else d)) ∧
  (∀ (d : Dev) (k : PtpIn) (bs : List Byte), ptpAccepts d k = some bs →
    featOn d 0 (if getB d (TIM + 4) 2 then 145 else 144) = true ∧ getB d (TIM + 4) (16 + k.port) = true ∧ isActive d k.port = true ∧
    (nth bs 4 0).toNat = getF d (TIM + 4) 8 8 ∧ ptpRate d bs = true) ∧
  (∀ (s : State) (lost : Bool), servo s.dev = 2 → exec (.holdover lost) s = nextWith s (
    let d := setServo s.dev 3
    raise (setReg d (TIM + 0x20) (meanFreq d)) (evDev 0xB03 1 [(1, lost.toNat), (4, (meanFreq d).toNat)]))) ∧
  (∀ (s : State), servo s.dev = 3 → 1200 * getF s.dev (TIM + 0x3C) 0 16 ≤ s.dev.tim.holdStrides →
    exec .freerun s = nextWith s (raise (setServo s.dev 0) (evDev 0xB04 1 [(1, 3)]))) ∧
  (∀ (s : State) (p : Fin 8) (e : TxTs) (es : List TxTs), nth s.dev.tim.txts p [] = e :: es → ∃ d, exec (.txtsPop p) s = nextWith s (
      emitOut d (.readData 0 (TIM + 0x204 + 0x10 * p) (wd (e.tsId + 0x10000 + 0x20000 * e.sent.toNat)))) ∧
    d.tim.txts = upd s.dev.tim.txts p es ∧ (spWf s.dev.regs = true → reg d (TIM + 0x208 + 0x10 * p) = wd e.stamp ∧
      reg d (TIM + 0x20C + 0x10 * p) = wd (e.stamp / 2 ^ 32) ∧ getF d (TIM + 0x200 + 0x10 * p) 0 6 = es.length % 64)) ∧
  (∀ (s : State) (p : Fin 8), nth s.dev.tim.txts p [] = [] →
    exec (.txtsPop p) s = nextWith s (emitOut (setReg (setReg s.dev (TIM + 0x208 + 0x10 * p) 0) (TIM + 0x20C + 0x10 * p) 0) (.readData 0 (TIM + 0x204 + 0x10 * p) 0))) ∧
  (∀ (s : State) (g : Fin 4) (v : Word) (t : Nat), timely s.dev t = true → featOn s.dev 0 23 = true →
    ∃ d, exec (.pulseArm g v t) s = nextWith s (match pulseBad (pulseRegs d g) t with
        | some r => raise (putB d (pulseCfg g) 9 true) (evDev 0xB07 1 [(1, g), (1, r)])
        | none => putPulse (putB d (pulseCfg g) 8 true) g { getPulse d g with pending := some (pulseRegs d g, takeoverAt (pulseRegs d g) t) }) ∧
      (spWf s.dev.regs = true → (pulseRegs d g).mode = fld v 0 2 ∧ (pulseRegs d g).invert = bit v 2 ∧ d.tim.clock = t)) ∧
  (∀ (s : State) (g : Fin 4) (t n : Nat), (getPulse s.dev g).next = some n → timely s.dev t = true → t = max n s.dev.tim.clock →
    replacedBy (getPulse s.dev g) t = false →
    exec (.pulseEdge g t) s = nextWith s (
      let x := getPulse s.dev g
      startPulse (putPulse (advance s.dev t) g { x with next := if x.cur.mode = 2 then some (n + x.cur.period) else none }) g n t (10 * x.cur.width))) ∧
  (∀ (s : State) (g : Fin 4) (t : Nat), replacedBy (getPulse s.dev g) t = true → exec (.pulseEdge g t) s = .next s) ∧
  (∀ (d : Dev) (g n t w : Nat), squelched d g = false → startPulse d g n t w =
    emitOut (putPulse d g { getPulse d g with widthEnd := some (t + w), lastEdge := some n }) (.pin (pinName g) (!restLevel d g) (t - edgeLead d g))) ∧
  (∀ (d : Dev) (g n t w : Nat), squelched d g = true → startPulse d g n t w = d) ∧
  (∀ (s : State) (g : Fin 4) (n : Nat), (getPulse s.dev g).widthEnd = some n → timely s.dev (max n s.dev.tim.clock) = true →
    exec (.pulseWidthEnd g) s = nextWith s (endPulse (advance s.dev (max n s.dev.tim.clock)) g (max n s.dev.tim.clock - edgeLead s.dev g))) ∧
  (∀ (s : State) (g : Fin 4) (t n : Nat) (x : PulseProg), (getPulse s.dev g).pending = some (x, n) → timely s.dev t = true → t = max n s.dev.tim.clock →
    ∃ (d : Dev) (e : Bool), exec (.pulseTakeover g t) s = nextWith s (if e then emitOut d (.pin (pinName g) (restLevel d g) t) else d) ∧
      (let m := if x.mode = 1 then some n else if x.mode = 2 then some (firstAhead n x.period t).1 else none
       d.tim.pulses = upd s.dev.tim.pulses g { getPulse s.dev g with cur := x, pending := none, next := m, lastEdge := none, first := n }) ∧
      (spWf s.dev.regs = true → getB d (pulseCfg g) 8 = false))

/-- A command slot of a pseudo-channel that serves lets in what arrived and then does a due refresh, or serves the request that the scheduler
picks; a refresh that falls due waits in its bank. The patrol scrub counts and repairs, and reports an uncorrectable unit; drift tracking of a
channel is done; a group whose count reaches the threshold is reported once and waits for a window; the sixteenth step ends a window. A
Paddock round's winner has the highest priority among the requests that take part, and the others rise by one; the end of a window restarts
the quota. A DMA descriptor moves its elements in order, counts, and after the last one the chain's status is written and the card is done. -/
def Obligations.MemoriesAndDmaComplete : Prop :=
  (∀ (s : State) (h : Fin 4) (pc : Fin 32) (asks : List HbmAsk) (cycles : Nat), getF s.dev MEM 0 3 = 2 → h.val < s.dev.variant.stacks → halted s.dev = false →
    (let x := getPc s.dev h pc
     let d := asks.foldl (fun d a => enterAsk d h pc a) (putPc s.dev { x with reads := x.reads.map fun r => { r with age := r.age + cycles } })
     let y := getPc d h pc
     (∀ z, hbmServes d h pc = true → refreshStep y = some z → exec (.hbmCommandSlot h pc asks cycles) s = nextWith s (putPc d z)) ∧
     (∀ r, hbmServes d h pc = true → refreshStep y = none → pickReq d y = some r →
       exec (.hbmCommandSlot h pc asks cycles) s = nextWith s (serveReq d y r)) ∧
     (hbmServes d h pc = true → refreshStep y = none → pickReq d y = none → exec (.hbmCommandSlot h pc asks cycles) s = nextWith s d) ∧
     (hbmServes d h pc = false → exec (.hbmCommandSlot h pc asks cycles) s = nextWith s d))) ∧
  (∀ (d : Dev) (x : HbmPc) (r : HbmReq), pickReq d x = some r → (r ∈ x.reads ∨ r ∈ x.writes) ∧ mustWait x r = false) ∧
  (∀ (s : State) (h : Fin 4) (pc : Fin 32) (b : Fin 48), getF s.dev MEM 0 3 = 2 → h.val < s.dev.variant.stacks →
    exec (.hbmRefresh h pc b) s = nextWith s (
      let x := getPc s.dev h pc
      putPc s.dev (putHBank x { getHBank x b with refreshDue := true }))) ∧
  (∀ (s : State) (a : Nat), getB s.dev (MEM + 4) 24 = true → getF s.dev MEM 0 3 = 2 → s.dev.mem.selfRefresh = false → halted s.dev = false →
    a < hbmSize s.dev.variant → retraining s.dev (hbmPlace s.dev a).h (hbmPlace s.dev a).c = false → a / 64 ∉ s.dev.mem.hbmBad →
    exec (.scrub a 0) s = .next s ∧ exec (.scrub a 1) s = nextWith s (cnt (hbmCe s.dev (a / 64)) (MEM + 0x110) 1) ∧
    exec (.scrub a 2) s = nextWith s (
      let bad := (a / 64) :: s.dev.mem.hbmBad
      hbmUe { s.dev with mem := { s.dev.mem with hbmBad := bad } } (a / 64) 1)) ∧
  (∀ (s : State) (h : Fin 4) (c : Fin 16), exec (.driftTracking h c) s = nextWith s (
    let l := s.dev.mem.driftOwed.filter (· != (h.val, c.val))
    progressChanges { s.dev with mem := { s.dev.mem with driftOwed := l } })) ∧
  (∀ (s : State) (h : Fin 4) (c : Fin 16), h.val < s.dev.variant.stacks → getF s.dev MEM 0 3 = 2 → (h.val, c.val) ∉ s.dev.mem.ceRaised →
    (let n := getF s.dev (MEM + 0x400 + 0x40 * h + 4 * c) 0 16
     let l := (h.val, c.val) :: s.dev.mem.ceRaised
     getF s.dev (MEM + 0x10) 0 16 ≤ n →
     ∃ d, d = raise { s.dev with mem := { s.dev.mem with ceRaised := l } } (evDev 0xC00 1 [(1, h), (1, c), (2, n)]) ∧
       ((∀ e ∈ d.mem.lastRetrain, e.1 = h.val → e.2.1 = c.val → e.2.2 + 1200 ≤ d.tim.stride) → (∀ r ∈ d.mem.retrains, r.h = h.val → r.c ≠ c.val) →
         exec (.ceThresh h c) s = nextWith s (
           let w := d.mem.retrains ++ [{ h := h, c := c }]
           { d with mem := { d.mem with retrains := w } })) ∧
       ((∃ r ∈ d.mem.retrains, r.h = h.val ∧ r.c = c.val) ∨ (∃ e ∈ d.mem.lastRetrain, e.1 = h.val ∧ e.2.1 = c.val ∧ d.tim.stride < e.2.2 + 1200) → exec (.ceThresh h c) s = nextWith s d))) ∧
  (∀ (s : State) (h : Fin 4) (c : Fin 16) (r : Retrain), s.dev.mem.retrains.find? (fun r => r.h == h.val && r.c == c.val && r.running) = some r →
    (let rest := s.dev.mem.retrains.filter fun x => !(x.h == h.val && x.c == c.val)
     (r.steps < 15 → exec (.retrainStep h c) s = nextWith s (
       let l := { r with steps := r.steps + 1 } :: rest
       { s.dev with mem := { s.dev.mem with retrains := l } })) ∧
     (15 ≤ r.steps → exec (.retrainStep h c) s = nextWith s (
       let l := (h.val, c.val, s.dev.tim.stride) :: s.dev.mem.lastRetrain.filter fun e => !(e.1 == h.val && e.2.1 == c.val)
       let d := { s.dev with mem := { s.dev.mem with retrains := rest, lastRetrain := l } }
       raise (setF (putB d (MEM + 0x200 + 4 * h) 9 false) (MEM + 0x200 + 4 * h) 12 4 0) (evDev 0xC01 0 [(1, h), (1, c), (1, 1)]))))) ∧
  (∀ (s : State) (q : Fin 4) (n : Fin 32) (asks : List PadAsk), quarterUp s.dev q = true → halted s.dev = false → bankLocked s.dev q n = false →
    exec (.paddockRound q n asks) s = nextWith s (
      let d := asks.foldl (fun d a => padAsk d q n a) (putBank s.dev { getBank s.dev q n with owner := none })
      let b := getBank d q n
      let c := padRound b
      let beats := match c.owner with | some w => ((b.reqs.find? fun r => r.master == w).map PadReq.beats).getD 1 | none => 0
      putBank (maxReg d (PAD q + 0x100 + 4 * n) beats) (if beats ≤ 1 then { c with owner := none } else c))) ∧
  (∀ (b : PadBank) (w : Nat), b.owner = none → (padRound b).owner = some w →
    ∃ r ∈ b.reqs, r.master = w ∧ ((∃ x ∈ b.reqs, x.trump = false) → b.grants < quota b ∨ r.trump = false) ∧
      (∀ x ∈ b.reqs, (b.grants < quota b ∨ x.trump = false) → x.prio ≤ r.prio ∧
        (x.master ≠ w → { x with prio := min 15 (x.prio + 1) } ∈ (padRound b).reqs)) ∧
      ∀ x ∈ (padRound b).reqs, x.master ≠ w) ∧
  (∀ (s : State) (q : Fin 4) (n : Fin 32), quarterUp s.dev q = true → halted s.dev = false →
    ∃ d, exec (.quotaWindow q n) s = nextWith s (putBank d { getBank s.dev q n with grants := 0, masked := false, ctrl := reg d (PAD q) }) ∧
      d = if (getBank s.dev q n).masked then cnt s.dev (PAD q + 0x3C) 1 else s.dev) ∧
  (∀ (s : State) (u : UnitId) (host : List Byte) (fail padBad : Option Nat) (poisoned : Bool) (cycles st : Nat) (c : Card) (r : DmaRun)
    (ds : List DmaDesc) (x : DmaDesc), channelCard s.dev u = some (c, r, ds, st) → ds[r.next]? = some x →
    (let m := moveDesc s.dev { unit := u, fn := c.fn, quarter := u.quarter, src := x.src, host := host, hostFail := fail, poisoned := poisoned, padUe := padBad } x
     let a := DMA u.quarter u.index
     let r' := { r with done := r.done + 1, next := r.next + 1 }
     m.2.2 = none → exec (.dmaDescriptor u host fail poisoned padBad cycles) s = nextWith s (
       let d := cnt (cnt (cnt m.1 (a + 0x10) m.2.1) (a + 0x1C) cycles) (a + 0x14) 1
       let runs := r' :: d.dma.runs.filter fun y => !(y.unit == u)
       let d := { d with dma := { d.dma with runs := runs } }
       if r.next + 1 < ds.length then d
       else putCard (if st = 0 then d else emitOut d (.hostWrite c.fn st (chainStatus r' 0))) { c with done := true }))) ∧
  (∀ (d : Dev) (e : DmaEnv) (x : DmaDesc), x.mode = 1 → (moveDesc d e x).2 = ((elements x).length * x.dw, none)) ∧
  (∀ (x : DmaDesc) (bs : List Byte), (convert x bs).length = x.dw ∧ (x.sx = false → bs.length ≤ x.dw → leNat (convert x bs) = leNat bs))

/-! ### Frames -/

/-- A command of a command ring, its acceptance and its completion and what completes at once behind it included, changes no part of the
device but those that `mayChange` names for it: NOP, for one, changes registers, the host interface and the state of
power-up only, and no command of a ring but UNIT_STOP, QUARTER_FENCE and KERNEL_LOAD reaches Paddock; the
queue of commands and the variant stay. -/
def Obligations.FramesOfRingCommands : Prop :=
  ∀ (i : Instr) (s : State), (ringOf i).isSome → OnlyPieces i s (mayChange i)

/-- An instruction of a media core changes no part but those that `mayChange` names for it. One that is not the last of its bundle, in a
bundle whose fetch is sound, changes nothing but the cores and what `changesInBundle` names beside them: nothing is stored and no
signal is sent before the bundle ends. -/
def Obligations.FramesOfCoreInstructions : Prop :=
  (∀ (i : Instr) (s : State), coreInstr i = true → OnlyPieces i s (mayChange i)) ∧
  ∀ (i : Instr) (s : State) (x : Issue), issueOf i = some x → x.last = false →
    ((findCore s.dev x.core.val).issuing = true ∨ badFetch s.dev (findCore s.dev x.core.val) = false) → OnlyPieces i s (changesInBundle i)

/-- A command that comes neither from a ring nor from a media core's program (an access to a register, a packet, a frame, a card in
service, a time, a reading, a fault, a boundary) changes no part of the device but those that `mayChange` names for it, with every
rule that follows from it at once; the queue of commands and the variant stay. -/
def Obligations.FramesOfTheOtherCommands : Prop :=
  ∀ (i : Instr) (s : State), ringOf i = none → coreInstr i = false → OnlyPieces i s (mayChange i)
end

