-- ==== Sys2Proof/Laws/Sparse.lean ====
section
/-! SUPPORT. Laws of sparse maps: what a read finds after a write, and that every operation keeps the canonical form. -/
namespace Sys2Proof.Machine

variable {w : Nat}

/-- `a` lies above every address that `lo` excludes. -/
def aboveLo (lo : Option Nat) (a : Nat) : Prop := ∀ l, lo = some l → l < a

theorem spWfFrom_cons {lo : Option Nat} {a : Nat} {v : BitVec w} {m : Sparse w} :
    spWfFrom lo ((a, v) :: m) = true ↔ aboveLo lo a ∧ v ≠ 0 ∧ spWfFrom (some a) m = true := by
  cases lo <;> simp [spWfFrom, aboveLo, and_assoc]

theorem spWfFrom_weaken {lo lo' : Option Nat} {m : Sparse w} (h : spWfFrom lo m = true)
    (le : ∀ a, aboveLo lo a → aboveLo lo' a) : spWfFrom lo' m = true := by
  cases m with
  | nil => rfl
  | cons p m =>
    obtain ⟨a, v⟩ := p
    rw [spWfFrom_cons] at *
    exact ⟨le _ h.1, h.2⟩

theorem spWfFrom_put {lo : Option Nat} {m : Sparse w} {a : Nat} {v : BitVec w} (h : spWfFrom lo m = true) (ha : aboveLo lo a) :
    spWfFrom lo (spPut m a v) = true := by
  induction m generalizing lo with
  | nil =>
    unfold spPut
    split
    · rfl
    · rw [spWfFrom_cons]; exact ⟨ha, ‹_›, rfl⟩
  | cons p m ih =>
    obtain ⟨b, u⟩ := p
    have hc := spWfFrom_cons.1 h
    unfold spPut
    split
    · split
      · exact h
      · rw [spWfFrom_cons, spWfFrom_cons]
        exact ⟨ha, ‹_›, fun l hl => by cases hl; omega, hc.2⟩
    · split
      · subst_vars
        split
        · exact spWfFrom_weaken hc.2.2 fun c hcb l hl => Nat.lt_trans (hc.1 l hl) (hcb _ rfl)
        · rw [spWfFrom_cons]; exact ⟨ha, ‹_›, hc.2.2⟩
      · rw [spWfFrom_cons]
        exact ⟨hc.1, hc.2.1, ih hc.2.2 fun l hl => by cases hl; omega⟩

/-- A write keeps the canonical form. -/
theorem spWf_put {m : Sparse w} (h : spWf m = true) (a : Nat) (v : BitVec w) : spWf (spPut m a v) = true :=
  spWfFrom_put h fun _ h => by cases h

theorem spWf_write {m : Sparse 8} (h : spWf m = true) (a : Nat) (bs : List Byte) : spWf (spWrite m a bs) = true := by
  induction bs generalizing m a with
  | nil => exact h
  | cons b bs ih => exact ih (spWf_put h a b) _

theorem spWfFrom_filter {lo : Option Nat} {m : Sparse w} (h : spWfFrom lo m = true) (p : Nat × BitVec w → Bool) :
    spWfFrom lo (m.filter p) = true := by
  induction m generalizing lo with
  | nil => rfl
  | cons q m ih =>
    obtain ⟨a, v⟩ := q
    have hc := spWfFrom_cons.1 h
    rw [List.filter_cons]
    split
    · rw [spWfFrom_cons]; exact ⟨hc.1, hc.2.1, ih hc.2.2⟩
    · exact ih (spWfFrom_weaken hc.2.2 fun c hcb l hl => Nat.lt_trans (hc.1 l hl) (hcb _ rfl))

/-- Clearing cells keeps the canonical form. -/
theorem spWf_filter {m : Sparse w} (h : spWf m = true) (p : Nat × BitVec w → Bool) : spWf (m.filter p) = true := spWfFrom_filter h p
theorem spWf_clear {m : Sparse w} (h : spWf m = true) (p : Nat → Bool) : spWf (spClear m p) = true := spWf_filter h _
theorem spWf_nil : spWf ([] : Sparse w) = true := rfl

theorem spGet_below {lo : Option Nat} {m : Sparse w} (h : spWfFrom lo m = true) {a : Nat} (ha : ¬ aboveLo lo a) : spGet m a = 0 := by
  induction m generalizing lo with
  | nil => rfl
  | cons q m ih =>
    obtain ⟨b, u⟩ := q
    have hc := spWfFrom_cons.1 h
    unfold spGet
    split
    · subst_vars; exact absurd hc.1 ha
    · refine ih hc.2.2 fun hb => ha fun l hl => ?_
      exact Nat.lt_trans (hc.1 l hl) (hb _ rfl)

theorem spGet_cons (k : Nat) (u : BitVec w) (m : Sparse w) (b : Nat) : spGet ((k, u) :: m) b = if b = k then u else spGet m b := rfl

theorem spGet_put_from {lo : Option Nat} {m : Sparse w} (h : spWfFrom lo m = true) (a b : Nat) (v : BitVec w) :
    spGet (spPut m a v) b = if b = a then v else spGet m b := by
  induction m generalizing lo with
  | nil =>
    unfold spPut
    split
    · subst_vars; simp [spGet]
    · rfl
  | cons q m ih =>
    obtain ⟨k, u⟩ := q
    have hc := spWfFrom_cons.1 h
    unfold spPut
    split
    · split
      · subst_vars
        split
        · subst_vars
          exact spGet_below (lo := some b) (by rw [spWfFrom_cons]; exact ⟨fun l hl => by cases hl; omega, hc.2⟩)
            fun x => Nat.lt_irrefl _ (x _ rfl)
        · rfl
      · rfl
    · split
      · subst_vars
        split
        · subst_vars
          rw [spGet_cons]
          split
          · subst_vars; exact spGet_below hc.2.2 fun x => Nat.lt_irrefl _ (x _ rfl)
          · rfl
        · rw [spGet_cons, spGet_cons]; split <;> rfl
      · rw [spGet_cons, spGet_cons, ih hc.2.2]
        split
        · subst_vars; rw [if_neg (fun x => by subst x; contradiction)]
        · rfl

/-- A read after a write: the value written, and every other cell as before. -/
theorem spGet_put {m : Sparse w} (h : spWf m = true) (a b : Nat) (v : BitVec w) :
    spGet (spPut m a v) b = if b = a then v else spGet m b := spGet_put_from h a b v

theorem spGet_write {m : Sparse 8} (h : spWf m = true) (a : Nat) (bs : List Byte) (b : Nat) :
    spGet (spWrite m a bs) b = if a ≤ b ∧ b < a + bs.length then (bs[b - a]?).getD 0 else spGet m b := by
  induction bs generalizing m a with
  | nil => rw [if_neg (by simp only [List.length_nil]; omega)]; rfl
  | cons x bs ih =>
    rw [spWrite, ih (spWf_put h a x), spGet_put h]
    by_cases h1 : b = a
    · subst h1
      rw [if_neg (by omega), if_pos rfl, if_pos (by simp)]
      simp
    · by_cases h2 : a + 1 ≤ b ∧ b < a + 1 + bs.length
      · have h3 : a ≤ b ∧ b < a + (x :: bs).length := by simp; omega
        have h4 : b - a = (b - (a + 1)) + 1 := by omega
        rw [if_pos h2, if_pos h3, h4]; rfl
      · have h3 : ¬ (a ≤ b ∧ b < a + (x :: bs).length) := by simp; omega
        rw [if_neg h2, if_neg h1, if_neg h3]

/-- Reads outside the bytes written are as before. -/
theorem spGet_write_other {m : Sparse 8} (h : spWf m = true) (a : Nat) (bs : List Byte) (b : Nat) (hb : b < a ∨ a + bs.length ≤ b) :
    spGet (spWrite m a bs) b = spGet m b := by
  rw [spGet_write h]
  split
  · omega
  · rfl

end Sys2Proof.Machine
end

