-- ==== Sys2Proof/Laws/Frame.lean ====
section
/-! SUPPORT. What an operation may write: `Only e a b` says that `b` comes from `a` by changes to the parts of the device that `e`
names, that the output log only grows, and that the fuses, the canonical form of every sparse map, the ledger equation and HALT-SAFE are kept. The files
Frame*.lean give one lemma per operation. -/
namespace Sys2Proof.Machine

/-- `b` comes from `a` by changes to the parts that `e` names. -/
structure Only (e : Piece → Prop) (a b : Dev) : Prop where
  variant : b.variant = a.variant
  regs : ¬ e .regs → b.regs = a.regs
  regsB : ¬ e .regsB → b.regsB = a.regsB
  latch : ¬ e .latch → b.latch = a.latch
  freeCtr : ¬ e .freeCtr → b.freeCtr = a.freeCtr
  out : ¬ e .out → b.out = a.out
  stride : ¬ e .stride → b.tim.stride = a.tim.stride
  hif : ¬ e .hif → b.hif = a.hif
  evt : ¬ e .evt → b.evt = a.evt
  ldg : ¬ e .ldg → b.ldg = a.ldg
  obj : ¬ e .obj → b.obj = a.obj
  dlr : ¬ e .dlr → b.dlr = a.dlr
  cores : ¬ e .cores → b.cores = a.cores
  mac : ¬ e .mac → b.mac = a.mac
  pke : ¬ e .pke → b.pke = a.pke
  sec : ¬ e .sec → b.sec = a.sec
  brd : ¬ e .brd → b.brd = a.brd
  hbm : ¬ e .hbm → b.mem.hbm = a.mem.hbm
  pad : ¬ e .pad → b.mem.pad = a.mem.pad
  local_ : ¬ e .local_ → b.mem.local_ = a.mem.local_
  dma : ¬ e .dma → b.dma = a.dma
  fwd : ¬ e .fwd → b.fwd = a.fwd
  aud : ¬ e .aud → b.aud = a.aud
  vid : ¬ e .vid → b.vid = a.vid
  tack : ¬ e .tack → b.sys.tack = a.sys.tack
  mode : ¬ e .mode → b.sys.mode = a.sys.mode
  tim : ¬ e .tim → timRest b = timRest a
  mem : ¬ e .mem → memRest b = memRest a
  sys : ¬ e .sys → sysRest b = sysRest a
  grows : a.out <+: b.out
  halt : ¬ e .rst → a.sys.mode = .haltSafe → b.sys.mode = .haltSafe
  fuse : FusesKept (fuses a) (fuses b)
  wf : Memory.wf a = true → Memory.wf b = true
  sound : ledgersSound a = true → ledgersSound b = true

variable {e : Piece → Prop} {a b c : Dev}

theorem FusesKept.refl (f : Fuses) : FusesKept f f := by simp [FusesKept]
theorem FusesKept.trans {f g h : Fuses} (x : FusesKept f g) (y : FusesKept g h) : FusesKept f h := by
  obtain ⟨x1, x2, x3, x4⟩ := x
  obtain ⟨y1, y2, y3, y4⟩ := y
  refine ⟨fun k => ?_, fun k => y2 (x2 k), fun k => ?_, y4.trans x4⟩
  · have := x1 k
    have := y1 this.2
    simp_all
  · have := x3 k
    have := y3 (x2 k)
    simp_all

theorem Only.refl (a : Dev) : Only e a a := by
  constructor <;> first | exact FusesKept.refl _ | exact List.prefix_rfl | (intros; first | rfl | assumption)

theorem Only.trans (h1 : Only e a b) (h2 : Only e b c) : Only e a c where
  variant := h2.variant.trans h1.variant
  regs := fun x => (h2.regs x).trans (h1.regs x)
  regsB := fun x => (h2.regsB x).trans (h1.regsB x)
  latch := fun x => (h2.latch x).trans (h1.latch x)
  freeCtr := fun x => (h2.freeCtr x).trans (h1.freeCtr x)
  out := fun x => (h2.out x).trans (h1.out x)
  stride := fun x => (h2.stride x).trans (h1.stride x)
  hif := fun x => (h2.hif x).trans (h1.hif x)
  evt := fun x => (h2.evt x).trans (h1.evt x)
  ldg := fun x => (h2.ldg x).trans (h1.ldg x)
  obj := fun x => (h2.obj x).trans (h1.obj x)
  dlr := fun x => (h2.dlr x).trans (h1.dlr x)
  cores := fun x => (h2.cores x).trans (h1.cores x)
  mac := fun x => (h2.mac x).trans (h1.mac x)
  pke := fun x => (h2.pke x).trans (h1.pke x)
  sec := fun x => (h2.sec x).trans (h1.sec x)
  brd := fun x => (h2.brd x).trans (h1.brd x)
  hbm := fun x => (h2.hbm x).trans (h1.hbm x)
  pad := fun x => (h2.pad x).trans (h1.pad x)
  local_ := fun x => (h2.local_ x).trans (h1.local_ x)
  dma := fun x => (h2.dma x).trans (h1.dma x)
  fwd := fun x => (h2.fwd x).trans (h1.fwd x)
  aud := fun x => (h2.aud x).trans (h1.aud x)
  vid := fun x => (h2.vid x).trans (h1.vid x)
  tack := fun x => (h2.tack x).trans (h1.tack x)
  mode := fun x => (h2.mode x).trans (h1.mode x)
  tim := fun x => (h2.tim x).trans (h1.tim x)
  mem := fun x => (h2.mem x).trans (h1.mem x)
  sys := fun x => (h2.sys x).trans (h1.sys x)
  grows := h1.grows.trans h2.grows
  halt := fun x y => h2.halt x (h1.halt x y)
  fuse := h1.fuse.trans h2.fuse
  wf := fun x => h2.wf (h1.wf x)
  sound := fun x => h2.sound (h1.sound x)

/-- More parts may be written. -/
theorem Only.mono {e' : Piece → Prop} (h : Only e a b) (le : ∀ f, e f → e' f) : Only e' a b where
  variant := h.variant
  regs := fun x => h.regs fun y => x (le _ y)
  regsB := fun x => h.regsB fun y => x (le _ y)
  latch := fun x => h.latch fun y => x (le _ y)
  freeCtr := fun x => h.freeCtr fun y => x (le _ y)
  out := fun x => h.out fun y => x (le _ y)
  stride := fun x => h.stride fun y => x (le _ y)
  hif := fun x => h.hif fun y => x (le _ y)
  evt := fun x => h.evt fun y => x (le _ y)
  ldg := fun x => h.ldg fun y => x (le _ y)
  obj := fun x => h.obj fun y => x (le _ y)
  dlr := fun x => h.dlr fun y => x (le _ y)
  cores := fun x => h.cores fun y => x (le _ y)
  mac := fun x => h.mac fun y => x (le _ y)
  pke := fun x => h.pke fun y => x (le _ y)
  sec := fun x => h.sec fun y => x (le _ y)
  brd := fun x => h.brd fun y => x (le _ y)
  hbm := fun x => h.hbm fun y => x (le _ y)
  pad := fun x => h.pad fun y => x (le _ y)
  local_ := fun x => h.local_ fun y => x (le _ y)
  dma := fun x => h.dma fun y => x (le _ y)
  fwd := fun x => h.fwd fun y => x (le _ y)
  aud := fun x => h.aud fun y => x (le _ y)
  vid := fun x => h.vid fun y => x (le _ y)
  tack := fun x => h.tack fun y => x (le _ y)
  mode := fun x => h.mode fun y => x (le _ y)
  tim := fun x => h.tim fun y => x (le _ y)
  mem := fun x => h.mem fun y => x (le _ y)
  sys := fun x => h.sys fun y => x (le _ y)
  grows := h.grows
  halt := fun x => h.halt fun y => x (le _ y)
  fuse := h.fuse
  wf := h.wf
  sound := h.sound

theorem Only.freeCtrUpd (p : e .freeCtr) (h : Only e a b) (x) : Only e a { b with freeCtr := x } :=
  h.trans (by constructor <;> first | exact FusesKept.refl _ | exact List.prefix_rfl | (intros; first | rfl | assumption | exact absurd p ‹_›))
theorem Only.outUpd (p : e .out) (h : Only e a b) (x) (q : b.out <+: x) : Only e a { b with out := x } :=
  h.trans (by constructor <;> first | exact FusesKept.refl _ | exact q | (intros; first | rfl | assumption | exact absurd p ‹_›))
theorem Only.hifUpd (p : e .hif) (h : Only e a b) (x) : Only e a { b with hif := x } :=
  h.trans (by constructor <;> first | exact FusesKept.refl _ | exact List.prefix_rfl | (intros; first | rfl | assumption | exact absurd p ‹_›))
theorem Only.evtUpd (p : e .evt) (h : Only e a b) (x) : Only e a { b with evt := x } :=
  h.trans (by constructor <;> first | exact FusesKept.refl _ | exact List.prefix_rfl | (intros; first | rfl | assumption | exact absurd p ‹_›))
theorem Only.objUpd (p : e .obj) (h : Only e a b) (x) : Only e a { b with obj := x } :=
  h.trans (by constructor <;> first | exact FusesKept.refl _ | exact List.prefix_rfl | (intros; first | rfl | assumption | exact absurd p ‹_›))
theorem Only.dlrUpd (p : e .dlr) (h : Only e a b) (x) : Only e a { b with dlr := x } :=
  h.trans (by constructor <;> first | exact FusesKept.refl _ | exact List.prefix_rfl | (intros; first | rfl | assumption | exact absurd p ‹_›))
theorem Only.coresUpd (p : e .cores) (h : Only e a b) (x) : Only e a { b with cores := x } :=
  h.trans (by constructor <;> first | exact FusesKept.refl _ | exact List.prefix_rfl | (intros; first | rfl | assumption | exact absurd p ‹_›))
theorem Only.macUpd (p : e .mac) (h : Only e a b) (x) : Only e a { b with mac := x } :=
  h.trans (by constructor <;> first | exact FusesKept.refl _ | exact List.prefix_rfl | (intros; first | rfl | assumption | exact absurd p ‹_›))
theorem Only.secUpd (p : e .sec) (h : Only e a b) (x) : Only e a { b with sec := x } :=
  h.trans (by constructor <;> first | exact FusesKept.refl _ | exact List.prefix_rfl | (intros; first | rfl | assumption | exact absurd p ‹_›))
theorem Only.brdUpd (p : e .brd) (h : Only e a b) (x) : Only e a { b with brd := x } :=
  h.trans (by constructor <;> first | exact FusesKept.refl _ | exact List.prefix_rfl | (intros; first | rfl | assumption | exact absurd p ‹_›))
theorem Only.dmaUpd (p : e .dma) (h : Only e a b) (x) : Only e a { b with dma := x } :=
  h.trans (by constructor <;> first | exact FusesKept.refl _ | exact List.prefix_rfl | (intros; first | rfl | assumption | exact absurd p ‹_›))
theorem Only.fwdUpd (p : e .fwd) (h : Only e a b) (x) : Only e a { b with fwd := x } :=
  h.trans (by constructor <;> first | exact FusesKept.refl _ | exact List.prefix_rfl | (intros; first | rfl | assumption | exact absurd p ‹_›))
theorem Only.audUpd (p : e .aud) (h : Only e a b) (x) : Only e a { b with aud := x } :=
  h.trans (by constructor <;> first | exact FusesKept.refl _ | exact List.prefix_rfl | (intros; first | rfl | assumption | exact absurd p ‹_›))
theorem Only.vidUpd (p : e .vid) (h : Only e a b) (x) : Only e a { b with vid := x } :=
  h.trans (by constructor <;> first | exact FusesKept.refl _ | exact List.prefix_rfl | (intros; first | rfl | assumption | exact absurd p ‹_›))
theorem Only.timUpd (p : e .tim) (h : Only e a b) (x) (q : x.stride = b.tim.stride) : Only e a { b with tim := x } :=
  h.trans (by constructor <;> first | exact FusesKept.refl _ | exact List.prefix_rfl | (intros; first | rfl | assumption | exact absurd p ‹_› | exact q))
theorem Only.strideUpd (p : e .stride) (q : e .tim) (h : Only e a b) (x) : Only e a { b with tim := x } :=
  h.trans (by constructor <;> first | exact FusesKept.refl _ | exact List.prefix_rfl | (intros; first | rfl | assumption | exact absurd p ‹_› | exact absurd q ‹_›))
theorem Only.memUpd (p : e .mem) (h : Only e a b) (x) (q1 : x.hbm = b.mem.hbm) (q2 : x.pad = b.mem.pad) (q3 : x.local_ = b.mem.local_) :
    Only e a { b with mem := x } :=
  h.trans (by
    constructor <;> first
      | exact FusesKept.refl _
      | exact List.prefix_rfl
      | (intros; first | rfl | assumption | exact absurd p ‹_› | exact q1 | exact q2 | exact q3 | (simp only [Memory.wf, q1, q2, q3] at *; assumption)))
theorem Only.sysUpd (p : e .sys) (h : Only e a b) (x) (q1 : x.tack = b.sys.tack) (q2 : x.mode = b.sys.mode)
    (q3 : x.rootKey = b.sys.rootKey) (q4 : x.keyProg = b.sys.keyProg) (q5 : x.keyLock = b.sys.keyLock) (q6 : x.rbFloor = b.sys.rbFloor) :
    Only e a { b with sys := x } :=
  h.trans (by
    constructor <;> first
      | (simp only [fuses, q3, q4, q5, q6]; exact FusesKept.refl _)
      | exact List.prefix_rfl
      | (intros; first | rfl | assumption | exact absurd p ‹_› | exact q1 | exact q2 | (simp only [q2]; assumption) | (simp only [Memory.wf, q1] at *; assumption)))
theorem Only.pkeUpd (p : e .pke) (h : Only e a b) (x) (q : x.prog = b.pke.prog) : Only e a { b with pke := x } :=
  h.trans (by
    constructor <;> first
      | exact FusesKept.refl _
      | exact List.prefix_rfl
      | (intros; first | rfl | assumption | exact absurd p ‹_› | (simp only [Memory.wf, q] at *; assumption)))
theorem Only.ldgUpd (p : e .ldg) (h : Only e a b) (x) (q : x.cur = b.ldg.cur) : Only e a { b with ldg := x } :=
  h.trans (by
    constructor <;> first
      | exact FusesKept.refl _
      | exact List.prefix_rfl
      | (intros; first | rfl | assumption | exact absurd p ‹_› | (simp only [ledgersSound, q] at *; assumption)))

/-- A record update of several parts at once. -/
theorem Only.upd (h : Only e a b) {c : Dev} (v : c.variant = b.variant)
    (q_freeCtr : e .freeCtr ∨ c.freeCtr = b.freeCtr)
    (q_out : c.out = b.out)
    (q_hif : e .hif ∨ c.hif = b.hif)
    (q_evt : e .evt ∨ c.evt = b.evt)
    (q_obj : e .obj ∨ c.obj = b.obj)
    (q_dlr : e .dlr ∨ c.dlr = b.dlr)
    (q_cores : e .cores ∨ c.cores = b.cores)
    (q_mac : e .mac ∨ c.mac = b.mac)
    (q_sec : e .sec ∨ c.sec = b.sec)
    (q_brd : e .brd ∨ c.brd = b.brd)
    (q_dma : e .dma ∨ c.dma = b.dma)
    (q_fwd : e .fwd ∨ c.fwd = b.fwd)
    (q_aud : e .aud ∨ c.aud = b.aud)
    (q_vid : e .vid ∨ c.vid = b.vid)
    (q_regs : c.regs = b.regs) (q_regsB : c.regsB = b.regsB) (q_latch : c.latch = b.latch)
    (q_tim : c.tim = b.tim ∨ e .tim ∧ c.tim.stride = b.tim.stride) (q_ldg : c.ldg = b.ldg ∨ e .ldg ∧ c.ldg.cur = b.ldg.cur)
    (q_pke : c.pke = b.pke ∨ e .pke ∧ c.pke.prog = b.pke.prog)
    (q_mem : c.mem = b.mem ∨ e .mem ∧ c.mem.hbm = b.mem.hbm ∧ c.mem.pad = b.mem.pad ∧ c.mem.local_ = b.mem.local_)
    (q_sys : c.sys = b.sys ∨ e .sys ∧ c.sys.tack = b.sys.tack ∧ c.sys.mode = b.sys.mode ∧ c.sys.rootKey = b.sys.rootKey ∧
      c.sys.keyProg = b.sys.keyProg ∧ c.sys.keyLock = b.sys.keyLock ∧ c.sys.rbFloor = b.sys.rbFloor) : Only e a c := by
  have y1 : c.tim.stride = b.tim.stride := by rcases q_tim with q | q <;> simp [q]
  have y2 : c.ldg.cur = b.ldg.cur := by rcases q_ldg with q | q <;> simp [q]
  have y3 : c.pke.prog = b.pke.prog := by rcases q_pke with q | q <;> simp [q]
  have y4 : c.mem.hbm = b.mem.hbm ∧ c.mem.pad = b.mem.pad ∧ c.mem.local_ = b.mem.local_ := by rcases q_mem with q | q <;> simp [q]
  have y5 : c.sys.tack = b.sys.tack ∧ c.sys.mode = b.sys.mode ∧ c.sys.rootKey = b.sys.rootKey ∧
      c.sys.keyProg = b.sys.keyProg ∧ c.sys.keyLock = b.sys.keyLock ∧ c.sys.rbFloor = b.sys.rbFloor := by
    rcases q_sys with q | q
    · simp [q]
    · exact q.2
  obtain ⟨y41, y42, y43⟩ := y4
  obtain ⟨y51, y52, y53, y54, y55, y56⟩ := y5
  refine h.trans ?_
  constructor
  case variant => exact v
  case fuse => simp only [fuses, y53, y54, y55, y56]; exact FusesKept.refl _
  case halt => intro _ x; rw [y52]; exact x
  case wf => simp only [Memory.wf, q_regs, q_regsB, q_latch, y41, y42, y43, y51, y3]; exact id
  case sound => simp only [ledgersSound, y2]; exact id
  case tim => intro x; rcases q_tim with q | q; simp [timRest, q]; exact absurd q.1 x
  case ldg => intro x; rcases q_ldg with q | q; exact q; exact absurd q.1 x
  case pke => intro x; rcases q_pke with q | q; exact q; exact absurd q.1 x
  case mem => intro x; rcases q_mem with q | q; simp [memRest, q]; exact absurd q.1 x
  case sys => intro x; rcases q_sys with q | q; simp [sysRest, q]; exact absurd q.1 x
  case regs => exact fun _ => q_regs
  case regsB => exact fun _ => q_regsB
  case latch => exact fun _ => q_latch
  case stride => exact fun _ => y1
  case hbm => exact fun _ => y41
  case pad => exact fun _ => y42
  case local_ => exact fun _ => y43
  case tack => exact fun _ => y51
  case mode => exact fun _ => y52
  case freeCtr => exact fun x => q_freeCtr.resolve_left x
  case out => exact fun _ => q_out
  case grows => exact (congrArg (fun z => _ <+: z) q_out).mpr List.prefix_rfl
  case hif => exact fun x => q_hif.resolve_left x
  case evt => exact fun x => q_evt.resolve_left x
  case obj => exact fun x => q_obj.resolve_left x
  case dlr => exact fun x => q_dlr.resolve_left x
  case cores => exact fun x => q_cores.resolve_left x
  case mac => exact fun x => q_mac.resolve_left x
  case sec => exact fun x => q_sec.resolve_left x
  case brd => exact fun x => q_brd.resolve_left x
  case dma => exact fun x => q_dma.resolve_left x
  case fwd => exact fun x => q_fwd.resolve_left x
  case aud => exact fun x => q_aud.resolve_left x
  case vid => exact fun x => q_vid.resolve_left x

/-- A fold whose steps are each covered. -/
theorem Only.foldl {α : Type} {f : Dev → α → Dev} {l : List α} (h : Only e a b) (hf : ∀ d x, Only e a d → Only e a (f d x)) :
    Only e a (l.foldl f b) := by
  induction l generalizing b with
  | nil => exact h
  | cons x xs ih => exact ih (hf _ _ h)
/-- A fold over a pair whose first component is the device. -/
theorem Only.foldlFst {α β : Type} {f : Dev × β → α → Dev × β} {l : List α} {p : Dev × β} (h : Only e a p.1)
    (hf : ∀ q x, Only e a q.1 → Only e a (f q x).1) : Only e a (l.foldl f p).1 := by
  induction l generalizing p with
  | nil => exact h
  | cons x xs ih => exact ih (hf _ _ h)

/-- What the last part of a command's meaning may write: a failure writes nothing. -/
def ActOnly (e : Piece → Prop) (a : Dev) : Except Fail Act → Prop
  | .error _ => True
  | .ok (.done d _) => Only e a d
  | .ok (.wait d) => Only e a d
  | .ok (.stay d) => Only e a d
theorem ActOnly.bind {α : Type} {x : Except Fail α} {f : α → Except Fail Act} (h : ∀ y, x = .ok y → ActOnly e a (f y)) :
    ActOnly e a (x >>= f) := by
  cases x with
  | error z => trivial
  | ok y => exact h y rfl

/-- The canonical form, part by part. -/
theorem Memory.wf_parts {d : Dev} : Memory.wf d = true ↔
    spWf d.regs = true ∧ spWf d.regsB = true ∧ spWf d.latch = true ∧ spWf d.mem.hbm = true ∧ d.mem.pad.all spWf = true ∧
      (d.mem.local_.all fun x => spWf x.2) = true ∧ spWf d.sys.tack = true ∧ d.pke.prog.all spWf = true := by
  simp only [Memory.wf, Bool.and_eq_true, and_assoc]

theorem Only.regsUpd (p : e .regs) (h : Only e a b) (x) (q : spWf b.regs = true → spWf x = true) : Only e a { b with regs := x } := by
  refine h.trans ?_
  constructor
  case wf => simp only [Memory.wf_parts]; rintro ⟨w1, w2, w3, w4, w5, w6, w7, w8⟩; exact ⟨q w1, w2, w3, w4, w5, w6, w7, w8⟩
  all_goals first | exact FusesKept.refl _ | exact List.prefix_rfl | (intros; first | rfl | assumption | exact absurd p ‹_›)
theorem Only.boundaryRegs (p : e .regsB) (h : Only e a b) : Only e a { b with regsB := b.regs } := by
  refine h.trans ?_
  constructor
  case wf => simp only [Memory.wf_parts]; rintro ⟨w1, w2, w3, w4, w5, w6, w7, w8⟩; exact ⟨w1, w1, w3, w4, w5, w6, w7, w8⟩
  all_goals first | exact FusesKept.refl _ | exact List.prefix_rfl | (intros; first | rfl | assumption | exact absurd p ‹_›)
theorem Only.latchUpd (p : e .latch) (h : Only e a b) (x) (q : spWf b.latch = true → spWf x = true) : Only e a { b with latch := x } := by
  refine h.trans ?_
  constructor
  case wf => simp only [Memory.wf_parts]; rintro ⟨w1, w2, w3, w4, w5, w6, w7, w8⟩; exact ⟨w1, w2, q w3, w4, w5, w6, w7, w8⟩
  all_goals first | exact FusesKept.refl _ | exact List.prefix_rfl | (intros; first | rfl | assumption | exact absurd p ‹_›)
theorem Only.hbmUpd (p : e .hbm) (r : e .mem) (h : Only e a b) (x) (q : spWf b.mem.hbm = true → spWf x.hbm = true)
    (q1 : x.pad = b.mem.pad) (q2 : x.local_ = b.mem.local_) : Only e a { b with mem := x } := by
  refine h.trans ?_
  constructor
  case wf => simp only [Memory.wf_parts, q1, q2]; rintro ⟨w1, w2, w3, w4, w5, w6, w7, w8⟩; exact ⟨w1, w2, w3, q w4, w5, w6, w7, w8⟩
  all_goals first | exact FusesKept.refl _ | exact List.prefix_rfl | (intros; first | rfl | assumption | exact absurd p ‹_› | exact absurd r ‹_›)
theorem Only.padUpd (p : e .pad) (h : Only e a b) (x) (q : b.mem.pad.all spWf = true → x.all spWf = true) :
    Only e a { b with mem := { b.mem with pad := x } } := by
  refine h.trans ?_
  constructor
  case wf => simp only [Memory.wf_parts]; rintro ⟨w1, w2, w3, w4, w5, w6, w7, w8⟩; exact ⟨w1, w2, w3, w4, q w5, w6, w7, w8⟩
  all_goals first | exact FusesKept.refl _ | exact List.prefix_rfl | (intros; first | rfl | assumption | exact absurd p ‹_›)
theorem Only.localUpd (p : e .local_) (r : e .mem) (h : Only e a b) (x)
    (q : (b.mem.local_.all fun y => spWf y.2) = true → (x.local_.all fun y => spWf y.2) = true)
    (q1 : x.hbm = b.mem.hbm) (q2 : x.pad = b.mem.pad) : Only e a { b with mem := x } := by
  refine h.trans ?_
  constructor
  case wf => simp only [Memory.wf_parts, q1, q2]; rintro ⟨w1, w2, w3, w4, w5, w6, w7, w8⟩; exact ⟨w1, w2, w3, w4, w5, q w6, w7, w8⟩
  all_goals first | exact FusesKept.refl _ | exact List.prefix_rfl | (intros; first | rfl | assumption | exact absurd p ‹_› | exact absurd r ‹_›)
theorem Only.localOnlyUpd (p : e .local_) (h : Only e a b) (x)
    (q : (b.mem.local_.all fun y => spWf y.2) = true → (x.all fun y => spWf y.2) = true) :
    Only e a { b with mem := { b.mem with local_ := x } } := by
  refine h.trans ?_
  constructor
  case wf => simp only [Memory.wf_parts]; rintro ⟨w1, w2, w3, w4, w5, w6, w7, w8⟩; exact ⟨w1, w2, w3, w4, w5, q w6, w7, w8⟩
  all_goals first | exact FusesKept.refl _ | exact List.prefix_rfl | (intros; first | rfl | assumption | exact absurd p ‹_›)
theorem Only.tackUpd (p : e .tack) (h : Only e a b) (x) (q : spWf b.sys.tack = true → spWf x = true) :
    Only e a { b with sys := { b.sys with tack := x } } := by
  refine h.trans ?_
  constructor
  case wf => simp only [Memory.wf_parts]; rintro ⟨w1, w2, w3, w4, w5, w6, w7, w8⟩; exact ⟨w1, w2, w3, w4, w5, w6, q w7, w8⟩
  all_goals first | exact FusesKept.refl _ | exact List.prefix_rfl | (intros; first | rfl | assumption | exact absurd p ‹_›)
theorem Only.progUpd (p : e .pke) (h : Only e a b) (x) (q : b.pke.prog.all spWf = true → x.prog.all spWf = true) :
    Only e a { b with pke := x } := by
  refine h.trans ?_
  constructor
  case wf => simp only [Memory.wf_parts]; rintro ⟨w1, w2, w3, w4, w5, w6, w7, w8⟩; exact ⟨w1, w2, w3, w4, w5, w6, w7, q w8⟩
  all_goals first | exact FusesKept.refl _ | exact List.prefix_rfl | (intros; first | rfl | assumption | exact absurd p ‹_›)
theorem Only.curUpd (p : e .ldg) (h : Only e a b) (f : Ledg → Ledg) (q : ∀ x, x.sound = true → (f x).sound = true) :
    Only e a { b with ldg := { b.ldg with cur := b.ldg.cur.map f } } := by
  refine h.trans ?_
  constructor
  case sound =>
    simp only [ledgersSound, List.all_eq_true, List.mem_map]
    rintro w x ⟨y, hy, rfl⟩
    exact q _ (w _ hy)
  all_goals first | exact FusesKept.refl _ | exact List.prefix_rfl | (intros; first | rfl | assumption | exact absurd p ‹_›)
theorem Only.modeUpd (p : e .mode) (h : Only e a b) (m : Mode) (q : b.sys.mode = .haltSafe → m = .haltSafe) :
    Only e a { b with sys := { b.sys with mode := m } } := by
  refine h.trans ?_
  constructor
  case halt => exact fun _ w => q w
  all_goals first | exact FusesKept.refl _ | exact List.prefix_rfl | (intros; first | rfl | assumption | exact absurd p ‹_›)
/-- Programming the root key, or the lock: only while it is neither programmed nor locked, resp. always. -/
theorem Only.fuseUpd (p : e .sys) (h : Only e a b) (x) (q1 : x.tack = b.sys.tack) (q2 : x.mode = b.sys.mode)
    (q : FusesKept (fuses b) (fuses { b with sys := x })) : Only e a { b with sys := x } := by
  refine h.trans ?_
  constructor
  case fuse => exact q
  case halt => exact fun _ w => q2.trans w
  case wf => simp only [Memory.wf, q1]; exact id
  case grows => exact List.prefix_rfl
  all_goals (intros; first | rfl | assumption | exact absurd p ‹_› | exact q1 | exact q2)
/-- Everything may be written: what is left is the variant, the fuses, the canonical form and the ledger equation. -/
theorem Only.allUpd (p : ∀ f, e f) (h : Only e a b) {c : Dev} (q1 : c.variant = b.variant) (q2 : FusesKept (fuses b) (fuses c))
    (q3 : Memory.wf b = true → Memory.wf c = true) (q4 : ledgersSound b = true → ledgersSound c = true) (q5 : b.out <+: c.out) : Only e a c := by
  refine h.trans ?_
  constructor
  case variant => exact q1
  case fuse => exact q2
  case wf => exact q3
  case sound => exact q4
  case grows => exact q5
  all_goals exact fun x => absurd (p _) x

/-- What a device that an `Except` answers comes from. -/
def ExcOnly (e : Piece → Prop) (a : Dev) : Except Fail Dev → Prop
  | .error _ => True
  | .ok d => Only e a d
theorem ExcOnly.bind {α : Type} {x : Except Fail α} {f : α → Except Fail Dev} (h : ∀ y, x = .ok y → ExcOnly e a (f y)) :
    ExcOnly e a (x >>= f) := by
  cases x with
  | error z => trivial
  | ok y => exact h y rfl
theorem ActOnly.bindDev {x : Except Fail Dev} {f : Dev → Except Fail Act} (hx : ExcOnly e a x) (h : ∀ d, Only e a d → ActOnly e a (f d)) :
    ActOnly e a (x >>= f) := by
  cases x with
  | error z => trivial
  | ok y => exact h y hx

/-- What a core instruction may write when it issues; its results are written at the bundle's end. -/
def IOnly (e : Piece → Prop) (a : Dev) : IRes → Prop
  | .stall => True
  | .fault _ _ => True
  | .ok d _ => Only e a d

/-- The parts that are not named are the same. -/
theorem Only.same (h : Only e a b) (p : Piece) (hp : ¬ e p) : SamePiece a b p := by
  cases p
  case regs => exact h.regs hp
  case regsB => exact h.regsB hp
  case latch => exact h.latch hp
  case freeCtr => exact h.freeCtr hp
  case out => exact h.out hp
  case stride => exact h.stride hp
  case tim => exact h.tim hp
  case hif => exact h.hif hp
  case evt => exact h.evt hp
  case ldg => exact h.ldg hp
  case obj => exact h.obj hp
  case dlr => exact h.dlr hp
  case cores => exact h.cores hp
  case mac => exact h.mac hp
  case pke => exact h.pke hp
  case sec => exact h.sec hp
  case brd => exact h.brd hp
  case hbm => exact h.hbm hp
  case pad => exact h.pad hp
  case local_ => exact h.local_ hp
  case mem => exact h.mem hp
  case dma => exact h.dma hp
  case fwd => exact h.fwd hp
  case aud => exact h.aud hp
  case vid => exact h.vid hp
  case tack => exact h.tack hp
  case mode => exact h.mode hp
  case sys => exact h.sys hp
  case rst => exact h.halt hp

end Sys2Proof.Machine
end

