-- ==== Sys2Proof/Laws/FrameAux.lean ====
section
/-! SUPPORT. The canonical form of a sparse map and the ledger equation under the operations that rewrite them whole. -/
namespace Sys2Proof.Machine

theorem all_set {l : List (Sparse 8)} (w : l.all spWf = true) {m : Sparse 8} (hm : spWf m = true) (i : Nat) : (l.set i m).all
    spWf = true := by
  simp only [List.all_eq_true] at *
  intro x hx
  rcases List.mem_or_eq_of_mem_set hx with h | rfl
  · exact w x h
  · exact hm

theorem spWf_nth {w : Nat} {l : List (Sparse w)} (q : l.all spWf = true) (i : Nat) : spWf (nth l i []) = true := by
  simp only [List.all_eq_true] at q
  unfold nth
  cases h : l[i]? with
  | none => rfl
  | some x => exact q x (List.mem_of_getElem? h)

theorem spWf_copy {m : Sparse 8} (w : spWf m = true) (x y n : Nat) : spWf (spCopy m x y n) = true := by
  unfold spCopy
  generalize m.filter (fun e => decide (x ≤ e.1) && decide (e.1 < x + n)) = l
  induction l generalizing m with
  | nil => exact w
  | cons r rs ih => exact ih (spWf_put w _ _)

theorem spWf_keepSection {m : Sparse 8} (w : spWf m = true) (l : Option Nat) (c s : Nat) : spWf (keepSection m l c s) = true
    := by
  unfold keepSection
  split
  · exact w
  · exact spWf_copy w _ _ _

theorem spWf_writeCopy {m : Sparse 8} (w : spWf m = true) (l : Option Nat) (c g r p : Nat) (new : TackNew) :
    spWf (writeCopy m l c g r p new) = true := by
  unfold writeCopy
  extract_lets b m1 m2 m3 m4 m5
  have h2 : spWf m2 = true := spWf_write (spWf_clear w _) _ _
  have h3 : spWf m3 = true := by
    unfold m3
    split
    · exact spWf_write h2 _ _
    · exact spWf_keepSection h2 _ _ _
  have h4 : spWf m4 = true := by
    unfold m4
    split
    · exact spWf_write h3 _ _
    · exact spWf_keepSection h3 _ _ _
  have h5 : spWf m5 = true := spWf_keepSection h4 _ _ _
  split
  · exact spWf_write h5 _ _
  · exact h5

theorem localMem_wf {d : Dev} (w : (d.mem.local_.all fun y => spWf y.2) = true) (k : Nat) : spWf (localMem d k) = true := by
  unfold localMem
  split
  · rename_i x h
    simp only [List.all_eq_true] at w
    exact w _ (List.mem_of_find?_eq_some h)
  · rfl

theorem all_upd {l : List (Sparse 64)} (w : l.all spWf = true) {m : Sparse 64} (hm : spWf m = true) {i : Nat} :
    (upd l i m).all spWf = true := by
  simp only [List.all_eq_true, upd] at *
  intro x hx
  rcases List.mem_or_eq_of_mem_set hx with h | rfl
  · exact w x h
  · exact hm

theorem all_filter_local {l : List (Nat × Sparse 8)} (w : (l.all fun y => spWf y.2) = true) (p : Nat × Sparse 8 → Bool) :
    ((l.filter p).all fun y => spWf y.2) = true := by
  simp only [List.all_eq_true, List.mem_filter] at *
  exact fun x hx => w x hx.1

theorem all_setCap_sound {x : Ledg} (hx : x.sound = true) {n : Nat} : (x.setCap n).sound = true := by
  have hx := of_decide_eq_true hx
  refine decide_eq_true ?_
  simp only [Ledg.setCap]
  omega

theorem spWf_putProg {m : Sparse 64} (w : spWf m = true) (i : Nat) (rs : List (List Byte)) : spWf (putProg m i rs) = true :=
    by
  induction rs generalizing m i with
  | nil => exact w
  | cons r rs ih => exact ih (spWf_put w _ _) _

theorem dev_reset_wf (v : Variant) : Memory.wf (Dev.reset v) = true := by cases v <;> decide

theorem dev_reset_sound (v : Variant) : ledgersSound (Dev.reset v) = true := by cases v <;> decide

end Sys2Proof.Machine
end

