-- ==== Sys2Proof/Laws/Frame1.lean ====
section
/-! SUPPORT. What each operation of Ops, Flags, Ledger, Operands, Hif, Media, Dealer, MacOps may write. -/
namespace Sys2Proof.Machine
variable {e : Piece → Prop} {a d : Dev}

/-! ### Ops -/

theorem drawFree_only (p_freeCtr : e .freeCtr) {x1i} (h : Only e a d) : Only e a (drawFree d x1i).2 := by
  unfold drawFree
  dsimp only
  refine Only.freeCtrUpd p_freeCtr ?_ _
  assumption

theorem setLatch_only (p_latch : e .latch) {x v} (h : Only e a d) : Only e a (setLatch d x v) :=
  Only.latchUpd p_latch h _ fun w => spWf_put w _ _

theorem emitOut_only (p_out : e .out) {x1i} (h : Only e a d) : Only e a (emitOut d x1i) := by
  unfold emitOut
  refine Only.outUpd p_out ?_ _ (List.prefix_append _ _)
  assumption

theorem advance_only (p_tim : e .tim) {x1i} (h : Only e a d) : Only e a (advance d x1i) := by
  unfold advance
  split
  · refine Only.timUpd p_tim ?_ _ rfl
    assumption
  · assumption

theorem setReg_only (p_regs : e .regs) {x v} (h : Only e a d) : Only e a (setReg d x v) :=
  Only.regsUpd p_regs h _ fun w => spWf_put w _ _

theorem setF_only (p_regs : e .regs) {x1i x2i x3i x4i} (h : Only e a d) : Only e a (setF d x1i x2i x3i x4i) := by
  unfold setF
  refine setReg_only p_regs ?_
  assumption

theorem cnt_only (p_regs : e .regs) {x1i x2i} (h : Only e a d) : Only e a (cnt d x1i x2i) := by
  unfold cnt
  refine setReg_only p_regs ?_
  assumption

theorem satF_only (p_regs : e .regs) {x1i x2i x3i x4i} (h : Only e a d) : Only e a (satF d x1i x2i x3i x4i) := by
  unfold satF
  refine setF_only p_regs ?_
  assumption

theorem maxReg_only (p_regs : e .regs) {x1i x2i} (h : Only e a d) : Only e a (maxReg d x1i x2i) := by
  unfold maxReg
  split
  · refine setReg_only p_regs ?_
    assumption
  · assumption

theorem putB_only (p_regs : e .regs) {x1i x2i x3i} (h : Only e a d) : Only e a (putB d x1i x2i x3i) := by
  unfold putB
  refine setF_only p_regs ?_
  assumption

theorem setUState_only (p_regs : e .regs) {x1i x2i} (h : Only e a d) : Only e a (setUState d x1i x2i) := by
  unfold setUState
  refine setF_only p_regs ?_
  assumption

theorem sendMsix_only (p_regs : e .regs) (p_out : e .out) {x1i x2i} (h : Only e a d) : Only e a (sendMsix d x1i x2i) := by
  unfold sendMsix
  split
  · refine putB_only p_regs ?_
    assumption
  · refine emitOut_only p_out ?_
    assumption

/-! ### Flags -/

theorem putRing_only (p_hif : e .hif) {x1i} (h : Only e a d) : Only e a (putRing d x1i) := by
  unfold putRing
  refine Only.hifUpd p_hif ?_ _
  assumption

theorem raiseOnce_only (p_evt : e .evt) {x1i} (h : Only e a d) : Only e a (raiseOnce d x1i) := by
  unfold raiseOnce
  extract_lets +onlyGivenNames x1
  refine Only.evtUpd p_evt ?_ _
  assumption

theorem ringAdvance_only (p_regs : e .regs) {x1i x2i x3i} (h : Only e a d) : Only e a (ringAdvance d x1i x2i x3i) := by
  unfold ringAdvance
  refine setReg_only p_regs ?_
  assumption

theorem wmClear_only (p_regs : e .regs) {x1i x2i x3i} (h : Only e a d) : Only e a (wmClear d x1i x2i x3i) := by
  unfold wmClear
  refine setReg_only p_regs ?_
  refine setReg_only p_regs ?_
  assumption

theorem ringFlag_only (p_regs : e .regs) {x1i x2i x3i} (h : Only e a d) : Only e a (ringFlag d x1i x2i x3i) := by
  unfold ringFlag
  refine putB_only p_regs ?_
  assumption

theorem ringLose_only (p_regs : e .regs) {x1i x2i x3i} (h : Only e a d) : Only e a (ringLose d x1i x2i x3i) := by
  unfold ringLose
  refine ringFlag_only p_regs ?_
  refine satF_only p_regs ?_
  assumption

theorem writeRecs_only (p_regs : e .regs) (p_out : e .out) {fn r l} (h : Only e a d) : Only e a (writeRecs d fn r l) := by
  induction l generalizing d with
  | nil => exact h
  | cons y ys ih =>
    unfold writeRecs
    refine ih ?_
    refine ringAdvance_only p_regs ?_
    refine emitOut_only p_out ?_
    assumption

theorem wmStep_only (p_regs : e .regs) (p_evt : e .evt) {x1i x2i x3i x4i x5i x6i} (h : Only e a d) : Only e a (wmStep d x1i
    x2i x3i x4i x5i x6i) := by
  unfold wmStep
  extract_lets +onlyGivenNames x1
  extract_lets +onlyGivenNames x2
  have h2 : Only e a x2 := by
    unfold x2
    refine maxReg_only p_regs ?_
    assumption
  try clear_value x2
  split
  · extract_lets +onlyGivenNames x3
    have h3 : Only e a x3 := by
      unfold x3
      refine satF_only p_regs ?_
      refine putB_only p_regs ?_
      assumption
    try clear_value x3
    split
    · assumption
    · refine raiseOnce_only p_evt ?_
      assumption
  · assumption

theorem latchFatal_only (p_regs : e .regs) {x1i} (h : Only e a d) : Only e a (latchFatal d x1i) := by
  unfold latchFatal
  split
  · assumption
  · extract_lets +onlyGivenNames x1
    refine Only.foldl ?_ (fun d2 y2 h2 => ?_)
    · refine putB_only p_regs ?_
      assumption
    · refine setReg_only p_regs ?_
      assumption

theorem fatalIrq_only (p_regs : e .regs) (p_out : e .out) (h : Only e a d) : Only e a (fatalIrq d) := by
  unfold fatalIrq
  split
  · refine sendMsix_only p_regs p_out ?_
    assumption
  · assumption

theorem ringIrq_only (p_regs : e .regs) (p_out : e .out) {x1i x2i} (h : Only e a d) : Only e a (ringIrq d x1i x2i) := by
  unfold ringIrq
  split
  · refine sendMsix_only p_regs p_out ?_
    assumption
  · assumption

theorem eqOverflow_only (p_regs : e .regs) (p_out : e .out) (p_hif : e .hif) {x1i x2i} (h : Only e a d) : Only e a
    (eqOverflow d x1i x2i) := by
  unfold eqOverflow
  extract_lets +onlyGivenNames x1
  split
  · assumption
  · extract_lets +onlyGivenNames x2
    have h2 : Only e a x2 := by
      unfold x2
      refine putRing_only p_hif ?_
      assumption
    try clear_value x2
    refine ringIrq_only p_regs p_out ?_
    refine writeRecs_only p_regs p_out ?_
    assumption

theorem offerRecs_only (p_regs : e .regs) (p_out : e .out) (p_hif : e .hif) {x1i x2i x3i} (h : Only e a d) : Only e a
    (offerRecs d x1i x2i x3i) := by
  unfold offerRecs
  extract_lets +onlyGivenNames x1
  have h1 : Only e a x1 := by
    unfold x1
    refine eqOverflow_only p_regs p_out p_hif ?_
    assumption
  try clear_value x1
  split
  · refine ringIrq_only p_regs p_out ?_
    refine writeRecs_only p_regs p_out ?_
    assumption
  · extract_lets +onlyGivenNames x2
    have h2 : Only e a x2 := by
      unfold x2
      refine ringLose_only p_regs ?_
      assumption
    try clear_value x2
    extract_lets +onlyGivenNames x3
    refine putRing_only p_hif ?_
    assumption

theorem deliver_only (p_regs : e .regs) (p_out : e .out) (p_hif : e .hif) {x1i x2i} (h : Only e a d) : Only e a (deliver d
    x1i x2i) := by
  unfold deliver
  extract_lets +onlyGivenNames x1
  extract_lets +onlyGivenNames x2
  extract_lets +onlyGivenNames x3
  extract_lets +onlyGivenNames x4
  split
  · extract_lets +onlyGivenNames x5
    have h5 : Only e a x5 := by
      unfold x5
      refine latchFatal_only p_regs ?_
      assumption
    try clear_value x5
    split
    · extract_lets +onlyGivenNames x6
      extract_lets +onlyGivenNames x7
      extract_lets +onlyGivenNames x8
      have h8 : Only e a x8 := by
        unfold x8
        refine offerRecs_only p_regs p_out p_hif ?_
        assumption
      try clear_value x8
      split
      · split
        · assumption
        · refine sendMsix_only p_regs p_out ?_
          assumption
      · refine fatalIrq_only p_regs p_out ?_
        assumption
    · refine fatalIrq_only p_regs p_out ?_
      refine cnt_only p_regs ?_
      assumption
  · split
    · refine cnt_only p_regs ?_
      assumption
    · split
      · refine offerRecs_only p_regs p_out p_hif ?_
        assumption
      · refine cnt_only p_regs ?_
        assumption

theorem raiseOn_only (p_regs : e .regs) (p_out : e .out) (p_hif : e .hif) {x1i x2i} (h : Only e a d) : Only e a (raiseOn d
    x1i x2i) := by
  unfold raiseOn
  extract_lets +onlyGivenNames x1
  split
  · refine offerRecs_only p_regs p_out p_hif ?_
    assumption
  · refine cnt_only p_regs ?_
    assumption

theorem flushOnce_only (p_regs : e .regs) (p_out : e .out) (p_hif : e .hif) (p_evt : e .evt) (h : Only e a d) : Only e a
    (flushOnce d) := by
  unfold flushOnce
  refine Only.foldl ?_ (fun d1 y1 h1 => ?_)
  · refine Only.evtUpd p_evt ?_ _
    assumption
  · refine deliver_only p_regs p_out p_hif ?_
    assumption

theorem raise_only (p_regs : e .regs) (p_out : e .out) (p_hif : e .hif) {x1i} (h : Only e a d) : Only e a (raise d x1i) := by
  unfold raise
  refine deliver_only p_regs p_out p_hif ?_
  assumption

/-! ### Ledger -/

theorem settleLedgers_only (p_ldg : e .ldg) (h : Only e a d) : Only e a (settleLedgers d) :=
  Only.curUpd p_ldg h _ fun y hy => by
    split
    · have hx := of_decide_eq_true hy
      refine decide_eq_true ?_
      simp only [Ledg.settle]
      omega
    · exact hy

theorem ledgMod_only (p_regs : e .regs) (p_evt : e .evt) (p_ldg : e .ldg) {l i f} (hf : ∀ x : Ledg, x.sound = true → (f
    x).sound = true) (h : Only e a d) : Only e a (ledgMod d l i f) := by
  unfold ledgMod
  extract_lets x1 x2 s1 x3
  have h3 : Only e a x3 := Only.curUpd p_ldg h _ fun y hy => by
    split
    · exact hf y hy
    · exact hy
  clear_value x3
  split
  · assumption
  · refine wmStep_only p_regs p_evt ?_
    assumption

theorem ledgTake_only (p_regs : e .regs) (p_evt : e .evt) (p_ldg : e .ldg) {l i n} (h : Only e a d) : Only e a (ledgTake d l
    i n) :=
  ledgMod_only p_regs p_evt p_ldg (fun x hx => by
    have hx := of_decide_eq_true hx
    refine decide_eq_true ?_
    simp only [Ledg.take]
    omega) h

theorem ledgIssue_only (p_regs : e .regs) (p_evt : e .evt) (p_ldg : e .ldg) {l i n} (h : Only e a d) : Only e a (ledgIssue d
    l i n) :=
  ledgMod_only p_regs p_evt p_ldg (fun x hx => by
    have hx := of_decide_eq_true hx
    refine decide_eq_true ?_
    simp only [Ledg.issue]
    omega) h

theorem ledgLand_only (p_regs : e .regs) (p_evt : e .evt) (p_ldg : e .ldg) {l i n} (h : Only e a d) : Only e a (ledgLand d l
    i n) :=
  ledgMod_only p_regs p_evt p_ldg (fun x hx => by
    have hx := of_decide_eq_true hx
    refine decide_eq_true ?_
    simp only [Ledg.land]
    omega) h

theorem ledgRelease_only (p_regs : e .regs) (p_evt : e .evt) (p_ldg : e .ldg) {l i n} (h : Only e a d) : Only e a
    (ledgRelease d l i n) :=
  ledgMod_only p_regs p_evt p_ldg (fun x hx => by
    have hx := of_decide_eq_true hx
    refine decide_eq_true ?_
    simp only [Ledg.release]
    omega) h

theorem ledgArrive_only (p_regs : e .regs) (p_evt : e .evt) (p_ldg : e .ldg) {l i n} (h : Only e a d) : Only e a (ledgArrive
    d l i n) :=
  ledgMod_only p_regs p_evt p_ldg (fun x hx => by
    have hx := of_decide_eq_true hx
    refine decide_eq_true ?_
    simp only [Ledg.arrive]
    omega) h

theorem book_only (p_regs : e .regs) (p_evt : e .evt) (p_ldg : e .ldg) {x1i x2i} (h : Only e a d) : Only e a (book d x1i
    x2i) := by
  unfold book
  refine Only.foldl ?_ (fun d1 y1 h1 => ?_)
  · assumption
  · extract_lets +onlyGivenNames x2
    have h2 : Only e a x2 := by
      unfold x2
      refine ledgTake_only p_regs p_evt p_ldg ?_
      assumption
    try clear_value x2
    split
    · refine ledgTake_only p_regs p_evt p_ldg ?_
      assumption
    · assumption

theorem ledgGive_only (p_regs : e .regs) (p_evt : e .evt) (p_ldg : e .ldg) {l i n} (h : Only e a d) : Only e a (ledgGive d l
    i n) :=
  ledgMod_only p_regs p_evt p_ldg (fun x hx => by
    have hx := of_decide_eq_true hx
    refine decide_eq_true ?_
    simp only [Ledg.land, Ledg.release]
    omega) h

theorem unbook_only (p_regs : e .regs) (p_evt : e .evt) (p_ldg : e .ldg) {x1i} (h : Only e a d) : Only e a (unbook d x1i) :=
    by
  unfold unbook
  refine Only.foldl ?_ (fun d1 y1 h1 => ?_)
  · assumption
  · extract_lets +onlyGivenNames x2
    have h2 : Only e a x2 := by
      unfold x2
      refine ledgRelease_only p_regs p_evt p_ldg ?_
      assumption
    try clear_value x2
    split
    · refine ledgRelease_only p_regs p_evt p_ldg ?_
      assumption
    · assumption

/-! ### Operands -/

theorem putSession_only (p_obj : e .obj) {x1i} (h : Only e a d) : Only e a (putSession d x1i) := by
  unfold putSession
  refine Only.objUpd p_obj ?_ _
  assumption

theorem addObj_only (p_obj : e .obj) {x1i} (h : Only e a d) : Only e a (addObj d x1i) := by
  unfold addObj
  refine Only.objUpd p_obj ?_ _
  assumption

theorem putObj_only (p_obj : e .obj) {x1i} (h : Only e a d) : Only e a (putObj d x1i) := by
  unfold putObj
  refine Only.objUpd p_obj ?_ _
  assumption

theorem dropObj_only (p_regs : e .regs) (p_evt : e .evt) (p_ldg : e .ldg) (p_obj : e .obj) {x1i} (h : Only e a d) : Only e a
    (dropObj d x1i) := by
  unfold dropObj
  refine unbook_only p_regs p_evt p_ldg ?_
  refine Only.objUpd p_obj ?_ _
  assumption

/-! ### Hif -/

theorem putCmd_only (p_hif : e .hif) {x1i} (h : Only e a d) : Only e a (putCmd d x1i) := by
  unfold putCmd
  refine Only.hifUpd p_hif ?_ _
  assumption

theorem unreserve_only (p_hif : e .hif) {x1i x2i} (h : Only e a d) : Only e a (unreserve d x1i x2i) := by
  unfold unreserve
  extract_lets +onlyGivenNames x1
  refine putRing_only p_hif ?_
  assumption

theorem finish_only (p_regs : e .regs) (p_out : e .out) (p_hif : e .hif) {x1i x2i x3i} (h : Only e a d) : Only e a (finish d
    x1i x2i x3i) := by
  unfold finish
  extract_lets +onlyGivenNames x1
  extract_lets +onlyGivenNames x2
  have h2 : Only e a x2 := by
    unfold x2
    refine Only.hifUpd p_hif ?_ _
    assumption
  try clear_value x2
  split
  · assumption
  · extract_lets +onlyGivenNames x3
    have h3 : Only e a x3 := by
      unfold x3
      refine unreserve_only p_hif ?_
      assumption
    try clear_value x3
    split
    · assumption
    · split
      · refine ringLose_only p_regs ?_
        assumption
      · extract_lets +onlyGivenNames x4
        extract_lets +onlyGivenNames x5
        have h5 : Only e a x5 := by
          unfold x5
          refine emitOut_only p_out ?_
          assumption
        try clear_value x5
        refine ringIrq_only p_regs p_out ?_
        refine ringAdvance_only p_regs ?_
        assumption

theorem failCmd_only (p_regs : e .regs) (p_out : e .out) (p_hif : e .hif) (p_sys : e .sys) {x1i x2i} (h : Only e a d) : Only
    e a (failCmd d x1i x2i) := by
  unfold failCmd
  extract_lets +onlyGivenNames x1
  have h1 : Only e a x1 := by
    unfold x1
    refine Only.foldl ?_ (fun d2 y2 h2 => ?_)
    · assumption
    · refine cnt_only p_regs ?_
      assumption
  try clear_value x1
  extract_lets +onlyGivenNames x3
  have h3 : Only e a x3 := by
    unfold x3
    refine Only.foldl ?_ (fun d4 y4 h4 => ?_)
    · assumption
    · refine raise_only p_regs p_out p_hif ?_
      assumption
  try clear_value x3
  extract_lets +onlyGivenNames x5
  extract_lets +onlyGivenNames x6
  have h6 : Only e a x6 := by
    unfold x6
    split
    · refine Only.sysUpd p_sys ?_ _ rfl rfl rfl rfl rfl rfl
      assumption
    · assumption
  try clear_value x6
  refine finish_only p_regs p_out p_hif ?_
  assumption

theorem settleN_only (p_regs : e .regs) (p_out : e .out) (p_hif : e .hif) (p_sys : e .sys) {n} (h : Only e a d) : Only e a
    (settleN n d) := by
  induction n generalizing d with
  | zero => exact h
  | succ n ih =>
    unfold settleN
    split
    · assumption
    · refine ih ?_
      refine failCmd_only p_regs p_out p_hif p_sys ?_
      assumption

theorem settle_only (p_regs : e .regs) (p_out : e .out) (p_hif : e .hif) (p_sys : e .sys) (h : Only e a d) : Only e a
    (settle d) := by
  unfold settle
  refine settleN_only p_regs p_out p_hif p_sys ?_
  assumption

theorem failId_only (p_regs : e .regs) (p_out : e .out) (p_hif : e .hif) (p_sys : e .sys) {x1i x2i} (h : Only e a d) : Only
    e a (failId d x1i x2i) := by
  unfold failId
  split
  · assumption
  · refine settle_only p_regs p_out p_hif p_sys ?_
    refine failCmd_only p_regs p_out p_hif p_sys ?_
    assumption

theorem runCmd_only (p_regs : e .regs) (p_out : e .out) (p_hif : e .hif) (p_sys : e .sys) {op fn ring act} (hact : ∀ c,
    ActOnly e a (act d c)) (h : Only e a d) : Only e a (runCmd op fn ring act d) := by
  unfold runCmd
  split
  · exact h
  · rename_i c _
    split
    · refine settle_only p_regs p_out p_hif p_sys ?_
      refine failCmd_only p_regs p_out p_hif p_sys ?_
      assumption
    · split
      · refine settle_only p_regs p_out p_hif p_sys ?_
        refine failCmd_only p_regs p_out p_hif p_sys ?_
        assumption
      · have w := hact c
        split
        · refine settle_only p_regs p_out p_hif p_sys ?_
          refine failCmd_only p_regs p_out p_hif p_sys ?_
          assumption
        · rename_i q
          rw [q] at w
          replace w : Only e a _ := w
          refine settle_only p_regs p_out p_hif p_sys ?_
          refine finish_only p_regs p_out p_hif ?_
          assumption
        · rename_i q
          rw [q] at w
          replace w : Only e a _ := w
          refine putCmd_only p_hif ?_
          assumption
        · rename_i q
          rw [q] at w
          exact w

theorem complete_only (p_regs : e .regs) (p_out : e .out) (p_hif : e .hif) (p_sys : e .sys) {x1i x2i x3i} (h : Only e a d) :
    Only e a (complete d x1i x2i x3i) := by
  unfold complete
  split
  · assumption
  · refine settle_only p_regs p_out p_hif p_sys ?_
    refine finish_only p_regs p_out p_hif ?_
    assumption

/-! ### Media -/

theorem modLeg_only (p_fwd : e .fwd) {x1i x2i} (h : Only e a d) : Only e a (modLeg d x1i x2i) := by
  unfold modLeg
  refine Only.fwdUpd p_fwd ?_ _
  assumption

theorem modCtx_only (p_vid : e .vid) {x1i x2i} (h : Only e a d) : Only e a (modCtx d x1i x2i) := by
  unfold modCtx
  refine Only.vidUpd p_vid ?_ _
  assumption

theorem modConf_only (p_aud : e .aud) {x1i x2i} (h : Only e a d) : Only e a (modConf d x1i x2i) := by
  unfold modConf
  refine Only.audUpd p_aud ?_ _
  assumption

theorem modEnc_only (p_vid : e .vid) {x1i x2i} (h : Only e a d) : Only e a (modEnc d x1i x2i) := by
  unfold modEnc
  refine Only.vidUpd p_vid ?_ _
  assumption

theorem modPart_only (p_aud : e .aud) {x1i x2i} (h : Only e a d) : Only e a (modPart d x1i x2i) := by
  unfold modPart
  refine Only.audUpd p_aud ?_ _
  assumption

theorem sendFrame_only (p_fwd : e .fwd) {x1i x2i x3i x4i} (h : Only e a d) : Only e a (sendFrame d x1i x2i x3i x4i) := by
  unfold sendFrame
  refine Only.fwdUpd p_fwd ?_ _
  assumption

theorem modPic_only (p_vid : e .vid) {x1i x2i x3i} (h : Only e a d) : Only e a (modPic d x1i x2i x3i) := by
  unfold modPic
  refine modCtx_only p_vid ?_
  assumption

theorem modStream_only (p_aud : e .aud) {x1i x2i} (h : Only e a d) : Only e a (modStream d x1i x2i) := by
  unfold modStream
  refine Only.audUpd p_aud ?_ _
  assumption

theorem putLeg_only (p_fwd : e .fwd) {x1i} (h : Only e a d) : Only e a (putLeg d x1i) := by
  unfold putLeg
  refine Only.fwdUpd p_fwd ?_ _
  assumption

theorem modLayout_only (p_vid : e .vid) {x1i x2i} (h : Only e a d) : Only e a (modLayout d x1i x2i) := by
  unfold modLayout
  refine Only.vidUpd p_vid ?_ _
  assumption

theorem noteDeal_only (p_vid : e .vid) {x1i} (h : Only e a d) : Only e a (noteDeal d x1i) := by
  unfold noteDeal
  extract_lets +onlyGivenNames x1
  split
  · unfold x1
    refine modPic_only p_vid ?_
    assumption
  · unfold x1
    refine modPic_only p_vid ?_
    assumption
  · unfold x1
    refine modPic_only p_vid ?_
    assumption
  · assumption

theorem copySkip_only (p_regs : e .regs) (p_evt : e .evt) {x1i x2i} (h : Only e a d) : Only e a (copySkip d x1i x2i) := by
  unfold copySkip
  split
  · refine raiseOnce_only p_evt ?_
    refine cnt_only p_regs ?_
    assumption
  · assumption

theorem endBand_only (p_regs : e .regs) (p_evt : e .evt) (p_vid : e .vid) {x1i x2i x3i x4i} (h : Only e a d) : Only e a
    (endBand d x1i x2i x3i x4i) := by
  unfold endBand
  split
  · assumption
  · split
    · assumption
    · extract_lets +onlyGivenNames x1
      have h1 : Only e a x1 := by
        unfold x1
        split
        · refine copySkip_only p_regs p_evt ?_
          assumption
        · assumption
      try clear_value x1
      extract_lets +onlyGivenNames x2
      extract_lets +onlyGivenNames x3
      split
      · refine modLayout_only p_vid ?_
        assumption
      · split
        · refine modLayout_only p_vid ?_
          assumption
        · refine modLayout_only p_vid ?_
          assumption

theorem endFinish_only (p_vid : e .vid) {x1i x2i x3i} (h : Only e a d) : Only e a (endFinish d x1i x2i x3i) := by
  unfold endFinish
  extract_lets +onlyGivenNames x1
  have h1 : Only e a x1 := by
    unfold x1
    refine modPic_only p_vid ?_
    assumption
  try clear_value x1
  split
  · assumption
  · refine modCtx_only p_vid ?_
    assumption

theorem endEncode_only (p_fwd : e .fwd) (p_aud : e .aud) {x1i x2i} (h : Only e a d) : Only e a (endEncode d x1i x2i) := by
  unfold endEncode
  split
  · assumption
  · split
    · extract_lets +onlyGivenNames x1
      extract_lets +onlyGivenNames x2
      have h2 : Only e a x2 := by
        unfold x2
        refine modStream_only p_aud ?_
        assumption
      try clear_value x2
      split
      · assumption
      · refine Only.foldl ?_ (fun d3 y3 h3 => ?_)
        · assumption
        · split
          · refine sendFrame_only p_fwd ?_
            assumption
          · assumption
    · split
      · assumption
      · extract_lets +onlyGivenNames x4
        extract_lets +onlyGivenNames x5
        have h5 : Only e a x5 := by
          unfold x5
          refine modPart_only p_aud ?_
          assumption
        try clear_value x5
        split
        · split
          · assumption
          · refine sendFrame_only p_fwd ?_
            assumption
        · assumption

theorem lateBlock_only (p_regs : e .regs) (p_evt : e .evt) {x1i x2i} (h : Only e a d) : Only e a (lateBlock d x1i x2i) := by
  unfold lateBlock
  extract_lets +onlyGivenNames x1
  extract_lets +onlyGivenNames x2
  have h2 : Only e a x2 := by
    unfold x2
    refine cnt_only p_regs ?_
    assumption
  try clear_value x2
  extract_lets +onlyGivenNames x3
  refine raiseOnce_only p_evt ?_
  assumption

theorem endDecode_only (p_regs : e .regs) (p_evt : e .evt) (p_aud : e .aud) {x1i x2i} (h : Only e a d) : Only e a (endDecode
    d x1i x2i) := by
  unfold endDecode
  split
  · assumption
  · split
    · refine modPart_only p_aud ?_
      assumption
    · refine lateBlock_only p_regs p_evt ?_
      assumption

theorem takeCells_only (p_regs : e .regs) (p_evt : e .evt) (p_ldg : e .ldg) (p_pke : e .pke) {x1i} (h : Only e a d) : Only e
    a (takeCells d x1i) := by
  unfold takeCells
  refine ledgTake_only p_regs p_evt p_ldg ?_
  refine Only.pkeUpd p_pke ?_ _ rfl
  assumption

theorem freeCells_only (p_regs : e .regs) (p_evt : e .evt) (p_ldg : e .ldg) (p_pke : e .pke) {x1i x2i x3i} (h : Only e a d)
    : Only e a (freeCells d x1i x2i x3i) := by
  unfold freeCells
  refine ledgGive_only p_regs p_evt p_ldg ?_
  refine Only.pkeUpd p_pke ?_ _ rfl
  assumption

theorem returnBand_only (p_regs : e .regs) (p_evt : e .evt) (p_ldg : e .ldg) (p_vid : e .vid) {x1i x2i x3i} (h : Only e a d)
    : Only e a (returnBand d x1i x2i x3i) := by
  unfold returnBand
  split
  · assumption
  · split
    · assumption
    · extract_lets +onlyGivenNames x1
      refine Only.foldl ?_ (fun d2 y2 h2 => ?_)
      · refine Only.vidUpd p_vid ?_ _
        assumption
      · refine ledgGive_only p_regs p_evt p_ldg ?_
        assumption

theorem freePkt_only (p_regs : e .regs) (p_evt : e .evt) (p_ldg : e .ldg) (p_pke : e .pke) {x1i} (h : Only e a d) : Only e a
    (freePkt d x1i) := by
  unfold freePkt
  refine freeCells_only p_regs p_evt p_ldg p_pke ?_
  assumption

theorem releaseMPkt_only (p_regs : e .regs) (p_evt : e .evt) (p_ldg : e .ldg) (p_pke : e .pke) (p_fwd : e .fwd) {x1i} (h :
    Only e a d) : Only e a (releaseMPkt d x1i) := by
  unfold releaseMPkt
  split
  · assumption
  · split
    · refine freePkt_only p_regs p_evt p_ldg p_pke ?_
      refine Only.fwdUpd p_fwd ?_ _
      assumption
    · refine Only.fwdUpd p_fwd ?_ _
      assumption

theorem endWork_only (p_regs : e .regs) (p_evt : e .evt) (p_ldg : e .ldg) (p_pke : e .pke) (p_fwd : e .fwd) (p_aud : e .aud)
    (p_vid : e .vid) {x1i x2i} (h : Only e a d) : Only e a (endWork d x1i x2i) := by
  unfold endWork
  extract_lets +onlyGivenNames x1
  split
  · unfold x1
    refine modPic_only p_vid ?_
    assumption
  · unfold x1
    refine modPic_only p_vid ?_
    assumption
  · unfold x1
    refine modPic_only p_vid ?_
    assumption
  · refine modPic_only p_vid ?_
    assumption
  · refine endFinish_only p_vid ?_
    assumption
  · refine endBand_only p_regs p_evt p_vid ?_
    assumption
  · extract_lets +onlyGivenNames x2
    have h2 : Only e a x2 := by
      unfold x2
      refine returnBand_only p_regs p_evt p_ldg p_vid ?_
      assumption
    try clear_value x2
    split
    · assumption
    · refine modEnc_only p_vid ?_
      assumption
  · split
    · assumption
    · refine releaseMPkt_only p_regs p_evt p_ldg p_pke p_fwd ?_
      assumption
  · split
    · refine endDecode_only p_regs p_evt p_aud ?_
      assumption
    · assumption
  · split
    · refine endEncode_only p_fwd p_aud ?_
      assumption
    · assumption
  · assumption

/-! ### Dealer -/

theorem putCore_only (p_cores : e .cores) {x1i} (h : Only e a d) : Only e a (putCore d x1i) := by
  unfold putCore
  refine Only.coresUpd p_cores ?_ _
  assumption

theorem ensureFlow_only (p_dlr : e .dlr) {x1i x2i x3i} (h : Only e a d) : Only e a (ensureFlow d x1i x2i x3i) := by
  unfold ensureFlow
  split
  · assumption
  · refine Only.dlrUpd p_dlr ?_ _
    assumption

theorem putFlow_only (p_dlr : e .dlr) {x1i} (h : Only e a d) : Only e a (putFlow d x1i) := by
  unfold putFlow
  refine Only.dlrUpd p_dlr ?_ _
  assumption

theorem freeCore_only (p_dlr : e .dlr) (p_cores : e .cores) {x1i} (h : Only e a d) : Only e a (freeCore d x1i) := by
  unfold freeCore
  split
  · assumption
  · extract_lets +onlyGivenNames x1
    extract_lets +onlyGivenNames x2
    extract_lets +onlyGivenNames x3
    have h3 : Only e a x3 := by
      unfold x3
      refine Only.dlrUpd p_dlr ?_ _
      assumption
    try clear_value x3
    split
    · refine putCore_only p_cores ?_
      assumption
    · split
      · refine putCore_only p_cores ?_
        assumption
      · assumption

theorem putCard_only (p_dlr : e .dlr) {x1i} (h : Only e a d) : Only e a (putCard d x1i) := by
  unfold putCard
  refine Only.dlrUpd p_dlr ?_ _
  assumption

theorem removeCard_only (p_dlr : e .dlr) {x1i} (h : Only e a d) : Only e a (removeCard d x1i) := by
  unfold removeCard
  refine Only.dlrUpd p_dlr ?_ _
  assumption

theorem setQueue_only (p_dlr : e .dlr) {x1i x2i} (h : Only e a d) : Only e a (setQueue d x1i x2i) := by
  unfold setQueue
  refine Only.dlrUpd p_dlr ?_ _
  assumption

theorem putPool_only (p_dlr : e .dlr) {x1i} (h : Only e a d) : Only e a (putPool d x1i) := by
  unfold putPool
  refine Only.dlrUpd p_dlr ?_ _
  assumption

theorem flowProgress_only (p_dlr : e .dlr) {x1i} (h : Only e a d) : Only e a (flowProgress d x1i) := by
  unfold flowProgress
  split
  · assumption
  · refine putFlow_only p_dlr ?_
    assumption

theorem unqueue_only (p_dlr : e .dlr) {x1i} (h : Only e a d) : Only e a (unqueue d x1i) := by
  unfold unqueue
  split
  · assumption
  · refine setQueue_only p_dlr ?_
    assumption

theorem dealTo_only (p_regs : e .regs) (p_dlr : e .dlr) (p_cores : e .cores) {x1i x2i x3i} (h : Only e a d) : Only e a
    (dealTo d x1i x2i x3i) := by
  unfold dealTo
  extract_lets +onlyGivenNames x1
  extract_lets +onlyGivenNames x2
  extract_lets +onlyGivenNames x3
  extract_lets +onlyGivenNames x4
  have h4 : Only e a x4 := by
    unfold x4
    refine putCore_only p_cores ?_
    assumption
  try clear_value x4
  extract_lets +onlyGivenNames x5
  have h5 : Only e a x5 := by
    unfold x5
    refine setReg_only p_regs ?_
    assumption
  try clear_value x5
  extract_lets +onlyGivenNames x6
  have h6 : Only e a x6 := by
    unfold x6
    refine putCard_only p_dlr ?_
    assumption
  try clear_value x6
  extract_lets +onlyGivenNames x7
  have h7 : Only e a x7 := by
    unfold x7
    refine flowProgress_only p_dlr ?_
    assumption
  try clear_value x7
  extract_lets +onlyGivenNames x8
  have h8 : Only e a x8 := by
    unfold x8
    split
    · refine putFlow_only p_dlr ?_
      assumption
    · assumption
  try clear_value x8
  extract_lets +onlyGivenNames x9
  refine putPool_only p_dlr ?_
  assumption

theorem endDma_only (p_out : e .out) (p_dma : e .dma) {x1i x2i} (h : Only e a d) : Only e a (endDma d x1i x2i) := by
  unfold endDma
  split
  · extract_lets +onlyGivenNames x1
    extract_lets +onlyGivenNames x2
    extract_lets +onlyGivenNames x3
    have h3 : Only e a x3 := by
      unfold x3
      refine Only.dmaUpd p_dma ?_ _
      assumption
    try clear_value x3
    split
    · assumption
    · refine emitOut_only p_out ?_
      assumption
  · assumption

theorem dealPool_only (p_regs : e .regs) (p_dlr : e .dlr) (p_cores : e .cores) {x1i x2i} (h : Only e a d) : Only e a
    (dealPool d x1i x2i) := by
  unfold dealPool
  split
  · refine dealTo_only p_regs p_dlr p_cores ?_
    assumption
  · assumption

theorem writeQueue_only (p_dlr : e .dlr) (p_vid : e .vid) {x1i} (h : Only e a d) : Only e a (writeQueue d x1i) := by
  unfold writeQueue
  split
  · assumption
  · extract_lets +onlyGivenNames x1
    split
    · assumption
    · extract_lets +onlyGivenNames x2
      have h2 : Only e a x2 := by
        unfold x2
        refine setQueue_only p_dlr ?_
        assumption
      try clear_value x2
      refine noteDeal_only p_vid ?_
      refine flowProgress_only p_dlr ?_
      refine putCard_only p_dlr ?_
      assumption

theorem decSucc_only (p_regs : e .regs) (p_evt : e .evt) (p_ldg : e .ldg) (p_dlr : e .dlr) {x1i x2i x3i} (h : Only e a d) :
    Only e a (decSucc d x1i x2i x3i).1 := by
  unfold decSucc
  split
  · dsimp only
    assumption
  · split
    · split
      · dsimp only
        refine ledgLand_only p_regs p_evt p_ldg ?_
        refine removeCard_only p_dlr ?_
        assumption
      · dsimp only
        refine putCard_only p_dlr ?_
        assumption
    · split
      · extract_lets +onlyGivenNames x1
        extract_lets +onlyGivenNames x2
        have h2 : Only e a x2 := by
          unfold x2
          refine flowProgress_only p_dlr ?_
          refine putCard_only p_dlr ?_
          assumption
        try clear_value x2
        split
        · dsimp only
          assumption
        · dsimp only
          assumption
      · dsimp only
        refine putCard_only p_dlr ?_
        assumption

theorem decAll_only (p_regs : e .regs) (p_evt : e .evt) (p_ldg : e .ldg) (p_dlr : e .dlr) {l x y} (h : Only e a d) : Only e
    a (decAll l d x y).1 := by
  induction l generalizing d with
  | nil => exact h
  | cons y ys ih =>
    unfold decAll
    extract_lets +onlyGivenNames x1
    have h1 : Only e a x1.1 := by
      unfold x1
      refine decSucc_only p_regs p_evt p_ldg p_dlr ?_
      assumption
    try clear_value x1
    extract_lets +onlyGivenNames x2
    have h2 : Only e a x2.1 := by
      unfold x2
      refine ih ?_
      assumption
    try clear_value x2
    dsimp only
    assumption

theorem closeFlow_only (p_regs : e .regs) (p_evt : e .evt) (p_ldg : e .ldg) (p_dlr : e .dlr) {x1i} (h : Only e a d) : Only e
    a (closeFlow d x1i) := by
  unfold closeFlow
  split
  · split
    · extract_lets +onlyGivenNames x1
      extract_lets +onlyGivenNames x2
      have h2 : Only e a x2 := by
        unfold x2
        refine Only.dlrUpd p_dlr ?_ _
        assumption
      try clear_value x2
      split
      · refine ledgLand_only p_regs p_evt p_ldg ?_
        assumption
      · assumption
    · assumption
  · assumption

theorem stallFlow_only (p_regs : e .regs) (p_out : e .out) (p_hif : e .hif) (p_dlr : e .dlr) {x1i} (h : Only e a d) : Only e
    a (stallFlow d x1i) := by
  unfold stallFlow
  split
  · assumption
  · split
    · assumption
    · extract_lets +onlyGivenNames x1
      extract_lets +onlyGivenNames x2
      extract_lets +onlyGivenNames x3
      refine raise_only p_regs p_out p_hif ?_
      refine cnt_only p_regs ?_
      refine putFlow_only p_dlr ?_
      assumption

theorem submitStallCmd_only (p_regs : e .regs) (p_out : e .out) (p_hif : e .hif) {x1i} (h : Only e a d) : Only e a
    (submitStallCmd d x1i) := by
  unfold submitStallCmd
  split
  · refine raise_only p_regs p_out p_hif ?_
    refine putCmd_only p_hif ?_
    assumption
  · assumption

theorem raiseDrop_only (p_regs : e .regs) (p_out : e .out) (p_hif : e .hif) {x1i} (h : Only e a d) : Only e a (raiseDrop d
    x1i) := by
  unfold raiseDrop
  refine raise_only p_regs p_out p_hif ?_
  refine cnt_only p_regs ?_
  assumption

theorem watchdog_only (p_regs : e .regs) (p_out : e .out) (p_hif : e .hif) (p_dlr : e .dlr) (h : Only e a d) : Only e a
    (watchdog d) := by
  unfold watchdog
  refine Only.foldl ?_ (fun d1 y1 h1 => ?_)
  · assumption
  · split
    · assumption
    · extract_lets +onlyGivenNames x2
      refine stallFlow_only p_regs p_out p_hif p_dlr ?_
      refine putFlow_only p_dlr ?_
      assumption

theorem raiseExcess_only (p_regs : e .regs) (p_out : e .out) (p_hif : e .hif) {x1i x2i x3i} (h : Only e a d) : Only e a
    (raiseExcess d x1i x2i x3i) := by
  unfold raiseExcess
  refine raise_only p_regs p_out p_hif ?_
  refine cnt_only p_regs ?_
  assumption

theorem endReleases_only (p_regs : e .regs) (p_out : e .out) (p_hif : e .hif) (p_sys : e .sys) (h : Only e a d) : Only e a
    (endReleases d) := by
  unfold endReleases
  refine Only.foldl ?_ (fun d1 y1 h1 => ?_)
  · assumption
  · refine complete_only p_regs p_out p_hif p_sys ?_
    assumption

theorem retireCard_only (p_regs : e .regs) (p_out : e .out) (p_hif : e .hif) (p_evt : e .evt) (p_ldg : e .ldg) (p_dlr : e
    .dlr) (p_cores : e .cores) (p_pke : e .pke) (p_dma : e .dma) (p_fwd : e .fwd) (p_aud : e .aud) (p_vid : e .vid) (p_sys :
    e .sys) {x1i x2i x3i} (h : Only e a d) : Only e a (retireCard d x1i x2i x3i).1 := by
  unfold retireCard
  extract_lets +onlyGivenNames x1
  have h1 : Only e a x1 := by
    unfold x1
    refine endWork_only p_regs p_evt p_ldg p_pke p_fwd p_aud p_vid ?_
    refine endDma_only p_out p_dma ?_
    refine freeCore_only p_dlr p_cores ?_
    refine unqueue_only p_dlr ?_
    assumption
  try clear_value x1
  extract_lets +onlyGivenNames x2
  have h2 : Only e a x2.1 := by
    unfold x2
    refine decAll_only p_regs p_evt p_ldg p_dlr ?_
    assumption
  try clear_value x2
  extract_lets +onlyGivenNames x3
  have h3 : Only e a x3 := by
    unfold x3
    assumption
  try clear_value x3
  extract_lets +onlyGivenNames x4
  have h4 : Only e a x4 := by
    unfold x4
    split
    · refine raise_only p_regs p_out p_hif ?_
      assumption
    · assumption
  try clear_value x4
  extract_lets +onlyGivenNames x5
  extract_lets +onlyGivenNames x6
  have h6 : Only e a x6 := by
    unfold x6
    split
    · refine ledgRelease_only p_regs p_evt p_ldg ?_
      refine putCard_only p_dlr ?_
      assumption
    · refine ledgGive_only p_regs p_evt p_ldg ?_
      refine removeCard_only p_dlr ?_
      assumption
  try clear_value x6
  extract_lets +onlyGivenNames x7
  have h7 : Only e a x7 := by
    unfold x7
    refine flowProgress_only p_dlr ?_
    assumption
  try clear_value x7
  extract_lets +onlyGivenNames x8
  have h8 : Only e a x8 := by
    unfold x8
    refine Only.foldl ?_ (fun d9 y9 h9 => ?_)
    · assumption
    · refine complete_only p_regs p_out p_hif p_sys ?_
      assumption
  try clear_value x8
  dsimp only
  refine closeFlow_only p_regs p_evt p_ldg p_dlr ?_
  refine endReleases_only p_regs p_out p_hif p_sys ?_
  assumption

theorem runTask_only (p_regs : e .regs) (p_out : e .out) (p_hif : e .hif) (p_evt : e .evt) (p_ldg : e .ldg) (p_dlr : e .dlr)
    (p_cores : e .cores) (p_pke : e .pke) (p_dma : e .dma) (p_fwd : e .fwd) (p_aud : e .aud) (p_vid : e .vid) (p_sys : e
    .sys) {x1i} (h : Only e a d) : Only e a (runTask d x1i).1 := by
  unfold runTask
  split
  · split
    · dsimp only
      assumption
    · split
      · dsimp only
        assumption
      · extract_lets +onlyGivenNames x1
        extract_lets +onlyGivenNames x2
        have h2 : Only e a x2 := by
          unfold x2
          refine putCard_only p_dlr ?_
          refine Only.dlrUpd p_dlr ?_ _
          assumption
        try clear_value x2
        split
        · dsimp only
          refine raiseDrop_only p_regs p_out p_hif ?_
          assumption
        · split
          · dsimp only
            assumption
          · dsimp only
            assumption
  · split
    · dsimp only
      assumption
    · extract_lets +onlyGivenNames x3
      split
      · dsimp only
        refine freeCore_only p_dlr p_cores ?_
        refine unqueue_only p_dlr ?_
        refine putCard_only p_dlr ?_
        assumption
      · refine retireCard_only p_regs p_out p_hif p_evt p_ldg p_dlr p_cores p_pke p_dma p_fwd p_aud p_vid p_sys ?_
        assumption
  · split
    · dsimp only
      assumption
    · split
      · refine retireCard_only p_regs p_out p_hif p_evt p_ldg p_dlr p_cores p_pke p_dma p_fwd p_aud p_vid p_sys ?_
        assumption
      · dsimp only
        assumption

theorem runTasksN_only (p_regs : e .regs) (p_out : e .out) (p_hif : e .hif) (p_evt : e .evt) (p_ldg : e .ldg) (p_dlr : e
    .dlr) (p_cores : e .cores) (p_pke : e .pke) (p_dma : e .dma) (p_fwd : e .fwd) (p_aud : e .aud) (p_vid : e .vid) (p_sys :
    e .sys) {n l} (h : Only e a d) : Only e a (runTasksN n d l) := by
  induction n generalizing d l with
  | zero => cases l <;> exact h
  | succ n ih =>
    cases l with
    | nil => exact h
    | cons y ys =>
      unfold runTasksN
      extract_lets +onlyGivenNames x1
      have h1 : Only e a x1.1 := by
        unfold x1
        refine runTask_only p_regs p_out p_hif p_evt p_ldg p_dlr p_cores p_pke p_dma p_fwd p_aud p_vid p_sys ?_
        assumption
      try clear_value x1
      refine ih ?_
      assumption

theorem runTasks_only (p_regs : e .regs) (p_out : e .out) (p_hif : e .hif) (p_evt : e .evt) (p_ldg : e .ldg) (p_dlr : e
    .dlr) (p_cores : e .cores) (p_pke : e .pke) (p_dma : e .dma) (p_fwd : e .fwd) (p_aud : e .aud) (p_vid : e .vid) (p_sys :
    e .sys) {x1i} (h : Only e a d) : Only e a (runTasks d x1i) := by
  unfold runTasks
  refine runTasksN_only p_regs p_out p_hif p_evt p_ldg p_dlr p_cores p_pke p_dma p_fwd p_aud p_vid p_sys ?_
  assumption

theorem dropCard_only (p_regs : e .regs) (p_out : e .out) (p_hif : e .hif) (p_evt : e .evt) (p_ldg : e .ldg) (p_dlr : e
    .dlr) (p_cores : e .cores) (p_pke : e .pke) (p_dma : e .dma) (p_fwd : e .fwd) (p_aud : e .aud) (p_vid : e .vid) (p_sys :
    e .sys) {x1i} (h : Only e a d) : Only e a (dropCard d x1i) := by
  unfold dropCard
  refine runTasks_only p_regs p_out p_hif p_evt p_ldg p_dlr p_cores p_pke p_dma p_fwd p_aud p_vid p_sys ?_
  assumption

theorem dropDue_only (p_regs : e .regs) (p_out : e .out) (p_hif : e .hif) (p_evt : e .evt) (p_ldg : e .ldg) (p_dlr : e .dlr)
    (p_cores : e .cores) (p_pke : e .pke) (p_dma : e .dma) (p_fwd : e .fwd) (p_aud : e .aud) (p_vid : e .vid) (p_sys : e
    .sys) {x1i} (h : Only e a d) : Only e a (dropDue d x1i) := by
  unfold dropDue
  extract_lets +onlyGivenNames x1
  refine Only.foldl ?_ (fun d2 y2 h2 => ?_)
  · assumption
  · split
    · split
      · refine dropCard_only p_regs p_out p_hif p_evt p_ldg p_dlr p_cores p_pke p_dma p_fwd p_aud p_vid p_sys ?_
        refine raiseDrop_only p_regs p_out p_hif ?_
        assumption
      · assumption
    · assumption

theorem completeCard_only (p_regs : e .regs) (p_out : e .out) (p_hif : e .hif) (p_evt : e .evt) (p_ldg : e .ldg) (p_dlr : e
    .dlr) (p_cores : e .cores) (p_pke : e .pke) (p_dma : e .dma) (p_fwd : e .fwd) (p_aud : e .aud) (p_vid : e .vid) (p_sys :
    e .sys) {x1i} (h : Only e a d) : Only e a (completeCard d x1i) := by
  unfold completeCard
  refine runTasks_only p_regs p_out p_hif p_evt p_ldg p_dlr p_cores p_pke p_dma p_fwd p_aud p_vid p_sys ?_
  assumption

theorem cancelCard_only (p_regs : e .regs) (p_out : e .out) (p_hif : e .hif) (p_evt : e .evt) (p_ldg : e .ldg) (p_dlr : e
    .dlr) (p_cores : e .cores) (p_pke : e .pke) (p_dma : e .dma) (p_fwd : e .fwd) (p_aud : e .aud) (p_vid : e .vid) (p_sys :
    e .sys) {x1i} (h : Only e a d) : Only e a (cancelCard d x1i) := by
  unfold cancelCard
  refine runTasks_only p_regs p_out p_hif p_evt p_ldg p_dlr p_cores p_pke p_dma p_fwd p_aud p_vid p_sys ?_
  assumption

theorem storeCard_only (p_regs : e .regs) (p_out : e .out) (p_hif : e .hif) (p_evt : e .evt) (p_ldg : e .ldg) (p_dlr : e
    .dlr) (p_cores : e .cores) (p_pke : e .pke) (p_dma : e .dma) (p_fwd : e .fwd) (p_aud : e .aud) (p_vid : e .vid) (p_sys :
    e .sys) {x1i} (h : Only e a d) : Only e a (storeCard d x1i) := by
  unfold storeCard
  split
  · assumption
  · extract_lets +onlyGivenNames x1
    extract_lets +onlyGivenNames x2
    have h2 : Only e a x2 := by
      unfold x2
      refine Only.foldl ?_ (fun d3 y3 h3 => ?_)
      · assumption
      · split
        · refine putCard_only p_dlr ?_
          assumption
        · assumption
    try clear_value x2
    extract_lets +onlyGivenNames x4
    extract_lets +onlyGivenNames x5
    have h5 : Only e a x5 := by
      unfold x5
      refine Only.dlrUpd p_dlr ?_ _
      assumption
    try clear_value x5
    extract_lets +onlyGivenNames x6
    have h6 : Only e a x6 := by
      unfold x6
      refine flowProgress_only p_dlr ?_
      refine ledgTake_only p_regs p_evt p_ldg ?_
      assumption
    try clear_value x6
    split
    · refine runTasks_only p_regs p_out p_hif p_evt p_ldg p_dlr p_cores p_pke p_dma p_fwd p_aud p_vid p_sys ?_
      assumption
    · assumption

theorem signalCard_only (p_regs : e .regs) (p_out : e .out) (p_hif : e .hif) (p_evt : e .evt) (p_ldg : e .ldg) (p_dlr : e
    .dlr) (p_cores : e .cores) (p_pke : e .pke) (p_dma : e .dma) (p_fwd : e .fwd) (p_aud : e .aud) (p_vid : e .vid) (p_sys :
    e .sys) {x1i x2i x3i} (h : Only e a d) : Only e a (signalCard d x1i x2i x3i) := by
  unfold signalCard
  split
  · split
    · extract_lets +onlyGivenNames x1
      extract_lets +onlyGivenNames x2
      have h2 : Only e a x2 := by
        unfold x2
        refine flowProgress_only p_dlr ?_
        refine putCard_only p_dlr ?_
        assumption
      try clear_value x2
      split
      · refine runTasks_only p_regs p_out p_hif p_evt p_ldg p_dlr p_cores p_pke p_dma p_fwd p_aud p_vid p_sys ?_
        assumption
      · assumption
    · refine raiseExcess_only p_regs p_out p_hif ?_
      assumption
  · refine raiseExcess_only p_regs p_out p_hif ?_
    assumption

theorem releaseDue_only (p_regs : e .regs) (p_out : e .out) (p_hif : e .hif) (p_evt : e .evt) (p_ldg : e .ldg) (p_dlr : e
    .dlr) (p_cores : e .cores) (p_pke : e .pke) (p_dma : e .dma) (p_fwd : e .fwd) (p_aud : e .aud) (p_vid : e .vid) (p_sys :
    e .sys) (h : Only e a d) : Only e a (releaseDue d) := by
  unfold releaseDue
  refine runTasks_only p_regs p_out p_hif p_evt p_ldg p_dlr p_cores p_pke p_dma p_fwd p_aud p_vid p_sys ?_
  assumption

theorem dealerBoundary_only (p_regs : e .regs) (p_out : e .out) (p_hif : e .hif) (p_evt : e .evt) (p_ldg : e .ldg) (p_dlr :
    e .dlr) (p_cores : e .cores) (p_pke : e .pke) (p_dma : e .dma) (p_fwd : e .fwd) (p_aud : e .aud) (p_vid : e .vid) (p_sys
    : e .sys) {x1i} (h : Only e a d) : Only e a (dealerBoundary d x1i) := by
  unfold dealerBoundary
  extract_lets +onlyGivenNames x1
  have h1 : Only e a x1 := by
    unfold x1
    refine watchdog_only p_regs p_out p_hif p_dlr ?_
    refine releaseDue_only p_regs p_out p_hif p_evt p_ldg p_dlr p_cores p_pke p_dma p_fwd p_aud p_vid p_sys ?_
    refine dropDue_only p_regs p_out p_hif p_evt p_ldg p_dlr p_cores p_pke p_dma p_fwd p_aud p_vid p_sys ?_
    assumption
  try clear_value x1
  extract_lets +onlyGivenNames x2
  extract_lets +onlyGivenNames x3
  have h3 : Only e a x3 := by
    unfold x3
    refine Only.hifUpd p_hif ?_ _
    assumption
  try clear_value x3
  refine Only.foldl ?_ (fun d4 y4 h4 => ?_)
  · assumption
  · refine submitStallCmd_only p_regs p_out p_hif ?_
    assumption

theorem fwCard_only (p_regs : e .regs) (p_out : e .out) (p_hif : e .hif) (p_evt : e .evt) (p_ldg : e .ldg) (p_dlr : e .dlr)
    (p_cores : e .cores) (p_pke : e .pke) (p_dma : e .dma) (p_fwd : e .fwd) (p_aud : e .aud) (p_vid : e .vid) (p_sys : e
    .sys) {x1i x2i} (h : Only e a d) : Only e a (fwCard d x1i x2i) := by
  unfold fwCard
  extract_lets +onlyGivenNames x1
  have h1 : Only e a x1 := by
    unfold x1
    refine ensureFlow_only p_dlr ?_
    assumption
  try clear_value x1
  split
  · refine storeCard_only p_regs p_out p_hif p_evt p_ldg p_dlr p_cores p_pke p_dma p_fwd p_aud p_vid p_sys ?_
    assumption
  · assumption

/-! ### MacOps -/

theorem putPort_only (p_mac : e .mac) {x1i x2i} (h : Only e a d) : Only e a (putPort d x1i x2i) := by
  unfold putPort
  refine Only.macUpd p_mac ?_ _
  assumption

theorem laneRunning_only (p_regs : e .regs) (p_mac : e .mac) {x1i} (h : Only e a d) : Only e a (laneRunning d x1i) := by
  unfold laneRunning
  extract_lets +onlyGivenNames x1
  extract_lets +onlyGivenNames x2
  have h2 : Only e a x2 := by
    unfold x2
    refine Only.macUpd p_mac ?_ _
    assumption
  try clear_value x2
  split
  · refine putB_only p_regs ?_
    assumption
  · assumption

theorem setLink_only (p_regs : e .regs) {x1i x2i} (h : Only e a d) : Only e a (setLink d x1i x2i) := by
  unfold setLink
  extract_lets +onlyGivenNames x1
  have h1 : Only e a x1 := by
    unfold x1
    refine putB_only p_regs ?_
    refine setF_only p_regs ?_
    assumption
  try clear_value x1
  split
  · refine setF_only p_regs ?_
    assumption
  · refine setF_only p_regs ?_
    assumption

theorem clearPause_only (p_regs : e .regs) (p_mac : e .mac) {x1i} (h : Only e a d) : Only e a (clearPause d x1i) := by
  unfold clearPause
  refine putPort_only p_mac ?_
  refine setReg_only p_regs ?_
  assumption

theorem portRunning_only (p_regs : e .regs) (p_mac : e .mac) {x1i} (h : Only e a d) : Only e a (portRunning d x1i) := by
  unfold portRunning
  extract_lets +onlyGivenNames x1
  have h1 : Only e a x1 := by
    unfold x1
    refine Only.foldl ?_ (fun d2 y2 h2 => ?_)
    · assumption
    · split
      · refine laneRunning_only p_regs p_mac ?_
        refine setUState_only p_regs ?_
        assumption
      · assumption
  try clear_value x1
  refine setLink_only p_regs ?_
  refine putPort_only p_mac ?_
  assumption

theorem showRole_only (p_regs : e .regs) {x1i} (h : Only e a d) : Only e a (showRole d x1i) := by
  unfold showRole
  refine putB_only p_regs ?_
  assumption

theorem setTypeNow_only (p_regs : e .regs) {x1i x2i x3i} (h : Only e a d) : Only e a (setTypeNow d x1i x2i x3i) := by
  unfold setTypeNow
  refine setF_only p_regs ?_
  refine setF_only p_regs ?_
  assumption

theorem setRole_only (p_regs : e .regs) {x1i x2i} (h : Only e a d) : Only e a (setRole d x1i x2i) := by
  unfold setRole
  refine showRole_only p_regs ?_
  refine putB_only p_regs ?_
  assumption

theorem markLane_only (p_regs : e .regs) (p_mac : e .mac) {x1i x2i} (h : Only e a d) : Only e a (markLane d x1i x2i) := by
  unfold markLane
  extract_lets +onlyGivenNames x1
  have h1 : Only e a x1 := by
    unfold x1
    refine setF_only p_regs ?_
    refine putB_only p_regs ?_
    assumption
  try clear_value x1
  extract_lets +onlyGivenNames x2
  have h2 : Only e a x2 := by
    unfold x2
    refine cnt_only p_regs ?_
    refine putB_only p_regs ?_
    assumption
  try clear_value x2
  refine Only.macUpd p_mac ?_ _
  assumption

theorem afterType_only (p_regs : e .regs) {x1i} (h : Only e a d) : Only e a (afterType d x1i) := by
  unfold afterType
  split
  · refine setLink_only p_regs ?_
    assumption
  · refine setLink_only p_regs ?_
    assumption

theorem writeRole_only (p_regs : e .regs) (p_brd : e .brd) {x1i x2i} (h : Only e a d) : Only e a (writeRole d x1i x2i) := by
  unfold writeRole
  split
  · refine putB_only p_regs ?_
    assumption
  · extract_lets +onlyGivenNames x1
    have h1 : Only e a x1 := by
      unfold x1
      refine showRole_only p_regs ?_
      refine setReg_only p_regs ?_
      assumption
    try clear_value x1
    split
    · refine Only.brdUpd p_brd ?_ _
      assumption
    · assumption

theorem leaveUp_only (p_regs : e .regs) (p_mac : e .mac) {x1i} (h : Only e a d) : Only e a (leaveUp d x1i) := by
  unfold leaveUp
  split
  · assumption
  · extract_lets +onlyGivenNames x1
    have h1 : Only e a x1 := by
      unfold x1
      refine clearPause_only p_regs p_mac ?_
      assumption
    try clear_value x1
    extract_lets +onlyGivenNames x2
    refine putPort_only p_mac ?_
    assumption

theorem portStopped_only (p_regs : e .regs) (p_mac : e .mac) {x1i} (h : Only e a d) : Only e a (portStopped d x1i) := by
  unfold portStopped
  extract_lets +onlyGivenNames x1
  have h1 : Only e a x1 := by
    unfold x1
    refine setLink_only p_regs ?_
    refine leaveUp_only p_regs p_mac ?_
    assumption
  try clear_value x1
  extract_lets +onlyGivenNames x2
  have h2 : Only e a x2 := by
    unfold x2
    refine Only.foldl ?_ (fun d3 y3 h3 => ?_)
    · assumption
    · refine putB_only p_regs ?_
      refine putB_only p_regs ?_
      refine setF_only p_regs ?_
      assumption
  try clear_value x2
  extract_lets +onlyGivenNames x4
  have h4 : Only e a x4 := by
    unfold x4
    refine putB_only p_regs ?_
    refine setTypeNow_only p_regs ?_
    assumption
  try clear_value x4
  refine showRole_only p_regs ?_
  refine putPort_only p_mac ?_
  assumption

theorem fitRole_only (p_regs : e .regs) {x1i} (h : Only e a d) : Only e a (fitRole d x1i) := by
  unfold fitRole
  split
  · refine putB_only p_regs ?_
    refine setRole_only p_regs ?_
    assumption
  · refine showRole_only p_regs ?_
    assumption

theorem endCheck_only (p_regs : e .regs) (p_mac : e .mac) {x1i} (h : Only e a d) : Only e a (endCheck d x1i) := by
  unfold endCheck
  split
  · refine setLink_only p_regs ?_
    refine putPort_only p_mac ?_
    assumption
  · extract_lets +onlyGivenNames x1
    extract_lets +onlyGivenNames x2
    have h2 : Only e a x2 := by
      unfold x2
      refine putPort_only p_mac ?_
      assumption
    try clear_value x2
    extract_lets +onlyGivenNames x3
    have h3 : Only e a x3 := by
      unfold x3
      refine putB_only p_regs ?_
      assumption
    try clear_value x3
    extract_lets +onlyGivenNames x4
    have h4 : Only e a x4 := by
      unfold x4
      refine fitRole_only p_regs ?_
      refine setTypeNow_only p_regs ?_
      assumption
    try clear_value x4
    extract_lets +onlyGivenNames x5
    have h5 : Only e a x5 := by
      unfold x5
      refine Only.foldl ?_ (fun d6 y6 h6 => ?_)
      · assumption
      · refine putB_only p_regs ?_
        refine putB_only p_regs ?_
        assumption
    try clear_value x5
    split
    · refine setLink_only p_regs ?_
      assumption
    · refine afterType_only p_regs ?_
      assumption

theorem portStarting_only (p_regs : e .regs) (p_mac : e .mac) {x1i} (h : Only e a d) : Only e a (portStarting d x1i) := by
  unfold portStarting
  extract_lets +onlyGivenNames x1
  extract_lets +onlyGivenNames x2
  have h2 : Only e a x2 := by
    unfold x2
    refine Only.foldl ?_ (fun d3 y3 h3 => ?_)
    · assumption
    · split
      · refine setUState_only p_regs ?_
        assumption
      · assumption
  try clear_value x2
  extract_lets +onlyGivenNames x4
  extract_lets +onlyGivenNames x5
  have h5 : Only e a x5 := by
    unfold x5
    refine Only.macUpd p_mac ?_ _
    assumption
  try clear_value x5
  refine fitRole_only p_regs ?_
  refine setTypeNow_only p_regs ?_
  assumption

theorem loseLink_only (p_regs : e .regs) (p_out : e .out) (p_hif : e .hif) (p_mac : e .mac) {x1i x2i} (h : Only e a d) :
    Only e a (loseLink d x1i x2i) := by
  unfold loseLink
  split
  · assumption
  · extract_lets +onlyGivenNames x1
    have h1 : Only e a x1 := by
      unfold x1
      refine cnt_only p_regs ?_
      refine setLink_only p_regs ?_
      refine leaveUp_only p_regs p_mac ?_
      assumption
    try clear_value x1
    refine raise_only p_regs p_out p_hif ?_
    assumption

theorem laneStopped_only (p_regs : e .regs) (p_out : e .out) (p_hif : e .hif) (p_mac : e .mac) {x1i} (h : Only e a d) : Only
    e a (laneStopped d x1i) := by
  unfold laneStopped
  split
  · assumption
  · extract_lets +onlyGivenNames x1
    have h1 : Only e a x1 := by
      unfold x1
      refine putB_only p_regs ?_
      refine setF_only p_regs ?_
      assumption
    try clear_value x1
    extract_lets +onlyGivenNames x2
    extract_lets +onlyGivenNames x3
    have h3 : Only e a x3 := by
      unfold x3
      refine Only.macUpd p_mac ?_ _
      assumption
    try clear_value x3
    split
    · refine loseLink_only p_regs p_out p_hif p_mac ?_
      assumption
    · assumption

theorem hitLink_only (p_regs : e .regs) (p_out : e .out) (p_hif : e .hif) (p_mac : e .mac) {x1i} (h : Only e a d) : Only e a
    (hitLink d x1i) := by
  unfold hitLink
  split
  · assumption
  · split
    · assumption
    · split
      · refine loseLink_only p_regs p_out p_hif p_mac ?_
        assumption
      · split
        · refine setLink_only p_regs ?_
          assumption
        · assumption

theorem faultLane_only (p_regs : e .regs) (p_out : e .out) (p_hif : e .hif) (p_mac : e .mac) {x1i x2i x3i} (h : Only e a d)
    : Only e a (faultLane d x1i x2i x3i) := by
  unfold faultLane
  extract_lets +onlyGivenNames x1
  have h1 : Only e a x1 := by
    unfold x1
    refine markLane_only p_regs p_mac ?_
    assumption
  try clear_value x1
  extract_lets +onlyGivenNames x2
  have h2 : Only e a x2 := by
    unfold x2
    split
    · refine markLane_only p_regs p_mac ?_
      refine hitLink_only p_regs p_out p_hif p_mac ?_
      assumption
    · assumption
  try clear_value x2
  refine raise_only p_regs p_out p_hif ?_
  assumption

end Sys2Proof.Machine
end

