-- ==== Sys2Proof/Laws/Frame2.lean ====
section
/-! SUPPORT. What each operation of UnitOps, CoreOps, DealerCmd, Audio may write. -/
namespace Sys2Proof.Machine
variable {e : Piece → Prop} {a d : Dev}

/-! ### UnitOps -/

theorem putBank_only (p_mem : e .mem) {x1i} (h : Only e a d) : Only e a (putBank d x1i) := by
  unfold putBank
  refine Only.memUpd p_mem ?_ _ rfl rfl rfl
  assumption

theorem releaseBank_only (p_mem : e .mem) {x1i x2i x3i} (h : Only e a d) : Only e a (releaseBank d x1i x2i x3i) := by
  unfold releaseBank
  extract_lets +onlyGivenNames x1
  split
  · refine putBank_only p_mem ?_
    assumption
  · assumption

theorem returnQueue_only (p_dlr : e .dlr) {x1i} (h : Only e a d) : Only e a (returnQueue d x1i) := by
  unfold returnQueue
  refine Only.foldl ?_ (fun d1 y1 h1 => ?_)
  · refine setQueue_only p_dlr ?_
    assumption
  · split
    · refine putCard_only p_dlr ?_
      assumption
    · assumption

theorem loadLibrary_only (p_regs : e .regs) (p_mem : e .mem) {x1i x2i} (h : Only e a d) : Only e a (loadLibrary d x1i x2i) :=
    by
  unfold loadLibrary
  extract_lets +onlyGivenNames x1
  extract_lets +onlyGivenNames x2
  extract_lets +onlyGivenNames x3
  have h3 : Only e a x3 := by
    unfold x3
    refine Only.memUpd p_mem ?_ _ rfl rfl rfl
    assumption
  try clear_value x3
  refine setReg_only p_regs ?_
  assumption

theorem sizePool_only (p_regs : e .regs) (p_evt : e .evt) (p_ldg : e .ldg) {x1i x2i} (h : Only e a d) : Only e a (sizePool d
    x1i x2i) := by
  unfold sizePool
  split
  · assumption
  · refine ledgMod_only p_regs p_evt p_ldg ?_ ?_
    · intro z1
      intro z2
      exact all_setCap_sound ‹_›
    · assumption

theorem setDecodeCap_only (p_regs : e .regs) (p_evt : e .evt) (p_ldg : e .ldg) (h : Only e a d) : Only e a (setDecodeCap d)
    := by
  unfold setDecodeCap
  extract_lets +onlyGivenNames x1
  refine setReg_only p_regs ?_
  refine ledgMod_only p_regs p_evt p_ldg ?_ ?_
  · intro z2
    intro z3
    exact all_setCap_sound ‹_›
  · assumption

theorem emptyStore_only (p_regs : e .regs) (p_evt : e .evt) (p_ldg : e .ldg) (p_fwd : e .fwd) (h : Only e a d) : Only e a
    (emptyStore d) := by
  unfold emptyStore
  extract_lets +onlyGivenNames x1
  refine ledgGive_only p_regs p_evt p_ldg ?_
  refine Only.fwdUpd p_fwd ?_ _
  assumption

theorem bookPool_only (p_regs : e .regs) (p_evt : e .evt) (p_ldg : e .ldg) (p_sys : e .sys) {x1i x2i x3i} (h : Only e a d) :
    Only e a (bookPool d x1i x2i x3i) := by
  unfold bookPool
  extract_lets +onlyGivenNames x1
  extract_lets +onlyGivenNames x2
  have h2 : Only e a x2 := by
    unfold x2
    refine book_only p_regs p_evt p_ldg ?_
    assumption
  try clear_value x2
  refine Only.sysUpd p_sys ?_ _ rfl rfl rfl rfl rfl rfl
  assumption

theorem startUnit_only (p_regs : e .regs) (p_evt : e .evt) (p_ldg : e .ldg) (p_mac : e .mac) (p_fwd : e .fwd) (p_sys : e
    .sys) {x1i x2i} (h : Only e a d) : Only e a (startUnit d x1i x2i) := by
  unfold startUnit
  extract_lets +onlyGivenNames x1
  have h1 : Only e a x1 := by
    unfold x1
    refine setUState_only p_regs ?_
    assumption
  try clear_value x1
  extract_lets +onlyGivenNames x2
  have h2 : Only e a x2 := by
    unfold x2
    split
    · refine sizePool_only p_regs p_evt p_ldg ?_
      assumption
    · split
      · refine portStarting_only p_regs p_mac ?_
        assumption
      · split
        · refine emptyStore_only p_regs p_evt p_ldg p_fwd ?_
          assumption
        · assumption
  try clear_value x2
  split
  · assumption
  · refine Only.sysUpd p_sys ?_ _ rfl rfl rfl rfl rfl rfl
    assumption

theorem unbookPool_only (p_regs : e .regs) (p_evt : e .evt) (p_ldg : e .ldg) (p_sys : e .sys) {x1i x2i} (h : Only e a d) :
    Only e a (unbookPool d x1i x2i) := by
  unfold unbookPool
  split
  · assumption
  · refine unbook_only p_regs p_evt p_ldg ?_
    refine Only.sysUpd p_sys ?_ _ rfl rfl rfl rfl rfl rfl
    assumption

theorem unbookCmd_only (p_regs : e .regs) (p_evt : e .evt) (p_ldg : e .ldg) (p_sys : e .sys) {x1i} (h : Only e a d) : Only e
    a (unbookCmd d x1i) := by
  unfold unbookCmd
  refine Only.foldl ?_ (fun d1 y1 h1 => ?_)
  · assumption
  · refine unbookPool_only p_regs p_evt p_ldg p_sys ?_
    assumption

theorem dropHold_only (p_regs : e .regs) (p_out : e .out) (p_hif : e .hif) (p_cores : e .cores) (p_mem : e .mem) {x1i} (h :
    Only e a d) : Only e a (dropHold d x1i) := by
  unfold dropHold
  extract_lets +onlyGivenNames x1
  split
  · assumption
  · extract_lets +onlyGivenNames x2
    extract_lets +onlyGivenNames x3
    have h3 : Only e a x3 := by
      unfold x3
      refine releaseBank_only p_mem ?_
      refine putCore_only p_cores ?_
      assumption
    try clear_value x3
    extract_lets +onlyGivenNames x4
    have h4 : Only e a x4 := by
      unfold x4
      refine cnt_only p_regs ?_
      assumption
    try clear_value x4
    extract_lets +onlyGivenNames x5
    have h5 : Only e a x5 := by
      unfold x5
      refine setReg_only p_regs ?_
      assumption
    try clear_value x5
    extract_lets +onlyGivenNames x6
    have h6 : Only e a x6 := by
      unfold x6
      refine setReg_only p_regs ?_
      assumption
    try clear_value x6
    refine raise_only p_regs p_out p_hif ?_
    assumption

theorem setMode_only (p_regs : e .regs) (p_out : e .out) (p_hif : e .hif) (p_mode : e .mode) (p_sys : e .sys) {m cause} (h :
    Only e a d) : Only e a (setMode d m cause) := by
  unfold setMode
  extract_lets x1 s1 x2
  have h2 : Only e a x2 :=
    Only.sysUpd p_sys (Only.modeUpd p_mode h (if halted d then .haltSafe else m) fun w => by simp [halted, w]) _ rfl rfl rfl
        rfl rfl rfl
  clear_value x2
  split
  · assumption
  · refine raise_only p_regs p_out p_hif ?_
    assumption

theorem failModeSets_only (p_regs : e .regs) (p_out : e .out) (p_hif : e .hif) (p_sys : e .sys) {x1i} (h : Only e a d) :
    Only e a (failModeSets d x1i) := by
  unfold failModeSets
  refine Only.foldl ?_ (fun d1 y1 h1 => ?_)
  · assumption
  · refine complete_only p_regs p_out p_hif p_sys ?_
    assumption

theorem progressChange_only (p_regs : e .regs) (p_out : e .out) (p_hif : e .hif) (p_evt : e .evt) (p_ldg : e .ldg) (p_mac :
    e .mac) (p_mem : e .mem) (p_fwd : e .fwd) (p_mode : e .mode) (p_sys : e .sys) {x1i} (h : Only e a d) : Only e a
    (progressChange d x1i) := by
  unfold progressChange
  split
  · assumption
  · split
    · extract_lets +onlyGivenNames x1
      extract_lets +onlyGivenNames x2
      have h2 : Only e a x2 := by
        unfold x2
        refine Only.sysUpd p_sys ?_ _ rfl rfl rfl rfl rfl rfl
        assumption
      try clear_value x2
      refine Only.foldl ?_ (fun d3 y3 h3 => ?_)
      · assumption
      · split
        · refine startUnit_only p_regs p_evt p_ldg p_mac p_fwd p_sys ?_
          assumption
        · assumption
    · split
      · assumption
      · extract_lets +onlyGivenNames x4
        extract_lets +onlyGivenNames x5
        extract_lets +onlyGivenNames x6
        have h6 : Only e a x6 := by
          unfold x6
          refine Only.upd (b := d) ?_ rfl (.inr rfl) rfl (.inr rfl) (.inr rfl) (.inr rfl) (.inr rfl) (.inr rfl) (.inr rfl)
              (.inr rfl) (.inr rfl) (.inr rfl) (.inr rfl) (.inr rfl) (.inr rfl) rfl rfl rfl (.inl rfl) (.inl rfl) (.inl rfl)
              (.inr ⟨p_mem, rfl, rfl, rfl⟩) (.inr ⟨p_sys, rfl, rfl, rfl, rfl, rfl, rfl⟩)
          assumption
        try clear_value x6
        refine complete_only p_regs p_out p_hif p_sys ?_
        refine setMode_only p_regs p_out p_hif p_mode p_sys ?_
        assumption

theorem enterHalt_only (p_regs : e .regs) (p_out : e .out) (p_hif : e .hif) (p_mode : e .mode) (p_sys : e .sys) {x1i x2i} (h
    : Only e a d) : Only e a (enterHalt d x1i x2i) := by
  unfold enterHalt
  split
  · assumption
  · extract_lets +onlyGivenNames x1
    extract_lets +onlyGivenNames x2
    extract_lets +onlyGivenNames x3
    have h3 : Only e a x3 := by
      unfold x3
      refine Only.sysUpd p_sys ?_ _ rfl rfl rfl rfl rfl rfl
      assumption
    try clear_value x3
    extract_lets +onlyGivenNames x4
    have h4 : Only e a x4 := by
      unfold x4
      refine setMode_only p_regs p_out p_hif p_mode p_sys ?_
      assumption
    try clear_value x4
    extract_lets +onlyGivenNames x5
    have h5 : Only e a x5 := by
      unfold x5
      refine raise_only p_regs p_out p_hif ?_
      assumption
    try clear_value x5
    refine failModeSets_only p_regs p_out p_hif p_sys ?_
    assumption

theorem progressChanges_only (p_regs : e .regs) (p_out : e .out) (p_hif : e .hif) (p_evt : e .evt) (p_ldg : e .ldg) (p_mac :
    e .mac) (p_mem : e .mem) (p_fwd : e .fwd) (p_mode : e .mode) (p_sys : e .sys) (h : Only e a d) : Only e a
    (progressChanges d) := by
  unfold progressChanges
  extract_lets +onlyGivenNames x1
  have h1 : Only e a x1 := by
    unfold x1
    refine Only.foldl ?_ (fun d2 y2 h2 => ?_)
    · assumption
    · refine progressChange_only p_regs p_out p_hif p_evt p_ldg p_mac p_mem p_fwd p_mode p_sys ?_
      assumption
  try clear_value x1
  refine Only.foldl ?_ (fun d3 y3 h3 => ?_)
  · assumption
  · refine progressChange_only p_regs p_out p_hif p_evt p_ldg p_mac p_mem p_fwd p_mode p_sys ?_
    assumption

theorem completeAll_only (p_regs : e .regs) (p_out : e .out) (p_hif : e .hif) (p_sys : e .sys) {x1i x2i x3i} (h : Only e a
    d) : Only e a (completeAll d x1i x2i x3i) := by
  unfold completeAll
  refine Only.foldl ?_ (fun d1 y1 h1 => ?_)
  · assumption
  · refine complete_only p_regs p_out p_hif p_sys ?_
    assumption

theorem unawait_only (p_regs : e .regs) (p_out : e .out) (p_hif : e .hif) (p_evt : e .evt) (p_ldg : e .ldg) (p_mac : e .mac)
    (p_mem : e .mem) (p_fwd : e .fwd) (p_mode : e .mode) (p_sys : e .sys) {x1i x2i x3i} (h : Only e a d) : Only e a (unawait
    d x1i x2i x3i) := by
  unfold unawait
  refine progressChanges_only p_regs p_out p_hif p_evt p_ldg p_mac p_mem p_fwd p_mode p_sys ?_
  refine Only.sysUpd p_sys ?_ _ rfl rfl rfl rfl rfl rfl
  assumption

theorem reachRunning_only (p_regs : e .regs) (p_out : e .out) (p_hif : e .hif) (p_evt : e .evt) (p_ldg : e .ldg) (p_mac : e
    .mac) (p_mem : e .mem) (p_fwd : e .fwd) (p_mode : e .mode) (p_sys : e .sys) {x1i} (h : Only e a d) : Only e a
    (reachRunning d x1i) := by
  unfold reachRunning
  extract_lets +onlyGivenNames x1
  have h1 : Only e a x1 := by
    unfold x1
    refine setUState_only p_regs ?_
    assumption
  try clear_value x1
  extract_lets +onlyGivenNames x2
  have h2 : Only e a x2 := by
    unfold x2
    split
    · refine loadLibrary_only p_regs p_mem ?_
      assumption
    · split
      · refine portRunning_only p_regs p_mac ?_
        assumption
      · split
        · refine laneRunning_only p_regs p_mac ?_
          assumption
        · assumption
  try clear_value x2
  extract_lets +onlyGivenNames x3
  extract_lets +onlyGivenNames x4
  have h4 : Only e a x4 := by
    unfold x4
    refine Only.sysUpd p_sys ?_ _ rfl rfl rfl rfl rfl rfl
    assumption
  try clear_value x4
  extract_lets +onlyGivenNames x5
  have h5 : Only e a x5 := by
    unfold x5
    refine completeAll_only p_regs p_out p_hif p_sys ?_
    assumption
  try clear_value x5
  extract_lets +onlyGivenNames x6
  have h6 : Only e a x6 := by
    unfold x6
    refine unawait_only p_regs p_out p_hif p_evt p_ldg p_mac p_mem p_fwd p_mode p_sys ?_
    assumption
  try clear_value x6
  split
  · assumption
  · refine setUState_only p_regs ?_
    assumption

theorem reachStopped_only (p_regs : e .regs) (p_out : e .out) (p_hif : e .hif) (p_evt : e .evt) (p_ldg : e .ldg) (p_dlr : e
    .dlr) (p_mac : e .mac) (p_mem : e .mem) (p_fwd : e .fwd) (p_mode : e .mode) (p_sys : e .sys) {x1i} (h : Only e a d) :
    Only e a (reachStopped d x1i) := by
  unfold reachStopped
  extract_lets +onlyGivenNames x1
  extract_lets +onlyGivenNames x2
  have h2 : Only e a x2 := by
    unfold x2
    refine returnQueue_only p_dlr ?_
    refine setUState_only p_regs ?_
    assumption
  try clear_value x2
  extract_lets +onlyGivenNames x3
  have h3 : Only e a x3 := by
    unfold x3
    split
    · refine unbookPool_only p_regs p_evt p_ldg p_sys ?_
      assumption
    · split
      · refine portStopped_only p_regs p_mac ?_
        assumption
      · split
        · refine laneStopped_only p_regs p_out p_hif p_mac ?_
          assumption
        · assumption
  try clear_value x3
  refine unawait_only p_regs p_out p_hif p_evt p_ldg p_mac p_mem p_fwd p_mode p_sys ?_
  refine completeAll_only p_regs p_out p_hif p_sys ?_
  assumption

theorem dropQueue_only (p_regs : e .regs) (p_out : e .out) (p_hif : e .hif) (p_evt : e .evt) (p_ldg : e .ldg) (p_dlr : e
    .dlr) (p_cores : e .cores) (p_pke : e .pke) (p_dma : e .dma) (p_fwd : e .fwd) (p_aud : e .aud) (p_vid : e .vid) (p_sys :
    e .sys) {x1i} (h : Only e a d) : Only e a (dropQueue d x1i) := by
  unfold dropQueue
  split
  · assumption
  · refine Only.foldl ?_ (fun d1 y1 h1 => ?_)
    · assumption
    · refine dropCard_only p_regs p_out p_hif p_evt p_ldg p_dlr p_cores p_pke p_dma p_fwd p_aud p_vid p_sys ?_
      assumption

theorem fenceQuarter_only (p_regs : e .regs) (p_out : e .out) (p_hif : e .hif) (p_evt : e .evt) (p_ldg : e .ldg) (p_dlr : e
    .dlr) (p_cores : e .cores) (p_mac : e .mac) (p_pke : e .pke) (p_mem : e .mem) (p_dma : e .dma) (p_fwd : e .fwd) (p_aud :
    e .aud) (p_vid : e .vid) (p_mode : e .mode) (p_sys : e .sys) {x1i x2i x3i} (h : Only e a d) : Only e a (fenceQuarter d
    x1i x2i x3i) := by
  unfold fenceQuarter
  split
  · assumption
  · split
    · refine enterHalt_only p_regs p_out p_hif p_mode p_sys ?_
      assumption
    · extract_lets +onlyGivenNames x1
      extract_lets +onlyGivenNames x2
      have h2 : Only e a x2 := by
        unfold x2
        refine Only.foldl ?_ (fun d3 y3 h3 => ?_)
        · assumption
        · refine dropHold_only p_regs p_out p_hif p_cores p_mem ?_
          assumption
      try clear_value x2
      extract_lets +onlyGivenNames x4
      have h4 : Only e a x4 := by
        unfold x4
        refine Only.foldl ?_ (fun d5 y5 h5 => ?_)
        · assumption
        · refine dropCard_only p_regs p_out p_hif p_evt p_ldg p_dlr p_cores p_pke p_dma p_fwd p_aud p_vid p_sys ?_
          assumption
      try clear_value x4
      extract_lets +onlyGivenNames x6
      extract_lets +onlyGivenNames x7
      have h7 : Only e a x7 := by
        unfold x7
        refine Only.dlrUpd p_dlr ?_ _
        assumption
      try clear_value x7
      extract_lets +onlyGivenNames x8
      extract_lets +onlyGivenNames x9
      extract_lets +onlyGivenNames x10
      have h10 : Only e a x10 := by
        unfold x10
        refine Only.sysUpd p_sys ?_ _ rfl rfl rfl rfl rfl rfl
        assumption
      try clear_value x10
      extract_lets +onlyGivenNames x11
      have h11 : Only e a x11 := by
        unfold x11
        refine Only.foldl ?_ (fun d12 y12 h12 => ?_)
        · assumption
        · extract_lets +onlyGivenNames x13
          have h13 : Only e a x13 := by
            unfold x13
            refine setUState_only p_regs ?_
            assumption
          try clear_value x13
          extract_lets +onlyGivenNames x14
          have h14 : Only e a x14 := by
            unfold x14
            refine completeAll_only p_regs p_out p_hif p_sys ?_
            assumption
          try clear_value x14
          extract_lets +onlyGivenNames x15
          have h15 : Only e a x15 := by
            unfold x15
            refine completeAll_only p_regs p_out p_hif p_sys ?_
            assumption
          try clear_value x15
          refine unawait_only p_regs p_out p_hif p_evt p_ldg p_mac p_mem p_fwd p_mode p_sys ?_
          assumption
      try clear_value x11
      extract_lets +onlyGivenNames x16
      extract_lets +onlyGivenNames x17
      have h17 : Only e a x17 := by
        unfold x17
        refine Only.memUpd p_mem ?_ _ rfl rfl rfl
        assumption
      try clear_value x17
      extract_lets +onlyGivenNames x18
      extract_lets +onlyGivenNames x19
      have h19 : Only e a x19 := by
        unfold x19
        refine Only.sysUpd p_sys ?_ _ rfl rfl rfl rfl rfl rfl
        assumption
      try clear_value x19
      extract_lets +onlyGivenNames x20
      have h20 : Only e a x20 := by
        unfold x20
        refine setDecodeCap_only p_regs p_evt p_ldg ?_
        assumption
      try clear_value x20
      extract_lets +onlyGivenNames x21
      have h21 : Only e a x21 := by
        unfold x21
        refine raise_only p_regs p_out p_hif ?_
        assumption
      try clear_value x21
      split
      · assumption
      · refine raise_only p_regs p_out p_hif ?_
        assumption

theorem enterFault_only (p_regs : e .regs) (p_out : e .out) (p_hif : e .hif) (p_evt : e .evt) (p_ldg : e .ldg) (p_dlr : e
    .dlr) (p_cores : e .cores) (p_mac : e .mac) (p_pke : e .pke) (p_mem : e .mem) (p_dma : e .dma) (p_fwd : e .fwd) (p_aud :
    e .aud) (p_vid : e .vid) (p_mode : e .mode) (p_sys : e .sys) {x1i} (h : Only e a d) : Only e a (enterFault d x1i) := by
  unfold enterFault
  extract_lets +onlyGivenNames x1
  have h1 : Only e a x1 := by
    unfold x1
    refine setUState_only p_regs ?_
    assumption
  try clear_value x1
  extract_lets +onlyGivenNames x2
  have h2 : Only e a x2 := by
    unfold x2
    split
    · refine portStopped_only p_regs p_mac ?_
      assumption
    · split
      · refine laneStopped_only p_regs p_out p_hif p_mac ?_
        assumption
      · assumption
  try clear_value x2
  extract_lets +onlyGivenNames x3
  have h3 : Only e a x3 := by
    unfold x3
    refine dropQueue_only p_regs p_out p_hif p_evt p_ldg p_dlr p_cores p_pke p_dma p_fwd p_aud p_vid p_sys ?_
    assumption
  try clear_value x3
  extract_lets +onlyGivenNames x4
  extract_lets +onlyGivenNames x5
  have h5 : Only e a x5 := by
    unfold x5
    refine Only.sysUpd p_sys ?_ _ rfl rfl rfl rfl rfl rfl
    assumption
  try clear_value x5
  extract_lets +onlyGivenNames x6
  have h6 : Only e a x6 := by
    unfold x6
    refine completeAll_only p_regs p_out p_hif p_sys ?_
    assumption
  try clear_value x6
  extract_lets +onlyGivenNames x7
  have h7 : Only e a x7 := by
    unfold x7
    refine completeAll_only p_regs p_out p_hif p_sys ?_
    assumption
  try clear_value x7
  refine unawait_only p_regs p_out p_hif p_evt p_ldg p_mac p_mem p_fwd p_mode p_sys ?_
  assumption

theorem faultUnit_only (p_regs : e .regs) (p_out : e .out) (p_hif : e .hif) (p_evt : e .evt) (p_ldg : e .ldg) (p_dlr : e
    .dlr) (p_cores : e .cores) (p_mac : e .mac) (p_pke : e .pke) (p_mem : e .mem) (p_dma : e .dma) (p_fwd : e .fwd) (p_aud :
    e .aud) (p_vid : e .vid) (p_mode : e .mode) (p_sys : e .sys) {x1i} (h : Only e a d) : Only e a (faultUnit d x1i) := by
  unfold faultUnit
  refine enterFault_only p_regs p_out p_hif p_evt p_ldg p_dlr p_cores p_mac p_pke p_mem p_dma p_fwd p_aud p_vid p_mode p_sys
      ?_
  refine raise_only p_regs p_out p_hif ?_
  assumption

/-! ### CoreOps -/

theorem notInLock_only {x r} (h : IOnly e a r) : IOnly e a (notInLock x r) := by
  unfold notInLock
  split
  · trivial
  · exact h

theorem setPad_only (p_pad : e .pad) {q m} (hm : spWf (padMem d q) = true → spWf m = true) (h : Only e a d) : Only e a
    (setPad d q m) :=
  Only.padUpd p_pad h _ fun w => all_set w (hm (spWf_nth w _)) _

theorem haltCheck_only (p_cores : e .cores) {x1i} (h : Only e a d) : Only e a (haltCheck d x1i) := by
  unfold haltCheck
  extract_lets +onlyGivenNames x1
  split
  · assumption
  · refine putCore_only p_cores ?_
    assumption

theorem setLocal_only (p_local_ : e .local_) {k m} (hm : spWf (localMem d k) = true → spWf m = true) (h : Only e a d) : Only
    e a (setLocal d k m) := by
  refine Only.localOnlyUpd p_local_ h _ fun w => ?_
  have wm := hm (localMem_wf w k)
  simp only [List.all_eq_true, List.mem_append, List.mem_filter] at *
  rintro x ((hx | hx) | hx)
  · exact w x hx.1
  · split at hx
    · cases hx
    · cases List.mem_singleton.1 hx
      exact wm
  · exact w x hx.1

theorem storeInstr_only {x0i x1i x2i x4i} (h : Only e a d) : IOnly e a (storeInstr x0i x1i x2i d x4i) := by
  unfold storeInstr
  extract_lets +onlyGivenNames x1
  split
  · exact trivial
  · split
    · exact trivial
    · refine (show Only e a _ from ?_)
      assumption

theorem padWrite_only (p_pad : e .pad) {q o bs} (h : Only e a d) : Only e a (padWrite d q o bs) :=
  setPad_only p_pad (fun w => spWf_write w _ _) h

theorem drainAll_only (p_cores : e .cores) (p_pad : e .pad) {x1i} (h : Only e a d) : Only e a (drainAll d x1i) := by
  unfold drainAll
  extract_lets +onlyGivenNames x1
  extract_lets +onlyGivenNames x2
  have h2 : Only e a x2 := by
    unfold x2
    refine Only.foldl ?_ (fun d3 y3 h3 => ?_)
    · assumption
    · refine padWrite_only p_pad ?_
      assumption
  try clear_value x2
  refine putCore_only p_cores ?_
  assumption

theorem drainOne_only (p_cores : e .cores) (p_pad : e .pad) {x1i} (h : Only e a d) : Only e a (drainOne d x1i) := by
  unfold drainOne
  extract_lets +onlyGivenNames x1
  split
  · assumption
  · refine putCore_only p_cores ?_
    refine padWrite_only p_pad ?_
    assumption

theorem doStore_only (p_cores : e .cores) (p_pad : e .pad) (p_local_ : e .local_) {x1i x2i x3i} (h : Only e a d) : Only e a
    (doStore d x1i x2i x3i) := by
  unfold doStore
  split
  · assumption
  · refine setLocal_only p_local_ ?_ ?_
    · intro z1
      exact spWf_write ‹_› _ _
    · assumption
  · extract_lets +onlyGivenNames x2
    split
    · refine padWrite_only p_pad ?_
      assumption
    · extract_lets +onlyGivenNames x3
      have h3 : Only e a x3 := by
        unfold x3
        split
        · refine drainOne_only p_cores p_pad ?_
          assumption
        · assumption
      try clear_value x3
      extract_lets +onlyGivenNames x4
      refine putCore_only p_cores ?_
      assumption

theorem padUe_only (p_regs : e .regs) (p_evt : e .evt) {x1i x2i} (h : Only e a d) : Only e a (padUe d x1i x2i) := by
  unfold padUe
  refine raiseOnce_only p_evt ?_
  refine cnt_only p_regs ?_
  assumption

theorem loadInstr_only (p_regs : e .regs) (p_evt : e .evt) (p_cores : e .cores) {x0i x1i x2i x3i x4i x6i} (h : Only e a d) :
    IOnly e a (loadInstr x0i x1i x2i x3i x4i d x6i) := by
  unfold loadInstr
  extract_lets +onlyGivenNames x1
  split
  · exact trivial
  · split
    · extract_lets +onlyGivenNames x2
      have h2 : Only e a x2 := by
        unfold x2
        exact padUe_only p_regs p_evt h
      try clear_value x2
      refine (show Only e a _ from ?_)
      refine putCore_only p_cores ?_
      assumption
    · refine (show Only e a _ from ?_)
      assumption

theorem setSat_only (p_regs : e .regs) (p_cores : e .cores) {x1i} (h : Only e a d) : Only e a (setSat d x1i) := by
  unfold setSat
  refine putB_only p_regs ?_
  refine putCore_only p_cores ?_
  assumption

theorem breakCheck_only (p_regs : e .regs) (p_out : e .out) (p_hif : e .hif) (p_cores : e .cores) {x1i} (h : Only e a d) :
    Only e a (breakCheck d x1i) := by
  unfold breakCheck
  extract_lets +onlyGivenNames x1
  extract_lets +onlyGivenNames x2
  split
  · assumption
  · split
    · assumption
    · refine raise_only p_regs p_out p_hif ?_
      refine putCore_only p_cores ?_
      assumption

theorem setCirc_only (p_regs : e .regs) (p_out : e .out) (p_hif : e .hif) (p_cores : e .cores) {x1i x2i x3i} (h : Only e a
    d) : Only e a (setCirc d x1i x2i x3i) := by
  unfold setCirc
  extract_lets +onlyGivenNames x1
  extract_lets +onlyGivenNames x2
  extract_lets +onlyGivenNames x3
  have h3 : Only e a x3 := by
    unfold x3
    refine putB_only p_regs ?_
    refine putCore_only p_cores ?_
    assumption
  try clear_value x3
  split
  · assumption
  · refine raise_only p_regs p_out p_hif ?_
    assumption

theorem spawnCard_only (p_regs : e .regs) (p_out : e .out) (p_hif : e .hif) (p_evt : e .evt) (p_ldg : e .ldg) (p_dlr : e
    .dlr) (p_cores : e .cores) (p_pke : e .pke) (p_dma : e .dma) (p_fwd : e .fwd) (p_aud : e .aud) (p_vid : e .vid) (p_sys :
    e .sys) {x1i x2i x3i} (h : Only e a d) : Only e a (spawnCard d x1i x2i x3i).1 := by
  unfold spawnCard
  extract_lets +onlyGivenNames x1
  extract_lets +onlyGivenNames x2
  extract_lets +onlyGivenNames x3
  split
  · dsimp only
    assumption
  · split
    · dsimp only
      assumption
    · split
      · dsimp only
        assumption
      · split
        · dsimp only
          assumption
        · split
          · dsimp only
            assumption
          · dsimp only
            refine storeCard_only p_regs p_out p_hif p_evt p_ldg p_dlr p_cores p_pke p_dma p_fwd p_aud p_vid p_sys ?_
            assumption

theorem coreFault_only (p_regs : e .regs) (p_out : e .out) (p_hif : e .hif) (p_evt : e .evt) (p_ldg : e .ldg) (p_dlr : e
    .dlr) (p_cores : e .cores) (p_pke : e .pke) (p_pad : e .pad) (p_mem : e .mem) (p_dma : e .dma) (p_fwd : e .fwd) (p_aud :
    e .aud) (p_vid : e .vid) (p_sys : e .sys) {x1i x2i x3i} (h : Only e a d) : Only e a (coreFault d x1i x2i x3i) := by
  unfold coreFault
  extract_lets +onlyGivenNames x1
  extract_lets +onlyGivenNames x2
  have h2 : Only e a x2 := by
    unfold x2
    split
    · refine releaseBank_only p_mem ?_
      assumption
    · assumption
  try clear_value x2
  extract_lets +onlyGivenNames x3
  extract_lets +onlyGivenNames x4
  have h4 : Only e a x4 := by
    unfold x4
    refine dropHold_only p_regs p_out p_hif p_cores p_mem ?_
    refine drainAll_only p_cores p_pad ?_
    refine putCore_only p_cores ?_
    assumption
  try clear_value x4
  extract_lets +onlyGivenNames x5
  have h5 : Only e a x5 := by
    unfold x5
    refine setReg_only p_regs ?_
    refine setReg_only p_regs ?_
    assumption
  try clear_value x5
  extract_lets +onlyGivenNames x6
  have h6 : Only e a x6 := by
    unfold x6
    refine setF_only p_regs ?_
    assumption
  try clear_value x6
  extract_lets +onlyGivenNames x7
  have h7 : Only e a x7 := by
    unfold x7
    refine putB_only p_regs ?_
    assumption
  try clear_value x7
  extract_lets +onlyGivenNames x8
  extract_lets +onlyGivenNames x9
  have h9 : Only e a x9 := by
    unfold x9
    refine raise_only p_regs p_out p_hif ?_
    assumption
  try clear_value x9
  split
  · refine putCore_only p_cores ?_
    assumption
  · split
    · refine cancelCard_only p_regs p_out p_hif p_evt p_ldg p_dlr p_cores p_pke p_dma p_fwd p_aud p_vid p_sys ?_
      assumption
    · assumption

theorem applyEff_only (p_regs : e .regs) (p_freeCtr : e .freeCtr) (p_out : e .out) (p_hif : e .hif) (p_evt : e .evt) (p_ldg
    : e .ldg) (p_dlr : e .dlr) (p_cores : e .cores) (p_pke : e .pke) (p_pad : e .pad) (p_local_ : e .local_) (p_mem : e
    .mem) (p_dma : e .dma) (p_fwd : e .fwd) (p_aud : e .aud) (p_vid : e .vid) (p_sys : e .sys) {x0i x1i x3i} (h : Only e a
    d) : Only e a (applyEff x0i x1i d x3i) := by
  unfold applyEff
  extract_lets +onlyGivenNames x1
  split
  · refine setSat_only p_regs p_cores ?_
    assumption
  · refine setCirc_only p_regs p_out p_hif p_cores ?_
    assumption
  · refine putCore_only p_cores ?_
    assumption
  · split
    · extract_lets +onlyGivenNames x2
      have h2 : Only e a x2 := by
        unfold x2
        refine maxReg_only p_regs ?_
        assumption
      try clear_value x2
      refine releaseBank_only p_mem ?_
      refine putCore_only p_cores ?_
      assumption
    · assumption
  · split
    · assumption
    · extract_lets +onlyGivenNames x3
      have h3 : Only e a x3.1 := by
        unfold x3
        refine spawnCard_only p_regs p_out p_hif p_evt p_ldg p_dlr p_cores p_pke p_dma p_fwd p_aud p_vid p_sys ?_
        assumption
      try clear_value x3
      extract_lets +onlyGivenNames x4
      refine putCore_only p_cores ?_
      assumption
  · split
    · assumption
    · refine signalCard_only p_regs p_out p_hif p_evt p_ldg p_dlr p_cores p_pke p_dma p_fwd p_aud p_vid p_sys ?_
      assumption
  · refine drainAll_only p_cores p_pad ?_
    assumption
  · extract_lets +onlyGivenNames x5
    have h5 : Only e a x5 := by
      unfold x5
      refine drainAll_only p_cores p_pad ?_
      assumption
    try clear_value x5
    extract_lets +onlyGivenNames x6
    have h6 : Only e a x6 := by
      unfold x6
      refine cnt_only p_regs ?_
      assumption
    try clear_value x6
    split
    · assumption
    · refine completeCard_only p_regs p_out p_hif p_evt p_ldg p_dlr p_cores p_pke p_dma p_fwd p_aud p_vid p_sys ?_
      assumption
  · extract_lets +onlyGivenNames x7
    have h7 : Only e a x7.2 := by
      unfold x7
      refine drawFree_only p_freeCtr ?_
      assumption
    try clear_value x7
    refine putCore_only p_cores ?_
    refine setLocal_only p_local_ ?_ ?_
    · intro z8
      exact spWf_write ‹_› _ _
    · assumption
  · extract_lets +onlyGivenNames x9
    have h9 : Only e a x9 := by
      unfold x9
      refine drainAll_only p_cores p_pad ?_
      assumption
    try clear_value x9
    split
    · assumption
    · extract_lets +onlyGivenNames x10
      have h10 : Only e a x10 := by
        unfold x10
        refine putCard_only p_dlr ?_
        assumption
      try clear_value x10
      extract_lets +onlyGivenNames x11
      extract_lets +onlyGivenNames x12
      have h12 : Only e a x12 := by
        unfold x12
        refine Only.dlrUpd p_dlr ?_ _
        assumption
      try clear_value x12
      refine putCore_only p_cores ?_
      assumption
  · assumption
  · assumption
  · assumption
  · assumption
  · assumption
  · assumption

theorem closeBundle_only (p_regs : e .regs) (p_freeCtr : e .freeCtr) (p_out : e .out) (p_hif : e .hif) (p_evt : e .evt)
    (p_ldg : e .ldg) (p_dlr : e .dlr) (p_cores : e .cores) (p_pke : e .pke) (p_pad : e .pad) (p_local_ : e .local_) (p_mem :
    e .mem) (p_dma : e .dma) (p_fwd : e .fwd) (p_aud : e .aud) (p_vid : e .vid) (p_sys : e .sys) {x1i} (h : Only e a d) :
    Only e a (closeBundle d x1i) := by
  unfold closeBundle
  extract_lets +onlyGivenNames x1
  extract_lets +onlyGivenNames x2
  split
  · refine coreFault_only p_regs p_out p_hif p_evt p_ldg p_dlr p_cores p_pke p_pad p_mem p_dma p_fwd p_aud p_vid p_sys ?_
    assumption
  · split
    · refine coreFault_only p_regs p_out p_hif p_evt p_ldg p_dlr p_cores p_pke p_pad p_mem p_dma p_fwd p_aud p_vid p_sys ?_
      assumption
    · extract_lets +onlyGivenNames x3
      extract_lets +onlyGivenNames x4
      extract_lets +onlyGivenNames x5
      extract_lets +onlyGivenNames x6
      extract_lets +onlyGivenNames x7
      have h7 : Only e a x7 := by
        unfold x7
        refine putCore_only p_cores ?_
        assumption
      try clear_value x7
      extract_lets +onlyGivenNames x77
      have h77 : Only e a x77 := by
        unfold x77
        refine Only.foldl ?_ (fun d12 y12 h12 => ?_)
        · assumption
        · refine applyEff_only p_regs p_freeCtr p_out p_hif p_evt p_ldg p_dlr p_cores p_pke p_pad p_local_ p_mem p_dma p_fwd
            p_aud p_vid p_sys ?_
          assumption
      try clear_value x77
      extract_lets +onlyGivenNames x8
      extract_lets +onlyGivenNames x9
      have h9 : Only e a x9 := by
        unfold x9
        refine Only.foldl ?_ (fun d10 y10 h10 => ?_)
        · assumption
        · refine doStore_only p_cores p_pad p_local_ ?_
          assumption
      try clear_value x9
      extract_lets +onlyGivenNames x11
      have h11 : Only e a x11 := by
        unfold x11
        refine Only.foldl ?_ (fun d12 y12 h12 => ?_)
        · assumption
        · refine applyEff_only p_regs p_freeCtr p_out p_hif p_evt p_ldg p_dlr p_cores p_pke p_pad p_local_ p_mem p_dma p_fwd
            p_aud p_vid p_sys ?_
          assumption
      try clear_value x11
      refine breakCheck_only p_regs p_out p_hif p_cores ?_
      refine haltCheck_only p_cores ?_
      assumption

theorem issue_only (p_regs : e .regs) (p_freeCtr : e .freeCtr) (p_out : e .out) (p_hif : e .hif) (p_evt : e .evt) (p_ldg : e
    .ldg) (p_dlr : e .dlr) (p_cores : e .cores) (p_pke : e .pke) (p_pad : e .pad) (p_local_ : e .local_) (p_mem : e .mem)
    (p_dma : e .dma) (p_fwd : e .fwd) (p_aud : e .aud) (p_vid : e .vid) (p_sys : e .sys) {i act} (hact : ∀ x, IOnly e a (act
    d x)) (h : Only e a d) : Only e a (issue d i act) := by
  unfold issue
  extract_lets k x close runs
  have hc : ∀ d, Only e a d → Only e a (close d) := by
    intro d h
    unfold close
    split
    · refine closeBundle_only p_regs p_freeCtr p_out p_hif p_evt p_ldg p_dlr p_cores p_pke p_pad p_local_ p_mem p_dma p_fwd
        p_aud p_vid p_sys ?_
      assumption
    · assumption
  clear_value close runs
  split
  · exact h
  · split
    · refine coreFault_only p_regs p_out p_hif p_evt p_ldg p_dlr p_cores p_pke p_pad p_mem p_dma p_fwd p_aud p_vid p_sys ?_
      assumption
    · split
      · exact hc _ (putCore_only p_cores h)
      · have w := hact x
        split
        · exact h
        · exact hc _ (putCore_only p_cores h)
        · rename_i q
          rw [q] at w
          exact hc _ (putCore_only p_cores w)

/-! ### DealerCmd -/

theorem preemptPool_only (p_regs : e .regs) (p_dlr : e .dlr) (p_cores : e .cores) {x1i x2i} (h : Only e a d) : Only e a
    (preemptPool d x1i x2i) := by
  unfold preemptPool
  split
  · assumption
  · split
    · assumption
    · extract_lets +onlyGivenNames x1
      split
      · assumption
      · extract_lets +onlyGivenNames x2
        extract_lets +onlyGivenNames x3
        have h3 : Only e a x3 := by
          unfold x3
          refine Only.dlrUpd p_dlr ?_ _
          assumption
        try clear_value x3
        refine cnt_only p_regs ?_
        refine putCore_only p_cores ?_
        assumption

theorem flowCreateAct_only (p_regs : e .regs) (p_evt : e .evt) (p_ldg : e .ldg) (p_dlr : e .dlr) {x1i} (h : Only e a d) :
    ActOnly e a (flowCreateAct d x1i) := by
  unfold flowCreateAct
  extract_lets +onlyGivenNames x1
  refine ActOnly.bind (fun w2 y2 => ?_)
  extract_lets +onlyGivenNames x3
  refine ActOnly.bind (fun w4 y4 => ?_)
  split
  · exact trivial
  · extract_lets +onlyGivenNames x5
    refine (show Only e a _ from ?_)
    refine ledgTake_only p_regs p_evt p_ldg ?_
    refine Only.dlrUpd p_dlr ?_ _
    assumption

theorem preemptLate_only (p_regs : e .regs) (p_out : e .out) (p_hif : e .hif) (p_dlr : e .dlr) {x1i} (h : Only e a d) : Only
    e a (preemptLate d x1i) := by
  unfold preemptLate
  split
  · assumption
  · extract_lets +onlyGivenNames x1
    extract_lets +onlyGivenNames x2
    have h2 : Only e a x2 := by
      unfold x2
      refine Only.dlrUpd p_dlr ?_ _
      assumption
    try clear_value x2
    refine raise_only p_regs p_out p_hif ?_
    assumption

theorem overrunCard_only (p_regs : e .regs) (p_out : e .out) (p_hif : e .hif) (p_dlr : e .dlr) {x1i x2i} (h : Only e a d) :
    Only e a (overrunCard d x1i x2i) := by
  unfold overrunCard
  split
  · assumption
  · split
    · refine raise_only p_regs p_out p_hif ?_
      refine cnt_only p_regs ?_
      refine putCard_only p_dlr ?_
      assumption
    · assumption

theorem cardCancelAct_only (p_regs : e .regs) (p_out : e .out) (p_hif : e .hif) (p_evt : e .evt) (p_ldg : e .ldg) (p_dlr : e
    .dlr) (p_cores : e .cores) (p_pke : e .pke) (p_dma : e .dma) (p_fwd : e .fwd) (p_aud : e .aud) (p_vid : e .vid) (p_sys :
    e .sys) {x1i} (h : Only e a d) : ActOnly e a (cardCancelAct d x1i) := by
  unfold cardCancelAct
  extract_lets +onlyGivenNames x1
  refine ActOnly.bind (fun w2 y2 => ?_)
  refine ActOnly.bind (fun w3 y3 => ?_)
  split
  · refine (show Only e a _ from ?_)
    refine runTasks_only p_regs p_out p_hif p_evt p_ldg p_dlr p_cores p_pke p_dma p_fwd p_aud p_vid p_sys ?_
    assumption
  · refine (show Only e a _ from ?_)
    refine runTasks_only p_regs p_out p_hif p_evt p_ldg p_dlr p_cores p_pke p_dma p_fwd p_aud p_vid p_sys ?_
    assumption
  · refine (show Only e a _ from ?_)
    refine putCard_only p_dlr ?_
    assumption
  · refine (show Only e a _ from ?_)
    refine putCard_only p_dlr ?_
    assumption
  · refine (show Only e a _ from ?_)
    assumption

theorem deadlineDrop_only (p_regs : e .regs) (p_out : e .out) (p_hif : e .hif) (p_evt : e .evt) (p_ldg : e .ldg) (p_dlr : e
    .dlr) (p_cores : e .cores) (p_pke : e .pke) (p_dma : e .dma) (p_fwd : e .fwd) (p_aud : e .aud) (p_vid : e .vid) (p_sys :
    e .sys) {x1i} (h : Only e a d) : Only e a (deadlineDrop d x1i) := by
  unfold deadlineDrop
  split
  · assumption
  · split
    · refine dropCard_only p_regs p_out p_hif p_evt p_ldg p_dlr p_cores p_pke p_dma p_fwd p_aud p_vid p_sys ?_
      refine raiseDrop_only p_regs p_out p_hif ?_
      assumption
    · assumption

theorem cardSubmitAct_only (p_regs : e .regs) (p_out : e .out) (p_hif : e .hif) (p_evt : e .evt) (p_ldg : e .ldg) (p_dlr : e
    .dlr) (p_cores : e .cores) (p_pke : e .pke) (p_dma : e .dma) (p_fwd : e .fwd) (p_aud : e .aud) (p_vid : e .vid) (p_sys :
    e .sys) {x1i} (h : Only e a d) : ActOnly e a (cardSubmitAct d x1i) := by
  unfold cardSubmitAct
  extract_lets +onlyGivenNames x1
  refine ActOnly.bind (fun w2 y2 => ?_)
  extract_lets +onlyGivenNames x3
  refine ActOnly.bind (fun w4 y4 => ?_)
  split
  · unfold waitCredit
    refine (show Only e a _ from ?_)
    refine putCmd_only p_hif ?_
    assumption
  · split
    · unfold waitCredit
      refine (show Only e a _ from ?_)
      refine putCmd_only p_hif ?_
      assumption
    · extract_lets +onlyGivenNames x5
      refine (show Only e a _ from ?_)
      refine storeCard_only p_regs p_out p_hif p_evt p_ldg p_dlr p_cores p_pke p_dma p_fwd p_aud p_vid p_sys ?_
      assumption

/-! ### Audio -/

theorem takeStreamRecord_only (p_aud : e .aud) {x1i x2i} (h : Only e a d) : Only e a (takeStreamRecord d x1i x2i) := by
  unfold takeStreamRecord
  refine Only.audUpd p_aud ?_ _
  assumption

theorem releaseConf_only (p_aud : e .aud) {x1i} (h : Only e a d) : Only e a (releaseConf d x1i) := by
  unfold releaseConf
  extract_lets +onlyGivenNames x1
  extract_lets +onlyGivenNames x2
  refine Only.audUpd p_aud ?_ _
  assumption

theorem craftTalk_only (p_aud : e .aud) {x1i x2i x3i} (h : Only e a d) : Only e a (craftTalk d x1i x2i x3i).1 := by
  unfold craftTalk
  split
  · dsimp only
    assumption
  · split
    · dsimp only
      assumption
    · extract_lets +onlyGivenNames x1
      dsimp only
      refine Only.audUpd p_aud ?_ _
      assumption

theorem sendPayload_only (p_fwd : e .fwd) {x1i x2i x3i x4i x5i} (h : Only e a d) : Only e a (sendPayload d x1i x2i x3i x4i
    x5i) := by
  unfold sendPayload
  extract_lets +onlyGivenNames x1
  extract_lets +onlyGivenNames x2
  extract_lets +onlyGivenNames x3
  extract_lets +onlyGivenNames x4
  refine Only.fwdUpd p_fwd ?_ _
  assumption

theorem takePartRecord_only (p_aud : e .aud) {x1i x2i} (h : Only e a d) : Only e a (takePartRecord d x1i x2i) := by
  unfold takePartRecord
  extract_lets +onlyGivenNames x1
  refine Only.audUpd p_aud ?_ _
  assumption

theorem putParts_only (p_aud : e .aud) {x1i} (h : Only e a d) : Only e a (putParts d x1i) := by
  unfold putParts
  refine Only.audUpd p_aud ?_ _
  assumption

theorem applyChanges_only (p_aud : e .aud) {x1i x2i} (h : Only e a d) : Only e a (applyChanges d x1i x2i) := by
  unfold applyChanges
  refine Only.audUpd p_aud ?_ _
  assumption

theorem partSetAct_only (p_aud : e .aud) {x1i} (h : Only e a d) : ActOnly e a (partSetAct d x1i) := by
  unfold partSetAct
  extract_lets +onlyGivenNames x1
  refine ActOnly.bind (fun w2 y2 => ?_)
  refine ActOnly.bind (fun w3 y3 => ?_)
  refine ActOnly.bind (fun w4 y4 => ?_)
  extract_lets +onlyGivenNames x5
  extract_lets +onlyGivenNames x6
  extract_lets +onlyGivenNames x7
  extract_lets +onlyGivenNames x8
  extract_lets +onlyGivenNames x9
  refine ActOnly.bind (fun w10 y10 => ?_)
  refine ActOnly.bind (fun w11 y11 => ?_)
  refine (show Only e a _ from ?_)
  refine modPart_only p_aud ?_
  assumption

theorem audioEncSet_only (p_aud : e .aud) {x1i x2i} (h : Only e a d) : ActOnly e a (audioEncSet d x1i x2i) := by
  unfold audioEncSet
  extract_lets +onlyGivenNames x1
  extract_lets +onlyGivenNames x2
  refine ActOnly.bind (fun w3 y3 => ?_)
  refine (show Only e a _ from ?_)
  refine modStream_only p_aud ?_
  assumption

theorem craftListen_only (p_regs : e .regs) (p_aud : e .aud) {x1i x2i x3i} (h : Only e a d) : Only e a (craftListen d x1i
    x2i x3i) := by
  unfold craftListen
  split
  · assumption
  · split
    · assumption
    · extract_lets +onlyGivenNames x1
      extract_lets +onlyGivenNames x2
      extract_lets +onlyGivenNames x3
      extract_lets +onlyGivenNames x4
      have h4 : Only e a x4 := by
        unfold x4
        refine Only.audUpd p_aud ?_ _
        assumption
      try clear_value x4
      split
      · refine cnt_only p_regs ?_
        assumption
      · assumption

theorem confCreateAct_only (p_regs : e .regs) (p_evt : e .evt) (p_ldg : e .ldg) (p_obj : e .obj) (p_aud : e .aud) {x1i} (h :
    Only e a d) : ActOnly e a (confCreateAct d x1i) := by
  unfold confCreateAct
  extract_lets +onlyGivenNames x1
  refine ActOnly.bind (fun w2 y2 => ?_)
  extract_lets +onlyGivenNames x3
  refine ActOnly.bind (fun w4 y4 => ?_)
  extract_lets +onlyGivenNames x5
  split
  · exact trivial
  · exact trivial
  · extract_lets +onlyGivenNames x6
    extract_lets +onlyGivenNames x7
    have h7 : Only e a x7 := by
      unfold x7
      refine addObj_only p_obj ?_
      refine book_only p_regs p_evt p_ldg ?_
      assumption
    try clear_value x7
    refine (show Only e a _ from ?_)
    refine Only.audUpd p_aud ?_ _
    assumption

theorem partCreateAct_only (p_regs : e .regs) (p_evt : e .evt) (p_ldg : e .ldg) (p_obj : e .obj) (p_aud : e .aud) {x1i} (h :
    Only e a d) : ActOnly e a (partCreateAct d x1i) := by
  unfold partCreateAct
  extract_lets +onlyGivenNames x1
  refine ActOnly.bind (fun w2 y2 => ?_)
  refine ActOnly.bind (fun w3 y3 => ?_)
  refine ActOnly.bind (fun w4 y4 => ?_)
  extract_lets +onlyGivenNames x5
  extract_lets +onlyGivenNames x6
  extract_lets +onlyGivenNames x7
  extract_lets +onlyGivenNames x8
  extract_lets +onlyGivenNames x9
  extract_lets +onlyGivenNames x10
  refine ActOnly.bind (fun w11 y11 => ?_)
  refine ActOnly.bind (fun w12 y12 => ?_)
  refine ActOnly.bind (fun w13 y13 => ?_)
  extract_lets +onlyGivenNames x14
  split
  · exact trivial
  · exact trivial
  · extract_lets +onlyGivenNames x15
    extract_lets +onlyGivenNames x16
    have h16 : Only e a x16 := by
      unfold x16
      refine book_only p_regs p_evt p_ldg ?_
      assumption
    try clear_value x16
    extract_lets +onlyGivenNames x17
    have h17 : Only e a x17 := by
      unfold x17
      refine addObj_only p_obj ?_
      assumption
    try clear_value x17
    refine (show Only e a _ from ?_)
    refine takePartRecord_only p_aud ?_
    refine Only.audUpd p_aud ?_ _
    assumption

theorem audioEncCreate_only (p_regs : e .regs) (p_evt : e .evt) (p_ldg : e .ldg) (p_obj : e .obj) (p_aud : e .aud) {x1i} (h
    : Only e a d) : ActOnly e a (audioEncCreate d x1i) := by
  unfold audioEncCreate
  extract_lets +onlyGivenNames x1
  refine ActOnly.bind (fun w2 y2 => ?_)
  refine ActOnly.bind (fun w3 y3 => ?_)
  refine ActOnly.bind (fun w4 y4 => ?_)
  extract_lets +onlyGivenNames x5
  extract_lets +onlyGivenNames x6
  refine ActOnly.bind (fun w7 y7 => ?_)
  extract_lets +onlyGivenNames x8
  extract_lets +onlyGivenNames x9
  split
  · exact trivial
  · split
    · exact trivial
    · split
      · exact trivial
      · exact trivial
      · extract_lets +onlyGivenNames x10
        extract_lets +onlyGivenNames x11
        have h11 : Only e a x11 := by
          unfold x11
          refine addObj_only p_obj ?_
          refine book_only p_regs p_evt p_ldg ?_
          assumption
        try clear_value x11
        refine (show Only e a _ from ?_)
        refine takeStreamRecord_only p_aud ?_
        refine Only.audUpd p_aud ?_ _
        assumption

theorem dropRecord_only (p_regs : e .regs) (p_evt : e .evt) (p_ldg : e .ldg) (p_aud : e .aud) {x1i} (h : Only e a d) : Only
    e a (dropRecord d x1i) := by
  unfold dropRecord
  extract_lets +onlyGivenNames x1
  extract_lets +onlyGivenNames x2
  refine Only.foldl ?_ (fun d3 y3 h3 => ?_)
  · refine Only.audUpd p_aud ?_ _
    assumption
  · refine unbook_only p_regs p_evt p_ldg ?_
    assumption

theorem releaseStream_only (p_regs : e .regs) (p_evt : e .evt) (p_ldg : e .ldg) (p_aud : e .aud) {x1i} (h : Only e a d) :
    Only e a (releaseStream d x1i) := by
  unfold releaseStream
  refine dropRecord_only p_regs p_evt p_ldg p_aud ?_
  refine Only.audUpd p_aud ?_ _
  assumption

theorem peerMembers_only (p_regs : e .regs) (p_out : e .out) (p_hif : e .hif) {x0i x1i x3i} (h : Only e a d) : Only e a
    (peerMembers x0i x1i d x3i).1 := by
  unfold peerMembers
  extract_lets +onlyGivenNames x1
  split
  · dsimp only
    refine raise_only p_regs p_out p_hif ?_
    refine cnt_only p_regs ?_
    assumption
  · extract_lets +onlyGivenNames x2
    extract_lets +onlyGivenNames x3
    extract_lets +onlyGivenNames x4
    have h4 : Only e a x4 := by
      unfold x4
      split
      · assumption
      · refine raise_only p_regs p_out p_hif ?_
        assumption
    try clear_value x4
    dsimp only
    assumption

theorem cascadePayload_only (p_regs : e .regs) (p_out : e .out) (p_hif : e .hif) (p_evt : e .evt) (p_ldg : e .ldg) (p_pke :
    e .pke) (p_fwd : e .fwd) (p_aud : e .aud) {x1i} (h : Only e a d) : Only e a (cascadePayload d x1i) := by
  unfold cascadePayload
  split
  · assumption
  · extract_lets +onlyGivenNames x1
    extract_lets +onlyGivenNames x2
    have h2 : Only e a x2 := by
      unfold x2
      refine Only.audUpd p_aud ?_ _
      assumption
    try clear_value x2
    split
    · extract_lets +onlyGivenNames x3
      extract_lets +onlyGivenNames x4
      extract_lets +onlyGivenNames x5
      extract_lets +onlyGivenNames x6
      extract_lets +onlyGivenNames x7
      extract_lets +onlyGivenNames x8
      extract_lets +onlyGivenNames x9
      split
      · refine releaseMPkt_only p_regs p_evt p_ldg p_pke p_fwd ?_
        assumption
      · extract_lets +onlyGivenNames x10
        extract_lets +onlyGivenNames x11
        extract_lets +onlyGivenNames x12
        have h12 : Only e a x12 := by
          unfold x12
          refine Only.audUpd p_aud ?_ _
          assumption
        try clear_value x12
        extract_lets +onlyGivenNames x13
        split
        · refine raise_only p_regs p_out p_hif ?_
          refine cnt_only p_regs ?_
          assumption
        · assumption
    · refine releaseMPkt_only p_regs p_evt p_ldg p_pke p_fwd ?_
      assumption

theorem freePayloads_only (p_regs : e .regs) (p_evt : e .evt) (p_ldg : e .ldg) (p_pke : e .pke) (p_fwd : e .fwd) (p_aud : e
    .aud) {x1i} (h : Only e a d) : Only e a (freePayloads d x1i) := by
  unfold freePayloads
  extract_lets +onlyGivenNames x1
  refine Only.foldl ?_ (fun d2 y2 h2 => ?_)
  · refine Only.audUpd p_aud ?_ _
    assumption
  · refine releaseMPkt_only p_regs p_evt p_ldg p_pke p_fwd ?_
    assumption

theorem releasePart_only (p_regs : e .regs) (p_evt : e .evt) (p_ldg : e .ldg) (p_pke : e .pke) (p_fwd : e .fwd) (p_aud : e
    .aud) {x1i} (h : Only e a d) : Only e a (releasePart d x1i) := by
  unfold releasePart
  extract_lets +onlyGivenNames x1
  have h1 : Only e a x1 := by
    unfold x1
    refine freePayloads_only p_regs p_evt p_ldg p_pke p_fwd p_aud ?_
    assumption
  try clear_value x1
  extract_lets +onlyGivenNames x2
  extract_lets +onlyGivenNames x3
  extract_lets +onlyGivenNames x4
  have h4 : Only e a x4 := by
    unfold x4
    refine Only.foldl ?_ (fun d5 y5 h5 => ?_)
    · refine Only.audUpd p_aud ?_ _
      assumption
    · refine releaseMPkt_only p_regs p_evt p_ldg p_pke p_fwd ?_
      assumption
  try clear_value x4
  refine dropRecord_only p_regs p_evt p_ldg p_aud ?_
  refine Only.audUpd p_aud ?_ _
  assumption

theorem jitterCard_only (p_regs : e .regs) (p_evt : e .evt) (p_ldg : e .ldg) (p_dlr : e .dlr) (p_pke : e .pke) (p_fwd : e
    .fwd) (p_aud : e .aud) {x1i} (h : Only e a d) : Only e a (jitterCard d x1i) := by
  unfold jitterCard
  split
  · assumption
  · split
    · split
      · assumption
      · extract_lets +onlyGivenNames x1
        extract_lets +onlyGivenNames x2
        have h2 : Only e a x2 := by
          unfold x2
          refine modPart_only p_aud ?_
          assumption
        try clear_value x2
        refine putCard_only p_dlr ?_
        refine releaseMPkt_only p_regs p_evt p_ldg p_pke p_fwd ?_
        assumption
    · assumption

theorem handEvents_only (p_regs : e .regs) (p_out : e .out) (p_hif : e .hif) {x1i x2i} (h : Only e a d) : Only e a
    (handEvents d x1i x2i) := by
  unfold handEvents
  refine Only.foldl ?_ (fun d1 y1 h1 => ?_)
  · assumption
  · extract_lets +onlyGivenNames x2
    have h2 : Only e a x2 := by
      unfold x2
      refine cnt_only p_regs ?_
      assumption
    try clear_value x2
    split
    · refine raise_only p_regs p_out p_hif ?_
      assumption
    · assumption

theorem cascadePot_only (p_regs : e .regs) (p_out : e .out) (p_hif : e .hif) (p_evt : e .evt) (p_ldg : e .ldg) (p_pke : e
    .pke) (p_fwd : e .fwd) (p_aud : e .aud) {x1i x2i} (h : Only e a d) : Only e a (cascadePot d x1i x2i).1 := by
  unfold cascadePot
  split
  · dsimp only
    assumption
  · extract_lets +onlyGivenNames x1
    have h1 : Only e a x1.1 := by
      unfold x1
      refine Only.foldlFst ?_ (fun q2 y2 h2 => ?_)
      · dsimp only
        assumption
      · extract_lets +onlyGivenNames x3
        have h3 : Only e a x3.1 := by
          unfold x3
          refine peerMembers_only p_regs p_out p_hif ?_
          assumption
        try clear_value x3
        dsimp only
        assumption
    try clear_value x1
    extract_lets +onlyGivenNames x4
    extract_lets +onlyGivenNames x5
    extract_lets +onlyGivenNames x6
    have h6 : Only e a x6 := by
      unfold x6
      refine modConf_only p_aud ?_
      assumption
    try clear_value x6
    extract_lets +onlyGivenNames x7
    dsimp only
    refine freePayloads_only p_regs p_evt p_ldg p_pke p_fwd p_aud ?_
    assumption

theorem audioMixDone_only (p_regs : e .regs) (p_out : e .out) (p_hif : e .hif) (p_evt : e .evt) (p_ldg : e .ldg) (p_dlr : e
    .dlr) (p_cores : e .cores) (p_pke : e .pke) (p_dma : e .dma) (p_fwd : e .fwd) (p_aud : e .aud) (p_vid : e .vid) (p_sys :
    e .sys) {x1i x2i} (h : Only e a d) : Only e a (audioMixDone d x1i x2i) := by
  unfold audioMixDone
  extract_lets +onlyGivenNames x1
  split
  · assumption
  · extract_lets +onlyGivenNames x2
    extract_lets +onlyGivenNames x3
    have h3 : Only e a x3 := by
      unfold x3
      refine Only.audUpd p_aud ?_ _
      assumption
    try clear_value x3
    extract_lets +onlyGivenNames x4
    have h4 : Only e a x4 := by
      unfold x4
      refine maxReg_only p_regs ?_
      assumption
    try clear_value x4
    refine Only.foldl ?_ (fun d5 y5 h5 => ?_)
    · assumption
    · split
      · split
        · refine runTasks_only p_regs p_out p_hif p_evt p_ldg p_dlr p_cores p_pke p_dma p_fwd p_aud p_vid p_sys ?_
          refine putCard_only p_dlr ?_
          assumption
        · assumption
      · assumption

theorem encodeCard_only (p_regs : e .regs) (p_out : e .out) (p_hif : e .hif) (p_evt : e .evt) (p_ldg : e .ldg) (p_dlr : e
    .dlr) (p_cores : e .cores) (p_pke : e .pke) (p_dma : e .dma) (p_fwd : e .fwd) (p_aud : e .aud) (p_vid : e .vid) (p_sys :
    e .sys) {x1i x2i x3i} (h : Only e a d) : Only e a (encodeCard d x1i x2i x3i) := by
  unfold encodeCard
  extract_lets +onlyGivenNames x1
  extract_lets +onlyGivenNames x2
  have h2 : Only e a x2 := by
    unfold x2
    refine fwCard_only p_regs p_out p_hif p_evt p_ldg p_dlr p_cores p_pke p_dma p_fwd p_aud p_vid p_sys ?_
    assumption
  try clear_value x2
  split
  · split
    · refine Only.audUpd p_aud ?_ _
      assumption
    · assumption
  · assumption

theorem encodeMix_only (p_regs : e .regs) (p_out : e .out) (p_hif : e .hif) (p_evt : e .evt) (p_ldg : e .ldg) (p_dlr : e
    .dlr) (p_cores : e .cores) (p_pke : e .pke) (p_dma : e .dma) (p_fwd : e .fwd) (p_aud : e .aud) (p_vid : e .vid) (p_sys :
    e .sys) {x1i x2i x3i x4i x5i x6i x7i} (h : Only e a d) : Only e a (encodeMix d x1i x2i x3i x4i x5i x6i x7i).1 := by
  unfold encodeMix
  extract_lets +onlyGivenNames x1
  extract_lets +onlyGivenNames x2
  extract_lets +onlyGivenNames x3
  have h3 : Only e a x3 := by
    unfold x3
    split
    · refine cnt_only p_regs ?_
      assumption
    · assumption
  try clear_value x3
  split
  · dsimp only
    assumption
  · extract_lets +onlyGivenNames x4
    split
    · dsimp only
      refine encodeCard_only p_regs p_out p_hif p_evt p_ldg p_dlr p_cores p_pke p_dma p_fwd p_aud p_vid p_sys ?_
      assumption
    · dsimp only
      assumption

theorem groupMix_only (p_regs : e .regs) (p_out : e .out) (p_hif : e .hif) (p_evt : e .evt) (p_ldg : e .ldg) (p_dlr : e
    .dlr) (p_cores : e .cores) (p_pke : e .pke) (p_dma : e .dma) (p_fwd : e .fwd) (p_aud : e .aud) (p_vid : e .vid) (p_sys :
    e .sys) {x0i x1i x2i x4i} (h : Only e a d) : Only e a (groupMix x0i x1i x2i d x4i) := by
  unfold groupMix
  split
  · assumption
  · extract_lets +onlyGivenNames x1
    have h1 : Only e a x1.1 := by
      unfold x1
      refine encodeMix_only p_regs p_out p_hif p_evt p_ldg p_dlr p_cores p_pke p_dma p_fwd p_aud p_vid p_sys ?_
      assumption
    try clear_value x1
    refine modStream_only p_aud ?_
    assumption

theorem personalMix_only (p_regs : e .regs) (p_out : e .out) (p_hif : e .hif) (p_evt : e .evt) (p_ldg : e .ldg) (p_dlr : e
    .dlr) (p_cores : e .cores) (p_pke : e .pke) (p_dma : e .dma) (p_fwd : e .fwd) (p_aud : e .aud) (p_vid : e .vid) (p_sys :
    e .sys) {x0i x1i x2i x3i x5i} (h : Only e a d) : Only e a (personalMix x0i x1i x2i x3i d x5i) := by
  unfold personalMix
  split
  · assumption
  · split
    · refine modPart_only p_aud ?_
      assumption
    · extract_lets +onlyGivenNames x1
      extract_lets +onlyGivenNames x2
      extract_lets +onlyGivenNames x3
      extract_lets +onlyGivenNames x4
      extract_lets +onlyGivenNames x5
      have h5 : Only e a x5.1 := by
        unfold x5
        split
        · refine encodeMix_only p_regs p_out p_hif p_evt p_ldg p_dlr p_cores p_pke p_dma p_fwd p_aud p_vid p_sys ?_
          assumption
        · dsimp only
          assumption
      try clear_value x5
      refine modPart_only p_aud ?_
      assumption

theorem decodeCard_only (p_regs : e .regs) (p_out : e .out) (p_hif : e .hif) (p_evt : e .evt) (p_ldg : e .ldg) (p_dlr : e
    .dlr) (p_cores : e .cores) (p_pke : e .pke) (p_dma : e .dma) (p_fwd : e .fwd) (p_aud : e .aud) (p_vid : e .vid) (p_sys :
    e .sys) {x0i x2i} (h : Only e a d) : Only e a (decodeCard x0i d x2i) := by
  unfold decodeCard
  split
  · assumption
  · refine fwCard_only p_regs p_out p_hif p_evt p_ldg p_dlr p_cores p_pke p_dma p_fwd p_aud p_vid p_sys ?_
    assumption

theorem blockErrors_only (p_regs : e .regs) (p_evt : e .evt) {x0i x1i x2i} (h : Only e a d) : Only e a (blockErrors x0i d x1i
    x2i) :=
  Only.foldl h (fun _ _ h3 => padUe_only p_regs p_evt h3)

theorem confBoundary_only (p_regs : e .regs) (p_out : e .out) (p_hif : e .hif) (p_evt : e .evt) (p_ldg : e .ldg) (p_dlr : e
    .dlr) (p_cores : e .cores) (p_pke : e .pke) (p_dma : e .dma) (p_fwd : e .fwd) (p_aud : e .aud) (p_vid : e .vid) (p_sys :
    e .sys) {x0i x2i} (h : Only e a d) : Only e a (confBoundary x0i d x2i) := by
  unfold confBoundary
  split
  · assumption
  · extract_lets +onlyGivenNames x1
    extract_lets +onlyGivenNames x2
    extract_lets +onlyGivenNames x3
    have h3 : Only e a x3 := by
      unfold x3
      refine applyChanges_only p_aud ?_
      assumption
    try clear_value x3
    extract_lets +onlyGivenNames x4
    extract_lets +onlyGivenNames x5
    extract_lets +onlyGivenNames x6
    have h6 : Only e a x6 := by
      unfold x6
      refine handEvents_only p_regs p_out p_hif ?_
      assumption
    try clear_value x6
    extract_lets +onlyGivenNames x7
    extract_lets +onlyGivenNames x8
    extract_lets +onlyGivenNames xb
    have hb : Only e a xb := by
      unfold xb
      exact blockErrors_only p_regs p_evt h6
    try clear_value xb
    extract_lets +onlyGivenNames x9
    extract_lets +onlyGivenNames x10
    have h10 : Only e a x10 := by
      unfold x10
      refine cnt_only p_regs ?_
      assumption
    try clear_value x10
    extract_lets +onlyGivenNames x11
    extract_lets +onlyGivenNames x12
    have h12 : Only e a x12 := by
      unfold x12
      refine putParts_only p_aud ?_
      assumption
    try clear_value x12
    extract_lets +onlyGivenNames x13
    have h13 : Only e a x13.1 := by
      unfold x13
      refine craftTalk_only p_aud ?_
      assumption
    try clear_value x13
    extract_lets +onlyGivenNames x14
    have h14 : Only e a x14 := by
      unfold x14
      assumption
    try clear_value x14
    extract_lets +onlyGivenNames x15
    extract_lets +onlyGivenNames x16
    have h16 : Only e a x16 := by
      unfold x16
      refine modConf_only p_aud ?_
      assumption
    try clear_value x16
    extract_lets +onlyGivenNames x17
    extract_lets +onlyGivenNames x18
    extract_lets +onlyGivenNames x19
    have h19 : Only e a x19.1 := by
      unfold x19
      refine cascadePot_only p_regs p_out p_hif p_evt p_ldg p_pke p_fwd p_aud ?_
      assumption
    try clear_value x19
    extract_lets +onlyGivenNames x20
    have h20 : Only e a x20.1 := by
      unfold x20
      split
      · dsimp only
        assumption
      · dsimp only
        refine sendPayload_only p_fwd ?_
        assumption
    try clear_value x20
    extract_lets +onlyGivenNames x21
    have h21 : Only e a x21 := by
      unfold x21
      assumption
    try clear_value x21
    extract_lets +onlyGivenNames x22
    have h22 : Only e a x22 := by
      unfold x22
      refine Only.foldl ?_ (fun d23 y23 h23 => ?_)
      · assumption
      · refine personalMix_only p_regs p_out p_hif p_evt p_ldg p_dlr p_cores p_pke p_dma p_fwd p_aud p_vid p_sys ?_
        assumption
    try clear_value x22
    extract_lets +onlyGivenNames x24
    have h24 : Only e a x24 := by
      unfold x24
      refine Only.foldl ?_ (fun d25 y25 h25 => ?_)
      · assumption
      · refine groupMix_only p_regs p_out p_hif p_evt p_ldg p_dlr p_cores p_pke p_dma p_fwd p_aud p_vid p_sys ?_
        assumption
    try clear_value x24
    extract_lets +onlyGivenNames x26
    have h26 : Only e a x26 := by
      unfold x26
      refine craftListen_only p_regs p_aud ?_
      assumption
    try clear_value x26
    extract_lets +onlyGivenNames x27
    extract_lets +onlyGivenNames x28
    have h28 : Only e a x28 := by
      unfold x28
      refine putParts_only p_aud ?_
      assumption
    try clear_value x28
    refine Only.foldl ?_ (fun d29 y29 h29 => ?_)
    · assumption
    · refine decodeCard_only p_regs p_out p_hif p_evt p_ldg p_dlr p_cores p_pke p_dma p_fwd p_aud p_vid p_sys ?_
      assumption

theorem audioBoundary_only (p_regs : e .regs) (p_out : e .out) (p_hif : e .hif) (p_evt : e .evt) (p_ldg : e .ldg) (p_dlr : e
    .dlr) (p_cores : e .cores) (p_pke : e .pke) (p_dma : e .dma) (p_fwd : e .fwd) (p_aud : e .aud) (p_vid : e .vid) (p_sys :
    e .sys) {x0i} (h : Only e a d) : Only e a (audioBoundary x0i d) := by
  unfold audioBoundary
  refine Only.foldl ?_ (fun d1 y1 h1 => ?_)
  · assumption
  · split
    · split
      · refine confBoundary_only p_regs p_out p_hif p_evt p_ldg p_dlr p_cores p_pke p_dma p_fwd p_aud p_vid p_sys ?_
        assumption
      · assumption
    · assumption

end Sys2Proof.Machine
end

