-- ==== Sys2Proof/Laws/Frame3.lean ====
section
/-! SUPPORT. What each operation of BrdOps, MemOps, Units, Tack, Modes, Time, Ports may write. -/
namespace Sys2Proof.Machine
variable {e : Piece → Prop} {a d : Dev}

/-! ### BrdOps -/

theorem putBrd_only (p_brd : e .brd) {x1i x2i} (h : Only e a d) : Only e a (putBrd d x1i x2i) := by
  unfold putBrd
  refine Only.brdUpd p_brd ?_ _
  assumption

theorem putQ_only (p_brd : e .brd) {x1i x2i x3i} (h : Only e a d) : Only e a (putQ d x1i x2i x3i) := by
  unfold putQ
  extract_lets +onlyGivenNames x1
  refine putBrd_only p_brd ?_
  assumption

theorem pushTxTs_only (p_regs : e .regs) (p_tim : e .tim) (p_evt : e .evt) {x1i x2i} (h : Only e a d) : Only e a (pushTxTs d
    x1i x2i) := by
  unfold pushTxTs
  extract_lets +onlyGivenNames x1
  extract_lets +onlyGivenNames x2
  split
  · refine raiseOnce_only p_evt ?_
    refine satF_only p_regs ?_
    refine putB_only p_regs ?_
    assumption
  · extract_lets +onlyGivenNames x3
    extract_lets +onlyGivenNames x4
    have h4 : Only e a x4 := by
      unfold x4
      refine Only.timUpd p_tim ?_ _ rfl
      assumption
    try clear_value x4
    refine setF_only p_regs ?_
    assumption

theorem setDepth_only (p_regs : e .regs) (p_evt : e .evt) {x1i x2i x3i} (h : Only e a d) : Only e a (setDepth d x1i x2i x3i)
    := by
  unfold setDepth
  extract_lets +onlyGivenNames x1
  extract_lets +onlyGivenNames x2
  extract_lets +onlyGivenNames x3
  refine wmStep_only p_regs p_evt ?_
  refine setReg_only p_regs ?_
  assumption

theorem pushQ_only (p_brd : e .brd) {x1i x2i} (h : Only e a d) : Only e a (pushQ d x1i x2i) := by
  unfold pushQ
  extract_lets +onlyGivenNames x1
  refine putQ_only p_brd ?_
  assumption

theorem popQ_only (p_regs : e .regs) (p_evt : e .evt) (p_brd : e .brd) {x1i x2i} (h : Only e a d) : Only e a (popQ d x1i
    x2i) := by
  unfold popQ
  extract_lets +onlyGivenNames x1
  split
  · assumption
  · extract_lets +onlyGivenNames x2
    have h2 : Only e a x2 := by
      unfold x2
      refine putQ_only p_brd ?_
      assumption
    try clear_value x2
    refine setDepth_only p_regs p_evt ?_
    assumption

theorem endFrame_only (p_regs : e .regs) (p_out : e .out) (p_tim : e .tim) (p_hif : e .hif) (p_evt : e .evt) (p_ldg : e
    .ldg) (p_pke : e .pke) (p_sys : e .sys) {x1i x2i x3i} (h : Only e a d) : Only e a (endFrame d x1i x2i x3i) := by
  unfold endFrame
  extract_lets +onlyGivenNames x1
  have h1 : Only e a x1 := by
    unfold x1
    refine freeCells_only p_regs p_evt p_ldg p_pke ?_
    assumption
  try clear_value x1
  extract_lets +onlyGivenNames x2
  have h2 : Only e a x2 := by
    unfold x2
    split
    · refine pushTxTs_only p_regs p_tim p_evt ?_
      assumption
    · assumption
  try clear_value x2
  split
  · refine complete_only p_regs p_out p_hif p_sys ?_
    assumption
  · assumption

theorem flushPort_only (p_regs : e .regs) (p_out : e .out) (p_tim : e .tim) (p_hif : e .hif) (p_evt : e .evt) (p_ldg : e
    .ldg) (p_mac : e .mac) (p_pke : e .pke) (p_brd : e .brd) (p_sys : e .sys) {x1i} (h : Only e a d) : Only e a (flushPort d
    x1i) := by
  unfold flushPort
  extract_lets +onlyGivenNames x1
  extract_lets +onlyGivenNames x2
  extract_lets +onlyGivenNames x3
  have h3 : Only e a x3 := by
    unfold x3
    refine putBrd_only p_brd ?_
    assumption
  try clear_value x3
  extract_lets +onlyGivenNames x4
  extract_lets +onlyGivenNames x5
  have h5 : Only e a x5 := by
    unfold x5
    refine putPort_only p_mac ?_
    assumption
  try clear_value x5
  extract_lets +onlyGivenNames x6
  have h6 : Only e a x6 := by
    unfold x6
    refine Only.foldl ?_ (fun d7 y7 h7 => ?_)
    · assumption
    · refine setDepth_only p_regs p_evt ?_
      assumption
  try clear_value x6
  extract_lets +onlyGivenNames x8
  have h8 : Only e a x8 := by
    unfold x8
    refine cnt_only p_regs ?_
    assumption
  try clear_value x8
  refine Only.foldl ?_ (fun d9 y9 h9 => ?_)
  · assumption
  · refine endFrame_only p_regs p_out p_tim p_hif p_evt p_ldg p_pke p_sys ?_
    assumption

theorem dropFrame_only (p_regs : e .regs) (p_freeCtr : e .freeCtr) (p_out : e .out) (p_tim : e .tim) (p_hif : e .hif) (p_evt
    : e .evt) (p_ldg : e .ldg) (p_pke : e .pke) (p_sys : e .sys) {x1i x2i} (h : Only e a d) : Only e a (dropFrame d x1i x2i)
    := by
  unfold dropFrame
  split
  · extract_lets +onlyGivenNames x1
    have h1 : Only e a x1.2 := by
      unfold x1
      refine drawFree_only p_freeCtr ?_
      assumption
    try clear_value x1
    refine endFrame_only p_regs p_out p_tim p_hif p_evt p_ldg p_pke p_sys ?_
    assumption
  · refine endFrame_only p_regs p_out p_tim p_hif p_evt p_ldg p_pke p_sys ?_
    assumption

theorem enterBridle_only (p_regs : e .regs) (p_freeCtr : e .freeCtr) (p_out : e .out) (p_tim : e .tim) (p_hif : e .hif)
    (p_evt : e .evt) (p_ldg : e .ldg) (p_pke : e .pke) (p_brd : e .brd) (p_sys : e .sys) {x1i} (h : Only e a d) : Only e a
    (enterBridle d x1i) := by
  unfold enterBridle
  extract_lets +onlyGivenNames x1
  extract_lets +onlyGivenNames x2
  extract_lets +onlyGivenNames x3
  extract_lets +onlyGivenNames x4
  have h4 : Only e a x4 := by
    unfold x4
    refine Only.brdUpd p_brd ?_ _
    assumption
  try clear_value x4
  extract_lets +onlyGivenNames x5
  split
  · refine dropFrame_only p_regs p_freeCtr p_out p_tim p_hif p_evt p_ldg p_pke p_sys ?_
    refine cnt_only p_regs ?_
    assumption
  · split
    · refine dropFrame_only p_regs p_freeCtr p_out p_tim p_hif p_evt p_ldg p_pke p_sys ?_
      refine raiseOnce_only p_evt ?_
      refine cnt_only p_regs ?_
      assumption
    · extract_lets +onlyGivenNames x6
      have h6 : Only e a x6 := by
        unfold x6
        refine setDepth_only p_regs p_evt ?_
        assumption
      try clear_value x6
      split
      · refine pushQ_only p_brd ?_
        assumption
      · extract_lets +onlyGivenNames x7
        split
        · refine pushQ_only p_brd ?_
          assumption
        · split
          · refine pushQ_only p_brd ?_
            refine raiseOnce_only p_evt ?_
            refine cnt_only p_regs ?_
            assumption
          · extract_lets +onlyGivenNames x8
            refine putBrd_only p_brd ?_
            assumption

/-! ### MemOps -/

theorem hbmPut_only (p_hbm : e .hbm) (p_mem : e .mem) {x bs} (h : Only e a d) : Only e a (hbmPut d x bs) := by
  unfold hbmPut
  split
  · exact h
  · exact Only.hbmUpd p_hbm p_mem h _ (fun w => spWf_write w _ _) rfl rfl

theorem fitSurface_only (p_regs : e .regs) (p_evt : e .evt) (p_ldg : e .ldg) (h : Only e a d) : Only e a (fitSurface d) :=
  ledgMod_only p_regs p_evt p_ldg (fun _ hx => all_setCap_sound hx) h

theorem takeArena_only (p_regs : e .regs) (p_evt : e .evt) (p_ldg : e .ldg) (p_mem : e .mem) {x1i x2i} (h : Only e a d) :
    Only e a (takeArena d x1i x2i) := by
  unfold takeArena
  refine ledgTake_only p_regs p_evt p_ldg ?_
  refine Only.memUpd p_mem ?_ _ rfl rfl rfl
  assumption

theorem dropArena_only (p_regs : e .regs) (p_evt : e .evt) (p_ldg : e .ldg) (p_mem : e .mem) {x1i} (h : Only e a d) : Only e
    a (dropArena d x1i) := by
  unfold dropArena
  split
  · assumption
  · refine ledgRelease_only p_regs p_evt p_ldg ?_
    refine Only.memUpd p_mem ?_ _ rfl rfl rfl
    assumption

theorem settleExtents_only (p_regs : e .regs) (p_evt : e .evt) (p_ldg : e .ldg) (p_mem : e .mem) (h : Only e a d) : Only e a
    (settleExtents d) := by
  unfold settleExtents
  refine ledgLand_only p_regs p_evt p_ldg ?_
  refine Only.memUpd p_mem ?_ _ rfl rfl rfl
  assumption

theorem hbmUnmapped_only (p_regs : e .regs) (p_out : e .out) (p_hif : e .hif) {x1i x2i} (h : Only e a d) : Only e a
    (hbmUnmapped d x1i x2i) := by
  unfold hbmUnmapped
  refine raise_only p_regs p_out p_hif ?_
  assumption

theorem addRepair_only (p_regs : e .regs) (p_out : e .out) (p_hif : e .hif) (p_sys : e .sys) {x1i} (h : Only e a d) : Only e
    a (addRepair d x1i) := by
  unfold addRepair
  extract_lets +onlyGivenNames x1
  split
  · assumption
  · extract_lets +onlyGivenNames x2
    extract_lets +onlyGivenNames x3
    extract_lets +onlyGivenNames x4
    extract_lets +onlyGivenNames x5
    have h5 : Only e a x5 := by
      unfold x5
      refine cnt_only p_regs ?_
      refine Only.sysUpd p_sys ?_ _ rfl rfl rfl rfl rfl rfl
      assumption
    try clear_value x5
    refine raise_only p_regs p_out p_hif ?_
    assumption

theorem hbmUe_only (p_regs : e .regs) (p_out : e .out) (p_hif : e .hif) (p_evt : e .evt) (p_sys : e .sys) {x1i x2i} (h :
    Only e a d) : Only e a (hbmUe d x1i x2i) := by
  unfold hbmUe
  extract_lets +onlyGivenNames x1
  extract_lets +onlyGivenNames x2
  have h2 : Only e a x2 := by
    unfold x2
    refine cnt_only p_regs ?_
    assumption
  try clear_value x2
  extract_lets +onlyGivenNames x3
  extract_lets +onlyGivenNames x4
  have h4 : Only e a x4 := by
    unfold x4
    refine raiseOnce_only p_evt ?_
    assumption
  try clear_value x4
  refine addRepair_only p_regs p_out p_hif p_sys ?_
  assumption

theorem hbmCe_only (p_regs : e .regs) (p_out : e .out) (p_hif : e .hif) (p_mem : e .mem) (p_sys : e .sys) {x1i} (h : Only e
    a d) : Only e a (hbmCe d x1i) := by
  unfold hbmCe
  extract_lets +onlyGivenNames x1
  extract_lets +onlyGivenNames x2
  have h2 : Only e a x2 := by
    unfold x2
    refine satF_only p_regs ?_
    refine cnt_only p_regs ?_
    assumption
  try clear_value x2
  extract_lets +onlyGivenNames x3
  extract_lets +onlyGivenNames x4
  extract_lets +onlyGivenNames x5
  have h5 : Only e a x5 := by
    unfold x5
    refine Only.memUpd p_mem ?_ _ rfl rfl rfl
    assumption
  try clear_value x5
  split
  · refine addRepair_only p_regs p_out p_hif p_sys ?_
    assumption
  · assumption

/-! ### Units -/

theorem clearWindow_only (p_regs : e .regs) (p_latch : e .latch) {ws} (h : Only e a d) : Only e a (clearWindow d ws) := by
  unfold clearWindow
  extract_lets gone
  exact Only.latchUpd p_latch (Only.regsUpd p_regs h (spClear d.regs gone) fun w => spWf_clear w _) (spClear d.latch gone)
      fun w => spWf_clear w _

theorem clearTeam_only (p_cores : e .cores) (p_pad : e .pad) (p_local_ : e .local_) (p_mem : e .mem) {q t} (h : Only e a d)
    : Only e a (clearTeam d q t) := by
  unfold clearTeam
  extract_lets x1
  have h1 : Only e a x1 := setPad_only p_pad (fun w => spWf_clear w _) h
  clear_value x1
  have h2 := Only.coresUpd p_cores h1 (x1.cores.filter fun c => !(coreQuarter c.id == q && coreTeam c.id == t))
  exact Only.localUpd p_local_ p_mem h2 { x1.mem with
      local_ := x1.mem.local_.filter fun e => !(coreQuarter e.1 == q && coreTeam e.1 == t)
      library := x1.mem.library.filter fun e => e.1 != 8 * q + t } (fun w => all_filter_local w _) rfl rfl

theorem unitStartAct_only (p_regs : e .regs) (p_evt : e .evt) (p_ldg : e .ldg) (p_mac : e .mac) (p_fwd : e .fwd) (p_sys : e
    .sys) {x1i} (h : Only e a d) : ActOnly e a (unitStartAct d x1i) := by
  unfold unitStartAct
  extract_lets +onlyGivenNames x1
  extract_lets +onlyGivenNames x2
  refine ActOnly.bind (fun w3 y3 => ?_)
  refine ActOnly.bind (fun w4 y4 => ?_)
  split
  · refine ActOnly.bind (fun w5 y5 => ?_)
    refine ActOnly.bind (fun w6 y6 => ?_)
    refine (show Only e a _ from ?_)
    refine startUnit_only p_regs p_evt p_ldg p_mac p_fwd p_sys ?_
    split
    · refine bookPool_only p_regs p_evt p_ldg p_sys ?_
      assumption
    · assumption
  · refine (show Only e a _ from ?_)
    assumption
  · exact trivial
  · exact trivial
  · exact trivial

theorem flagCfgBad_only (p_regs : e .regs) {x1i x2i} (h : Only e a d) : Only e a (flagCfgBad d x1i x2i) := by
  unfold flagCfgBad
  split
  · assumption
  · split
    · split
      · refine putB_only p_regs ?_
        assumption
      · assumption
    · assumption

theorem clearUnitState_only (p_regs : e .regs) (p_evt : e .evt) (p_ldg : e .ldg) (p_cores : e .cores) (p_mac : e .mac)
    (p_pke : e .pke) (p_brd : e .brd) (p_pad : e .pad) (p_local_ : e .local_) (p_mem : e .mem) (p_sys : e .sys) {x1i} (h :
    Only e a d) : Only e a (clearUnitState d x1i) := by
  unfold clearUnitState
  split
  · refine clearTeam_only p_cores p_pad p_local_ p_mem ?_
    assumption
  · refine unbookPool_only p_regs p_evt p_ldg p_sys ?_
    assumption
  · refine fitSurface_only p_regs p_evt p_ldg ?_
    assumption
  · extract_lets +onlyGivenNames x1
    refine Only.foldl ?_ (fun d2 y2 h2 => ?_)
    · refine Only.pkeUpd p_pke ?_ _ rfl
      assumption
    · refine freePkt_only p_regs p_evt p_ldg p_pke ?_
      assumption
  · extract_lets +onlyGivenNames x3
    extract_lets +onlyGivenNames x4
    extract_lets +onlyGivenNames x5
    extract_lets +onlyGivenNames x6
    have h6 : Only e a x6 := by
      unfold x6
      refine Only.brdUpd p_brd ?_ _
      assumption
    try clear_value x6
    refine Only.foldl ?_ (fun d7 y7 h7 => ?_)
    · assumption
    · extract_lets +onlyGivenNames x8
      refine setReg_only p_regs ?_
      assumption
  · refine putPort_only p_mac ?_
    assumption
  · refine Only.macUpd p_mac ?_ _
    assumption
  · assumption

theorem resetUnit_only (p_regs : e .regs) (p_latch : e .latch) (p_evt : e .evt) (p_ldg : e .ldg) (p_cores : e .cores) (p_mac
    : e .mac) (p_pke : e .pke) (p_brd : e .brd) (p_pad : e .pad) (p_local_ : e .local_) (p_mem : e .mem) (p_sys : e .sys)
    {x1i} (h : Only e a d) : Only e a (resetUnit d x1i) := by
  unfold resetUnit
  extract_lets +onlyGivenNames x1
  have h1 : Only e a x1 := by
    unfold x1
    refine clearUnitState_only p_regs p_evt p_ldg p_cores p_mac p_pke p_brd p_pad p_local_ p_mem p_sys ?_
    refine clearWindow_only p_regs p_latch ?_
    assumption
  try clear_value x1
  split
  · refine Only.sysUpd p_sys ?_ _ rfl rfl rfl rfl rfl rfl
    assumption
  · assumption

theorem unitStopAct_only (p_regs : e .regs) (p_latch : e .latch) (p_evt : e .evt) (p_ldg : e .ldg) (p_cores : e .cores)
    (p_mac : e .mac) (p_pke : e .pke) (p_brd : e .brd) (p_pad : e .pad) (p_local_ : e .local_) (p_mem : e .mem) (p_sys : e
    .sys) {x1i} (h : Only e a d) : ActOnly e a (unitStopAct d x1i) := by
  unfold unitStopAct
  extract_lets +onlyGivenNames x1
  extract_lets +onlyGivenNames x2
  refine ActOnly.bind (fun w3 y3 => ?_)
  refine ActOnly.bind (fun w4 y4 => ?_)
  split
  · exact trivial
  · refine (show Only e a _ from ?_)
    assumption
  · refine (show Only e a _ from ?_)
    refine setUState_only p_regs ?_
    assumption
  · refine (show Only e a _ from ?_)
    assumption
  · split
    · refine (show Only e a _ from ?_)
      refine resetUnit_only p_regs p_latch p_evt p_ldg p_cores p_mac p_pke p_brd p_pad p_local_ p_mem p_sys ?_
      assumption
    · exact trivial

theorem timeoutUnit_only (p_regs : e .regs) (p_out : e .out) (p_hif : e .hif) (p_evt : e .evt) (p_ldg : e .ldg) (p_sys : e
    .sys) {x1i} (h : Only e a d) : Only e a (timeoutUnit d x1i) := by
  unfold timeoutUnit
  extract_lets +onlyGivenNames x1
  extract_lets +onlyGivenNames x2
  have h2 : Only e a x2 := by
    unfold x2
    refine Only.foldl ?_ (fun d3 y3 h3 => ?_)
    · assumption
    · split
      · refine failId_only p_regs p_out p_hif p_sys ?_
        assumption
      · assumption
  try clear_value x2
  refine Only.foldl ?_ (fun d4 y4 h4 => ?_)
  · assumption
  · split
    · split
      · extract_lets +onlyGivenNames x5
        extract_lets +onlyGivenNames x6
        have h6 : Only e a x6 := by
          unfold x6
          refine Only.sysUpd p_sys ?_ _ rfl rfl rfl rfl rfl rfl
          assumption
        try clear_value x6
        refine failId_only p_regs p_out p_hif p_sys ?_
        refine unbookCmd_only p_regs p_evt p_ldg p_sys ?_
        assumption
      · assumption
    · assumption

/-! ### Tack -/

theorem putTack_only (p_tack : e .tack) {m} (hm : spWf d.sys.tack = true → spWf m = true) (h : Only e a d) : Only e a
    (putTack d m) :=
  Only.tackUpd p_tack h _ hm

theorem startStore_only (p_tack : e .tack) (p_sys : e .sys) {c n} (h : Only e a d) : Only e a (startStore d c n) := by
  unfold startStore
  extract_lets x1 x2 x3 x4 x5 x6
  have h6 : Only e a x6 := putTack_only p_tack (fun w => spWf_writeCopy w _ _ _ _ _ _) h
  clear_value x6
  exact Only.sysUpd p_sys h6 _ rfl rfl rfl rfl rfl rfl

theorem tackLoadAct_only (p_out : e .out) {x1i} (h : Only e a d) : ActOnly e a (tackLoadAct d x1i) := by
  unfold tackLoadAct
  extract_lets +onlyGivenNames x1
  extract_lets +onlyGivenNames x2
  extract_lets +onlyGivenNames x3
  extract_lets +onlyGivenNames x4
  extract_lets +onlyGivenNames x5
  refine ActOnly.bind (fun w6 y6 => ?_)
  refine ActOnly.bind (fun w7 y7 => ?_)
  refine ActOnly.bind (fun w8 y8 => ?_)
  split
  · refine (show Only e a _ from ?_)
    assumption
  · extract_lets +onlyGivenNames x9
    extract_lets +onlyGivenNames x10
    refine (show Only e a _ from ?_)
    split
    · assumption
    · refine emitOut_only p_out ?_
      assumption

theorem tackStoreAct_only (p_tack : e .tack) (p_sys : e .sys) {x0i x1i x3i} (h : Only e a d) : ActOnly e a (tackStoreAct x0i
    x1i d x3i) := by
  unfold tackStoreAct
  extract_lets +onlyGivenNames x1
  extract_lets +onlyGivenNames x2
  extract_lets +onlyGivenNames x3
  extract_lets +onlyGivenNames x4
  extract_lets +onlyGivenNames x5
  refine ActOnly.bind (fun w6 y6 => ?_)
  refine ActOnly.bind (fun w7 y7 => ?_)
  refine ActOnly.bind (fun w8 y8 => ?_)
  split
  · refine (show Only e a _ from ?_)
    assumption
  · extract_lets +onlyGivenNames x9
    refine ActOnly.bind (fun w10 y10 => ?_)
    refine ActOnly.bind (fun w11 y11 => ?_)
    refine ActOnly.bind (fun w12 y12 => ?_)
    refine (show Only e a _ from ?_)
    refine startStore_only p_tack p_sys ?_
    assumption

theorem tackBoot_only (p_regs : e .regs) (h : Only e a d) : Only e a (tackBoot d) := by
  unfold tackBoot
  extract_lets +onlyGivenNames x1
  extract_lets +onlyGivenNames x2
  extract_lets +onlyGivenNames x3
  have h3 : Only e a x3 := by
    unfold x3
    (clear_value x1; split)
    · refine setReg_only p_regs ?_
      refine setF_only p_regs ?_
      assumption
    · refine setReg_only p_regs ?_
      refine setF_only p_regs ?_
      assumption
  try clear_value x3
  split
  · refine putB_only p_regs ?_
    assumption
  · assumption

theorem tackStoreDone_only (p_regs : e .regs) (p_out : e .out) (p_hif : e .hif) (p_tack : e .tack) (p_sys : e .sys) {x1i
    x2i} (h : Only e a d) : Only e a (tackStoreDone d x1i x2i) := by
  unfold tackStoreDone
  split
  · assumption
  · extract_lets +onlyGivenNames x1
    extract_lets +onlyGivenNames x2
    have h2 : Only e a x2 := by
      unfold x2
      refine Only.sysUpd p_sys ?_ _ rfl rfl rfl rfl rfl rfl
      assumption
    try clear_value x2
    split
    · extract_lets +onlyGivenNames x3
      have h3 : Only e a x3 := by
        unfold x3
        refine putTack_only p_tack ?_ ?_
        · intro z4
          exact spWf_write ‹_› _ _
        · assumption
      try clear_value x3
      extract_lets +onlyGivenNames x5
      have h5 : Only e a x5 := by
        unfold x5
        refine setReg_only p_regs ?_
        refine setF_only p_regs ?_
        assumption
      try clear_value x5
      extract_lets +onlyGivenNames x6
      have h6 : Only e a x6 := by
        unfold x6
        refine raise_only p_regs p_out p_hif ?_
        assumption
      try clear_value x6
      refine complete_only p_regs p_out p_hif p_sys ?_
      assumption
    · refine failId_only p_regs p_out p_hif p_sys ?_
      assumption

/-! ### Modes -/

theorem popStep_only (p_tim : e .tim) (p_sys : e .sys) {x1i} (h : Only e a d) : Only e a (popStep d x1i) := by
  unfold popStep
  extract_lets +onlyGivenNames x1
  have h1 : Only e a x1 := by
    unfold x1
    refine advance_only p_tim ?_
    assumption
  try clear_value x1
  refine Only.sysUpd p_sys ?_ _ rfl rfl rfl rfl rfl rfl
  assumption

theorem autoStart_only (p_regs : e .regs) (p_mac : e .mac) {x1i} (h : Only e a d) : Only e a (autoStart d x1i) := by
  unfold autoStart
  split
  · assumption
  · split
    · refine portStarting_only p_regs p_mac ?_
      refine setUState_only p_regs ?_
      assumption
    · refine putB_only p_regs ?_
      assumption

theorem clearHbm_only (p_regs : e .regs) (p_evt : e .evt) (p_ldg : e .ldg) (p_pke : e .pke) (p_hbm : e .hbm) (p_mem : e
    .mem) (h : Only e a d) : Only e a (clearHbm d) := by
  unfold clearHbm
  extract_lets x1
  have h1 : Only e a x1 := setF_only p_regs (ledgGive_only p_regs p_evt p_ldg h)
  clear_value x1
  exact Only.pkeUpd p_pke (Only.hbmUpd p_hbm p_mem h1
    { x1.mem with hbm := [], hbmBad := [], pcs := [], answers := [], retrains := [] }
    (fun _ => spWf_nil) rfl rfl) { x1.pke with em := [], cache := [] } rfl

theorem bookPools_only (p_regs : e .regs) (p_evt : e .evt) (p_ldg : e .ldg) (p_sys : e .sys) {x1i x2i} (h : Only e a d) :
    Only e a (bookPools d x1i x2i) := by
  unfold bookPools
  refine Only.foldl ?_ (fun d1 y1 h1 => ?_)
  · assumption
  · refine bookPool_only p_regs p_evt p_ldg p_sys ?_
    assumption

theorem queueStacks_only (p_regs : e .regs) (p_evt : e .evt) (p_ldg : e .ldg) (p_pke : e .pke) (p_hbm : e .hbm) (p_mem : e
    .mem) (p_sys : e .sys) (h : Only e a d) : Only e a (queueStacks d) := by
  unfold queueStacks
  extract_lets +onlyGivenNames x1
  have h1 : Only e a x1 := by
    unfold x1
    refine setF_only p_regs ?_
    refine clearHbm_only p_regs p_evt p_ldg p_pke p_hbm p_mem ?_
    assumption
  try clear_value x1
  refine Only.sysUpd p_sys ?_ _ rfl rfl rfl rfl rfl rfl
  assumption

theorem modeSetAct_only (p_regs : e .regs) (p_evt : e .evt) (p_ldg : e .ldg) (p_sys : e .sys) {x1i} (h : Only e a d) :
    ActOnly e a (modeSetAct d x1i) := by
  unfold modeSetAct
  extract_lets +onlyGivenNames x1
  refine ActOnly.bind (fun w2 y2 => ?_)
  refine ActOnly.bind (fun w3 y3 => ?_)
  extract_lets +onlyGivenNames x4
  split
  · split
    · refine (show Only e a _ from ?_)
      assumption
    · refine (show Only e a _ from ?_)
      refine Only.sysUpd p_sys ?_ _ rfl rfl rfl rfl rfl rfl
      assumption
  · split
    · exact trivial
    · refine (show Only e a _ from ?_)
      refine bookPools_only p_regs p_evt p_ldg p_sys ?_
      refine Only.sysUpd p_sys ?_ _ rfl rfl rfl rfl rfl rfl
      assumption

theorem quarterReset_only (p_regs : e .regs) (p_latch : e .latch) (p_evt : e .evt) (p_ldg : e .ldg) (p_cores : e .cores)
    (p_mac : e .mac) (p_pke : e .pke) (p_brd : e .brd) (p_pad : e .pad) (p_local_ : e .local_) (p_mem : e .mem) (p_sys : e
    .sys) {q} (h : Only e a d) : Only e a (quarterReset d q) := by
  unfold quarterReset
  extract_lets x1 x2 x3
  have h2 : Only e a x2 := by
    unfold x2
    refine Only.foldl ?_ (fun d1 y1 h1 => ?_)
    · assumption
    · refine clearUnitState_only p_regs p_evt p_ldg p_cores p_mac p_pke p_brd p_pad p_local_ p_mem p_sys ?_
      refine clearWindow_only p_regs p_latch ?_
      assumption
  have h3 : Only e a x3 := setPad_only p_pad (fun _ => spWf_nil) h2
  clear_value x3
  have h4 := Only.coresUpd p_cores h3 (x3.cores.filter fun c => coreQuarter c.id != q)
  have h5 := Only.localUpd p_local_ p_mem h4 { x3.mem with
      local_ := x3.mem.local_.filter fun e => coreQuarter e.1 != q
      library := x3.mem.library.filter fun e => e.1 / 8 != q } (fun w => all_filter_local w _) rfl rfl
  exact Only.sysUpd p_sys h5 { x3.sys with
      stepFailed := x3.sys.stepFailed.filter fun u => u.quarter != q
      steps := x3.sys.steps ++ (x1.filter fun u => u.cls != 6).map fun u => ⟨u, 2⟩ } rfl rfl rfl rfl rfl rfl

theorem startControllers_only (p_regs : e .regs) (p_out : e .out) (p_hif : e .hif) (p_evt : e .evt) (p_ldg : e .ldg) (p_pke
    : e .pke) (p_hbm : e .hbm) (p_mem : e .mem) (p_sys : e .sys) (h : Only e a d) : Only e a (startControllers d) := by
  unfold startControllers
  split
  · refine queueStacks_only p_regs p_evt p_ldg p_pke p_hbm p_mem p_sys ?_
    refine setF_only p_regs ?_
    assumption
  · refine raise_only p_regs p_out p_hif ?_
    refine putB_only p_regs ?_
    assumption

theorem endStagger_only (p_regs : e .regs) (p_out : e .out) (p_hif : e .hif) (p_sys : e .sys) (h : Only e a d) : Only e a
    (endStagger d) := by
  unfold endStagger
  split
  · assumption
  · extract_lets +onlyGivenNames x1
    extract_lets +onlyGivenNames x2
    have h2 : Only e a x2 := by
      unfold x2
      refine setReg_only p_regs ?_
      assumption
    try clear_value x2
    extract_lets +onlyGivenNames x3
    have h3 : Only e a x3 := by
      unfold x3
      refine raise_only p_regs p_out p_hif ?_
      assumption
    try clear_value x3
    refine Only.sysUpd p_sys ?_ _ rfl rfl rfl rfl rfl rfl
    assumption

theorem stackPhase_only (p_regs : e .regs) (p_out : e .out) (p_hif : e .hif) (p_sys : e .sys) {x1i x2i x3i} (h : Only e a d)
    : Only e a (stackPhase d x1i x2i x3i) := by
  unfold stackPhase
  split
  · assumption
  · split
    · extract_lets +onlyGivenNames x1
      extract_lets +onlyGivenNames x2
      have h2 : Only e a x2 := by
        unfold x2
        refine Only.sysUpd p_sys ?_ _ rfl rfl rfl rfl rfl rfl
        assumption
      try clear_value x2
      refine endStagger_only p_regs p_out p_hif p_sys ?_
      refine raise_only p_regs p_out p_hif ?_
      refine putB_only p_regs ?_
      assumption
    · split
      · refine Only.sysUpd p_sys ?_ _ rfl rfl rfl rfl rfl rfl
        assumption
      · split
        · extract_lets +onlyGivenNames x3
          have h3 : Only e a x3 := by
            unfold x3
            refine putB_only p_regs ?_
            assumption
          try clear_value x3
          refine Only.sysUpd p_sys ?_ _ rfl rfl rfl rfl rfl rfl
          assumption
        · extract_lets +onlyGivenNames x4
          have h4 : Only e a x4 := by
            unfold x4
            refine putB_only p_regs ?_
            assumption
          try clear_value x4
          refine endStagger_only p_regs p_out p_hif p_sys ?_
          refine Only.sysUpd p_sys ?_ _ rfl rfl rfl rfl rfl rfl
          assumption

theorem enterTrain_only (p_regs : e .regs) (p_out : e .out) (p_hif : e .hif) (p_evt : e .evt) (p_ldg : e .ldg) (p_pke : e
    .pke) (p_hbm : e .hbm) (p_mem : e .mem) (p_mode : e .mode) (p_sys : e .sys) (h : Only e a d) : Only e a (enterTrain d)
    := by
  unfold enterTrain
  extract_lets +onlyGivenNames x1
  have h1 : Only e a x1 := by
    unfold x1
    refine startControllers_only p_regs p_out p_hif p_evt p_ldg p_pke p_hbm p_mem p_sys ?_
    refine setMode_only p_regs p_out p_hif p_mode p_sys ?_
    assumption
  try clear_value x1
  refine Only.sysUpd p_sys ?_ _ rfl rfl rfl rfl rfl rfl
  assumption

theorem endUnfence_only (p_regs : e .regs) (p_out : e .out) (p_hif : e .hif) (p_sys : e .sys) (h : Only e a d) : Only e a
    (endUnfence d) := by
  unfold endUnfence
  refine Only.foldl ?_ (fun d1 y1 h1 => ?_)
  · assumption
  · split
    · assumption
    · extract_lets +onlyGivenNames x2
      extract_lets +onlyGivenNames x3
      have h3 : Only e a x3 := by
        unfold x3
        refine Only.sysUpd p_sys ?_ _ rfl rfl rfl rfl rfl rfl
        assumption
      try clear_value x3
      extract_lets +onlyGivenNames x4
      have h4 : Only e a x4 := by
        unfold x4
        refine raise_only p_regs p_out p_hif ?_
        assumption
      try clear_value x4
      refine complete_only p_regs p_out p_hif p_sys ?_
      assumption

theorem beginChange_only (p_regs : e .regs) (p_out : e .out) (p_hif : e .hif) (p_evt : e .evt) (p_ldg : e .ldg) (p_mac : e
    .mac) (p_pke : e .pke) (p_hbm : e .hbm) (p_mem : e .mem) (p_fwd : e .fwd) (p_mode : e .mode) (p_sys : e .sys) {x1i x2i
    x3i} (h : Only e a d) : Only e a (beginChange d x1i x2i x3i) := by
  unfold beginChange
  split
  · refine complete_only p_regs p_out p_hif p_sys ?_
    refine enterHalt_only p_regs p_out p_hif p_mode p_sys ?_
    assumption
  · split
    · extract_lets +onlyGivenNames x1
      have h1 : Only e a x1 := by
        unfold x1
        refine startControllers_only p_regs p_out p_hif p_evt p_ldg p_pke p_hbm p_mem p_sys ?_
        refine setMode_only p_regs p_out p_hif p_mode p_sys ?_
        assumption
      try clear_value x1
      extract_lets +onlyGivenNames x2
      extract_lets +onlyGivenNames x3
      have h3 : Only e a x3 := by
        unfold x3
        refine Only.sysUpd p_sys ?_ _ rfl rfl rfl rfl rfl rfl
        assumption
      try clear_value x3
      refine complete_only p_regs p_out p_hif p_sys ?_
      assumption
    · extract_lets +onlyGivenNames x4
      extract_lets +onlyGivenNames x5
      have h5 : Only e a x5 := by
        unfold x5
        split
        · refine Only.memUpd p_mem ?_ _ rfl rfl rfl
          assumption
        · assumption
      try clear_value x5
      extract_lets +onlyGivenNames x6
      extract_lets +onlyGivenNames x7
      extract_lets +onlyGivenNames x8
      have h8 : Only e a x8 := by
        unfold x8
        refine Only.foldl ?_ (fun d9 y9 h9 => ?_)
        · assumption
        · split
          · refine setUState_only p_regs ?_
            assumption
          · assumption
      try clear_value x8
      refine progressChanges_only p_regs p_out p_hif p_evt p_ldg p_mac p_mem p_fwd p_mode p_sys ?_
      refine Only.sysUpd p_sys ?_ _ rfl rfl rfl rfl rfl rfl
      assumption

theorem powerStep_only (p_regs : e .regs) (p_out : e .out) (p_tim : e .tim) (p_hif : e .hif) (p_mac : e .mac) (p_sys : e
    .sys) {x1i} (h : Only e a d) : Only e a (powerStep d x1i) := by
  unfold powerStep
  split
  · assumption
  · split
    · assumption
    · extract_lets +onlyGivenNames x1
      have h1 : Only e a x1 := by
        unfold x1
        refine popStep_only p_tim p_sys ?_
        assumption
      try clear_value x1
      extract_lets +onlyGivenNames x2
      extract_lets +onlyGivenNames x3
      have h3 : Only e a x3 := by
        unfold x3
        split
        · refine Only.sysUpd p_sys ?_ _ rfl rfl rfl rfl rfl rfl
          assumption
        · split
          · refine autoStart_only p_regs p_mac ?_
            assumption
          · assumption
      try clear_value x3
      refine endUnfence_only p_regs p_out p_hif p_sys ?_
      refine endStagger_only p_regs p_out p_hif p_sys ?_
      assumption

theorem modeChange_only (p_regs : e .regs) (p_out : e .out) (p_hif : e .hif) (p_evt : e .evt) (p_ldg : e .ldg) (p_mac : e
    .mac) (p_pke : e .pke) (p_hbm : e .hbm) (p_mem : e .mem) (p_fwd : e .fwd) (p_mode : e .mode) (p_sys : e .sys) (h : Only
    e a d) : Only e a (modeChange d) := by
  unfold modeChange
  split
  · assumption
  · split
    · assumption
    · extract_lets +onlyGivenNames x1
      extract_lets +onlyGivenNames x2
      have h2 : Only e a x2 := by
        unfold x2
        refine Only.sysUpd p_sys ?_ _ rfl rfl rfl rfl rfl rfl
        assumption
      try clear_value x2
      split
      · assumption
      · extract_lets +onlyGivenNames x3
        split
        · refine complete_only p_regs p_out p_hif p_sys ?_
          refine unbookCmd_only p_regs p_evt p_ldg p_sys ?_
          assumption
        · split
          · refine failId_only p_regs p_out p_hif p_sys ?_
            refine unbookCmd_only p_regs p_evt p_ldg p_sys ?_
            assumption
          · refine beginChange_only p_regs p_out p_hif p_evt p_ldg p_mac p_pke p_hbm p_mem p_fwd p_mode p_sys ?_
            refine bookPools_only p_regs p_evt p_ldg p_sys ?_
            assumption

theorem quarterFenceAct_only (p_regs : e .regs) (p_latch : e .latch) (p_out : e .out) (p_hif : e .hif) (p_evt : e .evt)
    (p_ldg : e .ldg) (p_dlr : e .dlr) (p_cores : e .cores) (p_mac : e .mac) (p_pke : e .pke) (p_brd : e .brd) (p_pad : e
    .pad) (p_local_ : e .local_) (p_mem : e .mem) (p_dma : e .dma) (p_fwd : e .fwd) (p_aud : e .aud) (p_vid : e .vid)
    (p_mode : e .mode) (p_sys : e .sys) {x1i} (h : Only e a d) : ActOnly e a (quarterFenceAct d x1i) := by
  unfold quarterFenceAct
  extract_lets +onlyGivenNames x1
  extract_lets +onlyGivenNames x2
  refine ActOnly.bind (fun w3 y3 => ?_)
  refine ActOnly.bind (fun w4 y4 => ?_)
  split
  · split
    · refine (show Only e a _ from ?_)
      assumption
    · refine (show Only e a _ from ?_)
      refine fenceQuarter_only p_regs p_out p_hif p_evt p_ldg p_dlr p_cores p_mac p_pke p_mem p_dma p_fwd p_aud p_vid p_mode
          p_sys ?_
      assumption
  · split
    · refine (show Only e a _ from ?_)
      assumption
    · split
      · exact trivial
      · extract_lets +onlyGivenNames x5
        have h5 : Only e a x5 := by
          unfold x5
          split
          · assumption
          · refine quarterReset_only p_regs p_latch p_evt p_ldg p_cores p_mac p_pke p_brd p_pad p_local_ p_mem p_sys ?_
            assumption
        try clear_value x5
        refine (show Only e a _ from ?_)
        refine Only.sysUpd p_sys ?_ _ rfl rfl rfl rfl rfl rfl
        assumption

theorem powerStepFail_only (p_regs : e .regs) (p_out : e .out) (p_tim : e .tim) (p_hif : e .hif) (p_evt : e .evt) (p_ldg : e
    .ldg) (p_dlr : e .dlr) (p_cores : e .cores) (p_mac : e .mac) (p_pke : e .pke) (p_mem : e .mem) (p_dma : e .dma) (p_fwd :
    e .fwd) (p_aud : e .aud) (p_vid : e .vid) (p_mode : e .mode) (p_sys : e .sys) {x1i} (h : Only e a d) : Only e a
    (powerStepFail d x1i) := by
  unfold powerStepFail
  split
  · assumption
  · split
    · assumption
    · extract_lets +onlyGivenNames x1
      have h1 : Only e a x1 := by
        unfold x1
        refine popStep_only p_tim p_sys ?_
        assumption
      try clear_value x1
      extract_lets +onlyGivenNames x2
      extract_lets +onlyGivenNames x3
      have h3 : Only e a x3 := by
        unfold x3
        refine Only.foldl ?_ (fun d4 y4 h4 => ?_)
        · assumption
        · refine enterFault_only p_regs p_out p_hif p_evt p_ldg p_dlr p_cores p_mac p_pke p_mem p_dma p_fwd p_aud p_vid
            p_mode p_sys ?_
          assumption
      try clear_value x3
      extract_lets +onlyGivenNames x5
      extract_lets +onlyGivenNames x6
      have h6 : Only e a x6 := by
        unfold x6
        split
        · assumption
        · refine Only.sysUpd p_sys ?_ _ rfl rfl rfl rfl rfl rfl
          assumption
      try clear_value x6
      extract_lets +onlyGivenNames x7
      have h7 : Only e a x7 := by
        unfold x7
        refine raise_only p_regs p_out p_hif ?_
        assumption
      try clear_value x7
      refine endUnfence_only p_regs p_out p_hif p_sys ?_
      refine endStagger_only p_regs p_out p_hif p_sys ?_
      assumption

/-! ### Time -/

theorem putPulse_only (p_tim : e .tim) {x1i x2i} (h : Only e a d) : Only e a (putPulse d x1i x2i) := by
  unfold putPulse
  refine Only.timUpd p_tim ?_ _ rfl
  assumption

theorem unstepPulse_only (p_tim : e .tim) {x1i x2i} (h : Only e a d) : Only e a (unstepPulse d x1i x2i) := by
  unfold unstepPulse
  extract_lets +onlyGivenNames x1
  split
  · assumption
  · extract_lets +onlyGivenNames x2
    refine putPulse_only p_tim ?_
    assumption

theorem logFreq_only (p_tim : e .tim) (h : Only e a d) : Only e a (logFreq d) := by
  unfold logFreq
  extract_lets +onlyGivenNames x1
  refine Only.timUpd p_tim ?_ _ rfl
  assumption

theorem tick_only (p_tim : e .tim) (h : Only e a d) : Only e a (tick d) := by
  unfold tick
  extract_lets +onlyGivenNames x1
  split
  · refine Only.timUpd p_tim ?_ _ rfl
    assumption
  · assumption

theorem shiftTimes_only (p_tim : e .tim) (p_mac : e .mac) (p_pke : e .pke) (p_brd : e .brd) (p_sys : e .sys) {x1i} (h : Only
    e a d) : Only e a (shiftTimes d x1i) := by
  unfold shiftTimes
  extract_lets +onlyGivenNames x1
  refine Only.upd (b := d) ?_ rfl (.inr rfl) rfl (.inr rfl) (.inr rfl) (.inr rfl) (.inr rfl) (.inr rfl) (.inl p_mac) (.inr
      rfl) (.inl p_brd) (.inr rfl) (.inr rfl) (.inr rfl) (.inr rfl) rfl rfl rfl (.inr ⟨p_tim, rfl⟩) (.inl rfl) (.inr
      ⟨p_pke, rfl⟩) (.inl rfl) (.inr ⟨p_sys, rfl, rfl, rfl, rfl, rfl, rfl⟩)
  assumption

theorem strideRead_only (p_latch : e .latch) (h : Only e a d) : Only e a (strideRead d).2 := by
  unfold strideRead
  dsimp only
  refine setLatch_only p_latch ?_
  assumption

theorem startPulse_only (p_out : e .out) (p_tim : e .tim) {x1i x2i x3i x4i} (h : Only e a d) : Only e a (startPulse d x1i
    x2i x3i x4i) := by
  unfold startPulse
  split
  · assumption
  · refine emitOut_only p_out ?_
    refine putPulse_only p_tim ?_
    assumption

theorem timeRead_only (p_latch : e .latch) {x1i} (h : Only e a d) : Only e a (timeRead d x1i).2 := by
  unfold timeRead
  extract_lets +onlyGivenNames x1
  extract_lets +onlyGivenNames x2
  split
  · dsimp only
    refine setLatch_only p_latch ?_
    assumption
  · dsimp only
    refine setLatch_only p_latch ?_
    refine setLatch_only p_latch ?_
    assumption

theorem strideEdges_only (p_regs : e .regs) (p_out : e .out) (p_tim : e .tim) {x1i} (h : Only e a d) : Only e a (strideEdges
    d x1i) := by
  unfold strideEdges
  extract_lets +onlyGivenNames x1
  extract_lets +onlyGivenNames x2
  refine Only.foldl ?_ (fun d3 y3 h3 => ?_)
  · assumption
  · split
    · assumption
    · extract_lets +onlyGivenNames x4
      have h4 : Only e a x4 := by
        unfold x4
        refine cnt_only p_regs ?_
        assumption
      try clear_value x4
      split
      · refine startPulse_only p_out p_tim ?_
        assumption
      · assumption

theorem readAt_only (p_tim : e .tim) {x1i} (h : Only e a d) : Only e a (readAt d x1i) := by
  unfold readAt
  split
  · refine advance_only p_tim ?_
    assumption
  · assumption

theorem showOffset_only (p_regs : e .regs) {x1i} (h : Only e a d) : Only e a (showOffset d x1i) := by
  unfold showOffset
  refine setReg_only p_regs ?_
  assumption

theorem endPulse_only (p_out : e .out) (p_tim : e .tim) {x1i x2i} (h : Only e a d) : Only e a (endPulse d x1i x2i) := by
  unfold endPulse
  refine emitOut_only p_out ?_
  refine putPulse_only p_tim ?_
  assumption

theorem pulseWidthEnd_only (p_out : e .out) (p_tim : e .tim) {x1i} (h : Only e a d) : Only e a (pulseWidthEnd d x1i) := by
  unfold pulseWidthEnd
  split
  · assumption
  · extract_lets +onlyGivenNames x1
    split
    · refine endPulse_only p_out p_tim ?_
      refine advance_only p_tim ?_
      assumption
    · assumption

theorem holdStride_only (p_regs : e .regs) (p_tim : e .tim) (h : Only e a d) : Only e a (holdStride d) := by
  unfold holdStride
  split
  · assumption
  · extract_lets +onlyGivenNames x1
    refine setReg_only p_regs ?_
    refine Only.timUpd p_tim ?_ _ rfl
    assumption

theorem pulseTakeover_only (p_regs : e .regs) (p_out : e .out) (p_tim : e .tim) {x1i x2i} (h : Only e a d) : Only e a
    (pulseTakeover d x1i x2i) := by
  unfold pulseTakeover
  extract_lets +onlyGivenNames x1
  split
  · assumption
  · split
    · assumption
    · extract_lets +onlyGivenNames x2
      have h2 : Only e a x2 := by
        unfold x2
        refine advance_only p_tim ?_
        assumption
      try clear_value x2
      extract_lets +onlyGivenNames x3
      extract_lets +onlyGivenNames x4
      extract_lets +onlyGivenNames x5
      have h5 : Only e a x5 := by
        unfold x5
        split
        · refine cnt_only p_regs ?_
          assumption
        · assumption
      try clear_value x5
      extract_lets +onlyGivenNames x6
      have h6 : Only e a x6 := by
        unfold x6
        refine putPulse_only p_tim ?_
        assumption
      try clear_value x6
      extract_lets +onlyGivenNames x7
      have h7 : Only e a x7 := by
        unfold x7
        refine putB_only p_regs ?_
        assumption
      try clear_value x7
      split
      · refine emitOut_only p_out ?_
        assumption
      · assumption

theorem pulseEdge_only (p_out : e .out) (p_tim : e .tim) {x1i x2i} (h : Only e a d) : Only e a (pulseEdge d x1i x2i) := by
  unfold pulseEdge
  extract_lets +onlyGivenNames x1
  split
  · assumption
  · split
    · assumption
    · extract_lets +onlyGivenNames x2
      have h2 : Only e a x2 := by
        unfold x2
        refine putPulse_only p_tim ?_
        refine advance_only p_tim ?_
        assumption
      try clear_value x2
      refine startPulse_only p_out p_tim ?_
      assumption

theorem txtsPop_only (p_regs : e .regs) (p_tim : e .tim) {x1i} (h : Only e a d) : Only e a (txtsPop d x1i).2 := by
  unfold txtsPop
  extract_lets +onlyGivenNames x1
  split
  · dsimp only
    refine setReg_only p_regs ?_
    refine setReg_only p_regs ?_
    assumption
  · extract_lets +onlyGivenNames x2
    extract_lets +onlyGivenNames x3
    have h3 : Only e a x3 := by
      unfold x3
      refine Only.timUpd p_tim ?_ _ rfl
      assumption
    try clear_value x3
    extract_lets +onlyGivenNames x4
    have h4 : Only e a x4 := by
      unfold x4
      refine setF_only p_regs ?_
      assumption
    try clear_value x4
    extract_lets +onlyGivenNames x5
    have h5 : Only e a x5 := by
      unfold x5
      refine setReg_only p_regs ?_
      refine setReg_only p_regs ?_
      assumption
    try clear_value x5
    extract_lets +onlyGivenNames x6
    dsimp only
    refine setReg_only p_regs ?_
    assumption

theorem stepPulse_only (p_regs : e .regs) (p_out : e .out) (p_tim : e .tim) {x1i x2i} (h : Only e a d) : Only e a (stepPulse
    d x1i x2i) := by
  unfold stepPulse
  extract_lets +onlyGivenNames x1
  split
  · assumption
  · split
    · assumption
    · split
      · refine startPulse_only p_out p_tim ?_
        refine putPulse_only p_tim ?_
        assumption
      · extract_lets +onlyGivenNames x2
        extract_lets +onlyGivenNames x3
        have h3 : Only e a x3 := by
          unfold x3
          refine putPulse_only p_tim ?_
          assumption
        try clear_value x3
        split
        · assumption
        · refine cnt_only p_regs ?_
          assumption

theorem applySquelch_only (p_out : e .out) (p_tim : e .tim) (h : Only e a d) : Only e a (applySquelch d) := by
  unfold applySquelch
  refine Only.foldl ?_ (fun d1 y1 h1 => ?_)
  · assumption
  · split
    · refine endPulse_only p_out p_tim ?_
      assumption
    · assumption

theorem setFreq_only (p_regs : e .regs) (p_tim : e .tim) {x1i x2i} (h : Only e a d) : Only e a (setFreq d x1i x2i) := by
  unfold setFreq
  extract_lets +onlyGivenNames x1
  have h1 : Only e a x1 := by
    unfold x1
    refine logFreq_only p_tim ?_
    assumption
  try clear_value x1
  extract_lets +onlyGivenNames x2
  have h2 : Only e a x2 := by
    unfold x2
    split
    · assumption
    · refine putB_only p_regs ?_
      assumption
  try clear_value x2
  refine setReg_only p_regs ?_
  assumption

theorem writeFreq_only (p_regs : e .regs) (p_tim : e .tim) {x1i} (h : Only e a d) : Only e a (writeFreq d x1i) := by
  unfold writeFreq
  split
  · refine setFreq_only p_regs p_tim ?_
    assumption
  · refine putB_only p_regs ?_
    assumption

theorem setServo_only (p_regs : e .regs) (p_out : e .out) (p_tim : e .tim) {x1i} (h : Only e a d) : Only e a (setServo d
    x1i) := by
  unfold setServo
  extract_lets +onlyGivenNames x1
  have h1 : Only e a x1 := by
    unfold x1
    refine setF_only p_regs ?_
    refine logFreq_only p_tim ?_
    assumption
  try clear_value x1
  extract_lets +onlyGivenNames x2
  have h2 : Only e a x2 := by
    unfold x2
    refine putB_only p_regs ?_
    assumption
  try clear_value x2
  extract_lets +onlyGivenNames x3
  extract_lets +onlyGivenNames x4
  have h4 : Only e a x4 := by
    unfold x4
    refine Only.timUpd p_tim ?_ _ rfl
    assumption
  try clear_value x4
  refine applySquelch_only p_out p_tim ?_
  refine setReg_only p_regs ?_
  assumption

theorem holdover_only (p_regs : e .regs) (p_out : e .out) (p_tim : e .tim) (p_hif : e .hif) {x1i} (h : Only e a d) : Only e
    a (holdover d x1i) := by
  unfold holdover
  split
  · assumption
  · extract_lets +onlyGivenNames x1
    have h1 : Only e a x1 := by
      unfold x1
      refine setServo_only p_regs p_out p_tim ?_
      assumption
    try clear_value x1
    extract_lets +onlyGivenNames x2
    refine raise_only p_regs p_out p_hif ?_
    refine setReg_only p_regs ?_
    assumption

theorem enterFreerun_only (p_regs : e .regs) (p_out : e .out) (p_tim : e .tim) (p_hif : e .hif) (h : Only e a d) : Only e a
    (enterFreerun d) := by
  unfold enterFreerun
  extract_lets +onlyGivenNames x1
  split
  · assumption
  · refine raise_only p_regs p_out p_hif ?_
    refine setServo_only p_regs p_out p_tim ?_
    assumption

theorem doStep_only (p_regs : e .regs) (p_out : e .out) (p_tim : e .tim) (p_hif : e .hif) (p_mac : e .mac) (p_pke : e .pke)
    (p_brd : e .brd) (p_sys : e .sys) {x1i x2i} (h : Only e a d) : Only e a (doStep d x1i x2i) := by
  unfold doStep
  extract_lets +onlyGivenNames x1
  extract_lets +onlyGivenNames x2
  have h2 : Only e a x2 := by
    unfold x2
    refine shiftTimes_only p_tim p_mac p_pke p_brd p_sys ?_
    assumption
  try clear_value x2
  extract_lets +onlyGivenNames x3
  extract_lets +onlyGivenNames x4
  have h4 : Only e a x4 := by
    unfold x4
    refine Only.timUpd p_tim ?_ _ rfl
    assumption
  try clear_value x4
  extract_lets +onlyGivenNames x5
  have h5 : Only e a x5 := by
    unfold x5
    split
    · refine Only.foldl ?_ (fun d6 y6 h6 => ?_)
      · refine putB_only p_regs ?_
        assumption
      · refine unstepPulse_only p_tim ?_
        assumption
    · refine Only.foldl ?_ (fun d7 y7 h7 => ?_)
      · assumption
      · refine stepPulse_only p_regs p_out p_tim ?_
        assumption
  try clear_value x5
  extract_lets +onlyGivenNames x8
  have h8 : Only e a x8 := by
    unfold x8
    refine putB_only p_regs ?_
    refine putB_only p_regs ?_
    assumption
  try clear_value x8
  refine raise_only p_regs p_out p_hif ?_
  refine Only.timUpd p_tim ?_ _ rfl
  assumption

theorem servoState_only (p_regs : e .regs) (p_out : e .out) (p_tim : e .tim) (p_hif : e .hif) {x1i x2i} (h : Only e a d) :
    Only e a (servoState d x1i x2i) := by
  unfold servoState
  extract_lets +onlyGivenNames x1
  extract_lets +onlyGivenNames x2
  extract_lets +onlyGivenNames x3
  extract_lets +onlyGivenNames x4
  extract_lets +onlyGivenNames x5
  extract_lets +onlyGivenNames x6
  have h6 : Only e a x6 := by
    unfold x6
    refine Only.timUpd p_tim ?_ _ rfl
    assumption
  try clear_value x6
  split
  · extract_lets +onlyGivenNames x7
    extract_lets +onlyGivenNames x8
    have h8 : Only e a x8 := by
      unfold x8
      refine setServo_only p_regs p_out p_tim ?_
      refine Only.timUpd p_tim ?_ _ rfl
      assumption
    try clear_value x8
    refine raise_only p_regs p_out p_hif ?_
    assumption
  · split
    · refine setServo_only p_regs p_out p_tim ?_
      assumption
    · assumption

theorem tryStep_only (p_regs : e .regs) (p_out : e .out) (p_tim : e .tim) (p_hif : e .hif) (p_mac : e .mac) (p_pke : e .pke)
    (p_brd : e .brd) (p_sys : e .sys) {x1i x2i} (h : Only e a d) : Only e a (tryStep d x1i x2i).1 := by
  unfold tryStep
  extract_lets +onlyGivenNames x1
  extract_lets +onlyGivenNames x2
  split
  · dsimp only
    refine doStep_only p_regs p_out p_tim p_hif p_mac p_pke p_brd p_sys ?_
    assumption
  · extract_lets +onlyGivenNames x3
    extract_lets +onlyGivenNames x4
    have h4 : Only e a x4 := by
      unfold x4
      refine showOffset_only p_regs ?_
      refine putB_only p_regs ?_
      assumption
    try clear_value x4
    split
    · dsimp only
      refine raise_only p_regs p_out p_hif ?_
      refine Only.timUpd p_tim ?_ _ rfl
      assumption
    · dsimp only
      assumption

theorem servoSync_only (p_regs : e .regs) (p_out : e .out) (p_stride : e .stride) (p_tim : e .tim) (p_hif : e .hif) (p_mac :
    e .mac) (p_pke : e .pke) (p_brd : e .brd) (p_sys : e .sys) {x1i x2i x3i x4i} (h : Only e a d) : Only e a (servoSync d
    x1i x2i x3i x4i) := by
  unfold servoSync
  extract_lets +onlyGivenNames x1
  extract_lets +onlyGivenNames x2
  have h2 : Only e a x2 := by
    unfold x2
    refine putB_only p_regs ?_
    assumption
  try clear_value x2
  extract_lets +onlyGivenNames x3
  extract_lets +onlyGivenNames x4
  have h4 : Only e a x4 := by
    unfold x4
    split
    · refine Only.strideUpd p_stride p_tim ?_ _
      assumption
    · assumption
  try clear_value x4
  extract_lets +onlyGivenNames x5
  extract_lets +onlyGivenNames x6
  have h6 : Only e a x6.1 := by
    unfold x6
    refine tryStep_only p_regs p_out p_tim p_hif p_mac p_pke p_brd p_sys ?_
    assumption
  try clear_value x6
  extract_lets +onlyGivenNames x7
  have h7 : Only e a x7 := by
    unfold x7
    assumption
  try clear_value x7
  extract_lets +onlyGivenNames x8
  extract_lets +onlyGivenNames x9
  have h9 : Only e a x9 := by
    unfold x9
    split
    · split
      · assumption
      · refine Only.strideUpd p_stride p_tim ?_ _
        assumption
    · split
      · refine setFreq_only p_regs p_tim ?_
        assumption
      · refine setFreq_only p_regs p_tim ?_
        assumption
  try clear_value x9
  refine servoState_only p_regs p_out p_tim p_hif ?_
  assumption

theorem writeStepCtrl_only (p_regs : e .regs) (p_out : e .out) (p_tim : e .tim) (p_hif : e .hif) (p_mac : e .mac) (p_pke : e
    .pke) (p_brd : e .brd) (p_sys : e .sys) {x1i} (h : Only e a d) : Only e a (writeStepCtrl d x1i) := by
  unfold writeStepCtrl
  extract_lets +onlyGivenNames x1
  have h1 : Only e a x1 := by
    unfold x1
    split
    · refine putB_only p_regs ?_
      assumption
    · assumption
  try clear_value x1
  split
  · assumption
  · split
    · refine putB_only p_regs ?_
      assumption
    · refine tryStep_only p_regs p_out p_tim p_hif p_mac p_pke p_brd p_sys ?_
      assumption

theorem writePulseCfg_only (p_regs : e .regs) (p_out : e .out) (p_tim : e .tim) (p_hif : e .hif) {x1i x2i x3i} (h : Only e a
    d) : Only e a (writePulseCfg d x1i x2i x3i) := by
  unfold writePulseCfg
  extract_lets +onlyGivenNames x1
  split
  · assumption
  · extract_lets +onlyGivenNames x2
    extract_lets +onlyGivenNames x3
    extract_lets +onlyGivenNames x4
    extract_lets +onlyGivenNames x5
    extract_lets +onlyGivenNames x6
    have h6 : Only e a x6 := by
      unfold x6
      refine applySquelch_only p_out p_tim ?_
      refine setReg_only p_regs ?_
      assumption
    try clear_value x6
    split
    · assumption
    · extract_lets +onlyGivenNames x7
      split
      · refine raise_only p_regs p_out p_hif ?_
        refine putB_only p_regs ?_
        assumption
      · refine putPulse_only p_tim ?_
        refine putB_only p_regs ?_
        assumption

theorem writeTimCtrl_only (p_regs : e .regs) (p_out : e .out) (p_tim : e .tim) (p_hif : e .hif) {x1i} (h : Only e a d) :
    Only e a (writeTimCtrl d x1i) := by
  unfold writeTimCtrl
  extract_lets +onlyGivenNames x1
  extract_lets +onlyGivenNames x2
  extract_lets +onlyGivenNames x3
  have h3 : Only e a x3 := by
    unfold x3
    refine setReg_only p_regs ?_
    assumption
  try clear_value x3
  split
  · assumption
  · extract_lets +onlyGivenNames x4
    have h4 : Only e a x4 := by
      unfold x4
      refine putB_only p_regs ?_
      assumption
    try clear_value x4
    extract_lets +onlyGivenNames x5
    extract_lets +onlyGivenNames x6
    have h6 : Only e a x6 := by
      unfold x6
      refine Only.timUpd p_tim ?_ _ rfl
      assumption
    try clear_value x6
    split
    · assumption
    · refine enterFreerun_only p_regs p_out p_tim p_hif ?_
      assumption

/-! ### Ports -/

theorem anResolve_only (p_regs : e .regs) (p_mac : e .mac) {x1i x2i} (h : Only e a d) : Only e a (anResolve d x1i x2i) := by
  unfold anResolve
  split
  · extract_lets +onlyGivenNames x1
    extract_lets +onlyGivenNames x2
    have h2 : Only e a x2 := by
      unfold x2
      refine putPort_only p_mac ?_
      assumption
    try clear_value x2
    refine afterType_only p_regs ?_
    refine fitRole_only p_regs ?_
    refine setTypeNow_only p_regs ?_
    assumption
  · assumption

theorem retrainPorts_only (p_regs : e .regs) (p_mac : e .mac) (h : Only e a d) : Only e a (retrainPorts d) := by
  unfold retrainPorts
  refine Only.foldl ?_ (fun d1 y1 h1 => ?_)
  · assumption
  · extract_lets +onlyGivenNames x2
    split
    · refine setLink_only p_regs ?_
      refine putPort_only p_mac ?_
      refine leaveUp_only p_regs p_mac ?_
      assumption
    · assumption

theorem trainTimeout_only (p_regs : e .regs) (p_out : e .out) (p_hif : e .hif) (p_mac : e .mac) {x1i} (h : Only e a d) :
    Only e a (trainTimeout d x1i) := by
  unfold trainTimeout
  split
  · assumption
  · extract_lets +onlyGivenNames x1
    extract_lets +onlyGivenNames x2
    have h2 : Only e a x2 := by
      unfold x2
      refine setLink_only p_regs ?_
      refine putPort_only p_mac ?_
      assumption
    try clear_value x2
    split
    · refine raise_only p_regs p_out p_hif ?_
      assumption
    · assumption

theorem polarity_only (p_regs : e .regs) (p_out : e .out) (p_hif : e .hif) (p_mac : e .mac) {x1i x2i x3i} (h : Only e a d) :
    Only e a (polarity d x1i x2i x3i) := by
  unfold polarity
  split
  · extract_lets +onlyGivenNames x1
    have h1 : Only e a x1 := by
      unfold x1
      refine putB_only p_regs ?_
      assumption
    try clear_value x1
    extract_lets +onlyGivenNames x2
    split
    · refine raise_only p_regs p_out p_hif ?_
      refine putPort_only p_mac ?_
      assumption
    · assumption
  · refine putB_only p_regs ?_
    assumption
  · refine putB_only p_regs ?_
    assumption

theorem laneRecheck_only (p_regs : e .regs) (p_out : e .out) (p_hif : e .hif) (p_mac : e .mac) {x1i x2i} (h : Only e a d) :
    Only e a (laneRecheck d x1i x2i) := by
  unfold laneRecheck
  split
  · assumption
  · extract_lets +onlyGivenNames x1
    split
    · refine Only.macUpd p_mac ?_ _
      assumption
    · extract_lets +onlyGivenNames x2
      extract_lets +onlyGivenNames x3
      have h3 : Only e a x3 := by
        unfold x3
        refine Only.macUpd p_mac ?_ _
        assumption
      try clear_value x3
      extract_lets +onlyGivenNames x4
      have h4 : Only e a x4 := by
        unfold x4
        refine putB_only p_regs ?_
        refine setF_only p_regs ?_
        assumption
      try clear_value x4
      extract_lets +onlyGivenNames x5
      have h5 : Only e a x5 := by
        unfold x5
        refine raise_only p_regs p_out p_hif ?_
        assumption
      try clear_value x5
      split
      · split
        · refine putPort_only p_mac ?_
          assumption
        · assumption
      · assumption

theorem linkComesUp_only (p_regs : e .regs) (p_out : e .out) (p_hif : e .hif) (p_mac : e .mac) {x1i x2i x3i x4i} (h : Only e
    a d) : Only e a (linkComesUp d x1i x2i x3i x4i) := by
  unfold linkComesUp
  extract_lets +onlyGivenNames x1
  split
  · assumption
  · extract_lets +onlyGivenNames x2
    have h2 : Only e a x2 := by
      unfold x2
      refine Only.foldl ?_ (fun d3 y3 h3 => ?_)
      · assumption
      · refine polarity_only p_regs p_out p_hif p_mac ?_
        refine putB_only p_regs ?_
        refine setF_only p_regs ?_
        assumption
    try clear_value x2
    extract_lets +onlyGivenNames x4
    extract_lets +onlyGivenNames x5
    have h5 : Only e a x5 := by
      unfold x5
      refine setLink_only p_regs ?_
      refine putPort_only p_mac ?_
      assumption
    try clear_value x5
    extract_lets +onlyGivenNames x6
    have h6 : Only e a x6 := by
      unfold x6
      split
      · refine raise_only p_regs p_out p_hif ?_
        assumption
      · assumption
    try clear_value x6
    extract_lets +onlyGivenNames x7
    have h7 : Only e a x7 := by
      unfold x7
      refine raise_only p_regs p_out p_hif ?_
      assumption
    try clear_value x7
    split
    · refine raise_only p_regs p_out p_hif ?_
      assumption
    · assumption

theorem trainingDone_only (p_regs : e .regs) (p_out : e .out) (p_hif : e .hif) (p_mac : e .mac) {x1i x2i x3i} (h : Only e a
    d) : Only e a (trainingDone d x1i x2i x3i) := by
  unfold trainingDone
  split
  · assumption
  · extract_lets +onlyGivenNames x1
    have h1 : Only e a x1 := by
      unfold x1
      refine Only.foldl ?_ (fun d2 y2 h2 => ?_)
      · assumption
      · extract_lets +onlyGivenNames x3
        have h3 : Only e a x3 := by
          unfold x3
          refine setReg_only p_regs ?_
          refine putB_only p_regs ?_
          assumption
        try clear_value x3
        refine polarity_only p_regs p_out p_hif p_mac ?_
        assumption
    try clear_value x1
    refine setLink_only p_regs ?_
    assumption

theorem lineFault_only (p_regs : e .regs) (p_out : e .out) (p_hif : e .hif) (p_mac : e .mac) {x1i x2i} (h : Only e a d) :
    Only e a (lineFault d x1i x2i) := by
  unfold lineFault
  extract_lets +onlyGivenNames x1
  split
  · refine faultLane_only p_regs p_out p_hif p_mac ?_
    assumption
  · assumption

theorem laneFails_only (p_regs : e .regs) (p_out : e .out) (p_hif : e .hif) (p_mac : e .mac) {x1i x2i x3i} (h : Only e a d)
    : Only e a (laneFails d x1i x2i x3i) := by
  unfold laneFails
  split
  · assumption
  · split
    · assumption
    · extract_lets +onlyGivenNames x1
      extract_lets +onlyGivenNames x2
      extract_lets +onlyGivenNames x3
      have h3 : Only e a x3 := by
        unfold x3
        split
        · refine loseLink_only p_regs p_out p_hif p_mac ?_
          assumption
        · assumption
      try clear_value x3
      extract_lets +onlyGivenNames x4
      have h4 : Only e a x4 := by
        unfold x4
        refine faultLane_only p_regs p_out p_hif p_mac ?_
        assumption
      try clear_value x4
      split
      · refine setLink_only p_regs ?_
        assumption
      · assumption

theorem lineCheck_only (p_regs : e .regs) (p_out : e .out) (p_hif : e .hif) (p_mac : e .mac) {x1i x2i} (h : Only e a d) :
    Only e a (lineCheck d x1i x2i) := by
  unfold lineCheck
  split
  · refine endCheck_only p_regs p_mac ?_
    refine Only.foldl ?_ (fun d1 y1 h1 => ?_)
    · assumption
    · refine lineFault_only p_regs p_out p_hif p_mac ?_
      assumption
  · assumption

theorem failover_only (p_regs : e .regs) (p_out : e .out) (p_tim : e .tim) (p_hif : e .hif) (p_evt : e .evt) (p_ldg : e
    .ldg) (p_mac : e .mac) (p_pke : e .pke) (p_brd : e .brd) (p_sys : e .sys) {x1i} (h : Only e a d) : Only e a (failover d
    x1i) :=
    by
  unfold failover
  split
  · assumption
  · split
    · assumption
    · extract_lets +onlyGivenNames x1
      extract_lets +onlyGivenNames x2
      have h2 : Only e a x2 := by
        unfold x2
        refine putPort_only p_mac ?_
        assumption
      try clear_value x2
      split
      · assumption
      · extract_lets +onlyGivenNames x3
        extract_lets +onlyGivenNames x4
        split
        · refine raise_only p_regs p_out p_hif ?_
          assumption
        · extract_lets +onlyGivenNames x5
          have h5 : Only e a x5 := by
            unfold x5
            refine flushPort_only p_regs p_out p_tim p_hif p_evt p_ldg p_mac p_pke p_brd p_sys ?_
            refine setRole_only p_regs ?_
            refine setRole_only p_regs ?_
            assumption
          try clear_value x5
          extract_lets +onlyGivenNames x6
          extract_lets +onlyGivenNames x7
          have h7 : Only e a x7 := by
            unfold x7
            refine putBrd_only p_brd ?_
            assumption
          try clear_value x7
          extract_lets +onlyGivenNames x8
          extract_lets +onlyGivenNames x9
          have h9 : Only e a x9 := by
            unfold x9
            refine putBrd_only p_brd ?_
            assumption
          try clear_value x9
          refine raise_only p_regs p_out p_hif ?_
          assumption

end Sys2Proof.Machine
end

