-- ==== Sys2Proof/Laws/Frame4.lean ====
section
/-! SUPPORT. What each operation of MacFrames, PktOps, Packet, Srtp may write. -/
namespace Sys2Proof.Machine
variable {e : Piece → Prop} {a d : Dev}

/-! ### MacFrames -/

theorem loadPause_only (p_regs : e .regs) (p_mac : e .mac) {x1i x2i x3i x4i x5i} (h : Only e a d) : Only e a (loadPause d
    x1i x2i x3i x4i x5i) := by
  unfold loadPause
  extract_lets +onlyGivenNames x1
  split
  · split
    · assumption
    · refine Only.foldl ?_ (fun d2 y2 h2 => ?_)
      · assumption
      · split
        · extract_lets +onlyGivenNames x3
          extract_lets +onlyGivenNames x4
          refine putB_only p_regs ?_
          refine putPort_only p_mac ?_
          assumption
        · assumption
  · split
    · assumption
    · extract_lets +onlyGivenNames x5
      refine putB_only p_regs ?_
      refine putPort_only p_mac ?_
      assumption

theorem pauseFrame_only (p_regs : e .regs) (p_tim : e .tim) (p_mac : e .mac) {x1i x2i x3i x4i x5i} (h : Only e a d) : Only e
    a (pauseFrame d x1i x2i x3i x4i x5i) := by
  unfold pauseFrame
  split
  · assumption
  · extract_lets +onlyGivenNames x1
    have h1 : Only e a x1 := by
      unfold x1
      refine advance_only p_tim ?_
      assumption
    try clear_value x1
    split
    · refine cnt_only p_regs ?_
      assumption
    · refine loadPause_only p_regs p_mac ?_
      refine cnt_only p_regs ?_
      assumption

theorem controlFrame_only (p_regs : e .regs) (p_mac : e .mac) {x1i x2i} (h : Only e a d) : Only e a (controlFrame d x1i x2i)
    := by
  unfold controlFrame
  extract_lets +onlyGivenNames x1
  have h1 : Only e a x1 := by
    unfold x1
    refine cnt_only p_regs ?_
    assumption
  try clear_value x1
  extract_lets +onlyGivenNames x2
  split
  · refine loadPause_only p_regs p_mac ?_
    assumption
  · refine loadPause_only p_regs p_mac ?_
    assumption
  · assumption

theorem pauseExpiry_only (p_regs : e .regs) (p_tim : e .tim) {x1i x2i x3i} (h : Only e a d) : Only e a (pauseExpiry d x1i
    x2i x3i) := by
  unfold pauseExpiry
  split
  · assumption
  · split
    · split
      · assumption
      · refine putB_only p_regs ?_
        refine advance_only p_tim ?_
        assumption
    · split
      · assumption
      · refine putB_only p_regs ?_
        refine advance_only p_tim ?_
        assumption

theorem storeFrame_only (p_regs : e .regs) (p_evt : e .evt) (p_ldg : e .ldg) (p_pke : e .pke) {x1i x2i x3i x4i x5i} (h :
    Only e a d) : Only e a (storeFrame d x1i x2i x3i x4i x5i) := by
  unfold storeFrame
  extract_lets +onlyGivenNames x1
  split
  · refine cnt_only p_regs ?_
    assumption
  · extract_lets +onlyGivenNames x2
    have h2 : Only e a x2 := by
      unfold x2
      refine ledgIssue_only p_regs p_evt p_ldg ?_
      assumption
    try clear_value x2
    split
    · refine cnt_only p_regs ?_
      refine ledgLand_only p_regs p_evt p_ldg ?_
      assumption
    · extract_lets +onlyGivenNames x3
      extract_lets +onlyGivenNames x4
      extract_lets +onlyGivenNames x5
      have h5 : Only e a x5 := by
        unfold x5
        refine ledgLand_only p_regs p_evt p_ldg ?_
        refine ledgArrive_only p_regs p_evt p_ldg ?_
        assumption
      try clear_value x5
      extract_lets +onlyGivenNames x6
      extract_lets +onlyGivenNames x7
      extract_lets +onlyGivenNames x8
      have h8 : Only e a x8 := by
        unfold x8
        refine Only.pkeUpd p_pke ?_ _ rfl
        assumption
      try clear_value x8
      refine cnt_only p_regs ?_
      assumption

theorem receiveFrame_only (p_regs : e .regs) (p_evt : e .evt) (p_ldg : e .ldg) (p_mac : e .mac) (p_pke : e .pke) {x1i x2i
    x3i x4i} (h : Only e a d) : Only e a (receiveFrame d x1i x2i x3i x4i) := by
  unfold receiveFrame
  split
  · assumption
  · split
    · refine cnt_only p_regs ?_
      assumption
    · split
      · refine cnt_only p_regs ?_
        assumption
      · split
        · refine cnt_only p_regs ?_
          assumption
        · split
          · refine controlFrame_only p_regs p_mac ?_
            assumption
          · extract_lets +onlyGivenNames x1
            refine storeFrame_only p_regs p_evt p_ldg p_pke ?_
            assumption

theorem macTransmit_only (p_regs : e .regs) (p_freeCtr : e .freeCtr) (p_out : e .out) (p_tim : e .tim) (p_hif : e .hif)
    (p_evt : e .evt) (p_ldg : e .ldg) (p_mac : e .mac) (p_pke : e .pke) (p_brd : e .brd) (p_sys : e .sys) {x1i x2i} (h :
    Only e a d) : Only e a (macTransmit d x1i x2i) := by
  unfold macTransmit
  split
  · assumption
  · split
    · assumption
    · extract_lets +onlyGivenNames x1
      extract_lets +onlyGivenNames x2
      have h2 : Only e a x2 := by
        unfold x2
        refine putPort_only p_mac ?_
        assumption
      try clear_value x2
      split
      · refine endFrame_only p_regs p_out p_tim p_hif p_evt p_ldg p_pke p_sys ?_
        assumption
      · split
        · refine dropFrame_only p_regs p_freeCtr p_out p_tim p_hif p_evt p_ldg p_pke p_sys ?_
          assumption
        · split
          · refine dropFrame_only p_regs p_freeCtr p_out p_tim p_hif p_evt p_ldg p_pke p_sys ?_
            refine cnt_only p_regs ?_
            assumption
          · extract_lets +onlyGivenNames x3
            have h3 : Only e a x3 := by
              unfold x3
              refine emitOut_only p_out ?_
              refine cnt_only p_regs ?_
              assumption
            try clear_value x3
            extract_lets +onlyGivenNames x4
            extract_lets +onlyGivenNames x5
            have h5 : Only e a x5 := by
              unfold x5
              refine putBrd_only p_brd ?_
              assumption
            try clear_value x5
            extract_lets +onlyGivenNames x6
            have h6 : Only e a x6 := by
              unfold x6
              refine freeCells_only p_regs p_evt p_ldg p_pke ?_
              assumption
            try clear_value x6
            extract_lets +onlyGivenNames x7
            have h7 : Only e a x7 := by
              unfold x7
              split
              · refine pushTxTs_only p_regs p_tim p_evt ?_
                assumption
              · assumption
            try clear_value x7
            split
            · refine complete_only p_regs p_out p_hif p_sys ?_
              assumption
            · assumption

theorem txFrameAct_only (p_regs : e .regs) (p_freeCtr : e .freeCtr) (p_out : e .out) (p_tim : e .tim) (p_hif : e .hif)
    (p_evt : e .evt) (p_ldg : e .ldg) (p_pke : e .pke) (p_brd : e .brd) (p_sys : e .sys) {x0i x2i} (h : Only e a d) :
    ActOnly e a (txFrameAct x0i d x2i) := by
  unfold txFrameAct
  extract_lets +onlyGivenNames x1
  extract_lets +onlyGivenNames x2
  extract_lets +onlyGivenNames x3
  refine ActOnly.bind (fun w4 y4 => ?_)
  refine ActOnly.bind (fun w5 y5 => ?_)
  refine ActOnly.bind (fun w6 y6 => ?_)
  refine ActOnly.bind (fun w7 y7 => ?_)
  split
  · exact trivial
  · split
    · refine (show Only e a _ from ?_)
      assumption
    · extract_lets +onlyGivenNames x8
      refine (show Only e a _ from ?_)
      refine enterBridle_only p_regs p_freeCtr p_out p_tim p_hif p_evt p_ldg p_pke p_brd p_sys ?_
      refine takeCells_only p_regs p_evt p_ldg p_pke ?_
      assumption

/-! ### PktOps -/

theorem touchCache_only (p_pke : e .pke) {x1i x2i} (h : Only e a d) : Only e a (touchCache d x1i x2i) := by
  unfold touchCache
  refine Only.pkeUpd p_pke ?_ _ rfl
  assumption

theorem aclAction_only (p_regs : e .regs) {x1i x2i} (h : Only e a d) : Only e a (aclAction d x1i x2i).1 := by
  unfold aclAction
  split
  · dsimp only
    refine cnt_only p_regs ?_
    assumption
  · dsimp only
    refine cnt_only p_regs ?_
    assumption

theorem showEm_only (p_regs : e .regs) (h : Only e a d) : Only e a (showEm d) := by
  unfold showEm
  refine setF_only p_regs ?_
  assumption

theorem emInsert_some (p_regs : e .regs) (p_evt : e .evt) (p_ldg : e .ldg) (p_pke : e .pke) {p k ac l d'} (q : emInsert d p
    k ac l = some d') (h : Only e a d) : Only e a d' := by
  unfold emInsert at q
  split at q
  · cases q
    exact touchCache_only p_pke (Only.pkeUpd p_pke h _ rfl)
  · split at q
    · cases q
    · cases q
      exact touchCache_only p_pke (showEm_only p_regs (ledgTake_only p_regs p_evt p_ldg (Only.pkeUpd p_pke h _ rfl)))

theorem emDelete_only (p_regs : e .regs) (p_evt : e .evt) (p_ldg : e .ldg) (p_pke : e .pke) {x1i x2i} (h : Only e a d) :
    Only e a (emDelete d x1i x2i) := by
  unfold emDelete
  split
  · assumption
  · refine showEm_only p_regs ?_
    refine ledgGive_only p_regs p_evt p_ldg ?_
    refine Only.pkeUpd p_pke ?_ _ rfl
    assumption

theorem enterSlow_only (p_regs : e .regs) (p_evt : e .evt) (p_ldg : e .ldg) (p_pke : e .pke) {x1i x2i} (h : Only e a d) :
    Only e a (enterSlow d x1i x2i) := by
  unfold enterSlow
  split
  · refine Only.pkeUpd p_pke ?_ _ rfl
    assumption
  · extract_lets +onlyGivenNames x1
    extract_lets +onlyGivenNames x2
    refine freePkt_only p_regs p_evt p_ldg p_pke ?_
    refine raiseOnce_only p_evt ?_
    refine cnt_only p_regs ?_
    assumption

theorem deliverPkt_only (p_regs : e .regs) (p_evt : e .evt) (p_ldg : e .ldg) (p_pke : e .pke) (p_sec : e .sec) {x1i x2i} (h
    : Only e a d) : Only e a (deliverPkt d x1i x2i) := by
  unfold deliverPkt
  split
  · refine enterSlow_only p_regs p_evt p_ldg p_pke ?_
    assumption
  · refine Only.secUpd p_sec ?_ _
    assumption
  · refine enterSlow_only p_regs p_evt p_ldg p_pke ?_
    assumption
  · refine freePkt_only p_regs p_evt p_ldg p_pke ?_
    assumption

theorem releaseHeldN_only (p_regs : e .regs) (p_evt : e .evt) (p_ldg : e .ldg) (p_pke : e .pke) (p_sec : e .sec) {n p} (h :
    Only e a d) : Only e a (releaseHeldN n d p) := by
  induction n generalizing d with
  | zero => exact h
  | succ n ih =>
    unfold releaseHeldN
    split
    · refine ih ?_
      refine deliverPkt_only p_regs p_evt p_ldg p_pke p_sec ?_
      refine Only.pkeUpd p_pke ?_ _ rfl
      assumption
    · assumption

theorem classify_only (p_regs : e .regs) (p_evt : e .evt) (p_ldg : e .ldg) (p_pke : e .pke) (p_sec : e .sec) {x1i x2i} (h :
    Only e a d) : Only e a (classify d x1i x2i) := by
  unfold classify
  extract_lets +onlyGivenNames x1
  have h1 : Only e a x1 := by
    unfold x1
    split
    · refine cnt_only p_regs ?_
      assumption
    · assumption
  try clear_value x1
  extract_lets +onlyGivenNames x2
  split
  · extract_lets +onlyGivenNames x3
    have h3 : Only e a x3 := by
      unfold x3
      unfold x2
      refine Only.pkeUpd p_pke ?_ _ rfl
      assumption
    try clear_value x3
    extract_lets +onlyGivenNames x4
    extract_lets +onlyGivenNames x5
    have h5 : Only e a x5 := by
      unfold x5
      split
      · refine Only.pkeUpd p_pke ?_ _ rfl
        assumption
      · refine freePkt_only p_regs p_evt p_ldg p_pke ?_
        refine raiseOnce_only p_evt ?_
        refine cnt_only p_regs ?_
        assumption
    try clear_value x5
    refine releaseHeldN_only p_regs p_evt p_ldg p_pke p_sec ?_
    assumption
  · split
    · extract_lets +onlyGivenNames x6
      extract_lets +onlyGivenNames x7
      have h7 : Only e a x7 := by
        unfold x7
        refine Only.pkeUpd p_pke ?_ _ rfl
        assumption
      try clear_value x7
      refine releaseHeldN_only p_regs p_evt p_ldg p_pke p_sec ?_
      assumption
    · refine deliverPkt_only p_regs p_evt p_ldg p_pke p_sec ?_
      assumption

theorem lookupDone_only (p_regs : e .regs) (p_evt : e .evt) (p_ldg : e .ldg) (p_pke : e .pke) (p_sec : e .sec) {x1i x2i x3i}
    (h : Only e a d) : Only e a (lookupDone d x1i x2i x3i) := by
  unfold lookupDone
  split
  · refine classify_only p_regs p_evt p_ldg p_pke p_sec ?_
    refine touchCache_only p_pke ?_
    refine cnt_only p_regs ?_
    assumption
  · extract_lets +onlyGivenNames x1
    have h1 : Only e a x1 := by
      unfold x1
      split
      · refine cnt_only p_regs ?_
        assumption
      · assumption
    try clear_value x1
    extract_lets +onlyGivenNames x2
    have h2 : Only e a x2.1 := by
      unfold x2
      refine aclAction_only p_regs ?_
      assumption
    try clear_value x2
    refine classify_only p_regs p_evt p_ldg p_pke p_sec ?_
    assumption

theorem endLap_only (p_regs : e .regs) (p_evt : e .evt) (p_ldg : e .ldg) (p_pke : e .pke) (p_sec : e .sec) {x1i x2i x3i} (h
    : Only e a d) : Only e a (endLap d x1i x2i x3i) := by
  unfold endLap
  extract_lets +onlyGivenNames x1
  extract_lets +onlyGivenNames x2
  extract_lets +onlyGivenNames x3
  have h3 : Only e a x3 := by
    unfold x3
    refine cnt_only p_regs ?_
    assumption
  try clear_value x3
  extract_lets +onlyGivenNames x4
  have h4 : Only e a x4 := by
    unfold x4
    split
    · refine raiseOnce_only p_evt ?_
      assumption
    · assumption
  try clear_value x4
  extract_lets +onlyGivenNames x5
  split
  · extract_lets +onlyGivenNames x6
    extract_lets +onlyGivenNames x7
    have h7 : Only e a x7 := by
      unfold x7
      refine cnt_only p_regs ?_
      assumption
    try clear_value x7
    refine Only.pkeUpd p_pke ?_ _ rfl
    assumption
  · refine lookupDone_only p_regs p_evt p_ldg p_pke p_sec ?_
    unfold x5
    refine Only.pkeUpd p_pke ?_ _ rfl
    assumption

/-! ### Packet -/

theorem startLap_only (p_pke : e .pke) {x1i x2i x3i} (h : Only e a d) : Only e a (startLap d x1i x2i x3i) := by
  unfold startLap
  extract_lets +onlyGivenNames x1
  extract_lets +onlyGivenNames x2
  have h2 : Only e a x2 := by
    unfold x2
    split
    · refine Only.pkeUpd p_pke ?_ _ rfl
      assumption
    · assumption
  try clear_value x2
  extract_lets +onlyGivenNames x3
  refine Only.pkeUpd p_pke ?_ _ rfl
  assumption

theorem pkeBoundary_only (p_pke : e .pke) (h : Only e a d) : Only e a (pkeBoundary d) := by
  unfold pkeBoundary
  refine Only.pkeUpd p_pke ?_ _ rfl
  assumption

theorem loadDefaultRules_only (p_pke : e .pke) (h : Only e a d) : Only e a (loadDefaultRules d) :=
  Only.progUpd p_pke h _ fun w => all_upd w (by decide)

theorem putThread_only (p_pke : e .pke) {x1i} (h : Only e a d) : Only e a (putThread d x1i) := by
  unfold putThread
  refine Only.pkeUpd p_pke ?_ _ rfl
  assumption

theorem emInsertAll_only (p_regs : e .regs) (p_evt : e .evt) (p_ldg : e .ldg) (p_pke : e .pke) {l} (h : Only e a d) : Only e
    a (emInsertAll d l).1 := by
  induction l generalizing d with
  | nil => exact h
  | cons y ys ih =>
    unfold emInsertAll
    split
    · refine ih ?_
      apply emInsert_some p_regs p_evt p_ldg p_pke <;> assumption
    · dsimp only
      assumption

theorem emDeleteAll_only (p_regs : e .regs) (p_evt : e .evt) (p_ldg : e .ldg) (p_pke : e .pke) {l} (h : Only e a d) : Only e
    a (emDeleteAll d l).1 := by
  induction l generalizing d with
  | nil => exact h
  | cons y ys ih =>
    unfold emDeleteAll
    extract_lets +onlyGivenNames x1
    extract_lets +onlyGivenNames x2
    extract_lets +onlyGivenNames x3
    have h3 : Only e a x3.1 := by
      unfold x3
      refine ih ?_
      refine emDelete_only p_regs p_evt p_ldg p_pke ?_
      assumption
    try clear_value x3
    dsimp only
    assumption

theorem slowService_only (p_regs : e .regs) (p_tim : e .tim) (p_evt : e .evt) (p_ldg : e .ldg) (p_pke : e .pke) (h : Only e
    a d) : Only e a (slowService d) := by
  unfold slowService
  split
  · assumption
  · split
    · extract_lets +onlyGivenNames x1
      extract_lets +onlyGivenNames x2
      have h2 : Only e a x2 := by
        unfold x2
        split
        · refine Only.timUpd p_tim ?_ _ rfl
          assumption
        · assumption
      try clear_value x2
      refine freePkt_only p_regs p_evt p_ldg p_pke ?_
      refine Only.pkeUpd p_pke ?_ _ rfl
      assumption
    · assumption

theorem goEpoch_only (p_regs : e .regs) (p_out : e .out) (p_hif : e .hif) (p_pke : e .pke) {x1i} (h : Only e a d) : Only e a
    (goEpoch d x1i) := by
  unfold goEpoch
  extract_lets +onlyGivenNames x1
  extract_lets +onlyGivenNames x2
  extract_lets +onlyGivenNames x3
  have h3 : Only e a x3 := by
    unfold x3
    refine setReg_only p_regs ?_
    refine putB_only p_regs ?_
    refine setReg_only p_regs ?_
    assumption
  try clear_value x3
  refine raise_only p_regs p_out p_hif ?_
  refine Only.pkeUpd p_pke ?_ _ rfl
  assumption

theorem ruleSwapAct_only (p_regs : e .regs) (p_out : e .out) (p_hif : e .hif) (p_pke : e .pke) {x1i} (h : Only e a d) :
    ActOnly e a (ruleSwapAct d x1i) := by
  unfold ruleSwapAct
  extract_lets +onlyGivenNames x1
  refine ActOnly.bind (fun w2 y2 => ?_)
  refine ActOnly.bind (fun w3 y3 => ?_)
  refine ActOnly.bind (fun w4 y4 => ?_)
  split
  · refine (show Only e a _ from ?_)
    refine goEpoch_only p_regs p_out p_hif p_pke ?_
    assumption
  · extract_lets +onlyGivenNames x5
    have h5 : Only e a x5 := by
      unfold x5
      refine putB_only p_regs ?_
      assumption
    try clear_value x5
    refine (show Only e a _ from ?_)
    refine Only.pkeUpd p_pke ?_ _ rfl
    assumption

theorem ruleWriteAct_only (p_regs : e .regs) (p_out : e .out) (p_hif : e .hif) (p_evt : e .evt) (p_ldg : e .ldg) (p_pke : e
    .pke) (p_sys : e .sys) {r c} (h : Only e a d) : ActOnly e a (ruleWriteAct r d c) := by
  unfold ruleWriteAct
  extract_lets +onlyGivenNames x1
  extract_lets +onlyGivenNames x2
  extract_lets +onlyGivenNames x3
  extract_lets +onlyGivenNames x4
  refine ActOnly.bind (fun w5 y5 => ?_)
  refine ActOnly.bind (fun w6 y6 => ?_)
  refine ActOnly.bind (fun w7 y7 => ?_)
  split
  · exact trivial
  · extract_lets +onlyGivenNames x8
    refine ActOnly.bind (fun w9 y9 => ?_)
    extract_lets +onlyGivenNames x10
    (clear_value x2; split)
    · refine (show Only e a _ from ?_)
      refine Only.progUpd p_pke ?_ _ (fun w => all_upd w (spWf_putProg (spWf_nth w _) _ _))
      assumption
    · refine (show Only e a _ from ?_)
      refine Only.pkeUpd p_pke ?_ _ rfl
      assumption
    · extract_lets +onlyGivenNames x11
      have h11 : Only e a x11.1 := by
        unfold x11
        refine emInsertAll_only p_regs p_evt p_ldg p_pke ?_
        assumption
      try clear_value x11
      split
      · refine (show Only e a _ from ?_)
        assumption
      · extract_lets +onlyGivenNames x12
        refine (show Only e a _ from ?_)
        refine failId_only p_regs p_out p_hif p_sys ?_
        assumption
    · extract_lets +onlyGivenNames x13
      have h13 : Only e a x13.1 := by
        unfold x13
        refine emDeleteAll_only p_regs p_evt p_ldg p_pke ?_
        assumption
      try clear_value x13
      refine (show Only e a _ from ?_)
      assumption

theorem emReturn_only (p_regs : e .regs) (p_out : e .out) (p_hif : e .hif) (p_evt : e .evt) (p_ldg : e .ldg) (p_pke : e
    .pke) (p_sec : e .sec) {x1i x2i x3i} (h : Only e a d) : Only e a (emReturn d x1i x2i x3i) := by
  unfold emReturn
  split
  · assumption
  · split
    · assumption
    · extract_lets +onlyGivenNames x1
      extract_lets +onlyGivenNames x2
      have h2 : Only e a x2 := by
        unfold x2
        refine Only.pkeUpd p_pke ?_ _ rfl
        assumption
      try clear_value x2
      split
      · refine lookupDone_only p_regs p_evt p_ldg p_pke p_sec ?_
        refine raise_only p_regs p_out p_hif ?_
        assumption
      · refine lookupDone_only p_regs p_evt p_ldg p_pke p_sec ?_
        assumption

theorem parseStep_only (p_regs : e .regs) (p_freeCtr : e .freeCtr) (p_evt : e .evt) (p_ldg : e .ldg) (p_pke : e .pke) (p_sec
    : e .sec) {x1i x2i x3i} (h : Only e a d) : Only e a (parseStep d x1i x2i x3i) := by
  unfold parseStep
  split
  · assumption
  · extract_lets +onlyGivenNames x1
    split
    · assumption
    · split
      · refine endLap_only p_regs p_evt p_ldg p_pke p_sec ?_
        assumption
      · split
        · assumption
        · split
          · refine putThread_only p_pke ?_
            assumption
          · extract_lets +onlyGivenNames x2
            have h2 : Only e a x2.2 := by
              unfold x2
              refine drawFree_only p_freeCtr ?_
              assumption
            try clear_value x2
            refine putThread_only p_pke ?_
            assumption
          · refine endLap_only p_regs p_evt p_ldg p_pke p_sec ?_
            assumption

theorem swapTimedOut_only (p_regs : e .regs) (p_out : e .out) (p_tim : e .tim) (p_hif : e .hif) (p_pke : e .pke) (p_sys : e
    .sys) (h : Only e a d) : Only e a (swapTimedOut d) := by
  unfold swapTimedOut
  split
  · exact h
  · extract_lets +onlyGivenNames x1 x2
    split
    · exact h
    · extract_lets +onlyGivenNames x3
      have h3 : Only e a x3 := advance_only p_tim h
      clear_value x3
      extract_lets +onlyGivenNames x4 x5 x6
      have h6 : Only e a x6 := Only.pkeUpd p_pke (putB_only p_regs h3) _ rfl
      clear_value x6
      exact complete_only p_regs p_out p_hif p_sys (raise_only p_regs p_out p_hif h6)

theorem dispatch_only (p_regs : e .regs) (p_evt : e .evt) (p_ldg : e .ldg) (p_pke : e .pke) (p_sec : e .sec) {x1i} (h : Only
    e a d) : Only e a (dispatch d x1i) := by
  unfold dispatch
  split
  · assumption
  · split
    · refine startLap_only p_pke ?_
      refine cnt_only p_regs ?_
      refine Only.pkeUpd p_pke ?_ _ rfl
      assumption
    · split
      · assumption
      · split
        · assumption
        · extract_lets +onlyGivenNames x1
          extract_lets +onlyGivenNames x2
          extract_lets +onlyGivenNames x3
          have h3 : Only e a x3 := by
            unfold x3
            refine startLap_only p_pke ?_
            refine Only.pkeUpd p_pke ?_ _ rfl
            assumption
          try clear_value x3
          split
          · split
            · refine endLap_only p_regs p_evt p_ldg p_pke p_sec ?_
              assumption
            · assumption
          · assumption

theorem swapDrained_only (p_regs : e .regs) (p_out : e .out) (p_tim : e .tim) (p_hif : e .hif) (p_pke : e .pke) (p_sys : e
    .sys) {x1i} (h : Only e a d) : Only e a (swapDrained d x1i) := by
  unfold swapDrained
  split
  · assumption
  · split
    · refine complete_only p_regs p_out p_hif p_sys ?_
      refine goEpoch_only p_regs p_out p_hif p_pke ?_
      refine advance_only p_tim ?_
      assumption
    · assumption

/-! ### Srtp -/

theorem putCrypto_only (p_sec : e .sec) {x1i} (h : Only e a d) : Only e a (putCrypto d x1i) := by
  unfold putCrypto
  refine Only.secUpd p_sec ?_ _
  assumption

theorem putKey_only (p_sec : e .sec) {x1i} (h : Only e a d) : Only e a (putKey d x1i) := by
  unfold putKey
  refine Only.secUpd p_sec ?_ _
  assumption

theorem addRate_only (p_fwd : e .fwd) {x1i x2i x3i x4i} (h : Only e a d) : Only e a (addRate d x1i x2i x3i x4i) := by
  unfold addRate
  extract_lets +onlyGivenNames x1
  refine modLeg_only p_fwd ?_
  assumption

theorem engineOut_only (p_freeCtr : e .freeCtr) {x1i} (h : Only e a d) : Only e a (engineOut d x1i).1 := by
  unfold engineOut
  split
  · extract_lets +onlyGivenNames x1
    have h1 : Only e a x1.2 := by
      unfold x1
      refine drawFree_only p_freeCtr ?_
      assumption
    try clear_value x1
    dsimp only
    assumption
  · dsimp only
    assumption

theorem noteInbound_only (p_fwd : e .fwd) {x1i x2i x3i x4i} (h : Only e a d) : Only e a (noteInbound d x1i x2i x3i x4i) := by
  unfold noteInbound
  extract_lets +onlyGivenNames x1
  have h1 : Only e a x1 := by
    unfold x1
    refine modLeg_only p_fwd ?_
    assumption
  try clear_value x1
  split
  · refine addRate_only p_fwd ?_
    assumption
  · assumption

theorem secSelftest_only (p_regs : e .regs) {x1i} (h : Only e a d) : Only e a (secSelftest d x1i) := by
  unfold secSelftest
  extract_lets +onlyGivenNames x1
  split
  · assumption
  · split
    · refine putB_only p_regs ?_
      assumption
    · split
      · assumption
      · refine putB_only p_regs ?_
        refine putB_only p_regs ?_
        refine putB_only p_regs ?_
        assumption

theorem raiseOnceAny_only (p_evt : e .evt) {x1i} (h : Only e a d) : Only e a (raiseOnceAny d x1i) := by
  unfold raiseOnceAny
  split
  · refine raiseOnce_only p_evt ?_
    assumption
  · refine raiseOnce_only p_evt ?_
    assumption

theorem secDrop_only (p_regs : e .regs) (p_evt : e .evt) {x1i x2i x3i x4i} (h : Only e a d) : Only e a (secDrop d x1i x2i
    x3i x4i) := by
  unfold secDrop
  extract_lets +onlyGivenNames x1
  have h1 : Only e a x1 := by
    unfold x1
    refine cnt_only p_regs ?_
    assumption
  try clear_value x1
  split
  · refine raiseOnceAny_only p_evt ?_
    assumption
  · refine raiseOnceAny_only p_evt ?_
    assumption

theorem selftestDone_only (p_regs : e .regs) {x1i x2i} (h : Only e a d) : Only e a (selftestDone d x1i x2i) := by
  unfold selftestDone
  extract_lets +onlyGivenNames x1
  split
  · assumption
  · extract_lets +onlyGivenNames x2
    have h2 : Only e a x2 := by
      unfold x2
      refine setReg_only p_regs ?_
      refine setReg_only p_regs ?_
      assumption
    try clear_value x2
    refine putB_only p_regs ?_
    refine putB_only p_regs ?_
    refine putB_only p_regs ?_
    assumption

theorem freeErased_only (p_regs : e .regs) (p_evt : e .evt) (p_ldg : e .ldg) (p_obj : e .obj) (p_sec : e .sec) (h : Only e a
    d) : Only e a (freeErased d) := by
  unfold freeErased
  extract_lets +onlyGivenNames x1
  refine ledgLand_only p_regs p_evt p_ldg ?_
  refine Only.upd (b := d) ?_ rfl (.inr rfl) rfl (.inr rfl) (.inr rfl) (.inl p_obj) (.inr rfl) (.inr rfl) (.inr rfl)
      (.inl p_sec) (.inr rfl) (.inr rfl) (.inr rfl) (.inr rfl) (.inr rfl) rfl rfl rfl (.inl rfl) (.inl rfl) (.inl rfl)
      (.inl rfl) (.inl rfl)
  assumption

theorem retireKey_only (p_regs : e .regs) (p_evt : e .evt) (p_ldg : e .ldg) (p_obj : e .obj) (p_sec : e .sec) {x1i} (h :
    Only e a d) : Only e a (retireKey d x1i) := by
  unfold retireKey
  split
  · assumption
  · split
    · assumption
    · extract_lets +onlyGivenNames x1
      have h1 : Only e a x1 := by
        unfold x1
        refine ledgRelease_only p_regs p_evt p_ldg ?_
        refine putKey_only p_sec ?_
        assumption
      try clear_value x1
      split
      · refine unbook_only p_regs p_evt p_ldg ?_
        refine putObj_only p_obj ?_
        assumption
      · assumption

theorem keyRetireAct_only (p_regs : e .regs) (p_evt : e .evt) (p_ldg : e .ldg) (p_obj : e .obj) (p_sec : e .sec) {x1i} (h :
    Only e a d) : ActOnly e a (keyRetireAct d x1i) := by
  unfold keyRetireAct
  refine ActOnly.bind (fun w1 y1 => ?_)
  refine ActOnly.bind (fun w2 y2 => ?_)
  refine ActOnly.bind (fun w3 y3 => ?_)
  refine (show Only e a _ from ?_)
  refine retireKey_only p_regs p_evt p_ldg p_obj p_sec ?_
  assumption

theorem dropIn_only (p_regs : e .regs) (p_evt : e .evt) (p_ldg : e .ldg) (p_pke : e .pke) {x1i x2i x3i x4i x5i} (h : Only e
    a d) : Only e a (dropIn d x1i x2i x3i x4i x5i) := by
  unfold dropIn
  refine freePkt_only p_regs p_evt p_ldg p_pke ?_
  refine secDrop_only p_regs p_evt ?_
  assumption

theorem deliverRtcp_only (p_regs : e .regs) (p_evt : e .evt) (p_ldg : e .ldg) (p_pke : e .pke) (p_fwd : e .fwd) {x1i x2i
    x3i} (h : Only e a d) : Only e a (deliverRtcp d x1i x2i x3i) := by
  unfold deliverRtcp
  extract_lets +onlyGivenNames x1
  split
  · refine freePkt_only p_regs p_evt p_ldg p_pke ?_
    assumption
  · refine Only.fwdUpd p_fwd ?_ _
    assumption

theorem activateKey_only (p_regs : e .regs) (p_out : e .out) (p_hif : e .hif) (p_sec : e .sec) {x1i x2i x3i} (h : Only e a
    d) : Only e a (activateKey d x1i x2i x3i) := by
  unfold activateKey
  extract_lets +onlyGivenNames x1
  extract_lets +onlyGivenNames x2
  have h2 : Only e a x2 := by
    unfold x2
    refine putKey_only p_sec ?_
    assumption
  try clear_value x2
  refine raise_only p_regs p_out p_hif ?_
  assumption

theorem useKey_only (p_regs : e .regs) (p_out : e .out) (p_hif : e .hif) (p_sec : e .sec) {x1i x2i x3i} (h : Only e a d) :
    Only e a (useKey d x1i x2i x3i) := by
  unfold useKey
  split
  · assumption
  · extract_lets +onlyGivenNames x1
    extract_lets +onlyGivenNames x2
    extract_lets +onlyGivenNames x3
    split
    · refine raise_only p_regs p_out p_hif ?_
      refine putKey_only p_sec ?_
      assumption
    · refine putKey_only p_sec ?_
      assumption

theorem authSwitch_only (p_regs : e .regs) (p_out : e .out) (p_hif : e .hif) (p_evt : e .evt) (p_ldg : e .ldg) (p_obj : e
    .obj) (p_sec : e .sec) {x1i x2i x3i} (h : Only e a d) : Only e a (authSwitch d x1i x2i x3i) := by
  unfold authSwitch
  extract_lets +onlyGivenNames x1
  have h1 : Only e a x1 := by
    unfold x1
    split
    · split
      · refine activateKey_only p_regs p_out p_hif p_sec ?_
        refine putKey_only p_sec ?_
        assumption
      · refine activateKey_only p_regs p_out p_hif p_sec ?_
        assumption
    · assumption
  try clear_value x1
  split
  · split
    · refine retireKey_only p_regs p_evt p_ldg p_obj p_sec ?_
      assumption
    · assumption
  · assumption

theorem keyLoadAct_only (p_regs : e .regs) (p_out : e .out) (p_hif : e .hif) (p_evt : e .evt) (p_ldg : e .ldg) (p_obj : e
    .obj) (p_sec : e .sec) {x0i x2i} (h : Only e a d) : ActOnly e a (keyLoadAct x0i d x2i) := by
  unfold keyLoadAct
  extract_lets +onlyGivenNames x1
  refine ActOnly.bind (fun w2 y2 => ?_)
  refine ActOnly.bind (fun w3 y3 => ?_)
  refine ActOnly.bind (fun w4 y4 => ?_)
  extract_lets +onlyGivenNames x5
  extract_lets +onlyGivenNames x6
  extract_lets +onlyGivenNames x7
  extract_lets +onlyGivenNames x8
  refine ActOnly.bind (fun w9 y9 => ?_)
  refine ActOnly.bind (fun w10 y10 => ?_)
  extract_lets +onlyGivenNames x11
  split
  · exact trivial
  · exact trivial
  · split
    · exact trivial
    · split
      · exact trivial
      · extract_lets +onlyGivenNames x12
        extract_lets +onlyGivenNames x13
        have h13 : Only e a x13 := by
          unfold x13
          refine ledgTake_only p_regs p_evt p_ldg ?_
          refine book_only p_regs p_evt p_ldg ?_
          assumption
        try clear_value x13
        extract_lets +onlyGivenNames x14
        have h14 : Only e a x14 := by
          unfold x14
          refine addObj_only p_obj ?_
          assumption
        try clear_value x14
        extract_lets +onlyGivenNames x15
        extract_lets +onlyGivenNames x16
        have h16 : Only e a x16 := by
          unfold x16
          refine Only.secUpd p_sec ?_ _
          assumption
        try clear_value x16
        extract_lets +onlyGivenNames x17
        extract_lets +onlyGivenNames x18
        have h18 : Only e a x18 := by
          unfold x18
          split
          · assumption
          · refine putCrypto_only p_sec ?_
            assumption
        try clear_value x18
        extract_lets +onlyGivenNames x19
        extract_lets +onlyGivenNames x20
        have h20 : Only e a x20 := by
          unfold x20
          split
          · assumption
          · refine activateKey_only p_regs p_out p_hif p_sec ?_
            split
            · assumption
            · refine retireKey_only p_regs p_evt p_ldg p_obj p_sec ?_
              assumption
        try clear_value x20
        refine (show Only e a _ from ?_)
        assumption

theorem acceptRtcp_only (p_regs : e .regs) (p_evt : e .evt) (p_ldg : e .ldg) (p_pke : e .pke) (p_sec : e .sec) (p_fwd : e
    .fwd) {x1i x2i x3i x4i} (h : Only e a d) : Only e a (acceptRtcp d x1i x2i x3i x4i) := by
  unfold acceptRtcp
  extract_lets +onlyGivenNames x1
  extract_lets +onlyGivenNames x2
  refine deliverRtcp_only p_regs p_evt p_ldg p_pke p_fwd ?_
  refine cnt_only p_regs ?_
  refine putCrypto_only p_sec ?_
  assumption

theorem outSlot_only (p_regs : e .regs) (p_out : e .out) (p_hif : e .hif) (p_evt : e .evt) (p_ldg : e .ldg) (p_obj : e .obj)
    (p_sec : e .sec) {x1i x2i} (h : Only e a d) : Only e a (outSlot d x1i x2i) := by
  unfold outSlot
  split
  · assumption
  · split
    · assumption
    · extract_lets +onlyGivenNames x1
      refine activateKey_only p_regs p_out p_hif p_sec ?_
      split
      · assumption
      · refine retireKey_only p_regs p_evt p_ldg p_obj p_sec ?_
        assumption

theorem protectRtcp_only (p_regs : e .regs) (p_freeCtr : e .freeCtr) (p_out : e .out) (p_hif : e .hif) (p_evt : e .evt)
    (p_sec : e .sec) {x1i x2i} (h : Only e a d) : Only e a (protectRtcp d x1i x2i).1 := by
  unfold protectRtcp
  split
  · dsimp only
    refine secDrop_only p_regs p_evt ?_
    assumption
  · extract_lets +onlyGivenNames x1
    extract_lets +onlyGivenNames x2
    split
    · dsimp only
      refine secDrop_only p_regs p_evt ?_
      assumption
    · split
      · dsimp only
        refine secDrop_only p_regs p_evt ?_
        assumption
      · split
        · dsimp only
          refine secDrop_only p_regs p_evt ?_
          assumption
        · split
          · dsimp only
            refine secDrop_only p_regs p_evt ?_
            assumption
          · extract_lets +onlyGivenNames x3
            have h3 : Only e a x3 := by
              unfold x3
              refine putCrypto_only p_sec ?_
              refine useKey_only p_regs p_out p_hif p_sec ?_
              assumption
            try clear_value x3
            extract_lets +onlyGivenNames x4
            extract_lets +onlyGivenNames x5
            extract_lets +onlyGivenNames x6
            extract_lets +onlyGivenNames x7
            extract_lets +onlyGivenNames x8
            have h8 : Only e a x8.1 := by
              unfold x8
              refine engineOut_only p_freeCtr ?_
              assumption
            try clear_value x8
            dsimp only
            refine cnt_only p_regs ?_
            assumption

theorem checkRtcp_only (p_regs : e .regs) (p_out : e .out) (p_hif : e .hif) (p_sec : e .sec) {x1i x2i x3i} (h : Only e a d)
    : Only e a (checkRtcp d x1i x2i x3i).1 := by
  unfold checkRtcp
  extract_lets +onlyGivenNames x1
  extract_lets +onlyGivenNames x2
  split
  · dsimp only
    assumption
  · split
    · dsimp only
      assumption
    · split
      · dsimp only
        assumption
      · split
        · dsimp only
          refine useKey_only p_regs p_out p_hif p_sec ?_
          assumption
        · dsimp only
          refine useKey_only p_regs p_out p_hif p_sec ?_
          assumption

theorem protectRtp_only (p_regs : e .regs) (p_freeCtr : e .freeCtr) (p_out : e .out) (p_hif : e .hif) (p_evt : e .evt)
    (p_ldg : e .ldg) (p_obj : e .obj) (p_sec : e .sec) {x1i x2i x3i x4i} (h : Only e a d) : Only e a (protectRtp d x1i x2i
    x3i x4i).1 := by
  unfold protectRtp
  extract_lets +onlyGivenNames x1
  extract_lets +onlyGivenNames x2
  extract_lets +onlyGivenNames x3
  extract_lets +onlyGivenNames x4
  extract_lets +onlyGivenNames x5
  have h5 : Only e a x5 := by
    unfold x5
    split
    · refine outSlot_only p_regs p_out p_hif p_evt p_ldg p_obj p_sec ?_
      assumption
    · assumption
  try clear_value x5
  split
  · dsimp only
    refine secDrop_only p_regs p_evt ?_
    assumption
  · extract_lets +onlyGivenNames x6
    split
    · dsimp only
      refine secDrop_only p_regs p_evt ?_
      assumption
    · split
      · dsimp only
        refine secDrop_only p_regs p_evt ?_
        assumption
      · split
        · dsimp only
          refine secDrop_only p_regs p_evt ?_
          assumption
        · extract_lets +onlyGivenNames x7
          have h7 : Only e a x7 := by
            unfold x7
            refine useKey_only p_regs p_out p_hif p_sec ?_
            assumption
          try clear_value x7
          extract_lets +onlyGivenNames x8
          have h8 : Only e a x8 := by
            unfold x8
            split
            · refine putCrypto_only p_sec ?_
              assumption
            · assumption
          try clear_value x8
          extract_lets +onlyGivenNames x9
          extract_lets +onlyGivenNames x10
          have h10 : Only e a x10.1 := by
            unfold x10
            refine engineOut_only p_freeCtr ?_
            assumption
          try clear_value x10
          dsimp only
          refine cnt_only p_regs ?_
          assumption

theorem inboundRtcp_only (p_regs : e .regs) (p_out : e .out) (p_hif : e .hif) (p_evt : e .evt) (p_ldg : e .ldg) (p_pke : e
    .pke) (p_sec : e .sec) (p_fwd : e .fwd) {x1i x2i x3i} (h : Only e a d) : Only e a (inboundRtcp d x1i x2i x3i) := by
  have hc {b c : Dev} {s r} (hb : Only e a b) (q : checkRtcp b x1i s x3i = (c, r)) : Only e a c := by
    have w := checkRtcp_only p_regs p_out p_hif p_sec (x1i := x1i) (x2i := s) (x3i := x3i) hb
    rw [q] at w
    exact w
  unfold inboundRtcp
  split
  · exact dropIn_only p_regs p_evt p_ldg p_pke h
  · split
    · exact dropIn_only p_regs p_evt p_ldg p_pke h
    · split
      · exact dropIn_only p_regs p_evt p_ldg p_pke h
      · split
        · exact acceptRtcp_only p_regs p_evt p_ldg p_pke p_sec p_fwd (hc h ‹_›)
        · have h1 := hc h ‹_›
          split
          · exact dropIn_only p_regs p_evt p_ldg p_pke h1
          · split
            · exact acceptRtcp_only p_regs p_evt p_ldg p_pke p_sec p_fwd (hc h1 ‹_›)
            · exact dropIn_only p_regs p_evt p_ldg p_pke (hc h1 ‹_›)
        · exact dropIn_only p_regs p_evt p_ldg p_pke (hc h ‹_›)

theorem deliverMedia_only (p_regs : e .regs) (p_out : e .out) (p_hif : e .hif) (p_evt : e .evt) (p_ldg : e .ldg) (p_dlr : e
    .dlr) (p_cores : e .cores) (p_pke : e .pke) (p_dma : e .dma) (p_fwd : e .fwd) (p_aud : e .aud) (p_vid : e .vid) (p_sys :
    e .sys) {x1i x2i x3i x4i} (h : Only e a d) : Only e a (deliverMedia d x1i x2i x3i x4i) := by
  unfold deliverMedia
  extract_lets +onlyGivenNames x1
  extract_lets +onlyGivenNames x2
  extract_lets +onlyGivenNames x3
  extract_lets +onlyGivenNames x4
  extract_lets +onlyGivenNames x5
  extract_lets +onlyGivenNames x6
  extract_lets +onlyGivenNames x7
  extract_lets +onlyGivenNames x8
  extract_lets +onlyGivenNames x9
  extract_lets +onlyGivenNames x10
  extract_lets +onlyGivenNames x11
  have h11 : Only e a x11 := by
    unfold x11
    refine noteInbound_only p_fwd ?_
    assumption
  try clear_value x11
  extract_lets +onlyGivenNames x12
  have h12 : Only e a x12 := by
    unfold x12
    refine Only.foldl ?_ (fun d13 y13 h13 => ?_)
    · assumption
    · refine modCtx_only p_vid ?_
      assumption
  try clear_value x12
  split
  · refine freePkt_only p_regs p_evt p_ldg p_pke ?_
    split
    · refine cnt_only p_regs ?_
      assumption
    · assumption
  · extract_lets +onlyGivenNames x14
    extract_lets +onlyGivenNames x15
    extract_lets +onlyGivenNames x16
    have h16 : Only e a x16 := by
      unfold x16
      refine Only.fwdUpd p_fwd ?_ _
      assumption
    try clear_value x16
    extract_lets +onlyGivenNames x17
    extract_lets +onlyGivenNames x18
    have h18 : Only e a x18 := by
      unfold x18
      split
      · refine Only.fwdUpd p_fwd ?_ _
        assumption
      · assumption
    try clear_value x18
    extract_lets +onlyGivenNames x19
    extract_lets +onlyGivenNames x20
    have h20 : Only e a x20 := by
      unfold x20
      split
      · refine Only.audUpd p_aud ?_ _
        assumption
      · assumption
    try clear_value x20
    (clear_value x4; clear_value x6; split)
    · refine fwCard_only p_regs p_out p_hif p_evt p_ldg p_dlr p_cores p_pke p_dma p_fwd p_aud p_vid p_sys ?_
      assumption
    · assumption

theorem inboundRtp_only (p_regs : e .regs) (p_out : e .out) (p_hif : e .hif) (p_evt : e .evt) (p_ldg : e .ldg) (p_obj : e
    .obj) (p_dlr : e .dlr) (p_cores : e .cores) (p_pke : e .pke) (p_sec : e .sec) (p_dma : e .dma) (p_fwd : e .fwd) (p_aud :
    e .aud) (p_vid : e .vid) (p_sys : e .sys) {x1i x2i x3i x4i} (h : Only e a d) : Only e a (inboundRtp d x1i x2i x3i x4i)
    := by
  unfold inboundRtp
  split
  · refine dropIn_only p_regs p_evt p_ldg p_pke ?_
    assumption
  · extract_lets +onlyGivenNames x1
    extract_lets +onlyGivenNames x2
    split
    · refine dropIn_only p_regs p_evt p_ldg p_pke ?_
      assumption
    · extract_lets +onlyGivenNames x3
      split
      · refine dropIn_only p_regs p_evt p_ldg p_pke ?_
        assumption
      · split
        · refine dropIn_only p_regs p_evt p_ldg p_pke ?_
          assumption
        · split
          · refine dropIn_only p_regs p_evt p_ldg p_pke ?_
            assumption
          · split
            · refine dropIn_only p_regs p_evt p_ldg p_pke ?_
              assumption
            · extract_lets +onlyGivenNames x4
              extract_lets +onlyGivenNames x5
              extract_lets +onlyGivenNames x6
              extract_lets +onlyGivenNames x7
              have h7 : Only e a x7 := by
                unfold x7
                refine useKey_only p_regs p_out p_hif p_sec ?_
                assumption
              try clear_value x7
              split
              · refine dropIn_only p_regs p_evt p_ldg p_pke ?_
                assumption
              · extract_lets +onlyGivenNames x8
                extract_lets +onlyGivenNames x9
                have h9 : Only e a x9 := by
                  unfold x9
                  refine putCrypto_only p_sec ?_
                  assumption
                try clear_value x9
                extract_lets +onlyGivenNames x10
                have h10 : Only e a x10 := by
                  unfold x10
                  refine authSwitch_only p_regs p_out p_hif p_evt p_ldg p_obj p_sec ?_
                  refine cnt_only p_regs ?_
                  assumption
                try clear_value x10
                refine deliverMedia_only p_regs p_out p_hif p_evt p_ldg p_dlr p_cores p_pke p_dma p_fwd p_aud p_vid p_sys ?_
                assumption

theorem srtpInbound_only (p_regs : e .regs) (p_out : e .out) (p_hif : e .hif) (p_evt : e .evt) (p_ldg : e .ldg) (p_obj : e
    .obj) (p_dlr : e .dlr) (p_cores : e .cores) (p_pke : e .pke) (p_sec : e .sec) (p_dma : e .dma) (p_fwd : e .fwd) (p_aud :
    e .aud) (p_vid : e .vid) (p_sys : e .sys) {x1i x2i} (h : Only e a d) : Only e a (srtpInbound d x1i x2i) := by
  unfold srtpInbound
  split
  · assumption
  · split
    · assumption
    · extract_lets +onlyGivenNames x1
      extract_lets +onlyGivenNames x2
      have h2 : Only e a x2 := by
        unfold x2
        refine Only.secUpd p_sec ?_ _
        assumption
      try clear_value x2
      split
      · refine dropIn_only p_regs p_evt p_ldg p_pke ?_
        assumption
      · extract_lets +onlyGivenNames x3
        split
        · refine dropIn_only p_regs p_evt p_ldg p_pke ?_
          assumption
        · split
          · refine inboundRtcp_only p_regs p_out p_hif p_evt p_ldg p_pke p_sec p_fwd ?_
            assumption
          · split
            · refine dropIn_only p_regs p_evt p_ldg p_pke ?_
              assumption
            · refine inboundRtp_only p_regs p_out p_hif p_evt p_ldg p_obj p_dlr p_cores p_pke p_sec p_dma p_fwd p_aud p_vid
                p_sys ?_
              assumption

end Sys2Proof.Machine
end

