-- ==== Sys2Proof/Laws/Frame5.lean ====
section
/-! SUPPORT. What each operation of Legs, Pack may write. -/
namespace Sys2Proof.Machine
variable {e : Piece → Prop} {a d : Dev}

/-! ### Legs -/

theorem withCredit_only {d2} (h2 : Only e a d2) (h : Only e a d) : Only e a (withCredit d d2) := by
  unfold withCredit
  split
  · exact h2
  · exact h

theorem sendRtcp_only (p_sec : e .sec) {x1i x2i} (h : Only e a d) : Only e a (sendRtcp d x1i x2i) := by
  unfold sendRtcp
  refine Only.secUpd p_sec ?_ _
  assumption

theorem senderReport_only (p_freeCtr : e .freeCtr) (p_sec : e .sec) {x1i} (h : Only e a d) : Only e a (senderReport d x1i) :=
    by
  unfold senderReport
  split
  · assumption
  · split
    · assumption
    · extract_lets +onlyGivenNames x1
      have h1 : Only e a x1.2 := by
        unfold x1
        refine drawFree_only p_freeCtr ?_
        assumption
      try clear_value x1
      extract_lets +onlyGivenNames x2
      refine sendRtcp_only p_sec ?_
      assumption

theorem logWrite_only (p_hbm : e .hbm) (p_mem : e .mem) {x1i x2i} (h : Only e a d) : Only e a (logWrite d x1i x2i) := by
  unfold logWrite
  extract_lets +onlyGivenNames x1
  extract_lets +onlyGivenNames x2
  refine hbmPut_only p_hbm p_mem ?_
  refine hbmPut_only p_hbm p_mem ?_
  assumption

theorem setChoice_only (p_regs : e .regs) (p_evt : e .evt) {x1i x2i} (h : Only e a d) : Only e a (setChoice d x1i x2i).1 :=
    by
  unfold setChoice
  split
  · dsimp only
    assumption
  · dsimp only
    refine raiseOnce_only p_evt ?_
    refine cnt_only p_regs ?_
    assumption

theorem legSetAct_only (p_fwd : e .fwd) {x1i} (h : Only e a d) : ActOnly e a (legSetAct d x1i) := by
  unfold legSetAct
  extract_lets +onlyGivenNames x1
  refine ActOnly.bind (fun w2 y2 => ?_)
  refine ActOnly.bind (fun w3 y3 => ?_)
  extract_lets +onlyGivenNames x4
  extract_lets +onlyGivenNames x5
  extract_lets +onlyGivenNames x6
  refine ActOnly.bind (fun w7 y7 => ?_)
  extract_lets +onlyGivenNames x8
  extract_lets +onlyGivenNames x9
  extract_lets +onlyGivenNames x10
  extract_lets +onlyGivenNames x11
  extract_lets +onlyGivenNames x12
  extract_lets +onlyGivenNames x13
  extract_lets +onlyGivenNames x14
  extract_lets +onlyGivenNames x15
  extract_lets +onlyGivenNames x16
  refine (show Only e a _ from ?_)
  refine putLeg_only p_fwd ?_
  assumption

theorem rtxMiss_only (p_regs : e .regs) (p_evt : e .evt) {x1i x2i} (h : Only e a d) : Only e a (rtxMiss d x1i x2i) := by
  unfold rtxMiss
  refine raiseOnce_only p_evt ?_
  refine cnt_only p_regs ?_
  assumption

theorem lateSwitch_only (p_regs : e .regs) (p_evt : e .evt) {x1i x2i} (h : Only e a d) : Only e a (lateSwitch d x1i x2i).1 := by
  unfold lateSwitch
  extract_lets +onlyGivenNames x1
  split
  · dsimp only
    assumption
  · split
    · split
      · refine setChoice_only p_regs p_evt ?_
        assumption
      · dsimp only
        assumption
    · split
      · refine setChoice_only p_regs p_evt ?_
        assumption
      · dsimp only
        assumption

theorem rtxStore_only (p_regs : e .regs) (p_evt : e .evt) (p_ldg : e .ldg) (p_hbm : e .hbm) (p_mem : e .mem) (p_fwd : e
    .fwd) {x1i x2i x3i} (h : Only e a d) : Only e a (rtxStore d x1i x2i x3i) := by
  unfold rtxStore
  extract_lets +onlyGivenNames x1
  extract_lets +onlyGivenNames x2
  extract_lets +onlyGivenNames x3
  extract_lets +onlyGivenNames x4
  extract_lets +onlyGivenNames x5
  have h5 : Only e a x5 := by
    unfold x5
    refine logWrite_only p_hbm p_mem ?_
    assumption
  try clear_value x5
  extract_lets +onlyGivenNames x6
  extract_lets +onlyGivenNames x7
  extract_lets +onlyGivenNames x8
  have h8 : Only e a x8 := by
    unfold x8
    refine Only.fwdUpd p_fwd ?_ _
    assumption
  try clear_value x8
  split
  · refine cnt_only p_regs ?_
    assumption
  · refine ledgTake_only p_regs p_evt p_ldg ?_
    assumption

theorem legCreateAct_only (p_regs : e .regs) (p_evt : e .evt) (p_ldg : e .ldg) (p_obj : e .obj) (p_pke : e .pke) (p_fwd : e
    .fwd) {x0i x2i} (h : Only e a d) : ActOnly e a (legCreateAct x0i d x2i) := by
  unfold legCreateAct
  extract_lets +onlyGivenNames x1
  refine ActOnly.bind (fun w2 y2 => ?_)
  refine ActOnly.bind (fun w3 y3 => ?_)
  refine ActOnly.bind (fun w4 y4 => ?_)
  extract_lets +onlyGivenNames x5
  extract_lets +onlyGivenNames x6
  extract_lets +onlyGivenNames x7
  extract_lets +onlyGivenNames x8
  extract_lets +onlyGivenNames x9
  extract_lets +onlyGivenNames x10
  extract_lets +onlyGivenNames x11
  extract_lets +onlyGivenNames x12
  extract_lets +onlyGivenNames x13
  extract_lets +onlyGivenNames x14
  refine ActOnly.bind (fun w15 y15 => ?_)
  refine ActOnly.bind (fun w16 y16 => ?_)
  refine ActOnly.bind (fun w17 y17 => ?_)
  split
  · exact trivial
  · extract_lets +onlyGivenNames x18
    refine ActOnly.bind (fun w19 y19 => ?_)
    extract_lets +onlyGivenNames x20
    extract_lets +onlyGivenNames x21
    refine ActOnly.bind (fun w22 y22 => ?_)
    extract_lets +onlyGivenNames x23
    split
    · exact trivial
    · exact trivial
    · extract_lets +onlyGivenNames x24
      refine ActOnly.bindDev ?_ (fun w25 y25 => ?_)
      · split
        · refine (show Only e a _ from ?_)
          assumption
        · split
          · exact trivial
          · split
            · refine (show Only e a _ from ?_)
              apply emInsert_some p_regs p_evt p_ldg p_pke <;> assumption
            · split
              · exact trivial
              · refine (show Only e a _ from ?_)
                apply emInsert_some p_regs p_evt p_ldg p_pke <;> first | assumption | (apply emInsert_some p_regs p_evt p_ldg p_pke <;> assumption)
      · extract_lets +onlyGivenNames x26
        extract_lets +onlyGivenNames x27
        extract_lets +onlyGivenNames x28
        have h28 : Only e a x28 := by
          unfold x28
          refine book_only p_regs p_evt p_ldg ?_
          assumption
        try clear_value x28
        extract_lets +onlyGivenNames x29
        have h29 : Only e a x29 := by
          unfold x29
          refine addObj_only p_obj ?_
          assumption
        try clear_value x29
        refine (show Only e a _ from ?_)
        refine Only.fwdUpd p_fwd ?_ _
        assumption

theorem rtxSweep_only (p_regs : e .regs) (p_evt : e .evt) (p_ldg : e .ldg) (p_fwd : e .fwd) (h : Only e a d) : Only e a
    (rtxSweep d) := by
  unfold rtxSweep
  extract_lets +onlyGivenNames x1
  extract_lets +onlyGivenNames x2
  refine ledgGive_only p_regs p_evt p_ldg ?_
  refine Only.fwdUpd p_fwd ?_ _
  assumption

theorem fwdBoundary_only (p_regs : e .regs) (p_evt : e .evt) (p_ldg : e .ldg) (p_fwd : e .fwd) (h : Only e a d) : Only e a
    (fwdBoundary d) := by
  unfold fwdBoundary
  extract_lets +onlyGivenNames x1
  extract_lets +onlyGivenNames x2
  have h2 : Only e a x2 := by
    unfold x2
    refine Only.fwdUpd p_fwd ?_ _
    assumption
  try clear_value x2
  refine rtxSweep_only p_regs p_evt p_ldg p_fwd ?_
  assumption

theorem dropSource_only (p_regs : e .regs) (p_evt : e .evt) (p_ldg : e .ldg) (p_pke : e .pke) (p_fwd : e .fwd) {x1i} (h :
    Only e a d) : Only e a (dropSource d x1i) := by
  unfold dropSource
  split
  · refine releaseMPkt_only p_regs p_evt p_ldg p_pke p_fwd ?_
    assumption
  · refine freeCells_only p_regs p_evt p_ldg p_pke ?_
    assumption

theorem sendRefresh_only (p_regs : e .regs) (p_out : e .out) (p_hif : e .hif) (p_sec : e .sec) (p_fwd : e .fwd) {x1i x2i
    x3i} (h : Only e a d) : Only e a (sendRefresh d x1i x2i x3i) := by
  unfold sendRefresh
  split
  · assumption
  · extract_lets +onlyGivenNames x1
    have h1 : Only e a x1 := by
      unfold x1
      refine sendRtcp_only p_sec ?_
      assumption
    try clear_value x1
    extract_lets +onlyGivenNames x2
    have h2 : Only e a x2 := by
      unfold x2
      refine modLeg_only p_fwd ?_
      assumption
    try clear_value x2
    refine raise_only p_regs p_out p_hif ?_
    assumption

theorem popRtcp_only (p_regs : e .regs) (p_evt : e .evt) (p_ldg : e .ldg) (p_pke : e .pke) (p_fwd : e .fwd) {x1i x2i} (h :
    Only e a d) : Only e a (popRtcp d x1i x2i) := by
  unfold popRtcp
  refine releaseMPkt_only p_regs p_evt p_ldg p_pke p_fwd ?_
  refine Only.fwdUpd p_fwd ?_ _
  assumption

theorem requestRefresh_only (p_regs : e .regs) (p_out : e .out) (p_hif : e .hif) (p_sec : e .sec) (p_fwd : e .fwd) (p_vid :
    e .vid) {x1i x2i x3i} (h : Only e a d) : Only e a (requestRefresh d x1i x2i x3i) := by
  unfold requestRefresh
  split
  · refine modEnc_only p_vid ?_
    assumption
  · split
    · assumption
    · split
      · assumption
      · split
        · refine sendRefresh_only p_regs p_out p_hif p_sec p_fwd ?_
          assumption
        · refine modLeg_only p_fwd ?_
          assumption

theorem rtcpReceive_only (p_regs : e .regs) (p_freeCtr : e .freeCtr) (p_out : e .out) (p_hif : e .hif) (p_evt : e .evt)
    (p_ldg : e .ldg) (p_pke : e .pke) (p_sec : e .sec) (p_fwd : e .fwd) (p_vid : e .vid) {x1i} (h : Only e a d) : Only e a
    (rtcpReceive d x1i) := by
  unfold rtcpReceive
  split
  · assumption
  · extract_lets +onlyGivenNames x1
    split
    · assumption
    · extract_lets +onlyGivenNames x2
      extract_lets +onlyGivenNames x3
      have h3 : Only e a x3 := by
        unfold x3
        refine popRtcp_only p_regs p_evt p_ldg p_pke p_fwd ?_
        assumption
      try clear_value x3
      extract_lets +onlyGivenNames x4
      extract_lets +onlyGivenNames x5
      extract_lets +onlyGivenNames x6
      have h6 : Only e a x6 := by
        unfold x6
        split
        · split
          · split
            · refine requestRefresh_only p_regs p_out p_hif p_sec p_fwd p_vid ?_
              assumption
            · assumption
          · assumption
        · assumption
      try clear_value x6
      extract_lets +onlyGivenNames x7
      extract_lets +onlyGivenNames x8
      have h8 : Only e a x8 := by
        unfold x8
        refine Only.foldl ?_ (fun d9 y9 h9 => ?_)
        · assumption
        · split
          · refine modLeg_only p_fwd ?_
            assumption
          · assumption
      try clear_value x8
      refine Only.foldl ?_ (fun d10 y10 h10 => ?_)
      · assumption
      · refine senderReport_only p_freeCtr p_sec ?_
        assumption

theorem fanoutAddAct_only (p_regs : e .regs) (p_out : e .out) (p_hif : e .hif) (p_sec : e .sec) (p_fwd : e .fwd) (p_vid : e
    .vid) {x1i} (h : Only e a d) : ActOnly e a (fanoutAddAct d x1i) := by
  unfold fanoutAddAct
  extract_lets +onlyGivenNames x1
  refine ActOnly.bind (fun w2 y2 => ?_)
  refine ActOnly.bind (fun w3 y3 => ?_)
  extract_lets +onlyGivenNames x4
  refine ActOnly.bind (fun w5 y5 => ?_)
  extract_lets +onlyGivenNames x6
  extract_lets +onlyGivenNames x7
  refine ActOnly.bind (fun w8 y8 => ?_)
  extract_lets +onlyGivenNames x9
  extract_lets +onlyGivenNames x10
  have h10 : Only e a x10 := by
    unfold x10
    refine putLeg_only p_fwd ?_
    assumption
  try clear_value x10
  refine (show Only e a _ from ?_)
  refine requestRefresh_only p_regs p_out p_hif p_sec p_fwd p_vid ?_
  assumption

theorem handOff_only (p_regs : e .regs) (p_freeCtr : e .freeCtr) (p_out : e .out) (p_tim : e .tim) (p_hif : e .hif) (p_evt :
    e .evt) (p_ldg : e .ldg) (p_pke : e .pke) (p_brd : e .brd) (p_sys : e .sys) {x1i x2i x3i} (h : Only e a d) : Only e a
    (handOff d x1i x2i x3i) := by
  unfold handOff
  extract_lets +onlyGivenNames x1
  extract_lets +onlyGivenNames x2
  refine enterBridle_only p_regs p_freeCtr p_out p_tim p_hif p_evt p_ldg p_pke p_brd p_sys ?_
  refine cnt_only p_regs ?_
  refine takeCells_only p_regs p_evt p_ldg p_pke ?_
  assumption

theorem srtpOutbound_only (p_regs : e .regs) (p_freeCtr : e .freeCtr) (p_out : e .out) (p_tim : e .tim) (p_hif : e .hif)
    (p_evt : e .evt) (p_ldg : e .ldg) (p_pke : e .pke) (p_sec : e .sec) (p_brd : e .brd) (p_sys : e .sys) {x1i} (h : Only e
    a d) : Only e a (srtpOutbound d x1i) := by
  unfold srtpOutbound
  split
  · assumption
  · split
    · assumption
    · extract_lets +onlyGivenNames x1
      extract_lets +onlyGivenNames x2
      have h2 : Only e a x2 := by
        unfold x2
        refine Only.secUpd p_sec ?_ _
        assumption
      try clear_value x2
      split
      · assumption
      · extract_lets +onlyGivenNames x3
        have h3 : Only e a x3.1 := by
          unfold x3
          refine protectRtcp_only p_regs p_freeCtr p_out p_hif p_evt p_sec ?_
          assumption
        try clear_value x3
        split
        · assumption
        · refine withCredit_only ?_ ?_
          · refine handOff_only p_regs p_freeCtr p_out p_tim p_hif p_evt p_ldg p_pke p_brd p_sys ?_
            assumption
          · assumption

theorem resend_only (p_regs : e .regs) (p_freeCtr : e .freeCtr) (p_out : e .out) (p_tim : e .tim) (p_hif : e .hif) (p_evt :
    e .evt) (p_ldg : e .ldg) (p_obj : e .obj) (p_pke : e .pke) (p_sec : e .sec) (p_brd : e .brd) (p_fwd : e .fwd) (p_sys : e
    .sys) {x1i x2i} (h : Only e a d) : Only e a (resend d x1i x2i) := by
  unfold resend
  extract_lets +onlyGivenNames x1
  extract_lets +onlyGivenNames x2
  extract_lets +onlyGivenNames x3
  extract_lets +onlyGivenNames x4
  extract_lets +onlyGivenNames x5
  extract_lets +onlyGivenNames x6
  split
  · refine rtxMiss_only p_regs p_evt ?_
    assumption
  · split
    · refine rtxMiss_only p_regs p_evt ?_
      assumption
    · extract_lets +onlyGivenNames x7
      extract_lets +onlyGivenNames x8
      have h8 : Only e a x8 := by
        unfold x8
        refine Only.fwdUpd p_fwd ?_ _
        assumption
      try clear_value x8
      extract_lets +onlyGivenNames x9
      extract_lets +onlyGivenNames x10
      extract_lets +onlyGivenNames x11
      have h11 : Only e a x11 := by
        unfold x11
        refine putLeg_only p_fwd ?_
        assumption
      try clear_value x11
      extract_lets +onlyGivenNames x12
      extract_lets +onlyGivenNames x13
      have h13 : Only e a x13.1 := by
        unfold x13
        refine protectRtp_only p_regs p_freeCtr p_out p_hif p_evt p_ldg p_obj p_sec ?_
        assumption
      try clear_value x13
      split
      · assumption
      · refine cnt_only p_regs ?_
        refine handOff_only p_regs p_freeCtr p_out p_tim p_hif p_evt p_ldg p_pke p_brd p_sys ?_
        assumption

theorem serveNumber_only (p_regs : e .regs) (p_freeCtr : e .freeCtr) (p_out : e .out) (p_tim : e .tim) (p_hif : e .hif)
    (p_evt : e .evt) (p_ldg : e .ldg) (p_obj : e .obj) (p_pke : e .pke) (p_sec : e .sec) (p_brd : e .brd) (p_fwd : e .fwd)
    (p_sys : e .sys) {x0i x2i} (h : Only e a d) : Only e a (serveNumber x0i d x2i) := by
  unfold serveNumber
  split
  · assumption
  · split
    · refine rtxMiss_only p_regs p_evt ?_
      assumption
    · split
      · refine rtxMiss_only p_regs p_evt ?_
        assumption
      · split
        · refine rtxMiss_only p_regs p_evt ?_
          assumption
        · split
          · refine rtxMiss_only p_regs p_evt ?_
            assumption
          · refine resend_only p_regs p_freeCtr p_out p_tim p_hif p_evt p_ldg p_obj p_pke p_sec p_brd p_fwd p_sys ?_
            assumption

theorem sendRepair_only (p_regs : e .regs) (p_freeCtr : e .freeCtr) (p_out : e .out) (p_tim : e .tim) (p_hif : e .hif)
    (p_evt : e .evt) (p_ldg : e .ldg) (p_obj : e .obj) (p_pke : e .pke) (p_sec : e .sec) (p_brd : e .brd) (p_sys : e .sys)
    {x1i x2i x3i x4i x5i} (h : Only e a d) : Only e a (sendRepair d x1i x2i x3i x4i x5i).1 := by
  unfold sendRepair
  extract_lets +onlyGivenNames x1
  extract_lets +onlyGivenNames x2
  have h2 : Only e a x2.1 := by
    unfold x2
    refine protectRtp_only p_regs p_freeCtr p_out p_hif p_evt p_ldg p_obj p_sec ?_
    assumption
  try clear_value x2
  extract_lets +onlyGivenNames x3
  split
  · dsimp only
    assumption
  · dsimp only
    refine cnt_only p_regs ?_
    refine handOff_only p_regs p_freeCtr p_out p_tim p_hif p_evt p_ldg p_pke p_brd p_sys ?_
    assumption

theorem serveNack_only (p_regs : e .regs) (p_freeCtr : e .freeCtr) (p_out : e .out) (p_tim : e .tim) (p_hif : e .hif) (p_evt
    : e .evt) (p_ldg : e .ldg) (p_obj : e .obj) (p_pke : e .pke) (p_sec : e .sec) (p_brd : e .brd) (p_fwd : e .fwd) (p_sys :
    e .sys) (h : Only e a d) : Only e a (serveNack d) := by
  unfold serveNack
  split
  · assumption
  · extract_lets +onlyGivenNames x1
    split
    · assumption
    · extract_lets +onlyGivenNames x2
      extract_lets +onlyGivenNames x3
      have h3 : Only e a x3 := by
        unfold x3
        refine cnt_only p_regs ?_
        refine popRtcp_only p_regs p_evt p_ldg p_pke p_fwd ?_
        assumption
      try clear_value x3
      extract_lets +onlyGivenNames x4
      split
      · refine cnt_only p_regs ?_
        assumption
      · refine withCredit_only ?_ ?_
        · refine Only.foldl ?_ (fun d5 y5 h5 => ?_)
          · assumption
          · refine serveNumber_only p_regs p_freeCtr p_out p_tim p_hif p_evt p_ldg p_obj p_pke p_sec p_brd p_fwd p_sys ?_
            assumption
        · assumption

theorem sendColumns_only (p_regs : e .regs) (p_freeCtr : e .freeCtr) (p_out : e .out) (p_tim : e .tim) (p_hif : e .hif)
    (p_evt : e .evt) (p_ldg : e .ldg) (p_obj : e .obj) (p_pke : e .pke) (p_sec : e .sec) (p_brd : e .brd) (p_sys : e .sys)
    {n i k rows l} (h : Only e a d) : Only e a (sendColumns n i k rows d l).1 := by
  induction n generalizing d i l with
  | zero => exact h
  | succ n ih =>
    unfold sendColumns
    extract_lets +onlyGivenNames x1
    split
    · refine ih ?_
      assumption
    · extract_lets +onlyGivenNames x2
      have h2 : Only e a x2.1 := by
        unfold x2
        refine sendRepair_only p_regs p_freeCtr p_out p_tim p_hif p_evt p_ldg p_obj p_pke p_sec p_brd p_sys ?_
        assumption
      try clear_value x2
      refine ih ?_
      assumption

theorem closeFec_only (p_regs : e .regs) (p_freeCtr : e .freeCtr) (p_out : e .out) (p_tim : e .tim) (p_hif : e .hif) (p_evt
    : e .evt) (p_ldg : e .ldg) (p_obj : e .obj) (p_pke : e .pke) (p_sec : e .sec) (p_brd : e .brd) (p_sys : e .sys) {x1i} (h
    : Only e a d) : Only e a (closeFec d x1i).1 := by
  unfold closeFec
  split
  · dsimp only
    assumption
  · extract_lets +onlyGivenNames x1
    split
    · unfold x1
      dsimp only
      assumption
    · split
      · unfold x1
        dsimp only
        refine sendRepair_only p_regs p_freeCtr p_out p_tim p_hif p_evt p_ldg p_obj p_pke p_sec p_brd p_sys ?_
        assumption
      · unfold x1
        dsimp only
        refine sendColumns_only p_regs p_freeCtr p_out p_tim p_hif p_evt p_ldg p_obj p_pke p_sec p_brd p_sys ?_
        assumption

theorem detach_only (p_regs : e .regs) (p_freeCtr : e .freeCtr) (p_out : e .out) (p_tim : e .tim) (p_hif : e .hif) (p_evt :
    e .evt) (p_ldg : e .ldg) (p_obj : e .obj) (p_pke : e .pke) (p_sec : e .sec) (p_brd : e .brd) (p_fwd : e .fwd) (p_sys : e
    .sys) {x1i} (h : Only e a d) : Only e a (detach d x1i) := by
  unfold detach
  extract_lets +onlyGivenNames x1
  have h1 : Only e a x1.1 := by
    unfold x1
    refine closeFec_only p_regs p_freeCtr p_out p_tim p_hif p_evt p_ldg p_obj p_pke p_sec p_brd p_sys ?_
    assumption
  try clear_value x1
  refine putLeg_only p_fwd ?_
  assumption

theorem doJoin_only (p_regs : e .regs) (p_freeCtr : e .freeCtr) (p_out : e .out) (p_tim : e .tim) (p_hif : e .hif) (p_evt :
    e .evt) (p_ldg : e .ldg) (p_obj : e .obj) (p_pke : e .pke) (p_sec : e .sec) (p_brd : e .brd) (p_sys : e .sys) {x1i x2i}
    (h : Only e a d) : Only e a (doJoin d x1i x2i).1 := by
  unfold doJoin
  extract_lets +onlyGivenNames x1
  extract_lets +onlyGivenNames x2
  have h2 : Only e a x2.1 := by
    unfold x2
    split
    · refine closeFec_only p_regs p_freeCtr p_out p_tim p_hif p_evt p_ldg p_obj p_pke p_sec p_brd p_sys ?_
      assumption
    · dsimp only
      assumption
  try clear_value x2
  extract_lets +onlyGivenNames x3
  extract_lets +onlyGivenNames x4
  extract_lets +onlyGivenNames x5
  dsimp only
  refine raise_only p_regs p_out p_hif ?_
  assumption

theorem fullFec_only (p_regs : e .regs) (p_freeCtr : e .freeCtr) (p_out : e .out) (p_tim : e .tim) (p_hif : e .hif) (p_evt :
    e .evt) (p_ldg : e .ldg) (p_obj : e .obj) (p_pke : e .pke) (p_sec : e .sec) (p_brd : e .brd) (p_sys : e .sys) {x1i} (h :
    Only e a d) : Only e a (fullFec d x1i).1 := by
  unfold fullFec
  split
  · dsimp only
    assumption
  · split
    · refine closeFec_only p_regs p_freeCtr p_out p_tim p_hif p_evt p_ldg p_obj p_pke p_sec p_brd p_sys ?_
      assumption
    · dsimp only
      assumption

theorem loseSource_only (p_regs : e .regs) (p_freeCtr : e .freeCtr) (p_out : e .out) (p_tim : e .tim) (p_hif : e .hif)
    (p_evt : e .evt) (p_ldg : e .ldg) (p_obj : e .obj) (p_pke : e .pke) (p_sec : e .sec) (p_brd : e .brd) (p_fwd : e .fwd)
    (p_sys : e .sys) {x1i x2i} (h : Only e a d) : Only e a (loseSource d x1i x2i) := by
  unfold loseSource
  extract_lets +onlyGivenNames x1
  extract_lets +onlyGivenNames x2
  have h2 : Only e a x2 := by
    unfold x2
    refine Only.foldl ?_ (fun d3 y3 h3 => ?_)
    · assumption
    · split
      · assumption
      · extract_lets +onlyGivenNames x4
        extract_lets +onlyGivenNames x5
        have h5 : Only e a x5 := by
          unfold x5
          split
          · refine detach_only p_regs p_freeCtr p_out p_tim p_hif p_evt p_ldg p_obj p_pke p_sec p_brd p_fwd p_sys ?_
            assumption
          · assumption
        try clear_value x5
        extract_lets +onlyGivenNames x6
        have h6 : Only e a x6 := by
          unfold x6
          refine modLeg_only p_fwd ?_
          assumption
        try clear_value x6
        (clear_value x4; split)
        · split
          · refine complete_only p_regs p_out p_hif p_sys ?_
            assumption
          · assumption
        · assumption
  try clear_value x2
  extract_lets +onlyGivenNames x7
  extract_lets +onlyGivenNames x8
  extract_lets +onlyGivenNames x9
  have h9 : Only e a x9 := by
    unfold x9
    refine Only.foldl ?_ (fun d10 y10 h10 => ?_)
    · refine Only.fwdUpd p_fwd ?_ _
      assumption
    · refine dropSource_only p_regs p_evt p_ldg p_pke p_fwd ?_
      assumption
  try clear_value x9
  split
  · assumption
  · refine raise_only p_regs p_out p_hif ?_
    assumption

theorem endPicture_only (p_regs : e .regs) (p_freeCtr : e .freeCtr) (p_out : e .out) (p_tim : e .tim) (p_hif : e .hif)
    (p_evt : e .evt) (p_ldg : e .ldg) (p_obj : e .obj) (p_pke : e .pke) (p_sec : e .sec) (p_brd : e .brd) (p_fwd : e .fwd)
    (p_sys : e .sys) {x1i} (h : Only e a d) : Only e a (endPicture d x1i) := by
  unfold endPicture
  split
  · assumption
  · split
    · refine complete_only p_regs p_out p_hif p_sys ?_
      refine detach_only p_regs p_freeCtr p_out p_tim p_hif p_evt p_ldg p_obj p_pke p_sec p_brd p_fwd p_sys ?_
      assumption
    · refine putLeg_only p_fwd ?_
      assumption

theorem fanoutDelAct_only (p_regs : e .regs) (p_freeCtr : e .freeCtr) (p_out : e .out) (p_tim : e .tim) (p_hif : e .hif)
    (p_evt : e .evt) (p_ldg : e .ldg) (p_obj : e .obj) (p_pke : e .pke) (p_sec : e .sec) (p_brd : e .brd) (p_fwd : e .fwd)
    (p_sys : e .sys) {x1i} (h : Only e a d) : ActOnly e a (fanoutDelAct d x1i) := by
  unfold fanoutDelAct
  extract_lets +onlyGivenNames x1
  refine ActOnly.bind (fun w2 y2 => ?_)
  refine ActOnly.bind (fun w3 y3 => ?_)
  refine ActOnly.bind (fun w4 y4 => ?_)
  extract_lets +onlyGivenNames x5
  split
  · refine (show Only e a _ from ?_)
    refine detach_only p_regs p_freeCtr p_out p_tim p_hif p_evt p_ldg p_obj p_pke p_sec p_brd p_fwd p_sys ?_
    assumption
  · refine (show Only e a _ from ?_)
    refine putLeg_only p_fwd ?_
    assumption

theorem atBoundary_only (p_regs : e .regs) (p_freeCtr : e .freeCtr) (p_out : e .out) (p_tim : e .tim) (p_hif : e .hif)
    (p_evt : e .evt) (p_ldg : e .ldg) (p_obj : e .obj) (p_pke : e .pke) (p_sec : e .sec) (p_brd : e .brd) (p_fwd : e .fwd)
    (p_vid : e .vid) (p_sys : e .sys) {x1i x2i} (h : Only e a d) : Only e a (atBoundary d x1i x2i).1 := by
  unfold atBoundary
  extract_lets +onlyGivenNames x1
  extract_lets +onlyGivenNames x2
  have h2 : Only e a x2.1 := by
    unfold x2
    split
    · refine closeFec_only p_regs p_freeCtr p_out p_tim p_hif p_evt p_ldg p_obj p_pke p_sec p_brd p_sys ?_
      assumption
    · dsimp only
      assumption
  try clear_value x2
  extract_lets +onlyGivenNames x3
  have h3 : Only e a x3 := by
    unfold x3
    assumption
  try clear_value x3
  extract_lets +onlyGivenNames x4
  extract_lets +onlyGivenNames x5
  extract_lets +onlyGivenNames x6
  split
  · dsimp only
    assumption
  · extract_lets +onlyGivenNames x7
    extract_lets +onlyGivenNames x8
    extract_lets +onlyGivenNames x9
    have h9 : Only e a x9.1 := by
      unfold x9
      dsimp only
      refine requestRefresh_only p_regs p_out p_hif p_sec p_fwd p_vid ?_
      assumption
    try clear_value x9
    split
    · extract_lets +onlyGivenNames x10
      split
      · split
        · refine setChoice_only p_regs p_evt ?_
          assumption
        · assumption
      · split
        · refine setChoice_only p_regs p_evt ?_
          assumption
        · refine setChoice_only p_regs p_evt ?_
          assumption
    · split
      · extract_lets +onlyGivenNames x11
        split
        · dsimp only
          assumption
        · split
          · split
            · refine setChoice_only p_regs p_evt ?_
              assumption
            · dsimp only
              refine requestRefresh_only p_regs p_out p_hif p_sec p_fwd p_vid ?_
              assumption
          · split
            · refine setChoice_only p_regs p_evt ?_
              assumption
            · dsimp only
              assumption
      · dsimp only
        assumption

theorem releaseLeg_only (p_regs : e .regs) (p_freeCtr : e .freeCtr) (p_out : e .out) (p_tim : e .tim) (p_hif : e .hif)
    (p_evt : e .evt) (p_ldg : e .ldg) (p_obj : e .obj) (p_pke : e .pke) (p_sec : e .sec) (p_brd : e .brd) (p_fwd : e .fwd)
    (p_sys : e .sys) {x1i} (h : Only e a d) : Only e a (releaseLeg d x1i) := by
  unfold releaseLeg
  split
  · assumption
  · extract_lets +onlyGivenNames x1
    have h1 : Only e a x1 := by
      unfold x1
      split
      · refine complete_only p_regs p_out p_hif p_sys ?_
        refine detach_only p_regs p_freeCtr p_out p_tim p_hif p_evt p_ldg p_obj p_pke p_sec p_brd p_fwd p_sys ?_
        assumption
      · refine detach_only p_regs p_freeCtr p_out p_tim p_hif p_evt p_ldg p_obj p_pke p_sec p_brd p_fwd p_sys ?_
        assumption
    try clear_value x1
    extract_lets +onlyGivenNames x2
    extract_lets +onlyGivenNames x3
    extract_lets +onlyGivenNames x4
    have h4 : Only e a x4 := by
      unfold x4
      split
      · refine Only.foldl ?_ (fun d5 y5 h5 => ?_)
        · refine Only.fwdUpd p_fwd ?_ _
          assumption
        · refine dropSource_only p_regs p_evt p_ldg p_pke p_fwd ?_
          assumption
      · refine loseSource_only p_regs p_freeCtr p_out p_tim p_hif p_evt p_ldg p_obj p_pke p_sec p_brd p_fwd p_sys ?_
        assumption
    try clear_value x4
    extract_lets +onlyGivenNames x6
    have h6 : Only e a x6 := by
      unfold x6
      refine Only.foldl ?_ (fun d7 y7 h7 => ?_)
      · assumption
      · refine retireKey_only p_regs p_evt p_ldg p_obj p_sec ?_
        assumption
    try clear_value x6
    extract_lets +onlyGivenNames x8
    extract_lets +onlyGivenNames x9
    extract_lets +onlyGivenNames x10
    extract_lets +onlyGivenNames x11
    have h11 : Only e a x11 := by
      unfold x11
      refine Only.upd (b := x6) ?_ rfl (.inr rfl) rfl (.inr rfl) (.inr rfl) (.inr rfl) (.inr rfl) (.inr rfl) (.inr rfl)
          (.inl p_sec) (.inr rfl) (.inr rfl) (.inl p_fwd) (.inr rfl) (.inr rfl) rfl rfl rfl (.inl rfl) (.inl rfl) (.inl rfl)
          (.inl rfl) (.inl rfl)
      assumption
    try clear_value x11
    refine Only.foldl ?_ (fun d12 y12 h12 => ?_)
    · assumption
    · refine emDelete_only p_regs p_evt p_ldg p_pke ?_
      assumption

theorem sendOn_only (p_regs : e .regs) (p_freeCtr : e .freeCtr) (p_out : e .out) (p_tim : e .tim) (p_hif : e .hif) (p_evt :
    e .evt) (p_ldg : e .ldg) (p_obj : e .obj) (p_pke : e .pke) (p_sec : e .sec) (p_brd : e .brd) (p_hbm : e .hbm) (p_mem : e
    .mem) (p_fwd : e .fwd) (p_sys : e .sys) {x1i x2i x3i} (h : Only e a d) : Only e a (sendOn d x1i x2i x3i).1 := by
  unfold sendOn
  extract_lets +onlyGivenNames x1
  extract_lets +onlyGivenNames x2
  extract_lets +onlyGivenNames x3
  extract_lets +onlyGivenNames x4
  extract_lets +onlyGivenNames x5
  extract_lets +onlyGivenNames x6
  extract_lets +onlyGivenNames x7
  extract_lets +onlyGivenNames x8
  extract_lets +onlyGivenNames x9
  have h9 : Only e a x9 := by
    unfold x9
    refine rtxStore_only p_regs p_evt p_ldg p_hbm p_mem p_fwd ?_
    assumption
  try clear_value x9
  extract_lets +onlyGivenNames x10
  have h10 : Only e a x10.1 := by
    unfold x10
    refine protectRtp_only p_regs p_freeCtr p_out p_hif p_evt p_ldg p_obj p_sec ?_
    assumption
  try clear_value x10
  split
  · refine fullFec_only p_regs p_freeCtr p_out p_tim p_hif p_evt p_ldg p_obj p_pke p_sec p_brd p_sys ?_
    assumption
  · refine fullFec_only p_regs p_freeCtr p_out p_tim p_hif p_evt p_ldg p_obj p_pke p_sec p_brd p_sys ?_
    refine handOff_only p_regs p_freeCtr p_out p_tim p_hif p_evt p_ldg p_pke p_brd p_sys ?_
    assumption

theorem forwardTo_only (p_regs : e .regs) (p_freeCtr : e .freeCtr) (p_out : e .out) (p_tim : e .tim) (p_hif : e .hif) (p_evt
    : e .evt) (p_ldg : e .ldg) (p_obj : e .obj) (p_pke : e .pke) (p_sec : e .sec) (p_brd : e .brd) (p_hbm : e .hbm) (p_mem :
    e .mem) (p_fwd : e .fwd) (p_vid : e .vid) (p_sys : e .sys) {x0i x2i} (h : Only e a d) : Only e a (forwardTo x0i d x2i)
    := by
  unfold forwardTo
  extract_lets +onlyGivenNames x1
  have h1 : Only e a x1 := by
    unfold x1
    split
    · split
      · refine endPicture_only p_regs p_freeCtr p_out p_tim p_hif p_evt p_ldg p_obj p_pke p_sec p_brd p_fwd p_sys ?_
        assumption
      · assumption
    · assumption
  try clear_value x1
  split
  · assumption
  · extract_lets +onlyGivenNames x2
    extract_lets +onlyGivenNames x3
    have h3 : Only e a x3.1 := by
      unfold x3
      split
      · refine doJoin_only p_regs p_freeCtr p_out p_tim p_hif p_evt p_ldg p_obj p_pke p_sec p_brd p_sys ?_
        assumption
      · dsimp only
        assumption
    try clear_value x3
    extract_lets +onlyGivenNames x4
    have h4 : Only e a x4 := by
      unfold x4
      assumption
    try clear_value x4
    extract_lets +onlyGivenNames x5
    split
    · refine putLeg_only p_fwd ?_
      assumption
    · split
      · refine putLeg_only p_fwd ?_
        assumption
      · extract_lets +onlyGivenNames x6
        have h6 : Only e a x6.1 := by
          unfold x6
          split
          · refine atBoundary_only p_regs p_freeCtr p_out p_tim p_hif p_evt p_ldg p_obj p_pke p_sec p_brd p_fwd p_vid p_sys ?_
            assumption
          · dsimp only
            assumption
        try clear_value x6
        extract_lets +onlyGivenNames x7
        have h7 : Only e a x7.1 := by
          unfold x7
          split
          · assumption
          · refine lateSwitch_only p_regs p_evt ?_
            assumption
        try clear_value x7
        extract_lets +onlyGivenNames x8
        have h8 : Only e a x8 := by
          unfold x8
          assumption
        try clear_value x8
        extract_lets +onlyGivenNames x9
        extract_lets +onlyGivenNames x10
        extract_lets +onlyGivenNames x11
        extract_lets +onlyGivenNames x12
        have h12 : Only e a x12.1 := by
          unfold x12
          split
          · dsimp only
            refine cnt_only p_regs ?_
            assumption
          · split
            · dsimp only
              assumption
            · refine sendOn_only p_regs p_freeCtr p_out p_tim p_hif p_evt p_ldg p_obj p_pke p_sec p_brd p_hbm p_mem p_fwd
                p_sys ?_
              assumption
        try clear_value x12
        extract_lets +onlyGivenNames x13
        have h13 : Only e a x13 := by
          unfold x13
          refine putLeg_only p_fwd ?_
          assumption
        try clear_value x13
        split
        · refine endPicture_only p_regs p_freeCtr p_out p_tim p_hif p_evt p_ldg p_obj p_pke p_sec p_brd p_fwd p_sys ?_
          assumption
        · assumption

theorem serveLegs_only (p_regs : e .regs) (p_freeCtr : e .freeCtr) (p_out : e .out) (p_tim : e .tim) (p_hif : e .hif) (p_evt
    : e .evt) (p_ldg : e .ldg) (p_obj : e .obj) (p_pke : e .pke) (p_sec : e .sec) (p_brd : e .brd) (p_hbm : e .hbm) (p_mem :
    e .mem) (p_fwd : e .fwd) (p_vid : e .vid) (p_sys : e .sys) {k l} (h : Only e a d) : Only e a (serveLegs k l d).1 := by
  induction l generalizing d with
  | nil => exact h
  | cons y ys ih =>
    unfold serveLegs
    split
    · exact ih (forwardTo_only p_regs p_freeCtr p_out p_tim p_hif p_evt p_ldg p_obj p_pke p_sec p_brd p_hbm p_mem p_fwd
        p_vid p_sys h)
    · exact h

theorem forwardPacket_only (p_regs : e .regs) (p_freeCtr : e .freeCtr) (p_out : e .out) (p_tim : e .tim) (p_hif : e .hif)
    (p_evt : e .evt) (p_ldg : e .ldg) (p_obj : e .obj) (p_pke : e .pke) (p_sec : e .sec) (p_brd : e .brd) (p_hbm : e .hbm)
    (p_mem : e .mem) (p_fwd : e .fwd) (p_vid : e .vid) (p_sys : e .sys) (h : Only e a d) : Only e a (forwardPacket d) := by
  unfold forwardPacket
  split
  · assumption
  · split
    · assumption
    · extract_lets +onlyGivenNames x1
      have h1 : Only e a x1.1 := by
        unfold x1
        refine serveLegs_only p_regs p_freeCtr p_out p_tim p_hif p_evt p_ldg p_obj p_pke p_sec p_brd p_hbm p_mem p_fwd p_vid
            p_sys ?_
        assumption
      try clear_value x1
      split
      · refine dropSource_only p_regs p_evt p_ldg p_pke p_fwd ?_
        extract_lets +onlyGivenNames x2
        have h2 : Only e a x2 := by
          unfold x2
          assumption
        try clear_value x2
        refine Only.fwdUpd p_fwd ?_ _
        assumption
      · extract_lets +onlyGivenNames x3
        have h3 : Only e a x3 := by
          unfold x3
          assumption
        try clear_value x3
        refine Only.fwdUpd p_fwd ?_ _
        assumption

/-! ### Pack -/

theorem arenaStore_only (p_regs : e .regs) (p_out : e .out) (p_hif : e .hif) (p_hbm : e .hbm) (p_mem : e .mem) {x1i x2i x3i}
    (h : Only e a d) : Only e a (arenaStore d x1i x2i x3i) := by
  unfold arenaStore
  split
  · refine hbmPut_only p_hbm p_mem ?_
    assumption
  · refine hbmUnmapped_only p_regs p_out p_hif ?_
    assumption

theorem arenaPut_only (p_regs : e .regs) (p_out : e .out) (p_hif : e .hif) (p_hbm : e .hbm) (p_mem : e .mem) {n x o bs} (h :
    Only e a d) : Only e a (arenaPut n d x o bs) := by
  induction n generalizing d o bs with
  | zero => exact h
  | succ n ih =>
    unfold arenaPut
    split
    · assumption
    · extract_lets +onlyGivenNames x1
      extract_lets +onlyGivenNames x2
      have h2 : Only e a x2 := by
        unfold x2
        split
        · refine arenaStore_only p_regs p_out p_hif p_hbm p_mem ?_
          assumption
        · assumption
      try clear_value x2
      refine ih ?_
      assumption

theorem writeTile_only (p_regs : e .regs) (p_out : e .out) (p_hif : e .hif) (p_hbm : e .hbm) (p_mem : e .mem) {x0i x1i x3i}
    (h : Only e a d) : Only e a (writeTile x0i x1i d x3i) := by
  unfold writeTile
  extract_lets +onlyGivenNames x1
  refine arenaPut_only p_regs p_out p_hif p_hbm p_mem ?_
  refine arenaPut_only p_regs p_out p_hif p_hbm p_mem ?_
  assumption

theorem newSurf_only (p_regs : e .regs) (p_out : e .out) (p_hif : e .hif) (p_hbm : e .hbm) (p_mem : e .mem) {x1i} (h : Only
    e a d) : Only e a (newSurf d x1i) := by
  unfold newSurf
  extract_lets +onlyGivenNames x1
  have h1 : Only e a x1 := by
    unfold x1
    refine arenaPut_only p_regs p_out p_hif p_hbm p_mem ?_
    assumption
  try clear_value x1
  refine Only.foldl ?_ (fun d2 y2 h2 => ?_)
  · assumption
  · refine Only.foldl ?_ (fun d3 y3 h3 => ?_)
    · assumption
    · refine arenaPut_only p_regs p_out p_hif p_hbm p_mem ?_
      assumption

theorem concealTile_only (p_regs : e .regs) (p_out : e .out) (p_hif : e .hif) (p_hbm : e .hbm) (p_mem : e .mem) {x0i x1i
    x3i} (h : Only e a d) : Only e a (concealTile x0i x1i d x3i) := by
  unfold concealTile
  refine writeTile_only p_regs p_out p_hif p_hbm p_mem ?_
  assumption

theorem concealAbsent_only (p_regs : e .regs) (p_out : e .out) (p_hif : e .hif) (p_hbm : e .hbm) (p_mem : e .mem) {x1i x2i}
    (h : Only e a d) : Only e a (concealAbsent d x1i x2i) := by
  unfold concealAbsent
  refine Only.foldl ?_ (fun d1 y1 h1 => ?_)
  · assumption
  · refine concealTile_only p_regs p_out p_hif p_hbm p_mem ?_
    assumption

theorem writePyrLevel_only (p_regs : e .regs) (p_out : e .out) (p_hif : e .hif) (p_hbm : e .hbm) (p_mem : e .mem) {x0i x2i}
    (h : Only e a d) : Only e a (writePyrLevel x0i d x2i) := by
  unfold writePyrLevel
  refine Only.foldl ?_ (fun d1 y1 h1 => ?_)
  · assumption
  · refine writeTile_only p_regs p_out p_hif p_hbm p_mem ?_
    assumption

theorem writePyramid_only (p_regs : e .regs) (p_out : e .out) (p_hif : e .hif) (p_hbm : e .hbm) (p_mem : e .mem) {x1i} (h :
    Only e a d) : Only e a (writePyramid d x1i) := by
  unfold writePyramid
  refine Only.foldl ?_ (fun d1 y1 h1 => ?_)
  · assumption
  · refine writePyrLevel_only p_regs p_out p_hif p_hbm p_mem ?_
    assumption

theorem storeImage_only (p_regs : e .regs) (p_out : e .out) (p_hif : e .hif) (p_hbm : e .hbm) (p_mem : e .mem) {x1i x2i} (h
    : Only e a d) : Only e a (storeImage d x1i x2i) := by
  unfold storeImage
  extract_lets +onlyGivenNames x1
  extract_lets +onlyGivenNames x2
  extract_lets +onlyGivenNames x3
  extract_lets +onlyGivenNames x4
  have h4 : Only e a x4 := by
    unfold x4
    refine newSurf_only p_regs p_out p_hif p_hbm p_mem ?_
    assumption
  try clear_value x4
  extract_lets +onlyGivenNames x5
  have h5 : Only e a x5 := by
    unfold x5
    refine Only.foldl ?_ (fun d6 y6 h6 => ?_)
    · assumption
    · refine writeTile_only p_regs p_out p_hif p_hbm p_mem ?_
      assumption
  try clear_value x5
  refine writePyramid_only p_regs p_out p_hif p_hbm p_mem ?_
  assumption

end Sys2Proof.Machine
end

