-- ==== Sys2Proof/Laws/Frame6.lean ====
section
/-! SUPPORT. What each operation of VidDecode, Layers, Compose, Motion, Encode may write. -/
namespace Sys2Proof.Machine
variable {e : Piece → Prop} {a d : Dev}

/-! ### VidDecode -/

theorem releaseCtx_only (p_vid : e .vid) {x1i} (h : Only e a d) : Only e a (releaseCtx d x1i) := by
  unfold releaseCtx
  split
  · assumption
  · refine modCtx_only p_vid ?_
    assumption

theorem detachSource_only (p_vid : e .vid) {x1i} (h : Only e a d) : Only e a (detachSource d x1i) := by
  unfold detachSource
  refine Only.vidUpd p_vid ?_ _
  assumption

theorem takePkts_only (p_vid : e .vid) {x1i x2i} (h : Only e a d) : Only e a (takePkts d x1i x2i) := by
  unfold takePkts
  refine modCtx_only p_vid ?_
  assumption

theorem addSucc_only (p_dlr : e .dlr) {x1i x2i} (h : Only e a d) : Only e a (addSucc d x1i x2i) := by
  unfold addSucc
  split
  · refine putCard_only p_dlr ?_
    refine putCard_only p_dlr ?_
    assumption
  · assumption

theorem sendCtxRefresh_only (p_evt : e .evt) (p_sec : e .sec) (p_vid : e .vid) {x1i x2i x3i} (h : Only e a d) : Only e a
    (sendCtxRefresh d x1i x2i x3i) := by
  unfold sendCtxRefresh
  split
  · assumption
  · extract_lets +onlyGivenNames x1
    extract_lets +onlyGivenNames x2
    have h2 : Only e a x2 := by
      unfold x2
      refine sendRtcp_only p_sec ?_
      assumption
    try clear_value x2
    extract_lets +onlyGivenNames x3
    have h3 : Only e a x3 := by
      unfold x3
      refine modCtx_only p_vid ?_
      assumption
    try clear_value x3
    refine raiseOnce_only p_evt ?_
    assumption

theorem codedEffects_only (p_regs : e .regs) (p_evt : e .evt) (p_vid : e .vid) {x1i x2i x3i x4i x5i x6i} (h : Only e a d) :
    Only e a (codedEffects d x1i x2i x3i x4i x5i x6i) := by
  unfold codedEffects
  extract_lets +onlyGivenNames x1
  extract_lets +onlyGivenNames x2
  extract_lets +onlyGivenNames x3
  extract_lets +onlyGivenNames x4
  have h4 : Only e a x4 := by
    unfold x4
    refine cnt_only p_regs ?_
    refine cnt_only p_regs ?_
    refine cnt_only p_regs ?_
    refine cnt_only p_regs ?_
    assumption
  try clear_value x4
  extract_lets +onlyGivenNames x5
  have h5 : Only e a x5 := by
    unfold x5
    split
    · assumption
    · refine raiseOnce_only p_evt ?_
      refine cnt_only p_regs ?_
      assumption
    · refine raiseOnce_only p_evt ?_
      assumption
  try clear_value x5
  extract_lets +onlyGivenNames x6
  extract_lets +onlyGivenNames x7
  have h7 : Only e a x7 := by
    unfold x7
    refine Only.foldl ?_ (fun d8 y8 h8 => ?_)
    · assumption
    · refine raiseOnce_only p_evt ?_
      refine setReg_only p_regs ?_
      refine setReg_only p_regs ?_
      refine cnt_only p_regs ?_
      assumption
  try clear_value x7
  extract_lets +onlyGivenNames x9
  extract_lets +onlyGivenNames x10
  refine modPic_only p_vid ?_
  assumption

theorem runParse_only (p_regs : e .regs) (p_evt : e .evt) (p_dlr : e .dlr) (p_vid : e .vid) {x1i x2i x3i x4i x5i x6i} (h :
    Only e a d) : Only e a (runParse d x1i x2i x3i x4i x5i x6i) := by
  unfold runParse
  split
  · refine putCard_only p_dlr ?_
    assumption
  · split
    · refine putCard_only p_dlr ?_
      assumption
    · extract_lets +onlyGivenNames x1
      extract_lets +onlyGivenNames x2
      have h2 : Only e a x2 := by
        unfold x2
        refine codedEffects_only p_regs p_evt p_vid ?_
        assumption
      try clear_value x2
      refine putCard_only p_dlr ?_
      refine modPic_only p_vid ?_
      assumption

theorem askRefresh_only (p_evt : e .evt) (p_sec : e .sec) (p_vid : e .vid) {x1i x2i x3i} (h : Only e a d) : Only e a
    (askRefresh d x1i x2i x3i).1 := by
  unfold askRefresh
  split
  · dsimp only
    assumption
  · split
    · dsimp only
      assumption
    · split
      · dsimp only
        refine sendCtxRefresh_only p_evt p_sec p_vid ?_
        assumption
      · dsimp only
        refine modCtx_only p_vid ?_
        assumption

theorem pictureOutcome_only (p_evt : e .evt) (p_sec : e .sec) (p_vid : e .vid) {x1i x2i x3i} (h : Only e a d) : Only e a
    (pictureOutcome d x1i x2i x3i) := by
  unfold pictureOutcome
  split
  · assumption
  · extract_lets +onlyGivenNames x1
    have h1 : Only e a x1 := by
      unfold x1
      refine modCtx_only p_vid ?_
      assumption
    try clear_value x1
    split
    · refine askRefresh_only p_evt p_sec p_vid ?_
      assumption
    · assumption

theorem ctxCreateAct_only (p_regs : e .regs) (p_evt : e .evt) (p_ldg : e .ldg) (p_obj : e .obj) (p_mem : e .mem) (p_vid : e
    .vid) {x1i} (h : Only e a d) : ActOnly e a (ctxCreateAct d x1i) := by
  unfold ctxCreateAct
  extract_lets +onlyGivenNames x1
  refine ActOnly.bind (fun w2 y2 => ?_)
  refine ActOnly.bind (fun w3 y3 => ?_)
  extract_lets +onlyGivenNames x4
  extract_lets +onlyGivenNames x5
  extract_lets +onlyGivenNames x6
  extract_lets +onlyGivenNames x7
  extract_lets +onlyGivenNames x8
  extract_lets +onlyGivenNames x9
  extract_lets +onlyGivenNames x10
  extract_lets +onlyGivenNames x11
  extract_lets +onlyGivenNames x12
  extract_lets +onlyGivenNames x13
  refine ActOnly.bind (fun w14 y14 => ?_)
  refine ActOnly.bind (fun w15 y15 => ?_)
  refine ActOnly.bind (fun w16 y16 => ?_)
  extract_lets +onlyGivenNames x17
  extract_lets +onlyGivenNames x18
  extract_lets +onlyGivenNames x19
  extract_lets +onlyGivenNames x20
  extract_lets +onlyGivenNames x21
  split
  · exact trivial
  · exact trivial
  · split
    · exact trivial
    · extract_lets +onlyGivenNames x22
      extract_lets +onlyGivenNames x23
      have h23 : Only e a x23 := by
        unfold x23
        refine takeArena_only p_regs p_evt p_ldg p_mem ?_
        refine book_only p_regs p_evt p_ldg ?_
        assumption
      try clear_value x23
      extract_lets +onlyGivenNames x24
      have h24 : Only e a x24 := by
        unfold x24
        refine addObj_only p_obj ?_
        assumption
      try clear_value x24
      refine (show Only e a _ from ?_)
      refine Only.vidUpd p_vid ?_ _
      assumption

theorem sweepArenas_only (p_regs : e .regs) (p_evt : e .evt) (p_ldg : e .ldg) (p_mem : e .mem) (p_vid : e .vid) (h : Only e
    a d) : Only e a (sweepArenas d) := by
  unfold sweepArenas
  extract_lets +onlyGivenNames x1
  refine Only.foldl ?_ (fun d2 y2 h2 => ?_)
  · assumption
  · refine dropArena_only p_regs p_evt p_ldg p_mem ?_
    refine Only.vidUpd p_vid ?_ _
    assumption

theorem refreshIntervalEnd_only (p_regs : e .regs) (p_out : e .out) (p_hif : e .hif) (p_evt : e .evt) (p_sec : e .sec)
    (p_fwd : e .fwd) (p_vid : e .vid) {x1i} (h : Only e a d) : Only e a (refreshIntervalEnd d x1i) := by
  unfold refreshIntervalEnd
  split
  · split
    · split
      · refine sendCtxRefresh_only p_evt p_sec p_vid ?_
        assumption
      · assumption
    · assumption
  · split
    · split
      · refine sendRefresh_only p_regs p_out p_hif p_sec p_fwd ?_
        assumption
      · assumption
    · assumption
  · assumption

theorem withSurf_some (p_regs : e .regs) (p_out : e .out) (p_hif : e .hif) (p_hbm : e .hbm) (p_mem : e .mem) (p_vid : e
    .vid) {k i r} (q : withSurf d k i = some r) (h : Only e a d) : Only e a r.1 := by
  unfold withSurf at q
  split at q
  · cases q
  · split at q
    · cases q
    · split at q
      · cases q
        exact h
      · split at q
        · cases q
        · cases q
          dsimp only
          refine newSurf_only p_regs p_out p_hif p_hbm p_mem ?_
          refine modPic_only p_vid ?_
          assumption

theorem codedTiles_only (p_regs : e .regs) (p_out : e .out) (p_hif : e .hif) (p_hbm : e .hbm) (p_mem : e .mem) {x1i x2i x3i
    x4i x5i} (h : Only e a d) : Only e a (codedTiles d x1i x2i x3i x4i x5i) := by
  unfold codedTiles
  refine Only.foldl ?_ (fun d1 y1 h1 => ?_)
  · assumption
  · refine writeTile_only p_regs p_out p_hif p_hbm p_mem ?_
    assumption

theorem runPixel_only (p_regs : e .regs) (p_out : e .out) (p_hif : e .hif) (p_evt : e .evt) (p_dlr : e .dlr) (p_hbm : e
    .hbm) (p_mem : e .mem) (p_vid : e .vid) {x1i x2i x3i x4i x5i x6i} (h : Only e a d) : Only e a (runPixel d x1i x2i x3i
    x4i x5i x6i) := by
  unfold runPixel
  split
  · refine putCard_only p_dlr ?_
    assumption
  · split
    · refine putCard_only p_dlr ?_
      assumption
    · split
      · assumption
      · split
        · assumption
        · extract_lets +onlyGivenNames x1
          extract_lets +onlyGivenNames x2
          refine putCard_only p_dlr ?_
          refine codedEffects_only p_regs p_evt p_vid ?_
          refine codedTiles_only p_regs p_out p_hif p_hbm p_mem ?_
          apply withSurf_some (r := (_, _)) p_regs p_out p_hif p_hbm p_mem p_vid <;> assumption

theorem pixelCard_only (p_regs : e .regs) (p_out : e .out) (p_hif : e .hif) (p_evt : e .evt) (p_dlr : e .dlr) (p_hbm : e
    .hbm) (p_mem : e .mem) (p_vid : e .vid) {x1i x2i x3i x4i} (h : Only e a d) : Only e a (pixelCard d x1i x2i x3i x4i) :=
    by
  unfold pixelCard
  split
  · assumption
  · split
    · refine runPixel_only p_regs p_out p_hif p_evt p_dlr p_hbm p_mem p_vid ?_
      assumption
    · refine runPixel_only p_regs p_out p_hif p_evt p_dlr p_hbm p_mem p_vid ?_
      assumption
    · refine runParse_only p_regs p_evt p_dlr p_vid ?_
      assumption
    · assumption

theorem ctuLimit_only (p_regs : e .regs) (p_out : e .out) (p_hif : e .hif) (p_evt : e .evt) (p_dlr : e .dlr) (p_hbm : e
    .hbm) (p_mem : e .mem) (p_vid : e .vid) {x1i x2i x3i} (h : Only e a d) : Only e a (ctuLimit d x1i x2i x3i) := by
  unfold ctuLimit
  split
  · assumption
  · extract_lets +onlyGivenNames x1
    have h1 : Only e a x1 := by
      unfold x1
      refine pixelCard_only p_regs p_out p_hif p_evt p_dlr p_hbm p_mem p_vid ?_
      assumption
    try clear_value x1
    extract_lets +onlyGivenNames x2
    split
    · unfold x2
      split
      · split
        · assumption
        · split
          · assumption
          · split
            · refine raiseOnce_only p_evt ?_
              refine cnt_only p_regs ?_
              assumption
            · assumption
      · assumption
    · unfold x2
      split
      · split
        · assumption
        · split
          · assumption
          · split
            · refine raiseOnce_only p_evt ?_
              refine cnt_only p_regs ?_
              assumption
            · assumption
      · assumption
    · unfold x2
      split
      · split
        · assumption
        · split
          · assumption
          · split
            · refine raiseOnce_only p_evt ?_
              refine cnt_only p_regs ?_
              assumption
            · assumption
      · assumption
    · assumption

theorem finishSurf_only (p_regs : e .regs) (p_out : e .out) (p_hif : e .hif) (p_hbm : e .hbm) (p_mem : e .mem) (p_vid : e
    .vid) {x1i x2i x3i} (h : Only e a d) : Only e a (finishSurf d x1i x2i x3i) := by
  unfold finishSurf
  split
  · assumption
  · split
    · refine writePyramid_only p_regs p_out p_hif p_hbm p_mem ?_
      refine concealAbsent_only p_regs p_out p_hif p_hbm p_mem ?_
      apply withSurf_some (r := (_, _)) p_regs p_out p_hif p_hbm p_mem p_vid <;> assumption
    · assumption

theorem concealCard_only (p_regs : e .regs) (p_out : e .out) (p_hif : e .hif) (p_evt : e .evt) (p_dlr : e .dlr) (p_hbm : e
    .hbm) (p_mem : e .mem) (p_vid : e .vid) {x1i x2i} (h : Only e a d) : Only e a (concealCard d x1i x2i) := by
  unfold concealCard
  split
  · assumption
  · split
    · split
      · split
        · extract_lets +onlyGivenNames x1
          extract_lets +onlyGivenNames x2
          have h2 : Only e a x2 := by
            unfold x2
            refine writePyramid_only p_regs p_out p_hif p_hbm p_mem ?_
            refine concealAbsent_only p_regs p_out p_hif p_hbm p_mem ?_
            apply withSurf_some (r := (_, _)) p_regs p_out p_hif p_hbm p_mem p_vid <;> assumption
          try clear_value x2
          extract_lets +onlyGivenNames x3
          have h3 : Only e a x3 := by
            unfold x3
            refine cnt_only p_regs ?_
            refine codedEffects_only p_regs p_evt p_vid ?_
            assumption
          try clear_value x3
          refine putCard_only p_dlr ?_
          refine modPic_only p_vid ?_
          assumption
        · refine putCard_only p_dlr ?_
          apply withSurf_some (r := (_, _)) p_regs p_out p_hif p_hbm p_mem p_vid <;> assumption
      · split
        · assumption
        · refine putCard_only p_dlr ?_
          assumption
    · assumption

theorem startAfter_only (p_regs : e .regs) (p_out : e .out) (p_hif : e .hif) (p_evt : e .evt) (p_ldg : e .ldg) (p_dlr : e
    .dlr) (p_cores : e .cores) (p_pke : e .pke) (p_dma : e .dma) (p_fwd : e .fwd) (p_aud : e .aud) (p_vid : e .vid) (p_sys :
    e .sys) {x0i x2i} (h : Only e a d) : Only e a (startAfter x0i d x2i) := by
  unfold startAfter
  split
  · assumption
  · split
    · refine addSucc_only p_dlr ?_
      refine putCard_only p_dlr ?_
      assumption
    · refine runTasks_only p_regs p_out p_hif p_evt p_ldg p_dlr p_cores p_pke p_dma p_fwd p_aud p_vid p_sys ?_
      refine putCard_only p_dlr ?_
      assumption

theorem picLimit_only (p_regs : e .regs) (p_out : e .out) (p_hif : e .hif) (p_evt : e .evt) (p_ldg : e .ldg) (p_dlr : e
    .dlr) (p_cores : e .cores) (p_pke : e .pke) (p_dma : e .dma) (p_fwd : e .fwd) (p_aud : e .aud) (p_vid : e .vid) (p_sys :
    e .sys) {x1i x2i x3i} (h : Only e a d) : Only e a (picLimit d x1i x2i x3i) := by
  unfold picLimit
  split
  · assumption
  · split
    · assumption
    · extract_lets +onlyGivenNames x1
      split
      · assumption
      · extract_lets +onlyGivenNames x2
        have h2 : Only e a x2 := by
          unfold x2
          refine modPic_only p_vid ?_
          assumption
        try clear_value x2
        extract_lets +onlyGivenNames x3
        have h3 : Only e a x3 := by
          unfold x3
          refine raiseOnce_only p_evt ?_
          assumption
        try clear_value x3
        refine Only.foldl ?_ (fun d4 y4 h4 => ?_)
        · assumption
        · split
          · split
            · refine cancelCard_only p_regs p_out p_hif p_evt p_ldg p_dlr p_cores p_pke p_dma p_fwd p_aud p_vid p_sys ?_
              assumption
            · assumption
          · assumption

theorem discardPic_only (p_regs : e .regs) (p_out : e .out) (p_hif : e .hif) (p_evt : e .evt) (p_ldg : e .ldg) (p_dlr : e
    .dlr) (p_cores : e .cores) (p_pke : e .pke) (p_dma : e .dma) (p_fwd : e .fwd) (p_aud : e .aud) (p_vid : e .vid) (p_sys :
    e .sys) {x1i x2i} (h : Only e a d) : Only e a (discardPic d x1i x2i) := by
  unfold discardPic
  split
  · assumption
  · extract_lets +onlyGivenNames x1
    extract_lets +onlyGivenNames x2
    extract_lets +onlyGivenNames x3
    have h3 : Only e a x3 := by
      unfold x3
      (clear_value x1; split)
      · refine Only.foldl ?_ (fun d4 y4 h4 => ?_)
        · assumption
        · refine addSucc_only p_dlr ?_
          assumption
      · assumption
    try clear_value x3
    extract_lets +onlyGivenNames x5
    have h5 : Only e a x5 := by
      unfold x5
      refine modCtx_only p_vid ?_
      assumption
    try clear_value x5
    refine Only.foldl ?_ (fun d6 y6 h6 => ?_)
    · assumption
    · refine cancelCard_only p_regs p_out p_hif p_evt p_ldg p_dlr p_cores p_pke p_dma p_fwd p_aud p_vid p_sys ?_
      assumption

theorem skipBacklog_only (p_regs : e .regs) (p_out : e .out) (p_hif : e .hif) (p_evt : e .evt) (p_ldg : e .ldg) (p_dlr : e
    .dlr) (p_cores : e .cores) (p_pke : e .pke) (p_dma : e .dma) (p_fwd : e .fwd) (p_aud : e .aud) (p_vid : e .vid) (p_sys :
    e .sys) {x1i} (h : Only e a d) : Only e a (skipBacklog d x1i) := by
  unfold skipBacklog
  split
  · assumption
  · extract_lets +onlyGivenNames x1
    split
    · assumption
    · split
      · assumption
      · refine raiseOnce_only p_evt ?_
        refine discardPic_only p_regs p_out p_hif p_evt p_ldg p_dlr p_cores p_pke p_dma p_fwd p_aud p_vid p_sys ?_
        assumption

theorem flushCtx_only (p_regs : e .regs) (p_out : e .out) (p_hif : e .hif) (p_evt : e .evt) (p_ldg : e .ldg) (p_dlr : e
    .dlr) (p_cores : e .cores) (p_pke : e .pke) (p_dma : e .dma) (p_fwd : e .fwd) (p_aud : e .aud) (p_vid : e .vid) (p_sys :
    e .sys) {x1i} (h : Only e a d) : Only e a (flushCtx d x1i) := by
  unfold flushCtx
  split
  · assumption
  · extract_lets +onlyGivenNames x1
    extract_lets +onlyGivenNames x2
    extract_lets +onlyGivenNames x3
    refine modCtx_only p_vid ?_
    refine Only.foldl ?_ (fun d4 y4 h4 => ?_)
    · assumption
    · refine discardPic_only p_regs p_out p_hif p_evt p_ldg p_dlr p_cores p_pke p_dma p_fwd p_aud p_vid p_sys ?_
      assumption

theorem buildCard_only (p_regs : e .regs) (p_out : e .out) (p_hif : e .hif) (p_evt : e .evt) (p_ldg : e .ldg) (p_dlr : e
    .dlr) (p_cores : e .cores) (p_pke : e .pke) (p_dma : e .dma) (p_fwd : e .fwd) (p_aud : e .aud) (p_vid : e .vid) (p_sys :
    e .sys) {x1i x2i} (h : Only e a d) : Only e a (buildCard d x1i x2i).1 := by
  unfold buildCard
  dsimp only
  refine fwCard_only p_regs p_out p_hif p_evt p_ldg p_dlr p_cores p_pke p_dma p_fwd p_aud p_vid p_sys ?_
  assumption

theorem finishPicture_only (p_regs : e .regs) (p_out : e .out) (p_hif : e .hif) (p_evt : e .evt) (p_ldg : e .ldg) (p_dlr : e
    .dlr) (p_cores : e .cores) (p_pke : e .pke) (p_sec : e .sec) (p_hbm : e .hbm) (p_mem : e .mem) (p_dma : e .dma) (p_fwd :
    e .fwd) (p_aud : e .aud) (p_vid : e .vid) (p_sys : e .sys) {x1i x2i} (h : Only e a d) : Only e a (finishPicture d x1i
    x2i) := by
  unfold finishPicture
  split
  · assumption
  · split
    · assumption
    · extract_lets +onlyGivenNames x2
      have h2 : Only e a x2 := by
        unfold x2
        refine finishSurf_only p_regs p_out p_hif p_hbm p_mem p_vid ?_
        assumption
      try clear_value x2
      extract_lets +onlyGivenNames x1
      extract_lets +onlyGivenNames x3
      extract_lets +onlyGivenNames x4
      extract_lets +onlyGivenNames x5
      extract_lets +onlyGivenNames x6
      extract_lets +onlyGivenNames x7
      extract_lets +onlyGivenNames x8
      have h8 : Only e a x8 := by
        unfold x8
        refine modCtx_only p_vid ?_
        assumption
      try clear_value x8
      extract_lets +onlyGivenNames x9
      have h9 : Only e a x9 := by
        unfold x9
        split
        · assumption
        · refine pictureOutcome_only p_evt p_sec p_vid ?_
          assumption
      try clear_value x9
      split
      · extract_lets +onlyGivenNames x10
        refine fwCard_only p_regs p_out p_hif p_evt p_ldg p_dlr p_cores p_pke p_dma p_fwd p_aud p_vid p_sys ?_
        assumption
      · assumption

theorem finishCard_only (p_regs : e .regs) (p_out : e .out) (p_hif : e .hif) (p_evt : e .evt) (p_ldg : e .ldg) (p_dlr : e
    .dlr) (p_cores : e .cores) (p_pke : e .pke) (p_sec : e .sec) (p_hbm : e .hbm) (p_mem : e .mem) (p_dma : e .dma) (p_fwd :
    e .fwd) (p_aud : e .aud) (p_vid : e .vid) (p_sys : e .sys) {x1i} (h : Only e a d) : Only e a (finishCard d x1i) := by
  unfold finishCard
  split
  · assumption
  · split
    · split
      · assumption
      · refine putCard_only p_dlr ?_
        refine finishPicture_only p_regs p_out p_hif p_evt p_ldg p_dlr p_cores p_pke p_sec p_hbm p_mem p_dma p_fwd p_aud
            p_vid p_sys ?_
        assumption
    · assumption

theorem ctxRefreshAct_only (p_regs : e .regs) (p_out : e .out) (p_hif : e .hif) (p_evt : e .evt) (p_ldg : e .ldg) (p_dlr : e
    .dlr) (p_cores : e .cores) (p_pke : e .pke) (p_sec : e .sec) (p_dma : e .dma) (p_fwd : e .fwd) (p_aud : e .aud) (p_vid :
    e .vid) (p_sys : e .sys) {x1i} (h : Only e a d) : ActOnly e a (ctxRefreshAct d x1i) := by
  unfold ctxRefreshAct
  extract_lets +onlyGivenNames x1
  refine ActOnly.bind (fun w2 y2 => ?_)
  refine ActOnly.bind (fun w3 y3 => ?_)
  refine ActOnly.bind (fun w4 y4 => ?_)
  extract_lets +onlyGivenNames x5
  have h5 : Only e a x5 := by
    unfold x5
    split
    · assumption
    · refine flushCtx_only p_regs p_out p_hif p_evt p_ldg p_dlr p_cores p_pke p_dma p_fwd p_aud p_vid p_sys ?_
      assumption
  try clear_value x5
  extract_lets +onlyGivenNames x6
  extract_lets +onlyGivenNames x7
  have h7 : Only e a x7.1 := by
    unfold x7
    refine askRefresh_only p_evt p_sec p_vid ?_
    assumption
  try clear_value x7
  refine (show Only e a _ from ?_)
  assumption

theorem buildPixel_only (p_regs : e .regs) (p_out : e .out) (p_hif : e .hif) (p_evt : e .evt) (p_ldg : e .ldg) (p_dlr : e
    .dlr) (p_cores : e .cores) (p_pke : e .pke) (p_dma : e .dma) (p_fwd : e .fwd) (p_aud : e .aud) (p_vid : e .vid) (p_sys :
    e .sys) {b w y z n i l} (h : Only e a d) : Only e a (buildPixel b w y z n i l d).1 := by
  induction n generalizing d i l with
  | zero => exact h
  | succ n ih =>
    unfold buildPixel
    extract_lets +onlyGivenNames x1
    extract_lets +onlyGivenNames x2
    have h2 : Only e a x2.1 := by
      unfold x2
      refine buildCard_only p_regs p_out p_hif p_evt p_ldg p_dlr p_cores p_pke p_dma p_fwd p_aud p_vid p_sys ?_
      assumption
    try clear_value x2
    extract_lets +onlyGivenNames x3
    have h3 : Only e a x3.1 := by
      unfold x3
      refine ih ?_
      assumption
    try clear_value x3
    dsimp only
    assumption

theorem buildPicture_only (p_regs : e .regs) (p_out : e .out) (p_hif : e .hif) (p_evt : e .evt) (p_ldg : e .ldg) (p_dlr : e
    .dlr) (p_cores : e .cores) (p_pke : e .pke) (p_dma : e .dma) (p_fwd : e .fwd) (p_aud : e .aud) (p_vid : e .vid) (p_sys :
    e .sys) {x1i x2i x3i} (h : Only e a d) : Only e a (buildPicture d x1i x2i x3i) := by
  unfold buildPicture
  extract_lets +onlyGivenNames x1
  extract_lets +onlyGivenNames x2
  extract_lets +onlyGivenNames x3
  extract_lets +onlyGivenNames x4
  extract_lets +onlyGivenNames x5
  extract_lets +onlyGivenNames x6
  extract_lets +onlyGivenNames x7
  extract_lets +onlyGivenNames x8
  have h8 : Only e a x8.1 := by
    unfold x8
    refine buildCard_only p_regs p_out p_hif p_evt p_ldg p_dlr p_cores p_pke p_dma p_fwd p_aud p_vid p_sys ?_
    assumption
  try clear_value x8
  extract_lets +onlyGivenNames x9
  extract_lets +onlyGivenNames x10
  have h10 : Only e a x10 := by
    unfold x10
    refine modPic_only p_vid ?_
    assumption
  try clear_value x10
  split
  · extract_lets +onlyGivenNames x11
    have h11 : Only e a x11.1 := by
      unfold x11
      refine buildPixel_only p_regs p_out p_hif p_evt p_ldg p_dlr p_cores p_pke p_dma p_fwd p_aud p_vid p_sys ?_
      assumption
    try clear_value x11
    refine Only.foldl ?_ (fun d12 y12 h12 => ?_)
    · refine modPic_only p_vid ?_
      assumption
    · refine startAfter_only p_regs p_out p_hif p_evt p_ldg p_dlr p_cores p_pke p_dma p_fwd p_aud p_vid p_sys ?_
      assumption
  · extract_lets +onlyGivenNames x13
    extract_lets +onlyGivenNames x14
    have h14 : Only e a x14.1 := by
      unfold x14
      refine buildCard_only p_regs p_out p_hif p_evt p_ldg p_dlr p_cores p_pke p_dma p_fwd p_aud p_vid p_sys ?_
      assumption
    try clear_value x14
    extract_lets +onlyGivenNames x15
    have h15 : Only e a x15.1 := by
      unfold x15
      refine buildPixel_only p_regs p_out p_hif p_evt p_ldg p_dlr p_cores p_pke p_dma p_fwd p_aud p_vid p_sys ?_
      assumption
    try clear_value x15
    extract_lets +onlyGivenNames x16
    have h16 : Only e a x16 := by
      unfold x16
      split
      · refine Only.foldl ?_ (fun d17 y17 h17 => ?_)
        · refine putCard_only p_dlr ?_
          assumption
        · split
          · refine putCard_only p_dlr ?_
            assumption
          · assumption
      · assumption
    try clear_value x16
    refine startAfter_only p_regs p_out p_hif p_evt p_ldg p_dlr p_cores p_pke p_dma p_fwd p_aud p_vid p_sys ?_
    refine modPic_only p_vid ?_
    assumption

theorem pictureReady_only (p_regs : e .regs) (p_freeCtr : e .freeCtr) (p_out : e .out) (p_hif : e .hif) (p_evt : e .evt)
    (p_ldg : e .ldg) (p_dlr : e .dlr) (p_cores : e .cores) (p_pke : e .pke) (p_sec : e .sec) (p_dma : e .dma) (p_fwd : e
    .fwd) (p_aud : e .aud) (p_vid : e .vid) (p_sys : e .sys) {x1i x2i} (h : Only e a d) : Only e a (pictureReady d x1i x2i)
    := by
  unfold pictureReady
  split
  · assumption
  · split
    · assumption
    · extract_lets +onlyGivenNames x1
      split
      · assumption
      · extract_lets +onlyGivenNames x2
        extract_lets +onlyGivenNames x3
        extract_lets +onlyGivenNames x4
        have h4 : Only e a x4 := by
          unfold x4
          refine takePkts_only p_vid ?_
          assumption
        try clear_value x4
        extract_lets +onlyGivenNames x5
        have h5 : Only e a x5 := by
          unfold x5
          split
          · assumption
          · refine raiseOnce_only p_evt ?_
            assumption
        try clear_value x5
        extract_lets +onlyGivenNames x6
        extract_lets +onlyGivenNames x7
        split
        · refine pictureOutcome_only p_evt p_sec p_vid ?_
          refine raiseOnce_only p_evt ?_
          assumption
        · split
          · extract_lets +onlyGivenNames x8
            have h8 : Only e a x8.2 := by
              unfold x8
              refine drawFree_only p_freeCtr ?_
              assumption
            try clear_value x8
            refine pictureOutcome_only p_evt p_sec p_vid ?_
            refine raiseOnce_only p_evt ?_
            assumption
          · (clear_value x7; split)
            · refine raiseOnce_only p_evt ?_
              refine modCtx_only p_vid ?_
              assumption
            · split
              · assumption
              · extract_lets +onlyGivenNames x9
                extract_lets +onlyGivenNames x10
                extract_lets +onlyGivenNames x11
                extract_lets +onlyGivenNames x12
                have h12 : Only e a x12 := by
                  unfold x12
                  split
                  · refine raiseOnce_only p_evt ?_
                    assumption
                  · assumption
                try clear_value x12
                extract_lets +onlyGivenNames x13
                extract_lets +onlyGivenNames x14
                have h14 : Only e a x14 := by
                  unfold x14
                  refine modCtx_only p_vid ?_
                  assumption
                try clear_value x14
                refine skipBacklog_only p_regs p_out p_hif p_evt p_ldg p_dlr p_cores p_pke p_dma p_fwd p_aud p_vid p_sys ?_
                refine buildPicture_only p_regs p_out p_hif p_evt p_ldg p_dlr p_cores p_pke p_dma p_fwd p_aud p_vid p_sys ?_
                assumption

/-! ### Layers -/

theorem writeBand_only (p_regs : e .regs) (p_out : e .out) (p_hif : e .hif) (p_hbm : e .hbm) (p_mem : e .mem) {x1i x2i x3i
    x4i} (h : Only e a d) : Only e a (writeBand d x1i x2i x3i x4i) := by
  unfold writeBand
  refine Only.foldl ?_ (fun d1 y1 h1 => ?_)
  · assumption
  · extract_lets +onlyGivenNames x2
    extract_lets +onlyGivenNames x3
    extract_lets +onlyGivenNames x4
    refine Only.foldl ?_ (fun d5 y5 h5 => ?_)
    · assumption
    · extract_lets +onlyGivenNames x6
      extract_lets +onlyGivenNames x7
      refine writeTile_only p_regs p_out p_hif p_hbm p_mem ?_
      assumption

/-! ### Compose -/

theorem layoutCommitAct_only (p_vid : e .vid) {x1i} (h : Only e a d) : ActOnly e a (layoutCommitAct d x1i) := by
  unfold layoutCommitAct
  extract_lets +onlyGivenNames x1
  extract_lets +onlyGivenNames x2
  refine ActOnly.bind (fun w3 y3 => ?_)
  extract_lets +onlyGivenNames x4
  extract_lets +onlyGivenNames x5
  refine ActOnly.bind (fun w6 y6 => ?_)
  extract_lets +onlyGivenNames x7
  split
  · exact trivial
  · extract_lets +onlyGivenNames x8
    extract_lets +onlyGivenNames x9
    refine (show Only e a _ from ?_)
    refine modLayout_only p_vid ?_
    assumption

theorem addPic_only (p_vid : e .vid) {x1i x2i} (h : Only e a d) : Only e a (addPic d x1i x2i) := by
  unfold addPic
  refine modEnc_only p_vid ?_
  assumption

theorem latchLayer_only (p_regs : e .regs) (p_evt : e .evt) {x1i x2i x3i x4i} (h : Only e a d) : Only e a (latchLayer d x1i
    x2i x3i x4i).1 := by
  unfold latchLayer
  split
  · dsimp only
    assumption
  · extract_lets +onlyGivenNames x1
    extract_lets +onlyGivenNames x2
    extract_lets +onlyGivenNames x3
    (clear_value x3; split)
    · extract_lets +onlyGivenNames x4
      extract_lets +onlyGivenNames x5
      extract_lets +onlyGivenNames x6
      extract_lets +onlyGivenNames x7
      have h7 : Only e a x7 := by
        unfold x7
        split
        · refine cnt_only p_regs ?_
          assumption
        · assumption
      try clear_value x7
      extract_lets +onlyGivenNames x8
      have h8 : Only e a x8 := by
        unfold x8
        split
        · refine raiseOnce_only p_evt ?_
          assumption
        · assumption
      try clear_value x8
      extract_lets +onlyGivenNames x9
      dsimp only
      assumption
    · extract_lets +onlyGivenNames x10
      extract_lets +onlyGivenNames x11
      have h11 : Only e a x11 := by
        unfold x11
        split
        · refine raiseOnce_only p_evt ?_
          assumption
        · assumption
      try clear_value x11
      extract_lets +onlyGivenNames x12
      have h12 : Only e a x12 := by
        unfold x12
        refine cnt_only p_regs ?_
        assumption
      try clear_value x12
      extract_lets +onlyGivenNames x13
      have h13 : Only e a x13 := by
        unfold x13
        split
        · assumption
        · refine raiseOnce_only p_evt ?_
          assumption
      try clear_value x13
      dsimp only
      assumption

theorem skipFrame_only (p_regs : e .regs) (p_evt : e .evt) (p_vid : e .vid) {x1i x2i x3i} (h : Only e a d) : Only e a
    (skipFrame d x1i x2i x3i) := by
  unfold skipFrame
  extract_lets +onlyGivenNames x1
  have h1 : Only e a x1 := by
    unfold x1
    refine copySkip_only p_regs p_evt ?_
    assumption
  try clear_value x1
  split
  · refine addPic_only p_vid ?_
    assumption
  · assumption

theorem reportTiles_only (p_regs : e .regs) (p_evt : e .evt) {x1i x2i x3i} (h : Only e a d) : Only e a
    (reportTiles d x1i x2i x3i) := by
  unfold reportTiles
  refine Only.foldl ?_ (fun d1 y1 h1 => ?_)
  · assumption
  · refine Only.foldl ?_ (fun d2 y2 h2 => ?_)
    · assumption
    · refine raiseOnce_only p_evt ?_
      refine cnt_only p_regs ?_
      assumption

theorem latchAll_only (p_regs : e .regs) (p_evt : e .evt) {y l} (h : Only e a d) : Only e a (latchAll y l d).1 := by
  induction l generalizing d with
  | nil => exact h
  | cons y ys ih =>
    unfold latchAll
    extract_lets +onlyGivenNames x1
    have h1 : Only e a x1.1 := by
      unfold x1
      refine latchLayer_only p_regs p_evt ?_
      assumption
    try clear_value x1
    extract_lets +onlyGivenNames x2
    have h2 : Only e a x2.1 := by
      unfold x2
      refine ih ?_
      assumption
    try clear_value x2
    dsimp only
    assumption

theorem releaseLayout_only (p_regs : e .regs) (p_evt : e .evt) (p_ldg : e .ldg) (p_vid : e .vid) {x1i} (h : Only e a d) :
    Only e a (releaseLayout d x1i) := by
  unfold releaseLayout
  extract_lets +onlyGivenNames x1
  refine Only.foldl ?_ (fun d2 y2 h2 => ?_)
  · refine Only.vidUpd p_vid ?_ _
    assumption
  · refine ledgGive_only p_regs p_evt p_ldg ?_
    assumption

theorem layoutCreateAct_only (p_regs : e .regs) (p_evt : e .evt) (p_ldg : e .ldg) (p_obj : e .obj) (p_mem : e .mem) (p_vid :
    e .vid) {x1i} (h : Only e a d) : ActOnly e a (layoutCreateAct d x1i) := by
  unfold layoutCreateAct
  extract_lets +onlyGivenNames x1
  refine ActOnly.bind (fun w2 y2 => ?_)
  refine ActOnly.bind (fun w3 y3 => ?_)
  extract_lets +onlyGivenNames x4
  extract_lets +onlyGivenNames x5
  extract_lets +onlyGivenNames x6
  extract_lets +onlyGivenNames x7
  extract_lets +onlyGivenNames x8
  extract_lets +onlyGivenNames x9
  refine ActOnly.bind (fun w10 y10 => ?_)
  extract_lets +onlyGivenNames x11
  extract_lets +onlyGivenNames x12
  extract_lets +onlyGivenNames x13
  extract_lets +onlyGivenNames x14
  extract_lets +onlyGivenNames x15
  split
  · exact trivial
  · exact trivial
  · split
    · exact trivial
    · split
      · exact trivial
      · extract_lets +onlyGivenNames x16
        extract_lets +onlyGivenNames x17
        extract_lets +onlyGivenNames x18
        have h18 : Only e a x18 := by
          unfold x18
          refine book_only p_regs p_evt p_ldg ?_
          assumption
        try clear_value x18
        extract_lets +onlyGivenNames x19
        have h19 : Only e a x19 := by
          unfold x19
          split
          · assumption
          · refine takeArena_only p_regs p_evt p_ldg p_mem ?_
            assumption
        try clear_value x19
        extract_lets +onlyGivenNames x20
        have h20 : Only e a x20 := by
          unfold x20
          refine addObj_only p_obj ?_
          assumption
        try clear_value x20
        refine (show Only e a _ from ?_)
        refine Only.vidUpd p_vid ?_ _
        assumption

theorem phaseLatch_only (p_regs : e .regs) (p_out : e .out) (p_hif : e .hif) (p_evt : e .evt) (p_hbm : e .hbm) (p_mem : e
    .mem) (p_vid : e .vid) {x1i} (h : Only e a d) : Only e a (phaseLatch d x1i) := by
  unfold phaseLatch
  split
  · assumption
  · extract_lets +onlyGivenNames x1
    split
    · assumption
    · extract_lets +onlyGivenNames x2
      extract_lets +onlyGivenNames x3
      have h3 : Only e a x3 := by
        unfold x3
        refine modLayout_only p_vid ?_
        assumption
      try clear_value x3
      split
      · assumption
      · extract_lets +onlyGivenNames x4
        have h4 : Only e a x4.1 := by
          unfold x4
          refine latchAll_only p_regs p_evt ?_
          assumption
        try clear_value x4
        extract_lets +onlyGivenNames x5
        extract_lets +onlyGivenNames x6
        have h6 : Only e a x6 := by
          unfold x6
          split
          · refine copySkip_only p_regs p_evt ?_
            assumption
          · assumption
        try clear_value x6
        extract_lets +onlyGivenNames x7
        have h7 : Only e a x7 := by
          unfold x7
          (clear_value x5; split)
          · refine newSurf_only p_regs p_out p_hif p_hbm p_mem ?_
            assumption
          · assumption
        try clear_value x7
        extract_lets +onlyGivenNames x8
        refine modLayout_only p_vid ?_
        assumption

theorem layoutShadowAct_only (p_regs : e .regs) (p_out : e .out) (p_hif : e .hif) (p_hbm : e .hbm) (p_mem : e .mem) (p_vid :
    e .vid) {x0i x2i} (h : Only e a d) : ActOnly e a (layoutShadowAct x0i d x2i) := by
  unfold layoutShadowAct
  extract_lets +onlyGivenNames x1
  extract_lets +onlyGivenNames x2
  refine ActOnly.bind (fun w3 y3 => ?_)
  extract_lets +onlyGivenNames x4
  extract_lets +onlyGivenNames x5
  extract_lets +onlyGivenNames x6
  extract_lets +onlyGivenNames x7
  extract_lets +onlyGivenNames x8
  refine ActOnly.bind (fun w9 y9 => ?_)
  split
  · refine (show Only e a _ from ?_)
    refine modLayout_only p_vid ?_
    assumption
  · split
    · exact trivial
    · split
      · extract_lets +onlyGivenNames x10
        refine ActOnly.bind (fun w11 y11 => ?_)
        refine (show Only e a _ from ?_)
        refine modLayout_only p_vid ?_
        assumption
      · extract_lets +onlyGivenNames x12
        have h12 : Only e a x12 := by
          unfold x12
          refine storeImage_only p_regs p_out p_hif p_hbm p_mem ?_
          assumption
        try clear_value x12
        refine (show Only e a _ from ?_)
        refine modLayout_only p_vid ?_
        assumption

theorem composeBand_only (p_regs : e .regs) (p_out : e .out) (p_hif : e .hif) (p_evt : e .evt) (p_ldg : e .ldg) (p_dlr : e
    .dlr) (p_cores : e .cores) (p_pke : e .pke) (p_hbm : e .hbm) (p_mem : e .mem) (p_dma : e .dma) (p_fwd : e .fwd) (p_aud :
    e .aud) (p_vid : e .vid) (p_sys : e .sys) {x1i x2i} (h : Only e a d) : Only e a (composeBand d x1i x2i) := by
  unfold composeBand
  split
  · assumption
  · split
    · split
      · assumption
      · split
        · extract_lets +onlyGivenNames x1
          extract_lets +onlyGivenNames x2
          extract_lets +onlyGivenNames x3
          split
          · refine raiseOnce_only p_evt ?_
            refine cnt_only p_regs ?_
            assumption
          · extract_lets +onlyGivenNames x4
            extract_lets +onlyGivenNames x5
            have h5 : Only e a x5 := by
              unfold x5
              refine reportTiles_only p_regs p_evt ?_
              assumption
            try clear_value x5
            extract_lets +onlyGivenNames x6
            have h6 : Only e a x6 := by
              unfold x6
              refine cnt_only p_regs ?_
              refine cnt_only p_regs ?_
              assumption
            try clear_value x6
            extract_lets +onlyGivenNames x7
            have h7 : Only e a x7 := by
              unfold x7
              split
              · refine writeBand_only p_regs p_out p_hif p_hbm p_mem ?_
                assumption
              · assumption
            try clear_value x7
            extract_lets +onlyGivenNames x8
            have h8 : Only e a x8 := by
              unfold x8
              refine ledgTake_only p_regs p_evt p_ldg ?_
              assumption
            try clear_value x8
            extract_lets +onlyGivenNames x9
            extract_lets +onlyGivenNames x10
            have h10 : Only e a x10 := by
              unfold x10
              split
              · refine Only.vidUpd p_vid ?_ _
                assumption
              · refine ledgGive_only p_regs p_evt p_ldg ?_
                assumption
            try clear_value x10
            refine completeCard_only p_regs p_out p_hif p_evt p_ldg p_dlr p_cores p_pke p_dma p_fwd p_aud p_vid p_sys ?_
            assumption
        · refine completeCard_only p_regs p_out p_hif p_evt p_ldg p_dlr p_cores p_pke p_dma p_fwd p_aud p_vid p_sys ?_
          assumption
    · assumption

theorem encodeBandCard_only (p_regs : e .regs) (p_out : e .out) (p_hif : e .hif) (p_evt : e .evt) (p_ldg : e .ldg) (p_dlr :
    e .dlr) (p_cores : e .cores) (p_pke : e .pke) (p_dma : e .dma) (p_fwd : e .fwd) (p_aud : e .aud) (p_vid : e .vid) (p_sys
    : e .sys) {x1i x2i x3i x4i} (h : Only e a d) : Only e a (encodeBandCard d x1i x2i x3i x4i).1 :=
    by
  unfold encodeBandCard
  refine buildCard_only p_regs p_out p_hif p_evt p_ldg p_dlr p_cores p_pke p_dma p_fwd p_aud p_vid p_sys ?_
  assumption

theorem buildBand_only (p_regs : e .regs) (p_out : e .out) (p_hif : e .hif) (p_evt : e .evt) (p_ldg : e .ldg) (p_dlr : e
    .dlr) (p_cores : e .cores) (p_pke : e .pke) (p_dma : e .dma) (p_fwd : e .fwd) (p_aud : e .aud) (p_vid : e .vid) (p_sys :
    e .sys) {x0i x1i x3i} (h : Only e a d) : Only e a (buildBand x0i x1i d x3i) := by
  unfold buildBand
  extract_lets +onlyGivenNames x1
  have h1 : Only e a x1.1 := by
    unfold x1
    split
    · extract_lets +onlyGivenNames x2
      have h2 : Only e a x2.1 := by
        unfold x2
        refine encodeBandCard_only p_regs p_out p_hif p_evt p_ldg p_dlr p_cores p_pke p_dma p_fwd p_aud p_vid p_sys ?_
        assumption
      try clear_value x2
      dsimp only
      assumption
    · dsimp only
      assumption
  try clear_value x1
  refine buildCard_only p_regs p_out p_hif p_evt p_ldg p_dlr p_cores p_pke p_dma p_fwd p_aud p_vid p_sys ?_
  assumption

theorem buildFrame_only (p_regs : e .regs) (p_out : e .out) (p_hif : e .hif) (p_evt : e .evt) (p_ldg : e .ldg) (p_dlr : e
    .dlr) (p_cores : e .cores) (p_pke : e .pke) (p_dma : e .dma) (p_fwd : e .fwd) (p_aud : e .aud) (p_vid : e .vid) (p_sys :
    e .sys) {x1i} (h : Only e a d) : Only e a (buildFrame d x1i) := by
  unfold buildFrame
  split
  · assumption
  · extract_lets +onlyGivenNames x1
    split
    · assumption
    · split
      · refine skipFrame_only p_regs p_evt p_vid ?_
        assumption
      · split
        · refine skipFrame_only p_regs p_evt p_vid ?_
          assumption
        · extract_lets +onlyGivenNames x2
          extract_lets +onlyGivenNames x3
          have h3 : Only e a x3 := by
            unfold x3
            refine modLayout_only p_vid ?_
            assumption
          try clear_value x3
          extract_lets +onlyGivenNames x4
          have h4 : Only e a x4 := by
            unfold x4
            split
            · refine addPic_only p_vid ?_
              assumption
            · assumption
          try clear_value x4
          refine Only.foldl ?_ (fun d5 y5 h5 => ?_)
          · assumption
          · refine buildBand_only p_regs p_out p_hif p_evt p_ldg p_dlr p_cores p_pke p_dma p_fwd p_aud p_vid p_sys ?_
            assumption

/-! ### Motion -/

theorem newRefs_only (p_regs : e .regs) (p_out : e .out) (p_hif : e .hif) (p_hbm : e .hbm) (p_mem : e .mem) {x1i x2i} (h :
    Only e a d) : Only e a (newRefs d x1i x2i) := by
  unfold newRefs
  refine Only.foldl ?_ (fun d1 y1 h1 => ?_)
  · assumption
  · refine newSurf_only p_regs p_out p_hif p_hbm p_mem ?_
    assumption

theorem writeRow_only (p_regs : e .regs) (p_out : e .out) (p_hif : e .hif) (p_hbm : e .hbm) (p_mem : e .mem) {x1i x2i x3i
    x4i x5i x6i} (h : Only e a d) : Only e a (writeRow d x1i x2i x3i x4i x5i x6i) := by
  unfold writeRow
  split
  · extract_lets +onlyGivenNames x1
    extract_lets +onlyGivenNames x2
    extract_lets +onlyGivenNames x3
    refine Only.foldl ?_ (fun d4 y4 h4 => ?_)
    · assumption
    · extract_lets +onlyGivenNames x5
      refine writeTile_only p_regs p_out p_hif p_hbm p_mem ?_
      assumption
  · assumption

theorem refPyramids_only (p_regs : e .regs) (p_out : e .out) (p_hif : e .hif) (p_hbm : e .hbm) (p_mem : e .mem) {x1i x2i} (h
    : Only e a d) : Only e a (refPyramids d x1i x2i) := by
  unfold refPyramids
  refine Only.foldl ?_ (fun d1 y1 h1 => ?_)
  · assumption
  · refine writePyramid_only p_regs p_out p_hif p_hbm p_mem ?_
    assumption

/-! ### Encode -/

theorem waveAfter_only (p_regs : e .regs) (p_evt : e .evt) {x1i x2i} (h : Only e a d) : Only e a (waveAfter d x1i x2i).1 :=
    by
  unfold waveAfter
  split
  · dsimp only
    assumption
  · extract_lets +onlyGivenNames x1
    extract_lets +onlyGivenNames x2
    have h2 : Only e a x2 := by
      unfold x2
      refine cnt_only p_regs ?_
      assumption
    try clear_value x2
    split
    · dsimp only
      refine raiseOnce_only p_evt ?_
      assumption
    · dsimp only
      assumption

theorem videoEncSet_only (p_vid : e .vid) {x1i x2i} (h : Only e a d) : ActOnly e a (videoEncSet d x1i x2i) := by
  unfold videoEncSet
  extract_lets +onlyGivenNames x1
  extract_lets +onlyGivenNames x2
  extract_lets +onlyGivenNames x3
  extract_lets +onlyGivenNames x4
  extract_lets +onlyGivenNames x5
  extract_lets +onlyGivenNames x6
  extract_lets +onlyGivenNames x7
  extract_lets +onlyGivenNames x8
  refine ActOnly.bind (fun w9 y9 => ?_)
  extract_lets +onlyGivenNames x10
  extract_lets +onlyGivenNames x11
  refine (show Only e a _ from ?_)
  refine modEnc_only p_vid ?_
  assumption

theorem takeRequest_only (p_evt : e .evt) {x1i x2i} (h : Only e a d) : Only e a (takeRequest d x1i x2i).1 := by
  unfold takeRequest
  split
  · dsimp only
    assumption
  · split
    · dsimp only
      assumption
    · dsimp only
      refine raiseOnce_only p_evt ?_
      assumption

theorem refError_only (p_regs : e .regs) (p_evt : e .evt) (p_vid : e .vid) {x1i x2i} (h : Only e a d) : Only e a (refError d
    x1i x2i) := by
  unfold refError
  extract_lets +onlyGivenNames x1
  have h1 : Only e a x1 := by
    unfold x1
    refine raiseOnce_only p_evt ?_
    refine cnt_only p_regs ?_
    assumption
  try clear_value x1
  refine modEnc_only p_vid ?_
  assumption

theorem cellWait_only (p_regs : e .regs) (p_evt : e .evt) {x1i x2i} (h : Only e a d) : Only e a (cellWait d x1i x2i) := by
  unfold cellWait
  split
  · assumption
  · split
    · split
      · assumption
      · extract_lets +onlyGivenNames x1
        refine raiseOnce_only p_evt ?_
        refine setF_only p_regs ?_
        refine cnt_only p_regs ?_
        assumption
    · split
      · split
        · refine cnt_only p_regs ?_
          assumption
        · assumption
      · assumption

theorem reportBudget_only (p_evt : e .evt) {x0i x1i x3i} (h : Only e a d) : Only e a (reportBudget x0i x1i d x3i) := by
  unfold reportBudget
  split
  · assumption
  · refine raiseOnce_only p_evt ?_
    assumption

theorem unitStep_only (p_regs : e .regs) (p_evt : e .evt) (p_vid : e .vid) {x0 x1 x2 p x4 x5} (h : Only e a p.1) : Only e a
    (unitStep x0 x1 x2 p x4 x5).1 := by
  unfold unitStep
  extract_lets d1 x v f
  change Only e a (match f.2 with | some t => refError d1 x0 t | none => d1)
  split
  · exact refError_only p_regs p_evt p_vid h
  · exact h

theorem startPicture_only (p_evt : e .evt) (p_vid : e .vid) {x1i x2i} (h : Only e a d) : Only e a (startPicture d x1i x2i) :=
    by
  unfold startPicture
  extract_lets +onlyGivenNames x1
  extract_lets +onlyGivenNames x2
  extract_lets +onlyGivenNames x3
  extract_lets +onlyGivenNames x4
  extract_lets +onlyGivenNames x5
  have h5 : Only e a x5.1 := by
    unfold x5
    refine takeRequest_only p_evt ?_
    assumption
  try clear_value x5
  extract_lets +onlyGivenNames x6
  have h6 : Only e a x6 := by
    unfold x6
    assumption
  try clear_value x6
  extract_lets +onlyGivenNames x7
  extract_lets +onlyGivenNames x8
  extract_lets +onlyGivenNames x9
  extract_lets +onlyGivenNames x10
  extract_lets +onlyGivenNames x11
  have h11 : Only e a x11 := by
    unfold x11
    split
    · refine raiseOnce_only p_evt ?_
      assumption
    · assumption
  try clear_value x11
  extract_lets +onlyGivenNames x12
  refine modEnc_only p_vid ?_
  assumption

theorem encPhase_only (p_evt : e .evt) (p_vid : e .vid) {x1i} (h : Only e a d) : Only e a (encPhase d x1i) := by
  unfold encPhase
  split
  · assumption
  · split
    · assumption
    · refine startPicture_only p_evt p_vid ?_
      assumption

theorem unitSteps_only (p_regs : e .regs) (p_evt : e .evt) (p_vid : e .vid) {x0 x1 x2 i l p} (h : Only e a p.1) : Only e a
    (unitSteps x0 x1 x2 i l p).1 := by
  induction l generalizing i p with
  | nil => exact h
  | cons y ys ih => exact ih (unitStep_only p_regs p_evt p_vid h)

theorem encSetAct_only (p_aud : e .aud) (p_vid : e .vid) {x1i} (h : Only e a d) : ActOnly e a (encSetAct d x1i) := by
  unfold encSetAct
  refine ActOnly.bind (fun w1 y1 => ?_)
  split
  · refine videoEncSet_only p_vid ?_
    assumption
  · refine audioEncSet_only p_aud ?_
    assumption
  · exact trivial

theorem videoEncCreate_only (p_regs : e .regs) (p_evt : e .evt) (p_ldg : e .ldg) (p_obj : e .obj) (p_mem : e .mem) (p_vid :
    e .vid) {x1i} (h : Only e a d) : ActOnly e a (videoEncCreate d x1i) := by
  unfold videoEncCreate
  extract_lets +onlyGivenNames x1
  refine ActOnly.bind (fun w2 y2 => ?_)
  refine ActOnly.bind (fun w3 y3 => ?_)
  refine ActOnly.bind (fun w4 y4 => ?_)
  extract_lets +onlyGivenNames x5
  extract_lets +onlyGivenNames x6
  extract_lets +onlyGivenNames x7
  extract_lets +onlyGivenNames x8
  extract_lets +onlyGivenNames x9
  extract_lets +onlyGivenNames x10
  extract_lets +onlyGivenNames x11
  extract_lets +onlyGivenNames x12
  extract_lets +onlyGivenNames x13
  extract_lets +onlyGivenNames x14
  extract_lets +onlyGivenNames x15
  extract_lets +onlyGivenNames x16
  refine ActOnly.bind (fun w17 y17 => ?_)
  extract_lets +onlyGivenNames x18
  extract_lets +onlyGivenNames x19
  extract_lets +onlyGivenNames x20
  extract_lets +onlyGivenNames x21
  extract_lets +onlyGivenNames x22
  extract_lets +onlyGivenNames x23
  split
  · exact trivial
  · exact trivial
  · split
    · exact trivial
    · extract_lets +onlyGivenNames x24
      extract_lets +onlyGivenNames x25
      extract_lets +onlyGivenNames x26
      have h26 : Only e a x26 := by
        unfold x26
        refine takeArena_only p_regs p_evt p_ldg p_mem ?_
        refine book_only p_regs p_evt p_ldg ?_
        assumption
      try clear_value x26
      extract_lets +onlyGivenNames x27
      have h27 : Only e a x27 := by
        unfold x27
        (clear_value x21; split)
        · assumption
        · refine putObj_only p_obj ?_
          refine modLayout_only p_vid ?_
          assumption
      try clear_value x27
      extract_lets +onlyGivenNames x28
      have h28 : Only e a x28 := by
        unfold x28
        refine addObj_only p_obj ?_
        assumption
      try clear_value x28
      refine (show Only e a _ from ?_)
      refine Only.vidUpd p_vid ?_ _
      assumption

theorem handPicture_only (p_regs : e .regs) (p_evt : e .evt) (p_ldg : e .ldg) (p_pke : e .pke) (p_fwd : e .fwd) (p_vid : e
    .vid) {x1i x2i x3i x4i} (h : Only e a d) : Only e a (handPicture d x1i x2i x3i x4i) := by
  unfold handPicture
  extract_lets +onlyGivenNames x1
  extract_lets +onlyGivenNames x2
  extract_lets +onlyGivenNames x3
  have h3 : Only e a x3 := by
    unfold x3
    refine takeCells_only p_regs p_evt p_ldg p_pke ?_
    assumption
  try clear_value x3
  extract_lets +onlyGivenNames x4
  have h4 : Only e a x4 := by
    unfold x4
    refine cnt_only p_regs ?_
    assumption
  try clear_value x4
  extract_lets +onlyGivenNames x5
  extract_lets +onlyGivenNames x6
  have h6 : Only e a x6 := by
    unfold x6
    refine modEnc_only p_vid ?_
    assumption
  try clear_value x6
  refine Only.fwdUpd p_fwd ?_ _
  assumption

theorem encCreateAct_only (p_regs : e .regs) (p_evt : e .evt) (p_ldg : e .ldg) (p_obj : e .obj) (p_mem : e .mem) (p_aud : e
    .aud) (p_vid : e .vid) {x1i} (h : Only e a d) : ActOnly e a (encCreateAct d x1i) := by
  unfold encCreateAct
  split
  · refine videoEncCreate_only p_regs p_evt p_ldg p_obj p_mem p_vid ?_
    assumption
  · refine audioEncCreate_only p_regs p_evt p_ldg p_obj p_aud ?_
    assumption

theorem codeRow_only (p_regs : e .regs) (p_out : e .out) (p_hif : e .hif) (p_evt : e .evt) (p_hbm : e .hbm) (p_mem : e .mem)
    (p_vid : e .vid) {x0 x1 x2 x3 p} (h : Only e a p.1) : Only e a (codeRow x0 x1 x2 x3 p).1 :=
  writeRow_only p_regs p_out p_hif p_hbm p_mem (unitSteps_only p_regs p_evt p_vid h)

theorem codeLayer_only (p_regs : e .regs) (p_out : e .out) (p_hif : e .hif) (p_evt : e .evt) (p_hbm : e .hbm) (p_mem : e
    .mem) (p_vid : e .vid) {x0 x1 x2 x3 x4} (h : Only e a d) : Only e a (codeLayer x0 x1 x2 x3 d x4).1 := by
  unfold codeLayer
  split
  · exact h
  · exact codeRow_only p_regs p_out p_hif p_evt p_hbm p_mem p_vid h

theorem codeLayers_only (p_regs : e .regs) (p_out : e .out) (p_hif : e .hif) (p_evt : e .evt) (p_hbm : e .hbm) (p_mem : e
    .mem) (p_vid : e .vid) {x0 x1 x2 x3 l} (h : Only e a d) : Only e a (codeLayers x0 x1 x2 x3 l d).1 := by
  induction l generalizing d with
  | nil => exact h
  | cons y ys ih => exact ih (codeLayer_only p_regs p_out p_hif p_evt p_hbm p_mem p_vid h)

theorem bandGap_only (p_regs : e .regs) (p_evt : e .evt) (p_vid : e .vid) {x1i x2i x3i x4i} (h : Only e a d) : Only e a (bandGap
    x1i x2i x3i d x4i) := by
  unfold bandGap
  split
  · exact h
  · exact Only.vidUpd p_vid (padUe_only p_regs p_evt h) _

theorem bandCoded_only (p_regs : e .regs) (p_out : e .out) (p_hif : e .hif) (p_evt : e .evt) (p_hbm : e .hbm) (p_mem : e
    .mem) (p_vid : e .vid) {x1i x2i x3i x4i} (h : Only e a d) : Only e a (bandCoded d x1i x2i x3i x4i).1 := by
  unfold bandCoded
  extract_lets +onlyGivenNames x1
  have h1 : Only e a x1 := by
    unfold x1
    refine Only.foldl ?_ (fun d3 y3 h3 => bandGap_only p_regs p_evt p_vid h3)
    split
    · refine refError_only p_regs p_evt p_vid ?_
      assumption
    · assumption
  try clear_value x1
  extract_lets +onlyGivenNames x2
  extract_lets +onlyGivenNames x3
  have h3 : Only e a x3 := by
    unfold x3
    split
    · refine newRefs_only p_regs p_out p_hif p_hbm p_mem ?_
      assumption
    · assumption
  try clear_value x3
  extract_lets +onlyGivenNames x4
  have h4 : Only e a x4.1 := by
    unfold x4
    refine codeLayers_only p_regs p_out p_hif p_evt p_hbm p_mem p_vid ?_
    assumption
  try clear_value x4
  extract_lets +onlyGivenNames x5
  extract_lets +onlyGivenNames x6
  dsimp only
  refine cnt_only p_regs ?_
  assumption

theorem endPicCoding_only (p_regs : e .regs) (p_out : e .out) (p_hif : e .hif) (p_evt : e .evt) (p_ldg : e .ldg) (p_pke : e
    .pke) (p_hbm : e .hbm) (p_mem : e .mem) (p_fwd : e .fwd) (p_vid : e .vid) {x1i x2i} (h : Only e a d) : Only e a
    (endPicCoding d x1i x2i) := by
  unfold endPicCoding
  extract_lets +onlyGivenNames x1
  extract_lets +onlyGivenNames x2
  have h2 : Only e a x2 := by
    unfold x2
    refine Only.foldl ?_ (fun d3 y3 h3 => ?_)
    · refine refPyramids_only p_regs p_out p_hif p_hbm p_mem ?_
      assumption
    · refine reportBudget_only p_evt ?_
      assumption
  try clear_value x2
  extract_lets +onlyGivenNames x4
  have h4 : Only e a x4 := by
    unfold x4
    refine handPicture_only p_regs p_evt p_ldg p_pke p_fwd p_vid ?_
    assumption
  try clear_value x4
  split
  · assumption
  · extract_lets +onlyGivenNames x5
    have h5 : Only e a x5.1 := by
      unfold x5
      refine waveAfter_only p_regs p_evt ?_
      assumption
    try clear_value x5
    refine modEnc_only p_vid ?_
    assumption

theorem encodeBand_only (p_regs : e .regs) (p_out : e .out) (p_hif : e .hif) (p_evt : e .evt) (p_ldg : e .ldg) (p_dlr : e
    .dlr) (p_cores : e .cores) (p_pke : e .pke) (p_hbm : e .hbm) (p_mem : e .mem) (p_dma : e .dma) (p_fwd : e .fwd) (p_aud :
    e .aud) (p_vid : e .vid) (p_sys : e .sys) {x1i x2i} (h : Only e a d) : Only e a (encodeBand d x1i x2i) := by
  unfold encodeBand
  split
  · assumption
  · split
    · split
      · assumption
      · split
        · extract_lets +onlyGivenNames x1
          split
          · refine completeCard_only p_regs p_out p_hif p_evt p_ldg p_dlr p_cores p_pke p_dma p_fwd p_aud p_vid p_sys ?_
            assumption
          · split
            · refine completeCard_only p_regs p_out p_hif p_evt p_ldg p_dlr p_cores p_pke p_dma p_fwd p_aud p_vid p_sys ?_
              refine modEnc_only p_vid ?_
              assumption
            · extract_lets +onlyGivenNames x2
              have h2 : Only e a x2.1 := by
                unfold x2
                refine bandCoded_only p_regs p_out p_hif p_evt p_hbm p_mem p_vid ?_
                refine setF_only p_regs ?_
                refine cnt_only p_regs ?_
                refine cnt_only p_regs ?_
                assumption
              try clear_value x2
              extract_lets +onlyGivenNames x3
              have h3 : Only e a x3 := by
                unfold x3
                refine modEnc_only p_vid ?_
                assumption
              try clear_value x3
              split
              · refine completeCard_only p_regs p_out p_hif p_evt p_ldg p_dlr p_cores p_pke p_dma p_fwd p_aud p_vid p_sys ?_
                assumption
              · split
                · refine withCredit_only ?_ ?_
                  · refine completeCard_only p_regs p_out p_hif p_evt p_ldg p_dlr p_cores p_pke p_dma p_fwd p_aud p_vid p_sys ?_
                    refine endPicCoding_only p_regs p_out p_hif p_evt p_ldg p_pke p_hbm p_mem p_fwd p_vid ?_
                    assumption
                  · assumption
                · assumption
        · refine completeCard_only p_regs p_out p_hif p_evt p_ldg p_dlr p_cores p_pke p_dma p_fwd p_aud p_vid p_sys ?_
          assumption
    · assumption

theorem fillPicture_only (p_regs : e .regs) (p_out : e .out) (p_hif : e .hif) (p_evt : e .evt) (p_ldg : e .ldg) (p_dlr : e
    .dlr) (p_cores : e .cores) (p_pke : e .pke) (p_dma : e .dma) (p_fwd : e .fwd) (p_aud : e .aud) (p_vid : e .vid) (p_sys :
    e .sys) {x1i} (h : Only e a d) : Only e a (fillPicture d x1i) := by
  unfold fillPicture
  split
  · assumption
  · split
    · assumption
    · split
      · assumption
      · split
        · assumption
        · extract_lets +onlyGivenNames x1
          extract_lets +onlyGivenNames x2
          extract_lets +onlyGivenNames x3
          split
          · refine raiseOnce_only p_evt ?_
            unfold x2
            refine Only.foldl ?_ (fun d4 y4 h4 => ?_)
            · refine modEnc_only p_vid ?_
              assumption
            · refine cancelCard_only p_regs p_out p_hif p_evt p_ldg p_dlr p_cores p_pke p_dma p_fwd p_aud p_vid p_sys ?_
              assumption
          · extract_lets +onlyGivenNames x5
            have h5 : Only e a x5 := by
              unfold x5
              refine raiseOnce_only p_evt ?_
              refine cnt_only p_regs ?_
              refine Only.foldl ?_ (fun d6 y6 h6 => ?_)
              · assumption
              · refine reportBudget_only p_evt ?_
                assumption
            try clear_value x5
            extract_lets +onlyGivenNames x7
            have h7 : Only e a x7 := by
              unfold x7
              refine handPicture_only p_regs p_evt p_ldg p_pke p_fwd p_vid ?_
              assumption
            try clear_value x7
            extract_lets +onlyGivenNames x8
            have h8 : Only e a x8 := by
              unfold x8
              refine modEnc_only p_vid ?_
              assumption
            try clear_value x8
            refine withCredit_only ?_ ?_
            · unfold x2
              refine Only.foldl ?_ (fun d9 y9 h9 => ?_)
              · assumption
              · refine cancelCard_only p_regs p_out p_hif p_evt p_ldg p_dlr p_cores p_pke p_dma p_fwd p_aud p_vid p_sys ?_
                assumption
            · assumption

theorem releaseEnc_only (p_regs : e .regs) (p_freeCtr : e .freeCtr) (p_out : e .out) (p_tim : e .tim) (p_hif : e .hif)
    (p_evt : e .evt) (p_ldg : e .ldg) (p_obj : e .obj) (p_pke : e .pke) (p_sec : e .sec) (p_brd : e .brd) (p_fwd : e .fwd)
    (p_vid : e .vid) (p_sys : e .sys) {x1i} (h : Only e a d) : Only e a (releaseEnc d x1i) := by
  unfold releaseEnc
  split
  · assumption
  · extract_lets +onlyGivenNames x1
    have h1 : Only e a x1 := by
      unfold x1
      refine loseSource_only p_regs p_freeCtr p_out p_tim p_hif p_evt p_ldg p_obj p_pke p_sec p_brd p_fwd p_sys ?_
      assumption
    try clear_value x1
    extract_lets +onlyGivenNames x2
    refine Only.foldl ?_ (fun d3 y3 h3 => ?_)
    · refine Only.vidUpd p_vid ?_ _
      assumption
    · refine ledgGive_only p_regs p_evt p_ldg ?_
      assumption

theorem buildEnc_only (p_regs : e .regs) (p_out : e .out) (p_hif : e .hif) (p_evt : e .evt) (p_ldg : e .ldg) (p_dlr : e
    .dlr) (p_cores : e .cores) (p_pke : e .pke) (p_dma : e .dma) (p_fwd : e .fwd) (p_aud : e .aud) (p_vid : e .vid) (p_sys :
    e .sys) {x1i} (h : Only e a d) : Only e a (buildEnc d x1i) := by
  unfold buildEnc
  split
  · assumption
  · extract_lets +onlyGivenNames x1
    split
    · assumption
    · split
      · refine addPic_only p_vid ?_
        assumption
      · refine Only.foldl ?_ (fun d2 y2 h2 => ?_)
        · refine addPic_only p_vid ?_
          assumption
        · refine encodeBandCard_only p_regs p_out p_hif p_evt p_ldg p_dlr p_cores p_pke p_dma p_fwd p_aud p_vid p_sys ?_
          assumption

end Sys2Proof.Machine
end

