-- ==== Sys2Proof/Laws/Frame7.lean ====
section
/-! SUPPORT. What each operation of Craft, Session, Boot, Hbm, HostRings, Bridle may write. -/
namespace Sys2Proof.Machine
variable {e : Piece → Prop} {a d : Dev}

/-! ### Craft -/

theorem setCraft_only (p_aud : e .aud) {x1i} (h : Only e a d) : Only e a (setCraft d x1i) := by
  unfold setCraft
  refine Only.audUpd p_aud ?_ _
  assumption

theorem jackInsert_only (p_aud : e .aud) (h : Only e a d) : Only e a (jackInsert d) := by
  unfold jackInsert
  split
  · refine setCraft_only p_aud ?_
    assumption
  · assumption

theorem faultRetry_only (p_aud : e .aud) {x1i x2i} (h : Only e a d) : Only e a (faultRetry d x1i x2i) := by
  unfold faultRetry
  extract_lets +onlyGivenNames x1
  split
  · assumption
  · split
    · assumption
    · extract_lets +onlyGivenNames x2
      refine setCraft_only p_aud ?_
      assumption

theorem craftBefore_only (p_regs : e .regs) (p_out : e .out) (p_aud : e .aud) {x0i} (h : Only e a d) : Only e a (craftBefore
    x0i d) := by
  unfold craftBefore
  split
  · assumption
  · extract_lets +onlyGivenNames x1
    extract_lets +onlyGivenNames x2
    extract_lets +onlyGivenNames x3
    extract_lets +onlyGivenNames x4
    extract_lets +onlyGivenNames x5
    extract_lets +onlyGivenNames x6
    have h6 : Only e a x6 := by
      unfold x6
      split
      · refine emitOut_only p_out ?_
        assumption
      · assumption
    try clear_value x6
    extract_lets +onlyGivenNames x7
    extract_lets +onlyGivenNames x8
    have h8 : Only e a x8 := by
      unfold x8
      refine setF_only p_regs ?_
      assumption
    try clear_value x8
    extract_lets +onlyGivenNames x9
    extract_lets +onlyGivenNames x10
    extract_lets +onlyGivenNames x11
    extract_lets +onlyGivenNames x12
    refine setCraft_only p_aud ?_
    assumption

theorem craftAfter_only (p_aud : e .aud) (h : Only e a d) : Only e a (craftAfter d) := by
  unfold craftAfter
  extract_lets +onlyGivenNames x1
  split
  · refine setCraft_only p_aud ?_
    assumption
  · assumption

theorem craftSetAct_only (p_aud : e .aud) {x1i} (h : Only e a d) : ActOnly e a (craftSetAct d x1i) := by
  unfold craftSetAct
  extract_lets +onlyGivenNames x1
  extract_lets +onlyGivenNames x2
  refine ActOnly.bind (fun w3 y3 => ?_)
  refine ActOnly.bind (fun w4 y4 => ?_)
  extract_lets +onlyGivenNames x5
  refine (show Only e a _ from ?_)
  refine setCraft_only p_aud ?_
  assumption

theorem showFaults_only (p_regs : e .regs) (h : Only e a d) : Only e a (showFaults d) := by
  unfold showFaults
  refine setF_only p_regs ?_
  assumption

theorem craftSetFault_only (p_regs : e .regs) (p_out : e .out) (p_hif : e .hif) (p_aud : e .aud) {x1i} (h : Only e a d) :
    Only e a (craftSetFault d x1i) := by
  unfold craftSetFault
  extract_lets +onlyGivenNames x1
  extract_lets +onlyGivenNames x2
  have h2 : Only e a x2 := by
    unfold x2
    refine showFaults_only p_regs ?_
    refine setCraft_only p_aud ?_
    assumption
  try clear_value x2
  refine raise_only p_regs p_out p_hif ?_
  refine putB_only p_regs ?_
  assumption

theorem jackRemove_only (p_regs : e .regs) (p_out : e .out) (p_hif : e .hif) (p_aud : e .aud) (h : Only e a d) : Only e a
    (jackRemove d) := by
  unfold jackRemove
  extract_lets +onlyGivenNames x1
  split
  · assumption
  · extract_lets +onlyGivenNames x2
    extract_lets +onlyGivenNames x3
    have h3 : Only e a x3 := by
      unfold x3
      refine setF_only p_regs ?_
      refine setF_only p_regs ?_
      refine putB_only p_regs ?_
      assumption
    try clear_value x3
    extract_lets +onlyGivenNames x4
    have h4 : Only e a x4 := by
      unfold x4
      refine setCraft_only p_aud ?_
      assumption
    try clear_value x4
    split
    · refine raise_only p_regs p_out p_hif ?_
      assumption
    · assumption

theorem outputShort_only (p_regs : e .regs) (p_out : e .out) (p_hif : e .hif) (p_aud : e .aud) {x1i} (h : Only e a d) : Only
    e a (outputShort d x1i) := by
  unfold outputShort
  extract_lets +onlyGivenNames x1
  split
  · split
    · assumption
    · refine craftSetFault_only p_regs p_out p_hif p_aud ?_
      refine setCraft_only p_aud ?_
      assumption
  · split
    · assumption
    · refine craftSetFault_only p_regs p_out p_hif p_aud ?_
      refine setCraft_only p_aud ?_
      assumption

theorem buttonLong_only (p_regs : e .regs) (p_out : e .out) (p_hif : e .hif) (p_aud : e .aud) (h : Only e a d) : Only e a
    (buttonLong d) := by
  unfold buttonLong
  extract_lets +onlyGivenNames x1
  split
  · assumption
  · split
    · refine raise_only p_regs p_out p_hif ?_
      refine setCraft_only p_aud ?_
      assumption
    · assumption

theorem biasShort_only (p_regs : e .regs) (p_out : e .out) (p_hif : e .hif) (p_aud : e .aud) (h : Only e a d) : Only e a
    (biasShort d) := by
  unfold biasShort
  extract_lets +onlyGivenNames x1
  split
  · refine craftSetFault_only p_regs p_out p_hif p_aud ?_
    assumption
  · assumption

theorem buttonRelease_only (p_regs : e .regs) (p_out : e .out) (p_hif : e .hif) (p_aud : e .aud) (h : Only e a d) : Only e a
    (buttonRelease d) := by
  unfold buttonRelease
  extract_lets +onlyGivenNames x1
  split
  · assumption
  · split
    · refine raise_only p_regs p_out p_hif ?_
      refine setF_only p_regs ?_
      refine setCraft_only p_aud ?_
      assumption
    · assumption

theorem insertAs_only (p_regs : e .regs) (p_out : e .out) (p_hif : e .hif) (p_aud : e .aud) {x1i} (h : Only e a d) : Only e
    a (insertAs d x1i) := by
  unfold insertAs
  extract_lets +onlyGivenNames x1
  extract_lets +onlyGivenNames x2
  have h2 : Only e a x2 := by
    unfold x2
    refine setCraft_only p_aud ?_
    refine setF_only p_regs ?_
    assumption
  try clear_value x2
  refine raise_only p_regs p_out p_hif ?_
  refine setF_only p_regs ?_
  assumption

theorem buttonPress_only (p_regs : e .regs) (p_out : e .out) (p_hif : e .hif) (p_aud : e .aud) (h : Only e a d) : Only e a
    (buttonPress d) := by
  unfold buttonPress
  extract_lets +onlyGivenNames x1
  split
  · extract_lets +onlyGivenNames x2
    have h2 : Only e a x2 := by
      unfold x2
      refine cnt_only p_regs ?_
      refine setF_only p_regs ?_
      refine setCraft_only p_aud ?_
      assumption
    try clear_value x2
    refine raise_only p_regs p_out p_hif ?_
    assumption
  · assumption

theorem micOpen_only (p_regs : e .regs) (p_out : e .out) (p_hif : e .hif) (p_aud : e .aud) (h : Only e a d) : Only e a
    (micOpen d) := by
  unfold micOpen
  extract_lets +onlyGivenNames x1
  split
  · refine craftSetFault_only p_regs p_out p_hif p_aud ?_
    assumption
  · assumption

theorem detectAccessory_only (p_regs : e .regs) (p_out : e .out) (p_hif : e .hif) (p_aud : e .aud) (h : Only e a d) : Only e
    a (detectAccessory d) := by
  unfold detectAccessory
  split
  · refine setCraft_only p_aud ?_
    assumption
  · refine insertAs_only p_regs p_out p_hif p_aud ?_
    assumption

theorem detectionDone_only (p_regs : e .regs) (p_out : e .out) (p_hif : e .hif) (p_aud : e .aud) {x1i} (h : Only e a d) :
    Only e a (detectionDone d x1i) := by
  unfold detectionDone
  split
  · assumption
  · extract_lets +onlyGivenNames x1
    extract_lets +onlyGivenNames x2
    extract_lets +onlyGivenNames x3
    have h3 : Only e a x3 := by
      unfold x3
      refine setReg_only p_regs ?_
      assumption
    try clear_value x3
    refine insertAs_only p_regs p_out p_hif p_aud ?_
    assumption

theorem debounceEnd_only (p_regs : e .regs) (p_out : e .out) (p_hif : e .hif) (p_aud : e .aud) (h : Only e a d) : Only e a
    (debounceEnd d) := by
  unfold debounceEnd
  split
  · split
    · refine detectAccessory_only p_regs p_out p_hif p_aud ?_
      refine putB_only p_regs ?_
      assumption
    · assumption
  · assumption

theorem faultClear_only (p_regs : e .regs) (p_out : e .out) (p_hif : e .hif) (p_aud : e .aud) (h : Only e a d) : Only e a
    (faultClear d) := by
  unfold faultClear
  extract_lets +onlyGivenNames x1
  split
  · extract_lets +onlyGivenNames x2
    have h2 : Only e a x2 := by
      unfold x2
      refine showFaults_only p_regs ?_
      refine setCraft_only p_aud ?_
      assumption
    try clear_value x2
    split
    · refine detectAccessory_only p_regs p_out p_hif p_aud ?_
      assumption
    · assumption
  · assumption

/-! ### Session -/

theorem dropClosed_only (p_obj : e .obj) (h : Only e a d) : Only e a (dropClosed d) := by
  unfold dropClosed
  refine Only.objUpd p_obj ?_ _
  assumption

theorem nopAct_only {x1i} (h : Only e a d) : ActOnly e a (nopAct d x1i) := by
  unfold nopAct
  refine ActOnly.bind (fun w1 y1 => ?_)
  refine ActOnly.bind (fun w2 y2 => ?_)
  refine (show Only e a _ from ?_)
  assumption

theorem cardWhere_only (p_freeCtr : e .freeCtr) {x1i} (h : Only e a d) : Only e a (cardWhere d x1i).1 := by
  unfold cardWhere
  split
  · dsimp only
    assumption
  · split
    · dsimp only
      assumption
    · extract_lets +onlyGivenNames x1
      have h1 : Only e a x1.2 := by
        unfold x1
        refine drawFree_only p_freeCtr ?_
        assumption
      try clear_value x1
      dsimp only
      assumption

theorem queryCard_only (p_freeCtr : e .freeCtr) {x1i} (h : Only e a d) : Only e a (queryCard d x1i).1 := by
  unfold queryCard
  extract_lets +onlyGivenNames x1
  have h1 : Only e a x1.1 := by
    unfold x1
    refine cardWhere_only p_freeCtr ?_
    assumption
  try clear_value x1
  dsimp only
  assumption

theorem objQueryAct_only (p_freeCtr : e .freeCtr) {x1i} (h : Only e a d) : ActOnly e a (objQueryAct d x1i) := by
  unfold objQueryAct
  extract_lets +onlyGivenNames x1
  extract_lets +onlyGivenNames x2
  extract_lets +onlyGivenNames x3
  extract_lets +onlyGivenNames x4
  split
  · refine ActOnly.bind (fun w5 y5 => ?_)
    refine ActOnly.bind (fun w6 y6 => ?_)
    refine (show Only e a _ from ?_)
    assumption
  · refine ActOnly.bind (fun w7 y7 => ?_)
    refine ActOnly.bind (fun w8 y8 => ?_)
    refine (show Only e a _ from ?_)
    assumption
  · refine ActOnly.bind (fun w9 y9 => ?_)
    refine ActOnly.bind (fun w10 y10 => ?_)
    extract_lets +onlyGivenNames x11
    have h11 : Only e a x11.1 := by
      unfold x11
      refine queryCard_only p_freeCtr ?_
      assumption
    try clear_value x11
    refine (show Only e a _ from ?_)
    assumption
  · refine ActOnly.bind (fun w12 y12 => ?_)
    refine ActOnly.bind (fun w13 y13 => ?_)
    split
    · refine (show Only e a _ from ?_)
      assumption
    · exact trivial

theorem sessionOpenAct_only (p_regs : e .regs) (p_evt : e .evt) (p_ldg : e .ldg) (p_obj : e .obj) {x1i} (h : Only e a d) :
    ActOnly e a (sessionOpenAct d x1i) := by
  unfold sessionOpenAct
  refine ActOnly.bind (fun w1 y1 => ?_)
  refine ActOnly.bind (fun w2 y2 => ?_)
  extract_lets +onlyGivenNames x3
  extract_lets +onlyGivenNames x4
  refine ActOnly.bind (fun w5 y5 => ?_)
  extract_lets +onlyGivenNames x6
  split
  · exact trivial
  · exact trivial
  · extract_lets +onlyGivenNames x7
    extract_lets +onlyGivenNames x8
    have h8 : Only e a x8 := by
      unfold x8
      refine book_only p_regs p_evt p_ldg ?_
      assumption
    try clear_value x8
    refine (show Only e a _ from ?_)
    refine Only.objUpd p_obj ?_ _
    assumption

theorem endFlows_only (p_regs : e .regs) (p_evt : e .evt) (p_ldg : e .ldg) (p_dlr : e .dlr) {x1i} (h : Only e a d) : Only e
    a (endFlows d x1i) := by
  unfold endFlows
  refine Only.foldl ?_ (fun d1 y1 h1 => ?_)
  · assumption
  · split
    · split
      · assumption
      · refine closeFlow_only p_regs p_evt p_ldg p_dlr ?_
        refine putFlow_only p_dlr ?_
        assumption
    · assumption

theorem sessionCloseDone_only (p_regs : e .regs) (p_out : e .out) (p_hif : e .hif) (p_evt : e .evt) (p_ldg : e .ldg) (p_obj
    : e .obj) (p_sys : e .sys) {x1i} (h : Only e a d) : Only e a (sessionCloseDone d x1i) := by
  unfold sessionCloseDone
  split
  · assumption
  · split
    · assumption
    · extract_lets +onlyGivenNames x1
      have h1 : Only e a x1 := by
        unfold x1
        refine unbook_only p_regs p_evt p_ldg ?_
        refine putSession_only p_obj ?_
        assumption
      try clear_value x1
      refine Only.foldl ?_ (fun d2 y2 h2 => ?_)
      · assumption
      · refine complete_only p_regs p_out p_hif p_sys ?_
        assumption

theorem cancelOwned_only (p_regs : e .regs) (p_out : e .out) (p_hif : e .hif) (p_evt : e .evt) (p_ldg : e .ldg) (p_dlr : e
    .dlr) (p_cores : e .cores) (p_pke : e .pke) (p_dma : e .dma) (p_fwd : e .fwd) (p_aud : e .aud) (p_vid : e .vid) (p_sys :
    e .sys) {x1i} (h : Only e a d) : Only e a (cancelOwned d x1i) := by
  unfold cancelOwned
  split
  · assumption
  · refine Only.foldl ?_ (fun d1 y1 h1 => ?_)
    · assumption
    · refine cancelCard_only p_regs p_out p_hif p_evt p_ldg p_dlr p_cores p_pke p_dma p_fwd p_aud p_vid p_sys ?_
      assumption

theorem releaseObj_only (p_regs : e .regs) (p_freeCtr : e .freeCtr) (p_out : e .out) (p_tim : e .tim) (p_hif : e .hif)
    (p_evt : e .evt) (p_ldg : e .ldg) (p_obj : e .obj) (p_dlr : e .dlr) (p_cores : e .cores) (p_pke : e .pke) (p_sec : e
    .sec) (p_brd : e .brd) (p_dma : e .dma) (p_fwd : e .fwd) (p_aud : e .aud) (p_vid : e .vid) (p_sys : e .sys) {x1i} (h :
    Only e a d) : Only e a (releaseObj d x1i) := by
  unfold releaseObj
  extract_lets +onlyGivenNames x1
  extract_lets +onlyGivenNames x2
  have h2 : Only e a x2 := by
    unfold x2
    split
    · refine releaseConf_only p_aud ?_
      assumption
    · refine releasePart_only p_regs p_evt p_ldg p_pke p_fwd p_aud ?_
      assumption
    · refine releaseLeg_only p_regs p_freeCtr p_out p_tim p_hif p_evt p_ldg p_obj p_pke p_sec p_brd p_fwd p_sys ?_
      assumption
    · refine releaseCtx_only p_vid ?_
      refine detachSource_only p_vid ?_
      assumption
    · refine releaseLayout_only p_regs p_evt p_ldg p_vid ?_
      refine detachSource_only p_vid ?_
      assumption
    · split
      · refine releaseEnc_only p_regs p_freeCtr p_out p_tim p_hif p_evt p_ldg p_obj p_pke p_sec p_brd p_fwd p_vid p_sys ?_
        assumption
      · refine releaseStream_only p_regs p_evt p_ldg p_aud ?_
        refine loseSource_only p_regs p_freeCtr p_out p_tim p_hif p_evt p_ldg p_obj p_pke p_sec p_brd p_fwd p_sys ?_
        assumption
    · refine retireKey_only p_regs p_evt p_ldg p_obj p_sec ?_
      assumption
  try clear_value x2
  split
  · assumption
  · extract_lets +onlyGivenNames x3
    have h3 : Only e a x3 := by
      unfold x3
      refine endFlows_only p_regs p_evt p_ldg p_dlr ?_
      refine cancelOwned_only p_regs p_out p_hif p_evt p_ldg p_dlr p_cores p_pke p_dma p_fwd p_aud p_vid p_sys ?_
      assumption
    try clear_value x3
    split
    · refine dropObj_only p_regs p_evt p_ldg p_obj ?_
      assumption
    · assumption

theorem releaseAll_only (p_regs : e .regs) (p_freeCtr : e .freeCtr) (p_out : e .out) (p_tim : e .tim) (p_hif : e .hif)
    (p_evt : e .evt) (p_ldg : e .ldg) (p_obj : e .obj) (p_dlr : e .dlr) (p_cores : e .cores) (p_pke : e .pke) (p_sec : e
    .sec) (p_brd : e .brd) (p_dma : e .dma) (p_fwd : e .fwd) (p_aud : e .aud) (p_vid : e .vid) (p_sys : e .sys) {x1i} (h :
    Only e a d) : Only e a (releaseAll d x1i).1 := by
  unfold releaseAll
  refine Only.foldlFst ?_ (fun q1 y1 h1 => ?_)
  · dsimp only
    assumption
  · split
    · split
      · dsimp only
        refine releaseObj_only p_regs p_freeCtr p_out p_tim p_hif p_evt p_ldg p_obj p_dlr p_cores p_pke p_sec p_brd p_dma
            p_fwd p_aud p_vid p_sys ?_
        assumption
      · assumption
    · assumption

theorem closeSession_only (p_regs : e .regs) (p_freeCtr : e .freeCtr) (p_out : e .out) (p_tim : e .tim) (p_hif : e .hif)
    (p_evt : e .evt) (p_ldg : e .ldg) (p_obj : e .obj) (p_dlr : e .dlr) (p_cores : e .cores) (p_pke : e .pke) (p_sec : e
    .sec) (p_brd : e .brd) (p_dma : e .dma) (p_fwd : e .fwd) (p_aud : e .aud) (p_vid : e .vid) (p_sys : e .sys) {x1i} (h :
    Only e a d) : Only e a (closeSession d x1i) := by
  unfold closeSession
  extract_lets +onlyGivenNames x1
  extract_lets +onlyGivenNames x2
  extract_lets +onlyGivenNames x3
  have h3 : Only e a x3 := by
    unfold x3
    refine Only.foldl ?_ (fun d4 y4 h4 => ?_)
    · refine ledgRelease_only p_regs p_evt p_ldg ?_
      assumption
    · refine putFlow_only p_dlr ?_
      assumption
  try clear_value x3
  extract_lets +onlyGivenNames x5
  extract_lets +onlyGivenNames x6
  have h6 : Only e a x6.1 := by
    unfold x6
    refine releaseAll_only p_regs p_freeCtr p_out p_tim p_hif p_evt p_ldg p_obj p_dlr p_cores p_pke p_sec p_brd p_dma p_fwd
        p_aud p_vid p_sys ?_
    assumption
  try clear_value x6
  extract_lets +onlyGivenNames x7
  extract_lets +onlyGivenNames x8
  have h8 : Only e a x8 := by
    unfold x8
    refine Only.foldl ?_ (fun d9 y9 h9 => ?_)
    · assumption
    · refine runTasks_only p_regs p_out p_hif p_evt p_ldg p_dlr p_cores p_pke p_dma p_fwd p_aud p_vid p_sys ?_
      assumption
  try clear_value x8
  extract_lets +onlyGivenNames x10
  have h10 : Only e a x10 := by
    unfold x10
    refine Only.foldl ?_ (fun d11 y11 h11 => ?_)
    · assumption
    · refine closeFlow_only p_regs p_evt p_ldg p_dlr ?_
      assumption
  try clear_value x10
  refine putSession_only p_obj ?_
  assumption

theorem objReleaseAct_only (p_regs : e .regs) (p_freeCtr : e .freeCtr) (p_out : e .out) (p_tim : e .tim) (p_hif : e .hif)
    (p_evt : e .evt) (p_ldg : e .ldg) (p_obj : e .obj) (p_dlr : e .dlr) (p_cores : e .cores) (p_pke : e .pke) (p_sec : e
    .sec) (p_brd : e .brd) (p_dma : e .dma) (p_fwd : e .fwd) (p_aud : e .aud) (p_vid : e .vid) (p_sys : e .sys) {x1i} (h :
    Only e a d) : ActOnly e a (objReleaseAct d x1i) := by
  unfold objReleaseAct
  extract_lets +onlyGivenNames x1
  refine ActOnly.bind (fun w2 y2 => ?_)
  refine ActOnly.bind (fun w3 y3 => ?_)
  extract_lets +onlyGivenNames x4
  extract_lets +onlyGivenNames x5
  have h5 : Only e a x5.1 := by
    unfold x5
    refine releaseAll_only p_regs p_freeCtr p_out p_tim p_hif p_evt p_ldg p_obj p_dlr p_cores p_pke p_sec p_brd p_dma p_fwd
        p_aud p_vid p_sys ?_
    assumption
  try clear_value x5
  extract_lets +onlyGivenNames x6
  split
  · refine (show Only e a _ from ?_)
    refine putCmd_only p_hif ?_
    assumption
  · refine (show Only e a _ from ?_)
    assumption

theorem sessionCloseAct_only (p_regs : e .regs) (p_freeCtr : e .freeCtr) (p_out : e .out) (p_tim : e .tim) (p_hif : e .hif)
    (p_evt : e .evt) (p_ldg : e .ldg) (p_obj : e .obj) (p_dlr : e .dlr) (p_cores : e .cores) (p_pke : e .pke) (p_sec : e
    .sec) (p_brd : e .brd) (p_dma : e .dma) (p_fwd : e .fwd) (p_aud : e .aud) (p_vid : e .vid) (p_sys : e .sys) {x1i} (h :
    Only e a d) : ActOnly e a (sessionCloseAct d x1i) := by
  unfold sessionCloseAct
  refine ActOnly.bind (fun w1 y1 => ?_)
  refine ActOnly.bind (fun w2 y2 => ?_)
  refine (show Only e a _ from ?_)
  split
  · assumption
  · refine closeSession_only p_regs p_freeCtr p_out p_tim p_hif p_evt p_ldg p_obj p_dlr p_cores p_pke p_sec p_brd p_dma
      p_fwd p_aud p_vid p_sys ?_
    assumption

/-! ### Boot -/

theorem thermAlert_only (p_out : e .out) (p_sys : e .sys) {x1i} (h : Only e a d) : Only e a (thermAlert d x1i) := by
  unfold thermAlert
  extract_lets +onlyGivenNames x1
  split
  · assumption
  · extract_lets +onlyGivenNames x2
    extract_lets +onlyGivenNames x3
    have h3 : Only e a x3 := by
      unfold x3
      refine Only.sysUpd p_sys ?_ _ rfl rfl rfl rfl rfl rfl
      assumption
    try clear_value x3
    refine emitOut_only p_out ?_
    refine emitOut_only p_out ?_
    assumption

theorem smbusRead_only (p_out : e .out) {x1i x2i} (h : Only e a d) : Only e a (smbusRead d x1i x2i) := by
  unfold smbusRead
  split
  · split
    · assumption
    · refine emitOut_only p_out ?_
      assumption
  · assumption

theorem fuseProg_only (p_regs : e .regs) (p_sys : e .sys) {vpp} (h : Only e a d) : Only e a (fuseProg d vpp) := by
  unfold fuseProg
  split
  · exact h
  · rename_i g
    have g1 : d.sys.keyProg = false ∧ d.sys.keyLock = false := by simpa using g
    extract_lets s1 x1
    have h1 : Only e a x1 := by
      unfold x1
      split
      · exact h
      · exact Only.fuseUpd p_sys h _ rfl rfl (by unfold FusesKept fuses; simp [s1, g1.1, g1.2])
    clear_value x1
    clear g g1 s1
    refine Only.foldl ?_ (fun d2 y2 h2 => ?_)
    · exact h1
    · exact setReg_only p_regs h2

theorem bootResult_only (p_regs : e .regs) {x1i x2i} (h : Only e a d) : Only e a (bootResult d x1i x2i) := by
  unfold bootResult
  refine setF_only p_regs ?_
  refine setF_only p_regs ?_
  assumption

theorem writeFusCtrl_only (p_regs : e .regs) (p_sys : e .sys) {v vpp} (h : Only e a d) : Only e a (writeFusCtrl d v vpp) :=
    by
  unfold writeFusCtrl
  split
  · exact h
  · extract_lets x1
    have h1 : Only e a x1 := by
      unfold x1
      split
      · refine fuseProg_only p_regs p_sys ?_
        assumption
      · assumption
    clear_value x1
    split
    · exact Only.fuseUpd p_sys h1 _ rfl rfl ⟨fun q => ⟨rfl, q⟩, fun _ => rfl, fun _ => ⟨rfl, rfl⟩, rfl⟩
    · exact h1

theorem checkImage_only (p_regs : e .regs) (p_freeCtr : e .freeCtr) (p_sys : e .sys) {x1i x2i} (h : Only e a d) : Only e a
    (checkImage d x1i x2i) := by
  unfold checkImage
  split
  · refine bootResult_only p_regs ?_
    assumption
  · split
    · refine bootResult_only p_regs ?_
      assumption
    · split
      · extract_lets +onlyGivenNames x1
        have h1 : Only e a x1.2 := by
          unfold x1
          refine drawFree_only p_freeCtr ?_
          assumption
        try clear_value x1
        refine bootResult_only p_regs ?_
        assumption
      · extract_lets +onlyGivenNames x2
        have h2 : Only e a x2 := by
          unfold x2
          refine setF_only p_regs ?_
          refine bootResult_only p_regs ?_
          assumption
        try clear_value x2
        refine Only.sysUpd p_sys ?_ _ rfl rfl rfl rfl rfl rfl
        assumption

theorem flashBoot_only (p_regs : e .regs) (p_freeCtr : e .freeCtr) (p_sys : e .sys) {x1i x2i} (h : Only e a d) : Only e a
    (flashBoot d x1i x2i) := by
  unfold flashBoot
  split
  · assumption
  · extract_lets +onlyGivenNames x1
    extract_lets +onlyGivenNames x2
    have h2 : Only e a x2 := by
      unfold x2
      refine Only.sysUpd p_sys ?_ _ rfl rfl rfl rfl rfl rfl
      assumption
    try clear_value x2
    split
    · refine bootResult_only p_regs ?_
      assumption
    · refine checkImage_only p_regs p_freeCtr p_sys ?_
      assumption

theorem writeFusFree_only (p_regs : e .regs) (p_freeCtr : e .freeCtr) (p_sys : e .sys) {x1i} (h : Only e a d) : Only e a
    (writeFusFree d x1i) := by
  unfold writeFusFree
  split
  · extract_lets +onlyGivenNames x1
    have h1 : Only e a x1.2 := by
      unfold x1
      refine drawFree_only p_freeCtr ?_
      assumption
    try clear_value x1
    refine writeFusCtrl_only p_regs p_sys ?_
    assumption
  · refine writeFusCtrl_only p_regs p_sys ?_
    assumption

theorem hostLoad_only (p_regs : e .regs) (p_freeCtr : e .freeCtr) (p_sys : e .sys) {x1i} (h : Only e a d) : Only e a
    (hostLoad d x1i) := by
  unfold hostLoad
  split
  · assumption
  · extract_lets +onlyGivenNames x1
    extract_lets +onlyGivenNames x2
    have h2 : Only e a x2 := by
      unfold x2
      refine Only.sysUpd p_sys ?_ _ rfl rfl rfl rfl rfl rfl
      assumption
    try clear_value x2
    split
    · refine bootResult_only p_regs ?_
      assumption
    · refine bootResult_only p_regs ?_
      assumption
    · refine checkImage_only p_regs p_freeCtr p_sys ?_
      assumption

theorem leaveReset_only (p_regs : e .regs) (p_out : e .out) (p_stride : e .stride) (p_tim : e .tim) (p_hif : e .hif) (p_mode
    : e .mode) (p_sys : e .sys) (h : Only e a d) : Only e a (leaveReset d) := by
  unfold leaveReset
  refine setMode_only p_regs p_out p_hif p_mode p_sys ?_
  refine Only.strideUpd p_stride p_tim ?_ _
  assumption

theorem powerOn_only (p_regs : e .regs) (p_regsB : e .regsB) (p_latch : e .latch) (p_freeCtr : e .freeCtr) (p_out : e .out)
    (p_stride : e .stride) (p_tim : e .tim) (p_hif : e .hif) (p_evt : e .evt) (p_ldg : e .ldg) (p_obj : e .obj) (p_dlr : e
    .dlr) (p_cores : e .cores) (p_mac : e .mac) (p_pke : e .pke) (p_sec : e .sec) (p_brd : e .brd) (p_hbm : e .hbm) (p_pad :
    e .pad) (p_local_ : e .local_) (p_mem : e .mem) (p_dma : e .dma) (p_fwd : e .fwd) (p_aud : e .aud) (p_vid : e .vid)
    (p_tack : e .tack) (p_mode : e .mode) (p_sys : e .sys) (p_rst : e .rst) {src} (h : Only e a d) : Only e a (powerOn d
    src) := by
  have p : ∀ f, e f := by intro f; cases f <;> assumption
  unfold powerOn
  extract_lets z t
  refine leaveReset_only p_regs p_out p_stride p_tim p_hif p_mode p_sys
      (Only.allUpd p h rfl (FusesKept.refl _) (fun w => ?_) (fun _ => dev_reset_sound d.variant) List.prefix_rfl)
  obtain ⟨w1, w2, w3, w4, w5, w6, w7, w8⟩ := Memory.wf_parts.1 (dev_reset_wf d.variant)
  exact Memory.wf_parts.2 ⟨w1, w2, w3, w4, w5, w6, (Memory.wf_parts.1 w).2.2.2.2.2.2.1, w8⟩

theorem tryLeaveBoot_only (p_regs : e .regs) (p_out : e .out) (p_hif : e .hif) (p_evt : e .evt) (p_ldg : e .ldg) (p_pke : e
    .pke) (p_hbm : e .hbm) (p_mem : e .mem) (p_mode : e .mode) (p_sys : e .sys) (h : Only e a d) : Only e a (tryLeaveBoot d)
    := by
  unfold tryLeaveBoot
  split
  · refine enterTrain_only p_regs p_out p_hif p_evt p_ldg p_pke p_hbm p_mem p_mode p_sys ?_
    refine putB_only p_regs ?_
    assumption
  · assumption

theorem writeBootCtrl_only (p_regs : e .regs) (p_out : e .out) (p_hif : e .hif) (p_evt : e .evt) (p_ldg : e .ldg) (p_pke : e
    .pke) (p_hbm : e .hbm) (p_mem : e .mem) (p_mode : e .mode) (p_sys : e .sys) {x1i} (h : Only e a d) : Only e a
    (writeBootCtrl d x1i) := by
  unfold writeBootCtrl
  extract_lets +onlyGivenNames x1
  have h1 : Only e a x1 := by
    unfold x1
    refine putB_only p_regs ?_
    assumption
  try clear_value x1
  extract_lets +onlyGivenNames x2
  extract_lets +onlyGivenNames x3
  have h3 : Only e a x3 := by
    unfold x3
    split
    · refine Only.sysUpd p_sys ?_ _ rfl rfl rfl rfl rfl rfl
      assumption
    · assumption
  try clear_value x3
  split
  · refine tryLeaveBoot_only p_regs p_out p_hif p_evt p_ldg p_pke p_hbm p_mem p_mode p_sys ?_
    refine putB_only p_regs ?_
    assumption
  · assumption

theorem warmReset_only (p_regs : e .regs) (p_regsB : e .regsB) (p_latch : e .latch) (p_freeCtr : e .freeCtr) (p_out : e
    .out) (p_stride : e .stride) (p_tim : e .tim) (p_hif : e .hif) (p_evt : e .evt) (p_ldg : e .ldg) (p_obj : e .obj) (p_dlr
    : e .dlr) (p_cores : e .cores) (p_mac : e .mac) (p_pke : e .pke) (p_sec : e .sec) (p_brd : e .brd) (p_hbm : e .hbm)
    (p_pad : e .pad) (p_local_ : e .local_) (p_mem : e .mem) (p_dma : e .dma) (p_fwd : e .fwd) (p_aud : e .aud) (p_vid : e
    .vid) (p_tack : e .tack) (p_mode : e .mode) (p_sys : e .sys) (p_rst : e .rst) {src} (h : Only e a d) : Only e a
    (warmReset d src) := by
  have p : ∀ f, e f := by intro f; cases f <;> assumption
  unfold warmReset
  split
  · exact h
  · extract_lets z t u v w w2 w3 w4
    have h1 : Only e a w := Only.allUpd p h rfl (FusesKept.refl _) (fun g => by
      obtain ⟨w1, w2, w3, w4, w5, w6, w7, w8⟩ := Memory.wf_parts.1 (dev_reset_wf d.variant)
      have g := Memory.wf_parts.1 g
      exact Memory.wf_parts.2
          ⟨spWf_clear g.1 (fun a => !warmKeeps a), w2, spWf_clear g.2.2.1 (fun a => !(decide (TIM ≤ a) && decide (a < TIM +
              0x1000))), w4, w5, w6, g.2.2.2.2.2.2.1, w8⟩)
          (fun _ => dev_reset_sound d.variant) List.prefix_rfl
    clear_value w
    have h2 : Only e a w2 := by
      unfold w2
      refine setF_only p_regs ?_
      refine setF_only p_regs ?_
      assumption
    clear_value w2
    have h3 : Only e a w3 := by
      unfold w3
      refine putB_only p_regs ?_
      refine putB_only p_regs ?_
      assumption
    clear_value w3
    have h4 : Only e a w4 := by
      unfold w4
      refine Only.foldl ?_ (fun d1 y1 h1 => ?_)
      · refine putB_only p_regs ?_
        assumption
      · refine setF_only p_regs ?_
        assumption
    clear_value w4
    refine leaveReset_only p_regs p_out p_stride p_tim p_hif p_mode p_sys ?_
    assumption

theorem writeReset_only (p_regs : e .regs) (p_regsB : e .regsB) (p_latch : e .latch) (p_freeCtr : e .freeCtr) (p_out : e
    .out) (p_stride : e .stride) (p_tim : e .tim) (p_hif : e .hif) (p_evt : e .evt) (p_ldg : e .ldg) (p_obj : e .obj) (p_dlr
    : e .dlr) (p_cores : e .cores) (p_mac : e .mac) (p_pke : e .pke) (p_sec : e .sec) (p_brd : e .brd) (p_hbm : e .hbm)
    (p_pad : e .pad) (p_local_ : e .local_) (p_mem : e .mem) (p_dma : e .dma) (p_fwd : e .fwd) (p_aud : e .aud) (p_vid : e
    .vid) (p_tack : e .tack) (p_mode : e .mode) (p_sys : e .sys) (p_rst : e .rst) {x1i x2i} (h : Only e a d) : Only e a
    (writeReset d x1i x2i) := by
  unfold writeReset
  split
  · refine warmReset_only p_regs p_regsB p_latch p_freeCtr p_out p_stride p_tim p_hif p_evt p_ldg p_obj p_dlr p_cores p_mac
      p_pke p_sec p_brd p_hbm p_pad p_local_ p_mem p_dma p_fwd p_aud p_vid p_tack p_mode p_sys p_rst ?_
    assumption
  · assumption

/-! ### Hbm -/

theorem putPc_only (p_mem : e .mem) {x1i} (h : Only e a d) : Only e a (putPc d x1i) := by
  unfold putPc
  refine Only.memUpd p_mem ?_ _ rfl rfl rfl
  assumption

theorem activate_only (p_regs : e .regs) {x1i x2i x3i} (h : Only e a d) : Only e a (activate d x1i x2i x3i).1 := by
  unfold activate
  extract_lets +onlyGivenNames x1
  extract_lets +onlyGivenNames x2
  extract_lets +onlyGivenNames x3
  split
  · extract_lets +onlyGivenNames x4
    extract_lets +onlyGivenNames x5
    dsimp only
    refine cnt_only p_regs ?_
    assumption
  · dsimp only
    assumption

theorem cePeriod_only (p_regs : e .regs) (p_mem : e .mem) (h : Only e a d) : Only e a (cePeriod d) := by
  unfold cePeriod
  split
  · assumption
  · extract_lets +onlyGivenNames x1
    extract_lets +onlyGivenNames x2
    have h2 : Only e a x2 := by
      unfold x2
      refine Only.memUpd p_mem ?_ _ rfl rfl rfl
      assumption
    try clear_value x2
    refine Only.foldl ?_ (fun d3 y3 h3 => ?_)
    · assumption
    · extract_lets +onlyGivenNames x4
      refine setReg_only p_regs ?_
      assumption

theorem coolStacks_only (p_regs : e .regs) (p_out : e .out) (p_hif : e .hif) (p_mem : e .mem) (h : Only e a d) : Only e a
    (coolStacks d) := by
  unfold coolStacks
  refine Only.foldl ?_ (fun d1 y1 h1 => ?_)
  · refine Only.memUpd p_mem ?_ _ rfl rfl rfl
    assumption
  · extract_lets +onlyGivenNames x2
    refine raise_only p_regs p_out p_hif ?_
    refine putB_only p_regs ?_
    assumption

theorem retrainStep_only (p_regs : e .regs) (p_out : e .out) (p_hif : e .hif) (p_mem : e .mem) {x1i x2i} (h : Only e a d) :
    Only e a (retrainStep d x1i x2i) := by
  unfold retrainStep
  split
  · assumption
  · extract_lets +onlyGivenNames x1
    split
    · refine Only.memUpd p_mem ?_ _ rfl rfl rfl
      assumption
    · extract_lets +onlyGivenNames x2
      extract_lets +onlyGivenNames x3
      have h3 : Only e a x3 := by
        unfold x3
        refine Only.memUpd p_mem ?_ _ rfl rfl rfl
        assumption
      try clear_value x3
      extract_lets +onlyGivenNames x4
      refine raise_only p_regs p_out p_hif ?_
      refine setF_only p_regs ?_
      refine putB_only p_regs ?_
      assumption

theorem ceThresh_only (p_regs : e .regs) (p_out : e .out) (p_hif : e .hif) (p_mem : e .mem) {x1i x2i} (h : Only e a d) :
    Only e a (ceThresh d x1i x2i) := by
  unfold ceThresh
  extract_lets +onlyGivenNames x1
  split
  · assumption
  · extract_lets +onlyGivenNames x2
    extract_lets +onlyGivenNames x3
    have h3 : Only e a x3 := by
      unfold x3
      refine raise_only p_regs p_out p_hif ?_
      refine Only.memUpd p_mem ?_ _ rfl rfl rfl
      assumption
    try clear_value x3
    extract_lets +onlyGivenNames x4
    split
    · assumption
    · refine Only.memUpd p_mem ?_ _ rfl rfl rfl
      assumption

theorem refuseAsk_only (p_regs : e .regs) (p_out : e .out) (p_hif : e .hif) (p_mem : e .mem) {x1i} (h : Only e a d) : Only e
    a (refuseAsk d x1i) := by
  unfold refuseAsk
  extract_lets +onlyGivenNames x1
  extract_lets +onlyGivenNames x2
  have h2 : Only e a x2 := by
    unfold x2
    refine hbmUnmapped_only p_regs p_out p_hif ?_
    refine Only.memUpd p_mem ?_ _ rfl rfl rfl
    assumption
  try clear_value x2
  split
  · assumption
  · refine Only.memUpd p_mem ?_ _ rfl rfl rfl
    assumption

theorem startWindows_only (p_regs : e .regs) (p_out : e .out) (p_hif : e .hif) (p_mem : e .mem) (h : Only e a d) : Only e a
    (startWindows d) := by
  unfold startWindows
  refine Only.foldl ?_ (fun d1 y1 h1 => ?_)
  · assumption
  · split
    · assumption
    · extract_lets +onlyGivenNames x2
      extract_lets +onlyGivenNames x3
      have h3 : Only e a x3 := by
        unfold x3
        refine Only.memUpd p_mem ?_ _ rfl rfl rfl
        assumption
      try clear_value x3
      extract_lets +onlyGivenNames x4
      refine raise_only p_regs p_out p_hif ?_
      refine cnt_only p_regs ?_
      refine setF_only p_regs ?_
      refine putB_only p_regs ?_
      assumption

theorem stackTemp_only (p_regs : e .regs) (p_out : e .out) (p_hif : e .hif) (p_mem : e .mem) {x1i x2i} (h : Only e a d) :
    Only e a (stackTemp d x1i x2i) := by
  unfold stackTemp
  extract_lets +onlyGivenNames x1
  extract_lets +onlyGivenNames x2
  have h2 : Only e a x2 := by
    unfold x2
    refine setF_only p_regs ?_
    assumption
  try clear_value x2
  extract_lets +onlyGivenNames x3
  split
  · extract_lets +onlyGivenNames x4
    extract_lets +onlyGivenNames x5
    have h5 : Only e a x5 := by
      unfold x5
      refine Only.memUpd p_mem ?_ _ rfl rfl rfl
      assumption
    try clear_value x5
    split
    · assumption
    · refine raise_only p_regs p_out p_hif ?_
      refine putB_only p_regs ?_
      assumption
  · split
    · refine Only.memUpd p_mem ?_ _ rfl rfl rfl
      assumption
    · assumption

theorem enterAsk_only (p_regs : e .regs) (p_out : e .out) (p_hif : e .hif) (p_mem : e .mem) {x1i x2i x3i} (h : Only e a d) :
    Only e a (enterAsk d x1i x2i x3i) := by
  unfold enterAsk
  split
  · refine refuseAsk_only p_regs p_out p_hif p_mem ?_
    assumption
  · split
    · refine refuseAsk_only p_regs p_out p_hif p_mem ?_
      assumption
    · extract_lets +onlyGivenNames x1
      extract_lets +onlyGivenNames x2
      extract_lets +onlyGivenNames x3
      split
      · split
        · assumption
        · extract_lets +onlyGivenNames x4
          extract_lets +onlyGivenNames x5
          extract_lets +onlyGivenNames x6
          have h6 : Only e a x6 := by
            unfold x6
            refine Only.memUpd p_mem ?_ _ rfl rfl rfl
            assumption
          try clear_value x6
          refine putPc_only p_mem ?_
          assumption
      · split
        · assumption
        · extract_lets +onlyGivenNames x7
          extract_lets +onlyGivenNames x8
          extract_lets +onlyGivenNames x9
          have h9 : Only e a x9 := by
            unfold x9
            refine Only.memUpd p_mem ?_ _ rfl rfl rfl
            assumption
          try clear_value x9
          refine putPc_only p_mem ?_
          assumption

theorem hbmBoundary_only (p_regs : e .regs) (p_out : e .out) (p_hif : e .hif) (p_evt : e .evt) (p_ldg : e .ldg) (p_mem : e
    .mem) {x1i} (h : Only e a d) : Only e a (hbmBoundary d x1i) := by
  unfold hbmBoundary
  split
  · refine settleExtents_only p_regs p_evt p_ldg p_mem ?_
    assumption
  · extract_lets +onlyGivenNames x1
    have h1 : Only e a x1 := by
      unfold x1
      refine coolStacks_only p_regs p_out p_hif p_mem ?_
      assumption
    try clear_value x1
    extract_lets +onlyGivenNames x2
    have h2 : Only e a x2 := by
      unfold x2
      refine Only.foldl ?_ (fun d3 y3 h3 => ?_)
      · assumption
      · refine stackTemp_only p_regs p_out p_hif p_mem ?_
        assumption
    try clear_value x2
    refine settleExtents_only p_regs p_evt p_ldg p_mem ?_
    refine startWindows_only p_regs p_out p_hif p_mem ?_
    refine cePeriod_only p_regs p_mem ?_
    assumption

theorem access_only (p_regs : e .regs) (p_out : e .out) (p_hif : e .hif) (p_evt : e .evt) (p_hbm : e .hbm) (p_mem : e .mem)
    (p_sys : e .sys) {x1i x2i} (h : Only e a d) : Only e a (access d x1i x2i) := by
  unfold access
  extract_lets +onlyGivenNames x1
  extract_lets +onlyGivenNames x2
  extract_lets +onlyGivenNames x3
  extract_lets +onlyGivenNames x4
  extract_lets +onlyGivenNames x5
  have h5 : Only e a x5 := by
    unfold x5
    split
    · refine hbmUe_only p_regs p_out p_hif p_evt p_sys ?_
      split
      · assumption
      · refine Only.memUpd p_mem ?_ _ rfl rfl rfl
        assumption
    · split
      · refine hbmCe_only p_regs p_out p_hif p_mem p_sys ?_
        assumption
      · assumption
  try clear_value x5
  split
  · refine hbmPut_only p_hbm p_mem ?_
    assumption
  · refine Only.memUpd p_mem ?_ _ rfl rfl rfl
    assumption

theorem serveReq_only (p_regs : e .regs) (p_out : e .out) (p_hif : e .hif) (p_evt : e .evt) (p_hbm : e .hbm) (p_mem : e
    .mem) (p_sys : e .sys) {x1i x2i} (h : Only e a d) : Only e a (serveReq d x1i x2i) := by
  unfold serveReq
  extract_lets +onlyGivenNames x1
  extract_lets +onlyGivenNames x2
  extract_lets +onlyGivenNames x3
  extract_lets +onlyGivenNames x4
  extract_lets +onlyGivenNames x5
  extract_lets +onlyGivenNames x6
  have h6 : Only e a x6.1 := by
    unfold x6
    split
    · dsimp only
      assumption
    · refine activate_only p_regs ?_
      assumption
  try clear_value x6
  extract_lets +onlyGivenNames x7
  have h7 : Only e a x7 := by
    unfold x7
    refine access_only p_regs p_out p_hif p_evt p_hbm p_mem p_sys ?_
    assumption
  try clear_value x7
  extract_lets +onlyGivenNames x8
  extract_lets +onlyGivenNames x9
  extract_lets +onlyGivenNames x10
  refine putPc_only p_mem ?_
  assumption

theorem scrub_only (p_regs : e .regs) (p_out : e .out) (p_hif : e .hif) (p_evt : e .evt) (p_mem : e .mem) (p_sys : e .sys)
    {x1i x2i} (h : Only e a d) : Only e a (scrub d x1i x2i) := by
  unfold scrub
  extract_lets +onlyGivenNames x1
  extract_lets +onlyGivenNames x2
  split
  · assumption
  · split
    · refine hbmUe_only p_regs p_out p_hif p_evt p_sys ?_
      split
      · assumption
      · refine Only.memUpd p_mem ?_ _ rfl rfl rfl
        assumption
    · split
      · refine cnt_only p_regs ?_
        refine hbmCe_only p_regs p_out p_hif p_mem p_sys ?_
        assumption
      · assumption

theorem commandSlot_only (p_regs : e .regs) (p_out : e .out) (p_hif : e .hif) (p_evt : e .evt) (p_hbm : e .hbm) (p_mem : e
    .mem) (p_sys : e .sys) {x1i x2i x3i x4i} (h : Only e a d) : Only e a (commandSlot d x1i x2i x3i x4i) := by
  unfold commandSlot
  split
  · assumption
  · extract_lets +onlyGivenNames x1
    extract_lets +onlyGivenNames x2
    have h2 : Only e a x2 := by
      unfold x2
      refine putPc_only p_mem ?_
      assumption
    try clear_value x2
    extract_lets +onlyGivenNames x3
    have h3 : Only e a x3 := by
      unfold x3
      split
      · assumption
      · refine Only.foldl ?_ (fun d4 y4 h4 => ?_)
        · assumption
        · refine enterAsk_only p_regs p_out p_hif p_mem ?_
          assumption
    try clear_value x3
    split
    · assumption
    · extract_lets +onlyGivenNames x5
      split
      · refine putPc_only p_mem ?_
        assumption
      · split
        · assumption
        · split
          · assumption
          · refine serveReq_only p_regs p_out p_hif p_evt p_hbm p_mem p_sys ?_
            assumption

/-! ### HostRings -/

theorem nudge_only (p_hif : e .hif) {x1i} (h : Only e a d) : Only e a (nudge d x1i) := by
  unfold nudge
  split
  · assumption
  · refine Only.hifUpd p_hif ?_ _
    assumption

theorem pagesDue_only (p_hif : e .hif) (h : Only e a d) : Only e a (pagesDue d) := by
  unfold pagesDue
  refine Only.hifUpd p_hif ?_ _
  assumption

theorem writeFeature_only (p_regs : e .regs) {x1i x2i x3i} (h : Only e a d) : Only e a (writeFeature d x1i x2i x3i) := by
  unfold writeFeature
  split
  · assumption
  · refine setReg_only p_regs ?_
    assumption

theorem writeRingWord_only (p_regs : e .regs) {x1i x2i x3i x4i x5i} (h : Only e a d) : Only e a (writeRingWord d x1i x2i x3i
    x4i x5i) := by
  unfold writeRingWord
  extract_lets +onlyGivenNames x1
  split
  · assumption
  · split
    · refine setReg_only p_regs ?_
      assumption
    · refine ringFlag_only p_regs ?_
      assumption

theorem writeLock_only (p_regs : e .regs) {x1i x2i} (h : Only e a d) : Only e a (writeLock d x1i x2i) := by
  unfold writeLock
  split
  · refine putB_only p_regs ?_
    assumption
  · assumption

theorem stopRing_only (p_regs : e .regs) (p_hif : e .hif) {x1i x2i} (h : Only e a d) : Only e a (stopRing d x1i x2i) := by
  unfold stopRing
  refine putRing_only p_hif ?_
  refine putB_only p_regs ?_
  assumption

theorem idleRing_only (p_regs : e .regs) {x1i x2i} (h : Only e a d) : Only e a (idleRing d x1i x2i) := by
  unfold idleRing
  extract_lets +onlyGivenNames x1
  split
  · assumption
  · refine ringFlag_only p_regs ?_
    assumption

theorem writeRingCfg_only (p_regs : e .regs) (p_hif : e .hif) {x1i x2i x3i} (h : Only e a d) : Only e a (writeRingCfg d x1i
    x2i x3i) := by
  unfold writeRingCfg
  extract_lets +onlyGivenNames x1
  extract_lets +onlyGivenNames x2
  extract_lets +onlyGivenNames x3
  extract_lets +onlyGivenNames x4
  have h4 : Only e a x4 := by
    unfold x4
    split
    · assumption
    · split
      · refine setReg_only p_regs ?_
        assumption
      · refine ringFlag_only p_regs ?_
        assumption
  try clear_value x4
  split
  · split
    · assumption
    · split
      · extract_lets +onlyGivenNames x5
        have h5 : Only e a x5 := by
          unfold x5
          refine putB_only p_regs ?_
          assumption
        try clear_value x5
        extract_lets +onlyGivenNames x6
        have h6 : Only e a x6 := by
          unfold x6
          refine setReg_only p_regs ?_
          assumption
        try clear_value x6
        extract_lets +onlyGivenNames x7
        have h7 : Only e a x7 := by
          unfold x7
          refine setF_only p_regs ?_
          assumption
        try clear_value x7
        extract_lets +onlyGivenNames x8
        have h8 : Only e a x8 := by
          unfold x8
          refine putB_only p_regs ?_
          assumption
        try clear_value x8
        refine putRing_only p_hif ?_
        assumption
      · refine ringFlag_only p_regs ?_
        assumption
  · split
    · refine stopRing_only p_regs p_hif ?_
      assumption
    · assumption

theorem linkChange_only (p_regs : e .regs) (p_out : e .out) (p_hif : e .hif) {x1i x2i} (h : Only e a d) : Only e a
    (linkChange d x1i x2i) := by
  unfold linkChange
  split
  · assumption
  · refine raise_only p_regs p_out p_hif ?_
    refine setF_only p_regs ?_
    refine setF_only p_regs ?_
    assumption

theorem faultRing_only (p_regs : e .regs) (p_out : e .out) (p_hif : e .hif) {x1i x2i x3i} (h : Only e a d) : Only e a
    (faultRing d x1i x2i x3i) := by
  unfold faultRing
  extract_lets +onlyGivenNames x1
  extract_lets +onlyGivenNames x2
  have h2 : Only e a x2 := by
    unfold x2
    refine ringFlag_only p_regs ?_
    refine stopRing_only p_regs p_hif ?_
    assumption
  try clear_value x2
  extract_lets +onlyGivenNames x3
  extract_lets +onlyGivenNames x4
  have h4 : Only e a x4 := by
    unfold x4
    refine Only.hifUpd p_hif ?_ _
    assumption
  try clear_value x4
  refine raise_only p_regs p_out p_hif ?_
  assumption

theorem doorbell_only (p_regs : e .regs) (p_out : e .out) (p_hif : e .hif) {x1i x2i x3i x4i} (h : Only e a d) : Only e a
    (doorbell d x1i x2i x3i x4i) := by
  unfold doorbell
  extract_lets +onlyGivenNames x1
  extract_lets +onlyGivenNames x2
  split
  · assumption
  · split
    · refine raise_only p_regs p_out p_hif ?_
      refine ringFlag_only p_regs ?_
      assumption
    · split
      · assumption
      · split
        · extract_lets +onlyGivenNames x3
          split
          · refine faultRing_only p_regs p_out p_hif ?_
            assumption
          · split
            · assumption
            · split
              · assumption
              · refine faultRing_only p_regs p_out p_hif ?_
                assumption
              · extract_lets +onlyGivenNames x4
                extract_lets +onlyGivenNames x5
                refine ringAdvance_only p_regs ?_
                refine putRing_only p_hif ?_
                assumption
        · split
          · refine faultRing_only p_regs p_out p_hif ?_
            assumption
          · extract_lets +onlyGivenNames x6
            extract_lets +onlyGivenNames x7
            have h7 : Only e a x7 := by
              unfold x7
              refine putRing_only p_hif ?_
              assumption
            try clear_value x7
            split
            · refine eqOverflow_only p_regs p_out p_hif ?_
              assumption
            · assumption

theorem acceptOne_only (p_regs : e .regs) (p_out : e .out) (p_hif : e .hif) (p_sys : e .sys) (h : Only e a d) : Only e a
    (acceptOne d) := by
  unfold acceptOne
  split
  · assumption
  · extract_lets +onlyGivenNames x1
    split
    · assumption
    · extract_lets +onlyGivenNames x2
      extract_lets +onlyGivenNames x3
      have h3 : Only e a x3 := by
        unfold x3
        refine putRing_only p_hif ?_
        assumption
      try clear_value x3
      extract_lets +onlyGivenNames x4
      extract_lets +onlyGivenNames x5
      have h5 : Only e a x5 := by
        unfold x5
        refine putRing_only p_hif ?_
        assumption
      try clear_value x5
      extract_lets +onlyGivenNames x6
      refine settle_only p_regs p_out p_hif p_sys ?_
      refine Only.hifUpd p_hif ?_ _
      assumption

theorem fetchPage_only (p_regs : e .regs) (p_out : e .out) (p_hif : e .hif) {x1i x2i} (h : Only e a d) : Only e a (fetchPage
    d x1i x2i) := by
  unfold fetchPage
  split
  · assumption
  · extract_lets +onlyGivenNames x1
    extract_lets +onlyGivenNames x2
    have h2 : Only e a x2 := by
      unfold x2
      refine Only.hifUpd p_hif ?_ _
      assumption
    try clear_value x2
    refine Only.foldl ?_ (fun d3 y3 h3 => ?_)
    · assumption
    · refine doorbell_only p_regs p_out p_hif ?_
      assumption

/-! ### Bridle -/

theorem writeShaper_only (p_regs : e .regs) (p_brd : e .brd) {x1i x2i} (h : Only e a d) : Only e a (writeShaper d x1i x2i) :=
    by
  unfold writeShaper
  split
  · extract_lets +onlyGivenNames x1
    have h1 : Only e a x1 := by
      unfold x1
      refine setReg_only p_regs ?_
      assumption
    try clear_value x1
    split
    · refine putBrd_only p_brd ?_
      assumption
    · assumption
  · split
    · refine setReg_only p_regs ?_
      assumption
    · assumption

theorem showTokens_only (p_regs : e .regs) {x1i x2i} (h : Only e a d) : Only e a (showTokens d x1i x2i) := by
  unfold showTokens
  refine setReg_only p_regs ?_
  assumption

theorem writeGcl_only (p_regs : e .regs) {x1i x2i x3i} (h : Only e a d) : Only e a (writeGcl d x1i x2i x3i) := by
  unfold writeGcl
  split
  · refine putB_only p_regs ?_
    assumption
  · refine setReg_only p_regs ?_
    assumption

theorem pickQueue_only (p_brd : e .brd) {x1i x2i} (h : Only e a d) : Only e a (pickQueue d x1i x2i).1 := by
  unfold pickQueue
  split
  · dsimp only
    assumption
  · extract_lets +onlyGivenNames x1
    extract_lets +onlyGivenNames x2
    extract_lets +onlyGivenNames x3
    split
    · dsimp only
      refine putBrd_only p_brd ?_
      assumption
    · dsimp only
      refine putBrd_only p_brd ?_
      assumption

theorem gclTakeover_only (p_regs : e .regs) (p_tim : e .tim) (p_evt : e .evt) (p_brd : e .brd) {x1i x2i} (h : Only e a d) :
    Only e a (gclTakeover d x1i x2i) := by
  unfold gclTakeover
  extract_lets +onlyGivenNames x1
  split
  · assumption
  · split
    · assumption
    · extract_lets +onlyGivenNames x2
      have h2 : Only e a x2 := by
        unfold x2
        refine advance_only p_tim ?_
        assumption
      try clear_value x2
      extract_lets +onlyGivenNames x3
      extract_lets +onlyGivenNames x4
      have h4 : Only e a x4 := by
        unfold x4
        refine putBrd_only p_brd ?_
        assumption
      try clear_value x4
      extract_lets +onlyGivenNames x5
      have h5 : Only e a x5 := by
        unfold x5
        refine setF_only p_regs ?_
        refine putB_only p_regs ?_
        refine putB_only p_regs ?_
        refine putB_only p_regs ?_
        assumption
      try clear_value x5
      extract_lets +onlyGivenNames x6
      have h6 : Only e a x6 := by
        unfold x6
        refine setReg_only p_regs ?_
        refine putB_only p_regs ?_
        assumption
      try clear_value x6
      refine raiseOnce_only p_evt ?_
      assumption

theorem tickShaper_only (p_regs : e .regs) (p_brd : e .brd) {x1i x2i} (h : Only e a d) : Only e a (tickShaper d x1i x2i) :=
    by
  unfold tickShaper
  extract_lets +onlyGivenNames x1
  extract_lets +onlyGivenNames x2
  extract_lets +onlyGivenNames x3
  extract_lets +onlyGivenNames x4
  extract_lets +onlyGivenNames x5
  extract_lets +onlyGivenNames x6
  extract_lets +onlyGivenNames x7
  split
  · refine putBrd_only p_brd ?_
    assumption
  · extract_lets +onlyGivenNames x8
    have h8 : Only e a x8 := by
      unfold x8
      refine putBrd_only p_brd ?_
      assumption
    try clear_value x8
    extract_lets +onlyGivenNames x9
    refine showTokens_only p_regs ?_
    refine putQ_only p_brd ?_
    assumption

theorem noteDelay_only (p_regs : e .regs) (p_evt : e .evt) (p_brd : e .brd) {x1i x2i x3i} (h : Only e a d) : Only e a
    (noteDelay d x1i x2i x3i) := by
  unfold noteDelay
  extract_lets +onlyGivenNames x1
  extract_lets +onlyGivenNames x2
  extract_lets +onlyGivenNames x3
  have h3 : Only e a x3 := by
    unfold x3
    refine maxReg_only p_regs ?_
    refine putQ_only p_brd ?_
    assumption
  try clear_value x3
  extract_lets +onlyGivenNames x4
  split
  · refine raiseOnce_only p_evt ?_
    refine satF_only p_regs ?_
    refine putB_only p_regs ?_
    assumption
  · assumption

theorem gateEntry_only (p_tim : e .tim) (p_brd : e .brd) {x1i x2i} (h : Only e a d) : Only e a (gateEntry d x1i x2i) := by
  unfold gateEntry
  extract_lets +onlyGivenNames x1
  split
  · assumption
  · refine putBrd_only p_brd ?_
    refine advance_only p_tim ?_
    assumption

theorem armBad_only (p_regs : e .regs) (p_evt : e .evt) {x1i x2i} (h : Only e a d) : Only e a (armBad d x1i x2i) := by
  unfold armBad
  refine raiseOnce_only p_evt ?_
  refine putB_only p_regs ?_
  assumption

theorem watermarkClear_only (p_regs : e .regs) {x1i x2i} (h : Only e a d) : Only e a (watermarkClear d x1i x2i) := by
  unfold watermarkClear
  split
  · assumption
  · split
    · refine wmClear_only p_regs ?_
      assumption
    · refine wmClear_only p_regs ?_
      assumption
    · split
      · refine wmClear_only p_regs ?_
        assumption
      · assumption

theorem shaperTick_only (p_regs : e .regs) (p_tim : e .tim) (p_brd : e .brd) {x1i x2i} (h : Only e a d) : Only e a
    (shaperTick d x1i x2i) := by
  unfold shaperTick
  split
  · assumption
  · extract_lets +onlyGivenNames x1
    have h1 : Only e a x1 := by
      unfold x1
      refine Only.foldl ?_ (fun d2 y2 h2 => ?_)
      · refine advance_only p_tim ?_
        assumption
      · refine tickShaper_only p_regs p_brd ?_
        assumption
    try clear_value x1
    refine putBrd_only p_brd ?_
    assumption

theorem writeGclCtrl_only (p_regs : e .regs) (p_freeCtr : e .freeCtr) (p_tim : e .tim) (p_evt : e .evt) (p_brd : e .brd)
    {x1i x2i x3i} (h : Only e a d) : Only e a (writeGclCtrl d x1i x2i x3i) := by
  unfold writeGclCtrl
  extract_lets +onlyGivenNames x1
  have h1 : Only e a x1 := by
    unfold x1
    split
    · refine gclTakeover_only p_regs p_tim p_evt p_brd ?_
      assumption
    · assumption
  try clear_value x1
  extract_lets +onlyGivenNames x2
  have h2 : Only e a x2 := by
    unfold x2
    refine setF_only p_regs ?_
    assumption
  try clear_value x2
  extract_lets +onlyGivenNames x3
  split
  · assumption
  · split
    · extract_lets +onlyGivenNames x4
      have h4 : Only e a x4.2 := by
        unfold x4
        refine drawFree_only p_freeCtr ?_
        assumption
      try clear_value x4
      refine armBad_only p_regs p_evt ?_
      assumption
    · extract_lets +onlyGivenNames x5
      split
      · refine armBad_only p_regs p_evt ?_
        assumption
      · split
        · refine armBad_only p_regs p_evt ?_
          assumption
        · extract_lets +onlyGivenNames x6
          extract_lets +onlyGivenNames x7
          have h7 : Only e a x7 := by
            unfold x7
            refine putB_only p_regs ?_
            refine putB_only p_regs ?_
            assumption
          try clear_value x7
          refine putBrd_only p_brd ?_
          assumption

theorem startFrame_only (p_regs : e .regs) (p_evt : e .evt) (p_mac : e .mac) (p_brd : e .brd) {x1i x2i x3i} (h : Only e a d)
    : Only e a (startFrame d x1i x2i x3i) := by
  unfold startFrame
  split
  · assumption
  · extract_lets +onlyGivenNames x1
    extract_lets +onlyGivenNames x2
    have h2 : Only e a x2 := by
      unfold x2
      refine cnt_only p_regs ?_
      refine popQ_only p_regs p_evt p_brd ?_
      assumption
    try clear_value x2
    extract_lets +onlyGivenNames x3
    have h3 : Only e a x3 := by
      unfold x3
      refine noteDelay_only p_regs p_evt p_brd ?_
      assumption
    try clear_value x3
    extract_lets +onlyGivenNames x4
    extract_lets +onlyGivenNames x5
    have h5 : Only e a x5 := by
      unfold x5
      refine putBrd_only p_brd ?_
      assumption
    try clear_value x5
    extract_lets +onlyGivenNames x6
    extract_lets +onlyGivenNames x7
    have h7 : Only e a x7 := by
      unfold x7
      split
      · refine showTokens_only p_regs ?_
        refine putQ_only p_brd ?_
        assumption
      · assumption
    try clear_value x7
    refine putPort_only p_mac ?_
    assumption

theorem wheelTick_only (p_regs : e .regs) (p_out : e .out) (p_tim : e .tim) (p_hif : e .hif) (p_evt : e .evt) (p_ldg : e
    .ldg) (p_pke : e .pke) (p_brd : e .brd) (p_sys : e .sys) {x1i x2i} (h : Only e a d) : Only e a (wheelTick d x1i x2i) :=
    by
  unfold wheelTick
  extract_lets +onlyGivenNames x1
  split
  · assumption
  · extract_lets +onlyGivenNames x2
    have h2 : Only e a x2 := by
      unfold x2
      refine advance_only p_tim ?_
      assumption
    try clear_value x2
    extract_lets +onlyGivenNames x3
    extract_lets +onlyGivenNames x4
    extract_lets +onlyGivenNames x5
    have h5 : Only e a x5 := by
      unfold x5
      refine putBrd_only p_brd ?_
      assumption
    try clear_value x5
    refine Only.foldl ?_ (fun d6 y6 h6 => ?_)
    · assumption
    · split
      · refine endFrame_only p_regs p_out p_tim p_hif p_evt p_ldg p_pke p_sys ?_
        refine cnt_only p_regs ?_
        refine setDepth_only p_regs p_evt ?_
        assumption
      · refine pushQ_only p_brd ?_
        assumption

theorem drainDown_only (p_regs : e .regs) (p_out : e .out) (p_tim : e .tim) (p_hif : e .hif) (p_evt : e .evt) (p_ldg : e
    .ldg) (p_pke : e .pke) (p_brd : e .brd) (p_sys : e .sys) {x1i x2i} (h : Only e a d) : Only e a (drainDown d x1i x2i) :=
    by
  unfold drainDown
  extract_lets +onlyGivenNames x1
  have h1 : Only e a x1.1 := by
    unfold x1
    refine pickQueue_only p_brd ?_
    assumption
  try clear_value x1
  extract_lets +onlyGivenNames x2
  have h2 : Only e a x2 := by
    unfold x2
    assumption
  try clear_value x2
  split
  · assumption
  · split
    · assumption
    · extract_lets +onlyGivenNames x3
      have h3 : Only e a x3 := by
        unfold x3
        refine cnt_only p_regs ?_
        refine popQ_only p_regs p_evt p_brd ?_
        assumption
      try clear_value x3
      extract_lets +onlyGivenNames x4
      extract_lets +onlyGivenNames x5
      have h5 : Only e a x5 := by
        unfold x5
        refine putBrd_only p_brd ?_
        assumption
      try clear_value x5
      refine endFrame_only p_regs p_out p_tim p_hif p_evt p_ldg p_pke p_sys ?_
      assumption

theorem ageDropN_only (p_regs : e .regs) (p_freeCtr : e .freeCtr) (p_out : e .out) (p_tim : e .tim) (p_hif : e .hif) (p_evt
    : e .evt) (p_ldg : e .ldg) (p_pke : e .pke) (p_brd : e .brd) (p_sys : e .sys) {n p q} (h : Only e a d) : Only e a
    (ageDropN n d p q) := by
  induction n generalizing d with
  | zero => exact h
  | succ n ih =>
    unfold ageDropN
    split
    · assumption
    · extract_lets +onlyGivenNames x1
      split
      · refine ih ?_
        refine dropFrame_only p_regs p_freeCtr p_out p_tim p_hif p_evt p_ldg p_pke p_sys ?_
        refine raiseOnce_only p_evt ?_
        refine cnt_only p_regs ?_
        refine popQ_only p_regs p_evt p_brd ?_
        assumption
      · assumption

theorem gateDropN_only (p_regs : e .regs) (p_freeCtr : e .freeCtr) (p_out : e .out) (p_tim : e .tim) (p_hif : e .hif) (p_evt
    : e .evt) (p_ldg : e .ldg) (p_pke : e .pke) (p_brd : e .brd) (p_sys : e .sys) {n p q} (h : Only e a d) : Only e a
    (gateDropN n d p q) := by
  induction n generalizing d with
  | zero => exact h
  | succ n ih =>
    unfold gateDropN
    split
    · assumption
    · split
      · refine ih ?_
        refine dropFrame_only p_regs p_freeCtr p_out p_tim p_hif p_evt p_ldg p_pke p_sys ?_
        refine raiseOnce_only p_evt ?_
        refine cnt_only p_regs ?_
        refine popQ_only p_regs p_evt p_brd ?_
        assumption
      · assumption

theorem dropHeads_only (p_regs : e .regs) (p_freeCtr : e .freeCtr) (p_out : e .out) (p_tim : e .tim) (p_hif : e .hif) (p_evt
    : e .evt) (p_ldg : e .ldg) (p_pke : e .pke) (p_brd : e .brd) (p_sys : e .sys) {x1i} (h : Only e a d) : Only e a
    (dropHeads d x1i) := by
  unfold dropHeads
  refine Only.foldl ?_ (fun d1 y1 h1 => ?_)
  · assumption
  · extract_lets +onlyGivenNames x2
    refine gateDropN_only p_regs p_freeCtr p_out p_tim p_hif p_evt p_ldg p_pke p_brd p_sys ?_
    refine ageDropN_only p_regs p_freeCtr p_out p_tim p_hif p_evt p_ldg p_pke p_brd p_sys ?_
    assumption

theorem brdBoundary_only (p_regs : e .regs) (p_freeCtr : e .freeCtr) (p_out : e .out) (p_tim : e .tim) (p_hif : e .hif)
    (p_evt : e .evt) (p_ldg : e .ldg) (p_pke : e .pke) (p_brd : e .brd) (p_sys : e .sys) (h : Only e a d) : Only e a
    (brdBoundary d) := by
  unfold brdBoundary
  refine Only.foldl ?_ (fun d1 y1 h1 => ?_)
  · assumption
  · refine Only.foldl ?_ (fun d2 y2 h2 => ?_)
    · assumption
    · extract_lets +onlyGivenNames x3
      have h3 : Only e a x3 := by
        unfold x3
        refine ageDropN_only p_regs p_freeCtr p_out p_tim p_hif p_evt p_ldg p_pke p_brd p_sys ?_
        assumption
      try clear_value x3
      extract_lets +onlyGivenNames x4
      refine putQ_only p_brd ?_
      refine setReg_only p_regs ?_
      assumption

theorem selectAt_only (p_regs : e .regs) (p_freeCtr : e .freeCtr) (p_out : e .out) (p_tim : e .tim) (p_hif : e .hif) (p_evt
    : e .evt) (p_ldg : e .ldg) (p_mac : e .mac) (p_pke : e .pke) (p_brd : e .brd) (p_sys : e .sys) {x1i x2i} (h : Only e a
    d) : Only e a (selectAt d x1i x2i) := by
  unfold selectAt
  split
  · refine drainDown_only p_regs p_out p_tim p_hif p_evt p_ldg p_pke p_brd p_sys ?_
    assumption
  · split
    · assumption
    · extract_lets +onlyGivenNames x1
      have h1 : Only e a x1 := by
        unfold x1
        refine dropHeads_only p_regs p_freeCtr p_out p_tim p_hif p_evt p_ldg p_pke p_brd p_sys ?_
        assumption
      try clear_value x1
      extract_lets +onlyGivenNames x2
      have h2 : Only e a x2.1 := by
        unfold x2
        refine pickQueue_only p_brd ?_
        assumption
      try clear_value x2
      split
      · refine startFrame_only p_regs p_evt p_mac p_brd ?_
        assumption
      · assumption

theorem selection_only (p_regs : e .regs) (p_freeCtr : e .freeCtr) (p_out : e .out) (p_tim : e .tim) (p_hif : e .hif) (p_evt
    : e .evt) (p_ldg : e .ldg) (p_mac : e .mac) (p_pke : e .pke) (p_brd : e .brd) (p_sys : e .sys) {x1i x2i} (h : Only e a
    d) : Only e a (selection d x1i x2i) := by
  unfold selection
  extract_lets +onlyGivenNames x1
  split
  · assumption
  · refine selectAt_only p_regs p_freeCtr p_out p_tim p_hif p_evt p_ldg p_mac p_pke p_brd p_sys ?_
    refine advance_only p_tim ?_
    assumption

end Sys2Proof.Machine
end

