-- ==== Sys2Proof/Laws/Frame8.lean ====
section
/-! SUPPORT. What each operation of EventsCmd, Boundary, CoreAlu, CoreCtl, CoreFlow, CoreMem, Dma, Flr, HostRegs, Paddock, Ptp may write. -/
namespace Sys2Proof.Machine
variable {e : Piece → Prop} {a d : Dev}

/-! ### EventsCmd -/

theorem takeSnapshot_only (p_regs : e .regs) (p_ldg : e .ldg) (h : Only e a d) : Only e a (takeSnapshot d) := by
  unfold takeSnapshot
  split
  · assumption
  · extract_lets +onlyGivenNames x1
    refine putB_only p_regs ?_
    refine Only.ldgUpd p_ldg ?_ _ rfl
    assumption

theorem dumpRead_only (p_regs : e .regs) {x1i} (h : Only e a d) : Only e a (dumpRead d x1i).2 := by
  unfold dumpRead
  split
  · dsimp only
    assumption
  · extract_lets +onlyGivenNames x1
    extract_lets +onlyGivenNames x2
    extract_lets +onlyGivenNames x3
    extract_lets +onlyGivenNames x4
    have h4 : Only e a x4 := by
      unfold x4
      refine setF_only p_regs ?_
      refine setReg_only p_regs ?_
      assumption
    try clear_value x4
    dsimp only
    split
    · refine putB_only p_regs ?_
      assumption
    · assumption

theorem clearFatal_only (p_regs : e .regs) {x1i} (h : Only e a d) : Only e a (clearFatal d x1i) := by
  unfold clearFatal
  split
  · refine Only.foldl ?_ (fun d1 y1 h1 => ?_)
    · refine putB_only p_regs ?_
      assumption
    · refine setReg_only p_regs ?_
      assumption
  · assumption

theorem diagAct_only (p_regs : e .regs) (p_out : e .out) (p_hif : e .hif) {x1i} (h : Only e a d) : ActOnly e a (diagAct d
    x1i) := by
  unfold diagAct
  extract_lets +onlyGivenNames x1
  refine ActOnly.bind (fun w2 y2 => ?_)
  refine ActOnly.bind (fun w3 y3 => ?_)
  split
  · refine (show Only e a _ from ?_)
    refine raise_only p_regs p_out p_hif ?_
    assumption
  · extract_lets +onlyGivenNames x4
    refine (show Only e a _ from ?_)
    assumption

theorem ledgBreak_only (p_regs : e .regs) (p_out : e .out) (p_hif : e .hif) {x1i} (h : Only e a d) : Only e a (ledgBreak d
    x1i) := by
  unfold ledgBreak
  extract_lets +onlyGivenNames x1
  extract_lets +onlyGivenNames x2
  have h2 : Only e a x2 := by
    unfold x2
    split
    · assumption
    · refine setReg_only p_regs ?_
      assumption
  try clear_value x2
  refine raise_only p_regs p_out p_hif ?_
  assumption

theorem containBreaks_only (p_regs : e .regs) (p_out : e .out) (p_hif : e .hif) (p_evt : e .evt) (p_ldg : e .ldg) (p_dlr : e
    .dlr) (p_cores : e .cores) (p_mac : e .mac) (p_pke : e .pke) (p_mem : e .mem) (p_dma : e .dma) (p_fwd : e .fwd) (p_aud :
    e .aud) (p_vid : e .vid) (p_mode : e .mode) (p_sys : e .sys) {x1i} (h : Only e a d) : Only e a (containBreaks d x1i) :=
    by
  unfold containBreaks
  extract_lets +onlyGivenNames x1
  split
  · assumption
  · split
    · refine enterHalt_only p_regs p_out p_hif p_mode p_sys ?_
      assumption
    · split
      · refine enterHalt_only p_regs p_out p_hif p_mode p_sys ?_
        assumption
      · refine Only.foldl ?_ (fun d2 y2 h2 => ?_)
        · assumption
        · refine fenceQuarter_only p_regs p_out p_hif p_evt p_ldg p_dlr p_cores p_mac p_pke p_mem p_dma p_fwd p_aud p_vid
            p_mode p_sys ?_
          assumption

theorem auditDone_only (p_regs : e .regs) (p_out : e .out) (p_hif : e .hif) (p_evt : e .evt) (p_ldg : e .ldg) (p_dlr : e
    .dlr) (p_cores : e .cores) (p_mac : e .mac) (p_pke : e .pke) (p_mem : e .mem) (p_dma : e .dma) (p_fwd : e .fwd) (p_aud :
    e .aud) (p_vid : e .vid) (p_mode : e .mode) (p_sys : e .sys) {x1i} (h : Only e a d) : Only e a (auditDone d x1i) := by
  unfold auditDone
  split
  · assumption
  · extract_lets +onlyGivenNames x1
    extract_lets +onlyGivenNames x2
    extract_lets +onlyGivenNames x3
    have h3 : Only e a x3 := by
      unfold x3
      refine putB_only p_regs ?_
      refine Only.ldgUpd p_ldg ?_ _ rfl
      assumption
    try clear_value x3
    extract_lets +onlyGivenNames x4
    have h4 : Only e a x4 := by
      unfold x4
      refine maxReg_only p_regs ?_
      refine cnt_only p_regs ?_
      assumption
    try clear_value x4
    extract_lets +onlyGivenNames x5
    have h5 : Only e a x5 := by
      unfold x5
      split
      · refine raise_only p_regs p_out p_hif ?_
        assumption
      · assumption
    try clear_value x5
    refine containBreaks_only p_regs p_out p_hif p_evt p_ldg p_dlr p_cores p_mac p_pke p_mem p_dma p_fwd p_aud p_vid p_mode
        p_sys ?_
    refine Only.foldl ?_ (fun d6 y6 h6 => ?_)
    · assumption
    · refine ledgBreak_only p_regs p_out p_hif ?_
      assumption

/-! ### Boundary -/

theorem beginStride_only (p_regs : e .regs) (p_stride : e .stride) (p_tim : e .tim) {x1i x2i} (h : Only e a d) : Only e a
    (beginStride d x1i x2i) := by
  unfold beginStride
  extract_lets +onlyGivenNames x1
  extract_lets +onlyGivenNames x2
  extract_lets +onlyGivenNames x3
  have h3 : Only e a x3 := by
    unfold x3
    refine putB_only p_regs ?_
    refine advance_only p_tim ?_
    refine Only.strideUpd p_stride p_tim ?_ _
    assumption
  try clear_value x3
  split
  · refine satF_only p_regs ?_
    refine putB_only p_regs ?_
    assumption
  · assumption

theorem reportTack_only (p_regs : e .regs) (p_out : e .out) (p_hif : e .hif) (p_sys : e .sys) (h : Only e a d) : Only e a
    (reportTack d) := by
  unfold reportTack
  split
  · refine raise_only p_regs p_out p_hif ?_
    refine Only.sysUpd p_sys ?_ _ rfl rfl rfl rfl rfl rfl
    assumption
  · assumption

theorem modeBoundary_only (p_regs : e .regs) (p_out : e .out) (p_hif : e .hif) (p_mode : e .mode) (p_sys : e .sys) (h : Only
    e a d) : Only e a (modeBoundary d) := by
  unfold modeBoundary
  extract_lets +onlyGivenNames x1
  extract_lets +onlyGivenNames x2
  extract_lets +onlyGivenNames x3
  have h3 : Only e a x3 := by
    unfold x3
    refine Only.sysUpd p_sys ?_ _ rfl rfl rfl rfl rfl rfl
    assumption
  try clear_value x3
  split
  · refine setMode_only p_regs p_out p_hif p_mode p_sys ?_
    refine Only.sysUpd p_sys ?_ _ rfl rfl rfl rfl rfl rfl
    assumption
  · assumption

theorem phaseBoundary_only (p_regs : e .regs) (p_out : e .out) (p_hif : e .hif) (p_evt : e .evt) (p_hbm : e .hbm) (p_mem : e
    .mem) (p_vid : e .vid) (h : Only e a d) : Only e a (phaseBoundary d) := by
  unfold phaseBoundary
  split
  · assumption
  · extract_lets +onlyGivenNames x1
    have h1 : Only e a x1 := by
      unfold x1
      refine Only.foldl ?_ (fun d2 y2 h2 => ?_)
      · assumption
      · refine phaseLatch_only p_regs p_out p_hif p_evt p_hbm p_mem p_vid ?_
        assumption
    try clear_value x1
    refine Only.foldl ?_ (fun d3 y3 h3 => ?_)
    · assumption
    · refine encPhase_only p_evt p_vid ?_
      assumption

theorem buildBoundary_only (p_regs : e .regs) (p_out : e .out) (p_hif : e .hif) (p_evt : e .evt) (p_ldg : e .ldg) (p_dlr : e
    .dlr) (p_cores : e .cores) (p_pke : e .pke) (p_dma : e .dma) (p_fwd : e .fwd) (p_aud : e .aud) (p_vid : e .vid) (p_sys :
    e .sys) (h : Only e a d) : Only e a (buildBoundary d) := by
  unfold buildBoundary
  split
  · assumption
  · extract_lets +onlyGivenNames x1
    have h1 : Only e a x1 := by
      unfold x1
      refine Only.foldl ?_ (fun d2 y2 h2 => ?_)
      · assumption
      · refine buildFrame_only p_regs p_out p_hif p_evt p_ldg p_dlr p_cores p_pke p_dma p_fwd p_aud p_vid p_sys ?_
        assumption
    try clear_value x1
    refine Only.foldl ?_ (fun d3 y3 h3 => ?_)
    · assumption
    · refine buildEnc_only p_regs p_out p_hif p_evt p_ldg p_dlr p_cores p_pke p_dma p_fwd p_aud p_vid p_sys ?_
      assumption

theorem unitBoundary_only (p_regs : e .regs) (p_out : e .out) (p_hif : e .hif) (p_evt : e .evt) (p_ldg : e .ldg) (p_obj : e
    .obj) (p_dlr : e .dlr) (p_cores : e .cores) (p_pke : e .pke) (p_sec : e .sec) (p_mem : e .mem) (p_dma : e .dma) (p_fwd :
    e .fwd) (p_aud : e .aud) (p_vid : e .vid) (p_sys : e .sys) {x0i} (h : Only e a d) : Only e a (unitBoundary x0i d) := by
  unfold unitBoundary
  extract_lets +onlyGivenNames x1
  have h1 : Only e a x1 := by
    unfold x1
    refine dropClosed_only p_obj ?_
    refine freeErased_only p_regs p_evt p_ldg p_obj p_sec ?_
    refine hbmBoundary_only p_regs p_out p_hif p_evt p_ldg p_mem ?_
    refine sweepArenas_only p_regs p_evt p_ldg p_mem p_vid ?_
    assumption
  try clear_value x1
  extract_lets +onlyGivenNames x2
  have h2 : Only e a x2 := by
    unfold x2
    split
    · assumption
    · refine craftAfter_only p_aud ?_
      refine audioBoundary_only p_regs p_out p_hif p_evt p_ldg p_dlr p_cores p_pke p_dma p_fwd p_aud p_vid p_sys ?_
      refine craftBefore_only p_regs p_out p_aud ?_
      refine fwdBoundary_only p_regs p_evt p_ldg p_fwd ?_
      assumption
  try clear_value x2
  refine buildBoundary_only p_regs p_out p_hif p_evt p_ldg p_dlr p_cores p_pke p_dma p_fwd p_aud p_vid p_sys ?_
  assumption

theorem strideBoundary_only (p_regs : e .regs) (p_regsB : e .regsB) (p_freeCtr : e .freeCtr) (p_out : e .out) (p_stride : e
    .stride) (p_tim : e .tim) (p_hif : e .hif) (p_evt : e .evt) (p_ldg : e .ldg) (p_obj : e .obj) (p_dlr : e .dlr) (p_cores
    : e .cores) (p_mac : e .mac) (p_pke : e .pke) (p_sec : e .sec) (p_brd : e .brd) (p_hbm : e .hbm) (p_mem : e .mem) (p_dma
    : e .dma) (p_fwd : e .fwd) (p_aud : e .aud) (p_vid : e .vid) (p_mode : e .mode) (p_sys : e .sys) {x1i} (h : Only e a d)
    : Only e a (strideBoundary d x1i) := by
  unfold strideBoundary
  split
  · assumption
  · extract_lets +onlyGivenNames x1
    extract_lets +onlyGivenNames x2
    extract_lets +onlyGivenNames x3
    extract_lets +onlyGivenNames x4
    extract_lets +onlyGivenNames x5
    have h5 : Only e a x5 := by
      unfold x5
      refine beginStride_only p_regs p_stride p_tim ?_
      refine holdStride_only p_regs p_tim ?_
      refine flushOnce_only p_regs p_out p_hif p_evt ?_
      assumption
    try clear_value x5
    extract_lets +onlyGivenNames x6
    have h6 : Only e a x6 := by
      unfold x6
      refine strideEdges_only p_regs p_out p_tim ?_
      refine Only.boundaryRegs p_regsB ?_
      assumption
    try clear_value x6
    extract_lets +onlyGivenNames x7
    have h7 : Only e a x7 := by
      unfold x7
      refine reportTack_only p_regs p_out p_hif p_sys ?_
      refine modeBoundary_only p_regs p_out p_hif p_mode p_sys ?_
      refine setDecodeCap_only p_regs p_evt p_ldg ?_
      refine pagesDue_only p_hif ?_
      assumption
    try clear_value x7
    extract_lets +onlyGivenNames x8
    have h8 : Only e a x8 := by
      unfold x8
      split
      · assumption
      · refine pkeBoundary_only p_pke ?_
        refine brdBoundary_only p_regs p_freeCtr p_out p_tim p_hif p_evt p_ldg p_pke p_brd p_sys ?_
        refine retrainPorts_only p_regs p_mac ?_
        assumption
    try clear_value x8
    extract_lets +onlyGivenNames x9
    have h9 : Only e a x9 := by
      unfold x9
      split
      · assumption
      · refine dealerBoundary_only p_regs p_out p_hif p_evt p_ldg p_dlr p_cores p_pke p_dma p_fwd p_aud p_vid p_sys ?_
        refine phaseBoundary_only p_regs p_out p_hif p_evt p_hbm p_mem p_vid ?_
        assumption
    try clear_value x9
    refine takeSnapshot_only p_regs p_ldg ?_
    refine unitBoundary_only p_regs p_out p_hif p_evt p_ldg p_obj p_dlr p_cores p_pke p_sec p_mem p_dma p_fwd p_aud p_vid
        p_sys ?_
    refine settleLedgers_only p_ldg ?_
    assumption

theorem landStep_only (p_regs : e .regs) (p_regsB : e .regsB) (p_freeCtr : e .freeCtr) (p_out : e .out) (p_stride : e
    .stride) (p_tim : e .tim) (p_hif : e .hif) (p_evt : e .evt) (p_ldg : e .ldg) (p_obj : e .obj) (p_dlr : e .dlr) (p_cores
    : e .cores) (p_mac : e .mac) (p_pke : e .pke) (p_sec : e .sec) (p_brd : e .brd) (p_hbm : e .hbm) (p_mem : e .mem) (p_dma
    : e .dma) (p_fwd : e .fwd) (p_aud : e .aud) (p_vid : e .vid) (p_mode : e .mode) (p_sys : e .sys) {x0i} (h : Only e a d)
    : Only e a (landStep x0i d) := by
  unfold landStep
  split
  · refine strideBoundary_only p_regs p_regsB p_freeCtr p_out p_stride p_tim p_hif p_evt p_ldg p_obj p_dlr p_cores p_mac
      p_pke p_sec p_brd p_hbm p_mem p_dma p_fwd p_aud p_vid p_mode p_sys ?_
    assumption
  · assumption

/-! ### CoreAlu -/

theorem tapmInstr_only (p_freeCtr : e .freeCtr) {x0i x1i x2i x3i x4i x5i x6i x8i} (h : Only e a d) : IOnly e a (tapmInstr
    x0i x1i x2i x3i x4i x5i x6i d x8i) := by
  unfold tapmInstr
  split
  · exact trivial
  · split
    · exact trivial
    · extract_lets +onlyGivenNames x1
      extract_lets +onlyGivenNames x2
      extract_lets +onlyGivenNames x3
      extract_lets +onlyGivenNames x4
      extract_lets +onlyGivenNames x5
      extract_lets +onlyGivenNames x6
      split
      · extract_lets +onlyGivenNames x7
        have h7 : Only e a x7.2 := by
          unfold x7
          refine drawFree_only p_freeCtr ?_
          assumption
        try clear_value x7
        refine (show Only e a _ from ?_)
        assumption
      · refine (show Only e a _ from ?_)
        assumption

theorem extInstr_only (p_freeCtr : e .freeCtr) {x0i x1i x2i x3i x5i} (h : Only e a d) : IOnly e a (extInstr x0i x1i x2i x3i
    d x5i) := by
  unfold extInstr
  extract_lets +onlyGivenNames x1
  split
  · split
    · extract_lets +onlyGivenNames x2
      have h2 : Only e a x2.2 := by
        unfold x2
        refine drawFree_only p_freeCtr ?_
        assumption
      try clear_value x2
      refine (show Only e a _ from ?_)
      assumption
    · extract_lets +onlyGivenNames x3
      refine (show Only e a _ from ?_)
      assumption
  · split
    · extract_lets +onlyGivenNames x4
      have h4 : Only e a x4.2 := by
        unfold x4
        refine drawFree_only p_freeCtr ?_
        assumption
      try clear_value x4
      refine (show Only e a _ from ?_)
      assumption
    · extract_lets +onlyGivenNames x5
      refine (show Only e a _ from ?_)
      assumption

theorem valuInstr_only (p_freeCtr : e .freeCtr) {x0i x1i x2i x3i x4i x6i} (h : Only e a d) : IOnly e a (valuInstr x0i x1i
    x2i x3i x4i d x6i) := by
  unfold valuInstr
  extract_lets +onlyGivenNames x1
  extract_lets +onlyGivenNames x2
  extract_lets +onlyGivenNames x3
  extract_lets +onlyGivenNames x4
  extract_lets +onlyGivenNames x5
  have h5 : Only e a x5.2 := by
    unfold x5
    split
    · refine drawFree_only p_freeCtr ?_
      assumption
    · dsimp only
      assumption
  try clear_value x5
  refine (show Only e a _ from ?_)
  assumption

theorem scalarInstr_only (p_freeCtr : e .freeCtr) {x0i x1i x2i x3i x5i} (h : Only e a d) : IOnly e a (scalarInstr x0i x1i
    x2i x3i d x5i) := by
  unfold scalarInstr
  split
  · refine (show Only e a _ from ?_)
    assumption
  · extract_lets +onlyGivenNames x1
    have h1 : Only e a x1.2 := by
      unfold x1
      refine drawFree_only p_freeCtr ?_
      assumption
    try clear_value x1
    refine (show Only e a _ from ?_)
    assumption

theorem setB_only {x r} (h : IOnly e a r) : IOnly e a (setB d x r) := by
  unfold setB
  split
  · exact h
  · trivial

theorem macInstr_only {x0i x1i x2i x3i x4i x5i x7i} (h : Only e a d) : IOnly e a (macInstr x0i x1i x2i x3i x4i x5i d x7i) :=
    by
  unfold macInstr
  extract_lets +onlyGivenNames x1
  refine (show Only e a _ from ?_)
  assumption

theorem normInstr_only {x0i x1i x2i x3i x5i} (h : Only e a d) : IOnly e a (normInstr x0i x1i x2i x3i d x5i) := by
  unfold normInstr
  extract_lets +onlyGivenNames x1
  refine setB_only ?_
  refine (show Only e a _ from ?_)
  assumption

theorem normxInstr_only (p_freeCtr : e .freeCtr) {x0i x1i x2i x3i x5i} (h : Only e a d) : IOnly e a (normxInstr x0i x1i x2i
    x3i d x5i) := by
  unfold normxInstr
  extract_lets +onlyGivenNames x1
  extract_lets +onlyGivenNames x2
  extract_lets +onlyGivenNames x3
  refine setB_only ?_
  split
  · extract_lets +onlyGivenNames x4
    have h4 : Only e a x4.2 := by
      unfold x4
      refine drawFree_only p_freeCtr ?_
      assumption
    try clear_value x4
    refine (show Only e a _ from ?_)
    assumption
  · refine (show Only e a _ from ?_)
    assumption

theorem expInstr_only {x0i x1i x2i x4i} (h : Only e a d) : IOnly e a (expInstr x0i x1i x2i d x4i) := by
  unfold expInstr
  refine setB_only ?_
  refine (show Only e a _ from ?_)
  assumption

/-! ### CoreCtl -/

theorem preemptCore_only (p_cores : e .cores) {x1i} (h : Only e a d) : Only e a (preemptCore d x1i) := by
  unfold preemptCore
  extract_lets +onlyGivenNames x1
  split
  · assumption
  · refine putCore_only p_cores ?_
    assumption

theorem kernelLoadAct_only (p_regs : e .regs) (p_freeCtr : e .freeCtr) (p_out : e .out) (p_hif : e .hif) (p_pad : e .pad)
    (p_sys : e .sys) {x0i x2i} (h : Only e a d) : ActOnly e a (kernelLoadAct x0i d x2i) := by
  unfold kernelLoadAct
  extract_lets +onlyGivenNames x1
  extract_lets +onlyGivenNames x2
  extract_lets +onlyGivenNames x3
  extract_lets +onlyGivenNames x4
  refine ActOnly.bind (fun w5 y5 => ?_)
  refine ActOnly.bind (fun w6 y6 => ?_)
  extract_lets +onlyGivenNames x7
  refine ActOnly.bind (fun w8 y8 => ?_)
  refine ActOnly.bind (fun w9 y9 => ?_)
  split
  · extract_lets +onlyGivenNames z10
    extract_lets +onlyGivenNames z11
    have k11 : Only e a z11 := by
      unfold z11
      refine Only.foldl ?_ (fun d12 y12 h12 => ?_)
      · assumption
      · split
        refine padWrite_only p_pad ?_
        refine drawFree_only p_freeCtr ?_
        assumption
    try clear_value z11
    refine (show Only e a _ from ?_)
    refine failId_only p_regs p_out p_hif p_sys ?_
    assumption
  · extract_lets +onlyGivenNames x10
    extract_lets +onlyGivenNames x11
    have h11 : Only e a x11 := by
      unfold x11
      refine Only.foldl ?_ (fun d12 y12 h12 => ?_)
      · assumption
      · split
        refine padWrite_only p_pad ?_
        assumption
    try clear_value x11
    refine (show Only e a _ from ?_)
    assumption

theorem cancelTeam_only (p_regs : e .regs) (p_out : e .out) (p_hif : e .hif) (p_evt : e .evt) (p_ldg : e .ldg) (p_dlr : e
    .dlr) (p_cores : e .cores) (p_pke : e .pke) (p_pad : e .pad) (p_mem : e .mem) (p_dma : e .dma) (p_fwd : e .fwd) (p_aud :
    e .aud) (p_vid : e .vid) (p_sys : e .sys) {x1i x2i} (h : Only e a d) : Only e a (cancelTeam d x1i x2i) := by
  unfold cancelTeam
  refine Only.foldl ?_ (fun d1 y1 h1 => ?_)
  · assumption
  · extract_lets +onlyGivenNames x2
    extract_lets +onlyGivenNames x3
    extract_lets +onlyGivenNames x4
    have h4 : Only e a x4 := by
      unfold x4
      split
      · refine releaseBank_only p_mem ?_
        assumption
      · assumption
    try clear_value x4
    extract_lets +onlyGivenNames x5
    have h5 : Only e a x5 := by
      unfold x5
      refine dropHold_only p_regs p_out p_hif p_cores p_mem ?_
      refine drainAll_only p_cores p_pad ?_
      refine putCore_only p_cores ?_
      assumption
    try clear_value x5
    extract_lets +onlyGivenNames x6
    have h6 : Only e a x6 := by
      unfold x6
      split
      · refine cancelCard_only p_regs p_out p_hif p_evt p_ldg p_dlr p_cores p_pke p_dma p_fwd p_aud p_vid p_sys ?_
        assumption
      · assumption
    try clear_value x6
    split
    · refine cancelCard_only p_regs p_out p_hif p_evt p_ldg p_dlr p_cores p_pke p_dma p_fwd p_aud p_vid p_sys ?_
      assumption
    · assumption

theorem writeMdcCtrl_only (p_regs : e .regs) (p_out : e .out) (p_hif : e .hif) (p_evt : e .evt) (p_ldg : e .ldg) (p_dlr : e
    .dlr) (p_cores : e .cores) (p_pke : e .pke) (p_dma : e .dma) (p_fwd : e .fwd) (p_aud : e .aud) (p_vid : e .vid) (p_sys :
    e .sys) {x1i x2i} (h : Only e a d) : Only e a (writeMdcCtrl d x1i x2i) := by
  unfold writeMdcCtrl
  split
  · assumption
  · extract_lets +onlyGivenNames x1
    have h1 : Only e a x1 := by
      unfold x1
      refine setReg_only p_regs ?_
      assumption
    try clear_value x1
    extract_lets +onlyGivenNames x2
    split
    · split
      · refine putCore_only p_cores ?_
        assumption
      · refine haltCheck_only p_cores ?_
        refine putCore_only p_cores ?_
        assumption
    · split
      · extract_lets +onlyGivenNames x3
        have h3 : Only e a x3 := by
          unfold x3
          refine putCore_only p_cores ?_
          assumption
        try clear_value x3
        split
        · refine cancelCard_only p_regs p_out p_hif p_evt p_ldg p_dlr p_cores p_pke p_dma p_fwd p_aud p_vid p_sys ?_
          assumption
        · assumption
      · split
        · refine putCore_only p_cores ?_
          assumption
        · refine putCore_only p_cores ?_
          assumption

theorem unitFault_only (p_regs : e .regs) (p_out : e .out) (p_hif : e .hif) (p_evt : e .evt) (p_ldg : e .ldg) (p_dlr : e
    .dlr) (p_cores : e .cores) (p_mac : e .mac) (p_pke : e .pke) (p_pad : e .pad) (p_mem : e .mem) (p_dma : e .dma) (p_fwd :
    e .fwd) (p_aud : e .aud) (p_vid : e .vid) (p_mode : e .mode) (p_sys : e .sys) {x1i} (h : Only e a d) : Only e a
    (unitFault d x1i) := by
  unfold unitFault
  split
  · assumption
  · refine faultUnit_only p_regs p_out p_hif p_evt p_ldg p_dlr p_cores p_mac p_pke p_mem p_dma p_fwd p_aud p_vid p_mode p_sys
        ?_
    split
    · refine cancelTeam_only p_regs p_out p_hif p_evt p_ldg p_dlr p_cores p_pke p_pad p_mem p_dma p_fwd p_aud p_vid p_sys ?_
      assumption
    · assumption

/-! ### CoreFlow -/

theorem spawnInstr_only {x0i x1i x2i x4i} (h : Only e a d) : IOnly e a (spawnInstr x0i x1i x2i d x4i) := by
  unfold spawnInstr
  extract_lets +onlyGivenNames x1
  refine notInLock_only ?_
  split
  · refine (show Only e a _ from ?_)
    assumption
  · exact trivial

theorem loopCount_only (p_freeCtr : e .freeCtr) {x1i} (h : Only e a d) : Only e a (loopCount d x1i).2 := by
  unfold loopCount
  split
  · dsimp only
    assumption
  · extract_lets +onlyGivenNames x1
    have h1 : Only e a x1.2 := by
      unfold x1
      refine drawFree_only p_freeCtr ?_
      assumption
    try clear_value x1
    dsimp only
    assumption

theorem loopInstr_only (p_freeCtr : e .freeCtr) {x0i x1i x3i} (h : Only e a d) : IOnly e a (loopInstr x0i x1i d x3i) := by
  unfold loopInstr
  refine notInLock_only ?_
  split
  · exact trivial
  · extract_lets +onlyGivenNames x1
    have h1 : Only e a x1.2 := by
      unfold x1
      refine loopCount_only p_freeCtr ?_
      assumption
    try clear_value x1
    refine (show Only e a _ from ?_)
    assumption

theorem rloopInstr_only (p_freeCtr : e .freeCtr) {x0i x1i x2i x4i} (h : Only e a d) : IOnly e a (rloopInstr x0i x1i x2i d
    x4i) := by
  unfold rloopInstr
  refine notInLock_only ?_
  split
  · exact trivial
  · extract_lets +onlyGivenNames x1
    have h1 : Only e a x1.2 := by
      unfold x1
      refine loopCount_only p_freeCtr ?_
      assumption
    try clear_value x1
    refine (show Only e a _ from ?_)
    assumption

/-! ### CoreMem -/

theorem lockInstr_only (p_cores : e .cores) (p_mem : e .mem) {x0i x2i} (h : Only e a d) : IOnly e a (lockInstr x0i d x2i) := by
  unfold lockInstr
  extract_lets +onlyGivenNames x1
  split
  · exact trivial
  · split
    · extract_lets +onlyGivenNames x2
      extract_lets +onlyGivenNames x3
      split
      · exact trivial
      · split
        · exact trivial
        · refine (show Only e a _ from ?_)
          refine putCore_only p_cores ?_
          refine putBank_only p_mem ?_
          assumption
    · exact trivial

/-! ### Dma -/

theorem badDesc_only (p_regs : e .regs) (p_evt : e .evt) {x1i x2i x3i x4i x5i} (h : Only e a d) : Only e a (badDesc d x1i
    x2i x3i x4i x5i) := by
  unfold badDesc
  extract_lets +onlyGivenNames x1
  extract_lets +onlyGivenNames x2
  have h2 : Only e a x2 := by
    unfold x2
    refine cnt_only p_regs ?_
    assumption
  try clear_value x2
  extract_lets +onlyGivenNames x3
  have h3 : Only e a x3 := by
    unfold x3
    refine setReg_only p_regs ?_
    refine setReg_only p_regs ?_
    refine setReg_only p_regs ?_
    assumption
  try clear_value x3
  refine raiseOnce_only p_evt ?_
  assumption

theorem dmaWrite_only (p_regs : e .regs) (p_out : e .out) (p_hif : e .hif) (p_hbm : e .hbm) (p_pad : e .pad) (p_local_ : e
    .local_) (p_mem : e .mem) {x1i x2i x3i x4i} (h : Only e a d) : Only e a (dmaWrite d x1i x2i x3i x4i) := by
  unfold dmaWrite
  split
  · refine emitOut_only p_out ?_
    assumption
  · refine padWrite_only p_pad ?_
    assumption
  · extract_lets +onlyGivenNames x1
    refine setLocal_only p_local_ ?_ ?_
    · intro z2
      exact spWf_write ‹_› _ _
    · assumption
  · split
    · split
      · refine hbmUnmapped_only p_regs p_out p_hif ?_
        assumption
      · refine hbmPut_only p_hbm p_mem ?_
        assumption
    · assumption

theorem freePick_only (p_regs : e .regs) (p_freeCtr : e .freeCtr) (p_out : e .out) (p_hif : e .hif) (p_hbm : e .hbm) (p_pad
    : e .pad) (p_local_ : e .local_) (p_mem : e .mem) {en sp o l} (h : Only e a d) : Only e a (freePick en sp o l d) := by
  induction l generalizing d with
  | nil => exact h
  | cons y ys ih =>
    unfold freePick
    split
    · split
      · refine ih ?_
        assumption
      · extract_lets +onlyGivenNames x1
        have h1 : Only e a x1.2 := by
          unfold x1
          refine drawFree_only p_freeCtr ?_
          assumption
        try clear_value x1
        refine ih ?_
        split
        · assumption
        · refine dmaWrite_only p_regs p_out p_hif p_hbm p_pad p_local_ p_mem ?_
          assumption
    · refine ih ?_
      assumption

theorem moveElems_only (p_regs : e .regs) (p_out : e .out) (p_hif : e .hif) (p_hbm : e .hbm) (p_pad : e .pad) (p_local_ : e
    .local_) (p_mem : e .mem) {en x o l i n} (h : Only e a d) : Only e a (moveElems en x o l i n d).1 := by
  induction l generalizing d i n with
  | nil => exact h
  | cons y ys ih =>
    unfold moveElems
    split
    · dsimp only
      assumption
    · refine ih ?_
      refine dmaWrite_only p_regs p_out p_hif p_hbm p_pad p_local_ p_mem ?_
      assumption

theorem moveDesc_only (p_regs : e .regs) (p_freeCtr : e .freeCtr) (p_out : e .out) (p_hif : e .hif) (p_hbm : e .hbm) (p_pad
    : e .pad) (p_local_ : e .local_) (p_mem : e .mem) {x1i x2i} (h : Only e a d) : Only e a (moveDesc d x1i x2i).1 := by
  unfold moveDesc
  extract_lets +onlyGivenNames x1
  extract_lets +onlyGivenNames x2
  have h2 : Only e a x2.1 := by
    unfold x2
    refine moveElems_only p_regs p_out p_hif p_hbm p_pad p_local_ p_mem ?_
    assumption
  try clear_value x2
  split
  · assumption
  · extract_lets +onlyGivenNames x3
    have h3 : Only e a x3.1 := by
      unfold x3
      refine moveElems_only p_regs p_out p_hif p_hbm p_pad p_local_ p_mem ?_
      assumption
    try clear_value x3
    extract_lets +onlyGivenNames x4
    extract_lets +onlyGivenNames x5
    dsimp only
    refine freePick_only p_regs p_freeCtr p_out p_hif p_hbm p_pad p_local_ p_mem ?_
    assumption

theorem descriptorStep_only (p_regs : e .regs) (p_freeCtr : e .freeCtr) (p_out : e .out) (p_hif : e .hif) (p_evt : e .evt)
    (p_dlr : e .dlr) (p_hbm : e .hbm) (p_pad : e .pad) (p_local_ : e .local_) (p_mem : e .mem) (p_dma : e .dma) (p_sys : e
    .sys) {x1i x2i x3i x4i x5i x6i} (h : Only e a d) : Only e a (descriptorStep d x1i x2i x3i x4i x5i x6i) := by
  unfold descriptorStep
  split
  · assumption
  · split
    · assumption
    · extract_lets +onlyGivenNames x1
      extract_lets +onlyGivenNames x2
      have h2 : Only e a x2.1 := by
        unfold x2
        refine moveDesc_only p_regs p_freeCtr p_out p_hif p_hbm p_pad p_local_ p_mem ?_
        assumption
      try clear_value x2
      extract_lets +onlyGivenNames x3
      have h3 : Only e a x3 := by
        unfold x3
        refine cnt_only p_regs ?_
        refine cnt_only p_regs ?_
        assumption
      try clear_value x3
      extract_lets +onlyGivenNames x4
      have h4 : Only e a x4.1 := by
        unfold x4
        split
        · dsimp only
          refine cnt_only p_regs ?_
          assumption
        · extract_lets +onlyGivenNames x5
          have h5 : Only e a x5 := by
            unfold x5
            split
            · refine padUe_only p_regs p_evt ?_
              assumption
            · split
              · split
                · split
                  · refine hbmUe_only p_regs p_out p_hif p_evt p_sys ?_
                    assumption
                  · assumption
                · assumption
              · split
                · split
                  · split
                    · refine hbmUnmapped_only p_regs p_out p_hif ?_
                      assumption
                    · assumption
                  · assumption
                · assumption
          try clear_value x5
          dsimp only
          refine badDesc_only p_regs p_evt ?_
          assumption
      try clear_value x4
      extract_lets +onlyGivenNames x6
      have h6 : Only e a x6 := by
        unfold x6
        assumption
      try clear_value x6
      extract_lets +onlyGivenNames x7
      extract_lets +onlyGivenNames x8
      extract_lets +onlyGivenNames x9
      extract_lets +onlyGivenNames x10
      have h10 : Only e a x10 := by
        unfold x10
        refine Only.dmaUpd p_dma ?_ _
        assumption
      try clear_value x10
      split
      · assumption
      · extract_lets +onlyGivenNames x11
        have h11 : Only e a x11 := by
          unfold x11
          split
          · assumption
          · refine emitOut_only p_out ?_
            assumption
        try clear_value x11
        refine putCard_only p_dlr ?_
        assumption

theorem dmaChainAct_only (p_regs : e .regs) (p_out : e .out) (p_hif : e .hif) (p_evt : e .evt) (p_ldg : e .ldg) (p_dlr : e
    .dlr) (p_cores : e .cores) (p_pke : e .pke) (p_dma : e .dma) (p_fwd : e .fwd) (p_aud : e .aud) (p_vid : e .vid) (p_sys :
    e .sys) {x0i x2i} (h : Only e a d) : ActOnly e a (dmaChainAct x0i d x2i) := by
  unfold dmaChainAct
  extract_lets +onlyGivenNames x1
  refine ActOnly.bind (fun w2 y2 => ?_)
  refine ActOnly.bind (fun w3 y3 => ?_)
  extract_lets +onlyGivenNames x4
  extract_lets +onlyGivenNames x5
  extract_lets +onlyGivenNames x6
  refine ActOnly.bind (fun w7 y7 => ?_)
  split
  · exact trivial
  · extract_lets +onlyGivenNames x8
    refine ActOnly.bind (fun w9 y9 => ?_)
    refine ActOnly.bind (fun w10 y10 => ?_)
    split
    · unfold waitCredit
      refine (show Only e a _ from ?_)
      refine putCmd_only p_hif ?_
      assumption
    · split
      · unfold waitCredit
        refine (show Only e a _ from ?_)
        refine putCmd_only p_hif ?_
        assumption
      · extract_lets +onlyGivenNames x11
        refine (show Only e a _ from ?_)
        refine storeCard_only p_regs p_out p_hif p_evt p_ldg p_dlr p_cores p_pke p_dma p_fwd p_aud p_vid p_sys ?_
        assumption

/-! ### Flr -/

theorem discardCmds_only (p_hif : e .hif) {x1i} (h : Only e a d) : Only e a (discardCmds d x1i) := by
  unfold discardCmds
  refine Only.hifUpd p_hif ?_ _
  assumption

theorem clearView_only (p_regs : e .regs) (p_latch : e .latch) {fn} (h : Only e a d) : Only e a (clearView d fn) := by
  unfold clearView
  extract_lets a0 gone
  exact Only.latchUpd p_latch (Only.regsUpd p_regs h (spClear d.regs gone) fun w => spWf_clear w _) (spClear d.latch gone)
      fun w => spWf_clear w _

theorem flrComplete_only (p_regs : e .regs) (p_freeCtr : e .freeCtr) (p_out : e .out) (p_hif : e .hif) {x1i} (h : Only e a
    d) : Only e a (flrComplete d x1i) := by
  unfold flrComplete
  split
  · assumption
  · extract_lets +onlyGivenNames x1
    extract_lets +onlyGivenNames x2
    have h2 : Only e a x2 := by
      unfold x2
      refine Only.hifUpd p_hif ?_ _
      assumption
    try clear_value x2
    extract_lets +onlyGivenNames x3
    have h3 : Only e a x3.2 := by
      unfold x3
      refine drawFree_only p_freeCtr ?_
      assumption
    try clear_value x3
    extract_lets +onlyGivenNames x4
    have h4 : Only e a x4.2 := by
      unfold x4
      split
      · dsimp only
        assumption
      · dsimp only
        assumption
    try clear_value x4
    refine raiseOn_only p_regs p_out p_hif ?_
    assumption

theorem flrMode_only (p_regs : e .regs) (p_out : e .out) (p_hif : e .hif) (p_evt : e .evt) (p_ldg : e .ldg) (p_mode : e
    .mode) (p_sys : e .sys) (h : Only e a d) : Only e a (flrMode d) := by
  unfold flrMode
  extract_lets +onlyGivenNames x1
  extract_lets +onlyGivenNames x2
  extract_lets +onlyGivenNames x3
  have h3 : Only e a x3 := by
    unfold x3
    refine Only.foldl ?_ (fun d4 y4 h4 => ?_)
    · refine Only.sysUpd p_sys ?_ _ rfl rfl rfl rfl rfl rfl
      assumption
    · refine unbookCmd_only p_regs p_evt p_ldg p_sys ?_
      assumption
  try clear_value x3
  extract_lets +onlyGivenNames x5
  have h5 : Only e a x5 := by
    unfold x5
    refine Only.foldl ?_ (fun d6 y6 h6 => ?_)
    · assumption
    · refine complete_only p_regs p_out p_hif p_sys ?_
      assumption
  try clear_value x5
  split
  · extract_lets +onlyGivenNames x7
    refine setMode_only p_regs p_out p_hif p_mode p_sys ?_
    refine Only.foldl ?_ (fun d8 y8 h8 => ?_)
    · assumption
    · refine setUState_only p_regs ?_
      assumption
  · assumption

theorem startFlr_only (p_regs : e .regs) (p_latch : e .latch) (p_freeCtr : e .freeCtr) (p_out : e .out) (p_tim : e .tim)
    (p_hif : e .hif) (p_evt : e .evt) (p_ldg : e .ldg) (p_obj : e .obj) (p_dlr : e .dlr) (p_cores : e .cores) (p_pke : e
    .pke) (p_sec : e .sec) (p_brd : e .brd) (p_dma : e .dma) (p_fwd : e .fwd) (p_aud : e .aud) (p_vid : e .vid) (p_sys : e
    .sys) {x1i} (h : Only e a d) : Only e a (startFlr d x1i) := by
  unfold startFlr
  split
  · assumption
  · extract_lets +onlyGivenNames x1
    have h1 : Only e a x1 := by
      unfold x1
      refine clearView_only p_regs p_latch ?_
      refine discardCmds_only p_hif ?_
      assumption
    try clear_value x1
    refine Only.foldl ?_ (fun d2 y2 h2 => ?_)
    · assumption
    · refine closeSession_only p_regs p_freeCtr p_out p_tim p_hif p_evt p_ldg p_obj p_dlr p_cores p_pke p_sec p_brd p_dma
        p_fwd p_aud p_vid p_sys ?_
      assumption

theorem pfFlr_only (p_regs : e .regs) (p_latch : e .latch) (p_freeCtr : e .freeCtr) (p_out : e .out) (p_tim : e .tim) (p_hif
    : e .hif) (p_evt : e .evt) (p_ldg : e .ldg) (p_obj : e .obj) (p_dlr : e .dlr) (p_cores : e .cores) (p_pke : e .pke)
    (p_sec : e .sec) (p_brd : e .brd) (p_dma : e .dma) (p_fwd : e .fwd) (p_aud : e .aud) (p_vid : e .vid) (p_mode : e .mode)
    (p_sys : e .sys) (h : Only e a d) : Only e a (pfFlr d) := by
  unfold pfFlr
  split
  · assumption
  · extract_lets +onlyGivenNames x1
    have h1 : Only e a x1 := by
      unfold x1
      refine Only.foldl ?_ (fun d2 y2 h2 => ?_)
      · assumption
      · refine startFlr_only p_regs p_latch p_freeCtr p_out p_tim p_hif p_evt p_ldg p_obj p_dlr p_cores p_pke p_sec p_brd
          p_dma p_fwd p_aud p_vid p_sys ?_
        assumption
    try clear_value x1
    refine flrMode_only p_regs p_out p_hif p_evt p_ldg p_mode p_sys ?_
    refine Only.hifUpd p_hif ?_ _
    assumption

/-! ### HostRegs -/

theorem writeFields_only (p_regs : e .regs) {x1i x2i x3i x4i x5i} (h : Only e a d) : Only e a (writeFields d x1i x2i x3i x4i
    x5i) := by
  unfold writeFields
  split
  · assumption
  · extract_lets +onlyGivenNames x1
    extract_lets +onlyGivenNames x2
    extract_lets +onlyGivenNames x3
    have h3 : Only e a x3 := by
      unfold x3
      split
      · refine putB_only p_regs ?_
        assumption
      · assumption
    try clear_value x3
    extract_lets +onlyGivenNames x4
    extract_lets +onlyGivenNames x5
    refine setReg_only p_regs ?_
    assumption

theorem clearCounted_only (p_regs : e .regs) {x1i x2i x3i} (h : Only e a d) : Only e a (clearCounted d x1i x2i x3i) := by
  unfold clearCounted
  split
  · refine setF_only p_regs ?_
    refine putB_only p_regs ?_
    assumption
  · assumption

theorem writeMsix_only (p_regs : e .regs) (p_out : e .out) {x1i x2i x3i x4i x5i x6i} (h : Only e a d) : Only e a (writeMsix
    d x1i x2i x3i x4i x5i x6i) := by
  unfold writeMsix
  extract_lets +onlyGivenNames x1
  have h1 : Only e a x1 := by
    unfold x1
    refine writeFields_only p_regs ?_
    assumption
  try clear_value x1
  extract_lets +onlyGivenNames x2
  split
  · refine sendMsix_only p_regs p_out ?_
    refine putB_only p_regs ?_
    assumption
  · assumption

theorem writeHif_only (p_regs : e .regs) (p_hif : e .hif) {x1i x2i x3i x4i x5i x6i} (h : Only e a d) : Only e a (writeHif d
    x1i x2i x3i x4i x5i x6i) := by
  unfold writeHif
  extract_lets +onlyGivenNames x1
  split
  · refine writeFeature_only p_regs ?_
    assumption
  · split
    · refine writeLock_only p_regs ?_
      assumption
    · split
      · refine nudge_only p_hif ?_
        assumption
      · split
        · refine clearCounted_only p_regs ?_
          assumption
        · split
          · extract_lets +onlyGivenNames x2
            split
            · refine writeRingWord_only p_regs ?_
              assumption
            · refine writeRingWord_only p_regs ?_
              assumption
            · refine writeRingCfg_only p_regs p_hif ?_
              assumption
            · refine writeRingWord_only p_regs ?_
              assumption
            · refine writeFields_only p_regs ?_
              assumption
          · refine writeFields_only p_regs ?_
            assumption

theorem writeBrd_only (p_regs : e .regs) (p_freeCtr : e .freeCtr) (p_tim : e .tim) (p_evt : e .evt) (p_brd : e .brd) {x1i
    x2i x3i x4i x5i} (h : Only e a d) : Only e a (writeBrd d x1i x2i x3i x4i x5i) := by
  unfold writeBrd
  extract_lets +onlyGivenNames x1
  split
  · refine writeShaper_only p_regs p_brd ?_
    assumption
  · split
    · refine writeGclCtrl_only p_regs p_freeCtr p_tim p_evt p_brd ?_
      assumption
    · split
      · refine writeGcl_only p_regs ?_
        assumption
      · split
        · refine watermarkClear_only p_regs ?_
          assumption
        · refine writeFields_only p_regs ?_
          assumption

theorem readReg_only (p_regs : e .regs) (p_latch : e .latch) (p_tim : e .tim) {x1i} (h : Only e a d) : Only e a (readReg d
    x1i).2 := by
  unfold readReg
  split
  · dsimp only
    assumption
  · split
    · refine timeRead_only p_latch ?_
      assumption
    · split
      · refine timeRead_only p_latch ?_
        assumption
      · split
        · refine strideRead_only p_latch ?_
          assumption
        · split
          · refine txtsPop_only p_regs p_tim ?_
            assumption
          · split
            · refine dumpRead_only p_regs ?_
              assumption
            · extract_lets +onlyGivenNames x1
              split
              · dsimp only
                assumption
              · dsimp only
                refine setLatch_only p_latch ?_
                assumption
              · dsimp only
                refine setReg_only p_regs ?_
                assumption

theorem hostReadReg_only (p_regs : e .regs) (p_latch : e .latch) (p_out : e .out) (p_tim : e .tim) {x1i x2i x3i} (h : Only e
    a d) : Only e a (hostReadReg d x1i x2i x3i) := by
  unfold hostReadReg
  split
  · refine emitOut_only p_out ?_
    assumption
  · extract_lets +onlyGivenNames x1
    have h1 : Only e a x1.2 := by
      unfold x1
      refine readReg_only p_regs p_latch p_tim ?_
      assumption
    try clear_value x1
    refine emitOut_only p_out ?_
    assumption

theorem subWord_only (p_regs : e .regs) (p_out : e .out) (p_hif : e .hif) {x1i x2i} (h : Only e a d) : Only e a (subWord d
    x1i x2i) := by
  unfold subWord
  extract_lets +onlyGivenNames x1
  refine raise_only p_regs p_out p_hif ?_
  refine putB_only p_regs ?_
  refine satF_only p_regs ?_
  assumption

theorem writeSys_only (p_regs : e .regs) (p_regsB : e .regsB) (p_latch : e .latch) (p_freeCtr : e .freeCtr) (p_out : e .out)
    (p_stride : e .stride) (p_tim : e .tim) (p_hif : e .hif) (p_evt : e .evt) (p_ldg : e .ldg) (p_obj : e .obj) (p_dlr : e
    .dlr) (p_cores : e .cores) (p_mac : e .mac) (p_pke : e .pke) (p_sec : e .sec) (p_brd : e .brd) (p_hbm : e .hbm) (p_pad :
    e .pad) (p_local_ : e .local_) (p_mem : e .mem) (p_dma : e .dma) (p_fwd : e .fwd) (p_aud : e .aud) (p_vid : e .vid)
    (p_tack : e .tack) (p_mode : e .mode) (p_sys : e .sys) (p_rst : e .rst) {x1i x2i x3i x4i x5i} (h : Only e a d) : Only e
    a (writeSys d x1i x2i x3i x4i x5i) := by
  unfold writeSys
  split
  · refine writeBootCtrl_only p_regs p_out p_hif p_evt p_ldg p_pke p_hbm p_mem p_mode p_sys ?_
    assumption
  · refine writeReset_only p_regs p_regsB p_latch p_freeCtr p_out p_stride p_tim p_hif p_evt p_ldg p_obj p_dlr p_cores p_mac
      p_pke p_sec p_brd p_hbm p_pad p_local_ p_mem p_dma p_fwd p_aud p_vid p_tack p_mode p_sys p_rst ?_
    assumption
  · refine writeFields_only p_regs ?_
    assumption

theorem writeTim_only (p_regs : e .regs) (p_regsB : e .regsB) (p_freeCtr : e .freeCtr) (p_out : e .out) (p_stride : e
    .stride) (p_tim : e .tim) (p_hif : e .hif) (p_evt : e .evt) (p_ldg : e .ldg) (p_obj : e .obj) (p_dlr : e .dlr) (p_cores
    : e .cores) (p_mac : e .mac) (p_pke : e .pke) (p_sec : e .sec) (p_brd : e .brd) (p_hbm : e .hbm) (p_mem : e .mem) (p_dma
    : e .dma) (p_fwd : e .fwd) (p_aud : e .aud) (p_vid : e .vid) (p_mode : e .mode) (p_sys : e .sys) {x1i x2i x3i x4i x5i}
    (h : Only e a d) : Only e a (writeTim d x1i x2i x3i x4i x5i) := by
  unfold writeTim
  extract_lets +onlyGivenNames x1
  split
  · refine writeTimCtrl_only p_regs p_out p_tim p_hif ?_
    assumption
  · split
    · refine writeFreq_only p_regs p_tim ?_
      assumption
    · split
      · refine landStep_only p_regs p_regsB p_freeCtr p_out p_stride p_tim p_hif p_evt p_ldg p_obj p_dlr p_cores p_mac p_pke
          p_sec p_brd p_hbm p_mem p_dma p_fwd p_aud p_vid p_mode p_sys ?_
        refine writeStepCtrl_only p_regs p_out p_tim p_hif p_mac p_pke p_brd p_sys ?_
        assumption
      · split
        · refine clearCounted_only p_regs ?_
          assumption
        · split
          · extract_lets +onlyGivenNames x2
            split
            · refine writePulseCfg_only p_regs p_out p_tim p_hif ?_
              assumption
            · split
              · assumption
              · refine writeFields_only p_regs ?_
                assumption
          · refine writeFields_only p_regs ?_
            assumption

theorem writeReg_only (p_regs : e .regs) (p_regsB : e .regsB) (p_latch : e .latch) (p_freeCtr : e .freeCtr) (p_out : e .out)
    (p_stride : e .stride) (p_tim : e .tim) (p_hif : e .hif) (p_evt : e .evt) (p_ldg : e .ldg) (p_obj : e .obj) (p_dlr : e
    .dlr) (p_cores : e .cores) (p_mac : e .mac) (p_pke : e .pke) (p_sec : e .sec) (p_brd : e .brd) (p_hbm : e .hbm) (p_pad :
    e .pad) (p_local_ : e .local_) (p_mem : e .mem) (p_dma : e .dma) (p_fwd : e .fwd) (p_aud : e .aud) (p_vid : e .vid)
    (p_tack : e .tack) (p_mode : e .mode) (p_sys : e .sys) (p_rst : e .rst) {x1i x2i} (h : Only e a d) : Only e a (writeReg
    d x1i x2i) := by
  unfold writeReg
  split
  · assumption
  · extract_lets +onlyGivenNames x1
    split
    · refine watermarkClear_only p_regs ?_
      assumption
    · split
      · refine writeHif_only p_regs p_hif ?_
        assumption
      · split
        · refine clearFatal_only p_regs ?_
          assumption
        · refine writeFields_only p_regs ?_
          assumption
      · refine writeSys_only p_regs p_regsB p_latch p_freeCtr p_out p_stride p_tim p_hif p_evt p_ldg p_obj p_dlr p_cores
          p_mac p_pke p_sec p_brd p_hbm p_pad p_local_ p_mem p_dma p_fwd p_aud p_vid p_tack p_mode p_sys p_rst ?_
        assumption
      · split
        · refine writeFusFree_only p_regs p_freeCtr p_sys ?_
          assumption
        · split
          · refine setReg_only p_regs ?_
            assumption
          · assumption
      · refine writeTim_only p_regs p_regsB p_freeCtr p_out p_stride p_tim p_hif p_evt p_ldg p_obj p_dlr p_cores p_mac p_pke
          p_sec p_brd p_hbm p_mem p_dma p_fwd p_aud p_vid p_mode p_sys ?_
        assumption
      · split
        · refine writeMdcCtrl_only p_regs p_out p_hif p_evt p_ldg p_dlr p_cores p_pke p_dma p_fwd p_aud p_vid p_sys ?_
          assumption
        · refine writeFields_only p_regs ?_
          assumption
      · split
        · refine secSelftest_only p_regs ?_
          assumption
        · refine writeFields_only p_regs ?_
          assumption
      · split
        · refine fitSurface_only p_regs p_evt p_ldg ?_
          refine writeFields_only p_regs ?_
          assumption
        · refine writeFields_only p_regs ?_
          assumption
      · split
        · refine writeRole_only p_regs p_brd ?_
          assumption
        · refine writeFields_only p_regs ?_
          assumption
      · refine writeBrd_only p_regs p_freeCtr p_tim p_evt p_brd ?_
        assumption
      · refine writeMsix_only p_regs p_out ?_
        assumption
      · refine writeFields_only p_regs ?_
        assumption

theorem hostWriteReg_only (p_regs : e .regs) (p_regsB : e .regsB) (p_latch : e .latch) (p_freeCtr : e .freeCtr) (p_out : e
    .out) (p_stride : e .stride) (p_tim : e .tim) (p_hif : e .hif) (p_evt : e .evt) (p_ldg : e .ldg) (p_obj : e .obj) (p_dlr
    : e .dlr) (p_cores : e .cores) (p_mac : e .mac) (p_pke : e .pke) (p_sec : e .sec) (p_brd : e .brd) (p_hbm : e .hbm)
    (p_pad : e .pad) (p_local_ : e .local_) (p_mem : e .mem) (p_dma : e .dma) (p_fwd : e .fwd) (p_aud : e .aud) (p_vid : e
    .vid) (p_tack : e .tack) (p_mode : e .mode) (p_sys : e .sys) (p_rst : e .rst) {x1i x2i x3i} (h : Only e a d) : Only e a
    (hostWriteReg d x1i x2i x3i) := by
  unfold hostWriteReg
  split
  · assumption
  · split
    · refine writeReg_only p_regs p_regsB p_latch p_freeCtr p_out p_stride p_tim p_hif p_evt p_ldg p_obj p_dlr p_cores p_mac
        p_pke p_sec p_brd p_hbm p_pad p_local_ p_mem p_dma p_fwd p_aud p_vid p_tack p_mode p_sys p_rst ?_
      assumption
    · refine subWord_only p_regs p_out p_hif ?_
      assumption

theorem applySettings_only (p_regs : e .regs) (p_regsB : e .regsB) (p_latch : e .latch) (p_freeCtr : e .freeCtr) (p_out : e
    .out) (p_stride : e .stride) (p_tim : e .tim) (p_hif : e .hif) (p_evt : e .evt) (p_ldg : e .ldg) (p_obj : e .obj) (p_dlr
    : e .dlr) (p_cores : e .cores) (p_mac : e .mac) (p_pke : e .pke) (p_sec : e .sec) (p_brd : e .brd) (p_hbm : e .hbm)
    (p_pad : e .pad) (p_local_ : e .local_) (p_mem : e .mem) (p_dma : e .dma) (p_fwd : e .fwd) (p_aud : e .aud) (p_vid : e
    .vid) (p_tack : e .tack) (p_mode : e .mode) (p_sys : e .sys) (p_rst : e .rst) {x1i} (h : Only e a d) : Only e a
    (applySettings d x1i) := by
  unfold applySettings
  refine Only.foldl ?_ (fun d1 y1 h1 => ?_)
  · assumption
  · split
    · assumption
    · split
      · refine hostWriteReg_only p_regs p_regsB p_latch p_freeCtr p_out p_stride p_tim p_hif p_evt p_ldg p_obj p_dlr p_cores
          p_mac p_pke p_sec p_brd p_hbm p_pad p_local_ p_mem p_dma p_fwd p_aud p_vid p_tack p_mode p_sys p_rst ?_
        assumption
      · refine satF_only p_regs ?_
        assumption

theorem imageAccepted_only (p_regs : e .regs) (p_regsB : e .regsB) (p_latch : e .latch) (p_freeCtr : e .freeCtr) (p_out : e
    .out) (p_stride : e .stride) (p_tim : e .tim) (p_hif : e .hif) (p_evt : e .evt) (p_ldg : e .ldg) (p_obj : e .obj) (p_dlr
    : e .dlr) (p_cores : e .cores) (p_mac : e .mac) (p_pke : e .pke) (p_sec : e .sec) (p_brd : e .brd) (p_hbm : e .hbm)
    (p_pad : e .pad) (p_local_ : e .local_) (p_mem : e .mem) (p_dma : e .dma) (p_fwd : e .fwd) (p_aud : e .aud) (p_vid : e
    .vid) (p_tack : e .tack) (p_mode : e .mode) (p_sys : e .sys) (p_rst : e .rst) (h : Only e a d) : Only e a (imageAccepted
    d) := by
  unfold imageAccepted
  split
  · assumption
  · extract_lets +onlyGivenNames x1
    have h1 : Only e a x1 := by
      unfold x1
      refine setF_only p_regs ?_
      refine tackBoot_only p_regs ?_
      assumption
    try clear_value x1
    extract_lets +onlyGivenNames x2
    have h2 : Only e a x2 := by
      unfold x2
      refine applySettings_only p_regs p_regsB p_latch p_freeCtr p_out p_stride p_tim p_hif p_evt p_ldg p_obj p_dlr p_cores
          p_mac p_pke p_sec p_brd p_hbm p_pad p_local_ p_mem p_dma p_fwd p_aud p_vid p_tack p_mode p_sys p_rst ?_
      assumption
    try clear_value x2
    split
    · assumption
    · extract_lets +onlyGivenNames x3
      have h3 : Only e a x3 := by
        unfold x3
        refine loadDefaultRules_only p_pke ?_
        assumption
      try clear_value x3
      refine tryLeaveBoot_only p_regs p_out p_hif p_evt p_ldg p_pke p_hbm p_mem p_mode p_sys ?_
      refine Only.sysUpd p_sys ?_ _ rfl rfl rfl rfl rfl rfl
      assumption

/-! ### Paddock -/

theorem quotaWindow_only (p_regs : e .regs) (p_mem : e .mem) {x1i x2i} (h : Only e a d) : Only e a (quotaWindow d x1i x2i) :=
    by
  unfold quotaWindow
  split
  · assumption
  · extract_lets +onlyGivenNames x1
    extract_lets +onlyGivenNames x2
    have h2 : Only e a x2 := by
      unfold x2
      split
      · refine cnt_only p_regs ?_
        assumption
      · assumption
    try clear_value x2
    refine putBank_only p_mem ?_
    assumption

theorem twoHold_only (p_regs : e .regs) (p_out : e .out) (p_hif : e .hif) (p_evt : e .evt) (p_ldg : e .ldg) (p_dlr : e .dlr)
    (p_cores : e .cores) (p_mac : e .mac) (p_pke : e .pke) (p_mem : e .mem) (p_dma : e .dma) (p_fwd : e .fwd) (p_aud : e
    .aud) (p_vid : e .vid) (p_mode : e .mode) (p_sys : e .sys) {x1i x2i x3i x4i} (h : Only e a d) : Only e a (twoHold d x1i
    x2i x3i x4i) := by
  unfold twoHold
  extract_lets +onlyGivenNames x1
  have h1 : Only e a x1 := by
    unfold x1
    refine cnt_only p_regs ?_
    refine releaseBank_only p_mem ?_
    assumption
  try clear_value x1
  extract_lets +onlyGivenNames x2
  split
  · refine faultUnit_only p_regs p_out p_hif p_evt p_ldg p_dlr p_cores p_mac p_pke p_mem p_dma p_fwd p_aud p_vid p_mode p_sys
        ?_
    refine raise_only p_regs p_out p_hif ?_
    assumption
  · refine raise_only p_regs p_out p_hif ?_
    assumption

theorem padAsk_only (p_regs : e .regs) (p_out : e .out) (p_hif : e .hif) (p_evt : e .evt) (p_ldg : e .ldg) (p_dlr : e .dlr)
    (p_cores : e .cores) (p_mac : e .mac) (p_pke : e .pke) (p_mem : e .mem) (p_dma : e .dma) (p_fwd : e .fwd) (p_aud : e
    .aud) (p_vid : e .vid) (p_mode : e .mode) (p_sys : e .sys) {x1i x2i x3i} (h : Only e a d) : Only e a (padAsk d x1i x2i
    x3i) := by
  unfold padAsk
  extract_lets +onlyGivenNames x1
  split
  · assumption
  · split
    · split
      · assumption
      · refine twoHold_only p_regs p_out p_hif p_evt p_ldg p_dlr p_cores p_mac p_pke p_mem p_dma p_fwd p_aud p_vid p_mode
          p_sys ?_
        assumption
    · extract_lets +onlyGivenNames x2
      split
      · assumption
      · refine putBank_only p_mem ?_
        assumption

theorem paddockRound_only (p_regs : e .regs) (p_out : e .out) (p_hif : e .hif) (p_evt : e .evt) (p_ldg : e .ldg) (p_dlr : e
    .dlr) (p_cores : e .cores) (p_mac : e .mac) (p_pke : e .pke) (p_mem : e .mem) (p_dma : e .dma) (p_fwd : e .fwd) (p_aud :
    e .aud) (p_vid : e .vid) (p_mode : e .mode) (p_sys : e .sys) {x1i x2i x3i} (h : Only e a d) : Only e a (paddockRound d
    x1i x2i x3i) := by
  unfold paddockRound
  split
  · assumption
  · extract_lets +onlyGivenNames x1
    extract_lets +onlyGivenNames x2
    extract_lets +onlyGivenNames x3
    have h3 : Only e a x3 := by
      unfold x3
      split
      · assumption
      · refine putBank_only p_mem ?_
        assumption
    try clear_value x3
    extract_lets +onlyGivenNames x4
    have h4 : Only e a x4 := by
      unfold x4
      refine Only.foldl ?_ (fun d5 y5 h5 => ?_)
      · assumption
      · refine padAsk_only p_regs p_out p_hif p_evt p_ldg p_dlr p_cores p_mac p_pke p_mem p_dma p_fwd p_aud p_vid p_mode
          p_sys ?_
        assumption
    try clear_value x4
    split
    · assumption
    · extract_lets +onlyGivenNames x6
      extract_lets +onlyGivenNames x7
      extract_lets +onlyGivenNames x8
      extract_lets +onlyGivenNames x9
      have h9 : Only e a x9 := by
        unfold x9
        refine maxReg_only p_regs ?_
        assumption
      try clear_value x9
      refine putBank_only p_mem ?_
      assumption

/-! ### Ptp -/

theorem ptpAnnounce_only (p_regs : e .regs) (p_out : e .out) (p_tim : e .tim) (p_hif : e .hif) {x1i} (h : Only e a d) : Only
    e a (ptpAnnounce d x1i) := by
  unfold ptpAnnounce
  split
  · assumption
  · extract_lets +onlyGivenNames x1
    extract_lets +onlyGivenNames x2
    have h2 : Only e a x2 := by
      unfold x2
      refine setF_only p_regs ?_
      assumption
    try clear_value x2
    extract_lets +onlyGivenNames x3
    have h3 : Only e a x3 := by
      unfold x3
      split
      · assumption
      · refine raise_only p_regs p_out p_hif ?_
        assumption
    try clear_value x3
    split
    · refine setServo_only p_regs p_out p_tim ?_
      assumption
    · assumption

theorem ptpDelayReq_only (p_regs : e .regs) (p_freeCtr : e .freeCtr) (p_out : e .out) (p_tim : e .tim) (p_hif : e .hif)
    (p_evt : e .evt) (p_ldg : e .ldg) (p_pke : e .pke) (p_brd : e .brd) (p_sys : e .sys) {x1i x2i} (h : Only e a d) : Only e
    a (ptpDelayReq d x1i x2i) := by
  unfold ptpDelayReq
  extract_lets +onlyGivenNames x1
  have h1 : Only e a x1.2 := by
    unfold x1
    refine drawFree_only p_freeCtr ?_
    assumption
  try clear_value x1
  refine enterBridle_only p_regs p_freeCtr p_out p_tim p_hif p_evt p_ldg p_pke p_brd p_sys ?_
  assumption

theorem ptpExchange_only (p_regs : e .regs) (p_freeCtr : e .freeCtr) (p_out : e .out) (p_stride : e .stride) (p_tim : e
    .tim) (p_hif : e .hif) (p_evt : e .evt) (p_ldg : e .ldg) (p_mac : e .mac) (p_pke : e .pke) (p_brd : e .brd) (p_sys : e
    .sys) {x1i x2i} (h : Only e a d) : Only e a (ptpExchange d x1i x2i) := by
  unfold ptpExchange
  extract_lets +onlyGivenNames x1
  have h1 : Only e a x1 := by
    unfold x1
    refine showOffset_only p_regs ?_
    assumption
  try clear_value x1
  extract_lets +onlyGivenNames x2
  have h2 : Only e a x2 := by
    unfold x2
    split
    · refine servoSync_only p_regs p_out p_stride p_tim p_hif p_mac p_pke p_brd p_sys ?_
      assumption
    · assumption
  try clear_value x2
  split
  · refine ptpDelayReq_only p_regs p_freeCtr p_out p_tim p_hif p_evt p_ldg p_pke p_brd p_sys ?_
    assumption
  · assumption

theorem ptpSync_only (p_regs : e .regs) (p_freeCtr : e .freeCtr) (p_out : e .out) (p_stride : e .stride) (p_tim : e .tim)
    (p_hif : e .hif) (p_evt : e .evt) (p_ldg : e .ldg) (p_mac : e .mac) (p_pke : e .pke) (p_brd : e .brd) (p_sys : e .sys)
    {x1i x2i x3i} (h : Only e a d) : Only e a (ptpSync d x1i x2i x3i) := by
  unfold ptpSync
  extract_lets +onlyGivenNames x1
  split
  · assumption
  · split
    · split
      · refine Only.timUpd p_tim ?_ _ rfl
        assumption
      · refine ptpExchange_only p_regs p_freeCtr p_out p_stride p_tim p_hif p_evt p_ldg p_mac p_pke p_brd p_sys ?_
        assumption
    · split
      · refine ptpExchange_only p_regs p_freeCtr p_out p_stride p_tim p_hif p_evt p_ldg p_mac p_pke p_brd p_sys ?_
        refine Only.timUpd p_tim ?_ _ rfl
        assumption
      · assumption

theorem ptpMessage_only (p_regs : e .regs) (p_freeCtr : e .freeCtr) (p_out : e .out) (p_stride : e .stride) (p_tim : e .tim)
    (p_hif : e .hif) (p_evt : e .evt) (p_ldg : e .ldg) (p_mac : e .mac) (p_pke : e .pke) (p_brd : e .brd) (p_sys : e .sys)
    {x1i} (h : Only e a d) : Only e a (ptpMessage d x1i) := by
  unfold ptpMessage
  split
  · assumption
  · extract_lets +onlyGivenNames x1
    extract_lets +onlyGivenNames x2
    have h2 : Only e a x2 := by
      unfold x2
      refine Only.timUpd p_tim ?_ _ rfl
      assumption
    try clear_value x2
    split
    · assumption
    · split
      · assumption
      · split
        · refine ptpSync_only p_regs p_freeCtr p_out p_stride p_tim p_hif p_evt p_ldg p_mac p_pke p_brd p_sys ?_
          assumption
        · refine ptpSync_only p_regs p_freeCtr p_out p_stride p_tim p_hif p_evt p_ldg p_mac p_pke p_brd p_sys ?_
          assumption
        · split
          · refine ptpAnnounce_only p_regs p_out p_tim p_hif ?_
            assumption
          · assumption
        · assumption

end Sys2Proof.Machine
end

