-- ==== Sys2Proof/Laws/FrameExec1.lean ====
section
/-! SUPPORT. What each command of the first half of the table may write. -/
namespace Sys2Proof.Machine
variable {e : Piece → Prop} {s t : State}

/-- A meaning that acts on the device answers the device that its operation makes. -/
theorem onDev_only {f : Dev → Dev} (h : Only e s.dev (f s.dev)) (ht : onDev f s = .next t) : Only e s.dev t.dev := by
  cases ht
  exact h

theorem execPreemptLate_only (p_regs : e .regs) (p_out : e .out) (p_hif : e .hif) (p_dlr : e .dlr) {x0i} (ht :
    execPreemptLate x0i s = .next t) : Only e s.dev t.dev := by
  unfold execPreemptLate at ht
  refine onDev_only ?_ ht
  generalize s.dev = a
  have h : Only e a a := Only.refl _
  refine preemptLate_only p_regs p_out p_hif p_dlr ?_
  assumption

theorem execFlowStall_only (p_regs : e .regs) (p_out : e .out) (p_hif : e .hif) (p_dlr : e .dlr) {x0i} (ht : execFlowStall
    x0i s = .next t) : Only e s.dev t.dev := by
  unfold execFlowStall at ht
  refine onDev_only ?_ ht
  generalize s.dev = a
  have h : Only e a a := Only.refl _
  refine stallFlow_only p_regs p_out p_hif p_dlr ?_
  assumption

theorem execCardCancel_only (p_regs : e .regs) (p_out : e .out) (p_hif : e .hif) (p_evt : e .evt) (p_ldg : e .ldg) (p_dlr :
    e .dlr) (p_cores : e .cores) (p_pke : e .pke) (p_dma : e .dma) (p_fwd : e .fwd) (p_aud : e .aud) (p_vid : e .vid) (p_sys
    : e .sys) {x0i x1i} (ht : execCardCancel x0i x1i s = .next t) : Only e s.dev t.dev := by
  unfold execCardCancel at ht
  refine onDev_only ?_ ht
  generalize s.dev = a
  have h : Only e a a := Only.refl _
  refine runCmd_only p_regs p_out p_hif p_sys ?_ ?_
  · intro z1
    refine cardCancelAct_only p_regs p_out p_hif p_evt p_ldg p_dlr p_cores p_pke p_dma p_fwd p_aud p_vid p_sys ?_
    assumption
  · assumption

theorem execDeadlineDrop_only (p_regs : e .regs) (p_out : e .out) (p_hif : e .hif) (p_evt : e .evt) (p_ldg : e .ldg) (p_dlr
    : e .dlr) (p_cores : e .cores) (p_pke : e .pke) (p_dma : e .dma) (p_fwd : e .fwd) (p_aud : e .aud) (p_vid : e .vid)
    (p_sys : e .sys) {x0i} (ht : execDeadlineDrop x0i s = .next t) : Only e s.dev t.dev := by
  unfold execDeadlineDrop at ht
  refine onDev_only ?_ ht
  generalize s.dev = a
  have h : Only e a a := Only.refl _
  refine deadlineDrop_only p_regs p_out p_hif p_evt p_ldg p_dlr p_cores p_pke p_dma p_fwd p_aud p_vid p_sys ?_
  assumption

theorem execEngineQueueWrite_only (p_dlr : e .dlr) (p_vid : e .vid) {x0i} (ht : execEngineQueueWrite x0i s = .next t) : Only
    e s.dev t.dev := by
  unfold execEngineQueueWrite at ht
  refine onDev_only ?_ ht
  generalize s.dev = a
  have h : Only e a a := Only.refl _
  split
  · refine writeQueue_only p_dlr p_vid ?_
    assumption
  · assumption

theorem execCardSubmit_only (p_regs : e .regs) (p_out : e .out) (p_hif : e .hif) (p_evt : e .evt) (p_ldg : e .ldg) (p_dlr :
    e .dlr) (p_cores : e .cores) (p_pke : e .pke) (p_dma : e .dma) (p_fwd : e .fwd) (p_aud : e .aud) (p_vid : e .vid) (p_sys
    : e .sys) {x0i x1i} (ht : execCardSubmit x0i x1i s = .next t) : Only e s.dev t.dev := by
  unfold execCardSubmit at ht
  refine onDev_only ?_ ht
  generalize s.dev = a
  have h : Only e a a := Only.refl _
  refine runCmd_only p_regs p_out p_hif p_sys ?_ ?_
  · intro z1
    refine cardSubmitAct_only p_regs p_out p_hif p_evt p_ldg p_dlr p_cores p_pke p_dma p_fwd p_aud p_vid p_sys ?_
    assumption
  · assumption

theorem execCardRetire_only (p_regs : e .regs) (p_out : e .out) (p_hif : e .hif) (p_evt : e .evt) (p_ldg : e .ldg) (p_dlr :
    e .dlr) (p_cores : e .cores) (p_pke : e .pke) (p_dma : e .dma) (p_fwd : e .fwd) (p_aud : e .aud) (p_vid : e .vid) (p_sys
    : e .sys) {x0i} (ht : execCardRetire x0i s = .next t) : Only e s.dev t.dev := by
  unfold execCardRetire at ht
  refine onDev_only ?_ ht
  generalize s.dev = a
  have h : Only e a a := Only.refl _
  split
  · assumption
  · split
    · refine completeCard_only p_regs p_out p_hif p_evt p_ldg p_dlr p_cores p_pke p_dma p_fwd p_aud p_vid p_sys ?_
      assumption
    · assumption

theorem execCardDeal_only (p_regs : e .regs) (p_out : e .out) (p_hif : e .hif) (p_dlr : e .dlr) (p_cores : e .cores) {x0i
    x1i} (ht : execCardDeal x0i x1i s = .next t) : Only e s.dev t.dev := by
  unfold execCardDeal at ht
  refine onDev_only ?_ ht
  generalize s.dev = a
  have h : Only e a a := Only.refl _
  split
  · assumption
  · extract_lets +onlyGivenNames x1
    have h1 : Only e a x1 := by
      unfold x1
      refine dealPool_only p_regs p_dlr p_cores ?_
      assumption
    try clear_value x1
    refine Only.foldl ?_ (fun d2 y2 h2 => ?_)
    · assumption
    · split
      · assumption
      · refine breakCheck_only p_regs p_out p_hif p_cores ?_
        assumption

theorem execSubmitStall_only (p_regs : e .regs) (p_out : e .out) (p_hif : e .hif) {x0i x1i} (ht : execSubmitStall x0i x1i s
    = .next t) : Only e s.dev t.dev := by
  unfold execSubmitStall at ht
  refine onDev_only ?_ ht
  generalize s.dev = a
  have h : Only e a a := Only.refl _
  split
  · refine submitStallCmd_only p_regs p_out p_hif ?_
    assumption
  · assumption

theorem execPreempt_only (p_regs : e .regs) (p_dlr : e .dlr) (p_cores : e .cores) {x0i x1i} (ht : execPreempt x0i x1i s =
    .next t) : Only e s.dev t.dev := by
  unfold execPreempt at ht
  refine onDev_only ?_ ht
  generalize s.dev = a
  have h : Only e a a := Only.refl _
  refine preemptPool_only p_regs p_dlr p_cores ?_
  assumption

theorem execOverrun_only (p_regs : e .regs) (p_out : e .out) (p_hif : e .hif) (p_dlr : e .dlr) {x0i x1i} (ht : execOverrun
    x0i x1i s = .next t) : Only e s.dev t.dev := by
  unfold execOverrun at ht
  refine onDev_only ?_ ht
  generalize s.dev = a
  have h : Only e a a := Only.refl _
  refine overrunCard_only p_regs p_out p_hif p_dlr ?_
  assumption

theorem execFlowCreate_only (p_regs : e .regs) (p_out : e .out) (p_hif : e .hif) (p_evt : e .evt) (p_ldg : e .ldg) (p_dlr :
    e .dlr) (p_sys : e .sys) {x0i x1i} (ht : execFlowCreate x0i x1i s = .next t) : Only e s.dev t.dev := by
  unfold execFlowCreate at ht
  refine onDev_only ?_ ht
  generalize s.dev = a
  have h : Only e a a := Only.refl _
  refine runCmd_only p_regs p_out p_hif p_sys ?_ ?_
  · intro z1
    refine flowCreateAct_only p_regs p_evt p_ldg p_dlr ?_
    assumption
  · assumption

theorem execAudioMixDone_only (p_regs : e .regs) (p_out : e .out) (p_hif : e .hif) (p_evt : e .evt) (p_ldg : e .ldg) (p_dlr
    : e .dlr) (p_cores : e .cores) (p_pke : e .pke) (p_dma : e .dma) (p_fwd : e .fwd) (p_aud : e .aud) (p_vid : e .vid)
    (p_sys : e .sys) {x0i x1i} (ht : execAudioMixDone x0i x1i s = .next t) : Only e s.dev t.dev := by
  unfold execAudioMixDone at ht
  refine onDev_only ?_ ht
  generalize s.dev = a
  have h : Only e a a := Only.refl _
  refine audioMixDone_only p_regs p_out p_hif p_evt p_ldg p_dlr p_cores p_pke p_dma p_fwd p_aud p_vid p_sys ?_
  assumption

theorem execConfCreate_only (p_regs : e .regs) (p_out : e .out) (p_hif : e .hif) (p_evt : e .evt) (p_ldg : e .ldg) (p_obj :
    e .obj) (p_aud : e .aud) (p_sys : e .sys) {x0i x1i} (ht : execConfCreate x0i x1i s = .next t) : Only e s.dev t.dev := by
  unfold execConfCreate at ht
  refine onDev_only ?_ ht
  generalize s.dev = a
  have h : Only e a a := Only.refl _
  refine runCmd_only p_regs p_out p_hif p_sys ?_ ?_
  · intro z1
    refine confCreateAct_only p_regs p_evt p_ldg p_obj p_aud ?_
    assumption
  · assumption

theorem execJitterCard_only (p_regs : e .regs) (p_evt : e .evt) (p_ldg : e .ldg) (p_dlr : e .dlr) (p_pke : e .pke) (p_fwd :
    e .fwd) (p_aud : e .aud) {x0i} (ht : execJitterCard x0i s = .next t) : Only e s.dev t.dev := by
  unfold execJitterCard at ht
  refine onDev_only ?_ ht
  generalize s.dev = a
  have h : Only e a a := Only.refl _
  refine jitterCard_only p_regs p_evt p_ldg p_dlr p_pke p_fwd p_aud ?_
  assumption

theorem execCascadePayload_only (p_regs : e .regs) (p_out : e .out) (p_hif : e .hif) (p_evt : e .evt) (p_ldg : e .ldg)
    (p_pke : e .pke) (p_fwd : e .fwd) (p_aud : e .aud) {x0i} (ht : execCascadePayload x0i s = .next t) : Only e s.dev t.dev
    := by
  unfold execCascadePayload at ht
  refine onDev_only ?_ ht
  generalize s.dev = a
  have h : Only e a a := Only.refl _
  refine cascadePayload_only p_regs p_out p_hif p_evt p_ldg p_pke p_fwd p_aud ?_
  assumption

theorem execPartSet_only (p_regs : e .regs) (p_out : e .out) (p_hif : e .hif) (p_aud : e .aud) (p_sys : e .sys) {x0i x1i}
    (ht : execPartSet x0i x1i s = .next t) : Only e s.dev t.dev := by
  unfold execPartSet at ht
  refine onDev_only ?_ ht
  generalize s.dev = a
  have h : Only e a a := Only.refl _
  refine runCmd_only p_regs p_out p_hif p_sys ?_ ?_
  · intro z1
    refine partSetAct_only p_aud ?_
    assumption
  · assumption

theorem execPartCreate_only (p_regs : e .regs) (p_out : e .out) (p_hif : e .hif) (p_evt : e .evt) (p_ldg : e .ldg) (p_obj :
    e .obj) (p_aud : e .aud) (p_sys : e .sys) {x0i x1i} (ht : execPartCreate x0i x1i s = .next t) : Only e s.dev t.dev := by
  unfold execPartCreate at ht
  refine onDev_only ?_ ht
  generalize s.dev = a
  have h : Only e a a := Only.refl _
  refine runCmd_only p_regs p_out p_hif p_sys ?_ ?_
  · intro z1
    refine partCreateAct_only p_regs p_evt p_ldg p_obj p_aud ?_
    assumption
  · assumption

theorem execUnitRunning_only (p_regs : e .regs) (p_out : e .out) (p_hif : e .hif) (p_evt : e .evt) (p_ldg : e .ldg) (p_mac :
    e .mac) (p_mem : e .mem) (p_fwd : e .fwd) (p_mode : e .mode) (p_sys : e .sys) {x0i} (ht : execUnitRunning x0i s = .next
    t) : Only e s.dev t.dev := by
  unfold execUnitRunning at ht
  refine onDev_only ?_ ht
  generalize s.dev = a
  have h : Only e a a := Only.refl _
  extract_lets +onlyGivenNames x1
  extract_lets +onlyGivenNames x2
  split
  · refine reachRunning_only p_regs p_out p_hif p_evt p_ldg p_mac p_mem p_fwd p_mode p_sys ?_
    assumption
  · assumption

theorem execUnitStopped_only (p_regs : e .regs) (p_out : e .out) (p_hif : e .hif) (p_evt : e .evt) (p_ldg : e .ldg) (p_dlr :
    e .dlr) (p_mac : e .mac) (p_mem : e .mem) (p_fwd : e .fwd) (p_mode : e .mode) (p_sys : e .sys) {x0i} (ht :
    execUnitStopped x0i s = .next t) : Only e s.dev t.dev := by
  unfold execUnitStopped at ht
  refine onDev_only ?_ ht
  generalize s.dev = a
  have h : Only e a a := Only.refl _
  split
  · refine reachStopped_only p_regs p_out p_hif p_evt p_ldg p_dlr p_mac p_mem p_fwd p_mode p_sys ?_
    assumption
  · assumption

theorem execUnitStart_only (p_regs : e .regs) (p_out : e .out) (p_hif : e .hif) (p_evt : e .evt) (p_ldg : e .ldg) (p_mac : e
    .mac) (p_fwd : e .fwd) (p_sys : e .sys) {x0i x1i} (ht : execUnitStart x0i x1i s = .next t) : Only e s.dev t.dev := by
  unfold execUnitStart at ht
  refine onDev_only ?_ ht
  generalize s.dev = a
  have h : Only e a a := Only.refl _
  refine runCmd_only p_regs p_out p_hif p_sys ?_ ?_
  · intro z1
    refine unitStartAct_only p_regs p_evt p_ldg p_mac p_fwd p_sys ?_
    refine flagCfgBad_only p_regs ?_
    assumption
  · refine flagCfgBad_only p_regs ?_
    assumption

theorem execUnitCmdTimeout_only (p_regs : e .regs) (p_out : e .out) (p_hif : e .hif) (p_evt : e .evt) (p_ldg : e .ldg)
    (p_sys : e .sys) {x0i} (ht : execUnitCmdTimeout x0i s = .next t) : Only e s.dev t.dev := by
  unfold execUnitCmdTimeout at ht
  refine onDev_only ?_ ht
  generalize s.dev = a
  have h : Only e a a := Only.refl _
  split
  · refine timeoutUnit_only p_regs p_out p_hif p_evt p_ldg p_sys ?_
    assumption
  · assumption

theorem execUnitStop_only (p_regs : e .regs) (p_latch : e .latch) (p_out : e .out) (p_hif : e .hif) (p_evt : e .evt) (p_ldg
    : e .ldg) (p_cores : e .cores) (p_mac : e .mac) (p_pke : e .pke) (p_brd : e .brd) (p_pad : e .pad) (p_local_ : e
    .local_) (p_mem : e .mem) (p_sys : e .sys) {x0i x1i} (ht : execUnitStop x0i x1i s = .next t) : Only e s.dev t.dev := by
  unfold execUnitStop at ht
  refine onDev_only ?_ ht
  generalize s.dev = a
  have h : Only e a a := Only.refl _
  refine runCmd_only p_regs p_out p_hif p_sys ?_ ?_
  · intro z1
    refine unitStopAct_only p_regs p_latch p_evt p_ldg p_cores p_mac p_pke p_brd p_pad p_local_ p_mem p_sys ?_
    assumption
  · assumption

theorem execTackStoreDone_only (p_regs : e .regs) (p_out : e .out) (p_hif : e .hif) (p_tack : e .tack) (p_sys : e .sys) {x0i
    x1i} (ht : execTackStoreDone x0i x1i s = .next t) : Only e s.dev t.dev := by
  unfold execTackStoreDone at ht
  refine onDev_only ?_ ht
  generalize s.dev = a
  have h : Only e a a := Only.refl _
  refine tackStoreDone_only p_regs p_out p_hif p_tack p_sys ?_
  assumption

theorem execTackLoad_only (p_regs : e .regs) (p_out : e .out) (p_hif : e .hif) (p_sys : e .sys) {x0i x1i} (ht : execTackLoad
    x0i x1i s = .next t) : Only e s.dev t.dev := by
  unfold execTackLoad at ht
  refine onDev_only ?_ ht
  generalize s.dev = a
  have h : Only e a a := Only.refl _
  refine runCmd_only p_regs p_out p_hif p_sys ?_ ?_
  · intro z1
    refine tackLoadAct_only p_out ?_
    assumption
  · assumption

theorem execTackStore_only (p_regs : e .regs) (p_out : e .out) (p_hif : e .hif) (p_tack : e .tack) (p_sys : e .sys) {x0i x1i
    x2i x3i} (ht : execTackStore x0i x1i x2i x3i s = .next t) : Only e s.dev t.dev := by
  unfold execTackStore at ht
  refine onDev_only ?_ ht
  generalize s.dev = a
  have h : Only e a a := Only.refl _
  refine runCmd_only p_regs p_out p_hif p_sys ?_ ?_
  · intro z1
    refine tackStoreAct_only p_tack p_sys ?_
    assumption
  · assumption

theorem execQuarterFence_only (p_regs : e .regs) (p_latch : e .latch) (p_out : e .out) (p_hif : e .hif) (p_evt : e .evt)
    (p_ldg : e .ldg) (p_dlr : e .dlr) (p_cores : e .cores) (p_mac : e .mac) (p_pke : e .pke) (p_brd : e .brd) (p_pad : e
    .pad) (p_local_ : e .local_) (p_mem : e .mem) (p_dma : e .dma) (p_fwd : e .fwd) (p_aud : e .aud) (p_vid : e .vid)
    (p_mode : e .mode) (p_sys : e .sys) {x0i x1i} (ht : execQuarterFence x0i x1i s = .next t) : Only e s.dev t.dev := by
  unfold execQuarterFence at ht
  refine onDev_only ?_ ht
  generalize s.dev = a
  have h : Only e a a := Only.refl _
  refine runCmd_only p_regs p_out p_hif p_sys ?_ ?_
  · intro z1
    refine quarterFenceAct_only p_regs p_latch p_out p_hif p_evt p_ldg p_dlr p_cores p_mac p_pke p_brd p_pad p_local_ p_mem
        p_dma p_fwd p_aud p_vid p_mode p_sys ?_
    assumption
  · assumption

theorem execPowerStep_only (p_regs : e .regs) (p_out : e .out) (p_tim : e .tim) (p_hif : e .hif) (p_mac : e .mac) (p_sys : e
    .sys) {x0i} (ht : execPowerStep x0i s = .next t) : Only e s.dev t.dev := by
  unfold execPowerStep at ht
  refine onDev_only ?_ ht
  generalize s.dev = a
  have h : Only e a a := Only.refl _
  refine powerStep_only p_regs p_out p_tim p_hif p_mac p_sys ?_
  assumption

theorem execModeChange_only (p_regs : e .regs) (p_out : e .out) (p_hif : e .hif) (p_evt : e .evt) (p_ldg : e .ldg) (p_mac :
    e .mac) (p_pke : e .pke) (p_hbm : e .hbm) (p_mem : e .mem) (p_fwd : e .fwd) (p_mode : e .mode) (p_sys : e .sys) (ht :
    execModeChange s = .next t) : Only e s.dev t.dev := by
  unfold execModeChange at ht
  refine onDev_only ?_ ht
  generalize s.dev = a
  have h : Only e a a := Only.refl _
  refine modeChange_only p_regs p_out p_hif p_evt p_ldg p_mac p_pke p_hbm p_mem p_fwd p_mode p_sys ?_
  assumption

theorem execStackTraining_only (p_regs : e .regs) (p_out : e .out) (p_hif : e .hif) (p_sys : e .sys) {x0i x1i x2i} (ht :
    execStackTraining x0i x1i x2i s = .next t) : Only e s.dev t.dev := by
  unfold execStackTraining at ht
  refine onDev_only ?_ ht
  generalize s.dev = a
  have h : Only e a a := Only.refl _
  refine stackPhase_only p_regs p_out p_hif p_sys ?_
  assumption

theorem execPowerStepFail_only (p_regs : e .regs) (p_out : e .out) (p_tim : e .tim) (p_hif : e .hif) (p_evt : e .evt) (p_ldg
    : e .ldg) (p_dlr : e .dlr) (p_cores : e .cores) (p_mac : e .mac) (p_pke : e .pke) (p_mem : e .mem) (p_dma : e .dma)
    (p_fwd : e .fwd) (p_aud : e .aud) (p_vid : e .vid) (p_mode : e .mode) (p_sys : e .sys) {x0i} (ht : execPowerStepFail x0i
    s = .next t) : Only e s.dev t.dev := by
  unfold execPowerStepFail at ht
  refine onDev_only ?_ ht
  generalize s.dev = a
  have h : Only e a a := Only.refl _
  refine powerStepFail_only p_regs p_out p_tim p_hif p_evt p_ldg p_dlr p_cores p_mac p_pke p_mem p_dma p_fwd p_aud p_vid
      p_mode p_sys ?_
  assumption

theorem execModeSet_only (p_regs : e .regs) (p_out : e .out) (p_hif : e .hif) (p_evt : e .evt) (p_ldg : e .ldg) (p_sys : e
    .sys) {x0i x1i} (ht : execModeSet x0i x1i s = .next t) : Only e s.dev t.dev := by
  unfold execModeSet at ht
  refine onDev_only ?_ ht
  generalize s.dev = a
  have h : Only e a a := Only.refl _
  refine runCmd_only p_regs p_out p_hif p_sys ?_ ?_
  · intro z1
    refine modeSetAct_only p_regs p_evt p_ldg p_sys ?_
    assumption
  · assumption

theorem execPulseEdge_only (p_out : e .out) (p_tim : e .tim) {x0i x1i} (ht : execPulseEdge x0i x1i s = .next t) : Only e
    s.dev t.dev := by
  unfold execPulseEdge at ht
  refine onDev_only ?_ ht
  generalize s.dev = a
  have h : Only e a a := Only.refl _
  refine pulseEdge_only p_out p_tim ?_
  assumption

theorem execFreerun_only (p_regs : e .regs) (p_out : e .out) (p_tim : e .tim) (p_hif : e .hif) (ht : execFreerun s = .next
    t) : Only e s.dev t.dev := by
  unfold execFreerun at ht
  refine onDev_only ?_ ht
  generalize s.dev = a
  have h : Only e a a := Only.refl _
  split
  · refine enterFreerun_only p_regs p_out p_tim p_hif ?_
    assumption
  · assumption

theorem execTimeRead_only (p_latch : e .latch) (p_out : e .out) (p_tim : e .tim) {x0i x1i} (ht : execTimeRead x0i x1i s =
    .next t) : Only e s.dev t.dev := by
  unfold execTimeRead at ht
  refine onDev_only ?_ ht
  generalize s.dev = a
  have h : Only e a a := Only.refl _
  extract_lets +onlyGivenNames x1
  have h1 : Only e a x1.2 := by
    unfold x1
    refine timeRead_only p_latch ?_
    refine readAt_only p_tim ?_
    assumption
  try clear_value x1
  refine emitOut_only p_out ?_
  assumption

theorem execPulseArm_only (p_regs : e .regs) (p_out : e .out) (p_tim : e .tim) (p_hif : e .hif) {x0i x1i x2i} (ht :
    execPulseArm x0i x1i x2i s = .next t) : Only e s.dev t.dev := by
  unfold execPulseArm at ht
  refine onDev_only ?_ ht
  generalize s.dev = a
  have h : Only e a a := Only.refl _
  extract_lets +onlyGivenNames x1
  have h1 : Only e a x1 := by
    unfold x1
    refine readAt_only p_tim ?_
    assumption
  try clear_value x1
  refine writePulseCfg_only p_regs p_out p_tim p_hif ?_
  assumption

theorem execTimModeWrite_only (p_regs : e .regs) (p_out : e .out) (p_tim : e .tim) (p_hif : e .hif) {x0i} (ht :
    execTimModeWrite x0i s = .next t) : Only e s.dev t.dev := by
  unfold execTimModeWrite at ht
  refine onDev_only ?_ ht
  generalize s.dev = a
  have h : Only e a a := Only.refl _
  refine writeTimCtrl_only p_regs p_out p_tim p_hif ?_
  assumption

theorem execHoldover_only (p_regs : e .regs) (p_out : e .out) (p_tim : e .tim) (p_hif : e .hif) {x0i} (ht : execHoldover x0i
    s = .next t) : Only e s.dev t.dev := by
  unfold execHoldover at ht
  refine onDev_only ?_ ht
  generalize s.dev = a
  have h : Only e a a := Only.refl _
  refine holdover_only p_regs p_out p_tim p_hif ?_
  assumption

theorem execPulseTakeover_only (p_regs : e .regs) (p_out : e .out) (p_tim : e .tim) {x0i x1i} (ht : execPulseTakeover x0i
    x1i s = .next t) : Only e s.dev t.dev := by
  unfold execPulseTakeover at ht
  refine onDev_only ?_ ht
  generalize s.dev = a
  have h : Only e a a := Only.refl _
  refine pulseTakeover_only p_regs p_out p_tim ?_
  assumption

theorem execTxtsPop_only (p_regs : e .regs) (p_out : e .out) (p_tim : e .tim) {x0i} (ht : execTxtsPop x0i s = .next t) :
    Only e s.dev t.dev := by
  unfold execTxtsPop at ht
  refine onDev_only ?_ ht
  generalize s.dev = a
  have h : Only e a a := Only.refl _
  extract_lets +onlyGivenNames x1
  have h1 : Only e a x1.2 := by
    unfold x1
    refine txtsPop_only p_regs p_tim ?_
    assumption
  try clear_value x1
  refine emitOut_only p_out ?_
  assumption

theorem execFreqWrite_only (p_regs : e .regs) (p_tim : e .tim) {x0i} (ht : execFreqWrite x0i s = .next t) : Only e s.dev
    t.dev := by
  unfold execFreqWrite at ht
  refine onDev_only ?_ ht
  generalize s.dev = a
  have h : Only e a a := Only.refl _
  refine writeFreq_only p_regs p_tim ?_
  assumption

theorem execPulseWidthEnd_only (p_out : e .out) (p_tim : e .tim) {x0i} (ht : execPulseWidthEnd x0i s = .next t) : Only e
    s.dev t.dev := by
  unfold execPulseWidthEnd at ht
  refine onDev_only ?_ ht
  generalize s.dev = a
  have h : Only e a a := Only.refl _
  refine pulseWidthEnd_only p_out p_tim ?_
  assumption

theorem execRoleWrite_only (p_regs : e .regs) (p_brd : e .brd) {x0i x1i} (ht : execRoleWrite x0i x1i s = .next t) : Only e
    s.dev t.dev := by
  unfold execRoleWrite at ht
  refine onDev_only ?_ ht
  generalize s.dev = a
  have h : Only e a a := Only.refl _
  refine writeRole_only p_regs p_brd ?_
  assumption

theorem execTrainingDone_only (p_regs : e .regs) (p_out : e .out) (p_hif : e .hif) (p_mac : e .mac) {x0i x1i x2i} (ht :
    execTrainingDone x0i x1i x2i s = .next t) : Only e s.dev t.dev := by
  unfold execTrainingDone at ht
  refine onDev_only ?_ ht
  generalize s.dev = a
  have h : Only e a a := Only.refl _
  refine trainingDone_only p_regs p_out p_hif p_mac ?_
  assumption

theorem execLinkUp_only (p_regs : e .regs) (p_out : e .out) (p_hif : e .hif) (p_mac : e .mac) {x0i x1i x2i x3i} (ht :
    execLinkUp x0i x1i x2i x3i s = .next t) : Only e s.dev t.dev := by
  unfold execLinkUp at ht
  refine onDev_only ?_ ht
  generalize s.dev = a
  have h : Only e a a := Only.refl _
  refine linkComesUp_only p_regs p_out p_hif p_mac ?_
  assumption

theorem execAnResolve_only (p_regs : e .regs) (p_mac : e .mac) {x0i x1i} (ht : execAnResolve x0i x1i s = .next t) : Only e
    s.dev t.dev := by
  unfold execAnResolve at ht
  refine onDev_only ?_ ht
  generalize s.dev = a
  have h : Only e a a := Only.refl _
  refine anResolve_only p_regs p_mac ?_
  assumption

theorem execLaneRecheck_only (p_regs : e .regs) (p_out : e .out) (p_hif : e .hif) (p_mac : e .mac) {x0i x1i} (ht :
    execLaneRecheck x0i x1i s = .next t) : Only e s.dev t.dev := by
  unfold execLaneRecheck at ht
  refine onDev_only ?_ ht
  generalize s.dev = a
  have h : Only e a a := Only.refl _
  refine laneRecheck_only p_regs p_out p_hif p_mac ?_
  assumption

theorem execFailover_only (p_regs : e .regs) (p_out : e .out) (p_tim : e .tim) (p_hif : e .hif) (p_evt : e .evt) (p_ldg : e
    .ldg) (p_mac : e .mac) (p_pke : e .pke) (p_brd : e .brd) (p_sys : e .sys) {x0i} (ht : execFailover x0i s = .next t) :
    Only e s.dev t.dev := by
  unfold execFailover at ht
  refine onDev_only ?_ ht
  generalize s.dev = a
  have h : Only e a a := Only.refl _
  refine failover_only p_regs p_out p_tim p_hif p_evt p_ldg p_mac p_pke p_brd p_sys ?_
  assumption

theorem execLineCheck_only (p_regs : e .regs) (p_out : e .out) (p_hif : e .hif) (p_mac : e .mac) {x0i x1i} (ht :
    execLineCheck x0i x1i s = .next t) : Only e s.dev t.dev := by
  unfold execLineCheck at ht
  refine onDev_only ?_ ht
  generalize s.dev = a
  have h : Only e a a := Only.refl _
  refine lineCheck_only p_regs p_out p_hif p_mac ?_
  assumption

theorem execLaneFault_only (p_regs : e .regs) (p_out : e .out) (p_hif : e .hif) (p_mac : e .mac) {x0i x1i x2i} (ht :
    execLaneFault x0i x1i x2i s = .next t) : Only e s.dev t.dev := by
  unfold execLaneFault at ht
  refine onDev_only ?_ ht
  generalize s.dev = a
  have h : Only e a a := Only.refl _
  refine laneFails_only p_regs p_out p_hif p_mac ?_
  assumption

theorem execLinkDown_only (p_regs : e .regs) (p_out : e .out) (p_hif : e .hif) (p_mac : e .mac) {x0i x1i} (ht : execLinkDown
    x0i x1i s = .next t) : Only e s.dev t.dev := by
  unfold execLinkDown at ht
  refine onDev_only ?_ ht
  generalize s.dev = a
  have h : Only e a a := Only.refl _
  split
  · refine loseLink_only p_regs p_out p_hif p_mac ?_
    assumption
  · assumption

theorem execTrainTimeout_only (p_regs : e .regs) (p_out : e .out) (p_hif : e .hif) (p_mac : e .mac) {x0i} (ht :
    execTrainTimeout x0i s = .next t) : Only e s.dev t.dev := by
  unfold execTrainTimeout at ht
  refine onDev_only ?_ ht
  generalize s.dev = a
  have h : Only e a a := Only.refl _
  refine trainTimeout_only p_regs p_out p_hif p_mac ?_
  assumption

theorem execLinkRetry_only (p_regs : e .regs) {x0i} (ht : execLinkRetry x0i s = .next t) : Only e s.dev t.dev := by
  unfold execLinkRetry at ht
  refine onDev_only ?_ ht
  generalize s.dev = a
  have h : Only e a a := Only.refl _
  split
  · refine setLink_only p_regs ?_
    assumption
  · assumption

theorem execFrameReceive_only (p_regs : e .regs) (p_evt : e .evt) (p_ldg : e .ldg) (p_mac : e .mac) (p_pke : e .pke) {x0i
    x1i x2i x3i} (ht : execFrameReceive x0i x1i x2i x3i s = .next t) : Only e s.dev t.dev := by
  unfold execFrameReceive at ht
  refine onDev_only ?_ ht
  generalize s.dev = a
  have h : Only e a a := Only.refl _
  refine receiveFrame_only p_regs p_evt p_ldg p_mac p_pke ?_
  assumption

theorem execPauseFrame_only (p_regs : e .regs) (p_tim : e .tim) (p_mac : e .mac) {x0i x1i x2i x3i x4i} (ht : execPauseFrame
    x0i x1i x2i x3i x4i s = .next t) : Only e s.dev t.dev := by
  unfold execPauseFrame at ht
  refine onDev_only ?_ ht
  generalize s.dev = a
  have h : Only e a a := Only.refl _
  refine pauseFrame_only p_regs p_tim p_mac ?_
  assumption

theorem execMacTransmit_only (p_regs : e .regs) (p_freeCtr : e .freeCtr) (p_out : e .out) (p_tim : e .tim) (p_hif : e .hif)
    (p_evt : e .evt) (p_ldg : e .ldg) (p_mac : e .mac) (p_pke : e .pke) (p_brd : e .brd) (p_sys : e .sys) {x0i x1i} (ht :
    execMacTransmit x0i x1i s = .next t) : Only e s.dev t.dev := by
  unfold execMacTransmit at ht
  refine onDev_only ?_ ht
  generalize s.dev = a
  have h : Only e a a := Only.refl _
  refine macTransmit_only p_regs p_freeCtr p_out p_tim p_hif p_evt p_ldg p_mac p_pke p_brd p_sys ?_
  assumption

theorem execTxFrame_only (p_regs : e .regs) (p_freeCtr : e .freeCtr) (p_out : e .out) (p_tim : e .tim) (p_hif : e .hif)
    (p_evt : e .evt) (p_ldg : e .ldg) (p_pke : e .pke) (p_brd : e .brd) (p_sys : e .sys) {x0i x1i x2i} (ht : execTxFrame x0i
    x1i x2i s = .next t) : Only e s.dev t.dev := by
  unfold execTxFrame at ht
  refine onDev_only ?_ ht
  generalize s.dev = a
  have h : Only e a a := Only.refl _
  refine runCmd_only p_regs p_out p_hif p_sys ?_ ?_
  · intro z1
    refine txFrameAct_only p_regs p_freeCtr p_out p_tim p_hif p_evt p_ldg p_pke p_brd p_sys ?_
    assumption
  · assumption

theorem execPauseExpiry_only (p_regs : e .regs) (p_tim : e .tim) {x0i x1i x2i} (ht : execPauseExpiry x0i x1i x2i s = .next
    t) : Only e s.dev t.dev := by
  unfold execPauseExpiry at ht
  refine onDev_only ?_ ht
  generalize s.dev = a
  have h : Only e a a := Only.refl _
  refine pauseExpiry_only p_regs p_tim ?_
  assumption

theorem execParseLenchk_only (p_regs : e .regs) (p_freeCtr : e .freeCtr) (p_evt : e .evt) (p_ldg : e .ldg) (p_pke : e .pke)
    (p_sec : e .sec) {x0i} (ht : execParseLenchk x0i s = .next t) : Only e s.dev t.dev := by
  unfold execParseLenchk at ht
  refine onDev_only ?_ ht
  generalize s.dev = a
  have h : Only e a a := Only.refl _
  refine parseStep_only p_regs p_freeCtr p_evt p_ldg p_pke p_sec ?_
  assumption

theorem execParseAdv_only (p_regs : e .regs) (p_freeCtr : e .freeCtr) (p_evt : e .evt) (p_ldg : e .ldg) (p_pke : e .pke)
    (p_sec : e .sec) {x0i} (ht : execParseAdv x0i s = .next t) : Only e s.dev t.dev := by
  unfold execParseAdv at ht
  refine onDev_only ?_ ht
  generalize s.dev = a
  have h : Only e a a := Only.refl _
  refine parseStep_only p_regs p_freeCtr p_evt p_ldg p_pke p_sec ?_
  assumption

theorem execParseKeyw_only (p_regs : e .regs) (p_freeCtr : e .freeCtr) (p_evt : e .evt) (p_ldg : e .ldg) (p_pke : e .pke)
    (p_sec : e .sec) {x0i} (ht : execParseKeyw x0i s = .next t) : Only e s.dev t.dev := by
  unfold execParseKeyw at ht
  refine onDev_only ?_ ht
  generalize s.dev = a
  have h : Only e a a := Only.refl _
  refine parseStep_only p_regs p_freeCtr p_evt p_ldg p_pke p_sec ?_
  assumption

theorem execRuleWrite_only (p_regs : e .regs) (p_out : e .out) (p_hif : e .hif) (p_evt : e .evt) (p_ldg : e .ldg) (p_pke : e
    .pke) (p_sys : e .sys) {x0i x1i x2i} (ht : execRuleWrite x0i x1i x2i s = .next t) : Only e s.dev t.dev := by
  unfold execRuleWrite at ht
  refine onDev_only ?_ ht
  generalize s.dev = a
  have h : Only e a a := Only.refl _
  refine runCmd_only p_regs p_out p_hif p_sys ?_ ?_
  · intro z1
    refine ruleWriteAct_only p_regs p_out p_hif p_evt p_ldg p_pke p_sys ?_
    assumption
  · assumption

theorem execParseNode_only (p_regs : e .regs) (p_freeCtr : e .freeCtr) (p_evt : e .evt) (p_ldg : e .ldg) (p_pke : e .pke)
    (p_sec : e .sec) {x0i} (ht : execParseNode x0i s = .next t) : Only e s.dev t.dev := by
  unfold execParseNode at ht
  refine onDev_only ?_ ht
  generalize s.dev = a
  have h : Only e a a := Only.refl _
  refine parseStep_only p_regs p_freeCtr p_evt p_ldg p_pke p_sec ?_
  assumption

theorem execParseMeta_only (p_regs : e .regs) (p_freeCtr : e .freeCtr) (p_evt : e .evt) (p_ldg : e .ldg) (p_pke : e .pke)
    (p_sec : e .sec) {x0i} (ht : execParseMeta x0i s = .next t) : Only e s.dev t.dev := by
  unfold execParseMeta at ht
  refine onDev_only ?_ ht
  generalize s.dev = a
  have h : Only e a a := Only.refl _
  refine parseStep_only p_regs p_freeCtr p_evt p_ldg p_pke p_sec ?_
  assumption

theorem execSlowPathService_only (p_regs : e .regs) (p_tim : e .tim) (p_evt : e .evt) (p_ldg : e .ldg) (p_pke : e .pke) (ht
    : execSlowPathService s = .next t) : Only e s.dev t.dev := by
  unfold execSlowPathService at ht
  refine onDev_only ?_ ht
  generalize s.dev = a
  have h : Only e a a := Only.refl _
  refine slowService_only p_regs p_tim p_evt p_ldg p_pke ?_
  assumption

theorem execSwapDrainDone_only (p_regs : e .regs) (p_out : e .out) (p_tim : e .tim) (p_hif : e .hif) (p_pke : e .pke) (p_sys
    : e .sys) {x0i} (ht : execSwapDrainDone x0i s = .next t) : Only e s.dev t.dev := by
  unfold execSwapDrainDone at ht
  refine onDev_only ?_ ht
  generalize s.dev = a
  have h : Only e a a := Only.refl _
  refine swapDrained_only p_regs p_out p_tim p_hif p_pke p_sys ?_
  assumption

theorem execParseKeyp_only (p_regs : e .regs) (p_freeCtr : e .freeCtr) (p_evt : e .evt) (p_ldg : e .ldg) (p_pke : e .pke)
    (p_sec : e .sec) {x0i} (ht : execParseKeyp x0i s = .next t) : Only e s.dev t.dev := by
  unfold execParseKeyp at ht
  refine onDev_only ?_ ht
  generalize s.dev = a
  have h : Only e a a := Only.refl _
  refine parseStep_only p_regs p_freeCtr p_evt p_ldg p_pke p_sec ?_
  assumption

theorem execEmLookupReturn_only (p_regs : e .regs) (p_out : e .out) (p_hif : e .hif) (p_evt : e .evt) (p_ldg : e .ldg)
    (p_pke : e .pke) (p_sec : e .sec) {x0i x1i x2i} (ht : execEmLookupReturn x0i x1i x2i s = .next t) : Only e s.dev t.dev
    :=
    by
  unfold execEmLookupReturn at ht
  refine onDev_only ?_ ht
  generalize s.dev = a
  have h : Only e a a := Only.refl _
  refine emReturn_only p_regs p_out p_hif p_evt p_ldg p_pke p_sec ?_
  assumption

theorem execParseLd_only (p_regs : e .regs) (p_freeCtr : e .freeCtr) (p_evt : e .evt) (p_ldg : e .ldg) (p_pke : e .pke)
    (p_sec : e .sec) {x0i} (ht : execParseLd x0i s = .next t) : Only e s.dev t.dev := by
  unfold execParseLd at ht
  refine onDev_only ?_ ht
  generalize s.dev = a
  have h : Only e a a := Only.refl _
  refine parseStep_only p_regs p_freeCtr p_evt p_ldg p_pke p_sec ?_
  assumption

theorem execRuleSwap_only (p_regs : e .regs) (p_out : e .out) (p_hif : e .hif) (p_pke : e .pke) (p_sys : e .sys) {x0i x1i}
    (ht : execRuleSwap x0i x1i s = .next t) : Only e s.dev t.dev := by
  unfold execRuleSwap at ht
  refine onDev_only ?_ ht
  generalize s.dev = a
  have h : Only e a a := Only.refl _
  refine runCmd_only p_regs p_out p_hif p_sys ?_ ?_
  · intro z1
    refine ruleSwapAct_only p_regs p_out p_hif p_pke ?_
    assumption
  · assumption

theorem execParseAlu_only (p_regs : e .regs) (p_freeCtr : e .freeCtr) (p_evt : e .evt) (p_ldg : e .ldg) (p_pke : e .pke)
    (p_sec : e .sec) {x0i} (ht : execParseAlu x0i s = .next t) : Only e s.dev t.dev := by
  unfold execParseAlu at ht
  refine onDev_only ?_ ht
  generalize s.dev = a
  have h : Only e a a := Only.refl _
  refine parseStep_only p_regs p_freeCtr p_evt p_ldg p_pke p_sec ?_
  assumption

theorem execParseVerd_only (p_regs : e .regs) (p_freeCtr : e .freeCtr) (p_evt : e .evt) (p_ldg : e .ldg) (p_pke : e .pke)
    (p_sec : e .sec) {x0i} (ht : execParseVerd x0i s = .next t) : Only e s.dev t.dev := by
  unfold execParseVerd at ht
  refine onDev_only ?_ ht
  generalize s.dev = a
  have h : Only e a a := Only.refl _
  refine parseStep_only p_regs p_freeCtr p_evt p_ldg p_pke p_sec ?_
  assumption

theorem execParseDispatch_only (p_regs : e .regs) (p_evt : e .evt) (p_ldg : e .ldg) (p_pke : e .pke) (p_sec : e .sec) {x0i}
    (ht : execParseDispatch x0i s = .next t) : Only e s.dev t.dev := by
  unfold execParseDispatch at ht
  refine onDev_only ?_ ht
  generalize s.dev = a
  have h : Only e a a := Only.refl _
  refine dispatch_only p_regs p_evt p_ldg p_pke p_sec ?_
  assumption

theorem execParseBr_only (p_regs : e .regs) (p_freeCtr : e .freeCtr) (p_evt : e .evt) (p_ldg : e .ldg) (p_pke : e .pke)
    (p_sec : e .sec) {x0i} (ht : execParseBr x0i s = .next t) : Only e s.dev t.dev := by
  unfold execParseBr at ht
  refine onDev_only ?_ ht
  generalize s.dev = a
  have h : Only e a a := Only.refl _
  refine parseStep_only p_regs p_freeCtr p_evt p_ldg p_pke p_sec ?_
  assumption

theorem execSwapTimeout_only (p_regs : e .regs) (p_out : e .out) (p_tim : e .tim) (p_hif : e .hif) (p_pke : e .pke) (p_sys :
    e .sys) (ht : execSwapTimeout s = .next t) : Only e s.dev t.dev := by
  unfold execSwapTimeout at ht
  refine onDev_only ?_ ht
  generalize s.dev = a
  have h : Only e a a := Only.refl _
  refine swapTimedOut_only p_regs p_out p_tim p_hif p_pke p_sys ?_
  assumption

theorem execKeyRetire_only (p_regs : e .regs) (p_out : e .out) (p_hif : e .hif) (p_evt : e .evt) (p_ldg : e .ldg) (p_obj : e
    .obj) (p_sec : e .sec) (p_sys : e .sys) {x0i x1i} (ht : execKeyRetire x0i x1i s = .next t) : Only e s.dev t.dev := by
  unfold execKeyRetire at ht
  refine onDev_only ?_ ht
  generalize s.dev = a
  have h : Only e a a := Only.refl _
  refine runCmd_only p_regs p_out p_hif p_sys ?_ ?_
  · intro z1
    refine keyRetireAct_only p_regs p_evt p_ldg p_obj p_sec ?_
    assumption
  · assumption

theorem execSelftestDone_only (p_regs : e .regs) {x0i x1i} (ht : execSelftestDone x0i x1i s = .next t) : Only e s.dev t.dev
    := by
  unfold execSelftestDone at ht
  refine onDev_only ?_ ht
  generalize s.dev = a
  have h : Only e a a := Only.refl _
  refine selftestDone_only p_regs ?_
  assumption

theorem execKekGenWrite_only (p_regs : e .regs) {x0i x1i} (ht : execKekGenWrite x0i x1i s = .next t) : Only e s.dev t.dev :=
    by
  unfold execKekGenWrite at ht
  refine onDev_only ?_ ht
  generalize s.dev = a
  have h : Only e a a := Only.refl _
  refine setF_only p_regs ?_
  assumption

theorem execKeyLoad_only (p_regs : e .regs) (p_out : e .out) (p_hif : e .hif) (p_evt : e .evt) (p_ldg : e .ldg) (p_obj : e
    .obj) (p_sec : e .sec) (p_sys : e .sys) {x0i x1i x2i} (ht : execKeyLoad x0i x1i x2i s = .next t) : Only e s.dev t.dev :=
    by
  unfold execKeyLoad at ht
  refine onDev_only ?_ ht
  generalize s.dev = a
  have h : Only e a a := Only.refl _
  refine runCmd_only p_regs p_out p_hif p_sys ?_ ?_
  · intro z1
    refine keyLoadAct_only p_regs p_out p_hif p_evt p_ldg p_obj p_sec ?_
    assumption
  · assumption

theorem execSecSelftest_only (p_regs : e .regs) {x0i} (ht : execSecSelftest x0i s = .next t) : Only e s.dev t.dev := by
  unfold execSecSelftest at ht
  refine onDev_only ?_ ht
  generalize s.dev = a
  have h : Only e a a := Only.refl _
  refine secSelftest_only p_regs ?_
  assumption

theorem execSrtpInbound_only (p_regs : e .regs) (p_out : e .out) (p_hif : e .hif) (p_evt : e .evt) (p_ldg : e .ldg) (p_obj :
    e .obj) (p_dlr : e .dlr) (p_cores : e .cores) (p_pke : e .pke) (p_sec : e .sec) (p_dma : e .dma) (p_fwd : e .fwd) (p_aud
    : e .aud) (p_vid : e .vid) (p_sys : e .sys) {x0i x1i} (ht : execSrtpInbound x0i x1i s = .next t) : Only e s.dev t.dev :=
    by
  unfold execSrtpInbound at ht
  refine onDev_only ?_ ht
  generalize s.dev = a
  have h : Only e a a := Only.refl _
  refine srtpInbound_only p_regs p_out p_hif p_evt p_ldg p_obj p_dlr p_cores p_pke p_sec p_dma p_fwd p_aud p_vid p_sys ?_
  assumption

theorem execLegCreate_only (p_regs : e .regs) (p_out : e .out) (p_hif : e .hif) (p_evt : e .evt) (p_ldg : e .ldg) (p_obj : e
    .obj) (p_pke : e .pke) (p_fwd : e .fwd) (p_sys : e .sys) {x0i x1i x2i} (ht : execLegCreate x0i x1i x2i s = .next t) :
    Only e s.dev t.dev := by
  unfold execLegCreate at ht
  refine onDev_only ?_ ht
  generalize s.dev = a
  have h : Only e a a := Only.refl _
  refine runCmd_only p_regs p_out p_hif p_sys ?_ ?_
  · intro z1
    refine legCreateAct_only p_regs p_evt p_ldg p_obj p_pke p_fwd ?_
    assumption
  · assumption

theorem execNack_only (p_regs : e .regs) (p_freeCtr : e .freeCtr) (p_out : e .out) (p_tim : e .tim) (p_hif : e .hif) (p_evt
    : e .evt) (p_ldg : e .ldg) (p_obj : e .obj) (p_pke : e .pke) (p_sec : e .sec) (p_brd : e .brd) (p_fwd : e .fwd) (p_sys :
    e .sys) (ht : execNack s = .next t) : Only e s.dev t.dev := by
  unfold execNack at ht
  refine onDev_only ?_ ht
  generalize s.dev = a
  have h : Only e a a := Only.refl _
  refine serveNack_only p_regs p_freeCtr p_out p_tim p_hif p_evt p_ldg p_obj p_pke p_sec p_brd p_fwd p_sys ?_
  assumption

theorem execRtcpReceive_only (p_regs : e .regs) (p_freeCtr : e .freeCtr) (p_out : e .out) (p_hif : e .hif) (p_evt : e .evt)
    (p_ldg : e .ldg) (p_pke : e .pke) (p_sec : e .sec) (p_fwd : e .fwd) (p_vid : e .vid) {x0i} (ht : execRtcpReceive x0i s =
    .next t) : Only e s.dev t.dev := by
  unfold execRtcpReceive at ht
  refine onDev_only ?_ ht
  generalize s.dev = a
  have h : Only e a a := Only.refl _
  refine rtcpReceive_only p_regs p_freeCtr p_out p_hif p_evt p_ldg p_pke p_sec p_fwd p_vid ?_
  assumption

theorem execForwardPacket_only (p_regs : e .regs) (p_freeCtr : e .freeCtr) (p_out : e .out) (p_tim : e .tim) (p_hif : e
    .hif) (p_evt : e .evt) (p_ldg : e .ldg) (p_obj : e .obj) (p_pke : e .pke) (p_sec : e .sec) (p_brd : e .brd) (p_hbm : e
    .hbm) (p_mem : e .mem) (p_fwd : e .fwd) (p_vid : e .vid) (p_sys : e .sys) (ht : execForwardPacket s = .next t) : Only e
    s.dev t.dev := by
  unfold execForwardPacket at ht
  refine onDev_only ?_ ht
  generalize s.dev = a
  have h : Only e a a := Only.refl _
  refine forwardPacket_only p_regs p_freeCtr p_out p_tim p_hif p_evt p_ldg p_obj p_pke p_sec p_brd p_hbm p_mem p_fwd p_vid
      p_sys ?_
  assumption

theorem execFanoutAdd_only (p_regs : e .regs) (p_out : e .out) (p_hif : e .hif) (p_sec : e .sec) (p_fwd : e .fwd) (p_vid : e
    .vid) (p_sys : e .sys) {x0i x1i} (ht : execFanoutAdd x0i x1i s = .next t) : Only e s.dev t.dev := by
  unfold execFanoutAdd at ht
  refine onDev_only ?_ ht
  generalize s.dev = a
  have h : Only e a a := Only.refl _
  refine runCmd_only p_regs p_out p_hif p_sys ?_ ?_
  · intro z1
    refine fanoutAddAct_only p_regs p_out p_hif p_sec p_fwd p_vid ?_
    assumption
  · assumption

theorem execSrtpOutbound_only (p_regs : e .regs) (p_freeCtr : e .freeCtr) (p_out : e .out) (p_tim : e .tim) (p_hif : e .hif)
    (p_evt : e .evt) (p_ldg : e .ldg) (p_pke : e .pke) (p_sec : e .sec) (p_brd : e .brd) (p_sys : e .sys) {x0i} (ht :
    execSrtpOutbound x0i s = .next t) : Only e s.dev t.dev := by
  unfold execSrtpOutbound at ht
  refine onDev_only ?_ ht
  generalize s.dev = a
  have h : Only e a a := Only.refl _
  refine srtpOutbound_only p_regs p_freeCtr p_out p_tim p_hif p_evt p_ldg p_pke p_sec p_brd p_sys ?_
  assumption

theorem execLegSet_only (p_regs : e .regs) (p_out : e .out) (p_hif : e .hif) (p_fwd : e .fwd) (p_sys : e .sys) {x0i x1i} (ht
    : execLegSet x0i x1i s = .next t) : Only e s.dev t.dev := by
  unfold execLegSet at ht
  refine onDev_only ?_ ht
  generalize s.dev = a
  have h : Only e a a := Only.refl _
  refine runCmd_only p_regs p_out p_hif p_sys ?_ ?_
  · intro z1
    refine legSetAct_only p_fwd ?_
    assumption
  · assumption

theorem execFanoutDel_only (p_regs : e .regs) (p_freeCtr : e .freeCtr) (p_out : e .out) (p_tim : e .tim) (p_hif : e .hif)
    (p_evt : e .evt) (p_ldg : e .ldg) (p_obj : e .obj) (p_pke : e .pke) (p_sec : e .sec) (p_brd : e .brd) (p_fwd : e .fwd)
    (p_sys : e .sys) {x0i x1i} (ht : execFanoutDel x0i x1i s = .next t) : Only e s.dev t.dev := by
  unfold execFanoutDel at ht
  refine onDev_only ?_ ht
  generalize s.dev = a
  have h : Only e a a := Only.refl _
  refine runCmd_only p_regs p_out p_hif p_sys ?_ ?_
  · intro z1
    refine fanoutDelAct_only p_regs p_freeCtr p_out p_tim p_hif p_evt p_ldg p_obj p_pke p_sec p_brd p_fwd p_sys ?_
    assumption
  · assumption

theorem execPicLimit_only (p_regs : e .regs) (p_out : e .out) (p_hif : e .hif) (p_evt : e .evt) (p_ldg : e .ldg) (p_dlr : e
    .dlr) (p_cores : e .cores) (p_pke : e .pke) (p_dma : e .dma) (p_fwd : e .fwd) (p_aud : e .aud) (p_vid : e .vid) (p_sys :
    e .sys) {x0i x1i x2i} (ht : execPicLimit x0i x1i x2i s = .next t) : Only e s.dev t.dev := by
  unfold execPicLimit at ht
  refine onDev_only ?_ ht
  generalize s.dev = a
  have h : Only e a a := Only.refl _
  refine picLimit_only p_regs p_out p_hif p_evt p_ldg p_dlr p_cores p_pke p_dma p_fwd p_aud p_vid p_sys ?_
  assumption

theorem execCtxCreate_only (p_regs : e .regs) (p_out : e .out) (p_hif : e .hif) (p_evt : e .evt) (p_ldg : e .ldg) (p_obj : e
    .obj) (p_mem : e .mem) (p_vid : e .vid) (p_sys : e .sys) {x0i x1i} (ht : execCtxCreate x0i x1i s = .next t) : Only e
    s.dev t.dev := by
  unfold execCtxCreate at ht
  refine onDev_only ?_ ht
  generalize s.dev = a
  have h : Only e a a := Only.refl _
  refine runCmd_only p_regs p_out p_hif p_sys ?_ ?_
  · intro z1
    refine ctxCreateAct_only p_regs p_evt p_ldg p_obj p_mem p_vid ?_
    assumption
  · assumption

theorem execRefreshIntervalEnd_only (p_regs : e .regs) (p_out : e .out) (p_hif : e .hif) (p_evt : e .evt) (p_sec : e .sec)
    (p_fwd : e .fwd) (p_vid : e .vid) {x0i} (ht : execRefreshIntervalEnd x0i s = .next t) : Only e s.dev t.dev := by
  unfold execRefreshIntervalEnd at ht
  refine onDev_only ?_ ht
  generalize s.dev = a
  have h : Only e a a := Only.refl _
  refine refreshIntervalEnd_only p_regs p_out p_hif p_evt p_sec p_fwd p_vid ?_
  assumption

theorem execParseCard_only (p_regs : e .regs) (p_evt : e .evt) (p_dlr : e .dlr) (p_vid : e .vid) {x0i x1i} (ht :
    execParseCard x0i x1i s = .next t) : Only e s.dev t.dev := by
  unfold execParseCard at ht
  refine onDev_only ?_ ht
  generalize s.dev = a
  have h : Only e a a := Only.refl _
  unfold pixelCard
  split
  · assumption
  · split
    · rename_i g1 g2
      rw [g2] at g1
      cases g1
    · rename_i g1 g2
      rw [g2] at g1
      cases g1
    · exact runParse_only p_regs p_evt p_dlr p_vid h
    · assumption

theorem execSegmentCard_only (p_regs : e .regs) (p_out : e .out) (p_hif : e .hif) (p_evt : e .evt) (p_dlr : e .dlr) (p_hbm :
    e .hbm) (p_mem : e .mem) (p_vid : e .vid) {x0i x1i} (ht : execSegmentCard x0i x1i s = .next t) : Only e s.dev t.dev :=
    by
  unfold execSegmentCard at ht
  refine onDev_only ?_ ht
  generalize s.dev = a
  have h : Only e a a := Only.refl _
  refine pixelCard_only p_regs p_out p_hif p_evt p_dlr p_hbm p_mem p_vid ?_
  assumption

theorem execRebuildCard_only (p_regs : e .regs) (p_out : e .out) (p_hif : e .hif) (p_evt : e .evt) (p_dlr : e .dlr) (p_hbm :
    e .hbm) (p_mem : e .mem) (p_vid : e .vid) {x0i x1i} (ht : execRebuildCard x0i x1i s = .next t) : Only e s.dev t.dev :=
    by
  unfold execRebuildCard at ht
  refine onDev_only ?_ ht
  generalize s.dev = a
  have h : Only e a a := Only.refl _
  refine pixelCard_only p_regs p_out p_hif p_evt p_dlr p_hbm p_mem p_vid ?_
  assumption

theorem execCtxRefresh_only (p_regs : e .regs) (p_out : e .out) (p_hif : e .hif) (p_evt : e .evt) (p_ldg : e .ldg) (p_dlr :
    e .dlr) (p_cores : e .cores) (p_pke : e .pke) (p_sec : e .sec) (p_dma : e .dma) (p_fwd : e .fwd) (p_aud : e .aud) (p_vid
    : e .vid) (p_sys : e .sys) {x0i x1i} (ht : execCtxRefresh x0i x1i s = .next t) : Only e s.dev t.dev := by
  unfold execCtxRefresh at ht
  refine onDev_only ?_ ht
  generalize s.dev = a
  have h : Only e a a := Only.refl _
  refine runCmd_only p_regs p_out p_hif p_sys ?_ ?_
  · intro z1
    refine ctxRefreshAct_only p_regs p_out p_hif p_evt p_ldg p_dlr p_cores p_pke p_sec p_dma p_fwd p_aud p_vid p_sys ?_
    assumption
  · assumption

theorem execConcealCard_only (p_regs : e .regs) (p_out : e .out) (p_hif : e .hif) (p_evt : e .evt) (p_dlr : e .dlr) (p_hbm :
    e .hbm) (p_mem : e .mem) (p_vid : e .vid) {x0i x1i} (ht : execConcealCard x0i x1i s = .next t) : Only e s.dev t.dev :=
    by
  unfold execConcealCard at ht
  refine onDev_only ?_ ht
  generalize s.dev = a
  have h : Only e a a := Only.refl _
  refine concealCard_only p_regs p_out p_hif p_evt p_dlr p_hbm p_mem p_vid ?_
  assumption

theorem execCtuLimit_only (p_regs : e .regs) (p_out : e .out) (p_hif : e .hif) (p_evt : e .evt) (p_dlr : e .dlr) (p_hbm : e
    .hbm) (p_mem : e .mem) (p_vid : e .vid) {x0i x1i x2i} (ht : execCtuLimit x0i x1i x2i s = .next t) : Only e s.dev t.dev
    := by
  unfold execCtuLimit at ht
  refine onDev_only ?_ ht
  generalize s.dev = a
  have h : Only e a a := Only.refl _
  refine ctuLimit_only p_regs p_out p_hif p_evt p_dlr p_hbm p_mem p_vid ?_
  assumption

theorem execFinishCard_only (p_regs : e .regs) (p_out : e .out) (p_hif : e .hif) (p_evt : e .evt) (p_ldg : e .ldg) (p_dlr :
    e .dlr) (p_cores : e .cores) (p_pke : e .pke) (p_sec : e .sec) (p_hbm : e .hbm) (p_mem : e .mem) (p_dma : e .dma) (p_fwd
    : e .fwd) (p_aud : e .aud) (p_vid : e .vid) (p_sys : e .sys) {x0i} (ht : execFinishCard x0i s = .next t) : Only e s.dev
    t.dev := by
  unfold execFinishCard at ht
  refine onDev_only ?_ ht
  generalize s.dev = a
  have h : Only e a a := Only.refl _
  refine finishCard_only p_regs p_out p_hif p_evt p_ldg p_dlr p_cores p_pke p_sec p_hbm p_mem p_dma p_fwd p_aud p_vid p_sys
      ?_
  assumption

theorem execPictureReady_only (p_regs : e .regs) (p_freeCtr : e .freeCtr) (p_out : e .out) (p_hif : e .hif) (p_evt : e .evt)
    (p_ldg : e .ldg) (p_dlr : e .dlr) (p_cores : e .cores) (p_pke : e .pke) (p_sec : e .sec) (p_dma : e .dma) (p_fwd : e
    .fwd) (p_aud : e .aud) (p_vid : e .vid) (p_sys : e .sys) {x0i x1i} (ht : execPictureReady x0i x1i s = .next t) : Only e
    s.dev t.dev := by
  unfold execPictureReady at ht
  refine onDev_only ?_ ht
  generalize s.dev = a
  have h : Only e a a := Only.refl _
  refine pictureReady_only p_regs p_freeCtr p_out p_hif p_evt p_ldg p_dlr p_cores p_pke p_sec p_dma p_fwd p_aud p_vid p_sys
      ?_
  assumption

theorem execComposeBand_only (p_regs : e .regs) (p_out : e .out) (p_hif : e .hif) (p_evt : e .evt) (p_ldg : e .ldg) (p_dlr :
    e .dlr) (p_cores : e .cores) (p_pke : e .pke) (p_hbm : e .hbm) (p_mem : e .mem) (p_dma : e .dma) (p_fwd : e .fwd) (p_aud
    : e .aud) (p_vid : e .vid) (p_sys : e .sys) {x0i x1i} (ht : execComposeBand x0i x1i s = .next t) : Only e s.dev t.dev :=
    by
  unfold execComposeBand at ht
  refine onDev_only ?_ ht
  generalize s.dev = a
  have h : Only e a a := Only.refl _
  refine composeBand_only p_regs p_out p_hif p_evt p_ldg p_dlr p_cores p_pke p_hbm p_mem p_dma p_fwd p_aud p_vid p_sys ?_
  assumption

theorem execLayoutCreate_only (p_regs : e .regs) (p_out : e .out) (p_hif : e .hif) (p_evt : e .evt) (p_ldg : e .ldg) (p_obj
    : e .obj) (p_mem : e .mem) (p_vid : e .vid) (p_sys : e .sys) {x0i x1i} (ht : execLayoutCreate x0i x1i s = .next t) :
    Only e s.dev t.dev := by
  unfold execLayoutCreate at ht
  refine onDev_only ?_ ht
  generalize s.dev = a
  have h : Only e a a := Only.refl _
  refine runCmd_only p_regs p_out p_hif p_sys ?_ ?_
  · intro z1
    refine layoutCreateAct_only p_regs p_evt p_ldg p_obj p_mem p_vid ?_
    assumption
  · assumption

theorem execLayoutShadow_only (p_regs : e .regs) (p_out : e .out) (p_hif : e .hif) (p_hbm : e .hbm) (p_mem : e .mem) (p_vid
    : e .vid) (p_sys : e .sys) {x0i x1i x2i} (ht : execLayoutShadow x0i x1i x2i s = .next t) : Only e s.dev t.dev :=
    by
  unfold execLayoutShadow at ht
  refine onDev_only ?_ ht
  generalize s.dev = a
  have h : Only e a a := Only.refl _
  refine runCmd_only p_regs p_out p_hif p_sys ?_ ?_
  · intro z1
    refine layoutShadowAct_only p_regs p_out p_hif p_hbm p_mem p_vid ?_
    assumption
  · assumption

theorem execLayoutCommit_only (p_regs : e .regs) (p_out : e .out) (p_hif : e .hif) (p_vid : e .vid) (p_sys : e .sys) {x0i
    x1i} (ht : execLayoutCommit x0i x1i s = .next t) : Only e s.dev t.dev := by
  unfold execLayoutCommit at ht
  refine onDev_only ?_ ht
  generalize s.dev = a
  have h : Only e a a := Only.refl _
  refine runCmd_only p_regs p_out p_hif p_sys ?_ ?_
  · intro z1
    refine layoutCommitAct_only p_vid ?_
    assumption
  · assumption

theorem execEncSet_only (p_regs : e .regs) (p_out : e .out) (p_hif : e .hif) (p_aud : e .aud) (p_vid : e .vid) (p_sys : e
    .sys) {x0i x1i} (ht : execEncSet x0i x1i s = .next t) : Only e s.dev t.dev := by
  unfold execEncSet at ht
  refine onDev_only ?_ ht
  generalize s.dev = a
  have h : Only e a a := Only.refl _
  refine runCmd_only p_regs p_out p_hif p_sys ?_ ?_
  · intro z1
    refine encSetAct_only p_aud p_vid ?_
    assumption
  · assumption

theorem execEncCreate_only (p_regs : e .regs) (p_out : e .out) (p_hif : e .hif) (p_evt : e .evt) (p_ldg : e .ldg) (p_obj : e
    .obj) (p_mem : e .mem) (p_aud : e .aud) (p_vid : e .vid) (p_sys : e .sys) {x0i x1i} (ht : execEncCreate x0i x1i s =
    .next t) : Only e s.dev t.dev := by
  unfold execEncCreate at ht
  refine onDev_only ?_ ht
  generalize s.dev = a
  have h : Only e a a := Only.refl _
  refine runCmd_only p_regs p_out p_hif p_sys ?_ ?_
  · intro z1
    refine encCreateAct_only p_regs p_evt p_ldg p_obj p_mem p_aud p_vid ?_
    assumption
  · assumption

theorem execCellWait_only (p_regs : e .regs) (p_evt : e .evt) {x0i x1i} (ht : execCellWait x0i x1i s = .next t) : Only e
    s.dev t.dev := by
  unfold execCellWait at ht
  refine onDev_only ?_ ht
  generalize s.dev = a
  have h : Only e a a := Only.refl _
  refine cellWait_only p_regs p_evt ?_
  assumption

theorem execEncodeBand_only (p_regs : e .regs) (p_out : e .out) (p_hif : e .hif) (p_evt : e .evt) (p_ldg : e .ldg) (p_dlr :
    e .dlr) (p_cores : e .cores) (p_pke : e .pke) (p_hbm : e .hbm) (p_mem : e .mem) (p_dma : e .dma) (p_fwd : e .fwd) (p_aud
    : e .aud) (p_vid : e .vid) (p_sys : e .sys) {x0i x1i} (ht : execEncodeBand x0i x1i s = .next t) : Only e s.dev t.dev :=
    by
  unfold execEncodeBand at ht
  refine onDev_only ?_ ht
  generalize s.dev = a
  have h : Only e a a := Only.refl _
  refine encodeBand_only p_regs p_out p_hif p_evt p_ldg p_dlr p_cores p_pke p_hbm p_mem p_dma p_fwd p_aud p_vid p_sys ?_
  assumption

theorem execFillPicture_only (p_regs : e .regs) (p_out : e .out) (p_hif : e .hif) (p_evt : e .evt) (p_ldg : e .ldg) (p_dlr :
    e .dlr) (p_cores : e .cores) (p_pke : e .pke) (p_dma : e .dma) (p_fwd : e .fwd) (p_aud : e .aud) (p_vid : e .vid) (p_sys
    : e .sys) {x0i} (ht : execFillPicture x0i s = .next t) : Only e s.dev t.dev := by
  unfold execFillPicture at ht
  refine onDev_only ?_ ht
  generalize s.dev = a
  have h : Only e a a := Only.refl _
  refine fillPicture_only p_regs p_out p_hif p_evt p_ldg p_dlr p_cores p_pke p_dma p_fwd p_aud p_vid p_sys ?_
  assumption

theorem execDebounceEnd_only (p_regs : e .regs) (p_out : e .out) (p_hif : e .hif) (p_aud : e .aud) (ht : execDebounceEnd s =
    .next t) : Only e s.dev t.dev := by
  unfold execDebounceEnd at ht
  refine onDev_only ?_ ht
  generalize s.dev = a
  have h : Only e a a := Only.refl _
  refine debounceEnd_only p_regs p_out p_hif p_aud ?_
  assumption

theorem execButtonPress_only (p_regs : e .regs) (p_out : e .out) (p_hif : e .hif) (p_aud : e .aud) (ht : execButtonPress s =
    .next t) : Only e s.dev t.dev := by
  unfold execButtonPress at ht
  refine onDev_only ?_ ht
  generalize s.dev = a
  have h : Only e a a := Only.refl _
  refine buttonPress_only p_regs p_out p_hif p_aud ?_
  assumption

theorem execOutputShort_only (p_regs : e .regs) (p_out : e .out) (p_hif : e .hif) (p_aud : e .aud) {x0i} (ht :
    execOutputShort x0i s = .next t) : Only e s.dev t.dev := by
  unfold execOutputShort at ht
  refine onDev_only ?_ ht
  generalize s.dev = a
  have h : Only e a a := Only.refl _
  refine outputShort_only p_regs p_out p_hif p_aud ?_
  assumption

theorem execBiasShort_only (p_regs : e .regs) (p_out : e .out) (p_hif : e .hif) (p_aud : e .aud) (ht : execBiasShort s =
    .next t) : Only e s.dev t.dev := by
  unfold execBiasShort at ht
  refine onDev_only ?_ ht
  generalize s.dev = a
  have h : Only e a a := Only.refl _
  refine biasShort_only p_regs p_out p_hif p_aud ?_
  assumption

theorem execButtonRelease_only (p_regs : e .regs) (p_out : e .out) (p_hif : e .hif) (p_aud : e .aud) (ht : execButtonRelease
    s = .next t) : Only e s.dev t.dev := by
  unfold execButtonRelease at ht
  refine onDev_only ?_ ht
  generalize s.dev = a
  have h : Only e a a := Only.refl _
  refine buttonRelease_only p_regs p_out p_hif p_aud ?_
  assumption

theorem execFaultRetry_only (p_aud : e .aud) {x0i x1i} (ht : execFaultRetry x0i x1i s = .next t) : Only e s.dev t.dev := by
  unfold execFaultRetry at ht
  refine onDev_only ?_ ht
  generalize s.dev = a
  have h : Only e a a := Only.refl _
  refine faultRetry_only p_aud ?_
  assumption

theorem execFaultClear_only (p_regs : e .regs) (p_out : e .out) (p_hif : e .hif) (p_aud : e .aud) (ht : execFaultClear s =
    .next t) : Only e s.dev t.dev := by
  unfold execFaultClear at ht
  refine onDev_only ?_ ht
  generalize s.dev = a
  have h : Only e a a := Only.refl _
  refine faultClear_only p_regs p_out p_hif p_aud ?_
  assumption

theorem execMicOpen_only (p_regs : e .regs) (p_out : e .out) (p_hif : e .hif) (p_aud : e .aud) (ht : execMicOpen s = .next
    t) : Only e s.dev t.dev := by
  unfold execMicOpen at ht
  refine onDev_only ?_ ht
  generalize s.dev = a
  have h : Only e a a := Only.refl _
  refine micOpen_only p_regs p_out p_hif p_aud ?_
  assumption

theorem execDetectionDone_only (p_regs : e .regs) (p_out : e .out) (p_hif : e .hif) (p_aud : e .aud) {x0i} (ht :
    execDetectionDone x0i s = .next t) : Only e s.dev t.dev := by
  unfold execDetectionDone at ht
  refine onDev_only ?_ ht
  generalize s.dev = a
  have h : Only e a a := Only.refl _
  refine detectionDone_only p_regs p_out p_hif p_aud ?_
  assumption

theorem execButtonLong_only (p_regs : e .regs) (p_out : e .out) (p_hif : e .hif) (p_aud : e .aud) (ht : execButtonLong s =
    .next t) : Only e s.dev t.dev := by
  unfold execButtonLong at ht
  refine onDev_only ?_ ht
  generalize s.dev = a
  have h : Only e a a := Only.refl _
  refine buttonLong_only p_regs p_out p_hif p_aud ?_
  assumption

theorem execJackRemove_only (p_regs : e .regs) (p_out : e .out) (p_hif : e .hif) (p_aud : e .aud) (ht : execJackRemove s =
    .next t) : Only e s.dev t.dev := by
  unfold execJackRemove at ht
  refine onDev_only ?_ ht
  generalize s.dev = a
  have h : Only e a a := Only.refl _
  refine jackRemove_only p_regs p_out p_hif p_aud ?_
  assumption

theorem execCraftSet_only (p_regs : e .regs) (p_out : e .out) (p_hif : e .hif) (p_aud : e .aud) (p_sys : e .sys) {x0i x1i}
    (ht : execCraftSet x0i x1i s = .next t) : Only e s.dev t.dev := by
  unfold execCraftSet at ht
  refine onDev_only ?_ ht
  generalize s.dev = a
  have h : Only e a a := Only.refl _
  refine runCmd_only p_regs p_out p_hif p_sys ?_ ?_
  · intro z1
    refine craftSetAct_only p_aud ?_
    assumption
  · assumption

theorem execJackInsert_only (p_aud : e .aud) (ht : execJackInsert s = .next t) : Only e s.dev t.dev := by
  unfold execJackInsert at ht
  refine onDev_only ?_ ht
  generalize s.dev = a
  have h : Only e a a := Only.refl _
  refine jackInsert_only p_aud ?_
  assumption

theorem execSessionClose_only (p_regs : e .regs) (p_freeCtr : e .freeCtr) (p_out : e .out) (p_tim : e .tim) (p_hif : e .hif)
    (p_evt : e .evt) (p_ldg : e .ldg) (p_obj : e .obj) (p_dlr : e .dlr) (p_cores : e .cores) (p_pke : e .pke) (p_sec : e
    .sec) (p_brd : e .brd) (p_dma : e .dma) (p_fwd : e .fwd) (p_aud : e .aud) (p_vid : e .vid) (p_sys : e .sys) {x0i x1i}
    (ht : execSessionClose x0i x1i s = .next t) : Only e s.dev t.dev := by
  unfold execSessionClose at ht
  refine onDev_only ?_ ht
  generalize s.dev = a
  have h : Only e a a := Only.refl _
  refine runCmd_only p_regs p_out p_hif p_sys ?_ ?_
  · intro z1
    refine sessionCloseAct_only p_regs p_freeCtr p_out p_tim p_hif p_evt p_ldg p_obj p_dlr p_cores p_pke p_sec p_brd p_dma
        p_fwd p_aud p_vid p_sys ?_
    assumption
  · assumption

end Sys2Proof.Machine
end

