-- ==== Sys2Proof/Laws/FrameExec2.lean ====
section
/-! SUPPORT. What each command of the second half of the table may write. -/
namespace Sys2Proof.Machine
variable {e : Piece → Prop} {s t : State}

theorem execObjRelease_only (p_regs : e .regs) (p_freeCtr : e .freeCtr) (p_out : e .out) (p_tim : e .tim) (p_hif : e .hif)
    (p_evt : e .evt) (p_ldg : e .ldg) (p_obj : e .obj) (p_dlr : e .dlr) (p_cores : e .cores) (p_pke : e .pke) (p_sec : e
    .sec) (p_brd : e .brd) (p_dma : e .dma) (p_fwd : e .fwd) (p_aud : e .aud) (p_vid : e .vid) (p_sys : e .sys) {x0i x1i}
    (ht : execObjRelease x0i x1i s = .next t) : Only e s.dev t.dev := by
  unfold execObjRelease at ht
  refine onDev_only ?_ ht
  generalize s.dev = a
  have h : Only e a a := Only.refl _
  refine runCmd_only p_regs p_out p_hif p_sys ?_ ?_
  · intro z1
    refine objReleaseAct_only p_regs p_freeCtr p_out p_tim p_hif p_evt p_ldg p_obj p_dlr p_cores p_pke p_sec p_brd p_dma
        p_fwd p_aud p_vid p_sys ?_
    assumption
  · assumption

theorem execNop_only (p_regs : e .regs) (p_out : e .out) (p_hif : e .hif) (p_sys : e .sys) {x0i x1i} (ht : execNop x0i x1i s
    = .next t) : Only e s.dev t.dev := by
  unfold execNop at ht
  refine onDev_only ?_ ht
  generalize s.dev = a
  have h : Only e a a := Only.refl _
  refine runCmd_only p_regs p_out p_hif p_sys ?_ ?_
  · intro z1
    refine nopAct_only ?_
    assumption
  · assumption

theorem execSessionOpen_only (p_regs : e .regs) (p_out : e .out) (p_hif : e .hif) (p_evt : e .evt) (p_ldg : e .ldg) (p_obj :
    e .obj) (p_sys : e .sys) {x0i x1i} (ht : execSessionOpen x0i x1i s = .next t) : Only e s.dev t.dev := by
  unfold execSessionOpen at ht
  refine onDev_only ?_ ht
  generalize s.dev = a
  have h : Only e a a := Only.refl _
  refine runCmd_only p_regs p_out p_hif p_sys ?_ ?_
  · intro z1
    refine sessionOpenAct_only p_regs p_evt p_ldg p_obj ?_
    assumption
  · assumption

theorem execObjQuery_only (p_regs : e .regs) (p_freeCtr : e .freeCtr) (p_out : e .out) (p_hif : e .hif) (p_sys : e .sys)
    {x0i x1i} (ht : execObjQuery x0i x1i s = .next t) : Only e s.dev t.dev := by
  unfold execObjQuery at ht
  refine onDev_only ?_ ht
  generalize s.dev = a
  have h : Only e a a := Only.refl _
  refine runCmd_only p_regs p_out p_hif p_sys ?_ ?_
  · intro z1
    refine objQueryAct_only p_freeCtr ?_
    assumption
  · assumption

theorem execSessionCloseDone_only (p_regs : e .regs) (p_out : e .out) (p_hif : e .hif) (p_evt : e .evt) (p_ldg : e .ldg)
    (p_obj : e .obj) (p_sys : e .sys) {x0i} (ht : execSessionCloseDone x0i s = .next t) : Only e s.dev t.dev := by
  unfold execSessionCloseDone at ht
  refine onDev_only ?_ ht
  generalize s.dev = a
  have h : Only e a a := Only.refl _
  refine sessionCloseDone_only p_regs p_out p_hif p_evt p_ldg p_obj p_sys ?_
  assumption

theorem execWarmReset_only (p_regs : e .regs) (p_regsB : e .regsB) (p_latch : e .latch) (p_freeCtr : e .freeCtr) (p_out : e
    .out) (p_stride : e .stride) (p_tim : e .tim) (p_hif : e .hif) (p_evt : e .evt) (p_ldg : e .ldg) (p_obj : e .obj) (p_dlr
    : e .dlr) (p_cores : e .cores) (p_mac : e .mac) (p_pke : e .pke) (p_sec : e .sec) (p_brd : e .brd) (p_hbm : e .hbm)
    (p_pad : e .pad) (p_local_ : e .local_) (p_mem : e .mem) (p_dma : e .dma) (p_fwd : e .fwd) (p_aud : e .aud) (p_vid : e
    .vid) (p_tack : e .tack) (p_mode : e .mode) (p_sys : e .sys) (p_rst : e .rst) {x0i} (ht : execWarmReset x0i s = .next t)
    : Only e s.dev t.dev := by
  unfold execWarmReset at ht
  refine onDev_only ?_ ht
  generalize s.dev = a
  have h : Only e a a := Only.refl _
  refine warmReset_only p_regs p_regsB p_latch p_freeCtr p_out p_stride p_tim p_hif p_evt p_ldg p_obj p_dlr p_cores p_mac
      p_pke p_sec p_brd p_hbm p_pad p_local_ p_mem p_dma p_fwd p_aud p_vid p_tack p_mode p_sys p_rst ?_
  assumption

theorem execFuseProg_only (p_regs : e .regs) (p_sys : e .sys) {x0i x1i} (ht : execFuseProg x0i x1i s = .next t) : Only e
    s.dev t.dev := by
  unfold execFuseProg at ht
  refine onDev_only ?_ ht
  generalize s.dev = a
  have h : Only e a a := Only.refl _
  refine writeFusCtrl_only p_regs p_sys ?_
  assumption

theorem execPowerOnReset_only (p_regs : e .regs) (p_regsB : e .regsB) (p_latch : e .latch) (p_freeCtr : e .freeCtr) (p_out :
    e .out) (p_stride : e .stride) (p_tim : e .tim) (p_hif : e .hif) (p_evt : e .evt) (p_ldg : e .ldg) (p_obj : e .obj)
    (p_dlr : e .dlr) (p_cores : e .cores) (p_mac : e .mac) (p_pke : e .pke) (p_sec : e .sec) (p_brd : e .brd) (p_hbm : e
    .hbm) (p_pad : e .pad) (p_local_ : e .local_) (p_mem : e .mem) (p_dma : e .dma) (p_fwd : e .fwd) (p_aud : e .aud) (p_vid
    : e .vid) (p_tack : e .tack) (p_mode : e .mode) (p_sys : e .sys) (p_rst : e .rst) {x0i} (ht : execPowerOnReset x0i s =
    .next t) : Only e s.dev t.dev := by
  unfold execPowerOnReset at ht
  refine onDev_only ?_ ht
  generalize s.dev = a
  have h : Only e a a := Only.refl _
  refine powerOn_only p_regs p_regsB p_latch p_freeCtr p_out p_stride p_tim p_hif p_evt p_ldg p_obj p_dlr p_cores p_mac
      p_pke p_sec p_brd p_hbm p_pad p_local_ p_mem p_dma p_fwd p_aud p_vid p_tack p_mode p_sys p_rst ?_
  assumption

theorem execSysResetWarm_only (p_regs : e .regs) (p_regsB : e .regsB) (p_latch : e .latch) (p_freeCtr : e .freeCtr) (p_out :
    e .out) (p_stride : e .stride) (p_tim : e .tim) (p_hif : e .hif) (p_evt : e .evt) (p_ldg : e .ldg) (p_obj : e .obj)
    (p_dlr : e .dlr) (p_cores : e .cores) (p_mac : e .mac) (p_pke : e .pke) (p_sec : e .sec) (p_brd : e .brd) (p_hbm : e
    .hbm) (p_pad : e .pad) (p_local_ : e .local_) (p_mem : e .mem) (p_dma : e .dma) (p_fwd : e .fwd) (p_aud : e .aud) (p_vid
    : e .vid) (p_tack : e .tack) (p_mode : e .mode) (p_sys : e .sys) (p_rst : e .rst) {x0i x1i} (ht : execSysResetWarm x0i
    x1i s = .next t) : Only e s.dev t.dev := by
  unfold execSysResetWarm at ht
  refine onDev_only ?_ ht
  generalize s.dev = a
  have h : Only e a a := Only.refl _
  refine writeReset_only p_regs p_regsB p_latch p_freeCtr p_out p_stride p_tim p_hif p_evt p_ldg p_obj p_dlr p_cores p_mac
      p_pke p_sec p_brd p_hbm p_pad p_local_ p_mem p_dma p_fwd p_aud p_vid p_tack p_mode p_sys p_rst ?_
  assumption

theorem execThermAlert_only (p_out : e .out) (p_sys : e .sys) {x0i} (ht : execThermAlert x0i s = .next t) : Only e s.dev
    t.dev := by
  unfold execThermAlert at ht
  refine onDev_only ?_ ht
  generalize s.dev = a
  have h : Only e a a := Only.refl _
  refine thermAlert_only p_out p_sys ?_
  assumption

theorem execBootGo_only (p_regs : e .regs) (p_out : e .out) (p_hif : e .hif) (p_evt : e .evt) (p_ldg : e .ldg) (p_pke : e
    .pke) (p_hbm : e .hbm) (p_mem : e .mem) (p_mode : e .mode) (p_sys : e .sys) {x0i} (ht : execBootGo x0i s = .next t) :
    Only e s.dev t.dev := by
  unfold execBootGo at ht
  refine onDev_only ?_ ht
  generalize s.dev = a
  have h : Only e a a := Only.refl _
  refine writeBootCtrl_only p_regs p_out p_hif p_evt p_ldg p_pke p_hbm p_mem p_mode p_sys ?_
  assumption

theorem execFlashBoot_only (p_regs : e .regs) (p_freeCtr : e .freeCtr) (p_sys : e .sys) {x0i x1i} (ht : execFlashBoot x0i
    x1i s = .next t) : Only e s.dev t.dev := by
  unfold execFlashBoot at ht
  refine onDev_only ?_ ht
  generalize s.dev = a
  have h : Only e a a := Only.refl _
  refine flashBoot_only p_regs p_freeCtr p_sys ?_
  assumption

theorem execHostGo_only (p_regs : e .regs) (p_freeCtr : e .freeCtr) (p_out : e .out) (p_hif : e .hif) (p_evt : e .evt)
    (p_ldg : e .ldg) (p_pke : e .pke) (p_hbm : e .hbm) (p_mem : e .mem) (p_mode : e .mode) (p_sys : e .sys) {x0i x1i} (ht :
    execHostGo x0i x1i s = .next t) : Only e s.dev t.dev := by
  unfold execHostGo at ht
  refine onDev_only ?_ ht
  generalize s.dev = a
  have h : Only e a a := Only.refl _
  refine hostLoad_only p_regs p_freeCtr p_sys ?_
  refine writeBootCtrl_only p_regs p_out p_hif p_evt p_ldg p_pke p_hbm p_mem p_mode p_sys ?_
  assumption

theorem execFuseLock_only (p_regs : e .regs) (p_freeCtr : e .freeCtr) (p_sys : e .sys) {x0i} (ht : execFuseLock x0i s =
    .next t) : Only e s.dev t.dev := by
  unfold execFuseLock at ht
  refine onDev_only ?_ ht
  generalize s.dev = a
  have h : Only e a a := Only.refl _
  refine writeFusFree_only p_regs p_freeCtr p_sys ?_
  assumption

theorem execSmbusReadByte_only (p_out : e .out) {x0i x1i} (ht : execSmbusReadByte x0i x1i s = .next t) : Only e s.dev t.dev
    := by
  unfold execSmbusReadByte at ht
  refine onDev_only ?_ ht
  generalize s.dev = a
  have h : Only e a a := Only.refl _
  refine smbusRead_only p_out ?_
  assumption

theorem execHbmRefresh_only (p_mem : e .mem) {x0i x1i x2i} (ht : execHbmRefresh x0i x1i x2i s = .next t) : Only e s.dev
    t.dev := by
  unfold execHbmRefresh at ht
  refine onDev_only ?_ ht
  generalize s.dev = a
  have h : Only e a a := Only.refl _
  split
  · assumption
  · extract_lets +onlyGivenNames x1
    refine putPc_only p_mem ?_
    assumption

theorem execHbmCommandSlot_only (p_regs : e .regs) (p_out : e .out) (p_hif : e .hif) (p_evt : e .evt) (p_hbm : e .hbm)
    (p_mem : e .mem) (p_sys : e .sys) {x0i x1i x2i x3i} (ht : execHbmCommandSlot x0i x1i x2i x3i s = .next t) : Only e s.dev
    t.dev := by
  unfold execHbmCommandSlot at ht
  refine onDev_only ?_ ht
  generalize s.dev = a
  have h : Only e a a := Only.refl _
  refine commandSlot_only p_regs p_out p_hif p_evt p_hbm p_mem p_sys ?_
  assumption

theorem execScrub_only (p_regs : e .regs) (p_out : e .out) (p_hif : e .hif) (p_evt : e .evt) (p_mem : e .mem) (p_sys : e
    .sys) {x0i x1i} (ht : execScrub x0i x1i s = .next t) : Only e s.dev t.dev := by
  unfold execScrub at ht
  refine onDev_only ?_ ht
  generalize s.dev = a
  have h : Only e a a := Only.refl _
  refine scrub_only p_regs p_out p_hif p_evt p_mem p_sys ?_
  assumption

theorem execCeThresh_only (p_regs : e .regs) (p_out : e .out) (p_hif : e .hif) (p_mem : e .mem) {x0i x1i} (ht : execCeThresh
    x0i x1i s = .next t) : Only e s.dev t.dev := by
  unfold execCeThresh at ht
  refine onDev_only ?_ ht
  generalize s.dev = a
  have h : Only e a a := Only.refl _
  refine ceThresh_only p_regs p_out p_hif p_mem ?_
  assumption

theorem execDriftTracking_only (p_regs : e .regs) (p_out : e .out) (p_hif : e .hif) (p_evt : e .evt) (p_ldg : e .ldg) (p_mac
    : e .mac) (p_mem : e .mem) (p_fwd : e .fwd) (p_mode : e .mode) (p_sys : e .sys) {x0i x1i} (ht : execDriftTracking x0i
    x1i s = .next t) : Only e s.dev t.dev := by
  unfold execDriftTracking at ht
  refine onDev_only ?_ ht
  generalize s.dev = a
  have h : Only e a a := Only.refl _
  refine progressChanges_only p_regs p_out p_hif p_evt p_ldg p_mac p_mem p_fwd p_mode p_sys ?_
  refine Only.memUpd p_mem ?_ _ rfl rfl rfl
  assumption

theorem execRetrainStep_only (p_regs : e .regs) (p_out : e .out) (p_hif : e .hif) (p_mem : e .mem) {x0i x1i} (ht :
    execRetrainStep x0i x1i s = .next t) : Only e s.dev t.dev := by
  unfold execRetrainStep at ht
  refine onDev_only ?_ ht
  generalize s.dev = a
  have h : Only e a a := Only.refl _
  refine retrainStep_only p_regs p_out p_hif p_mem ?_
  assumption

theorem execDoorbellFetch_only (p_regs : e .regs) (p_out : e .out) (p_hif : e .hif) {x0i x1i} (ht : execDoorbellFetch x0i
    x1i s = .next t) : Only e s.dev t.dev := by
  unfold execDoorbellFetch at ht
  refine onDev_only ?_ ht
  generalize s.dev = a
  have h : Only e a a := Only.refl _
  refine fetchPage_only p_regs p_out p_hif ?_
  assumption

theorem execFeatureLock_only (p_regs : e .regs) {x0i x1i} (ht : execFeatureLock x0i x1i s = .next t) : Only e s.dev t.dev :=
    by
  unfold execFeatureLock at ht
  refine onDev_only ?_ ht
  generalize s.dev = a
  have h : Only e a a := Only.refl _
  refine writeLock_only p_regs ?_
  assumption

theorem execFeatureWrite_only (p_regs : e .regs) {x0i x1i x2i} (ht : execFeatureWrite x0i x1i x2i s = .next t) : Only e
    s.dev t.dev := by
  unfold execFeatureWrite at ht
  refine onDev_only ?_ ht
  generalize s.dev = a
  have h : Only e a a := Only.refl _
  refine writeFeature_only p_regs ?_
  assumption

theorem execRingDisable_only (p_regs : e .regs) (p_hif : e .hif) {x0i x1i x2i} (ht : execRingDisable x0i x1i x2i s = .next
    t) : Only e s.dev t.dev := by
  unfold execRingDisable at ht
  refine onDev_only ?_ ht
  generalize s.dev = a
  have h : Only e a a := Only.refl _
  refine writeRingCfg_only p_regs p_hif ?_
  assumption

theorem execRingEnable_only (p_regs : e .regs) (p_hif : e .hif) {x0i x1i x2i} (ht : execRingEnable x0i x1i x2i s = .next t)
    : Only e s.dev t.dev := by
  unfold execRingEnable at ht
  refine onDev_only ?_ ht
  generalize s.dev = a
  have h : Only e a a := Only.refl _
  refine writeRingCfg_only p_regs p_hif ?_
  assumption

theorem execRingIdle_only (p_regs : e .regs) {x0i x1i} (ht : execRingIdle x0i x1i s = .next t) : Only e s.dev t.dev := by
  unfold execRingIdle at ht
  refine onDev_only ?_ ht
  generalize s.dev = a
  have h : Only e a a := Only.refl _
  refine idleRing_only p_regs ?_
  assumption

theorem execHifNudge_only (p_hif : e .hif) {x0i x1i} (ht : execHifNudge x0i x1i s = .next t) : Only e s.dev t.dev := by
  unfold execHifNudge at ht
  refine onDev_only ?_ ht
  generalize s.dev = a
  have h : Only e a a := Only.refl _
  refine nudge_only p_hif ?_
  assumption

theorem execDescriptorAccept_only (p_regs : e .regs) (p_out : e .out) (p_hif : e .hif) (p_sys : e .sys) (ht :
    execDescriptorAccept s = .next t) : Only e s.dev t.dev := by
  unfold execDescriptorAccept at ht
  refine onDev_only ?_ ht
  generalize s.dev = a
  have h : Only e a a := Only.refl _
  refine acceptOne_only p_regs p_out p_hif p_sys ?_
  assumption

theorem execLinkChange_only (p_regs : e .regs) (p_out : e .out) (p_hif : e .hif) {x0i x1i} (ht : execLinkChange x0i x1i s =
    .next t) : Only e s.dev t.dev := by
  unfold execLinkChange at ht
  refine onDev_only ?_ ht
  generalize s.dev = a
  have h : Only e a a := Only.refl _
  refine linkChange_only p_regs p_out p_hif ?_
  assumption

theorem execSelection_only (p_regs : e .regs) (p_freeCtr : e .freeCtr) (p_out : e .out) (p_tim : e .tim) (p_hif : e .hif)
    (p_evt : e .evt) (p_ldg : e .ldg) (p_mac : e .mac) (p_pke : e .pke) (p_brd : e .brd) (p_sys : e .sys) {x0i x1i} (ht :
    execSelection x0i x1i s = .next t) : Only e s.dev t.dev := by
  unfold execSelection at ht
  refine onDev_only ?_ ht
  generalize s.dev = a
  have h : Only e a a := Only.refl _
  refine selection_only p_regs p_freeCtr p_out p_tim p_hif p_evt p_ldg p_mac p_pke p_brd p_sys ?_
  assumption

theorem execWatermarkClear_only (p_regs : e .regs) {x0i x1i} (ht : execWatermarkClear x0i x1i s = .next t) : Only e s.dev
    t.dev := by
  unfold execWatermarkClear at ht
  refine onDev_only ?_ ht
  generalize s.dev = a
  have h : Only e a a := Only.refl _
  refine watermarkClear_only p_regs ?_
  assumption

theorem execShaperTick_only (p_regs : e .regs) (p_tim : e .tim) (p_brd : e .brd) {x0i x1i} (ht : execShaperTick x0i x1i s =
    .next t) : Only e s.dev t.dev := by
  unfold execShaperTick at ht
  refine onDev_only ?_ ht
  generalize s.dev = a
  have h : Only e a a := Only.refl _
  refine shaperTick_only p_regs p_tim p_brd ?_
  assumption

theorem execGateEntry_only (p_tim : e .tim) (p_brd : e .brd) {x0i x1i} (ht : execGateEntry x0i x1i s = .next t) : Only e
    s.dev t.dev := by
  unfold execGateEntry at ht
  refine onDev_only ?_ ht
  generalize s.dev = a
  have h : Only e a a := Only.refl _
  refine gateEntry_only p_tim p_brd ?_
  assumption

theorem execPostWheelTick_only (p_regs : e .regs) (p_out : e .out) (p_tim : e .tim) (p_hif : e .hif) (p_evt : e .evt) (p_ldg
    : e .ldg) (p_pke : e .pke) (p_brd : e .brd) (p_sys : e .sys) {x0i x1i} (ht : execPostWheelTick x0i x1i s = .next t) :
    Only e s.dev t.dev := by
  unfold execPostWheelTick at ht
  refine onDev_only ?_ ht
  generalize s.dev = a
  have h : Only e a a := Only.refl _
  refine wheelTick_only p_regs p_out p_tim p_hif p_evt p_ldg p_pke p_brd p_sys ?_
  assumption

theorem execGclTakeover_only (p_regs : e .regs) (p_tim : e .tim) (p_evt : e .evt) (p_brd : e .brd) {x0i x1i} (ht :
    execGclTakeover x0i x1i s = .next t) : Only e s.dev t.dev := by
  unfold execGclTakeover at ht
  refine onDev_only ?_ ht
  generalize s.dev = a
  have h : Only e a a := Only.refl _
  refine gclTakeover_only p_regs p_tim p_evt p_brd ?_
  assumption

theorem execShaperWrite_only (p_regs : e .regs) (p_brd : e .brd) {x0i x1i} (ht : execShaperWrite x0i x1i s = .next t) : Only
    e s.dev t.dev := by
  unfold execShaperWrite at ht
  refine onDev_only ?_ ht
  generalize s.dev = a
  have h : Only e a a := Only.refl _
  refine writeShaper_only p_regs p_brd ?_
  assumption

theorem execGclArm_only (p_regs : e .regs) (p_freeCtr : e .freeCtr) (p_tim : e .tim) (p_evt : e .evt) (p_brd : e .brd) {x0i
    x1i x2i} (ht : execGclArm x0i x1i x2i s = .next t) : Only e s.dev t.dev := by
  unfold execGclArm at ht
  refine onDev_only ?_ ht
  generalize s.dev = a
  have h : Only e a a := Only.refl _
  split
  · refine writeGclCtrl_only p_regs p_freeCtr p_tim p_evt p_brd ?_
    refine advance_only p_tim ?_
    assumption
  · assumption

theorem execFatalLatchClear_only (p_regs : e .regs) {x0i} (ht : execFatalLatchClear x0i s = .next t) : Only e s.dev t.dev :=
    by
  unfold execFatalLatchClear at ht
  refine onDev_only ?_ ht
  generalize s.dev = a
  have h : Only e a a := Only.refl _
  refine clearFatal_only p_regs ?_
  assumption

theorem execDumpRead_only (p_regs : e .regs) (p_out : e .out) {x0i} (ht : execDumpRead x0i s = .next t) : Only e s.dev t.dev := by
  unfold execDumpRead at ht
  refine onDev_only ?_ ht
  generalize s.dev = a
  have h : Only e a a := Only.refl _
  refine emitOut_only p_out ?_
  refine dumpRead_only p_regs ?_
  assumption

theorem execDiag_only (p_regs : e .regs) (p_out : e .out) (p_hif : e .hif) (p_sys : e .sys) {x0i x1i} (ht : execDiag x0i x1i
    s = .next t) : Only e s.dev t.dev := by
  unfold execDiag at ht
  refine onDev_only ?_ ht
  generalize s.dev = a
  have h : Only e a a := Only.refl _
  refine runCmd_only p_regs p_out p_hif p_sys ?_ ?_
  · intro z1
    refine diagAct_only p_regs p_out p_hif ?_
    assumption
  · assumption

theorem execLedgerAuditDone_only (p_regs : e .regs) (p_out : e .out) (p_hif : e .hif) (p_evt : e .evt) (p_ldg : e .ldg)
    (p_dlr : e .dlr) (p_cores : e .cores) (p_mac : e .mac) (p_pke : e .pke) (p_mem : e .mem) (p_dma : e .dma) (p_fwd : e
    .fwd) (p_aud : e .aud) (p_vid : e .vid) (p_mode : e .mode) (p_sys : e .sys) {x0i} (ht : execLedgerAuditDone x0i s =
    .next t) : Only e s.dev t.dev := by
  unfold execLedgerAuditDone at ht
  refine onDev_only ?_ ht
  generalize s.dev = a
  have h : Only e a a := Only.refl _
  refine auditDone_only p_regs p_out p_hif p_evt p_ldg p_dlr p_cores p_mac p_pke p_mem p_dma p_fwd p_aud p_vid p_mode p_sys
      ?_
  assumption

theorem execStepForce_only (p_regs : e .regs) (p_regsB : e .regsB) (p_freeCtr : e .freeCtr) (p_out : e .out) (p_stride : e
    .stride) (p_tim : e .tim) (p_hif : e .hif) (p_evt : e .evt) (p_ldg : e .ldg) (p_obj : e .obj) (p_dlr : e .dlr) (p_cores
    : e .cores) (p_mac : e .mac) (p_pke : e .pke) (p_sec : e .sec) (p_brd : e .brd) (p_hbm : e .hbm) (p_mem : e .mem) (p_dma
    : e .dma) (p_fwd : e .fwd) (p_aud : e .aud) (p_vid : e .vid) (p_mode : e .mode) (p_sys : e .sys) {x0i x1i} (ht :
    execStepForce x0i x1i s = .next t) : Only e s.dev t.dev := by
  unfold execStepForce at ht
  refine onDev_only ?_ ht
  generalize s.dev = a
  have h : Only e a a := Only.refl _
  refine landStep_only p_regs p_regsB p_freeCtr p_out p_stride p_tim p_hif p_evt p_ldg p_obj p_dlr p_cores p_mac p_pke p_sec
      p_brd p_hbm p_mem p_dma p_fwd p_aud p_vid p_mode p_sys ?_
  refine writeStepCtrl_only p_regs p_out p_tim p_hif p_mac p_pke p_brd p_sys ?_
  assumption

theorem execStepApply_only (p_regs : e .regs) (p_regsB : e .regsB) (p_freeCtr : e .freeCtr) (p_out : e .out) (p_stride : e
    .stride) (p_tim : e .tim) (p_hif : e .hif) (p_evt : e .evt) (p_ldg : e .ldg) (p_obj : e .obj) (p_dlr : e .dlr) (p_cores
    : e .cores) (p_mac : e .mac) (p_pke : e .pke) (p_sec : e .sec) (p_brd : e .brd) (p_hbm : e .hbm) (p_mem : e .mem) (p_dma
    : e .dma) (p_fwd : e .fwd) (p_aud : e .aud) (p_vid : e .vid) (p_mode : e .mode) (p_sys : e .sys) {x0i x1i} (ht :
    execStepApply x0i x1i s = .next t) : Only e s.dev t.dev := by
  unfold execStepApply at ht
  refine onDev_only ?_ ht
  generalize s.dev = a
  have h : Only e a a := Only.refl _
  refine landStep_only p_regs p_regsB p_freeCtr p_out p_stride p_tim p_hif p_evt p_ldg p_obj p_dlr p_cores p_mac p_pke p_sec
      p_brd p_hbm p_mem p_dma p_fwd p_aud p_vid p_mode p_sys ?_
  refine writeStepCtrl_only p_regs p_out p_tim p_hif p_mac p_pke p_brd p_sys ?_
  assumption

theorem execStrideBoundary_only (p_regs : e .regs) (p_regsB : e .regsB) (p_freeCtr : e .freeCtr) (p_out : e .out) (p_stride
    : e .stride) (p_tim : e .tim) (p_hif : e .hif) (p_evt : e .evt) (p_ldg : e .ldg) (p_obj : e .obj) (p_dlr : e .dlr)
    (p_cores : e .cores) (p_mac : e .mac) (p_pke : e .pke) (p_sec : e .sec) (p_brd : e .brd) (p_hbm : e .hbm) (p_mem : e
    .mem) (p_dma : e .dma) (p_fwd : e .fwd) (p_aud : e .aud) (p_vid : e .vid) (p_mode : e .mode) (p_sys : e .sys) {x0i} (ht
    : execStrideBoundary x0i s = .next t) : Only e s.dev t.dev := by
  unfold execStrideBoundary at ht
  refine onDev_only ?_ ht
  generalize s.dev = a
  have h : Only e a a := Only.refl _
  refine strideBoundary_only p_regs p_regsB p_freeCtr p_out p_stride p_tim p_hif p_evt p_ldg p_obj p_dlr p_cores p_mac p_pke
      p_sec p_brd p_hbm p_mem p_dma p_fwd p_aud p_vid p_mode p_sys ?_
  assumption

theorem execMac_only (p_regs : e .regs) (p_freeCtr : e .freeCtr) (p_out : e .out) (p_hif : e .hif) (p_evt : e .evt) (p_ldg :
    e .ldg) (p_dlr : e .dlr) (p_cores : e .cores) (p_pke : e .pke) (p_pad : e .pad) (p_local_ : e .local_) (p_mem : e .mem)
    (p_dma : e .dma) (p_fwd : e .fwd) (p_aud : e .aud) (p_vid : e .vid) (p_sys : e .sys) {x0i x1i x2i x3i x4i x5i x6i} (ht :
    execMac x0i x1i x2i x3i x4i x5i x6i s = .next t) : Only e s.dev t.dev := by
  unfold execMac at ht
  refine onDev_only ?_ ht
  generalize s.dev = a
  have h : Only e a a := Only.refl _
  refine issue_only p_regs p_freeCtr p_out p_hif p_evt p_ldg p_dlr p_cores p_pke p_pad p_local_ p_mem p_dma p_fwd p_aud
      p_vid p_sys ?_ ?_
  · intro z1
    refine macInstr_only ?_
    assumption
  · assumption

theorem execValuOp_only (p_regs : e .regs) (p_freeCtr : e .freeCtr) (p_out : e .out) (p_hif : e .hif) (p_evt : e .evt)
    (p_ldg : e .ldg) (p_dlr : e .dlr) (p_cores : e .cores) (p_pke : e .pke) (p_pad : e .pad) (p_local_ : e .local_) (p_mem :
    e .mem) (p_dma : e .dma) (p_fwd : e .fwd) (p_aud : e .aud) (p_vid : e .vid) (p_sys : e .sys) {x0i x1i x2i x3i x4i x5i}
    (ht : execValuOp x0i x1i x2i x3i x4i x5i s = .next t) : Only e s.dev t.dev := by
  unfold execValuOp at ht
  refine onDev_only ?_ ht
  generalize s.dev = a
  have h : Only e a a := Only.refl _
  refine issue_only p_regs p_freeCtr p_out p_hif p_evt p_ldg p_dlr p_cores p_pke p_pad p_local_ p_mem p_dma p_fwd p_aud
      p_vid p_sys ?_ ?_
  · intro z1
    refine valuInstr_only p_freeCtr ?_
    assumption
  · assumption

theorem execNormx_only (p_regs : e .regs) (p_freeCtr : e .freeCtr) (p_out : e .out) (p_hif : e .hif) (p_evt : e .evt) (p_ldg
    : e .ldg) (p_dlr : e .dlr) (p_cores : e .cores) (p_pke : e .pke) (p_pad : e .pad) (p_local_ : e .local_) (p_mem : e
    .mem) (p_dma : e .dma) (p_fwd : e .fwd) (p_aud : e .aud) (p_vid : e .vid) (p_sys : e .sys) {x0i x1i x2i x3i x4i} (ht :
    execNormx x0i x1i x2i x3i x4i s = .next t) : Only e s.dev t.dev := by
  unfold execNormx at ht
  refine onDev_only ?_ ht
  generalize s.dev = a
  have h : Only e a a := Only.refl _
  refine issue_only p_regs p_freeCtr p_out p_hif p_evt p_ldg p_dlr p_cores p_pke p_pad p_local_ p_mem p_dma p_fwd p_aud
      p_vid p_sys ?_ ?_
  · intro z1
    refine normxInstr_only p_freeCtr ?_
    assumption
  · assumption

theorem execExp_only (p_regs : e .regs) (p_freeCtr : e .freeCtr) (p_out : e .out) (p_hif : e .hif) (p_evt : e .evt) (p_ldg :
    e .ldg) (p_dlr : e .dlr) (p_cores : e .cores) (p_pke : e .pke) (p_pad : e .pad) (p_local_ : e .local_) (p_mem : e .mem)
    (p_dma : e .dma) (p_fwd : e .fwd) (p_aud : e .aud) (p_vid : e .vid) (p_sys : e .sys) {x0i x1i x2i x3i} (ht : execExp x0i
    x1i x2i x3i s = .next t) : Only e s.dev t.dev := by
  unfold execExp at ht
  refine onDev_only ?_ ht
  generalize s.dev = a
  have h : Only e a a := Only.refl _
  refine issue_only p_regs p_freeCtr p_out p_hif p_evt p_ldg p_dlr p_cores p_pke p_pad p_local_ p_mem p_dma p_fwd p_aud
      p_vid p_sys ?_ ?_
  · intro z1
    refine expInstr_only ?_
    assumption
  · assumption

theorem execCmp_only (p_regs : e .regs) (p_freeCtr : e .freeCtr) (p_out : e .out) (p_hif : e .hif) (p_evt : e .evt) (p_ldg :
    e .ldg) (p_dlr : e .dlr) (p_cores : e .cores) (p_pke : e .pke) (p_pad : e .pad) (p_local_ : e .local_) (p_mem : e .mem)
    (p_dma : e .dma) (p_fwd : e .fwd) (p_aud : e .aud) (p_vid : e .vid) (p_sys : e .sys) {x0i x1i x2i x3i x4i} (ht : execCmp
    x0i x1i x2i x3i x4i s = .next t) : Only e s.dev t.dev := by
  unfold execCmp at ht
  refine onDev_only ?_ ht
  generalize s.dev = a
  have h : Only e a a := Only.refl _
  refine issue_only p_regs p_freeCtr p_out p_hif p_evt p_ldg p_dlr p_cores p_pke p_pad p_local_ p_mem p_dma p_fwd p_aud
      p_vid p_sys ?_ ?_
  · intro z1
    refine (show Only e a _ from ?_)
    assumption
  · assumption

theorem execTapm_only (p_regs : e .regs) (p_freeCtr : e .freeCtr) (p_out : e .out) (p_hif : e .hif) (p_evt : e .evt) (p_ldg
    : e .ldg) (p_dlr : e .dlr) (p_cores : e .cores) (p_pke : e .pke) (p_pad : e .pad) (p_local_ : e .local_) (p_mem : e
    .mem) (p_dma : e .dma) (p_fwd : e .fwd) (p_aud : e .aud) (p_vid : e .vid) (p_sys : e .sys) {x0i x1i x2i x3i x4i x5i x6i
    x7i} (ht : execTapm x0i x1i x2i x3i x4i x5i x6i x7i s = .next t) : Only e s.dev t.dev := by
  unfold execTapm at ht
  refine onDev_only ?_ ht
  generalize s.dev = a
  have h : Only e a a := Only.refl _
  refine issue_only p_regs p_freeCtr p_out p_hif p_evt p_ldg p_dlr p_cores p_pke p_pad p_local_ p_mem p_dma p_fwd p_aud
      p_vid p_sys ?_ ?_
  · intro z1
    refine tapmInstr_only p_freeCtr ?_
    assumption
  · assumption

theorem execNorm_only (p_regs : e .regs) (p_freeCtr : e .freeCtr) (p_out : e .out) (p_hif : e .hif) (p_evt : e .evt) (p_ldg
    : e .ldg) (p_dlr : e .dlr) (p_cores : e .cores) (p_pke : e .pke) (p_pad : e .pad) (p_local_ : e .local_) (p_mem : e
    .mem) (p_dma : e .dma) (p_fwd : e .fwd) (p_aud : e .aud) (p_vid : e .vid) (p_sys : e .sys) {x0i x1i x2i x3i x4i} (ht :
    execNorm x0i x1i x2i x3i x4i s = .next t) : Only e s.dev t.dev := by
  unfold execNorm at ht
  refine onDev_only ?_ ht
  generalize s.dev = a
  have h : Only e a a := Only.refl _
  refine issue_only p_regs p_freeCtr p_out p_hif p_evt p_ldg p_dlr p_cores p_pke p_pad p_local_ p_mem p_dma p_fwd p_aud
      p_vid p_sys ?_ ?_
  · intro z1
    refine normInstr_only ?_
    assumption
  · assumption

theorem execScalarOp_only (p_regs : e .regs) (p_freeCtr : e .freeCtr) (p_out : e .out) (p_hif : e .hif) (p_evt : e .evt)
    (p_ldg : e .ldg) (p_dlr : e .dlr) (p_cores : e .cores) (p_pke : e .pke) (p_pad : e .pad) (p_local_ : e .local_) (p_mem :
    e .mem) (p_dma : e .dma) (p_fwd : e .fwd) (p_aud : e .aud) (p_vid : e .vid) (p_sys : e .sys) {x0i x1i x2i x3i x4i} (ht :
    execScalarOp x0i x1i x2i x3i x4i s = .next t) : Only e s.dev t.dev := by
  unfold execScalarOp at ht
  refine onDev_only ?_ ht
  generalize s.dev = a
  have h : Only e a a := Only.refl _
  refine issue_only p_regs p_freeCtr p_out p_hif p_evt p_ldg p_dlr p_cores p_pke p_pad p_local_ p_mem p_dma p_fwd p_aud
      p_vid p_sys ?_ ?_
  · intro z1
    refine scalarInstr_only p_freeCtr ?_
    assumption
  · assumption

theorem execExt_only (p_regs : e .regs) (p_freeCtr : e .freeCtr) (p_out : e .out) (p_hif : e .hif) (p_evt : e .evt) (p_ldg :
    e .ldg) (p_dlr : e .dlr) (p_cores : e .cores) (p_pke : e .pke) (p_pad : e .pad) (p_local_ : e .local_) (p_mem : e .mem)
    (p_dma : e .dma) (p_fwd : e .fwd) (p_aud : e .aud) (p_vid : e .vid) (p_sys : e .sys) {x0i x1i x2i x3i x4i} (ht : execExt
    x0i x1i x2i x3i x4i s = .next t) : Only e s.dev t.dev := by
  unfold execExt at ht
  refine onDev_only ?_ ht
  generalize s.dev = a
  have h : Only e a a := Only.refl _
  refine issue_only p_regs p_freeCtr p_out p_hif p_evt p_ldg p_dlr p_cores p_pke p_pad p_local_ p_mem p_dma p_fwd p_aud
      p_vid p_sys ?_ ?_
  · intro z1
    refine extInstr_only p_freeCtr ?_
    assumption
  · assumption

theorem execUnitFault_only (p_regs : e .regs) (p_out : e .out) (p_hif : e .hif) (p_evt : e .evt) (p_ldg : e .ldg) (p_dlr : e
    .dlr) (p_cores : e .cores) (p_mac : e .mac) (p_pke : e .pke) (p_pad : e .pad) (p_mem : e .mem) (p_dma : e .dma) (p_fwd :
    e .fwd) (p_aud : e .aud) (p_vid : e .vid) (p_mode : e .mode) (p_sys : e .sys) {x0i} (ht : execUnitFault x0i s = .next t)
    : Only e s.dev t.dev := by
  unfold execUnitFault at ht
  refine onDev_only ?_ ht
  generalize s.dev = a
  have h : Only e a a := Only.refl _
  refine unitFault_only p_regs p_out p_hif p_evt p_ldg p_dlr p_cores p_mac p_pke p_pad p_mem p_dma p_fwd p_aud p_vid p_mode
      p_sys ?_
  assumption

theorem execCoreHalt_only (p_regs : e .regs) (p_out : e .out) (p_hif : e .hif) (p_evt : e .evt) (p_ldg : e .ldg) (p_dlr : e
    .dlr) (p_cores : e .cores) (p_pke : e .pke) (p_dma : e .dma) (p_fwd : e .fwd) (p_aud : e .aud) (p_vid : e .vid) (p_sys :
    e .sys) {x0i x1i} (ht : execCoreHalt x0i x1i s = .next t) : Only e s.dev t.dev := by
  unfold execCoreHalt at ht
  refine onDev_only ?_ ht
  generalize s.dev = a
  have h : Only e a a := Only.refl _
  refine writeMdcCtrl_only p_regs p_out p_hif p_evt p_ldg p_dlr p_cores p_pke p_dma p_fwd p_aud p_vid p_sys ?_
  assumption

theorem execWriteBufferDrain_only (p_cores : e .cores) (p_pad : e .pad) {x0i} (ht : execWriteBufferDrain x0i s = .next t) :
    Only e s.dev t.dev := by
  unfold execWriteBufferDrain at ht
  refine onDev_only ?_ ht
  generalize s.dev = a
  have h : Only e a a := Only.refl _
  split
  · assumption
  · refine drainOne_only p_cores p_pad ?_
    assumption

theorem execKernelLoad_only (p_regs : e .regs) (p_freeCtr : e .freeCtr) (p_out : e .out) (p_hif : e .hif) (p_pad : e .pad)
    (p_sys : e .sys) {x0i x1i x2i} (ht : execKernelLoad x0i x1i x2i s = .next t) : Only e s.dev t.dev := by
  unfold execKernelLoad at ht
  refine onDev_only ?_ ht
  generalize s.dev = a
  have h : Only e a a := Only.refl _
  refine runCmd_only p_regs p_out p_hif p_sys ?_ ?_
  · intro z1
    refine kernelLoadAct_only p_regs p_freeCtr p_out p_hif p_pad p_sys ?_
    assumption
  · assumption

theorem execPreemptInterrupt_only (p_cores : e .cores) {x0i} (ht : execPreemptInterrupt x0i s = .next t) : Only e s.dev
    t.dev := by
  unfold execPreemptInterrupt at ht
  refine onDev_only ?_ ht
  generalize s.dev = a
  have h : Only e a a := Only.refl _
  refine preemptCore_only p_cores ?_
  assumption

theorem execTeamMemUe_only (p_regs : e .regs) (p_out : e .out) (p_hif : e .hif) (p_evt : e .evt) (p_ldg : e .ldg) (p_dlr : e
    .dlr) (p_cores : e .cores) (p_mac : e .mac) (p_pke : e .pke) (p_pad : e .pad) (p_mem : e .mem) (p_dma : e .dma) (p_fwd :
    e .fwd) (p_aud : e .aud) (p_vid : e .vid) (p_mode : e .mode) (p_sys : e .sys) {x0i x1i x2i} (ht : execTeamMemUe x0i x1i
    x2i s = .next t) : Only e s.dev t.dev := by
  unfold execTeamMemUe at ht
  refine onDev_only ?_ ht
  generalize s.dev = a
  have h : Only e a a := Only.refl _
  extract_lets +onlyGivenNames x1
  split
  · assumption
  · extract_lets +onlyGivenNames x2
    have h2 : Only e a x2 := by
      unfold x2
      refine satF_only p_regs ?_
      assumption
    try clear_value x2
    extract_lets +onlyGivenNames x3
    have h3 : Only e a x3 := by
      unfold x3
      refine putB_only p_regs ?_
      assumption
    try clear_value x3
    extract_lets +onlyGivenNames x4
    have h4 : Only e a x4 := by
      unfold x4
      refine raise_only p_regs p_out p_hif ?_
      assumption
    try clear_value x4
    refine faultUnit_only p_regs p_out p_hif p_evt p_ldg p_dlr p_cores p_mac p_pke p_mem p_dma p_fwd p_aud p_vid p_mode p_sys
        ?_
    refine cancelTeam_only p_regs p_out p_hif p_evt p_ldg p_dlr p_cores p_pke p_pad p_mem p_dma p_fwd p_aud p_vid p_sys ?_
    assumption

theorem execCoreStep_only (p_regs : e .regs) (p_out : e .out) (p_hif : e .hif) (p_evt : e .evt) (p_ldg : e .ldg) (p_dlr : e
    .dlr) (p_cores : e .cores) (p_pke : e .pke) (p_dma : e .dma) (p_fwd : e .fwd) (p_aud : e .aud) (p_vid : e .vid) (p_sys :
    e .sys) {x0i x1i} (ht : execCoreStep x0i x1i s = .next t) : Only e s.dev t.dev := by
  unfold execCoreStep at ht
  refine onDev_only ?_ ht
  generalize s.dev = a
  have h : Only e a a := Only.refl _
  refine writeMdcCtrl_only p_regs p_out p_hif p_evt p_ldg p_dlr p_cores p_pke p_dma p_fwd p_aud p_vid p_sys ?_
  assumption

theorem execRloop_only (p_regs : e .regs) (p_freeCtr : e .freeCtr) (p_out : e .out) (p_hif : e .hif) (p_evt : e .evt) (p_ldg
    : e .ldg) (p_dlr : e .dlr) (p_cores : e .cores) (p_pke : e .pke) (p_pad : e .pad) (p_local_ : e .local_) (p_mem : e
    .mem) (p_dma : e .dma) (p_fwd : e .fwd) (p_aud : e .aud) (p_vid : e .vid) (p_sys : e .sys) {x0i x1i x2i x3i} (ht :
    execRloop x0i x1i x2i x3i s = .next t) : Only e s.dev t.dev := by
  unfold execRloop at ht
  refine onDev_only ?_ ht
  generalize s.dev = a
  have h : Only e a a := Only.refl _
  refine issue_only p_regs p_freeCtr p_out p_hif p_evt p_ldg p_dlr p_cores p_pke p_pad p_local_ p_mem p_dma p_fwd p_aud
      p_vid p_sys ?_ ?_
  · intro z1
    refine rloopInstr_only p_freeCtr ?_
    assumption
  · assumption

theorem execRdflag_only (p_regs : e .regs) (p_freeCtr : e .freeCtr) (p_out : e .out) (p_hif : e .hif) (p_evt : e .evt)
    (p_ldg : e .ldg) (p_dlr : e .dlr) (p_cores : e .cores) (p_pke : e .pke) (p_pad : e .pad) (p_local_ : e .local_) (p_mem :
    e .mem) (p_dma : e .dma) (p_fwd : e .fwd) (p_aud : e .aud) (p_vid : e .vid) (p_sys : e .sys) {x0i x1i} (ht : execRdflag
    x0i x1i s = .next t) : Only e s.dev t.dev := by
  unfold execRdflag at ht
  refine onDev_only ?_ ht
  generalize s.dev = a
  have h : Only e a a := Only.refl _
  refine issue_only p_regs p_freeCtr p_out p_hif p_evt p_ldg p_dlr p_cores p_pke p_pad p_local_ p_mem p_dma p_fwd p_aud
      p_vid p_sys ?_ ?_
  · intro z1
    refine (show Only e a _ from ?_)
    assumption
  · assumption

theorem execGetd_only (p_regs : e .regs) (p_freeCtr : e .freeCtr) (p_out : e .out) (p_hif : e .hif) (p_evt : e .evt) (p_ldg
    : e .ldg) (p_dlr : e .dlr) (p_cores : e .cores) (p_pke : e .pke) (p_pad : e .pad) (p_local_ : e .local_) (p_mem : e
    .mem) (p_dma : e .dma) (p_fwd : e .fwd) (p_aud : e .aud) (p_vid : e .vid) (p_sys : e .sys) {x0i x1i x2i} (ht : execGetd
    x0i x1i x2i s = .next t) : Only e s.dev t.dev := by
  unfold execGetd at ht
  refine onDev_only ?_ ht
  generalize s.dev = a
  have h : Only e a a := Only.refl _
  refine issue_only p_regs p_freeCtr p_out p_hif p_evt p_ldg p_dlr p_cores p_pke p_pad p_local_ p_mem p_dma p_fwd p_aud
      p_vid p_sys ?_ ?_
  · intro z1
    refine (show Only e a _ from ?_)
    assumption
  · assumption

theorem execYield_only (p_regs : e .regs) (p_freeCtr : e .freeCtr) (p_out : e .out) (p_hif : e .hif) (p_evt : e .evt) (p_ldg
    : e .ldg) (p_dlr : e .dlr) (p_cores : e .cores) (p_pke : e .pke) (p_pad : e .pad) (p_local_ : e .local_) (p_mem : e
    .mem) (p_dma : e .dma) (p_fwd : e .fwd) (p_aud : e .aud) (p_vid : e .vid) (p_sys : e .sys) {x0i} (ht : execYield x0i s =
    .next t) : Only e s.dev t.dev := by
  unfold execYield at ht
  refine onDev_only ?_ ht
  generalize s.dev = a
  have h : Only e a a := Only.refl _
  refine issue_only p_regs p_freeCtr p_out p_hif p_evt p_ldg p_dlr p_cores p_pke p_pad p_local_ p_mem p_dma p_fwd p_aud
      p_vid p_sys ?_ ?_
  · intro z1
    refine notInLock_only ?_
    split
    · refine (show Only e a _ from ?_)
      assumption
    · exact trivial
  · assumption

theorem execDone_only (p_regs : e .regs) (p_freeCtr : e .freeCtr) (p_out : e .out) (p_hif : e .hif) (p_evt : e .evt) (p_ldg
    : e .ldg) (p_dlr : e .dlr) (p_cores : e .cores) (p_pke : e .pke) (p_pad : e .pad) (p_local_ : e .local_) (p_mem : e
    .mem) (p_dma : e .dma) (p_fwd : e .fwd) (p_aud : e .aud) (p_vid : e .vid) (p_sys : e .sys) {x0i x1i} (ht : execDone x0i
    x1i s = .next t) : Only e s.dev t.dev := by
  unfold execDone at ht
  refine onDev_only ?_ ht
  generalize s.dev = a
  have h : Only e a a := Only.refl _
  refine issue_only p_regs p_freeCtr p_out p_hif p_evt p_ldg p_dlr p_cores p_pke p_pad p_local_ p_mem p_dma p_fwd p_aud
      p_vid p_sys ?_ ?_
  · intro z1
    refine notInLock_only ?_
    refine (show Only e a _ from ?_)
    assumption
  · assumption

theorem execSpawn_only (p_regs : e .regs) (p_freeCtr : e .freeCtr) (p_out : e .out) (p_hif : e .hif) (p_evt : e .evt) (p_ldg
    : e .ldg) (p_dlr : e .dlr) (p_cores : e .cores) (p_pke : e .pke) (p_pad : e .pad) (p_local_ : e .local_) (p_mem : e
    .mem) (p_dma : e .dma) (p_fwd : e .fwd) (p_aud : e .aud) (p_vid : e .vid) (p_sys : e .sys) {x0i x1i x2i x3i} (ht :
    execSpawn x0i x1i x2i x3i s = .next t) : Only e s.dev t.dev := by
  unfold execSpawn at ht
  refine onDev_only ?_ ht
  generalize s.dev = a
  have h : Only e a a := Only.refl _
  refine issue_only p_regs p_freeCtr p_out p_hif p_evt p_ldg p_dlr p_cores p_pke p_pad p_local_ p_mem p_dma p_fwd p_aud
      p_vid p_sys ?_ ?_
  · intro z1
    refine spawnInstr_only ?_
    assumption
  · assumption

theorem execFence_only (p_regs : e .regs) (p_freeCtr : e .freeCtr) (p_out : e .out) (p_hif : e .hif) (p_evt : e .evt) (p_ldg
    : e .ldg) (p_dlr : e .dlr) (p_cores : e .cores) (p_pke : e .pke) (p_pad : e .pad) (p_local_ : e .local_) (p_mem : e
    .mem) (p_dma : e .dma) (p_fwd : e .fwd) (p_aud : e .aud) (p_vid : e .vid) (p_sys : e .sys) {x0i} (ht : execFence x0i s =
    .next t) : Only e s.dev t.dev := by
  unfold execFence at ht
  refine onDev_only ?_ ht
  generalize s.dev = a
  have h : Only e a a := Only.refl _
  refine issue_only p_regs p_freeCtr p_out p_hif p_evt p_ldg p_dlr p_cores p_pke p_pad p_local_ p_mem p_dma p_fwd p_aud
      p_vid p_sys ?_ ?_
  · intro z1
    refine (show Only e a _ from ?_)
    assumption
  · assumption

theorem execLoop_only (p_regs : e .regs) (p_freeCtr : e .freeCtr) (p_out : e .out) (p_hif : e .hif) (p_evt : e .evt) (p_ldg
    : e .ldg) (p_dlr : e .dlr) (p_cores : e .cores) (p_pke : e .pke) (p_pad : e .pad) (p_local_ : e .local_) (p_mem : e
    .mem) (p_dma : e .dma) (p_fwd : e .fwd) (p_aud : e .aud) (p_vid : e .vid) (p_sys : e .sys) {x0i x1i x2i} (ht : execLoop
    x0i x1i x2i s = .next t) : Only e s.dev t.dev := by
  unfold execLoop at ht
  refine onDev_only ?_ ht
  generalize s.dev = a
  have h : Only e a a := Only.refl _
  refine issue_only p_regs p_freeCtr p_out p_hif p_evt p_ldg p_dlr p_cores p_pke p_pad p_local_ p_mem p_dma p_fwd p_aud
      p_vid p_sys ?_ ?_
  · intro z1
    refine loopInstr_only p_freeCtr ?_
    assumption
  · assumption

theorem execSignal_only (p_regs : e .regs) (p_freeCtr : e .freeCtr) (p_out : e .out) (p_hif : e .hif) (p_evt : e .evt)
    (p_ldg : e .ldg) (p_dlr : e .dlr) (p_cores : e .cores) (p_pke : e .pke) (p_pad : e .pad) (p_local_ : e .local_) (p_mem :
    e .mem) (p_dma : e .dma) (p_fwd : e .fwd) (p_aud : e .aud) (p_vid : e .vid) (p_sys : e .sys) {x0i x1i} (ht : execSignal
    x0i x1i s = .next t) : Only e s.dev t.dev := by
  unfold execSignal at ht
  refine onDev_only ?_ ht
  generalize s.dev = a
  have h : Only e a a := Only.refl _
  refine issue_only p_regs p_freeCtr p_out p_hif p_evt p_ldg p_dlr p_cores p_pke p_pad p_local_ p_mem p_dma p_fwd p_aud
      p_vid p_sys ?_ ?_
  · intro z1
    refine notInLock_only ?_
    refine (show Only e a _ from ?_)
    assumption
  · assumption

theorem execSavectx_only (p_regs : e .regs) (p_freeCtr : e .freeCtr) (p_out : e .out) (p_hif : e .hif) (p_evt : e .evt)
    (p_ldg : e .ldg) (p_dlr : e .dlr) (p_cores : e .cores) (p_pke : e .pke) (p_pad : e .pad) (p_local_ : e .local_) (p_mem :
    e .mem) (p_dma : e .dma) (p_fwd : e .fwd) (p_aud : e .aud) (p_vid : e .vid) (p_sys : e .sys) {x0i} (ht : execSavectx x0i
    s = .next t) : Only e s.dev t.dev := by
  unfold execSavectx at ht
  refine onDev_only ?_ ht
  generalize s.dev = a
  have h : Only e a a := Only.refl _
  refine issue_only p_regs p_freeCtr p_out p_hif p_evt p_ldg p_dlr p_cores p_pke p_pad p_local_ p_mem p_dma p_fwd p_aud
      p_vid p_sys ?_ ?_
  · intro z1
    refine notInLock_only ?_
    refine (show Only e a _ from ?_)
    assumption
  · assumption

theorem execBranch_only (p_regs : e .regs) (p_freeCtr : e .freeCtr) (p_out : e .out) (p_hif : e .hif) (p_evt : e .evt)
    (p_ldg : e .ldg) (p_dlr : e .dlr) (p_cores : e .cores) (p_pke : e .pke) (p_pad : e .pad) (p_local_ : e .local_) (p_mem :
    e .mem) (p_dma : e .dma) (p_fwd : e .fwd) (p_aud : e .aud) (p_vid : e .vid) (p_sys : e .sys) {x0i x1i} (ht : execBranch
    x0i x1i s = .next t) : Only e s.dev t.dev := by
  unfold execBranch at ht
  refine onDev_only ?_ ht
  generalize s.dev = a
  have h : Only e a a := Only.refl _
  refine issue_only p_regs p_freeCtr p_out p_hif p_evt p_ldg p_dlr p_cores p_pke p_pad p_local_ p_mem p_dma p_fwd p_aud
      p_vid p_sys ?_ ?_
  · intro z1
    refine notInLock_only ?_
    refine (show Only e a _ from ?_)
    assumption
  · assumption

theorem execLock_only (p_regs : e .regs) (p_freeCtr : e .freeCtr) (p_out : e .out) (p_hif : e .hif) (p_evt : e .evt) (p_ldg
    : e .ldg) (p_dlr : e .dlr) (p_cores : e .cores) (p_pke : e .pke) (p_pad : e .pad) (p_local_ : e .local_) (p_mem : e
    .mem) (p_dma : e .dma) (p_fwd : e .fwd) (p_aud : e .aud) (p_vid : e .vid) (p_sys : e .sys) {x0i x1i} (ht : execLock x0i
    x1i s = .next t) : Only e s.dev t.dev := by
  unfold execLock at ht
  refine onDev_only ?_ ht
  generalize s.dev = a
  have h : Only e a a := Only.refl _
  refine issue_only p_regs p_freeCtr p_out p_hif p_evt p_ldg p_dlr p_cores p_pke p_pad p_local_ p_mem p_dma p_fwd p_aud
      p_vid p_sys ?_ ?_
  · intro z1
    refine lockInstr_only p_cores p_mem ?_
    assumption
  · assumption

theorem execUnlock_only (p_regs : e .regs) (p_freeCtr : e .freeCtr) (p_out : e .out) (p_hif : e .hif) (p_evt : e .evt)
    (p_ldg : e .ldg) (p_dlr : e .dlr) (p_cores : e .cores) (p_pke : e .pke) (p_pad : e .pad) (p_local_ : e .local_) (p_mem :
    e .mem) (p_dma : e .dma) (p_fwd : e .fwd) (p_aud : e .aud) (p_vid : e .vid) (p_sys : e .sys) {x0i} (ht : execUnlock x0i
    s = .next t) : Only e s.dev t.dev := by
  unfold execUnlock at ht
  refine onDev_only ?_ ht
  generalize s.dev = a
  have h : Only e a a := Only.refl _
  refine issue_only p_regs p_freeCtr p_out p_hif p_evt p_ldg p_dlr p_cores p_pke p_pad p_local_ p_mem p_dma p_fwd p_aud
      p_vid p_sys ?_ ?_
  · intro z1
    refine (show Only e a _ from ?_)
    assumption
  · assumption

theorem execLdBcW_only (p_regs : e .regs) (p_freeCtr : e .freeCtr) (p_out : e .out) (p_hif : e .hif) (p_evt : e .evt) (p_ldg
    : e .ldg) (p_dlr : e .dlr) (p_cores : e .cores) (p_pke : e .pke) (p_pad : e .pad) (p_local_ : e .local_) (p_mem : e
    .mem) (p_dma : e .dma) (p_fwd : e .fwd) (p_aud : e .aud) (p_vid : e .vid) (p_sys : e .sys) {x0i x1i x2i x3i} (ht :
    execLdBcW x0i x1i x2i x3i s = .next t) : Only e s.dev t.dev := by
  unfold execLdBcW at ht
  refine onDev_only ?_ ht
  generalize s.dev = a
  have h : Only e a a := Only.refl _
  refine issue_only p_regs p_freeCtr p_out p_hif p_evt p_ldg p_dlr p_cores p_pke p_pad p_local_ p_mem p_dma p_fwd p_aud
      p_vid p_sys ?_ ?_
  · intro z1
    refine loadInstr_only p_regs p_evt p_cores ?_
    assumption
  · assumption

theorem execLdV_only (p_regs : e .regs) (p_freeCtr : e .freeCtr) (p_out : e .out) (p_hif : e .hif) (p_evt : e .evt) (p_ldg :
    e .ldg) (p_dlr : e .dlr) (p_cores : e .cores) (p_pke : e .pke) (p_pad : e .pad) (p_local_ : e .local_) (p_mem : e .mem)
    (p_dma : e .dma) (p_fwd : e .fwd) (p_aud : e .aud) (p_vid : e .vid) (p_sys : e .sys) {x0i x1i x2i x3i} (ht : execLdV x0i
    x1i x2i x3i s = .next t) : Only e s.dev t.dev := by
  unfold execLdV at ht
  refine onDev_only ?_ ht
  generalize s.dev = a
  have h : Only e a a := Only.refl _
  refine issue_only p_regs p_freeCtr p_out p_hif p_evt p_ldg p_dlr p_cores p_pke p_pad p_local_ p_mem p_dma p_fwd p_aud
      p_vid p_sys ?_ ?_
  · intro z1
    refine loadInstr_only p_regs p_evt p_cores ?_
    assumption
  · assumption

theorem execStV_only (p_regs : e .regs) (p_freeCtr : e .freeCtr) (p_out : e .out) (p_hif : e .hif) (p_evt : e .evt) (p_ldg :
    e .ldg) (p_dlr : e .dlr) (p_cores : e .cores) (p_pke : e .pke) (p_pad : e .pad) (p_local_ : e .local_) (p_mem : e .mem)
    (p_dma : e .dma) (p_fwd : e .fwd) (p_aud : e .aud) (p_vid : e .vid) (p_sys : e .sys) {x0i x1i x2i} (ht : execStV x0i x1i
    x2i s = .next t) : Only e s.dev t.dev := by
  unfold execStV at ht
  refine onDev_only ?_ ht
  generalize s.dev = a
  have h : Only e a a := Only.refl _
  refine issue_only p_regs p_freeCtr p_out p_hif p_evt p_ldg p_dlr p_cores p_pke p_pad p_local_ p_mem p_dma p_fwd p_aud
      p_vid p_sys ?_ ?_
  · intro z1
    refine storeInstr_only ?_
    assumption
  · assumption

theorem execAmov_only (p_regs : e .regs) (p_freeCtr : e .freeCtr) (p_out : e .out) (p_hif : e .hif) (p_evt : e .evt) (p_ldg
    : e .ldg) (p_dlr : e .dlr) (p_cores : e .cores) (p_pke : e .pke) (p_pad : e .pad) (p_local_ : e .local_) (p_mem : e
    .mem) (p_dma : e .dma) (p_fwd : e .fwd) (p_aud : e .aud) (p_vid : e .vid) (p_sys : e .sys) {x0i x1i x2i x3i} (ht :
    execAmov x0i x1i x2i x3i s = .next t) : Only e s.dev t.dev := by
  unfold execAmov at ht
  refine onDev_only ?_ ht
  generalize s.dev = a
  have h : Only e a a := Only.refl _
  refine issue_only p_regs p_freeCtr p_out p_hif p_evt p_ldg p_dlr p_cores p_pke p_pad p_local_ p_mem p_dma p_fwd p_aud
      p_vid p_sys ?_ ?_
  · intro z1
    split
    · exact trivial
    · refine (show Only e a _ from ?_)
      assumption
  · assumption

theorem execLdW_only (p_regs : e .regs) (p_freeCtr : e .freeCtr) (p_out : e .out) (p_hif : e .hif) (p_evt : e .evt) (p_ldg :
    e .ldg) (p_dlr : e .dlr) (p_cores : e .cores) (p_pke : e .pke) (p_pad : e .pad) (p_local_ : e .local_) (p_mem : e .mem)
    (p_dma : e .dma) (p_fwd : e .fwd) (p_aud : e .aud) (p_vid : e .vid) (p_sys : e .sys) {x0i x1i x2i x3i x4i} (ht : execLdW
    x0i x1i x2i x3i x4i s = .next t) : Only e s.dev t.dev := by
  unfold execLdW at ht
  refine onDev_only ?_ ht
  generalize s.dev = a
  have h : Only e a a := Only.refl _
  refine issue_only p_regs p_freeCtr p_out p_hif p_evt p_ldg p_dlr p_cores p_pke p_pad p_local_ p_mem p_dma p_fwd p_aud
      p_vid p_sys ?_ ?_
  · intro z1
    refine loadInstr_only p_regs p_evt p_cores ?_
    assumption
  · assumption

theorem execStW_only (p_regs : e .regs) (p_freeCtr : e .freeCtr) (p_out : e .out) (p_hif : e .hif) (p_evt : e .evt) (p_ldg :
    e .ldg) (p_dlr : e .dlr) (p_cores : e .cores) (p_pke : e .pke) (p_pad : e .pad) (p_local_ : e .local_) (p_mem : e .mem)
    (p_dma : e .dma) (p_fwd : e .fwd) (p_aud : e .aud) (p_vid : e .vid) (p_sys : e .sys) {x0i x1i x2i x3i} (ht : execStW x0i
    x1i x2i x3i s = .next t) : Only e s.dev t.dev := by
  unfold execStW at ht
  refine onDev_only ?_ ht
  generalize s.dev = a
  have h : Only e a a := Only.refl _
  refine issue_only p_regs p_freeCtr p_out p_hif p_evt p_ldg p_dlr p_cores p_pke p_pad p_local_ p_mem p_dma p_fwd p_aud
      p_vid p_sys ?_ ?_
  · intro z1
    refine storeInstr_only ?_
    assumption
  · assumption

theorem execDmaDescriptor_only (p_regs : e .regs) (p_freeCtr : e .freeCtr) (p_out : e .out) (p_hif : e .hif) (p_evt : e
    .evt) (p_dlr : e .dlr) (p_hbm : e .hbm) (p_pad : e .pad) (p_local_ : e .local_) (p_mem : e .mem) (p_dma : e .dma) (p_sys
    : e .sys) {x0i x1i x2i x3i x4i x5i} (ht : execDmaDescriptor x0i x1i x2i x3i x4i x5i s = .next t) : Only e s.dev t.dev :=
    by
  unfold execDmaDescriptor at ht
  refine onDev_only ?_ ht
  generalize s.dev = a
  have h : Only e a a := Only.refl _
  refine descriptorStep_only p_regs p_freeCtr p_out p_hif p_evt p_dlr p_hbm p_pad p_local_ p_mem p_dma p_sys ?_
  assumption

theorem execDmaChain_only (p_regs : e .regs) (p_out : e .out) (p_hif : e .hif) (p_evt : e .evt) (p_ldg : e .ldg) (p_dlr : e
    .dlr) (p_cores : e .cores) (p_pke : e .pke) (p_dma : e .dma) (p_fwd : e .fwd) (p_aud : e .aud) (p_vid : e .vid) (p_sys :
    e .sys) {x0i x1i x2i} (ht : execDmaChain x0i x1i x2i s = .next t) : Only e s.dev t.dev := by
  unfold execDmaChain at ht
  refine onDev_only ?_ ht
  generalize s.dev = a
  have h : Only e a a := Only.refl _
  refine runCmd_only p_regs p_out p_hif p_sys ?_ ?_
  · intro z1
    refine dmaChainAct_only p_regs p_out p_hif p_evt p_ldg p_dlr p_cores p_pke p_dma p_fwd p_aud p_vid p_sys ?_
    assumption
  · assumption

theorem execFlrComplete_only (p_regs : e .regs) (p_freeCtr : e .freeCtr) (p_out : e .out) (p_hif : e .hif) {x0i} (ht :
    execFlrComplete x0i s = .next t) : Only e s.dev t.dev := by
  unfold execFlrComplete at ht
  refine onDev_only ?_ ht
  generalize s.dev = a
  have h : Only e a a := Only.refl _
  refine flrComplete_only p_regs p_freeCtr p_out p_hif ?_
  assumption

theorem execPfFlr_only (p_regs : e .regs) (p_latch : e .latch) (p_freeCtr : e .freeCtr) (p_out : e .out) (p_tim : e .tim)
    (p_hif : e .hif) (p_evt : e .evt) (p_ldg : e .ldg) (p_obj : e .obj) (p_dlr : e .dlr) (p_cores : e .cores) (p_pke : e
    .pke) (p_sec : e .sec) (p_brd : e .brd) (p_dma : e .dma) (p_fwd : e .fwd) (p_aud : e .aud) (p_vid : e .vid) (p_mode : e
    .mode) (p_sys : e .sys) (ht : execPfFlr s = .next t) : Only e s.dev t.dev := by
  unfold execPfFlr at ht
  refine onDev_only ?_ ht
  generalize s.dev = a
  have h : Only e a a := Only.refl _
  refine pfFlr_only p_regs p_latch p_freeCtr p_out p_tim p_hif p_evt p_ldg p_obj p_dlr p_cores p_pke p_sec p_brd p_dma p_fwd
      p_aud p_vid p_mode p_sys ?_
  assumption

theorem execVfFlr_only (p_regs : e .regs) (p_latch : e .latch) (p_freeCtr : e .freeCtr) (p_out : e .out) (p_tim : e .tim)
    (p_hif : e .hif) (p_evt : e .evt) (p_ldg : e .ldg) (p_obj : e .obj) (p_dlr : e .dlr) (p_cores : e .cores) (p_pke : e
    .pke) (p_sec : e .sec) (p_brd : e .brd) (p_dma : e .dma) (p_fwd : e .fwd) (p_aud : e .aud) (p_vid : e .vid) (p_sys : e
    .sys) {x0i} (ht : execVfFlr x0i s = .next t) : Only e s.dev t.dev := by
  unfold execVfFlr at ht
  refine onDev_only ?_ ht
  generalize s.dev = a
  have h : Only e a a := Only.refl _
  split
  · assumption
  · refine startFlr_only p_regs p_latch p_freeCtr p_out p_tim p_hif p_evt p_ldg p_obj p_dlr p_cores p_pke p_sec p_brd p_dma
      p_fwd p_aud p_vid p_sys ?_
    assumption

theorem execStrideCountRead_only (p_regs : e .regs) (p_latch : e .latch) (p_out : e .out) (p_tim : e .tim) {x0i} (ht :
    execStrideCountRead x0i s = .next t) : Only e s.dev t.dev := by
  unfold execStrideCountRead at ht
  refine onDev_only ?_ ht
  generalize s.dev = a
  have h : Only e a a := Only.refl _
  refine hostReadReg_only p_regs p_latch p_out p_tim ?_
  assumption

theorem execRegisterWrite_only (p_regs : e .regs) (p_regsB : e .regsB) (p_latch : e .latch) (p_freeCtr : e .freeCtr) (p_out
    : e .out) (p_stride : e .stride) (p_tim : e .tim) (p_hif : e .hif) (p_evt : e .evt) (p_ldg : e .ldg) (p_obj : e .obj)
    (p_dlr : e .dlr) (p_cores : e .cores) (p_mac : e .mac) (p_pke : e .pke) (p_sec : e .sec) (p_brd : e .brd) (p_hbm : e
    .hbm) (p_pad : e .pad) (p_local_ : e .local_) (p_mem : e .mem) (p_dma : e .dma) (p_fwd : e .fwd) (p_aud : e .aud) (p_vid
    : e .vid) (p_tack : e .tack) (p_mode : e .mode) (p_sys : e .sys) (p_rst : e .rst) {x0i x1i x2i} (ht : execRegisterWrite
    x0i x1i x2i s = .next t) : Only e s.dev t.dev := by
  unfold execRegisterWrite at ht
  refine onDev_only ?_ ht
  generalize s.dev = a
  have h : Only e a a := Only.refl _
  refine hostWriteReg_only p_regs p_regsB p_latch p_freeCtr p_out p_stride p_tim p_hif p_evt p_ldg p_obj p_dlr p_cores p_mac
      p_pke p_sec p_brd p_hbm p_pad p_local_ p_mem p_dma p_fwd p_aud p_vid p_tack p_mode p_sys p_rst ?_
  assumption

theorem execSubWord_only (p_regs : e .regs) (p_out : e .out) (p_hif : e .hif) {x0i x1i} (ht : execSubWord x0i x1i s = .next
    t) : Only e s.dev t.dev := by
  unfold execSubWord at ht
  refine onDev_only ?_ ht
  generalize s.dev = a
  have h : Only e a a := Only.refl _
  split
  · refine subWord_only p_regs p_out p_hif ?_
    assumption
  · assumption

theorem execRegisterRead_only (p_regs : e .regs) (p_latch : e .latch) (p_out : e .out) (p_tim : e .tim) {x0i x1i x2i x3i}
    (ht : execRegisterRead x0i x1i x2i x3i s = .next t) : Only e s.dev t.dev := by
  unfold execRegisterRead at ht
  refine onDev_only ?_ ht
  generalize s.dev = a
  have h : Only e a a := Only.refl _
  refine hostReadReg_only p_regs p_latch p_out p_tim ?_
  refine readAt_only p_tim ?_
  assumption

theorem execImageAccepted_only (p_regs : e .regs) (p_regsB : e .regsB) (p_latch : e .latch) (p_freeCtr : e .freeCtr) (p_out
    : e .out) (p_stride : e .stride) (p_tim : e .tim) (p_hif : e .hif) (p_evt : e .evt) (p_ldg : e .ldg) (p_obj : e .obj)
    (p_dlr : e .dlr) (p_cores : e .cores) (p_mac : e .mac) (p_pke : e .pke) (p_sec : e .sec) (p_brd : e .brd) (p_hbm : e
    .hbm) (p_pad : e .pad) (p_local_ : e .local_) (p_mem : e .mem) (p_dma : e .dma) (p_fwd : e .fwd) (p_aud : e .aud) (p_vid
    : e .vid) (p_tack : e .tack) (p_mode : e .mode) (p_sys : e .sys) (p_rst : e .rst) (ht : execImageAccepted s = .next t) :
    Only e s.dev t.dev := by
  unfold execImageAccepted at ht
  refine onDev_only ?_ ht
  generalize s.dev = a
  have h : Only e a a := Only.refl _
  refine imageAccepted_only p_regs p_regsB p_latch p_freeCtr p_out p_stride p_tim p_hif p_evt p_ldg p_obj p_dlr p_cores
      p_mac p_pke p_sec p_brd p_hbm p_pad p_local_ p_mem p_dma p_fwd p_aud p_vid p_tack p_mode p_sys p_rst ?_
  assumption

theorem execPaddockRound_only (p_regs : e .regs) (p_out : e .out) (p_hif : e .hif) (p_evt : e .evt) (p_ldg : e .ldg) (p_dlr
    : e .dlr) (p_cores : e .cores) (p_mac : e .mac) (p_pke : e .pke) (p_mem : e .mem) (p_dma : e .dma) (p_fwd : e .fwd)
    (p_aud : e .aud) (p_vid : e .vid) (p_mode : e .mode) (p_sys : e .sys) {x0i x1i x2i} (ht : execPaddockRound x0i x1i x2i s
    = .next t) : Only e s.dev t.dev := by
  unfold execPaddockRound at ht
  refine onDev_only ?_ ht
  generalize s.dev = a
  have h : Only e a a := Only.refl _
  refine paddockRound_only p_regs p_out p_hif p_evt p_ldg p_dlr p_cores p_mac p_pke p_mem p_dma p_fwd p_aud p_vid p_mode
      p_sys ?_
  assumption

theorem execQuotaWindow_only (p_regs : e .regs) (p_mem : e .mem) {x0i x1i} (ht : execQuotaWindow x0i x1i s = .next t) : Only
    e s.dev t.dev := by
  unfold execQuotaWindow at ht
  refine onDev_only ?_ ht
  generalize s.dev = a
  have h : Only e a a := Only.refl _
  refine quotaWindow_only p_regs p_mem ?_
  assumption

theorem execPtpMessage_only (p_regs : e .regs) (p_regsB : e .regsB) (p_freeCtr : e .freeCtr) (p_out : e .out) (p_stride : e
    .stride) (p_tim : e .tim) (p_hif : e .hif) (p_evt : e .evt) (p_ldg : e .ldg) (p_obj : e .obj) (p_dlr : e .dlr) (p_cores
    : e .cores) (p_mac : e .mac) (p_pke : e .pke) (p_sec : e .sec) (p_brd : e .brd) (p_hbm : e .hbm) (p_mem : e .mem) (p_dma
    : e .dma) (p_fwd : e .fwd) (p_aud : e .aud) (p_vid : e .vid) (p_mode : e .mode) (p_sys : e .sys) {x0i x1i} (ht :
    execPtpMessage x0i x1i s = .next t) : Only e s.dev t.dev := by
  unfold execPtpMessage at ht
  refine onDev_only ?_ ht
  generalize s.dev = a
  have h : Only e a a := Only.refl _
  refine landStep_only p_regs p_regsB p_freeCtr p_out p_stride p_tim p_hif p_evt p_ldg p_obj p_dlr p_cores p_mac p_pke p_sec
      p_brd p_hbm p_mem p_dma p_fwd p_aud p_vid p_mode p_sys ?_
  refine ptpMessage_only p_regs p_freeCtr p_out p_stride p_tim p_hif p_evt p_ldg p_mac p_pke p_brd p_sys ?_
  assumption

end Sys2Proof.Machine
end

