-- ==== Sys2Proof/Laws/Pieces.lean ====
section
/-! SUPPORT. Frames of commands in the terms of `OnlyPieces`, and an instruction that does not end its bundle. -/
namespace Sys2Proof.Machine

/-- A frame in the terms of the statements. -/
theorem Only.pieces {ps : List Piece} {i : Instr} {s : State} (hp : ∀ t, exec i s = .next t → t.pending = s.pending)
    (h : ∀ t, exec i s = .next t → Only (· ∈ ps) s.dev t.dev) : OnlyPieces i s ps := by
  intro t ht
  have h := h t ht
  refine ⟨hp t ht, h.variant, fun p hp => ?_⟩
  cases p
  case rst => exact h.halt hp
  all_goals (first
    | exact h.regs hp | exact h.regsB hp | exact h.latch hp | exact h.freeCtr hp | exact h.out hp | exact h.stride hp
    | exact h.tim hp | exact h.hif hp | exact h.evt hp | exact h.ldg hp | exact h.obj hp | exact h.dlr hp
    | exact h.cores hp | exact h.mac hp | exact h.pke hp | exact h.sec hp | exact h.brd hp | exact h.hbm hp
    | exact h.pad hp | exact h.local_ hp | exact h.mem hp | exact h.dma hp | exact h.fwd hp | exact h.aud hp
    | exact h.vid hp | exact h.tack hp | exact h.mode hp | exact h.sys hp)

/-- An instruction that is not its bundle's last leaves the device with the cores and what its effect may change. -/
theorem issue_nl {e : Piece → Prop} {a d : Dev} (p_cores : e .cores) {i : Issue} {act}
    (hl : i.last = false) (hb : (findCore d i.core.val).issuing = true ∨ badFetch d (findCore d i.core.val) = false)
    (hact : ∀ x, IOnly e a (act d x)) (h : Only e a d) : Only e a (issue d i act) := by
  unfold issue
  extract_lets k x close runs
  have hc : ∀ d, close d = d := by intro d; simp [close, hl]
  have hbf : (!x.issuing && badFetch d x) = false := by rcases hb with h | h <;> simp [x, k, h]
  simp only [hc, hbf]
  split
  · exact h
  · simp only [Bool.false_eq_true, if_false]
    split
    · exact putCore_only p_cores h
    · have := hact x
      revert this
      cases act d x with
      | stall => intro _; exact h
      | fault c aa => intro _; exact putCore_only p_cores h
      | ok dd es => intro g; exact putCore_only p_cores g

end Sys2Proof.Machine
end

