-- ==== Sys2Proof/Laws/State.lean ====
section
/-! SUPPORT. One lemma per field of the device for each shared update, and what a register reads after a write. -/
namespace Sys2Proof.Machine

/-! ### setReg -/

@[simp] theorem setReg_variant (d : Dev) (a : Nat) (v : Word) : (setReg d a v).variant = d.variant := rfl
@[simp] theorem setReg_regsB (d : Dev) (a : Nat) (v : Word) : (setReg d a v).regsB = d.regsB := rfl
@[simp] theorem setReg_latch (d : Dev) (a : Nat) (v : Word) : (setReg d a v).latch = d.latch := rfl
@[simp] theorem setReg_freeCtr (d : Dev) (a : Nat) (v : Word) : (setReg d a v).freeCtr = d.freeCtr := rfl
@[simp] theorem setReg_out (d : Dev) (a : Nat) (v : Word) : (setReg d a v).out = d.out := rfl
@[simp] theorem setReg_tim (d : Dev) (a : Nat) (v : Word) : (setReg d a v).tim = d.tim := rfl
@[simp] theorem setReg_hif (d : Dev) (a : Nat) (v : Word) : (setReg d a v).hif = d.hif := rfl
@[simp] theorem setReg_evt (d : Dev) (a : Nat) (v : Word) : (setReg d a v).evt = d.evt := rfl
@[simp] theorem setReg_ldg (d : Dev) (a : Nat) (v : Word) : (setReg d a v).ldg = d.ldg := rfl
@[simp] theorem setReg_obj (d : Dev) (a : Nat) (v : Word) : (setReg d a v).obj = d.obj := rfl
@[simp] theorem setReg_dlr (d : Dev) (a : Nat) (v : Word) : (setReg d a v).dlr = d.dlr := rfl
@[simp] theorem setReg_cores (d : Dev) (a : Nat) (v : Word) : (setReg d a v).cores = d.cores := rfl
@[simp] theorem setReg_mac (d : Dev) (a : Nat) (v : Word) : (setReg d a v).mac = d.mac := rfl
@[simp] theorem setReg_pke (d : Dev) (a : Nat) (v : Word) : (setReg d a v).pke = d.pke := rfl
@[simp] theorem setReg_sec (d : Dev) (a : Nat) (v : Word) : (setReg d a v).sec = d.sec := rfl
@[simp] theorem setReg_brd (d : Dev) (a : Nat) (v : Word) : (setReg d a v).brd = d.brd := rfl
@[simp] theorem setReg_mem (d : Dev) (a : Nat) (v : Word) : (setReg d a v).mem = d.mem := rfl
@[simp] theorem setReg_dma (d : Dev) (a : Nat) (v : Word) : (setReg d a v).dma = d.dma := rfl
@[simp] theorem setReg_fwd (d : Dev) (a : Nat) (v : Word) : (setReg d a v).fwd = d.fwd := rfl
@[simp] theorem setReg_aud (d : Dev) (a : Nat) (v : Word) : (setReg d a v).aud = d.aud := rfl
@[simp] theorem setReg_vid (d : Dev) (a : Nat) (v : Word) : (setReg d a v).vid = d.vid := rfl
@[simp] theorem setReg_sys (d : Dev) (a : Nat) (v : Word) : (setReg d a v).sys = d.sys := rfl

/-! ### setF -/

@[simp] theorem setF_variant (d : Dev) (a lo len v : Nat) : (setF d a lo len v).variant = d.variant := rfl
@[simp] theorem setF_regsB (d : Dev) (a lo len v : Nat) : (setF d a lo len v).regsB = d.regsB := rfl
@[simp] theorem setF_latch (d : Dev) (a lo len v : Nat) : (setF d a lo len v).latch = d.latch := rfl
@[simp] theorem setF_freeCtr (d : Dev) (a lo len v : Nat) : (setF d a lo len v).freeCtr = d.freeCtr := rfl
@[simp] theorem setF_out (d : Dev) (a lo len v : Nat) : (setF d a lo len v).out = d.out := rfl
@[simp] theorem setF_tim (d : Dev) (a lo len v : Nat) : (setF d a lo len v).tim = d.tim := rfl
@[simp] theorem setF_hif (d : Dev) (a lo len v : Nat) : (setF d a lo len v).hif = d.hif := rfl
@[simp] theorem setF_evt (d : Dev) (a lo len v : Nat) : (setF d a lo len v).evt = d.evt := rfl
@[simp] theorem setF_ldg (d : Dev) (a lo len v : Nat) : (setF d a lo len v).ldg = d.ldg := rfl
@[simp] theorem setF_obj (d : Dev) (a lo len v : Nat) : (setF d a lo len v).obj = d.obj := rfl
@[simp] theorem setF_dlr (d : Dev) (a lo len v : Nat) : (setF d a lo len v).dlr = d.dlr := rfl
@[simp] theorem setF_cores (d : Dev) (a lo len v : Nat) : (setF d a lo len v).cores = d.cores := rfl
@[simp] theorem setF_mac (d : Dev) (a lo len v : Nat) : (setF d a lo len v).mac = d.mac := rfl
@[simp] theorem setF_pke (d : Dev) (a lo len v : Nat) : (setF d a lo len v).pke = d.pke := rfl
@[simp] theorem setF_sec (d : Dev) (a lo len v : Nat) : (setF d a lo len v).sec = d.sec := rfl
@[simp] theorem setF_brd (d : Dev) (a lo len v : Nat) : (setF d a lo len v).brd = d.brd := rfl
@[simp] theorem setF_mem (d : Dev) (a lo len v : Nat) : (setF d a lo len v).mem = d.mem := rfl
@[simp] theorem setF_dma (d : Dev) (a lo len v : Nat) : (setF d a lo len v).dma = d.dma := rfl
@[simp] theorem setF_fwd (d : Dev) (a lo len v : Nat) : (setF d a lo len v).fwd = d.fwd := rfl
@[simp] theorem setF_aud (d : Dev) (a lo len v : Nat) : (setF d a lo len v).aud = d.aud := rfl
@[simp] theorem setF_vid (d : Dev) (a lo len v : Nat) : (setF d a lo len v).vid = d.vid := rfl
@[simp] theorem setF_sys (d : Dev) (a lo len v : Nat) : (setF d a lo len v).sys = d.sys := rfl

/-! ### putB -/

@[simp] theorem putB_variant (d : Dev) (a i : Nat) (b : Bool) : (putB d a i b).variant = d.variant := rfl
@[simp] theorem putB_regsB (d : Dev) (a i : Nat) (b : Bool) : (putB d a i b).regsB = d.regsB := rfl
@[simp] theorem putB_latch (d : Dev) (a i : Nat) (b : Bool) : (putB d a i b).latch = d.latch := rfl
@[simp] theorem putB_freeCtr (d : Dev) (a i : Nat) (b : Bool) : (putB d a i b).freeCtr = d.freeCtr := rfl
@[simp] theorem putB_out (d : Dev) (a i : Nat) (b : Bool) : (putB d a i b).out = d.out := rfl
@[simp] theorem putB_tim (d : Dev) (a i : Nat) (b : Bool) : (putB d a i b).tim = d.tim := rfl
@[simp] theorem putB_hif (d : Dev) (a i : Nat) (b : Bool) : (putB d a i b).hif = d.hif := rfl
@[simp] theorem putB_evt (d : Dev) (a i : Nat) (b : Bool) : (putB d a i b).evt = d.evt := rfl
@[simp] theorem putB_ldg (d : Dev) (a i : Nat) (b : Bool) : (putB d a i b).ldg = d.ldg := rfl
@[simp] theorem putB_obj (d : Dev) (a i : Nat) (b : Bool) : (putB d a i b).obj = d.obj := rfl
@[simp] theorem putB_dlr (d : Dev) (a i : Nat) (b : Bool) : (putB d a i b).dlr = d.dlr := rfl
@[simp] theorem putB_cores (d : Dev) (a i : Nat) (b : Bool) : (putB d a i b).cores = d.cores := rfl
@[simp] theorem putB_mac (d : Dev) (a i : Nat) (b : Bool) : (putB d a i b).mac = d.mac := rfl
@[simp] theorem putB_pke (d : Dev) (a i : Nat) (b : Bool) : (putB d a i b).pke = d.pke := rfl
@[simp] theorem putB_sec (d : Dev) (a i : Nat) (b : Bool) : (putB d a i b).sec = d.sec := rfl
@[simp] theorem putB_brd (d : Dev) (a i : Nat) (b : Bool) : (putB d a i b).brd = d.brd := rfl
@[simp] theorem putB_mem (d : Dev) (a i : Nat) (b : Bool) : (putB d a i b).mem = d.mem := rfl
@[simp] theorem putB_dma (d : Dev) (a i : Nat) (b : Bool) : (putB d a i b).dma = d.dma := rfl
@[simp] theorem putB_fwd (d : Dev) (a i : Nat) (b : Bool) : (putB d a i b).fwd = d.fwd := rfl
@[simp] theorem putB_aud (d : Dev) (a i : Nat) (b : Bool) : (putB d a i b).aud = d.aud := rfl
@[simp] theorem putB_vid (d : Dev) (a i : Nat) (b : Bool) : (putB d a i b).vid = d.vid := rfl
@[simp] theorem putB_sys (d : Dev) (a i : Nat) (b : Bool) : (putB d a i b).sys = d.sys := rfl

/-! ### cnt -/

@[simp] theorem cnt_variant (d : Dev) (a n : Nat) : (cnt d a n).variant = d.variant := rfl
@[simp] theorem cnt_regsB (d : Dev) (a n : Nat) : (cnt d a n).regsB = d.regsB := rfl
@[simp] theorem cnt_latch (d : Dev) (a n : Nat) : (cnt d a n).latch = d.latch := rfl
@[simp] theorem cnt_freeCtr (d : Dev) (a n : Nat) : (cnt d a n).freeCtr = d.freeCtr := rfl
@[simp] theorem cnt_out (d : Dev) (a n : Nat) : (cnt d a n).out = d.out := rfl
@[simp] theorem cnt_tim (d : Dev) (a n : Nat) : (cnt d a n).tim = d.tim := rfl
@[simp] theorem cnt_hif (d : Dev) (a n : Nat) : (cnt d a n).hif = d.hif := rfl
@[simp] theorem cnt_evt (d : Dev) (a n : Nat) : (cnt d a n).evt = d.evt := rfl
@[simp] theorem cnt_ldg (d : Dev) (a n : Nat) : (cnt d a n).ldg = d.ldg := rfl
@[simp] theorem cnt_obj (d : Dev) (a n : Nat) : (cnt d a n).obj = d.obj := rfl
@[simp] theorem cnt_dlr (d : Dev) (a n : Nat) : (cnt d a n).dlr = d.dlr := rfl
@[simp] theorem cnt_cores (d : Dev) (a n : Nat) : (cnt d a n).cores = d.cores := rfl
@[simp] theorem cnt_mac (d : Dev) (a n : Nat) : (cnt d a n).mac = d.mac := rfl
@[simp] theorem cnt_pke (d : Dev) (a n : Nat) : (cnt d a n).pke = d.pke := rfl
@[simp] theorem cnt_sec (d : Dev) (a n : Nat) : (cnt d a n).sec = d.sec := rfl
@[simp] theorem cnt_brd (d : Dev) (a n : Nat) : (cnt d a n).brd = d.brd := rfl
@[simp] theorem cnt_mem (d : Dev) (a n : Nat) : (cnt d a n).mem = d.mem := rfl
@[simp] theorem cnt_dma (d : Dev) (a n : Nat) : (cnt d a n).dma = d.dma := rfl
@[simp] theorem cnt_fwd (d : Dev) (a n : Nat) : (cnt d a n).fwd = d.fwd := rfl
@[simp] theorem cnt_aud (d : Dev) (a n : Nat) : (cnt d a n).aud = d.aud := rfl
@[simp] theorem cnt_vid (d : Dev) (a n : Nat) : (cnt d a n).vid = d.vid := rfl
@[simp] theorem cnt_sys (d : Dev) (a n : Nat) : (cnt d a n).sys = d.sys := rfl

/-! ### setLatch -/

@[simp] theorem setLatch_variant (d : Dev) (a : Nat) (v : Word) : (setLatch d a v).variant = d.variant := rfl
@[simp] theorem setLatch_regs (d : Dev) (a : Nat) (v : Word) : (setLatch d a v).regs = d.regs := rfl
@[simp] theorem setLatch_regsB (d : Dev) (a : Nat) (v : Word) : (setLatch d a v).regsB = d.regsB := rfl
@[simp] theorem setLatch_freeCtr (d : Dev) (a : Nat) (v : Word) : (setLatch d a v).freeCtr = d.freeCtr := rfl
@[simp] theorem setLatch_out (d : Dev) (a : Nat) (v : Word) : (setLatch d a v).out = d.out := rfl
@[simp] theorem setLatch_tim (d : Dev) (a : Nat) (v : Word) : (setLatch d a v).tim = d.tim := rfl
@[simp] theorem setLatch_hif (d : Dev) (a : Nat) (v : Word) : (setLatch d a v).hif = d.hif := rfl
@[simp] theorem setLatch_evt (d : Dev) (a : Nat) (v : Word) : (setLatch d a v).evt = d.evt := rfl
@[simp] theorem setLatch_ldg (d : Dev) (a : Nat) (v : Word) : (setLatch d a v).ldg = d.ldg := rfl
@[simp] theorem setLatch_obj (d : Dev) (a : Nat) (v : Word) : (setLatch d a v).obj = d.obj := rfl
@[simp] theorem setLatch_dlr (d : Dev) (a : Nat) (v : Word) : (setLatch d a v).dlr = d.dlr := rfl
@[simp] theorem setLatch_cores (d : Dev) (a : Nat) (v : Word) : (setLatch d a v).cores = d.cores := rfl
@[simp] theorem setLatch_mac (d : Dev) (a : Nat) (v : Word) : (setLatch d a v).mac = d.mac := rfl
@[simp] theorem setLatch_pke (d : Dev) (a : Nat) (v : Word) : (setLatch d a v).pke = d.pke := rfl
@[simp] theorem setLatch_sec (d : Dev) (a : Nat) (v : Word) : (setLatch d a v).sec = d.sec := rfl
@[simp] theorem setLatch_brd (d : Dev) (a : Nat) (v : Word) : (setLatch d a v).brd = d.brd := rfl
@[simp] theorem setLatch_mem (d : Dev) (a : Nat) (v : Word) : (setLatch d a v).mem = d.mem := rfl
@[simp] theorem setLatch_dma (d : Dev) (a : Nat) (v : Word) : (setLatch d a v).dma = d.dma := rfl
@[simp] theorem setLatch_fwd (d : Dev) (a : Nat) (v : Word) : (setLatch d a v).fwd = d.fwd := rfl
@[simp] theorem setLatch_aud (d : Dev) (a : Nat) (v : Word) : (setLatch d a v).aud = d.aud := rfl
@[simp] theorem setLatch_vid (d : Dev) (a : Nat) (v : Word) : (setLatch d a v).vid = d.vid := rfl
@[simp] theorem setLatch_sys (d : Dev) (a : Nat) (v : Word) : (setLatch d a v).sys = d.sys := rfl

/-! ### emitOut -/

@[simp] theorem emitOut_variant (d : Dev) (o : Out) : (emitOut d o).variant = d.variant := rfl
@[simp] theorem emitOut_regs (d : Dev) (o : Out) : (emitOut d o).regs = d.regs := rfl
@[simp] theorem emitOut_regsB (d : Dev) (o : Out) : (emitOut d o).regsB = d.regsB := rfl
@[simp] theorem emitOut_latch (d : Dev) (o : Out) : (emitOut d o).latch = d.latch := rfl
@[simp] theorem emitOut_freeCtr (d : Dev) (o : Out) : (emitOut d o).freeCtr = d.freeCtr := rfl
@[simp] theorem emitOut_tim (d : Dev) (o : Out) : (emitOut d o).tim = d.tim := rfl
@[simp] theorem emitOut_hif (d : Dev) (o : Out) : (emitOut d o).hif = d.hif := rfl
@[simp] theorem emitOut_evt (d : Dev) (o : Out) : (emitOut d o).evt = d.evt := rfl
@[simp] theorem emitOut_ldg (d : Dev) (o : Out) : (emitOut d o).ldg = d.ldg := rfl
@[simp] theorem emitOut_obj (d : Dev) (o : Out) : (emitOut d o).obj = d.obj := rfl
@[simp] theorem emitOut_dlr (d : Dev) (o : Out) : (emitOut d o).dlr = d.dlr := rfl
@[simp] theorem emitOut_cores (d : Dev) (o : Out) : (emitOut d o).cores = d.cores := rfl
@[simp] theorem emitOut_mac (d : Dev) (o : Out) : (emitOut d o).mac = d.mac := rfl
@[simp] theorem emitOut_pke (d : Dev) (o : Out) : (emitOut d o).pke = d.pke := rfl
@[simp] theorem emitOut_sec (d : Dev) (o : Out) : (emitOut d o).sec = d.sec := rfl
@[simp] theorem emitOut_brd (d : Dev) (o : Out) : (emitOut d o).brd = d.brd := rfl
@[simp] theorem emitOut_mem (d : Dev) (o : Out) : (emitOut d o).mem = d.mem := rfl
@[simp] theorem emitOut_dma (d : Dev) (o : Out) : (emitOut d o).dma = d.dma := rfl
@[simp] theorem emitOut_fwd (d : Dev) (o : Out) : (emitOut d o).fwd = d.fwd := rfl
@[simp] theorem emitOut_aud (d : Dev) (o : Out) : (emitOut d o).aud = d.aud := rfl
@[simp] theorem emitOut_vid (d : Dev) (o : Out) : (emitOut d o).vid = d.vid := rfl
@[simp] theorem emitOut_sys (d : Dev) (o : Out) : (emitOut d o).sys = d.sys := rfl

/-! ### drawFree -/

@[simp] theorem drawFree_variant (d : Dev) (w : Nat) : ((drawFree d w).2).variant = d.variant := rfl
@[simp] theorem drawFree_regs (d : Dev) (w : Nat) : ((drawFree d w).2).regs = d.regs := rfl
@[simp] theorem drawFree_regsB (d : Dev) (w : Nat) : ((drawFree d w).2).regsB = d.regsB := rfl
@[simp] theorem drawFree_latch (d : Dev) (w : Nat) : ((drawFree d w).2).latch = d.latch := rfl
@[simp] theorem drawFree_out (d : Dev) (w : Nat) : ((drawFree d w).2).out = d.out := rfl
@[simp] theorem drawFree_tim (d : Dev) (w : Nat) : ((drawFree d w).2).tim = d.tim := rfl
@[simp] theorem drawFree_hif (d : Dev) (w : Nat) : ((drawFree d w).2).hif = d.hif := rfl
@[simp] theorem drawFree_evt (d : Dev) (w : Nat) : ((drawFree d w).2).evt = d.evt := rfl
@[simp] theorem drawFree_ldg (d : Dev) (w : Nat) : ((drawFree d w).2).ldg = d.ldg := rfl
@[simp] theorem drawFree_obj (d : Dev) (w : Nat) : ((drawFree d w).2).obj = d.obj := rfl
@[simp] theorem drawFree_dlr (d : Dev) (w : Nat) : ((drawFree d w).2).dlr = d.dlr := rfl
@[simp] theorem drawFree_cores (d : Dev) (w : Nat) : ((drawFree d w).2).cores = d.cores := rfl
@[simp] theorem drawFree_mac (d : Dev) (w : Nat) : ((drawFree d w).2).mac = d.mac := rfl
@[simp] theorem drawFree_pke (d : Dev) (w : Nat) : ((drawFree d w).2).pke = d.pke := rfl
@[simp] theorem drawFree_sec (d : Dev) (w : Nat) : ((drawFree d w).2).sec = d.sec := rfl
@[simp] theorem drawFree_brd (d : Dev) (w : Nat) : ((drawFree d w).2).brd = d.brd := rfl
@[simp] theorem drawFree_mem (d : Dev) (w : Nat) : ((drawFree d w).2).mem = d.mem := rfl
@[simp] theorem drawFree_dma (d : Dev) (w : Nat) : ((drawFree d w).2).dma = d.dma := rfl
@[simp] theorem drawFree_fwd (d : Dev) (w : Nat) : ((drawFree d w).2).fwd = d.fwd := rfl
@[simp] theorem drawFree_aud (d : Dev) (w : Nat) : ((drawFree d w).2).aud = d.aud := rfl
@[simp] theorem drawFree_vid (d : Dev) (w : Nat) : ((drawFree d w).2).vid = d.vid := rfl
@[simp] theorem drawFree_sys (d : Dev) (w : Nat) : ((drawFree d w).2).sys = d.sys := rfl

/-! ### putRing -/

@[simp] theorem putRing_variant (d : Dev) (x : RingRt) : (putRing d x).variant = d.variant := rfl
@[simp] theorem putRing_regs (d : Dev) (x : RingRt) : (putRing d x).regs = d.regs := rfl
@[simp] theorem putRing_regsB (d : Dev) (x : RingRt) : (putRing d x).regsB = d.regsB := rfl
@[simp] theorem putRing_latch (d : Dev) (x : RingRt) : (putRing d x).latch = d.latch := rfl
@[simp] theorem putRing_freeCtr (d : Dev) (x : RingRt) : (putRing d x).freeCtr = d.freeCtr := rfl
@[simp] theorem putRing_out (d : Dev) (x : RingRt) : (putRing d x).out = d.out := rfl
@[simp] theorem putRing_tim (d : Dev) (x : RingRt) : (putRing d x).tim = d.tim := rfl
@[simp] theorem putRing_evt (d : Dev) (x : RingRt) : (putRing d x).evt = d.evt := rfl
@[simp] theorem putRing_ldg (d : Dev) (x : RingRt) : (putRing d x).ldg = d.ldg := rfl
@[simp] theorem putRing_obj (d : Dev) (x : RingRt) : (putRing d x).obj = d.obj := rfl
@[simp] theorem putRing_dlr (d : Dev) (x : RingRt) : (putRing d x).dlr = d.dlr := rfl
@[simp] theorem putRing_cores (d : Dev) (x : RingRt) : (putRing d x).cores = d.cores := rfl
@[simp] theorem putRing_mac (d : Dev) (x : RingRt) : (putRing d x).mac = d.mac := rfl
@[simp] theorem putRing_pke (d : Dev) (x : RingRt) : (putRing d x).pke = d.pke := rfl
@[simp] theorem putRing_sec (d : Dev) (x : RingRt) : (putRing d x).sec = d.sec := rfl
@[simp] theorem putRing_brd (d : Dev) (x : RingRt) : (putRing d x).brd = d.brd := rfl
@[simp] theorem putRing_mem (d : Dev) (x : RingRt) : (putRing d x).mem = d.mem := rfl
@[simp] theorem putRing_dma (d : Dev) (x : RingRt) : (putRing d x).dma = d.dma := rfl
@[simp] theorem putRing_fwd (d : Dev) (x : RingRt) : (putRing d x).fwd = d.fwd := rfl
@[simp] theorem putRing_aud (d : Dev) (x : RingRt) : (putRing d x).aud = d.aud := rfl
@[simp] theorem putRing_vid (d : Dev) (x : RingRt) : (putRing d x).vid = d.vid := rfl
@[simp] theorem putRing_sys (d : Dev) (x : RingRt) : (putRing d x).sys = d.sys := rfl

/-! ### putCmd -/

@[simp] theorem putCmd_variant (d : Dev) (c : Cmd) : (putCmd d c).variant = d.variant := rfl
@[simp] theorem putCmd_regs (d : Dev) (c : Cmd) : (putCmd d c).regs = d.regs := rfl
@[simp] theorem putCmd_regsB (d : Dev) (c : Cmd) : (putCmd d c).regsB = d.regsB := rfl
@[simp] theorem putCmd_latch (d : Dev) (c : Cmd) : (putCmd d c).latch = d.latch := rfl
@[simp] theorem putCmd_freeCtr (d : Dev) (c : Cmd) : (putCmd d c).freeCtr = d.freeCtr := rfl
@[simp] theorem putCmd_out (d : Dev) (c : Cmd) : (putCmd d c).out = d.out := rfl
@[simp] theorem putCmd_tim (d : Dev) (c : Cmd) : (putCmd d c).tim = d.tim := rfl
@[simp] theorem putCmd_evt (d : Dev) (c : Cmd) : (putCmd d c).evt = d.evt := rfl
@[simp] theorem putCmd_ldg (d : Dev) (c : Cmd) : (putCmd d c).ldg = d.ldg := rfl
@[simp] theorem putCmd_obj (d : Dev) (c : Cmd) : (putCmd d c).obj = d.obj := rfl
@[simp] theorem putCmd_dlr (d : Dev) (c : Cmd) : (putCmd d c).dlr = d.dlr := rfl
@[simp] theorem putCmd_cores (d : Dev) (c : Cmd) : (putCmd d c).cores = d.cores := rfl
@[simp] theorem putCmd_mac (d : Dev) (c : Cmd) : (putCmd d c).mac = d.mac := rfl
@[simp] theorem putCmd_pke (d : Dev) (c : Cmd) : (putCmd d c).pke = d.pke := rfl
@[simp] theorem putCmd_sec (d : Dev) (c : Cmd) : (putCmd d c).sec = d.sec := rfl
@[simp] theorem putCmd_brd (d : Dev) (c : Cmd) : (putCmd d c).brd = d.brd := rfl
@[simp] theorem putCmd_mem (d : Dev) (c : Cmd) : (putCmd d c).mem = d.mem := rfl
@[simp] theorem putCmd_dma (d : Dev) (c : Cmd) : (putCmd d c).dma = d.dma := rfl
@[simp] theorem putCmd_fwd (d : Dev) (c : Cmd) : (putCmd d c).fwd = d.fwd := rfl
@[simp] theorem putCmd_aud (d : Dev) (c : Cmd) : (putCmd d c).aud = d.aud := rfl
@[simp] theorem putCmd_vid (d : Dev) (c : Cmd) : (putCmd d c).vid = d.vid := rfl
@[simp] theorem putCmd_sys (d : Dev) (c : Cmd) : (putCmd d c).sys = d.sys := rfl

/-! ### putCard -/

@[simp] theorem putCard_variant (d : Dev) (c : Card) : (putCard d c).variant = d.variant := rfl
@[simp] theorem putCard_regs (d : Dev) (c : Card) : (putCard d c).regs = d.regs := rfl
@[simp] theorem putCard_regsB (d : Dev) (c : Card) : (putCard d c).regsB = d.regsB := rfl
@[simp] theorem putCard_latch (d : Dev) (c : Card) : (putCard d c).latch = d.latch := rfl
@[simp] theorem putCard_freeCtr (d : Dev) (c : Card) : (putCard d c).freeCtr = d.freeCtr := rfl
@[simp] theorem putCard_out (d : Dev) (c : Card) : (putCard d c).out = d.out := rfl
@[simp] theorem putCard_tim (d : Dev) (c : Card) : (putCard d c).tim = d.tim := rfl
@[simp] theorem putCard_hif (d : Dev) (c : Card) : (putCard d c).hif = d.hif := rfl
@[simp] theorem putCard_evt (d : Dev) (c : Card) : (putCard d c).evt = d.evt := rfl
@[simp] theorem putCard_ldg (d : Dev) (c : Card) : (putCard d c).ldg = d.ldg := rfl
@[simp] theorem putCard_obj (d : Dev) (c : Card) : (putCard d c).obj = d.obj := rfl
@[simp] theorem putCard_cores (d : Dev) (c : Card) : (putCard d c).cores = d.cores := rfl
@[simp] theorem putCard_mac (d : Dev) (c : Card) : (putCard d c).mac = d.mac := rfl
@[simp] theorem putCard_pke (d : Dev) (c : Card) : (putCard d c).pke = d.pke := rfl
@[simp] theorem putCard_sec (d : Dev) (c : Card) : (putCard d c).sec = d.sec := rfl
@[simp] theorem putCard_brd (d : Dev) (c : Card) : (putCard d c).brd = d.brd := rfl
@[simp] theorem putCard_mem (d : Dev) (c : Card) : (putCard d c).mem = d.mem := rfl
@[simp] theorem putCard_dma (d : Dev) (c : Card) : (putCard d c).dma = d.dma := rfl
@[simp] theorem putCard_fwd (d : Dev) (c : Card) : (putCard d c).fwd = d.fwd := rfl
@[simp] theorem putCard_aud (d : Dev) (c : Card) : (putCard d c).aud = d.aud := rfl
@[simp] theorem putCard_vid (d : Dev) (c : Card) : (putCard d c).vid = d.vid := rfl
@[simp] theorem putCard_sys (d : Dev) (c : Card) : (putCard d c).sys = d.sys := rfl

/-! ### putFlow -/

@[simp] theorem putFlow_variant (d : Dev) (f : Flow) : (putFlow d f).variant = d.variant := rfl
@[simp] theorem putFlow_regs (d : Dev) (f : Flow) : (putFlow d f).regs = d.regs := rfl
@[simp] theorem putFlow_regsB (d : Dev) (f : Flow) : (putFlow d f).regsB = d.regsB := rfl
@[simp] theorem putFlow_latch (d : Dev) (f : Flow) : (putFlow d f).latch = d.latch := rfl
@[simp] theorem putFlow_freeCtr (d : Dev) (f : Flow) : (putFlow d f).freeCtr = d.freeCtr := rfl
@[simp] theorem putFlow_out (d : Dev) (f : Flow) : (putFlow d f).out = d.out := rfl
@[simp] theorem putFlow_tim (d : Dev) (f : Flow) : (putFlow d f).tim = d.tim := rfl
@[simp] theorem putFlow_hif (d : Dev) (f : Flow) : (putFlow d f).hif = d.hif := rfl
@[simp] theorem putFlow_evt (d : Dev) (f : Flow) : (putFlow d f).evt = d.evt := rfl
@[simp] theorem putFlow_ldg (d : Dev) (f : Flow) : (putFlow d f).ldg = d.ldg := rfl
@[simp] theorem putFlow_obj (d : Dev) (f : Flow) : (putFlow d f).obj = d.obj := rfl
@[simp] theorem putFlow_cores (d : Dev) (f : Flow) : (putFlow d f).cores = d.cores := rfl
@[simp] theorem putFlow_mac (d : Dev) (f : Flow) : (putFlow d f).mac = d.mac := rfl
@[simp] theorem putFlow_pke (d : Dev) (f : Flow) : (putFlow d f).pke = d.pke := rfl
@[simp] theorem putFlow_sec (d : Dev) (f : Flow) : (putFlow d f).sec = d.sec := rfl
@[simp] theorem putFlow_brd (d : Dev) (f : Flow) : (putFlow d f).brd = d.brd := rfl
@[simp] theorem putFlow_mem (d : Dev) (f : Flow) : (putFlow d f).mem = d.mem := rfl
@[simp] theorem putFlow_dma (d : Dev) (f : Flow) : (putFlow d f).dma = d.dma := rfl
@[simp] theorem putFlow_fwd (d : Dev) (f : Flow) : (putFlow d f).fwd = d.fwd := rfl
@[simp] theorem putFlow_aud (d : Dev) (f : Flow) : (putFlow d f).aud = d.aud := rfl
@[simp] theorem putFlow_vid (d : Dev) (f : Flow) : (putFlow d f).vid = d.vid := rfl
@[simp] theorem putFlow_sys (d : Dev) (f : Flow) : (putFlow d f).sys = d.sys := rfl

/-! ### putCore -/

@[simp] theorem putCore_variant (d : Dev) (c : Core) : (putCore d c).variant = d.variant := rfl
@[simp] theorem putCore_regs (d : Dev) (c : Core) : (putCore d c).regs = d.regs := rfl
@[simp] theorem putCore_regsB (d : Dev) (c : Core) : (putCore d c).regsB = d.regsB := rfl
@[simp] theorem putCore_latch (d : Dev) (c : Core) : (putCore d c).latch = d.latch := rfl
@[simp] theorem putCore_freeCtr (d : Dev) (c : Core) : (putCore d c).freeCtr = d.freeCtr := rfl
@[simp] theorem putCore_out (d : Dev) (c : Core) : (putCore d c).out = d.out := rfl
@[simp] theorem putCore_tim (d : Dev) (c : Core) : (putCore d c).tim = d.tim := rfl
@[simp] theorem putCore_hif (d : Dev) (c : Core) : (putCore d c).hif = d.hif := rfl
@[simp] theorem putCore_evt (d : Dev) (c : Core) : (putCore d c).evt = d.evt := rfl
@[simp] theorem putCore_ldg (d : Dev) (c : Core) : (putCore d c).ldg = d.ldg := rfl
@[simp] theorem putCore_obj (d : Dev) (c : Core) : (putCore d c).obj = d.obj := rfl
@[simp] theorem putCore_dlr (d : Dev) (c : Core) : (putCore d c).dlr = d.dlr := rfl
@[simp] theorem putCore_mac (d : Dev) (c : Core) : (putCore d c).mac = d.mac := rfl
@[simp] theorem putCore_pke (d : Dev) (c : Core) : (putCore d c).pke = d.pke := rfl
@[simp] theorem putCore_sec (d : Dev) (c : Core) : (putCore d c).sec = d.sec := rfl
@[simp] theorem putCore_brd (d : Dev) (c : Core) : (putCore d c).brd = d.brd := rfl
@[simp] theorem putCore_mem (d : Dev) (c : Core) : (putCore d c).mem = d.mem := rfl
@[simp] theorem putCore_dma (d : Dev) (c : Core) : (putCore d c).dma = d.dma := rfl
@[simp] theorem putCore_fwd (d : Dev) (c : Core) : (putCore d c).fwd = d.fwd := rfl
@[simp] theorem putCore_aud (d : Dev) (c : Core) : (putCore d c).aud = d.aud := rfl
@[simp] theorem putCore_vid (d : Dev) (c : Core) : (putCore d c).vid = d.vid := rfl
@[simp] theorem putCore_sys (d : Dev) (c : Core) : (putCore d c).sys = d.sys := rfl

/-! ### putBrd -/

@[simp] theorem putBrd_variant (d : Dev) (p : Nat) (b : BrdPort) : (putBrd d p b).variant = d.variant := rfl
@[simp] theorem putBrd_regs (d : Dev) (p : Nat) (b : BrdPort) : (putBrd d p b).regs = d.regs := rfl
@[simp] theorem putBrd_regsB (d : Dev) (p : Nat) (b : BrdPort) : (putBrd d p b).regsB = d.regsB := rfl
@[simp] theorem putBrd_latch (d : Dev) (p : Nat) (b : BrdPort) : (putBrd d p b).latch = d.latch := rfl
@[simp] theorem putBrd_freeCtr (d : Dev) (p : Nat) (b : BrdPort) : (putBrd d p b).freeCtr = d.freeCtr := rfl
@[simp] theorem putBrd_out (d : Dev) (p : Nat) (b : BrdPort) : (putBrd d p b).out = d.out := rfl
@[simp] theorem putBrd_tim (d : Dev) (p : Nat) (b : BrdPort) : (putBrd d p b).tim = d.tim := rfl
@[simp] theorem putBrd_hif (d : Dev) (p : Nat) (b : BrdPort) : (putBrd d p b).hif = d.hif := rfl
@[simp] theorem putBrd_evt (d : Dev) (p : Nat) (b : BrdPort) : (putBrd d p b).evt = d.evt := rfl
@[simp] theorem putBrd_ldg (d : Dev) (p : Nat) (b : BrdPort) : (putBrd d p b).ldg = d.ldg := rfl
@[simp] theorem putBrd_obj (d : Dev) (p : Nat) (b : BrdPort) : (putBrd d p b).obj = d.obj := rfl
@[simp] theorem putBrd_dlr (d : Dev) (p : Nat) (b : BrdPort) : (putBrd d p b).dlr = d.dlr := rfl
@[simp] theorem putBrd_cores (d : Dev) (p : Nat) (b : BrdPort) : (putBrd d p b).cores = d.cores := rfl
@[simp] theorem putBrd_mac (d : Dev) (p : Nat) (b : BrdPort) : (putBrd d p b).mac = d.mac := rfl
@[simp] theorem putBrd_pke (d : Dev) (p : Nat) (b : BrdPort) : (putBrd d p b).pke = d.pke := rfl
@[simp] theorem putBrd_sec (d : Dev) (p : Nat) (b : BrdPort) : (putBrd d p b).sec = d.sec := rfl
@[simp] theorem putBrd_mem (d : Dev) (p : Nat) (b : BrdPort) : (putBrd d p b).mem = d.mem := rfl
@[simp] theorem putBrd_dma (d : Dev) (p : Nat) (b : BrdPort) : (putBrd d p b).dma = d.dma := rfl
@[simp] theorem putBrd_fwd (d : Dev) (p : Nat) (b : BrdPort) : (putBrd d p b).fwd = d.fwd := rfl
@[simp] theorem putBrd_aud (d : Dev) (p : Nat) (b : BrdPort) : (putBrd d p b).aud = d.aud := rfl
@[simp] theorem putBrd_vid (d : Dev) (p : Nat) (b : BrdPort) : (putBrd d p b).vid = d.vid := rfl
@[simp] theorem putBrd_sys (d : Dev) (p : Nat) (b : BrdPort) : (putBrd d p b).sys = d.sys := rfl

/-! ### putPort -/

@[simp] theorem putPort_variant (d : Dev) (p : Nat) (x : MacPort) : (putPort d p x).variant = d.variant := rfl
@[simp] theorem putPort_regs (d : Dev) (p : Nat) (x : MacPort) : (putPort d p x).regs = d.regs := rfl
@[simp] theorem putPort_regsB (d : Dev) (p : Nat) (x : MacPort) : (putPort d p x).regsB = d.regsB := rfl
@[simp] theorem putPort_latch (d : Dev) (p : Nat) (x : MacPort) : (putPort d p x).latch = d.latch := rfl
@[simp] theorem putPort_freeCtr (d : Dev) (p : Nat) (x : MacPort) : (putPort d p x).freeCtr = d.freeCtr := rfl
@[simp] theorem putPort_out (d : Dev) (p : Nat) (x : MacPort) : (putPort d p x).out = d.out := rfl
@[simp] theorem putPort_tim (d : Dev) (p : Nat) (x : MacPort) : (putPort d p x).tim = d.tim := rfl
@[simp] theorem putPort_hif (d : Dev) (p : Nat) (x : MacPort) : (putPort d p x).hif = d.hif := rfl
@[simp] theorem putPort_evt (d : Dev) (p : Nat) (x : MacPort) : (putPort d p x).evt = d.evt := rfl
@[simp] theorem putPort_ldg (d : Dev) (p : Nat) (x : MacPort) : (putPort d p x).ldg = d.ldg := rfl
@[simp] theorem putPort_obj (d : Dev) (p : Nat) (x : MacPort) : (putPort d p x).obj = d.obj := rfl
@[simp] theorem putPort_dlr (d : Dev) (p : Nat) (x : MacPort) : (putPort d p x).dlr = d.dlr := rfl
@[simp] theorem putPort_cores (d : Dev) (p : Nat) (x : MacPort) : (putPort d p x).cores = d.cores := rfl
@[simp] theorem putPort_pke (d : Dev) (p : Nat) (x : MacPort) : (putPort d p x).pke = d.pke := rfl
@[simp] theorem putPort_sec (d : Dev) (p : Nat) (x : MacPort) : (putPort d p x).sec = d.sec := rfl
@[simp] theorem putPort_brd (d : Dev) (p : Nat) (x : MacPort) : (putPort d p x).brd = d.brd := rfl
@[simp] theorem putPort_mem (d : Dev) (p : Nat) (x : MacPort) : (putPort d p x).mem = d.mem := rfl
@[simp] theorem putPort_dma (d : Dev) (p : Nat) (x : MacPort) : (putPort d p x).dma = d.dma := rfl
@[simp] theorem putPort_fwd (d : Dev) (p : Nat) (x : MacPort) : (putPort d p x).fwd = d.fwd := rfl
@[simp] theorem putPort_aud (d : Dev) (p : Nat) (x : MacPort) : (putPort d p x).aud = d.aud := rfl
@[simp] theorem putPort_vid (d : Dev) (p : Nat) (x : MacPort) : (putPort d p x).vid = d.vid := rfl
@[simp] theorem putPort_sys (d : Dev) (p : Nat) (x : MacPort) : (putPort d p x).sys = d.sys := rfl

/-! ### putPulse -/

@[simp] theorem putPulse_variant (d : Dev) (g : Nat) (x : Pulse) : (putPulse d g x).variant = d.variant := rfl
@[simp] theorem putPulse_regs (d : Dev) (g : Nat) (x : Pulse) : (putPulse d g x).regs = d.regs := rfl
@[simp] theorem putPulse_regsB (d : Dev) (g : Nat) (x : Pulse) : (putPulse d g x).regsB = d.regsB := rfl
@[simp] theorem putPulse_latch (d : Dev) (g : Nat) (x : Pulse) : (putPulse d g x).latch = d.latch := rfl
@[simp] theorem putPulse_freeCtr (d : Dev) (g : Nat) (x : Pulse) : (putPulse d g x).freeCtr = d.freeCtr := rfl
@[simp] theorem putPulse_out (d : Dev) (g : Nat) (x : Pulse) : (putPulse d g x).out = d.out := rfl
@[simp] theorem putPulse_hif (d : Dev) (g : Nat) (x : Pulse) : (putPulse d g x).hif = d.hif := rfl
@[simp] theorem putPulse_evt (d : Dev) (g : Nat) (x : Pulse) : (putPulse d g x).evt = d.evt := rfl
@[simp] theorem putPulse_ldg (d : Dev) (g : Nat) (x : Pulse) : (putPulse d g x).ldg = d.ldg := rfl
@[simp] theorem putPulse_obj (d : Dev) (g : Nat) (x : Pulse) : (putPulse d g x).obj = d.obj := rfl
@[simp] theorem putPulse_dlr (d : Dev) (g : Nat) (x : Pulse) : (putPulse d g x).dlr = d.dlr := rfl
@[simp] theorem putPulse_cores (d : Dev) (g : Nat) (x : Pulse) : (putPulse d g x).cores = d.cores := rfl
@[simp] theorem putPulse_mac (d : Dev) (g : Nat) (x : Pulse) : (putPulse d g x).mac = d.mac := rfl
@[simp] theorem putPulse_pke (d : Dev) (g : Nat) (x : Pulse) : (putPulse d g x).pke = d.pke := rfl
@[simp] theorem putPulse_sec (d : Dev) (g : Nat) (x : Pulse) : (putPulse d g x).sec = d.sec := rfl
@[simp] theorem putPulse_brd (d : Dev) (g : Nat) (x : Pulse) : (putPulse d g x).brd = d.brd := rfl
@[simp] theorem putPulse_mem (d : Dev) (g : Nat) (x : Pulse) : (putPulse d g x).mem = d.mem := rfl
@[simp] theorem putPulse_dma (d : Dev) (g : Nat) (x : Pulse) : (putPulse d g x).dma = d.dma := rfl
@[simp] theorem putPulse_fwd (d : Dev) (g : Nat) (x : Pulse) : (putPulse d g x).fwd = d.fwd := rfl
@[simp] theorem putPulse_aud (d : Dev) (g : Nat) (x : Pulse) : (putPulse d g x).aud = d.aud := rfl
@[simp] theorem putPulse_vid (d : Dev) (g : Nat) (x : Pulse) : (putPulse d g x).vid = d.vid := rfl
@[simp] theorem putPulse_sys (d : Dev) (g : Nat) (x : Pulse) : (putPulse d g x).sys = d.sys := rfl

/-! ### putTack -/

@[simp] theorem putTack_variant (d : Dev) (m : Sparse 8) : (putTack d m).variant = d.variant := rfl
@[simp] theorem putTack_regs (d : Dev) (m : Sparse 8) : (putTack d m).regs = d.regs := rfl
@[simp] theorem putTack_regsB (d : Dev) (m : Sparse 8) : (putTack d m).regsB = d.regsB := rfl
@[simp] theorem putTack_latch (d : Dev) (m : Sparse 8) : (putTack d m).latch = d.latch := rfl
@[simp] theorem putTack_freeCtr (d : Dev) (m : Sparse 8) : (putTack d m).freeCtr = d.freeCtr := rfl
@[simp] theorem putTack_out (d : Dev) (m : Sparse 8) : (putTack d m).out = d.out := rfl
@[simp] theorem putTack_tim (d : Dev) (m : Sparse 8) : (putTack d m).tim = d.tim := rfl
@[simp] theorem putTack_hif (d : Dev) (m : Sparse 8) : (putTack d m).hif = d.hif := rfl
@[simp] theorem putTack_evt (d : Dev) (m : Sparse 8) : (putTack d m).evt = d.evt := rfl
@[simp] theorem putTack_ldg (d : Dev) (m : Sparse 8) : (putTack d m).ldg = d.ldg := rfl
@[simp] theorem putTack_obj (d : Dev) (m : Sparse 8) : (putTack d m).obj = d.obj := rfl
@[simp] theorem putTack_dlr (d : Dev) (m : Sparse 8) : (putTack d m).dlr = d.dlr := rfl
@[simp] theorem putTack_cores (d : Dev) (m : Sparse 8) : (putTack d m).cores = d.cores := rfl
@[simp] theorem putTack_mac (d : Dev) (m : Sparse 8) : (putTack d m).mac = d.mac := rfl
@[simp] theorem putTack_pke (d : Dev) (m : Sparse 8) : (putTack d m).pke = d.pke := rfl
@[simp] theorem putTack_sec (d : Dev) (m : Sparse 8) : (putTack d m).sec = d.sec := rfl
@[simp] theorem putTack_brd (d : Dev) (m : Sparse 8) : (putTack d m).brd = d.brd := rfl
@[simp] theorem putTack_mem (d : Dev) (m : Sparse 8) : (putTack d m).mem = d.mem := rfl
@[simp] theorem putTack_dma (d : Dev) (m : Sparse 8) : (putTack d m).dma = d.dma := rfl
@[simp] theorem putTack_fwd (d : Dev) (m : Sparse 8) : (putTack d m).fwd = d.fwd := rfl
@[simp] theorem putTack_aud (d : Dev) (m : Sparse 8) : (putTack d m).aud = d.aud := rfl
@[simp] theorem putTack_vid (d : Dev) (m : Sparse 8) : (putTack d m).vid = d.vid := rfl

/-! ### Registers -/

@[simp] theorem emitOut_out (d : Dev) (o : Out) : (emitOut d o).out = d.out ++ [o] := rfl
@[simp] theorem drawFree_freeCtr (d : Dev) (w : Nat) : (drawFree d w).2.freeCtr = d.freeCtr + 1 := rfl
@[simp] theorem drawFree_value (d : Dev) (w : Nat) : (drawFree d w).1 = Config.freeValue w d.freeCtr := rfl

/-- What a register reads after a write to any register. -/
theorem reg_setReg {d : Dev} (w : spWf d.regs = true) (a b : Nat) (v : Word) :
    reg (setReg d a v) b = if b = a then v else reg d b := by
  unfold reg setReg
  simp only [spGet_put w]
  split
  · rename_i h
    rw [h, BitVec.xor_assoc, BitVec.xor_self, BitVec.xor_zero]
  · rfl
theorem reg_setReg_same {d : Dev} (w : spWf d.regs = true) (a : Nat) (v : Word) : reg (setReg d a v) a = v := by
  rw [reg_setReg w, if_pos rfl]
theorem reg_setReg_other {d : Dev} (w : spWf d.regs = true) {a b : Nat} (h : b ≠ a) (v : Word) : reg (setReg d a v) b = reg d b := by
  rw [reg_setReg w, if_neg h]
/-- A register write keeps the register file's canonical form. -/
theorem setReg_wf {d : Dev} (w : spWf d.regs = true) (a : Nat) (v : Word) : spWf (setReg d a v).regs = true := spWf_put w _ _
theorem setF_wf {d : Dev} (w : spWf d.regs = true) (a lo len v : Nat) : spWf (setF d a lo len v).regs = true := spWf_put w _ _
theorem putB_wf {d : Dev} (w : spWf d.regs = true) (a i : Nat) (b : Bool) : spWf (putB d a i b).regs = true := spWf_put w _ _
theorem reg_setF_other {d : Dev} (w : spWf d.regs = true) {a b : Nat} (h : b ≠ a) (lo len v : Nat) : reg (setF d a lo len v) b = reg d b :=
  reg_setReg_other w h _
theorem reg_setF_same {d : Dev} (w : spWf d.regs = true) (a lo len v : Nat) : reg (setF d a lo len v) a = setFld (reg d a) lo len v :=
  reg_setReg_same w _ _
theorem reg_cnt {d : Dev} (w : spWf d.regs = true) (a n b : Nat) : reg (cnt d a n) b = if b = a then reg d a + wd n else reg d b :=
  reg_setReg w _ _ _

/-- Bit by bit: a field write sets the bits of the field and keeps the rest. -/
theorem getLsbD_setFld (x : Word) (lo len v i : Nat) (hi : i < 32) :
    (setFld x lo len v).getLsbD i = if lo ≤ i ∧ i < lo + len then v.testBit (i - lo) else x.getLsbD i := by
  unfold setFld mask
  simp only [BitVec.getLsbD_or, BitVec.getLsbD_and, BitVec.getLsbD_not, BitVec.getLsbD_ofNat, hi, decide_true, Bool.true_and,
    Nat.testBit_shiftLeft, Nat.testBit_two_pow_sub_one, Nat.testBit_mod_two_pow]
  by_cases h1 : lo ≤ i
  · by_cases h2 : i < lo + len
    · have h3 : i - lo < len := by omega
      simp [h1, h2, h3]
    · have h3 : ¬ i - lo < len := by omega
      simp [h1, h2, h3]
  · simp [h1]
/-- A field read bit by bit. -/
theorem testBit_fld (x : Word) (lo len i : Nat) : (fld x lo len).testBit i = (decide (i < len) && x.getLsbD (lo + i)) := by
  unfold fld
  rw [Nat.testBit_mod_two_pow, Nat.testBit_shiftRight]
  rfl
/-- The field that was written. -/
theorem fld_setFld_same (x : Word) (lo len v : Nat) (h : lo + len ≤ 32) : fld (setFld x lo len v) lo len = v % 2 ^ len := by
  refine Nat.eq_of_testBit_eq fun i => ?_
  rw [testBit_fld, Nat.testBit_mod_two_pow]
  by_cases hi : i < len
  · rw [getLsbD_setFld _ _ _ _ _ (by omega), if_pos (by omega)]
    simp
  · simp [hi]
/-- A field apart from the one that was written. -/
theorem fld_setFld_other (x : Word) (lo len v lo' len' : Nat) (h : lo' + len' ≤ 32) (ap : lo' + len' ≤ lo ∨ lo + len ≤ lo') :
    fld (setFld x lo len v) lo' len' = fld x lo' len' := by
  refine Nat.eq_of_testBit_eq fun i => ?_
  rw [testBit_fld, testBit_fld]
  by_cases hi : i < len'
  · rw [getLsbD_setFld _ _ _ _ _ (by omega), if_neg (by omega)]
  · simp [hi]
/-- The field of a register after it is written, and after another field of any register is. -/
theorem getF_setF_same {d : Dev} (w : spWf d.regs = true) (a lo len v : Nat) (h : lo + len ≤ 32) :
    getF (setF d a lo len v) a lo len = v % 2 ^ len := by
  unfold getF
  rw [reg_setF_same w, fld_setFld_same _ _ _ _ h]
theorem getF_setF_other {d : Dev} (w : spWf d.regs = true) (a lo len v b lo' len' : Nat) (h : lo' + len' ≤ 32)
    (ap : b ≠ a ∨ lo' + len' ≤ lo ∨ lo + len ≤ lo') : getF (setF d a lo len v) b lo' len' = getF d b lo' len' := by
  unfold getF
  by_cases hb : b = a
  · subst hb
    rw [reg_setF_same w, fld_setFld_other _ _ _ _ _ _ h (ap.resolve_left fun n => n rfl)]
  · rw [reg_setF_other w hb]

end Sys2Proof.Machine
end

