-- ==== Sys2Proof/Laws/Rings.lean ====
section
/-! SUPPORT. What a ring command's row does, case by case of its checks. -/
namespace Sys2Proof.Machine
variable {d d' : Dev} {op fn ring : Nat} {c : Cmd} {act : Dev → Cmd → Except Fail Act} {f : Fail} {res : List Byte}

theorem runCmd_none (h : readyCmd d op fn ring = none) : runCmd op fn ring act d = d := by simp only [runCmd, h]
theorem runCmd_static (h : readyCmd d op fn ring = some c) (hf : staticFail d c = some f) :
    runCmd op fn ring act d = settle (failCmd d c f) := by simp only [runCmd, h, hf]
theorem runCmd_mode (h : readyCmd d op fn ring = some c) (hs : staticFail d c = none) (hf : modeFail d c = some f) :
    runCmd op fn ring act d = settle (failCmd d c f) := by simp only [runCmd, h, hs, hf]
theorem runCmd_error (r : Runs d op fn ring c) (h : act d c = .error f) :
    runCmd op fn ring act d = settle (failCmd d c f) := by simp only [runCmd, r.ready, r.static, r.mode, h]
theorem runCmd_done (r : Runs d op fn ring c) (h : act d c = .ok (.done d' res)) :
    runCmd op fn ring act d = completes d' c res := by simp only [runCmd, r.ready, r.static, r.mode, h, completes]
theorem runCmd_wait (r : Runs d op fn ring c) (h : act d c = .ok (.wait d')) :
    runCmd op fn ring act d = goesOn d' c := by simp only [runCmd, r.ready, r.static, r.mode, h, goesOn]
theorem runCmd_stay (r : Runs d op fn ring c) (h : act d c = .ok (.stay d')) :
    runCmd op fn ring act d = d' := by simp only [runCmd, r.ready, r.static, r.mode, h]

/-- A command whose checks pass acts. -/
theorem checksPass_ok {r : Except Fail Act} (h : checksPass r = true) : ∃ a, r = .ok a := by
  cases r with
  | ok a => exact ⟨a, rfl⟩
  | error _ => simp [checksPass] at h

/-! ### Checks in sequence -/

theorem bind_ok {α β : Type} {x : Except Fail α} {k : α → Except Fail β} {b : β} (h : (x >>= k) = .ok b) : ∃ a, x = .ok a ∧ k a = .ok b := by
  cases x with
  | ok a => exact ⟨a, rfl, h⟩
  | error _ => cases h
theorem bind_ok_eq {α β : Type} {x : Except Fail α} {k : α → Except Fail β} {a : α} (h : x = .ok a) : (x >>= k) = k a := by
  rw [h]
  rfl
theorem require_ok {b : Bool} {f : Fail} {u : Unit} (h : require b f = .ok u) : b = true := by
  cases b with
  | true => rfl
  | false => simp [require] at h

end Sys2Proof.Machine
end

