-- ==== Sys2Proof/Tests/Slice0.lean ====
section
/-! SUPPORT. Tests: the WellFormed smoke, single commands on small states, and for every statement that has hypotheses a state that meets
them. -/
namespace Sys2Proof.Tests
open Sys2Proof Sys2Proof.Machine
set_option maxRecDepth 20000
set_option Elab.async false

/-! ### Helpers -/

/-- A device with these words in its registers. -/
def poke (d : Dev) (ws : List (Nat × Nat)) : Dev := ws.foldl (fun d w => setReg d w.1 (wd w.2)) d
/-- An SNU-V4 in a mode, with every feature of the PF on and locked, command ring 0 bound to completion ring 32, both of 64
entries. -/
def devIn (m : Mode) : Dev :=
  let d := Dev.reset .v4
  poke { d with sys := { d.sys with mode := m }, tim := { d.tim with running := true } }
    ((List.range 8).map (fun i => (0x30 + 4 * i, 0xFFFFFFFF)) ++ [(0x50, 1), (ringReg 0 0 8, 0x2061), (ringReg 0 32 8, 0x61)])
def dev : Dev := devIn .bridge
def st (d : Dev) : State := ⟨d, []⟩
/-- A descriptor of an opcode, a handle and operands given as (first byte, bytes, value). -/
def desc (op handle : Nat) (fs : List (Nat × Nat × Nat)) : Desc :=
  BitVec.ofNat 512 (fs.foldl (fun a f => a + f.2.2 * 256 ^ f.1) (op + handle * 256 ^ 4))
def cmd (op handle : Nat) (fs : List (Nat × Nat × Nat)) : Cmd := { id := 1, fn := 0, ring := 0, cq := 32, desc := desc op handle fs }
/-- A device with one accepted command. -/
def withCmd (d : Dev) (c : Cmd) : Dev := { d with hif := { d.hif with accepted := [c], nextId := 2 } }
/-- A ring's row runs this command on this device, and the command's own checks pass. -/
def Goes (d : Dev) (op : Nat) (c : Cmd) (act : Dev → Cmd → Except Fail Act) : Prop :=
  Runs (withCmd d c) op 0 0 c ∧ checksPass (act (withCmd d c) c) = true
theorem runsOf {d : Dev} {op fn ring : Nat} {c : Cmd}
    (h : (readyCmd d op fn ring == some c && (staticFail d c).isNone && (modeFail d c).isNone) = true) : Runs d op fn ring c := by
  simp only [Bool.and_eq_true, beq_iff_eq, Option.isNone_iff_eq_none] at h
  exact ⟨h.1.1, h.1.2, h.2⟩
theorem goesOf {d : Dev} {op : Nat} {c : Cmd} {act : Dev → Cmd → Except Fail Act}
    (h : (readyCmd (withCmd d c) op 0 0 == some c && (staticFail (withCmd d c) c).isNone && (modeFail (withCmd d c) c).isNone &&
      checksPass (act (withCmd d c) c)) = true) : Goes d op c act := by
  rw [Bool.and_eq_true] at h
  exact ⟨runsOf h.1, h.2⟩
/-- The device of a next state. -/
def devOf (o : Host.Outcome State Fault Refusal) : Dev := match o with | .next t => t.dev | _ => Dev.reset .v2
/-- A session of the PF, and objects in it by kind, index and parent. -/
def ses : Nat := mkHandle 1 0
def objs (l : List (Nat × Nat × Nat)) : ObjSt :=
  { sessions := [{ handle := ses, fn := 0 }], objs := l.map fun x => { handle := mkHandle x.1 x.2.1, fn := 0, session := ses, parent := x.2.2 } }

/-- A standard card of firmware in a slot, by its state and what it executes. -/
def card (slot : Nat) (state : CState := .inService) (exec : Nat := 1) (work : Work := .kernel 0x100 0) : Card :=
  { slot := slot, seq := slot, state := state, cls := 1, exec := exec, deadline := 0, flow := 0, fn := 0, source := .firmware, owner := 0, work := work }
/-- The conference of handle 2.0, and a participant of it. -/
def conf : Conf := { handle := mkHandle 2 0, fn := 0, handMax := 4, handEv := false, hpf := 0, delay := 2, home := 0 }
def part (i : Nat) : Part :=
  { handle := mkHandle 3 i, fn := 0, conf := mkHandle 2 0, peer := false, levelExt := false, always := false, codec := 0, extId := 0, peerMax := 0,
    jbMin := 2, jbMax := 20, tag := i, gain := 0, mute := false, group := 0, delay := 2 }
/-- A leg of participant 0: index, direction, media. -/
def leg (i : Nat) (out : Bool) (media : Nat) : Leg :=
  { handle := mkHandle 4 i, fn := 0, part := mkHandle 3 0, out := out, media := media, ssrc := 1000 + i }
def withCards (d : Dev) (cs : List Card) : Dev := { d with dlr := { d.dlr with cards := cs } }
/-- A host flow of the PF, and a device with flows. -/
def flow (i : Nat) : Flow := { id := mkHandle 9 i, fn := 0, session := ses, host := true, ordered := false }
def withFlows (d : Dev) (fs : List Flow) : Dev := { d with dlr := { d.dlr with flows := fs } }

/-! ### Witnesses: what a statement assumes, met by a state -/

theorem test_witness_StepRunsFrontCommand : (⟨dev, [.pfFlr]⟩ : State).pending = .pfFlr :: [] := rfl
theorem test_witness_EveryStepAnswersNext : (st dev).pending = [] ∧ (⟨dev, [.pfFlr]⟩ : State).pending = .pfFlr :: [] := ⟨rfl, rfl⟩
theorem test_witness_StepKeepsLedgerEquation : ledgersSound dev = true ∧ ∃ t, step ⟨dev, [.pfFlr]⟩ = .next t := ⟨by decide +kernel, _, rfl⟩
theorem test_witness_StepKeepsMemoryForm : Memory.wf dev = true ∧ ∃ t, step ⟨dev, [.pfFlr]⟩ = .next t := ⟨by decide +kernel, _, rfl⟩
theorem test_witness_FusesOnlyOneWay : ∃ t, step ⟨{ dev with sys := { dev.sys with keyProg := true, rootKey := 5 } }, [.powerOnReset 0]⟩ = .next t := ⟨_, rfl⟩
theorem test_witness_HaltSafeEndsOnlyByReset : (devIn .haltSafe).sys.mode = .haltSafe ∧ mayReset (.registerWrite 0 0x20000 1) = false ∧
    ∃ t, exec (.registerWrite 0 0x20000 1) (st (devIn .haltSafe)) = .next t := ⟨by decide +kernel, by decide +kernel, _, rfl⟩
theorem test_witness_StrideCountMovesOnlyAtBoundaries : mayMoveStride (.freqWrite 1) = false ∧ ∃ t, exec (.freqWrite 1) (st dev) = .next t :=
  ⟨rfl, _, rfl⟩
theorem test_witness_TackStoreChangesOnlyByStore : (∀ fn ring b d, (.pfFlr : Instr) ≠ .tackStore fn ring b d) ∧
    (∀ ok us, (.pfFlr : Instr) ≠ .tackStoreDone ok us) ∧ ∃ t, exec .pfFlr (st dev) = .next t := ⟨by simp, by simp, _, rfl⟩
theorem test_witness_OutputLogGrows : ∃ t, exec .pfFlr (st { dev with out := [.pin "THERM_N" true 0] }) = .next t := ⟨_, rfl⟩
theorem test_witness_HbmChangesOnlyByItsWriters : mayWriteHbm .pfFlr = false ∧ ∃ t, exec .pfFlr (st dev) = .next t := ⟨rfl, _, rfl⟩
theorem test_witness_PaddockAndCoreMemoryChangeOnlyByTheirWriters : mayWritePaddock .pfFlr = false ∧ ∃ t, exec .pfFlr (st dev) = .next t :=
  ⟨rfl, _, rfl⟩

/-- A register's place, its row and its indexes, with a property of them. -/
def rowAt (a : Nat) (f : Loc → RegRow → List Nat → Bool) : Bool := match regAt .v4 a with | some (l, r, is) => f l r is | none => false
theorem rowAt_of {a : Nat} {f : Loc → RegRow → List Nat → Bool} (h : rowAt a f = true) : ∃ l r is, regAt .v4 a = some (l, r, is) ∧ f l r is = true := by
  unfold rowAt at h
  split at h
  · exact ⟨_, _, _, ‹_›, h⟩
  · simp at h
/-- A RUNNING port 0, and a write that its RWC bits refuse; a free-running register; the last address of a view. -/
theorem test_witness_RegisterWriteActsPerField : spWf (poke dev [(MACP 0, 2)]).regs = true ∧ barAddr 0 (MACP 0 + 4) = some (MACP 0 + 4) ∧ (MACP 0 + 4) % 4 = 0 ∧
    (∃ l r is, regAt .v4 (MACP 0 + 4) = some (l, r, is) ∧ (plainWrites l && !r.roIx .v4 is && !rwcOpen (poke dev [(MACP 0, 2)]) l && rejectReg l != MACP 0 + 4 &&
      (0xFFFFFFFF ^^^ reg (poke dev [(MACP 0, 2)]) (MACP 0 + 4)) &&& wd r.rwc != 0) = true) ∧
    (∃ l r is, regAt .v4 (TIM + 0x30) = some (l, r, is) ∧ (plainWrites l && !r.roIx .v4 is && (7 ^^^ reg dev (TIM + 0x30)) &&& wd r.rwc == 0) = true) ∧
    barAddr 63 0x30 = some (viewBase 63 + 0x30) ∧ (∃ l r is, regAt .v4 (viewBase 63 + 0x1000) = some (l, r, is)) :=
  ⟨by decide +kernel, by decide +kernel, by decide +kernel, rowAt_of (by decide +kernel), rowAt_of (by decide +kernel), by decide +kernel,
   (rowAt_of (f := fun _ _ _ => true) (by decide +kernel)).imp fun _ ⟨r, is, h⟩ => ⟨r, is, h.1⟩⟩
theorem test_witness_NegotiationAndAccessErrors : locked (Dev.reset .v4) 63 = false ∧ locked dev 0 = true ∧ (1 : Word).getLsbD 0 = true ∧
    spWf dev.regs = true ∧ barAddr 63 0x1FFFC = some (viewBase 63 + 0x1FFFC) ∧ barAddr 0 0x3FFFFFF = some 0x3FFFFFF ∧
    (getF dev 0 0 4 ≠ (5 : Fin 6).val ∨ getF dev 0 4 5 ≠ (16 : Fin 17).val) := by decide +kernel
theorem test_witness_VfFeaturesFollowPf : locked (Dev.reset .v4) 0 = false := by decide +kernel
theorem test_witness_RegisterReadAnswers :
    (barAddr 0 (SYS + 3 - (SYS + 3) % 4) = some SYS ∧ ∃ l r is, regAt dev.variant SYS = some (l, r, is) ∧ quietRead l SYS = true) ∧
    barAddr 0 0x3FFFFFC = some 0x3FFFFFC ∧ regAt dev.variant 0x3FFFFFC = none :=
  ⟨⟨by decide +kernel, rowAt_of (f := fun l _ _ => quietRead l SYS) (by decide +kernel)⟩, by decide +kernel, by decide +kernel⟩
theorem test_witness_RingsEnableDisableDrain :
    (spWf (Dev.reset .v4).regs = true ∧ ringEnabled (poke dev [(ringReg 0 51 0x14, 1)]) 0 51 = false ∧ ringIdle (poke dev [(ringReg 0 51 0x14, 1)]) 0 51 = true ∧
      ringLegal 51 0x1F61 = true ∧ ringLegal 0 0x20F1 = true) ∧
    (spWf dev.regs = true ∧ ringEnabled dev 0 32 = true) ∧
    (ringEnabled dev 0 31 = false ∧ (∀ c ∈ dev.hif.accepted, ¬(c.fn = 0 ∧ c.ring = 31)) ∧ (32 ≤ 47 → (getRing dev 0 47).reserved = 0)) := by
  decide +kernel
/-- Ring 0 with descriptors pending, and its doorbell word. -/
theorem test_witness_DoorbellsAndAcceptance :
    (locked dev 0 = true ∧ inFlr dev 0 = false ∧ dev.sys.mode.fetches = true) ∧
    ((0 : Quad).getLsbD 63 = false ∧ ringEnabled dev 0 31 = false) ∧
    ((BitVec.ofNat 64 (2 ^ 63 + 2 ^ 32)).getLsbD 63 = true ∧ (BitVec.ofNat 64 (2 ^ 63 + 2 ^ 32)).toNat / 2 ^ 32 % 2 ^ 16 ≠ fld (reg dev (ringReg 0 0 0xC)) 0 16) ∧
    (let w := BitVec.ofNat 64 (2 ^ 63 + 64)
     w.getLsbD 63 = true ∧ ringEnabled dev 0 0 = true ∧ w.toNat / 2 ^ 32 % 2 ^ 16 = fld (reg dev (ringReg 0 0 0xC)) 0 16 ∧
     0 < (wd w.toNat - ringHead dev 0 0).toNat ∧ (wd w.toNat - ringHead dev 0 0).toNat ≤ ringSize dev 0 0 ∧
     (List.replicate 64 (0 : Desc)).length = (wd w.toNat - ringHead dev 0 0).toNat) ∧
    (ringSize dev 0 0 < (wd (BitVec.ofNat 64 (2 ^ 63 + 65)).toNat - ringHead dev 0 0).toNat ∧ wd (BitVec.ofNat 64 (2 ^ 63 + 1)).toNat ≠ ringHead dev 0 0 ∧
      ringSize dev 0 32 < (ringHead dev 0 32 - wd (BitVec.ofNat 64 (2 ^ 63 + 1)).toNat).toNat) ∧
    (let w := BitVec.ofNat 64 (2 ^ 63 + 2 ^ 32 - 1)
     w.getLsbD 63 = true ∧ ringEnabled dev 0 32 = true ∧ w.toNat / 2 ^ 32 % 2 ^ 16 = fld (reg dev (ringReg 0 32 0xC)) 0 16 ∧
     (ringHead dev 0 32 - wd w.toNat).toNat ≤ ringSize dev 0 32) ∧
    (let d := putRing dev { fn := 0, ring := 0, fetched := [desc 0 0 []] }
     arbitrate d = some (1, 0, 0) ∧ (getRing d 0 0).fetched = desc 0 0 [] :: []) ∧
    arbitrate dev = none := by decide +kernel
theorem test_witness_FunctionLevelResets :
    (dev.sys.mode ≠ .reset ∧ inFlr dev 63 = false) ∧
    (let d := withCmd dev { cmd 0x02 0 [] with fn := 1, started := true }
     ∃ c ∈ (discardCmds d 1).hif.accepted, c.fn = 1) ∧
    (spWf dev.regs = true ∧ viewBase 63 ≤ viewBase 63 + 0x50 ∧ viewBase 63 + 0x50 < viewBase 63 + 0x20000) ∧
    (let d := { dev with hif := { dev.hif with flr := [63] } }
     inFlr d 63 = true ∧ (∀ c ∈ d.hif.accepted, c.fn ≠ 63) ∧ ∀ x ∈ d.obj.sessions, x.fn = 63 → x.closed = true) := by decide +kernel

theorem test_witness_RingCommandsFailAtTheFirstCheck :
    (ringOf (.nop 0 0) = some (0, 0, 0) ∧ readyCmd dev 0 0 0 = none) ∧
    (let c := cmd 0x00 0 []
     let d := withCmd (devIn .train) c
     readyCmd d 0 0 0 = some c ∧ staticFail d c = none ∧ (modeFail d c).isSome = true) ∧
    (let c := { cmd 0x7F 0 [] with fn := 1 }
     let d := withCmd dev c
     readyCmd d 0x7F 1 0 = some c ∧ (staticFail d c).isSome = true) ∧
    dOpcode (desc 0x7E 0 []) ∉ opcodes ∧
    (dOpcode (desc 0x7F 0 []) ∈ opcodes ∧ pfOnly (dOpcode (desc 0x7F 0 [])) = true) ∧
    (protectedUse (desc 0x31 0 [(8, 1, 0), (9, 1, 63), (10, 1, 0xFF), (11, 1, 1)]) = true) ∧
    (let c := cmd 0x60 0 [(8, 1, 3), (9, 1, 0), (10, 1, 1)]
     pfOnly (dOpcode c.desc) = true ∧ c.fn = 0 ∧ targetAbsent (Dev.reset .v4) c.desc = false ∧ targetAbsent (Dev.reset .v2) (desc 0x63 0 [(8, 1, 3)]) = true) ∧
    (let c := cmd 0x28 0 [(8, 1, 0)]
     ∃ b ∈ needFeats c.desc, featOn (Dev.reset .v4) c.fn b = false) := by decide +kernel
theorem test_witness_CompletionsWriteOneEntry :
    (let c := cmd 0x00 0 []
     let d := withCmd dev c
     c.discard = false ∧ c.lostCq = false ∧ spWf d.regs = true ∧ ¬(dSilent c.desc = true ∧ ST_OK = ST_OK) ∧
     ∃ x ∈ (finish (withCmd dev { c with id := 2 }) c ST_OK []).hif.accepted, x.id ≠ c.id) ∧
    dSilent (desc 0x00 0 [(1, 1, 1)]) = true ∧ ({ cmd 0 0 [] with lostCq := true }).lostCq = true ∧ ({ cmd 0 0 [] with discard := true }).discard = true ∧
    (65535 < 65536 ∧ 255 < 256 ∧ 0 < 64) := by decide +kernel
theorem test_witness_SessionsAndQueriesComplete :
    Goes dev 0x00 (cmd 0x00 0 []) nopAct ∧
    (Goes { dev with obj := objs [] } 0x04 (cmd 0x04 ses []) objQueryAct ∧ hKind (dHandle (cmd 0x04 ses []).desc) = 1) ∧
    (Goes { dev with dlr := { dev.dlr with flows := [{ id := mkHandle 9 0, fn := 0, session := ses, host := true, ordered := false }] } } 0x04
      (cmd 0x04 (mkHandle 9 0) []) objQueryAct ∧ hKind (dHandle (cmd 0x04 (mkHandle 9 0) []).desc) = 9) ∧
    (Goes (withCards dev [card 7]) 0x04 (cmd 0x04 (cardHandle 7) []) objQueryAct ∧ hKind (dHandle (cmd 0x04 (cardHandle 7) []).desc) = 10) ∧
    (Goes { dev with obj := objs [(2, 0, ses)], aud := { dev.aud with confs := [conf] } } 0x04 (cmd 0x04 (mkHandle 2 0) []) objQueryAct ∧
      hKind (dHandle (cmd 0x04 (mkHandle 2 0) []).desc) = 2) ∧
    Goes dev 0x01 (cmd 0x01 0 []) sessionOpenAct ∧ Goes { dev with obj := objs [] } 0x02 (cmd 0x02 ses []) sessionCloseAct ∧
    (let x : Session := { handle := ses, fn := 0, closing := true }
     let d := { dev with obj := { dev.obj with sessions := [x] } }
     findSession d ses = some x ∧ x.closing = true ∧ sessionFlows d ses = [] ∧ halted d = false) ∧
    Goes { dev with obj := objs [(2, 0, ses)], aud := { dev.aud with confs := [conf] } } 0x03 (cmd 0x03 (mkHandle 2 0) []) objReleaseAct := by
  refine ⟨goesOf ?_, ⟨goesOf ?_, ?_⟩, ⟨goesOf ?_, ?_⟩, ⟨goesOf ?_, ?_⟩, ⟨goesOf ?_, ?_⟩, goesOf ?_, goesOf ?_, ?_, goesOf ?_⟩ <;> decide +kernel
theorem test_witness_DiagRaisesTestOrAnswersSnapshot :
    (Goes dev 0x7F (cmd 0x7F 0 [(16, 8, 7)]) diagAct ∧ dByte (cmd 0x7F 0 [(16, 8, 7)]).desc 8 = 0) ∧
    (Goes dev 0x7F (cmd 0x7F 0 [(8, 1, 1), (9, 1, 24)]) diagAct ∧ dByte (cmd 0x7F 0 [(8, 1, 1), (9, 1, 24)]).desc 8 = 1) ∧
    (let c := cmd 0x7F 0 [(8, 1, 1), (9, 1, 200)]
     let d := withCmd dev c
     Runs d 0x7F 0 0 c ∧ dHandle c.desc = 0 ∧ dBits c.desc 1 3 5 = 0 ∧ dByte c.desc 8 = 1 ∧ ∀ x ∈ d.ldg.cur, ¬(x.l = dByte c.desc 9 ∧ x.inst = dByte c.desc 10)) := by
  refine ⟨⟨goesOf ?_, ?_⟩, ⟨goesOf ?_, ?_⟩, runsOf ?_, ?_⟩ <;> decide +kernel

theorem test_witness_SysModeShowsDegraded : halted dev = false ∧ (∃ q, q < dev.variant.quarters ∧ fenced { dev with sys := { dev.sys with fenced := [true, false, false, false] } } q = true) :=
  ⟨by decide +kernel, 0, by decide +kernel, rfl⟩
/-- An encode pipe of quarter 3 in its states. -/
def pipe : UnitId := ⟨4, 3, 0⟩
def pipeIn (n : Nat) : Dev := setUState dev pipe n
def pipeCmd (op rst : Nat) : Cmd := cmd op 0 [(8, 1, 4), (9, 1, 3), (11, 1, rst)]
theorem test_witness_UnitsStopStartFault :
    (Goes (pipeIn 2) 0x60 (pipeCmd 0x60 0) unitStopAct ∧ Goes (pipeIn 1) 0x60 (pipeCmd 0x60 0) unitStopAct ∧ Goes (pipeIn 4) 0x60 (pipeCmd 0x60 1) unitStopAct) ∧
    (Goes (pipeIn 0) 0x61 (pipeCmd 0x61 0) unitStartAct ∧ Goes (pipeIn 1) 0x61 (pipeCmd 0x61 0) unitStartAct) ∧
    (unitPresent dev.variant pipe = true ∧ uState (pipeIn 3) pipe = 3 ∧ unitIdle (pipeIn 3) pipe = true ∧ halted (pipeIn 3) = false) ∧
    (uState (pipeIn 1) pipe = 1 ∧ ∀ p ∈ (pipeIn 1).sys.steps, p.kind ≠ 1) ∧
    (let c := { pipeCmd 0x60 0 with started := true, strides := 65535 }
     let d := withCmd (pipeIn 3) c
     d.sys.changes = [] ∧ unitCmds d 0x60 pipe ++ unitCmds d 0x61 pipe = [c] ∧ findCmd d c.id = some c ∧ getF d 0x80 0 16 ≤ c.strides) ∧
    (uState (pipeIn 2) pipe ≠ 4 ∧ unitPresent dev.variant ⟨1, (3 : Fin 4).val, (7 : Fin 8).val⟩ = true) := by
  refine ⟨⟨goesOf ?_, goesOf ?_, goesOf ?_⟩, ⟨goesOf ?_, goesOf ?_⟩, ?_, ?_, ?_, ?_⟩ <;> decide +kernel
/-- Every stack trained and re-centred. -/
def trained (m : Mode) : Dev := poke (devIn m) [(MEM, 0xFF0002)]
theorem test_witness_ModesAndFences :
    (Goes (trained .configure) 0x62 (cmd 0x62 0 [(8, 1, Mode.bridge.code)]) modeSetAct ∧ Goes dev 0x62 (cmd 0x62 0 [(8, 1, Mode.bridge.code)]) modeSetAct) ∧
    (let c := { cmd 0x62 0 [(8, 1, Mode.configure.code)] with started := true }
     let d := withCmd { dev with sys := { dev.sys with modeDue := [(1, 5)] } } c
     d.sys.changes = [] ∧ halted d = false ∧ d.sys.modeDue = (1, 5) :: [] ∧ findCmd d 1 = some c) ∧
    (Goes dev 0x63 (cmd 0x63 0 [(8, 1, 3)]) quarterFenceAct ∧
     Goes { devIn .configure with sys := { (devIn .configure).sys with fenced := [false, false, false, true] } } 0x63 (cmd 0x63 0 [(8, 1, 3), (9, 1, 1)]) quarterFenceAct) := by
  refine ⟨⟨goesOf ?_, goesOf ?_⟩, ?_, goesOf ?_, goesOf ?_⟩ <;> decide +kernel
theorem test_witness_ResetsClearAndKeep : dev.tim.running = true ∧ ((0xA501 : Word).getLsbD 0 = true ∧ fld 0xA501 8 8 = 0xA5) ∧
    ((0xA500 : Word).getLsbD 0 = false ∧ fld 0xA401 8 8 ≠ 0xA5) := by decide +kernel
/-- BOOT, with what firmware has done. -/
def booting (ok up : Bool) (src slot : Nat) : Dev :=
  let d := devIn .boot
  { d with sys := { d.sys with imageOk := ok, fwUp := up, bootSrc := src, bootSlot := slot } }
theorem test_witness_BootTakesTheFirstGoodImage :
    (let d := booting false false 0 1
     d.sys.mode = .boot ∧ d.sys.imageOk = false ∧ d.sys.bootSrc ≠ 1 ∧ d.sys.bootSlot = true.toNat) ∧
    (let i : BootImage := { version := 1, payloadLen := 67108864, rollback := 0, header := [], payload := [] }
     Config.imageSigned i.header i.payload = true ∧ (booting false false 0 0).sys.rbFloor ≤ i.rollback → i.payloadLen ≤ 67108864) ∧
    ((writeBootCtrl (booting false false 1 0) 4).sys.hostLoading = true ∧ (writeBootCtrl (booting false false 1 0) 4).sys.mode = .boot) ∧
    (let d := booting true false 0 0
     d.sys.mode = .boot ∧ d.sys.imageOk = true ∧ d.sys.fwUp = false ∧
     (applySettings (setF (tackBoot d) TCK 16 10 0) (tackSettings (setF (tackBoot d) TCK 16 10 0))).sys.imageOk = true) ∧
    ((2 : Word).getLsbD 1 = true ∧ (2 : Word).getLsbD 2 = false ∧ (booting true true 0 0).sys.mode = .boot ∧ (booting true true 0 0).sys.fwUp = true ∧
      spWf (booting true true 0 0).regs = true) ∧
    ((1 : Word).getLsbD 1 = false ∧ (1 : Word).getLsbD 2 = false) := by
  refine ⟨?_, fun _ => ?_, ?_, ?_, ?_, ?_⟩ <;> decide +kernel
/-- TRAIN, with a power step queued and a stack in training. -/
def powering (kind : Nat) (tr : Option (Nat × Nat)) : Dev :=
  let d := devIn .train
  { d with sys := { d.sys with steps := [⟨⟨11, 0xFF, 7⟩, kind⟩], training := tr, lastStep := some 0 }, tim := { d.tim with clock := 60000 } }
theorem test_witness_PowerStepsAndStackTraining :
    ((powering 2 none).sys.steps = ⟨⟨11, 0xFF, 7⟩, 2⟩ :: [] ∧ stepDue (powering 2 none) 60000 = true) ∧ (stepDue (powering 1 none) 60000 = true ∧ (1 : Nat) ≠ 0) ∧
    ((powering 0 (some (3, 0))).sys.training = some ((3 : Fin 4).val, 0) ∧ halted (powering 0 (some (3, 0))) = false) ∧
    (powering 0 (some (3, 1))).sys.training = some ((3 : Fin 4).val, 1) ∧ (powering 0 (some (3, 2))).sys.training = some ((3 : Fin 4).val, (2 : Fin 3).val) := by decide +kernel
theorem test_witness_FusesPackageAndDump :
    (let d := devIn .configure
     spWf d.regs = true ∧ d.sys.mode = .configure ∧ fld 0xA501 8 8 = 0xA5 ∧ (0xA501 : Word).getLsbD 0 = true ∧ (0xA501 : Word).getLsbD 1 = false ∧
     d.sys.keyProg = false ∧ d.sys.keyLock = false ∧ 1709 < 1710) ∧
    (fld 0xA502 8 8 = 0xA5 ∧ (0xA502 : Word).getLsbD 0 = false ∧ (0xA502 : Word).getLsbD 1 = true) ∧
    (dev.sys.thermLow = false ∧ (115 : Int) ≤ 115) ∧
    (({ dev with sys := { dev.sys with thermLow := true } }).sys.thermLow = true ∧ (109 : Int) < 110 ∧ (110 : Int) ≤ 110) ∧
    (dev.sys.mode ≠ .reset ∧ (3 : Byte).toNat < 4) ∧ (halted (devIn .haltSafe) = true ∧ spWf (devIn .haltSafe).regs = true) ∧ halted dev = false := by decide +kernel
theorem test_witness_StoresWriteTheOtherCopy :
    (let d := devIn .configure
     let c := cmd 0x68 0 [(8, 1, 5), (24, 8, 64), (32, 4, 233472 - 64), (36, 4, 64)]
     Memory.wf (withCmd (poke d [(TCK, 1)]) c) = true ∧ Goes (poke d [(TCK, 1)]) 0x68 c (tackStoreAct (.ok []) (.ok (List.replicate 64 0))) ∧ d.sys.store = none ∧
     tackLoaded (poke d [(TCK, 1)]) = some 0 ∧ copyBase 0 ≤ 0x3FFFF ∧ 0x3FFFF < copyBase 0 + 0x40000 ∧
     Goes { d with sys := { d.sys with store := some ⟨9, 1, 2⟩ } } 0x68 c (tackStoreAct (.ok []) (.ok []))) ∧
    ({ dev with sys := { dev.sys with store := some ⟨9, 1, 2⟩ } }).sys.store = some ⟨9, 1, 2⟩ ∧
    (let c := cmd 0x69 0 [(8, 1, 2), (24, 4, 233471), (28, 4, 1)]
     Goes dev 0x69 c tackLoadAct ∧ 0 < dNum c.desc 28 4) := by
  refine ⟨⟨?_, goesOf ?_, ?_, ?_, ?_, ?_, goesOf ?_⟩, ?_, goesOf ?_, ?_⟩ <;> decide +kernel
theorem test_witness_AuditsAndFatalLatch :
    (let d := { dev with ldg := { dev.ldg with auditing := true } }
     d.ldg.auditing = true ∧ halted d = false ∧ d.ldg.breaks.filter (audited d) = []) ∧
    dev.ldg.auditing = false ∧ ((1 : Word).getLsbD 0 = true ∧ spWf dev.regs = true) ∧ (0xFFFFFFFE : Word).getLsbD 0 = false := by decide +kernel

/-- Team 7 of quarter 3 RUNNING with pre-emption and watchdog on; a card of its pool. -/
def pool : Dev :=
  let d := poke dev [(TEAM 3 7, 2), (DLR + 4, 0x300 + 0x080000 + 3)]
  { d with regsB := d.regs }
def poolCard (slot cls : Nat) (state : CState) : Card := { card slot state with cls := cls, quarter := 3, team := 7, flow := mkHandle 9 0 }
theorem test_witness_FlowsAndCardsComplete :
    (let c := cmd 0x40 ses [(8, 1, 1), (12, 4, Variant.v4.poolSlots)]
     Goes { dev with obj := objs [] } 0x40 c flowCreateAct) ∧
    (let d := withFlows dev [flow 65535]
     let c := cmd 0x41 (mkHandle 9 65535) [(8, 1, 0xE), (9, 1, 1), (10, 1, 3), (11, 1, 7), (20, 1, 255)]
     Goes d 0x41 c cardSubmitAct ∧ hasCredit (withCmd d c) (.fn c.fn) (dHandle c.desc) = true ∧ freeSlot (withCmd d c) = some 0) ∧
    (let d := withCards (withFlows dev [{ flow 0 with limit := 1 }]) [poolCard 0 1 .waiting]
     let c := cmd 0x41 (mkHandle 9 0) [(10, 1, 0xFF), (11, 1, 0xFF)]
     Goes d 0x41 c cardSubmitAct ∧ hasCredit (withCmd d c) (.fn c.fn) (dHandle c.desc) = false) ∧
    (let d := withFlows dev [flow 0]
     let c := cmd 0x70 0 [(9, 1, 0xFF), (10, 1, 3), (22, 2, 1), (40, 4, mkHandle 9 0)]
     let bs := leBytes (0x22 + 4 * 256 ^ 4 + 64 * 256 ^ 16 + 256 ^ 24) 32
     Goes d 0x70 c (dmaChainAct (.ok bs)) ∧ hasCredit (withCmd d c) (.fn c.fn) (dNum c.desc 40 4) = true ∧ freeSlot (withCmd d c) = some 0) ∧
    (∀ st ∈ [CState.waiting, .ready, .inService, .finished, .zombie],
      checksPass (cardCancelAct (withCmd (withCards dev [card 5 st]) (cmd 0x42 (cardHandle 5) [])) (cmd 0x42 (cardHandle 5) [])) = true) ∧
    (Goes (withCards dev [card 5]) 0x42 (cmd 0x42 (cardHandle 5) []) cardCancelAct ∧
      findCard (withCmd (withCards dev [card 5]) (cmd 0x42 (cardHandle 5) [])) (hIndex (dHandle (cmd 0x42 (cardHandle 5) []).desc)) = some (card 5)) := by
  refine ⟨goesOf ?_, ⟨goesOf ?_, ?_, ?_⟩, ⟨goesOf ?_, ?_⟩, ⟨goesOf ?_, ?_, ?_⟩, ?_, goesOf ?_, ?_⟩ <;> decide +kernel
theorem test_witness_DealerStepsComplete :
    (let d := withCards pool [poolCard 5 0 .ready]
     halted d = false ∧ (poolCard 5 0 .ready).cls ≠ 2 ∧ firstCard d (readyIn d 3 7 0) = some (poolCard 5 0 .ready) ∧
     chooseCore d (poolCard 5 0 .ready) = some 248) ∧
    (let d := withCards pool [poolCard 5 1 .ready]
     readyIn d 3 7 0 = [] ∧ firstCard d (readyIn d 3 7 1) = some (poolCard 5 1 .ready) ∧ readyIn d 3 7 2 = [] ∧ resumable d 3 7 = [] ∧
     chooseCore d (poolCard 5 1 .ready) = some 248) ∧
    (let c := { card 5 .ready 4 with quarter := 3 }
     let d := withCards (pipeIn 2) [c]
     unitWf pipe = true ∧ unitTakes d pipe = true ∧ (queueOf d pipe).length < queueDepth pipe ∧ 1 < 3 ∧
     (∀ m, m < 1 → d.dlr.cards.filter (fun c => c.state == .ready && c.cls == m && cardFor d pipe c && flowAllows d c) = []) ∧
     firstCard d (d.dlr.cards.filter (fun c => c.state == .ready && c.cls == 1 && cardFor d pipe c && flowAllows d c)) = some c) ∧
    (let c := { card 5 with done := true }
     findCard (withCards dev [c]) 5 = some c ∧ c.state = .inService ∧ c.preempted = false ∧ halted (withCards dev [c]) = false ∧ c.done = true) ∧
    (let b := { poolCard 6 2 .inService with core := some 248 }
     let d := withCards { pool with cores := (List.range 8).map fun i => { id := 248 + i, card := some (6 + i) } } [poolCard 5 0 .ready, b]
     halted d = false ∧ firstCard d (readyIn d 3 7 0) = some (poolCard 5 0 .ready) ∧ bit (regB d (DLR + 4)) 8 = true ∧
     (∀ j ∈ poolCores d 3 7, coreIdle d j = false) ∧ (∀ p ∈ d.dlr.preempts, p.trump ≠ 5) ∧ preemptable d 3 7 = [(248, b)]) ∧
    (let p : Preempt := { core := 255, trump := 5, background := 6 }
     let d := { dev with dlr := { dev.dlr with preempts := [p] } }
     d.dlr.preempts.find? (fun p => p.core == (255 : Fin 256).val && !p.late) = some p) ∧
    (let f := { flow 0 with stall := 3, progressed := false }
     let d := withCards (withFlows pool [f]) [poolCard 5 1 .ready]
     findFlow d (mkHandle 9 0) = some f ∧ f.raised = false ∧ f.progressed = false ∧ bit (regB d (DLR + 4)) 9 = true ∧ wdLimit d ≤ f.stall ∧ flowPending d (mkHandle 9 0) = true) ∧
    (let c := { cmd 0x41 0 [] with waiting := true, strides := 4 }
     let d := withCmd pool c
     d.hif.accepted.find? (fun c => c.fn == (0 : Fin 64).val && c.ring == (0 : Fin 32).val && c.waiting) = some c ∧ c.stalled = false ∧ wdLimit d < c.strides) ∧
    (let c := { poolCard 5 0 .waiting with deadline := 0xFFFFFFFF }
     findCard (withCards dev [c]) 5 = some c ∧ c.cls = 0 ∧ c.state = .waiting ∧ c.deadline = strideW (withCards dev [c]) - 1) ∧
    (let c := { poolCard 5 0 .inService with deadline := 0xFFFFFFFF }
     findCard (withCards dev [c]) 5 = some c ∧ c.cls = 0 ∧ c.state = .inService ∧ c.overran = false ∧ sdiff c.deadline (strideW (withCards dev [c])) < 0) := by
  refine ⟨?_, ?_, ?_, ?_, ?_, ?_, ?_, ?_, ?_, ?_⟩ <;> decide +kernel

/-- Core 255, on a team that is RUNNING, with a card at hand. -/
def core : Core := { id := 255, card := some 5 }
def on (x : Core) (ops : Nat := 0) : Dev := { poke dev [(TEAM 3 7, 2), (TEAM 3 7 + 4, 0x101000 + ops)] with cores := [x] }
def iss : Issue := { core := 255 }
theorem issuesOf {d : Dev} {i : Issue} (h : (coreRuns d (findCore d i.core.val) && ((findCore d i.core.val).issuing || !badFetch d (findCore d i.core.val)) &&
    i.guard.isNone && !(findCore d i.core.val).buf.any CEff.isDone) = true) : Issues d i := by
  simp only [Bool.and_eq_true, Bool.or_eq_true, Bool.not_eq_true', Option.isNone_iff_eq_none] at h
  exact ⟨h.1.1.1, h.1.1.2, fun p v g => (by rw [h.1.2] at g; cases g), h.2⟩
theorem quietOn (ops : Nat) (h : ∀ n, n < 4 → getB (on core ops) (MDCi 255) (8 + n) = false) : Quiet (on core ops) 255 :=
  ⟨rfl, rfl, rfl, rfl, rfl, rfl, rfl, ⟨rfl, rfl, rfl⟩, h⟩
/-- A guard that holds. -/
theorem test_witness_guard : Issues (on { core with p := 0x80, issuing := true }) { iss with guard := some (7, true) } :=
  ⟨by decide +kernel, .inl rfl, fun p v g => (by cases g; decide +kernel), by decide +kernel⟩
theorem test_witness_CoreInstructionsJoinTheirBundle : Issues (on core) iss ∧
    (opset (on core) iss.core.val = 0 ∧ (findCore (on core) iss.core.val).id = iss.core.val ∧ (15 : Fin 16).val < dn true ∧ (7 : Fin 16).val < dn false ∧ (0 : Fin 32) ≠ 31) ∧
    (VOp.add ≠ .shl ∧ VOp.add ≠ .asr ∧ 0 ≤ lane (dw true) 0 (rdD core 0) ∧ lane (dw true) 0 (rdD core 0) < dw true) ∧
    ((rdS (findCore (on core) iss.core.val) (.imm 31)).toNat < 32 ∧ (rdS core (.imm 63)).toNat < 64) ∧
    (Issues (on core 1) iss ∧ opset (on core 1) (findCore (on core 1) iss.core.val).id = 1) ∧
    scalarVal .shl (nth core.s 0 0) (rdS core (.imm 31)) = some 0 ∧ amovDst .b 4 = some (.b 4) := by
  refine ⟨issuesOf ?_, ?_, ?_, ?_, ⟨issuesOf ?_, ?_⟩, ?_⟩ <;> decide +kernel
/-- An access passes its checks, at a place with a property. -/
def accOk (x : Core) (a : Word) (n : Nat) (f : Place → Bool) : Bool := match accessCheck x a n with | .ok p => f p | .error _ => false
theorem accOf {x : Core} {a : Word} {n : Nat} {f : Place → Bool} (h : accOk x a n f = true) : ∃ p, accessCheck x a n = .ok p ∧ f p = true := by
  unfold accOk at h
  split at h
  · exact ⟨_, ‹_›, h⟩
  · simp at h
/-- Addresses at the ends of local memory, team memory and Paddock; a free bank. -/
theorem test_witness_CoreMemoryAndFlowInstructions :
    (Issues (on { core with a := List.replicate 8 0x1FFE0 }) iss ∧
      ∃ p, accessCheck (findCore (on { core with a := List.replicate 8 0x1FFE0 }) iss.core.val)
        (effAddr (findCore (on { core with a := List.replicate 8 0x1FFE0 }) iss.core.val) (lsSlot iss) (.ind 7)).1 32 = .ok p ∧ (p == .loc 0x1FFE0) = true) ∧
    ((∃ p, accessCheck core 0x1BFFFC 4 = .ok p ∧ (!badStore (on core) core 0x1BFFFC p) = true) ∧
     (∃ p, accessCheck core 0xFFFC 4 = .ok p ∧ (!badStore (on core) core 0xFFFC p) = true) ∧
     ∃ p, accessCheck core 0x15FFFFE 2 = .ok p ∧ (!badStore (on core) core 0x15FFFFE p) = true) ∧
    (core.hold = none ∧ grantedIn core.buf = none ∧ (core.loops.filter fun l => !l.rot).length < 3 ∧ (rdS core (.imm 65535)).toNat < 65536 ∧
      (∀ l ∈ core.loops, l.rot = false) ∧ (rdS core (.imm 1)).toNat ≠ 0 ∧ (1 : Fin 5).val ≠ 0 ∧ place 255 (nth core.a 0 0).toNat 32 = some (.loc 0) ∧
      ({ core with handler := true } : Core).handler = true) ∧
    (place 255 (nth (List.replicate 8 (0x100000 : Word)) 7 0).toNat 1 = some (.pad (31 * bankSize)) ∧ (getBank (on core) (coreQuarter 255) (31 * bankSize / bankSize)).owner = none) := by
  refine ⟨⟨issuesOf ?_, accOf ?_⟩, ⟨accOf ?_, accOf ?_, accOf ?_⟩, ?_, ?_⟩ <;> decide +kernel
theorem test_witness_OneInstructionBundles : Issues (on core) iss ∧ Quiet (on core) iss.core.val ∧ iss.last = true ∧ scalarVal .add 1 2 = some 3 ∧
    (let d := on { core with a := List.replicate 8 0xFFFC }
     Memory.wf d = true ∧ (nth (findCore d iss.core.val).a 7 0).toNat + 4 ≤ 0x10000 ∧ (nth (findCore d iss.core.val).a 7 0).toNat % 4 = 0 ∧ fld (teamCfg d iss.core.val) 8 5 = 16 ∧
     Issues d iss) := by
  refine ⟨issuesOf ?_, quietOn 0 ?_, ?_, ?_, ?_, ?_, ?_, ?_, issuesOf ?_⟩ <;> decide +kernel
theorem test_witness_CoreFaultsAndControl :
    (Issues (on { core with a := List.replicate 8 31 }) iss ∧ (effAddr (findCore (on { core with a := List.replicate 8 31 }) iss.core.val) (lsSlot iss) (.ind 0)).1.toNat % 32 ≠ 0) ∧
    ((0x1FFFE + 2 : Nat) % 4 = 0 ∧ place 255 0x20000 4 = none) ∧ opset (on core) (findCore (on core) iss.core.val).id = 0 ∧
    3 ≤ (({ core with loops := List.replicate 3 ⟨0, 32, 1, false, 0, 0⟩ } : Core).loops.filter fun l => !l.rot).length ∧ ({ core with hold := some (0, 0) } : Core).hold ≠ none ∧
    (coreRuns (on { core with issuing := true }) (findCore (on { core with issuing := true }) 255) = true ∧ rdP { core with issuing := true } 7 ≠ true) ∧
    (halted (on { core with wbuf := [(0, [1])] }) = false ∧ (findCore (on { core with wbuf := [(0, [1])] }) (255 : Fin 256).val).wbuf = (0, [1]) :: []) ∧
    (let d := on { core with preemptReq := true }
     coreRuns d (findCore d 255) = true ∧ (findCore d 255).preemptReq = true ∧ (findCore d 255).issuing = false ∧ (findCore d 255).hold = none ∧ (findCore d 255).handler = false) ∧
    (coreQuarter 255 < dev.variant.quarters ∧ coreTeam 255 < dev.variant.teams ∧ (1 : Word).getLsbD 0 = true ∧ (findCore (on core) 255).halted = false ∧ (findCore (on core) 255).id = 255) ∧
    (findCore (on { core with halted := true }) 255).halted = true := by
  refine ⟨⟨issuesOf ?_, ?_⟩, ?_, ?_, ?_, ?_, ?_, ?_, ?_, ?_, ?_⟩ <;> decide +kernel

/-- A conference with a participant, an audio stream that takes records, an inbound and an outbound video leg of the participant, a
context, a layout with copies and a slate, a video stream. -/
def med : Dev :=
  let o (h p : Nat) (m : Nat := 0) : Obj := { handle := h, fn := 0, session := ses, parent := p, media := m }
  { dev with
    obj := { objs [(2, 0, ses), (3, 0, mkHandle 2 0), (6, 0, mkHandle 2 0)] with objs := [o (mkHandle 2 0) ses, o (mkHandle 3 0) (mkHandle 2 0),
      o (mkHandle 4 0) (mkHandle 3 0) 1, o (mkHandle 4 1) (mkHandle 3 0) 1, o (mkHandle 5 0) (mkHandle 3 0), o (mkHandle 6 0) (mkHandle 2 0),
      o (mkHandle 7 0) (mkHandle 2 0), o (mkHandle 7 1) (mkHandle 6 0) 1, o (mkHandle 8 0) (mkHandle 4 0)] }
    aud := { confs := [conf], parts := [part 0], units := [{ conf := mkHandle 2 0, home := 0, parts := [mkHandle 3 0] }]
             streams := [{ handle := mkHandle 7 0, fn := 0, conf := mkHandle 2 0, codec := 3, frame := 3, lowLat := true, bitrate := 6000, gain := 0 }] }
    fwd := { legs := [leg 0 false 1, leg 1 true 1] }
    sec := { keys := [{ handle := mkHandle 8 0, fn := 0, leg := mkHandle 4 0, profile := 5, rtcp := true, state := .active, fromIndex := 0, window := 3, invLimit := 16,
                        master := 1, salt := 1 }] }
    vid := { ctxs := [{ handle := mkHandle 5 0, fn := 0, codec := 2, prof := 1, deferred := false, pyr := 3, waitRap := false, refReq := 2, slack := 0, reasm := 0,
                        segMax := 0, maxW := 64, maxH := 64, backlog := 8, tenBit := true, layer := 0, pt := 96, inLeg := mkHandle 4 0, fbLeg := mkHandle 4 1,
                        dpb := 8, surfaces := 11, bufBytes := 524288, waiting := false }]
             layouts := [{ handle := mkHandle 6 0, fn := 0, home := 0, comp := 3, period := 20, phase := 19, tenBit := false, outCs := 0, hbmCopy := true, slates := 1,
                           outW := 64, outH := 64, encPix := 0, active := { bg := 1 }, shadow := { bg := 2 } }]
             encs := [{ handle := mkHandle 7 1, fn := 0, layout := mkHandle 6 0, codec := 2, prof := 0, surface := true, sLayers := 1, tLayers := 1, period := 20, phase := 2,
                        home := 0, pipe := 0, outW := 64, outH := 64, tenBit := false, mtu := 1200, pt := 0, ddId := 0,
                        cfg := { rates := [32000, 0, 0], waveN := 8, qpMin := 0, qpMax := 255, cap := 24 } }] } }
theorem test_witness_AudioObjectsAreCreatedAndSet :
    newHandle dev 8 = some (mkHandle 8 0) ∧ Goes med 0x10 (cmd 0x10 ses [(8, 1, 0x30), (10, 1, 8), (11, 1, 3), (12, 4, 1)]) confCreateAct ∧
    Goes med 0x11 (cmd 0x11 (mkHandle 2 0) [(8, 1, 0xA), (9, 1, 3), (10, 1, 14), (16, 4, mkHandle 7 0), (20, 4, 1), (24, 4, 5)]) partCreateAct ∧
    Goes med 0x11 (cmd 0x11 (mkHandle 2 0) [(8, 1, 1), (11, 1, 16), (14, 1, 255), (15, 1, 255)]) partCreateAct ∧
    hKind (dHandle (cmd 0x38 (mkHandle 2 0) []).desc) ≠ 6 ∧
    Goes med 0x38 (cmd 0x38 (mkHandle 2 0) [(8, 1, 3), (9, 1, 3), (10, 1, 1), (12, 4, 510000), (20, 4, 1)]) encCreateAct ∧
    Goes med 0x12 (cmd 0x12 (mkHandle 3 0) [(8, 1, 0x3F), (9, 1, 7), (12, 2, 0x7FFF), (16, 4, mkHandle 7 0)]) partSetAct ∧
    findEnc med (mkHandle 7 0) = none ∧ Goes med 0x39 (cmd 0x39 (mkHandle 7 0) [(8, 1, 3), (12, 4, 6000), (16, 2, 0xFFFF)]) encSetAct ∧
    Goes med 0x13 (cmd 0x13 (mkHandle 2 0) [(8, 1, 3), (12, 2, 1), (14, 2, 2), (16, 4, 5)]) craftSetAct ∧
    Goes med 0x13 (cmd 0x13 0 []) craftSetAct := by
  refine ⟨?_, goesOf ?_, goesOf ?_, goesOf ?_, ?_, goesOf ?_, goesOf ?_, ?_, goesOf ?_, goesOf ?_, goesOf ?_⟩ <;> decide +kernel
/-- `med` with a root key of zeros, programmed and locked. -/
def rooted : Dev := { med with sys := { med.sys with keyProg := true, keyLock := true } }
/-- The master key 01 … 10 and salt 11 … 1E, wrapped for the PF with generation 0 by another program (RFC 5649 under the KEK that
R173 derives from the root key of zeros). -/
def blob : List Byte := [93, 72, 203, 255, 178, 131, 28, 88, 111, 252, 165, 96, 1, 28, 158, 41, 171, 17, 250, 114, 149, 33, 134, 47, 80, 135, 43, 2, 103, 12,
  110, 163, 112, 124, 121, 32, 255, 111, 83, 9]
theorem test_witness_LegsAndKeysComplete :
    Goes med 0x18 (cmd 0x18 (mkHandle 3 0) [(8, 1, 3), (9, 1, 7), (10, 1, 15), (12, 4, 5), (36, 4, 1)]) (legCreateAct (.ok [])) ∧
    Goes med 0x18 (cmd 0x18 (mkHandle 3 0) [(8, 1, 2), (12, 4, 0xFFFFFFFF), (27, 1, 5)]) (legCreateAct (.ok (List.replicate 64 0))) ∧
    (let c := cmd 0x19 (mkHandle 4 1) [(8, 1, 0x63), (9, 1, 3), (10, 1, 0xA), (12, 4, 32000), (16, 4, 100000000), (24, 2, 500), (36, 1, 7), (37, 1, 15)]
     Goes med 0x19 c legSetAct ∧ findLeg (withCmd med c) (dHandle c.desc) = some (leg 1 true 1)) ∧
    (let c := cmd 0x1A (mkHandle 4 1) [(8, 4, mkHandle 4 0)]
     Goes med 0x1A c fanoutAddAct ∧ findLeg (withCmd med c) (dHandle c.desc) = some (leg 1 true 1)) ∧
    (let c := cmd 0x1B (mkHandle 4 1) []
     let d := { med with fwd := { legs := [leg 0 false 1, { leg 1 true 1 with source := some (mkHandle 4 0), picEnd := false }] } }
     Goes d 0x1B c fanoutDelAct ∧ (findLeg (withCmd d c) (dHandle c.desc)).isSome = true) ∧
    Goes rooted 0x20 (cmd 0x20 (mkHandle 4 0) [(9, 1, 1), (16, 6, 2 ^ 48 - 1), (32, 2, 40)]) (keyLoadAct (.ok blob)) ∧
    (let c := cmd 0x20 (mkHandle 4 0) [(32, 2, 40)]
     Runs (withCmd med c) 0x20 0 0 c ∧ (keyLoadAct (.ok []) (withCmd med c) c).toOption = none ∧
     (match keyLoadAct (.ok []) (withCmd med c) c with | .error f => f.st == ST_UNWRAP_FAIL | _ => false) = true) ∧
    Goes med 0x21 (cmd 0x21 (mkHandle 8 0) []) keyRetireAct := by
  refine ⟨goesOf ?_, goesOf ?_, ⟨goesOf ?_, ?_⟩, ⟨goesOf ?_, ?_⟩, ⟨goesOf ?_, ?_⟩, goesOf ?_, ⟨runsOf ?_, ?_, ?_⟩, goesOf ?_⟩ <;> decide +kernel
/-- R175: bytes 8 to 10 answer the key check value (computed by another program from RFC 3711's key derivation). -/
theorem test_key_check_value :
    keyCheck { handle := 0, fn := 0, leg := 0, profile := 0, rtcp := false, state := .standby, fromIndex := 0, window := 0, invLimit := 0,
               master := 0x0102030405060708090A0B0C0D0E0F10, salt := 0x1112131415161718191A1B1C1D1E } = [217, 20, 181] := by decide +kernel
theorem test_witness_VideoObjectsComplete :
    Goes med 0x28 (cmd 0x28 (mkHandle 3 0) [(8, 1, 0x12), (9, 1, 0x2F), (12, 2, 4096), (14, 2, 2304), (16, 2, 120), (18, 2, 1), (20, 4, 1), (24, 4, 64000),
      (28, 1, 64), (32, 4, mkHandle 4 0), (36, 4, mkHandle 4 1)]) ctxCreateAct ∧
    (let c := cmd 0x29 (mkHandle 5 0) [(8, 1, 2)]
     Goes med 0x29 c ctxRefreshAct ∧ (findCtx (withCmd med c) (dHandle c.desc)).isSome = true ∧ dBits c.desc 8 2 1 = 0) ∧
    (let c := cmd 0x30 (mkHandle 2 0) [(8, 1, 0xC0), (9, 1, 0xFF), (10, 1, 19), (11, 1, 4), (12, 2, 64), (14, 2, 2304), (16, 4, 1), (20, 4, 2 ^ 30 - 1)]
     Goes med 0x30 c layoutCreateAct) ∧
    (let c := cmd 0x31 (mkHandle 6 0) [(8, 1, 1), (9, 1, 255), (10, 1, 255), (12, 4, 5)]
     Goes med 0x31 c (layoutShadowAct (.ok [])) ∧ dBits c.desc 8 0 2 = 1) ∧
    (let c := cmd 0x31 (mkHandle 6 0) [(9, 1, 63), (10, 1, 0), (11, 1, 1)]
     Goes med 0x31 c (layoutShadowAct (.ok (leBytes (2 * 256 ^ 12 + 2 * 256 ^ 14) 64))) ∧ dBits c.desc 8 0 2 = 0) ∧
    (let c := cmd 0x31 (mkHandle 6 0) [(8, 1, 2), (9, 1, 0), (10, 1, 255), (24, 2, 64), (26, 2, 16)]
     Goes med 0x31 c (layoutShadowAct (.ok [])) ∧ dBits c.desc 8 0 2 = 2 ∧ (findLayout (withCmd med c) (dHandle c.desc)).isSome = true) ∧
    (let c := cmd 0x32 (mkHandle 6 0) [(8, 1, 3), (10, 1, 255)]
     Goes med 0x32 c layoutCommitAct ∧ (findLayout (withCmd med c) (dHandle c.desc)).isSome = true) ∧
    (let c := cmd 0x38 (mkHandle 6 0) [(8, 1, 0x12), (9, 1, 5), (11, 1, 0xFF), (12, 4, 1000000), (28, 2, 8800), (31, 1, 14), (32, 4, 1)]
     Goes med 0x38 c encCreateAct ∧ hKind (dHandle c.desc) = 6 ∧ (findLayout (withCmd med c) (dHandle c.desc)).isSome = true) ∧
    (let c := cmd 0x39 (mkHandle 7 1) [(8, 1, 0x1E), (9, 1, 1), (10, 1, 64), (24, 1, 255), (25, 1, 255), (26, 1, 16)]
     Goes med 0x39 c encSetAct ∧ (findEnc (withCmd med c) (dHandle c.desc)).isSome = true) := by
  refine ⟨goesOf ?_, ⟨goesOf ?_, ?_, ?_⟩, goesOf ?_, ⟨goesOf ?_, ?_⟩, ⟨goesOf ?_, ?_⟩, ⟨goesOf ?_, ?_, ?_⟩, ⟨goesOf ?_, ?_⟩, ⟨goesOf ?_, ?_, ?_⟩, goesOf ?_, ?_⟩ <;> decide +kernel
theorem test_witness_KernelsRulesAndFramesComplete :
    Goes dev 0x48 (cmd 0x48 0 [(16, 4, 32), (20, 4, 0x40000), (24, 1, 15), (25, 1, 255)]) (kernelLoadAct (.ok [])) ∧
    Goes dev 0x50 (cmd 0x50 0 [(12, 2, 1), (16, 4, 4095), (20, 4, 1)]) (ruleWriteAct (.ok (leBytes (8 * 2 ^ 58) 8))) ∧
    (let c := cmd 0x50 0 [(8, 1, 1), (12, 2, 1), (16, 4, 8191), (20, 4, 1)]
     Goes dev 0x50 c (ruleWriteAct (.ok [])) ∧ dBits c.desc 8 0 2 = 1) ∧
    (let c := cmd 0x50 0 [(8, 1, 2), (20, 4, 1)]
     Goes dev 0x50 c (ruleWriteAct (.ok (leBytes 0 64))) ∧ (emInsertAll (withCmd dev c) (recordsOf (ruleSize 2) 1 (leBytes 0 64))).2 = 0) ∧
    (let c := cmd 0x50 0 [(8, 1, 3), (20, 4, 1)]
     Goes dev 0x50 c (ruleWriteAct (.ok (leBytes 0 64))) ∧ dBits c.desc 8 0 2 = 3) ∧
    Goes dev 0x51 (cmd 0x51 0 [(12, 2, 1)]) ruleSwapAct ∧
    (let d := { dev with pke := { dev.pke with swap := some ⟨1, 1, 0⟩ } }
     spWf d.regs = true ∧ drained d = true ∧ halted d = false ∧ swapLimit d ≤ swapLimit d ∧ timely d (0 + 5) = true ∧ 5 ≤ swapLimit d ∧
     swapLimit d < swapLimit d + 1 ∧ d.tim.clock ≤ 0 + swapLimit d) ∧
    (let d := { dev with pke := { dev.pke with swap := some ⟨1, 1, 0⟩, recirc := [{ id := 0, port := 0, bytes := [] }] } }
     drained d = false ∧ halted d = false ∧ timely d (max d.tim.clock (0 + swapLimit d)) = true) ∧
    (let d := setUState (setUState dev (portUnit 7) 2) ⟨10, 0xFF, 7⟩ 2
     Goes d 0x58 (cmd 0x58 0 [(8, 1, 7), (12, 2, 1514)]) (txFrameAct (.ok []))) := by
  refine ⟨goesOf ?_, goesOf ?_, ⟨goesOf ?_, ?_⟩, ⟨goesOf ?_, ?_⟩, ⟨goesOf ?_, ?_⟩, goesOf ?_, ?_, ?_, goesOf ?_⟩ <;> decide +kernel

/-- Port 7 RUNNING at 10 Gb/s (type 1) on lane 15, active, its link in a state; the lanes RUNNING, lane 15 as given. -/
def port (lnk : Nat) (lane : Nat := 2) (role : Nat := 1) : Dev :=
  let d := poke dev [(MACP 7, 2 + lnk * 4096 + (if lnk = 5 then 2048 else 0) + 65536), (MACP 7 + 4, 1 + 0xF0), (MACP 7 + 0xC, role), (SDS 15, lane)]
  putPort d 7 { group := [15] }
theorem test_witness_LinksAndRolesComplete :
    portIn (port 1) (7 : Fin 8).val 1 = true ∧ (spWf (port 1).regs = true ∧ chooseGroup (port 1) 7 = some (1, [15])) ∧
    chooseGroup (port 1 (2 + 0x10000)) 7 = none ∧
    (let d := poke (port 2) [(MACP 7 + 8, 2)]
     portIn d (7 : Fin 8).val 2 = true ∧ advertises d (7 : Fin 8).val 1 = true ∧ typeLanes 1 ≤ (getPort d (7 : Fin 8).val).group.length) ∧
    portIn (port 3) (7 : Fin 8).val 3 = true ∧
    (portIn (port 4) (7 : Fin 8).val 4 = true ∧ [0].length = (getPort (port 4) (7 : Fin 8).val).group.length ∧
      (∀ i, i < (getPort (port 4) (7 : Fin 8).val).group.length → i ∈ [0]) ∧ ([0].length ≤ 1 ∨ [0] ≠ (List.range 1).reverse)) ∧
    (portIn (port 5) (7 : Fin 8).val 5 = true ∧ (15 : Fin 16).val ∈ (getPort (port 5) (7 : Fin 8).val).group) ∧
    portIn (port 0) (7 : Fin 8).val 0 = true ∧
    (let d := putPort (port 5) 7 { group := [] }
     portOfLane d (15 : Fin 16) = some 7 ∧ uState d (laneUnit (15 : Fin 16)) = 2 ∧ laneExcluded d (15 : Fin 16) = false ∧
     faultPossible d 7 (15 : Fin 16) 2 = true ∧ halted d = false ∧ (15 : Fin 16).val ∉ (getPort d 7).group) ∧
    (portOfLane (port 5) (15 : Fin 16) = some 7 ∧ uState (port 5) (laneUnit (15 : Fin 16)) = 2 ∧ laneExcluded (port 5) (15 : Fin 16) = false ∧
     faultPossible (port 5) 7 (15 : Fin 16) 1 = true ∧ halted (port 5) = false ∧ link (port 5) 7 = 5 ∧ (15 : Fin 16).val ∈ (getPort (port 5) 7).group) ∧
    (let d := putPort (port 5 0x17002) 7 { group := [] }
     laneExcluded d (15 : Fin 16) = true ∧ getF d (SDS (15 : Fin 16)) 12 4 ≠ 0 ∧ (15 : Fin 16).val ∉ d.mac.stopped ∧ halted d = false ∧
     nth d.mac.passes (15 : Fin 16) 0 < 2 ∧ 2 ≤ nth { d.mac with passes := List.replicate 16 2 }.passes (15 : Fin 16) 0) ∧
    (let d := poke (port 5) ((List.range 7).map fun p => (MACP p, 2 + 10 * 65536)) 
     let d := poke d ((List.range 7).map fun p => (MACP p + 0xC, 1))
     bit 1 0 = true ∧ portStarted d (7 : Fin 8) = true ∧ 800 < activeSum d (7 : Fin 8) + portRate d (7 : Fin 8)) ∧ bit 0 0 = false ∧
    (let d := poke (port 1 2 0x161) [(MACP 6, 2 + 5 * 4096 + 65536), (MACP 6 + 4, 1 + 0xE0)]
     let d := putPort { d with tim := { d.tim with stride := 1 } } 7 { group := [15], failPend := some 0 }
     (getPort d (7 : Fin 8)).failPend = some 0 ∧ 0 < d.tim.stride ∧ halted d = false ∧ isActive d (7 : Fin 8) = true ∧
     getB d (MACP (7 : Fin 8) + 0xC) 8 = true ∧ linkUp d (7 : Fin 8) = false) := by
  refine ⟨?_, ?_, ?_, ?_, ?_, ?_, ?_, ?_, ?_, ?_, ?_, ?_, ?_⟩ <;> decide +kernel
theorem test_witness_FramesAtAPort :
    (receives (port 5 2 0) (7 : Fin 8) = true ∧ rxBlind (port 5 2 0) (7 : Fin 8) = true) ∧
    (receives (port 5) (7 : Fin 8) = true ∧ rxBlind (port 5) (7 : Fin 8) = false ∧ (List.replicate 63 (0 : Byte)).length < 64) ∧
    (let b : List Byte := List.replicate 64 0
     64 ≤ b.length ∧ beNat (slice b 12 2) ≠ 0x8808 ∧
     (let d := { port 5 with pke := { (port 5).pke with poolUsed := 2 ^ 40, portUsed := List.replicate 8 (2 ^ 40) } }
      receives d (7 : Fin 8) = true ∧ rxBlind d (7 : Fin 8) = false ∧ portFree d (7 : Fin 8) + poolFree d < cellsFor (maxFrame d (7 : Fin 8) - 4)) ∧
     b.length ≤ maxFrame (port 5) (7 : Fin 8) ∧ cellsFor (maxFrame (port 5) (7 : Fin 8) - 4) ≤ portFree (port 5) (7 : Fin 8) + poolFree (port 5)) ∧
    timely (port 5) 5000 = true ∧
    (getB (poke (port 5) [(MACP 7 + 0x14, 1)]) (MACP 7 + 0x14) 0 = true ∧ getB (poke (port 5) [(MACP 7 + 0x14, 1)]) (MACP 7 + 0x14) 1 = false ∧ 65535 < 65536) ∧
    (halted (port 5) = false ∧ linkPaused (port 5) (7 : Fin 8) (1000 * 5000) = false ∧ prioPaused (port 5) (7 : Fin 8) (7 : Fin 8) (1000 * 5000) = false) ∧
    (let f : TxFrame := { id := 0, port := 7, queue := 0, bytes := [1] }
     let d := putPort (port 5) 7 { group := [15], txq := [f] }
     (getPort d (7 : Fin 8)).txq = f :: [] ∧ halted d = false ∧ linkPaused d (7 : Fin 8) (65536 * 1000 / 65536) = false) := by
  refine ⟨?_, ?_, ?_, ?_, ?_, ?_, ?_⟩ <;> decide +kernel

/-- A packet of bytes. -/
def pkt (bytes : List Byte) : Pkt := { id := 0, port := 7, bytes := bytes }
/-- The packet engine RUNNING, with a program of one instruction at 4095 in epoch 0, run by thread 255 on a packet of 256 bytes. -/
def pke (ks : List Pkt) (ready : List Pkt) : Dev :=
  let d := setUState dev ⟨7, 0xFF, 0⟩ 2
  { d with pke := { d.pke with recirc := ks, ready := ready } }
def thr : Thread := { th := 255, pkt := pkt (List.replicate 256 1), pc := 4095 }
def ins (op sub imm off wid : Nat) (ib : Nat := 1) : Nat := op * 2 ^ 58 + ib * 2 ^ 48 + sub * 2 ^ 44 + imm * 2 ^ 28 + off * 32 + wid
def parsing (t : Thread) (w : Nat) : Dev :=
  let d := pke [] []
  { d with pke := { d.pke with threads := [t], prog := [[(4095, BitVec.ofNat 64 w)], []] } }
def parsesB (d : Dev) (th op : Nat) (t : Thread) (w : Nat) : Bool :=
  d.pke.threads.find? (fun x => x.th == th) == some t && !t.waiting && pkeWorks d && decide (t.issued < 128) && decide (t.pc < 4096) &&
  (spGet (nth d.pke.prog (t.pkt.epoch % 2) []) t.pc).toNat == w && iOp w == op
theorem parsesOf {d : Dev} {th op : Nat} {t : Thread} {w : Nat} (h : parsesB d th op t w = true) : Parses d th op t w := by
  simp only [parsesB, Bool.and_eq_true, beq_iff_eq, decide_eq_true_eq, Bool.not_eq_true'] at h
  exact ⟨h.1.1.1.1.1.1, h.1.1.1.1.2, h.1.1.1.1.1.2, h.1.1.1.2, h.1.1.2, h.1.2, h.2⟩
theorem test_witness_ParseInstructionsComplete :
    (pkeWorks (pke [pkt []] []) = true ∧ (∀ t ∈ (pke [pkt []] []).pke.threads, t.th ≠ (255 : Fin 256).val) ∧ (pke [pkt []] []).pke.recirc = pkt [] :: []) ∧
    (let d := pke [] [pkt []]
     pkeWorks d = true ∧ uState d ⟨7, 0xFF, 0⟩ = 2 ∧ d.pke.recirc = [] ∧ d.pke.ready = pkt [] :: [] ∧ d.pke.swap = none ∧ (pkt []).oversize = false) ∧
    (Parses (parsing thr (ins 1 0 0 (252 * 8) 31)) (255 : Fin 256).val 1 thr (ins 1 0 0 (252 * 8) 31) ∧ iSub (ins 1 0 0 (252 * 8) 31) = 0 ∧
      accessBad thr 252 4 = none ∧ accessBad thr 253 4 = some 1) ∧
    (Parses (parsing thr (ins 2 5 31 0 0)) (255 : Fin 256).val 2 thr (ins 2 5 31 0 0) ∧ iSub (ins 2 5 31 0 0) = 5 ∧ (opB thr (ins 2 5 31 0 0)).toNat < 32) ∧
    (Parses (parsing thr (ins 2 6 32 0 0)) (255 : Fin 256).val 2 thr (ins 2 6 32 0 0) ∧ iSub (ins 2 6 32 0 0) = 6 ∧ 32 ≤ (opB thr (ins 2 6 32 0 0)).toNat) ∧
    (Parses (parsing thr (ins 3 4 0 0 0)) (255 : Fin 256).val 3 thr (ins 3 4 0 0 0) ∧ iSub (ins 3 4 0 0 0) ≤ 4) ∧
    (Parses (parsing thr (ins 4 3 256 0 0)) (255 : Fin 256).val 4 thr (ins 4 3 256 0 0) ∧ iSub (ins 4 3 256 0 0) ≤ 3) ∧
    (let t := { thr with nodes := 12 }
     Parses (parsing t (ins 5 0 0 0 0)) (255 : Fin 256).val 5 t (ins 5 0 0 0 0) ∧ iSub (ins 5 0 0 0 0) = 0) ∧
    (Parses (parsing thr (ins 6 3 36 0 0)) (255 : Fin 256).val 6 thr (ins 6 3 36 0 0) ∧ iSub (ins 6 3 36 0 0) ≤ 3 ∧ iImm (ins 6 3 36 0 0) % 64 + 3 + 1 ≤ 40) ∧
    (let w := ins 7 15 24 (240 * 8) 0
     Parses (parsing thr w) (255 : Fin 256).val 7 thr w ∧ iOff w % 8 = 0 ∧ iImm w % 64 + iSub w + 1 ≤ 40 ∧ accessBad thr (thr.cursor + iOff w / 8) (iSub w + 1) = none) ∧
    (Parses (parsing thr (ins 8 1 0 0 0)) (255 : Fin 256).val 8 thr (ins 8 1 0 0 0) ∧ iSub (ins 8 1 0 0 0) ≤ 1) ∧
    (Parses (parsing thr (ins 8 2 0 0 0)) (255 : Fin 256).val 8 thr (ins 8 2 0 0 0) ∧ iSub (ins 8 2 0 0 0) = 2) ∧
    (Parses (parsing thr (ins 9 2 0 0 0)) (255 : Fin 256).val 9 thr (ins 9 2 0 0 0) ∧ iSub (ins 9 0 0 0 0) = 0 ∧ iSub (ins 9 1 0 0 0) = 1 ∧ iSub (ins 9 2 0 0 0) = 2) ∧
    (Parses (parsing thr (ins 10 0 8 0 0)) (255 : Fin 256).val 10 thr (ins 10 0 8 0 0) ∧ iSub (ins 10 0 8 0 0) = 0 ∧ iImm (ins 10 0 8 0 0) % 16 ≤ 8) ∧
    (Parses (parsing thr (ins 10 0 9 0 0)) (255 : Fin 256).val 10 thr (ins 10 0 9 0 0) ∧ 8 < iImm (ins 10 0 9 0 0) % 16) ∧
    (let t := { thr with waiting := true }
     (parsing t 0).pke.threads.find? (fun x => x.th == (255 : Fin 256).val) = some t ∧ t.waiting = true ∧ pkeWorks (parsing t 0) = true) ∧
    (let d := { dev with pke := { dev.pke with slow := [pkt []] } }
     d.pke.slow = pkt [] :: [] ∧ groomUp d 3 = true) := by
  refine ⟨?_, ?_, ⟨parsesOf ?_, ?_, ?_, ?_⟩, ⟨parsesOf ?_, ?_, ?_⟩, ⟨parsesOf ?_, ?_, ?_⟩, ⟨parsesOf ?_, ?_⟩, ⟨parsesOf ?_, ?_⟩, ⟨parsesOf ?_, ?_⟩, ⟨parsesOf ?_, ?_, ?_⟩,
    ⟨parsesOf ?_, ?_⟩, ⟨parsesOf ?_, ?_⟩, ⟨parsesOf ?_, ?_⟩, ⟨parsesOf ?_, ?_⟩, ⟨parsesOf ?_, ?_, ?_⟩, ⟨parsesOf ?_, ?_⟩, ?_, ?_⟩ <;> decide +kernel
theorem test_witness_LookupsAndActions : (emInsert dev 15 [] 0 none).isSome = true ∧ actKind 2 = 2 ∧ actKind 0 = 0 ∧
    (actKind 0xD01 = 1 ∧ nth dev.pke.slowCnt (actClass 0xD01) 0 < nth dev.pke.slowRate (actClass 0xD01) 0 ∧ dev.pke.slow.length < 8192) ∧
    (let d := { dev with pke := { dev.pke with acl := [[⟨5, [1], [255], 0⟩, ⟨8191, [1], [255], 0⟩], []] } }
     aclFind d 0 [1] = some ⟨5, [1], [255], 0⟩ ∧ (nth d.pke.acl 0 []).Pairwise (fun x y => x.idx < y.idx)) := by
  refine ⟨?_, ?_, ?_, ?_, ?_⟩ <;> decide +kernel
/-- The engines RUNNING, with a packet of a UDP payload for leg 0, which has the ACTIVE slot of `med`. -/
def payload (n : Nat) : List Byte := List.replicate 4 0 ++ [0, BitVec.ofNat 8 (n + 8), 0, 0, 0x80, 0, 0, 5] ++ List.replicate (n - 4) 0
def srtp (n : Nat) (cr : Crypto := { leg := mkHandle 4 0 }) : Dev :=
  let d := setUState (setUState med secUnit 2) fwdUnit 2
  { d with sec := { d.sec with crypto := [cr], inq := [{ pkt (payload n) with target := mkHandle 4 0, profile := 1 }] } }
def slot : Key := { handle := mkHandle 8 0, fn := 0, leg := mkHandle 4 0, profile := 5, rtcp := true, state := .active, fromIndex := 0, window := 3, invLimit := 16,
                    master := 1, salt := 1 }
theorem test_witness_SrtpEnginesComplete :
    (let k : Pkt := { pkt (payload 16) with target := mkHandle 4 0, profile := 1 }
     let d := srtp 16
     d.sec.inq = k :: [] ∧ running d secUnit = true ∧ findLeg d k.target = some (leg 0 false 1) ∧ (leg 0 false 1).out = false ∧ (udpPayload k).length ≤ 9216 ∧
     k.profile ≠ 2 ∧ rtpHeader (udpPayload k) = some 12 ∧ estimateIndex (getCrypto d (mkHandle 4 0) 0) (rtpSeq (udpPayload k)) = 5 ∧
     inSlot d (mkHandle 4 0) 5 = some slot ∧ 12 + tagLen slot.profile false ≤ (udpPayload k).length ∧
     replayed (getCrypto d (mkHandle 4 0) 0).started 0 0 (windowSize slot.window) 5 = false ∧ invSpent slot = false) ∧
    (rtpHeader (udpPayload { pkt (payload 15) with target := mkHandle 4 0 }) = some 12 ∧
      (udpPayload { pkt (payload 15) with target := mkHandle 4 0 }).length < 12 + tagLen slot.profile false) ∧
    (let cr : Crypto := { leg := mkHandle 4 0, started := true, high := 5, bitmap := 1 }
     getCrypto (srtp 16 cr) (mkHandle 4 0) 0 = cr ∧ estimateIndex cr 5 = 5 ∧ replayed cr.started cr.high cr.bitmap (windowSize slot.window) 5 = true) ∧
    (let d := { srtp 16 with fwd := { legs := [{ leg 0 true 1 with out := true }] } }
     running d secUnit = true ∧ findLeg d (mkHandle 4 0) = some { leg 0 true 1 with out := true }) ∧ (1024 : Nat) ≤ 1024 ∧
    (let d := { srtp 16 with sec := { (srtp 16).sec with outq := [⟨mkHandle 4 1, []⟩] } }
     d.sec.outq = ⟨mkHandle 4 1, []⟩ :: [] ∧ running d secUnit = true ∧ findLeg d (mkHandle 4 1) = some (leg 1 true 1)) ∧
    (bit 1 0 = true ∧ getB dev (SEC + 4) 0 = false) ∧ (spWf (poke dev [(SEC + 4, 1)]).regs = true ∧ getB (poke dev [(SEC + 4, 1)]) (SEC + 4) 0 = true) := by
  refine ⟨?_, ?_, ?_, ?_, ?_, ?_, ?_, ?_⟩ <;> decide +kernel
def src : SPkt := { src := mkHandle 7 1, bytes := [] }
def fwding (rtcp : List (Nat × Nat × List Byte)) : Dev := { srtp 16 with fwd := { (srtp 16).fwd with inq := [src], rtcp := rtcp } }
theorem test_witness_ForwardingCompletes :
    ((fwding []).fwd.inq = src :: [] ∧ running (fwding []) fwdUnit = true ∧ running (fwding []) secUnit = true) ∧
    ((leg 1 true 1).ssrc < 2 ^ 32 ∧ ({ leg 1 true 1 with seq := 65535 } : Leg).seq < 65536) ∧
    (let b : List Byte := [0x81, 205, 0, 3]
     (fwding [(mkHandle 4 0, 5, b)]).fwd.rtcp = (mkHandle 4 0, 5, b) :: [] ∧ running (fwding [(mkHandle 4 0, 5, b)]) fwdUnit = true ∧
     running (fwding [(mkHandle 4 0, 5, b)]) secUnit = true ∧ isNack (toNats b) = true) ∧
    isNack (toNats [0x81, 206, 0, 3]) = false ∧
    (findLeg (fwding []) (mkHandle 4 1) = some (leg 1 true 1) ∧
     (match rtxFind (fwding []) { leg 1 true 1 with cfg := { rtxMode := 1 } } 65535 with | .error r => r == 0 | .ok _ => false) = true) ∧
    (choices (fwding []) (mkHandle 7 1) = [((0, 0), 32000)] ∧ 32000 ≤ allowance { leg 1 true 1 with bwe := 50000000 } ∧ 0 ≤ (leg 1 true 1).cfg.sCap) := by
  refine ⟨?_, ?_, ?_, ?_, ?_, ?_⟩ <;> decide +kernel
/-- A leg that resends, with one packet in the store. -/
def rleg : Leg := { leg 1 true 1 with cfg := { rtxMode := 1 } }
def rent (resends : Nat) : RtxEnt :=
  { slot := rtxSlotOf med (mkHandle 4 1) 65535, leg := 1, gen := 0, n := 65535, pos := 0, len := 64, stride := 0, resends := resends }
def stored (resends : Nat) : Dev := { med with fwd := { legs := [rleg], recs := [(0, 64, 0)], rtx := [rent resends] } }
theorem rtx_found (n : Nat) : rtxFind (stored n) rleg 65535 = .ok (rent n) := by
  unfold rtxFind
  rw [show (stored n).fwd.rtx.find? (fun e => e.slot == rtxSlotOf (stored n) rleg.handle 65535) = some (rent n) from
    List.find?_cons_of_pos (beq_iff_eq.mpr rfl)]
  rfl
theorem test_witness_stored_packet : findLeg (stored 2) (mkHandle 4 1) = some rleg ∧ rleg.cfg.rtxMode ≠ 0 ∧
    (rtxFind (stored 2) rleg 65535 = .ok (rent 2) ∧ rleg.cfg.rtxMax ≤ (rent 2).resends) ∧
    (rtxFind (stored 1) rleg 65535 = .ok (rent 1) ∧ (rent 1).resends < rleg.cfg.rtxMax ∧ (rent 1).lastResend = none) :=
  ⟨by decide +kernel, by decide, ⟨rtx_found 2, by decide⟩, rtx_found 1, by decide, rfl⟩

/-- A media packet 3 of participant 0's leg, a cascade packet in wait, and cards in service. -/
def mpkt (bytes : List Byte) : MPkt := { pkt := { pkt bytes with id := 3 }, leg := mkHandle 4 0, refs := 1 }
def mixing (bytes : List Byte) : Dev :=
  { med with fwd := { med.fwd with mpkts := [mpkt bytes] }, aud := { med.aud with cascq := [(mkHandle 3 0, 3)], waiting := [(3, 5)] } }
def jcard : Card := { card 5 .inService 5 (.jitter (mkHandle 3 0) 3) with owner := mkHandle 3 0 }
/-- A cascade packet of RTP header, head and no members: version 1, last. -/
def casc : List Byte := [0x80] ++ List.replicate 11 0 ++ [1, 0x80, 2, 0] ++ List.replicate 12 0
theorem test_witness_AudioStepsComplete :
    (let d := withCards (mixing []) [jcard]
     findCard d 5 = some jcard ∧ jcard.work = .jitter (mkHandle 3 0) 3 ∧ jcard.state = .inService ∧ jcard.done = false ∧ jcard.preempted = false ∧
     halted d = false ∧ findMPkt d 3 = some (mpkt [])) ∧
    (((mixing []).aud.waiting.filter fun x => x.1 == (3 : Fin 4).val) ≠ [] ∧ halted (mixing []) = false) ∧
    ((mixing []).aud.cascq.find? (fun x => x.1 == mkHandle 3 0) = some (mkHandle 3 0, 3) ∧ findPart (mixing []) (mkHandle 3 0) = some (part 0) ∧
     findConf (mixing []) (part 0).conf = some conf ∧ findMPkt (mixing casc) 3 = some (mpkt casc)) ∧
    (let y := casc.drop (payloadAt (casc.map BitVec.toNat))
     nth y 0 0 = 1 ∧ (nth y 1 0).toNat % 16 ≤ 8 ∧ 16 + 124 * ((nth y 1 0).toNat % 16) ≤ y.length ∧
     ¬((conf.delay : Int) + 1 ≤ sdiff (strideW (mixing casc)) (wd (beNat (slice y 4 4))))) ∧
    (let y := (casc.take 12).drop (payloadAt ((casc.take 12).map BitVec.toNat))
     nth y 0 0 ≠ 1) ∧
    (let cs : List Contrib := [(1, 0, List.replicate 40 8388607), (2, 0, List.replicate 40 (-8388608))]
     (cs.map Prod.fst).Nodup ∧ (∀ c ∈ cs, c.2.2.length = 40) ∧ (2, 0, List.replicate 40 (-8388608)) ∈ cs) ∧
    ((List.replicate 40 (-8388608 : Int)).length = 40 ∧ ∀ c ∈ List.replicate 40 (-8388608 : Int), -(2 ^ 23 : Int) ≤ c ∧ c < 2 ^ 23) := by
  refine ⟨?_, ?_, ?_, ?_, ?_, ?_, ?_⟩ <;> decide +kernel
/-- The craft port RUNNING, its status bits as given, 25 strides after reset. -/
def craftIn (status : Nat) (c : CraftSt) : Dev :=
  let d := poke (setUState dev cftUnit 2) []
  let d := setReg d CFT (reg d CFT ||| wd status)
  { d with tim := { d.tim with stride := 24 }, aud := { d.aud with craft := c } }
theorem test_witness_CraftPortCompletes :
    (dev.variant.craft = true ∧ dev.aud.craft.jack = none) ∧
    (let d := craftIn 0 { jack := some 0 }
     d.aud.craft.jack = some 0 ∧ craftUp d = true ∧ craftInserted d = false ∧ 0 + 24 ≤ d.tim.stride) ∧
    (let d := craftIn 0x200 { jack := some 0, detecting := true }
     craftUp d = true ∧ craftInserted d = true ∧ d.aud.craft.detecting = true) ∧
    (let d := craftIn 0x2200 { win := 4, winRun := 3 }
     craftUp d = true ∧ headset d = true ∧ d.aud.craft.pressed = none ∧ d.aud.craft.win = 4 ∧ 3 ≤ d.aud.craft.winRun) ∧
    (let d := craftIn 0x2200 { pressed := some 4, win := 5, winRun := 3 }
     craftUp d = true ∧ d.aud.craft.pressed = some 4 ∧ d.aud.craft.win = 5 ∧ 3 ≤ d.aud.craft.winRun) ∧
    (let d := craftIn 0x2200 { pressed := some 4, held := 960 }
     craftUp d = true ∧ d.aud.craft.pressed = some 4 ∧ d.aud.craft.long = false ∧ 960 ≤ d.aud.craft.held) ∧
    (let d := craftIn 0x1200 {}
     craftUp d = true ∧ craftInserted d = true ∧ d.aud.craft.offL = none ∧ d.aud.craft.offR = none) ∧
    (let d := { craftIn 0x1200 { offL := some 5, offR := some 5 } with tim := { dev.tim with stride := 1205 } }
     craftUp d = true ∧ 5 + 1200 ≤ d.tim.stride ∧ d.aud.craft.offL = some 5 ∧ d.aud.craft.offR = some 5) ∧
    ((craftIn 0x1200 { offL := some 5 }).aud.craft.offL = some 5 ∧ (craftIn 0x1200 { offL := some 5 }).tim.stride < 5 + 1200) ∧
    (let d := craftIn 0x2200 { pressed := some 1, held := 12000 }
     craftUp d = true ∧ d.aud.craft.pressed = some 1 ∧ 12000 ≤ d.aud.craft.held ∧ hasFault d 1 = false) ∧
    (let d := craftIn 0x2200 { win := 6, winRun := 24 }
     craftUp d = true ∧ headset d = true ∧ d.aud.craft.win = 6 ∧ 24 ≤ d.aud.craft.winRun ∧ hasFault d 4 = false) ∧
    (let d := craftIn 0x402200 { faults := [(4, 3), (2, 0)] }
     craftUp d = true ∧ (∃ f ∈ d.aud.craft.faults, 3 ≤ f.2) ∧ ∀ f ∈ d.aud.craft.faults, f.1 < 8) ∧ (7 < 8 ∧ spWf (craftIn 0 {}).regs = true) := by
  refine ⟨?_, ?_, ?_, ?_, ?_, ?_, ?_, ?_, ?_, ?_, ?_, ?_, ?_⟩ <;> decide +kernel

/-- The context of `med` with a picture in decode. -/
def pic : Pic := { id := 0, rtpTs := 0, ready := 0, w := 64, h := 64, isRef := true, rap := true, recovery := false, uses := [], keeps := [], bytes := 0 }
def ctx (ps : List Pic) (pkts : List (List Byte × Nat) := []) : Ctx :=
  { handle := mkHandle 5 0, fn := 0, codec := 2, prof := 1, deferred := false, pyr := 3, waitRap := false, refReq := 2, slack := 0, reasm := 0,
    segMax := 0, maxW := 64, maxH := 64, backlog := 8, tenBit := true, layer := 0, pt := 96, inLeg := mkHandle 4 0, fbLeg := mkHandle 4 1,
    dpb := 8, surfaces := 11, bufBytes := 524288, waiting := false, pics := ps, pkts := pkts, reqWait := some (2, 1) }
def rtp : List Byte := [0x80, 0xE0] ++ List.replicate 10 0
def decoding (w : Work) (ps : List Pic) (pkts : List (List Byte × Nat) := []) : Dev × Card :=
  let u : UnitId := ⟨2, 3, 7⟩
  let c := { card 5 .inService 2 w with at_ := some u }
  let d := setUState { med with vid := { med.vid with ctxs := [ctx ps pkts] }, fwd := { med.fwd with mpkts := [mpkt rtp] } } u 2
  (setQueue (withCards { d with tim := { d.tim with stride := 26 } } [c]) u [5], c)
theorem test_witness_VideoDecodeCompletes :
    (let d := (decoding .relay [] [(rtp, 25)]).1
     let g : Gathered := ⟨[⟨0, 0, true, 12, 25⟩], 0, 0, 0, true, 25⟩
     findCtx d (mkHandle 5 0) = some (ctx [] [(rtp, 25)]) ∧ gather (ctx [] [(rtp, 25)]) = some g ∧ halted d = false ∧ fwUsed d + 10 ≤ d.variant.fwSlots ∧
     (ctx []).bufUsed + (g.pkts.map CtxPkt.bytes).sum ≤ (ctx []).bufBytes ∧ (64 : Nat) ≤ (ctx []).maxW ∧ (seqDiff g.last g.first + 1).toNat = g.pkts.length) ∧
    (∀ w ∈ [Work.segment (mkHandle 5 0) 0 0, .rebuild (mkHandle 5 0) 0 0 0], let x := decoding w [pic]
     findCard x.1 5 = some x.2 ∧ onPipe x.1 x.2 = some ⟨2, 3, 7⟩ ∧ (withSurf x.1 (mkHandle 5 0) 0).isSome = true) ∧
    (let x := decoding (.parse (mkHandle 5 0) 0) [pic]
     findCard x.1 5 = some x.2 ∧ onPipe x.1 x.2 = some ⟨2, 3, 7⟩ ∧ (findCtx x.1 (mkHandle 5 0)).isSome = true) ∧
    (let x := decoding (.finish (mkHandle 5 0) 0) [pic]
     findCard x.1 5 = some x.2 ∧ x.2.state = .inService ∧ x.2.done = false ∧ halted x.1 = false) ∧
    (let p := { pic with surface := some 10 }
     let x := decoding (.conceal (mkHandle 5 0) 0) [p]
     findCard x.1 5 = some x.2 ∧ onPipe x.1 x.2 = some ⟨2, 3, 7⟩ ∧ (withSurf x.1 (mkHandle 5 0) 0).isSome = true) ∧
    (let p := { pic with firstDeal := some 24, work := [5] }
     let d := (decoding .relay [p]).1
     findCtx d (mkHandle 5 0) = some (ctx [p]) ∧ findPic (ctx [p]) 0 = some p ∧ p.firstDeal = some 24 ∧ 24 + 2 ≤ d.tim.stride ∧ p.work ≠ [] ∧
     p.abandoned = false ∧ p.done = false ∧ halted d = false) ∧
    (let d := (decoding .relay []).1
     findCtx d (mkHandle 5 0) = some (ctx []) ∧ (ctx []).reqWait = some (2, 1) ∧ reqDue d (ctx []).lastReq = true) ∧
    (let l := { leg 0 false 1 with reqWait := some (mkHandle 4 1), lastReq := some 2 }
     let d := { (decoding .relay []).1 with fwd := { legs := [l] } }
     findCtx d (mkHandle 4 0) = none ∧ findLeg d (mkHandle 4 0) = some l ∧ l.reqWait = some (mkHandle 4 1) ∧ reqDue d l.lastReq = true) ∧
    (let d := (decoding .relay [pic]).1
     findPic (ctx [pic]) 0 = some pic ∧ pic.surface = none ∧ ((withSurf d (mkHandle 5 0) 0).map fun e => e.2.off) = some 0 ∧ (ctx [pic]).surfGeo.size ≠ 0) := by
  refine ⟨?_, ?_, ?_, ?_, ?_, ?_, ?_, ?_, ?_⟩ <;> decide +kernel
/-- A layout with a frame, a stream with pictures, a card in service at the head of a unit's queue. -/
def frame : Frame := { phase := 19, set := { bg := 0 }, latches := [], copy := some 2, bandsLeft := [0] }
def layout : Layout :=
  { handle := mkHandle 6 0, fn := 0, home := 3, comp := 3, period := 20, phase := 19, tenBit := false, outCs := 0, hbmCopy := true, slates := 1,
    outW := 64, outH := 64, encPix := 0, active := { bg := 1 }, shadow := { bg := 2 }, frames := [frame] }
def enc (ps : List EncPic) : EncS :=
  { handle := mkHandle 7 1, fn := 0, layout := mkHandle 6 0, codec := 2, prof := 0, surface := true, sLayers := 1, tLayers := 1, period := 20, phase := 2,
    home := 3, pipe := 3, outW := 64, outH := 128, tenBit := false, mtu := 1200, pt := 0, ddId := 0, pics := ps,
    cfg := { rates := [32000, 0, 0], waveN := 8, qpMin := 0, qpMax := 255, cap := 24 } }
def coding (u : UnitId) (w : Work) (ps : List EncPic) : Dev × Card :=
  let c := { card 5 .inService u.cls w with at_ := some u }
  let d := setUState (setUState { med with vid := { med.vid with layouts := [layout], encs := [enc ps] } } u 3) fwdUnit 2
  (setQueue (withCards d [c]) u [5], c)
theorem test_witness_CompositionAndEncodeComplete :
    (let u : UnitId := ⟨3, 3, 3⟩
     let x := coding u (.compose (mkHandle 6 0) 19 0) []
     findCard x.1 5 = some x.2 ∧ x.2.at_ = some u ∧ x.2.state = .inService ∧ halted x.1 = false ∧ (queueOf x.1 u).head? = some 5 ∧ uState x.1 u = 3 ∧
     findLayout x.1 (mkHandle 6 0) = some layout ∧ layout.frames.find? (fun f => f.phase == 19) = some frame) ∧
    (let u : UnitId := ⟨4, 3, 3⟩
     let p : EncPic := { phase := 2, started := true, bandsLeft := [0, 1] }
     let q : EncPic := { p with fill := some 3 }
     let x := coding u (.encode (mkHandle 7 1) 2 0) [p]
     let y := coding u (.encode (mkHandle 7 1) 2 0) [q]
     (findCard x.1 5 = some x.2 ∧ x.2.at_ = some u ∧ x.2.state = .inService ∧ x.2.predShort = false ∧ halted x.1 = false ∧ (queueOf x.1 u).head? = some 5 ∧
      uState x.1 u = 3 ∧ findEnc x.1 (mkHandle 7 1) = some (enc [p]) ∧ (enc [p]).pics.find? (fun p => p.phase == 2 && p.started) = some p ∧ p.fill = none ∧ 1 ∈ p.bandsLeft) ∧
     (findCard y.1 5 = some y.2 ∧ findEnc y.1 (mkHandle 7 1) = some (enc [q]) ∧ (enc [q]).pics.find? (fun p => p.phase == 2 && p.started) = some q ∧ q.fill = some 3 ∧
      q.started = true ∧ q.start = false ∧ halted y.1 = false)) ∧
    (let u : UnitId := ⟨4, 3, 3⟩
     let d := (coding u .relay []).1
     running (setUState d u 2) u = true ∧ u.cls = 4 ∧ queueOf (setUState d u 2) u ≠ [] ∧ running (fwding []) fwdUnit = true ∧ fwdUnit.cls = 9 ∧ (fwding []).fwd.inq ≠ []) ∧
    (enc []).cfg.qpMin ≤ (enc []).cfg.qpMax := by
  refine ⟨?_, ?_, ?_, ?_⟩ <;> decide +kernel

theorem test_witness_StridesBeginOnTheClock : 1199 < 1200 ∧ dev.tim.running = true ∧ dev.tim.clock ≤ strideStart (dev.tim.stride + 1) ∧
    (Dev.reset .v4).tim.running = false := by
  decide +kernel
/-- Port 7's Bridle RUNNING with its link UP, a frame in a queue, at time 5,000 ns. -/
def txf (q : Nat) : TxFrame := { id := q, port := 7, queue := q, bytes := [1] }
def bridle (qs : List Nat) : Dev :=
  let d := setUState (port 5) ⟨10, 0xFF, 7⟩ 2
  putBrd d 7 { getBrd d 7 with qs := (List.range 16).map fun i => if qs.contains i then { frames := [txf i] } else {}, lastWheel := 2 ^ 30, lastShape := 2 ^ 30 }
theorem test_witness_BridleCompletes :
    (let d := bridle [3, 15]
     brdRuns d (7 : Fin 8) = true ∧ timely d 5000 = true ∧ (getBrd d (7 : Fin 8)).busyUntil / 1000 ≤ 5000 ∧ (getPort d (7 : Fin 8)).txq = [] ∧
     linkUp d (7 : Fin 8) = true ∧ isActive d (7 : Fin 8) = true ∧
     eligible (dropHeads (advance d 5000) (7 : Fin 8)) (7 : Fin 8) 3 (max (getBrd d (7 : Fin 8)).busyUntil 5000000) = true ∧
     ∀ r, r < 3 → eligible (dropHeads (advance d 5000) (7 : Fin 8)) (7 : Fin 8) r (max (getBrd d (7 : Fin 8)).busyUntil 5000000) = false) ∧
    (let d := bridle [15]
     let e := dropHeads (advance d 5000) (7 : Fin 8)
     brdRuns d (7 : Fin 8) = true ∧ (∀ q, q < 4 → eligible e (7 : Fin 8) q 5000000 = false) ∧
     ((drr (weighted e (7 : Fin 8) fun q => eligible e (7 : Fin 8) q 5000000) ((List.range 12).map fun i => 128 * getF e (BRDQ (7 : Fin 8) (4 + i)) 0 8) 1200 ((getBrd e (7 : Fin 8)).turn - 4)
       (getBrd e (7 : Fin 8)).visited ((List.range 12).map fun i => (getQ e (7 : Fin 8) (4 + i)).deficit)).map Prod.fst) = some 11) ∧
    (5000 / 256 ≠ (getBrd (bridle []) (7 : Fin 8)).lastWheel ∧ 5000 / 8000 ≠ (getBrd (bridle []) (7 : Fin 8)).lastShape ∧ halted (bridle []) = false ∧
      timely (bridle []) 5000 = true) ∧
    (let v : Word := 0x140
     bit v 8 = true ∧ fld v 0 7 ≤ 64 ∧
     (let d := poke (bridle []) ((List.range 64).map fun i => (BRD 7 + 0x800 + 0x200 + 8 * i, 64))
      let d := setF (advance d 5000) (BRD 7 + 0x10) 0 7 (fld v 0 7)
      let es := gclEntries d 7 (1 - operBank d 7) (fld v 0 7)
      (∀ e ∈ es, 64 ≤ e.1) ∧ gclCycle es = 4096 ∧ gclCycle es < 2 ^ 32)) ∧
    (0 < 4096 ∧ ndiff 0 5000 < 0) ∧
    (let d := putBrd (bridle []) 7 { pend := some ([(64, 1)], 5000), oper := [(64, 1)] }
     (getBrd d (7 : Fin 8)).pend = some ([(64, 1)], 5000) ∧ timely d 5000 = true ∧ 5000 ≤ 5000 ∧ halted d = false ∧ spWf d.regs = true ∧ (getBrd d (7 : Fin 8)).oper ≠ []) ∧
    (7 < 8 ∧ 15 < 16 ∧ 16 < 17 ∧ bit 1 0 = true) := by
  refine ⟨?_, ?_, ?_, ?_, ?_, ?_, ?_⟩ <;> decide +kernel
/-- Servo state and TIM_CTRL as given, port 7 active and a PTP port. -/
def timed (servo ctrl : Nat) : Dev :=
  let d := poke dev [(TIM, servo), (TIM + 4, ctrl + 0x800000), (MACP 7 + 0xC, 1)]
  { d with tim := { d.tim with holdStrides := 2 ^ 30, txts := List.replicate 8 [⟨5, true, 7⟩] } }
theorem test_witness_NetworkTimeCompletes :
    timely (timed 0 0) 833332 = true ∧ spWf (timed 0 0).regs = true ∧ (min (fld 3 0 2) 2 ≠ timMode (timed 0 0) ∧ fld 3 0 2 ≠ 0) ∧
    ((0 : Int) ≤ 128000000 ∧ (128000000 : Int) ≤ 128000000) ∧
    ((0 : Int).natAbs ≤ (reg (timed 0 0) (TIM + 0x30)).toNat ∧ (reg (timed 0 0) (TIM + 0x30)).toNat < (-2 ^ 40 : Int).natAbs ∧ getB (timed 0 0) (TIM + 0x2C) 1 = false) ∧
    bit 2 0 = false ∧
    (featOn (timed 0 0) 0 144 = true ∧ featOn (timed 0 4) 0 (if getB (timed 0 4) (TIM + 4) 2 then 145 else 144) = true ∧ getB (timed 0 0) (TIM + 4) (16 + (7 : Fin 8)) = true ∧
      isActive (timed 0 0) (7 : Fin 8) = true ∧ (timed 0 0).tim.running = true) ∧
    servo (timed 2 0) = 2 ∧ (servo (timed 3 0) = 3 ∧ 1200 * getF (timed 3 0) (TIM + 0x3C) 0 16 ≤ (timed 3 0).tim.holdStrides) ∧
    nth (timed 0 0).tim.txts (7 : Fin 8) [] = ⟨5, true, 7⟩ :: [] ∧ nth { (timed 0 0).tim with txts := [] }.txts (7 : Fin 8) [] = [] ∧ featOn (timed 0 0) 0 23 = true ∧
    (let x : PulseProg := ⟨2, false, 0, 10000, 1⟩
     let p : Pulse := { cur := x, next := some 500, widthEnd := some 600, pending := some (x, 700) }
     let d := putPulse { timed 0 0 with tim := { (timed 0 0).tim with pulses := List.replicate 4 p } } 3 p
     ((getPulse d (3 : Fin 4)).next = some 500 ∧ timely d 500 = true ∧ 500 = max 500 d.tim.clock) ∧
     ((getPulse d (3 : Fin 4)).widthEnd = some 600 ∧ timely d (max 600 d.tim.clock) = true) ∧
     ((getPulse d (3 : Fin 4)).pending = some (x, 700) ∧ timely d 700 = true ∧ 700 = max 700 d.tim.clock)) := by
  refine ⟨?_, ?_, ?_, ?_, ?_, ?_, ?_, ?_, ?_, ?_, ?_, ?_, ?_⟩ <;> decide +kernel
/-- The HBM controllers serving, Paddock, and a DMA channel with a chain at its second descriptor. -/
def hbm : Dev := poke dev [(MEM, 2), (MEM + 4, 0x1000000)]
def hreq (w : Bool) : HbmReq := { id := 0, unit := ⟨6, 0, 0⟩, write := w, live := false, addr := 0, bytes := [], len := 64 }
def ddesc : DmaDesc := { srcSp := 0, dstSp := 0, mode := 1, sx := false, fence := false, sw := 1, dw := 2, nch := 1, count := 4, src := 0, dst := 64, rows := 1, srcPitch := 0, dstPitch := 0 }
def chan : Dev × Card :=
  let u : UnitId := ⟨6, 3, 1⟩
  let c := { card 5 .inService 6 (.dma [ddesc, ddesc] 64) with at_ := some u }
  let d := setQueue (withCards (setUState dev u 2) [c]) u [5]
  ({ d with dma := { runs := [{ unit := u, slot := 5, next := 1, done := 1 }] } }, c)
theorem test_witness_MemoriesAndDmaComplete :
    (getF hbm MEM 0 3 = 2 ∧ (3 : Fin 4).val < hbm.variant.stacks ∧ halted hbm = false ∧
     (let y (x : HbmPc) : Dev := putPc hbm { x with h := 3, pc := 31 }
      (hbmServes (y {h := 3, pc := 31}) (3 : Fin 4) (31 : Fin 32) = true ∧ refreshStep (getPc (y {h := 3, pc := 31}) 3 31) = none ∧
        pickReq (y {h := 3, pc := 31}) (getPc (y {h := 3, pc := 31}) 3 31) = none) ∧
      (refreshStep { h := 3, pc := 31, banks := [{ bank := 47, refreshDue := true }] }).isSome = true ∧
      pickReq hbm { h := 3, pc := 31, reads := [hreq false] } = some (hreq false) ∧
      hbmServes { hbm with mem := { hbm.mem with driftOwed := [(3, 15)] } } (3 : Fin 4) (31 : Fin 32) = false)) ∧
    (getB hbm (MEM + 4) 24 = true ∧ hbm.mem.selfRefresh = false ∧ 0 < hbmSize hbm.variant ∧ retraining hbm (hbmPlace hbm 0).h (hbmPlace hbm 0).c = false ∧
      0 / 64 ∉ hbm.mem.hbmBad) ∧
    (let d := poke hbm [(MEM + 0x400 + 0x40 * 3 + 4 * 15, 65535)]
     ((3 : Nat), (15 : Nat)) ∉ d.mem.ceRaised ∧ getF d (MEM + 0x10) 0 16 ≤ getF d (MEM + 0x400 + 0x40 * 3 + 4 * 15) 0 16) ∧
    ((let r : Retrain := { h := 3, c := 15, steps := 14, running := true }
      [r].find? (fun r => r.h == (3 : Fin 4).val && r.c == (15 : Fin 16).val && r.running) = some r ∧ r.steps < 15) ∧
     (let r : Retrain := { h := 3, c := 15, steps := 15, running := true }
      [r].find? (fun r => r.h == (3 : Fin 4).val && r.c == (15 : Fin 16).val && r.running) = some r ∧ 15 ≤ r.steps)) ∧
    (quarterUp dev (3 : Fin 4) = true ∧ halted dev = false ∧ bankLocked dev (3 : Fin 4) (31 : Fin 32) = false) ∧
    (let b : PadBank := { q := 3, n := 31, reqs := [⟨17, false, 15, 1⟩, ⟨80, true, 0, 4⟩] }
     b.owner = none ∧ (padRound b).owner = some 17) ∧
    (channelCard chan.1 ⟨6, 3, 1⟩ = some (chan.2, { unit := ⟨6, 3, 1⟩, slot := 5, next := 1, done := 1 }, [ddesc, ddesc], 64) ∧ [ddesc, ddesc][1]? = some ddesc ∧
     (moveDesc chan.1 { unit := ⟨6, 3, 1⟩, fn := 0, quarter := 3, src := 0, host := [], hostFail := none, poisoned := false, padUe := none } ddesc).2.2 = none) ∧
    (ddesc.mode = 1 ∧ ddesc.sx = false ∧ [(5 : Byte)].length ≤ ddesc.dw) := by
  refine ⟨?_, ?_, ?_, ?_, ?_, ?_, ?_, ?_⟩ <;> decide +kernel

theorem test_witness_FramesOfRingCommands : (ringOf (.nop 63 31)).isSome = true := by decide
theorem test_witness_FramesOfCoreInstructions : coreInstr (.signal { iss with last := false } 0) = true ∧
    issueOf (.signal { iss with last := false } 0) = some { iss with last := false } ∧ ({ iss with last := false } : Issue).last = false ∧
    badFetch (on core) (findCore (on core) iss.core.val) = false := by decide +kernel
theorem test_witness_FramesOfTheOtherCommands : ringOf (.subWord 63 0) = none ∧ coreInstr (.subWord 63 0) = false := by decide

/-! ### Witnesses of the clauses about waiting, masking, conflicts and ends -/

theorem test_witness_host_interface : (1 : Fin 64) ≠ 0 ∧
    ((0 : Fin 64).val ∈ { dev.hif with pageDue := [0] }.pageDue ∧ (5 : Fin 64).val ∉ dev.hif.pageDue ∧ (5 : Fin 64).val ∉ dev.hif.nudged) ∧
    ((BitVec.ofNat 64 (2 ^ 63 + 2 ^ 32)).getLsbD 63 = true ∧ ringEnabled dev 0 31 = false ∧
      (BitVec.ofNat 64 (2 ^ 63)).toNat / 2 ^ 32 % 2 ^ 16 = fld (reg dev (ringReg 0 31 0xC)) 0 16) ∧
    (let c := cmd 0x00 0 []
     let d := poke (withCmd dev c) [(msixReg 0 3 0xC, 1), (ringReg 0 32 8, 0x365)]
     c.fn < 64 ∧ c.cq < 52 ∧ spWf d.regs = true ∧ bit (ringCfg d c.fn c.cq) 2 = true ∧ ringBind d c.fn c.cq = 3 ∧ getB d (msixReg c.fn 3 0xC) 0 = true) ∧
    (let d := { withCards dev [{ card 5 .zombie with owner := 9 }] with obj := { dev.obj with sessions := [{ handle := ses, fn := 0, closing := true, awaits := [9] }] } }
     serving d [9] = false ∧ serving (withCards dev [{ card 5 with owner := 9 }]) [9] = true) ∧
    (let c := { cmd 0x03 (mkHandle 2 0) [] with started := true, awaits := [9] }
     let d := withCmd dev c
     d.hif.accepted.filter (fun c => c.started && dOpcode c.desc == 0x03 && !serving d c.awaits) = [c] ∧ findCmd d c.id = some c) := by
  refine ⟨?_, ?_, ?_, ?_, ?_, ?_⟩ <;> decide +kernel
theorem test_witness_dealer :
    (let b := { poolCard 6 2 .inService with core := some 248, preempted := true }
     let d := withCards { pool with cores := [{ id := 248 }] } [b]
     readyIn d 3 7 0 = [] ∧ readyIn d 3 7 1 = [] ∧ resumable d 3 7 = b :: [] ∧ b.core = some 248) ∧
    (let d := withCards pool [poolCard 5 1 .ready]
     chooseCore d (poolCard 5 1 .ready) = some 248 ∧ (poolCard 5 1 .ready).cls ≠ 0) ∧
    (let d := withCards dev [{ poolCard 5 0 .waiting with deadline := 0xFFFFFFFF }]
     d.tim.clock = strideStart d.tim.stride ∧ halted d = false) := by decide +kernel
theorem test_witness_bundles :
    (let d := on { core with issuing := true, buf := [.done 0] }
     let i : Issue := { core := 255, last := false }
     coreRuns d (findCore d i.core.val) = true ∧ (findCore d i.core.val).issuing = true ∧ (findCore d i.core.val).buf.any CEff.isDone = true ∧ i.last = false) ∧
    (let d := on { core with issuing := true, buf := [.access 3], a := List.replicate 8 0x100000 }
     Issues d iss ∧ (findCore d 255).hold = none ∧ grantedIn (findCore d 255).buf = none ∧
     place 255 (nth (findCore d 255).a 7 0).toNat 1 = some (.pad (31 * bankSize)) ∧ (findCore d 255).buf.any (lockClash (31 * bankSize / bankSize)) = true) := by
  refine ⟨?_, issuesOf ?_, ?_⟩ <;> decide +kernel
theorem test_witness_links :
    (let d := poke (port 2) [(MACP 7 + 8, 2)]
     anFinds d (7 : Fin 8) { types := [1] } = some (1, 0) ∧ anFinds d (7 : Fin 8) {} = none ∧ anFinds d (7 : Fin 8) { parallel := some 1 } = some (1, 0)) ∧
    (let d := poke (putPort (port 5) 6 { group := [14] }) [(MACP 6, 2 + 5 * 4096 + 2048 + 65536), (MACP 6 + 4, 1 + 0xE0), (SDS 14, 2)]
     portOfLane (markLane d 15 4) 14 = some 6 ∧ 14 ∈ (getPort (markLane d 15 4) 6).group ∧ linkUp (markLane d 15 4) 6 = true ∧ 14 ≠ 15) ∧
    (let b : List Byte := List.replicate 60 0 ++ leBytes (crc32 (List.replicate 60 0)) 4
     fcsGood b = true ∧ 64 ≤ b.length ∧ fcsGood (List.replicate 64 0) = false) := by
  refine ⟨?_, ?_, ?_⟩ <;> decide +kernel
/-- An SRTCP packet of 8 bytes that the slot of leg 0 protects, and the same with a bit of its tag turned. -/
def rtcpOk : List Nat := (protectRtcp (srtp 16) (leg 0 false 1) [0x80, 201, 0, 1, 0, 0, 0, 7]).2.getD []
def rtcpBad : List Nat := upd rtcpOk 8 (nth rtcpOk 8 0 ^^^ 1)
def checked (d : Dev) (x : Key) (b : List Nat) : Option Nat := match (checkRtcp d (leg 0 false 1) x b).2 with | .ok _ => none | .error n => some n
theorem test_witness_srtcp :
    (let d := { srtp 16 with sec := { (srtp 16).sec with inq := [{ pkt (List.replicate 4 0 ++ [0, 36, 0, 0] ++ ofNats rtcpOk) with target := mkHandle 4 0, profile := 2 }] } }
     (∃ k, d.sec.inq = k :: [] ∧ findLeg d k.target = some (leg 0 false 1) ∧ k.profile = 2 ∧ (udpPayload k).length ≤ 9216 + indexWord slot.profile) ∧
     running d secUnit = true ∧ (leg 0 false 1).out = false ∧ keyIn d (mkHandle 4 0) .active = some slot ∧ slot.rtcp = true) ∧
    12 + tagLen slot.profile true ≤ rtcpOk.length ∧ checked (srtp 16) slot rtcpOk = none ∧ checked (srtp 16) slot rtcpBad = some 0 ∧
    (openRtcp slot rtcpOk).isSome = true ∧ openRtcp slot rtcpBad = none ∧ invSpent slot = false ∧
    checked (srtp 16 { leg := mkHandle 4 0, rtcpStarted := true, rtcpHigh := 0, rtcpBitmap := 1 }) slot rtcpOk = some 1 ∧
    (let x := { slot with handle := mkHandle 8 1, state := .standby }
     (legKeys { srtp 16 with sec := { (srtp 16).sec with keys := [slot, x] } } (mkHandle 4 0)).find?
       (fun x => (x.state == .standby || x.state == .draining) && x.rtcp) = some x) := by
  refine ⟨⟨⟨_, rfl, ?_, ?_, ?_⟩, ?_, ?_, ?_, ?_⟩, ?_, ?_, ?_, ?_, ?_, ?_, ?_, ?_⟩ <;> decide +kernel
theorem test_witness_legs_and_audio :
    (keyIn (fwding []) (mkHandle 4 1) .active = none ∧ keyIn (fwding []) (mkHandle 4 1) .standby = none) ∧
    (fwdWaits (fwding []) = false ∧
     fwdWaits { fwding [] with fwd := { (fwding []).fwd with inq := [{ src with dests := some [mkHandle 4 1] }] }, pke := { dev.pke with poolUsed := 65537 } } = true) ∧
    ((part 0).jbMin ≤ (part 0).jbMax ∧ packetLevel 1 ([0x90] ++ List.replicate 11 0 ++ [0xBE, 0xDE, 0, 1, 0x10, 0x85, 0, 0]) = some 5) := by
  refine ⟨?_, ?_, ?_⟩ <;> decide +kernel
theorem test_witness_decode :
    (let p := { pic with work := [4, 5], areas := [[0], [1]] }
     let x := decoding (.segment (mkHandle 5 0) 0 1) [p]
     let d := { x.1 with dlr := { x.1.dlr with cards := x.1.dlr.cards ++ [card 4 .ready 2 (.segment (mkHandle 5 0) 0 0)] } }
     waveOk d p (.segment (mkHandle 5 0) 0 1) = false ∧ findCard d 5 = some x.2) ∧
    waveOk (decoding (.segment (mkHandle 5 0) 0 0) [pic]).1 pic (.segment (mkHandle 5 0) 0 0) = true ∧
    (let x := decoding (.parse (mkHandle 5 0) 0) [pic]
     let d := poke x.1 [(VDC 3 7 + 4, 1)]
     findCard d 5 = some x.2 ∧ onPipe d x.2 = some ⟨2, 3, 7⟩ ∧ (0 : Nat) < 16 * 16 / 256 * getF d (VDC 3 7 + 4) 0 16 ∧ 16 * 16 / 256 * getF d (VDC 3 7 + 4) 0 16 ≤ 1 ∧
     ((findCard (pixelCard d 5 {} true fun _ => true) 5).all Card.done) = true) ∧
    (0 ∈ concealedCtus dev (ctx []) pic [0] {} true ∧ 0 ∈ ({ missing := [0] } : CodedOut).missing) := by
  refine ⟨?_, ?_, ?_, ?_⟩ <;> decide +kernel
theorem test_witness_encode :
    (let u : UnitId := ⟨4, 3, 3⟩
     let p : EncPic := { phase := 2, started := true, bandsLeft := [0] }
     let x := coding u (.encode (mkHandle 7 1) 2 0) [p]
     findCard x.1 5 = some x.2 ∧ p.fill = none ∧ (∀ y ∈ p.bandsLeft, y = 0) ∧ p.layers = [] ∧ { p with start := true }.start = true ∧ { x.2 with predShort := true }.predShort = true) ∧
    (let e := { enc [] with waving := true, waves := [{ group := 0 }] }
     let x : EncLayer := { s := 0, target := 0, hard := 0, unitsLeft := 1, group := some 0 }
     x.group = some (groupOfCol e x.s 0)) ∧
    ((Reach.mk 64 128 none 8).allows 3 ⟨0, 0, 8, 8⟩ (-8, -8) = true ∧ (Reach.mk 64 128 none 8).allows 3 ⟨0, 0, 8, 8⟩ (-9, 0) = false) := by
  refine ⟨?_, ?_, ?_⟩ <;> decide +kernel
/-- A stream of one unit with a reference picture, on a device that holds its arena and on one that does not. -/
def one : EncS := { enc [] with outW := 16, outH := 16 }
def inter : EncPic := { phase := 2, num := 1, slot := 1, ref := some { num := 0, tl := 0, slot := 0, marks := [] } }
def lay : EncLayer := { s := 0, target := 0, hard := 0, unitsLeft := 1 }
def recon (d : Dev) : Dev := newSurf (poke d [(VEN 3 3 + 4, 0)]) (one.refSurf 0 0)
def form (d : Dev) (u : UnitCode) (least : Bool) : UnitForm × Option (Nat × Nat × Nat) := unitForm (recon d) one inter lay 0 0 u [(0, 0)] least
def usesVectors (f : UnitForm) : Bool := match f with | .inter ps => !ps.isEmpty | _ => false
theorem test_witness_unit_forms :
    (usesVectors (form (takeArena med (mkHandle 7 1) 1) { inter := true, parts := [⟨0, 0, 16, 16, false, 1, 1, 1, 1⟩] } false).1 &&
     (form (takeArena med (mkHandle 7 1) 1) {} true).1 == .zero && form med {} true == (.dc, some (0, 0, 0))) = true := by
  decide +kernel
theorem test_witness_time_and_gates :
    ((∀ q, q < 16 → eligible (dropHeads (advance (bridle []) 5000) (7 : Fin 8)) (7 : Fin 8) q 5000000 = false)) ∧
    (∀ x, (getBrd (bridle []) (7 : Fin 8)).pend = some x → 5000 < x.2) ∧
    (timely dev (dev.tim.clock + (dev.tim.frac + increment dev) / nsParts) = true ∧
     (let d := { dev with tim := { dev.tim with clock := 833332 } }
      timely d (d.tim.clock + (d.tim.frac + increment d) / nsParts) = false)) ∧
    ((let d := { dev with tim := { dev.tim with clock := 900000 } }
      d.tim.running = true ∧ strideStart (d.tim.stride + 1) ≤ d.tim.clock) ∧ dev.tim.clock < strideStart (dev.tim.stride + 1)) ∧
    (let x : PulseProg := ⟨2, false, 0, 10000, 1⟩
     replacedBy { cur := x, pending := some (x, 700) } 700 = true ∧ replacedBy { cur := x, pending := some (x, 700) } 500 = false ∧
     squelched (timed 2 0) 3 = false ∧ squelched (poke (timed 0 0) [(pulseCfg 3, 0x10)]) 3 = true) := by
  refine ⟨?_, ?_, ?_, ?_, ?_⟩ <;> decide +kernel
/-- A PTP frame over Ethernet to the forwardable address: message type and flags as given, version 2, domain 24, sequence number 3, interval
2^−4 s, or 2^−3 s of an Announce. -/
def ptpFrame (type flags : Nat) : List Byte :=
  [0x01, 0x1B, 0x19, 0, 0, 0] ++ List.replicate 6 0 ++ [0x88, 0xF7] ++ [BitVec.ofNat 8 type, 2, 0, 0, 24, 0, BitVec.ofNat 8 flags] ++ List.replicate 23 0 ++
    [0, 3, 0, if type = 11 then 0xFD else 0xFC] ++ List.replicate 10 0
def ptpIn (type flags : Nat) : Dev := { timed 1 0x1800 with tim := { (timed 1 0x1800).tim with ptp := [⟨7, ptpFrame type flags, 0⟩] } }
theorem test_witness_ptp :
    (∀ x ∈ [(0, 0), (0, 2), (8, 0), (11, 0)], (ptpAccepts (ptpIn x.1 x.2) ⟨7, ptpFrame x.1 x.2, 0⟩).map (fun bs => (ptpType bs, (nth bs 6 0).toNat.testBit 1)) =
      some (x.1, x.2 == 2)) ∧
    ptpAccepts (timed 1 0x1900) ⟨7, ptpFrame 0 0, 0⟩ = none ∧ (ptpIn 0 0).tim.running = true ∧ (ptpIn 0 0).tim.ptp = ⟨7, ptpFrame 0 0, 0⟩ :: [] ∧
    7 = getF (poke (ptpIn 0 0) [(TIM, 1 + 7 * 256)]) TIM 8 3 ∧ isActive (ptpIn 11 0) (7 : Fin 8) = true ∧ getB (ptpIn 11 0) (TIM + 4) (16 + 7) = true ∧
    ({} : Ptp).delayReq = none ∧ ((ptpAccepts (ptpIn 8 0) ⟨7, ptpFrame 8 0, 0⟩).map fun bs => beNat (slice bs 30 2)) = some 3 := by
  refine ⟨?_, ?_, ?_, ?_, ?_, ?_, ?_, ?_, ?_⟩ <;> decide +kernel

/-! ### Ill-formed terms, one for each check of `Instr.wf` -/

theorem test_wf_refuses_addresses : ((Instr.registerWrite 1 0x20000 0).wf || (Instr.registerRead 0 0x4000000 4 0).wf ||
    (Instr.registerRead 0 0 3 0).wf || (Instr.registerRead 0 3 2 0).wf || (Instr.registerRead 1 (2 ^ 32 + 0x2000) 4 0).wf || (Instr.subWord 63 0x20000).wf) = false := by
  decide
theorem test_wf_refuses_host_reads : ([Instr.legCreate 0 0 (.fail 1), .keyLoad 0 0 (.fail 8), .layoutShadow 0 0 (.fail 32), .kernelLoad 0 0 (.fail 63), .ruleWrite 0 0 (.fail 2),
    .txFrame 0 0 (.fail 4), .tackStore 0 0 (.fail 1) (.ok []), .tackStore 0 0 (.ok []) (.fail 1), .dmaChain 0 0 (.fail 16)].any Instr.wf) = false := by decide
theorem test_wf_refuses_boundaries : ([Instr.strideBoundary { temps := List.replicate 5 0 }, .strideBoundary { mic := [0] },
    .strideBoundary { blocks := [(0, [])] }, .stepApply 0 { right := [(0, [])] }].any Instr.wf) = false := by decide
theorem test_wf_refuses_doorbell_pages :
    ([Instr.doorbellFetch 0 { words := List.replicate 53 0, fetch := [] }, .doorbellFetch 0 { words := [], fetch := [(32, .ok [])] }].any Instr.wf) = false := by decide
theorem test_wf_refuses_links : ([Instr.linkChange 0 16, .linkChange 1 3].any Instr.wf) = false := by decide
theorem test_wf_refuses_units : ([Instr.unitStopped ⟨14, 0, 0⟩, .unitCmdTimeout ⟨14, 0, 0⟩, .unitRunning ⟨14, 0, 0⟩, .unitFault ⟨14, 0, 0⟩, .engineQueueWrite ⟨1, 0, 0⟩,
    .cellWait ⟨3, 0, 0⟩ 0, .dmaDescriptor ⟨4, 0, 0⟩ [] none false none 0].any Instr.wf) = false := by decide
theorem test_wf_refuses_pools : ([Instr.cardDeal 4 0, .cardDeal 0 8, .preempt 4 0].any Instr.wf) = false := by decide
theorem test_wf_refuses_core_instructions : ([Instr.amov iss .b 3 (.imm 0), .tapm iss true true 0 1 1 2 0, .tapm iss true false 0 1 2 3 8, .norm iss true 3 0 3, .normx iss true 3 3 0,
    .loop iss (.imm 65536) 0, .rloop iss (.imm 0) 1 0, .rloop iss (.imm 1) 0 0, .teamMemUe 0 0 0xC0000].any Instr.wf) = false := by decide
theorem test_wf_refuses_ports : ([Instr.lineCheck 0 [⟨0, 2, 0⟩], .anResolve 0 { types := [11] }, .trainingDone 0 [0] [], .linkUp 0 [0] [] 0, .laneFault 0 0 0, .laneFault 0 8 0,
    .frameReceive 0 [] 0 none, .pauseFrame 0 0 true 0 [0], .pauseFrame 0 0 false 0 [65536]].any Instr.wf) = false := by decide
theorem test_wf_refuses_media : ([Instr.detectionDone ⟨[], []⟩, .pictureReady 0 { ctb := 8 }, .pictureReady 0 { tiles := 0 }, .pictureReady 0 { areas := [[], []] }, .segmentCard 0 { tiles := [(0, [])] },
    .encodeBand 0 { layers := [⟨3, 0, [], []⟩] }, .encodeBand 0 { layers := [⟨0, 0, [{ parts := [⟨48, 0, 32, 16, false, 1, 1, 1, 1⟩] }], []⟩] }].any Instr.wf) = false := by decide
theorem test_wf_refuses_memory : ([Instr.hbmCommandSlot 0 0 [{ unit := ⟨6, 0, 0⟩, write := false, live := false, addr := 32, len := 33 }] 0, .scrub 32 0,
    .paddockRound 0 0 [⟨0, 0⟩]].any Instr.wf) = false := by decide
theorem test_wf_accepts : ([Instr.registerWrite 0 0x3FFFFFC 0, .laneFault 15 7 0, .rloop iss (.imm 65535) 4 0, .registerRead 0 (2 ^ 32 + 0x3FFC) 4 0, .cardDeal 0xFF 0xFF, .linkChange 5 16].all Instr.wf) = true := by decide

/-! ### The spec's worked examples and tables, and test vectors of the standards it cites -/

/-- spec/00_scope.md, worked example of a handle. -/
theorem test_handle : mkHandle 4 40000 = 0x40009C40 := by decide
/-- R410, worked example of register addresses. -/
theorem test_register_addresses : VDC 2 5 + 4 = 0x02030504 ∧ MDCi (64 * 1 + 8 * 6 + 2) + 8 = 0x01813208 ∧ BRDQ 3 6 = 0x03033280 := by decide
/-- R24: stride 1 starts 833,333 ns into its second, stride 1,199 at 999,166,666 ns. -/
theorem test_stride_start : strideStart 1 = 833333 ∧ strideStart 1199 = 999166666 ∧ strideStart 1200 = 1000000000 := by decide
/-- R42, worked example of spec/02_strides.md: admissible amounts, and what layout 120 lacks. -/
theorem test_admission : admissible dev 2 1 = 8100000 ∧ admissible dev 3 1 = 7200000 ∧ shortfall (ledgTake dev 18 1 8096760) 2 1 68040 = 64800 := by decide +kernel
/-- R354 and R355, worked example of spec/18_events_ledgers.md. -/
theorem test_event_records :
    (evRecords { code := 0xE00, cls := 3, scope := 1, quarter := 2, index := 7, detail := [(1, 7), (1, 2), (4, 4608), (4, 3100), (4, 1500), (4, 9)] } 0x52A1F0).map
        (fun r => leBytes r.toNat 16) =
      [[0x00, 0x3E, 0x07, 0x60, 0xF0, 0xA1, 0x52, 0x00, 0x07, 0x02, 0x00, 0x12, 0x00, 0x00, 0x00, 0x00],
       [0xFF, 0x3F, 0x1C, 0x0C, 0x00, 0x00, 0xDC, 0x05, 0x00, 0x00, 0x09, 0x00, 0x00, 0x00, 0x00, 0x00]] := by decide +kernel
/-- R112 and R113, worked example of spec/05_media_core.md. -/
theorem test_circular_addresses : wrapCirc 0x1100 0x1000 256 = (0x1000, false) ∧ wrapCirc 0x0FE0 0x1000 256 = (0x10E0, false) ∧
    wrapCirc 0x1100 0x1000 128 = (0x1000, true) := by decide
/-- R118, table NORMX.w examples. -/
theorem test_normx : ([1, -3, 2 ^ 40, 0, -1].map fun v => (rsb v 80, expLane false v, BitVec.ofInt 32 (normLane false v (expLane false v)).1)) =
    [(78, 30, 0x40000000#32), (77, 29, 0xA0000000#32), (38, -10, 0x40000000#32), (79, 31, 0#32), (79, 31, 0x80000000#32)] := by decide +kernel
/-- R144, example: a 400G-4L port on L4 to L7 with L4 faulty, and with L4 and L7 faulty. -/
def wide (bad : List Nat) : Dev :=
  poke dev ([(MACP 2 + 4, 0x2049)] ++ (List.range 4).map fun i => (SDS (4 + i), if bad.contains (4 + i) then 0x11002 else 2))
theorem test_degrade_ladder : chooseGroup (wide []) 2 = some (9, [4, 5, 6, 7]) ∧ chooseGroup (wide [4]) 2 = some (7, [6, 7]) ∧
    chooseGroup (wide [4, 7]) 2 = some (4, [5]) := by decide +kernel
/-- R150, worked case: 65,535 quanta at 100 Gb/s are 335,539.2 ns. -/
theorem test_pause_quanta : quantaPs (setTypeNow dev 2 4 0) 2 65535 = 335539200 := by decide +kernel
/-- R193 to R196, worked example of spec/09_audio.md. -/
theorem test_pot_sample : gainBlock 0x6000 [4000000] = [6000000] ∧ (fadeIn (List.replicate 40 3000000))[9]? = some 750000 ∧
    limTarget 7471104 [10550000] = 23205 ∧ limTarget 7471104 [11750000] = 20835 ∧ limGain false 32768 23205 3 0 = 32529 ∧
    limGain false 32768 23205 3 39 = 23205 ∧ clamp24 (rndC (10550000 * 23205) 15) = 7471092 ∧ limGain false 23205 32768 3 39 = 23325 := by decide +kernel
/-- R225 and R226, worked example of spec/11_compositor.md: a tile of flat sky takes 5 sectors. -/
theorem test_packed_tile : ((fun t => (t.1, t.2.length)) (encodeTile ⟨32, 8, 3, false⟩
    ((List.range 256).map (fun i => 100 + nth [0, 1, 3, 5] (i % 4) 0) ++ List.replicate 128 128))) = (1 + 4 * 5, 160) := by decide +kernel
/-- R235, R237 and R239, worked example of spec/11_compositor.md. -/
def tile : Layer := { dstW := 640, dstH := 360, vtap := 2, auto_ := true, cmode := 1 }
theorem test_layer_levels : chooseLevel tile 1280 720 3 = some 1 ∧ directAt tile 1280 720 1 = true ∧ chooseLevel tile 1920 1080 3 = some 1 ∧
    lineNeed tile 1920 1080 1 = 13440 ∧ chooseLevel tile 854 480 2 = some 0 ∧ lineNeed tile 854 480 0 = 11102 ∧
    chooseLevel { tile with auto_ := false } 4096 2304 3 = none ∧ lineNeed tile 4096 2304 0 = 221184 ∧ chooseLevel tile 4096 2304 3 = some 2 ∧
    lineNeed tile 4096 2304 2 = 15360 := by decide +kernel
theorem test_layout_units_and_phase : bandUnits { layout with outW := 1280, outH := 720 } 0 = 40 ∧ nextPhase 1000017 40 5 = 1000045 ∧
    (withMatrix 1 tile).c.take 3 = [4096, -473, -852] := by decide +kernel
/-- R255 to R258, worked example of spec/12_video_encode.md: layer 2 of the 1080p stream. -/
def hevc : EncS :=
  { enc [] with outW := 1920, outH := 1080, codec := 1, sLayers := 3, tLayers := 3, period := 40, waves := [],
                cfg := { rates := [300000, 800000, 2400000], waveN := 8, qpMin := 0, qpMax := 51, cap := 24 }, pairs := [{ s := 2, t := 0, debt := 12000, wgt := [9000, 141000] }] }
def top (used left : Nat) : EncLayer := { s := 2, target := 148000, hard := 222000, used := used, unitsLeft := left }
theorem test_rate_control : nominal hevc 2 0 = 160000 ∧ pictureTarget false 160000 12000 24 = (148000, 222000) ∧
    rowBudget hevc { phase := 0 } (top 0 510) = 8880 ∧ (codeUnit (top 220950 70) (100, 3)).used = 220953 ∧ (codeUnit (top 220950 70) (100, 3)).exhausted = true ∧
    (findPair (settlePair hevc { phase := 0 } (top 221160 0)) 2 0).debt = 73160 ∧ pictureTarget false 160000 73160 24 = (86840, 130260) := by decide +kernel
theorem test_wave_groups : (List.range 3).map (waveGroups hevc 8) = [8, 8, 8] := by decide +kernel
/-- R275 to R279 and R283, worked example of spec/13_leg_forwarding.md. -/
def av1 : Dev := { dev with vid := { encs := [{ hevc with codec := 2 }] } }
def fleg (bwe : Nat) : Leg := { leg 1 true 1 with bwe := bwe, cfg := { fecMode := 1 } }
theorem test_layer_choice : allowance (fleg 1500000) = 1227272 ∧ targetOf av1 (fleg 1500000) (mkHandle 7 1) = (1, 2) ∧ allowance (fleg 2200000) = 1800000 ∧
    targetOf av1 (fleg 2200000) (mkHandle 7 1) = (2, 0) := by decide +kernel
theorem test_post_times : ([(0, 2300), (1000, 1300), (2000, 300)].map fun x => postTime { fleg 0 with picBytes := x.1 } { src with post := some (0, 40) } x.2) =
    [some 0, some 3623188, some 7246376] ∧ nackNumbers (wordsOf [1000 / 256, 1000 % 256, 0, 5]) = [1000, 1001, 1003] := by decide +kernel
/-- R294 and R295, worked example of spec/14_egress_bridle.md. -/
theorem test_shaper_ticks : tickBucket (-1338000) true true 100000 16384 false = -1238000 ∧ tickBucket (-938000) true true 20000 16384 false = -918000 ∧
    tickBucket (-938000) true true 20000 16384 true = 20000 := by decide
/-- R303, example: across the wrap. -/
theorem test_time_difference : ndiff 0x000000001000 0xFFFFFFFFF000 = 8192 := by decide
/-- R321, worked example of spec/16_memory.md. -/
theorem test_address_map : hbmPlace dev 0x03C012A40 = { h := 0, c := 4, pc := 9, bank := 13, row := 480, col := 0 } ∧
    ((hbmPlace dev 0x03C012A80).c, (hbmPlace dev 0x03C012A80).pc) = (5, 10) ∧ hbmPlace dev 0x03C013A40 = { h := 2, c := 4, pc := 9, bank := 13, row := 480, col := 0 } := by
  decide +kernel
/-- R341 and R342, worked example of spec/16_memory.md: E wins while its priority is above K's, K the tie after E. -/
theorem test_paddock_rounds : ((padRound { q := 1, n := 5, reqs := [⟨5, true, 8, 1⟩, ⟨17, false, 4, 1⟩], lastWin := some 5 }).owner = some 5) ∧
    ((padRound { q := 1, n := 5, reqs := [⟨5, true, 8, 1⟩, ⟨17, false, 4, 1⟩], lastWin := some 5 }).reqs = [⟨17, false, 5, 1⟩]) ∧
    ((padRound { q := 1, n := 5, reqs := [⟨5, true, 8, 1⟩, ⟨17, false, 8, 1⟩], lastWin := some 5 }).owner = some 17) ∧
    ((padRound { q := 1, n := 5, reqs := [⟨5, true, 8, 1⟩, ⟨17, false, 4, 1⟩], lastWin := some 5, grants := 48 }).owner = some 17) := by decide +kernel
/-- R346, worked example of spec/17_dma.md: right sample 5 of a stereo block. -/
def stereo : DmaDesc := { ddesc with mode := 3, sx := true, sw := 3, dw := 4, nch := 2, count := 40, src := 0x100000, dst := 0x1900003000 }
theorem test_unweave : (elements stereo)[11]? = some (0x100000 + 33, 0x19000030B4) ∧ convert stereo [0x5A, 0xF3, 0xFF] = [0x5A, 0xF3, 0xFF, 0xFF] := by decide +kernel
/-- FIPS 197 appendix C.1, the GCM specification's test case 2, RFC 2202 case 1, and the check value of CRC-32. -/
theorem test_aes : beBytes (natBe (aes (List.range 16) ((List.range 16).map (17 * ·)))) 16 = beBytes 0x69C4E0D86A7B0430D8CDB78070B4C55A 16 := by decide +kernel
theorem test_gcm : natBe (gcmCrypt (List.replicate 16 0) (List.replicate 12 0) (List.replicate 16 0)) = 0x0388DACE60B6A392F328C2B971B2FE78 ∧
    natBe (gcmTag (List.replicate 16 0) (List.replicate 12 0) [] (beList 0x0388DACE60B6A392F328C2B971B2FE78 16)) = 0xAB6E47D42CEC13BDF53A67B21257BDDF := by decide +kernel
theorem test_hmac_sha1 : natBe (hmacSha1 (List.replicate 20 11) [0x48, 0x69, 0x20, 0x54, 0x68, 0x65, 0x72, 0x65]) = 0xB617318655057264E28BC0B6FB378C8EF146BE00 := by
  decide +kernel
theorem test_crc32 : crc32 [0x31, 0x32, 0x33, 0x34, 0x35, 0x36, 0x37, 0x38, 0x39] = 0xCBF43926 := by decide +kernel

/-! ### Commands on a small device -/

/-- What a command emits. -/
def outs (i : Instr) (d : Dev) : List Out := (devOf (exec i (st d))).out.drop d.out.length
/-- R61: tag, status and phase of the first pass and of the second. -/
theorem test_nop_completion : outs (.nop 0 0) (withCmd dev (cmd 0 0 [(2, 2, 0x1234)])) = [.completion 0 32 0 0 0x01001234] ∧
    outs (.nop 0 0) (withCmd (poke dev [(ringReg 0 32 0x10, 64)]) (cmd 0 0 [(2, 2, 0x1234)])) = [.completion 0 32 64 0 0x00001234] := by decide +kernel
/-- R37: the session handle in result bytes 4 to 7. -/
theorem test_session_open : outs (.sessionOpen 0 0) (withCmd dev (cmd 1 0 [])) = [.completion 0 32 0 0 0x1000000001000000] := by decide +kernel
/-- Reset values by a read: DMA_CTRL 0x40, PAD_CTRL 0x624830. -/
theorem test_register_reset : outs (.registerRead 0 (DMA 0 0 + 4) 4 0) dev = [.readData 0 (DMA 0 0 + 4) 0x40] ∧ outs (.registerRead 0 (PAD 0 + 1) 1 0) dev = [.readData 0 (PAD 0 + 1) 0x48] := by
  decide +kernel
/-- R25: the count goes up by one at a boundary. -/
theorem test_boundary : (devOf (exec (.strideBoundary {}) (st dev))).tim.stride = 1 := by decide +kernel
/-- R306: a forward step within the limit, in mode 1. -/
theorem test_step : (devOf (exec (.stepApply 1 {}) (st (poke dev [(TIM + 4, 1), (TIM + 0x24, 100), (TIM + 0x30, 100)])))).tim.clock = 100 := by decide +kernel
/-- R112, worked example: ld.v d0, [a4]+m4 from 0x10E0 in the buffer 0x1000 to 0x1100 leaves a4 at 0x1000. -/
def circ : Core := { core with a := [0, 0, 0, 0, 0x10E0, 0, 0, 0], b := [0, 0, 0, 0, 0x1000, 0, 0, 0], l := [0, 0, 0, 0, 256, 0, 0, 0], m := [0, 0, 0, 0, 32, 0, 0, 0] }
theorem test_post_modify : nth (findCore (devOf (exec (.ldV iss 0 (.postM 4) false) (st (on circ)))) 255).a 4 0 = 0x1000 := by decide +kernel
/-- Scalar add wraps; a source that is also the destination. -/
theorem test_scalar_add : nth (findCore (devOf (exec (.scalarOp iss .add 3 3 (.imm 2)) (st (on { core with s := List.replicate 16 0xFFFFFFFF })))) 255).s 3 0 = 1 := by decide +kernel
/-- R150: a PAUSE with 0xFFFF quanta on a link of 10 Gb/s ends 65,535 × 51.2 ns later. -/
theorem test_pause_frame : (getPort (devOf (exec (.pauseFrame 7 0 false 0 [0xFFFF]) (st (poke (port 5) [(MACP 7 + 0x14, 1)])))) 7).pauseEnd = 65535 * 51200 := by decide +kernel
/-- R156: LD of the first 16 bits of the packet, high bit first. -/
theorem test_parse_ld : ((devOf (exec (.parseLd 255) (st (parsing { thr with pkt := pkt [0x81, 0x00] } (ins 1 0 0 0 15))))).pke.threads.map fun t => nth t.w 0 0) = [0x8100] := by
  decide +kernel
/-- R158: IPv6 of 98 bytes behind 18 bytes of Ethernet in a frame of 156 bytes ends with the frame (worked example of
spec/07_packet_engine.md). -/
theorem test_parse_lenchk : ((devOf (exec (.parseLenchk 255) (st (parsing { thr with pkt := pkt (List.replicate 156 0), cursor := 18, w := List.replicate 8 98 }
    (ins 8 1 0 0 0))))).pke.threads.map Thread.ipEnd) = [some 156] := by decide +kernel
/-- R179: a packet in the window that has been seen is dropped as a replay. -/
theorem test_replay : (devOf (exec (.srtpInbound {} false) (st (srtp 16 { leg := mkHandle 4 0, started := true, high := 5, bitmap := 1 })))).sec.inq = [] := by decide +kernel
/-- R204: three readings in a window press its button. -/
theorem test_button : (devOf (exec .buttonPress (st (craftIn 0x2200 { win := 4, winRun := 3 })))).aud.craft.pressed = some 4 := by decide +kernel
/-- R235: LAYOUT_COMMIT answers the first stride of the layout's phase after the present one. -/
theorem test_layout_commit : outs (.layoutCommit 0 0) (withCmd { med with tim := { med.tim with stride := 17 } } (cmd 0x32 (mkHandle 6 0) [(8, 1, 3), (10, 1, 255)])) =
    [.completion 0 32 0 0 (0x01000000 + 19 * 2 ^ 32)] := by decide +kernel
/-- R338, R382: an uncorrectable word of the Paddock dumps as ones. -/
theorem test_dump_ue : dumpWord (poke (devIn .haltSafe) [(SYS + 0x20, 0x1000000), (SYS + 0x24, 0x10000)]) true = (0xFFFFFFFF, true) ∧
    dumpWord (poke (devIn .haltSafe) [(SYS + 0x20, 0x1000000), (SYS + 0x24, 0x10000)]) false = (0, false) := by decide +kernel
/-- R338: samples that the pipe cannot read become mid-grey. -/
theorem test_band_grey : fillSamples [1, 2, 3, 4] 1 2 128 = [1, 128, 128, 4] := by decide
/-- R28: strides count from 0 at power-on reset. -/
theorem test_power_on : (devOf (exec (.powerOnReset 0) (st dev))).tim.stride = 0 := by decide +kernel

end Sys2Proof.Tests
end

section
/-! A register write of the host under the access types of the register's fields (R9, R50). -/
namespace Sys2Proof.Machine
variable {d : Dev} {l : Loc} {r : RegRow} {is : List Nat} {a : Nat} {v : Word}

/-! ### Dispatch: a plain register's write is `writeFields` -/

theorem writeHif_plain {fn : Nat} (hb : l.blk = .hif) (h : plainWrites l = true) :
    writeHif d fn l r is a v = writeFields d l r is a v := by
  have hoff : l.off < 0x30 ∨ 0x54 ≤ l.off ∧ l.off ≠ 0x68 ∧ l.off ≠ 0x70 ∧ ¬(0x1000 ≤ l.off ∧ l.off < 0x1680) := by
    simp [plainWrites, hb] at h
    omega
  simp only [writeHif, Bool.and_eq_true, decide_eq_true_eq]
  rw [if_neg (by omega), if_neg (by omega), if_neg (by omega), if_neg (by omega), if_neg (by omega)]

theorem writeSys_plain (hb : l.blk = .sys) (h : plainWrites l = true) : writeSys d l r is a v = writeFields d l r is a v := by
  have ⟨hBoot, hReset⟩ : l.off ≠ 4 ∧ l.off ≠ 0x18 := by simpa [plainWrites, isWmStat, hb] using h
  unfold writeSys
  split
  · contradiction
  · contradiction
  · rfl

theorem writeTim_plain (hb : l.blk = .tim) (h : plainWrites l = true) : writeTim d l r is a v = writeFields d l r is a v := by
  have hoff : l.off ≠ 4 ∧ l.off ≠ 0x20 ∧ l.off ≠ 0x2C ∧ l.off < 0x300 ∧ ¬(0x200 ≤ l.off ∧ l.off < 0x280) := by
    simp [plainWrites, hb] at h
    omega
  simp only [writeTim, Bool.and_eq_true, decide_eq_true_eq]
  rw [if_neg (by omega), if_neg (by omega), if_neg (by omega), if_neg (by omega), if_neg (by omega)]

theorem writeMsix_plain {fn : Nat} (hb : l.blk = .msix) (h : plainWrites l = true) :
    writeMsix d fn l r is a v = writeFields d l r is a v := by
  have hoff : 0x200 ≤ l.off ∨ l.off % 0x10 ≠ 0xC := by simpa [plainWrites, isWmStat, hb] using h
  unfold writeMsix
  exact if_neg (by simp; omega)

/-- A write to a register without a rule of its own acts on its fields alone. -/
theorem writeReg_plain (hr : regAt d.variant a = some (l, r, is)) (h : plainWrites l = true) :
    writeReg d a v = writeFields d l r is a v := by
  have hw : isWmStat l = false := by
    rw [plainWrites, Bool.and_eq_true, Bool.not_eq_true'] at h
    exact h.1
  simp only [writeReg, hr, hw, Bool.false_eq_true, if_false]
  cases hb : l.blk
  case hif => exact writeHif_plain hb h
  case sys => exact writeSys_plain hb h
  case tim => exact writeTim_plain hb h
  case msix => exact writeMsix_plain hb h
  case fus | brd => simp [plainWrites, hb] at h
  case evt =>
    have hoff : (nth l.idx 0 0 == 0 && l.off == 0) = false := by
      simpa only [plainWrites, hw, hb, Bool.not_false, Bool.true_and, Bool.not_eq_true'] using h
    exact if_neg (fun hz => Bool.false_ne_true (hoff.symm.trans hz))
  case mdc | sec | fwd | mac => exact if_neg (by simpa [plainWrites, hw, hb] using h)
  all_goals rfl

/-! ### cfg_reject: what a refused write to RWC fields leaves -/

/-- A write changes RWC fields that are not open now. -/
def refusesRwc (d : Dev) (l : Loc) (r : RegRow) (a : Nat) (v : Word) : Bool :=
  !rwcOpen d l && ((v ^^^ reg d a) &&& wd r.rwc) != 0

/-- The device with cfg_reject set where a write is refused. -/
def noteReject (d : Dev) (l : Loc) (r : RegRow) (a : Nat) (v : Word) : Dev :=
  if refusesRwc d l r a v then putB d (rejectReg l) 8 true else d

/-- The fields that take the value written: RW, RWS, and RWC where they are open. -/
def takeMask (d : Dev) (l : Loc) (r : RegRow) : Word := wd r.rw ||| wd r.rws ||| (if rwcOpen d l then wd r.rwc else 0)

theorem noteReject_wf (w : spWf d.regs = true) : spWf (noteReject d l r a v).regs = true := by
  unfold noteReject
  split
  · exact putB_wf w _ _ _
  · exact w

theorem reg_noteReject_other (w : spWf d.regs = true) {b : Nat} (hb : b ≠ rejectReg l) :
    reg (noteReject d l r a v) b = reg d b := by
  unfold noteReject
  split
  · exact reg_setF_other w hb _ _ _
  · rfl

theorem noteReject_of_accepted (h : rwcOpen d l = true ∨ (v ^^^ reg d a) &&& wd r.rwc = 0) : noteReject d l r a v = d := by
  have hno : refusesRwc d l r a v = false := by rcases h with h | h <;> simp [refusesRwc, h]
  simp [noteReject, hno]

theorem reg_noteReject_of_refused (w : spWf d.regs = true) (hc : rwcOpen d l = false)
    (hv : (v ^^^ reg d a) &&& wd r.rwc ≠ 0) : reg (noteReject d l r a v) (rejectReg l) = setBit (reg d (rejectReg l)) 8 true := by
  have hyes : refusesRwc d l r a v = true := by rw [refusesRwc, hc]; exact bne_iff_ne.2 hv
  rw [noteReject, if_pos hyes]
  exact reg_setF_same w _ _ _ _

/-- Only bit 8 of the register that holds cfg_reject may change. -/
theorem getLsbD_noteReject (w : spWf d.regs = true) {b i : Nat} (hi : i < 32) (h8 : rejectReg l = b → i ≠ 8) :
    (reg (noteReject d l r a v) b).getLsbD i = (reg d b).getLsbD i := by
  by_cases hb : b = rejectReg l
  · unfold noteReject
    split
    · have := h8 hb.symm
      rw [hb, putB, reg_setF_same w, getLsbD_setFld _ _ _ _ _ hi, if_neg (by omega)]
    · rfl
  · rw [reg_noteReject_other w hb]

/-! ### The fields -/

theorem writeFields_eq_setReg (hro : r.roIx d.variant is = false) :
    writeFields d l r is a v = setReg (noteReject d l r a v) a
      ((reg (noteReject d l r a v) a &&& ~~~ takeMask d l r &&& ~~~ (v &&& wd r.w1c)) ||| (storedValue d l v &&& takeMask d l r)) := by
  unfold writeFields
  rw [hro]
  rfl

theorem getLsbD_takeMask (i : Nat) :
    (takeMask d l r).getLsbD i = ((wd r.rw ||| wd r.rws).getLsbD i || (rwcOpen d l && (wd r.rwc).getLsbD i)) := by
  unfold takeMask
  rw [BitVec.getLsbD_or]
  cases rwcOpen d l <;> simp

/-- A word whose bits under one mask are replaced, and under another cleared. -/
theorem getLsbD_replace_clear (old take clear new : Word) {i : Nat} (hi : i < 32) :
    ((old &&& ~~~ take &&& ~~~ clear) ||| (new &&& take)).getLsbD i =
      if take.getLsbD i then new.getLsbD i else old.getLsbD i && !clear.getLsbD i := by
  simp only [BitVec.getLsbD_or, BitVec.getLsbD_and, BitVec.getLsbD_not, hi, decide_true, Bool.true_and]
  cases take.getLsbD i <;> simp

theorem writeFields_eq_regs (hro : r.roIx d.variant is = false) :
    writeFields d l r is a v = { d with regs := (writeFields d l r is a v).regs } := by
  rw [writeFields_eq_setReg hro, noteReject]
  split <;> rfl

theorem reg_writeFields_other (w : spWf d.regs = true) (hro : r.roIx d.variant is = false) {b : Nat} (hb : b ≠ a) :
    reg (writeFields d l r is a v) b = reg (noteReject d l r a v) b := by
  rw [writeFields_eq_setReg hro, reg_setReg_other (noteReject_wf w) hb]

/-- Each bit of the register under its access type. -/
theorem getLsbD_writeFields (w : spWf d.regs = true) (hro : r.roIx d.variant is = false) {i : Nat} (hi : i < 32)
    (h8 : rejectReg l = a → i ≠ 8) :
    (reg (writeFields d l r is a v) a).getLsbD i =
      if (wd r.rw ||| wd r.rws).getLsbD i || (rwcOpen d l && (wd r.rwc).getLsbD i) then (storedValue d l v).getLsbD i
      else if (wd r.w1c).getLsbD i then (reg d a).getLsbD i && !v.getLsbD i
      else (reg d a).getLsbD i := by
  rw [writeFields_eq_setReg hro, reg_setReg_same (noteReject_wf w), getLsbD_replace_clear _ _ _ _ hi, getLsbD_takeMask,
    getLsbD_noteReject w hi h8, BitVec.getLsbD_and]
  cases (wd r.w1c).getLsbD i <;> simp

/-- An aligned write of the host to a plain register. -/
theorem exec_registerWrite_plain {s : State} {fn : Fin 64} {addr : Nat} (hbar : barAddr fn.val addr = some a)
    (hal : addr % 4 = 0) (hr : regAt s.dev.variant a = some (l, r, is)) (h : plainWrites l = true) :
    exec (.registerWrite fn addr v) s = .next { s with dev := writeFields s.dev l r is a v } := by
  have hw : hostWriteReg s.dev fn.val addr v = writeFields s.dev l r is a v := by
    simp only [hostWriteReg, hbar, hal, if_true]
    exact writeReg_plain hr h
  rw [← hw]
  rfl

/-- Settles O14: the write is `writeFields`, which notes cfg_reject and then sets this one register. -/
theorem registerWriteActsPerField : Obligations.RegisterWriteActsPerField := by
  unfold Obligations.RegisterWriteActsPerField
  intro s fn addr a val l r is w hbar hal hr hplain hro
  refine ⟨{ s with dev := writeFields s.dev l r is a val }, exec_registerWrite_plain hbar hal hr hplain, ?_, ?_, ?_, ?_, ?_⟩
  · exact congrArg (fun x : Dev => { s with dev := x }) (writeFields_eq_regs hro)
  · intro b hba hbr
    rw [reg_writeFields_other w hro hba, reg_noteReject_other w hbr]
  · intro hacc hra
    rw [reg_writeFields_other w hro hra, noteReject_of_accepted hacc]
  · intro hclosed hdiff hra
    rw [reg_writeFields_other w hro hra, reg_noteReject_of_refused w hclosed hdiff]
  · intro i hi h8
    exact getLsbD_writeFields w hro hi h8

end Sys2Proof.Machine
end

section
/-! What a register read answers, and what it leaves unchanged (R29, R50, R412). -/
namespace Sys2Proof.Machine
variable {d : Dev} {s : State} {l : Loc} {r : RegRow} {is : List Nat} {fn addr a n : Nat}

/-! ### The word that a read takes -/

theorem readReg_absent (h : regAt d.variant a = none) : readReg d a = (0, d) := by
  simp only [readReg, h]

/-- A quiet register shows its live value, and the read changes nothing. -/
theorem readReg_quiet (h : regAt d.variant a = some (l, r, is)) (q : quietRead l a = true) : readReg d a = (liveReg d l a, d) := by
  simp only [quietRead, Bool.and_eq_true, bne_iff_ne, beq_iff_eq, Bool.not_eq_true'] at q
  obtain ⟨⟨⟨⟨⟨heffect, htime⟩, hcount⟩, hstride⟩, hdump⟩, htxts⟩ := q
  simp only [readReg, h, if_neg htime, if_neg hcount, if_neg hstride, if_neg hdump, htxts, heffect, Bool.false_eq_true, if_false]

theorem regAt_strideCount (v : Variant) : (regAt v (TIM + 0x108)).isSome = true := by cases v <;> decide

theorem readReg_strideCount (d : Dev) : readReg d (TIM + 0x108) = strideRead d := by
  obtain ⟨x, hx⟩ := Option.isSome_iff_exists.1 (regAt_strideCount d.variant)
  simp only [readReg, hx]
  rw [if_neg (by decide), if_neg (by decide), if_pos trivial]

/-! ### The bytes that leave the block -/

theorem hostReadReg_mapped (h : barAddr fn (addr - addr % 4) = some a) :
    hostReadReg d fn addr n = emitOut (readReg d a).2 (.readData fn addr (readBytes (readReg d a).1 addr n)) := by
  simp only [hostReadReg, h]

theorem hostReadReg_unmapped (h : barAddr fn (addr - addr % 4) = none) :
    hostReadReg d fn addr n = emitOut d (.readData fn addr 0) := by
  simp only [hostReadReg, h]

theorem readBytes_zero (addr n : Nat) : readBytes 0 addr n = 0 := by simp [readBytes, wd]

/-- Four bytes of an aligned word are the word. -/
theorem readBytes_word (v : Word) (h : addr % 4 = 0) : readBytes v addr 4 = v := by
  rw [readBytes, h, Nat.pow_zero, Nat.div_one, Nat.mod_eq_of_lt (show v.toNat < 256 ^ 4 from v.isLt), wd, BitVec.ofNat_toNat, BitVec.setWidth_eq]

/-! ### The rows -/

theorem readAt_variant (d : Dev) (t : Nat) : (readAt d t).variant = d.variant := by
  unfold readAt advance
  split
  · split <;> rfl
  · rfl

theorem exec_registerRead (fn : Fin 64) (addr n t : Nat) (s : State) :
    exec (.registerRead fn addr n t) s = nextWith s (hostReadReg (readAt s.dev t) fn.val addr n) := rfl

theorem exec_strideCountRead (fn : Fin 64) (s : State) :
    exec (.strideCountRead fn) s = nextWith s (hostReadReg s.dev fn.val (TIM + 0x108) 4) := rfl

/-- A VF's BAR0 ends below the stride count (R414). -/
theorem barAddr_strideCount_vf (h : fn ≠ 0) : barAddr fn (TIM + 0x108 - (TIM + 0x108) % 4) = none := by
  simp [barAddr, TIM, h]

/-- Settles O17: a quiet read is the live value of `liveReg`, an absent register reads 0, and the stride count is `strideRead`. -/
theorem registerReadAnswers : Obligations.RegisterReadAnswers := by
  unfold Obligations.RegisterReadAnswers
  refine ⟨?_, ?_, ?_, ?_⟩
  · intro s fn addr a n t l r is hbar hreg hquiet
    rw [exec_registerRead, hostReadReg_mapped hbar, readReg_quiet ((readAt_variant _ _).symm ▸ hreg) hquiet]
    rfl
  · intro s fn addr a n t hbar hreg
    rw [exec_registerRead, hostReadReg_mapped hbar, readReg_absent ((readAt_variant _ _).symm ▸ hreg), readBytes_zero]
  · intro s
    rw [exec_strideCountRead, hostReadReg_mapped (a := TIM + 0x108) (by decide), readReg_strideCount, readBytes_word _ (by decide)]
    rfl
  · intro s fn hfn
    rw [exec_strideCountRead, hostReadReg_unmapped (barAddr_strideCount_vf (Fin.val_ne_zero_iff.2 hfn))]

end Sys2Proof.Machine
end

section
/-! Strides on the network clock (R24, R25, R27): the arithmetic of stride starts, and what a boundary does to the count and the
clock. After `beginStride` every step of the boundary leaves both alone: most may not write the time unit at all
(`time_of_only`), the rest write other fields of it. -/
namespace Sys2Proof.Machine
variable {a b d : Dev}

/-! ### Stride starts -/

theorem strideStart_eq (c : Nat) : strideStart c = c * 2500000 / 3 := by
  unfold strideStart
  omega

theorem strideStart_second_add (s k : Nat) : strideStart (1200 * s + k) = 1000000000 * s + k * 2500000 / 3 := by
  rw [strideStart_eq]
  omega

theorem strideStart_second (s : Nat) : strideStart (1200 * s) = 1000000000 * s := by
  simpa using strideStart_second_add s 0

/-- `strideAt` finds the last stride that has begun. -/
theorem strideStart_le_iff (c t : Nat) : strideStart c ≤ t ↔ c ≤ strideAt t := by
  rw [strideStart_eq]
  unfold strideAt
  omega

theorem strideAt_eq_iff (t c : Nat) : (strideStart c ≤ t ∧ t < strideStart (c + 1)) ↔ strideAt t = c := by
  rw [← Nat.not_le, strideStart_le_iff, strideStart_le_iff]
  omega

theorem strideAt_strideStart (c : Nat) : strideAt (strideStart c) = c := by
  rw [← strideAt_eq_iff, strideStart_eq, strideStart_eq]
  omega

/-! ### The stride that a boundary begins -/

theorem lt_newStride (d : Dev) : d.tim.stride < newStride d := by
  unfold newStride
  split <;> omega

/-- From the next start on, the boundary begins the stride of the clock. -/
theorem newStride_of_reached (h : strideStart (d.tim.stride + 1) ≤ d.tim.clock) : newStride d = strideAt d.tim.clock := by
  rw [newStride, if_pos h]
  exact Nat.max_eq_right ((strideStart_le_iff _ _).1 h)

theorem newStride_of_not_passed (h : d.tim.clock ≤ strideStart (d.tim.stride + 1)) : newStride d = d.tim.stride + 1 := by
  rcases Nat.lt_or_eq_of_le h with hbefore | hat
  · rw [newStride, if_neg (Nat.not_le.2 hbefore)]
  · rw [newStride_of_reached (Nat.le_of_eq hat.symm), hat, strideAt_strideStart]

/-! ### What leaves the count and the clock alone -/

/-- The stride count and the clock. -/
def time (d : Dev) : Nat × Nat := (d.tim.stride, d.tim.clock)

/-- The parts other than the stride count and the rest of the time unit. -/
abbrev offTime : Piece → Prop := (· ∉ [Piece.stride, Piece.tim])

/-- What may not write the time unit keeps the time. -/
theorem time_of_only (h : Only offTime a b) : time b = time a := by
  have hclock := congrArg TimSt.clock (h.tim (by decide))
  exact Prod.ext (h.stride (by decide)) hclock

theorem time_foldl {α : Type} {f : Dev → α → Dev} (hf : ∀ d x, time (f d x) = time d) (l : List α) (d : Dev) :
    time (l.foldl f d) = time d := by
  induction l generalizing d with
  | nil => rfl
  | cons x l ih => exact (ih _).trans (hf d x)

theorem time_setReg (d : Dev) (a : Nat) (v : Word) : time (setReg d a v) = time d := rfl
theorem time_putQ (d : Dev) (p q : Nat) (x : BrdQ) : time (putQ d p q x) = time d := rfl
theorem time_keepRegs (d : Dev) : time { d with regsB := d.regs } = time d := rfl
theorem time_setF (d : Dev) (a lo len v : Nat) : time (setF d a lo len v) = time d := rfl
theorem time_raiseOnce (d : Dev) (x : Ev) : time (raiseOnce d x) = time d := rfl
theorem time_flushOnce (d : Dev) : time (flushOnce d) = time d :=
  time_of_only (by apply flushOnce_only (h := Only.refl d) <;> decide)
theorem time_freeCells (d : Dev) (p n r : Nat) : time (freeCells d p n r) = time d :=
  time_of_only (by apply freeCells_only (h := Only.refl d) <;> decide)
theorem time_complete (d : Dev) (id st : Nat) (res : List Byte) : time (complete d id st res) = time d :=
  time_of_only (by apply complete_only (h := Only.refl d) <;> decide)
theorem time_popQ (d : Dev) (p q : Nat) : time (popQ d p q) = time d :=
  time_of_only (by apply popQ_only (h := Only.refl d) <;> decide)
theorem time_modeSteps (d : Dev) : time (reportTack (modeBoundary (setDecodeCap (pagesDue d)))) = time d :=
  time_of_only (by
    refine reportTack_only ?_ ?_ ?_ ?_ (modeBoundary_only ?_ ?_ ?_ ?_ ?_ (setDecodeCap_only ?_ ?_ ?_ (pagesDue_only ?_ (Only.refl d))))
    all_goals decide)
theorem time_retrainPorts (d : Dev) : time (retrainPorts d) = time d :=
  time_of_only (by apply retrainPorts_only (h := Only.refl d) <;> decide)
theorem time_pkeBoundary (d : Dev) : time (pkeBoundary d) = time d := rfl
theorem time_phaseBoundary (d : Dev) : time (phaseBoundary d) = time d :=
  time_of_only (by apply phaseBoundary_only (h := Only.refl d) <;> decide)
theorem time_dealerBoundary (d : Dev) (old : Word) : time (dealerBoundary d old) = time d :=
  time_of_only (by apply dealerBoundary_only (h := Only.refl d) <;> decide)
theorem time_settleLedgers (d : Dev) : time (settleLedgers d) = time d := rfl
theorem time_unitBoundary (env : BoundaryEnv) (d : Dev) : time (unitBoundary env d) = time d :=
  time_of_only (by apply unitBoundary_only (h := Only.refl d) <;> decide)
theorem time_takeSnapshot (d : Dev) : time (takeSnapshot d) = time d :=
  time_of_only (by apply takeSnapshot_only (h := Only.refl d) <;> decide)

/-! ### What writes other fields of the time unit -/

theorem time_holdStride (d : Dev) : time (holdStride d) = time d := by
  unfold holdStride
  split <;> rfl

theorem time_startPulse (d : Dev) (g t at_ w : Nat) : time (startPulse d g t at_ w) = time d := by
  unfold startPulse
  split <;> rfl

theorem time_strideEdges (d : Dev) (skipped : Nat) : time (strideEdges d skipped) = time d := by
  unfold strideEdges
  extract_lets format width
  refine time_foldl (fun d g => ?_) _ d
  split
  · rfl
  · dsimp only
    split
    · exact time_startPulse _ _ _ _ _
    · rfl

theorem time_pushTxTs (d : Dev) (p : Nat) (x : TxTs) : time (pushTxTs d p x) = time d := by
  unfold pushTxTs
  dsimp only
  split <;> rfl

theorem time_endFrame (d : Dev) (p : Nat) (f : TxFrame) (outcome : Nat) : time (endFrame d p f outcome) = time d := by
  unfold endFrame
  extract_lets freed stamped
  have hstamped : time stamped = time d := by
    unfold stamped
    split
    · rw [time_pushTxTs, time_freeCells]
    · exact time_freeCells _ _ _ _
  split
  · rw [time_complete, hstamped]
  · exact hstamped

theorem time_dropFrame (d : Dev) (p : Nat) (f : TxFrame) : time (dropFrame d p f) = time d := by
  unfold dropFrame
  split
  · exact time_endFrame _ _ _ _
  · exact time_endFrame _ _ _ _

theorem time_ageDropN (n : Nat) (d : Dev) (p q : Nat) : time (ageDropN n d p q) = time d := by
  induction n generalizing d with
  | zero => rfl
  | succ n ih =>
    unfold ageDropN
    split
    · rfl
    · dsimp only
      split
      · rw [ih, time_dropFrame, time_raiseOnce]
        exact time_popQ d p q
      · rfl

theorem time_brdBoundary (d : Dev) : time (brdBoundary d) = time d := by
  refine time_foldl (fun d p => time_foldl (fun d q => ?_) _ d) _ d
  dsimp only
  rw [time_putQ, time_setReg, time_ageDropN]

/-! ### The boundary -/

/-- The new count, and the clock at the start of its stride or where it was beyond it. -/
theorem time_beginStride (d : Dev) (stepped : Bool) (n : Nat) :
    time (beginStride d stepped n) = (n, max d.tim.clock (strideStart n)) := by
  have hadvance : time (advance { d with tim := { d.tim with stride := n } } (strideStart n)) = (n, max d.tim.clock (strideStart n)) := by
    unfold advance
    split
    · next h => exact congrArg (Prod.mk n) (Nat.max_eq_right (Nat.le_of_lt h)).symm
    · next h => exact congrArg (Prod.mk n) (Nat.max_eq_left (Nat.le_of_not_lt h)).symm
  unfold beginStride satF putB
  dsimp only
  split
  · rw [time_setF, time_setF, time_setF, hadvance]
  · rw [time_setF, hadvance]

theorem time_strideBoundary (env : BoundaryEnv) (h : d.tim.running = true) :
    time (strideBoundary d env) = (newStride d, max d.tim.clock (strideStart (newStride d))) := by
  unfold strideBoundary
  rw [if_neg (by simp [h])]
  extract_lets old n stepped skipped begun edged moded bridled dealt
  have hbegun : time begun = (n, max d.tim.clock (strideStart n)) := by
    have hclock : (holdStride (flushOnce d)).tim.clock = d.tim.clock :=
      congrArg Prod.snd ((time_holdStride _).trans (time_flushOnce d))
    rw [← hclock]
    exact time_beginStride _ _ _
  have hedged : time edged = time begun := (time_strideEdges _ _).trans (time_keepRegs begun)
  have hmoded : time moded = time edged := time_modeSteps _
  have hbridled : time bridled = time moded := by
    unfold bridled
    split
    · rfl
    · rw [time_pkeBoundary, time_brdBoundary, time_retrainPorts]
  have hdealt : time dealt = time bridled := by
    unfold dealt
    split
    · rfl
    · rw [time_dealerBoundary, time_phaseBoundary]
  calc time (takeSnapshot (unitBoundary env (settleLedgers dealt)))
      = time dealt := by rw [time_takeSnapshot, time_unitBoundary, time_settleLedgers]
    _ = (n, max d.tim.clock (strideStart n)) := by rw [hdealt, hbridled, hmoded, hedged, hbegun]

theorem strideBoundary_stride (env : BoundaryEnv) (h : d.tim.running = true) : (strideBoundary d env).tim.stride = newStride d :=
  congrArg Prod.fst (time_strideBoundary env h)

theorem strideBoundary_clock (env : BoundaryEnv) (h : d.tim.running = true) :
    (strideBoundary d env).tim.clock = max d.tim.clock (strideStart (newStride d)) :=
  congrArg Prod.snd (time_strideBoundary env h)

theorem exec_strideBoundary (env : BoundaryEnv) (s : State) :
    exec (.strideBoundary env) s = nextWith s (strideBoundary s.dev env) := rfl

/-- Settles O54: stride starts are floors of 2,500,000 c / 3, and a boundary's count and clock are those of `time_strideBoundary`. -/
theorem stridesBeginOnTheClock : Obligations.StridesBeginOnTheClock := by
  unfold Obligations.StridesBeginOnTheClock
  refine ⟨fun s k _ => strideStart_second_add s k, fun s => ⟨strideStart_second (s + 1), strideStart_second (s + 1)⟩,
    strideAt_eq_iff, ?_, ?_⟩
  · intro s env hrun
    refine ⟨_, exec_strideBoundary env s, strideBoundary_stride env hrun, ?_, fun hnot => ?_, ?_⟩
    · exact Nat.lt_of_lt_of_eq (lt_newStride s.dev) (strideBoundary_stride env hrun).symm
    · have hnext := newStride_of_not_passed hnot
      refine ⟨(strideBoundary_stride env hrun).trans hnext, ?_⟩
      dsimp only
      rw [strideBoundary_clock env hrun, strideBoundary_stride env hrun, hnext, Nat.max_eq_right hnot]
    · dsimp only
      rw [strideBoundary_clock env hrun, strideBoundary_stride env hrun]
  · intro s env hstop
    rw [exec_strideBoundary, strideBoundary, if_pos (by simp [hstop])]

end Sys2Proof.Machine
end

section
/-! Ring commands: from a row's inversion to its step, and the objects and sessions that handles name (R52, R71). -/
namespace Sys2Proof.Machine
variable {s : State} {d d' : Dev} {c : Cmd} {i : Instr} {op fn ring h k n : Nat} {act : Dev → Cmd → Except Fail Act} {res : List Byte}

/-! ### Rows -/

theorem exec_done (he : exec i s = nextWith s (runCmd op fn ring act s.dev)) (r : Runs s.dev op fn ring c)
    (ha : act s.dev c = .ok (.done d res)) : exec i s = nextWith s (completes d c res) := by
  rw [he, runCmd_done r ha]

theorem exec_wait (he : exec i s = nextWith s (runCmd op fn ring act s.dev)) (r : Runs s.dev op fn ring c)
    (ha : act s.dev c = .ok (.wait d)) : exec i s = nextWith s (goesOn d c) := by
  rw [he, runCmd_wait r ha]

/-! ### What a handle names -/

theorem findObj_handle {o : Obj} (hf : findObj d h = some o) : o.handle = h := by
  simpa using List.find?_some hf

theorem objOf_ok {o : Obj} (ho : objOf d fn k h = .ok o) : findObj d h = some o ∧ hKind h = k ∧ o.fn = fn := by
  unfold objOf at ho
  split at ho
  · split at ho
    · next hf hc =>
      cases ho
      simpa [hf] using hc
    · cases ho
  · cases ho

theorem findSession_handle {x : Session} (hf : findSession d h = some x) : x.handle = h := by
  have hp := List.find?_some hf
  simp only [Bool.and_eq_true, beq_iff_eq] at hp
  exact hp.1

theorem sessionOf_ok {x : Session} (hs : sessionOf d fn h = .ok x) : findSession d h = some x ∧ x.fn = fn := by
  unfold sessionOf at hs
  split at hs
  · split at hs
    · next hf hc =>
      cases hs
      exact ⟨hf, by simpa using hc⟩
    · cases hs
  · cases hs

/-! ### New handles -/

theorem hKind_mkHandle (k : Nat) (hn : n < 2 ^ 28) : hKind (mkHandle k n) = k := by
  unfold hKind mkHandle
  omega

theorem hIndex_mkHandle (k : Nat) (hn : n < 2 ^ 28) : hIndex (mkHandle k n) = n := by
  unfold hIndex mkHandle
  omega

/-- A free index lies below the capacity and is not in use. -/
theorem freeIndex_some {used : List Nat} {cap : Nat} (hi : freeIndex used cap = some n) : n < cap ∧ n ∉ used := by
  have hmem := List.mem_of_find?_eq_some hi
  have hfree := List.find?_some hi
  simp only [List.mem_range] at hmem
  exact ⟨by omega, by simpa using hfree⟩

end Sys2Proof.Machine
end

section
/-! NOP, queries, sessions and releases (R36 to R40, R73). -/
namespace Sys2Proof.Machine
variable {s : State} {d : Dev} {c : Cmd} {a : Act} {h : Nat}

/-! ### What each command does once its checks pass -/

theorem nopAct_ok (ha : nopAct d c = .ok a) : a = .done d (leBytes d.tim.stride 8) := by
  obtain ⟨_, -, ha⟩ := bind_ok ha
  obtain ⟨_, -, ha⟩ := bind_ok ha
  exact (Except.ok.inj ha).symm

/-- The device with a session booked and added. -/
def withSession (d : Dev) (c : Cmd) (i : Nat) : Dev :=
  let b := book d 0 [⟨13, 1⟩]
  { b with obj := { b.obj with sessions := b.obj.sessions ++ [{ handle := mkHandle 1 i, fn := c.fn }] } }

theorem sessionOpenAct_ok (ha : sessionOpenAct d c = .ok a) :
    ∃ i, freeIndex (d.obj.sessions.map fun x => hIndex x.handle) (d.variant.kindCap 1) = some i ∧
      a = .done (withSession d c i) (leBytes (mkHandle 1 i) 4) := by
  obtain ⟨_, -, ha⟩ := bind_ok ha
  obtain ⟨_, -, ha⟩ := bind_ok ha
  obtain ⟨_, -, ha⟩ := bind_ok ha
  dsimp only at ha
  split at ha
  · cases ha
  · cases ha
  · next i _ hi => exact ⟨i, hi, (Except.ok.inj ha).symm⟩

/-- The index of a new session is below the capacity, and no session has its handle. -/
theorem new_session_handle {i : Nat} (hi : freeIndex (d.obj.sessions.map fun x => hIndex x.handle) (d.variant.kindCap 1) = some i) :
    i < d.variant.capSessions ∧ ∀ x ∈ d.obj.sessions, x.handle ≠ mkHandle 1 i := by
  obtain ⟨hcap, hfree⟩ := freeIndex_some hi
  have hlt : i < 65536 := hcap
  refine ⟨hcap, fun x hx heq => hfree (List.mem_map.2 ⟨x, hx, ?_⟩)⟩
  rw [heq, hIndex_mkHandle 1 (by omega)]

theorem sessionCloseAct_ok (ha : sessionCloseAct d c = .ok a) :
    ∃ x, findSession d (dHandle c.desc) = some x ∧ x.fn = c.fn ∧ a = .wait (if x.closing then d else closeSession d x) := by
  obtain ⟨x, hx, ha⟩ := bind_ok ha
  obtain ⟨_, -, ha⟩ := bind_ok ha
  obtain ⟨hfind, hfn⟩ := sessionOf_ok hx
  exact ⟨x, hfind, hfn, (Except.ok.inj ha).symm⟩

/-- An OBJ_RELEASE after its objects left service: it waits for their cards, or completes. -/
def released (d : Dev) (c : Cmd) (o : Obj) : Act :=
  let os := releaseOrder 4 d o
  let r := releaseAll d os
  if serving r.1 (os.map Obj.handle) then .wait (putCmd r.1 { c with awaits := os.map Obj.handle, n1 := r.2 })
  else .done r.1 (leBytes r.2 4)

theorem objReleaseAct_ok (ha : objReleaseAct d c = .ok a) :
    ∃ o, findObj d (dHandle c.desc) = some o ∧ o.fn = c.fn ∧ a = released d c o := by
  obtain ⟨o, ho, ha⟩ := bind_ok ha
  obtain ⟨_, -, ha⟩ := bind_ok ha
  obtain ⟨hfind, -, hfn⟩ := objOf_ok ho
  refine ⟨o, hfind, hfn, ?_⟩
  unfold released
  dsimp only at ha ⊢
  split at ha
  · next hserving => rw [if_pos hserving, ← Except.ok.inj ha]
  · next hserving => rw [if_neg hserving, ← Except.ok.inj ha]

/-! ### OBJ_QUERY -/

/-- Where a card is costs a free value at most. -/
theorem queryCard_frame (d : Dev) (k : Card) : (queryCard d k).1 = { d with freeCtr := (queryCard d k).1.freeCtr } := by
  unfold queryCard cardWhere
  dsimp only
  split
  · rfl
  · split <;> rfl

/-- What OBJ_QUERY of command `c` answers, by the kind of its handle (R40). -/
structure QueryAnswers (d : Dev) (c : Cmd) (res : List Byte) : Prop where
  session : hKind (dHandle c.desc) = 1 → ∃ x, findSession d (dHandle c.desc) = some x ∧ x.fn = c.fn ∧ res = querySession d x
  flow : hKind (dHandle c.desc) = 9 → ∃ x, findFlow d (dHandle c.desc) = some x ∧ x.host = true ∧ x.fn = c.fn ∧ res = queryFlow d x
  card : hKind (dHandle c.desc) = 10 → ∃ x, findCard d (hIndex (dHandle c.desc)) = some x ∧ x.fn = c.fn ∧ res = (queryCard d x).2
  object : hKind (dHandle c.desc) ≠ 1 → hKind (dHandle c.desc) ≠ 9 → hKind (dHandle c.desc) ≠ 10 →
    ∃ x, findObj d (dHandle c.desc) = some x ∧ x.fn = c.fn ∧ queryObj d (dHandle c.desc) (dByte c.desc 8) = some res

theorem objQueryAct_ok (ha : objQueryAct d c = .ok a) :
    ∃ e res, a = .done e res ∧ e = { d with freeCtr := e.freeCtr } ∧ QueryAnswers d c res := by
  unfold objQueryAct at ha
  dsimp only at ha
  split at ha
  · next hk =>
    obtain ⟨x, hx, ha⟩ := bind_ok ha
    obtain ⟨_, -, ha⟩ := bind_ok ha
    obtain ⟨hfind, hfn⟩ := sessionOf_ok hx
    exact ⟨d, _, (Except.ok.inj ha).symm, rfl, fun _ => ⟨x, hfind, hfn, rfl⟩, by omega, by omega, by omega⟩
  · next hk =>
    obtain ⟨x, hx, ha⟩ := bind_ok ha
    obtain ⟨_, -, ha⟩ := bind_ok ha
    split at hx
    · next hfind =>
      split at hx
      · next hown =>
        cases hx
        simp only [Bool.and_eq_true, beq_iff_eq] at hown
        exact ⟨d, _, (Except.ok.inj ha).symm, rfl, by omega, fun _ => ⟨x, hfind, hown.1, hown.2, rfl⟩, by omega, by omega⟩
      · cases hx
    · cases hx
  · next hk =>
    obtain ⟨x, hx, ha⟩ := bind_ok ha
    obtain ⟨_, -, ha⟩ := bind_ok ha
    split at hx
    · next hfind =>
      split at hx
      · next hown =>
        cases hx
        exact ⟨_, _, (Except.ok.inj ha).symm, queryCard_frame d x, by omega, by omega, fun _ => ⟨x, hfind, by simpa using hown, rfl⟩, by omega⟩
      · cases hx
    · cases hx
  · next h1 h9 h10 =>
    obtain ⟨x, hx, ha⟩ := bind_ok ha
    obtain ⟨_, -, ha⟩ := bind_ok ha
    obtain ⟨hfind, -, hfn⟩ := objOf_ok hx
    split at ha
    · next hres => exact ⟨d, _, (Except.ok.inj ha).symm, rfl, fun e => (h1 e).elim, fun e => (h9 e).elim, fun e => (h10 e).elim, fun _ _ _ => ⟨x, hfind, hfn, hres⟩⟩
    · cases ha

/-! ### Completions outside their own row -/

theorem complete_found {id st : Nat} {res : List Byte} {x : Cmd} (hf : findCmd d id = some x) :
    complete d id st res = settle (finish d x st res) := by
  simp only [complete, hf]

theorem sessionCloseDone_closed {x : Session} (hf : findSession d h = some x) (hc : x.closing = true) (hflows : sessionFlows d h = [])
    (hserving : serving d x.awaits = false) (hh : halted d = false) :
    sessionCloseDone d h =
      (closeCmds (unbook (putSession d { x with closed := true }) [⟨13, 0, 1⟩]) h).foldl
        (fun d c => complete d c.id ST_OK (resBytes [(4, x.released), (4, x.cancelled)]))
        (unbook (putSession d { x with closed := true }) [⟨13, 0, 1⟩]) := by
  simp [sessionCloseDone, hf, hc, hflows, hserving, hh]

/-- Settles O23: each row by what its checks leave (the lemmas `…Act_ok`), the ends of a close and of a release by their own. -/
theorem sessionsAndQueriesComplete : Obligations.SessionsAndQueriesComplete := by
  unfold Obligations.SessionsAndQueriesComplete
  refine ⟨?_, ?_, ?_, ?_, ?_, ?_, ?_⟩
  · intro s fn ring c r hp
    obtain ⟨a, ha⟩ := checksPass_ok hp
    exact exec_done rfl r (nopAct_ok ha ▸ ha)
  · intro s fn ring c r hp
    obtain ⟨_, ha⟩ := checksPass_ok hp
    obtain ⟨e, res, rfl, hframe, hres⟩ := objQueryAct_ok ha
    exact ⟨e, res, exec_done rfl r ha, hframe, hres.session, hres.flow, hres.card, hres.object⟩
  · intro s fn ring c r hp
    obtain ⟨_, ha⟩ := checksPass_ok hp
    obtain ⟨i, hi, rfl⟩ := sessionOpenAct_ok ha
    obtain ⟨hcap, hnew⟩ := new_session_handle hi
    exact ⟨i, hcap, hnew, exec_done rfl r ha⟩
  · intro s fn ring c r hp
    obtain ⟨_, ha⟩ := checksPass_ok hp
    obtain ⟨x, hfind, hfn, rfl⟩ := sessionCloseAct_ok ha
    exact ⟨x, hfind, hfn, exec_wait rfl r ha⟩
  · intro s h x hf hc hflows hserving hh
    exact congrArg (nextWith s) (sessionCloseDone_closed hf hc hflows hserving hh)
  · intro s fn ring c r hp
    obtain ⟨_, ha⟩ := checksPass_ok hp
    obtain ⟨o, hfind, hfn, rfl⟩ := objReleaseAct_ok ha
    refine ⟨o, hfind, hfn, ?_⟩
    unfold released at ha
    dsimp only at ha ⊢
    split at ha
    · next hs => rw [if_pos hs]; exact exec_wait rfl r ha
    · next hs => rw [if_neg hs]; exact exec_done rfl r ha
  · intro d c hone hf
    rw [endReleases, hone]
    exact complete_found hf

end Sys2Proof.Machine
end

section
/-! Records that handles name, new handles and admission (R33, R42, R52). -/
namespace Sys2Proof.Machine
variable {d : Dev} {fn h k : Nat}

/-! ### Records by handle -/

theorem findPart_handle {x : Part} (hf : findPart d h = some x) : x.handle = h := by simpa using List.find?_some hf
theorem findStream_handle {x : AStream} (hf : findStream d h = some x) : x.handle = h := by simpa using List.find?_some hf
theorem findLayout_handle {x : Layout} (hf : findLayout d h = some x) : x.handle = h := by simpa using List.find?_some hf

theorem openSession_ok {x : Session} (hs : openSession d fn h = .ok x) : findSession d h = some x ∧ x.fn = fn := by
  unfold openSession at hs
  split at hs
  · next hx =>
    split at hs
    · cases hs
    · cases hs
      exact sessionOf_ok hx
  · cases hs

/-! ### New handles -/

/-- Every capacity fits in the index field of a handle (R10). -/
theorem kindCap_le (v : Variant) (k : Nat) : v.kindCap k ≤ 2 ^ 28 := by
  unfold Variant.kindCap
  split <;> cases v <;> decide

theorem newHandle_some (hn : newHandle d k = some h) :
    ∃ i, mkHandle k i = h ∧ i < d.variant.kindCap k ∧ ∀ o ∈ d.obj.objs, hKind o.handle = k → hIndex o.handle ≠ i := by
  obtain ⟨i, hi, hmk⟩ := Option.map_eq_some_iff.1 hn
  obtain ⟨hcap, hfree⟩ := freeIndex_some hi
  refine ⟨i, hmk, hcap, fun o ho hkind hix => hfree ?_⟩
  refine List.mem_map.2 ⟨o.handle, List.mem_filter.2 ⟨?_, by simp [hkind]⟩, hix⟩
  exact List.mem_append_left _ (List.mem_append_left _ (List.mem_map_of_mem ho))

/-- A new handle is of its kind, below the kind's capacity, and no live object has it. -/
theorem newHandle_fresh (hn : newHandle d k = some h) : hKind h = k ∧ hIndex h < d.variant.kindCap k ∧ ∀ o ∈ d.obj.objs, o.handle ≠ h := by
  obtain ⟨i, rfl, hcap, hfree⟩ := newHandle_some hn
  have hlt := Nat.lt_of_lt_of_le hcap (kindCap_le _ _)
  rw [hKind_mkHandle k hlt, hIndex_mkHandle k hlt]
  refine ⟨rfl, hcap, fun o ho heq => hfree o ho ?_ ?_⟩
  · rw [heq, hKind_mkHandle k hlt]
  · rw [heq, hIndex_mkHandle k hlt]

end Sys2Proof.Machine
end

section
/-! Audio objects: conferences, participants, encode streams, the craft port (R184 to R188, R206). -/
namespace Sys2Proof.Machine
variable {d : Dev} {c : Cmd} {a : Act}

/-! ### CONF_CREATE -/

def newConf (c : Cmd) (q h : Nat) : Conf :=
  { handle := h, fn := c.fn, handMax := dBits c.desc 8 0 5, handEv := dBits c.desc 8 5 1 == 1, hpf := dByte c.desc 9,
    delay := dByte c.desc 10, home := q }
def confNeeds (c : Cmd) : List Need := [⟨0, dNum c.desc 12 4⟩, ⟨11, 1⟩]
/-- The device with a conference booked in quarter `q` and added. -/
def withConf (d : Dev) (c : Cmd) (q h : Nat) : Dev :=
  let b := addObj (book d q (confNeeds c))
    { handle := h, fn := c.fn, session := dHandle c.desc, parent := dHandle c.desc, home := q, books := booksOf q (confNeeds c) }
  { b with aud := { b.aud with confs := b.aud.confs ++ [newConf c q h] } }

theorem confCreateAct_ok (ha : confCreateAct d c = .ok a) :
    ∃ q h, admission d (if dByte c.desc 11 = 0xFF then none else some (dByte c.desc 11)) 0 (confNeeds c) = .ok q ∧
      newHandle d 2 = some h ∧ a = .done (withConf d c q h) (leBytes h 4) := by
  obtain ⟨x, hx, ha⟩ := bind_ok ha
  obtain ⟨_, -, ha⟩ := bind_ok ha
  have hsession := findSession_handle (openSession_ok hx).1
  dsimp only at ha
  split at ha
  · cases ha
  · cases ha
  · next q h hadmit hnew =>
    rw [hsession] at ha
    exact ⟨q, h, hadmit, hnew, (Except.ok.inj ha).symm⟩

/-! ### PART_CREATE -/

def newPart (c : Cmd) (conf h : Nat) : Part :=
  let peer := dBits c.desc 8 0 1 == 1
  let jbMin := if dByte c.desc 14 = 0 then 24 else dByte c.desc 14
  { handle := h, fn := c.fn, conf := conf, peer := peer, levelExt := dBits c.desc 8 1 1 == 1, always := dBits c.desc 8 2 1 == 1,
    codec := dByte c.desc 9, extId := dByte c.desc 10, peerMax := dBits c.desc 11 0 5, jbMin := jbMin,
    jbMax := if dByte c.desc 15 = 0 then 120 else dByte c.desc 15, tag := dNum c.desc 24 4, gain := dNum c.desc 12 2,
    mute := dBits c.desc 8 3 1 == 1, group := dNum c.desc 16 4, delay := if peer then 0 else jbMin }
/-- A participant's cycles, a unit of records where none is free, and its place. -/
def partNeeds (d : Dev) (c : Cmd) (conf : Nat) : List Need :=
  (if dBits c.desc 8 0 1 == 1 then [] else [⟨0, dNum c.desc 20 4⟩]) ++
    (if d.aud.units.any (RecUnit.hasPart conf) then [] else [⟨5, 1⟩]) ++ [⟨10, 1⟩]
/-- The device with a participant booked, added and given a record. -/
def withPart (d : Dev) (c : Cmd) (o : Obj) (k : Conf) (h : Nat) : Dev :=
  let ns := partNeeds d c k.handle
  let b := addObj (book d k.home ns) { handle := h, fn := c.fn, session := o.session, parent := k.handle, home := k.home,
                                       books := (booksOf k.home ns).filter fun b => b.b != 5 }
  takePartRecord { b with aud := { b.aud with parts := b.aud.parts ++ [newPart c k.handle h] } } k h

theorem partCreateAct_ok (ha : partCreateAct d c = .ok a) :
    ∃ o k h, findObj d (dHandle c.desc) = some o ∧ findConf d (dHandle c.desc) = some k ∧ newHandle d 3 = some h ∧
      a = .done (withPart d c o k h) (leBytes h 4) := by
  obtain ⟨o, ho, ha⟩ := bind_ok ha
  obtain ⟨_, -, ha⟩ := bind_ok ha
  obtain ⟨k, hk, ha⟩ := bind_ok ha
  obtain ⟨_, -, ha⟩ := bind_ok ha
  obtain ⟨_, -, ha⟩ := bind_ok ha
  obtain ⟨_, -, ha⟩ := bind_ok ha
  obtain ⟨hobj, -, -⟩ := objOf_ok ho
  rw [findObj_handle hobj] at hk
  split at hk
  · next hconf =>
    cases hk
    dsimp only at ha
    split at ha
    · cases ha
    · cases ha
    · next hnew => exact ⟨o, k, _, hobj, hconf, hnew, (Except.ok.inj ha).symm⟩
  · cases hk

/-! ### ENC_CREATE on a conference -/

def newStream (c : Cmd) (conf h : Nat) : AStream :=
  { handle := h, fn := c.fn, conf := conf, codec := dBits c.desc 8 0 3, frame := dByte c.desc 9, lowLat := dByte c.desc 10 == 1,
    bitrate := dNum c.desc 12 4, gain := dNum c.desc 16 2 }
def streamNeeds (c : Cmd) : List Need := [⟨0, dNum c.desc 20 4⟩, ⟨12, 1⟩]
/-- The device with an audio stream booked, added and given a record. -/
def withStream (d : Dev) (c : Cmd) (o : Obj) (k : Conf) (h : Nat) : Dev :=
  let b := addObj (book d k.home (streamNeeds c))
    { handle := h, fn := c.fn, session := o.session, parent := k.handle, home := k.home, books := booksOf k.home (streamNeeds c) }
  takeStreamRecord { b with aud := { b.aud with streams := b.aud.streams ++ [newStream c k.handle h] } } k.handle h

theorem audioEncCreate_ok (ha : audioEncCreate d c = .ok a) :
    ∃ o k h, findObj d (dHandle c.desc) = some o ∧ findConf d (dHandle c.desc) = some k ∧ newHandle d 7 = some h ∧
      a = .done (withStream d c o k h) (leBytes h 4) := by
  obtain ⟨o, ho, ha⟩ := bind_ok ha
  obtain ⟨_, -, ha⟩ := bind_ok ha
  obtain ⟨k, hk, ha⟩ := bind_ok ha
  obtain ⟨_, -, ha⟩ := bind_ok ha
  obtain ⟨hobj, -, -⟩ := objOf_ok ho
  rw [findObj_handle hobj] at hk
  split at hk
  · next hconf =>
    cases hk
    dsimp only at ha
    split at ha
    · cases ha
    split at ha
    · cases ha
    split at ha
    · cases ha
    · cases ha
    · next hnew => exact ⟨o, k, _, hobj, hconf, hnew, (Except.ok.inj ha).symm⟩
  · cases hk

/-! ### PART_SET, ENC_SET, CRAFT_SET -/

/-- A participant with the change of PART_SET kept for the boundary. -/
def keepPartSet (c : Cmd) (p : Part) : Part :=
  { p with
    sets := p.sets ++ [{ mask := dBits c.desc 8 0 5, mute := dBits c.desc 9 0 1 == 1, deaf := dBits c.desc 9 1 1 == 1,
                         pin := dBits c.desc 9 2 1 == 1, bar := dBits c.desc 9 3 1 == 1, gain := dNum c.desc 12 2 }]
    nextGroup := if dBits c.desc 8 5 1 == 1 then some (dNum c.desc 16 4) else p.nextGroup }

theorem partSetAct_ok (ha : partSetAct d c = .ok a) : a = .done (modPart d (dHandle c.desc) (keepPartSet c)) [] := by
  obtain ⟨o, ho, ha⟩ := bind_ok ha
  obtain ⟨p, hp, ha⟩ := bind_ok ha
  obtain ⟨_, -, ha⟩ := bind_ok ha
  obtain ⟨_, -, ha⟩ := bind_ok ha
  obtain ⟨_, -, ha⟩ := bind_ok ha
  split at hp
  · next hpart =>
    cases hp
    rw [findPart_handle hpart, findObj_handle (objOf_ok ho).1] at ha
    exact (Except.ok.inj ha).symm
  · cases hp

/-- A stream with the settings of ENC_SET kept for the boundary. -/
def keepStreamSet (c : Cmd) (x : AStream) : AStream :=
  { x with nextGain := if dBits c.desc 8 0 1 == 1 then some (dNum c.desc 16 2) else x.nextGain
           nextRate := if dBits c.desc 8 1 1 == 1 then some (dNum c.desc 12 4) else x.nextRate }

theorem audioEncSet_ok {x : AStream} (ha : audioEncSet d c x = .ok a) : a = .done (modStream d x.handle (keepStreamSet c)) [] := by
  obtain ⟨_, -, ha⟩ := bind_ok ha
  exact (Except.ok.inj ha).symm

/-- ENC_SET acts on the video stream of its handle, else on the audio stream. -/
theorem encSetAct_cases (ha : encSetAct d c = .ok a) :
    (∃ e, findEnc d (dHandle c.desc) = some e ∧ videoEncSet d c e = .ok a) ∨
    (findEnc d (dHandle c.desc) = none ∧ ∃ x, findStream d (dHandle c.desc) = some x ∧ audioEncSet d c x = .ok a) := by
  obtain ⟨o, ho, ha⟩ := bind_ok ha
  rw [findObj_handle (objOf_ok ho).1] at ha
  split at ha
  · next he => exact .inl ⟨_, he, ha⟩
  · next he hx => exact .inr ⟨he, _, hx, ha⟩
  · cases ha

/-- The configuration that CRAFT_SET keeps for the boundary: none detaches. -/
def craftCfg (c : Cmd) : Option CraftCfg :=
  if dHandle c.desc = 0 then none
  else some { conf := dHandle c.desc, listen := dBits c.desc 8 0 1 == 1, talk := dBits c.desc 8 1 1 == 1,
              talkGain := dNum c.desc 12 2, listenGain := dNum c.desc 14 2, tag := dNum c.desc 16 4 }

theorem craftSetAct_ok (ha : craftSetAct d c = .ok a) :
    a = .done (setCraft d { d.aud.craft with next := some (craftCfg c) }) [] := by
  obtain ⟨_, -, ha⟩ := bind_ok ha
  obtain ⟨_, -, ha⟩ := bind_ok ha
  exact (Except.ok.inj ha).symm

/-- Settles O40: new handles by `newHandle_fresh`, each command by what its checks leave (the lemmas `…_ok`). -/
theorem audioObjectsAreCreatedAndSet : Obligations.AudioObjectsAreCreatedAndSet := by
  unfold Obligations.AudioObjectsAreCreatedAndSet
  refine ⟨fun d k h _ hn => newHandle_fresh hn, ?_, ?_, ?_, ?_, ?_, ?_⟩
  · intro s fn ring c r hp
    obtain ⟨_, ha⟩ := checksPass_ok hp
    obtain ⟨q, h, hadmit, hnew, rfl⟩ := confCreateAct_ok ha
    exact ⟨q, h, newConf c q h, hadmit, hnew, exec_done rfl r ha, rfl⟩
  · intro s fn ring c r hp
    obtain ⟨_, ha⟩ := checksPass_ok hp
    obtain ⟨o, k, h, hobj, hconf, hnew, rfl⟩ := partCreateAct_ok ha
    exact ⟨o, k, h, newPart c k.handle h, hobj, hconf, hnew, exec_done rfl r ha,
      rfl, rfl, rfl, rfl, rfl, rfl, rfl, rfl, rfl, rfl, rfl, rfl, rfl, rfl, rfl⟩
  · intro s fn ring c r hkind hp
    obtain ⟨_, ha⟩ := checksPass_ok hp
    rw [encCreateAct, if_neg hkind] at ha
    obtain ⟨o, k, h, hobj, hconf, hnew, rfl⟩ := audioEncCreate_ok ha
    exact ⟨o, k, h, newStream c k.handle h, hobj, hconf, hnew, exec_done rfl r (by rw [encCreateAct, if_neg hkind]; exact ha), rfl⟩
  · intro s fn ring c r hp
    obtain ⟨_, ha⟩ := checksPass_ok hp
    exact exec_done rfl r (partSetAct_ok ha ▸ ha)
  · intro s fn ring c r hnone hp
    obtain ⟨_, ha⟩ := checksPass_ok hp
    rcases encSetAct_cases ha with ⟨e, he, -⟩ | ⟨-, x, hx, hset⟩
    · rw [hnone] at he
      cases he
    · obtain rfl := audioEncSet_ok hset
      rw [findStream_handle hx] at ha
      exact exec_done rfl r ha
  · intro s fn ring c r hp
    obtain ⟨_, ha⟩ := checksPass_ok hp
    exact exec_done rfl r (craftSetAct_ok ha ▸ ha)

end Sys2Proof.Machine
end

section
/-! Video objects: contexts, layouts and their layer sets, encode streams (R207, R208, R223 to R246, R266). -/
namespace Sys2Proof.Machine
variable {d : Dev} {c : Cmd} {a : Act}

/-- A command that passes a check goes on behind it. -/
theorem pass_check {p : Prop} [Decidable p] {f : Fail} {x : Except Fail Act} (h : (if p then .error f else x) = .ok a) : x = .ok a := by
  split at h
  · cases h
  · exact h

/-! ### CTX_CREATE -/

def newCtx (c : Cmd) (h : Nat) : Ctx :=
  let x := c.desc
  let codec := dBits x 8 0 4
  let prof := dBits x 8 4 4
  let dpb := if codec ≤ 1 then dByte x 10 else if codec = 3 then 3 else 8
  { handle := h, fn := c.fn, codec := codec, prof := prof, deferred := dBits x 9 0 1 == 1, pyr := dBits x 9 1 2,
    waitRap := dBits x 9 3 1 == 1, refReq := dBits x 9 4 2, slack := dBits x 11 0 2, reasm := dBits x 11 2 2, segMax := dBits x 11 4 4,
    maxW := dNum x 12 2, maxH := dNum x 14 2, backlog := if dByte x 28 = 0 then 8 else dByte x 28, tenBit := tenProf codec prof,
    layer := dByte x 29, pt := dByte x 30, inLeg := dNum x 32 4, fbLeg := dNum x 36 4, dpb := dpb, surfaces := dpb + 3,
    bufBytes := bitBuffer (dNum x 24 4), waiting := dBits x 9 3 1 == 1 }
def ctxNeeds (c : Cmd) : List Need :=
  [⟨1, pixDemand (dNum c.desc 12 2) (dNum c.desc 14 2) (dNum c.desc 16 2) (dNum c.desc 18 2)⟩, ⟨4, dNum c.desc 20 4⟩, ⟨7, 1⟩]
/-- Extents for a context's surfaces and its two bitstream buffers (R207, R208). -/
def ctxExtents (k : Ctx) : Nat := extentsFor (k.surfaces * k.surfGeo.size + 2 * k.bufBytes)
/-- The device with a context booked, given an arena and added. -/
def withCtx (d : Dev) (c : Cmd) (o : Obj) (h : Nat) : Dev :=
  let b := addObj (takeArena (book d 0 (ctxNeeds c)) h (ctxExtents (newCtx c h)))
    { handle := h, fn := c.fn, session := o.session, parent := dHandle c.desc, books := booksOf 0 (ctxNeeds c) }
  { b with vid := { b.vid with ctxs := b.vid.ctxs ++ [newCtx c h] } }

theorem ctxCreateAct_ok (ha : ctxCreateAct d c = .ok a) :
    ∃ o h, findObj d (dHandle c.desc) = some o ∧ newHandle d 5 = some h ∧
      a = .done (withCtx d c o h) (leBytes h 4 ++ leBytes (ctxExtents (newCtx c h) * 2048) 4) := by
  obtain ⟨o, ho, ha⟩ := bind_ok ha
  obtain ⟨_, -, ha⟩ := bind_ok ha
  obtain ⟨_, -, ha⟩ := bind_ok ha
  obtain ⟨_, -, ha⟩ := bind_ok ha
  obtain ⟨_, -, ha⟩ := bind_ok ha
  obtain ⟨hobj, -, -⟩ := objOf_ok ho
  dsimp only at ha
  split at ha
  · cases ha
  · cases ha
  · next hnew =>
    replace ha := pass_check ha
    rw [findObj_handle hobj] at ha
    refine ⟨o, _, hobj, hnew, (Except.ok.inj ha).symm.trans ?_⟩
    refine congr (congrArg Act.done ?_) rfl
    unfold withCtx
    dsimp only [ctxExtents, ctxNeeds, newCtx, Ctx.surfGeo]

/-- The buffer is the least multiple of 65,536 bytes, 524,288 at least, that holds 1/16 s of the bitrate (R208). -/
theorem bitBuffer_least (b : Nat) : bitBuffer b % 65536 = 0 ∧ 524288 ≤ bitBuffer b ∧ b ≤ 16 * bitBuffer b ∧
    ∀ n, n % 65536 = 0 → 524288 ≤ n → b ≤ 16 * n → bitBuffer b ≤ n := by
  unfold bitBuffer ceilDiv
  refine ⟨?_, ?_, ?_, fun n h1 h2 h3 => ?_⟩ <;> omega

/-! ### CTX_REFRESH -/

/-- CTX_REFRESH of context `x`: the flush that it asks for, then the request for a refresh (R223). -/
def refreshed (d : Dev) (c : Cmd) (x : Ctx) : Dev × Nat :=
  askRefresh (if dBits c.desc 8 2 1 = 0 then d else flushCtx d x.handle) x.handle
    (if dBits c.desc 8 0 2 = 0 then x.refReq else dBits c.desc 8 0 2) 1

theorem ctxRefreshAct_ok (ha : ctxRefreshAct d c = .ok a) :
    ∃ x, findCtx d (dHandle c.desc) = some x ∧ a = .done (refreshed d c x).1 [BitVec.ofNat 8 (refreshed d c x).2] := by
  obtain ⟨o, ho, ha⟩ := bind_ok ha
  obtain ⟨x, hx, ha⟩ := bind_ok ha
  obtain ⟨_, -, ha⟩ := bind_ok ha
  rw [findObj_handle (objOf_ok ho).1] at hx
  split at hx
  · next hctx =>
    cases hx
    exact ⟨x, hctx, (Except.ok.inj ha).symm⟩
  · cases hx

/-! ### LAYOUT_CREATE -/

def newLayout (c : Cmd) (q comp phase h : Nat) : Layout :=
  let x := c.desc
  { handle := h, fn := c.fn, home := q, comp := comp, period := periodOf (dBits x 8 0 3), phase := phase, tenBit := dBits x 8 3 1 == 1,
    outCs := dBits x 8 4 2, hbmCopy := dBits x 8 6 1 == 1, slates := dByte x 11, outW := dNum x 12 2, outH := dNum x 14 2,
    encPix := dNum x 24 4, active := { bg := dNum x 20 4 }, shadow := { bg := dNum x 20 4 } }
def layoutNeeds (c : Cmd) (l : Layout) : List Need :=
  (if l.encPix = 0 then [] else [⟨2, l.encPix⟩]) ++
    [⟨3, ceilDiv (l.outW * l.outH) l.period⟩, ⟨4, dNum c.desc 16 4⟩, ⟨5, 4⟩, ⟨9, 1⟩]
/-- Extents for a layout's copies and slates. -/
def layoutExtents (l : Layout) : Nat := extentsFor (((if l.hbmCopy then 3 else 0) + l.slates) * (outGeo l).size)
/-- The device with a layout booked, given an arena where it needs one, and added. -/
def withLayout (d : Dev) (c : Cmd) (o : Obj) (l : Layout) : Dev :=
  let b := book d l.home (layoutNeeds c l)
  let b := if layoutExtents l = 0 then b else takeArena b l.handle (layoutExtents l)
  let b := addObj b { handle := l.handle, fn := c.fn, session := o.session, parent := o.handle, home := l.home,
                      books := booksOf l.home (layoutNeeds c l) }
  { b with vid := { b.vid with layouts := b.vid.layouts ++ [l] } }

/-- A pinned phase is the layout's phase. -/
theorem placeLayout_pinned {q period px pin comp phase : Nat} (h : placeLayout d q period px (some pin) = some (comp, phase)) :
    phase = pin := by
  obtain ⟨_, -, heq⟩ := Option.map_eq_some_iff.1 h
  exact (Prod.ext_iff.1 heq).2.symm

theorem layoutCreateAct_ok (ha : layoutCreateAct d c = .ok a) :
    ∃ o q comp phase h, findObj d (dHandle c.desc) = some o ∧ newHandle d 6 = some h ∧
      (dBits c.desc 8 7 1 = 1 → phase = dByte c.desc 10) ∧
      a = .done (withLayout d c o (newLayout c q comp phase h))
        (resBytes [(4, h), (1, comp), (1, q), (2, phase), (4, layoutExtents (newLayout c q comp phase h) * 2048)]) := by
  obtain ⟨o, ho, ha⟩ := bind_ok ha
  obtain ⟨_, -, ha⟩ := bind_ok ha
  obtain ⟨_, -, ha⟩ := bind_ok ha
  obtain ⟨hobj, -, -⟩ := objOf_ok ho
  dsimp only at ha
  split at ha
  · cases ha
  · cases ha
  · next hnew =>
    split at ha
    · cases ha
    · next hplace =>
      refine ⟨o, _, _, _, _, hobj, hnew, fun hpin => ?_, (Except.ok.inj (pass_check ha)).symm⟩
      rw [if_pos (by simp [hpin])] at hplace
      exact placeLayout_pinned hplace

/-! ### LAYOUT_SHADOW -/

theorem layoutOf_ok {owner : Nat} {l : Layout} (hl : layoutOf d c owner = .ok l) : findLayout d (dHandle c.desc) = some l := by
  obtain ⟨o, ho, hl⟩ := bind_ok hl
  obtain ⟨_, -, hl⟩ := bind_ok hl
  rw [findObj_handle (objOf_ok ho).1] at hl
  split at hl
  · next hfind =>
    cases hl
    exact hfind
  · cases hl

/-- The shadow set of layout `l` with the background colour, or the layers, that LAYOUT_SHADOW brings. -/
def shadowBg (c : Cmd) (l : Layout) : Layout := { l with shadow := { l.shadow with bg := dNum c.desc 12 4 } }
def shadowLayers (c : Cmd) (bs : List Byte) (l : Layout) : Layout :=
  let n := dBits c.desc 11 0 7
  { l with shadow := { l.shadow with
    layers := splice l.shadow.layers (dByte c.desc 9) ((chunks64 n (padTo bs (64 * n))).map parseLayer) } }
/-- The device with the slate stored that LAYOUT_SHADOW brings for layout `l`. -/
def withSlate (d : Dev) (c : Cmd) (bs : List Byte) (l : Layout) : Dev :=
  let i := dByte c.desc 9
  let w := dNum c.desc 24 2
  let h := dNum c.desc 26 2
  modLayout (storeImage d ⟨l.handle, slateOff l i, ⟨w, h, 3, false⟩⟩ (padTo bs (w * h * 3 / 2))) l.handle fun l =>
    { l with slateAt := (i, w, h) :: l.slateAt.filter fun x => x.1 != i }

theorem layoutShadowAct_bg {data : HostRead} (ha : layoutShadowAct data d c = .ok a) (hop : dBits c.desc 8 0 2 = 1) :
    a = .done (modLayout d (dHandle c.desc) (shadowBg c)) [] := by
  obtain ⟨l, hl, ha⟩ := bind_ok ha
  obtain ⟨_, -, ha⟩ := bind_ok ha
  rw [if_pos hop, findLayout_handle (layoutOf_ok hl)] at ha
  exact (Except.ok.inj ha).symm

theorem layoutShadowAct_layers {bs : List Byte} (ha : layoutShadowAct (.ok bs) d c = .ok a) (hop : dBits c.desc 8 0 2 = 0) :
    a = .done (modLayout d (dHandle c.desc) (shadowLayers c bs)) [] := by
  obtain ⟨l, hl, ha⟩ := bind_ok ha
  obtain ⟨_, -, ha⟩ := bind_ok ha
  rw [if_neg (by rw [hop]; decide)] at ha
  dsimp only at ha
  rw [if_pos hop] at ha
  obtain ⟨_, -, ha⟩ := bind_ok ha
  rw [findLayout_handle (layoutOf_ok hl)] at ha
  exact (Except.ok.inj ha).symm

theorem layoutShadowAct_slate {bs : List Byte} {l : Layout} (ha : layoutShadowAct (.ok bs) d c = .ok a) (hop : dBits c.desc 8 0 2 = 2)
    (hfind : findLayout d (dHandle c.desc) = some l) : a = .done (withSlate d c bs l) [] := by
  obtain ⟨x, hx, ha⟩ := bind_ok ha
  obtain ⟨_, -, ha⟩ := bind_ok ha
  cases hfind.symm.trans (layoutOf_ok hx)
  rw [if_neg (by rw [hop]; decide)] at ha
  dsimp only at ha
  rw [if_neg (by rw [hop]; decide)] at ha
  exact (Except.ok.inj ha).symm

/-! ### LAYOUT_COMMIT -/

/-- LAYOUT_COMMIT takes layer `i` from the shadow set: layer 63 by the bit of its own (R239). -/
def takesLayer (c : Cmd) (i : Nat) : Bool := if i = 63 then dBits c.desc 8 1 1 == 1 else dBits c.desc 8 0 1 == 1
/-- The set that LAYOUT_COMMIT keeps: of the shadow set what it takes, of the set in force or pending the rest. -/
def committedSet (c : Cmd) (l : Layout) : LayerSet :=
  let base := l.pending.getD l.active
  { layers := (List.range 64).map fun i =>
      if ((List.range 64).filter (takesLayer c)).contains i then withMatrix l.outCs (nth l.shadow.layers i {}) else nth base.layers i {}
    bg := if dBits c.desc 8 0 1 == 1 then l.shadow.bg else base.bg }

theorem committedSet_layer (c : Cmd) (l : Layout) {i : Nat} (hi : i < 64) :
    nth (committedSet c l).layers i {} =
      if takesLayer c i then withMatrix l.outCs (nth l.shadow.layers i {}) else nth (l.pending.getD l.active).layers i {} := by
  have htakes : ((List.range 64).filter (takesLayer c)).contains i = takesLayer c i := by
    cases ht : takesLayer c i <;> simp [hi, ht]
  have hnth : ∀ f : Nat → Layer, nth ((List.range 64).map f) i {} = f i := by simp [nth, hi]
  simp only [committedSet, hnth, htakes]

theorem layoutCommitAct_ok {l : Layout} (ha : layoutCommitAct d c = .ok a) (hfind : findLayout d (dHandle c.desc) = some l) :
    a = .done (modLayout d l.handle fun l' => { l' with pending := some (committedSet c l) })
      (leBytes (nextPhase d.tim.stride l.period l.phase) 4) := by
  obtain ⟨x, hx, ha⟩ := bind_ok ha
  obtain ⟨_, -, ha⟩ := bind_ok ha
  cases hfind.symm.trans (layoutOf_ok hx)
  dsimp only at ha
  split at ha
  · cases ha
  · exact (Except.ok.inj ha).symm

/-- The first stride after the present one with the layout's phase. -/
theorem nextPhase_next {now period phase : Nat} (h : phase < period) :
    now < nextPhase now period phase ∧ nextPhase now period phase ≤ now + period ∧ nextPhase now period phase % period = phase := by
  have hmax : max 1 period = period := by omega
  have hrest := Nat.mod_lt (phase + period - (now + 1) % period) (show 0 < period by omega)
  unfold nextPhase
  rw [hmax]
  refine ⟨by omega, by omega, ?_⟩
  have hlt := Nat.mod_lt (now + 1) (show 0 < period by omega)
  have hsum : (now + 1) % period + (phase + period - (now + 1) % period) = phase + period := by omega
  rw [Nat.add_mod_mod, ← Nat.mod_add_mod, hsum, Nat.add_mod_right, Nat.mod_eq_of_lt h]

/-! ### ENC_CREATE on a layout -/

/-- Period and phase of a stream: of its own for a surface input, else its layout's (R246). -/
def encPeriod (c : Cmd) (l : Layout) : Nat := if dBits c.desc 8 4 1 == 1 then periodOf (dBits c.desc 27 0 3) else l.period
def encPhaseOf (c : Cmd) (l : Layout) : Nat :=
  if dBits c.desc 8 4 1 == 1 then (l.phase + 3) % max 1 (encPeriod c l) else l.phase
def newEnc (d : Dev) (c : Cmd) (l : Layout) (q h : Nat) : EncS :=
  let x := c.desc
  { handle := h, fn := c.fn, layout := l.handle, codec := dBits x 8 0 2, prof := dBits x 8 2 2, surface := dBits x 8 4 1 == 1,
    sLayers := dBits x 9 0 2, tLayers := dBits x 9 2 2, period := encPeriod c l, phase := encPhaseOf c l, home := q,
    pipe := choosePipe d q (encPeriod c l) (encPhaseOf c l), outW := l.outW, outH := l.outH, tenBit := l.tenBit,
    mtu := orDefault (dNum x 28 2) 1200, pt := dBits x 30 0 7, ddId := dBits x 31 0 4, waves := List.replicate (dBits x 9 0 2) {},
    cfg := { rates := dRates x, waveN := orDefault (dBits x 10 0 7) 8, qpMin := dByte x 24,
             qpMax := orDefault (dByte x 25) (codecQpMax (dBits x 8 0 2)), cap := orDefault (dBits x 26 0 7) 24 } }
/-- A stream's demand on ENCODE_PIX, what it books itself, and what it adds to its layout's booking (R246). -/
def encDemand (c : Cmd) (l : Layout) : Nat := ceilDiv (framePixels l.outW l.outH (dBits c.desc 9 0 2)) (encPeriod c l)
def encNeeds (c : Cmd) (l : Layout) : List Need :=
  (if dBits c.desc 8 4 1 == 1 then [⟨2, encDemand c l⟩] else []) ++ [⟨4, dNum c.desc 32 4⟩, ⟨12, 1⟩]
def layoutRaise (c : Cmd) (l : Layout) : List Need :=
  if !(dBits c.desc 8 4 1 == 1) && l.encPix < encDemand c l then [⟨2, encDemand c l - l.encPix⟩] else []
/-- The layout `l` and its object `o` with a raised booking of ENCODE_PIX. -/
def raiseLayout (d : Dev) (o : Obj) (l : Layout) (q pix : Nat) : List Need → Dev
  | [] => d
  | r :: _ => putObj (modLayout d l.handle fun l => { l with encPix := pix }) { o with books := o.books ++ [⟨2, q, r.amt⟩] }
/-- Extents for stream `e`. -/
def encExtents (e : EncS) : Nat := extentsFor (encArena e.codec e.outW e.outH e.sLayers e.tenBit)
/-- The device with a stream of layout `l` booked, given an arena and added. -/
def withEnc (d : Dev) (c : Cmd) (o : Obj) (l : Layout) (q h : Nat) : Dev :=
  let e := newEnc d c l q h
  let b := takeArena (book d q (encNeeds c l ++ layoutRaise c l)) h (encExtents e)
  let b := addObj (raiseLayout b o l q (encDemand c l) (layoutRaise c l))
    { handle := h, fn := c.fn, session := o.session, parent := if e.surface then o.session else l.handle, home := q, media := 1,
      books := booksOf q (encNeeds c l) }
  { b with vid := { b.vid with encs := b.vid.encs ++ [e] } }

/-- Admission places a pinned command where it is pinned. -/
theorem admission_pinned {p by_ q : Nat} {ns : List Need} (h : admission d (some p) by_ ns = .ok q) : q = p := by
  unfold admission at h
  split at h
  · cases h
  · exact (Except.ok.inj h).symm

/-- Bookings and arenas leave the video records alone. -/
theorem takeArena_book_vid (d : Dev) (q h n : Nat) (ns : List Need) : (takeArena (book d q ns) h n).vid = d.vid := by
  have hframe : Only (· ∉ [Piece.vid]) d (takeArena (book d q ns) h n) := by
    refine takeArena_only ?_ ?_ ?_ ?_ (book_only ?_ ?_ ?_ (Only.refl d)) <;> decide
  exact hframe.vid (by decide)

theorem raiseLayout_encs (d : Dev) (o : Obj) (l : Layout) (q pix : Nat) (ns : List Need) :
    (raiseLayout d o l q pix ns).vid.encs = d.vid.encs := by
  cases ns <;> rfl

theorem withEnc_encs (d : Dev) (c : Cmd) (o : Obj) (l : Layout) (q h : Nat) :
    (withEnc d c o l q h).vid.encs = d.vid.encs ++ [newEnc d c l q h] := by
  refine congrArg (· ++ [newEnc d c l q h]) ((raiseLayout_encs _ _ _ _ _ _).trans ?_)
  rw [takeArena_book_vid]

theorem videoEncCreate_ok (ha : videoEncCreate d c = .ok a) :
    ∃ o l q h, findLayout d (dHandle c.desc) = some l ∧ newHandle d 7 = some h ∧ (dBits c.desc 8 4 1 ≠ 1 → q = l.home) ∧
      a = .done (withEnc d c o l q h)
        (let e := newEnc d c l q h
         resBytes [(4, h), (1, e.pipe), (1, e.home), (2, e.phase), (4, encExtents e * 2048)]) := by
  obtain ⟨o, ho, ha⟩ := bind_ok ha
  obtain ⟨_, -, ha⟩ := bind_ok ha
  obtain ⟨l, hl, ha⟩ := bind_ok ha
  obtain ⟨_, -, ha⟩ := bind_ok ha
  rw [findObj_handle (objOf_ok ho).1] at hl
  split at hl
  · next hfind =>
    cases hl
    dsimp only at ha
    split at ha
    · cases ha
    · cases ha
    · next q h hadmit hnew =>
      refine ⟨o, l, q, h, hfind, hnew, fun hband => ?_, (Except.ok.inj (pass_check ha)).symm⟩
      rw [if_pos (by simpa using hband)] at hadmit
      exact admission_pinned hadmit
  · cases hl

/-! ### ENC_SET of a video stream -/

/-- The settings of a stream after ENC_SET: what its mask names, of those in force or pending the rest (R266). -/
def setCfg (c : Cmd) (e : EncS) : EncCfg :=
  let x := c.desc
  let k := e.next.getD e.cfg
  { rates := if dBits x 8 0 1 == 1 then dRates x else k.rates
    waveN := if dBits x 8 2 1 == 1 then orDefault (dBits x 10 0 7) 8 else k.waveN
    qpMin := if dBits x 8 3 1 == 1 then dByte x 24 else k.qpMin
    qpMax := if dBits x 8 3 1 == 1 then orDefault (dByte x 25) (codecQpMax e.codec) else k.qpMax
    cap := if dBits x 8 4 1 == 1 then orDefault (dBits x 26 0 7) 24 else k.cap }
/-- A stream with settings kept for its next picture, and a refresh wave asked for where the mask says so. -/
def keepEncSet (c : Cmd) (k : EncCfg) (e : EncS) : EncS :=
  { e with next := some k
           waveReq := if dBits c.desc 8 1 1 == 1 && dBits c.desc 9 0 1 == 1 then some (e.waveReq.getD 1) else e.waveReq }

theorem videoEncSet_ok {e : EncS} (ha : videoEncSet d c e = .ok a) :
    a = .done (modEnc d e.handle (keepEncSet c (setCfg c e))) [] := by
  obtain ⟨_, -, ha⟩ := bind_ok ha
  exact (Except.ok.inj ha).symm

/-- Settles O42: each command by what its checks leave (the lemmas `…_ok` and `layoutShadowAct_…`), the buffer by
`bitBuffer_least`, the phase by `nextPhase_next`. -/
theorem videoObjectsComplete : Obligations.VideoObjectsComplete := by
  unfold Obligations.VideoObjectsComplete
  refine ⟨?_, bitBuffer_least, ?_, ?_, ?_, ?_, ?_, ?_, fun now period phase h => nextPhase_next h, ?_, ?_⟩
  · intro s fn ring c r hp
    obtain ⟨_, ha⟩ := checksPass_ok hp
    obtain ⟨o, h, hobj, hnew, rfl⟩ := ctxCreateAct_ok ha
    refine ⟨o, h, newCtx c h, hobj, hnew, (exec_done rfl r ha).trans ?_,
      rfl, rfl, rfl, rfl, rfl, rfl, rfl, rfl, rfl, rfl, rfl, rfl, rfl, rfl⟩
    unfold withCtx
    dsimp only [ctxExtents, ctxNeeds, newCtx]
  · intro s fn ring c x r hp hfind
    obtain ⟨_, ha⟩ := checksPass_ok hp
    obtain ⟨y, hy, rfl⟩ := ctxRefreshAct_ok ha
    cases hfind.symm.trans hy
    exact exec_done rfl r ha
  · intro s fn ring c r hp
    obtain ⟨_, ha⟩ := checksPass_ok hp
    obtain ⟨o, q, comp, phase, h, hobj, hnew, hpin, rfl⟩ := layoutCreateAct_ok ha
    exact ⟨o, h, newLayout c q comp phase h, hobj, hnew, exec_done rfl r ha,
      rfl, rfl, rfl, rfl, rfl, rfl, rfl, rfl, rfl, rfl, rfl, rfl, hpin⟩
  · intro s fn ring data c r hop hp
    obtain ⟨_, ha⟩ := checksPass_ok hp
    exact exec_done rfl r (layoutShadowAct_bg ha hop ▸ ha)
  · intro s fn ring bs c r hop hp
    obtain ⟨_, ha⟩ := checksPass_ok hp
    exact exec_done rfl r (layoutShadowAct_layers ha hop ▸ ha)
  · intro s fn ring bs c l r hop hp hfind
    obtain ⟨_, ha⟩ := checksPass_ok hp
    exact exec_done rfl r (layoutShadowAct_slate ha hop hfind ▸ ha)
  · intro s fn ring c l r hp hfind
    obtain ⟨_, ha⟩ := checksPass_ok hp
    exact ⟨committedSet c l, exec_done rfl r (layoutCommitAct_ok ha hfind ▸ ha), rfl, fun i hi => committedSet_layer c l hi⟩
  · intro s fn ring c l r hkind hp hfind
    obtain ⟨_, ha⟩ := checksPass_ok hp
    have hact : encCreateAct s.dev c = videoEncCreate s.dev c := if_pos hkind
    obtain ⟨o, l', q, h, hl, hnew, hhome, rfl⟩ := videoEncCreate_ok (hact ▸ ha)
    cases hfind.symm.trans hl
    refine ⟨h, newEnc s.dev c l q h, withEnc s.dev c o l q h, hnew, exec_done rfl r ha, withEnc_encs _ _ _ _ _ _,
      rfl, rfl, rfl, rfl, rfl, rfl, rfl, rfl, rfl, rfl, rfl, rfl, rfl, rfl, fun hband => ?_⟩
    have hbit : (dBits c.desc 8 4 1 == 1) = false := hband
    refine ⟨hhome (by simpa using hbit), ?_, ?_⟩
    · exact if_neg (by simp [hbit])
    · exact if_neg (by simp [hbit])
  · intro s fn ring c e r hfind hp
    obtain ⟨_, ha⟩ := checksPass_ok hp
    rcases encSetAct_cases ha with ⟨e', he, hset⟩ | ⟨hnone, -⟩
    · cases hfind.symm.trans he
      exact ⟨setCfg c e, exec_done rfl r (videoEncSet_ok hset ▸ ha), rfl, rfl⟩
    · cases hfind.symm.trans hnone

end Sys2Proof.Machine
end

section
/-! The Dealer's steps (R31, R32, R92 to R102): dealing, engine queues, pre-emption, retirement, drops and reports. -/
namespace Sys2Proof.Machine
variable {d : Dev} {c p : Card} {q t k n : Nat}

/-! ### The next deal of a pool (R92, R97) -/

theorem firstCard_nil (d : Dev) : firstCard d [] = none := rfl

theorem readyDeal_none {cls : Nat} (h : readyIn d q t cls = []) : readyDeal d q t cls = none := by
  simp only [readyDeal, h, firstCard_nil]

/-- A trump or standard card is dealt to the core that R95 chooses. -/
theorem readyDeal_chosen {cls : Nat} (hcls : cls ≠ 2) (hf : firstCard d (readyIn d q t cls) = some c) (hk : chooseCore d c = some k) :
    readyDeal d q t cls = some (c, k, false) := by
  simp only [readyDeal, hf, hk]
  split
  · exact absurd rfl hcls
  · rfl

theorem backgroundDeal_resumes {ps : List Card} (hr : resumable d q t = p :: ps) (hk : p.core = some k) :
    backgroundDeal d q t = some (p, k, true) := by
  simp only [backgroundDeal, hr, hk, Option.map_some]

theorem backgroundDeal_none (hr : resumable d q t = []) (hb : readyIn d q t 2 = []) : backgroundDeal d q t = none := by
  simp only [backgroundDeal, hr]
  exact readyDeal_none hb

theorem nextDeal_trump {x : Deal} (h : readyDeal d q t 0 = some x) : nextDeal d q t = some x := by
  rw [nextDeal, h]
  rfl

/-- With no trump card and no background card, or no standard one, the order of standard and background does not matter. -/
theorem nextDeal_standard {x : Deal} (h0 : readyDeal d q t 0 = none) (h1 : readyDeal d q t 1 = some x) (hb : backgroundDeal d q t = none) :
    nextDeal d q t = some x := by
  rw [nextDeal, h0, h1, hb]
  split <;> rfl

theorem nextDeal_background {x : Deal} (h0 : readyDeal d q t 0 = none) (h1 : readyDeal d q t 1 = none) (hb : backgroundDeal d q t = some x) :
    nextDeal d q t = some x := by
  rw [nextDeal, h0, h1, hb]
  split <;> rfl

/-- The cores of a pool whose card changed look at their breakpoints (R134). -/
def dealBreaks (d e : Dev) (q t : Nat) : Dev :=
  (poolCores e q t).foldl (fun e j => if (findCore d j).card == (findCore e j).card then e else breakCheck e j) e

theorem exec_cardDeal {s : State} {resume : Bool} (hh : halted s.dev = false) (h : nextDeal s.dev q t = some (c, k, resume)) :
    exec (.cardDeal q t) s = nextWith s (dealBreaks s.dev (dealTo s.dev c k resume) q t) := by
  have hdeal : dealPool s.dev q t = dealTo s.dev c k resume := by simp only [dealPool, h]
  refine congrArg (nextWith s) ?_
  dsimp only
  rw [if_neg (by simp [hh]), hdeal]
  rfl

/-! ### The core of a card (R95) -/

/-- A core that may take the card: of its pool, idle, and for a card of another class than trump not wanted by a trump card. -/
def Takes (d : Dev) (c : Card) (k : Nat) : Prop := k ∈ poolCores d c.quarter c.team ∧ coreFor d c.cls k = true

theorem nextIdle_takes {last : Option Nat} (h : nextIdle d c.cls c.quarter c.team last = some k) : Takes d c k := by
  have hmem : k ∈ (poolCores d c.quarter c.team).filter (coreFor d c.cls) := by
    unfold nextIdle at h
    dsimp only at h
    split at h
    · exact List.mem_of_head? h
    · split at h
      · next hfind =>
        cases h
        exact List.mem_of_find?_eq_some hfind
      · exact List.mem_of_head? h
  exact List.mem_filter.1 hmem

theorem chooseCore_takes (h : chooseCore d c = some k) : Takes d c k := by
  unfold chooseCore at h
  dsimp only at h
  split at h
  · split at h
    · split at h
      · next hlast =>
        cases h
        simpa [Takes] using hlast
      · exact nextIdle_takes h
    · exact nextIdle_takes h
  · exact nextIdle_takes h

theorem Takes.idle (h : Takes d c k) : coreIdle d k = true := by
  have hfor := h.2
  rw [coreFor, Bool.and_eq_true] at hfor
  exact hfor.1

/-- A trump card is never deferred for a card of another class (R92). -/
theorem Takes.unwanted (h : Takes d c k) (hcls : c.cls ≠ 0) {x : Card} (hx : x ∈ d.dlr.cards) (hready : x.state = .ready)
    (hexec : x.exec = 1) (htrump : x.cls = 0) (hflow : flowAllows d x = true) : k ∉ poolCores d x.quarter x.team := by
  intro hmem
  have hwants : trumpWants d k = true := by
    rw [trumpWants, h.idle, Bool.true_and, List.any_eq_true]
    exact ⟨x, hx, by simp [hready, hexec, htrump, hflow, hmem]⟩
  have hfor := h.2
  simp [coreFor, hwants, hcls] at hfor

theorem resumable_core (h : p ∈ resumable d q t) (hk : p.core = some k) :
    p.preempted = true ∧ (findCore d k).card = none ∧ (findCore d k).halted = false ∧ halted d = false := by
  have hp := (List.mem_filter.1 h).2
  simp only [hk, Bool.and_eq_true, Bool.not_eq_true', Option.isNone_iff_eq_none] at hp
  obtain ⟨⟨⟨hpre, -⟩, -⟩, ⟨⟨⟨⟨hcard, hhalt⟩, -⟩, -⟩, hdev⟩, -⟩ := hp
  exact ⟨hpre, hcard, hhalt, hdev⟩

/-! ### What a deal does to the cores (R94, R125) -/

theorem findCore_putCore_same (d : Dev) (x : Core) : findCore (putCore d x) x.id = x := by
  simp [findCore, putCore]

theorem findCore_putCore_other (d : Dev) (x : Core) {j : Nat} (h : j ≠ x.id) : findCore (putCore d x) j = findCore d j := by
  have hfind : ∀ l : List Core, (x :: l.filter fun y => y.id != x.id).find? (fun y => y.id == j) = l.find? fun y => y.id == j := by
    intro l
    rw [List.find?_cons_of_neg (by simpa using Ne.symm h), List.find?_filter]
    congr 1
    funext y
    by_cases hy : y.id = j <;> simp [hy, h]
  simp only [findCore, putCore, hfind]

/-- The core of a card that is dealt anew. -/
def dealtCore (d : Dev) (c : Card) (k : Nat) : Core :=
  let r := dealRecord d c false
  { id := k, card := some c.slot, s := [nth r 1 0, wd (cardHandle c.slot), c.deadline] ++ List.replicate 13 0,
    p := BitVec.ofNat 8 c.predShort.toNat, pc := nth r 0 0, deal := r, ctx := (findCore d k).ctx }

theorem flowProgress_cores (d : Dev) (id : Nat) : (flowProgress d id).cores = d.cores := by
  unfold flowProgress
  split <;> rfl

theorem dealTo_cores (d : Dev) (c : Card) (k : Nat) : (dealTo d c k false).cores = (putCore d (dealtCore d c k)).cores := by
  unfold dealTo
  extract_lets r x core placed named served progressed noted pool
  have hprogressed : progressed.cores = (putCore d (dealtCore d c k)).cores := flowProgress_cores _ _
  have hnoted : noted.cores = progressed.cores := by
    unfold noted
    split <;> rfl
  exact hnoted.trans hprogressed

theorem findCore_dealTo (d : Dev) (c : Card) (k j : Nat) : findCore (dealTo d c k false) j = findCore (putCore d (dealtCore d c k)) j := by
  rw [findCore, findCore, dealTo_cores]

/-! ### Engine queues (R98) -/

/-- The cards of class `n` that the unit's queue could take. -/
def queueable (d : Dev) (u : UnitId) (n : Nat) : List Card :=
  d.dlr.cards.filter fun c => c.state == .ready && c.cls == n && cardFor d u c && flowAllows d c

/-- The first class with a card decides. -/
theorem findSome_class {α : Type} {f : Nat → Option α} {x : α} (hn : n < 3) (hnone : ∀ m, m < n → f m = none) (hsome : f n = some x) :
    (List.range 3).findSome? f = some x := by
  have hrange : List.range 3 = [0, 1, 2] := rfl
  rw [hrange]
  obtain rfl | rfl | rfl : n = 0 ∨ n = 1 ∨ n = 2 := by omega
  · simp [hsome]
  · simp [hnone 0, hsome]
  · simp [hnone 0, hnone 1, hsome]

theorem writeQueue_first {u : UnitId} (htakes : unitTakes d u = true) (hroom : (queueOf d u).length < queueDepth u) (hn : n < 3)
    (hnone : ∀ m, m < n → queueable d u m = []) (hfirst : firstCard d (queueable d u n) = some c) :
    writeQueue d u = noteDeal (flowProgress (putCard (setQueue d u (queueOf d u ++ [c.slot]))
      { c with state := .inService, at_ := some u }) c.flow) c := by
  have hchoice : (List.range 3).findSome? (fun m => firstCard d (queueable d u m)) = some c :=
    findSome_class hn (fun m hm => by rw [hnone m hm, firstCard_nil]) hfirst
  unfold queueable at hchoice
  unfold writeQueue
  rw [if_neg (by simp [htakes, hroom])]
  dsimp only
  rw [hchoice]

/-! ### Retirement, pre-emption and reports -/

theorem exec_cardRetire {s : State} {slot : Nat} (hf : findCard s.dev slot = some c) (hs : c.state = .inService) (hp : c.preempted = false)
    (hh : halted s.dev = false) (hend : c.done = true ∨ c.work.library = true) :
    exec (.cardRetire slot) s = nextWith s (runTasks s.dev [.complete slot]) := by
  have hended : (c.done || c.work.library) = true := by simpa using hend
  refine congrArg (nextWith s) ?_
  simp only [hf, hs, hp, hh, hended]
  rfl

/-- Core `k` is asked to yield its background card `b` for the trump card `c`, which counts (R96). -/
def askYield (d : Dev) (k : Nat) (c b : Card) : Dev :=
  let e := { d with dlr := { d.dlr with preempts := d.dlr.preempts ++ [{ core := k, trump := c.slot, background := b.slot }] } }
  cnt (putCore e { findCore e k with preemptReq := true }) (DLR + 0x40) 1

theorem preemptPool_one {b : Card} (hh : halted d = false)
    (hfirst : firstCard d ((readyIn d q t 0).filter fun c => !d.dlr.preempts.any fun p => p.trump == c.slot) = some c)
    (hon : bit (regB d (DLR + 4)) 8 = true) (hbusy : ∀ j ∈ poolCores d q t, coreIdle d j = false) (hone : preemptable d q t = [(k, b)]) :
    preemptPool d q t = askYield d k c b := by
  have hidle : (poolCores d q t).any (coreIdle d) = false := by simpa using hbusy
  unfold preemptPool
  rw [hfirst]
  dsimp only
  rw [if_neg (by simp [hh, hon, hidle]), hone]
  rfl

theorem preemptLate_first {x : Preempt} (hf : d.dlr.preempts.find? (fun p => p.core == k && !p.late) = some x) :
    preemptLate d k = raise
      { d with dlr := { d.dlr with preempts := d.dlr.preempts.map fun (y : Preempt) => if y.core == k then { y with late := true } else y } }
      (evCore k 0x203 1 [(1, k), (4, cardHandle x.trump), (4, cardHandle x.background)]) := by
  unfold preemptLate
  rw [hf]

/-- A stall is reported once, with some card of the flow (R102). -/
theorem stallFlow_reports {id : Nat} {f : Flow} (hf : findFlow d id = some f) (hr : f.raised = false) (hp : f.progressed = false)
    (hon : bit (regB d (DLR + 4)) 9 = true) (hlim : wdLimit d ≤ f.stall) (hpend : flowPending d id = true) :
    ∃ h, stallFlow d id = raise (cnt (putFlow d { f with raised := true }) (DLR + 0x38) 1)
      (evTo (evDev 0x200 1 [(4, f.id), (4, h), (4, f.stall)]) f.fn) := by
  unfold stallFlow
  rw [hf]
  dsimp only
  rw [if_neg (by simp [hr, hp, hon, hlim, hpend])]
  exact ⟨_, rfl⟩

theorem submitStallCmd_reports {x : Cmd} (hw : x.waiting = true) (hs : x.stalled = false) (hlim : wdLimit d < x.strides) :
    submitStallCmd d x = raise (putCmd d { x with stalled := true }) (evFn x.fn 0x204 1 [(1, x.fn), (1, x.ring)]) := by
  rw [submitStallCmd, if_pos (by simp [hw, hs, hlim])]

theorem exec_submitStall {s : State} {fn : Fin 64} {ring : Fin 32} {x : Cmd}
    (hf : s.dev.hif.accepted.find? (fun c => c.fn == fn.val && c.ring == ring.val && c.waiting) = some x) :
    exec (.submitStall fn ring) s = nextWith s (submitStallCmd s.dev x) := by
  refine congrArg (nextWith s) ?_
  dsimp only
  rw [hf]

theorem deadlineDrop_due {slot : Nat} (hf : findCard d slot = some c) (hcls : c.cls = 0) (hs : c.state = .waiting ∨ c.state = .ready)
    (hdue : c.deadline = strideW d - 1) (hnow : d.tim.clock = strideStart d.tim.stride) (hh : halted d = false) :
    deadlineDrop d slot = dropCard (raiseDrop d c) slot := by
  have hstate : (c.state == .waiting || c.state == .ready) = true := by simpa using hs
  unfold deadlineDrop
  rw [hf]
  dsimp only
  rw [if_pos (by simp [hcls, hstate, hdue, hnow, hh])]

theorem overrunCard_late {slot cycles : Nat} (hf : findCard d slot = some c) (hcls : c.cls = 0) (hs : c.state = .inService)
    (ho : c.overran = false) (hlate : sdiff c.deadline (strideW d) < 0) :
    overrunCard d slot cycles = raise (cnt (putCard d { c with overran := true, late := cycles }) (DLR + 0x30) 1)
      (evTo (evDev 0x211 1 [(4, cardHandle slot), (1, c.exec), (4, cycles)]) c.fn) := by
  unfold overrunCard
  rw [hf]
  dsimp only
  rw [if_pos (by simp [hcls, hs, ho, hlate])]

/-- Settles O35: the deals by `nextDeal` and `chooseCore_takes`, what a deal leaves on the cores by `dealTo_cores`, the rest each by
what its step does where it is due. -/
theorem dealerStepsComplete : Obligations.DealerStepsComplete := by
  unfold Obligations.DealerStepsComplete
  refine ⟨?_, ?_, fun d q t k p hp hk => resumable_core hp hk, ?_, ?_, ?_, fun s slot c hf hs hp hh hend => exec_cardRetire hf hs hp hh hend,
    ?_, ?_, ?_, ?_, ?_, ?_⟩
  · intro s q t k c hh hcls hc hk
    refine exec_cardDeal hh ?_
    rcases hc with htrump | ⟨h0, h1, h2, hr⟩
    · exact nextDeal_trump (readyDeal_chosen (by decide) htrump hk)
    · exact nextDeal_standard (readyDeal_none h0) (readyDeal_chosen (by decide) h1 hk) (backgroundDeal_none hr h2)
  · intro s q t k p ps hh h0 h1 hr hk
    exact exec_cardDeal hh (nextDeal_background (readyDeal_none h0) (readyDeal_none h1) (backgroundDeal_resumes hr hk))
  · intro d c k hk
    have htakes := chooseCore_takes hk
    exact ⟨htakes.idle, htakes.1, fun hcls x hx => htakes.unwanted hcls hx⟩
  · intro d c k
    refine ⟨dealtCore d c k, ?_, rfl, rfl, rfl, rfl, rfl, rfl, fun j hj => ?_⟩
    · rw [findCore_dealTo]
      exact findCore_putCore_same d (dealtCore d c k)
    · rw [findCore_dealTo]
      exact findCore_putCore_other d (dealtCore d c k) hj
  · intro s u n c hwf htakes hroom hn hnone hfirst
    refine congrArg (nextWith s) ((if_pos (by simp [hwf])).trans ?_)
    exact writeQueue_first htakes hroom hn hnone hfirst
  · intro s q t k c b hh hfirst hon hbusy hone
    exact congrArg (nextWith s) (preemptPool_one hh hfirst hon hbusy hone)
  · intro s k p hf
    exact congrArg (nextWith s) (preemptLate_first hf)
  · intro s id f hf hr hp hon hlim hpend
    obtain ⟨h, hstall⟩ := stallFlow_reports hf hr hp hon hlim hpend
    exact ⟨h, congrArg (nextWith s) hstall⟩
  · intro s fn ring c hf hs hlim
    have hw : c.waiting = true := by
      have hp := List.find?_some hf
      simp only [Bool.and_eq_true] at hp
      exact hp.2
    rw [exec_submitStall hf, submitStallCmd_reports hw hs hlim]
  · intro s slot c hf hcls hs hdue hnow hh
    exact congrArg (nextWith s) (deadlineDrop_due hf hcls hs hdue hnow hh)
  · intro s slot cycles c hf hcls hs ho hlate
    exact congrArg (nextWith s) (overrunCard_late hf hcls hs ho hlate)

end Sys2Proof.Machine
end

section
/-! Bits and fields of registers, and the runtime record of a ring, after a write (R57, R60). -/
namespace Sys2Proof.Machine
variable {d : Dev} {a i lo len fn r : Nat} {x : RingRt}

/-! ### Bits -/

theorem bit_eq_getLsbD (v : Word) (i : Nat) : bit v i = v.getLsbD i := rfl

theorem getB_putB_same (w : spWf d.regs = true) (hi : i < 32) (b : Bool) : getB (putB d a i b) a i = b := by
  unfold getB putB
  rw [reg_setF_same w, bit_eq_getLsbD, getLsbD_setFld _ _ _ _ _ hi, if_pos (by omega), Nat.sub_self]
  cases b <;> rfl

theorem reg_putB_other (w : spWf d.regs = true) {b : Nat} (hb : b ≠ a) (v : Bool) : reg (putB d a i v) b = reg d b :=
  reg_setF_other w hb _ _ _

theorem getF_putB_other (w : spWf d.regs = true) (b : Nat) (v : Bool) (h : lo + len ≤ 32)
    (ap : b ≠ a ∨ lo + len ≤ i ∨ i + 1 ≤ lo) : getF (putB d a i v) b lo len = getF d b lo len :=
  getF_setF_other w a i 1 v.toNat b lo len h ap

/-! ### Rings -/

@[simp] theorem reg_putRing (d : Dev) (x : RingRt) (a : Nat) : reg (putRing d x) a = reg d a := rfl

theorem getRing_fn (d : Dev) (fn r : Nat) : (getRing d fn r).fn = fn := by
  unfold getRing
  cases h : d.hif.rings.find? fun x => x.fn == fn && x.ring == r with
  | none => rfl
  | some x =>
    have hp := List.find?_some h
    simp only [Bool.and_eq_true, beq_iff_eq] at hp
    exact hp.1

theorem getRing_ring (d : Dev) (fn r : Nat) : (getRing d fn r).ring = r := by
  unfold getRing
  cases h : d.hif.rings.find? fun x => x.fn == fn && x.ring == r with
  | none => rfl
  | some x =>
    have hp := List.find?_some h
    simp only [Bool.and_eq_true, beq_iff_eq] at hp
    exact hp.2

/-- A ring after a write to any ring. -/
theorem getRing_putRing (d : Dev) (x : RingRt) (fn r : Nat) :
    getRing (putRing d x) fn r = if fn = x.fn ∧ r = x.ring then x else getRing d fn r := by
  unfold getRing putRing
  split
  · next h => simp [h]
  · next h =>
    have hx : (x.fn == fn && x.ring == r) = false := by
      simp only [Bool.and_eq_false_iff, beq_eq_false_iff_ne]
      omega
    rw [List.find?_cons_of_neg (by simp [hx]), List.find?_filter]
    congr 2
    funext y
    rw [Bool.eq_iff_iff]
    simp only [Bool.and_eq_true, Bool.not_eq_true', Bool.and_eq_false_iff, decide_eq_true_eq, beq_iff_eq, beq_eq_false_iff_ne]
    omega

/-- A ring's own record after it is replaced. -/
theorem getRing_putRing_same {x : RingRt} (hfn : x.fn = fn) (hr : x.ring = r) : getRing (putRing d x) fn r = x := by
  rw [getRing_putRing, if_pos ⟨hfn.symm, hr.symm⟩]

end Sys2Proof.Machine
end

section
/-! Negotiation, nudges, partial writes and the link (R48, R50, R54, R55, R59). -/
namespace Sys2Proof.Machine
variable {d : Dev} {s : State} {fn i : Nat} {v : Word}

/-! ### The lock -/

theorem writeLock_eq_regs (d : Dev) (fn : Nat) (v : Word) : writeLock d fn v = { d with regs := (writeLock d fn v).regs } := by
  unfold writeLock
  split <;> rfl

theorem writeLock_locks (hv : v.getLsbD 0 = true) (hf : fn = 0 ∨ locked d 0 = true) :
    writeLock d fn v = putB d (viewBase fn + 0x50) 0 true := by
  unfold writeLock
  rw [if_pos]
  simpa [bit_eq_getLsbD, hv] using hf

theorem writeLock_vf_unlocked (hf : fn ≠ 0) (hl : locked d 0 = false) : writeLock d fn v = d := by
  simp [writeLock, hf, hl]

/-! ### Nudges -/

theorem nudge_contains (d : Dev) (fn : Nat) : (nudge d fn).hif.nudged.contains fn = true := by
  unfold nudge
  split
  · assumption
  · simp

theorem nudge_eq_nudged (d : Dev) (fn : Nat) : nudge d fn = { d with hif := { d.hif with nudged := (nudge d fn).hif.nudged } } := by
  unfold nudge
  split <;> rfl

/-! ### Partial writes -/

theorem exec_subWord_mapped {fn : Fin 64} {addr a : Nat} (h : barAddr fn.val addr = some a) :
    exec (.subWord fn addr) s = nextWith s (subWord s.dev fn.val addr) := by
  show execSubWord fn addr s = _
  unfold execSubWord onDev
  rw [h]

/-! ### The link -/

theorem linkChange_changed {r w : Nat} (h : getF d 0 0 4 ≠ r ∨ getF d 0 4 5 ≠ w) :
    linkChange d r w = raise (setF (setF d 0 0 4 r) 0 4 5 w) (evDev 0x106 0 [(1, r), (1, w)]) := by
  unfold linkChange
  rw [if_neg]
  simp only [Bool.and_eq_true, beq_iff_eq]
  omega

/-- Settles O15: each command by its operation; `writeLock_locks` for the lock. -/
theorem negotiationAndAccessErrors : Obligations.NegotiationAndAccessErrors := by
  unfold Obligations.NegotiationAndAccessErrors
  refine ⟨?_, ?_, ?_, ?_, ?_, ?_⟩
  · intro s fn i v hl
    exact congrArg (nextWith s) (if_neg (by simp [hl]))
  · intro s fn i v hl
    exact congrArg (nextWith s) (if_pos hl)
  · intro s fn v hv hf w
    have hlock := writeLock_locks hv hf
    refine ⟨{ s with dev := writeLock s.dev fn.val v }, rfl, ?_, congrArg (fun x : Dev => { s with dev := x }) (writeLock_eq_regs _ _ _), ?_⟩
    · dsimp only
      rw [hlock]
      exact getB_putB_same w (by decide) true
    · intro b hb
      dsimp only
      rw [hlock, reg_putB_other w hb]
  · intro s fn v
    exact ⟨{ s with dev := nudge s.dev fn.val }, rfl, nudge_contains _ _, congrArg (fun x : Dev => { s with dev := x }) (nudge_eq_nudged _ _)⟩
  · intro s fn addr a ha
    rw [exec_subWord_mapped ha]
    rfl
  · intro s r w h
    exact congrArg (nextWith s) (linkChange_changed h)

end Sys2Proof.Machine
end

section
/-! A VF's HIF_DEV_FEAT (R55): where it stands in the register map, and what a read of it answers. -/
namespace Sys2Proof.Machine
variable {d : Dev} {s : State} {fn i : Nat} {v : Word}

/-- The place of offset `o` of a VF's HIF view. -/
theorem locate_vfView {v o : Nat} (hv : v < 63) (ho : o < 0x10000) : locate (viewBase (v + 1) + o) = some ⟨.hif, [v + 1], o⟩ := by
  have hbase : viewBase (v + 1) = 0x4000000 + v * 0x20000 := by simp [viewBase]
  rw [hbase]
  unfold locate
  repeat rw [if_neg (by omega)]
  rw [if_pos (by omega)]
  have hvf : (0x4000000 + v * 0x20000 + o - 0x4000000) / 0x20000 = v := by omega
  have hoff : (0x4000000 + v * 0x20000 + o - 0x4000000) % 0x20000 = o := by omega
  simp only [hvf, hoff, if_pos ho]

theorem findRow_devFeat (i : Fin 8) : (findRow rowsHif (0x10 + 4 * i.val)).isSome = true := by
  revert i
  decide

theorem regAt_vfDevFeat (vr : Variant) {v : Nat} (hv : v < 63) (i : Fin 8) :
    ∃ r is, regAt vr (viewBase (v + 1) + (0x10 + 4 * i.val)) = some (⟨.hif, [v + 1], 0x10 + 4 * i.val⟩, r, is) := by
  obtain ⟨⟨r, is⟩, hrow⟩ := Option.isSome_iff_exists.1 (findRow_devFeat i)
  refine ⟨r, [v + 1] ++ is, ?_⟩
  unfold regAt
  rw [locate_vfView hv (by omega)]
  simp only [Variant.absent, Blk.rows, hrow, Bool.false_eq_true, if_false]

theorem quietRead_devFeat {vf a : Nat} (ha : 0x4000000 ≤ a) : quietRead ⟨.hif, [vf], 0x10 + 4 * i⟩ a = true := by
  have hne : a ≠ TIM + 8 ∧ a ≠ TIM + 0x14 ∧ a ≠ TIM + 0x108 ∧ a ≠ SYS + 0x28 := by
    unfold TIM SYS
    omega
  simp [quietRead, readEffect, hne]

theorem liveReg_devFeat (d : Dev) {vf a : Nat} (hi : i < 8) : liveReg d ⟨.hif, [vf], 0x10 + 4 * i⟩ a = devFeat d vf i := by
  show hifLive d vf (0x10 + 4 * i) a = _
  unfold hifLive
  rw [if_neg (by omega), if_pos (by simp; omega)]
  congr 1
  omega

theorem barAddr_vf {v a : Nat} (ha : a < 0x20000) : barAddr (v + 1) a = some (viewBase (v + 1) + a) := by
  unfold barAddr
  rw [if_neg (by omega), if_neg (by omega), if_pos ha]

theorem readAt_regs (d : Dev) (t : Nat) : (readAt d t).regs = d.regs := by
  unfold readAt advance
  split
  · split <;> rfl
  · rfl

theorem reg_readAt (d : Dev) (t a : Nat) : reg (readAt d t) a = reg d a := by
  unfold reg
  rw [readAt_regs, readAt_variant]

theorem devFeat_readAt (d : Dev) (t fn i : Nat) : devFeat (readAt d t) fn i = devFeat d fn i := by
  unfold devFeat locked getB
  rw [reg_readAt, reg_readAt, reg_readAt, reg_readAt]

theorem devFeat_vf (d : Dev) (v i : Nat) : devFeat d (v + 1) i =
    if locked d 0 then reg d (0x30 + 4 * i) &&& reg d (0x2000 + 0x20 * v + 4 * i) else 0 := rfl

/-- Settles O16: the read is quiet and answers `devFeat`, which looks at the PF's lock; so does a write to a VF's lock. -/
theorem vfFeaturesFollowPf : Obligations.VfFeaturesFollowPf := by
  unfold Obligations.VfFeaturesFollowPf
  refine ⟨?_, ?_⟩
  · intro s v i o n t
    obtain ⟨r, is, hreg⟩ := regAt_vfDevFeat (readAt s.dev t).variant v.isLt i
    have hword : 0x10 + 4 * i.val + o.val - (0x10 + 4 * i.val + o.val) % 4 = 0x10 + 4 * i.val := by omega
    have hbar : barAddr v.succ.val (0x10 + 4 * i.val + o.val - (0x10 + 4 * i.val + o.val) % 4) =
        some (viewBase (v.val + 1) + (0x10 + 4 * i.val)) := by
      rw [hword]
      exact barAddr_vf (by omega)
    have hview : 0x4000000 ≤ viewBase (v.val + 1) + (0x10 + 4 * i.val) := by
      simp only [viewBase, if_neg (Nat.succ_ne_zero _)]
      omega
    have hbyte : (0x10 + 4 * i.val + o.val) % 4 = o.val := by omega
    rw [exec_registerRead, hostReadReg_mapped hbar, readReg_quiet hreg (quietRead_devFeat hview)]
    dsimp only
    rw [liveReg_devFeat _ i.isLt, devFeat_readAt, devFeat_vf, readBytes, hbyte]
    rfl
  · intro s v val hl
    exact congrArg (nextWith s) (writeLock_vf_unlocked (Nat.succ_ne_zero _) hl)

end Sys2Proof.Machine
end

section
/-! Enabling, disabling and draining a ring (R57, R62, R69). -/
namespace Sys2Proof.Machine
variable {d : Dev} {s : State} {fn r : Nat} {cfg : Word}

/-! ### Ring registers -/

theorem ringReg_ne {o o' : Nat} (h : o ≠ o') : ringReg fn r o ≠ ringReg fn r o' := by
  unfold ringReg
  omega

/-- A mask that covers a field keeps it. -/
theorem fld_and (x m : Word) {lo len : Nat} (h : ∀ i, i < len → m.getLsbD (lo + i) = true) : fld (x &&& m) lo len = fld x lo len := by
  refine Nat.eq_of_testBit_eq fun i => ?_
  rw [testBit_fld, testBit_fld]
  by_cases hi : i < len
  · rw [BitVec.getLsbD_and, h i hi, Bool.and_true]
  · simp [hi]

/-- Size and binding lie in the bits that a write to HIF_RING_CFG stores. -/
theorem ringLegal_of_stored {a b : Word} (h : a &&& 0xFFF6 = b &&& 0xFFF6) : ringLegal r a = ringLegal r b := by
  have hsize : fld a 4 4 = fld b 4 4 := by
    rw [← fld_and a 0xFFF6 (by decide), h, fld_and b 0xFFF6 (by decide)]
  have hbind : fld a 8 8 = fld b 8 8 := by
    rw [← fld_and a 0xFFF6 (by decide), h, fld_and b 0xFFF6 (by decide)]
  unfold ringLegal
  rw [hsize, hbind]

/-- The enable bit is none of the bits that a write stores. -/
theorem stored_cfg (v o : Word) : ((v &&& 0xFFF6) ||| (o &&& 1)) &&& 0xFFF6 = v &&& 0xFFF6 := by
  rw [BitVec.and_or_distrib_right, BitVec.and_assoc, BitVec.and_assoc]
  simp

/-- The enable bit joins the bits that a write stores. -/
theorem enabled_cfg (v : Word) : setFld v 0 1 1 &&& 0xFFF7 = (v &&& 0xFFF6) ||| 1 := by
  have hset : setFld v 0 1 1 = (v &&& ~~~1) ||| 1 := rfl
  rw [hset, BitVec.and_or_distrib_right, BitVec.and_assoc]
  rfl

/-! ### Enabling -/

/-- The configuration without enable is stored where it is another one. -/
def storeCfg (d : Dev) (fn r : Nat) (cfg : Word) : Dev :=
  if cfg &&& 0xFFF6 == reg d (ringReg fn r 8) &&& 0xFFF6 then d
  else setReg d (ringReg fn r 8) ((cfg &&& 0xFFF6) ||| (reg d (ringReg fn r 8) &&& 1))

/-- The registers of a ring that starts: enabled, at index 0, nothing lost, not idle. -/
def startRegs (d : Dev) (fn r : Nat) : Dev :=
  putB (setF (setReg (putB d (ringReg fn r 8) 0 true) (ringReg fn r 0x10) 0) (ringReg fn r 0x14) 16 16 0) (ringReg fn r 0x14) 0 false

/-- A ring starts with no entry pending, taken or lost. -/
def startRing (d : Dev) (fn r : Nat) : Dev :=
  putRing (startRegs d fn r) { getRing d fn r with fetched := [], consumer := 0, lostPend := 0 }

theorem storeCfg_wf (w : spWf d.regs = true) : spWf (storeCfg d fn r cfg).regs = true := by
  unfold storeCfg
  split
  · exact w
  · exact setReg_wf w _ _

theorem storeCfg_hif (d : Dev) (fn r : Nat) (cfg : Word) : (storeCfg d fn r cfg).hif = d.hif := by
  unfold storeCfg
  split <;> rfl

theorem storeCfg_stores (w : spWf d.regs = true) : reg (storeCfg d fn r cfg) (ringReg fn r 8) &&& 0xFFF6 = cfg &&& 0xFFF6 := by
  unfold storeCfg
  split
  · next h => exact (beq_iff_eq.1 h).symm
  · rw [reg_setReg_same w, stored_cfg]

theorem reg_storeCfg_other (w : spWf d.regs = true) {b : Nat} (hb : b ≠ ringReg fn r 8) : reg (storeCfg d fn r cfg) b = reg d b := by
  unfold storeCfg
  split
  · rfl
  · exact reg_setReg_other w hb _

/-- What a ring's start leaves of the registers other than its status. -/
theorem reg_startRegs (w : spWf d.regs = true) {b : Nat} (hstat : b ≠ ringReg fn r 0x14) : reg (startRegs d fn r) b =
    if b = ringReg fn r 0x10 then 0 else reg (putB d (ringReg fn r 8) 0 true) b := by
  have w1 := putB_wf w (ringReg fn r 8) 0 true
  have w2 := setReg_wf w1 (ringReg fn r 0x10) 0
  unfold startRegs
  rw [reg_putB_other (setF_wf w2 _ _ _ _) hstat, reg_setF_other w2 hstat, reg_setReg w1]

theorem reg_startRegs_head (w : spWf d.regs = true) : reg (startRegs d fn r) (ringReg fn r 0x10) = 0 := by
  rw [reg_startRegs w (ringReg_ne (by decide)), if_pos rfl]

theorem reg_startRegs_cfg (w : spWf d.regs = true) : reg (startRegs d fn r) (ringReg fn r 8) = setFld (reg d (ringReg fn r 8)) 0 1 1 := by
  rw [reg_startRegs w (ringReg_ne (by decide)), if_neg (ringReg_ne (by decide))]
  exact reg_setF_same w _ _ _ _

theorem reg_startRegs_other (w : spWf d.regs = true) {b : Nat} (hcfg : b ≠ ringReg fn r 8) (hhead : b ≠ ringReg fn r 0x10)
    (hstat : b ≠ ringReg fn r 0x14) : reg (startRegs d fn r) b = reg d b := by
  rw [reg_startRegs w hstat, if_neg hhead, reg_putB_other w hcfg]

theorem getF_startRegs_lost (w : spWf d.regs = true) : getF (startRegs d fn r) (ringReg fn r 0x14) 16 16 = 0 := by
  have w2 := setReg_wf (putB_wf w (ringReg fn r 8) 0 true) (ringReg fn r 0x10) 0
  unfold startRegs
  rw [getF_putB_other (setF_wf w2 _ _ _ _) _ _ (by decide) (by omega), getF_setF_same w2 _ _ _ _ (by decide), Nat.zero_mod]

theorem startRegs_not_idle (w : spWf d.regs = true) : getB (startRegs d fn r) (ringReg fn r 0x14) 0 = false :=
  getB_putB_same (setF_wf (setReg_wf (putB_wf w _ _ _) _ _) _ _ _ _) (by decide) false

theorem reg_startRing (d : Dev) (fn r b : Nat) : reg (startRing d fn r) b = reg (startRegs d fn r) b := reg_putRing _ _ _

/-- Enabling an idle, disabled ring with a legal configuration stores it and starts the ring. -/
theorem writeRingCfg_enable (w : spWf d.regs = true) (hoff : ringEnabled d fn r = false) (hidle : ringIdle d fn r = true)
    (hlegal : ringLegal r cfg = true) : writeRingCfg d fn r (cfg ||| 1) = startRing (storeCfg d fn r cfg) fn r := by
  have hnew : (cfg ||| 1) &&& 0xFFF6 = cfg &&& 0xFFF6 := by
    rw [BitVec.and_or_distrib_right]
    simp
  have hon : bit (cfg ||| 1) 0 = true := by
    rw [bit_eq_getLsbD, BitVec.getLsbD_or]
    simp
  have hold : bit (reg d (ringReg fn r 8)) 0 = false := hoff
  have hstore : ringLegal r (reg (storeCfg d fn r cfg) (ringReg fn r 8)) = true := by
    rw [ringLegal_of_stored (storeCfg_stores w), hlegal]
  have hd : (if cfg &&& 0xFFF6 == reg d (ringReg fn r 8) &&& 0xFFF6 then d
      else if ringIdle d fn r then setReg d (ringReg fn r 8) ((cfg &&& 0xFFF6) ||| (reg d (ringReg fn r 8) &&& 1))
      else ringFlag d fn r 2) = storeCfg d fn r cfg := by
    unfold storeCfg
    rw [if_pos hidle]
  unfold writeRingCfg
  dsimp only
  rw [hnew, hd, if_pos hon, hold, if_neg (by decide), if_pos hstore]
  rfl

/-! ### Disabling -/

/-- Disabling an enabled ring with its configuration otherwise as it is stops it. -/
theorem writeRingCfg_disable (hon : ringEnabled d fn r = true) :
    writeRingCfg d fn r (ringCfg d fn r &&& 0xFFFFFFFE) = stopRing d fn r := by
  have hold : bit (reg d (ringReg fn r 8)) 0 = true := hon
  have hsame : ringCfg d fn r &&& 0xFFFFFFFE &&& 0xFFF6 = reg d (ringReg fn r 8) &&& 0xFFF6 := by
    rw [BitVec.and_assoc]
    rfl
  have hoff : bit (ringCfg d fn r &&& 0xFFFFFFFE) 0 = false := by
    rw [bit_eq_getLsbD, BitVec.getLsbD_and]
    simp
  unfold writeRingCfg
  dsimp only
  rw [hsame, if_pos (beq_self_eq_true _), hoff, hold, if_neg (by decide), if_pos rfl]

theorem reg_stopRing_other (w : spWf d.regs = true) {b : Nat} (hb : b ≠ ringReg fn r 8) : reg (stopRing d fn r) b = reg d b :=
  reg_putB_other w hb false

theorem getRing_stopRing (d : Dev) (fn r : Nat) : getRing (stopRing d fn r) fn r = { getRing d fn r with fetched := [] } :=
  getRing_putRing_same (getRing_fn d fn r) (getRing_ring d fn r)

theorem getRing_startRing (d : Dev) (fn r : Nat) :
    getRing (startRing d fn r) fn r = { getRing d fn r with fn := fn, ring := r, fetched := [], consumer := 0, lostPend := 0 } := by
  have h : getRing (startRing d fn r) fn r = { getRing d fn r with fetched := [], consumer := 0, lostPend := 0 } :=
    getRing_putRing_same (getRing_fn d fn r) (getRing_ring d fn r)
  rw [h]
  dsimp only
  rw [getRing_fn, getRing_ring]

/-! ### Idle -/

theorem idleRing_drained (hoff : ringEnabled d fn r = false) (hsub : r < 32 → ∀ c ∈ d.hif.accepted, ¬(c.fn = fn ∧ c.ring = r))
    (hcq : 32 ≤ r → (getRing d fn r).reserved = 0) : idleRing d fn r = ringFlag d fn r 0 := by
  unfold idleRing
  have hquiet : (if r < 32 then !d.hif.accepted.any fun c => c.fn == fn && c.ring == r else (getRing d fn r).reserved == 0) = true := by
    split
    · next h => simpa using hsub h
    · next h => exact beq_iff_eq.2 (hcq (by omega))
  simp only [hquiet, hoff]
  rfl

/-- Settles O18: enabling by `startRing`, disabling by `stopRing`, idle by `ringFlag`. -/
theorem ringsEnableDisableDrain : Obligations.RingsEnableDisableDrain := by
  unfold Obligations.RingsEnableDisableDrain
  refine ⟨?_, ?_, ?_⟩
  · intro s fn r cfg w hoff hidle hlegal
    have ws := storeCfg_wf (fn := fn.val) (r := r.val) (cfg := cfg) w
    refine ⟨{ s with dev := startRing (storeCfg s.dev fn.val r.val cfg) fn.val r.val },
      congrArg (nextWith s) (writeRingCfg_enable w hoff hidle hlegal), ?_, ?_, ?_, ?_, ?_, ?_⟩
    · simp only [ringCfg, reg_startRing]
      rw [reg_startRegs_cfg ws, enabled_cfg, storeCfg_stores w]
    · simp only [ringHead, reg_startRing]
      exact reg_startRegs_head ws
    · simp only [getF, reg_startRing]
      exact getF_startRegs_lost ws
    · simp only [ringIdle, getB, reg_startRing]
      exact startRegs_not_idle ws
    · have hring : getRing (storeCfg s.dev fn.val r.val cfg) fn.val r.val = getRing s.dev fn.val r.val := by
        unfold getRing
        rw [storeCfg_hif]
      dsimp only
      rw [getRing_startRing, hring]
    · intro b hcfg hhead hstat
      dsimp only
      rw [reg_startRing, reg_startRegs_other ws hcfg hhead hstat, reg_storeCfg_other w hcfg]
  · intro s fn r w hon
    refine ⟨{ s with dev := stopRing s.dev fn.val r.val }, congrArg (nextWith s) (writeRingCfg_disable hon),
      getB_putB_same w (by decide) false, ?_, rfl, fun b hb => reg_stopRing_other w hb⟩
    dsimp only
    rw [getRing_stopRing]
  · intro s fn r w hoff hsub hcq
    exact ⟨{ s with dev := ringFlag s.dev fn.val r.val 0 }, congrArg (nextWith s) (idleRing_drained hoff hsub hcq),
      getB_putB_same w (by decide) true, rfl, fun b hb => reg_putB_other w hb true⟩

end Sys2Proof.Machine
end

section
/-! Doorbells and the acceptance of descriptors (R58 to R60, R62, R67). -/
namespace Sys2Proof.Machine
variable {d : Dev} {s : State} {fn r : Nat} {w : Quad} {f : Option RingRead}

/-! ### Page reads -/

theorem fetchPage_due {page : PageRead} (hl : locked d fn = true) (hf : inFlr d fn = false) (hm : d.sys.mode.fetches = true)
    (hdue : fn ∈ d.hif.pageDue ∨ fn ∈ d.hif.nudged) :
    fetchPage d fn page = (List.range 52).foldl
      (fun d r => doorbell d fn r (nth page.words r 0) ((page.fetch.find? fun f => f.1 == r).map Prod.snd))
      { d with hif := { d.hif with nudged := d.hif.nudged.filter (· != fn), pageDue := d.hif.pageDue.filter (· != fn) } } := by
  unfold fetchPage
  rw [if_neg]
  rw [hl, hf, hm]
  rcases hdue with hdue | hdue
  · simp [hdue]
  · simp [hdue]

theorem fetchPage_not_due {page : PageRead} (hp : fn ∉ d.hif.pageDue) (hn : fn ∉ d.hif.nudged) : fetchPage d fn page = d := by
  unfold fetchPage
  rw [if_pos]
  simp [hp, hn]

/-! ### One ring's doorbell -/

/-- The epoch of a doorbell word is that of its ring. -/
def epochFits (d : Dev) (fn r : Nat) (w : Quad) : Prop := w.toNat / 2 ^ 32 % 2 ^ 16 = fld (reg d (ringReg fn r 0xC)) 0 16

theorem testBit_valid (hv : w.getLsbD 63 = true) : w.toNat.testBit 63 = true := hv

theorem doorbell_invalid (hv : w.getLsbD 63 = false) : doorbell d fn r w f = d := by
  have h : w.toNat.testBit 63 = false := hv
  simp [doorbell, h]

theorem doorbell_stale (hv : w.getLsbD 63 = true) (he : ¬epochFits d fn r w) :
    doorbell d fn r w f = raise (ringFlag d fn r 4) (evFn fn 0x101 0 [(1, fn), (1, r), (2, w.toNat / 2 ^ 32 % 2 ^ 16)]) := by
  unfold doorbell
  dsimp only
  rw [if_neg (by simp [testBit_valid hv]), if_pos (bne_iff_ne.2 he)]

theorem doorbell_disabled (he : epochFits d fn r w) (hoff : ringEnabled d fn r = false) : doorbell d fn r w f = d := by
  unfold doorbell epochFits at *
  dsimp only
  split
  · rfl
  · rw [he, bne_self_eq_false, if_neg Bool.false_ne_true, if_pos (by simp [hoff])]

/-- What fetching pending descriptors does: nothing where there was no fetch, a fault where it failed (R60). -/
def fetchPending (d : Dev) (fn r : Nat) (index : Word) : Option RingRead → Dev
  | none => d
  | some .fail => faultRing d fn r index
  | some (.ok ds) =>
    let ds := ds.take (index - ringHead d fn r).toNat
    ringAdvance (putRing d { getRing d fn r with fetched := (getRing d fn r).fetched ++ ds }) fn r ds.length

/-- A submission ring's part of a page read: a fault, nothing pending, or the fetch of what is. -/
theorem doorbell_submission (hv : w.getLsbD 63 = true) (he : epochFits d fn r w) (hon : ringEnabled d fn r = true) (hr : r < 32) :
    doorbell d fn r w f =
      if ringSize d fn r < (wd w.toNat - ringHead d fn r).toNat then faultRing d fn r (wd w.toNat)
      else if (wd w.toNat - ringHead d fn r).toNat = 0 then d
      else fetchPending d fn r (wd w.toNat) f := by
  unfold doorbell epochFits at *
  dsimp only
  rw [if_neg (by simp [testBit_valid hv]), he, bne_self_eq_false, if_neg Bool.false_ne_true, if_neg (by simp [hon]), if_pos hr]
  rfl

/-- A completion or event ring's part of a page read: a fault, or its consumer index. -/
theorem doorbell_consumer (hv : w.getLsbD 63 = true) (he : epochFits d fn r w) (hon : ringEnabled d fn r = true) (hr : 32 ≤ r) :
    doorbell d fn r w f =
      if ringSize d fn r < (ringHead d fn r - wd w.toNat).toNat then faultRing d fn r (wd w.toNat)
      else if 48 ≤ r then eqOverflow (putRing d { getRing d fn r with consumer := wd w.toNat }) fn r
      else putRing d { getRing d fn r with consumer := wd w.toNat } := by
  unfold doorbell epochFits at *
  dsimp only
  rw [if_neg (by simp [testBit_valid hv]), he, bne_self_eq_false, if_neg Bool.false_ne_true, if_neg (by simp [hon]), if_neg (by omega)]

/-- The device with descriptors fetched into a submission ring. -/
def withFetched (d : Dev) (fn r : Nat) (ds : List Desc) : Dev :=
  ringAdvance (putRing d { getRing d fn r with fetched := (getRing d fn r).fetched ++ ds }) fn r ds.length

theorem doorbell_fetches {ds : List Desc} (hv : w.getLsbD 63 = true) (he : epochFits d fn r w) (hon : ringEnabled d fn r = true) (hr : r < 32)
    (hpos : 0 < (wd w.toNat - ringHead d fn r).toNat) (hfit : (wd w.toNat - ringHead d fn r).toNat ≤ ringSize d fn r)
    (hlen : ds.length = (wd w.toNat - ringHead d fn r).toNat) : doorbell d fn r w (some (.ok ds)) = withFetched d fn r ds := by
  rw [doorbell_submission hv he hon hr, if_neg (by omega), if_neg (by omega)]
  unfold fetchPending withFetched
  dsimp only
  rw [← hlen, List.take_length]

theorem getRing_withFetched (d : Dev) (fn r : Nat) (ds : List Desc) :
    (getRing (withFetched d fn r ds) fn r).fetched = (getRing d fn r).fetched ++ ds := by
  have h : getRing (withFetched d fn r ds) fn r = { getRing d fn r with fetched := (getRing d fn r).fetched ++ ds } :=
    getRing_putRing_same (getRing_fn d fn r) (getRing_ring d fn r)
  rw [h]

theorem ringHead_withFetched (wf : spWf d.regs = true) {ds : List Desc} : ringHead (withFetched d fn r ds) fn r = ringHead d fn r + wd ds.length :=
  reg_setReg_same (d := putRing d _) wf _ _

theorem reg_withFetched_other (wf : spWf d.regs = true) {ds : List Desc} {b : Nat} (hb : b ≠ ringReg fn r 0x10) :
    reg (withFetched d fn r ds) b = reg d b :=
  reg_setReg_other (d := putRing d _) wf hb _

theorem wd_toNat (x : Word) : wd x.toNat = x := by simp [wd]

theorem doorbell_faults (hv : w.getLsbD 63 = true) (he : epochFits d fn r w) (hon : ringEnabled d fn r = true)
    (hbad : if r < 32 then ringSize d fn r < (wd w.toNat - ringHead d fn r).toNat ∨ (f = some .fail ∧ wd w.toNat ≠ ringHead d fn r)
      else ringSize d fn r < (ringHead d fn r - wd w.toNat).toNat) :
    doorbell d fn r w f = faultRing d fn r (wd w.toNat) := by
  by_cases hr : r < 32
  · rw [if_pos hr] at hbad
    rw [doorbell_submission hv he hon hr]
    rcases hbad with hmany | ⟨rfl, hne⟩
    · exact if_pos hmany
    · split
      · rfl
      · have hpending : ¬(wd w.toNat - ringHead d fn r).toNat = 0 := fun hzero => hne (by bv_omega)
        rw [if_neg hpending, fetchPending]
  · rw [if_neg hr] at hbad
    rw [doorbell_consumer hv he hon (by omega), if_pos hbad]

/-! ### Acceptance -/

/-- The command that a descriptor becomes. -/
def acceptedCmd (d : Dev) (fn r : Nat) (x : Desc) : Cmd :=
  { id := d.hif.nextId, fn := fn, ring := r, cq := ringBind d fn r, desc := x,
    n1 := if dOpcode x = 0x20 then getF d (SEC + 0x100 + 4 * fn) 0 16 else 0 }
/-- A ring with the descriptors `rest` left to accept. -/
def leaveFetched (d : Dev) (fn r : Nat) (rest : List Desc) : Dev := putRing d { getRing d fn r with fetched := rest }
/-- One more entry of a completion ring reserved. -/
def reserveEntry (d : Dev) (fn q : Nat) : Dev := putRing d { getRing d fn q with reserved := (getRing d fn q).reserved + 1 }
/-- The device with the next descriptor accepted, before what completes at once. -/
def withAccepted (d : Dev) (cls fn r : Nat) (x : Desc) (rest : List Desc) : Dev :=
  let e := reserveEntry (leaveFetched d fn r rest) fn (ringBind d fn r)
  { e with hif := { e.hif with
      accepted := e.hif.accepted ++ [acceptedCmd d fn r x]
      nextId := e.hif.nextId + 1
      rrFn := e.hif.rrFn.set cls fn
      rrRing := (cls, fn, r) :: e.hif.rrRing.filter fun y => !(y.1 == cls && y.2.1 == fn) } }

theorem getF_putRing (d : Dev) (x : RingRt) (a lo len : Nat) : getF (putRing d x) a lo len = getF d a lo len := rfl

theorem acceptOne_next {cls : Nat} {x : Desc} {rest : List Desc} (ha : arbitrate d = some (cls, fn, r))
    (hf : (getRing d fn r).fetched = x :: rest) : acceptOne d = settle (withAccepted d cls fn r x rest) := by
  unfold acceptOne
  rw [ha]
  dsimp only
  rw [hf]
  dsimp only
  rw [getF_putRing, getF_putRing]
  rfl

theorem acceptOne_none (ha : arbitrate d = none) : acceptOne d = d := by
  unfold acceptOne
  rw [ha]

theorem getRing_leaveFetched (d : Dev) (fn r : Nat) (rest : List Desc) :
    getRing (leaveFetched d fn r rest) fn r = { getRing d fn r with fetched := rest } :=
  getRing_putRing_same (getRing_fn d fn r) (getRing_ring d fn r)

theorem getRing_reserveEntry (d : Dev) (fn q : Nat) :
    getRing (reserveEntry d fn q) fn q = { getRing d fn q with reserved := (getRing d fn q).reserved + 1 } :=
  getRing_putRing_same (getRing_fn d fn q) (getRing_ring d fn q)

/-- A reservation leaves what every ring fetched. -/
theorem reserveEntry_fetched (d : Dev) (fn q r : Nat) : (getRing (reserveEntry d fn q) fn r).fetched = (getRing d fn r).fetched := by
  by_cases hq : r = q
  · rw [hq, getRing_reserveEntry]
  · rw [reserveEntry, getRing_putRing, if_neg (by simp [getRing_ring, hq])]

/-- What a ring fetched is apart from what any ring has reserved. -/
theorem leaveFetched_reserved (d : Dev) (fn r q : Nat) (rest : List Desc) :
    (getRing (leaveFetched d fn r rest) fn q).reserved = (getRing d fn q).reserved := by
  by_cases hq : q = r
  · rw [hq, getRing_leaveFetched]
  · rw [leaveFetched, getRing_putRing, if_neg (by simp [getRing_ring, hq])]

/-- The descriptor is gone from its ring, even where the ring is bound to itself. -/
theorem withAccepted_fetched (d : Dev) (cls fn r : Nat) (x : Desc) (rest : List Desc) :
    (getRing (withAccepted d cls fn r x rest) fn r).fetched = rest := by
  have h := reserveEntry_fetched (leaveFetched d fn r rest) fn (ringBind d fn r) r
  rw [getRing_leaveFetched] at h
  exact h

/-- One more entry of the bound completion ring is reserved. -/
theorem withAccepted_reserved (d : Dev) (cls fn r : Nat) (x : Desc) (rest : List Desc) :
    (getRing (withAccepted d cls fn r x rest) fn (ringBind d fn r)).reserved = (getRing d fn (ringBind d fn r)).reserved + 1 := by
  have h := congrArg RingRt.reserved (getRing_reserveEntry (leaveFetched d fn r rest) fn (ringBind d fn r))
  dsimp only at h
  rw [leaveFetched_reserved] at h
  exact h

/-- Settles O19: a page read by `fetchPage_due`, one ring by the lemmas `doorbell_…`, acceptance by `acceptOne_next`. -/
theorem doorbellsAndAcceptance : Obligations.DoorbellsAndAcceptance := by
  unfold Obligations.DoorbellsAndAcceptance
  refine ⟨?_, ?_, ?_, ?_, ?_, ?_, ?_, ?_, ?_⟩
  · intro s fn page hl hf hm hdue
    exact congrArg (nextWith s) (fetchPage_due hl hf hm hdue)
  · intro s fn page hp hn
    exact congrArg (nextWith s) (fetchPage_not_due hp hn)
  · intro d fn r w f h
    rcases h with hv | ⟨hoff, he⟩
    · exact doorbell_invalid hv
    · exact doorbell_disabled he hoff
  · intro d fn r w f hv he
    exact doorbell_stale hv he
  · intro d fn r w ds hv hon he hr hpos hfit hlen
    refine ⟨withFetched d fn r ds, doorbell_fetches hv he hon hr hpos hfit hlen, getRing_withFetched d fn r ds,
      fun wf => ⟨?_, fun b hb => ?_⟩, rfl⟩
    · rw [ringHead_withFetched wf, hlen, wd_toNat]
      bv_omega
    · exact reg_withFetched_other wf hb
  · intro d fn r w f hv hon he hbad
    exact doorbell_faults hv he hon hbad
  · intro d fn r w f hv hon he hlow hhigh hfit
    rw [doorbell_consumer hv he hon hlow, if_neg (by omega), if_neg (by omega)]
  · intro s cls fn r x rest ha hf
    exact ⟨withAccepted s.dev cls fn r x rest, congrArg (nextWith s) (acceptOne_next ha hf), rfl,
      withAccepted_fetched s.dev cls fn r x rest, withAccepted_reserved s.dev cls fn r x rest, rfl⟩
  · intro s ha
    exact congrArg (nextWith s) (acceptOne_none ha)

end Sys2Proof.Machine
end

section
/-! Function level resets (R78, R79). -/
namespace Sys2Proof.Machine
variable {d : Dev} {s : State} {fn a : Nat}

/-! ### What a reset discards and clears -/

/-- A cleared cell reads zero, every other one as before. -/
theorem spGet_clear {w : Nat} (m : Sparse w) (p : Nat → Bool) (a : Nat) : spGet (spClear m p) a = if p a then 0 else spGet m a := by
  induction m with
  | nil => simp [spClear, spGet]
  | cons e m ih =>
    obtain ⟨b, v⟩ := e
    unfold spClear at ih ⊢
    by_cases hp : p b = true
    · rw [List.filter_cons_of_neg (by simp [hp]), ih, spGet_cons]
      by_cases hab : a = b
      · rw [hab, if_pos hp, if_pos hp]
      · rw [if_neg hab]
    · rw [List.filter_cons_of_pos (by simp [hp]), spGet_cons, spGet_cons, ih]
      by_cases hab : a = b
      · rw [hab, if_pos rfl, if_neg hp, if_pos rfl]
      · rw [if_neg hab, if_neg hab]

/-- A register that is cleared reads its reset value. -/
theorem reg_clearView (d : Dev) (hfn : 1 ≤ fn) (a : Nat) : reg (clearView d fn) a =
    if (viewBase fn ≤ a ∧ a < viewBase fn + 0x20000) ∨ (msixReg fn 0 0 ≤ a ∧ a < msixReg fn 0 0 + 0x4000) then regReset d.variant a
    else reg d a := by
  have hpf : (fn == 0) = false := by
    rw [beq_eq_false_iff_ne]
    omega
  unfold reg clearView
  simp only [spGet_clear, hpf, Bool.false_and, Bool.not_false, Bool.and_true, Bool.or_eq_true, Bool.and_eq_true, decide_eq_true_eq]
  by_cases h : (viewBase fn ≤ a ∧ a < viewBase fn + 0x20000) ∨ (msixReg fn 0 0 ≤ a ∧ a < msixReg fn 0 0 + 0x4000)
  · rw [if_pos h, if_pos h.symm]
    exact BitVec.zero_xor
  · rw [if_neg h, if_neg fun g => h g.symm]

/-- What is left of a function's commands has started, and finishes without a completion. -/
theorem discardCmds_left {c : Cmd} (hc : c ∈ (discardCmds d fn).hif.accepted) (hfn : c.fn = fn) : c.started = true ∧ c.discard = true := by
  obtain ⟨x, hx, rfl⟩ := List.mem_map.1 hc
  have hkept : x.fn ≠ fn ∨ x.started = true := by simpa using (List.mem_filter.1 hx).2
  by_cases hown : (x.fn == fn) = true
  · rw [if_pos hown]
    exact ⟨hkept.resolve_left fun h => h (beq_iff_eq.1 hown), rfl⟩
  · rw [if_neg hown] at hfn
    exact absurd (beq_iff_eq.2 hfn) hown

/-! ### The resets and their end -/

theorem startFlr_begins (h : inFlr d fn = false) : startFlr d fn =
    (d.obj.sessions.filter fun x => x.fn == fn && !x.closing && !x.closed).foldl closeSession (clearView (discardCmds d fn) fn) := by
  unfold startFlr
  rw [if_neg (by simp [h])]
  rfl

theorem pfFlr_begins (h : d.sys.mode ≠ .reset) :
    pfFlr d = flrMode { (List.range 64).foldl startFlr d with hif := { ((List.range 64).foldl startFlr d).hif with vfEnable := false } } := by
  unfold pfFlr
  rw [if_neg (by simpa using h)]

theorem flrComplete_ends (hflr : inFlr d (fn + 1) = true) (hcmds : ∀ c ∈ d.hif.accepted, c.fn ≠ fn + 1)
    (hses : ∀ x ∈ d.obj.sessions, x.fn = fn + 1 → x.closed = true) :
    flrComplete d (fn + 1) =
      raiseOn { d with hif := { d.hif with flr := d.hif.flr.filter (· != fn + 1) } } 48 (evDev 0x105 0 [(1, fn)]) := by
  have hc : (d.hif.accepted.any fun c => c.fn == fn + 1) = false := by simpa using hcmds
  have hs : (d.obj.sessions.any fun s => s.fn == fn + 1 && !s.closed) = false := by simpa using hses
  unfold flrComplete
  rw [hflr, hc, hs, if_neg (by decide)]
  rfl

/-- Settles O20: the start by `startFlr_begins`, what it clears by `reg_clearView` and `discardCmds_left`, the end by `flrComplete_ends`. -/
theorem functionLevelResets : Obligations.FunctionLevelResets := by
  unfold Obligations.FunctionLevelResets
  refine ⟨?_, ?_, ?_, ?_, ?_⟩
  · intro s v hm hflr
    have hrow : exec (.vfFlr v) s = nextWith s (if s.dev.sys.mode == .reset then s.dev else startFlr s.dev (v.val + 1)) := rfl
    rw [hrow, if_neg (by simpa using hm), startFlr_begins hflr]
  · intro d fn c hc hfn
    exact discardCmds_left hc hfn
  · intro d fn a _ hfn _
    exact reg_clearView d hfn a
  · intro s hm
    exact congrArg (nextWith s) (pfFlr_begins hm)
  · intro s v hflr hcmds hses
    exact congrArg (nextWith s) (flrComplete_ends hflr hcmds hses)

end Sys2Proof.Machine
end

section
/-! Ring commands that fail one of the steps 1 to 5 of R71 (R70, R71, R73, R75). -/
namespace Sys2Proof.Machine
variable {d : Dev} {s : State} {i : Instr} {op fn ring : Nat} {c : Cmd} {f : Fail}

/-! ### Rows -/

/-- The cfg_bad bit is for a UNIT_START that may start and passes steps 1 to 5. -/
theorem flagCfgBad_none (h : readyCmd d 0x61 fn ring = none) : flagCfgBad d fn ring = d := by
  unfold flagCfgBad
  rw [h]

theorem flagCfgBad_fails (h : readyCmd d 0x61 fn ring = some c) (hf : staticFail d c = some f ∨ modeFail d c = some f) :
    flagCfgBad d fn ring = d := by
  have hnone : ((staticFail d c).isNone && (modeFail d c).isNone) = false := by rcases hf with hf | hf <;> simp [hf]
  unfold flagCfgBad
  rw [h]
  dsimp only
  split
  · rw [if_neg]
    rw [Bool.and_assoc, hnone, Bool.and_false]
    exact Bool.false_ne_true
  · rfl

/-- Every ring command's row runs the checks of its opcode, UNIT_START with the cfg_bad bit noted first. -/
theorem exec_ringRow (h : ringOf i = some (op, fn, ring)) (s : State) :
    ∃ act e, exec i s = nextWith s (runCmd op fn ring act e) ∧ (e = s.dev ∨ op = 0x61 ∧ e = flagCfgBad s.dev fn ring) := by
  cases i
  case unitStart => cases h; exact ⟨unitStartAct, _, rfl, .inr ⟨rfl, rfl⟩⟩
  all_goals cases h
  all_goals exact ⟨_, s.dev, rfl, .inl rfl⟩

theorem exec_ring_none (h : ringOf i = some (op, fn, ring)) (hr : readyCmd s.dev op fn ring = none) : exec i s = .next s := by
  obtain ⟨act, e, he, rfl | ⟨rfl, rfl⟩⟩ := exec_ringRow h s
  · rw [he, runCmd_none hr]
  · rw [he, flagCfgBad_none hr, runCmd_none hr]

theorem exec_ring_fails (h : ringOf i = some (op, fn, ring)) (hr : readyCmd s.dev op fn ring = some c)
    (hf : staticFail s.dev c = some f ∨ (staticFail s.dev c = none ∧ modeFail s.dev c = some f)) :
    exec i s = nextWith s (settle (failCmd s.dev c f)) := by
  have hrun (act) : runCmd op fn ring act s.dev = settle (failCmd s.dev c f) := by
    rcases hf with hs | ⟨hs, hm⟩
    · exact runCmd_static hr hs
    · exact runCmd_mode hr hs hm
  obtain ⟨act, e, he, rfl | ⟨rfl, rfl⟩⟩ := exec_ringRow h s
  · rw [he, hrun]
  · rw [he, flagCfgBad_fails hr (hf.imp_right And.right), hrun]

/-! ### Steps 1 to 4 -/

theorem staticFail_badOpcode (h : dOpcode c.desc ∉ opcodes) : staticFail d c = some { st := ST_BAD_OPCODE } := by
  unfold staticFail
  exact if_pos (by simpa using h)

/-- What remains of steps 1 to 4 for an opcode of the catalogue. -/
theorem staticFail_known (h : dOpcode c.desc ∈ opcodes) : staticFail d c =
    if c.fn != 0 && (pfOnly (dOpcode c.desc) || protectedUse c.desc) then some { st := ST_PROTECTED }
    else if targetAbsent d c.desc then some { st := ST_UNIT_ABSENT }
    else if (needFeats c.desc).any fun b => !featOn d c.fn b then some { st := ST_FEATURE_OFF }
    else none := by
  unfold staticFail
  exact if_neg (by simpa using h)

theorem staticFail_protected (h : dOpcode c.desc ∈ opcodes) (hfn : c.fn ≠ 0)
    (hp : pfOnly (dOpcode c.desc) = true ∨ protectedUse c.desc = true) : staticFail d c = some { st := ST_PROTECTED } := by
  rw [staticFail_known h]
  exact if_pos (by simpa [hfn] using hp)

/-- What remains of steps 1 to 4 where the function may use the command. -/
theorem staticFail_permitted (h : dOpcode c.desc ∈ opcodes)
    (hp : c.fn = 0 ∨ (pfOnly (dOpcode c.desc) = false ∧ protectedUse c.desc = false)) : staticFail d c =
    if targetAbsent d c.desc then some { st := ST_UNIT_ABSENT }
    else if (needFeats c.desc).any fun b => !featOn d c.fn b then some { st := ST_FEATURE_OFF }
    else none := by
  rw [staticFail_known h]
  exact if_neg (by rcases hp with hp | ⟨ho, hu⟩ <;> simp [*])

/-- Settles O21: every row by `exec_ringRow`, the order of steps 1 to 4 by `staticFail`. -/
theorem ringCommandsFailAtTheFirstCheck : Obligations.RingCommandsFailAtTheFirstCheck := by
  unfold Obligations.RingCommandsFailAtTheFirstCheck
  refine ⟨fun i op fn ring s h hr => exec_ring_none h hr, fun i op fn ring s c f h hr hf => exec_ring_fails h hr hf,
    fun d c => ⟨?_, ?_, ?_, ?_⟩⟩
  · intro h
    rw [staticFail_badOpcode h]
    rfl
  · intro h hfn hp
    rw [staticFail_protected h hfn hp]
    rfl
  · intro h hp habsent
    rw [staticFail_permitted h hp, if_pos habsent]
    rfl
  · intro h hp hpresent ⟨b, hb, hoff⟩
    have hany : ((needFeats c.desc).any fun b => !featOn d c.fn b) = true := List.any_eq_true.2 ⟨b, hb, by simp [hoff]⟩
    rw [staticFail_permitted h hp, hpresent, if_neg Bool.false_ne_true, if_pos hany]
    rfl

end Sys2Proof.Machine
end

section
/-! Completions (R49, R61, R62, R64): what leaves the device with a command, and the bytes of an entry. -/
namespace Sys2Proof.Machine
variable {d : Dev} {c : Cmd} {fn r st : Nat} {res : List Byte}

/-! ### The four ways out of `finish` -/

/-- The command is gone from the accepted ones. -/
def withdrawn (d : Dev) (c : Cmd) : Dev :=
  { d with hif := { d.hif with accepted := d.hif.accepted.filter fun x => x.id != c.id } }
/-- The command is gone and its reservation returned. -/
def withReturned (d : Dev) (c : Cmd) : Dev := unreserve (withdrawn d c) c.fn c.cq
/-- The entry of a completion at HEAD of its ring. -/
def entryOut (d : Dev) (c : Cmd) (st : Nat) (res : List Byte) : Out :=
  .completion c.fn c.cq (ringHead d c.fn c.cq).toNat (slotAddr d c.fn c.cq (ringHead d c.fn c.cq).toNat 16)
    (entryBytes (ringSize d c.fn c.cq) (ringHead d c.fn c.cq).toNat (dTag c.desc) st res)
/-- The entry is written and HEAD goes on by one. -/
def entryWritten (d : Dev) (c : Cmd) (st : Nat) (res : List Byte) : Dev := ringAdvance (emitOut d (entryOut d c st res)) c.fn c.cq 1

theorem finish_discard (h : c.discard = true) : finish d c st res = withdrawn d c := by
  unfold finish
  exact if_pos h

theorem finish_kept (h : c.discard = false) : finish d c st res =
    if dSilent c.desc && st == ST_OK then withReturned d c
    else if c.lostCq then ringLose (withReturned d c) c.fn c.cq 1
    else ringIrq (entryWritten (withReturned d c) c st res) c.fn c.cq := by
  unfold finish
  exact if_neg (by simp [h])

theorem finish_silent (h : c.discard = false) (hs : dSilent c.desc = true ∧ st = ST_OK) : finish d c st res = withReturned d c := by
  rw [finish_kept h, if_pos (by simpa using hs)]

theorem finish_lost (h : c.discard = false) (hs : ¬(dSilent c.desc = true ∧ st = ST_OK)) (hl : c.lostCq = true) :
    finish d c st res = ringLose (withReturned d c) c.fn c.cq 1 := by
  rw [finish_kept h, if_neg (by simpa using hs), if_pos hl]

theorem finish_entry (h : c.discard = false) (hs : ¬(dSilent c.desc = true ∧ st = ST_OK)) (hl : c.lostCq = false) :
    finish d c st res = ringIrq (entryWritten (withReturned d c) c st res) c.fn c.cq := by
  rw [finish_kept h, if_neg (by simpa using hs), if_neg (by simp [hl])]

/-! ### The host interface's records -/

theorem sendMsix_hif (d : Dev) (fn v : Nat) : (sendMsix d fn v).hif = d.hif := by
  unfold sendMsix
  split <;> rfl

theorem ringIrq_hif (d : Dev) (fn r : Nat) : (ringIrq d fn r).hif = d.hif := by
  unfold ringIrq
  split
  · exact sendMsix_hif _ _ _
  · rfl

theorem finish_hif (h : c.discard = false) : (finish d c st res).hif = (withReturned d c).hif := by
  rw [finish_kept h]
  split
  · rfl
  · split
    · rfl
    · rw [ringIrq_hif]
      rfl

theorem finish_accepted : (finish d c st res).hif.accepted = d.hif.accepted.filter fun x => x.id != c.id := by
  cases h : c.discard with
  | true => rw [finish_discard h]; rfl
  | false => rw [finish_hif h]; rfl

theorem finish_reserved (h : c.discard = false) :
    (getRing (finish d c st res) c.fn c.cq).reserved = (getRing d c.fn c.cq).reserved - 1 := by
  have hring : getRing (finish d c st res) c.fn c.cq =
      { getRing (withdrawn d c) c.fn c.cq with reserved := (getRing (withdrawn d c) c.fn c.cq).reserved - 1 } := by
    unfold getRing
    rw [finish_hif h]
    exact getRing_putRing_same (getRing_fn _ _ _) (getRing_ring _ _ _)
  rw [hring]
  rfl

/-! ### Registers and messages -/

/-- A completion ring's registers lie below every MSI-X table. -/
theorem ringReg_lt_msix {r o : Nat} (hfn : fn < 64) (hr : r < 52) (ho : o < 0x20) : ringReg fn r o < 0x5000000 := by
  unfold ringReg viewBase
  split <;> omega

theorem msixReg_ge (fn v o : Nat) : 0x5000000 ≤ msixReg fn v o := by
  unfold msixReg
  omega

theorem msixPba_ge (fn : Nat) : 0x5000000 ≤ msixPba fn := by
  unfold msixPba
  omega


/-- The message that a ring's interrupt sends: none where irq_en is clear or the vector is masked. -/
def irqOut (d : Dev) (fn r : Nat) : List Out :=
  if bit (ringCfg d fn r) 2 = true ∧ getB d (msixReg fn (ringBind d fn r) 0xC) 0 = false then
    [.msix fn (ringBind d fn r) ((reg d (msixReg fn (ringBind d fn r) 0)).toNat + 2 ^ 32 * (reg d (msixReg fn (ringBind d fn r) 4)).toNat)
      (reg d (msixReg fn (ringBind d fn r) 8))]
  else []

theorem ringIrq_out (d : Dev) (fn r : Nat) : (ringIrq d fn r).out = d.out ++ irqOut d fn r := by
  unfold ringIrq irqOut
  split
  · next hirq =>
    unfold sendMsix
    split
    · next hm => rw [if_neg (by simp [hm])]; simp
    · next hm => rw [if_pos ⟨hirq, by simpa using hm⟩]; rfl
  · next hirq => rw [if_neg (by simp [hirq])]; simp

/-- An interrupt changes no register but, of a masked vector, the pending bits. -/
theorem reg_ringIrq_other (w : spWf d.regs = true) {b : Nat}
    (hb : bit (ringCfg d fn r) 2 = true → getB d (msixReg fn (ringBind d fn r) 0xC) 0 = true → b ≠ msixPba fn) :
    reg (ringIrq d fn r) b = reg d b := by
  unfold ringIrq
  split
  · next hirq =>
    unfold sendMsix
    split
    · next hm => exact reg_putB_other w (hb hirq hm) true
    · rfl
  · rfl

/-- The vector of a masked interrupt is pending. -/
theorem ringIrq_pends (w : spWf d.regs = true) (hirq : bit (ringCfg d fn r) 2 = true)
    (hm : getB d (msixReg fn (ringBind d fn r) 0xC) 0 = true) (hv : ringBind d fn r < 32) :
    getB (ringIrq d fn r) (msixPba fn) (ringBind d fn r) = true := by
  unfold ringIrq sendMsix
  rw [if_pos hirq, if_pos hm]
  exact getB_putB_same w hv true

/-- Writing an entry advances HEAD and changes no other register. -/
theorem reg_entryWritten (w : spWf d.regs = true) (a : Nat) : reg (entryWritten d c st res) a =
    if a = ringReg c.fn c.cq 0x10 then ringHead d c.fn c.cq + 1 else reg d a :=
  reg_setReg (d := emitOut d _) w _ _ _

theorem reg_entryWritten_other (w : spWf d.regs = true) {a : Nat} (h : a ≠ ringReg c.fn c.cq 0x10) :
    reg (entryWritten d c st res) a = reg d a := by
  rw [reg_entryWritten w, if_neg h]

theorem entryWritten_wf (w : spWf d.regs = true) : spWf (entryWritten d c st res).regs = true := setReg_wf (d := emitOut d _) w _ _

theorem ringCfg_entryWritten (w : spWf d.regs = true) : ringCfg (entryWritten d c st res) c.fn c.cq = ringCfg d c.fn c.cq :=
  reg_entryWritten_other w (ringReg_ne (by decide))

theorem ringBind_entryWritten (w : spWf d.regs = true) : ringBind (entryWritten d c st res) c.fn c.cq = ringBind d c.fn c.cq := by
  unfold ringBind
  rw [ringCfg_entryWritten w]

theorem msixReg_entryWritten (w : spWf d.regs = true) (hfn : c.fn < 64) (hcq : c.cq < 52) (v o : Nat) :
    reg (entryWritten d c st res) (msixReg c.fn v o) = reg d (msixReg c.fn v o) := by
  have hlow := ringReg_lt_msix hfn hcq (o := 0x10) (by decide)
  have hhigh := msixReg_ge c.fn v o
  exact reg_entryWritten_other w (by omega)

theorem irqOut_entryWritten (w : spWf d.regs = true) (hfn : c.fn < 64) (hcq : c.cq < 52) :
    irqOut (entryWritten d c st res) c.fn c.cq = irqOut d c.fn c.cq := by
  unfold irqOut getB
  rw [ringCfg_entryWritten w, ringBind_entryWritten w]
  simp only [msixReg_entryWritten w hfn hcq]

/-- The device after a completion that writes its entry. -/
def entryCompleted (d : Dev) (c : Cmd) (st : Nat) (res : List Byte) : Dev := ringIrq (entryWritten d c st res) c.fn c.cq

theorem entryCompleted_out (w : spWf d.regs = true) (hfn : c.fn < 64) (hcq : c.cq < 52) :
    (entryCompleted d c st res).out = d.out ++ [entryOut d c st res] ++ irqOut d c.fn c.cq := by
  unfold entryCompleted
  rw [ringIrq_out, irqOut_entryWritten w hfn hcq]
  rfl

theorem reg_entryCompleted (w : spWf d.regs = true) (hfn : c.fn < 64) (hcq : c.cq < 52) {b : Nat}
    (hb : bit (ringCfg d c.fn c.cq) 2 = true → getB d (msixReg c.fn (ringBind d c.fn c.cq) 0xC) 0 = true → b ≠ msixPba c.fn) :
    reg (entryCompleted d c st res) b = reg (entryWritten d c st res) b := by
  refine reg_ringIrq_other (entryWritten_wf w) ?_
  unfold getB at hb ⊢
  rwa [ringCfg_entryWritten w, ringBind_entryWritten w, msixReg_entryWritten w hfn hcq]

theorem ringHead_entryCompleted (w : spWf d.regs = true) (hfn : c.fn < 64) (hcq : c.cq < 52) :
    ringHead (entryCompleted d c st res) c.fn c.cq = ringHead d c.fn c.cq + 1 := by
  have hlow := ringReg_lt_msix hfn hcq (o := 0x10) (by decide)
  have hhigh := msixPba_ge c.fn
  unfold ringHead
  rw [reg_entryCompleted w hfn hcq (fun _ _ => by omega), reg_entryWritten w, if_pos rfl]
  rfl

theorem entryCompleted_pends (w : spWf d.regs = true) (hfn : c.fn < 64) (hcq : c.cq < 52) (hirq : bit (ringCfg d c.fn c.cq) 2 = true)
    (hm : getB d (msixReg c.fn (ringBind d c.fn c.cq) 0xC) 0 = true) (hv : ringBind d c.fn c.cq < 32) :
    getB (entryCompleted d c st res) (msixPba c.fn) (ringBind d c.fn c.cq) = true := by
  have hbind := ringBind_entryWritten (c := c) (st := st) (res := res) w
  have h := ringIrq_pends (d := entryWritten d c st res) (fn := c.fn) (r := c.cq) (entryWritten_wf w)
    (by rwa [ringCfg_entryWritten w])
    (by
      unfold getB at hm ⊢
      rwa [hbind, msixReg_entryWritten w hfn hcq])
    (by rwa [hbind])
  rwa [hbind] at h

/-! ### The bytes of an entry -/

theorem leNat_append (a b : List Byte) : leNat (a ++ b) = leNat a + 256 ^ a.length * leNat b := by
  induction a with
  | nil => simp [leNat]
  | cons x a ih =>
    simp only [List.cons_append, leNat, ih, List.length_cons]
    rw [Nat.mul_add, ← Nat.mul_assoc, ← Nat.pow_succ', Nat.add_assoc]

theorem leNat_lt (l : List Byte) : leNat l < 256 ^ l.length := by
  induction l with
  | nil => simp [leNat]
  | cons x l ih =>
    have hx := x.isLt
    simp only [leNat, List.length_cons, Nat.pow_succ]
    omega

theorem length_padTo (bs : List Byte) (n : Nat) : (padTo bs n).length = n := by
  unfold padTo
  simp
  omega

/-- Tag, status and phase of an entry. -/
theorem leNat_entryHead {tag : Nat} (htag : tag < 65536) (hst : st < 256) (p : Byte) :
    leNat (leBytes tag 2 ++ [BitVec.ofNat 8 st, p]) = tag + 65536 * st + 2 ^ 24 * p.toNat := by
  simp only [leBytes, List.cons_append, List.nil_append, leNat, BitVec.toNat_ofNat]
  omega

theorem entryBytes_toNat (size index : Nat) {tag : Nat} (htag : tag < 65536) (hst : st < 256) :
    (entryBytes size index tag st res).toNat =
      tag + 65536 * st + 2 ^ 24 * (if index / size % 2 = 0 then 1 else 0) + 2 ^ 32 * leNat (padTo res 12) := by
  have hres := leNat_lt (padTo res 12)
  rw [length_padTo] at hres
  have hphase : (if index / size % 2 = 0 then 1 else 0 : Byte).toNat = if index / size % 2 = 0 then 1 else 0 := by split <;> rfl
  unfold entryBytes
  rw [BitVec.toNat_ofNat, leNat_append, leNat_entryHead htag hst, hphase]
  have hlen : (leBytes tag 2 ++ [BitVec.ofNat 8 st, if index / size % 2 = 0 then 1 else 0]).length = 4 := rfl
  rw [hlen]
  have hbit : (if index / size % 2 = 0 then 1 else 0) ≤ 1 := by split <;> decide
  omega

/-- Settles O22: the ways out of `finish`, what an entry and its interrupt leave by `entryCompleted_out` and `reg_entryCompleted`, the bytes by
`entryBytes_toNat`. -/
theorem completionsWriteOneEntry : Obligations.CompletionsWriteOneEntry := by
  unfold Obligations.CompletionsWriteOneEntry
  refine ⟨?_, ?_, ?_, ?_, ?_, ?_⟩
  · intro d c st res
    rw [finish_accepted]
    refine ⟨fun x hx => ?_, fun x hx hid => List.mem_filter.2 ⟨hx, by simpa using hid⟩, finish_reserved⟩
    obtain ⟨hmem, hid⟩ := List.mem_filter.1 hx
    exact ⟨by simpa using hid, hmem⟩
  · intro d c st res w hkept hcq hfn hr hs
    rw [finish_entry hkept hs hcq]
    refine ⟨entryCompleted_out (d := withReturned d c) w hfn hr, ringHead_entryCompleted (d := withReturned d c) w hfn hr,
      entryCompleted_pends (d := withReturned d c) w hfn hr, fun b hhead hpba => ?_⟩
    exact (reg_entryCompleted (d := withReturned d c) w hfn hr hpba).trans (reg_entryWritten_other (d := withReturned d c) w hhead)
  · intro d c st res hkept hs hok
    rw [finish_silent hkept ⟨hs, hok⟩]
    exact ⟨rfl, rfl⟩
  · intro d c st res hkept hl hs
    rw [finish_lost hkept hs hl]
    refine ⟨rfl, fun w b hb => ?_⟩
    have wl : spWf (satF (withReturned d c) (ringReg c.fn c.cq 0x14) 16 16 1).regs = true := setF_wf (d := withReturned d c) w _ _ _ _
    exact (reg_putB_other wl hb true).trans (reg_setF_other (d := withReturned d c) w hb _ _ _)
  · intro d c st res hdiscard
    rw [finish_discard hdiscard]
    rfl
  · intro size index tag st res htag hst _
    exact entryBytes_toNat size index htag hst

end Sys2Proof.Machine
end

section
/-! Units stop, start, fault and time out (R76, R77, R132, R364). -/
namespace Sys2Proof.Machine
variable {d : Dev} {s : State} {c : Cmd} {a : Act} {u : UnitId} {fn ring : Nat}

/-! ### UNIT_STOP and UNIT_START once their checks pass -/

theorem unitStopAct_ok (ha : unitStopAct d c = .ok a) :
    a = if uState d (dUnit c.desc) = 2 then .wait (setUState d (dUnit c.desc) 3)
      else if uState d (dUnit c.desc) = 1 ∨ uState d (dUnit c.desc) = 3 then .wait d
      else .done (resetUnit d (dUnit c.desc)) [] := by
  obtain ⟨_, -, ha⟩ := bind_ok ha
  obtain ⟨_, -, ha⟩ := bind_ok ha
  split at ha
  · cases ha
  · next h => rw [h]; exact (Except.ok.inj ha).symm
  · next h => rw [h]; exact (Except.ok.inj ha).symm
  · next h => rw [h]; exact (Except.ok.inj ha).symm
  · next h1 h2 h3 =>
    split at ha
    · rw [if_neg h2, if_neg (fun h => h.elim h1 h3)]
      exact (Except.ok.inj ha).symm
    · cases ha

/-- A STOPPED unit that starts, a compositor with its band pool booked. -/
def startedUnit (d : Dev) (u : UnitId) : Dev := startUnit (if u.cls = 3 then bookPool d u.quarter u.index none else d) u false

theorem unitStartAct_ok (ha : unitStartAct d c = .ok a) :
    a = .wait (if uState d (dUnit c.desc) = 0 then startedUnit d (dUnit c.desc) else d) := by
  obtain ⟨_, -, ha⟩ := bind_ok ha
  obtain ⟨_, -, ha⟩ := bind_ok ha
  split at ha
  · next h =>
    obtain ⟨_, -, ha⟩ := bind_ok ha
    obtain ⟨_, -, ha⟩ := bind_ok ha
    rw [if_pos h]
    exact (Except.ok.inj ha).symm
  · next h => rw [if_neg (by omega)]; exact (Except.ok.inj ha).symm
  all_goals cases ha

/-- A UNIT_START that passes its checks leaves cfg_bad. -/
theorem flagCfgBad_passes (h : readyCmd d 0x61 fn ring = some c) (ha : unitStartAct d c = .ok a) : flagCfgBad d fn ring = d := by
  unfold flagCfgBad
  rw [h]
  dsimp only
  rw [ha]

/-! ### The states that units reach -/

theorem exec_unitStopped (hp : unitPresent s.dev.variant u = true) (hs : uState s.dev u = 3) (hi : unitIdle s.dev u = true)
    (hh : halted s.dev = false) : exec (.unitStopped u) s = nextWith s (reachStopped s.dev u) :=
  congrArg (nextWith s) (if_pos (by simp [hp, hs, hi, hh]))

theorem exec_unitRunning (hp : unitPresent s.dev.variant u = true) (hs : uState s.dev u = 1) (hsteps : ∀ p ∈ s.dev.sys.steps, p.kind ≠ 1)
    (hh : halted s.dev = false) : exec (.unitRunning u) s = nextWith s (reachRunning s.dev u) := by
  have hdone (v : UnitId) : (s.dev.sys.steps.any fun p => p.unit == v && p.kind == 1) = false := by
    rw [List.any_eq_false]
    intro p hp
    simp [hsteps p hp]
  exact congrArg (nextWith s) (if_pos (by simp [hp, hs, hh, hdone]))

/-! ### The limit on waiting -/

/-- The parts that events and completions may write. -/
abbrev reports : Piece → Prop := (· ∈ [Piece.regs, Piece.out, Piece.hif])

theorem changes_of_reports {b : Dev} (h : Only reports d b) : b.sys.changes = d.sys.changes := by
  have hrest := congrArg SysSt.changes (h.sys (by decide))
  exact hrest

theorem raise_reports (d : Dev) (e : Ev) : Only reports d (raise d e) := by
  apply raise_only (h := Only.refl d) <;> decide

theorem finish_reports (d : Dev) (c : Cmd) (st : Nat) (res : List Byte) : Only reports d (finish d c st res) := by
  apply finish_only (h := Only.refl d) <;> decide

/-- A failure leaves the mode changes in progress. -/
theorem failCmd_changes (d : Dev) (c : Cmd) (f : Fail) : (failCmd d c f).sys.changes = d.sys.changes := by
  have hcounts : (f.counts.foldl (fun d a => cnt d a 1) d).sys.changes = d.sys.changes := by
    induction f.counts generalizing d with
    | nil => rfl
    | cons a l ih => exact ih (cnt d a 1)
  have hevs : (f.evs.foldl raise (f.counts.foldl (fun d a => cnt d a 1) d)).sys.changes = d.sys.changes :=
    (changes_of_reports (Only.foldl (Only.refl _) fun b e h => h.trans (raise_reports b e))).trans hcounts
  unfold failCmd
  dsimp only
  rw [changes_of_reports (finish_reports _ _ _ _)]
  split
  · exact hevs
  · exact hevs

theorem settleN_changes (n : Nat) (d : Dev) : (settleN n d).sys.changes = d.sys.changes := by
  induction n generalizing d with
  | zero => rfl
  | succ n ih =>
    unfold settleN
    split
    · rfl
    · rw [ih, failCmd_changes]

theorem settle_changes (d : Dev) : (settle d).sys.changes = d.sys.changes := settleN_changes _ d

theorem failId_found {id : Nat} {f : Fail} (h : findCmd d id = some c) : failId d id f = settle (failCmd d c f) := by
  simp only [failId, h]

/-- The only command that waits on the unit ends once it has waited for the limit. -/
theorem timeoutUnit_one (hch : d.sys.changes = []) (hone : unitCmds d 0x60 u ++ unitCmds d 0x61 u = [c]) (hf : findCmd d c.id = some c)
    (hlim : getF d 0x80 0 16 ≤ c.strides) : timeoutUnit d u =
      settle (finish (raise d (evUnit u 0x107 1 [(4, dNum c.desc 8 4), (1, uState d u)])) c ST_TIMEOUT []) := by
  unfold timeoutUnit
  dsimp only
  rw [hone]
  simp only [List.foldl_cons, List.foldl_nil]
  rw [if_pos hlim, failId_found hf, settle_changes, failCmd_changes, hch]
  rfl

/-! ### Faults -/

theorem exec_unitFault (hp : unitPresent s.dev.variant u = true) (hs : uState s.dev u ≠ 4) (hh : halted s.dev = false) :
    exec (.unitFault u) s = nextWith s (faultUnit (if u.cls = 1 then cancelTeam s.dev u.quarter u.index else s.dev) u) :=
  congrArg (nextWith s) (if_neg (by simp [hp, hs, hh]))

theorem exec_teamMemUe (q : Fin 4) (t : Fin 8) (off : Nat) (hp : unitPresent s.dev.variant ⟨1, q, t⟩ = true) (hh : halted s.dev = false) :
    exec (.teamMemUe q t off) s = nextWith s (faultUnit (cancelTeam (raise (putB (satF s.dev (TEAM q t + 0x10) 16 16 1) (TEAM q t + 0xC) 8 true)
      (evUnit ⟨1, q, t⟩ 0x303 2 [(1, q.val), (1, t.val), (4, off)])) q t) ⟨1, q, t⟩) :=
  congrArg (nextWith s) (if_neg (by simp [hp, hh]))

/-- Settles O26: the commands by `unitStopAct_ok` and `unitStartAct_ok`, the limit by `timeoutUnit_one`, each other command by its guard. -/
theorem unitsStopStartFault : Obligations.UnitsStopStartFault := by
  unfold Obligations.UnitsStopStartFault
  refine ⟨?_, ?_, ?_, ?_, ?_, ?_, ?_⟩
  · intro s fn ring c r hp
    obtain ⟨_, ha⟩ := checksPass_ok hp
    obtain rfl := unitStopAct_ok ha
    dsimp only
    split at ha
    · next h => rw [if_pos h]; exact exec_wait rfl r ha
    · next h =>
      rw [if_neg h]
      split at ha
      · next h => rw [if_pos h]; exact exec_wait rfl r ha
      · next h => rw [if_neg h]; exact exec_done rfl r ha
  · intro s fn ring c r hp
    obtain ⟨_, ha⟩ := checksPass_ok hp
    have hrow : exec (.unitStart fn ring) s = nextWith s (runCmd 0x61 fn ring unitStartAct s.dev) :=
      congrArg (fun d => nextWith s (runCmd 0x61 fn ring unitStartAct d)) (flagCfgBad_passes r.ready ha)
    obtain rfl := unitStartAct_ok ha
    rw [exec_wait hrow r ha]
    dsimp only
    split
    · rfl
    · rfl
  · intro s u hp hs hi hh
    exact exec_unitStopped hp hs hi hh
  · intro s u hp hs hsteps hh
    exact exec_unitRunning hp hs hsteps hh
  · intro s u c hp hh hch hone hf hlim
    have hrow : exec (.unitCmdTimeout u) s = nextWith s (timeoutUnit s.dev u) := congrArg (nextWith s) (if_pos (by simp [hp, hh]))
    rw [hrow, timeoutUnit_one hch hone hf hlim]
  · intro s u hp hs hh
    exact exec_unitFault hp hs hh
  · intro s q t off hp hh
    exact exec_teamMemUe q t off hp hh

end Sys2Proof.Machine
end

section
/-! The Dealer's ring commands: flows, cards and their cancelling (R82 to R84, R89, R99, R103, R345). -/
namespace Sys2Proof.Machine
variable {s : State} {d : Dev} {c : Cmd} {i : Instr} {op fn ring h slot : Nat} {act : Dev → Cmd → Except Fail Act} {a : Act}

theorem exec_stay (he : exec i s = nextWith s (runCmd op fn ring act s.dev)) (r : Runs s.dev op fn ring c)
    (ha : act s.dev c = .ok (.stay d)) : exec i s = nextWith s d := by
  rw [he, runCmd_stay r ha]

/-! ### What a flow's handle and a card's slot name -/

theorem findFlow_id {f : Flow} (hf : findFlow d h = some f) : f.id = h := by simpa using List.find?_some hf

theorem findCard_slot {k : Card} (hf : findCard d slot = some k) : k.slot = slot := by simpa using List.find?_some hf

theorem flowOf_ok {f : Flow} {opened : Bool} (hf : flowOf d fn h opened = .ok f) : findFlow d h = some f ∧ f.host = true ∧ f.fn = fn := by
  unfold flowOf at hf
  split at hf
  · split at hf
    · next hfind hown =>
      cases hf
      simp only [Bool.and_eq_true, beq_iff_eq] at hown
      exact ⟨hfind, hown.1⟩
    · cases hf
  · cases hf

/-! ### FLOW_CREATE (R89) -/

def newFlow (c : Cmd) (n : Nat) : Flow :=
  { id := mkHandle 9 n, fn := c.fn, session := dHandle c.desc, host := true, ordered := dBits c.desc 8 0 1 == 1, limit := dNum c.desc 12 4 }
/-- The device with a host flow added and booked in the ledger of flows. -/
def withFlow (d : Dev) (c : Cmd) (n : Nat) : Dev := ledgTake { d with dlr := { d.dlr with flows := d.dlr.flows ++ [newFlow c n] } } 2 0 1

theorem flowCreateAct_ok (ha : flowCreateAct d c = .ok a) :
    ∃ n, freeIndex ((d.dlr.flows.filter Flow.host).map fun f => hIndex f.id) d.variant.capFlows = some n ∧
      a = .done (withFlow d c n) (leBytes (mkHandle 9 n) 4) := by
  obtain ⟨x, hx, ha⟩ := bind_ok ha
  obtain ⟨_, -, ha⟩ := bind_ok ha
  rw [findSession_handle (openSession_ok hx).1] at ha
  split at ha
  · cases ha
  · next n hn => exact ⟨n, hn, (Except.ok.inj ha).symm⟩

/-- The index of a new flow is below the capacity, and no host flow has its handle. -/
theorem new_flow_handle {n : Nat} (hn : freeIndex ((d.dlr.flows.filter Flow.host).map fun f => hIndex f.id) d.variant.capFlows = some n) :
    n < d.variant.capFlows ∧ ∀ f ∈ d.dlr.flows, f.host = true → f.id ≠ mkHandle 9 n := by
  obtain ⟨hcap, hfree⟩ := freeIndex_some hn
  refine ⟨hcap, fun f hf hhost heq => hfree (List.mem_map.2 ⟨f, List.mem_filter.2 ⟨hf, hhost⟩, ?_⟩)⟩
  rw [heq, hIndex_mkHandle 9 (Nat.lt_of_lt_of_le hcap (kindCap_le d.variant 9))]

/-! ### Cards that take a slot or wait for one (R83, R99) -/

/-- What CARD_SUBMIT and DMA_CHAIN do with the card that they make for a slot: store it, or wait for a credit and a slot. -/
def submits (d : Dev) (c : Cmd) (flow : Nat) (card : Nat → Card) : Except Fail Act :=
  if !hasCredit d (.fn c.fn) flow then .ok (waitCredit d c)
  else match freeSlot d with
    | none => .ok (waitCredit d c)
    | some slot => .ok (.done (storeCard d (card slot)) (leBytes (cardHandle slot) 4))

theorem submits_stores {flow : Nat} (card : Nat → Card) (hc : hasCredit d (.fn c.fn) flow = true) (hs : freeSlot d = some slot) :
    submits d c flow card = .ok (.done (storeCard d (card slot)) (leBytes (cardHandle slot) 4)) := by
  simp [submits, hc, hs]

theorem submits_waits {flow : Nat} (card : Nat → Card) (hw : hasCredit d (.fn c.fn) flow = false ∨ freeSlot d = none) :
    submits d c flow card = .ok (waitCredit d c) := by
  rcases hw with hc | hs
  · simp [submits, hc]
  · simp [submits, hs]

/-- A word field of a descriptor keeps its value in a register. -/
theorem wd_dNum_toNat (x : Desc) (at0 : Nat) : (wd (dNum x at0 4)).toNat = dNum x at0 4 :=
  Nat.mod_eq_of_lt (Nat.mod_lt _ (by decide))

/-- The card of a CARD_SUBMIT in a slot (R82). -/
def submittedCard (c : Cmd) (slot : Nat) : Card :=
  let x := c.desc
  { slot := slot, seq := 0, cls := dBits x 8 0 2, notify := dBits x 8 2 1 == 1, nbEn := dBits x 8 3 1 == 1, notBefore := wd (dNum x 16 4),
    exec := dByte x 9, quarter := dByte x 10, team := dByte x 11, deadline := wd (dNum x 12 4), counter := dByte x 20,
    succ := (succEntries x 32 (dBits x 21 0 4)).map hIndex, flow := dHandle x, fn := c.fn, source := .fn c.fn, owner := dHandle x,
    work := if dByte x 9 = 0 then .relay else .kernel (wd (dNum x 24 4)) (wd (dNum x 28 4)) }

theorem cardSubmitAct_passes (hp : checksPass (cardSubmitAct d c) = true) :
    cardSubmitAct d c = submits d c (dHandle c.desc) (submittedCard c) := by
  obtain ⟨_, ha⟩ := checksPass_ok hp
  rw [ha]
  obtain ⟨f, hf, ha⟩ := bind_ok ha
  obtain ⟨_, -, ha⟩ := bind_ok ha
  rw [findFlow_id (flowOf_ok hf).1] at ha
  exact ha.symm

/-- The card of a DMA_CHAIN in a slot (R345). -/
def chainCard (bs : List Byte) (c : Cmd) (slot : Nat) : Card :=
  let x := c.desc
  { slot := slot, seq := 0, cls := dBits x 8 0 2, notify := dBits x 8 2 1 == 1, nbEn := dBits x 8 3 1 == 1, notBefore := wd (dNum x 16 4),
    exec := 6, quarter := dByte x 9, unit := dByte x 10, deadline := wd (dNum x 12 4), counter := dByte x 20,
    succ := (succEntries x 44 (dBits x 21 0 3)).map hIndex, flow := dNum x 40 4, fn := c.fn, source := .fn c.fn, owner := dNum x 40 4,
    work := .dma ((chainOf bs (dNum x 22 2)).map Prod.fst) (dNum x 32 8) }

theorem dmaChainAct_passes {bs : List Byte} (hp : checksPass (dmaChainAct (.ok bs) d c) = true) :
    dmaChainAct (.ok bs) d c = submits d c (dNum c.desc 40 4) (chainCard bs c) := by
  obtain ⟨_, ha⟩ := checksPass_ok hp
  rw [ha]
  obtain ⟨_, -, ha⟩ := bind_ok ha
  obtain ⟨f, hf, ha⟩ := bind_ok ha
  obtain ⟨_, -, ha⟩ := bind_ok ha
  obtain ⟨_, -, ha⟩ := bind_ok ha
  obtain ⟨_, -, ha⟩ := bind_ok ha
  rw [findFlow_id (flowOf_ok hf).1] at ha
  exact ha.symm

/-! ### CARD_CANCEL (R103) -/

/-- A card not yet dealt retires as cancelled, one in service or FINISHED is asked to, of a ZOMBIE nothing is left to cancel. -/
def cancels (d : Dev) (c : Cmd) (k : Card) : Act :=
  if k.state = .waiting ∨ k.state = .ready then .done (runTasks d [.retire k.slot 2 (dBits c.desc 8 0 1 == 1)]) [0]
  else if k.state = .zombie then .done d [2]
  else .wait (putCard d { k with cancelCmds := k.cancelCmds ++ [c.id] })

theorem cardCancelAct_ok {k : Card} (hk : findCard d (hIndex (dHandle c.desc)) = some k) (ha : cardCancelAct d c = .ok a) :
    a = cancels d c k := by
  obtain ⟨x, hx, ha⟩ := bind_ok ha
  obtain ⟨_, -, ha⟩ := bind_ok ha
  rw [hk] at hx
  dsimp only at hx
  split at hx
  · cases hx
    unfold cancels
    cases hst : k.state <;> rw [hst] at ha <;> exact (Except.ok.inj ha).symm
  · cases hx

/-- Settles O34: the new handle by `new_flow_handle`, a stored or waiting card by `submits_stores` and `submits_waits`,
each command by what its checks leave (the lemmas `…Act_ok` and `…Act_passes`). -/
theorem flowsAndCardsComplete : Obligations.FlowsAndCardsComplete := by
  unfold Obligations.FlowsAndCardsComplete
  refine ⟨?_, ?_, ?_, ?_, ?_⟩
  · intro s fn ring c r hp
    obtain ⟨_, ha⟩ := checksPass_ok hp
    obtain ⟨n, hn, rfl⟩ := flowCreateAct_ok ha
    obtain ⟨hcap, hnew⟩ := new_flow_handle hn
    exact ⟨n, hcap, hnew, exec_done rfl r ha⟩
  · intro s fn ring c slot r hp hc hs
    have ha := (cardSubmitAct_passes hp).trans (submits_stores _ hc hs)
    exact ⟨submittedCard c slot, exec_done rfl r ha, rfl, rfl, rfl, rfl, rfl, wd_dNum_toNat c.desc 12, rfl, rfl, rfl, rfl⟩
  · intro s fn ring c r hp hw
    exact exec_stay rfl r ((cardSubmitAct_passes hp).trans (submits_waits _ hw))
  · intro s fn ring bs c slot r hp hc hs
    have ha := (dmaChainAct_passes hp).trans (submits_stores _ hc hs)
    exact ⟨chainCard bs c slot, exec_done rfl r ha, rfl, rfl, rfl, rfl, rfl, rfl, rfl⟩
  · intro s fn ring c k r hp hk
    obtain ⟨_, ha⟩ := checksPass_ok hp
    rw [cardCancelAct_ok hk ha, cancels] at ha
    split
    · next hnew => rw [if_pos hnew] at ha; exact exec_done rfl r ha
    · next hnew =>
      rw [if_neg hnew] at ha
      split
      · next hz => rw [if_pos hz] at ha; exact exec_done rfl r ha
      · next hz => rw [if_neg hz] at ha; exact exec_wait rfl r ha

end Sys2Proof.Machine
end

section
/-! A media core's instruction at issue: which act its row issues, and what the act leaves of the device (R107, R125, R128). -/
namespace Sys2Proof.Machine
variable {s : State} {d d' : Dev} {i : Issue} {c : Instr} {act : Dev → Core → IRes} {es : List CEff}

/-! ### The ways an issue ends -/

/-- The bundle's end, where the instruction is its last. -/
def closeAt (d : Dev) (i : Issue) : Dev := if i.last then closeBundle d i.core.val else d

/-- The instruction has no guard, or its guard holds (R107). -/
def guardHolds (x : Core) (i : Issue) : Bool :=
  match i.guard with
  | none => true
  | some (p, v) => rdP x p == v

/-- What the core does with what an instruction answers. -/
def answered (d : Dev) (i : Issue) : IRes → Dev
  | .stall => d
  | .fault code addr => faulted d i code addr
  | .ok d es => bundled d i es

/-- An instruction that the core fetches: what its guard and an earlier DONE leave of it. -/
theorem issue_fetched (hr : coreRuns d (findCore d i.core.val) = true)
    (hf : (findCore d i.core.val).issuing = true ∨ badFetch d (findCore d i.core.val) = false) :
    issue d i act =
      if !guardHolds (findCore d i.core.val) i || (findCore d i.core.val).buf.any CEff.isDone then
        closeAt (putCore d { findCore d i.core.val with issuing := true }) i
      else answered d i (act d (findCore d i.core.val)) := by
  have hbad : (!(findCore d i.core.val).issuing && badFetch d (findCore d i.core.val)) = false := by
    rcases hf with hf | hf <;> simp [hf]
  unfold issue
  dsimp only
  rw [hr, hbad]
  rfl

theorem guardHolds_iff {x : Core} : guardHolds x i = true ↔ ∀ p v, i.guard = some (p, v) → rdP x p = v := by
  unfold guardHolds
  split
  · next hg => simp [hg]
  · next p v hg => simp [hg]

/-- The core executes the instruction. -/
theorem issue_acts (h : Issues d i) : issue d i act = answered d i (act d (findCore d i.core.val)) := by
  rw [issue_fetched h.runs h.fetch, guardHolds_iff.2 h.guard, h.live]
  rfl

/-- An instruction whose guard fails, or behind a DONE, leaves the core in its bundle. -/
theorem issue_skips (hr : coreRuns d (findCore d i.core.val) = true) (hi : (findCore d i.core.val).issuing = true)
    (hl : i.last = false)
    (hskip : guardHolds (findCore d i.core.val) i = false ∨ (findCore d i.core.val).buf.any CEff.isDone = true) :
    issue d i act = putCore d { findCore d i.core.val with issuing := true } := by
  rw [issue_fetched hr (.inl hi), if_pos, closeAt, hl]
  · rfl
  · rcases hskip with hg | hd
    · simp [hg]
    · simp [hd]

theorem exec_bundled (he : exec c s = nextWith s (issue s.dev i act)) (h : Issues s.dev i)
    (ha : act s.dev (findCore s.dev i.core.val) = .ok d es) : exec c s = nextWith s (bundled d i es) := by
  rw [he, issue_acts h, ha]
  rfl

theorem exec_faulted {code : Nat} {addr : Word} (he : exec c s = nextWith s (issue s.dev i act)) (h : Issues s.dev i)
    (ha : act s.dev (findCore s.dev i.core.val) = .fault code addr) : exec c s = nextWith s (faulted s.dev i code addr) := by
  rw [he, issue_acts h, ha]
  rfl

/-! ### Vector operations -/

/-- Only a shift leaves a lane without a stated value. -/
theorem vLane_isSome {op : VOp} (h1 : op ≠ .shl) (h2 : op ≠ .asr) (w : Nat) (a b : Int) : (vLane op w a b).1.isSome = true := by
  cases op
  case shl => exact absurd rfl h1
  case asr => exact absurd rfl h2
  all_goals rfl

/-- A shift never saturates. -/
theorem vLane_shift_noSat {op : VOp} (h : op = .shl ∨ op = .asr) (w : Nat) (a b : Int) : (vLane op w a b).2 = false := by
  rcases h with rfl | rfl <;> rfl

/-- A shift by less than the lane's width. -/
theorem vLane_shift {op : VOp} (h : op = .shl ∨ op = .asr) {w : Nat} (a : Int) {b : Int} (h0 : 0 ≤ b) (hw : b < w) :
    (vLane op w a b).1 = some (if op = .shl then a * 2 ^ b.toNat else a / 2 ^ b.toNat) := by
  rcases h with rfl | rfl <;> simp [vLane, h0, hw]

theorem nth_lanes {n : Nat} (w : Nat) {k j : Nat} (v : BitVec n) (hj : j < k) : nth (lanes w k v) j 0 = lane w j v := by
  simp [nth, lanes, hj]

theorem length_lanes {n : Nat} (w k : Nat) (v : BitVec n) : (lanes w k v).length = k := by simp [lanes]

theorem nth_vLanes (op : VOp) (w : Nat) (free : BitVec 256) {as bs : List Int} {j : Nat} (hj : j < as.length) :
    nth (vLanes op w free as bs) j 0 = ((vLane op w (nth as j 0) (nth bs j 0)).1).getD (lane w j free) := by
  simp [nth, vLanes, hj]

/-- Lanes with a stated value each, taken pairwise. -/
theorem vLanes_stated {op : VOp} (h1 : op ≠ .shl) (h2 : op ≠ .asr) (w : Nat) (free : BitVec 256) {as bs : List Int}
    (hlen : as.length = bs.length) :
    vLanes op w free as bs = (List.zipWith (vLane op w) as bs).map fun r => r.1.getD 0 := by
  refine List.ext_getElem (by simp [vLanes, hlen]) fun j hj _ => ?_
  have hja : j < as.length := by simpa [vLanes] using hj
  have hjb : j < bs.length := hlen ▸ hja
  obtain ⟨v, hv⟩ := Option.isSome_iff_exists.1 (vLane_isSome h1 h2 w as[j] bs[j])
  simp [vLanes, nth, hja, hjb, hv]

/-- A vector operation other than a shift states every lane. -/
theorem valuInstr_stated {op : VOp} {half : Bool} {dst s1 s2 : Fin 32} (h1 : op ≠ .shl) (h2 : op ≠ .asr) (d : Dev) (x : Core) :
    valuInstr op half dst s1 s2 d x =
      .ok d (let rs := List.zipWith (vLane op (dw half)) (lanes (dw half) (dn half) (rdD x s1)) (lanes (dw half) (dn half) (rdD x s2))
             .write 3 (resD x 0 dst (dw half) (rs.map fun r => r.1.getD 0)) :: if rs.any (fun r => r.2) then [.sat] else []) := by
  have hsome : (List.zipWith (vLane op (dw half)) (lanes (dw half) (dn half) (rdD x s1)) (lanes (dw half) (dn half) (rdD x s2))).any
      (fun r => r.1.isNone) = false := by
    rw [List.any_eq_false]
    intro r hr
    obtain ⟨j, hj, rfl⟩ := List.getElem_of_mem hr
    obtain ⟨v, hv⟩ := Option.isSome_iff_exists.1 (vLane_isSome h1 h2 (dw half)
      ((lanes (dw half) (dn half) (rdD x s1))[j]'(by simp at hj; omega)) ((lanes (dw half) (dn half) (rdD x s2))[j]'(by simp at hj; omega)))
    simp [hv]
  unfold valuInstr
  dsimp only
  rw [hsome, vLanes_stated h1 h2 _ _ ((length_lanes _ _ _).trans (length_lanes _ _ _).symm)]
  rfl

/-- The free lanes that a shift may draw on. -/
def shiftDraw (op : VOp) (half : Bool) (s1 s2 : Fin 32) (d : Dev) (x : Core) : BitVec 256 × Dev :=
  if (List.zipWith (vLane op (dw half)) (lanes (dw half) (dn half) (rdD x s1)) (lanes (dw half) (dn half) (rdD x s2))).any
    (fun r => r.1.isNone) then drawFree d 256 else (0, d)

theorem shiftDraw_frame (op : VOp) (half : Bool) (s1 s2 : Fin 32) (d : Dev) (x : Core) :
    (shiftDraw op half s1 s2 d x).2 = { d with freeCtr := (shiftDraw op half s1 s2 d x).2.freeCtr } := by
  unfold shiftDraw
  split <;> rfl

theorem valuInstr_shift {op : VOp} {half : Bool} {dst s1 s2 : Fin 32} (h : op = .shl ∨ op = .asr) (d : Dev) (x : Core) :
    valuInstr op half dst s1 s2 d x = .ok (shiftDraw op half s1 s2 d x).2
      [.write 3 (resD x 0 dst (dw half) (vLanes op (dw half) (shiftDraw op half s1 s2 d x).1
        (lanes (dw half) (dn half) (rdD x s1)) (lanes (dw half) (dn half) (rdD x s2))))] := by
  have hsat : (List.zipWith (vLane op (dw half)) (lanes (dw half) (dn half) (rdD x s1)) (lanes (dw half) (dn half) (rdD x s2))).any
      (fun r => r.2) = false := by
    rw [List.any_eq_false]
    intro r hr
    obtain ⟨j, hj, rfl⟩ := List.getElem_of_mem hr
    simp [vLane_shift_noSat h]
  unfold valuInstr
  dsimp only
  rw [hsat]
  rfl

/-- A lane shifted by a number that is within its width. -/
theorem nth_vLanes_shift {op : VOp} (h : op = .shl ∨ op = .asr) {half : Bool} {j : Nat} (free a b : BitVec 256) (hj : j < dn half)
    (h0 : 0 ≤ lane (dw half) j b) (hw : lane (dw half) j b < dw half) :
    nth (vLanes op (dw half) free (lanes (dw half) (dn half) a) (lanes (dw half) (dn half) b)) j 0 =
      if op = .shl then lane (dw half) j a * 2 ^ (lane (dw half) j b).toNat else lane (dw half) j a / 2 ^ (lane (dw half) j b).toNat := by
  rw [nth_vLanes _ _ _ (by rwa [length_lanes]), nth_lanes _ _ hj, nth_lanes _ _ hj, vLane_shift h _ h0 hw]
  rfl

/-! ### The other instructions -/

theorem tapmInstr_setA {half clear : Bool} {n : Fin 8} {dS dT dC : Fin 32} {k : Fin 16} {x : Core} (ho : opset d x.id = 0)
    (hk : k.val < dn half) (hne : dS ≠ dT) :
    tapmInstr clear half n dS dT dC k d x = .ok d
      (let sl := lanes (dw half) (dn half) (rdD x dS)
       let tl := lanes (dw half) (dn half) (rdD x dT)
       [.write 2 (accRes half clear n.val (sl.map (· * lane (dw half) k.val (rdD x dC)))),
        .write 2 (resD x 0 dS (dw half) (nth tl (dn half - 1) 0 :: sl.take (dn half - 1))),
        .write 2 (resD x 0 dT (dw half) (0 :: tl.take (dn half - 1)))]) := by
  unfold tapmInstr
  rw [if_neg (by simp [ho]), if_neg (by omega)]
  exact if_neg hne

theorem extInstr_inRange {half : Bool} {dst : Fin 32} {n : Fin 8} {sh : ScSrc} {x : Core}
    (h : (rdS x sh).toNat < if half then 32 else 64) :
    extInstr half dst n sh d x = .ok d
      (let ps := (lanes (xw half) (dn half) (rdX x n)).map fun v => extLane v (rdS x sh).toNat (dw half)
       .write 3 (resD x 1 dst (dw half) (ps.map Prod.fst)) :: satEff ps) :=
  if_neg (by omega)

theorem setB_configured {x : Core} (h : opset d x.id = 1) (r : IRes) : setB d x r = r := if_pos h
theorem setB_illegal {x : Core} (h : opset d x.id = 0) (r : IRes) : setB d x r = .fault F_ILLEGAL 0 := if_neg (by simp [h])

theorem normxInstr_setB {half : Bool} {dst e : Fin 32} {n : Fin 8} {x : Core} (ho : opset d x.id = 1) (hne : dst ≠ e) :
    normxInstr half dst e n d x = .ok d
      (let vs := lanes (xw half) (dn half) (rdX x n)
       let ps := List.zipWith (normLane half) vs (vs.map (expLane half))
       .write 3 (resD x 1 e (dw half) (vs.map (expLane half))) :: .write 3 (resD x 1 dst (dw half) (ps.map Prod.fst)) :: satEff ps) := by
  unfold normxInstr
  rw [setB_configured ho]
  exact if_neg hne

theorem scalarInstr_stated {op : SOp} {dst s1 : Fin 16} {s2 : ScSrc} {x : Core} {v : Word}
    (h : scalarVal op (nth x.s s1.val 0) (rdS x s2) = some v) : scalarInstr op dst s1 s2 d x = .ok d [.write 4 (resS dst v)] := by
  unfold scalarInstr
  rw [h]

/-- Settles O36: each instruction by what its act answers (the lemmas `…Instr_…`), which joins the bundle by `exec_bundled`. -/
theorem coreInstructionsJoinTheirBundle : Obligations.CoreInstructionsJoinTheirBundle := by
  unfold Obligations.CoreInstructionsJoinTheirBundle
  refine ⟨?mac, ?tapm, ?valu, ?shift, ?ext, ?exp, ?norm, ?normx, ?scalar, ?cmp, ?amov, ?getd, ?rdflag⟩
  case mac => exact fun s i sub clear half n s1 s2 h => exec_bundled rfl h rfl
  case tapm =>
    intro s i clear half n dS dT dC k h ho hid hk hne
    exact exec_bundled rfl h (tapmInstr_setA (by rwa [hid]) hk hne)
  case valu => exact fun s i op half dst s1 s2 h h1 h2 => exec_bundled rfl h (valuInstr_stated h1 h2 _ _)
  case shift =>
    intro s i op half dst s1 s2 h hop
    exact ⟨_, _, exec_bundled rfl h (valuInstr_shift hop _ _), shiftDraw_frame _ _ _ _ _ _, fun j hj h0 hw =>
      ⟨_, rfl, nth_vLanes_shift hop _ _ _ hj h0 hw⟩⟩
  case ext => exact fun s i half dst n sh h hsh => exec_bundled rfl h (extInstr_inRange hsh)
  case exp => exact fun s i half dst n h ho => exec_bundled rfl h (setB_configured ho _)
  case norm => exact fun s i half dst e n h ho => exec_bundled rfl h (setB_configured ho _)
  case normx => exact fun s i half dst e n h ho hne => exec_bundled rfl h (normxInstr_setB ho hne)
  case scalar => exact fun s i op dst s1 s2 v h hv => exec_bundled rfl h (scalarInstr_stated hv)
  case cmp => exact fun s i op p s1 s2 h => exec_bundled rfl h rfl
  case amov =>
    intro s i file dst src r h hr
    refine exec_bundled rfl h ?_
    simp only [hr]
  case getd => exact fun s i dst w h => exec_bundled rfl h rfl
  case rdflag => exact fun s i dst h => exec_bundled rfl h rfl

end Sys2Proof.Machine
end

section
/-! Frames of a media core's instructions (R107, R122): what the act changes, and what the bundle's end may change after it. -/
namespace Sys2Proof.Machine
variable {s : State} {i : Issue} {c : Instr}

/-- Every instruction of a media core issues an act, which by itself changes only what `changesInBundle` names. -/
theorem exec_coreInstr (h : issueOf c = some i) (s : State) :
    ∃ act, exec c s = nextWith s (issue s.dev i act) ∧ ∀ x, IOnly (· ∈ changesInBundle c) s.dev (act s.dev x) := by
  have same {e : Piece → Prop} {es : List CEff} : IOnly e s.dev (.ok s.dev es) := Only.refl s.dev
  have draws (ps : List Piece) (hp : ps = [.freeCtr, .cores]) : Piece.freeCtr ∈ ps := by simp [hp]
  cases c <;> cases h
  case ldV | ldW | ldBcW =>
    exact ⟨_, rfl, fun x => loadInstr_only (by simp [changesInBundle]) (by simp [changesInBundle]) (by simp [changesInBundle])
      (Only.refl _)⟩
  case stV | stW => exact ⟨_, rfl, fun x => storeInstr_only (Only.refl _)⟩
  case amov =>
    refine ⟨_, rfl, fun x => ?_⟩
    split
    · trivial
    · exact same
  case tapm => exact ⟨_, rfl, fun x => tapmInstr_only (draws _ rfl) (Only.refl _)⟩
  case valuOp => exact ⟨_, rfl, fun x => valuInstr_only (draws _ rfl) (Only.refl _)⟩
  case ext => exact ⟨_, rfl, fun x => extInstr_only (draws _ rfl) (Only.refl _)⟩
  case exp => exact ⟨_, rfl, fun x => expInstr_only (Only.refl _)⟩
  case norm => exact ⟨_, rfl, fun x => normInstr_only (Only.refl _)⟩
  case normx => exact ⟨_, rfl, fun x => normxInstr_only (draws _ rfl) (Only.refl _)⟩
  case scalarOp => exact ⟨_, rfl, fun x => scalarInstr_only (draws _ rfl) (Only.refl _)⟩
  case loop => exact ⟨_, rfl, fun x => loopInstr_only (draws _ rfl) (Only.refl _)⟩
  case rloop => exact ⟨_, rfl, fun x => rloopInstr_only (draws _ rfl) (Only.refl _)⟩
  case spawn => exact ⟨_, rfl, fun x => spawnInstr_only (Only.refl _)⟩
  case lock => exact ⟨_, rfl, fun x => lockInstr_only (by simp [changesInBundle]) (by simp [changesInBundle]) (Only.refl _)⟩
  case branch | signal | done | savectx => exact ⟨_, rfl, fun x => notInLock_only same⟩
  case yield =>
    refine ⟨_, rfl, fun x => notInLock_only ?_⟩
    split
    · exact same
    · trivial
  case mac | cmp | getd | rdflag | fence | unlock => exact ⟨_, rfl, fun x => same⟩

theorem coreInstr_eq (c : Instr) : coreInstr c = (issueOf c).isSome := by cases c <;> rfl

/-- The parts that a media core's instruction may change, at its bundle's end too. -/
def coreParts : List Piece :=
  [.regs, .freeCtr, .out, .hif, .evt, .ldg, .dlr, .cores, .pke, .pad, .local_, .mem, .dma, .fwd, .aud, .vid, .sys]

theorem mayChange_core (h : issueOf c = some i) : mayChange c = coreParts := by
  cases c <;> cases h <;> rfl

theorem changesInBundle_bounds (c : Instr) : .cores ∈ changesInBundle c ∧ ∀ p ∈ changesInBundle c, p ∈ coreParts := by
  unfold changesInBundle
  split <;> decide

theorem IOnly.mono {e e' : Piece → Prop} {a : Dev} {r : IRes} (h : IOnly e a r) (le : ∀ p, e p → e' p) : IOnly e' a r := by
  cases r with
  | stall => trivial
  | fault _ _ => trivial
  | ok d es => exact Only.mono h le

/-- The issue of an act that changes only parts of `coreParts`. -/
theorem issue_coreParts {d : Dev} {act : Dev → Core → IRes} (hact : ∀ x, IOnly (· ∈ coreParts) d (act d x)) :
    Only (· ∈ coreParts) d (issue d i act) := by
  apply issue_only
  case hact => exact hact
  case h => exact Only.refl d
  all_goals decide

/-- A command that comes down to a change of the device has the frame of that change. -/
theorem OnlyPieces.ofDev {ps : List Piece} {d : Dev} (he : exec c s = nextWith s d) (h : Only (· ∈ ps) s.dev d) : OnlyPieces c s ps := by
  refine Only.pieces (fun t ht => ?_) fun t ht => ?_
  · cases he.symm.trans ht
    rfl
  · cases he.symm.trans ht
    exact h

/-- Settles O59: `exec_coreInstr` gives the act; the bundle's end is in `issue_only`, its absence in `issue_nl`. -/
theorem framesOfCoreInstructions : Obligations.FramesOfCoreInstructions := by
  unfold Obligations.FramesOfCoreInstructions
  constructor
  · intro c s hc
    obtain ⟨i, hi⟩ := Option.isSome_iff_exists.1 ((coreInstr_eq c).symm.trans hc)
    obtain ⟨act, he, hact⟩ := exec_coreInstr hi s
    rw [mayChange_core hi]
    exact .ofDev he (issue_coreParts fun x => (hact x).mono (changesInBundle_bounds c).2)
  · intro c s i hi hl hf
    obtain ⟨act, he, hact⟩ := exec_coreInstr hi s
    exact .ofDev he (issue_nl (changesInBundle_bounds c).1 hl hf hact (Only.refl _))

end Sys2Proof.Machine
end

section
/-! Loads, stores, flow and locks of a media core at issue (R108 to R112, R119 to R123). -/
namespace Sys2Proof.Machine
variable {s : State} {d : Dev} {i : Issue} {x : Core} {p : Place} {ea : Ea} {code : Nat} {v : Word}

theorem length_leBytes (n k : Nat) : (leBytes n k).length = k := by
  induction k generalizing n with
  | zero => rfl
  | succ k ih => rw [leBytes, List.length_cons, ih]

/-! ### Loads and stores -/

theorem loadInstr_reads {n : Nat} {f : Core → Nat → CPend} (h : accessCheck x (effAddr x (lsSlot i) ea).1 n = .ok p) :
    loadInstr i ea n false f d x =
      .ok d (.write (lsSlot i) (f x (leNat (coreRead d x p n))) :: touches p ++ (effAddr x (lsSlot i) ea).2) := by
  simp only [loadInstr, h]

theorem loadInstr_faults {n : Nat} {ue : Bool} {f : Core → Nat → CPend} (h : accessCheck x (effAddr x (lsSlot i) ea).1 n = .error (code, v)) :
    loadInstr i ea n ue f d x = .fault code v := by
  simp only [loadInstr, h]

theorem storeInstr_stores {n k : Nat} (h : accessCheck x (effAddr x (lsSlot i) ea).1 k = .ok p)
    (hb : badStore d x (effAddr x (lsSlot i) ea).1.toNat p = false) :
    storeInstr i ea (leBytes n k) d x =
      .ok d (.store (lsSlot i) (effAddr x (lsSlot i) ea).1.toNat (leBytes n k) :: touches p ++ (effAddr x (lsSlot i) ea).2) := by
  simp only [storeInstr, length_leBytes, h, hb, Bool.false_eq_true, if_false]

theorem storeInstr_faults {n k : Nat} (h : accessCheck x (effAddr x (lsSlot i) ea).1 k = .error (code, v)) :
    storeInstr i ea (leBytes n k) d x = .fault code v := by
  simp only [storeInstr, length_leBytes, h]

/-! ### Flow -/

theorem notInLock_free (hh : x.hold = none) (hg : grantedIn x.buf = none) (r : IRes) : notInLock x r = r :=
  if_neg (by simp [hh, hg])
theorem notInLock_held (hh : x.hold ≠ none) (r : IRes) : notInLock x r = .fault F_LOCK_RULE 0 :=
  if_pos (by simp [Option.isSome_iff_ne_none, hh])

theorem loopCount_stated (h : v.toNat < 65536) : loopCount d v = (v.toNat, d) := if_pos h

/-- The hardware loops in use: the rotating loop is none of their three levels (R119). -/
def loopDepth (x : Core) : Nat := (x.loops.filter fun l => !l.rot).length

theorem loopInstr_enters {c : ScSrc} {e : Word} (hh : x.hold = none) (hg : grantedIn x.buf = none) (hd : loopDepth x < 3)
    (hc : (rdS x c).toNat < 65536) : loopInstr c e d x = .ok d [.loop (rdS x c).toNat e] := by
  unfold loopInstr
  rw [notInLock_free hh hg, loopCount_stated hc]
  exact if_neg (Nat.not_le.2 hd)

theorem loopInstr_tooDeep {c : ScSrc} {e : Word} (hh : x.hold = none) (hg : grantedIn x.buf = none) (hd : 3 ≤ loopDepth x) :
    loopInstr c e d x = .fault F_ILLEGAL 0 := by
  unfold loopInstr
  rw [notInLock_free hh hg]
  exact if_pos hd

theorem rloopInstr_enters {c : ScSrc} {st : Nat} {e : Word} (hh : x.hold = none) (hg : grantedIn x.buf = none)
    (hrot : ∀ l ∈ x.loops, l.rot = false) (hst : st ≠ 0) (h0 : (rdS x c).toNat ≠ 0) (hc : (rdS x c).toNat < 65536) :
    rloopInstr c st e d x = .ok d [.rloop (rdS x c).toNat st e] := by
  have hzero : rdS x c ≠ 0 := fun hz => h0 (by rw [hz]; rfl)
  have hany : (x.loops.any fun l => l.rot) = false := by simpa using hrot
  unfold rloopInstr
  rw [notInLock_free hh hg, loopCount_stated hc, if_neg (by simpa [hany, hst] using hzero)]
  dsimp only
  rw [Nat.max_eq_left (by omega)]

theorem spawnInstr_reads {dst : Fin 16} {b a : Fin 8} {off : Nat} (hh : x.hold = none) (hg : grantedIn x.buf = none)
    (hp : place x.id (nth x.a a.val 0).toNat 32 = some (.loc off)) :
    spawnInstr dst b a d x = .ok d [.spawn dst.val b.val (spRead (localMem d x.id) off 32)] := by
  unfold spawnInstr
  dsimp only
  rw [notInLock_free hh hg, hp]

/-! ### Locks -/

/-- The bank that a core without a hold asks for, by what else its bundle holds and by the bank's owner. -/
theorem lockInstr_pad {a : Fin 8} {off : Nat} (hh : x.hold = none) (hg : grantedIn x.buf = none)
    (hp : place x.id (nth x.a a.val 0).toNat 1 = some (.pad off)) :
    lockInstr a d x =
      if x.buf.any (lockClash (off / bankSize)) then .fault F_LOCK_RULE (nth x.a a.val 0)
      else if (getBank d (coreQuarter x.id) (off / bankSize)).owner.isSome then .stall
      else .ok (putCore (putBank d { getBank d (coreQuarter x.id) (off / bankSize) with owner := some (coreMaster x.id) })
        { findCore d x.id with holdAddr := nth x.a a.val 0 }) [.lock (off / bankSize)] := by
  unfold lockInstr
  dsimp only
  rw [if_neg (by simp [hh, hg]), hp]
  dsimp only
  cases (getBank d (coreQuarter x.id) (off / bankSize)).owner <;> rfl

/-- Settles O37: each instruction by what its act answers (the lemmas `…Instr_…`), which joins the bundle by `exec_bundled`. -/
theorem coreMemoryAndFlowInstructions : Obligations.CoreMemoryAndFlowInstructions := by
  unfold Obligations.CoreMemoryAndFlowInstructions
  refine ⟨?ldV, ?ldW, ?ldBcW, ?stV, ?stW, ?flow, ?fence, ?lock⟩
  case ldV => exact fun s i dst ea p h hp => exec_bundled rfl h (loadInstr_reads hp)
  case ldW => exact fun s i half dst ea p h hp => exec_bundled rfl h (loadInstr_reads hp)
  case ldBcW => exact fun s i dst ea p h hp => exec_bundled rfl h (loadInstr_reads hp)
  case stV => exact fun s i ea src p h hp hb => exec_bundled rfl h (storeInstr_stores hp hb)
  case stW => exact fun s i half ea src p h hp hb => exec_bundled rfl h (storeInstr_stores hp hb)
  case flow =>
    intro s i h hh hg
    have free (r : IRes) : notInLock (findCore s.dev i.core.val) r = r := notInLock_free hh hg r
    refine ⟨?branch, ?loop, ?rloop, ?spawn, ?signal, ?done, ?yield, ?savectx⟩
    case branch => exact fun t => exec_bundled rfl h (free _)
    case loop => exact fun c e hd hc => exec_bundled rfl h (loopInstr_enters hh hg hd hc)
    case rloop => exact fun c st e hrot hst h0 hc => exec_bundled rfl h (rloopInstr_enters hh hg hrot hst h0 hc)
    case spawn => exact fun dst p a off hp => exec_bundled rfl h (spawnInstr_reads hh hg hp)
    case signal => exact fun r => exec_bundled rfl h (free _)
    case done => exact fun n => exec_bundled rfl h (free _)
    case yield => exact fun hy => exec_bundled rfl h ((free _).trans (if_pos hy))
    case savectx => exact exec_bundled rfl h (free _)
  case fence => exact fun s i h => ⟨exec_bundled rfl h rfl, exec_bundled rfl h rfl⟩
  case lock =>
    intro s i a off h hid hh hg hp ho hc
    refine exec_bundled rfl h ?_
    rw [lockInstr_pad hh hg (by rwa [hid]), hc, hid, ho]
    rfl

end Sys2Proof.Machine
end

section
/-! Faults of a media core's instructions, and what happens to a core from outside its program (R109, R121, R123, R129, R134). -/
namespace Sys2Proof.Machine
variable {s : State} {d : Dev} {i : Issue} {x : Core} {k n : Nat} {a v : Word}

/-! ### Faults -/

theorem accessCheck_misaligned (h : a.toNat % n ≠ 0) : accessCheck x a n = .error (F_MISALIGN, a) := if_pos h

theorem accessCheck_unmapped (h : a.toNat % n = 0) (hp : place x.id a.toNat n = none) : accessCheck x a n = .error (F_ADDR, a) := by
  unfold accessCheck
  rw [if_neg (Decidable.not_not.2 h), hp]

/-! ### A core put twice -/

theorem findCore_putCore {y : Core} (h : y.id = k) : findCore (putCore d y) k = y := by
  subst h
  exact findCore_putCore_same d y

theorem putCore_putCore {y z : Core} (h : z.id = y.id) : putCore (putCore d y) z = putCore d z := by
  simp [putCore, h]

/-! ### Halts -/

/-- A core between bundles, outside a locked sequence, takes the halt that was asked for. -/
theorem haltCheck_boundary {y : Core} (hid : y.id = k) (hi : y.issuing = false) (hh : y.hold = none) :
    haltCheck (putCore d y) k = putCore d { y with halted := y.halted || y.haltReq, haltReq := false, stepReq := false } := by
  unfold haltCheck
  rw [findCore_putCore hid]
  dsimp only
  rw [if_neg (by simp [hi, hh])]
  exact putCore_putCore rfl

/-- MDC_CTRL written with halt set, for a core that its team has. -/
theorem writeMdcCtrl_halt (hq : coreQuarter k < d.variant.quarters) (ht : coreTeam k < d.variant.teams) (hv : v.getLsbD 0 = true) :
    writeMdcCtrl d k v =
      if (findCore d k).halted then putCore (setReg d (MDCi k) (v &&& 0xF05)) { findCore d k with stepReq := bit v 1 }
      else haltCheck (putCore (setReg d (MDCi k) (v &&& 0xF05)) { findCore d k with haltReq := true }) k := by
  unfold writeMdcCtrl
  rw [if_neg (by simp; omega)]
  exact if_pos hv

theorem exec_coreHalt_running {c : Fin 256} (hq : coreQuarter c.val < s.dev.variant.quarters) (ht : coreTeam c.val < s.dev.variant.teams)
    (hv : v.getLsbD 0 = true) (hhalt : (findCore s.dev c.val).halted = false) (hi : (findCore s.dev c.val).issuing = false)
    (hh : (findCore s.dev c.val).hold = none) (hid : (findCore s.dev c.val).id = c.val) :
    exec (.coreHalt c v) s = nextWith s (putCore (setReg s.dev (MDCi c.val) (v &&& 0xF05))
      { findCore s.dev c.val with halted := true, haltReq := false, stepReq := false }) := by
  have hmask : (v &&& 0xFFFFFFFD) &&& 0xF05 = v &&& 0xF05 := by rw [BitVec.and_assoc]; rfl
  have he : exec (.coreHalt c v) s = nextWith s (writeMdcCtrl s.dev c.val (v &&& 0xFFFFFFFD)) := rfl
  rw [he, writeMdcCtrl_halt hq ht (by simpa using hv), if_neg (by simp [hhalt]), hmask]
  refine congrArg (nextWith s)
    ((haltCheck_boundary (y := { findCore s.dev c.val with haltReq := true }) hid hi hh).trans ?_)
  simp only [Bool.or_true]

theorem exec_coreStep_halted {c : Fin 256} (hq : coreQuarter c.val < s.dev.variant.quarters) (ht : coreTeam c.val < s.dev.variant.teams)
    (hv : v.getLsbD 0 = true) (hhalt : (findCore s.dev c.val).halted = true) :
    exec (.coreStep c v) s = nextWith s (putCore (setReg s.dev (MDCi c.val) (v &&& 0xF05)) { findCore s.dev c.val with stepReq := true }) := by
  have hmask : (v ||| 2) &&& 0xF05 = v &&& 0xF05 := by
    rw [BitVec.and_comm, BitVec.and_or_distrib_left, BitVec.and_comm v]
    exact BitVec.or_zero
  have hstep : bit (v ||| 2) 1 = true := by
    rw [bit, ← BitVec.getLsbD, BitVec.getLsbD_or]
    simp
  have he : exec (.coreStep c v) s = nextWith s (writeMdcCtrl s.dev c.val (v ||| 2)) := rfl
  rw [he, writeMdcCtrl_halt hq ht (by simpa using hv), if_pos hhalt, hmask, hstep]

/-! ### Drains and the pre-empt interrupt -/

theorem drainOne_oldest {e : Nat × List Byte} {es : List (Nat × List Byte)} (h : (findCore d k).wbuf = e :: es) :
    drainOne d k = putCore (padWrite d (coreQuarter k) e.1 e.2) { findCore d k with wbuf := es } := by
  unfold drainOne
  dsimp only
  rw [h]

theorem preemptCore_enters (hr : coreRuns d (findCore d k) = true) (hreq : (findCore d k).preemptReq = true)
    (hi : (findCore d k).issuing = false) (hh : (findCore d k).hold = none) (hn : (findCore d k).handler = false) :
    preemptCore d k = putCore d
      { findCore d k with epc := (findCore d k).pc, epcP := (findCore d k).p, handler := true, preemptReq := false,
                          pc := reg d (TEAM (coreQuarter k) (coreTeam k) + 8) } :=
  if_neg (by simp [hr, hreq, hi, hh, hn])

/-- Settles O39: faults by what the act answers, which the bundle keeps by `exec_faulted`; what the bundle passes over by
`issue_skips`; halt and step by `writeMdcCtrl_halt`. -/
theorem coreFaultsAndControl : Obligations.CoreFaultsAndControl := by
  unfold Obligations.CoreFaultsAndControl
  refine ⟨?misalign, ?unmapped, ?setB, ?depth, ?locked, ?guard, ?done, ?clash, ?drain, ?preempt, ?halt, ?step⟩
  case misalign => exact fun s i dst ea ue h ha => exec_faulted rfl h (loadInstr_faults (accessCheck_misaligned ha))
  case unmapped => exact fun s i ea src h ha hp => exec_faulted rfl h (storeInstr_faults (accessCheck_unmapped ha hp))
  case setB => exact fun s i half dst n h ho => exec_faulted rfl h (setB_illegal ho _)
  case depth => exact fun s i c e h hh hg hd => exec_faulted rfl h (loopInstr_tooDeep hh hg hd)
  case locked => exact fun s i t h hh => exec_faulted rfl h (notInLock_held hh _)
  case guard =>
    intro s i p v t hr hi hg hv hl
    have hfails : guardHolds (findCore s.dev i.core.val) i = false :=
      Bool.eq_false_iff.2 fun hholds => hv (guardHolds_iff.1 hholds p v hg)
    exact congrArg (nextWith s) (issue_skips hr hi hl (.inl hfails))
  case done => exact fun s i ea src hr hi hd hl => congrArg (nextWith s) (issue_skips hr hi hl (.inr hd))
  case clash =>
    intro s i a off h hid hh hg hp hc
    refine exec_faulted rfl h ?_
    rw [lockInstr_pad hh hg (by rwa [hid]), hc]
    rfl
  case drain =>
    intro s k e es hh hw
    exact congrArg (nextWith s) ((if_neg (by simp [hh])).trans (drainOne_oldest hw))
  case preempt => exact fun s k hr hreq hi hh hn => congrArg (nextWith s) (preemptCore_enters hr hreq hi hh hn)
  case halt => exact fun s k v hq ht hv hhalt hi hh hid => exec_coreHalt_running hq ht hv hhalt hi hh hid
  case step => exact fun s k v hq ht hv hhalt => exec_coreStep_halted hq ht hv hhalt

end Sys2Proof.Machine
end

section
/-! Bundles of one instruction on a core between bundles (R107, R108, R110, R113, R114, R119, R121). -/
namespace Sys2Proof.Machine
variable {s : State} {d : Dev} {i : Issue} {x y : Core} {e : CEff} {p : CPend} {k t : Nat}

/-! ### A core between bundles with nothing pending -/

/-- `x` brought to rest between bundles. -/
def rested (x : Core) : Core :=
  { x with issuing := false, pend := [], buf := [], flt := none, hold := none, loops := [], halted := false, haltReq := false,
           stepReq := false }

theorem Quiet.rested (q : Quiet d k) : rested (findCore d k) = findCore d k := by
  obtain ⟨-, hissuing, hpend, hbuf, hflt, hhold, hloops, ⟨hhalted, hhaltReq, hstepReq⟩, -⟩ := q
  generalize findCore d k = x at *
  cases x
  dsimp only at *
  subst_vars
  rfl

/-- Core `k` is between bundles, outside a locked sequence, and no halt or step is asked for. -/
structure Free (y : Core) (k : Nat) : Prop where
  id : y.id = k
  issuing : y.issuing = false
  hold : y.hold = none
  halted : y.halted = false
  haltReq : y.haltReq = false
  stepReq : y.stepReq = false

theorem free_rested (h : x.id = k) : Free (rested x) k := ⟨h, rfl, rfl, rfl, rfl, rfl⟩

/-- A result lands in a register; nothing else of the core moves. -/
theorem Free.land (h : Free y k) (p : CPend) : Free (land y p) k := by
  obtain ⟨hid, hissuing, hhold, hhalted, hhaltReq, hstepReq⟩ := h
  unfold Machine.land
  dsimp only
  split
  case h_2 => split <;> exact ⟨hid, hissuing, hhold, hhalted, hhaltReq, hstepReq⟩
  all_goals exact ⟨hid, hissuing, hhold, hhalted, hhaltReq, hstepReq⟩

/-! ### The end of a bundle -/

/-- A core that no halt and no breakpoint waits for stays as it is at the bundle boundary (R134). -/
theorem boundary_free (hy : findCore d k = y) (h : Free y k) (hb : ∀ n, n < 4 → getB d (MDCi k) (8 + n) = false) :
    breakCheck (haltCheck d k) k = putCore d y := by
  obtain ⟨hid, hissuing, hhold, hhalted, hhaltReq, hstepReq⟩ := h
  have hput : haltCheck d k = putCore d y := by
    unfold haltCheck
    dsimp only
    rw [hy, if_neg (by simp [hissuing, hhold])]
    cases y
    dsimp only at *
    subst_vars
    rfl
  have hnone : ((List.range 4).find? fun n => bit (reg (putCore d y) (MDCi k)) (8 + n) &&
      reg (putCore d y) (MDCi k + 0x20 + 4 * n) == y.pc) = none := by
    rw [List.find?_eq_none]
    intro n hn
    have hoff : bit (reg (putCore d y) (MDCi k)) (8 + n) = false := hb n (List.mem_range.1 hn)
    simp [hoff]
  rw [hput]
  unfold breakCheck
  dsimp only
  rw [findCore_putCore hid, hnone]
  exact ite_self _

/-- The stores of a bundle, by slot. -/
def storesOf (es : List CEff) : List (Nat × List Byte) :=
  (List.range 2).flatMap fun s => es.filterMap fun e => match e with
    | .store t a bs => if t = s then some (a, bs) else none
    | _ => none

/-- The core at its bundle's end, outside a locked sequence: its results have landed and its flow goes on. -/
def ended (x : Core) : Core := nextPc { landAll x with buf := [], issuing := false, hold := none } x.buf

/-- A bundle of one effect, outside a locked sequence. -/
theorem closeBundle_single (hx : findCore d k = x) (hf : x.flt = none) (hh : x.hold = none) (hb : x.buf = [e]) (he : e.isLock = false) :
    closeBundle d k = breakCheck (haltCheck (applyEff k x.pc
      ((storesOf [e]).foldl (fun d e => doStore d k e.1 e.2) (putCore d (ended x))) e) k) k := by
  have hlocks : [e].filter CEff.isLock = [] := by simp [he]
  have hothers : [e].filter (fun e => !e.isLock) = [e] := by simp [he]
  unfold closeBundle ended
  dsimp only
  rw [hx, hf, hh, hb, hlocks, hothers]
  rfl

/-- A core at rest with a bundle of one effect issued. -/
def opened (x : Core) (e : CEff) : Core := { rested x with issuing := true, buf := [e] }

/-- On a quiet core, a bundle of one instruction with the one effect `e`. -/
theorem bundled_single (q : Quiet d i.core.val) (hl : i.last = true) (he : e.isLock = false) :
    bundled d i [e] = breakCheck (haltCheck (applyEff i.core.val (findCore d i.core.val).pc
      ((storesOf [e]).foldl (fun d e => doStore d i.core.val e.1 e.2) (putCore (putCore d (opened (findCore d i.core.val) e))
        (ended (opened (findCore d i.core.val) e)))) e) i.core.val) i.core.val := by
  have hopen : { findCore d i.core.val with issuing := true, buf := [] ++ [e] } = opened (findCore d i.core.val) e := by
    unfold opened
    rw [q.rested]
    rfl
  unfold bundled
  dsimp only
  rw [if_pos hl, q.buf]
  refine (congrArg (fun y => closeBundle (putCore d y) i.core.val) hopen).trans ?_
  exact closeBundle_single (findCore_putCore q.id) rfl rfl rfl he

/-- The five slots of a bundle (R107). -/
theorem slot_cases (ht : t < 5) : t = 0 ∨ t = 1 ∨ t = 2 ∨ t = 3 ∨ t = 4 := by omega

/-- A result of the bundle itself lands. -/
theorem ended_write (ht : t < 5) (hp : p.left = 0) : ended (opened x (.write t p)) = { land (rested x) p with pc := x.pc + 32 } := by
  obtain ⟨left, dst, val, acc, lane⟩ := p
  cases hp
  have hnew : landAll (opened x (.write t ⟨0, dst, val, acc, lane⟩)) =
      land { rested x with issuing := true, buf := [.write t ⟨0, dst, val, acc, lane⟩] } ⟨0, dst, val, acc, lane⟩ := by
    rcases slot_cases ht with rfl | rfl | rfl | rfl | rfl <;> rfl
  unfold ended
  rw [hnew]
  cases dst
  case x => cases acc <;> rfl
  all_goals rfl

/-- A result of a later bundle waits. -/
theorem ended_later {n : Nat} (ht : t < 5) (hp : p.left = n + 1) :
    ended (opened x (.write t p)) = { rested x with pc := x.pc + 32, pend := [{ p with left := n }] } := by
  obtain ⟨left, dst, val, acc, lane⟩ := p
  cases hp
  rcases slot_cases ht with rfl | rfl | rfl | rfl | rfl <;> rfl

theorem ended_branch (v : Word) : ended (opened x (.branch v)) = { rested x with pc := v } := rfl

/-- The core at its next bundle. -/
def nextBundle (x : Core) : Core := { x with pc := x.pc + 32 }

theorem ended_store (a : Nat) (bs : List Byte) : ended (opened x (.store t a bs)) = nextBundle (rested x) := rfl

/-! ### What a bundle of one instruction leaves -/

theorem Quiet.free (q : Quiet d k) : Free (findCore d k) k := q.rested ▸ free_rested q.id

theorem Free.goesTo (h : Free y k) (pc : Word) (rs : List CPend) : Free { y with pc := pc, pend := rs } k :=
  ⟨h.id, h.issuing, h.hold, h.halted, h.haltReq, h.stepReq⟩

/-- The effect is in the core alone. -/
theorem bundled_core (q : Quiet d i.core.val) (hl : i.last = true) (he : e.isLock = false) (hs : storesOf [e] = [])
    (ha : ∀ pc d, applyEff i.core.val pc d e = d) (hy : ended (opened (findCore d i.core.val) e) = y) (hfree : Free y i.core.val) :
    bundled d i [e] = putCore d y := by
  have hid : y.id = (opened (findCore d i.core.val) e).id := hfree.id.trans q.id.symm
  rw [bundled_single q hl he, hs, List.foldl_nil, hy, putCore_putCore hid, ha,
    boundary_free (findCore_putCore hfree.id) hfree q.breaks, putCore_putCore rfl]

theorem bundled_write (q : Quiet d i.core.val) (hl : i.last = true) (ht : t < 5) (hp : p.left = 0) :
    bundled d i [.write t p] = putCore d { land (findCore d i.core.val) p with pc := (findCore d i.core.val).pc + 32 } := by
  refine bundled_core q hl rfl rfl (fun _ _ => rfl) ?_ ((q.free.land p).goesTo _ _)
  rw [ended_write ht hp, q.rested]

theorem bundled_later {n : Nat} (q : Quiet d i.core.val) (hl : i.last = true) (ht : t < 5) (hp : p.left = n + 1) :
    bundled d i [.write t p] =
      putCore d { findCore d i.core.val with pc := (findCore d i.core.val).pc + 32, pend := [{ p with left := n }] } := by
  refine bundled_core q hl rfl rfl (fun _ _ => rfl) ?_ (q.free.goesTo _ _)
  rw [ended_later ht hp, q.rested]

theorem bundled_branch (q : Quiet d i.core.val) (hl : i.last = true) (v : Word) :
    bundled d i [.branch v] = putCore d { findCore d i.core.val with pc := v } := by
  refine bundled_core q hl rfl rfl (fun _ _ => rfl) ?_ (q.free.goesTo _ _)
  rw [ended_branch, q.rested]

theorem doStore_local {a off : Nat} {bs : List Byte} (hp : place k a bs.length = some (.loc off)) :
    doStore d k a bs = setLocal d k (spWrite (localMem d k) off bs) := by
  unfold doStore
  rw [hp]

/-- A store to local memory takes place at the bundle's end (R108, R110). -/
theorem bundled_store {a off : Nat} {bs : List Byte} (q : Quiet d i.core.val) (hl : i.last = true) (ht : t < 2)
    (hp : place i.core.val a bs.length = some (.loc off)) :
    bundled d i [.store t a bs] = putCore (setLocal d i.core.val (spWrite (localMem d i.core.val) off bs))
      (nextBundle (findCore d i.core.val)) := by
  have hs : storesOf [.store t a bs] = [(a, bs)] := by
    obtain rfl | rfl : t = 0 ∨ t = 1 := by omega
    · rfl
    · rfl
  have hfree : Free (nextBundle (findCore d i.core.val)) i.core.val := q.free.goesTo _ _
  have hstore : doStore (putCore d (nextBundle (findCore d i.core.val))) i.core.val a bs =
      putCore (setLocal d i.core.val (spWrite (localMem d i.core.val) off bs)) (nextBundle (findCore d i.core.val)) :=
    doStore_local hp
  have hid : (nextBundle (findCore d i.core.val)).id = (opened (findCore d i.core.val) (.store t a bs)).id := rfl
  rw [bundled_single q hl rfl, hs, ended_store, q.rested, putCore_putCore hid]
  dsimp only [List.foldl_cons, List.foldl_nil]
  rw [hstore]
  exact (boundary_free (d := putCore (setLocal d _ _) _) (findCore_putCore hfree.id) hfree q.breaks).trans (putCore_putCore rfl)

/-! ### Results in their registers -/

theorem wd_result (v : Word) : wd (BitVec.ofNat 640 v.toNat).toNat = v := by
  rw [BitVec.toNat_ofNat, Nat.mod_eq_of_lt (by omega)]
  exact wd_toNat v

theorem land_resS (x : Core) (n : Fin 16) (v : Word) : land x (resS n v) = { x with s := x.s.set n.val v } :=
  congrArg (fun w => { x with s := x.s.set n.val w }) (wd_result v)

theorem land_resA (x : Core) (n : Nat) (v : Word) : land x (res 0 (.a n) v.toNat) = { x with a := x.a.set n v } :=
  congrArg (fun w => { x with a := x.a.set n w }) (wd_result v)

/-- The predicates with predicate `n` set to `b`. -/
def setPred (p : BitVec 8) (n : Nat) (b : Bool) : BitVec 8 :=
  BitVec.ofNat 8 (p.toNat - (p.toNat / 2 ^ n % 2) * 2 ^ n + b.toNat * 2 ^ n)

theorem land_resP (x : Core) (n : Fin 8) (b : Bool) : land x (resP n b) = { x with p := setPred x.p n.val b } := by
  have hb : (BitVec.ofNat 640 b.toNat).toNat % 2 = b.toNat := by
    have hlt := b.toNat_lt
    rw [BitVec.toNat_ofNat]
    omega
  exact congrArg (fun c => { x with p := BitVec.ofNat 8 (x.p.toNat - (x.p.toNat / 2 ^ n.val % 2) * 2 ^ n.val + c * 2 ^ n.val) }) hb

/-- A number with bit `i` replaced, bit by bit. -/
theorem testBit_replaceBit (n i j : Nat) (b : Bool) :
    (n - (n / 2 ^ i % 2) * 2 ^ i + b.toNat * 2 ^ i).testBit j = if j = i then b else n.testBit j := by
  have hlow : n % 2 ^ i < 2 ^ i := Nat.mod_lt _ (Nat.two_pow_pos i)
  have hn : n = 2 ^ i * (2 * (n / 2 ^ i / 2) + n / 2 ^ i % 2) + n % 2 ^ i := by
    rw [Nat.div_add_mod, Nat.div_add_mod]
  have hm : n - (n / 2 ^ i % 2) * 2 ^ i + b.toNat * 2 ^ i = 2 ^ i * (2 * (n / 2 ^ i / 2) + b.toNat) + n % 2 ^ i := by
    rw [Nat.mul_add] at hn ⊢
    rw [Nat.mul_comm _ (2 ^ i), Nat.mul_comm _ (2 ^ i)]
    omega
  rw [hm, Nat.testBit_two_pow_mul_add _ hlow]
  conv => rhs; rw [hn, Nat.testBit_two_pow_mul_add _ hlow]
  rcases Nat.lt_trichotomy j i with hj | rfl | hj
  · rw [if_pos hj, if_neg (by omega), if_pos hj]
  · rw [if_neg (by omega), if_pos rfl, Nat.sub_self, Nat.testBit_zero]
    cases b <;> simp
  · obtain ⟨k, rfl⟩ : ∃ k, j = i + (k + 1) := ⟨j - i - 1, by omega⟩
    have hb := b.toNat_lt
    rw [if_neg (by omega), if_neg (by omega), if_neg (by omega), Nat.add_sub_cancel_left, Nat.testBit_succ, Nat.testBit_succ,
      Nat.mul_add_div (by decide), Nat.mul_add_div (by decide), Nat.div_eq_of_lt hb, Nat.div_eq_of_lt (Nat.mod_lt _ (by decide))]

theorem getLsbD_setPred (p : BitVec 8) {n j : Nat} (b : Bool) (hj : j < 8) :
    (setPred p n b).getLsbD j = if j = n then b else p.getLsbD j := by
  unfold setPred
  rw [BitVec.getLsbD_ofNat, testBit_replaceBit]
  simp [hj, BitVec.getLsbD]

/-! ### Local memory -/

/-- Looking up a key among the entries that `p` keeps. -/
theorem find_filter_kept {l : List (Nat × Sparse 8)} {p : Nat × Sparse 8 → Bool} {j : Nat} (hp : ∀ e, e.1 = j → p e = true) :
    (l.filter p).find? (fun e => e.1 == j) = l.find? fun e => e.1 == j := by
  rw [List.find?_filter]
  congr 1
  funext e
  by_cases he : e.1 = j <;> simp [he, hp e]

theorem find_filter_dropped {l : List (Nat × Sparse 8)} {p : Nat × Sparse 8 → Bool} {j : Nat} (hp : ∀ e, e.1 = j → p e = false) :
    (l.filter p).find? (fun e => e.1 == j) = none := by
  rw [List.find?_eq_none]
  intro e he hj
  rw [List.mem_filter, hp e (beq_iff_eq.1 hj)] at he
  exact Bool.false_ne_true he.2

theorem localMem_setLocal (d : Dev) (k : Nat) (m : Sparse 8) (j : Nat) :
    localMem (setLocal d k m) j = if j = k then m else localMem d j := by
  have hone : (if m.isEmpty then [] else [(k, m)]).find? (fun e : Nat × Sparse 8 => e.1 == j) =
      if j = k ∧ m.isEmpty = false then some (k, m) else none := by
    cases m <;> by_cases hj : j = k <;> simp [hj, Ne.symm]
  unfold localMem setLocal
  dsimp only
  rw [List.find?_append, List.find?_append, hone]
  rcases Nat.lt_trichotomy j k with hj | rfl | hj
  · rw [find_filter_kept (by simp; omega), find_filter_dropped (p := fun e => decide (k < e.1)) (by simp; omega)]
    simp [Nat.ne_of_lt hj]
  · rw [find_filter_dropped (by simp), find_filter_dropped (by simp)]
    cases m <;> simp
  · rw [find_filter_dropped (p := fun e => decide (e.1 < k)) (by simp; omega), find_filter_kept (by simp; omega)]
    simp [Nat.ne_of_gt hj]

theorem getElem?_leBytes (n : Nat) {len j : Nat} (hj : j < len) : (leBytes n len)[j]? = some (BitVec.ofNat 8 (n / 256 ^ j)) := by
  induction len generalizing n j with
  | zero => omega
  | succ len ih =>
    cases j with
    | zero => simp [leBytes]
    | succ j =>
      rw [leBytes, List.getElem?_cons_succ, ih _ (by omega), Nat.div_div_eq_div_mul, Nat.pow_succ']

/-- The bytes of a number that is stored. -/
theorem spGet_storeLe {m : Sparse 8} (w : spWf m = true) (off n len b : Nat) :
    spGet (spWrite m off (leBytes n len)) b =
      if off ≤ b ∧ b < off + len then BitVec.ofNat 8 (n / 256 ^ (b - off)) else spGet m b := by
  rw [spGet_write w, length_leBytes]
  refine ite_congr rfl (fun hb => ?_) fun _ => rfl
  rw [getElem?_leBytes n (by omega)]
  rfl

theorem place_local {a n : Nat} (h : a + n ≤ 0x20000) (k : Nat) : place k a n = some (.loc a) := if_pos h

/-- An aligned access to local memory passes the checks. -/
theorem accessCheck_local {a : Word} {n : Nat} (ha : a.toNat + n ≤ 0x20000) (hal : a.toNat % n = 0) :
    accessCheck x a n = .ok (.loc a.toNat) := by
  have hbank : badBank x (.loc a.toNat) = false := by
    unfold badBank
    cases heldBank x <;> rfl
  unfold accessCheck
  rw [if_neg (Decidable.not_not.2 hal), place_local ha]
  dsimp only
  rw [hbank]
  rfl

/-- Local memory below the background region takes stores of every class (R130). -/
theorem badStore_local {a off : Nat} (h : off < fld (teamCfg d x.id) 8 5 * 0x1000) : badStore d x a (.loc off) = false := by
  have hlow : decide (fld (teamCfg d x.id) 8 5 * 0x1000 ≤ off) = false := decide_eq_false (Nat.not_le.2 h)
  unfold badStore
  dsimp only
  rw [hlow, Bool.false_and]

/-- Settles O38: what the instruction adds by O36 and O37, what its bundle leaves by the lemmas `bundled_…`. -/
theorem oneInstructionBundles : Obligations.OneInstructionBundles := by
  unfold Obligations.OneInstructionBundles
  refine ⟨?scalar, ?cmp, ?amov, ?branch, ?mac, ?store⟩
  case scalar =>
    intro s i op dst s1 s2 v h q hl hv
    rw [exec_bundled rfl h (scalarInstr_stated hv), bundled_write q hl (by decide) rfl, land_resS]
  case cmp =>
    intro s i op p s1 s2 h q hl
    refine ⟨_, ?_, fun j hj => getLsbD_setPred _ _ hj⟩
    rw [exec_bundled rfl h rfl, bundled_write q hl (by decide) rfl, land_resP]
  case amov =>
    intro s i dst src h q hl
    have ht : lsSlot i < 5 := by unfold lsSlot; split <;> decide
    rw [exec_bundled rfl h rfl, bundled_write q hl ht rfl, land_resA]
  case branch =>
    intro s i t h q hl
    rw [exec_bundled rfl h (notInLock_free q.hold (by rw [q.buf]; rfl) _), bundled_branch q hl]
  case mac =>
    intro s i sub clear half n s1 s2 h q hl
    rw [exec_bundled rfl h rfl, bundled_later (n := 0) q hl (by decide) rfl]
    rfl
  case store =>
    intro s i a src h q hl w ha hal hbg
    have ht : lsSlot i < 2 := by unfold lsSlot; split <;> decide
    have hacc := accessCheck_local (x := findCore s.dev i.core.val) (n := 4) (Nat.le_trans ha (by decide)) hal
    have hbad : badStore s.dev (findCore s.dev i.core.val) (nth (findCore s.dev i.core.val).a a.val 0).toNat
        (.loc (nth (findCore s.dev i.core.val).a a.val 0).toNat) = false := badStore_local (by rw [q.id, hbg]; omega)
    have hp := place_local (k := i.core.val) (Nat.le_trans ha (by decide : 0x10000 ≤ 0x20000))
    rw [← length_leBytes (nth (findCore s.dev i.core.val).s src.val 0).toNat 4] at hp
    obtain ⟨-, -, -, -, -, wlocal, -, -⟩ := Memory.wf_parts.1 w
    have he : exec (.stW i false (.ind a) src) s = nextWith s (bundled s.dev i [.store (lsSlot i)
        (nth (findCore s.dev i.core.val).a a.val 0).toNat (leBytes (nth (findCore s.dev i.core.val).s src.val 0).toNat 4)]) :=
      exec_bundled rfl h (storeInstr_stores (ea := .ind a) hacc hbad)
    refine ⟨_, he.trans (congrArg (nextWith s) (bundled_store q hl ht hp)), rfl, rfl, fun j => ?_, fun j b => ?_⟩
    · by_cases hj : j = i.core.val
      · rw [if_pos hj, hj]
        exact findCore_putCore q.id
      · rw [if_neg hj]
        exact findCore_putCore_other _ _ (fun h => hj (h.trans q.id))
    · refine (congrArg (fun m => spGet m b) (localMem_setLocal _ _ _ _)).trans ?_
      by_cases hj : j = i.core.val
      · simp [hj, spGet_storeLe (localMem_wf wlocal _)]
      · simp [hj]

end Sys2Proof.Machine
end

section
/-! Kernels, rules and frames to send (R133, R149, R160 to R168). -/
namespace Sys2Proof.Machine
variable {s : State} {d : Dev} {c : Cmd} {a : Act} {fn ring r n ns : Nat} {bs : List Byte} {w : Swap}

/-! ### What each command does once its checks pass -/

/-- Every team that KERNEL_LOAD names holds the image (R133). -/
def withKernel (d : Dev) (c : Cmd) (bs : List Byte) : Dev :=
  (kernelTeams c.desc).foldl (fun d p => padWrite d p.1 ((24 + p.2) * bankSize + dNum c.desc 20 4) (padTo bs (dNum c.desc 16 4))) d

theorem kernelLoadAct_ok (ha : kernelLoadAct (.ok bs) d c = .ok a) :
    a = .done (withKernel d c bs) (leBytes (crc32 (padTo bs (dNum c.desc 16 4))) 4) := by
  obtain ⟨_, -, ha⟩ := bind_ok ha
  obtain ⟨_, -, ha⟩ := bind_ok ha
  obtain ⟨_, -, ha⟩ := bind_ok ha
  obtain ⟨_, -, ha⟩ := bind_ok ha
  exact (Except.ok.inj ha).symm

/-- The records of a RULE_WRITE. -/
def ruleRecords (c : Cmd) (bs : List Byte) : List (List Byte) := recordsOf (ruleSize (dBits c.desc 8 0 2)) (dNum c.desc 20 4) bs

theorem ruleWriteAct_ok (ha : ruleWriteAct (.ok bs) d c = .ok a) :
    (dBits c.desc 8 0 2 = 0 → a = .done { d with pke := { d.pke with
      prog := upd d.pke.prog (shadowBank d) (putProg (nth d.pke.prog (shadowBank d) []) (dNum c.desc 16 4) (ruleRecords c bs)) } } []) ∧
    (dBits c.desc 8 0 2 = 1 → a = .done { d with pke := { d.pke with
      acl := upd d.pke.acl (shadowBank d) (putAclFrom (nth d.pke.acl (shadowBank d) []) (dNum c.desc 16 4) (ruleRecords c bs)) } } []) ∧
    (dBits c.desc 8 0 2 = 2 → (emInsertAll d (ruleRecords c bs)).2 = 0 → a = .done (emInsertAll d (ruleRecords c bs)).1 (leBytes 0 4)) ∧
    (dBits c.desc 8 0 2 = 3 →
      a = .done (emDeleteAll d (ruleRecords c bs)).1 (leBytes (emDeleteAll d (ruleRecords c bs)).2 4)) := by
  obtain ⟨_, -, ha⟩ := bind_ok ha
  obtain ⟨_, -, ha⟩ := bind_ok ha
  obtain ⟨_, -, ha⟩ := bind_ok ha
  obtain ⟨_, -, ha⟩ := bind_ok ha
  refine ⟨fun ht => ?_, fun ht => ?_, fun ht hall => ?_, fun ht => ?_⟩
  · simp only [ht] at ha
    simp only [ruleRecords, ht]
    exact (Except.ok.inj ha).symm
  · simp only [ht] at ha
    simp only [ruleRecords, ht]
    exact (Except.ok.inj ha).symm
  · simp only [ruleRecords, ht] at hall ⊢
    simp only [ht, hall, if_true] at ha
    exact (Except.ok.inj ha).symm
  · simp only [ht] at ha
    simp only [ruleRecords, ht]
    exact (Except.ok.inj ha).symm

/-- A write to one cell leaves every other, in canonical form or not. -/
theorem spGet_put_ne {n : Nat} (m : Sparse n) {x y : Nat} (h : y ≠ x) (v : BitVec n) : spGet (spPut m x v) y = spGet m y := by
  induction m with
  | nil =>
    unfold spPut
    split
    · rfl
    · exact if_neg h
  | cons p m ih =>
    obtain ⟨z, u⟩ := p
    unfold spPut
    split
    · split
      · rfl
      · exact if_neg h
    · split
      · next hz =>
        subst hz
        have hskip : spGet ((x, u) :: m) y = spGet m y := if_neg h
        rw [hskip]
        split
        · rfl
        · exact if_neg h
      · rw [spGet_cons, spGet_cons, ih]

theorem reg_setReg_ne (d : Dev) {x b : Nat} (h : b ≠ x) (v : Word) : reg (setReg d x v) b = reg d b :=
  congrArg (· ^^^ regReset d.variant b) (spGet_put_ne _ h _)

theorem reg_putB_ne (d : Dev) {x b : Nat} (h : b ≠ x) (i : Nat) (v : Bool) : reg (putB d x i v) b = reg d b := reg_setReg_ne d h _

/-- The packet engine holds packets until none of the old epoch is left (R167). -/
def withSwap (d : Dev) (c : Cmd) : Dev :=
  { putB d PKE 9 true with pke := { d.pke with swap := some ⟨c.id, nextEpoch d, d.tim.clock⟩ } }

theorem ruleSwapAct_ok (ha : ruleSwapAct d c = .ok a) :
    a = if uState d ⟨7, 0xFF, 0⟩ = 0 then .done (goEpoch d 0) (swapResult (nextEpoch d) 0) else .wait (withSwap d c) := by
  obtain ⟨_, -, ha⟩ := bind_ok ha
  obtain ⟨_, -, ha⟩ := bind_ok ha
  obtain ⟨_, -, ha⟩ := bind_ok ha
  split at ha
  · next hstopped => rw [if_pos (beq_iff_eq.1 hstopped)]; exact (Except.ok.inj ha).symm
  · next hruns =>
    have hepoch : nextEpoch (putB d PKE 9 true) = nextEpoch d := by
      unfold nextEpoch liveEpoch getF
      rw [reg_putB_ne d (by decide)]
    dsimp only at ha
    rw [hepoch] at ha
    rw [if_neg (fun h => hruns (beq_iff_eq.2 h))]
    exact (Except.ok.inj ha).symm

/-- The frame of a TX_FRAME (R149). -/
def frameToSend (c : Cmd) (bs : List Byte) : TxFrame :=
  { id := 0, port := dBits c.desc 8 0 3, queue := dBits c.desc 9 0 4, bytes := padTo bs (dNum c.desc 12 2),
    cells := cellsFor (dNum c.desc 12 2), cmd := some c.id,
    tsId := if dBits c.desc 10 0 1 == 1 then some (dNum c.desc 14 2) else none }

theorem txFrameAct_ok (ha : txFrameAct (.ok bs) d c = .ok a) :
    a = if poolFree d < cellsFor (dNum c.desc 12 2) then .stay d
      else .wait (enterBridle (takeCells d (cellsFor (dNum c.desc 12 2))) (frameToSend c bs)) := by
  obtain ⟨_, -, ha⟩ := bind_ok ha
  obtain ⟨_, -, ha⟩ := bind_ok ha
  obtain ⟨_, -, ha⟩ := bind_ok ha
  obtain ⟨_, -, ha⟩ := bind_ok ha
  dsimp only at ha
  split at ha
  · next hfull => rw [if_pos hfull]; exact (Except.ok.inj ha).symm
  · next hroom => rw [if_neg hroom]; exact (Except.ok.inj ha).symm

/-! ### Registers that an event of the PF leaves alone (R64, R357) -/

/-- A register above the PF's views and below the MSI-X tables. -/
def UnitReg (b : Nat) : Prop := 0x20000 ≤ b ∧ b < 0x5000000

variable {b : Nat}

theorem reg_ringIrq_pf (hb : UnitReg b) (d : Dev) (r : Nat) : reg (ringIrq d 0 r) b = reg d b := by
  have hpba := msixPba_ge 0
  obtain ⟨-, hlow⟩ := hb
  unfold ringIrq sendMsix
  split
  · split
    · exact reg_putB_ne d (by omega) _ _
    · rfl
  · rfl

/-- The PF's rings have their registers in its view. -/
theorem ringReg_pf_ne (hb : UnitReg b) (hr : r < 52) (ho : n < 0x20) : b ≠ ringReg 0 r n := by
  obtain ⟨hview, -⟩ := hb
  simp only [ringReg, viewBase, if_true]
  omega

theorem reg_writeRecs_pf (hb : UnitReg b) (hr : r < 52) (d : Dev) (recs : List (BitVec 128)) : reg (writeRecs d 0 r recs) b = reg d b := by
  induction recs generalizing d with
  | nil => rfl
  | cons x xs ih => exact (ih _).trans (reg_setReg_ne (emitOut d _) (ringReg_pf_ne hb hr (by decide)) _)

theorem reg_eqOverflow_pf (hb : UnitReg b) (hr : r < 52) (d : Dev) : reg (eqOverflow d 0 r) b = reg d b := by
  unfold eqOverflow
  dsimp only
  split
  · rfl
  · exact (reg_ringIrq_pf hb _ r).trans (reg_writeRecs_pf hb hr (putRing d _) _)

theorem reg_offerRecs_pf (hb : UnitReg b) (hr : r < 52) (d : Dev) (recs : List (BitVec 128)) : reg (offerRecs d 0 r recs) b = reg d b := by
  have hne : b ≠ ringReg 0 r 0x14 := ringReg_pf_ne hb hr (by decide)
  unfold offerRecs
  dsimp only
  split
  · rw [reg_ringIrq_pf hb, reg_writeRecs_pf hb hr, reg_eqOverflow_pf hb hr]
  · have hlose : reg (ringLose (eqOverflow d 0 r) 0 r recs.length) b = reg d b := by
      unfold ringLose ringFlag satF setF
      rw [reg_putB_ne _ hne, reg_setReg_ne _ hne, reg_eqOverflow_pf hb hr]
    exact hlose

/-- An event of the PF that is not fatal leaves the units' registers. -/
theorem reg_raise_pf {ev : Ev} (hb : UnitReg b) (hfn : ev.fn = 0) (hcls : ev.cls ≠ 3) (d : Dev) : reg (raise d ev) b = reg d b := by
  have hcounter (o : Nat) (ho : o < 0x10) : b ≠ evtBase 0 + o := by
    obtain ⟨hview, -⟩ := hb
    simp only [evtBase, viewBase, if_true]
    omega
  unfold raise deliver
  dsimp only
  rw [if_neg hcls, hfn]
  split
  · exact reg_setReg_ne d (hcounter 4 (by decide)) _
  · split
    · exact reg_offerRecs_pf hb (Nat.add_lt_add_left (Nat.mod_lt _ (by decide)) 48) d _
    · exact reg_setReg_ne d (hcounter 8 (by decide)) _

/-! ### Epochs (R167) -/

/-- PKE_EPOCH after a swap: the live epoch, and its bank. -/
theorem reg_goEpoch (wf : spWf d.regs = true) (ns : Nat) :
    reg (goEpoch d ns) (PKE + 8) = wd (nextEpoch d + 65536 * (nextEpoch d % 2)) := by
  have hb : UnitReg (PKE + 8) := ⟨by decide, by decide⟩
  unfold goEpoch
  dsimp only
  rw [reg_raise_pf hb rfl (by decide : (0 : Nat) ≠ 3)]
  exact (reg_setReg_ne _ (by decide) _).trans ((reg_putB_ne _ (by decide) _ _).trans (reg_setReg_same wf _ _))

theorem goEpoch_live (wf : spWf d.regs = true) (ns : Nat) : liveEpoch (goEpoch d ns) = (liveEpoch d + 1) % 65536 ∧
    getF (goEpoch d ns) (PKE + 8) 16 16 = (liveEpoch d + 1) % 65536 % 2 := by
  have hlt : nextEpoch d < 65536 := Nat.mod_lt _ (by decide)
  have hword : (wd (nextEpoch d + 65536 * (nextEpoch d % 2))).toNat = nextEpoch d + 65536 * (nextEpoch d % 2) :=
    Nat.mod_eq_of_lt (by omega)
  change fld (reg (goEpoch d ns) (PKE + 8)) 0 16 = nextEpoch d ∧ fld (reg (goEpoch d ns) (PKE + 8)) 16 16 = nextEpoch d % 2
  have hbank : (nextEpoch d + 65536 * (nextEpoch d % 2)) / 65536 = nextEpoch d % 2 := by
    rw [Nat.add_mul_div_left _ _ (by decide), Nat.div_eq_of_lt hlt, Nat.zero_add]
  rw [reg_goEpoch wf, fld, fld, hword, Nat.shiftRight_eq_div_pow, Nat.shiftRight_eq_div_pow]
  change _ / 1 % 65536 = _ ∧ _ / 65536 % 65536 = _
  rw [hbank]
  omega

theorem goEpoch_swap (d : Dev) (ns : Nat) : (goEpoch d ns).pke.swap = none := by
  unfold goEpoch
  dsimp only
  rw [(raise_reports _ _).pke (by decide)]

/-! ### The end of a drain (R167) -/

theorem swapDrained_ends (hw : d.pke.swap = some w) (hd : drained d = true) (hh : halted d = false) (hns : ns ≤ swapLimit d)
    (ht : timely d (w.since + ns) = true) :
    swapDrained d ns = complete (goEpoch (advance d (w.since + ns)) ns) w.cmd ST_OK (swapResult w.epoch ns) := by
  unfold swapDrained
  rw [hw]
  exact if_pos (by simp [hd, hh, hns, ht])

/-- A drain that took longer than the limit ends no swap. -/
theorem swapDrained_late (hns : swapLimit d < ns) : swapDrained d ns = d := by
  unfold swapDrained
  split
  · rfl
  · exact if_neg (by simp [Nat.not_le.2 hns])

/-- The swap is abandoned and its command fails. -/
def swapAbandoned (d : Dev) (w : Swap) : Dev :=
  let d := advance d (max d.tim.clock (w.since + swapLimit d))
  let d := { putB d PKE 9 false with pke := { d.pke with swap := none } }
  complete (raise d (evUnit ⟨7, 0xFF, 0⟩ 0x901 1 [(2, liveEpoch d), (4, d.pke.threads.length + d.pke.recirc.length)])) w.cmd ST_TIMEOUT []

theorem swapTimedOut_late (hw : d.pke.swap = some w) (hlate : drained d = false ∨ w.since + swapLimit d < d.tim.clock)
    (hh : halted d = false) (ht : timely d (max d.tim.clock (w.since + swapLimit d)) = true) : swapTimedOut d = swapAbandoned d w := by
  have hcond : (drained d && decide (d.tim.clock ≤ w.since + swapLimit d)) = false := by
    rcases hlate with hd | hc
    · simp [hd]
    · simp [Nat.not_le.2 hc]
  unfold swapTimedOut
  rw [hw]
  exact if_neg (by simp only [hcond, hh, ht]; decide)

theorem swapTimedOut_drained (hw : d.pke.swap = some w) (hd : drained d = true) (hc : d.tim.clock ≤ w.since + swapLimit d) :
    swapTimedOut d = d := by
  unfold swapTimedOut
  rw [hw]
  exact if_pos (by simp [hd, hc])

/-- Settles O43: each command by what its checks leave (the lemmas `…Act_ok`), the epoch by `goEpoch_live`, a swap's end by the lemmas
`swapDrained_…` and `swapTimedOut_…`. -/
theorem kernelsRulesAndFramesComplete : Obligations.KernelsRulesAndFramesComplete := by
  unfold Obligations.KernelsRulesAndFramesComplete
  refine ⟨?kernel, ?rules, ?swap, ?epoch, ?drained, ?late, ?timeout, ?inTime, ?frame⟩
  case kernel =>
    intro s fn ring bs c r hp
    obtain ⟨_, ha⟩ := checksPass_ok hp
    cases kernelLoadAct_ok ha
    exact exec_done rfl r ha
  case rules =>
    intro s fn ring bs c r hp
    obtain ⟨_, ha⟩ := checksPass_ok hp
    obtain ⟨hprog, hacl, hinsert, hdelete⟩ := ruleWriteAct_ok ha
    refine ⟨fun ht => ?_, fun ht => ?_, fun ht hall => ?_, fun ht => ?_⟩
    · exact exec_done rfl r (hprog ht ▸ ha)
    · exact exec_done rfl r (hacl ht ▸ ha)
    · exact exec_done rfl r (hinsert ht hall ▸ ha)
    · exact exec_done rfl r (hdelete ht ▸ ha)
  case swap =>
    intro s fn ring c r hp
    obtain ⟨_, ha⟩ := checksPass_ok hp
    rw [ruleSwapAct_ok ha] at ha
    split
    · next hstopped => rw [if_pos hstopped] at ha; exact exec_done rfl r ha
    · next hruns => rw [if_neg hruns] at ha; exact exec_wait rfl r ha
  case epoch => exact fun d ns wf => ⟨(goEpoch_live wf ns).1, goEpoch_swap d ns, (goEpoch_live wf ns).2⟩
  case drained => exact fun s ns w hw hd hh hns ht => congrArg (nextWith s) (swapDrained_ends hw hd hh hns ht)
  case late => exact fun s ns hns => congrArg (nextWith s) (swapDrained_late hns)
  case timeout => exact fun s w hw hlate hh ht => congrArg (nextWith s) (swapTimedOut_late hw hlate hh ht)
  case inTime => exact fun s w hw hd hc => congrArg (nextWith s) (swapTimedOut_drained hw hd hc)
  case frame =>
    intro s fn ring bs c r hp
    obtain ⟨_, ha⟩ := checksPass_ok hp
    rw [txFrameAct_ok ha] at ha
    dsimp only
    split
    · next hroom => rw [if_neg (Nat.not_lt.2 hroom)] at ha; exact exec_wait rfl r ha
    · next hfull => rw [if_pos (Nat.not_le.1 hfull)] at ha; exact exec_stay rfl r ha

end Sys2Proof.Machine
end

section
/-! Links, lanes and roles of the backplane ports (R137 to R145). -/
namespace Sys2Proof.Machine
variable {a b c d : Dev} {p n t f l x lo len : Nat} {g : List Nat}

/-! ### Fields that an operation keeps -/

/-- From `a` to `b` the register file keeps its canonical form, and one field of one register its value. -/
def KeepsField (x lo len : Nat) (a b : Dev) : Prop := spWf a.regs = true → spWf b.regs = true ∧ getF b x lo len = getF a x lo len

theorem KeepsField.refl (d : Dev) : KeepsField x lo len d d := fun w => ⟨w, rfl⟩

theorem KeepsField.trans (hab : KeepsField x lo len a b) (hbc : KeepsField x lo len b c) : KeepsField x lo len a c := fun w =>
  ⟨(hbc (hab w).1).1, (hbc (hab w).1).2.trans (hab w).2⟩

theorem keepsField_setF (d : Dev) (y lo' len' v : Nat) (h : lo + len ≤ 32) (ap : x ≠ y ∨ lo + len ≤ lo' ∨ lo' + len' ≤ lo) :
    KeepsField x lo len d (setF d y lo' len' v) := fun w => ⟨setF_wf w _ _ _ _, getF_setF_other w _ _ _ _ _ _ _ h ap⟩

theorem keepsField_putB (d : Dev) (y i : Nat) (v : Bool) (h : lo + len ≤ 32) (ap : x ≠ y ∨ lo + len ≤ i ∨ i + 1 ≤ lo) :
    KeepsField x lo len d (putB d y i v) := keepsField_setF d y i 1 _ h ap

theorem keepsField_foldl {α : Type} {step : Dev → α → Dev} (hstep : ∀ d e, KeepsField x lo len d (step d e)) (es : List α) (d : Dev) :
    KeepsField x lo len d (es.foldl step d) := by
  induction es generalizing d with
  | nil => exact .refl d
  | cons e es ih => exact (hstep d e).trans (ih _)

/-! ### The status of a link -/

/-- A link state is written as link, up and lanes of MAC_PORT_STATUS. -/
theorem setLink_eq (d : Dev) (p n : Nat) :
    ∃ lanes, setLink d p n = setF (putB (setF d (MACP p) 12 3 n) (MACP p) 11 (n == 5)) (MACP p) 24 8 lanes := by
  unfold setLink
  dsimp only
  split
  · exact ⟨_, rfl⟩
  · exact ⟨0, rfl⟩

theorem setLink_shows (w : spWf d.regs = true) (p : Nat) (hn : n < 8) :
    link (setLink d p n) p = n ∧ getB (setLink d p n) (MACP p) 11 = (n == 5) := by
  obtain ⟨lanes, h⟩ := setLink_eq d p n
  have w1 := setF_wf w (MACP p) 12 3 n
  have w2 := putB_wf w1 (MACP p) 11 (n == 5)
  constructor
  · unfold link
    rw [h, getF_setF_other w2 _ _ _ _ _ _ _ (by decide) (by omega), getF_putB_other w1 _ _ (by decide) (by omega),
      getF_setF_same w _ _ _ _ (by decide)]
    exact Nat.mod_eq_of_lt hn
  · rw [← getB_putB_same w1 (i := 11) (by decide) (n == 5), h]
    unfold getB
    rw [reg_setF_same w2, bit_eq_getLsbD, getLsbD_setFld _ _ _ _ _ (by decide), if_neg (by decide), bit_eq_getLsbD]

/-! ### What the steps of a link keep of the type in force -/

/-- The type in force is kept. -/
abbrev KeepsType (p : Nat) (a b : Dev) : Prop := KeepsField (MACP p) 16 4 a b

theorem setLink_keepsType (d : Dev) (p n : Nat) : KeepsType p d (setLink d p n) := by
  obtain ⟨lanes, h⟩ := setLink_eq d p n
  rw [h]
  exact ((keepsField_setF d _ 12 3 n (by decide) (by omega)).trans (keepsField_putB _ _ 11 _ (by decide) (by omega))).trans
    (keepsField_setF _ _ 24 8 lanes (by decide) (by omega))

theorem showRole_keepsType (d : Dev) (p : Nat) : KeepsType p d (showRole d p) := keepsField_putB d _ _ _ (by decide) (by omega)

theorem fitRole_keepsType (d : Dev) (p : Nat) : KeepsType p d (fitRole d p) := by
  unfold fitRole
  split
  · have hrole : KeepsType p d (setRole d p false) :=
      (keepsField_putB d _ _ _ (by decide) (.inl (by omega))).trans (showRole_keepsType _ p)
    exact hrole.trans (keepsField_putB _ _ _ _ (by decide) (by omega))
  · exact showRole_keepsType d p

/-- The lanes' registers lie above the ports'. -/
theorem macp_ne_sds (hp : p < 8) (l : Nat) : MACP p ≠ SDS l := by
  unfold MACP SDS
  omega

theorem detected_keepsType (hp : p < 8) (g : List Nat) (d : Dev) :
    KeepsType p d (g.foldl (fun d l => putB (putB d (SDS l) 18 true) (SDS l) 19 false) d) :=
  keepsField_foldl (fun _ l => (keepsField_putB _ _ _ _ (by decide) (.inl (macp_ne_sds hp l))).trans
    (keepsField_putB _ _ _ _ (by decide) (.inl (macp_ne_sds hp l)))) g d

theorem typeNow_setTypeNow (w : spWf d.regs = true) (p t f : Nat) : typeNow (setTypeNow d p t f) p = t % 16 := by
  unfold typeNow setTypeNow
  exact (getF_setF_other (setF_wf w _ _ _ _) _ _ _ _ _ _ _ (by decide) (by omega)).trans (getF_setF_same w _ _ _ _ (by decide))

/-- After type resolution the port trains or aligns. -/
theorem afterType_eq (d : Dev) (p : Nat) : afterType d p = setLink d p 3 ∨ afterType d p = setLink d p 4 := by
  unfold afterType
  split
  · exact .inl rfl
  · exact .inr rfl

/-! ### The end of the line check (R143, R144) -/

theorem endCheck_none (h : chooseGroup d p = none) : endCheck d p = setLink (putPort d p { getPort d p with group := [] }) p 0 := by
  unfold endCheck
  rw [h]

/-- The port's record and lanes as the line check leaves them, before its link goes on. -/
def withGroup (d : Dev) (p t : Nat) (g : List Nat) : Dev :=
  let d := putPort d p { getPort d p with group := g, retrain := false }
  let d := putB d (MACP p) 22 (t != cfgType d p)
  let d := fitRole (setTypeNow d p t (getF d (MACP p + 4) 10 2)) p
  g.foldl (fun d l => putB (putB d (SDS l) 18 true) (SDS l) 19 false) d

theorem endCheck_some (h : chooseGroup d p = some (t, g)) :
    ∃ n, (n = 2 ∨ n = 3 ∨ n = 4) ∧ endCheck d p = setLink (withGroup d p t g) p n := by
  unfold endCheck
  rw [h]
  dsimp only
  split
  · exact ⟨2, .inl rfl, rfl⟩
  · rcases afterType_eq (withGroup d p t g) p with htrain | halign
    · exact ⟨3, .inr (.inl rfl), htrain⟩
    · exact ⟨4, .inr (.inr rfl), halign⟩

theorem withGroup_type (w : spWf d.regs = true) (hp : p < 8) (t : Nat) (g : List Nat) :
    spWf (withGroup d p t g).regs = true ∧ typeNow (withGroup d p t g) p = t % 16 := by
  have w1 : spWf (putB (putPort d p { getPort d p with group := g, retrain := false }) (MACP p) 22 (t != cfgType d p)).regs = true :=
    putB_wf (d := putPort d p _) w _ _ _
  have w2 (fec : Nat) := setF_wf (setF_wf w1 (MACP p) 16 4 t) (MACP p) 20 2 fec
  obtain ⟨w3, htype⟩ := ((fitRole_keepsType _ p).trans (detected_keepsType hp g _)) (w2 _)
  exact ⟨w3, htype.trans (typeNow_setTypeNow w1 p t _)⟩

/-- The group of a port after it is emptied, where there is such a port or not. -/
theorem group_putPort_nil (d : Dev) (p : Nat) : (getPort (putPort d p { getPort d p with group := [] }) p).group = [] := by
  change (((d.mac.ports.set p { getPort d p with group := [] })[p]?).getD {}).group = []
  rw [List.getElem?_set_self']
  cases d.mac.ports[p]? <;> rfl

/-! ### Clause 73 (R138) -/

/-- What a search finds stands in the list no later than anything else that it looks for. -/
theorem idxOf_find?_le {P : Nat → Bool} {ts : List Nat} {u : Nat} (h : ts.find? P = some t) (hu : P u = true) : ts.idxOf t ≤ ts.idxOf u := by
  induction ts with
  | nil => cases h
  | cons y ys ih =>
    by_cases hy : P y = true
    · rw [List.find?_cons_of_pos hy] at h
      cases h
      rw [List.idxOf_cons_self]
      exact Nat.zero_le _
    · rw [List.find?_cons_of_neg hy] at h
      have hyt : y ≠ t := fun he => hy (he ▸ List.find?_some h)
      have hyu : y ≠ u := fun he => hy (he ▸ hu)
      rw [List.idxOf_cons, List.idxOf_cons, beq_false_of_ne hyt, beq_false_of_ne hyu]
      exact Nat.succ_le_succ (ih h)

/-- A type that the port advertises and its group can carry. -/
def carries (d : Dev) (p t : Nat) : Bool := advertises d p t && decide (typeLanes t ≤ (getPort d p).group.length)

theorem carries_iff : carries d p t = true ↔ advertises d p t = true ∧ typeLanes t ≤ (getPort d p).group.length := by
  simp [carries]

theorem anFinds_parallel {y : AnPartner} {u : Fin 2} (hy : y.parallel = some u) :
    anFinds d p y = if carries d p u then some (u.val, 0) else none := by
  unfold anFinds
  rw [hy]
  rfl

theorem anFinds_pages {y : AnPartner} (hy : y.parallel = none) :
    anFinds d p y = (anOrder.find? fun t => carries d p t && y.types.contains t).map fun t => (t, anFec d p t y) := by
  unfold anFinds
  rw [hy]
  rfl

/-- The highest type that both sides advertise and the group can carry, or the signal of a parallel detection without FEC. -/
theorem anFinds_highest {y : AnPartner} (h : anFinds d p y = some (t, f)) :
    carries d p t = true ∧ (y.parallel ≠ none → f = 0) ∧
    (y.parallel = none → t ∈ y.types ∧ ∀ u ∈ y.types, carries d p u = true → anOrder.idxOf t ≤ anOrder.idxOf u) := by
  cases hy : y.parallel with
  | some u =>
    rw [anFinds_parallel hy] at h
    split at h
    · next hcan =>
      cases h
      exact ⟨hcan, fun _ => rfl, fun hn => nomatch hn⟩
    · cases h
  | none =>
    rw [anFinds_pages hy] at h
    obtain ⟨v, hfind, he⟩ := Option.map_eq_some_iff.1 h
    cases he
    obtain ⟨hcan, hmem⟩ := Bool.and_eq_true_iff.1 (List.find?_some (p := fun t => carries d p t && y.types.contains t) hfind)
    refine ⟨hcan, fun hn => absurd rfl hn, fun _ => ⟨List.contains_iff_mem.1 hmem, fun u hu hcu => ?_⟩⟩
    exact idxOf_find?_le hfind (Bool.and_eq_true_iff.2 ⟨hcu, List.contains_iff_mem.2 hu⟩)

theorem anResolve_finds {y : AnPartner} (hin : portIn d p 2 = true) (h : anFinds d p y = some (t, f)) : anResolve d p y =
    afterType (fitRole (setTypeNow (putPort d p { getPort d p with group := (getPort d p).group.take (typeLanes t) }) p t f) p) p := by
  unfold anResolve
  rw [hin, h]

theorem anResolve_finds_none {y : AnPartner} (h : anFinds d p y = none) : anResolve d p y = d := by
  unfold anResolve
  rw [h]
  split
  · next heq => cases heq
  · rfl

/-! ### Training and alignment (R139 to R141) -/

theorem trainTimeout_fails (hin : portIn d p 3 = true) : trainTimeout d p =
    (let x := getPort d p
     let d := setLink (putPort d p { x with fails := x.fails + 1, failRaised := x.failRaised || decide (3 ≤ x.fails + 1) }) p 0
     if 3 ≤ x.fails + 1 ∧ x.failRaised = false then raise d (evUnit (portUnit p) 0xA04 2 [(1, p), (1, 3)]) else d) := by
  unfold trainTimeout
  rw [hin, if_neg (by decide)]
  exact ite_congr (propext (by simp)) (fun _ => rfl) fun _ => rfl

/-- A link that comes up with its lanes in an order that is not the reversed one. -/
theorem linkComesUp_aligned {order : List Nat} {inv : List Bool} {skew : Nat} (hin : portIn d p 4 = true)
    (hlen : order.length = (getPort d p).group.length) (hall : ∀ i, i < (getPort d p).group.length → i ∈ order)
    (hrev : order.length ≤ 1 ∨ order ≠ (List.range order.length).reverse) : linkComesUp d p order inv skew =
    (let e := (groupLanes d p).foldl (fun d e =>
       polarity (putB (setF d (SDS e.2) 20 3 (nth order e.1 0)) (SDS e.2) 18 true) p e.2 (nth inv e.1 false)) d
     let e := setLink (putPort e p { getPort e p with fails := 0, failRaised := false,
                                                      deskew := if 1 < (getPort d p).group.length then skew else 0 }) p 5
     let e := raise e (evUnit (portUnit p) 0xA00 0 [(1, p), (1, typeNow e p), (1, fecNow e p), (1, getF e (MACP p) 24 8)])
     if isDegraded e p then raise e (evUnit (portUnit p) 0xA02 1 [(1, p), (1, cfgType e p), (1, typeNow e p)]) else e) := by
  have hnot : ¬(!portIn d p 4 || order.length != (getPort d p).group.length ||
      !(List.range (getPort d p).group.length).all fun i => order.contains i) = true := by
    simpa [hin, hlen] using hall
  have hfwd : (decide (1 < (getPort d p).group.length) && order == (List.range (getPort d p).group.length).reverse) = false := by
    rw [← hlen]
    rcases hrev with hone | hne
    · simp [Nat.not_lt.2 hone]
    · simp [hne]
  unfold linkComesUp
  dsimp only
  rw [if_neg hnot, hfwd]
  rfl

theorem loseLink_up (h : link d p = 5) (l : Nat) : loseLink d p l =
    raise (cnt (setLink (leaveUp d p) p 1) (MACP p + 0x70) 1) (evUnit (portUnit p) 0xA01 1 [(1, p), (1, 5), (1, l)]) := by
  unfold loseLink linkUp
  rw [h]
  rfl

theorem portIn_iff : portIn d p n = true ↔ uState d (portUnit p) = 2 ∧ link d p = n ∧ halted d = false := by
  simp [portIn, and_assoc]

/-! ### Lane faults and rechecks (R142, R143) -/

/-- A fault that can be found on a usable lane of a started port. -/
structure Faults (d : Dev) (l p code : Nat) : Prop where
  port : portOfLane d l = some p
  runs : uState d (laneUnit l) = 2
  usable : laneExcluded d l = false
  possible : faultPossible d p l code = true
  live : halted d = false

theorem laneFails_eq {code second : Nat} (h : Faults d l p code) : laneFails d l code second =
    (let used := (getPort d p).group.contains l
     let e := faultLane (if used then loseLink d p l else d) l code second
     if used && (link d p == 2 || link d p == 3 || link d p == 4) then setLink e p 0 else e) := by
  unfold laneFails
  rw [h.port]
  dsimp only
  rw [if_neg (by simp [h.runs, h.usable, h.possible, h.live])]

theorem laneFails_unused {code second : Nat} (h : Faults d l p code) (hl : l ∉ (getPort d p).group) :
    laneFails d l code second = faultLane d l code second := by
  rw [laneFails_eq h]
  simp [hl]

theorem laneFails_up {code second : Nat} (h : Faults d l p code) (hup : link d p = 5) (hl : l ∈ (getPort d p).group) :
    laneFails d l code second = faultLane (loseLink d p l) l code second := by
  rw [laneFails_eq h]
  simp [hl, hup]

theorem hitLink_up (hport : portOfLane d l = some p) (hl : l ∈ (getPort d p).group) (hup : linkUp d p = true) :
    hitLink d l = loseLink d p l := by
  unfold hitLink
  rw [hport]
  simp [hl, hup]

theorem faultLane_pair {second : Nat} (hne : second ≠ l) : faultLane d l 4 second =
    raise (markLane (hitLink (markLane d l 4) second) second 4) (evUnit (laneUnit l) 0xA10 2 [(1, l), (1, 4), (1, second)]) := by
  unfold faultLane
  dsimp only
  rw [if_pos (by simp [hne])]
  rfl

/-- A lane excluded for a fault, whose unit has not been stopped, is rechecked. -/
structure Rechecks (d : Dev) (l : Nat) : Prop where
  excluded : laneExcluded d l = true
  fault : getF d (SDS l) 12 4 ≠ 0
  started : l ∉ d.mac.stopped
  live : halted d = false

theorem laneRecheck_counts {pass : Bool} (h : Rechecks d l) (hn : pass = false ∨ nth d.mac.passes l 0 < 2) : laneRecheck d l pass =
    { d with mac := { d.mac with passes := upd d.mac.passes l (if pass then nth d.mac.passes l 0 + 1 else 0) } } := by
  have hfew : (if pass then nth d.mac.passes l 0 + 1 else 0) < 3 := by
    rcases hn with rfl | hn
    · exact Nat.zero_lt_succ 2
    · split <;> omega
  unfold laneRecheck
  rw [if_neg (by simp [h.excluded, h.fault, h.started, h.live])]
  exact if_pos hfew

/-- A port whose link is UP without one of its lanes waits for a full-width retrain, where it may widen. -/
theorem retrain_eq (d : Dev) (l : Nat) (o : Option Nat) :
    (match o with
     | some p =>
       if linkUp d p && getB d (MACP p + 4) 14 && !(getPort d p).group.contains l then putPort d p { getPort d p with retrain := true } else d
     | none => d) =
    (match o with
     | some p =>
       if linkUp d p = true ∧ getB d (MACP p + 4) 14 = true ∧ l ∉ (getPort d p).group then putPort d p { getPort d p with retrain := true } else d
     | none => d) := by
  cases o with
  | none => rfl
  | some p => exact ite_congr (propext (by simp [and_assoc])) (fun _ => rfl) fun _ => rfl

theorem laneRecheck_clears (h : Rechecks d l) (hn : 2 ≤ nth d.mac.passes l 0) : laneRecheck d l true =
    (let d := { d with mac := { d.mac with passes := upd d.mac.passes l 0 } }
     let d := raise (putB (setF d (SDS l) 12 4 0) (SDS l) 16 false) (evUnit (laneUnit l) 0xA11 0 [(1, l)])
     match portOfLane d l with
     | some p =>
       if linkUp d p = true ∧ getB d (MACP p + 4) 14 = true ∧ l ∉ (getPort d p).group then putPort d p { getPort d p with retrain := true } else d
     | none => d) := by
  unfold laneRecheck
  rw [if_neg (by simp [h.excluded, h.fault, h.started, h.live])]
  dsimp only
  rw [if_neg (by rw [if_pos rfl]; omega)]
  exact retrain_eq _ l _

/-! ### Roles and failover (R137, R145) -/

theorem writeRole_refused {v : Word} (hv : bit v 0 = true) (hs : portStarted d p = true) (hsum : 800 < activeSum d p + portRate d p) :
    writeRole d p v = putB d (MACP p) 10 true := if_pos (by simp [hv, hs, hsum])

theorem writeRole_standby {v : Word} (hv : bit v 0 = false) : writeRole d p v = showRole (setReg d (MACP p + 0xC) (v &&& 0x171)) p := by
  unfold writeRole
  rw [hv]
  rfl

theorem failover_due (hpend : (getPort d p).failPend = some n) (hn : n < d.tim.stride) (hh : halted d = false) (hact : isActive d p = true)
    (hen : getB d (MACP p + 0xC) 8 = true) (hdown : linkUp d p = false) : failover d p =
    (let d := putPort d p { getPort d p with failPend := none }
     let r := partner d p
     if r ≠ p ∧ portStarted d r = true ∧ isActive d r = false ∧ linkUp d r = true ∧ activeSum d p + portRate d r ≤ 800 then
       let d := flushPort (setRole (setRole d p false) r true) p
       let d := putBrd d p { getBrd d p with movedTo := some r }
       let d := putBrd d r { getBrd d r with movedTo := none }
       raise d (evUnit (portUnit p) 0xA03 1 [(1, p), (1, r), (1, 0)])
     else raise d (evUnit (portUnit p) 0xA03 1 [(1, p), (1, r), (1, 1)])) := by
  have hstay : ¬(!isActive (putPort d p { getPort d p with failPend := none }) p ||
      !getB (putPort d p { getPort d p with failPend := none }) (MACP p + 0xC) 8 ||
      linkUp (putPort d p { getPort d p with failPend := none }) p) = true := by
    change ¬(!isActive d p || !getB d (MACP p + 0xC) 8 || linkUp d p) = true
    simp [hact, hen, hdown]
  unfold failover
  rw [hpend]
  dsimp only
  rw [if_neg (by simp [hn, hh]), if_neg hstay, ← ite_not]
  exact ite_congr (propext (by simp [and_assoc])) (fun _ => rfl) fun _ => rfl

/-- Settles O44: the line check by `endCheck_none` and `endCheck_some`, Clause 73 by `anFinds_highest`, each other step of a link, lane or
role by what it does under its guard. -/
theorem linksAndRolesComplete : Obligations.LinksAndRolesComplete := by
  unfold Obligations.LinksAndRolesComplete
  refine ⟨?check, ?checked, ?resolve, ?finds, ?trained, ?timeout, ?up, ?down, ?retry, ?link, ?unused, ?used, ?pair, ?counts, ?clears, ?role,
    ?failover⟩
  case check => exact fun s p found hin => congrArg (nextWith s) (if_pos hin)
  case checked =>
    refine fun d p hp w => ⟨fun h => ?_, fun t g h => ?_⟩
    · rw [endCheck_none h]
      refine ⟨(setLink_shows (d := putPort d p _) w p (by decide)).1, ?_⟩
      obtain ⟨lanes, hlink⟩ := setLink_eq (putPort d p { getPort d p with group := [] }) p 0
      rw [hlink]
      exact group_putPort_nil d p
    · obtain ⟨n, hn, he⟩ := endCheck_some h
      obtain ⟨wg, htype⟩ := withGroup_type w hp t g
      rw [he, (setLink_shows wg p (by omega)).1]
      exact ⟨(setLink_keepsType _ p n wg).2.trans htype, hn⟩
  case resolve =>
    exact fun s p y hin => ⟨fun t f h => congrArg (nextWith s) (anResolve_finds hin h), fun h => congrArg (nextWith s) (anResolve_finds_none h)⟩
  case finds =>
    intro d p t f y h
    obtain ⟨hcan, hpar, hpages⟩ := anFinds_highest h
    obtain ⟨hadv, hlanes⟩ := carries_iff.1 hcan
    refine ⟨hadv, hlanes, hpar, fun hy => ⟨(hpages hy).1, fun u hu hadvU hlanesU => (hpages hy).2 u hu (carries_iff.2 ⟨hadvU, hlanesU⟩)⟩⟩
  case trained => exact fun s p taps inv hin => congrArg (nextWith s) (if_neg (by simp [hin]))
  case timeout => exact fun s p hin => congrArg (nextWith s) (trainTimeout_fails hin)
  case up => exact fun s p order inv skew hin hlen hall hrev => ⟨_, congrArg (nextWith s) (linkComesUp_aligned hin hlen hall hrev), rfl⟩
  case down =>
    intro s p l hin hl
    exact congrArg (nextWith s) ((if_pos (by simp [hin, hl])).trans (loseLink_up (portIn_iff.1 hin).2.1 l))
  case retry => exact fun s p hin => congrArg (nextWith s) (if_pos hin)
  case link => exact fun d p n _ hn w => setLink_shows w p hn
  case unused => exact fun s l p code second h1 h2 h3 h4 h5 hl => congrArg (nextWith s) (laneFails_unused ⟨h1, h2, h3, h4, h5⟩ hl)
  case used => exact fun s l p code second h1 h2 h3 h4 h5 hup hl => congrArg (nextWith s) (laneFails_up ⟨h1, h2, h3, h4, h5⟩ hup hl)
  case pair =>
    intro d l second p hne hport hl hup
    rw [faultLane_pair hne, hitLink_up hport hl hup]
  case counts => exact fun s l pass h1 h2 h3 h4 hn => congrArg (nextWith s) (laneRecheck_counts ⟨h1, h2, h3, h4⟩ hn)
  case clears => exact fun s l h1 h2 h3 h4 hn => congrArg (nextWith s) (laneRecheck_clears ⟨h1, h2, h3, h4⟩ hn)
  case role => exact fun s p v => ⟨rfl, writeRole_refused, writeRole_standby⟩
  case failover => exact fun s p n hpend hn hh hact hen hdown => congrArg (nextWith s) (failover_due hpend hn hh hact hen hdown)

end Sys2Proof.Machine
end

section
/-! Frames at a port (R146 to R153): the statement's frame of a stored frame leaves out the watermark monitor of the packet cells. -/
namespace Sys2Proof.Machine

/-- Port 7 of an SNU-V4 in BRIDGE RUNNING and active, its link UP at 10 Gb/s. -/
def receivingPort : Dev :=
  let d := Dev.reset .v4
  let d := { d with sys := { d.sys with mode := .bridge } }
  setReg (setReg d (MACP 7) (wd (2 + 2048 + 5 * 4096 + 65536))) (MACP 7 + 0xC) 1

/-- The shortest frame, with its FCS. -/
def shortestFrame : List Byte := List.replicate 60 0 ++ leBytes (crc32 (List.replicate 60 0)) 4

/-- Storing starts with the cells of a longest frame, which PKE_CELL_WM_MAX keeps (R153, R360). -/
theorem reg_cellMax_receiveFrame : reg receivingPort (PKE + 0x1C) = 0 ∧
    reg (receiveFrame receivingPort (7 : Fin 8) shortestFrame 0 none) (PKE + 0x1C) = 6 := by
  constructor <;> decide +kernel

/-- What the frame's reception needs: a port that receives, the frame's length and FCS, and cells for a longest frame. -/
theorem shortestFrame_stored : receives receivingPort (7 : Fin 8) = true ∧ rxBlind receivingPort (7 : Fin 8) = false ∧
    fcsGood shortestFrame = true ∧ beNat (slice shortestFrame 12 2) ≠ 0x8808 ∧
    (64 ≤ shortestFrame.length ∧ shortestFrame.length ≤ maxFrame receivingPort (7 : Fin 8)) ∧
    cellsFor (maxFrame receivingPort (7 : Fin 8) - 4) ≤ portFree receivingPort (7 : Fin 8) + poolFree receivingPort := by
  refine ⟨?_, ?_, ?_, ?_, ?_, ?_⟩ <;> decide +kernel

theorem exec_frameReceive (s : State) (p : Fin 8) (bytes : List Byte) (capture : Nat) (fifo : Option Nat) :
    exec (.frameReceive p bytes capture fifo) s = nextWith s (receiveFrame s.dev p bytes capture fifo) := rfl

/-- Next states of one state with the same device have the same device. -/
theorem nextWith_inj {s : State} {a b : Dev} (h : nextWith s a = nextWith s b) : a = b := congrArg State.dev (Host.Outcome.next.inj h)

/-- Refutes O45: a frame that is stored on an idle device raises PKE_CELL_WM_MAX from 0 to the 6 cells that its reception reserves
(R153, R360), and the clause for a stored frame lets nothing but ledgers, packets and the port's frame count change. -/
theorem not_framesAtAPort : ¬ Obligations.FramesAtAPort := by
  unfold Obligations.FramesAtAPort
  rintro ⟨hreceive, -⟩
  obtain ⟨hrx, hseen, hfcs, htype, ⟨hmin, hmax⟩, hcells⟩ := shortestFrame_stored
  obtain ⟨-, -, -, -, hstore⟩ := hreceive ⟨receivingPort, []⟩ 7 shortestFrame 0 none hrx
  obtain ⟨d, k, hexec, hframe, -⟩ := hstore hseen hmin hfcs htype hmax hcells rfl
  have hnext := nextWith_inj ((exec_frameReceive ..).symm.trans hexec)
  have hkept : reg (cnt d (MACP (7 : Fin 8) + 0x40) 1) (PKE + 0x1C) = reg receivingPort (PKE + 0x1C) := by
    rw [cnt, reg_setReg_ne d (by decide), hframe]
    rfl
  obtain ⟨hbefore, hafter⟩ := reg_cellMax_receiveFrame
  rw [hnext, hkept, hbefore] at hafter
  exact absurd hafter (by decide)

end Sys2Proof.Machine
end

section
/-! The packet engine: dispatch, the parse instructions and the returns of lookups (R154 to R159, R161, R164). -/
namespace Sys2Proof.Machine

/-! ### Dispatch (R155) -/

section Dispatch
variable {d : Dev} {th : Nat} {k : Pkt} {ks : List Pkt}

theorem threads_any_eq_false (h : ∀ t ∈ d.pke.threads, t.th ≠ th) : (d.pke.threads.any fun t => t.th == th) = false :=
  List.any_eq_false.2 fun t ht => by simpa using h t ht

theorem dispatch_recirc (hw : pkeWorks d = true) (hth : ∀ t ∈ d.pke.threads, t.th ≠ th) (hk : d.pke.recirc = k :: ks) :
    dispatch d th = startLap (cnt { d with pke := { d.pke with recirc := ks } } (PKE + 0x118) 1) th k k.entry := by
  simp [dispatch, hw, threads_any_eq_false hth, hk]

theorem dispatch_ready (hw : pkeWorks d = true) (hrun : uState d ⟨7, 0xFF, 0⟩ = 2) (hth : ∀ t ∈ d.pke.threads, t.th ≠ th)
    (hr : d.pke.recirc = []) (hk : d.pke.ready = k :: ks) (hs : d.pke.swap = none) (ho : k.oversize = false) :
    dispatch d th = startLap { d with pke := { d.pke with ready := ks } } th { k with epoch := liveEpoch d } 0 := by
  simp [dispatch, hw, threads_any_eq_false hth, hr, hk, hs, ho, hrun]

end Dispatch

/-! ### One instruction of a thread (R157) -/

/-- What the end of an instruction that thread `t` issued leaves of the device. -/
def lapEffect (d : Dev) (t : Thread) : Lap → Dev
  | .go u => putThread d u
  | .open_ g => putThread (drawFree d 32).2 (g (drawFree d 32).1)
  | .fin v u => endLap d u v t.pc

section Instructions
variable {d : Dev} {th op w : Nat} {t : Thread} {f : Nat → Thread → Lap} {l l' : Lap} {i : Instr} {s : State}

/-- A thread that issues an instruction of the command's opcode takes what the instruction does. -/
theorem parseStep_effect (h : Parses d th op t w) (hop : 1 ≤ op ∧ op ≤ 10) :
    parseStep d th op f = lapEffect d t (f w (stepped t)) := by
  have hfetch : (if t.pc < 4096 then (spGet (nth d.pke.prog (t.pkt.epoch % 2) []) t.pc).toNat else 0) = w := by
    rw [if_pos h.place, h.word]
  have hissues : (t.waiting || !pkeWorks d) = false := by simp [h.waiting, h.works]
  have hissued := h.issued
  have hdefined : ¬(t.issued = 128 ∨ op = 0 ∨ 10 < op) := by omega
  simp only [parseStep, h.thread, hfetch, hissues, Bool.false_eq_true, if_false, h.opcode, hdefined, ne_eq, not_true_eq_false]
  rfl

theorem exec_lap (he : exec i s = nextWith s (parseStep s.dev th op f)) (hp : Parses s.dev th op t w)
    (hl : f w (stepped t) = l) (hop : 1 ≤ op ∧ op ≤ 10 := by decide) : exec i s = nextWith s (lapEffect s.dev t l) := by
  rw [he, parseStep_effect hp hop, hl]

theorem exec_lap_ite {c : Prop} [Decidable c] (he : exec i s = nextWith s (parseStep s.dev th op f)) (hp : Parses s.dev th op t w)
    (hl : f w (stepped t) = if c then l else l') (hop : 1 ≤ op ∧ op ≤ 10 := by decide) :
    exec i s = nextWith s (if c then lapEffect s.dev t l else lapEffect s.dev t l') := by
  rw [exec_lap he hp hl hop, apply_ite (lapEffect s.dev t)]

/-! ### What each instruction does to its thread (R156, R158) -/

theorem lapLd_inside (hs : iSub w = 0) (ha : accessBad t (t.cursor + iOff w / 8) ((iOff w % 8 + (iWid w + 1) + 7) / 8) = none) :
    lapLd w t = .go { t with
      w := upd t.w (iWd w) (wd (bitsOf (slice t.pkt.bytes (lapBase t + (t.cursor + iOff w / 8)) ((iOff w % 8 + (iWid w + 1) + 7) / 8))
        (iOff w % 8) (iWid w + 1))) } := by
  simp only [lapLd, hs, ha, ne_eq, not_true_eq_false, if_false]

theorem lapLd_outside {v : Nat} (hs : iSub w = 0)
    (ha : accessBad t (t.cursor + iOff w / 8) ((iOff w % 8 + (iWid w + 1) + 7) / 8) = some v) : lapLd w t = .fin v t := by
  simp only [lapLd, hs, ha, ne_eq, not_true_eq_false, if_false]

/-- The results that the table states for ALU: no shift by 32 or more. -/
def AluGives (t : Thread) (w : Nat) (v : Word) : Prop :=
  let a := reg32 t (iWa w)
  let b := opB t w
  (iSub w = 0 ∧ v = a + b) ∨ (iSub w = 1 ∧ v = a - b) ∨ (iSub w = 2 ∧ v = a &&& b) ∨ (iSub w = 3 ∧ v = a ||| b) ∨
  (iSub w = 4 ∧ v = a ^^^ b) ∨ (iSub w = 5 ∧ b.toNat < 32 ∧ v = a <<< b.toNat) ∨ (iSub w = 6 ∧ b.toNat < 32 ∧ v = a >>> b.toNat)

theorem lapAlu_stated {v : Word} (h : AluGives t w v) : lapAlu w t = .go { t with w := upd t.w (iWd w) v } := by
  rcases h with ⟨hs, rfl⟩ | ⟨hs, rfl⟩ | ⟨hs, rfl⟩ | ⟨hs, rfl⟩ | ⟨hs, rfl⟩ | ⟨hs, hb, rfl⟩ | ⟨hs, hb, rfl⟩ <;> simp only [lapAlu, hs]
  · exact if_neg (Nat.not_le.2 hb)
  · exact if_neg (Nat.not_le.2 hb)

theorem lapAlu_shiftOut (hs : iSub w = 5 ∨ iSub w = 6) (hb : 32 ≤ (opB t w).toNat) :
    lapAlu w t = .open_ fun v => { t with w := upd t.w (iWd w) v } := by
  rcases hs with hs | hs <;> simp only [lapAlu, hs, if_pos hb]

theorem lapBr_stated (hs : iSub w ≤ 4) :
    lapBr w t = .go (
      let a := (reg32 t (iWa w)).toNat
      let b := (opB t w).toNat
      if (iSub w = 0 ∧ a = b) ∨ (iSub w = 1 ∧ a ≠ b) ∨ (iSub w = 2 ∧ a < b) ∨ (iSub w = 3 ∧ b ≤ a) ∨ iSub w = 4 then
        { t with pc := iTgt w }
      else t) := by
  obtain hs | hs | hs | hs | hs : iSub w = 0 ∨ iSub w = 1 ∨ iSub w = 2 ∨ iSub w = 3 ∨ iSub w = 4 := by omega
  all_goals simp [lapBr, hs]

theorem nth_advScale (hs : iSub w ≤ 3) :
    nth [0, 1, 4, 8] (iSub w) 0 = if iSub w = 0 then 0 else if iSub w = 1 then 1 else if iSub w = 2 then 4 else 8 := by
  obtain hs | hs | hs | hs : iSub w = 0 ∨ iSub w = 1 ∨ iSub w = 2 ∨ iSub w = 3 := by omega
  all_goals simp [nth, hs]

theorem lapAdv_stated (hs : iSub w ≤ 3) :
    lapAdv w t =
      let k := if iSub w = 0 then 0 else if iSub w = 1 then 1 else if iSub w = 2 then 4 else 8
      let c := t.cursor + iImm w + k * (reg32 t (iWa w)).toNat
      if c ≤ 256 then .go { t with cursor := c } else .fin 1 t := by
  simp only [lapAdv, nth_advScale hs, if_neg (Nat.not_lt.2 hs), ← ite_not (_ ≤ _), Nat.not_le]

theorem lapNode_stated (hs : iSub w = 0) : lapNode w t = if t.nodes = 12 then .fin 1 t else .go { t with nodes := t.nodes + 1 } := by
  simp [lapNode, hs]

theorem lapKeyw_fits (hs : iSub w ≤ 3) (hk : iImm w % 64 + iSub w + 1 ≤ 40) :
    lapKeyw w t = .go { t with key := splice t.key (iImm w % 64) (beBytes (reg32 t (iWa w)).toNat (iSub w + 1)) } :=
  if_neg (by omega)

theorem lapKeyp_fits (ho : iOff w % 8 = 0) (hk : iImm w % 64 + iSub w + 1 ≤ 40)
    (ha : accessBad t (t.cursor + iOff w / 8) (iSub w + 1) = none) :
    lapKeyp w t = .go { t with
      key := splice t.key (iImm w % 64) (slice t.pkt.bytes (lapBase t + (t.cursor + iOff w / 8)) (iSub w + 1)) } := by
  have hfits : ¬(iOff w % 8 ≠ 0 ∨ 40 < iImm w % 64 + (iSub w + 1)) := by omega
  simp only [lapKeyp, hfits, if_false, ha]

/-- LENCHK of an IPv4 header, whose length field must hold the header, or of an IPv6 header. -/
theorem lapLenchk_ip (hs : iSub w ≤ 1) :
    lapLenchk w t =
      let n := (reg32 t (iWa w)).toNat
      let c := lapBase t + t.cursor
      let e := if iSub w = 0 then c + n else c + 40 + n
      let b := t.ipEnd.getD t.pkt.bytes.length
      if (iSub w = 1 ∨ 4 * ((nth t.pkt.bytes c 0).toNat % 16) ≤ n) ∧ e ≤ b ∧ (e = b ∨ (t.ipEnd = none ∧ t.pkt.bytes.length = 60)) then
        .go { t with ipEnd := some e }
      else .fin 2 t := by
  obtain hs | hs : iSub w = 0 ∨ iSub w = 1 := by omega
  all_goals simp [lapLenchk, hs, and_assoc]

theorem lapLenchk_udp (hs : iSub w = 2) :
    lapLenchk w t =
      let n := (reg32 t (iWa w)).toNat
      let c := lapBase t + t.cursor
      let fits : Bool := match t.ipEnd with | some e => c + n == e | none => decide (c + n ≤ t.pkt.bytes.length)
      if 8 ≤ n ∧ fits = true then .go t else .fin 2 t := by
  cases he : t.ipEnd <;> simp [lapLenchk, hs, he]

theorem lapMeta_profile (hs : iSub w = 0) : lapMeta w t = .go { t with profile := iImm w % 16 } := by simp [lapMeta, hs]

theorem lapMeta_lap2 (hs : iSub w = 1) :
    lapMeta w t = if lapBase t + t.cursor + iImm w ≤ 255 then .go { t with lap2 := lapBase t + t.cursor + iImm w } else .fin 1 t := by
  simp only [lapMeta, hs, ← Nat.not_le, ite_not]

theorem lapMeta_l4 (hs : iSub w = 2) :
    lapMeta w t = if lapBase t + t.cursor ≤ 255 then .go { t with l4 := lapBase t + t.cursor } else .fin 1 t := by
  simp only [lapMeta, hs, ← Nat.not_le, ite_not]

theorem lapVerd_defined (hs : iSub w = 0) (hv : iImm w % 16 ≤ 8) : lapVerd w t = .fin (iImm w % 16) t := if_neg (by omega)
theorem lapVerd_undefined (h : iSub w ≠ 0 ∨ 8 < iImm w % 16) : lapVerd w t = .fin 8 t := if_pos (by omega)

end Instructions

/-! ### Lookups that return and the slow path (R161, R164) -/

section Returns
variable {d : Dev} {th : Nat} {t : Thread} {ueA ueB : Bool} {k : Pkt} {ks : List Pkt}

theorem emReturn_waiting (ht : d.pke.threads.find? (fun x => x.th == th) = some t) (hwait : t.waiting = true) (hw : pkeWorks d = true) :
    emReturn d th ueA ueB =
      let d := { d with pke := { d.pke with threads := d.pke.threads.filter fun x => x.th != th } }
      if (ueA || emBad d 0 t.profile t.key) = true ∧ (ueB || emBad d 1 t.profile t.key) = true then
        lookupDone (raise d (evUnit ⟨7, 0xFF, 0⟩ 0x906 2 [(4, emBucket d.variant 0 t.profile t.key), (1, 2)])) t.pkt t.key none
      else lookupDone d t.pkt t.key (emFind d t.profile t.key) := by
  have hworks : (!t.waiting || !pkeWorks d) = false := by simp [hwait, hw]
  simp only [emReturn, ht, hworks, Bool.false_eq_true, if_false, Bool.and_eq_true]

theorem slowService_head (hk : d.pke.slow = k :: ks) (hg : ∃ q, q < 4 ∧ groomUp d q = true) :
    slowService d =
      let e := if k.cls = 7 then { d with tim := { d.tim with ptp := d.tim.ptp ++ [⟨k.port, k.bytes, k.rxTime⟩] } } else d
      freePkt { e with pke := { e.pke with slow := ks } } k := by
  have hup : (List.range 4).any (groomUp d) = true := List.any_eq_true.2 (hg.imp fun q ⟨hq, h⟩ => ⟨List.mem_range.2 hq, h⟩)
  simp only [slowService, hk, hup, if_true]

end Returns

/-- Settles O46: dispatch and the returns by their own lemmas, each instruction by what it does to its thread (the lemmas `lap…`). -/
theorem parseInstructionsComplete : Obligations.ParseInstructionsComplete := by
  unfold Obligations.ParseInstructionsComplete
  refine ⟨?recirc, ?ready, ?ld, ?alu, ?shift, ?br, ?adv, ?node, ?keyw, ?keyp, ?lenIp, ?lenUdp, ?metaOp, ?verd, ?undefined, ?lookup, ?slow,
    fun _ _ _ => rfl⟩
  case recirc => exact fun s th k ks hw hth hk => congrArg (nextWith s) (dispatch_recirc hw hth hk)
  case ready => exact fun s th k ks hw hrun hth hr hk hs ho => congrArg (nextWith s) (dispatch_ready hw hrun hth hr hk hs ho)
  case ld =>
    intro s th t w hp hs
    exact ⟨fun ha => exec_lap rfl hp (lapLd_inside hs ha), fun v ha => exec_lap rfl hp (lapLd_outside hs ha)⟩
  case alu => exact fun s th t w v hp hv => exec_lap rfl hp (lapAlu_stated hv)
  case shift => exact fun s th t w hp hs hb => exec_lap rfl hp (lapAlu_shiftOut hs hb)
  case br => exact fun s th t w hp hs => exec_lap rfl hp (lapBr_stated hs)
  case adv => exact fun s th t w hp hs => exec_lap_ite rfl hp (lapAdv_stated hs)
  case node => exact fun s th t w hp hs => exec_lap_ite rfl hp (lapNode_stated hs)
  case keyw => exact fun s th t w hp hs hk => exec_lap rfl hp (lapKeyw_fits hs hk)
  case keyp => exact fun s th t w hp ho hk ha => exec_lap rfl hp (lapKeyp_fits ho hk ha)
  case lenIp => exact fun s th t w hp hs => exec_lap_ite rfl hp (lapLenchk_ip hs)
  case lenUdp => exact fun s th t w hp hs => exec_lap_ite rfl hp (lapLenchk_udp hs)
  case metaOp =>
    intro s th t w hp
    exact ⟨fun hs => exec_lap rfl hp (lapMeta_profile hs), fun hs => exec_lap_ite rfl hp (lapMeta_lap2 hs),
      fun hs => exec_lap_ite rfl hp (lapMeta_l4 hs)⟩
  case verd => exact fun s th t w hp hs hv => exec_lap rfl hp (lapVerd_defined hs hv)
  case undefined => exact fun s th t w hp h => exec_lap rfl hp (lapVerd_undefined h)
  case lookup => exact fun s th t ueA ueB ht hwait hw => congrArg (nextWith s) (emReturn_waiting ht hwait hw)
  case slow => exact fun s k ks hk hg => congrArg (nextWith s) (slowService_head hk hg)

end Sys2Proof.Machine
end

section
/-! What becomes of a packet after its lookup: the exact-match table under inserts and deletes, the ways out, the ACL (R159 to R164). -/
namespace Sys2Proof.Machine

section Lookups
variable {d e : Dev} {p q : Nat} {key k' : List Byte} {a : BitVec 128} {leg : Option Nat} {r : EmRow}

/-! ### Rows of the exact-match table -/

/-- The entry is the one of this profile and key. -/
def keyed (p : Nat) (key : List Byte) (r : EmRow) : Bool := r.profile == p && r.key == key

theorem emFind_eq (d : Dev) (p : Nat) (key : List Byte) : emFind d p key = d.pke.em.find? (keyed p key) := rfl

theorem keyed_iff : keyed p key r = true ↔ (r.profile, r.key) = (p, key) := by simp [keyed]

theorem keyed_other (hne : (q, k') ≠ (p, key)) (h : keyed q k' r = true) : keyed p key r = false :=
  Bool.eq_false_iff.2 fun hk => hne ((keyed_iff.1 h).symm.trans (keyed_iff.1 hk))

/-- An entry with its action and leg replaced where it is the one of this profile and key. -/
def withAction (p : Nat) (key : List Byte) (a : BitVec 128) (leg : Option Nat) (r : EmRow) : EmRow :=
  if keyed p key r then { r with action := a, leg := leg } else r

theorem keyed_withAction : keyed q k' ∘ withAction p key a leg = keyed q k' := by
  funext r
  simp only [Function.comp, withAction]
  split <;> rfl

/-! ### Insert and delete (R162) -/

theorem ledgTake_pke (d : Dev) (l i n : Nat) : (ledgTake d l i n).pke = d.pke :=
  (ledgTake_only (e := (· ≠ .pke)) (by decide) (by decide) (by decide) (Only.refl d)).pke (by decide)

theorem ledgGive_pke (d : Dev) (l i n : Nat) : (ledgGive d l i n).pke = d.pke :=
  (ledgGive_only (e := (· ≠ .pke)) (by decide) (by decide) (by decide) (Only.refl d)).pke (by decide)

theorem mem_cache_touchCache (d : Dev) (p : Nat) (key : List Byte) : (p, key) ∈ (touchCache d p key).pke.cache := by
  simp [touchCache]

/-- What an insert that succeeds does to the table: it replaces the action of the entry that exists, or adds one. -/
theorem emInsert_cases (h : emInsert d p key a leg = some e) : (p, key) ∈ e.pke.cache ∧
    ((∃ r, emFind d p key = some r) ∧ e.pke.em = d.pke.em.map (withAction p key a leg) ∨
     emFind d p key = none ∧ ∃ r, keyed p key r = true ∧ r.action = a ∧ r.leg = leg ∧ e.pke.em = d.pke.em ++ [r]) := by
  unfold emInsert at h
  split at h
  case h_1 r hr =>
    cases h
    exact ⟨mem_cache_touchCache .., .inl ⟨⟨r, hr⟩, rfl⟩⟩
  case h_2 hnone =>
    cases hb : emPlace d p key with
    | none => simp [hb] at h
    | some b =>
      rw [hb] at h
      cases h
      refine ⟨mem_cache_touchCache .., .inr ⟨hnone, ⟨b, emSlot d b, p, key, a, leg⟩, by simp [keyed], rfl, rfl, ?_⟩⟩
      simp [touchCache, showEm, ledgTake_pke]

theorem emInsert_finds (h : emInsert d p key a leg = some e) : ∃ r, emFind e p key = some r ∧ r.action = a ∧ r.leg = leg := by
  obtain ⟨-, ⟨⟨r, hr⟩, hem⟩ | ⟨hnone, r, hk, ha, hl, hem⟩⟩ := emInsert_cases h
  · have hk : keyed p key r = true := List.find?_some (emFind_eq d p key ▸ hr)
    refine ⟨withAction p key a leg r, ?_, by simp [withAction, hk], by simp [withAction, hk]⟩
    rw [emFind_eq, hem, List.find?_map, keyed_withAction, ← emFind_eq, hr, Option.map_some]
  · refine ⟨r, ?_, ha, hl⟩
    rw [emFind_eq, hem, List.find?_append, ← emFind_eq, hnone, Option.none_or, List.find?_singleton, if_pos hk]

theorem emInsert_other (h : emInsert d p key a leg = some e) (hne : (q, k') ≠ (p, key)) : emFind e q k' = emFind d q k' := by
  obtain ⟨-, ⟨-, hem⟩ | ⟨-, r, hk, -, -, hem⟩⟩ := emInsert_cases h
  · rw [emFind_eq, hem, List.find?_map, keyed_withAction, ← emFind_eq]
    cases hr : emFind d q k' with
    | none => rfl
    | some r =>
      have hk := keyed_other hne (List.find?_some (emFind_eq d q k' ▸ hr))
      simp [withAction, hk]
  · have hk' : ¬keyed q k' r = true := fun hq => by simp [keyed_other hne hq] at hk
    rw [emFind_eq, hem, List.find?_append, List.find?_singleton, if_neg hk', Option.or_none, ← emFind_eq]

theorem emDelete_em (d : Dev) (p : Nat) (key : List Byte) : (emDelete d p key).pke.em = d.pke.em.filter fun r => !keyed p key r := by
  unfold emDelete
  split
  case h_1 hnone =>
    refine (List.filter_eq_self.2 fun r hr => ?_).symm
    simpa using List.find?_eq_none.1 (emFind_eq d p key ▸ hnone) r hr
  case h_2 =>
    rw [showEm, setF_pke, ledgGive_pke]
    rfl

theorem emDelete_misses (d : Dev) (p : Nat) (key : List Byte) : emFind (emDelete d p key) p key = none := by
  rw [emFind_eq, emDelete_em, List.find?_filter, List.find?_eq_none]
  simp

theorem emDelete_other (hne : (q, k') ≠ (p, key)) : emFind (emDelete d p key) q k' = emFind d q k' := by
  rw [emFind_eq, emDelete_em, List.find?_filter, emFind_eq]
  congr 1
  funext r
  cases hr : keyed q k' r with
  | false => simp
  | true => simp [keyed_other hne hr]

/-! ### Where a packet goes (R164), and the entry of the ACL -/

theorem enterSlow_admits {k : Pkt} {cls : Nat} (hrate : nth d.pke.slowCnt cls 0 < nth d.pke.slowRate cls 0)
    (hroom : d.pke.slow.length < 8192) :
    enterSlow d k cls = { d with pke := { d.pke with
      slowCnt := upd d.pke.slowCnt cls (nth d.pke.slowCnt cls 0 + 1), slow := d.pke.slow ++ [{ k with cls := cls }] } } :=
  if_pos ⟨hrate, hroom⟩

theorem deliverPkt_slow {k : Pkt} (h : actKind a = 1) : deliverPkt d k a = enterSlow d k (actClass a) := by simp only [deliverPkt, h]

theorem deliverPkt_media {k : Pkt} (h : actKind a = 2) :
    deliverPkt d k a = { d with sec := { d.sec with inq := d.sec.inq ++ [{ k with target := actTarget a, tag := actTag a }] } } := by
  simp only [deliverPkt, h]

theorem deliverPkt_drop {k : Pkt} (h : actKind a = 0) : deliverPkt d k a = freePkt d k := by simp only [deliverPkt, h]

theorem aclFind_matches {bank : Nat} {row : AclRow} (h : aclFind d bank key = some row) : ternary key row.value row.mask = true :=
  List.find?_some (p := fun r : AclRow => ternary key r.value r.mask) h

/-- The first match of a bank that stands in index order has the lowest index. -/
theorem aclFind_lowest {bank : Nat} {row x : AclRow} (h : aclFind d bank key = some row)
    (hord : (nth d.pke.acl bank []).Pairwise (fun x y => x.idx < y.idx)) (hx : x ∈ nth d.pke.acl bank [])
    (hm : ternary key x.value x.mask = true) : row.idx ≤ x.idx := by
  obtain ⟨-, before, after, hsplit, hfirst⟩ := List.find?_eq_some_iff_append.1 h
  rw [hsplit] at hord hx
  rcases List.mem_append.1 hx with hx | hx
  · have hno := hfirst x hx
    simp [hm] at hno
  · rcases List.mem_cons.1 hx with rfl | hx
    · exact Nat.le_refl _
    · exact Nat.le_of_lt (List.rel_of_pairwise_cons (List.pairwise_append.1 hord).2.1 hx)

end Lookups

/-- Settles O47: the table by `emInsert_cases` and `emDelete_em`, the ways out by the action's kind, the ACL by its first match. -/
theorem lookupsAndActions : Obligations.LookupsAndActions := by
  unfold Obligations.LookupsAndActions
  refine ⟨?insert, ?delete, ?media, ?drop, ?slow, ?acl⟩
  case insert =>
    intro d e p key a leg h
    obtain ⟨r, hr, ha, hl⟩ := emInsert_finds h
    exact ⟨(emInsert_cases h).1, r, hr, ha, hl, fun q k hne => emInsert_other h hne⟩
  case delete => exact fun d p key => ⟨emDelete_misses d p key, fun q k hne => emDelete_other hne⟩
  case media => exact fun d k a h => deliverPkt_media h
  case drop => exact fun d k a h => deliverPkt_drop h
  case slow =>
    intro d k a h hrate hroom
    rw [deliverPkt_slow h, enterSlow_admits hrate hroom]
    exact ⟨rfl, rfl⟩
  case acl => exact fun d bank key r h => ⟨aclFind_matches h, fun hord x hx hm => aclFind_lowest h hord hx hm⟩

end Sys2Proof.Machine
end

section
/-! The SRTP engines: packets through the checks of their slots (R177, R179, R181), the replay window, self-test and key
generations (R171, R173). -/
namespace Sys2Proof.Machine

/-! ### A packet that the engines take (R177) -/

section Taken
variable {d : Dev} {r : LayerRead} {fault : Bool} {k : Pkt} {ks : List Pkt} {l : Leg}

/-- The device with the oldest packet of class MEDIA taken, which meets a faulty engine or none. -/
def takeMedia (d : Dev) (ks : List Pkt) (fault : Bool) : Dev := { d with sec := { d.sec with inq := ks, faulty := fault } }

variable (hq : d.sec.inq = k :: ks) (hrun : running d secUnit = true)
include hq hrun

theorem srtpInbound_noLeg (hleg : findLeg d k.target = none) :
    srtpInbound d r fault = dropIn (takeMedia d ks fault) k 2 0 k.target 0 := by
  replace hleg : findLeg { d with sec := { d.sec with inq := ks, faulty := fault } } k.target = none := hleg
  simp only [srtpInbound, hq, hrun, hleg, Bool.not_true, Bool.false_eq_true, if_false, takeMedia]

theorem srtpInbound_leg (hleg : findLeg d k.target = some l) :
    srtpInbound d r fault =
      if l.out then dropIn (takeMedia d ks fault) k 2 0 k.target 0
      else if k.profile = 2 then inboundRtcp (takeMedia d ks fault) l k (udpPayload k)
      else if 9216 < (udpPayload k).length then dropIn (takeMedia d ks fault) k 3 l.fn l.handle 0
      else inboundRtp (takeMedia d ks fault) l k (udpPayload k) r := by
  replace hleg : findLeg { d with sec := { d.sec with inq := ks, faulty := fault } } k.target = some l := hleg
  simp only [srtpInbound, hq, hrun, hleg, Bool.not_true, Bool.false_eq_true, if_false, takeMedia]

theorem srtpInbound_keyless (hleg : findLeg d k.target = none ∨ ∃ l, findLeg d k.target = some l ∧ l.out = true) :
    srtpInbound d r fault = dropIn (takeMedia d ks fault) k 2 0 k.target 0 := by
  rcases hleg with hleg | ⟨l, hleg, hout⟩
  · exact srtpInbound_noLeg hq hrun hleg
  · rw [srtpInbound_leg hq hrun hleg, if_pos hout]

theorem srtpInbound_rtp (hleg : findLeg d k.target = some l) (hin : l.out = false) (hprof : k.profile ≠ 2)
    (hlen : (udpPayload k).length ≤ 9216) : srtpInbound d r fault = inboundRtp (takeMedia d ks fault) l k (udpPayload k) r := by
  rw [srtpInbound_leg hq hrun hleg, if_neg (by simp [hin]), if_neg hprof, if_neg (Nat.not_lt.2 hlen)]

theorem srtpInbound_rtcp (hleg : findLeg d k.target = some l) (hin : l.out = false) (hprof : k.profile = 2) :
    srtpInbound d r fault = inboundRtcp (takeMedia d ks fault) l k (udpPayload k) := by
  rw [srtpInbound_leg hq hrun hleg, if_neg (by simp [hin]), if_pos hprof]

end Taken

/-! ### SRTP packets (R179, R181) -/

section Rtp
variable {d : Dev} {r : LayerRead} {k : Pkt} {l : Leg} {h index : Nat} {x : Key} {b : List Nat}

/-- Slot `x` of leg `l` checks the RTP packet `b`, which has a header of `h` bytes and the index `index`. -/
structure ChecksRtp (d : Dev) (l : Leg) (b : List Nat) (h index : Nat) (x : Key) : Prop where
  header : rtpHeader b = some h
  estimate : index = estimateIndex (getCrypto d l.handle 0) (rtpSeq b)
  slot : inSlot d l.handle index = some x

/-- The index lies at or below the slot's window or has been seen on the leg. -/
def rtpReplayed (d : Dev) (l : Leg) (x : Key) (index : Nat) : Bool :=
  let c := getCrypto d l.handle 0
  replayed c.started c.high c.bitmap (windowSize x.window) index

/-- The encrypted part of a packet with a header of `h` bytes. -/
def rtpBody (x : Key) (h : Nat) (b : List Nat) : List Nat := slice b h (b.length - h - tagLen x.profile false)

/-- The packet's tag agrees, as a sound engine finds (R171). -/
def Authentic (fault : Bool) (x : Key) (h index : Nat) (b : List Nat) : Prop :=
  fault = false ∧ srtpTag x (rtpSsrc b) index (b.take h) (rtpBody x h b) = b.drop (b.length - tagLen x.profile false)

/-- An authentic packet marks its index, switches slots where that is due and goes on decrypted. -/
def acceptRtp (d : Dev) (l : Leg) (k : Pkt) (x : Key) (h index : Nat) (b : List Nat) (r : LayerRead) : Dev :=
  let c := getCrypto d l.handle 0
  let v := seen c.started c.high c.bitmap index
  let d := putCrypto (useKey d x.handle index (2 ^ 48)) { c with started := true, roc := v.1 / 65536, high := v.1, bitmap := v.2 }
  deliverMedia (authSwitch (cnt d (SEC + 0x60) 1) l.handle index x) l k (b.take h ++ cipher x false (rtpSsrc b) index (rtpBody x h b)) r

variable (ch : ChecksRtp d l b h index x)
include ch

theorem inboundRtp_short (hs : b.length < h + tagLen x.profile false) : inboundRtp d l k b r = dropIn d k 6 l.fn l.handle x.handle := by
  obtain ⟨hh, rfl, hx⟩ := ch
  simp only [inboundRtp, hh, hx, if_pos hs]

variable (hl : h + tagLen x.profile false ≤ b.length)
include hl

theorem inboundRtp_replay (hr : rtpReplayed d l x index = true) : inboundRtp d l k b r = dropIn d k 1 l.fn l.handle x.handle := by
  obtain ⟨hh, rfl, hx⟩ := ch
  unfold rtpReplayed at hr
  simp only [inboundRtp, hh, hx, if_neg (Nat.not_lt.2 hl), if_pos hr]

variable (hr : rtpReplayed d l x index = false) (hi : index < 2 ^ 48) (hinv : invSpent x = false)
include hr hi hinv

theorem inboundRtp_authentic (ha : Authentic d.sec.faulty x h index b) : inboundRtp d l k b r = acceptRtp d l k x h index b r := by
  obtain ⟨hh, rfl, hx⟩ := ch
  obtain ⟨hf, ht⟩ := ha
  unfold rtpReplayed at hr
  unfold rtpBody at ht
  simp only [inboundRtp, hh, hx, if_neg (Nat.not_lt.2 hl), hr, if_neg (Nat.not_le.2 hi), hinv, hf, ht, beq_self_eq_true, Bool.not_false,
    Bool.and_self, Bool.not_true, Bool.false_eq_true, if_false, if_true]
  rfl

theorem inboundRtp_forged (ha : ¬Authentic d.sec.faulty x h index b) :
    inboundRtp d l k b r = dropIn (useKey d x.handle 0 (2 ^ 48)) k 0 l.fn l.handle x.handle := by
  obtain ⟨hh, rfl, hx⟩ := ch
  unfold rtpReplayed at hr
  have hok : (!d.sec.faulty && srtpTag x (rtpSsrc b) (estimateIndex (getCrypto d l.handle 0) (rtpSeq b)) (b.take h)
      (slice b h (b.length - h - tagLen x.profile false)) == b.drop (b.length - tagLen x.profile false)) = false := by
    rw [Bool.eq_false_iff]
    intro ht
    rw [Bool.and_eq_true, Bool.not_eq_true', beq_iff_eq] at ht
    exact ha ht
  simp only [inboundRtp, hh, hx, if_neg (Nat.not_lt.2 hl), hr, if_neg (Nat.not_le.2 hi), hinv, hok, Bool.not_false,
    Bool.false_eq_true, if_false, if_true]

end Rtp

/-! ### SRTCP packets (R177) -/

section Rtcp
variable {d e : Dev} {k : Pkt} {l : Leg} {n : Nat} {a x : Key} {b : List Nat} {v : Nat × List Nat}

/-- The leg's ACTIVE slot `a` checks the SRTCP packet `b`. -/
structure ChecksRtcp (d : Dev) (l : Leg) (a : Key) (b : List Nat) : Prop where
  active : keyIn d l.handle .active = some a
  rtcp : a.rtcp = true
  fits : ¬9216 + indexWord a.profile < b.length

/-- The leg's other slot that takes SRTCP. -/
def otherSlot (d : Dev) (l : Leg) : Option Key :=
  (legKeys d l.handle).find? fun s => (s.state == .standby || s.state == .draining) && s.rtcp

variable (ch : ChecksRtcp d l a b)
include ch

theorem inboundRtcp_ok (h : checkRtcp d l a b = (e, .ok v)) : inboundRtcp d l k b = acceptRtcp e l k v.1 v.2 := by
  simp only [inboundRtcp, ch.active, ch.rtcp, Bool.not_true, Bool.false_eq_true, if_false, ch.fits, h]

theorem inboundRtcp_drop (h : checkRtcp d l a b = (e, .error n)) (hn : n ≠ 0) :
    inboundRtcp d l k b = dropIn e k n l.fn l.handle a.handle := by
  cases n with
  | zero => exact absurd rfl hn
  | succ n => simp only [inboundRtcp, ch.active, ch.rtcp, Bool.not_true, Bool.false_eq_true, if_false, ch.fits, h]

variable (h : checkRtcp d l a b = (e, .error 0))
include h

theorem inboundRtcp_noOther (ho : otherSlot e l = none) : inboundRtcp d l k b = dropIn e k 0 l.fn l.handle a.handle := by
  unfold otherSlot at ho
  simp only [inboundRtcp, ch.active, ch.rtcp, Bool.not_true, Bool.false_eq_true, if_false, ch.fits, h, ho]

variable {f : Dev} (ho : otherSlot e l = some x)
include ho

theorem inboundRtcp_otherOk (hx : checkRtcp e l x b = (f, .ok v)) : inboundRtcp d l k b = acceptRtcp f l k v.1 v.2 := by
  unfold otherSlot at ho
  simp only [inboundRtcp, ch.active, ch.rtcp, Bool.not_true, Bool.false_eq_true, if_false, ch.fits, h, ho, hx]

theorem inboundRtcp_otherDrop (hx : checkRtcp e l x b = (f, .error n)) :
    inboundRtcp d l k b = dropIn f k n l.fn l.handle (if n = 0 then a.handle else x.handle) := by
  unfold otherSlot at ho
  simp only [inboundRtcp, ch.active, ch.rtcp, Bool.not_true, Bool.false_eq_true, if_false, ch.fits, h, ho, hx]

end Rtcp

/-! ### One check of an SRTCP packet -/

section Check
variable {d : Dev} {l : Leg} {x : Key} {b p : List Nat}

/-- The packet's index lies at or below the slot's window or has been seen on the leg. -/
def rtcpReplayed (d : Dev) (l : Leg) (x : Key) (b : List Nat) : Bool :=
  let c := getCrypto d l.handle 0
  replayed c.rtcpStarted c.rtcpHigh c.rtcpBitmap (windowSize x.window) (rtcpIndex x.profile b)

variable (hlen : 12 + tagLen x.profile true ≤ b.length)
include hlen

theorem checkRtcp_replay (hr : rtcpReplayed d l x b = true) : checkRtcp d l x b = (d, .error 1) := by
  unfold rtcpReplayed at hr
  simp only [checkRtcp, if_neg (Nat.not_lt.2 hlen), if_pos hr]

variable (hr : rtcpReplayed d l x b = false) (hinv : invSpent x = false)
include hr hinv

theorem checkRtcp_ok (hf : d.sec.faulty = false) (ho : openRtcp x b = some p) :
    checkRtcp d l x b = (useKey d x.handle (rtcpIndex x.profile b) (2 ^ 31), .ok (rtcpIndex x.profile b, p)) := by
  unfold rtcpReplayed at hr
  simp only [checkRtcp, if_neg (Nat.not_lt.2 hlen), hr, hinv, Bool.false_eq_true, if_false, hf, ho]

theorem checkRtcp_fails (h : d.sec.faulty = true ∨ openRtcp x b = none) : checkRtcp d l x b = (useKey d x.handle 0 (2 ^ 31), .error 0) := by
  unfold rtcpReplayed at hr
  simp only [checkRtcp, if_neg (Nat.not_lt.2 hlen), hr, hinv, Bool.false_eq_true, if_false]
  rcases h with h | h
  · simp only [h]
  · cases d.sec.faulty <;> simp only [h]

end Check

/-! ### The replay window (R179) -/

theorem replayed_iff {high window index : Nat} {bitmap : BitVec 1024} :
    replayed true high bitmap window index = true ↔ index + window ≤ high ∨ index ≤ high ∧ bitmap.getLsbD (high - index) = true := by
  simp [replayed, BitVec.testBit_toNat]

/-- A marked index lies below the window, or its bit is set. -/
theorem replayed_seen (started : Bool) (high : Nat) (bitmap : BitVec 1024) {window : Nat} (index : Nat) (hw : window ≤ 1024) :
    replayed true (seen started high bitmap index).1 (seen started high bitmap index).2 window index = true := by
  rw [replayed_iff]
  cases started with
  | false => exact .inr (by simp [seen])
  | true =>
    by_cases hnew : high < index
    · exact .inr (by simp [seen, hnew])
    · by_cases hbelow : index + window ≤ high
      · exact .inl (by simp [seen, hnew, hbelow])
      · have hbit : high - index < 1024 := by omega
        have hset : (bitmap ||| 1 <<< (high - index)).getLsbD (high - index) = true := by
          rw [BitVec.getLsbD_or, BitVec.natCast_eq_ofNat, BitVec.getLsbD_ofNat, Nat.testBit_shiftLeft]
          simp [hbit]
        simp only [seen, if_neg hnew]
        exact .inr ⟨Nat.le_of_not_lt hnew, hset⟩

/-! ### Self-test and key generations (R171, R173) -/

theorem getB_putB_bit_ne {d : Dev} {a i j : Nat} (w : spWf d.regs = true) (hi : i < 32) (hij : i ≠ j) (b : Bool) :
    getB (putB d a j b) a i = getB d a i := by
  unfold getB putB
  rw [reg_setF_same w, bit_eq_getLsbD, getLsbD_setFld _ _ _ _ _ hi, if_neg (by omega), bit_eq_getLsbD]

/-- The device with the results of a self-test: no longer running, done, passed where no engine failed. -/
def withResults (d : Dev) (f0 f1 : Word) : Dev :=
  putB (putB (putB (setReg (setReg d (SEC + 8) f0) (SEC + 0xC) f1) (SEC + 4) 0 false) (SEC + 4) 1 true) (SEC + 4) 2 (f0 == 0 && f1 == 0)

theorem selftestDone_running {d : Dev} {f0 f1 : Word} (hrun : getB d (SEC + 4) 0 = true) : selftestDone d f0 f1 = withResults d f0 f1 := by
  simp only [selftestDone, hrun, Bool.not_true, Bool.false_eq_true, if_false, withResults]

theorem withResults_fails {d : Dev} (w : spWf d.regs = true) (f0 f1 : Word) :
    reg (withResults d f0 f1) (SEC + 8) = f0 ∧ reg (withResults d f0 f1) (SEC + 0xC) = f1 := by
  unfold withResults
  refine ⟨?_, ?_⟩
  · rw [reg_putB_ne _ (by decide), reg_putB_ne _ (by decide), reg_putB_ne _ (by decide), reg_setReg_ne _ (by decide), reg_setReg_same w]
  · rw [reg_putB_ne _ (by decide), reg_putB_ne _ (by decide), reg_putB_ne _ (by decide), reg_setReg_same (setReg_wf w _ _)]

theorem withResults_bits {d : Dev} (w : spWf d.regs = true) (f0 f1 : Word) :
    getB (withResults d f0 f1) (SEC + 4) 0 = false ∧ getB (withResults d f0 f1) (SEC + 4) 1 = true ∧
    getB (withResults d f0 f1) (SEC + 4) 2 = (f0 == 0 && f1 == 0) := by
  have w0 := setReg_wf (setReg_wf w (SEC + 8) f0) (SEC + 0xC) f1
  have w1 := putB_wf w0 (SEC + 4) 0 false
  have w2 := putB_wf w1 (SEC + 4) 1 true
  unfold withResults
  refine ⟨?_, ?_, getB_putB_same w2 (by decide) _⟩
  · rw [getB_putB_bit_ne w2 (by decide) (by decide), getB_putB_bit_ne w1 (by decide) (by decide), getB_putB_same w0 (by decide)]
  · rw [getB_putB_bit_ne w2 (by decide) (by decide), getB_putB_same w1 (by decide)]

theorem secSelftest_eq (d : Dev) (v : Word) :
    secSelftest d v =
      if bit v 0 = getB d (SEC + 4) 0 then d
      else if uState d secUnit ≠ 0 then putB d SEC 8 true
      else if bit v 0 = false then d
      else putB (putB (putB d (SEC + 4) 0 true) (SEC + 4) 1 false) (SEC + 4) 2 false := by
  simp only [secSelftest, beq_iff_eq, bne_iff_ne, Bool.not_eq_true']

theorem exec_secSelftest (s : State) (v : Word) : exec (.secSelftest v) s =
    if bit v 0 = getB s.dev (SEC + 4) 0 then .next s
    else if uState s.dev secUnit ≠ 0 then nextWith s (putB s.dev SEC 8 true)
    else if bit v 0 = false then .next s
    else nextWith s (putB (putB (putB s.dev (SEC + 4) 0 true) (SEC + 4) 1 false) (SEC + 4) 2 false) := by
  have he : exec (.secSelftest v) s = nextWith s (secSelftest s.dev v) := rfl
  rw [he, secSelftest_eq]
  simp only [apply_ite (nextWith s)]

/-! ### Outbound packets -/

/-- A protected packet goes to the Bridle, which waits for credit; a dropped one does not. -/
def handRtcp (d : Dev) (l : Leg) (r : Dev × Option (List Nat)) : Dev :=
  match r.2 with
  | none => r.1
  | some b => withCredit d (handOff r.1 l b none)

theorem srtpOutbound_leg {d : Dev} {fault : Bool} {q : OutRtcp} {qs : List OutRtcp} {l : Leg} (hq : d.sec.outq = q :: qs)
    (hrun : running d secUnit = true) (hleg : findLeg d q.leg = some l) :
    srtpOutbound d fault =
      handRtcp d l (protectRtcp { d with sec := { d.sec with outq := qs, faulty := fault } } l (toNats q.bytes)) := by
  replace hleg : findLeg { d with sec := { d.sec with outq := qs, faulty := fault } } q.leg = some l := hleg
  simp only [srtpOutbound, hq, hrun, hleg, Bool.not_true, Bool.false_eq_true, if_false]
  rfl

/-- Settles O48: the checks of a packet by the lemmas `srtpInbound_…`, `inboundRtp_…`, `inboundRtcp_…` and `checkRtcp_…`, a marked index
by `replayed_seen`, the self-test's end by `withResults_fails` and `withResults_bits`. -/
theorem srtpEnginesComplete : Obligations.SrtpEnginesComplete := by
  unfold Obligations.SrtpEnginesComplete
  refine ⟨?rtp, ?keyless, ?rtcp, ?check, ?marked, ?outbound, exec_secSelftest, ?results, ?kek⟩
  case rtp =>
    intro s r fault k ks l h index x hq hrun hleg hin hlen hprof hh hindex hx
    have ch : ChecksRtp (takeMedia s.dev ks fault) l (udpPayload k) h index x := ⟨hh, hindex, hx⟩
    have he : exec (.srtpInbound r fault) s = nextWith s (inboundRtp (takeMedia s.dev ks fault) l k (udpPayload k) r) :=
      congrArg (nextWith s) (srtpInbound_rtp hq hrun hleg hin hprof hlen)
    refine ⟨fun hs => ?_, fun hl hr => ?_, fun hl hr hi hinv => ?_⟩
    · exact he.trans (congrArg (nextWith s) (inboundRtp_short ch hs))
    · exact he.trans (congrArg (nextWith s) (inboundRtp_replay ch hl hr))
    · by_cases ha : Authentic fault x h index (udpPayload k)
      · rw [he, inboundRtp_authentic ch hl hr hi hinv ha]
        unfold Authentic rtpBody at ha
        simp only [if_pos ha]
        rfl
      · rw [he, inboundRtp_forged ch hl hr hi hinv ha]
        unfold Authentic rtpBody at ha
        simp only [if_neg ha]
        rfl
  case keyless => exact fun s r fault k ks hq hrun hleg => congrArg (nextWith s) (srtpInbound_keyless hq hrun hleg)
  case rtcp =>
    intro s r fault k ks l a hq hrun hleg hin hprof ha hrtcp hlen
    have ch : ChecksRtcp (takeMedia s.dev ks fault) l a (udpPayload k) := ⟨ha, hrtcp, Nat.not_lt.2 hlen⟩
    have he : exec (.srtpInbound r fault) s = nextWith s (inboundRtcp (takeMedia s.dev ks fault) l k (udpPayload k)) :=
      congrArg (nextWith s) (srtpInbound_rtcp hq hrun hleg hin hprof)
    refine ⟨fun v hc => ?_, fun n hn hc => ?_, fun hc ho => ?_, fun x hc ho => ⟨fun v hx => ?_, fun n hx => ?_⟩⟩
    · exact he.trans (congrArg (nextWith s) (inboundRtcp_ok ch (Prod.ext rfl hc)))
    · exact he.trans (congrArg (nextWith s) (inboundRtcp_drop ch (Prod.ext rfl hc) hn))
    · exact he.trans (congrArg (nextWith s) (inboundRtcp_noOther ch (Prod.ext rfl hc) ho))
    · exact he.trans (congrArg (nextWith s) (inboundRtcp_otherOk ch (Prod.ext rfl hc) ho (Prod.ext rfl hx)))
    · exact he.trans (congrArg (nextWith s) (inboundRtcp_otherDrop ch (Prod.ext rfl hc) ho (Prod.ext rfl hx)))
  case check =>
    exact fun d l x b hlen => ⟨checkRtcp_replay hlen, fun p hr hinv => checkRtcp_ok hlen hr hinv, checkRtcp_fails hlen⟩
  case marked => exact fun started high bitmap window index hw => replayed_seen started high bitmap index hw
  case outbound => exact fun s fault q qs l hq hrun hleg => congrArg (nextWith s) (srtpOutbound_leg hq hrun hleg)
  case results =>
    intro s f0 f1 w hrun
    obtain ⟨h0, h1⟩ := withResults_fails w f0 f1
    exact ⟨_, congrArg (nextWith s) (selftestDone_running hrun), h0, h1, withResults_bits w f0 f1⟩
  case kek =>
    intro s f v w
    refine ⟨_, rfl, ?_, rfl⟩
    exact (getF_setF_same w _ _ _ _ (by decide)).trans (Nat.mod_mod v.toNat 65536)

end Sys2Proof.Machine
end

section
/-! KEY_LOAD and the slot watermark (R178, R360): the statement's clause for a slot with an index leaves out EV_SEC_SLOT_WM. -/
namespace Sys2Proof.Machine

/-! ### A completion leaves the waiting events of R356 -/

theorem completes_evt (d : Dev) (c : Cmd) (res : List Byte) : (completes d c res).evt = d.evt := by
  have hfin : Only (· ∈ [Piece.regs, .out, .hif, .sys]) d (finish d c ST_OK res) :=
    finish_only (by decide) (by decide) (by decide) (Only.refl d)
  exact (settle_only (by decide) (by decide) (by decide) (by decide) hfin).evt (by decide)

/-! ### The load that reaches the watermark -/

/-- KEY_LOAD for leg 0 with an index: profile 0, a blob of 40 bytes, generation 0. -/
def indexedLoad : Cmd :=
  { id := 1, fn := 0, ring := 0, cq := 32
    desc := BitVec.ofNat 512 (0x20 + mkHandle 4 0 * 256 ^ 4 + 1 * 256 ^ 9 + 7 * 256 ^ 16 + 40 * 256 ^ 32) }

/-- A master key and a salt for profile 0, wrapped under the key that R173 derives for the PF, with generation 0, from a root key of
zeros (RFC 5649). -/
def wrappedKey : List Byte :=
  [93, 72, 203, 255, 178, 131, 28, 88, 111, 252, 165, 96, 1, 28, 158, 41, 171, 17, 250, 114, 149, 33, 134, 47, 80, 135, 43, 2, 103, 12,
   110, 163, 112, 124, 121, 32, 255, 111, 83, 9]

/-- An SNU-V4 in BRIDGE with a root key, whose PF has the profile's feature, a leg with an ACTIVE slot, and the command; SEC_SLOT_WM is 2
and one slot is in use. -/
def belowWatermark : Dev :=
  let d := Dev.reset .v4
  let d := { d with
    sys := { d.sys with mode := .bridge, keyProg := true, keyLock := true }
    obj := { d.obj with
      sessions := [{ handle := mkHandle 1 0, fn := 0 }]
      objs := [{ handle := mkHandle 4 0, fn := 0, session := mkHandle 1 0, parent := mkHandle 3 0, media := 1 },
               { handle := mkHandle 8 0, fn := 0, session := mkHandle 1 0, parent := mkHandle 4 0 }] }
    fwd := { d.fwd with legs := [{ handle := mkHandle 4 0, fn := 0, part := mkHandle 3 0, out := false, media := 1, ssrc := 1000 }] }
    sec := { d.sec with keys := [{ handle := mkHandle 8 0, fn := 0, leg := mkHandle 4 0, profile := 0, rtcp := false, state := .active,
                                   fromIndex := 0, window := 0, invLimit := 47, master := 1, salt := 1 }] }
    hif := { d.hif with accepted := [indexedLoad], nextId := 2 } }
  ledgTake (setReg (setReg d (SEC + 0x14) 2) 0x40 1) 3 0 1

theorem indexedLoad_runs : Runs belowWatermark 0x20 (0 : Fin 64) (0 : Fin 32) indexedLoad := by
  constructor <;> decide +kernel

theorem indexedLoad_passes : checksPass (keyLoadAct (.ok wrappedKey) belowWatermark indexedLoad) = true := by decide +kernel

theorem indexedLoad_has_index : dBits indexedLoad.desc 9 0 1 = 1 := by decide +kernel

/-- The device after the command. -/
def atWatermark : Dev := runCmd 0x20 (0 : Fin 64) (0 : Fin 32) (keyLoadAct (.ok wrappedKey)) belowWatermark

theorem exec_indexedLoad : exec (.keyLoad 0 0 (.ok wrappedKey)) ⟨belowWatermark, []⟩ = nextWith ⟨belowWatermark, []⟩ atWatermark := rfl

/-- The slots in use rise from one to two, which raises EV_SEC_SLOT_WM. -/
theorem indexedLoad_raises : belowWatermark.evt.once.map OnceEv.code = [] ∧ atWatermark.evt.once.map OnceEv.code = [0x945] := by
  constructor <;> decide +kernel

/-- Refutes O41: KEY_LOAD of a slot with an index books the slot, and where that takes SEC_SLOTS_USED from 1 to a SEC_SLOT_WM of 2 the
event EV_SEC_SLOT_WM is raised (R356, R360), while the clause says that the events stay as they were. -/
theorem not_legsAndKeysComplete : ¬ Obligations.LegsAndKeysComplete := by
  unfold Obligations.LegsAndKeysComplete
  rintro ⟨-, -, -, -, hload, -⟩
  obtain ⟨h, k, d, mk, ms, -, hexec, -, -, -, -, -, -, -, -, hindex, -⟩ :=
    hload ⟨belowWatermark, []⟩ 0 0 wrappedKey indexedLoad indexedLoad_runs indexedLoad_passes
  obtain ⟨-, -, hkept⟩ := hindex indexedLoad_has_index
  obtain ⟨hbefore, hafter⟩ := indexedLoad_raises
  have hnext := nextWith_inj (exec_indexedLoad.symm.trans hexec)
  rw [hnext, completes_evt, hkept, hbefore] at hafter
  exact absurd hafter (List.cons_ne_nil _ _).symm

end Sys2Proof.Machine
end

section
/-! The craft port (R203 to R205): jack and detection, buttons, faults. -/
namespace Sys2Proof.Machine
variable {d : Dev}

/-! ### Jack and detection (R203) -/

theorem jackInsert_open (hport : d.variant.craft = true) (hjack : d.aud.craft.jack = none) :
    jackInsert d = setCraft d { d.aud.craft with jack := some d.tim.stride } := by
  simp only [jackInsert, hport, hjack, Option.isNone_none, Bool.and_self, if_true]

/-- Detection runs under `auto_det`; without it `force_acc` applies, of which any value but the codes 1 to 4 stands for 1. -/
theorem detectAccessory_eq (d : Dev) : detectAccessory d =
    if getB d (CFT + 4) 1 then setCraft d { d.aud.craft with detecting := true }
    else insertAs d (if 1 ≤ getF d (CFT + 4) 2 3 ∧ getF d (CFT + 4) 2 3 ≤ 4 then getF d (CFT + 4) 2 3 else 1) := by
  simp only [detectAccessory, Bool.and_eq_true, decide_eq_true_eq]

theorem debounceEnd_settled {n : Nat} (hjack : d.aud.craft.jack = some n) (hup : craftUp d = true)
    (hins : craftInserted d = false) (hlong : n + 24 ≤ d.tim.stride) : debounceEnd d = detectAccessory (putB d CFT 9 true) := by
  simp only [debounceEnd, hjack, hup, hins, hlong, Bool.not_false, decide_true, Bool.and_self, if_true]

theorem detectionDone_detecting (m : Detect) (hup : craftUp d = true) (hins : craftInserted d = true)
    (hdet : d.aud.craft.detecting = true) :
    detectionDone d m = insertAs (setReg d (CFT + 0xC) (wd (min (nth m.loads 0 0) 65535 + 65536 * min (nth m.loads 1 0) 65535)))
      (accessoryOf (!d.aud.craft.faults.isEmpty) (nth m.loads 0 0) (nth m.loads 1 0) (nth m.volts 0 0) (nth m.volts 1 0)) := by
  simp only [detectionDone, hup, hins, hdet, Bool.not_true, Bool.or_self, Bool.false_eq_true, if_false, setReg_aud]

/-- The port with its jack open: no accessory, no button, outputs no longer held off. -/
def jackOpened (d : Dev) : Dev :=
  setCraft (setF (setF (putB d CFT 9 false) CFT 12 3 0) CFT 16 3 0)
    { d.aud.craft with jack := none, detecting := false, win := 0, winRun := 0, pressed := none, quiet := 0, offL := none, offR := none }

theorem jackRemove_closed {n : Nat} (hjack : d.aud.craft.jack = some n) :
    jackRemove d = if craftInserted d then raise (jackOpened d) (evCraft 0x411 0 []) else jackOpened d := by
  simp only [jackRemove, hjack, Option.isNone_some, Bool.false_eq_true, if_false, jackOpened]

/-! ### Buttons (R204) -/

theorem buttonPress_window (hup : craftUp d = true) (hset : headset d = true) (hfree : d.aud.craft.pressed = none)
    (hlow : 1 ≤ d.aud.craft.win) (hhigh : d.aud.craft.win ≤ 4) (hrun : 3 ≤ d.aud.craft.winRun) :
    buttonPress d = raise (cnt (setF (setCraft d { d.aud.craft with pressed := some d.aud.craft.win, held := d.aud.craft.winRun, long := false })
      CFT 16 3 d.aud.craft.win) (CFT + 0x10) 1) (evCraft 0x412 0 [(1, d.aud.craft.win), (1, 0)]) := by
  simp only [buttonPress, hup, hset, hfree, hlow, hhigh, hrun, Option.isNone_none, decide_true, Bool.and_self, if_true]

theorem buttonRelease_idle {b : Nat} (hup : craftUp d = true) (hpressed : d.aud.craft.pressed = some b)
    (hidle : d.aud.craft.win = 5) (hrun : 3 ≤ d.aud.craft.winRun) :
    buttonRelease d = raise (setF (setCraft d { d.aud.craft with pressed := none, held := 0, long := false }) CFT 16 3 0)
      (evCraft 0x412 0 [(1, b), (1, 1)]) := by
  simp only [buttonRelease, hpressed, hup, hidle, hrun, beq_self_eq_true, decide_true, Bool.and_self, if_true]

theorem buttonLong_held {b : Nat} (hup : craftUp d = true) (hpressed : d.aud.craft.pressed = some b)
    (hfirst : d.aud.craft.long = false) (hheld : 960 ≤ d.aud.craft.held) :
    buttonLong d = raise (setCraft d { d.aud.craft with long := true }) (evCraft 0x412 0 [(1, b), (1, 2)]) := by
  simp only [buttonLong, hpressed, hup, hfirst, hheld, Bool.not_false, decide_true, Bool.and_self, if_true]

/-! ### Shorts, retries and an open microphone (R205) -/

theorem outputShort_left (hup : craftUp d = true) (hins : craftInserted d = true) (hon : d.aud.craft.offL = none) :
    outputShort d true = craftSetFault (setCraft d { d.aud.craft with offL := some d.tim.stride }) 2 := by
  simp only [outputShort, hup, hins, hon, if_true, Bool.not_true, Option.isSome_none, Bool.or_self, Bool.false_eq_true, if_false]

theorem outputShort_right (hup : craftUp d = true) (hins : craftInserted d = true) (hon : d.aud.craft.offR = none) :
    outputShort d false = craftSetFault (setCraft d { d.aud.craft with offR := some d.tim.stride }) 3 := by
  simp only [outputShort, hup, hins, hon, Bool.not_true, Option.isSome_none, Bool.or_self, Bool.false_eq_true, if_false]

theorem faultRetry_left {n : Nat} (still : Bool) (hup : craftUp d = true) (hoff : d.aud.craft.offL = some n)
    (hdue : n + 1200 ≤ d.tim.stride) :
    faultRetry d true still = setCraft d { d.aud.craft with offL := if still then some d.tim.stride else none } := by
  simp only [faultRetry, hup, hoff, Nat.not_lt.2 hdue, if_true, Bool.not_true, Bool.false_or, decide_false, Bool.false_eq_true, if_false]

theorem faultRetry_right {n : Nat} (still : Bool) (hup : craftUp d = true) (hoff : d.aud.craft.offR = some n)
    (hdue : n + 1200 ≤ d.tim.stride) :
    faultRetry d false still = setCraft d { d.aud.craft with offR := if still then some d.tim.stride else none } := by
  simp only [faultRetry, hup, hoff, Nat.not_lt.2 hdue, Bool.not_true, Bool.false_or, decide_false, Bool.false_eq_true, if_false]

theorem faultRetry_early {n : Nat} (still : Bool) (hoff : d.aud.craft.offL = some n) (hearly : d.tim.stride < n + 1200) :
    faultRetry d true still = d := by
  simp only [faultRetry, hoff, hearly, if_true, decide_true, Bool.or_true]

theorem biasShort_held (hup : craftUp d = true) (hpressed : d.aud.craft.pressed = some 1) (hheld : 12000 ≤ d.aud.craft.held)
    (hnew : hasFault d 1 = false) : biasShort d = craftSetFault d 1 := by
  simp only [biasShort, hup, hpressed, hheld, hnew, beq_self_eq_true, decide_true, Bool.not_false, Bool.and_self, if_true]

theorem micOpen_lasting (hup : craftUp d = true) (hset : headset d = true) (hopen : d.aud.craft.win = 6)
    (hrun : 24 ≤ d.aud.craft.winRun) (hnew : hasFault d 4 = false) : micOpen d = craftSetFault d 4 := by
  simp only [micOpen, hup, hset, hopen, hrun, hnew, beq_self_eq_true, decide_true, Bool.not_false, Bool.and_self, if_true]

/-! ### The faults that are shown (R205) -/

theorem faultClear_absent (hup : craftUp d = true) (habsent : ∃ f ∈ d.aud.craft.faults, 3 ≤ f.2) :
    faultClear d =
      let d := showFaults (setCraft d { d.aud.craft with faults := d.aud.craft.faults.filter fun f => !decide (3 ≤ f.2) })
      if craftInserted d then detectAccessory d else d := by
  have hany : (d.aud.craft.faults.any fun f => decide (3 ≤ f.2)) = true := by
    simpa only [List.any_eq_true, decide_eq_true_eq] using habsent
  simp only [faultClear, hup, hany, Bool.and_self, if_true]

theorem getF_showFaults (w : spWf d.regs = true) (hcode : ∀ f ∈ d.aud.craft.faults, f.1 < 8) :
    getF (showFaults d) CFT 20 3 = (d.aud.craft.faults.head?.map Prod.fst).getD 0 := by
  have hlt : (d.aud.craft.faults.head?.map Prod.fst).getD 0 < 2 ^ 3 := by
    cases hf : d.aud.craft.faults with
    | nil => decide
    | cons f fs => exact hcode f (hf ▸ List.mem_cons_self)
  rw [showFaults, getF_setF_same w _ _ _ _ (by decide), Nat.mod_eq_of_lt hlt]

theorem reg_showFaults_ne (d : Dev) {a : Nat} (h : a ≠ CFT) : reg (showFaults d) a = reg d a := reg_setReg_ne d h _

/-- The port with fault `code` present, the latest, and `fault_sticky` set. -/
def withFault (d : Dev) (code : Nat) : Dev :=
  putB (showFaults (setCraft d { d.aud.craft with faults := (code, 0) :: d.aud.craft.faults.filter fun f => f.1 != code })) CFT 23 true

theorem getF_withFault_micMv (d : Dev) (code : Nat) : getF (withFault d code) (CFT + 8) 0 12 = getF d (CFT + 8) 0 12 := by
  unfold withFault getF
  rw [reg_putB_ne _ (by decide), reg_showFaults_ne _ (by decide)]
  rfl

theorem getF_withFault_code (w : spWf d.regs = true) {code : Nat} (hcode : code < 8) : getF (withFault d code) CFT 20 3 = code := by
  calc getF (withFault d code) CFT 20 3
      _ = getF (setF d CFT 20 3 code) CFT 20 3 := getF_putB_other (setF_wf w CFT 20 3 code) CFT true (by decide) (by decide)
      _ = code % 2 ^ 3 := getF_setF_same w CFT 20 3 code (by decide)
      _ = code := Nat.mod_eq_of_lt hcode

theorem getB_withFault_sticky (w : spWf d.regs = true) (code : Nat) : getB (withFault d code) CFT 23 = true :=
  getB_putB_same (setF_wf w CFT 20 3 code) (by decide) true

/-- The event carries `mic_mv`, which the fault leaves alone. -/
theorem craftSetFault_eq (d : Dev) (code : Nat) : craftSetFault d code =
    raise (withFault d code) (evCraft 0x413 2 [(1, code), (2, getF (withFault d code) (CFT + 8) 0 12)]) := by
  rw [getF_withFault_micMv]
  simp only [craftSetFault, getF, reg_showFaults_ne _ (show CFT + 8 ≠ CFT by decide)]
  rfl

/-- Settles O51: each operation of the port under its guard by the lemma named after it, the status register by `getF_showFaults`
and the lemmas on `withFault`. -/
theorem craftPortCompletes : Obligations.CraftPortCompletes := by
  unfold Obligations.CraftPortCompletes
  refine ⟨?insert, ?debounce, ?detected, ?remove, ?press, ?release, ?long, ?short, ?retry, ?early, ?bias, ?mic, ?clear, ?latch, ?shown⟩
  case insert => exact fun s hport hjack => congrArg (nextWith s) (jackInsert_open hport hjack)
  case debounce =>
    intro s n hjack hup hins hlong
    exact congrArg (nextWith s) ((debounceEnd_settled hjack hup hins hlong).trans (detectAccessory_eq _))
  case detected => exact fun s m hup hins hdet => congrArg (nextWith s) (detectionDone_detecting m hup hins hdet)
  case remove => exact fun s n hjack => congrArg (nextWith s) (jackRemove_closed hjack)
  case press =>
    rintro s b hup hset hfree rfl hlow hhigh hrun
    exact congrArg (nextWith s) (buttonPress_window hup hset hfree hlow hhigh hrun)
  case release => exact fun s b hup hpressed hidle hrun => congrArg (nextWith s) (buttonRelease_idle hup hpressed hidle hrun)
  case long => exact fun s b hup hpressed hfirst hheld => congrArg (nextWith s) (buttonLong_held hup hpressed hfirst hheld)
  case short =>
    exact fun s hup hins => ⟨fun hon => congrArg (nextWith s) (outputShort_left hup hins hon),
      fun hon => congrArg (nextWith s) (outputShort_right hup hins hon)⟩
  case retry =>
    exact fun s n still hup hdue => ⟨fun hoff => congrArg (nextWith s) (faultRetry_left still hup hoff hdue),
      fun hoff => congrArg (nextWith s) (faultRetry_right still hup hoff hdue)⟩
  case early => exact fun s n still hoff hearly => congrArg (nextWith s) (faultRetry_early still hoff hearly)
  case bias => exact fun s hup hpressed hheld hnew => congrArg (nextWith s) (biasShort_held hup hpressed hheld hnew)
  case mic => exact fun s hup hset hopen hrun hnew => congrArg (nextWith s) (micOpen_lasting hup hset hopen hrun hnew)
  case clear => exact fun s hup habsent => congrArg (nextWith s) (faultClear_absent hup habsent)
  case latch =>
    exact fun d code hcode w => ⟨withFault d code, craftSetFault_eq d code, getF_withFault_code w hcode, getB_withFault_sticky w code,
      getF_withFault_micMv d code, rfl⟩
  case shown => exact fun d w hcode => ⟨getF_showFaults w hcode, fun a ha => reg_showFaults_ne d ha⟩

end Sys2Proof.Machine
end

section
/-! Jitter cards, the mixing unit and the cascade (R189, R190, R194 to R202, R415). -/
namespace Sys2Proof.Machine

/-! ### Jitter cards (R189, R190) -/

theorem jitterCard_inService {d : Dev} {slot part k : Nat} {c : Card} {m : MPkt} (hc : findCard d slot = some c)
    (hw : c.work = .jitter part k) (hs : c.state = .inService) (hd : c.done = false) (hp : c.preempted = false)
    (hh : halted d = false) (hm : findMPkt d k = some m) :
    jitterCard d slot =
      putCard (releaseMPkt (modPart d part (jitterPacket d.tim.stride (m.pkt.bytes.map BitVec.toNat))) k) { c with done := true } := by
  simp only [jitterCard, hc, hw, hs, hd, hp, hh, hm, bne_self_eq_false, Bool.or_self, Bool.false_eq_true, if_false, Option.map_some,
    Option.getD_some]

/-- The stride in which a packet would be played with no playout delay, from the participant's base (R189). -/
def packetDue (now : Nat) (b : List Nat) (p : Part) : Int :=
  let ts := beNat ((slice b 4 4).map (BitVec.ofNat 8))
  let base := p.jbBase.getD (ts, now)
  base.2 + sdiff (wd ts) (wd base.1) * 1200 / (audioClock p.codec : Nat)

/-- The participant after a packet, but for its jitter buffer. -/
def heardPacket (now : Nat) (b : List Nat) (p : Part) : Part :=
  let v := ((if p.levelExt then packetLevel p.extId b else none)).getD p.vLevel
  { p with
    vLevel := v, lambda := 127 - v, lastPkt := some now
    jbBase := some (p.jbBase.getD (beNat ((slice b 4 4).map (BitVec.ofNat 8)), now))
    frame := codecFrame p.codec (b.drop (payloadAt b))
    late := (p.late.filter fun x => decide (now < x.1 + 2400)) ++ [(now, (now : Int) - packetDue now b p)] }

section Packet
variable (now : Nat) (b : List Nat) (p : Part)

theorem jitterPacket_eq : jitterPacket now b p =
    { heardPacket now b p with
      jb := if packetDue now b p + p.delay < now then p.jb
        else p.jb ++ [((packetDue now b p + p.delay).toNat, (b.drop (payloadAt b)).map (BitVec.ofNat 8))] } := by
  unfold jitterPacket heardPacket packetDue
  dsimp only
  split <;> rfl

theorem jitterPacket_jb : (jitterPacket now b p).jb =
    if packetDue now b p + p.delay < now then p.jb
    else p.jb ++ [((packetDue now b p + p.delay).toNat, (b.drop (payloadAt b)).map (BitVec.ofNat 8))] :=
  congrArg Part.jb (jitterPacket_eq now b p)

theorem jitterPacket_vLevel :
    (jitterPacket now b p).vLevel = (if p.levelExt then packetLevel p.extId b else none).getD p.vLevel :=
  congrArg Part.vLevel (jitterPacket_eq now b p)

theorem jitterPacket_lambda : (jitterPacket now b p).lambda = 127 - (jitterPacket now b p).vLevel := by
  rw [jitterPacket_eq]
  rfl

theorem jitterPacket_lastPkt : (jitterPacket now b p).lastPkt = some now := congrArg Part.lastPkt (jitterPacket_eq now b p)

theorem jitterPacket_late :
    (jitterPacket now b p).late = (p.late.filter fun x => decide (now < x.1 + 2400)) ++ [(now, (now : Int) - packetDue now b p)] :=
  congrArg Part.late (jitterPacket_eq now b p)

end Packet

/-! ### The playout delay (R415) -/

theorem clamp_mem {lo hi : Nat} (h : lo ≤ hi) (v : Nat) : lo ≤ clamp lo hi v ∧ clamp lo hi v ≤ hi := by
  unfold clamp
  split
  · exact ⟨Nat.le_refl _, h⟩
  · split <;> omega

/-- The library leaves the delay alone or sets it between where it is and its goal; of a participant at or above the floor
it leaves it alone. -/
theorem libraryStep_delay (env : BoundaryEnv) (k : SelCfg) (p : Part) :
    (libraryStep env k p).delay = p.delay ∨
    p.level < k.floor * 256 ∧
      ∃ n, (libraryStep env k p).delay = clamp (min p.delay (delayGoal k.now p)) (max p.delay (delayGoal k.now p)) n := by
  cases hn : (env.delays.find? fun x => x.1 == p.handle).map Prod.snd with
  | none =>
    refine .inl ?_
    simp only [libraryStep, hn]
    split <;> rfl
  | some n =>
    by_cases hkeep : (p.peer || p.late.isEmpty || decide (k.floor * 256 ≤ p.level)) = true
    · refine .inl ?_
      simp only [libraryStep, hn, if_pos hkeep]
      split <;> rfl
    · refine .inr ⟨?_, n, ?_⟩
      · simp only [Bool.or_eq_true, decide_eq_true_eq, not_or, Nat.not_le] at hkeep
        exact hkeep.2
      · simp only [libraryStep, hn, if_neg hkeep]
        split <;> rfl

/-! ### The end of a stride's mixing (R198) -/

/-- An encode card that waits for its output block is released. -/
def releaseWaiting (d : Dev) (x : Nat × Nat) : Dev :=
  match findCard d x.2 with
  | some c => if c.state = .waiting ∧ c.counter ≠ 0 then runTasks (putCard d { c with counter := 0 }) [.release c.slot] else d
  | none => d

theorem audioMixDone_waiting {d : Dev} {q : Nat} (us : Nat) (hw : (d.aud.waiting.filter fun x => x.1 == q) ≠ [])
    (hh : halted d = false) :
    audioMixDone d q us =
      (d.aud.waiting.filter fun x => x.1 == q).foldl releaseWaiting
        (maxReg { d with aud := { d.aud with waiting := d.aud.waiting.filter fun x => x.1 != q } } (AUD q + 0x218) (min us 65535)) := by
  replace hw : (d.aud.waiting.filter fun x => x.1 == q).isEmpty = false := List.isEmpty_eq_false_iff.2 hw
  simp only [audioMixDone, hw, hh, Bool.or_self, Bool.false_eq_true, if_false]
  refine congrArg (fun f => List.foldl f _ _) (funext fun d => funext fun x => ?_)
  unfold releaseWaiting
  cases findCard d x.2 with
  | none => rfl
  | some c => simp only [Bool.and_eq_true, beq_iff_eq, bne_iff_ne]

/-! ### Cascade packets (R200 to R202) -/

section Cascade
variable {d : Dev} {part k : Nat} {p : Part} {c : Conf} {m : MPkt}

/-- The payload of a cascade packet. -/
def cascadeBody (m : MPkt) : List Byte := m.pkt.bytes.drop (payloadAt (m.pkt.bytes.map BitVec.toNat))
/-- The number of members that a payload announces. -/
def cascadeCount (y : List Byte) : Nat := (nth y 1 0).toNat % 16
/-- A payload of another version, of too many members, cut short, or whose block is too old for its conference. -/
def cascadeRefused (d : Dev) (c : Conf) (y : List Byte) : Bool :=
  nth y 0 0 != 1 || decide (8 < cascadeCount y) || decide (y.length < 16 + 124 * cascadeCount y) ||
    decide ((c.delay : Int) + 1 ≤ sdiff (strideW d) (wd (beNat (slice y 4 4))))

theorem cascadeRefused_iff (d : Dev) (c : Conf) (y : List Byte) : cascadeRefused d c y = true ↔
    nth y 0 0 ≠ 1 ∨ 8 < cascadeCount y ∨ y.length < 16 + 124 * cascadeCount y ∨
      (c.delay : Int) + 1 ≤ sdiff (strideW d) (wd (beNat (slice y 4 4))) := by
  simp only [cascadeRefused, Bool.or_eq_true, bne_iff_ne, decide_eq_true_eq, or_assoc]

/-- The packet that a payload keeps. -/
def cascadePkt (part k : Nat) (y : List Byte) : CascPkt :=
  { part := part, block := beNat (slice y 4 4), index := (nth y 2 0).toNat, last := (nth y 1 0).toNat.testBit 7
    members := readMembers (cascadeCount y) (y.drop 16), held := k }
/-- The device with the packet taken from those that wait. -/
def takeCascade (d : Dev) (part k : Nat) : Dev := { d with aud := { d.aud with cascq := d.aud.cascq.filter fun x => x != (part, k) } }
/-- The device with the packet among those of its payload. -/
def keepCascade (d : Dev) (q : CascPkt) : Dev := { d with aud := { d.aud with casc := d.aud.casc ++ [q] } }
/-- The check of a payload differs from the CRC of this device's pot of that block, where the conference has it. -/
def cascadeDiffers (c : Conf) (y : List Byte) : Bool :=
  ((c.crcs.find? fun x => x.1 % 2 ^ 32 == beNat (slice y 8 4)).map Prod.snd).any fun x => x != beNat (slice y 12 4)

/-- A cascade packet joins its payload, which is checked once it is complete (R202). -/
def checkCascade (d : Dev) (p : Part) (c : Conf) (y : List Byte) (q : CascPkt) : Dev :=
  let e := keepCascade d q
  if payloadDone (payloadOf e q.part q.block) = true ∧ cascadeDiffers c y = true then
    raise (cnt e (AUD c.home + 0x214) 1)
      (evTo (evUnit (audUnit c.home) 0x403 2 [(4, c.handle), (4, p.handle), (4, beNat (slice y 8 4))]) c.fn)
  else e

variable (hq : d.aud.cascq.find? (fun x => x.1 == part) = some (part, k)) (hp : findPart d part = some p)
  (hc : findConf d p.conf = some c) (hm : findMPkt d k = some m)
include hq hp hc hm

theorem cascadePayload_eq : cascadePayload d part =
    if cascadeRefused d c (cascadeBody m) then releaseMPkt (takeCascade d part k) k
    else checkCascade (takeCascade d part k) p c (cascadeBody m) (cascadePkt part k (cascadeBody m)) := by
  replace hp : findPart (takeCascade d part k) part = some p := hp
  replace hc : findConf (takeCascade d part k) p.conf = some c := hc
  replace hm : findMPkt (takeCascade d part k) k = some m := hm
  unfold takeCascade at hp hc hm
  simp only [cascadePayload, hq, hp, hc, hm, Option.bind_some, checkCascade, Bool.and_eq_true]
  rfl

theorem cascadePayload_freed (hbad : nth (cascadeBody m) 0 0 ≠ 1 ∨ 8 < cascadeCount (cascadeBody m) ∨
    (cascadeBody m).length < 16 + 124 * cascadeCount (cascadeBody m) ∨
    (c.delay : Int) + 1 ≤ sdiff (strideW d) (wd (beNat (slice (cascadeBody m) 4 4)))) :
    cascadePayload d part = releaseMPkt (takeCascade d part k) k := by
  rw [cascadePayload_eq hq hp hc hm, if_pos ((cascadeRefused_iff ..).2 hbad)]

theorem cascadePayload_kept (hver : nth (cascadeBody m) 0 0 = 1) (hcount : cascadeCount (cascadeBody m) ≤ 8)
    (hlen : 16 + 124 * cascadeCount (cascadeBody m) ≤ (cascadeBody m).length)
    (hin : ¬(c.delay : Int) + 1 ≤ sdiff (strideW d) (wd (beNat (slice (cascadeBody m) 4 4)))) :
    cascadePayload d part =
      checkCascade (takeCascade d part k) p c (cascadeBody m) (cascadePkt part k (cascadeBody m)) := by
  have hgood : ¬cascadeRefused d c (cascadeBody m) = true := by
    rw [cascadeRefused_iff]
    rintro (h | h | h | h)
    · exact h hver
    · exact Nat.not_lt.2 hcount h
    · exact Nat.not_lt.2 hlen h
    · exact hin h
  rw [cascadePayload_eq hq hp hc hm, if_neg hgood]

end Cascade

/-! ### Mixes (R195) -/

theorem addBlock_right_comm (a b c : List Int) : addBlock (addBlock a b) c = addBlock (addBlock a c) b := by
  unfold addBlock
  refine List.ext_getElem (by simp only [List.length_zipWith]; omega) fun i _ _ => ?_
  simp only [List.getElem_zipWith]
  exact Int.add_right_comm _ _ _

theorem sumBlocks_perm {as bs : List (List Int)} (h : as.Perm bs) : sumBlocks as = sumBlocks bs :=
  h.foldl_eq' (fun x _ y _ z => addBlock_right_comm z x y) silence

theorem sumBlocks_concat (bs : List (List Int)) (b : List Int) : sumBlocks (bs ++ [b]) = addBlock (sumBlocks bs) b := by
  unfold sumBlocks
  rw [List.foldl_append]
  rfl

theorem length_addBlock {a b : List Int} (ha : a.length = 40) (hb : b.length = 40) : (addBlock a b).length = 40 := by
  rw [addBlock, List.length_zipWith, ha, hb, Nat.min_self]

theorem length_sumBlocks {bs : List (List Int)} (h : ∀ b ∈ bs, b.length = 40) : (sumBlocks bs).length = 40 := by
  suffices hfrom : ∀ a : List Int, a.length = 40 → (bs.foldl addBlock a).length = 40 from hfrom silence rfl
  induction bs with
  | nil => exact fun a ha => ha
  | cons b bs ih =>
    obtain ⟨hb, hbs⟩ := List.forall_mem_cons.1 h
    exact fun a ha => ih hbs (addBlock a b) (length_addBlock ha hb)

theorem subBlock_addBlock {a b : List Int} (h : a.length = b.length) : subBlock (addBlock a b) b = a := by
  unfold subBlock addBlock
  refine List.ext_getElem (by simp only [List.length_zipWith]; omega) fun i _ _ => ?_
  simp only [List.getElem_zipWith]
  exact Int.add_sub_cancel _ _

/-- A key that no two contributions share names one of them. -/
theorem contrib_of_key {cs : List Contrib} (hone : (cs.map Prod.fst).Nodup) {c e : Contrib} (hc : c ∈ cs) (he : e ∈ cs)
    (hkey : c.1 = e.1) : c = e := by
  induction cs with
  | nil => cases hc
  | cons a cs ih =>
    obtain ⟨hnew, hrest⟩ := List.nodup_cons.1 hone
    rcases List.mem_cons.1 hc with rfl | hcs <;> rcases List.mem_cons.1 he with rfl | hes
    · rfl
    · exact absurd (hkey ▸ List.mem_map_of_mem hes) hnew
    · exact absurd (hkey ▸ List.mem_map_of_mem hcs) hnew
    · exact ih hrest hcs hes

section Mix
variable {cs : List Contrib} {h : Nat} {x : Nat × List Int} (hone : (cs.map Prod.fst).Nodup) (hx : (h, x) ∈ cs)
include hone hx

theorem own_of_mem : own h cs = x.2 := by
  obtain ⟨c, hc⟩ : ∃ c, cs.find? (fun c => c.1 == h) = some c :=
    Option.isSome_iff_exists.1 (List.find?_isSome.2 ⟨(h, x), hx, beq_self_eq_true h⟩)
  have hkey : (c.1 == h) = true := List.find?_some (p := fun c : Contrib => c.1 == h) hc
  have heq : c = (h, x) := contrib_of_key hone (List.mem_of_find?_eq_some hc) hx (beq_iff_eq.1 hkey)
  rw [own, hc, heq]
  rfl

/-- A listener's contribution is the only one that the others' leave out. -/
theorem perm_others_concat : cs.Perm ((cs.filter fun c => c.1 != h) ++ [(h, x)]) := by
  have hnodup : cs.Nodup := List.Pairwise.of_map Prod.fst (fun _ _ hne e => hne (congrArg Prod.fst e)) hone
  have hothers : cs.erase (h, x) = cs.filter fun c => c.1 != h := by
    rw [List.Nodup.erase_eq_filter hnodup]
    refine List.filter_congr fun c hc => ?_
    rw [Bool.eq_iff_iff, bne_iff_ne, bne_iff_ne]
    exact not_congr ⟨congrArg Prod.fst, fun e => contrib_of_key hone hc hx e⟩
  rw [← hothers]
  exact (List.perm_cons_erase hx).trans (List.perm_append_singleton _ _).symm

/-- A mix without the listener (R195): taking the own contribution out of the pot leaves the sum of the others'. -/
theorem subBlock_sumBlocks_own (hlen : ∀ c ∈ cs, c.2.2.length = 40) :
    subBlock (sumBlocks (cs.map fun c => c.2.2)) (own h cs) = sumBlocks ((cs.filter fun c => c.1 != h).map fun c => c.2.2) := by
  have hothers : (sumBlocks ((cs.filter fun c => c.1 != h).map fun c => c.2.2)).length = 40 := by
    refine length_sumBlocks fun b hb => ?_
    obtain ⟨c, hc, rfl⟩ := List.mem_map.1 hb
    exact hlen c (List.mem_filter.1 hc).1
  have hmine : x.2.length = 40 := hlen _ hx
  rw [own_of_mem hone hx, sumBlocks_perm ((perm_others_concat hone hx).map fun c => c.2.2), List.map_append, List.map_singleton,
    sumBlocks_concat, subBlock_addBlock (hothers.trans hmine.symm)]

end Mix

/-! ### Limiter and fades (R193, R196) -/

theorem mapIx_eq_mapIdx (f : Nat → Int → Int) (i : Nat) (xs : List Int) : mapIx f i xs = xs.mapIdx fun j x => f (i + j) x := by
  induction xs generalizing i with
  | nil => rfl
  | cons x xs ih =>
    rw [mapIx, ih, List.mapIdx_cons]
    simp only [Nat.add_zero, Nat.add_right_comm i 1, Nat.add_assoc]

/-- A value that a sample of 24 bits can take. -/
def Sample24 (v : Int) : Prop := -(2 ^ 23 : Int) ≤ v ∧ v < 2 ^ 23

theorem sample24_clamp24 (v : Int) : Sample24 (clamp24 v) := by
  unfold Sample24 clamp24 satS clampI
  split
  · decide
  · split
    · decide
    · constructor <;> omega

theorem length_limRun (low : Bool) (g t rel : Nat) (ys : List Int) : (limRun low g t rel ys).1.length = ys.length := by
  rw [limRun, mapIx_eq_mapIdx, List.length_mapIdx]

theorem sample24_limRun (low : Bool) (g t rel : Nat) (ys : List Int) : ∀ y ∈ (limRun low g t rel ys).1, Sample24 y := by
  intro y hy
  rw [limRun, mapIx_eq_mapIdx] at hy
  obtain ⟨i, hi, rfl⟩ := List.mem_mapIdx.1 hy
  exact sample24_clamp24 _

theorem natAbs_le_peak {ys : List Int} {y : Int} (hy : y ∈ ys) : y.natAbs ≤ (ys.map Int.natAbs).foldl max 0 := by
  have hmem : y.natAbs ∈ ys.map Int.natAbs := List.mem_map_of_mem hy
  rw [List.foldl_max_eq_max (List.ne_nil_of_mem hmem)]
  exact Nat.le_trans (List.le_max_of_mem hmem) (Nat.le_max_right _ _)

/-- At its target gain a block's peak is at the threshold or below it. -/
theorem natAbs_mul_limTarget (thr : Nat) {ys : List Int} {y : Int} (hy : y ∈ ys) : y.natAbs * limTarget thr ys ≤ thr * 32768 := by
  have hpeak := natAbs_le_peak hy
  unfold limTarget
  dsimp only
  split
  · next hlow => exact Nat.mul_le_mul_right _ (Nat.le_trans hpeak hlow)
  · exact Nat.le_trans (Nat.mul_le_mul_right _ hpeak) (Nat.mul_div_le _ _)

/-- A sample times k / 40, truncated toward zero, for k from 0 to 40. -/
theorem sample24_fade {c k : Int} (hc : Sample24 c) (h0 : 0 ≤ k) (h40 : k ≤ 40) : Sample24 ((c * k).tdiv 40) := by
  obtain ⟨hlow, hhigh⟩ := hc
  have hm : -(2 ^ 23) * 40 ≤ c * k := by
    have hmul := Int.mul_le_mul_of_nonneg_right hlow h0
    omega
  have hM : c * k ≤ (2 ^ 23 - 1) * 40 := by
    have hmul := Int.mul_le_mul_of_nonneg_right (Int.le_sub_one_of_lt hhigh) h0
    omega
  have h1 := Int.tdiv_le_tdiv (by decide : (0 : Int) < 40) hm
  have h2 := Int.tdiv_le_tdiv (by decide : (0 : Int) < 40) hM
  exact ⟨h1, Int.lt_of_le_sub_one h2⟩

theorem sample24_fades {cs : List Int} (hlen : cs.length = 40) (hcs : ∀ c ∈ cs, Sample24 c) :
    ∀ y ∈ fadeIn cs ++ fadeOut cs, Sample24 y := by
  intro y hy
  rw [fadeIn, fadeOut, mapIx_eq_mapIdx, mapIx_eq_mapIdx] at hy
  rcases List.mem_append.1 hy with hy | hy
  · obtain ⟨i, hi, rfl⟩ := List.mem_mapIdx.1 hy
    exact sample24_fade (hcs _ (List.getElem_mem hi)) (by omega) (by omega)
  · obtain ⟨i, hi, rfl⟩ := List.mem_mapIdx.1 hy
    exact sample24_fade (hcs _ (List.getElem_mem hi)) (by omega) (by omega)

theorem fadeIn_last (cs : List Int) : (fadeIn cs)[39]? = cs[39]? := by
  rw [fadeIn, mapIx_eq_mapIdx, List.getElem?_mapIdx]
  cases cs[39]? with
  | none => rfl
  | some c => exact congrArg some (Int.mul_tdiv_cancel c (by decide : (40 : Int) ≠ 0))

theorem fadeOut_last {cs : List Int} (hlen : cs.length = 40) : (fadeOut cs)[39]? = some 0 := by
  rw [fadeOut, mapIx_eq_mapIdx, List.getElem?_mapIdx, List.getElem?_eq_getElem (by omega)]
  have hzero (c : Int) : (c * (39 - ((0 + 39 : Nat) : Int))).tdiv 40 = 0 := by
    rw [show (39 - ((0 + 39 : Nat) : Int)) = 0 from rfl, Int.mul_zero]
    rfl
  exact congrArg some (hzero _)

/-- Settles O50: a packet's fields by the lemmas `jitterPacket_…`, the delay by `clamp_mem`, the cascade by `cascadePayload_freed` and
`cascadePayload_kept`, a mix by `subBlock_sumBlocks_own`, the range of samples by `sample24_…`. -/
theorem audioStepsComplete : Obligations.AudioStepsComplete := by
  unfold Obligations.AudioStepsComplete
  refine ⟨?jitter, ?packet, ?goal, ?delay, ?mixed, ?cascade, ?mix, ?limited, ?target, ?fades⟩
  case jitter =>
    exact fun s slot part k c m hc hw hs hd hp hh hm => congrArg (nextWith s) (jitterCard_inService hc hw hs hd hp hh hm)
  case packet =>
    intro now b p
    refine ⟨fun hpast => ?_, fun hin => ?_, jitterPacket_lastPkt .., jitterPacket_lambda .., fun hno => ?_, fun v hext hv => ?_, ?_⟩
    · exact (jitterPacket_jb ..).trans (if_pos hpast)
    · exact (jitterPacket_jb ..).trans (if_neg (Int.not_lt.2 hin))
    · rw [jitterPacket_vLevel, hno]
      rfl
    · rw [jitterPacket_vLevel, if_pos hext, hv]
      rfl
    · rw [jitterPacket_late]
      exact List.mem_append_right _ (List.mem_singleton_self _)
  case goal => exact fun now p h => clamp_mem h _
  case delay =>
    intro env k p
    have hmid := clamp_mem (show min p.delay (delayGoal k.now p) ≤ max p.delay (delayGoal k.now p) by omega)
    rcases libraryStep_delay env k p with hsame | ⟨hlow, n, hmoved⟩
    · rw [hsame]
      exact ⟨Nat.min_le_left .., Nat.le_max_left .., fun _ => rfl⟩
    · rw [hmoved]
      exact ⟨(hmid n).1, (hmid n).2, fun hhigh => absurd hhigh (Nat.not_le.2 hlow)⟩
  case mixed => exact fun s q us hw hh => congrArg (nextWith s) (audioMixDone_waiting us hw hh)
  case cascade =>
    intro s part k p c m hq hp hc hm
    exact ⟨fun hbad => congrArg (nextWith s) (cascadePayload_freed hq hp hc hm hbad),
      fun hver hcount hlen hin => congrArg (nextWith s) (cascadePayload_kept hq hp hc hm hver hcount hlen hin)⟩
  case mix => exact fun cs h x hone hlen hx => subBlock_sumBlocks_own hone hx hlen
  case limited => exact fun low g t rel ys => ⟨length_limRun low g t rel ys, sample24_limRun low g t rel ys⟩
  case target => exact fun thr ys y hy => natAbs_mul_limTarget thr hy
  case fades => exact fun cs hlen hcs => ⟨fadeIn_last cs, fadeOut_last hlen, sample24_fades hlen hcs⟩

end Sys2Proof.Machine
end

section
/-! Video decode (R211 to R223): a ready picture and its packets, the work of its cards on a pipe, the limits on a CTU and a picture,
the surface that it takes, and refresh requests that waited. -/
namespace Sys2Proof.Machine
variable {s : State} {d e : Dev} {x : Ctx} {p : Pic} {f : Surf} {c : Card} {u : UnitId} {h id slot : Nat}

/-! ### A ready picture (R211) -/

/-- Packets of a picture that are lost: those missing between its first and its last, and the discarded ones. -/
def lostPkts (g : Gathered) (v : PicIn) : Nat := (seqDiff g.last g.first + 1).toNat - g.pkts.length + v.bad
/-- The picture uses a reference that the context does not hold. -/
def lacksRef (x : Ctx) (v : PicIn) : Bool := v.missing || v.uses.any fun i => !(x.pics.map Pic.id).contains i
/-- The device with a picture's packets taken, its losses and the references that it lacks reported. -/
def takePicture (d : Dev) (h : Nat) (x : Ctx) (g : Gathered) (v : PicIn) : Dev :=
  let d := takePkts d h g
  let d := if lostPkts g v = 0 then d else raiseOnce d (evCtx x 0x507 0 [(4, h), (2, lostPkts g v), (4, g.ts)])
  if lacksRef x v then raiseOnce d (evCtx x 0x500 1 [(4, h), (4, g.ts), (1, (!x.pics.any Pic.done).toNat)]) else d
/-- The record of a picture that becomes ready in stride `now`. -/
def readyPic (now : Nat) (x : Ctx) (g : Gathered) (v : PicIn) : Pic :=
  { id := x.nextPic, rtpTs := g.ts, ready := now, w := v.w, h := v.h, isRef := v.isRef, rap := v.rap, recovery := v.recovery,
    uses := v.uses, keeps := v.keeps, bytes := (g.pkts.map CtxPkt.bytes).sum, ctb := ctbOf x.codec v.ctb, areas := v.areas, mono := v.mono,
    damaged := lacksRef x v || lostPkts g v != 0, allGrey := !(lacksRef x v && x.pics.any Pic.done) }

theorem time_takePkts (d : Dev) (h : Nat) (g : Gathered) : time (takePkts d h g) = time d := rfl

theorem time_takePicture (d : Dev) (h : Nat) (x : Ctx) (g : Gathered) (v : PicIn) : time (takePicture d h x g v) = time d := by
  unfold takePicture
  dsimp only
  split <;> split <;> simp only [time_raiseOnce, time_takePkts]

theorem takePicture_intact {g : Gathered} {v : PicIn} (hlost : lostPkts g v = 0) (hrefs : lacksRef x v = false) :
    takePicture d h x g v = takePkts d h g := by
  simp only [takePicture, hlost, hrefs, if_true, Bool.false_eq_true, if_false]

theorem readyPic_intact {g : Gathered} {v : PicIn} (now : Nat) (hlost : lostPkts g v = 0) (hrefs : lacksRef x v = false) :
    (readyPic now x g v).damaged = false := by
  simp only [readyPic, hlost, hrefs, bne_self_eq_false, Bool.or_self]

theorem lostPkts_eq_zero {g : Gathered} {v : PicIn} (hall : (seqDiff g.last g.first + 1).toNat = g.pkts.length) (hbad : v.bad = 0) :
    lostPkts g v = 0 := by
  rw [lostPkts, hall, hbad, Nat.sub_self]

theorem lacksRef_eq_false {v : PicIn} (hnot : v.missing = false) (hheld : ∀ i ∈ v.uses, i ∈ x.pics.map Pic.id) :
    lacksRef x v = false := by
  rw [lacksRef, hnot, Bool.false_or, List.any_eq_false]
  intro i hi
  simp only [List.contains_iff_mem.2 (hheld i hi), Bool.not_true, Bool.false_eq_true, not_false_eq_true]

section Ready
variable {v : PicIn} {g : Gathered} (hx : findCtx d h = some x) (hg : gather x = some g)
  (hdue : g.complete = true ∨ g.lastAt + x.reasm + 1 ≤ d.tim.stride) (hopen : x.released = false) (hh : halted d = false)
  (hslots : fwUsed d + 10 ≤ d.variant.fwSlots) (hroom : x.bufUsed + (g.pkts.map CtxPkt.bytes).sum ≤ x.bufBytes)
  (hparse : v.unparseable = false) (hwide : v.w ≤ x.maxW) (htall : v.h ≤ x.maxH) (hwide4 : v.w ≤ 4096) (htall4 : v.h ≤ 2304)
  (hsup : v.unsupported = none) (hdpb : 2 ≤ x.codec ∨ v.keeps.length ≤ x.dpb) (hrap : x.waiting = false ∨ v.rap = true)
include hx hg hdue hopen hh hslots hroom hparse hwide htall hwide4 htall4 hsup hdpb hrap

theorem pictureReady_joins : pictureReady d h v =
    skipBacklog (buildPicture (modCtx (takePicture d h x g v) h fun y =>
      { y with pics := y.pics ++ [readyPic d.tim.stride x g v], nextPic := y.nextPic + 1, waiting := false,
               bufUsed := y.bufUsed + (g.pkts.map CtxPkt.bytes).sum }) x (readyPic d.tim.stride x g v) v) h := by
  have hready : ¬(!(g.complete || decide (g.lastAt + x.reasm + 1 ≤ d.tim.stride)) || x.released || halted d ||
      decide (d.variant.fwSlots < fwUsed d + 10)) = true := by
    rcases hdue with hall | hlate
    · simp [hopen, hh, hslots, hall]
    · simp [hopen, hh, hslots, hlate]
  have hfits : (decide (x.maxW < v.w) || decide (x.maxH < v.h) || decide (4096 < v.w) || decide (2304 < v.h)) = false := by
    simp [hwide, htall, hwide4, htall4]
  have hrefs : (decide (x.codec ≤ 1) && decide (x.dpb < v.keeps.length)) = false := by
    simp only [Bool.and_eq_false_iff, decide_eq_false_iff_not]
    omega
  have hshown : ¬(x.waiting && !v.rap) = true := by
    rcases hrap with h | h <;> simp [h]
  have hstride : (takePicture d h x g v).tim.stride = d.tim.stride := congrArg Prod.fst (time_takePicture d h x g v)
  rw [readyPic, ← hstride]
  simp only [pictureReady, hx, hg, if_neg hready, if_neg (Nat.not_lt.2 hroom), hparse, hfits, hsup, hrefs, Bool.false_eq_true, if_false,
    if_neg hshown]
  rfl

end Ready

/-! ### Pixel work on its pipe (R212, R213, R217, R218) -/

theorem mem_cardCtus_rebuild (p : Pic) (h id i k c : Nat) (hk : k ≠ 0) :
    c ∈ cardCtus p (.rebuild h id i k) ↔ c < ctuCols p * ctuRows p ∧ c / ctuCols p % k = i := by
  rw [cardCtus, List.mem_filter, List.mem_range, beq_iff_eq, Nat.max_eq_right (Nat.one_le_iff_ne_zero.2 hk)]

theorem concealedCtus_subset (d : Dev) (x : Ctx) (p : Pic) (own : List Nat) (r : CodedOut) (limit : Bool) :
    concealedCtus d x p own r limit ⊆ own := List.filter_subset_self _

theorem dropWhile_subset_concealedCtus (d : Dev) (x : Ctx) (p : Pic) (own : List Nat) (r : CodedOut) :
    own.dropWhile (fun y => y != r.ctu) ⊆ concealedCtus d x p own r true := by
  intro c hc
  refine List.mem_filter.2 ⟨(List.dropWhile_suffix _).subset hc, ?_⟩
  simp [hc]

theorem mem_concealedCtus_of_missing (d : Dev) (x : Ctx) (p : Pic) {own : List Nat} {r : CodedOut} (limit : Bool) {c : Nat} (hc : c ∈ own)
    (hm : c ∈ r.missing) : c ∈ concealedCtus d x p own r limit := by
  refine List.mem_filter.2 ⟨hc, ?_⟩
  simp [hm]

section Pixel
variable {r : CodedOut} {limit : Bool} {mine : Work → Bool} {i k : Nat}

section Run
variable (hx : findCtx d h = some x) (hp : findPic x id = some p)
include hx hp

/-- Pixel work waits for the rows and borders that it needs, and for a surface (R213, R215). -/
theorem runPixel_waits (hwait : waveOk d p c.work = false ∨ withSurf d h id = none) : runPixel d c u h id r limit = d := by
  simp only [runPixel, hx, hp]
  rcases hwait with hwave | hsurf
  · rw [hwave]
    rfl
  · rw [hsurf, ite_self]

theorem runPixel_runs (hwave : waveOk d p c.work = true) (hsurf : withSurf d h id = some (e, f)) :
    runPixel d c u h id r limit =
      (let own := cardCtus p c.work
       let gone := concealedCtus e x p own r limit
       putCard (codedEffects (codedTiles e p f own gone r.tiles) u x p c.work r gone) { c with done := true }) := by
  simp only [runPixel, hx, hp, hwave, hsurf, Bool.not_true, Bool.false_eq_true, if_false]

theorem runParse_runs : runParse d c u h id r limit =
    (let short := (concealedCtus d x p (cardCtus p c.work) { r with missing := [] } limit).head?
     putCard (modPic (codedEffects d u x p c.work r []) h id fun p => { p with stopAt := short, damaged := p.damaged || short.isSome })
       { c with done := true }) := by
  simp only [runParse, hx, hp]

end Run

section OnPipe
variable (hc : findCard d slot = some c) (hu : onPipe d c = some u)
include hc hu

theorem pixelCard_segment (hw : c.work = .segment h id i) (hmine : mine c.work = true) :
    pixelCard d slot r limit mine = runPixel d c u h id r limit := by
  rw [hw] at hmine
  simp only [pixelCard, hc, hu, hw, hmine]

theorem pixelCard_rebuild (hw : c.work = .rebuild h id i k) (hmine : mine c.work = true) :
    pixelCard d slot r limit mine = runPixel d c u h id r limit := by
  rw [hw] at hmine
  simp only [pixelCard, hc, hu, hw, hmine]

theorem pixelCard_parse (hw : c.work = .parse h id) (hmine : mine c.work = true) :
    pixelCard d slot r limit mine = runParse d c u h id r limit := by
  rw [hw] at hmine
  simp only [pixelCard, hc, hu, hw, hmine]

end OnPipe
end Pixel

theorem exec_segmentCard_onPipe {i : Nat} (r : CodedOut) (hc : findCard s.dev slot = some c) (hu : onPipe s.dev c = some u)
    (hw : c.work = .segment h id i) : exec (.segmentCard slot r) s = nextWith s (runPixel s.dev c u h id r false) :=
  congrArg (nextWith s) (pixelCard_segment hc hu hw (by rw [hw]; rfl))

theorem exec_rebuildCard_onPipe {i k : Nat} (r : CodedOut) (hc : findCard s.dev slot = some c) (hu : onPipe s.dev c = some u)
    (hw : c.work = .rebuild h id i k) : exec (.rebuildCard slot r) s = nextWith s (runPixel s.dev c u h id r false) :=
  congrArg (nextWith s) (pixelCard_rebuild hc hu hw (by rw [hw]; rfl))

theorem exec_parseCard_onPipe (r : CodedOut) (hc : findCard s.dev slot = some c) (hu : onPipe s.dev c = some u)
    (hw : c.work = .parse h id) : exec (.parseCard slot r) s = nextWith s (runParse s.dev c u h id r false) :=
  congrArg (nextWith s) (pixelCard_parse hc hu hw (by rw [hw]; rfl))

/-! ### Limits (R217) -/

/-- Codec cycles that a CTU of the picture may take on a pipe. -/
def ctuBudget (d : Dev) (u : UnitId) (p : Pic) : Nat := p.ctb * p.ctb / 256 * getF d (VDC u.quarter u.index + 4) 0 16

section CtuLimit
variable {cycles : Nat} {r : CodedOut} (hc : findCard d slot = some c)
  (hw : (∃ i, c.work = .segment h id i) ∨ c.work = .parse h id ∨ ∃ i k, c.work = .rebuild h id i k)
  (hu : onPipe d c = some u) (hx : findCtx d h = some x) (hp : findPic x id = some p)
include hc hw hu hx hp

theorem ctuLimit_eq : ctuLimit d slot cycles r =
    if cycles < ctuBudget d u p then d
    else
      let e := pixelCard d slot { r with err := 0 } true fun _ => true
      if (findCard e slot).all Card.done then
        raiseOnce (cnt e (VDC u.quarter u.index + 0x1C) 1) (evCtx x 0x501 1 [(1, u.index), (4, h), (8, r.ctu)])
      else d := by
  rcases hw with ⟨i, hw⟩ | hw | ⟨i, k, hw⟩
  all_goals
    simp only [ctuLimit, hc, hw, hu, hx, hp]
    rfl

theorem ctuLimit_below (hlow : cycles < ctuBudget d u p) : ctuLimit d slot cycles r = d := by
  rw [ctuLimit_eq hc hw hu hx hp, if_pos hlow]

theorem ctuLimit_reached (hlimit : ctuBudget d u p ≤ cycles)
    (hdone : ∀ y, findCard (pixelCard d slot { r with err := 0 } true fun _ => true) slot = some y → y.done = true) :
    ctuLimit d slot cycles r =
      raiseOnce (cnt (pixelCard d slot { r with err := 0 } true fun _ => true) (VDC u.quarter u.index + 0x1C) 1)
        (evCtx x 0x501 1 [(1, u.index), (4, h), (8, r.ctu)]) := by
  rw [ctuLimit_eq hc hw hu hx hp, if_neg (Nat.not_lt.2 hlimit)]
  exact if_pos ((Option.all_eq_true _ _).2 hdone)

end CtuLimit

/-- A card that has not started is cancelled. -/
def cancelUnstarted (d : Dev) (slot : Nat) : Dev :=
  match findCard d slot with
  | some c => if c.state = .waiting ∨ c.state = .ready then cancelCard d slot else d
  | none => d

theorem picLimit_expired {n ctus : Nat} (hx : findCtx d h = some x) (hp : findPic x id = some p) (hdeal : p.firstDeal = some n)
    (hlate : n + 2 ≤ d.tim.stride) (hwork : p.work ≠ []) (habandoned : p.abandoned = false) (hdone : p.done = false)
    (hh : halted d = false) : picLimit d h id ctus =
      p.work.foldl cancelUnstarted (raiseOnce (modPic d h id fun p => { p with abandoned := true, damaged := true })
        (evCtx x 0x502 1 [(4, h), (4, p.rtpTs), (2, ctus)])) := by
  replace hwork : p.work.isEmpty = false := List.isEmpty_eq_false_iff.2 hwork
  simp only [picLimit, hx, hp, hdeal, hlate, hwork, habandoned, hdone, hh, Option.any_some, decide_true, Bool.not_true, Bool.or_self,
    Bool.false_eq_true, if_false]
  refine congrArg (fun f => List.foldl f _ _) (funext fun d => funext fun slot => ?_)
  unfold cancelUnstarted
  cases findCard d slot with
  | none => rfl
  | some c => simp only [Bool.or_eq_true, beq_iff_eq]

/-! ### Finish and conceal cards (R215, R216, R220) -/

theorem finishCard_runs (hc : findCard d slot = some c) (hw : c.work = .finish h id) (hs : c.state = .inService) (hdone : c.done = false)
    (hh : halted d = false) : finishCard d slot = putCard (finishPicture d h id) { c with done := true } := by
  simp only [finishCard, hc, hw, hs, hdone, hh, bne_self_eq_false, Bool.or_self, Bool.false_eq_true, if_false]

theorem concealCard_runs (r : CodedOut) (hc : findCard d slot = some c) (hu : onPipe d c = some u) (hw : c.work = .conceal h id)
    (hx : findCtx d h = some x) (hp : findPic x id = some p) (hsurf : withSurf d h id = some (e, f)) : concealCard d slot r =
      (let n := ((List.range (f.geo.tiles 0)).filter fun t => tileAbsent e f 0 t).length
       let d := writePyramid (concealAbsent e (concealSource e h id) f) f
       let d := cnt (codedEffects d u x p c.work { r with err := 0 } []) (VDC u.quarter u.index + 0x28) n
       putCard (modPic d h id fun p => { p with concealBlk := p.concealBlk + n }) { c with done := true }) := by
  simp only [concealCard, hc, hu, hw, hx, hsurf, hp]

/-! ### Surfaces (R215) -/

theorem surfFree_iff {i : Nat} : surfFree d x i = true ↔
    (∀ q ∈ x.pics, q.surface = some i → q.done = true ∧ q.isRef = false ∧ q.dropped = false) ∧
    (∀ r, x.record = some r → r.surface ≠ i) ∧ i ∉ heldSurfs d x.handle := by
  have hrecord : x.record.any (fun r => r.surface == i) = false ↔ ∀ r, x.record = some r → r.surface ≠ i := by
    cases x.record <;> simp
  simp [surfFree, hrecord, and_assoc]

/-- A picture without a surface takes one of its context's that is free. -/
theorem withSurf_takes_free (hx : findCtx d h = some x) (hp : findPic x id = some p) (hnone : p.surface = none)
    (hsurf : withSurf d h id = some (e, f)) : ∃ i < x.surfaces, surfFree d x i = true ∧ f.off = i * x.surfGeo.size := by
  have hpic : picSurf x p = none := by rw [picSurf, hnone]; rfl
  simp only [withSurf, hx, hp, hpic] at hsurf
  split at hsurf
  · cases hsurf
  · next i hfind =>
    cases hsurf
    exact ⟨i, List.mem_range.1 (List.mem_of_find?_eq_some hfind), List.find?_some hfind, rfl⟩

/-! ### Refresh requests that waited (R221) -/

theorem refreshIntervalEnd_ctx {kind source : Nat} (hx : findCtx d h = some x) (hwait : x.reqWait = some (kind, source))
    (hdue : reqDue d x.lastReq = true) : refreshIntervalEnd d h = sendCtxRefresh d x kind source := by
  simp only [refreshIntervalEnd, hx, hwait, hdue, if_true]

theorem refreshIntervalEnd_leg {dest : Nat} {l : Leg} (hx : findCtx d h = none) (hl : findLeg d h = some l) (hwait : l.reqWait = some dest)
    (hdue : reqDue d l.lastReq = true) : refreshIntervalEnd d h = sendRefresh d l 1 dest := by
  simp only [refreshIntervalEnd, hx, hl, hwait, hdue, if_true]

/-- Settles O52: a ready picture by `pictureReady_joins`, cards on their pipe by `runPixel_…` and `runParse_runs`, limits by
`ctuLimit_…` and `picLimit_expired`, the surface by `surfFree_iff`. -/
theorem videoDecodeCompletes : Obligations.VideoDecodeCompletes := by
  unfold Obligations.VideoDecodeCompletes
  refine ⟨?ready, ?pixel, ?parse, ?rows, ?concealed, ?finish, ?conceal, ?ctu, ?picture, ?ctxRefresh, ?legRefresh, ?surface⟩
  case ready =>
    intro s h v x g hx hg hdue hopen hh hslots hroom hparse hwide htall hwide4 htall4 hsup hdpb hrap
    refine ⟨takePicture s.dev h x g v, readyPic s.dev.tim.stride x g v,
      congrArg (nextWith s) (pictureReady_joins hx hg hdue hopen hh hslots hroom hparse hwide htall hwide4 htall4 hsup hdpb hrap),
      rfl, rfl, rfl, rfl, rfl, rfl, rfl, rfl, rfl, rfl, fun hall hbad hnot hheld => ?_⟩
    have hlost := lostPkts_eq_zero hall hbad
    have hrefs := lacksRef_eq_false hnot hheld
    exact ⟨takePicture_intact hlost hrefs, readyPic_intact _ hlost hrefs⟩
  case pixel =>
    intro s slot h id i k r c u x p hc hu hx hp hw card
    have hrun : exec card s = nextWith s (runPixel s.dev c u h id r false) := by
      subst card
      rcases hw with hw | hw
      · rw [hw]
        exact exec_segmentCard_onPipe r hc hu hw
      · rw [hw]
        exact exec_rebuildCard_onPipe r hc hu hw
    exact ⟨fun hwait => hrun.trans (congrArg (nextWith s) (runPixel_waits hx hp hwait)),
      fun e f hwave hsurf => hrun.trans (congrArg (nextWith s) (runPixel_runs hx hp hwave hsurf))⟩
  case parse =>
    exact fun s slot h id r c u x p hc hu hw hx hp =>
      (exec_parseCard_onPipe r hc hu hw).trans (congrArg (nextWith s) (runParse_runs hx hp))
  case rows => exact mem_cardCtus_rebuild
  case concealed =>
    exact fun d x p own r c => ⟨fun hc => dropWhile_subset_concealedCtus d x p own r hc, mem_concealedCtus_of_missing d x p false,
      fun hc => concealedCtus_subset d x p own r true hc⟩
  case finish => exact fun s slot h id c hc hw hs hdone hh => congrArg (nextWith s) (finishCard_runs hc hw hs hdone hh)
  case conceal =>
    exact fun s e slot h id r c u x p f hc hu hw hx hp hsurf => congrArg (nextWith s) (concealCard_runs r hc hu hw hx hp hsurf)
  case ctu =>
    exact fun s slot cycles h id r c u x p hc hw hu hx hp => ⟨fun hlow => congrArg (nextWith s) (ctuLimit_below hc hw hu hx hp hlow),
      fun hlimit hdone => congrArg (nextWith s) (ctuLimit_reached hc hw hu hx hp hlimit hdone)⟩
  case picture =>
    exact fun s h id ctus n x p hx hp hdeal hlate hwork habandoned hdone hh =>
      congrArg (nextWith s) (picLimit_expired hx hp hdeal hlate hwork habandoned hdone hh)
  case ctxRefresh => exact fun s h kind source x hx hwait hdue => congrArg (nextWith s) (refreshIntervalEnd_ctx hx hwait hdue)
  case legRefresh => exact fun s h dest l hx hl hwait hdue => congrArg (nextWith s) (refreshIntervalEnd_leg hx hl hwait hdue)
  case surface =>
    intro d e h id i x p f hx hp hnone hsurf hoff hsize
    obtain ⟨j, hj, hfree, hoffj⟩ := withSurf_takes_free hx hp hnone hsurf
    obtain rfl : j = i := Nat.eq_of_mul_eq_mul_right (Nat.pos_of_ne_zero hsize) (hoffj.symm.trans hoff)
    obtain ⟨hpics, hrecord, hheld⟩ := surfFree_iff.1 hfree
    exact ⟨hj, hheld, hrecord, hpics⟩

end Sys2Proof.Machine
end

section
/-! Composition and encode (R242 to R244, R253 to R265): a compositor's band card, a pipe's encode card, pictures that are filled, waits for
cells, payloads, row quantisers and budgets, the vectors of a search and the forms of units. -/
namespace Sys2Proof.Machine
variable {d : Dev} {e : EncS} {p : EncPic} {x : EncLayer} {c : Card} {u : UnitId} {slot h phase b i : Nat}

/-! ### The streams of a device -/

/-- Handles of the device's video encode streams. -/
def encHandles (d : Dev) : List Nat := d.vid.encs.map EncS.handle

theorem findEnc_isSome_iff : (findEnc d h).isSome = true ↔ h ∈ encHandles d := by
  simp only [findEnc, encHandles, List.find?_isSome, List.mem_map, beq_iff_eq]

theorem encHandles_modEnc {f : EncS → EncS} (hf : ∀ e, (f e).handle = e.handle) : encHandles (modEnc d h f) = encHandles d := by
  simp only [encHandles, modEnc, List.map_map]
  refine List.map_congr_left fun e _ => ?_
  rw [Function.comp_apply, apply_ite EncS.handle, hf, ite_self]

theorem encHandles_foldl {α : Type} {f : Dev → α → Dev} (hf : ∀ d x, encHandles (f d x) = encHandles d) (l : List α) (d : Dev) :
    encHandles (l.foldl f d) = encHandles d := by
  induction l generalizing d with
  | nil => rfl
  | cons x xs ih => exact (ih _).trans (hf d x)

theorem encHandles_of_only {a : Dev} (hd : Only (· ≠ .vid) a d) : encHandles d = encHandles a := by
  rw [encHandles, hd.vid (not_not.2 rfl), encHandles]

theorem encHandles_newRefs (d : Dev) (e : EncS) (k : Nat) : encHandles (newRefs d e k) = encHandles d :=
  encHandles_of_only (newRefs_only (by decide) (by decide) (by decide) (by decide) (by decide) (Only.refl d))

theorem encHandles_writeRow (d : Dev) (e : EncS) (p : EncPic) (s b : Nat) (forms : List UnitForm) (us : List UnitCode) :
    encHandles (writeRow d e p s b forms us) = encHandles d :=
  encHandles_of_only (writeRow_only (by decide) (by decide) (by decide) (by decide) (by decide) (Only.refl d))

theorem encHandles_refError (d : Dev) (e : EncS) (ue : Nat × Nat × Nat) : encHandles (refError d e ue) = encHandles d :=
  encHandles_modEnc fun _ => rfl

theorem encHandles_bandGap (e : EncS) (p : EncPic) (b : Nat) (d : Dev) (g : BandGap) : encHandles (bandGap e p b d g) = encHandles d := by
  unfold bandGap
  split <;> rfl

/-! ### A band of a picture in coding (R253, R255) -/

theorem encHandles_unitStep (e : EncS) (p : EncPic) (b : Nat) (y : Dev × EncLayer) (i : Nat) (u : UnitCode) :
    encHandles (unitStep e p b y i u).1 = encHandles y.1 := by
  unfold unitStep
  dsimp only
  split
  · exact encHandles_refError _ _ _
  · rfl

theorem unitSteps_keeps (e : EncS) (p : EncPic) (b : Nat) (us : List UnitCode) (i : Nat) (y : Dev × EncLayer) :
    encHandles (unitSteps e p b i us y).1 = encHandles y.1 ∧ (unitSteps e p b i us y).2.s = y.2.s := by
  induction us generalizing i y with
  | nil => exact ⟨rfl, rfl⟩
  | cons u us ih =>
    obtain ⟨hd, hs⟩ := ih (i + 1) (unitStep e p b y i u)
    exact ⟨hd.trans (encHandles_unitStep e p b y i u), hs⟩

theorem codeLayer_keeps (e : EncS) (p : EncPic) (r : CodedUnits) (b : Nat) (d : Dev) (x : EncLayer) :
    encHandles (codeLayer e p r b d x).1 = encHandles d ∧ (codeLayer e p r b d x).2.s = x.s := by
  unfold codeLayer
  split
  · exact ⟨rfl, rfl⟩
  · obtain ⟨hd, hs⟩ := unitSteps_keeps e p b ((List.range (e.rowUnits x.s)).map fun i =>
      nth ((r.layers.find? fun y => y.s == x.s).getD ⟨x.s, 0, [], []⟩).units i {}) 0 (d, x)
    exact ⟨(encHandles_writeRow _ _ _ _ _ _ _).trans hd, hs⟩

theorem codeLayers_keeps (e : EncS) (p : EncPic) (r : CodedUnits) (b : Nat) (l : List EncLayer) (d : Dev) :
    encHandles (codeLayers e p r b l d).1 = encHandles d ∧ (codeLayers e p r b l d).2.map EncLayer.s = l.map EncLayer.s := by
  induction l generalizing d with
  | nil => exact ⟨rfl, rfl⟩
  | cons x xs ih =>
    obtain ⟨hd, hs⟩ := codeLayer_keeps e p r b d x
    obtain ⟨hds, hss⟩ := ih (codeLayer e p r b d x).1
    exact ⟨hds.trans hd, congrArg₂ List.cons hs hss⟩

theorem encHandles_bandCoded (d : Dev) (e : EncS) (p : EncPic) (b : Nat) (r : CodedUnits) :
    encHandles (bandCoded d e p b r).1 = encHandles d := by
  have hgaps (d : Dev) : encHandles (r.gaps.foldl (bandGap e p b) d) = encHandles d := encHandles_foldl (encHandles_bandGap e p b) _ _
  have hopen (d : Dev) (k : Nat) : encHandles (if p.layers.isEmpty then newRefs d e k else d) = encHandles d := by
    split
    · exact encHandles_newRefs d e k
    · rfl
  refine (codeLayers_keeps _ _ _ _ _ _).1.trans ((hopen _ _).trans ((hgaps _).trans ?_))
  split
  · exact encHandles_refError _ _ _
  · rfl

theorem openPicture_bandsLeft (e : EncS) (p : EncPic) : (openPicture e p).bandsLeft = p.bandsLeft := by
  unfold openPicture
  split <;> rfl

theorem bandCoded_bandsLeft (d : Dev) (e : EncS) (p : EncPic) (b : Nat) (r : CodedUnits) :
    (bandCoded d e p b r).2.bandsLeft = p.bandsLeft.filter (· != b) :=
  congrArg (List.filter (· != b)) (openPicture_bandsLeft e p)

theorem bandCoded_layers (d : Dev) (e : EncS) (p : EncPic) (b : Nat) (r : CodedUnits) :
    (bandCoded d e p b r).2.layers.map EncLayer.s = (openPicture e p).layers.map EncLayer.s :=
  (codeLayers_keeps e (openPicture e p) r b _ _).2

theorem openPicture_first (hp : p.layers = []) :
    openPicture e p = { p with layers := layersFor e p, slot := freeRef e.refs, ref := if p.start then none else e.refOf p.tl } := by
  rw [openPicture, hp, List.isEmpty_nil, if_pos rfl]

/-! ### The card at the head of an engine's queue -/

section Head
variable (hc : findCard d slot = some c) (hat : c.at_ = some u) (hstate : c.state = .inService) (hh : halted d = false)
  (hhead : (queueOf d u).head? = some slot) (hu : uState d u = 2 ∨ uState d u = 3)

include hstate hh hhead hu in
/-- The unit serves the card: none of the conditions holds that leave it alone. -/
theorem head_served :
    (c.state != .inService || halted d || (queueOf d u).head? != some slot || (uState d u != 2 && uState d u != 3)) = false := by
  rw [hstate, hh, hhead]
  rcases hu with hu | hu <;> rw [hu] <;> simp

/-! ### COMPOSE_BAND (R242 to R244) -/

/-- The rows of band `b` go to the frame's copy, where it has one. -/
def copyBandRows (d : Dev) (l : Layout) (f : Frame) (h b : Nat) (planes : List (List Nat)) : Dev :=
  match f.copy with
  | some i => writeBand d l ⟨h, i * (outGeo l).size, outGeo l⟩ b planes
  | none => d

section Compose
variable {l : Layout} {f : Frame} {cycles : Nat} (hw : c.work = .compose h phase b) (hl : findLayout d h = some l)
  (hf : l.frames.find? (fun f => f.phase == phase) = some f)
include hc hat hstate hh hhead hu hw hl hf

theorem composeBand_served : composeBand d slot cycles =
    (let pool := 4 * l.home + l.comp
     let n := bandUnits l b
     let a := CMP l.home l.comp
     if ledgFree d 8 pool < n then raiseOnce (cnt d (a + 0x28) cycles) (evLayout l 0x602 1 [(1, l.comp), (4, h), (4, cycles)])
     else
       let planes := bandPlanes d l f b
       let d := reportTiles d l f b
       let d := copyBandRows (cnt (cnt d (a + 0x20) (l.outW * bandRows l b)) (a + 0x24) cycles) l f h b planes
       let d := ledgTake d 8 pool n
       let bufs := d.vid.bufs ++ [⟨pool, h, phase, b, n, planes⟩]
       completeCard (if bandAwaited d c h phase b then { d with vid := { d.vid with bufs := bufs } } else ledgGive d 8 pool n) slot) := by
  simp only [composeBand, hc, hw, hat, head_served hstate hh hhead hu, hl, Option.bind_some, hf, Bool.false_eq_true, if_false]
  rfl

end Compose

/-! ### ENCODE_BAND (R253) -/

/-- The stream's pictures of a phase stride become `q`. -/
def setPic (d : Dev) (h phase : Nat) (q : EncPic) : Dev :=
  modEnc d h fun e => { e with pics := e.pics.map fun x => if x.phase == phase then q else x }
/-- A pipe's counters and its wait bit as it codes band `b`. -/
def chargeBand (d : Dev) (u : UnitId) (e : EncS) (b cycles : Nat) : Dev :=
  let a := VEN u.quarter u.index
  setF (cnt (cnt d (a + 0x10) (bandPixels e b)) (a + 0x14) cycles) a 10 1 0

theorem encHandles_chargeBand (d : Dev) (u : UnitId) (e : EncS) (b cycles : Nat) :
    encHandles (chargeBand d u e b cycles) = encHandles d := rfl

theorem encHandles_setPic (d : Dev) (h phase : Nat) (q : EncPic) : encHandles (setPic d h phase q) = encHandles d :=
  encHandles_modEnc fun _ => rfl

/-- The stream is still there once a band of it is coded. -/
theorem findEnc_coded (he : findEnc d h = some e) (u : UnitId) (b phase cycles : Nat) (p : EncPic) (r : CodedUnits) (q : EncPic) :
    ∃ e2, findEnc (setPic (bandCoded (chargeBand d u e b cycles) e p b r).1 h phase q) h = some e2 := by
  rw [← Option.isSome_iff_exists, findEnc_isSome_iff, encHandles_setPic, encHandles_bandCoded, encHandles_chargeBand, ← findEnc_isSome_iff, he]
  rfl

section Encode
variable {r : CodedUnits} (hw : c.work = .encode h phase b) (he : findEnc d h = some e)
  (hp : e.pics.find? (fun p => p.phase == phase && p.started) = some p)
include hc hat hstate hh hhead hu hw he hp

theorem encodeBand_filled (hfill : p.fill.isSome = true) : encodeBand d slot r = completeCard d slot := by
  simp only [encodeBand, hc, hw, hat, head_served hstate hh hhead hu, he, Option.bind_some, hp, hfill, Bool.false_eq_true, if_false, if_true]

variable (hfill : p.fill = none)
include hfill

theorem encodeBand_predShort (hshort : c.predShort = true) : encodeBand d slot r = completeCard (modEnc d h fun e =>
    { e with pics := e.pics.map fun y => if y.phase == phase then { y with fill := some 0 } else y }) slot := by
  simp only [encodeBand, hc, hw, hat, head_served hstate hh hhead hu, he, Option.bind_some, hp, hfill, hshort, Option.isSome_none,
    Bool.false_eq_true, if_false, if_true]

theorem encodeBand_codes (hshort : c.predShort = false) : encodeBand d slot r =
    (let y := bandCoded (chargeBand d u e b r.cycles) e p b r
     let d1 := setPic y.1 h phase y.2
     if !y.2.bandsLeft.isEmpty then completeCard d1 slot
     else match findEnc d1 h with
       | some e => withCredit d (completeCard (endPicCoding d1 e y.2) slot)
       | none => d1) := by
  simp only [encodeBand, hc, hw, hat, head_served hstate hh hhead hu, he, Option.bind_some, hp, hfill, hshort, Option.isSome_none,
    Bool.false_eq_true, if_false]
  rfl

theorem encodeBand_goesOn (hshort : c.predShort = false) (hmore : ∃ x ∈ p.bandsLeft, x ≠ b) : encodeBand d slot r =
    (let y := bandCoded (chargeBand d u e b r.cycles) e p b r
     completeCard (setPic y.1 h phase y.2) slot) := by
  have hleft : (p.bandsLeft.filter (· != b)).isEmpty = false := by
    obtain ⟨x, hx, hne⟩ := hmore
    exact List.isEmpty_eq_false_iff_exists_mem.2 ⟨x, List.mem_filter.2 ⟨hx, bne_iff_ne.2 hne⟩⟩
  rw [encodeBand_codes hc hat hstate hh hhead hu hw he hp hfill hshort]
  dsimp only
  rw [bandCoded_bandsLeft, hleft]
  rfl

theorem encodeBand_ends (hshort : c.predShort = false) (hlast : ∀ x ∈ p.bandsLeft, x = b) :
    let y := bandCoded (chargeBand d u e b r.cycles) e p b r
    ∃ e2, findEnc (setPic y.1 h phase y.2) h = some e2 ∧
      encodeBand d slot r = withCredit d (completeCard (endPicCoding (setPic y.1 h phase y.2) e2 y.2) slot) := by
  have hleft : (p.bandsLeft.filter (· != b)).isEmpty = true := by
    simpa only [List.isEmpty_iff, List.filter_eq_nil_iff, bne_iff_ne, not_not] using hlast
  intro y
  obtain ⟨e2, he2⟩ := findEnc_coded he u b phase r.cycles p r y.2
  refine ⟨e2, he2, ?_⟩
  rw [encodeBand_codes hc hat hstate hh hhead hu hw he hp hfill hshort]
  dsimp only
  rw [bandCoded_bandsLeft, hleft, he2]
  rfl

end Encode
end Head

/-! ### FILL_PICTURE (R262) -/

/-- The work codes a band of the stream's picture of a phase stride. -/
def codesPicture (h phase : Nat) (w : Work) : Bool :=
  match w with
  | .encode x n _ => x == h && n == phase
  | _ => false
/-- The encode cards of a picture that have not started are cancelled. -/
def cancelIdle (d0 : Dev) (h phase : Nat) (d : Dev) : Dev :=
  ((d0.dlr.cards.filter fun c => (c.state == .waiting || c.state == .ready) && codesPicture h phase c.work).map Card.slot).foldl cancelCard d

section Fill
variable {ps : List EncPic} {n : Nat} (he : findEnc d h = some e) (hpics : e.pics = p :: ps) (hfill : p.fill = some n)
  (hstarted : p.started = true) (hh : halted d = false)
include he hpics hfill hstarted hh

/-- A start picture is withheld, and only reported. -/
theorem fillPicture_start (hstart : p.start = true) : fillPicture d h =
    raiseOnce (cancelIdle d h p.phase (modEnc d h fun e => renumber { e with pics := ps }))
      (evEnc e 0x701 1 [(4, h), (2, p.num % 65536), (1, 3)]) := by
  simp only [fillPicture, he, hpics, hfill, hstarted, hh, hstart, Bool.not_true, Bool.or_self, Bool.false_eq_true, if_false, if_true]
  rfl

theorem fillPicture_fills (hstart : p.start = false) : fillPicture d h =
    (let d1 := p.layers.foldl (reportBudget e p) d
     let d1 := raiseOnce (cnt d1 (VEN e.home e.pipe + 0x20) 1) (evEnc e 0x701 1 [(4, h), (2, p.num % 65536), (1, n)])
     let d1 := modEnc (handPicture d1 e p (fillUnits e p) true) h fun e => match e.refOf p.tl with
       | some r => keepRef e p r.slot []
       | none => e
     withCredit d (cancelIdle d h p.phase d1)) := by
  simp only [fillPicture, he, hpics, hfill, hstarted, hh, hstart, Bool.not_true, Bool.or_self, Bool.false_eq_true, if_false]
  rfl

end Fill

/-! ### CELL_WAIT (R265, R278) -/

theorem cellWait_pipe {cycles : Nat} (hrun : running d u = true) (hu : u.cls = 4) (hq : queueOf d u ≠ []) : cellWait d u cycles =
    (let a := VEN u.quarter u.index
     raiseOnce (setF (cnt d (a + 0x28) cycles) a 10 1 1)
       { evUnit u 0x703 1 [(1, u.index), (4, cycles)] with key := 256 * u.quarter + u.index }) := by
  simp only [cellWait, hrun, hu, List.isEmpty_eq_false_iff.2 hq, Bool.not_true, Bool.false_eq_true, if_false, if_true]

theorem cellWait_forwarding {cycles : Nat} (hrun : running d u = true) (hu : u.cls = 9) :
    cellWait d u cycles = if fwdWaits d then cnt d (FWD + 0x60) cycles else d := by
  have hpipe : ¬(9 = 4) := by decide
  simp only [cellWait, hrun, hu, if_neg hpipe, Bool.not_true, Bool.false_eq_true, if_false, if_true]

/-! ### Payloads, quantisers and budgets (R256, R257, R265) -/

theorem length_le_of_mem_pieces {k : Nat} {f : List Nat} (n : Nat) (l : List Nat) (hf : f ∈ pieces k n l) : f.length ≤ k := by
  induction n generalizing l with
  | zero => cases hf
  | succ n ih =>
    rw [pieces] at hf
    split at hf
    · cases hf
    · rcases List.mem_cons.1 hf with rfl | hrest
      · exact List.length_take_le k l
      · exact ih _ hrest

theorem mem_of_mem_withEnds {l : List (List Nat)} {f : List Nat × Bool × Bool} (hf : f ∈ withEnds l) : f.1 ∈ l := by
  obtain ⟨i, hi, rfl⟩ := List.mem_map.1 hf
  have hlt := List.mem_range.1 hi
  simp only [nth, List.getElem?_eq_getElem hlt, Option.getD_some, List.getElem_mem]

/-- A fragment carries two bytes of header and at most the rest of the limit. -/
theorem length_le_of_mem_h264Payloads {mtu : Nat} {nal q : List Nat} (hmtu : 3 ≤ mtu) (hq : q ∈ h264Payloads mtu nal) : q.length ≤ mtu := by
  rw [h264Payloads] at hq
  split at hq
  · next hfits =>
    rw [List.mem_singleton.1 hq]
    exact hfits
  · obtain ⟨f, hf, rfl⟩ := List.mem_map.1 hq
    have hpiece := length_le_of_mem_pieces _ _ (mem_of_mem_withEnds hf)
    simp only [List.length_append, List.length_cons, List.length_nil]
    omega

theorem rowQp_within (e : EncS) (p : EncPic) (x : EncLayer) (q : Nat) (hlim : e.cfg.qpMin ≤ e.cfg.qpMax) :
    e.cfg.qpMin ≤ rowQp e p x q ∧ rowQp e p x q ≤ e.cfg.qpMax :=
  ⟨le_min hlim (le_max_left _ _), min_le_left _ _⟩

/-- A unit is charged its bits, or those of minimum cost in a layer whose budget is exhausted. -/
theorem codeUnit_used (x : EncLayer) (v : Nat × Nat) : (codeUnit x v).used = x.used + if (codeUnit x v).exhausted then v.2 else v.1 := rfl

/-! ### Motion search (R254) -/

theorem mem_of_bestVec {cost : Int × Int → Nat} {v : Int × Int} {vs : List (Int × Int)} (hv : bestVec cost vs = some v) : v ∈ vs := by
  induction vs generalizing v with
  | nil => cases hv
  | cons w ws ih =>
    rw [bestVec] at hv
    split at hv
    · cases hv
      exact List.mem_cons_self
    · next y hy =>
      split at hv
      · cases hv
        exact List.mem_cons_of_mem _ (ih hy)
      · cases hv
        exact List.mem_cons_self

theorem twoBest_subset (cost : Int × Int → Nat) (vs : List (Int × Int)) : twoBest cost vs ⊆ vs := by
  intro w hw
  rw [twoBest] at hw
  split at hw
  · cases hw
  · next v hv =>
    rcases List.mem_cons.1 hw with rfl | hw
    · exact mem_of_bestVec hv
    · exact List.mem_of_mem_filter (mem_of_bestVec (Option.mem_toList.1 hw))

/-- A refinement that starts from allowed vectors ends with vectors that level 0 allows. -/
theorem refine_ok (q : Search) (r j : Nat) (vs : List (Int × Int)) (hvs : ∀ v ∈ vs, q.ok j v = true) :
    ∀ v ∈ q.refine r j vs, q.ok 0 v = true := by
  induction j generalizing vs with
  | zero => exact hvs
  | succ j ih => exact ih _ fun v hv => List.of_mem_filter (List.mem_eraseDups.1 (twoBest_subset _ _ hv))

theorem unitVecs_ok (d : Dev) (e : EncS) (p : EncPic) (s b i : Nat) (r : EncRef) :
    ∀ v ∈ unitVecs d e p s b i r, (searchOf d e p s b i r).ok 0 v = true :=
  refine_ok _ _ _ _ fun _ hv => List.of_mem_filter (List.mem_eraseDups.1 hv)

/-- An allowed block lies, on the layer's own scale, at most 64 samples beyond the picture. -/
theorem allows_within {l : Reach} {j : Nat} {k : Area} {v : Int × Int} (hv : l.allows j k v = true) :
    -64 ≤ (k.x + v.1) * 2 ^ j ∧ (k.x + v.1 + k.w) * 2 ^ j ≤ l.w + 64 ∧ -64 ≤ (k.z + v.2) * 2 ^ j ∧ (k.z + v.2 + k.h) * 2 ^ j ≤ l.h + 64 := by
  simp only [Reach.allows, Bool.and_eq_true, decide_eq_true_eq] at hv
  obtain ⟨⟨⟨⟨hleft, hright⟩, htop⟩, hbottom⟩, -⟩ := hv
  exact ⟨hleft, (Int.add_mul _ _ _).trans_le hright, htop, (Int.add_mul _ _ _).trans_le hbottom⟩

/-! ### The form of a unit (R257, R259, R261) -/

section Form
variable {v : UnitCode} {vs : List (Int × Int)}

theorem intraRegion_of_group (hg : x.group = some (groupOfCol e x.s i)) : intraRegion e p x i = true := by
  rw [intraRegion, hg, beq_self_eq_true, Bool.or_true]

/-- In the wave group no partition is predicted: not from a reference, not from the layer below. -/
theorem codePart_of_group (hg : x.group = some (groupOfCol e x.s i)) (k : PartCode) : codePart d e p x b i vs k = none := by
  have hbelow : (x.group != some (groupOfCol e x.s i)) = false := by rw [hg, bne_self_eq_false]
  unfold codePart
  split
  · simp only [hbelow, Bool.and_false, Bool.false_and, Bool.false_eq_true, if_false]
  · split
    · rw [if_pos (intraRegion_of_group hg)]
    · rfl

/-- At minimum cost: DC intra, or zero motion outside the intra regions. -/
theorem unitForm_least (d : Dev) (e : EncS) (p : EncPic) (x : EncLayer) (b i : Nat) (v : UnitCode) (vs : List (Int × Int)) :
    (unitForm d e p x b i v vs true).1 = .dc ∨ intraRegion e p x i = false ∧ unitForm d e p x b i v vs true = (.zero, none) := by
  unfold unitForm
  extract_lets free parts
  rw [if_pos rfl]
  split
  · exact .inl rfl
  · next hfree =>
    split
    · exact .inl rfl
    · refine .inr ⟨?_, rfl⟩
      replace hfree : free = true := by simpa only [Bool.not_eq_true', Bool.not_eq_false] using hfree
      unfold free at hfree
      split at hfree
      · exact (Bool.not_eq_true' _).mp (Bool.and_eq_true_iff.mp hfree).1
      · cases hfree

/-- With bits to spend: intra, or predicted in parts that may all be coded and whose tiles can all be read. -/
theorem unitForm_coded (d : Dev) (e : EncS) (p : EncPic) (x : EncLayer) (b i : Nat) (v : UnitCode) (vs : List (Int × Int)) :
    (unitForm d e p x b i v vs false).1 = .intra ∨ ∃ ps, unitForm d e p x b i v vs false = (.inter ps, none) ∧
      (∃ k, codePart d e p x b i vs k ≠ none) ∧ ∀ y ∈ ps, partBad d e p x b i y = none := by
  unfold unitForm
  extract_lets free parts
  rw [if_neg Bool.false_ne_true]
  split
  · exact .inl rfl
  · next hparts =>
    split
    · exact .inl rfl
    · next hread =>
      refine .inr ⟨_, rfl, ?_, List.findSome?_eq_none_iff.1 hread⟩
      obtain ⟨⟨-, hsome⟩, hall⟩ : (v.inter = true ∧ v.parts ≠ []) ∧ ∀ k ∈ v.parts, codePart d e p x b i vs k ≠ none := by
        simpa [parts] using hparts
      obtain ⟨k, hk⟩ := List.exists_mem_of_ne_nil _ hsome
      exact ⟨k, hall k hk⟩

theorem unitForm_group (hg : x.group = some (groupOfCol e x.s i)) (least : Bool) :
    (unitForm d e p x b i v vs least).1 = .intra ∨ (unitForm d e p x b i v vs least).1 = .dc := by
  cases least with
  | true =>
    obtain hdc | ⟨hout, -⟩ := unitForm_least d e p x b i v vs
    · exact .inr hdc
    · exact absurd (intraRegion_of_group hg) (Bool.eq_false_iff.1 hout)
  | false =>
    obtain hintra | ⟨-, -, ⟨k, hk⟩, -⟩ := unitForm_coded d e p x b i v vs
    · exact .inl hintra
    · exact absurd (codePart_of_group hg k) hk

theorem unitForm_unread {least : Bool} (hbad : (unitForm d e p x b i v vs least).2.isSome = true) :
    (unitForm d e p x b i v vs least).1 = .intra ∨ (unitForm d e p x b i v vs least).1 = .dc := by
  cases least with
  | true =>
    obtain hdc | ⟨-, hzero⟩ := unitForm_least d e p x b i v vs
    · exact .inr hdc
    · rw [hzero] at hbad
      cases hbad
  | false =>
    obtain hintra | ⟨ps, hinter, -, -⟩ := unitForm_coded d e p x b i v vs
    · exact .inl hintra
    · rw [hinter] at hbad
      cases hbad

theorem partBad_of_inter {least : Bool} {ps : List PartVec} (hps : (unitForm d e p x b i v vs least).1 = .inter ps) :
    ∀ y ∈ ps, partBad d e p x b i y = none := by
  cases least with
  | true =>
    obtain hdc | ⟨-, hzero⟩ := unitForm_least d e p x b i v vs
    · cases hdc.symm.trans hps
    · rw [hzero] at hps
      cases hps
  | false =>
    obtain hintra | ⟨qs, hinter, -, hread⟩ := unitForm_coded d e p x b i v vs
    · cases hintra.symm.trans hps
    · rw [hinter] at hps
      cases hps
      exact hread

end Form

/-- Settles O53: band cards by `composeBand_served`, encode cards by `encodeBand_…`, filled pictures by `fillPicture_…`, vectors by
`refine_ok`, forms of units by `unitForm_least` and `unitForm_coded`. -/
theorem compositionAndEncodeComplete : Obligations.CompositionAndEncodeComplete := by
  unfold Obligations.CompositionAndEncodeComplete
  refine ⟨?compose, ?encode, ?coded, ?replaced, ?fill, ?wait, ?payloads, ?quantiser, ?unit, ?vectors, ?reach, ?forms⟩
  case compose =>
    exact fun s slot cycles h phase b c u l f hc hw hat hstate hh hhead hu hl hf =>
      congrArg (nextWith s) (composeBand_served hc hat hstate hh hhead hu hw hl hf)
  case encode =>
    intro s slot h phase b r c u e p hc hw hat hstate hshort hh hhead hu he hp hfill
    refine ⟨fun hmore => congrArg (nextWith s) (encodeBand_goesOn hc hat hstate hh hhead hu hw he hp hfill hshort hmore), fun hlast => ?_⟩
    obtain ⟨e2, he2, hrun⟩ := encodeBand_ends (r := r) hc hat hstate hh hhead hu hw he hp hfill hshort hlast
    exact ⟨e2, he2, congrArg (nextWith s) hrun⟩
  case coded =>
    refine fun d e p b r => ⟨bandCoded_bandsLeft d e p b r, bandCoded_layers d e p b r, fun hp => ?_⟩
    rw [openPicture_first hp]
    exact ⟨rfl, fun hstart => if_pos hstart⟩
  case replaced =>
    exact fun s slot h phase b r c u e p hc hw hat hstate hh hhead hu he hp =>
      ⟨fun hfill => congrArg (nextWith s) (encodeBand_filled hc hat hstate hh hhead hu hw he hp hfill),
       fun hfill hshort => congrArg (nextWith s) (encodeBand_predShort hc hat hstate hh hhead hu hw he hp hfill hshort)⟩
  case fill =>
    exact fun s h n e p ps he hpics hfill hstarted hh =>
      ⟨fun hstart => congrArg (nextWith s) (fillPicture_fills he hpics hfill hstarted hh hstart),
       fun hstart => congrArg (nextWith s) (fillPicture_start he hpics hfill hstarted hh hstart)⟩
  case wait =>
    exact fun s u cycles hrun => ⟨fun hu hq => congrArg (nextWith s) (cellWait_pipe hrun hu hq),
      fun hu hwait => congrArg (nextWith s) ((cellWait_forwarding hrun hu).trans (if_pos hwait)),
      fun hu hwait => congrArg (nextWith s) ((cellWait_forwarding hrun hu).trans (if_neg (Bool.eq_false_iff.1 hwait)))⟩
  case payloads => exact fun mtu nal hmtu q hq => length_le_of_mem_h264Payloads hmtu hq
  case quantiser => exact rowQp_within
  case unit =>
    intro x v
    rw [codeUnit_used]
    cases (codeUnit x v).exhausted with
    | true => exact .inr ⟨rfl, rfl⟩
    | false => exact .inl rfl
  case vectors => exact unitVecs_ok
  case reach => exact fun l j k v hv => allows_within hv
  case forms =>
    refine fun d e p x b i v vs least => ⟨fun hg => unitForm_group hg least, fun hleast => ?_, unitForm_unread, fun ps => partBad_of_inter⟩
    subst hleast
    exact (unitForm_least d e p x b i v vs).symm.imp (fun hzero => congrArg Prod.fst hzero.2) id

end Sys2Proof.Machine
end

section
/-! One step, the reset state, and the frame of every command: what a command may change is what `mayChange` names for it (O58, O60), and
the invariants that every step keeps follow from that frame. -/
namespace Sys2Proof.Machine
variable {s t : State} {i : Instr} {d : Dev}

/-! ### The frame of every command -/

/-- Every meaning answers a next state with the queue as it is. -/
theorem exec_isNext (i : Instr) (s : State) : ∃ d, exec i s = nextWith s d := by
  cases i <;> exact ⟨_, rfl⟩

theorem exec_pending (h : exec i s = .next t) : t.pending = s.pending := by
  obtain ⟨d, he⟩ := exec_isNext i s
  cases he.symm.trans h
  rfl

theorem exec_core_only (hi : coreInstr i = true) (h : exec i s = .next t) : Only (· ∈ mayChange i) s.dev t.dev := by
  obtain ⟨x, hx⟩ := Option.isSome_iff_exists.1 ((coreInstr_eq i).symm.trans hi)
  obtain ⟨act, he, hact⟩ := exec_coreInstr hx s
  cases he.symm.trans h
  rw [mayChange_core hx]
  exact issue_coreParts fun y => (hact y).mono (changesInBundle_bounds i).2

/-- The frame of every command, row by row. -/
theorem exec_only (h : exec i s = .next t) : Only (· ∈ mayChange i) s.dev t.dev := by
  cases i
  case registerWrite => apply execRegisterWrite_only (ht := h) <;> exact of_decide_eq_true rfl
  case subWord => apply execSubWord_only (ht := h) <;> exact of_decide_eq_true rfl
  case strideBoundary => apply execStrideBoundary_only (ht := h) <;> exact of_decide_eq_true rfl
  case strideCountRead => apply execStrideCountRead_only (ht := h) <;> exact of_decide_eq_true rfl
  case deadlineDrop => apply execDeadlineDrop_only (ht := h) <;> exact of_decide_eq_true rfl
  case overrun => apply execOverrun_only (ht := h) <;> exact of_decide_eq_true rfl
  case doorbellFetch => apply execDoorbellFetch_only (ht := h) <;> exact of_decide_eq_true rfl
  case hifNudge fn v => exact execHifNudge_only (x1i := v) (of_decide_eq_true rfl) h
  case descriptorAccept => apply execDescriptorAccept_only (ht := h) <;> exact of_decide_eq_true rfl
  case featureWrite => exact execFeatureWrite_only (of_decide_eq_true rfl) h
  case featureLock => exact execFeatureLock_only (of_decide_eq_true rfl) h
  case ringEnable => apply execRingEnable_only (ht := h) <;> exact of_decide_eq_true rfl
  case ringDisable => apply execRingDisable_only (ht := h) <;> exact of_decide_eq_true rfl
  case ringIdle => exact execRingIdle_only (of_decide_eq_true rfl) h
  case linkChange => apply execLinkChange_only (ht := h) <;> exact of_decide_eq_true rfl
  case vfFlr => apply execVfFlr_only (ht := h) <;> exact of_decide_eq_true rfl
  case pfFlr => apply execPfFlr_only (ht := h) <;> exact of_decide_eq_true rfl
  case nop => apply execNop_only (ht := h) <;> exact of_decide_eq_true rfl
  case sessionOpen => apply execSessionOpen_only (ht := h) <;> exact of_decide_eq_true rfl
  case sessionClose => apply execSessionClose_only (ht := h) <;> exact of_decide_eq_true rfl
  case sessionCloseDone => apply execSessionCloseDone_only (ht := h) <;> exact of_decide_eq_true rfl
  case objRelease => apply execObjRelease_only (ht := h) <;> exact of_decide_eq_true rfl
  case objQuery => apply execObjQuery_only (ht := h) <;> exact of_decide_eq_true rfl
  case confCreate => apply execConfCreate_only (ht := h) <;> exact of_decide_eq_true rfl
  case partCreate => apply execPartCreate_only (ht := h) <;> exact of_decide_eq_true rfl
  case partSet => apply execPartSet_only (ht := h) <;> exact of_decide_eq_true rfl
  case craftSet => apply execCraftSet_only (ht := h) <;> exact of_decide_eq_true rfl
  case legCreate => apply execLegCreate_only (ht := h) <;> exact of_decide_eq_true rfl
  case legSet => apply execLegSet_only (ht := h) <;> exact of_decide_eq_true rfl
  case fanoutAdd => apply execFanoutAdd_only (ht := h) <;> exact of_decide_eq_true rfl
  case fanoutDel => apply execFanoutDel_only (ht := h) <;> exact of_decide_eq_true rfl
  case keyLoad => apply execKeyLoad_only (ht := h) <;> exact of_decide_eq_true rfl
  case keyRetire => apply execKeyRetire_only (ht := h) <;> exact of_decide_eq_true rfl
  case ctxCreate => apply execCtxCreate_only (ht := h) <;> exact of_decide_eq_true rfl
  case ctxRefresh => apply execCtxRefresh_only (ht := h) <;> exact of_decide_eq_true rfl
  case layoutCreate => apply execLayoutCreate_only (ht := h) <;> exact of_decide_eq_true rfl
  case layoutShadow => apply execLayoutShadow_only (ht := h) <;> exact of_decide_eq_true rfl
  case layoutCommit => apply execLayoutCommit_only (ht := h) <;> exact of_decide_eq_true rfl
  case encCreate => apply execEncCreate_only (ht := h) <;> exact of_decide_eq_true rfl
  case encSet => apply execEncSet_only (ht := h) <;> exact of_decide_eq_true rfl
  case flowCreate => apply execFlowCreate_only (ht := h) <;> exact of_decide_eq_true rfl
  case cardSubmit => apply execCardSubmit_only (ht := h) <;> exact of_decide_eq_true rfl
  case cardCancel => apply execCardCancel_only (ht := h) <;> exact of_decide_eq_true rfl
  case kernelLoad => apply execKernelLoad_only (ht := h) <;> exact of_decide_eq_true rfl
  case ruleWrite => apply execRuleWrite_only (ht := h) <;> exact of_decide_eq_true rfl
  case ruleSwap => apply execRuleSwap_only (ht := h) <;> exact of_decide_eq_true rfl
  case swapDrainDone => apply execSwapDrainDone_only (ht := h) <;> exact of_decide_eq_true rfl
  case swapTimeout => apply execSwapTimeout_only (ht := h) <;> exact of_decide_eq_true rfl
  case txFrame => apply execTxFrame_only (ht := h) <;> exact of_decide_eq_true rfl
  case unitStop => apply execUnitStop_only (ht := h) <;> exact of_decide_eq_true rfl
  case unitStopped => apply execUnitStopped_only (ht := h) <;> exact of_decide_eq_true rfl
  case unitCmdTimeout => apply execUnitCmdTimeout_only (ht := h) <;> exact of_decide_eq_true rfl
  case unitStart => apply execUnitStart_only (ht := h) <;> exact of_decide_eq_true rfl
  case unitRunning => apply execUnitRunning_only (ht := h) <;> exact of_decide_eq_true rfl
  case modeSet => apply execModeSet_only (ht := h) <;> exact of_decide_eq_true rfl
  case modeChange => apply execModeChange_only (ht := h) <;> exact of_decide_eq_true rfl
  case quarterFence => apply execQuarterFence_only (ht := h) <;> exact of_decide_eq_true rfl
  case tackStore => apply execTackStore_only (ht := h) <;> exact of_decide_eq_true rfl
  case tackStoreDone => apply execTackStoreDone_only (ht := h) <;> exact of_decide_eq_true rfl
  case tackLoad => apply execTackLoad_only (ht := h) <;> exact of_decide_eq_true rfl
  case dmaChain => apply execDmaChain_only (ht := h) <;> exact of_decide_eq_true rfl
  case diag => apply execDiag_only (ht := h) <;> exact of_decide_eq_true rfl
  case cardRetire => apply execCardRetire_only (ht := h) <;> exact of_decide_eq_true rfl
  case cardDeal => apply execCardDeal_only (ht := h) <;> exact of_decide_eq_true rfl
  case engineQueueWrite => apply execEngineQueueWrite_only (ht := h) <;> exact of_decide_eq_true rfl
  case preempt => apply execPreempt_only (ht := h) <;> exact of_decide_eq_true rfl
  case preemptLate => apply execPreemptLate_only (ht := h) <;> exact of_decide_eq_true rfl
  case flowStall => apply execFlowStall_only (ht := h) <;> exact of_decide_eq_true rfl
  case submitStall => apply execSubmitStall_only (ht := h) <;> exact of_decide_eq_true rfl
  case writeBufferDrain => apply execWriteBufferDrain_only (ht := h) <;> exact of_decide_eq_true rfl
  case preemptInterrupt => exact execPreemptInterrupt_only (of_decide_eq_true rfl) h
  case coreHalt => apply execCoreHalt_only (ht := h) <;> exact of_decide_eq_true rfl
  case coreStep => apply execCoreStep_only (ht := h) <;> exact of_decide_eq_true rfl
  case teamMemUe => apply execTeamMemUe_only (ht := h) <;> exact of_decide_eq_true rfl
  case lineCheck => apply execLineCheck_only (ht := h) <;> exact of_decide_eq_true rfl
  case anResolve => apply execAnResolve_only (ht := h) <;> exact of_decide_eq_true rfl
  case trainingDone => apply execTrainingDone_only (ht := h) <;> exact of_decide_eq_true rfl
  case trainTimeout => apply execTrainTimeout_only (ht := h) <;> exact of_decide_eq_true rfl
  case linkUp => apply execLinkUp_only (ht := h) <;> exact of_decide_eq_true rfl
  case linkDown => apply execLinkDown_only (ht := h) <;> exact of_decide_eq_true rfl
  case linkRetry => exact execLinkRetry_only (of_decide_eq_true rfl) h
  case laneFault => apply execLaneFault_only (ht := h) <;> exact of_decide_eq_true rfl
  case laneRecheck => apply execLaneRecheck_only (ht := h) <;> exact of_decide_eq_true rfl
  case roleWrite => apply execRoleWrite_only (ht := h) <;> exact of_decide_eq_true rfl
  case failover => apply execFailover_only (ht := h) <;> exact of_decide_eq_true rfl
  case frameReceive => apply execFrameReceive_only (ht := h) <;> exact of_decide_eq_true rfl
  case pauseFrame => apply execPauseFrame_only (ht := h) <;> exact of_decide_eq_true rfl
  case pauseExpiry => apply execPauseExpiry_only (ht := h) <;> exact of_decide_eq_true rfl
  case macTransmit => apply execMacTransmit_only (ht := h) <;> exact of_decide_eq_true rfl
  case parseDispatch => apply execParseDispatch_only (ht := h) <;> exact of_decide_eq_true rfl
  case parseLd => apply execParseLd_only (ht := h) <;> exact of_decide_eq_true rfl
  case parseAlu => apply execParseAlu_only (ht := h) <;> exact of_decide_eq_true rfl
  case parseBr => apply execParseBr_only (ht := h) <;> exact of_decide_eq_true rfl
  case parseAdv => apply execParseAdv_only (ht := h) <;> exact of_decide_eq_true rfl
  case parseNode => apply execParseNode_only (ht := h) <;> exact of_decide_eq_true rfl
  case parseKeyw => apply execParseKeyw_only (ht := h) <;> exact of_decide_eq_true rfl
  case parseKeyp => apply execParseKeyp_only (ht := h) <;> exact of_decide_eq_true rfl
  case parseLenchk => apply execParseLenchk_only (ht := h) <;> exact of_decide_eq_true rfl
  case parseMeta => apply execParseMeta_only (ht := h) <;> exact of_decide_eq_true rfl
  case parseVerd => apply execParseVerd_only (ht := h) <;> exact of_decide_eq_true rfl
  case emLookupReturn => apply execEmLookupReturn_only (ht := h) <;> exact of_decide_eq_true rfl
  case srtpInbound => apply execSrtpInbound_only (ht := h) <;> exact of_decide_eq_true rfl
  case srtpOutbound => apply execSrtpOutbound_only (ht := h) <;> exact of_decide_eq_true rfl
  case secSelftest => exact execSecSelftest_only (of_decide_eq_true rfl) h
  case selftestDone => exact execSelftestDone_only (of_decide_eq_true rfl) h
  case kekGenWrite => exact execKekGenWrite_only (of_decide_eq_true rfl) h
  case jitterCard => apply execJitterCard_only (ht := h) <;> exact of_decide_eq_true rfl
  case audioMixDone => apply execAudioMixDone_only (ht := h) <;> exact of_decide_eq_true rfl
  case cascadePayload => apply execCascadePayload_only (ht := h) <;> exact of_decide_eq_true rfl
  case jackInsert => exact execJackInsert_only (of_decide_eq_true rfl) h
  case debounceEnd => apply execDebounceEnd_only (ht := h) <;> exact of_decide_eq_true rfl
  case detectionDone => apply execDetectionDone_only (ht := h) <;> exact of_decide_eq_true rfl
  case jackRemove => apply execJackRemove_only (ht := h) <;> exact of_decide_eq_true rfl
  case buttonPress => apply execButtonPress_only (ht := h) <;> exact of_decide_eq_true rfl
  case buttonRelease => apply execButtonRelease_only (ht := h) <;> exact of_decide_eq_true rfl
  case buttonLong => apply execButtonLong_only (ht := h) <;> exact of_decide_eq_true rfl
  case outputShort => apply execOutputShort_only (ht := h) <;> exact of_decide_eq_true rfl
  case faultRetry => exact execFaultRetry_only (of_decide_eq_true rfl) h
  case biasShort => apply execBiasShort_only (ht := h) <;> exact of_decide_eq_true rfl
  case micOpen => apply execMicOpen_only (ht := h) <;> exact of_decide_eq_true rfl
  case faultClear => apply execFaultClear_only (ht := h) <;> exact of_decide_eq_true rfl
  case pictureReady => apply execPictureReady_only (ht := h) <;> exact of_decide_eq_true rfl
  case segmentCard => apply execSegmentCard_only (ht := h) <;> exact of_decide_eq_true rfl
  case parseCard => apply execParseCard_only (ht := h) <;> exact of_decide_eq_true rfl
  case rebuildCard => apply execRebuildCard_only (ht := h) <;> exact of_decide_eq_true rfl
  case finishCard => apply execFinishCard_only (ht := h) <;> exact of_decide_eq_true rfl
  case concealCard => apply execConcealCard_only (ht := h) <;> exact of_decide_eq_true rfl
  case ctuLimit => apply execCtuLimit_only (ht := h) <;> exact of_decide_eq_true rfl
  case picLimit => apply execPicLimit_only (ht := h) <;> exact of_decide_eq_true rfl
  case refreshIntervalEnd => apply execRefreshIntervalEnd_only (ht := h) <;> exact of_decide_eq_true rfl
  case composeBand => apply execComposeBand_only (ht := h) <;> exact of_decide_eq_true rfl
  case encodeBand => apply execEncodeBand_only (ht := h) <;> exact of_decide_eq_true rfl
  case fillPicture => apply execFillPicture_only (ht := h) <;> exact of_decide_eq_true rfl
  case cellWait => apply execCellWait_only (ht := h) <;> exact of_decide_eq_true rfl
  case forwardPacket => apply execForwardPacket_only (ht := h) <;> exact of_decide_eq_true rfl
  case nack => apply execNack_only (ht := h) <;> exact of_decide_eq_true rfl
  case rtcpReceive => apply execRtcpReceive_only (ht := h) <;> exact of_decide_eq_true rfl
  case selection => apply execSelection_only (ht := h) <;> exact of_decide_eq_true rfl
  case postWheelTick => apply execPostWheelTick_only (ht := h) <;> exact of_decide_eq_true rfl
  case shaperTick => apply execShaperTick_only (ht := h) <;> exact of_decide_eq_true rfl
  case shaperWrite => apply execShaperWrite_only (ht := h) <;> exact of_decide_eq_true rfl
  case gateEntry => apply execGateEntry_only (ht := h) <;> exact of_decide_eq_true rfl
  case gclArm => apply execGclArm_only (ht := h) <;> exact of_decide_eq_true rfl
  case gclTakeover => apply execGclTakeover_only (ht := h) <;> exact of_decide_eq_true rfl
  case watermarkClear => exact execWatermarkClear_only (of_decide_eq_true rfl) h
  case timeRead => apply execTimeRead_only (ht := h) <;> exact of_decide_eq_true rfl
  case timModeWrite => apply execTimModeWrite_only (ht := h) <;> exact of_decide_eq_true rfl
  case freqWrite => apply execFreqWrite_only (ht := h) <;> exact of_decide_eq_true rfl
  case stepApply => apply execStepApply_only (ht := h) <;> exact of_decide_eq_true rfl
  case stepForce => apply execStepForce_only (ht := h) <;> exact of_decide_eq_true rfl
  case ptpMessage => apply execPtpMessage_only (ht := h) <;> exact of_decide_eq_true rfl
  case holdover => apply execHoldover_only (ht := h) <;> exact of_decide_eq_true rfl
  case freerun => apply execFreerun_only (ht := h) <;> exact of_decide_eq_true rfl
  case txtsPop => apply execTxtsPop_only (ht := h) <;> exact of_decide_eq_true rfl
  case pulseArm => apply execPulseArm_only (ht := h) <;> exact of_decide_eq_true rfl
  case pulseTakeover => apply execPulseTakeover_only (ht := h) <;> exact of_decide_eq_true rfl
  case pulseEdge => apply execPulseEdge_only (ht := h) <;> exact of_decide_eq_true rfl
  case hbmCommandSlot => apply execHbmCommandSlot_only (ht := h) <;> exact of_decide_eq_true rfl
  case hbmRefresh => exact execHbmRefresh_only (of_decide_eq_true rfl) h
  case scrub => apply execScrub_only (ht := h) <;> exact of_decide_eq_true rfl
  case driftTracking => apply execDriftTracking_only (ht := h) <;> exact of_decide_eq_true rfl
  case ceThresh => apply execCeThresh_only (ht := h) <;> exact of_decide_eq_true rfl
  case retrainStep => apply execRetrainStep_only (ht := h) <;> exact of_decide_eq_true rfl
  case stackTraining => apply execStackTraining_only (ht := h) <;> exact of_decide_eq_true rfl
  case paddockRound => apply execPaddockRound_only (ht := h) <;> exact of_decide_eq_true rfl
  case quotaWindow => apply execQuotaWindow_only (ht := h) <;> exact of_decide_eq_true rfl
  case dmaDescriptor => apply execDmaDescriptor_only (ht := h) <;> exact of_decide_eq_true rfl
  case fatalLatchClear => exact execFatalLatchClear_only (of_decide_eq_true rfl) h
  case ledgerAuditDone => apply execLedgerAuditDone_only (ht := h) <;> exact of_decide_eq_true rfl
  case unitFault => apply execUnitFault_only (ht := h) <;> exact of_decide_eq_true rfl
  case dumpRead => apply execDumpRead_only (ht := h) <;> exact of_decide_eq_true rfl
  case powerOnReset => apply execPowerOnReset_only (ht := h) <;> exact of_decide_eq_true rfl
  case warmReset => apply execWarmReset_only (ht := h) <;> exact of_decide_eq_true rfl
  case sysResetWarm => apply execSysResetWarm_only (ht := h) <;> exact of_decide_eq_true rfl
  case flashBoot => apply execFlashBoot_only (ht := h) <;> exact of_decide_eq_true rfl
  case hostGo => apply execHostGo_only (ht := h) <;> exact of_decide_eq_true rfl
  case imageAccepted => apply execImageAccepted_only (ht := h) <;> exact of_decide_eq_true rfl
  case bootGo => apply execBootGo_only (ht := h) <;> exact of_decide_eq_true rfl
  case powerStep => apply execPowerStep_only (ht := h) <;> exact of_decide_eq_true rfl
  case powerStepFail => apply execPowerStepFail_only (ht := h) <;> exact of_decide_eq_true rfl
  case fuseProg => apply execFuseProg_only (ht := h) <;> exact of_decide_eq_true rfl
  case fuseLock => apply execFuseLock_only (ht := h) <;> exact of_decide_eq_true rfl
  case thermAlert => apply execThermAlert_only (ht := h) <;> exact of_decide_eq_true rfl
  case smbusReadByte => exact execSmbusReadByte_only (of_decide_eq_true rfl) h
  case registerRead => apply execRegisterRead_only (ht := h) <;> exact of_decide_eq_true rfl
  case flrComplete => apply execFlrComplete_only (ht := h) <;> exact of_decide_eq_true rfl
  case slowPathService => apply execSlowPathService_only (ht := h) <;> exact of_decide_eq_true rfl
  case pulseWidthEnd => apply execPulseWidthEnd_only (ht := h) <;> exact of_decide_eq_true rfl
  all_goals exact exec_core_only rfl h

theorem exec_pieces (i : Instr) (s : State) : OnlyPieces i s (mayChange i) :=
  Only.pieces (fun _ h => exec_pending h) fun _ h => exec_only h

/-- Settles O58: it is the frame of every command. -/
theorem framesOfRingCommands : Obligations.FramesOfRingCommands := fun i s _ => exec_pieces i s

/-- Settles O60: it is the frame of every command. -/
theorem framesOfTheOtherCommands : Obligations.FramesOfTheOtherCommands := fun i s _ _ => exec_pieces i s

/-! ### One step -/

theorem step_front {c : Instr} {rest : List Instr} (h : s.pending = c :: rest) : step s = exec c { s with pending := rest } := by
  simp only [step, h]

theorem step_idle (h : s.pending = []) : step s = .next { s with dev := tick s.dev } := by
  simp only [step, h]

/-- A tick changes the time unit alone. -/
theorem tick_keeps (d : Dev) : Only (· ∈ [Piece.tim]) d (tick d) := tick_only (of_decide_eq_true rfl) (Only.refl d)

/-- Every step keeps what every operation keeps. -/
theorem step_only (h : step s = .next t) : Only (fun _ => True) s.dev t.dev := by
  cases hp : s.pending with
  | nil =>
    cases (step_idle hp).symm.trans h
    exact (tick_keeps s.dev).mono fun _ _ => trivial
  | cons c rest => exact (exec_only ((step_front hp).symm.trans h)).mono fun _ _ => trivial

/-- Settles O1: it is the second arm of `step`. -/
theorem stepRunsFrontCommand : Obligations.StepRunsFrontCommand := fun _ _ _ => step_front

/-- Settles O2: an idle step is a tick, whose frame is the time unit; every other step is a meaning, and each answers a next state. -/
theorem everyStepAnswersNext : Obligations.EveryStepAnswersNext := by
  unfold Obligations.EveryStepAnswersNext
  refine ⟨fun s hp => ⟨step_idle hp, (tick_keeps s.dev).regs (by decide), (tick_keeps s.dev).stride (by decide)⟩, fun s c rest hp => ?_⟩
  obtain ⟨d, he⟩ := exec_isNext c { s with pending := rest }
  exact ⟨_, (step_front hp).trans he, rfl⟩

/-! ### The reset state -/

/-- Settles O3: an empty register file reads every register's reset value, and the rest is the reset record itself. -/
theorem resetState : Obligations.ResetState := by
  unfold Obligations.ResetState
  refine ⟨rfl, rfl, rfl, fun a => BitVec.zero_xor, rfl, rfl, rfl, by decide, rfl, rfl, fun q => ?_, rfl, rfl, rfl, rfl, rfl, dev_reset_sound .v4⟩
  match q with
  | 0 | 1 | 2 | 3 | n + 4 => rfl

/-- Settles O4: both are laws of the reset record, variant by variant. -/
theorem resetInvariant : Obligations.ResetInvariant := fun v => ⟨dev_reset_wf v, dev_reset_sound v⟩

/-! ### What every step keeps -/

/-- Settles O5: the ledger equation is part of every frame. -/
theorem stepKeepsLedgerEquation : Obligations.StepKeepsLedgerEquation := fun _ _ hs h => (step_only h).sound hs

/-- Settles O6: the canonical form is part of every frame. -/
theorem stepKeepsMemoryForm : Obligations.StepKeepsMemoryForm := fun _ _ hs h => (step_only h).wf hs

/-- Settles O7: the rule of the fuses is part of every frame. -/
theorem fusesOnlyOneWay : Obligations.FusesOnlyOneWay := fun _ _ h => (step_only h).fuse

/-- Settles O11: a longer log and the same variant are part of every frame. -/
theorem outputLogGrows : Obligations.OutputLogGrows := fun _ _ _ h => ⟨(exec_only h).grows, (exec_only h).variant⟩

theorem mayMoveStride_of_mem : Piece.stride ∈ mayChange i → mayMoveStride i = true := by
  cases i <;> exact of_decide_eq_true rfl

/-- Settles O9: no other command's frame holds the stride count. -/
theorem strideCountMovesOnlyAtBoundaries : Obligations.StrideCountMovesOnlyAtBoundaries := fun _ _ _ hc h =>
  (exec_only h).stride fun hm => Bool.false_ne_true (hc.symm.trans (mayMoveStride_of_mem hm))

theorem mayWriteHbm_of_mem : Piece.hbm ∈ mayChange i → mayWriteHbm i = true := by
  cases i <;> exact of_decide_eq_true rfl

/-- Settles O12: no other command's frame holds HBM. -/
theorem hbmChangesOnlyByItsWriters : Obligations.HbmChangesOnlyByItsWriters := by
  intro s t c hc h a
  rw [(exec_only h).hbm fun hm => Bool.false_ne_true (hc.symm.trans (mayWriteHbm_of_mem hm))]

theorem mayWritePaddock_of_mem : Piece.pad ∈ mayChange i ∨ Piece.local_ ∈ mayChange i → mayWritePaddock i = true := by
  cases i <;> exact of_decide_eq_true rfl

/-- Settles O13: no other command's frame holds Paddock or a core's local memory. -/
theorem paddockAndCoreMemoryChangeOnlyByTheirWriters : Obligations.PaddockAndCoreMemoryChangeOnlyByTheirWriters := by
  intro s t c hc h
  have hno (hm : Piece.pad ∈ mayChange c ∨ Piece.local_ ∈ mayChange c) : False :=
    Bool.false_ne_true (hc.symm.trans (mayWritePaddock_of_mem hm))
  constructor
  · intro q a
    rw [padMem, (exec_only h).pad fun hm => hno (.inl hm)]
    rfl
  · intro k a
    rw [localMem, (exec_only h).local_ fun hm => hno (.inr hm)]
    rfl

end Sys2Proof.Machine
end

section
/-! Register writes, resets and HALT-SAFE: a write to SYS_RESET is the only register write that may leave HALT-SAFE (R381, R383), and what
each reset clears and keeps (R384). -/
namespace Sys2Proof.Machine
variable {s t : State} {i : Instr} {d : Dev}

/-! ### Resets -/

/-- The device without its registers, its log and the state of its rings: what events leave alone. -/
def unreported (d : Dev) : Dev := { d with regs := [], out := [], hif := { d.hif with rings := [] } }

theorem unreported_setF (d : Dev) (a lo len v : Nat) : unreported (setF d a lo len v) = unreported d := rfl
theorem unreported_putB (d : Dev) (a i : Nat) (b : Bool) : unreported (putB d a i b) = unreported d := rfl

theorem unreported_sendMsix (d : Dev) (fn v : Nat) : unreported (sendMsix d fn v) = unreported d := by
  unfold sendMsix
  split <;> rfl

theorem unreported_ringIrq (d : Dev) (fn r : Nat) : unreported (ringIrq d fn r) = unreported d := by
  unfold ringIrq
  split
  · exact unreported_sendMsix _ _ _
  · rfl

theorem unreported_fatalIrq (d : Dev) : unreported (fatalIrq d) = unreported d := by
  unfold fatalIrq
  split
  · exact unreported_sendMsix _ _ _
  · rfl

theorem unreported_writeRecs (d : Dev) (fn r : Nat) (recs : List (BitVec 128)) : unreported (writeRecs d fn r recs) = unreported d := by
  induction recs generalizing d with
  | nil => rfl
  | cons x xs ih => exact ih _

theorem unreported_eqOverflow (d : Dev) (fn r : Nat) : unreported (eqOverflow d fn r) = unreported d := by
  unfold eqOverflow
  dsimp only
  split
  · rfl
  · rw [unreported_ringIrq, unreported_writeRecs]
    rfl

theorem unreported_offerRecs (d : Dev) (fn r : Nat) (recs : List (BitVec 128)) : unreported (offerRecs d fn r recs) = unreported d := by
  unfold offerRecs
  dsimp only
  split
  · rw [unreported_ringIrq, unreported_writeRecs, unreported_eqOverflow]
  · exact unreported_eqOverflow d fn r

theorem unreported_foldl {α : Type} {f : Dev → α → Dev} (hf : ∀ d x, unreported (f d x) = unreported d) (l : List α) (d : Dev) :
    unreported (l.foldl f d) = unreported d := by
  induction l generalizing d with
  | nil => rfl
  | cons x xs ih => rw [List.foldl_cons, ih, hf]

theorem unreported_latchFatal (d : Dev) (recs : List (BitVec 128)) : unreported (latchFatal d recs) = unreported d := by
  unfold latchFatal
  split
  · rfl
  · refine (unreported_foldl ?_ _ _).trans (unreported_putB _ _ _ _)
    exact fun _ _ => rfl

/-- An event leaves everything but registers, log and rings. -/
theorem unreported_raise (d : Dev) (ev : Ev) : unreported (raise d ev) = unreported d := by
  unfold raise deliver
  dsimp only
  split_ifs
  · rw [unreported_offerRecs, unreported_latchFatal]
  · rw [unreported_sendMsix, unreported_offerRecs, unreported_latchFatal]
  · rw [unreported_fatalIrq, unreported_offerRecs, unreported_latchFatal]
  · rw [unreported_fatalIrq]
    exact unreported_latchFatal _ _
  · rfl
  · exact unreported_offerRecs _ _ _ _
  · rfl

/-- The device in BOOT with strides running at the count of the clock. -/
def inBoot (d : Dev) : Dev :=
  { d with tim := { d.tim with stride := strideAt d.tim.clock, running := true }, sys := { d.sys with mode := .boot } }

/-- A device whose base mode is `m`. -/
def withMode (d : Dev) (m : Mode) : Dev :=
  { d with sys := { d.sys with
      mode := m, drainBase := if m == .drain && d.sys.mode.service then d.sys.mode else d.sys.drainBase } }

/-- Outside HALT-SAFE the base mode changes, and a change of the mode shown is reported. -/
theorem setMode_cases (h : halted d = false) (m : Mode) (cause : Nat) :
    setMode d m cause = withMode d m ∨ ∃ ev, setMode d m cause = raise (withMode d m) ev := by
  have he : setMode d m cause = if shownMode (withMode d m) == shownMode d then withMode d m
      else raise (withMode d m) (evDev 0x20 0 [(1, (shownMode d).code), (1, (shownMode (withMode d m)).code), (1, cause)]) := by
    unfold setMode
    rw [h]
    rfl
  rw [he]
  split
  · exact .inl rfl
  · exact .inr ⟨_, rfl⟩

/-- RESET ends in BOOT, with the change of mode reported. -/
theorem leaveReset_cases (h : d.sys.mode = .reset) : leaveReset d = inBoot d ∨ ∃ ev, leaveReset d = raise (inBoot d) ev :=
  setMode_cases (d := { d with tim := { d.tim with stride := strideAt d.tim.clock, running := true } }) (by simp [halted, h]) .boot 3

theorem unreported_leaveReset (h : d.sys.mode = .reset) : unreported (leaveReset d) = unreported (inBoot d) := by
  obtain he | ⟨ev, he⟩ := leaveReset_cases h
  · rw [he]
  · rw [he, unreported_raise]

/-- What a power-on reset clears and keeps: the device in RESET that then goes to BOOT. -/
def powerOnState (d : Dev) (src : Nat) : Dev :=
  { Dev.reset d.variant with
    out := d.out
    freeCtr := d.freeCtr
    sys := { (Dev.reset d.variant).sys with
      tack := d.sys.tack, stores := d.sys.stores, rootKey := d.sys.rootKey, keyProg := d.sys.keyProg,
      keyLock := d.sys.keyLock, rbFloor := d.sys.rbFloor, bootSrc := src } }

/-- What a warm reset clears and keeps outside its registers. -/
def warmState (d : Dev) (src : Nat) : Dev :=
  { powerOnState d src with
    regs := spClear d.regs fun a => !warmKeeps a
    latch := spClear d.latch fun a => !(decide (TIM ≤ a) && decide (a < TIM + 0x1000))
    tim := { d.tim with holdStrides := 0 }
    hif := { (Dev.reset d.variant).hif with vfEnable := d.hif.vfEnable, msixEnable := d.hif.msixEnable }
    sys := { (powerOnState d src).sys with thermLow := d.sys.thermLow } }

/-- A warm reset keeps the link, hold and the Tack store's state in their registers beside what `warmKeeps` keeps. -/
theorem warmReset_eq (h : d.tim.running = true) (src : Nat) :
    ∃ w, warmReset d src = leaveReset w ∧ unreported w = unreported (warmState d src) := by
  unfold warmReset
  rw [if_neg (by simp [h])]
  extract_lets z t u v w w2 w3 w4
  refine ⟨w4, rfl, ?_⟩
  have hw2 : unreported w2 = unreported w := by unfold w2; rw [unreported_setF, unreported_setF]
  have hw3 : unreported w3 = unreported w2 := by unfold w3; rw [unreported_putB, unreported_putB]
  have hw4 : unreported w4 = unreported w3 := by
    refine (unreported_foldl (fun _ _ => ?_) _ _).trans (unreported_putB _ _ _ _)
    exact unreported_setF _ _ _ _ _
  rw [hw4, hw3, hw2]
  rfl

/-- What a reset leaves in every unit beside the registers, the time base and the parts that it keeps. -/
structure ClearedBy (src : Nat) (a b : Dev) : Prop where
  mode : b.sys.mode = .boot
  fuses : fuses b = fuses a
  tack : b.sys.tack = a.sys.tack
  store : b.sys.store = none
  bootSrc : b.sys.bootSrc = src
  obj : b.obj = (Dev.reset a.variant).obj
  dlr : b.dlr = (Dev.reset a.variant).dlr
  cores : b.cores = []
  accepted : b.hif.accepted = []
  mem : b.mem = (Dev.reset a.variant).mem
  pke : b.pke = (Dev.reset a.variant).pke
  sec : b.sec = (Dev.reset a.variant).sec
  brd : b.brd = (Dev.reset a.variant).brd
  fwd : b.fwd = (Dev.reset a.variant).fwd
  aud : b.aud = (Dev.reset a.variant).aud
  vid : b.vid = (Dev.reset a.variant).vid
  ldg : b.ldg = (Dev.reset a.variant).ldg

/-- What events leave alone decides what a reset has cleared. -/
theorem ClearedBy.of_unreported {src : Nat} {a b c : Dev} (h : unreported c = unreported b) (hb : ClearedBy src a b) : ClearedBy src a c where
  mode := (congrArg (fun x : Dev => x.sys.mode) h).trans hb.mode
  fuses := (congrArg Machine.fuses h).trans hb.fuses
  tack := (congrArg (fun x : Dev => x.sys.tack) h).trans hb.tack
  store := (congrArg (fun x : Dev => x.sys.store) h).trans hb.store
  bootSrc := (congrArg (fun x : Dev => x.sys.bootSrc) h).trans hb.bootSrc
  obj := (congrArg Dev.obj h).trans hb.obj
  dlr := (congrArg Dev.dlr h).trans hb.dlr
  cores := (congrArg Dev.cores h).trans hb.cores
  accepted := (congrArg (fun x : Dev => x.hif.accepted) h).trans hb.accepted
  mem := (congrArg Dev.mem h).trans hb.mem
  pke := (congrArg Dev.pke h).trans hb.pke
  sec := (congrArg Dev.sec h).trans hb.sec
  brd := (congrArg Dev.brd h).trans hb.brd
  fwd := (congrArg Dev.fwd h).trans hb.fwd
  aud := (congrArg Dev.aud h).trans hb.aud
  vid := (congrArg Dev.vid h).trans hb.vid
  ldg := (congrArg Dev.ldg h).trans hb.ldg

theorem unreported_powerOn (d : Dev) (src : Nat) : unreported (powerOn d src) = unreported (inBoot (powerOnState d src)) :=
  unreported_leaveReset rfl

theorem unreported_warmReset (h : d.tim.running = true) (src : Nat) :
    unreported (warmReset d src) = unreported (inBoot (warmState d src)) := by
  obtain ⟨w, he, hw⟩ := warmReset_eq h src
  have hmode : w.sys.mode = .reset := congrArg (fun x : Dev => x.sys.mode) hw
  rw [he, unreported_leaveReset hmode]
  exact congrArg inBoot hw

theorem powerOn_clears (d : Dev) (src : Nat) : ClearedBy src d (powerOn d src) :=
  .of_unreported (unreported_powerOn d src) (by constructor <;> rfl)

theorem warmReset_clears (h : d.tim.running = true) (src : Nat) : ClearedBy src d (warmReset d src) :=
  .of_unreported (unreported_warmReset h src) (by constructor <;> rfl)

/-- Settles O28: a reset is the change to BOOT of a cleared device, which changes nothing that `unreported` shows. -/
theorem resetsClearAndKeep : Obligations.ResetsClearAndKeep := by
  unfold Obligations.ResetsClearAndKeep
  refine ⟨fun s src => ?_, fun s src hrun => ?_, fun s v src hw hc => ?_, fun s v src hno => ?_⟩
  · obtain ⟨h1, h2, h3, h4, h5, h6, h7, h8, h9, h10, h11, h12, h13, h14, h15, h16, h17⟩ := powerOn_clears s.dev src.val
    have htim := congrArg Dev.tim (unreported_powerOn s.dev src.val)
    exact ⟨_, rfl, rfl, h1, htim, h2, h3, h4, h5, h6, h7, h8, h9, h10, h11, h12, h13, h14, h15, h16, h17⟩
  · obtain ⟨h1, h2, h3, h4, h5, h6, h7, h8, h9, h10, h11, h12, h13, h14, h15, h16, h17⟩ := warmReset_clears hrun src.val
    have htim : (warmReset s.dev src.val).tim = { s.dev.tim with holdStrides := 0, stride := strideAt s.dev.tim.clock } := by
      refine (congrArg Dev.tim (unreported_warmReset hrun src.val)).trans ?_
      simp only [unreported, inBoot, warmState, hrun]
    exact ⟨_, rfl, rfl, h1, htim, h2, h3, h4, h5, h6, h7, h8, h9, h10, h11, h12, h13, h14, h15, h16, h17⟩
  · have hb : (bit v 0 && fld v 8 8 == 0xA5) = true := by rw [bit_eq_getLsbD, hw, hc]; rfl
    show nextWith s (writeReset s.dev v src.val) = nextWith s (warmReset s.dev src.val)
    rw [writeReset, if_pos hb]
  · have hb : ¬(bit v 0 && fld v 8 8 == 0xA5) = true := by
      rw [bit_eq_getLsbD, Bool.and_eq_true, beq_iff_eq]
      rintro ⟨hw, hc⟩
      rcases hno with h | h
      · exact Bool.false_ne_true (h.symm.trans hw)
      · exact h hc
    show nextWith s (writeReset s.dev v src.val) = .next s
    rw [writeReset, if_neg hb]

/-! ### Register writes: all but SYS_RESET keep HALT-SAFE and the Tack store -/

/-- The parts but HALT-SAFE's end and the Tack store. -/
abbrev offReset : Piece → Prop := (· ∉ [Piece.rst, Piece.tack])

/-- A place outside the SYS block, or none. -/
def outsideSys (o : Option Loc) : Bool := o.all fun l => l.blk != .sys

theorem outsideSys_ite {p : Prop} [Decidable p] {x y : Option Loc} (hx : outsideSys x = true) (hy : outsideSys y = true) :
    outsideSys (if p then x else y) = true := by
  split
  · exact hx
  · exact hy

theorem not_outsideSys {l : Loc} (hb : l.blk = .sys) : outsideSys (some l) = false := by simp [outsideSys, hb]

/-- The SYS block holds its registers in address order. -/
theorem locate_sys {a : Nat} {l : Loc} (h : locate a = some l) (hb : l.blk = .sys) : a = SYS + l.off := by
  have hin := not_outsideSys hb
  rw [← h] at hin
  by_cases hlow : a < 0x20000
  · refine absurd (Eq.trans ?_ hin) (Bool.noConfusion : ¬true = false)
    rw [locate, if_pos hlow]
    exact (outsideSys_ite rfl rfl).symm
  · rw [locate, if_neg (by omega), if_neg hlow] at h hin
    by_cases hhigh : a < 0x21000
    · rw [if_pos hhigh] at h
      cases h
      exact (Nat.add_sub_of_le (Nat.not_lt.1 hlow)).symm
    · refine absurd (Eq.trans (Eq.symm ?_) hin) (Bool.noConfusion : ¬true = false)
      rw [if_neg hhigh]
      repeat' apply outsideSys_ite
      all_goals rfl

theorem locate_of_regAt {v : Variant} {a : Nat} {l : Loc} {r : RegRow} {is : List Nat} (h : regAt v a = some (l, r, is)) :
    locate a = some l := by
  unfold regAt at h
  split at h
  · cases h
  · next x hx =>
    split at h
    · cases h
    · split at h
      · cases h
      · cases h
        exact hx

/-- A write to a register of the SYS block acts as `writeReset` at SYS_RESET, and is off the reset elsewhere. -/
theorem writeSys_cases {l : Loc} {r : RegRow} {is : List Nat} {a : Nat} (v : Word) :
    (l.off = 0x18 ∧ writeSys d l r is a v = writeReset d v d.sys.bootSrc) ∨ Only offReset d (writeSys d l r is a v) := by
  unfold writeSys
  split
  · right
    apply writeBootCtrl_only (h := Only.refl d) <;> decide
  · exact .inl ⟨‹_›, rfl⟩
  · exact .inr (writeFields_only (by decide) (Only.refl d))

/-- A register write but one to SYS_RESET. -/
theorem writeReg_cases (d : Dev) (a : Nat) (v : Word) :
    (a = SYS + 0x18 ∧ writeReg d a v = writeReset d v d.sys.bootSrc) ∨ Only offReset d (writeReg d a v) := by
  have h := Only.refl (e := offReset) d
  have hfields {l : Loc} {r : RegRow} {is : List Nat} : Only offReset d (writeFields d l r is a v) := writeFields_only (by decide) h
  unfold writeReg
  split
  · exact .inr h
  next l r is hr =>
  extract_lets i
  split
  · exact .inr (watermarkClear_only (by decide) h)
  split
  case h_3 hb =>
    refine (writeSys_cases v).imp_left fun ⟨ho, he⟩ => ⟨?_, he⟩
    rw [locate_sys (locate_of_regAt hr) hb, ho]
  all_goals right
  case h_1 => exact writeHif_only (by decide) (by decide) h
  case h_2 =>
    split_ifs
    · exact clearFatal_only (by decide) h
    · exact hfields
  case h_4 =>
    split_ifs
    · apply writeFusFree_only (h := h) <;> decide
    · exact setReg_only (by decide) h
    · exact h
  case h_5 => apply writeTim_only (h := h) <;> decide
  case h_6 =>
    split_ifs
    · apply writeMdcCtrl_only (h := h) <;> decide
    · exact hfields
  case h_7 =>
    split_ifs
    · exact secSelftest_only (by decide) h
    · exact hfields
  case h_8 =>
    split_ifs
    · exact fitSurface_only (by decide) (by decide) (by decide) hfields
    · exact hfields
  case h_9 =>
    split_ifs
    · exact writeRole_only (by decide) (by decide) h
    · exact hfields
  case h_10 => apply writeBrd_only (h := h) <;> decide
  case h_11 => exact writeMsix_only (by decide) (by decide) h
  case h_12 => exact hfields

/-- Only the PF reaches SYS_RESET. -/
theorem barAddr_sysReset {fn addr : Nat} (h : barAddr fn addr = some (SYS + 0x18)) : fn = 0 ∧ addr = SYS + 0x18 := by
  have hmsix := msixReg_ge fn 0 (addr - 2 ^ 32)
  have hsys : SYS + 0x18 < 0x4000000 := by decide
  unfold barAddr at h
  by_cases hbar2 : 2 ^ 32 ≤ addr
  · rw [if_pos hbar2, Option.ite_none_right_eq_some, Option.some.injEq] at h
    omega
  rw [if_neg hbar2] at h
  by_cases hpf : fn = 0
  · rw [if_pos hpf, Option.ite_none_right_eq_some, Option.some.injEq] at h
    exact ⟨hpf, h.2⟩
  · rw [if_neg hpf, Option.ite_none_right_eq_some, Option.some.injEq, viewBase, if_neg hpf] at h
    omega

theorem hostWriteReg_cases (d : Dev) (fn addr : Nat) (v : Word) :
    ((fn = 0 ∧ addr = SYS + 0x18) ∧ hostWriteReg d fn addr v = writeReset d v d.sys.bootSrc) ∨ Only offReset d (hostWriteReg d fn addr v) := by
  unfold hostWriteReg
  split
  · exact .inr (Only.refl d)
  · next a ha =>
    split
    · refine (writeReg_cases d a v).imp_left fun ⟨hreset, he⟩ => ⟨barAddr_sysReset (hreset ▸ ha), he⟩
    · right
      apply subWord_only (h := Only.refl d) <;> decide

/-! ### HALT-SAFE ends only through a reset -/

theorem imageAccepted_notBoot (h : d.sys.mode ≠ .boot) : imageAccepted d = d := by
  unfold imageAccepted
  rw [if_pos (by simp [h])]

/-- Settles O8: the frame of every other command keeps HALT-SAFE; of register writes only SYS_RESET has another frame, and an accepted
image acts in BOOT alone. -/
theorem haltSafeEndsOnlyByReset : Obligations.HaltSafeEndsOnlyByReset := by
  intro s t c hm hc h
  cases c
  case registerWrite fn addr v =>
    obtain ⟨⟨hfn, haddr⟩, -⟩ | hoff := hostWriteReg_cases s.dev fn.val addr v
    · simp [mayReset, hfn, haddr] at hc
    · cases h
      exact hoff.halt (by decide) hm
  case imageAccepted =>
    have he : exec .imageAccepted s = nextWith s (imageAccepted s.dev) := rfl
    rw [imageAccepted_notBoot (by simp [hm])] at he
    cases he.symm.trans h
    exact hm
  case powerOnReset | warmReset | sysResetWarm => cases hc
  all_goals exact (exec_only h).halt (of_decide_eq_true rfl) hm

/-! ### The Tack store -/

theorem warmReset_tack (d : Dev) (src : Nat) : (warmReset d src).sys.tack = d.sys.tack := by
  by_cases hrun : d.tim.running = true
  · exact (warmReset_clears hrun src).tack
  · rw [warmReset, if_pos (by simp [hrun])]

theorem writeReset_tack (d : Dev) (v : Word) (src : Nat) : (writeReset d v src).sys.tack = d.sys.tack := by
  unfold writeReset
  split
  · exact warmReset_tack d src
  · rfl

theorem hostWriteReg_tack (d : Dev) (fn addr : Nat) (v : Word) : (hostWriteReg d fn addr v).sys.tack = d.sys.tack := by
  obtain ⟨-, he⟩ | hoff := hostWriteReg_cases d fn addr v
  · rw [he, writeReset_tack]
  · exact hoff.tack (by decide)

theorem applySettings_tack (ps : List (Nat × Word)) (d : Dev) : (applySettings d ps).sys.tack = d.sys.tack := by
  unfold applySettings
  induction ps generalizing d with
  | nil => rfl
  | cons p ps ih =>
    rw [List.foldl_cons, ih]
    split_ifs
    · rfl
    · exact hostWriteReg_tack _ _ _ _
    · rfl

theorem imageAccepted_tack (d : Dev) : (imageAccepted d).sys.tack = d.sys.tack := by
  have hset : (applySettings (setF (tackBoot d) TCK 16 10 0) (tackSettings (setF (tackBoot d) TCK 16 10 0))).sys.tack = d.sys.tack := by
    rw [applySettings_tack]
    exact (tackBoot_only (e := (· ∈ [Piece.regs])) (by decide) (Only.refl d)).tack (by decide)
  have hleave (e : Dev) : (tryLeaveBoot e).sys.tack = e.sys.tack :=
    Only.tack (e := offReset) (by apply tryLeaveBoot_only (h := Only.refl e) <;> decide) (by decide)
  unfold imageAccepted
  split
  · rfl
  · dsimp only
    split
    · exact hset
    · rw [hleave]
      exact hset

/-- Settles O10: no frame but that of the store holds its bytes, and register writes, boot settings and resets keep them. -/
theorem tackStoreChangesOnlyByStore : Obligations.TackStoreChangesOnlyByStore := by
  intro s t c hstart hend h a
  suffices htack : t.dev.sys.tack = s.dev.sys.tack by rw [htack]
  cases c
  case tackStore fn ring b d => exact absurd rfl (hstart fn ring b d)
  case tackStoreDone ok us => exact absurd rfl (hend ok us)
  case registerWrite fn addr v =>
    cases h
    exact hostWriteReg_tack _ _ _ _
  case imageAccepted =>
    cases h
    exact imageAccepted_tack _
  case powerOnReset src =>
    cases h
    exact (powerOn_clears s.dev src.val).tack
  case warmReset src =>
    cases h
    exact warmReset_tack _ _
  case sysResetWarm v src =>
    cases h
    exact writeReset_tack _ _ _
  all_goals exact (exec_only h).tack (of_decide_eq_true rfl)

end Sys2Proof.Machine
end

section
/-! DIAG (R365) and the mode that SYS_MODE shows (R378). -/
namespace Sys2Proof.Machine
variable {d : Dev} {c : Cmd} {a : Act}

/-! ### DIAG -/

/-- What DIAG answers of a ledger's snapshot. -/
def snapshotBytes (x : Ledg) : List Byte := leBytes x.inUse 4 ++ leBytes (BitVec.ofInt 32 x.free).toNat 4 ++ leBytes x.transit 4

/-- The snapshot that DIAG names, empty where none was taken of it. -/
def namedSnapshot (d : Dev) (c : Cmd) : Ledg :=
  (d.ldg.snap.find? fun l => l.l == dByte c.desc 9 && l.inst == dByte c.desc 10).getD ⟨0, 0, 0, 0, 0, 0⟩

theorem diagAct_ok (ha : diagAct d c = .ok a) :
    a = if dByte c.desc 8 = 0 then .done (raise d (evDev 0x000 0 [(8, dNum c.desc 16 8)])) [] else .done d (snapshotBytes (namedSnapshot d c)) := by
  unfold diagAct at ha
  obtain ⟨-, -, ha⟩ := bind_ok ha
  obtain ⟨-, -, ha⟩ := bind_ok ha
  split at ha
  · cases ha
    exact (if_pos ‹_›).symm
  · cases ha
    rw [if_neg ‹_›]
    simp only [resBytes, List.append_nil, snapshotBytes, namedSnapshot, List.append_assoc]

theorem namedSnapshot_eq {x : Ledg} (hx : x ∈ d.ldg.snap) (hone : ∀ y ∈ d.ldg.snap, y.l = x.l → y.inst = x.inst → y = x)
    (hl : x.l = dByte c.desc 9) (hi : x.inst = dByte c.desc 10) : namedSnapshot d c = x := by
  have hsome : (d.ldg.snap.find? fun l => l.l == dByte c.desc 9 && l.inst == dByte c.desc 10).isSome = true :=
    List.find?_isSome.2 ⟨x, hx, by simp [hl, hi]⟩
  obtain ⟨y, hy⟩ := Option.isSome_iff_exists.1 hsome
  have hnamed := List.find?_some hy
  simp only [Bool.and_eq_true, beq_iff_eq] at hnamed
  rw [namedSnapshot, hy]
  exact hone y (List.mem_of_find?_eq_some hy) (hnamed.1.trans hl.symm) (hnamed.2.trans hi.symm)

/-- An absent ledger is the first field that fails, at byte 9. -/
theorem diagAct_absent (hh : dHandle c.desc = 0) (hf : dBits c.desc 1 3 5 = 0) (hop : dByte c.desc 8 = 1)
    (hno : ∀ x ∈ d.ldg.cur, ¬(x.l = dByte c.desc 9 ∧ x.inst = dByte c.desc 10)) : diagAct d c = .error (badField 9) := by
  have hany : (d.ldg.cur.any fun l => l.l == dByte c.desc 9 && l.inst == dByte c.desc 10) = false := by
    rw [List.any_eq_false]
    intro x hx
    simpa using hno x hx
  have hhandle : noHandle c.desc = .ok () := by simp [noHandle, require, hh]
  unfold diagAct
  rw [bind_ok_eq hhandle]
  simp only [hop, hany, checkFields, hf, if_true, List.cons_append, List.nil_append]
  rfl

theorem exec_diag (fn : Fin 64) (ring : Fin 32) (s : State) :
    exec (.diag fn ring) s = nextWith s (runCmd 0x7F fn ring diagAct s.dev) := rfl

/-- Settles O24: by `diagAct_ok`, and `diagAct_absent` where the ledger does not exist. -/
theorem diagRaisesTestOrAnswersSnapshot : Obligations.DiagRaisesTestOrAnswersSnapshot := by
  unfold Obligations.DiagRaisesTestOrAnswersSnapshot
  refine ⟨fun s fn ring c hr hp hop => ?_, fun s fn ring c hr hp hop => ?_, fun s fn ring c hr hh hf hop hno => ?_⟩
  · obtain ⟨a, ha⟩ := checksPass_ok hp
    have hact := ha.trans (congrArg _ (diagAct_ok ha))
    rw [if_pos hop] at hact
    exact exec_done (exec_diag fn ring s) hr hact
  · obtain ⟨a, ha⟩ := checksPass_ok hp
    have hact := ha.trans (congrArg _ (diagAct_ok ha))
    rw [if_neg (by omega)] at hact
    refine ⟨_, exec_done (exec_diag fn ring s) hr hact, fun x hx hone hl hi => ?_⟩
    rw [namedSnapshot_eq hx hone hl hi, snapshotBytes]
  · rw [exec_diag, runCmd_error hr (diagAct_absent hh hf hop hno)]
    rfl

/-! ### SYS_MODE -/

theorem regAt_sysMode (v : Variant) : ∃ r is, regAt v SYS = some (⟨.sys, [], 0⟩, r, is) := by
  cases v <;> exact ⟨_, _, rfl⟩

/-- SYS_MODE as a number: the mode shown, the base mode, the fenced quarters and the last reject code. -/
def sysModeNum (d : Dev) : Nat :=
  (shownMode d).code + 16 * d.sys.mode.code + ((List.range 4).map fun q => flagAt (8 + q) (fenced d q)).sum + 4096 * (d.sys.reject % 16)

theorem readReg_sysMode (d : Dev) : readReg d SYS = (wd (sysModeNum d), d) := by
  obtain ⟨r, is, hr⟩ := regAt_sysMode d.variant
  exact readReg_quiet hr (by decide)

theorem code_lt (m : Mode) : m.code < 16 := by cases m <;> decide

/-- The fields of SYS_MODE. -/
theorem sysMode_fields (d : Dev) : fld (wd (sysModeNum d)) 0 4 = (shownMode d).code ∧ fld (wd (sysModeNum d)) 4 4 = d.sys.mode.code ∧
    ∀ q, q < 4 → bit (wd (sysModeNum d)) (8 + q) = fenced d q := by
  have hshown := code_lt (shownMode d)
  have hbase := code_lt d.sys.mode
  have hflag (q : Nat) : (fenced d q).toNat ≤ 1 := Bool.toNat_le _
  have hnum : (wd (sysModeNum d)).toNat = (shownMode d).code + 16 * d.sys.mode.code +
      (256 * (fenced d 0).toNat + 512 * (fenced d 1).toNat + 1024 * (fenced d 2).toNat + 2048 * (fenced d 3).toNat) +
      4096 * (d.sys.reject % 16) := by
    have h0 := hflag 0
    have h1 := hflag 1
    have h2 := hflag 2
    have h3 := hflag 3
    simp only [wd, BitVec.toNat_ofNat, sysModeNum, flagAt, List.range, List.range.loop, List.map_cons, List.map_nil, List.sum_cons, List.sum_nil]
    omega
  have hdigit {q : Nat} (hq : q < 4) : (wd (sysModeNum d)).toNat / 2 ^ (8 + q) % 2 = (fenced d q).toNat := by
    have h0 := hflag 0
    have h1 := hflag 1
    have h2 := hflag 2
    have h3 := hflag 3
    rw [hnum]
    interval_cases q <;> omega
  refine ⟨?_, ?_, fun q hq => ?_⟩
  · rw [fld, hnum, Nat.shiftRight_zero]
    omega
  · rw [fld, hnum, Nat.shiftRight_eq_div_pow]
    omega
  · rw [bit, Nat.testBit_eq_decide_div_mod_eq, hdigit hq]
    cases fenced d q <;> rfl

theorem shownMode_code (d : Dev) : (shownMode d).code =
    if (d.sys.mode = .bridge ∨ d.sys.mode = .forward ∨ d.sys.mode = .audio ∨ d.sys.mode = .drain) ∧
      (∃ q, q < d.variant.quarters ∧ fenced d q = true) then 10 else d.sys.mode.code := by
  unfold shownMode
  simp only [Mode.service, Bool.and_eq_true, Bool.or_eq_true, beq_iff_eq, List.any_eq_true, List.mem_range, or_assoc]
  split <;> rfl

theorem exec_registerRead_sysMode (s : State) (t : Nat) : exec (.registerRead 0 SYS 4 t) s =
    nextWith s (emitOut (readAt s.dev t) (.readData 0 SYS (wd (sysModeNum (readAt s.dev t))))) := by
  rw [exec_registerRead, hostReadReg_mapped (a := SYS) (by decide), readReg_sysMode, readBytes_word _ (by decide)]
  rfl

theorem readAt_sys (d : Dev) (t : Nat) : (readAt d t).sys = d.sys := by
  unfold readAt advance
  split
  · split <;> rfl
  · rfl

/-- Settles O25: SYS_MODE reads as `sysModeNum`, whose fields are `sysMode_fields`; a change of mode ends in `withMode`. -/
theorem sysModeShowsDegraded : Obligations.SysModeShowsDegraded := by
  unfold Obligations.SysModeShowsDegraded
  refine ⟨fun s t => ?_, fun d m hh => ?_⟩
  · obtain ⟨hmode, hbase, hfenced⟩ := sysMode_fields (readAt s.dev t)
    rw [shownMode_code] at hmode
    simp only [fenced, readAt_sys, readAt_variant] at hmode hbase hfenced
    exact ⟨_, exec_registerRead_sysMode s t, hmode, hbase, hfenced⟩
  · obtain he | ⟨ev, he⟩ := setMode_cases hh m 0
    · rw [he]; rfl
    · rw [he]
      exact congrArg (fun x : Dev => x.sys.mode) (unreported_raise _ _)

end Sys2Proof.Machine
end

section
/-! The ledger audit and the fatal latch (R359, R361 to R363), power steps and stack training (R332 to R334, R372, R373), mode changes and
fences (R374 to R380). -/
namespace Sys2Proof.Machine
variable {s : State} {d : Dev} {c : Cmd} {a : Act}

/-! ### Registers, whatever their form -/

/-- A list of registers set to zero: they read zero, the others are as they were. -/
def zeroRegs (l : List Nat) (d : Dev) : Dev := l.foldl (fun d x => setReg d x 0) d

theorem zeroRegs_eq_regs (l : List Nat) (d : Dev) : zeroRegs l d = { d with regs := (zeroRegs l d).regs } := by
  induction l generalizing d with
  | nil => rfl
  | cons x l ih => exact ih (setReg d x 0)

theorem reg_zeroRegs_other {x : Nat} (l : List Nat) (d : Dev) (hx : x ∉ l) : reg (zeroRegs l d) x = reg d x := by
  induction l generalizing d with
  | nil => rfl
  | cons y l ih =>
    rw [List.mem_cons, not_or] at hx
    exact (ih (setReg d y 0) hx.2).trans (reg_setReg_ne d hx.1 0)

theorem reg_zeroRegs {x : Nat} (l : List Nat) {d : Dev} (w : spWf d.regs = true) (hx : x ∈ l) : reg (zeroRegs l d) x = 0 := by
  induction l generalizing d with
  | nil => exact absurd hx List.not_mem_nil
  | cons y l ih =>
    by_cases hl : x ∈ l
    · exact ih (setReg_wf w y 0) hl
    · have hxy : x = y := (List.mem_cons.1 hx).resolve_right hl
      refine (reg_zeroRegs_other l (setReg d y 0) hl).trans ?_
      rw [hxy, reg_setReg_same w]

/-! ### Audits -/

theorem auditDone_runs (us : Nat) (ha : d.ldg.auditing = true) (hh : halted d = false) : auditDone d us =
    (let bs := d.ldg.breaks.filter (audited d)
     let d := putB { d with ldg := { d.ldg with auditing := false, breaks := [] } } LDG 0 false
     let d := maxReg (cnt d (LDG + 4) 1) (LDG + 8) (min us 0xFFFF)
     let d := if 50 < us then raise d (evDev 0xE01 1 [(4, us)]) else d
     containBreaks (bs.foldl ledgBreak d) bs) := by
  rw [auditDone, if_neg (by simp [ha, hh])]

theorem exec_ledgerAuditDone (s : State) (us : Nat) : exec (.ledgerAuditDone us) s = nextWith s (auditDone s.dev us) := rfl

/-! ### The fatal latch -/

/-- The words of the fatal record. -/
def fatalWords : List Nat := (List.range 8).map fun i => evtBase 0 + 0x10 + 4 * i

theorem clearFatal_set {v : Word} (hv : v.getLsbD 0 = true) : clearFatal d v = zeroRegs fatalWords (putB d (evtBase 0) 0 false) := by
  rw [clearFatal, bit_eq_getLsbD, if_pos hv, zeroRegs, fatalWords, List.foldl_map]

theorem clearFatal_unset {v : Word} (hv : v.getLsbD 0 = false) : clearFatal d v = d := if_neg (by rw [bit_eq_getLsbD, hv]; decide)

theorem exec_fatalLatchClear (s : State) (v : Word) : exec (.fatalLatchClear v) s = nextWith s (clearFatal s.dev v) := rfl

/-- Settles O33: the audit's end is `auditDone`, the latch's `clearFatal`. -/
theorem auditsAndFatalLatch : Obligations.AuditsAndFatalLatch := by
  unfold Obligations.AuditsAndFatalLatch
  refine ⟨fun s us ha hh hb => ?_, fun s us ha hh => ?_, fun s us ha => ?_, fun s v hv w => ?_, fun s v hv => ?_⟩
  · rw [exec_ledgerAuditDone, auditDone_runs us ha hh, hb]
    rfl
  · rw [exec_ledgerAuditDone, auditDone_runs us ha hh]
  · rw [exec_ledgerAuditDone, auditDone, if_pos (by simp [ha])]
  · have hw := putB_wf w (evtBase 0) 0 false
    have hbit : evtBase 0 ∉ fatalWords := by decide
    refine ⟨_, exec_fatalLatchClear s v, ?_, ?_, fun i hi => ?_, fun b hb hword => ?_⟩
    · rw [clearFatal_set hv]
      exact congrArg (fun x : Dev => { s with dev := x }) (zeroRegs_eq_regs _ (putB s.dev (evtBase 0) 0 false))
    · dsimp only
      rw [clearFatal_set hv, getB, reg_zeroRegs_other _ _ hbit]
      exact getB_putB_same w (by decide) false
    · dsimp only
      rw [clearFatal_set hv]
      exact reg_zeroRegs _ hw (List.mem_map.2 ⟨i, List.mem_range.2 hi, rfl⟩)
    · have hno : b ∉ fatalWords := by
        intro hm
        obtain ⟨i, hi, rfl⟩ := List.mem_map.1 hm
        exact hword i (List.mem_range.1 hi) rfl
      dsimp only
      rw [clearFatal_set hv, reg_zeroRegs_other _ _ hno]
      exact reg_putB_ne s.dev hb 0 false
  · rw [exec_fatalLatchClear, clearFatal_unset hv]

/-! ### Power steps and training -/

theorem exec_powerStep (s : State) (t : Nat) : exec (.powerStep t) s = nextWith s (powerStep s.dev t) := rfl
theorem exec_powerStepFail (s : State) (t : Nat) : exec (.powerStepFail t) s = nextWith s (powerStepFail s.dev t) := rfl
theorem exec_stackTraining (s : State) (h : Fin 4) (ph : Fin 3) (ok : Bool) :
    exec (.stackTraining h ph ok) s = nextWith s (stackPhase s.dev h.val ph.val ok) := rfl

variable {t : Nat} {p : PStep} {ps : List PStep}

theorem powerStep_due (hs : d.sys.steps = p :: ps) (hd : stepDue d t = true) : powerStep d t =
    (let e := popStep d t
     let f := if p.kind = 0 then { e with sys := { e.sys with training := some (p.unit.index, 0) } }
       else if p.kind = 2 && e.sys.mode == .train then autoStart e p.unit else e
     endUnfence (endStagger f)) := by
  simp only [powerStep, hs, hd, Bool.not_true, Bool.false_eq_true, if_false]

theorem powerStepFail_due (hs : d.sys.steps = p :: ps) (hd : stepDue d t = true) (hk : p.kind ≠ 0) : powerStepFail d t =
    (let e := popStep d t
     let us := stepUnits e p
     let f := us.foldl enterFault e
     let g := { f with sys := { f.sys with stepFailed := f.sys.stepFailed ++ us.filter fun u => !f.sys.stepFailed.contains u } }
     endUnfence (endStagger (raise g (evUnit p.unit 0xE40 2 [(1, p.unit.quarter), (1, p.unit.cls), (1, p.unit.index)])))) := by
  simp only [powerStepFail, hs, hd, hk, Bool.not_true, Bool.false_eq_true, if_false]

/-- A phase that is in progress ends. -/
theorem stackPhase_runs {h ph : Nat} (ht : d.sys.training = some (h, ph)) (hh : halted d = false) (ok : Bool) : stackPhase d h ph ok =
    if !ok then
      endStagger (raise (putB { d with sys := { d.sys with training := none } } MEM (24 + h) true) (evDev 0xC03 2 [(1, h), (1, ph + 1)]))
    else if ph = 0 then
      { d with sys := { d.sys with training := some (h, 1), repairs := applyRepairs h d.sys.repairs (usedBanks d.sys.repairs) } }
    else if ph = 1 then
      { putB d MEM (16 + h) true with sys := { d.sys with training := some (h, 2) } }
    else endStagger { putB d MEM (20 + h) true with sys := { d.sys with training := none } } := by
  rw [stackPhase, if_neg (by simp [ht, hh])]
  rfl

/-- Settles O30: the head's step, its failure, and the three phases. -/
theorem powerStepsAndStackTraining : Obligations.PowerStepsAndStackTraining := by
  unfold Obligations.PowerStepsAndStackTraining
  refine ⟨fun s t p ps hs hd => ?_, fun s t p ps hs hd hk => ?_, fun s h ht hh => ?_, fun s h ht hh => ?_, fun s h ht hh => ?_,
    fun s h ph ht hh => ?_⟩
  · rw [exec_powerStep, powerStep_due hs hd]
    simp only [Bool.and_eq_true, decide_eq_true_eq, beq_iff_eq]
  · rw [exec_powerStepFail, powerStepFail_due hs hd hk]
  · exact (exec_stackTraining s h 0 true).trans (congrArg _ (stackPhase_runs ht hh true))
  · exact (exec_stackTraining s h 1 true).trans (congrArg _ (stackPhase_runs ht hh true))
  · exact (exec_stackTraining s h 2 true).trans (congrArg _ (stackPhase_runs ht hh true))
  · exact (exec_stackTraining s h ph false).trans (congrArg _ (stackPhase_runs ht hh false))

/-! ### Mode changes -/

/-- The device with a MODE_SET among those that wait. -/
def withModeCmd (d : Dev) (c : Cmd) : Dev := { d with sys := { d.sys with modeCmds := d.sys.modeCmds ++ [c.id] } }

theorem modeSetAct_ok (ha : modeSetAct d c = .ok a) :
    a = if modeTarget c.desc = modeLeft d then
        (if modeWaiting d = [] then .done d (leBytes (d.tim.stride % 2 ^ 32) 4) else .wait (withModeCmd d c))
      else .wait (bookPools (withModeCmd d c) (modeTarget c.desc) c.id) := by
  unfold modeSetAct at ha
  obtain ⟨-, -, ha⟩ := bind_ok ha
  obtain ⟨-, -, ha⟩ := bind_ok ha
  simp only [beq_iff_eq, List.isEmpty_iff] at ha
  split at ha
  · rw [if_pos ‹_›]
    split at ha
    · cases ha
      rw [if_pos ‹_›, strideW, wd, BitVec.toNat_ofNat]
    · cases ha
      rw [if_neg ‹_›]
      rfl
  · split at ha
    · cases ha
    · cases ha
      rw [if_neg ‹_›]
      rfl

theorem modeReject_notPermitted {x y : Mode} (h : permits x y = false) (d : Dev) : modeReject d x y = some 1 := by
  rw [modeReject, if_pos (by rw [h]; rfl)]

theorem permits_outside {x y : Mode} (h : x = .reset ∨ x = .boot ∨ x = .train ∨ x = .haltSafe ∨ y = .reset ∨ y = .boot ∨ y = .degraded) :
    permits x y = false := by
  rcases h with rfl | rfl | rfl | rfl | rfl | rfl | rfl
  case inl | inr.inl | inr.inr.inl | inr.inr.inr.inl => rfl
  all_goals cases x <;> rfl

/-- The device with the first due MODE_SET taken. -/
def withDue (d : Dev) (rest : List (Nat × Nat)) : Dev := { d with sys := { d.sys with modeDue := rest } }

theorem modeChange_due {id stride : Nat} {rest : List (Nat × Nat)} (hch : d.sys.changes = []) (hh : halted d = false)
    (hdue : d.sys.modeDue = (id, stride) :: rest) (hf : findCmd d id = some c) :
    (modeTarget c.desc = d.sys.mode → modeChange d = complete (unbookCmd (withDue d rest) id) id ST_OK (leBytes stride 4)) ∧
    (modeTarget c.desc ≠ d.sys.mode → ∀ r, modeReject (withDue d rest) d.sys.mode (modeTarget c.desc) = some r →
      modeChange d = failId (unbookCmd (withDue d rest) id) id (modeRefused r)) ∧
    (modeTarget c.desc ≠ d.sys.mode → modeReject (withDue d rest) d.sys.mode (modeTarget c.desc) = none →
      modeChange d = beginChange (bookPools (withDue d rest) (modeTarget c.desc) id) id stride (modeTarget c.desc)) := by
  have hfound : findCmd { d with sys := { d.sys with modeDue := rest } } id = some c := hf
  unfold modeChange
  rw [if_neg (by simp [hch, hh]), hdue]
  dsimp only
  rw [hfound]
  refine ⟨fun htgt => ?_, fun htgt r hr => ?_, fun htgt hr => ?_⟩
  · exact if_pos (beq_iff_eq.2 htgt)
  · refine (if_neg (fun h => htgt (beq_iff_eq.1 h))).trans ?_
    rw [withDue] at hr
    rw [hr]
    rfl
  · refine (if_neg (fun h => htgt (beq_iff_eq.1 h))).trans ?_
    rw [withDue] at hr
    rw [hr]
    rfl

/-- A command to unfence quarter `q` waits for its power steps. -/
def withUnfence (d : Dev) (c : Cmd) (q : Nat) : Dev := { d with sys := { d.sys with unfence := d.sys.unfence ++ [(c.id, q)] } }

theorem quarterFenceAct_ok (ha : quarterFenceAct d c = .ok a) :
    a = if dBits c.desc 9 0 1 = 0 then
        (if fenced d (dByte c.desc 8) = true then .done d [1] else .done (fenceQuarter d (dByte c.desc 8) 0 0x21) [0])
      else if fenced d (dByte c.desc 8) = false then .done d [1]
      else .wait (withUnfence (if (d.sys.unfence.any fun e => e.2 == dByte c.desc 8) = true then d else quarterReset d (dByte c.desc 8)) c
        (dByte c.desc 8)) := by
  unfold quarterFenceAct at ha
  obtain ⟨-, -, ha⟩ := bind_ok ha
  obtain ⟨-, -, ha⟩ := bind_ok ha
  simp only [beq_iff_eq, Bool.not_eq_true'] at ha
  by_cases hop : dBits c.desc 9 0 1 = 0
  · rw [if_pos hop] at ha ⊢
    by_cases hin : fenced d (dByte c.desc 8) = true
    · rw [if_pos hin] at ha ⊢
      exact (Except.ok.inj ha).symm
    · rw [if_neg hin] at ha ⊢
      exact (Except.ok.inj ha).symm
  · rw [if_neg hop] at ha ⊢
    by_cases hout : fenced d (dByte c.desc 8) = false
    · rw [if_pos hout] at ha ⊢
      exact (Except.ok.inj ha).symm
    · rw [if_neg hout] at ha ⊢
      by_cases hbooked : quarterBooked d (dByte c.desc 8) = true
      · rw [if_pos hbooked] at ha
        cases ha
      · rw [if_neg hbooked] at ha
        exact (Except.ok.inj ha).symm

theorem exec_modeSet (fn : Fin 64) (ring : Fin 32) (s : State) : exec (.modeSet fn ring) s = nextWith s (runCmd 0x62 fn ring modeSetAct s.dev) := rfl
theorem exec_quarterFence (fn : Fin 64) (ring : Fin 32) (s : State) :
    exec (.quarterFence fn ring) s = nextWith s (runCmd 0x63 fn ring quarterFenceAct s.dev) := rfl
theorem exec_modeChange (s : State) : exec .modeChange s = nextWith s (modeChange s.dev) := rfl

/-- Settles O27: by `modeSetAct_ok`, `modeChange_due`, the table of `permits`, and `quarterFenceAct_ok`. -/
theorem modesAndFences : Obligations.ModesAndFences := by
  unfold Obligations.ModesAndFences
  refine ⟨fun s fn ring c hr hp => ?_, fun s id stride rest c hch hh hdue hf => ?_, fun d x y h => modeReject_notPermitted (permits_outside h) d,
    fun s fn ring c hr hp => ?_⟩
  · obtain ⟨a, ha⟩ := checksPass_ok hp
    have hact := ha.trans (congrArg _ (modeSetAct_ok ha))
    dsimp only
    split_ifs with htgt hwait
    · rw [if_pos htgt, if_pos hwait] at hact
      exact exec_done (exec_modeSet fn ring s) hr hact
    · rw [if_pos htgt, if_neg hwait] at hact
      exact exec_wait (exec_modeSet fn ring s) hr hact
    · rw [if_neg htgt] at hact
      exact exec_wait (exec_modeSet fn ring s) hr hact
  · obtain ⟨hforce, hrefused, hbegins⟩ := modeChange_due hch hh hdue hf
    rw [exec_modeChange]
    dsimp only
    split
    · rw [hforce ‹_›]
      rfl
    · next hne =>
      split
      · next r hr =>
        rw [hrefused hne r hr]
        rfl
      · next hr =>
        rw [hbegins hne hr]
        rfl
  · obtain ⟨a, ha⟩ := checksPass_ok hp
    have hact := ha.trans (congrArg _ (quarterFenceAct_ok ha))
    dsimp only
    split_ifs with hfence hin hout hagain
    · rw [if_pos hfence, if_pos hin] at hact
      exact exec_done (exec_quarterFence fn ring s) hr hact
    · rw [if_pos hfence, if_neg hin] at hact
      exact exec_done (exec_quarterFence fn ring s) hr hact
    · rw [if_neg hfence, if_pos hout] at hact
      exact exec_done (exec_quarterFence fn ring s) hr hact
    · rw [if_neg hfence, if_neg hout, if_pos hagain] at hact
      exact exec_wait (exec_quarterFence fn ring s) hr hact
    · rw [if_neg hfence, if_neg hout, if_neg hagain] at hact
      exact exec_wait (exec_quarterFence fn ring s) hr hact

end Sys2Proof.Machine
end

section
/-! Boot sources (R368 to R371), fuses, the package's alert and the dump (R382, R390, R398, R407, R408). -/
namespace Sys2Proof.Machine
variable {s : State} {d : Dev}

/-! ### Images and sources -/

/-- The check of an image of legal length, result by result (R369). -/
theorem checkImage_result (src : Nat) (i : BootImage)
    (h : Config.imageSigned i.header i.payload = true ∧ d.sys.rbFloor ≤ i.rollback → i.payloadLen ≤ 67108864) :
    checkImage d src i =
      if Config.imageSigned i.header i.payload = false then bootResult d src 3
      else if i.rollback < d.sys.rbFloor then bootResult d src 4
      else { setF (bootResult d src 1) (SYS + 8) 16 16 i.version with sys := { d.sys with imageOk := true, hostLoading := false } } := by
  cases hs : Config.imageSigned i.header i.payload with
  | false => rw [if_pos rfl]; exact if_pos (by rw [hs]; rfl)
  | true =>
    rw [if_neg (by decide)]
    refine (if_neg (by rw [hs]; decide)).trans ?_
    by_cases hf : i.rollback < d.sys.rbFloor
    · rw [if_pos hf, if_pos hf]
    · rw [if_neg hf, if_neg hf, if_neg (Nat.not_lt.mpr (h ⟨hs, Nat.le_of_not_lt hf⟩))]
      rfl

/-- An untried slot whose turn it is takes what it reads. -/
theorem flashBoot_turn {n : Nat} (hm : d.sys.mode = .boot) (hi : d.sys.imageOk = false) (hsrc : d.sys.bootSrc ≠ 1) (hn : d.sys.bootSlot = n)
    (im : Option BootImage) :
    flashBoot d n im = im.elim (bootResult { d with sys := { d.sys with bootSlot := n + 1 } } n 2)
      (checkImage { d with sys := { d.sys with bootSlot := n + 1 } } n) := by
  refine (if_neg (by simp [hm, hi, hsrc, hn])).trans ?_
  cases im <;> rfl

/-- Firmware comes up on an accepted image that its boot settings leave in place. -/
theorem imageAccepted_up (hm : d.sys.mode = .boot) (hi : d.sys.imageOk = true) (hf : d.sys.fwUp = false)
    (hk : (applySettings (setF (tackBoot d) TCK 16 10 0) (tackSettings (setF (tackBoot d) TCK 16 10 0))).sys.imageOk = true) :
    imageAccepted d =
      let b := setF (tackBoot d) TCK 16 10 0
      let u := loadDefaultRules (applySettings b (tackSettings b))
      tryLeaveBoot { u with sys := { u.sys with repairs := tackRepairs u, fwUp := true, tckEvent := true } } := by
  refine (if_neg (by rw [hm, hi, hf]; decide)).trans ?_
  exact if_neg (by rw [hk]; decide)

/-- A write to SYS_BOOT_CTRL that starts no host load. -/
theorem writeBootCtrl_noHost {v : Word} (h2 : v.getLsbD 2 = false) :
    writeBootCtrl d v = if (bit v 1 && d.sys.mode == .boot) = true then tryLeaveBoot (putB (putB d (SYS + 4) 0 (bit v 0)) (SYS + 4) 1 true)
      else putB d (SYS + 4) 0 (bit v 0) := by
  have hb : bit v 2 = false := h2
  simp only [writeBootCtrl, hb, Bool.false_and, Bool.false_eq_true, if_false, putB_sys]

/-- Firmware that is up lets go leave BOOT (R371). -/
theorem tryLeaveBoot_go (w : spWf d.regs = true) (hm : d.sys.mode = .boot) (hf : d.sys.fwUp = true) :
    tryLeaveBoot (putB d (SYS + 4) 1 true) = enterTrain (putB (putB d (SYS + 4) 1 true) (SYS + 4) 1 false) := by
  refine if_pos ?_
  rw [getB_putB_same w (by decide) true, Bool.or_true, Bool.and_true, putB_sys, hm, hf]
  rfl

/-- Settles O29: each source by the one rule of `checkImage`, firmware by `imageAccepted_up`, go by `tryLeaveBoot_go`. -/
theorem bootTakesTheFirstGoodImage : Obligations.BootTakesTheFirstGoodImage := by
  unfold Obligations.BootTakesTheFirstGoodImage
  refine ⟨?_, ?_, ?_, ?_, ?_, ?_⟩
  · intro s b hm hi hsrc hn
    exact congrArg (nextWith s) (flashBoot_turn hm hi hsrc hn none)
  · intro s b i hm hi hsrc hn hlen
    refine congrArg (nextWith s) ((flashBoot_turn hm hi hsrc hn (some i)).trans ?_)
    exact checkImage_result b.toNat i hlen
  · intro s v im hl hm
    refine congrArg (nextWith s) ((if_neg (by rw [hl, hm]; decide)).trans ?_)
    cases im <;> rfl
  · intro s hm hi hf hk
    exact congrArg (nextWith s) (imageAccepted_up hm hi hf hk)
  · intro s v h1 h2 hm hf w
    refine congrArg (nextWith s) ((writeBootCtrl_noHost h2).trans ?_)
    rw [if_pos (by rw [hm]; exact congrArg (· && true) h1), tryLeaveBoot_go (putB_wf w _ _ _) hm hf]
    rfl
  · intro s v h1 h2
    refine congrArg (nextWith s) ((writeBootCtrl_noHost h2).trans (if_neg ?_))
    have hb : bit v 1 = false := h1
    rw [hb]
    exact Bool.false_ne_true

/-! ### Fuses and the package -/

/-- The eight words of FUS_KEY_DATA. -/
def keyWords : List Nat := (List.range 8).map fun w => FUS + 0x10 + 4 * w

theorem mem_keyWords {x : Nat} : x ∈ keyWords ↔ ∃ w, w < 8 ∧ x = FUS + 0x10 + 4 * w := by
  simp only [keyWords, List.mem_map, List.mem_range, eq_comm]

/-- Firmware's key blown at 1.71 V or more; the words that carried it are emptied at any voltage. -/
def keyBlown (d : Dev) (vpp : Nat) : Dev :=
  if vpp < 1710 then d else { d with sys := { d.sys with rootKey := BitVec.ofNat 256 (beNat (keyData d)), keyProg := true } }

theorem keyBlown_regs (d : Dev) (vpp : Nat) : (keyBlown d vpp).regs = d.regs := by
  unfold keyBlown
  split <;> rfl

theorem reg_withSys (d : Dev) (y : SysSt) (x : Nat) : reg { d with sys := y } x = reg d x := rfl

theorem reg_keyBlown (d : Dev) (vpp x : Nat) : reg (keyBlown d vpp) x = reg d x := by
  by_cases h : vpp < 1710
  · rw [keyBlown, if_pos h]
  · rw [keyBlown, if_neg h]
    exact reg_withSys d _ x

theorem fuseProg_blank {vpp : Nat} (hp : d.sys.keyProg = false) (hl : d.sys.keyLock = false) :
    fuseProg d vpp = zeroRegs keyWords (keyBlown d vpp) := by
  refine (if_neg (by rw [hp, hl]; decide)).trans ?_
  rw [zeroRegs, keyWords, List.foldl_map]
  rfl

/-- A write to FUS_CTRL that counts: in CONFIGURE, with confirm. -/
theorem writeFusCtrl_confirmed {v : Word} {vpp : Nat} (hm : d.sys.mode = .configure) (hc : fld v 8 8 = 0xA5) :
    writeFusCtrl d v vpp = (let p := if v.getLsbD 0 = true then fuseProg d vpp else d
      if v.getLsbD 1 = true then { p with sys := { p.sys with keyLock := true } } else p) :=
  if_neg (by rw [hm, hc]; decide)

theorem thermAlert_turns {low : Bool} {c : Int} (h : (if d.sys.thermLow then decide (110 ≤ c) else decide (115 ≤ c)) = low)
    (hne : d.sys.thermLow = !low) :
    thermAlert d c = { d with
      out := d.out ++ [.pin "THERM_N" (!low) d.tim.clock, .pin "SMB_ALERT_N" (!low) d.tim.clock],
      sys := { d.sys with thermLow := low } } := by
  unfold thermAlert
  dsimp only
  rw [h, if_neg (by rw [hne]; cases low <;> decide)]
  simp only [emitOut, List.append_assoc, List.cons_append, List.nil_append]

theorem thermAlert_stays {c : Int} (h : (if d.sys.thermLow then decide (110 ≤ c) else decide (115 ≤ c)) = d.sys.thermLow) :
    thermAlert d c = d := if_pos (by rw [h]; exact beq_self_eq_true _)

/-- The byte of each of the four commands. -/
theorem smbusByte_four {n : Nat} (hn : n < 4) (die : Int) : smbusByte d n die =
    some (if n = 0 then BitVec.ofNat 8 (shownMode d).code else if n = 1 then BitVec.ofInt 8 die
      else if n = 2 then BitVec.ofInt 8 (hottestStack d)
      else BitVec.ofNat 8 (d.sys.thermLow.toNat + 2 * d.sys.keyLock.toNat)) := by
  match n, hn with
  | 0, _ => rfl
  | 1, _ => rfl
  | 2, _ => rfl
  | 3, _ => rfl

theorem smbusRead_answers {n : Nat} {die : Int} {b : Byte} (hb : smbusByte d n die = some b) (hm : d.sys.mode ≠ .reset) :
    smbusRead d n die = emitOut d (.smbus b) := by
  rw [smbusRead, hb]
  exact if_neg (by simpa using hm)

/-! ### The dump -/

/-- The dump address. -/
def dumpAt (d : Dev) : Nat := (reg d (SYS + 0x20)).toNat + 2 ^ 32 * getF d (SYS + 0x24) 0 16

/-- The address registers at the address `a`, of which 48 bits are kept. -/
def dumpMoved (d : Dev) (a : Nat) : Dev := setF (setReg d (SYS + 0x20) (wd a)) (SYS + 0x24) 0 16 (a / 2 ^ 32)

theorem dumpAt_moved (w : spWf d.regs = true) (a : Nat) : dumpAt (dumpMoved d a) = a % 2 ^ 48 := by
  have hlo : reg (dumpMoved d a) (SYS + 0x20) = wd a :=
    (reg_setF_other (setReg_wf w _ _) (by decide) _ _ _).trans (reg_setReg_same w _ _)
  have hhi : getF (dumpMoved d a) (SYS + 0x24) 0 16 = a / 2 ^ 32 % 2 ^ 16 := getF_setF_same (setReg_wf w _ _) _ _ _ _ (by decide)
  rw [dumpAt, hlo, hhi, wd, BitVec.toNat_ofNat]
  omega

theorem reg_dumpMoved_other {x : Nat} (h0 : x ≠ SYS + 0x20) (h1 : x ≠ SYS + 0x24) (a : Nat) : reg (dumpMoved d a) x = reg d x :=
  (reg_setReg_ne _ h1 _).trans (reg_setReg_ne d h0 _)

/-- The flag of an uncorrectable word leaves the address. -/
theorem dumpAt_flagged (w : spWf d.regs = true) : dumpAt (putB d (SYS + 0x24) 31 true) = dumpAt d := by
  rw [dumpAt, reg_putB_other w (by decide), getF_putB_other w _ _ (by decide) (by decide)]
  rfl

/-- A read of SYS_DUMP_DATA in HALT-SAFE. -/
theorem dumpRead_halted (hh : halted d = true) (ue : Bool) : dumpRead d ue = ((dumpWord d ue).1,
    if (dumpWord d ue).2 = true then putB (dumpMoved d (dumpAt d + 4)) (SYS + 0x24) 31 true else dumpMoved d (dumpAt d + 4)) :=
  if_neg (by rw [hh]; decide)

theorem dumpRead_fst (hh : halted d = true) (ue : Bool) : (dumpRead d ue).1 = (dumpWord d ue).1 := by rw [dumpRead_halted hh]

theorem dumpRead_device (hh : halted d = true) (w : spWf d.regs = true) (ue : Bool) :
    (dumpRead d ue).2 = { d with regs := (dumpRead d ue).2.regs } ∧ dumpAt (dumpRead d ue).2 = (dumpAt d + 4) % 2 ^ 48 ∧
      ∀ x, x ≠ SYS + 0x20 → x ≠ SYS + 0x24 → reg (dumpRead d ue).2 x = reg d x := by
  have hm : spWf (dumpMoved d (dumpAt d + 4)).regs = true := setF_wf (setReg_wf w _ _) _ _ _ _
  rw [dumpRead_halted hh]
  cases (dumpWord d ue).2 with
  | false => exact ⟨rfl, dumpAt_moved w _, fun x h0 h1 => reg_dumpMoved_other h0 h1 _⟩
  | true =>
    exact ⟨rfl, (dumpAt_flagged hm).trans (dumpAt_moved w _),
      fun x h0 h1 => (reg_putB_ne _ h1 _ _).trans (reg_dumpMoved_other h0 h1 _)⟩

/-- Settles O31: a word's way through `keyBlown`, `zeroRegs` and `dumpMoved`. -/
theorem fusesPackageAndDump : Obligations.FusesPackageAndDump := by
  unfold Obligations.FusesPackageAndDump
  refine ⟨?_, ?_, ?_, ?_, ?_, ?_, ?_, ?_⟩
  · intro s v vpp w hm hc h0 h1 hp hl
    have hrun : writeFusCtrl s.dev v vpp = zeroRegs keyWords (keyBlown s.dev vpp) := by
      rw [writeFusCtrl_confirmed hm hc, h0, h1]
      exact fuseProg_blank hp hl
    refine ⟨_, congrArg (nextWith s) hrun, rfl, ?_, fun n hn => ?_, fun a ha => ?_⟩
    · dsimp only
      rw [zeroRegs_eq_regs, keyBlown]
      split <;> rfl
    · exact reg_zeroRegs keyWords (by rw [keyBlown_regs]; exact w) (mem_keyWords.mpr ⟨n, hn, rfl⟩)
    · refine (reg_zeroRegs_other _ _ fun hx => ?_).trans (reg_keyBlown _ _ a)
      obtain ⟨n, hn, rfl⟩ := mem_keyWords.mp hx
      exact ha n hn rfl
  · intro s v hm hc h0 h1
    have hb : bit v 0 = false := h0
    refine congrArg (nextWith s) ((if_neg (by rw [hb]; exact Bool.false_ne_true)).trans ?_)
    rw [writeFusCtrl_confirmed hm hc, h0, h1]
    rfl
  · intro s c hl hc
    exact ⟨_, congrArg (nextWith s) (thermAlert_turns (low := true) (by rw [hl]; exact decide_eq_true hc) hl), rfl, rfl⟩
  · intro s c hl hc
    exact ⟨_, congrArg (nextWith s) (thermAlert_turns (low := false) (by rw [hl]; exact decide_eq_false (by omega)) hl), rfl, rfl⟩
  · intro s c h
    refine congrArg (nextWith s) (thermAlert_stays ?_)
    rcases h with ⟨hl, hc⟩ | ⟨hl, hc⟩
    · rw [hl]
      exact decide_eq_true hc
    · rw [hl]
      exact decide_eq_false (by omega)
  · intro s c die hm hc
    refine congrArg (nextWith s) ((smbusRead_answers (smbusByte_four hc die) hm).trans ?_)
    simp only [← BitVec.toNat_inj]
    rfl
  · intro s ue hh w
    obtain ⟨hdev, hat, hother⟩ := dumpRead_device hh w ue
    refine ⟨_, rfl, ?_, ?_, hat, hother⟩
    · dsimp only
      rw [emitOut_out, dumpRead_fst hh, hdev]
    · dsimp only [emitOut]
      rw [hdev]
  · intro s ue hh
    have hd : dumpRead s.dev ue = (0, s.dev) := if_pos (by rw [hh]; decide)
    exact congrArg (fun r : Word × Dev => nextWith s (emitOut r.2 (.readData 0 (SYS + 0x28) r.1))) hd

end Sys2Proof.Machine
end

section
/-! The Tack store: TACK_STORE, its end and TACK_LOAD (R385 to R389). -/
namespace Sys2Proof.Machine
variable {s : State} {d : Dev} {c : Cmd} {a : Act}

/-! ### What a store leaves of the bytes outside its copy -/

theorem spGet_copy_other {m : Sparse 8} {x src dst n : Nat} (h : x < dst ∨ dst + n ≤ x) : spGet (spCopy m src dst n) x = spGet m x := by
  unfold spCopy
  have hin : ∀ e ∈ m.filter (fun e => decide (src ≤ e.1) && decide (e.1 < src + n)), src ≤ e.1 ∧ e.1 < src + n := by
    intro e he
    simpa using (List.mem_filter.mp he).2
  generalize m.filter (fun e => decide (src ≤ e.1) && decide (e.1 < src + n)) = l at hin
  induction l generalizing m with
  | nil => rfl
  | cons e l ih =>
    obtain ⟨h1, h2⟩ := hin e List.mem_cons_self
    refine (ih fun y hy => hin y (List.mem_cons_of_mem _ hy)).trans (spGet_put_ne m ?_ _)
    omega

/-- An address outside the copy `k`. -/
def outsideCopy (k x : Nat) : Prop := x < copyBase k ∨ copyBase k + 0x40000 ≤ x

theorem spGet_write_outside {m : Sparse 8} (w : spWf m = true) {k x off : Nat} (h : outsideCopy k x) (bs : List Byte)
    (hlen : off + bs.length ≤ 0x40000) : spGet (spWrite m (copyBase k + off) bs) x = spGet m x := by
  refine spGet_write_other w _ _ _ ?_
  rcases h with h | h <;> omega

theorem tackSection_fits (i : Nat) : (tackSection i).1 + (tackSection i).2 ≤ 0x40000 := by
  unfold tackSection
  split <;> decide

theorem spGet_keepSection_outside {m : Sparse 8} {k x : Nat} (h : outsideCopy k x) (l : Option Nat) (i : Nat) :
    spGet (keepSection m l k i) x = spGet m x := by
  have hfit := tackSection_fits i
  cases l with
  | none => rfl
  | some l =>
    refine spGet_copy_other ?_
    rcases h with h | h <;> omega

theorem length_flatMap_records (rs : List (BitVec 64)) : (rs.flatMap fun r => leBytes r.toNat 8).length = 8 * rs.length := by
  induction rs with
  | nil => rfl
  | cons r rs ih => rw [List.flatMap_cons, List.length_append, length_leBytes, ih, List.length_cons]; omega

/-- What a store writes fits the sections it goes to. -/
structure TackFits (new : TackNew) : Prop where
  repairs : ∀ rs, new.repairs = some rs → rs.length ≤ 2048
  boot : ∀ bs, new.boot = some bs → bs.length ≤ 4096
  drv : ∀ x, new.drv = some x → x.1 + x.2.length ≤ 233472

/-- A store writes nothing outside its copy (R386). -/
theorem spGet_writeCopy_outside {m : Sparse 8} (w : spWf m = true) {k x : Nat} (h : outsideCopy k x) (l : Option Nat) (g r p : Nat)
    {new : TackNew} (hfit : TackFits new) : spGet (writeCopy m l k g r p new) x = spGet m x := by
  unfold writeCopy
  extract_lets b m1 m2 m3 m4 m5
  have w2 : spWf m2 = true := spWf_write (spWf_clear w _) _ _
  have h2 : spGet m2 x = spGet m x := by
    refine (spGet_write_outside (off := 0) (spWf_clear w _) h _ (by simp only [List.length_append, length_leBytes]; decide)).trans ?_
    rw [spGet_clear, if_neg]
    unfold outsideCopy at h
    simp only [Bool.and_eq_true, decide_eq_true_eq]
    omega
  have h3 : spWf m3 = true ∧ spGet m3 x = spGet m x := by
    unfold m3
    cases hr : new.repairs with
    | none => exact ⟨spWf_keepSection w2 _ _ _, (spGet_keepSection_outside h _ _).trans h2⟩
    | some rs =>
      have hn := hfit.repairs rs hr
      exact ⟨spWf_write w2 _ _, (spGet_write_outside w2 h _ (by rw [length_flatMap_records]; omega)).trans h2⟩
  have h4 : spWf m4 = true ∧ spGet m4 x = spGet m x := by
    unfold m4
    cases hb : new.boot with
    | none => exact ⟨spWf_keepSection h3.1 _ _ _, (spGet_keepSection_outside h _ _).trans h3.2⟩
    | some bs =>
      have hn := hfit.boot bs hb
      exact ⟨spWf_write h3.1 _ _, (spGet_write_outside h3.1 h _ (by omega)).trans h3.2⟩
  have w5 : spWf m5 = true := spWf_keepSection h4.1 _ _ _
  have h5 : spGet m5 x = spGet m x := (spGet_keepSection_outside h _ _).trans h4.2
  cases hv : new.drv with
  | none => exact h5
  | some y =>
    have hn := hfit.drv y hv
    exact (Nat.add_assoc .. ▸ spGet_write_outside w5 h y.2 (by omega)).trans h5

/-- The copy that a store writes. -/
def storeCopy (d : Dev) : Nat := if tackLoaded d = some 0 then 1 else 0

theorem loaded_outside_store {l x : Nat} (hl : tackLoaded d = some l) (hlo : copyBase l ≤ x) (hhi : x < copyBase l + 0x40000) :
    outsideCopy (storeCopy d) x := by
  unfold outsideCopy storeCopy
  rw [hl]
  unfold copyBase at *
  cases l with
  | zero => rw [if_pos rfl]; omega
  | succ l => rw [if_neg (by simp)]; omega

theorem spGet_startStore (w : spWf d.sys.tack = true) {l x id : Nat} (hl : tackLoaded d = some l) (hlo : copyBase l ≤ x)
    (hhi : x < copyBase l + 0x40000) {new : TackNew} (hfit : TackFits new) :
    spGet (startStore d id new).sys.tack x = spGet d.sys.tack x := by
  have hout := loaded_outside_store hl hlo hhi
  unfold storeCopy at hout
  unfold startStore
  rw [hl] at hout ⊢
  cases l with
  | zero => exact spGet_writeCopy_outside w hout _ _ _ _ hfit
  | succ l => exact spGet_writeCopy_outside w (by rwa [if_neg (by simp)] at hout) _ _ _ _ hfit

/-! ### The two commands -/

theorem takeHost_ok {sel : Bool} {n : Nat} {r : HostRead} {o : Option (List Byte)} (h : takeHost c sel n r = .ok o) :
    o.isSome = sel ∧ ∀ bs, o = some bs → bs.length = n := by
  unfold takeHost at h
  cases sel with
  | false => cases h; exact ⟨rfl, fun _ hb => nomatch hb⟩
  | true =>
    rw [if_neg (by decide)] at h
    split at h
    · next hn => cases h; exact ⟨rfl, fun _ hb => by cases hb; exact hn.symm⟩
    · split at h
      · next bs => cases h; exact ⟨rfl, fun _ hb => by cases hb; exact length_padTo bs n⟩
      · cases h

theorem checkFields_ok {x : Desc} {fs : List (Nat × Bool)} (h : checkFields x fs = .ok ()) {f : Nat × Bool} (hf : f ∈ fs) : f.2 = true := by
  unfold checkFields at h
  split at h
  · cases h
  · next hnone =>
    simpa using List.find?_eq_none.mp hnone f (List.mem_cons_of_mem _ hf)

/-- TACK_STORE that passes its checks with a store running stays. -/
theorem tackStoreAct_busy {b v : HostRead} (ha : tackStoreAct b v d c = .ok a) (hs : d.sys.store ≠ none) : a = .stay d := by
  unfold tackStoreAct at ha
  obtain ⟨-, -, ha⟩ := bind_ok ha
  obtain ⟨-, -, ha⟩ := bind_ok ha
  obtain ⟨-, -, ha⟩ := bind_ok ha
  rw [if_pos (Option.isSome_iff_ne_none.mpr hs)] at ha
  cases ha
  rfl

/-- TACK_STORE that passes its checks with no store running starts one, of data that fits. -/
theorem tackStoreAct_ok {b v : HostRead} (ha : tackStoreAct b v d c = .ok a) (hs : d.sys.store = none) :
    ∃ new, a = .wait (startStore d c.id new) ∧ TackFits new ∧
      (new.repairs = if dBits c.desc 8 0 1 = 1 then some (d.sys.repairs.take 2048) else none) ∧
      (new.boot.isSome = (dBits c.desc 8 1 1 == 1)) ∧ (new.drv.isSome = (dBits c.desc 8 2 1 == 1)) := by
  unfold tackStoreAct at ha
  obtain ⟨-, -, ha⟩ := bind_ok ha
  obtain ⟨⟨⟩, hfields, ha⟩ := bind_ok ha
  obtain ⟨_, hreq, ha⟩ := bind_ok ha
  rw [if_neg (by rw [hs]; decide)] at ha
  obtain ⟨-, -, ha⟩ := bind_ok ha
  obtain ⟨bo, hbo, ha⟩ := bind_ok ha
  obtain ⟨dv, hdv, ha⟩ := bind_ok ha
  cases ha
  obtain ⟨hbsel, hblen⟩ := takeHost_ok hbo
  obtain ⟨hdsel, hdlen⟩ := takeHost_ok hdv
  have hpairs : decide (dNum c.desc 12 2 ≤ 512) = true := checkFields_ok hfields (f := (12, decide (dNum c.desc 12 2 ≤ 512))) (by simp)
  have hroom : (!(dBits c.desc 8 2 1 == 1) || decide (dNum c.desc 32 4 + dNum c.desc 36 4 ≤ 233472)) = true := require_ok hreq
  refine ⟨_, rfl, ⟨?_, ?_, ?_⟩, ?_, hbsel, ?_⟩
  · intro rs hrs
    dsimp only at hrs
    split at hrs
    · cases hrs
      exact List.length_take_le _ _
    · cases hrs
  · intro bs hbs
    rw [hblen bs hbs]
    have := of_decide_eq_true hpairs
    omega
  · intro x hx
    cases dv with
    | none => cases hx
    | some bs =>
      cases hx
      have hsel : (dBits c.desc 8 2 1 == 1) = true := hdsel.symm
      rw [hsel] at hroom
      rw [hdlen bs rfl]
      exact of_decide_eq_true hroom
  · dsimp only
    simp only [beq_iff_eq]
  · exact Option.isSome_map.trans hdsel

/-- The bytes of the loaded copy that a TACK_LOAD answers, zero where nothing is loaded. -/
def loadedBytes (d : Dev) (c : Cmd) : List Byte :=
  match tackLoaded d with
  | some l => spRead d.sys.tack (copyBase l + (tackSection (dByte c.desc 8)).1 + dNum c.desc 24 4) (dNum c.desc 28 4)
  | none => List.replicate (dNum c.desc 28 4) 0

/-- The generation of the loaded copy, zero where nothing is loaded. -/
def loadedGen (d : Dev) : Nat :=
  match tackLoaded d with
  | some l => tackGen d l
  | none => 0

/-- TACK_LOAD that passes its checks with no store running answers the loaded copy's bytes. -/
theorem tackLoadAct_ok (ha : tackLoadAct d c = .ok a) (hs : d.sys.store = none) (hn : 0 < dNum c.desc 28 4) :
    a = .done (emitOut d (.hostWrite c.fn (dNum c.desc 16 8) (loadedBytes d c))) (leBytes (loadedGen d) 4) := by
  unfold tackLoadAct at ha
  obtain ⟨-, -, ha⟩ := bind_ok ha
  obtain ⟨-, -, ha⟩ := bind_ok ha
  obtain ⟨-, -, ha⟩ := bind_ok ha
  rw [if_neg (by rw [hs]; decide)] at ha
  cases ha
  exact congrArg (fun e => Act.done e (leBytes (loadedGen d) 4)) (if_neg (Nat.ne_of_gt hn))

/-- The end of a store, with the store in progress named. -/
theorem tackStoreDone_ends (ok : Bool) (us : Nat) {x : Store} (hs : d.sys.store = some x) :
    tackStoreDone d ok us = tackStoreDone { d with sys := { d.sys with store := some x } } ok us := by
  rw [← hs]

/-- Settles O32: `spGet_writeCopy_outside` bounds what a store writes, `tackStoreAct_ok` says what it takes. -/
theorem storesWriteTheOtherCopy : Obligations.StoresWriteTheOtherCopy := by
  unfold Obligations.StoresWriteTheOtherCopy
  refine ⟨?_, ?_, ?_, ?_, ?_⟩
  · intro s fn ring b v c w hr hp hs
    obtain ⟨a, ha⟩ := checksPass_ok hp
    obtain ⟨new, rfl, hfit, hrep, hboot, hdrv⟩ := tackStoreAct_ok ha hs
    refine ⟨new, exec_wait rfl hr ha, hrep, hboot, hdrv, fun l hl x hlo hhi => spGet_startStore ?_ hl hlo hhi hfit⟩
    exact (Memory.wf_parts.mp w).2.2.2.2.2.2.1
  · intro s fn ring b v c hr hp hs
    obtain ⟨a, ha⟩ := checksPass_ok hp
    obtain rfl := tackStoreAct_busy ha hs
    exact exec_stay rfl hr ha
  · intro s us x hs
    refine congrArg (nextWith s) ?_
    dsimp only
    rw [tackStoreDone_ends _ _ hs]
    rfl
  · intro s us x hs
    refine congrArg (nextWith s) ?_
    dsimp only
    rw [tackStoreDone_ends _ _ hs]
    rfl
  · intro s fn ring c hr hp hs hn
    obtain ⟨a, ha⟩ := checksPass_ok hp
    obtain rfl := tackLoadAct_ok ha hs hn
    exact exec_done rfl hr ha

end Sys2Proof.Machine
end

section
/-! The forwarding stage, NACK service, RTCP and layer choice (R269 to R284). -/
namespace Sys2Proof.Machine
variable {s : State} {d : Dev} {l : Leg} {k : SPkt}

/-! ### A packet over its list -/

theorem serveLegs_cons_credit {h : Nat} (hs : List Nat) (hc : creditHeld (forwardTo k d h) = true) :
    serveLegs k (h :: hs) d = serveLegs k hs (forwardTo k d h) := if_pos hc

theorem serveLegs_cons_waits {h : Nat} (hs : List Nat) (hc : creditHeld (forwardTo k d h) = false) :
    serveLegs k (h :: hs) d = (d, h :: hs) := if_neg (by rw [hc]; decide)

/-- The legs served are a front part of the list; the first of the rest has no credit. -/
theorem serveLegs_served (k : SPkt) (hs : List Nat) (d : Dev) :
    ∃ n, (serveLegs k hs d).2 = hs.drop n ∧ (serveLegs k hs d).1 = (hs.take n).foldl (forwardTo k) d ∧
      ∀ h rest, (serveLegs k hs d).2 = h :: rest → creditHeld (forwardTo k (serveLegs k hs d).1 h) = false := by
  induction hs generalizing d with
  | nil => exact ⟨0, rfl, rfl, fun h rest hr => nomatch hr⟩
  | cons h hs ih =>
    cases hc : creditHeld (forwardTo k d h) with
    | true =>
      rw [serveLegs_cons_credit hs hc]
      obtain ⟨n, hrest, hdev, hwaits⟩ := ih (forwardTo k d h)
      exact ⟨n + 1, hrest, hdev, hwaits⟩
    | false =>
      rw [serveLegs_cons_waits hs hc]
      refine ⟨0, rfl, rfl, fun h' rest hr => ?_⟩
      cases hr
      exact hc

/-! ### What a leg counts -/

/-- A leg's sequence number, handle and counts. -/
def legCounts (l : Leg) : Nat × Nat × Bool × Nat × Nat := (l.seq, l.handle, l.sent, l.packets, l.octets)

theorem legCounts_sendRepair (d : Dev) (l : Leg) (ps : List (List Nat)) (post : Option Nat) (c r : Nat) :
    legCounts (sendRepair d l ps post c r).2 = legCounts l := by
  unfold sendRepair
  dsimp only
  split <;> rfl

theorem legCounts_sendColumns (n i k rows : Nat) (d : Dev) (l : Leg) : legCounts (sendColumns n i k rows d l).2 = legCounts l := by
  induction n generalizing i d l with
  | zero => rfl
  | succ n ih =>
    unfold sendColumns
    dsimp only
    split
    · exact ih _ _ _
    · exact (ih _ _ _).trans (legCounts_sendRepair _ _ _ _ _ _)

theorem legCounts_closeFec (d : Dev) (l : Leg) : legCounts (closeFec d l).2 = legCounts l := by
  unfold closeFec
  split
  · rfl
  · dsimp only
    split
    · rfl
    · split
      · exact legCounts_sendRepair d l _ _ _ _
      · exact legCounts_sendColumns _ _ _ _ d l

theorem legCounts_fullFec (d : Dev) (l : Leg) : legCounts (fullFec d l).2 = legCounts l := by
  unfold fullFec
  split
  · rfl
  · split
    · exact legCounts_closeFec d l
    · rfl

theorem legCounts_addFec (l : Leg) (pkt : List Nat) (post : Option Nat) : legCounts (addFec l pkt post) = legCounts l := by
  unfold addFec
  split <;> rfl

theorem legCounts_rewrite (l : Leg) (fmt : Nat) (b : List Nat) : legCounts (rewrite l fmt b).1 = legCounts l := by
  show legCounts (rewriteIds l fmt _).1 = legCounts l
  unfold rewriteIds
  dsimp only
  split
  · split <;> split <;> rfl
  · split <;> rfl
  · rfl

/-! ### Protection without a key -/

theorem rtxStore_sec (d : Dev) (l : Leg) (pkt : List Nat) (i : Nat) : (rtxStore d l pkt i).sec = d.sec :=
  (rtxStore_only (e := (· ≠ .sec)) (by decide) (by decide) (by decide) (by decide) (by decide) (by decide) (Only.refl d)).sec (by decide)

theorem keyIn_congr {e : Dev} (h : e.sec = d.sec) (leg : Nat) (st : KState) : keyIn e leg st = keyIn d leg st := by
  unfold keyIn legKeys
  rw [h]

/-- Without a slot that is ACTIVE or may become so, nothing is protected. -/
theorem protectRtp_keyless (ha : keyIn d l.handle .active = none) (hs : keyIn d l.handle .standby = none) (st : Nat) (pkt : List Nat)
    (stored : Option Nat) : (protectRtp d l st pkt stored).2 = none := by
  have hout (i : Nat) : outSlot d l.handle i = d := by rw [outSlot, hs]
  unfold protectRtp
  simp only [hout, ite_self, ha]

/-! ### One packet sent on -/

/-- The leg that a packet which passes leaves, before the packet's protection: its offset, its identifiers, its next number. -/
def numbered (d : Dev) (l : Leg) (k : SPkt) (rest : Nat) : Leg :=
  let b := toNats k.bytes
  let l := if l.sent then l else joinOffset d l (rtpTs b)
  let r := rewrite l k.fmt b
  addFec { r.1 with seq := (r.1.seq + 1) % 65536, sent := true, tsLast := rtpTs r.2, cLast := d.tim.stride,
                    picBytes := r.1.picBytes + r.2.length } r.2 (postTime r.1 k rest)

theorem legCounts_withOff (l : Leg) (n : Nat) : legCounts { l with off := n } = legCounts l := rfl

theorem legCounts_joinOffset (d : Dev) (l : Leg) (ts : Nat) : legCounts (joinOffset d l ts) = legCounts l := by
  unfold joinOffset
  exact legCounts_withOff l _

theorem legCounts_numbered (d : Dev) (l : Leg) (k : SPkt) (rest : Nat) :
    legCounts (numbered d l k rest) = ((l.seq + 1) % 65536, l.handle, true, l.packets, l.octets) := by
  have hjoin : legCounts (if l.sent then l else joinOffset d l (rtpTs (toNats k.bytes))) = legCounts l := by
    split
    · rfl
    · exact legCounts_joinOffset d l _
  have hr := (legCounts_rewrite _ k.fmt (toNats k.bytes)).trans hjoin
  unfold legCounts at hr
  simp only [Prod.mk.injEq] at hr
  obtain ⟨hseq, hhandle, -, hpackets, hoctets⟩ := hr
  unfold numbered
  dsimp only
  rw [legCounts_addFec]
  simp only [legCounts, hseq, hhandle, hpackets, hoctets]

/-- The device and the protected packet of `sendOn`. -/
def guarded (d : Dev) (l : Leg) (k : SPkt) (rest : Nat) : Dev × Option (List Nat) :=
  let b := toNats k.bytes
  let j := if l.sent then l else joinOffset d l (rtpTs b)
  let r := rewrite j k.fmt b
  protectRtp (rtxStore d (numbered d l k rest) r.2 (nextIndex d (numbered d l k rest) r.1.seq)) (numbered d l k rest) 0 r.2 none

theorem legCounts_sendOn_unprotected {rest : Nat} (h : (guarded d l k rest).2 = none) :
    legCounts (sendOn d l k rest).2 = ((l.seq + 1) % 65536, l.handle, true, l.packets, l.octets) := by
  unfold sendOn
  dsimp only
  split
  · exact (legCounts_fullFec _ _).trans (legCounts_numbered d l k rest)
  · next y hy => cases hy.symm.trans h

theorem legCounts_sendOn_protected {rest : Nat} {y : List Nat} (h : (guarded d l k rest).2 = some y) :
    ∃ o, legCounts (sendOn d l k rest).2 = ((l.seq + 1) % 65536, l.handle, true, (l.packets + 1) % 2 ^ 32, o) := by
  have hn := legCounts_numbered d l k rest
  unfold legCounts at hn
  simp only [Prod.mk.injEq] at hn
  obtain ⟨hseq, hhandle, hsent, hpackets, -⟩ := hn
  unfold sendOn
  dsimp only
  split
  · next hy => cases hy.symm.trans h
  · unfold numbered at hseq hhandle hsent hpackets
    dsimp only at hseq hhandle hsent hpackets
    rw [legCounts_fullFec]
    simp only [legCounts, hseq, hhandle, hsent, hpackets]
    exact ⟨_, rfl⟩

/-- A packet's number, handle and count after it has gone, with and without a key. -/
theorem sendOn_counts (d : Dev) (l : Leg) (k : SPkt) (rest : Nat) : (sendOn d l k rest).2.seq = (l.seq + 1) % 65536 ∧
    (sendOn d l k rest).2.handle = l.handle ∧ (sendOn d l k rest).2.sent = true ∧
    ((sendOn d l k rest).2.packets = (l.packets + 1) % 2 ^ 32 ∨
      ((sendOn d l k rest).2.packets = l.packets ∧ (sendOn d l k rest).2.octets = l.octets)) ∧
    (keyIn d l.handle .active = none → keyIn d l.handle .standby = none → (sendOn d l k rest).2.packets = l.packets) := by
  cases hg : (guarded d l k rest).2 with
  | none =>
    have h := legCounts_sendOn_unprotected hg
    simp only [legCounts, Prod.mk.injEq] at h
    obtain ⟨hseq, hhandle, hsent, hpackets, hoctets⟩ := h
    exact ⟨hseq, hhandle, hsent, .inr ⟨hpackets, hoctets⟩, fun _ _ => hpackets⟩
  | some y =>
    obtain ⟨o, h⟩ := legCounts_sendOn_protected hg
    simp only [legCounts, Prod.mk.injEq] at h
    obtain ⟨hseq, hhandle, hsent, hpackets, -⟩ := h
    refine ⟨hseq, hhandle, hsent, .inl hpackets, fun ha hs => ?_⟩
    have hh := legCounts_numbered d l k rest
    simp only [legCounts, Prod.mk.injEq] at hh
    obtain ⟨-, hn, -⟩ := hh
    have hnone : (guarded d l k rest).2 = none := by
      refine protectRtp_keyless ?_ ?_ _ _ _
      · rw [hn]
        exact (keyIn_congr (rtxStore_sec _ _ _ _) _ _).trans ha
      · rw [hn]
        exact (keyIn_congr (rtxStore_sec _ _ _ _) _ _).trans hs
    cases hg.symm.trans hnone

/-! ### The packet as it is rewritten (R277) -/

theorem natBe_beList_two (n : Nat) : natBe (beList n 2) = n % 65536 := by
  simp only [beList, natBe, List.nil_append, List.cons_append, List.foldl_cons, List.foldl_nil]
  omega

theorem natBe_beList_four (n : Nat) : natBe (beList n 4) = n % 2 ^ 32 := by
  simp only [beList, natBe, List.nil_append, List.cons_append, List.foldl_cons, List.foldl_nil]
  omega

/-- An RTP header's fields, after its first two bytes. -/
theorem rtp_fields (x y seq ts ssrc : Nat) (t : List Nat) :
    (let p := [x, y] ++ beList seq 2 ++ beList ts 4 ++ beList ssrc 4 ++ t
     rtpSeq p = seq % 65536 ∧ rtpTs p = ts % 2 ^ 32 ∧ rtpSsrc p = ssrc % 2 ^ 32) := by
  refine ⟨(natBe_beList_two seq), (natBe_beList_four ts), (natBe_beList_four ssrc)⟩

theorem rewrite_fields (l : Leg) (fmt : Nat) (b : List Nat) (hssrc : l.ssrc < 2 ^ 32) (hseq : l.seq < 65536) :
    rtpSeq (rewrite l fmt b).2 = l.seq ∧ rtpSsrc (rewrite l fmt b).2 = l.ssrc ∧
      rtpTs (rewrite l fmt b).2 = (rtpTs b + l.off) % 2 ^ 32 := by
  have h (x y : Nat) (u v w : List Nat) := rtp_fields x y l.seq ((rtpTs b + l.off) % 2 ^ 32) l.ssrc (u ++ v ++ w)
  simp only [← List.append_assoc, Nat.mod_eq_of_lt hssrc, Nat.mod_eq_of_lt hseq, Nat.mod_mod] at h
  obtain ⟨h1, h2, h3⟩ := h _ _ _ _ _
  exact ⟨h1, h3, h2⟩

/-! ### The target of a layer choice (R276) -/

/-- A choice is within a leg's caps and allowance. -/
def choiceFits (l : Leg) (c : (Nat × Nat) × Nat) : Bool := c.1.1 ≤ l.cfg.sCap && c.1.2 ≤ l.cfg.tCap && c.2 ≤ allowance l

theorem choiceFits_iff (l : Leg) (c : (Nat × Nat) × Nat) : choiceFits l c = true ↔ c.1.1 ≤ l.cfg.sCap ∧ c.1.2 ≤ l.cfg.tCap ∧ c.2 ≤ allowance l := by
  simp only [choiceFits, Bool.and_eq_true, decide_eq_true_eq, and_assoc]

/-- The better of the best choice so far and one more. -/
def better (l : Leg) (best : Nat × Nat) (c : (Nat × Nat) × Nat) : Nat × Nat := if choiceFits l c && ranksBelow best c.1 then c.1 else best

theorem targetOf_eq (d : Dev) (l : Leg) (src : Nat) : targetOf d l src = (choices d src).foldl (better l) (0, 0) := rfl

theorem ranksBelow_iff (a b : Nat × Nat) : ranksBelow a b = true ↔ a.1 < b.1 ∨ a.1 = b.1 ∧ a.2 < b.2 := by
  simp only [ranksBelow, Bool.or_eq_true, Bool.and_eq_true, decide_eq_true_eq, beq_iff_eq]

theorem ranksBelow_trans_false {r a b : Nat × Nat} (hr : ranksBelow r b = false) (hab : ranksBelow a b = true) : ranksBelow r a = false := by
  rw [← Bool.not_eq_true, ranksBelow_iff] at hr ⊢
  rw [ranksBelow_iff] at hab
  omega

theorem ranksBelow_self (a : Nat × Nat) : ranksBelow a a = false := by
  rw [← Bool.not_eq_true, ranksBelow_iff]
  omega

/-- The fold keeps where it began or takes a choice that choiceFits. -/
theorem foldl_better_mem (cs : List ((Nat × Nat) × Nat)) (b : Nat × Nat) :
    cs.foldl (better l) b = b ∨ ∃ c ∈ cs, choiceFits l c = true ∧ cs.foldl (better l) b = c.1 := by
  induction cs generalizing b with
  | nil => exact .inl rfl
  | cons c cs ih =>
    rw [List.foldl_cons]
    rcases ih (better l b c) with h | ⟨x, hx, hf, h⟩
    · rw [h]
      unfold better
      split
      · next hc => exact .inr ⟨c, List.mem_cons_self, (Bool.and_eq_true_iff.mp hc).1, rfl⟩
      · exact .inl rfl
    · exact .inr ⟨x, List.mem_cons_of_mem _ hx, hf, h⟩

/-- The fold ranks below neither where it began nor a choice that choiceFits. -/
theorem foldl_better_top (cs : List ((Nat × Nat) × Nat)) (b : Nat × Nat) :
    ranksBelow (cs.foldl (better l) b) b = false ∧ ∀ c ∈ cs, choiceFits l c = true → ranksBelow (cs.foldl (better l) b) c.1 = false := by
  induction cs generalizing b with
  | nil => exact ⟨ranksBelow_self b, fun c hc => nomatch hc⟩
  | cons c cs ih =>
    rw [List.foldl_cons]
    obtain ⟨hb, hcs⟩ := ih (better l b c)
    generalize cs.foldl (better l) (better l b c) = r at hb hcs
    have hboth : ranksBelow r b = false ∧ (choiceFits l c = true → ranksBelow r c.1 = false) := by
      by_cases hc : (choiceFits l c && ranksBelow b c.1) = true
      · rw [better, if_pos hc] at hb
        exact ⟨ranksBelow_trans_false hb (Bool.and_eq_true_iff.mp hc).2, fun _ => hb⟩
      · rw [better, if_neg hc] at hb
        refine ⟨hb, fun hf => ?_⟩
        rw [hf, Bool.true_and, ranksBelow_iff] at hc
        rw [← Bool.not_eq_true, ranksBelow_iff] at hb ⊢
        omega
    refine ⟨hboth.1, fun x hx hf => ?_⟩
    rcases List.mem_cons.mp hx with rfl | hx
    · exact hboth.2 hf
    · exact hcs x hx hf

/-! ### NACK service and RTCP -/

theorem freePkt_fwd (d : Dev) (p : Pkt) : (freePkt d p).fwd = d.fwd :=
  (freePkt_only (e := (· ≠ .fwd)) (by decide) (by decide) (by decide) (by decide) (Only.refl d)).fwd (by decide)

theorem legs_releaseMPkt (d : Dev) (id : Nat) : (releaseMPkt d id).fwd.legs = d.fwd.legs := by
  unfold releaseMPkt
  split
  · rfl
  · split
    · rw [freePkt_fwd]
    · rfl

theorem legOfSsrc_congr {e : Dev} (h : e.fwd.legs = d.fwd.legs) (part ssrc : Nat) : legOfSsrc e part ssrc = legOfSsrc d part ssrc := by
  rw [legOfSsrc, legOfSsrc, h]

/-- The oldest packet, a Generic NACK, number by number. -/
theorem serveNack_front {leg id : Nat} {bytes : List Byte} {rest : List (Nat × Nat × List Byte)} (hq : d.fwd.rtcp = (leg, id, bytes) :: rest)
    (hf : running d fwdUnit = true) (hs : running d secUnit = true) (hn : isNack (toNats bytes) = true) :
    serveNack d = (
      let b := toNats bytes
      let ns := nackNumbers (wordsOf (b.drop 12))
      let e := cnt (popRtcp d id rest) (FWD + 0x4C) ns.length
      (legOfSsrc d (((findLeg d leg).map Leg.part).getD 0) (natBe (slice b 8 4))).elim (cnt e (FWD + 0x80 + 4 * 6) ns.length)
        fun l => withCredit d (ns.foldl (serveNumber l.handle) e)) := by
  rw [serveNack, hq]
  refine (if_neg (by rw [hf, hs, hn]; decide)).trans ?_
  dsimp only
  cases legOfSsrc d (((findLeg d leg).map Leg.part).getD 0) (natBe (slice (toNats bytes) 8 4)) <;> rfl

section
variable {h n : Nat} {e : RtxEnt}

theorem serveNumber_off (hl : findLeg d h = some l) (h0 : l.cfg.rtxMode = 0) : serveNumber h d n = rtxMiss d l 5 := by
  unfold serveNumber
  rw [hl]
  exact if_pos h0

theorem serveNumber_miss {r : Nat} (hl : findLeg d h = some l) (h0 : l.cfg.rtxMode ≠ 0) (hr : rtxFind d l n = .error r) :
    serveNumber h d n = rtxMiss d l r := by
  unfold serveNumber
  rw [hl]
  refine (if_neg h0).trans ?_
  rw [hr]

theorem serveNumber_spent (hl : findLeg d h = some l) (h0 : l.cfg.rtxMode ≠ 0) (he : rtxFind d l n = .ok e) (hmax : l.cfg.rtxMax ≤ e.resends) :
    serveNumber h d n = rtxMiss d l 3 := by
  unfold serveNumber
  rw [hl]
  refine (if_neg h0).trans ?_
  rw [he]
  exact if_pos hmax

theorem serveNumber_resends (hl : findLeg d h = some l) (h0 : l.cfg.rtxMode ≠ 0) (he : rtxFind d l n = .ok e) (hmax : e.resends < l.cfg.rtxMax)
    (hlast : e.lastResend = none) : serveNumber h d n = resend d l e := by
  unfold serveNumber
  rw [hl]
  refine (if_neg h0).trans ?_
  rw [he]
  refine (if_neg (Nat.not_le.mpr hmax)).trans (if_neg ?_)
  rw [hlast]
  exact Bool.false_ne_true

end

/-- What firmware's feedback does: its estimates for the participant's legs, then its sender reports. -/
def tookFeedback (fb : Feedback) (part : Nat) (d : Dev) : Dev :=
  let mine (h : Nat) : Bool := (findLeg d h).any fun l => l.out && l.part == part
  let d := fb.estimates.foldl (fun d x => if mine x.1 then modLeg d x.1 fun l => { l with bwe := x.2 } else d) d
  fb.reports.foldl (fun d h => senderReport d h) d

/-- The refresh request that a packet asks for: a PLI or FIR about a leg's SSRC, of the leg's source. -/
def asksRefresh (part : Nat) (b : List Nat) (d : Dev) : Dev :=
  let fmt := nth b 0 0 % 32
  if nth b 1 0 = 206 ∧ (fmt = 1 ∨ fmt = 4) then
    ((legOfSsrc d part (natBe (slice b (if fmt = 4 then 12 else 8) 4))).bind fun l => l.source.map fun x => (x, l.handle)).elim d
      fun x => requestRefresh d x.1 (if fmt = 4 then 2 else 1) x.2
  else d

/-- The oldest packet, another than a Generic NACK. -/
theorem rtcpReceive_front {fb : Feedback} {leg id : Nat} {bytes : List Byte} {rest : List (Nat × Nat × List Byte)}
    (hq : d.fwd.rtcp = (leg, id, bytes) :: rest) (hn : isNack (toNats bytes) = false) :
    rtcpReceive d fb = tookFeedback fb (((findLeg d leg).map Leg.part).getD 0)
      (asksRefresh (((findLeg d leg).map Leg.part).getD 0) (toNats bytes) (popRtcp d id rest)) := by
  rw [rtcpReceive, hq]
  refine (if_neg (by rw [hn]; decide)).trans ?_
  refine congrArg (tookFeedback fb _) ?_
  unfold asksRefresh
  simp only [Bool.and_eq_true, Bool.or_eq_true, beq_iff_eq, apply_ite natBe, apply_ite (slice (toNats bytes) · 4)]
  split
  · generalize legOfSsrc _ _ _ = o
    rcases o with _ | l
    · rfl
    · dsimp only [Option.bind_some]
      cases l.source <;> rfl
  · rfl

/-- Settles O49: the list by `serveLegs_served`, a leg's counts by `sendOn_counts`, the target as the top of a fold. -/
theorem forwardingCompletes : Obligations.ForwardingCompletes := by
  unfold Obligations.ForwardingCompletes
  refine ⟨?_, serveLegs_served, sendOn_counts, rewrite_fields, ?_, ?_, ?_, ?_, ?_⟩
  · intro s p ps hq hf hsec
    refine congrArg (nextWith s) ?_
    dsimp only
    rw [forwardPacket, hq]
    refine (if_neg (by rw [hf, hsec]; decide)).trans ?_
    simp only [List.isEmpty_iff]
  · intro s leg id bytes rest hq hf hsec hn
    refine congrArg (nextWith s) ?_
    refine (serveNack_front hq hf hsec hn).trans ?_
    dsimp only
    have hlegs (n : Nat) : (cnt (popRtcp s.dev id rest) (FWD + 0x4C) n).fwd.legs = s.dev.fwd.legs := legs_releaseMPkt _ id
    rw [← legOfSsrc_congr (hlegs _)]
    generalize legOfSsrc _ _ _ = o
    cases o <;> rfl
  · intro d h n l hl
    exact ⟨serveNumber_off hl, fun r => serveNumber_miss hl, fun e => serveNumber_spent hl, fun e => serveNumber_resends hl⟩
  · intro s fb leg id bytes rest hq hn
    refine congrArg (nextWith s) ?_
    refine (rtcpReceive_front hq hn).trans (congrArg (tookFeedback fb _) ?_)
    unfold asksRefresh
    dsimp only
    split
    · generalize Option.bind _ _ = o
      cases o <;> rfl
    · rfl
  · intro d l src
    rw [targetOf_eq]
    refine (foldl_better_mem (choices d src) (0, 0)).imp_right fun ⟨⟨x, c⟩, hc, hf, hx⟩ => ?_
    obtain ⟨hs, ht, ha⟩ := (choiceFits_iff l _).mp hf
    rw [hx]
    exact ⟨c, hc, ha, hs, ht⟩
  · intro d l src x c hc ha hs ht
    exact (foldl_better_top (choices d src) (0, 0)).2 (x, c) hc ((choiceFits_iff l _).mpr ⟨hs, ht, ha⟩)

end Sys2Proof.Machine
end

section
/-! The Bridle: selection, the post wheel, shapers, gates and watermarks (R288 to R301, R360). -/
namespace Sys2Proof.Machine
variable {s : State} {d : Dev} {p t q : Nat}

/-! ### What the passing of time leaves -/

theorem advance_regs (d : Dev) (t : Nat) : (advance d t).regs = d.regs := by unfold advance; split <;> rfl
theorem reg_advance (d : Dev) (t a : Nat) : reg (advance d t) a = reg d a := by unfold advance; split <;> rfl
theorem getF_advance (d : Dev) (t a lo len : Nat) : getF (advance d t) a lo len = getF d a lo len := by rw [getF, reg_advance]; rfl
theorem getBrd_advance (d : Dev) (t p : Nat) : getBrd (advance d t) p = getBrd d p := by unfold advance; split <;> rfl
theorem linkUp_advance (d : Dev) (t p : Nat) : linkUp (advance d t) p = linkUp d p := by rw [linkUp, link, getF_advance]; rfl
theorem isActive_advance (d : Dev) (t p : Nat) : isActive (advance d t) p = isActive d p := by rw [isActive, getB, reg_advance]; rfl
theorem operBank_advance (d : Dev) (t p : Nat) : operBank (advance d t) p = operBank d p := getF_advance d t _ _ _
theorem advance_brd (d : Dev) (t : Nat) : (advance d t).brd = d.brd := by unfold advance; split <;> rfl

theorem timely_clock (h : timely d t = true) : d.tim.clock ≤ t := by
  unfold timely at h
  rw [Bool.and_eq_true, decide_eq_true_eq] at h
  exact h.1

/-- The clock after it has moved to a time that is not before it. -/
theorem advance_clock (h : timely d t = true) : (advance d t).tim.clock = t := by
  have := timely_clock h
  unfold advance
  split
  · rfl
  · omega

theorem timely_advance (h : timely d t = true) : timely (advance d t) t = true := by
  have hc := advance_clock h
  unfold timely at *
  rw [Bool.and_eq_true] at h ⊢
  refine ⟨by simp [hc], ?_⟩
  have hrun : (advance d t).tim.running = d.tim.running ∧ (advance d t).tim.stride = d.tim.stride := by
    unfold advance
    split <;> exact ⟨rfl, rfl⟩
  rw [hrun.1, hrun.2]
  exact h.2

theorem advance_here (h : d.tim.clock = t) : advance d t = d := if_neg (by omega)

/-! ### Lists of entries -/

theorem nth_upd (l : List Nat) (i v k : Nat) : nth (upd l i v) k 0 = if k = i ∧ i < l.length then v else nth l k 0 := by
  unfold nth upd
  rw [List.getElem?_set]
  by_cases h : i = k
  · subst h
    by_cases hl : i < l.length
    · simp [hl]
    · simp [hl]
  · have hk : ¬ (k = i ∧ i < l.length) := fun x => h x.1.symm
    rw [if_neg h, if_neg hk]

theorem length_upd (l : List Nat) (i v : Nat) : (upd l i v).length = l.length := List.length_set

/-! ### Selection -/

/-- A selection of a running Bridle of an active port whose link is up and that has nothing under way. -/
structure Selects (d : Dev) (p t : Nat) : Prop where
  runs : brdRuns d p = true
  timely : timely d t = true
  free : (getBrd d p).busyUntil / 1000 ≤ t
  idle : (getPort d p).txq = []
  up : linkUp d p = true
  active : isActive d p = true

/-- The start of a frame that a selection at `t` takes. -/
def startOf (d : Dev) (p t : Nat) : Nat := max (getBrd d p).busyUntil (1000 * t)
/-- The device once the heads that have to go are gone. -/
def headsDropped (d : Dev) (p t : Nat) : Dev := dropHeads (advance d t) p

/-- The queues whose heads may start then. -/
def mayStart (d : Dev) (p t q : Nat) : Bool := eligible (headsDropped d p t) p q (startOf d p t)

/-- The queue that is picked starts its head. -/
def started (p start : Nat) (r : Dev × Option Nat) : Dev :=
  match r.2 with
  | some q => startFrame r.1 p q start
  | none => r.1

theorem started_some (p start : Nat) (d : Dev) (q : Nat) : started p start (d, some q) = startFrame d p q start := by unfold started; rfl
theorem started_none (p start : Nat) (d : Dev) : started p start (d, none) = d := by unfold started; rfl

theorem selectAt_active {start : Nat} (hup : linkUp d p = true) (hact : isActive d p = true) :
    selectAt d p start = started p start (pickQueue (dropHeads d p) p fun q => eligible (dropHeads d p) p q start) := by
  unfold selectAt
  rw [if_neg (by rw [hup]; exact Bool.false_ne_true), if_neg (by rw [hact]; exact Bool.false_ne_true)]
  dsimp only
  unfold started
  generalize pickQueue (dropHeads d p) p _ = r
  obtain ⟨e, q⟩ := r
  cases q <;> rfl

theorem selection_runs (h : Selects d p t) :
    selection d p t = started p (startOf d p t) (pickQueue (headsDropped d p t) p (mayStart d p t)) := by
  have hstart : ¬ (!brdRuns d p || !timely d t || decide (t < (getBrd d p).busyUntil / 1000) || !(getPort d p).txq.isEmpty) = true := by
    rw [h.runs, h.timely, h.idle, decide_eq_false (Nat.not_lt.mpr h.free)]
    decide
  refine (if_neg hstart).trans (selectAt_active ?_ ?_)
  · rw [linkUp_advance, h.up]
  · rw [isActive_advance, h.active]

theorem pickQueue_urgent {ok : Nat → Bool} (hq : q < 4) (hok : ok q = true) (hlow : ∀ r, r < q → ok r = false) :
    pickQueue d p ok = (d, some q) := by
  have hfind : (List.range 4).find? ok = some q := by
    rw [List.find?_range_eq_some]
    exact ⟨hok, List.mem_range.mpr hq, fun r hr => by rw [hlow r hr]; rfl⟩
  rw [pickQueue, hfind]

theorem find_urgent_none {ok : Nat → Bool} (hno : ∀ r, r < 4 → ok r = false) : (List.range 4).find? ok = none := by
  rw [List.find?_eq_none]
  intro r hr
  rw [hno r (List.mem_range.mp hr)]
  decide

/-- The deficit round robin of the weighted queues, as the port stands. -/
def weightedTurn (d : Dev) (p : Nat) (ok : Nat → Bool) : Option (Nat × List Nat) :=
  drr (weighted d p ok) ((List.range 12).map fun i => 128 * getF d (BRDQ p (4 + i)) 0 8) 1200 ((getBrd d p).turn - 4) (getBrd d p).visited
    ((List.range 12).map fun i => (getQ d p (4 + i)).deficit)

theorem pickQueue_weighted {ok : Nat → Bool} {i : Nat} {defs : List Nat} (hno : ∀ r, r < 4 → ok r = false)
    (hdrr : weightedTurn d p ok = some (i, defs)) :
    pickQueue d p ok = (putBrd d p { getBrd d p with qs := setDeficits (getBrd d p).qs defs, turn := 4 + i, visited := true }, some (4 + i)) := by
  unfold weightedTurn at hdrr
  rw [pickQueue, find_urgent_none hno]
  dsimp only
  rw [hdrr]

theorem pickQueue_none {ok : Nat → Bool} (hno : ∀ r, r < 4 → ok r = false) (hdrr : weightedTurn d p ok = none) :
    pickQueue d p ok = (putBrd d p { getBrd d p with visited := false }, none) := by
  unfold weightedTurn at hdrr
  rw [pickQueue, find_urgent_none hno]
  dsimp only
  rw [hdrr]

/-! ### Deficit round robin (R293) -/

/-- With no head to take, the round robin takes none. -/
theorem drr_none {heads : List (Option Nat)} (hno : ∀ i, nth heads i none = none) (quanta : List Nat) (n i : Nat) (v : Bool) (defs : List Nat) :
    drr heads quanta n i v defs = none := by
  induction n generalizing i v with
  | zero => rfl
  | succ n ih => rw [drr, hno]; exact ih _ _

theorem weighted_none {ok : Nat → Bool} (hno : ∀ r, r < 16 → ok r = false) (i : Nat) : nth (weighted d p ok) i none = none := by
  unfold nth weighted
  rw [List.getElem?_map]
  cases hi : (List.range 12)[i]? with
  | none => rfl
  | some j =>
    have hj : j < 12 := List.mem_range.mp (List.mem_of_getElem? hi)
    rw [Option.map_some, hno (4 + j) (by omega)]
    rfl

theorem weightedTurn_none {ok : Nat → Bool} (hno : ∀ r, r < 16 → ok r = false) : weightedTurn d p ok = none := by
  unfold weightedTurn
  generalize 1200 = n
  exact drr_none (weighted_none hno) _ _ _ _ _

/-- The deficits at a visit: the quantum is added where the visit begins. -/
def visitDefs (quanta : List Nat) (i : Nat) (v : Bool) (defs : List Nat) : List Nat :=
  if v then defs else upd defs i (nth defs i 0 + nth quanta i 0)

theorem visitDefs_le (quanta : List Nat) (i : Nat) (v : Bool) (defs : List Nat) (k : Nat) :
    nth defs k 0 ≤ nth (visitDefs quanta i v defs) k 0 := by
  unfold visitDefs
  split
  · exact Nat.le_refl _
  · rw [nth_upd]
    split
    · next hk => rw [hk.1]; omega
    · exact Nat.le_refl _

theorem length_visitDefs (quanta : List Nat) (i : Nat) (v : Bool) (defs : List Nat) : (visitDefs quanta i v defs).length = defs.length := by
  unfold visitDefs
  split
  · rfl
  · exact length_upd _ _ _

/-- The queue that the round robin takes had credit for its head, and no other loses any. -/
theorem drr_takes (heads : List (Option Nat)) (quanta : List Nat) (n i : Nat) (v : Bool) (defs : List Nat) (j : Nat) (defs' : List Nat)
    (h : drr heads quanta n i v defs = some (j, defs')) :
    (∃ w c, nth heads j none = some w ∧ w ≤ c ∧ nth defs j 0 ≤ c ∧ nth defs' j 0 = c - w) ∧ defs'.length = defs.length ∧
      ∀ k, k ≠ j → nth defs k 0 ≤ nth defs' k 0 := by
  induction n generalizing i v defs with
  | zero => cases h
  | succ n ih =>
    rw [drr] at h
    split at h
    · exact ih _ _ _ h
    · next w hw =>
      have hle := visitDefs_le quanta i v defs
      have hlen := length_visitDefs quanta i v defs
      change (if w ≤ nth (visitDefs quanta i v defs) i 0 then _ else _) = _ at h
      split at h
      · next hfit =>
        cases h
        refine ⟨⟨w, _, hw, hfit, hle j, ?_⟩, (length_upd _ _ _).trans hlen, fun k hk => ?_⟩
        · change nth (upd (visitDefs quanta j v defs) j _) j 0 = _
          rw [nth_upd]
          split
          · rfl
          · next hi =>
            have hz : nth (visitDefs quanta j v defs) j 0 = 0 := by
              unfold nth
              rw [List.getElem?_eq_none (Nat.le_of_not_lt fun x => hi ⟨rfl, x⟩)]
              rfl
            rw [hz, Nat.zero_sub]
        · change _ ≤ nth (upd (visitDefs quanta j v defs) j _) k 0
          rw [nth_upd, if_neg fun x => hk x.1]
          exact hle k
      · obtain ⟨⟨x, c, hx, hxc, hdc, hd'⟩, hl, hk⟩ := ih _ _ _ h
        exact ⟨⟨x, c, hx, hxc, (hle j).trans hdc, hd'⟩, hl.trans hlen, fun k hkj => (hle k).trans (hk k hkj)⟩

/-! ### What a selection starts -/

theorem selection_urgent (h : Selects d p t) (hq : q < 4) (hok : mayStart d p t q = true) (hlow : ∀ r, r < q → mayStart d p t r = false) :
    selection d p t = startFrame (headsDropped d p t) p q (startOf d p t) := by
  rw [selection_runs h, pickQueue_urgent hq hok hlow, started_some]

theorem selection_weighted {i : Nat} {defs : List Nat} (h : Selects d p t) (hno : ∀ r, r < 4 → mayStart d p t r = false)
    (hdrr : weightedTurn (headsDropped d p t) p (mayStart d p t) = some (i, defs)) :
    selection d p t = startFrame (putBrd (headsDropped d p t) p
      { getBrd (headsDropped d p t) p with qs := setDeficits (getBrd (headsDropped d p t) p).qs defs, turn := 4 + i, visited := true })
      p (4 + i) (startOf d p t) := by
  rw [selection_runs h, pickQueue_weighted hno hdrr, started_some]

theorem selection_none (h : Selects d p t) (hno : ∀ r, r < 16 → mayStart d p t r = false) :
    selection d p t = putBrd (headsDropped d p t) p { getBrd (headsDropped d p t) p with visited := false } := by
  rw [selection_runs h, pickQueue_none (fun r hr => hno r (Nat.lt_trans hr (by decide))) (weightedTurn_none hno), started_none]

/-! ### Shapers -/

theorem tickBucket_bounds (b : Int) (was now forgive : Bool) (rate burst : Nat) : tickBucket b was now rate burst forgive ≤ 1000 * burst ∧
    (now = true → was = true → 0 ≤ b → tickBucket b was now rate burst forgive = min (b + rate) (1000 * burst)) ∧
    (now = true → was = true → b < 0 → forgive = true → tickBucket b was now rate burst forgive = min rate (1000 * burst)) := by
  refine ⟨?_, ?_, ?_⟩
  · cases now with
    | false => exact Int.le_refl _
    | true => exact Int.min_le_right _ _
  · rintro rfl rfl hb
    have hdebt : decide (b < 0) = false := decide_eq_false (Int.not_lt.mpr hb)
    simp only [tickBucket, hdebt, Bool.and_false, Bool.not_true, Bool.false_eq_true, if_false]
  · rintro rfl rfl hb rfl
    have hdebt : decide (b < 0) = true := decide_eq_true hb
    simp only [tickBucket, hdebt, Bool.and_true, Bool.not_true, Bool.false_eq_true, if_false, if_true, Int.zero_add]
    push_cast
    rfl

/-- The registers of a shaper name it. -/
theorem shaperAt_shapeRegs : ∀ p, p < 8 → ∀ i, i < 17 → shaperAt (shapeRegs p i).1 = some (p, i) ∧
    shaperAt (shapeRegs p i).2 = none ∧ burstAt (shapeRegs p i).2 = some (p, i) := by decide +kernel

/-- The watermark statuses of a queue name it. -/
theorem brdStatAt_depth : ∀ p, p < 8 → ∀ q, q < 16 → brdStatAt (BRDQ p q + 0x18) = some (p, q, false) := by decide +kernel

theorem brdStatAt_delay : ∀ p, p < 8 → ∀ q, q < 16 → brdStatAt (BRDQ p q + 0x28) = some (p, q, true) := by decide +kernel

/-! ### Gate lists -/

theorem takeoverTime_bounds (base cycle t : Nat) : t ≤ takeoverTime base cycle t ∧
    (0 < cycle → ndiff base t < 0 → takeoverTime base cycle t < t + cycle) := by
  unfold takeoverTime
  generalize ndiff base t = x
  dsimp only
  by_cases hx : 0 ≤ x
  · rw [if_pos hx]
    exact ⟨by omega, fun _ hn => absurd hn (by omega)⟩
  · rw [if_neg hx]
    by_cases hc : cycle = 0
    · rw [if_pos hc]
      exact ⟨Nat.le_refl t, fun h => absurd hc (by omega)⟩
    · rw [if_neg hc]
      generalize (-x).toNat = a
      have hmod := Nat.div_add_mod' (a + cycle - 1) cycle
      have hlt := Nat.mod_lt (a + cycle - 1) (Nat.pos_of_ne_zero hc)
      unfold ceilDiv
      exact ⟨by omega, fun _ _ => by omega⟩

/-- No list of gates is due. -/
def noneDue (d : Dev) (p t : Nat) : Prop := ∀ x, (getBrd d p).pend = some x → t < x.2

theorem gclTakeover_noneDue (h : noneDue d p t) : gclTakeover d p t = d := by
  unfold gclTakeover
  dsimp only
  split
  · rfl
  · next es t0 hp =>
    have hlt : t < t0 := h _ hp
    exact if_pos (by rw [decide_eq_true hlt, Bool.or_true, Bool.true_or])

/-- The device that a due list of gates takes over, before its event. -/
def gatesTaken (d : Dev) (p t : Nat) (es : List (Nat × Nat)) (t0 : Nat) : Dev :=
  let d := advance d t
  let bank := 1 - operBank d p
  let d := putBrd d p { getBrd d p with pend := none, oper := es, operBase := t0, entry := 0 }
  let d := setF (putB (putB (putB d (BRD p + 0x1C) 1 false) (BRD p + 0x1C) 2 (!es.isEmpty)) (BRD p + 0x1C) 9 true)
    (BRD p + 0x1C) 0 1 bank
  setReg (putB d (BRD p + 0x10) 8 false) (BRD p + 0x20) (wd (gclCycle es))

theorem gclTakeover_due {es : List (Nat × Nat)} {t0 : Nat} (hp : (getBrd d p).pend = some (es, t0)) (ht : timely d t = true) (hdue : t0 ≤ t)
    (hh : halted d = false) : gclTakeover d p t = raiseOnce (gatesTaken d p t es t0)
      { evUnit ⟨10, 0xFF, p⟩ 0x844 0 [(1, p), (1, 1 - operBank d p), (4, es.length), (6, t0 % 2 ^ 48)] with key := 0 } := by
  unfold gclTakeover
  dsimp only
  rw [hp]
  refine (if_neg ?_).trans ?_
  · rw [ht, hh, decide_eq_false (Nat.not_lt.mpr hdue)]
    decide
  · unfold gatesTaken
    dsimp only
    rw [operBank_advance, getBrd_advance]

theorem gatesTaken_brd (d : Dev) (p t : Nat) (es : List (Nat × Nat)) (t0 : Nat) :
    (gatesTaken d p t es t0).brd = (putBrd d p { getBrd d p with pend := none, oper := es, operBase := t0, entry := 0 }).brd := by
  unfold gatesTaken
  dsimp only
  rw [getBrd_advance]
  show (putBrd (advance d t) p _).brd = _
  unfold putBrd
  rw [advance_brd]

theorem gatesTaken_regs (w : spWf d.regs = true) (p t : Nat) (es : List (Nat × Nat)) (t0 : Nat) :
    operBank (gatesTaken d p t es t0) p = 1 - operBank d p ∧ reg (gatesTaken d p t es t0) (BRD p + 0x20) = wd (gclCycle es) := by
  have w1 : spWf (putBrd (advance d t) p { getBrd (advance d t) p with pend := none, oper := es, operBase := t0, entry := 0 }).regs = true := by
    rw [putBrd_regs, advance_regs]
    exact w
  have w4 := putB_wf (putB_wf (putB_wf w1 (BRD p + 0x1C) 1 false) (BRD p + 0x1C) 2 (!es.isEmpty)) (BRD p + 0x1C) 9 true
  have w5 := setF_wf w4 (BRD p + 0x1C) 0 1 (1 - operBank (advance d t) p)
  refine ⟨?_, reg_setReg_same (putB_wf w5 _ _ _) _ _⟩
  have hbank := getF_setF_same w4 (BRD p + 0x1C) 0 1 (1 - operBank (advance d t) p) (by decide)
  rw [operBank_advance] at hbank
  unfold operBank gatesTaken
  dsimp only
  unfold getF at *
  rw [reg_setReg_ne _ (by omega), reg_putB_ne _ (by omega), getBrd_advance, operBank_advance]
  exact hbank.trans (Nat.mod_eq_of_lt (by omega))

theorem getBrd_congr {e : Dev} (h : e.brd = d.brd) (p : Nat) : getBrd e p = getBrd d p := by rw [getBrd, getBrd, h]

/-- What a port reads after it is written: the new value, or what stands for an absent port. -/
theorem getBrd_putBrd (d : Dev) (p : Nat) (b : BrdPort) : getBrd (putBrd d p b) p = b ∨ getBrd (putBrd d p b) p = {} := by
  unfold getBrd putBrd nth upd
  dsimp only
  rw [List.getElem?_set_self']
  cases d.brd.ports[p]? with
  | none => exact .inr rfl
  | some x => exact .inl rfl

theorem raiseOnce_brd (d : Dev) (x : Ev) : (raiseOnce d x).brd = d.brd := rfl

/-- A takeover leaves no list that is due. -/
theorem noneDue_gclTakeover (ht : timely d t = true) (hh : halted d = false) : noneDue (gclTakeover d p t) p t := by
  cases hp : (getBrd d p).pend with
  | none =>
    rw [gclTakeover_noneDue fun x hx => by rw [hp] at hx; cases hx]
    exact fun x hx => by rw [hp] at hx; cases hx
  | some y =>
    obtain ⟨es, t0⟩ := y
    by_cases hdue : t0 ≤ t
    · rw [gclTakeover_due hp ht hdue hh]
      intro x hx
      rw [getBrd_congr ((raiseOnce_brd _ _).trans (gatesTaken_brd d p t es t0)) p] at hx
      rcases getBrd_putBrd d p { getBrd d p with pend := none, oper := es, operBase := t0, entry := 0 } with h | h
      all_goals
        rw [h] at hx
        cases hx
    · have hn : noneDue d p t := fun x hx => by
        rw [hp] at hx
        cases hx
        exact Nat.lt_of_not_le hdue
      rw [gclTakeover_noneDue hn]
      exact hn

/-- A device in HALT-SAFE takes over no list. -/
theorem gclTakeover_halted (hh : halted d = true) : gclTakeover d p t = d := by
  unfold gclTakeover
  dsimp only
  split
  · rfl
  · exact if_pos (by rw [hh, Bool.or_true])

/-- A takeover moves the clock as any command at its time does. -/
theorem gclTakeover_moves (ht : timely d t = true) : ∃ e, gclTakeover (advance d t) p t = e ∧ advance e t = e ∧ timely e t = true ∧ gclTakeover e p t = e := by
  have hta := timely_advance ht
  have hc := advance_clock ht
  refine ⟨_, rfl, ?_⟩
  cases hh : halted (advance d t) with
  | true =>
    rw [gclTakeover_halted hh]
    exact ⟨advance_here hc, hta, gclTakeover_halted hh⟩
  | false =>
    have hnone := gclTakeover_noneDue (noneDue_gclTakeover (p := p) hta hh)
    have htim : (gclTakeover (advance d t) p t).tim = (advance d t).tim := by
      unfold gclTakeover
      dsimp only
      split
      · rfl
      · split
        · rfl
        · rw [advance_here hc]
          rfl
    refine ⟨advance_here (htim ▸ hc), ?_, hnone⟩
    unfold timely at *
    rw [htim]
    exact hta

/-- A write of arm takes over the list that is due before anything else. -/
theorem gclArm_takesOver {v : Word} (ht : timely d t = true) (hv : bit v 8 = true) :
    writeGclCtrl (advance d t) p v t = writeGclCtrl (advance (gclTakeover (advance d t) p t) t) p v t := by
  obtain ⟨e, he, hadv, -, hnone⟩ := gclTakeover_moves (p := p) ht
  rw [he, hadv]
  unfold writeGclCtrl
  simp only [hv, if_true, he, hnone]

/-- The device of a write to BRD_GCL_CTRL, with the list's length. -/
def withLength (d : Dev) (p : Nat) (v : Word) : Dev := setF d (BRD p + 0x10) 0 7 (fld v 0 7)

theorem nth_mem {α : Type} {l : List α} {i : Nat} (h : i < l.length) (x : α) : nth l i x ∈ l := by
  unfold nth
  rw [List.getElem?_eq_getElem h]
  exact List.getElem_mem h

theorem length_gclEntries (d : Dev) (p bank n : Nat) : (gclEntries d p bank n).length = n := by
  unfold gclEntries
  rw [List.length_map, List.length_range]

/-- A legal list is armed. -/
theorem writeGclCtrl_arms {v : Word} (hv : bit v 8 = true) (hn : fld v 0 7 ≤ 64) (hdue : noneDue d p t)
    (hes : ∀ e ∈ gclEntries (withLength d p v) p (1 - operBank (withLength d p v) p) (fld v 0 7), 64 ≤ e.1)
    (hcycle : gclCycle (gclEntries (withLength d p v) p (1 - operBank (withLength d p v) p) (fld v 0 7)) < 2 ^ 32) :
    writeGclCtrl d p v t = (
      let d := withLength d p v
      let es := gclEntries d p (1 - operBank d p) (fld v 0 7)
      let base := (reg d (BRD p + 0x14)).toNat + getF d (BRD p + 0x18) 0 16 * 2 ^ 32
      let d := putB (putB d (BRD p + 0x10) 8 true) (BRD p + 0x1C) 1 true
      putBrd d p { getBrd d p with pend := some (es, takeoverTime base (gclCycle es) t) }) := by
  have hfind : (List.range (fld v 0 7)).find? (fun i =>
      decide ((nth (gclEntries (withLength d p v) p (1 - operBank (withLength d p v) p) (fld v 0 7)) i (0, 0)).1 < 64)) = none := by
    rw [List.find?_eq_none]
    intro i hi
    rw [decide_eq_true_eq, Nat.not_lt]
    exact hes _ (nth_mem (by rw [length_gclEntries]; exact List.mem_range.mp hi) _)
  unfold writeGclCtrl
  rw [if_pos hv, gclTakeover_noneDue hdue]
  dsimp only
  rw [if_neg (by rw [hv]; exact Bool.false_ne_true), if_neg (Nat.not_lt.mpr hn)]
  unfold withLength at *
  rw [hfind]
  exact if_neg (Nat.not_le.mpr hcycle)

/-- Settles O55: the selection by `selection_runs` and the three lemmas of `pickQueue`, the round robin by `drr_takes`, the gates by
`gclTakeover_due`. -/
theorem bridleCompletes : Obligations.BridleCompletes := by
  unfold Obligations.BridleCompletes
  refine ⟨?_, ?_, ?_, ?_, drr_takes, ?_, ?_, tickBucket_bounds, ?_, ?_, ?_, takeoverTime_bounds, ?_, ?_, ?_⟩
  · intro s p t q hruns ht hfree hidle hup hact hq start d helig hlow
    exact congrArg (nextWith s) (selection_urgent ⟨hruns, ht, hfree, hidle, hup, hact⟩ hq helig hlow)
  · intro s p t i defs hruns ht hfree hidle hup hact start d hno hdrr
    exact congrArg (nextWith s) (selection_weighted ⟨hruns, ht, hfree, hidle, hup, hact⟩ hno hdrr)
  · intro s p t hruns ht hfree hidle hup hact start d hno
    exact congrArg (nextWith s) (selection_none ⟨hruns, ht, hfree, hidle, hup, hact⟩ hno)
  · intro d f lim
    exact decide_eq_true_iff
  · intro s p t hruns ht hwheel
    refine congrArg (nextWith s) ((if_neg ?_).trans rfl)
    rw [hruns, ht, beq_false_of_ne hwheel]
    decide
  · intro s p t ht hh hshape
    refine congrArg (nextWith s) ((if_neg ?_).trans rfl)
    rw [hh, ht, beq_false_of_ne hshape]
    decide
  · intro s p i v hp hi
    obtain ⟨hrate, hnone, hburst⟩ := shaperAt_shapeRegs p hp i hi
    refine ⟨congrArg (nextWith s) ?_, congrArg (nextWith s) ?_⟩
    · dsimp only
      unfold writeShaper
      rw [hrate]
    · dsimp only
      unfold writeShaper
      rw [hnone, hburst]
  · intro s p v t ht hv
    obtain ⟨e, he, -, htime, -⟩ := gclTakeover_moves (p := p) ht
    refine (congrArg (nextWith s) (if_pos ht)).trans ((congrArg (nextWith s) (gclArm_takesOver ht hv)).trans ?_)
    refine congrArg (nextWith s) (if_pos ?_).symm
    rw [he]
    exact htime
  · intro s p v t ht hv hn hdue d es hes hcycle
    refine congrArg (nextWith s) ((if_pos ht).trans ?_)
    exact writeGclCtrl_arms hv hn (fun x hx => hdue x (by rwa [getBrd_advance] at hx)) hes hcycle
  · intro s p t t0 es hp ht hdue hh
    refine ⟨gatesTaken s.dev p t es t0, congrArg (nextWith s) (gclTakeover_due hp ht hdue hh), gatesTaken_brd _ _ _ _ _,
      fun w => gatesTaken_regs w _ _ _ _⟩
  · intro s p t hoper ht hh
    refine congrArg (nextWith s) (if_neg ?_)
    rw [ht, hh, List.isEmpty_eq_false_iff.mpr hoper]
    decide
  · intro s p q v hp hq hv
    have hon : ¬ (!bit v 0) = true := by rw [hv]; decide
    refine ⟨congrArg (nextWith s) ((if_neg hon).trans ?_), congrArg (nextWith s) ((if_neg hon).trans ?_)⟩
    · rw [brdStatAt_depth p hp q hq]
    · rw [brdStatAt_delay p hp q hq]

end Sys2Proof.Machine
end

section
/-! Network time: the clock, the servo and steps (R302 to R309). -/
namespace Sys2Proof.Machine
variable {s : State} {d : Dev}

/-! ### What reports and pins leave of the time unit -/

theorem raise_tim (d : Dev) (x : Ev) : (raise d x).tim = d.tim := by
  show (unreported (raise d x)).tim = (unreported d).tim
  rw [unreported_raise]

theorem time_raise (d : Dev) (x : Ev) : time (raise d x) = time d := by rw [time, raise_tim]; rfl

/-- The registers of network time are no function's own. -/
theorem unitReg_tim {o : Nat} (h : o < 0x1000) : UnitReg (TIM + o) := ⟨by unfold TIM; omega, by unfold TIM; omega⟩

/-- The end of pulses changes the generators and the pins. -/
theorem squelch_fold (l : List Nat) (d : Dev) : ∃ o ps, l.foldl (fun d g =>
    if (getPulse d g).widthEnd.isSome && squelched d g then endPulse d g d.tim.clock else d) d =
      { d with out := o, tim := { d.tim with pulses := ps } } := by
  induction l generalizing d with
  | nil => exact ⟨d.out, d.tim.pulses, rfl⟩
  | cons g l ih =>
    rw [List.foldl_cons]
    split
    · obtain ⟨o, ps, h⟩ := ih (endPulse d g d.tim.clock)
      exact ⟨o, ps, h.trans rfl⟩
    · exact ih d

theorem applySquelch_eq (d : Dev) : ∃ o ps, applySquelch d = { d with out := o, tim := { d.tim with pulses := ps } } := squelch_fold _ d

theorem reg_applySquelch (d : Dev) (a : Nat) : reg (applySquelch d) a = reg d a := by
  obtain ⟨o, ps, h⟩ := applySquelch_eq d
  rw [h]
  rfl

theorem time_applySquelch (d : Dev) : time (applySquelch d) = time d := by
  obtain ⟨o, ps, h⟩ := applySquelch_eq d
  rw [h]
  rfl

/-! ### The servo's state -/

/-- What a servo's state change keeps of the time unit. -/
def heldBack (d : Dev) : Option Nat × Bool := (d.tim.refusedAt, d.tim.noStep)

theorem heldBack_setServo (d : Dev) (st : Nat) : heldBack (setServo d st) = heldBack d := by
  unfold setServo
  dsimp only
  obtain ⟨o, ps, h⟩ := applySquelch_eq (setReg { putB (setF (logFreq d) TIM 0 2 st) (TIM + 0x100) 0 (st == 2) with
    tim := { (putB (setF (logFreq d) TIM 0 2 st) (TIM + 0x100) 0 (st == 2)).tim with inBand := 0, outBand := 0, holdStrides := 0 } } (TIM + 0x40) 0)
  rw [h]
  rfl

theorem reg_setServo (w : spWf d.regs = true) (st : Nat) : reg (setServo d st) TIM = setFld (reg d TIM) 0 2 st := by
  have wl : spWf (logFreq d).regs = true := w
  unfold setServo
  dsimp only
  rw [reg_applySquelch, reg_setReg_ne _ (by decide)]
  exact (reg_putB_ne _ (by decide) _ _).trans (reg_setF_same wl TIM 0 2 st)

theorem reg_setServo_other {a : Nat} (h0 : a ≠ TIM) (h1 : a ≠ TIM + 0x100) (h2 : a ≠ TIM + 0x40) (st : Nat) :
    reg (setServo d st) a = reg d a := by
  unfold setServo
  dsimp only
  rw [reg_applySquelch, reg_setReg_ne _ h2]
  exact (reg_putB_ne _ h1 _ _).trans (reg_setReg_ne (logFreq d) h0 _)

theorem servo_congr {e : Dev} (h : reg e TIM = reg d TIM) : servo e = servo d := by rw [servo, servo, getF, getF, h]
theorem timMode_congr {e : Dev} (h : reg e (TIM + 4) = reg d (TIM + 4)) : timMode e = timMode d := by rw [timMode, timMode, getF, getF, h]

theorem servo_setServo (w : spWf d.regs = true) (st : Nat) : servo (setServo d st) = st % 4 := by
  rw [servo, getF, reg_setServo w]
  exact fld_setFld_same _ _ _ _ (by decide)

/-- FREERUN: the servo's state, with what it leaves. -/
theorem enterFreerun_leaves (w : spWf d.regs = true) : servo (enterFreerun d) = 0 ∧ reg (enterFreerun d) (TIM + 4) = reg d (TIM + 4) ∧
    getB (enterFreerun d) TIM 4 = getB d TIM 4 ∧ heldBack (enterFreerun d) = heldBack d := by
  unfold enterFreerun
  dsimp only
  split
  · next h0 => exact ⟨h0, rfl, rfl, rfl⟩
  · have hraise {o : Nat} (ho : o < 0x1000) (l : List (Nat × Nat)) : reg (raise (setServo d 0) (evDev 0xB04 1 l)) (TIM + o) =
        reg (setServo d 0) (TIM + o) := reg_raise_pf (unitReg_tim ho) rfl (by decide : (1 : Nat) ≠ 3) _
    refine ⟨?_, ?_, ?_, ?_⟩
    · exact (servo_congr (hraise (o := 0) (by decide) _)).trans (servo_setServo w 0)
    · exact (hraise (by decide) _).trans (reg_setServo_other (by decide) (by decide) (by decide) 0)
    · unfold getB
      refine (congrArg (bit · 4) ((hraise (o := 0) (by decide) _).trans (reg_setServo w 0))).trans ?_
      rw [bit_eq_getLsbD, getLsbD_setFld _ _ _ _ _ (by decide), if_neg (by decide)]
      rfl
    · rw [heldBack, raise_tim]
      exact heldBack_setServo d 0

/-! ### Writes of the driver (R305, R307) -/

theorem fld_lt (v : Word) (lo len : Nat) : fld v lo len < 2 ^ len := Nat.mod_lt _ (Nat.two_pow_pos len)

/-- The mode that a written value names, 3 as 2. -/
def modeOf (v : Word) : Nat := if fld v 0 2 = 3 then 2 else fld v 0 2

theorem modeOf_eq (v : Word) : modeOf v = min (fld v 0 2) 2 := by
  have h := fld_lt v 0 2
  unfold modeOf
  split <;> omega

/-- TIM_CTRL with its new mode. -/
def withTimCtrl (d : Dev) (v : Word) : Dev := setReg d (TIM + 4) (setFld (v &&& 0xFFFF07) 0 2 (modeOf v))
/-- A change of mode clears what a refused step left. -/
def modeChanged (d : Dev) (v : Word) : Dev :=
  { putB (withTimCtrl d v) TIM 4 false with tim := { (putB (withTimCtrl d v) TIM 4 false).tim with refusedAt := none, noStep := false } }

theorem modeChanged_wf (w : spWf d.regs = true) (v : Word) : spWf (modeChanged d v).regs = true := putB_wf (setReg_wf w _ _) _ _ _

theorem timMode_withTimCtrl (w : spWf d.regs = true) (v : Word) : timMode (withTimCtrl d v) = modeOf v := by
  have h := modeOf_eq v
  rw [timMode, getF, withTimCtrl, reg_setReg_same w, fld_setFld_same _ _ _ _ (by decide)]
  omega

theorem timMode_modeChanged (w : spWf d.regs = true) (v : Word) : timMode (modeChanged d v) = modeOf v :=
  (timMode_congr (reg_putB_ne (withTimCtrl d v) (by decide) 4 false)).trans (timMode_withTimCtrl w v)

theorem writeTimCtrl_same {v : Word} (h : modeOf v = timMode d) : writeTimCtrl d v = withTimCtrl d v := if_pos h

theorem writeTimCtrl_new {v : Word} (h : modeOf v ≠ timMode d) :
    writeTimCtrl d v = if modeOf v = 0 then modeChanged d v else enterFreerun (modeChanged d v) := if_neg h

theorem timMode_writeTimCtrl (w : spWf d.regs = true) (v : Word) : timMode (writeTimCtrl d v) = min (fld v 0 2) 2 := by
  rw [← modeOf_eq]
  by_cases h : modeOf v = timMode d
  · rw [writeTimCtrl_same h, timMode_withTimCtrl w]
  · rw [writeTimCtrl_new h]
    split
    · exact timMode_modeChanged w v
    · obtain ⟨-, hreg, -, -⟩ := enterFreerun_leaves (modeChanged_wf w v)
      exact (timMode_congr hreg).trans (timMode_modeChanged w v)

theorem writeTimCtrl_changes (w : spWf d.regs = true) {v : Word} (hne : min (fld v 0 2) 2 ≠ timMode d) :
    getB (writeTimCtrl d v) TIM 4 = false ∧ (writeTimCtrl d v).tim.refusedAt = none ∧ (writeTimCtrl d v).tim.noStep = false ∧
      (fld v 0 2 ≠ 0 → servo (writeTimCtrl d v) = 0) := by
  have hpend : getB (modeChanged d v) TIM 4 = false := getB_putB_same (setReg_wf w _ _) (by decide) false
  rw [← modeOf_eq] at hne
  rw [writeTimCtrl_new hne]
  split
  · next h0 =>
    rw [modeOf_eq] at h0
    exact ⟨hpend, rfl, rfl, fun h => absurd h0 (by omega)⟩
  · obtain ⟨hservo, -, hbit, hheld⟩ := enterFreerun_leaves (modeChanged_wf w v)
    obtain ⟨href, hstep⟩ := Prod.mk.inj hheld
    exact ⟨hbit.trans hpend, href, hstep, fun _ => hservo⟩

theorem clampI_within {lo hi : Int} (h : lo ≤ hi) (v : Int) : lo ≤ clampI lo hi v ∧ clampI lo hi v ≤ hi := by
  unfold clampI
  split
  · omega
  · split <;> omega

theorem setFreq_within {v lim : Int} (h0 : 0 ≤ lim) (h1 : lim ≤ 128000000) (w : spWf d.regs = true) :
    -lim ≤ (reg (setFreq d v lim) (TIM + 0x20)).toInt ∧ (reg (setFreq d v lim) (TIM + 0x20)).toInt ≤ lim := by
  have hreg : reg (setFreq d v lim) (TIM + 0x20) = BitVec.ofInt 32 (clampI (-lim) lim (clampI (-128000000) 128000000 v)) := by
    unfold setFreq
    dsimp only
    split
    · exact reg_setReg_same (d := logFreq d) w _ _
    · exact reg_setReg_same (putB_wf (d := logFreq d) w _ _ _) _ _
  have hc := clampI_within (show -lim ≤ lim by omega) (clampI (-128000000) 128000000 v)
  rw [hreg, BitVec.toInt_ofInt, Int.bmod_eq_of_le (by omega) (by omega)]
  exact hc

/-! ### Steps (R306, R27) -/

theorem time_stepPulse (d : Dev) (g now : Nat) : time (stepPulse d g now) = time d := by
  unfold stepPulse
  dsimp only
  split
  · rfl
  · split
    · rfl
    · split
      · exact time_startPulse _ _ _ _ _
      · split <;> rfl

theorem time_unstepPulse (d : Dev) (g now : Nat) : time (unstepPulse d g now) = time d := by
  unfold unstepPulse
  dsimp only
  split <;> rfl

/-- The device with the clock moved and what is under way moved with it. -/
def stepBase (d : Dev) (off : Int) (now : Nat) : Dev :=
  { shiftTimes d off with tim := { (shiftTimes d off).tim with clock := now } }
/-- The generators after a step. -/
def stepPulses (d : Dev) (off : Int) (now : Nat) : Dev :=
  if off < 0 then (List.range 4).foldl (fun d g => unstepPulse d g now) (putB d (TIM + 0x100) 2 true)
  else (List.range 4).foldl (fun d g => stepPulse d g now) d
/-- The device after a step, before its event. -/
def stepDone (d : Dev) : Dev :=
  let d := putB (putB d TIM 4 false) (TIM + 0x2C) 1 false
  { d with tim := { d.tim with refusedAt := none } }

theorem time_stepPulses (d : Dev) (off : Int) (now : Nat) : time (stepPulses d off now) = time d := by
  unfold stepPulses
  split
  · exact time_foldl (fun e g => time_unstepPulse e g now) (List.range 4) _
  · exact time_foldl (fun e g => time_stepPulse e g now) (List.range 4) _

theorem clock_stepBase (d : Dev) (off : Int) (now : Nat) : (stepBase d off now).tim.clock = now := rfl
theorem time_stepDone (d : Dev) : time (stepDone d) = time d := rfl

theorem clock_doStep (d : Dev) (off : Int) (forced : Bool) : (doStep d off forced).tim.clock = ((d.tim.clock : Int) + off).toNat := by
  have hclock (now : Nat) (x : Ev) : (raise (stepDone (stepPulses (stepBase d off now) off now)) x).tim.clock = now := by
    have ht := (time_raise (stepDone (stepPulses (stepBase d off now) off now)) x).trans
      ((time_stepDone _).trans (time_stepPulses (stepBase d off now) off now))
    exact (congrArg Prod.snd ht).trans (clock_stepBase d off now)
  exact hclock _ _

theorem tryStep_applied {off : Int} (src : Nat) (h : off.natAbs ≤ (reg d (TIM + 0x30)).toNat ∨ getB d (TIM + 0x2C) 1 = true) :
    (tryStep d off src).2 = true ∧ (tryStep d off src).1.tim.clock = ((d.tim.clock : Int) + off).toNat := by
  have hstep : tryStep d off src = (doStep d off (getB d (TIM + 0x2C) 1), true) := by
    refine if_pos ?_
    rw [Bool.or_eq_true, decide_eq_true_eq]
    exact h
  rw [hstep]
  exact ⟨rfl, clock_doStep _ _ _⟩

theorem tryStep_refused {off : Int} (src : Nat) (h : (reg d (TIM + 0x30)).toNat < off.natAbs) (hf : getB d (TIM + 0x2C) 1 = false) :
    (tryStep d off src).2 = false ∧ (tryStep d off src).1.tim.clock = d.tim.clock := by
  have hno : ¬ (decide (off.natAbs ≤ (reg d (TIM + 0x30)).toNat) || getB d (TIM + 0x2C) 1) = true := by
    rw [hf, decide_eq_false (Nat.not_le.mpr h)]
    decide
  unfold tryStep
  dsimp only
  rw [if_neg hno]
  have hdue (e : Dev) (x : Ev) (ht : e.tim.clock = d.tim.clock) (b : Bool) (y : Dev) (hy : y.tim.clock = d.tim.clock) :
      (if b = true then (raise e x, false) else (y, false)).2 = false ∧
        (if b = true then (raise e x, false) else (y, false)).1.tim.clock = d.tim.clock := by
    cases b with
    | false => exact ⟨rfl, hy⟩
    | true => exact ⟨rfl, (congrArg TimSt.clock (raise_tim e x)).trans ht⟩
  refine hdue _ _ ?_ _ _ ?_ <;> rfl

theorem landStep_crosses (env : BoundaryEnv) (hr : d.tim.running = true) (h : strideStart (d.tim.stride + 1) ≤ d.tim.clock) :
    landStep env d = strideBoundary d env := if_pos (by rw [hr, decide_eq_true h]; rfl)

theorem landStep_within (env : BoundaryEnv) (h : d.tim.running = false ∨ d.tim.clock < strideStart (d.tim.stride + 1)) :
    landStep env d = d := by
  refine if_neg ?_
  rw [Bool.and_eq_true, decide_eq_true_eq]
  rintro ⟨hr, hc⟩
  rcases h with h | h
  · exact Bool.false_ne_true (h.symm.trans hr)
  · omega

/-- A write that applies a step. -/
theorem writeStepCtrl_apply (d : Dev) (v : Word) : writeStepCtrl d (v ||| 1) =
    (let d := if bit v 1 then putB d (TIM + 0x2C) 1 true else d
     if timMode d = 1 then (tryStep d (reg d (TIM + 0x28) ++ reg d (TIM + 0x24)).toInt 1).1 else putB d TIM 5 true) := by
  have h0 : bit (v ||| 1) 0 = true := by
    rw [bit_eq_getLsbD, BitVec.getLsbD_or, show BitVec.getLsbD (1 : Word) 0 = true from rfl, Bool.or_true]
  have h1 : bit (v ||| 1) 1 = bit v 1 := by
    rw [bit_eq_getLsbD, BitVec.getLsbD_or, show BitVec.getLsbD (1 : Word) 1 = false from rfl, Bool.or_false, bit_eq_getLsbD]
  unfold writeStepCtrl
  rw [h0, h1]
  dsimp only
  rw [if_neg (by decide)]
  generalize (if bit v 1 = true then putB d (TIM + 0x2C) 1 true else d) = e
  by_cases hm : timMode e = 1
  · rw [if_pos hm, if_neg (by rw [hm]; decide)]
  · rw [if_neg hm, if_pos (bne_iff_ne.mpr hm)]

/-- A write that only forces. -/
theorem writeStepCtrl_force {v : Word} (hv : bit v 0 = false) : writeStepCtrl d (v ||| 2) = putB d (TIM + 0x2C) 1 true := by
  have h0 : bit (v ||| 2) 0 = false := by
    rw [bit_eq_getLsbD, BitVec.getLsbD_or, show BitVec.getLsbD (2 : Word) 0 = false from rfl, Bool.or_false]
    exact hv
  have h1 : bit (v ||| 2) 1 = true := by
    rw [bit_eq_getLsbD, BitVec.getLsbD_or, show BitVec.getLsbD (2 : Word) 1 = true from rfl, Bool.or_true]
  unfold writeStepCtrl
  rw [h0, h1]
  rfl

/-! ### The clock (R302, R304) -/

theorem nsParts_pos : 0 < nsParts := by decide

/-- A cycle of the time base adds its increment, and nothing at the end of the stride. -/
theorem tick_adds (d : Dev) :
    (timely d (d.tim.clock + (d.tim.frac + increment d) / nsParts) = true →
      (tick d).tim.clock * nsParts + (tick d).tim.frac = d.tim.clock * nsParts + d.tim.frac + increment d ∧ (tick d).tim.frac < nsParts) ∧
    (timely d (d.tim.clock + (d.tim.frac + increment d) / nsParts) = false → tick d = d) ∧
    (increment d : Int) * 4 = max 0 (5 * 2 ^ 32 * (256000000000 + (reg d (TIM + 0x20)).toInt)) := by
  refine ⟨fun h => ?_, fun h => ?_, ?_⟩
  · have ht : tick d = { d with tim := { d.tim with clock := d.tim.clock + (d.tim.frac + increment d) / nsParts,
                                                    frac := (d.tim.frac + increment d) % nsParts } } := if_pos h
    rw [ht]
    refine ⟨?_, Nat.mod_lt _ nsParts_pos⟩
    have hdiv := Nat.div_add_mod' (d.tim.frac + increment d) nsParts
    dsimp only
    rw [Nat.add_mul]
    omega
  · exact if_neg (by rw [h]; decide)
  · unfold increment
    omega

/-- A read of a time that the clock can reach. -/
theorem readAt_timely {t : Nat} (h : timely d t = true) : readAt d t = advance d t := if_pos h

end Sys2Proof.Machine
end

section
/-! Network time: PTP, holdover, transmit time-stamps and pulses (R307 to R318). -/
namespace Sys2Proof.Machine
variable {s : State} {d : Dev} {p g t n : Nat}

/-! ### PTP messages (R309) -/

/-- The servo with its oldest frame taken. -/
def ptpTaken (d : Dev) (ks : List PtpIn) : Dev := { d with tim := { d.tim with ptp := ks } }

/-- The oldest frame, with strides running: nothing where it is not accepted. -/
theorem ptpMessage_front {k : PtpIn} {ks : List PtpIn} (m : Ptp) (hq : d.tim.ptp = k :: ks) (hr : d.tim.running = true) :
    (ptpAccepts (ptpTaken d ks) k = none → ptpMessage d m = ptpTaken d ks) ∧
    ∀ bs, ptpAccepts (ptpTaken d ks) k = some bs →
      ((ptpType bs = 0 ∨ ptpType bs = 8) → ptpMessage d m = ptpSync (ptpTaken d ks) k.port bs m) ∧
      ∀ p, ptpType bs = 11 → m.master = some p → ptpMessage d m = ptpAnnounce (ptpTaken d ks) p.val := by
  have hrun : ¬ (!(ptpTaken d ks).tim.running) = true := by
    rw [show (ptpTaken d ks).tim.running = d.tim.running from rfl, hr]
    decide
  unfold ptpTaken at *
  refine ⟨fun hacc => ?_, fun bs hacc => ⟨fun ht => ?_, fun p ht hm => ?_⟩⟩
  · rw [ptpMessage, hq]
    refine (if_neg hrun).trans ?_
    rw [hacc]
  · rw [ptpMessage, hq]
    refine (if_neg hrun).trans ?_
    rw [hacc]
    dsimp only
    rcases ht with ht | ht
    · rw [ht]
      rfl
    · rw [ht]
      rfl
  · rw [ptpMessage, hq]
    refine (if_neg hrun).trans ?_
    rw [hacc]
    dsimp only
    rw [ht, hm]
    rfl

theorem ptpAnnounce_taken (hport : getB d (TIM + 4) (16 + p) = true) (hact : isActive d p = true) :
    ptpAnnounce d p = (
      let e := setF d TIM 8 3 p
      let e := if getF d TIM 8 3 = p then e else raise e (evDev 0xB05 0 [(1, getF d TIM 8 3), (1, p)])
      if timMode e = 0 ∧ (servo e = 0 ∨ servo e = 3) then setServo e 1 else e) := by
  refine (if_neg (by rw [hport, hact]; decide)).trans ?_
  dsimp only
  simp only [Bool.and_eq_true, Bool.or_eq_true, beq_iff_eq, decide_eq_true_eq]

section
variable {bs : List Byte} {m : Ptp}

theorem ptpSync_waits (hp : p = getF d TIM 8 3) (ht : ptpType bs = 0) (h2 : (nth bs 6 0).toNat.testBit 1 = true) :
    ptpSync d p bs m = { d with tim := { d.tim with syncWait := some (p, beNat (slice bs 30 2)) } } := by
  refine (if_neg (by rw [← hp]; simp)).trans ((if_pos ht).trans (if_pos h2))

theorem ptpSync_oneStep (hp : p = getF d TIM 8 3) (ht : ptpType bs = 0) (h2 : (nth bs 6 0).toNat.testBit 1 = false) :
    ptpSync d p bs m = ptpExchange d p m := by
  refine (if_neg (by rw [← hp]; simp)).trans ((if_pos ht).trans (if_neg (by rw [h2]; decide)))

theorem ptpSync_followUp (hp : p = getF d TIM 8 3) (ht : ptpType bs = 8) (hw : d.tim.syncWait = some (p, beNat (slice bs 30 2))) :
    ptpSync d p bs m = ptpExchange { d with tim := { d.tim with syncWait := none } } p m := by
  refine (if_neg (by rw [← hp]; simp)).trans ((if_neg (by rw [ht]; decide)).trans (if_pos (by rw [hw]; exact beq_self_eq_true _)))

theorem ptpExchange_quiet (hd : m.delayReq = none) : ptpExchange d p m =
    (let d := showOffset d m.offset
     if timMode d = 0 ∧ (servo d = 1 ∨ servo d = 2) then servoSync d p m.offset m.freq m.step else d) := by
  unfold ptpExchange
  rw [hd]
  simp only [Bool.and_eq_true, Bool.or_eq_true, beq_iff_eq, decide_eq_true_eq]

/-- What an accepted frame meets. -/
theorem ptpAccepts_some {k : PtpIn} (h : ptpAccepts d k = some bs) :
    featOn d 0 (if getB d (TIM + 4) 2 then 145 else 144) = true ∧ getB d (TIM + 4) (16 + k.port) = true ∧ isActive d k.port = true ∧
      (nth bs 4 0).toNat = getF d (TIM + 4) 8 8 ∧ ptpRate d bs = true := by
  have hopen : ¬ (!featOn d 0 (if getB d (TIM + 4) 2 then 145 else 144) || !getB d (TIM + 4) (16 + k.port) || !isActive d k.port) = true := by
    intro hc
    rw [ptpAccepts, if_pos hc] at h
    cases h
  rw [ptpAccepts, if_neg hopen] at h
  simp only [Bool.or_eq_true, Bool.not_eq_true', not_or, Bool.not_eq_false] at hopen
  obtain ⟨⟨hfeat, hport⟩, hact⟩ := hopen
  split at h
  · cases h
  · split at h
    · next hmsg =>
      cases h
      simp only [Bool.and_eq_true] at hmsg
      obtain ⟨⟨⟨-, -⟩, hdom⟩, hrate⟩ := hmsg
      unfold ptpDomain at hdom
      rw [Bool.and_eq_true, beq_iff_eq] at hdom
      exact ⟨hfeat, hport, hact, hdom.1, hrate⟩
    · cases h

end

/-! ### Holdover and FREERUN (R308) -/

theorem holdover_locked (lost : Bool) (h : servo d = 2) : holdover d lost = (
    let e := setServo d 3
    raise (setReg e (TIM + 0x20) (meanFreq e)) (evDev 0xB03 1 [(1, lost.toNat), (4, (meanFreq e).toNat)])) :=
  if_neg (by rw [h]; decide)

theorem enterFreerun_held (h : servo d = 3) : enterFreerun d = raise (setServo d 0) (evDev 0xB04 1 [(1, 3)]) := by
  unfold enterFreerun
  dsimp only
  rw [h]
  rfl

/-! ### Transmit time-stamps (R312) -/

/-- A queue of time-stamps with its oldest entry taken. -/
def txtsTaken (d : Dev) (p : Nat) (e : TxTs) (es : List TxTs) : Dev :=
  let a := TIM + 0x200 + 0x10 * p
  let d := { d with tim := { d.tim with txts := upd d.tim.txts p es } }
  let d := setF d a 0 6 es.length
  let d := setReg (setReg d (a + 8) (wd e.stamp)) (a + 0xC) (wd (e.stamp / 2 ^ 32))
  setReg d (a + 4) (wd (e.tsId + 0x10000 + 0x20000 * e.sent.toNat))

theorem txtsPop_cons {e : TxTs} {es : List TxTs} (h : nth d.tim.txts p [] = e :: es) :
    txtsPop d p = (wd (e.tsId + 0x10000 + 0x20000 * e.sent.toNat), txtsTaken d p e es) := by
  unfold txtsPop
  rw [h]
  rfl

theorem txts_stamp_lo (p : Nat) : TIM + 0x208 + 0x10 * p = TIM + 0x200 + 0x10 * p + 8 := by omega
theorem txts_stamp_hi (p : Nat) : TIM + 0x20C + 0x10 * p = TIM + 0x200 + 0x10 * p + 0xC := by omega

theorem txtsPop_nil (h : nth d.tim.txts p [] = []) :
    txtsPop d p = (0, setReg (setReg d (TIM + 0x208 + 0x10 * p) 0) (TIM + 0x20C + 0x10 * p) 0) := by
  unfold txtsPop
  rw [h, txts_stamp_lo, txts_stamp_hi]

theorem txtsTaken_regs (w : spWf d.regs = true) (p : Nat) (e : TxTs) (es : List TxTs) :
    reg (txtsTaken d p e es) (TIM + 0x208 + 0x10 * p) = wd e.stamp ∧
    reg (txtsTaken d p e es) (TIM + 0x20C + 0x10 * p) = wd (e.stamp / 2 ^ 32) ∧
    getF (txtsTaken d p e es) (TIM + 0x200 + 0x10 * p) 0 6 = es.length % 64 := by
  have w0 : spWf { d with tim := { d.tim with txts := upd d.tim.txts p es } }.regs = true := w
  have w1 := setF_wf w0 (TIM + 0x200 + 0x10 * p) 0 6 es.length
  have w2 := setReg_wf w1 (TIM + 0x200 + 0x10 * p + 8) (wd e.stamp)
  unfold txtsTaken
  dsimp only
  refine ⟨?_, ?_, ?_⟩
  · rw [txts_stamp_lo, reg_setReg_ne _ (by omega), reg_setReg_ne _ (by omega), reg_setReg_same w1]
  · rw [txts_stamp_hi, reg_setReg_ne _ (by omega), reg_setReg_same w2]
  · unfold getF
    rw [reg_setReg_ne _ (by omega), reg_setReg_ne _ (by omega), reg_setReg_ne _ (by omega), reg_setF_same w0]
    exact fld_setFld_same _ _ _ _ (by decide)

/-! ### Pulses (R314 to R318) -/

/-- The value of TIM_PULSE_CFG that a write of arm leaves: mode and invert as written, the squelch rule 3 as 2, the sticky bits kept or cleared. -/
def pulseCfgNew (old v : Word) : Word :=
  let sq := if fld v 4 2 = 3 then 2 else fld v 4 2
  let new := setFld ((v &&& 0xFFFF0007) ||| (old &&& 0x300)) 4 2 sq
  if bit v 9 then setBit new 9 false else new

theorem getLsbD_pulseCfgNew (old v : Word) {i : Nat} (hi : i < 3) : (pulseCfgNew old v).getLsbD i = v.getLsbD i := by
  have hbase : ((v &&& 0xFFFF0007) ||| (old &&& 0x300)).getLsbD i = v.getLsbD i := by
    have hmask : (0xFFFF0007 : Word).getLsbD i = true ∧ (0x300 : Word).getLsbD i = false := by
      match i, hi with
      | 0, _ => decide
      | 1, _ => decide
      | 2, _ => decide
    rw [BitVec.getLsbD_or, BitVec.getLsbD_and, BitVec.getLsbD_and, hmask.1, hmask.2, Bool.and_true, Bool.and_false, Bool.or_false]
  have hnew (sq : Nat) : (setFld ((v &&& 0xFFFF0007) ||| (old &&& 0x300)) 4 2 sq).getLsbD i = v.getLsbD i := by
    rw [getLsbD_setFld _ _ _ _ _ (by omega), if_neg (by omega), hbase]
  unfold pulseCfgNew
  dsimp only
  split
  · rw [setBit, getLsbD_setFld _ _ _ _ _ (by omega), if_neg (by omega), hnew]
  · exact hnew _

theorem getLsbD_withArm (v : Word) {i : Nat} (hi : i < 3) : (v ||| 0x100).getLsbD i = v.getLsbD i := by
  have hbit : (0x100 : Word).getLsbD i = false := by
    match i, hi with
    | 0, _ => decide
    | 1, _ => decide
    | 2, _ => decide
  rw [BitVec.getLsbD_or, hbit, Bool.or_false]

/-- A generator's registers as a write of arm leaves them. -/
def pulseWritten (d : Dev) (g : Nat) (v : Word) : Dev :=
  applySquelch (setReg d (pulseCfg g) (pulseCfgNew (reg d (pulseCfg g)) v))

theorem reg_pulseWritten (w : spWf d.regs = true) (g : Nat) (v : Word) :
    reg (pulseWritten d g v) (pulseCfg g) = pulseCfgNew (reg d (pulseCfg g)) v := by
  rw [pulseWritten, reg_applySquelch, reg_setReg_same w]

theorem pulseRegs_written (w : spWf d.regs = true) (g : Nat) (v : Word) :
    (pulseRegs (pulseWritten d g (v ||| 0x100)) g).mode = fld v 0 2 ∧ (pulseRegs (pulseWritten d g (v ||| 0x100)) g).invert = bit v 2 := by
  have hbits {i : Nat} (hi : i < 3) : (reg (pulseWritten d g (v ||| 0x100)) (pulseCfg g)).getLsbD i = v.getLsbD i := by
    rw [reg_pulseWritten w, getLsbD_pulseCfgNew _ _ hi, getLsbD_withArm v hi]
  refine ⟨?_, hbits (by decide)⟩
  refine Nat.eq_of_testBit_eq fun i => ?_
  show (fld (reg (pulseWritten d g (v ||| 0x100)) (pulseCfg g)) 0 2).testBit i = _
  rw [testBit_fld, testBit_fld]
  by_cases hi : i < 2
  · rw [hbits (by omega)]
  · rw [decide_eq_false hi, Bool.false_and, Bool.false_and]

/-- A programme of a write of arm is armed or refused. -/
theorem writePulseCfg_arms (h : featOn d 0 23 = true) (g : Nat) (v : Word) (t : Nat) :
    (∀ r, pulseBad (pulseRegs (pulseWritten d g (v ||| 0x100)) g) t = some r → writePulseCfg d g (v ||| 0x100) t =
      raise (putB (pulseWritten d g (v ||| 0x100)) (pulseCfg g) 9 true) (evDev 0xB07 1 [(1, g), (1, r)])) ∧
    (pulseBad (pulseRegs (pulseWritten d g (v ||| 0x100)) g) t = none → writePulseCfg d g (v ||| 0x100) t =
      putPulse (putB (pulseWritten d g (v ||| 0x100)) (pulseCfg g) 8 true) g
        { getPulse (pulseWritten d g (v ||| 0x100)) g with
          pending := some (pulseRegs (pulseWritten d g (v ||| 0x100)) g, takeoverAt (pulseRegs (pulseWritten d g (v ||| 0x100)) g) t) }) := by
  have harm : bit (v ||| 0x100) 8 = true := by
    rw [bit_eq_getLsbD, BitVec.getLsbD_or, show BitVec.getLsbD (0x100 : Word) 8 = true from rfl, Bool.or_true]
  have hpulse : ¬ (!bit (v ||| 0x100) 8) = true := by rw [harm]; decide
  have hfeat : ¬ (!featOn d 0 23) = true := by rw [h]; decide
  unfold pulseWritten pulseCfgNew writePulseCfg
  dsimp only
  rw [if_neg hfeat, if_neg hpulse]
  refine ⟨fun r hr => ?_, fun hr => ?_⟩
  · rw [hr]
  · rw [hr]

theorem pulseEdge_emits (hn : (getPulse d g).next = some n) (ht : timely d t = true) (hmax : t = max n d.tim.clock)
    (hr : replacedBy (getPulse d g) t = false) : pulseEdge d g t = (
      let x := getPulse d g
      startPulse (putPulse (advance d t) g { x with next := if x.cur.mode = 2 then some (n + x.cur.period) else none }) g n t (10 * x.cur.width)) := by
  have hgo : ¬ (!timely d t || t != max n d.tim.clock || replacedBy (getPulse d g) t) = true := by
    rw [ht, hr, ← hmax, bne_self_eq_false]
    decide
  unfold pulseEdge
  dsimp only
  rw [hn]
  exact if_neg hgo

theorem pulseEdge_replaced (hr : replacedBy (getPulse d g) t = true) : pulseEdge d g t = d := by
  unfold pulseEdge
  dsimp only
  split
  · rfl
  · exact if_pos (by rw [hr, Bool.or_true])

theorem pulseWidthEnd_due (hn : (getPulse d g).widthEnd = some n) (ht : timely d (max n d.tim.clock) = true) :
    pulseWidthEnd d g = endPulse (advance d (max n d.tim.clock)) g (max n d.tim.clock - edgeLead d g) := by
  unfold pulseWidthEnd
  rw [hn]
  exact if_pos ht

/-- A generator with its pending programme `x` in force since `n`, at time `t`. -/
def pulseTaken (d : Dev) (g t : Nat) (x : PulseProg) (n : Nat) : Dev :=
  let y := getPulse d g
  let d := advance d t
  let k := firstAhead n x.period t
  let d := if x.mode = 2 && !squelched d g then cnt d (pulseCfg g + 0x14) k.2 else d
  let d := putPulse d g { y with cur := x, pending := none, lastEdge := none, first := n,
                                 next := if x.mode = 1 then some n else if x.mode = 2 then some k.1 else none }
  putB d (pulseCfg g) 8 false

theorem pulseTakeover_due {x : PulseProg} (hp : (getPulse d g).pending = some (x, n)) (ht : timely d t = true) (hmax : t = max n d.tim.clock) :
    pulseTakeover d g t = if ((getPulse d g).widthEnd.isNone && restLevel (advance d t) g != restLevel (pulseTaken d g t x n) g) = true then
      emitOut (pulseTaken d g t x n) (.pin (pinName g) (restLevel (pulseTaken d g t x n) g) t) else pulseTaken d g t x n := by
  have hgo : ¬ (!timely d t || t != max n d.tim.clock) = true := by
    rw [ht, ← hmax, bne_self_eq_false]
    decide
  unfold pulseTakeover
  dsimp only
  rw [hp]
  exact if_neg hgo

theorem advance_pulses (d : Dev) (t : Nat) : (advance d t).tim.pulses = d.tim.pulses := by unfold advance; split <;> rfl

theorem pulseTaken_pulses (d : Dev) (g t : Nat) (x : PulseProg) (n : Nat) : (pulseTaken d g t x n).tim.pulses =
    upd d.tim.pulses g { getPulse d g with cur := x, pending := none,
                                           next := if x.mode = 1 then some n else if x.mode = 2 then some (firstAhead n x.period t).1 else none,
                                           lastEdge := none, first := n } := by
  unfold pulseTaken
  dsimp only
  split
  · exact congrArg (upd · g _) (advance_pulses d t)
  · exact congrArg (upd · g _) (advance_pulses d t)

theorem pulseTaken_clears (w : spWf d.regs = true) (g t : Nat) (x : PulseProg) (n : Nat) : getB (pulseTaken d g t x n) (pulseCfg g) 8 = false := by
  have wa : spWf (advance d t).regs = true := by rw [advance_regs]; exact w
  refine getB_putB_same ?_ (by decide) false
  show spWf (if _ then _ else _ : Dev).regs = true
  split
  · exact setReg_wf wa _ _
  · exact wa

/-- Settles O56: each command's rule above, over the clock's own lemmas. -/
theorem networkTimeCompletes : Obligations.NetworkTimeCompletes := by
  unfold Obligations.NetworkTimeCompletes
  refine ⟨?_, tick_adds, ?_, ?_, ?_, ?_, ?_, ?_, ?_, ?_, ?_, ?_, ?_, ?_, ?_, ?_, ?_, ?_, ?_, ?_, ?_, ?_, ?_, ?_, ?_⟩
  · intro s t ht
    have hc := advance_clock ht
    refine ⟨congrArg (nextWith s) ?_, congrArg (nextWith s) ?_⟩
    · dsimp only
      rw [readAt_timely ht, timeRead, hc]
      rfl
    · dsimp only
      rw [readAt_timely ht, timeRead, hc]
      rfl
  · intro s v w
    exact ⟨rfl, timMode_writeTimCtrl w v, writeTimCtrl_changes w⟩
  · intro s v
    rfl
  · intro d v lim h0 h1 w
    exact setFreq_within h0 h1 w
  · intro s v env
    exact congrArg (fun e => nextWith s (landStep env e)) (writeStepCtrl_apply s.dev v)
  · intro d env
    exact ⟨landStep_crosses env, landStep_within env⟩
  · intro d off src h
    exact tryStep_applied src h
  · intro d off src h hf
    exact tryStep_refused src h hf
  · intro s v env hv
    exact congrArg (fun e => nextWith s (landStep env e)) (writeStepCtrl_force hv)
  · intro s m env hq
    refine congrArg (fun e => nextWith s (landStep env e)) ?_
    rw [ptpMessage, hq]
  · intro s m env k ks hq hr
    obtain ⟨hnone, hsome⟩ := ptpMessage_front m hq hr
    have hland {e : Dev} (h : ptpMessage s.dev m = e) : exec (.ptpMessage m env) s = nextWith s (landStep env e) :=
      congrArg (fun e => nextWith s (landStep env e)) h
    refine ⟨fun hacc => hland (hnone hacc), fun bs hacc => ?_⟩
    obtain ⟨hsync, hann⟩ := hsome bs hacc
    refine ⟨fun p ht hm hport hact => ?_, fun ht hp => ⟨fun h2 => ?_, fun h2 => ?_⟩, fun ht hp hw => ?_⟩
    · exact hland ((hann p ht hm).trans (ptpAnnounce_taken hport hact))
    · exact hland ((hsync (.inl ht)).trans (ptpSync_waits hp ht h2))
    · exact hland ((hsync (.inl ht)).trans (ptpSync_oneStep hp ht h2))
    · exact hland ((hsync (.inr ht)).trans (ptpSync_followUp hp ht hw))
  · intro d p m hd
    exact ptpExchange_quiet hd
  · intro d k bs h
    exact ptpAccepts_some h
  · intro s lost h
    exact congrArg (nextWith s) (holdover_locked lost h)
  · intro s h hdue
    refine congrArg (nextWith s) ((if_pos ?_).trans (enterFreerun_held h))
    rw [h, decide_eq_true hdue]
    rfl
  · intro s p e es h
    refine ⟨txtsTaken s.dev p e es, ?_, rfl, fun w => txtsTaken_regs w p e es⟩
    exact congrArg (fun r : Word × Dev => nextWith s (emitOut r.2 (.readData 0 (TIM + 0x204 + 0x10 * p) r.1))) (txtsPop_cons h)
  · intro s p h
    exact congrArg (fun r : Word × Dev => nextWith s (emitOut r.2 (.readData 0 (TIM + 0x204 + 0x10 * p) r.1))) (txtsPop_nil h)
  · intro s g v t ht hf
    have hfa : featOn (advance s.dev t) 0 23 = true := by rw [featOn, getB, reg_advance]; exact hf
    have hc := advance_clock ht
    obtain ⟨hbad, hgood⟩ := writePulseCfg_arms hfa g v t
    have hrun : exec (.pulseArm g v t) s = nextWith s (writePulseCfg (advance s.dev t) g (v ||| 0x100) t) := by
      refine congrArg (nextWith s) ?_
      dsimp only
      rw [readAt_timely ht, hc]
    refine ⟨pulseWritten (advance s.dev t) g (v ||| 0x100), ?_, fun w => ?_⟩
    · rw [hrun]
      split
      · next r hr => rw [hbad r hr]
      · next hr => rw [hgood hr]
    · have wa : spWf (advance s.dev t).regs = true := by rw [advance_regs]; exact w
      obtain ⟨hmode, hinv⟩ := pulseRegs_written wa g v
      refine ⟨hmode, hinv, ?_⟩
      exact (congrArg Prod.snd (time_applySquelch _)).trans hc
  · intro s g t n hn ht hmax hr
    exact congrArg (nextWith s) (pulseEdge_emits hn ht hmax hr)
  · intro s g t hr
    exact congrArg (nextWith s) (pulseEdge_replaced hr)
  · intro d g n t w h
    exact if_neg (by rw [h]; decide)
  · intro d g n t w h
    exact if_pos h
  · intro s g n hn ht
    exact congrArg (nextWith s) (pulseWidthEnd_due hn ht)
  · intro s g t n x hp ht hmax
    exact ⟨pulseTaken s.dev g t x n, _, congrArg (nextWith s) (pulseTakeover_due hp ht hmax), pulseTaken_pulses _ _ _ _ _,
      fun w => pulseTaken_clears w _ _ _ _⟩

end Sys2Proof.Machine
end

section
/-! HBM command slots, refresh, scrub and retraining (R326 to R336), Paddock rounds (R341, R342) and DMA descriptors (R346 to R350). -/
namespace Sys2Proof.Machine
variable {s : State} {d : Dev} {h pc c : Nat}

/-! ### Command slots (R326) -/

/-- The device once what arrived at a pseudo-channel has entered and what waited has aged. -/
def slotOpened (d : Dev) (h pc : Nat) (asks : List HbmAsk) (cycles : Nat) : Dev :=
  asks.foldl (fun d a => enterAsk d h pc a)
    (putPc d { getPc d h pc with reads := (getPc d h pc).reads.map fun r => { r with age := r.age + cycles } })

theorem mode_enterAsks (asks : List HbmAsk) (d : Dev) (h pc : Nat) :
    (asks.foldl (fun d a => enterAsk d h pc a) d).sys.mode = d.sys.mode :=
  (Only.foldl (e := (· ≠ .mode)) (Only.refl d) fun _ _ hd =>
    enterAsk_only (by decide) (by decide) (by decide) (by decide) hd).mode (by decide)

theorem halted_slotOpened (hh : halted d = false) (h pc : Nat) (asks : List HbmAsk) (cycles : Nat) :
    halted (slotOpened d h pc asks cycles) = false := by
  unfold slotOpened halted
  rw [mode_enterAsks]
  exact hh

section
variable {asks : List HbmAsk} {cycles : Nat}

/-- A command slot of a stack that is there, outside HALT-SAFE. -/
structure SlotRuns (d : Dev) (h : Nat) : Prop where
  on : getF d MEM 0 3 = 2
  present : h < d.variant.stacks
  live : halted d = false

theorem commandSlot_opened (r : SlotRuns d h) : commandSlot d h pc asks cycles =
    if (!hbmServes (slotOpened d h pc asks cycles) h pc) = true then slotOpened d h pc asks cycles
    else ((refreshStep (getPc (slotOpened d h pc asks cycles) h pc)).map (putPc (slotOpened d h pc asks cycles))).getD
      (((pickReq (slotOpened d h pc asks cycles) (getPc (slotOpened d h pc asks cycles) h pc)).map
        (serveReq (slotOpened d h pc asks cycles) (getPc (slotOpened d h pc asks cycles) h pc))).getD (slotOpened d h pc asks cycles)) := by
  have hgo : ¬ (getF d MEM 0 3 != 2 || decide (h ≥ d.variant.stacks)) = true := by
    rw [r.on, decide_eq_false (Nat.not_le.mpr r.present)]
    decide
  have hlive (y : HbmPc) : ¬ halted (putPc d y) = true := by
    rw [show halted (putPc d y) = halted d from rfl, r.live]
    decide
  have hopen : ¬ halted (slotOpened d h pc asks cycles) = true := by
    rw [halted_slotOpened r.live]
    decide
  unfold commandSlot
  rw [if_neg hgo]
  dsimp only
  rw [if_neg (hlive _)]
  change (if (!hbmServes (slotOpened d h pc asks cycles) h pc) = true then slotOpened d h pc asks cycles else _) = _
  by_cases hs : (!hbmServes (slotOpened d h pc asks cycles) h pc) = true
  · rw [if_pos hs, if_pos hs]
  · rw [if_neg hs, if_neg hs]
    unfold slotOpened at *
    cases refreshStep (getPc _ h pc) with
    | some y => rfl
    | none =>
      dsimp only
      rw [if_neg hopen]
      cases pickReq _ _ <;> rfl

theorem commandSlot_refreshes {z : HbmPc} (r : SlotRuns d h) (hs : hbmServes (slotOpened d h pc asks cycles) h pc = true)
    (hz : refreshStep (getPc (slotOpened d h pc asks cycles) h pc) = some z) :
    commandSlot d h pc asks cycles = putPc (slotOpened d h pc asks cycles) z := by
  rw [commandSlot_opened r, if_neg (by rw [hs]; decide), hz]
  rfl

theorem commandSlot_picks (r : SlotRuns d h) (hs : hbmServes (slotOpened d h pc asks cycles) h pc = true)
    (hz : refreshStep (getPc (slotOpened d h pc asks cycles) h pc) = none) :
    commandSlot d h pc asks cycles = ((pickReq (slotOpened d h pc asks cycles) (getPc (slotOpened d h pc asks cycles) h pc)).map
      (serveReq (slotOpened d h pc asks cycles) (getPc (slotOpened d h pc asks cycles) h pc))).getD (slotOpened d h pc asks cycles) := by
  rw [commandSlot_opened r, if_neg (by rw [hs]; decide), hz]
  rfl

theorem commandSlot_waits (r : SlotRuns d h) (hs : hbmServes (slotOpened d h pc asks cycles) h pc = false) :
    commandSlot d h pc asks cycles = slotOpened d h pc asks cycles := by
  rw [commandSlot_opened r, if_pos (by rw [hs]; rfl)]

end

/-! ### The scheduler's choice -/

theorem oldest_mem {l : List HbmReq} {r : HbmReq} (hr : oldest l = some r) : r ∈ l := by
  induction l with
  | nil => cases hr
  | cons x l ih =>
    unfold oldest at hr
    split at hr
    · cases hr
      exact List.mem_cons_self
    · next o ho =>
      split at hr
      · cases hr
        exact List.mem_cons_of_mem _ (ih ho)
      · cases hr
        exact List.mem_cons_self

/-- The first answer of two that both meet a condition meets it. -/
theorem orElse_mem {P : HbmReq → Prop} {x : Option HbmReq} {y : Unit → Option HbmReq} (hx : ∀ r, x = some r → P r)
    (hy : ∀ r, y () = some r → P r) (r : HbmReq) (hr : x.orElse y = some r) : P r := by
  cases x with
  | some z => exact hx r hr
  | none => exact hy r hr

/-- A request that waits and need not wait for another. -/
def mayServe (x : HbmPc) (r : HbmReq) : Prop := (r ∈ x.reads ∨ r ∈ x.writes) ∧ mustWait x r = false

theorem mayServe_reads {x : HbmPc} {r : HbmReq} (hr : r ∈ x.reads.filter fun r => !mustWait x r) : mayServe x r := by
  rw [List.mem_filter, Bool.not_eq_true'] at hr
  exact ⟨.inl hr.1, hr.2⟩

theorem mayServe_writes {x : HbmPc} {r : HbmReq} (hr : r ∈ x.writes.filter fun r => !mustWait x r) : mayServe x r := by
  rw [List.mem_filter, Bool.not_eq_true'] at hr
  exact ⟨.inr hr.1, hr.2⟩

theorem mayServe_oldest {x : HbmPc} {l : List HbmReq} (hl : ∀ r ∈ l, mayServe x r) (r : HbmReq) (hr : oldest l = some r) : mayServe x r :=
  hl r (oldest_mem hr)

theorem mayServe_oldest_filter {x : HbmPc} {l : List HbmReq} (hl : ∀ r ∈ l, mayServe x r) (f : HbmReq → Bool) (r : HbmReq)
    (hr : oldest (l.filter f) = some r) : mayServe x r :=
  hl r (List.mem_of_mem_filter (oldest_mem hr))

theorem mayServe_ite {x : HbmPc} {l m : List HbmReq} (hl : ∀ r ∈ l, mayServe x r) (hm : ∀ r ∈ m, mayServe x r) (b : Bool) :
    ∀ r ∈ (if b then l else m), mayServe x r := by
  cases b with
  | true => exact hl
  | false => exact hm

theorem pickReq_mayServe (d : Dev) (x : HbmPc) (r : HbmReq) (hr : pickReq d x = some r) : mayServe x r := by
  have hrs : ∀ r ∈ x.reads.filter (fun r => !mustWait x r), mayServe x r := fun _ => mayServe_reads
  have hws : ∀ r ∈ x.writes.filter (fun r => !mustWait x r), mayServe x r := fun _ => mayServe_writes
  have hfirst := mayServe_ite hws hrs (x.drain || x.reads.isEmpty)
  have hsecond := mayServe_ite hrs hws (x.drain || x.reads.isEmpty)
  have hlast (r : HbmReq) : (if (x.drain || x.reads.isEmpty) = true
      then (oldest (x.writes.filter fun r => !mustWait x r)).orElse fun _ => oldest (x.reads.filter fun r => !mustWait x r)
      else oldest (x.reads.filter (fun r => !mustWait x r) ++ x.writes.filter fun r => !mustWait x r)) = some r → mayServe x r := by
    split
    · exact orElse_mem (mayServe_oldest hws) (mayServe_oldest hrs) r
    · exact mayServe_oldest (fun r hr => (List.mem_append.mp hr).elim (hrs r) (hws r)) r
  unfold pickReq at hr
  exact orElse_mem (mayServe_oldest_filter hrs _) (orElse_mem (mayServe_oldest_filter hfirst _) (orElse_mem (mayServe_oldest_filter hfirst _)
    (orElse_mem (mayServe_oldest_filter hsecond _) (orElse_mem (mayServe_oldest_filter hsecond _) hlast)))) r hr

/-! ### Scrub and retraining -/

/-- The patrol scrub of an address runs. -/
structure Scrubs (d : Dev) (a : Nat) : Prop where
  enabled : getB d (MEM + 4) 24 = true
  on : getF d MEM 0 3 = 2
  awake : d.mem.selfRefresh = false
  live : halted d = false
  mapped : a < hbmSize d.variant
  free : retraining d (hbmPlace d a).h (hbmPlace d a).c = false
  sound : a / 64 ∉ d.mem.hbmBad

theorem scrub_runs {a : Nat} (r : Scrubs d a) (result : Nat) : scrub d a result =
    if result = 2 then hbmUe { d with mem := { d.mem with hbmBad := (a / 64) :: d.mem.hbmBad } } (a / 64) 1
    else if result = 1 then cnt (hbmCe d (a / 64)) (MEM + 0x110) 1 else d := by
  have hbad : d.mem.hbmBad.contains (a / 64) = false := by
    rw [List.contains_eq_mem, decide_eq_false r.sound]
  have hgo : ¬ (!getB d (MEM + 4) 24 || getF d MEM 0 3 != 2 || d.mem.selfRefresh || halted d || decide (hbmSize d.variant ≤ a) ||
      retraining d (hbmPlace d a).h (hbmPlace d a).c) = true := by
    rw [r.enabled, r.on, r.awake, r.live, r.free, decide_eq_false (Nat.not_le.mpr r.mapped)]
    decide
  unfold scrub
  dsimp only
  rw [if_neg hgo, hbad]
  by_cases h2 : result = 2
  · rw [if_pos h2, if_pos (by rw [decide_eq_true h2]; rfl), if_neg (by decide)]
  · rw [if_neg h2, if_neg (by rw [decide_eq_false h2]; decide)]

/-- A group's count has reached the threshold, for the first time in its period. -/
def ceRaised (d : Dev) (h c : Nat) : Dev :=
  raise { d with mem := { d.mem with ceRaised := (h, c) :: d.mem.ceRaised } }
    (evDev 0xC00 1 [(1, h), (1, c), (2, getF d (MEM + 0x400 + 0x40 * h + 4 * c) 0 16)])

/-- A group has a window, or had one in the last 1,200 strides. -/
def windowed (d : Dev) (h c : Nat) : Bool :=
  (d.mem.lastRetrain.any fun e => e.1 == h && e.2.1 == c && decide (d.tim.stride < e.2.2 + 1200)) ||
    d.mem.retrains.any fun r => r.h == h && r.c == c

theorem windowed_iff (d : Dev) (h c : Nat) : windowed d h c = true ↔
    (∃ e ∈ d.mem.lastRetrain, e.1 = h ∧ e.2.1 = c ∧ d.tim.stride < e.2.2 + 1200) ∨ ∃ r ∈ d.mem.retrains, r.h = h ∧ r.c = c := by
  simp only [windowed, Bool.or_eq_true, List.any_eq_true, Bool.and_eq_true, beq_iff_eq, decide_eq_true_eq, and_assoc]

theorem ceThresh_reaches (hp : h < d.variant.stacks) (hon : getF d MEM 0 3 = 2) (hnew : (h, c) ∉ d.mem.ceRaised)
    (hn : getF d (MEM + 0x10) 0 16 ≤ getF d (MEM + 0x400 + 0x40 * h + 4 * c) 0 16) :
    ceThresh d h c = if windowed (ceRaised d h c) h c = true then ceRaised d h c
      else { ceRaised d h c with mem := { (ceRaised d h c).mem with retrains := (ceRaised d h c).mem.retrains ++ [{ h := h, c := c }] } } := by
  have hgo : ¬ (decide (getF d (MEM + 0x400 + 0x40 * h + 4 * c) 0 16 < getF d (MEM + 0x10) 0 16) || d.mem.ceRaised.contains (h, c) ||
      decide (h ≥ d.variant.stacks) || getF d MEM 0 3 != 2) = true := by
    rw [decide_eq_false (Nat.not_lt.mpr hn), List.contains_eq_mem, decide_eq_false hnew, decide_eq_false (Nat.not_le.mpr hp), hon]
    decide
  exact if_neg hgo

section
variable {r : Retrain}

/-- The windows of the other groups. -/
def otherWindows (d : Dev) (h c : Nat) : List Retrain := d.mem.retrains.filter fun x => !(x.h == h && x.c == c)

theorem retrainStep_steps (hf : d.mem.retrains.find? (fun r => r.h == h && r.c == c && r.running) = some r) (hn : r.steps < 15) :
    retrainStep d h c = { d with mem := { d.mem with retrains := { r with steps := r.steps + 1 } :: otherWindows d h c } } := by
  unfold retrainStep
  rw [hf]
  exact if_pos (by omega)

theorem retrainStep_ends (hf : d.mem.retrains.find? (fun r => r.h == h && r.c == c && r.running) = some r) (hn : 15 ≤ r.steps) :
    retrainStep d h c = (
      let l := (h, c, d.tim.stride) :: d.mem.lastRetrain.filter fun e => !(e.1 == h && e.2.1 == c)
      let d := { d with mem := { d.mem with retrains := otherWindows d h c, lastRetrain := l } }
      raise (setF (putB d (MEM + 0x200 + 4 * h) 9 false) (MEM + 0x200 + 4 * h) 12 4 0) (evDev 0xC01 0 [(1, h), (1, c), (1, 1)])) := by
  unfold retrainStep
  rw [hf]
  exact if_neg (by omega)

end

/-! ### Paddock rounds (R341, R342) -/

theorem tieWinner_mem {last : Option Nat} {ms : List Nat} {w : Nat} (hw : tieWinner last ms = some w) : w ∈ ms := by
  unfold tieWinner at hw
  split at hw
  · exact List.min?_mem hw
  · next l =>
    cases hm : (ms.filter fun m => decide (l < m)).min? with
    | some x =>
      rw [hm] at hw
      cases hw
      exact List.mem_of_mem_filter (List.min?_mem hm)
    | none =>
      rw [hm] at hw
      exact List.min?_mem hw

/-- The quota is used and an ordinary master asks: trump masters stand back. -/
def trumpsMasked (b : PadBank) : Bool := decide (quota b ≤ b.grants) && b.reqs.any fun r => !r.trump
/-- The requests that take part in a round. -/
def takesPart (b : PadBank) : List PadReq := b.reqs.filter fun r => !(trumpsMasked b && r.trump)

theorem mem_takesPart {b : PadBank} {x : PadReq} (hx : x ∈ b.reqs) (h : b.grants < quota b ∨ x.trump = false) :
    (trumpsMasked b && x.trump) = false ∧ x ∈ takesPart b := by
  have hm : (trumpsMasked b && x.trump) = false := by
    rcases h with h | h
    · rw [trumpsMasked, decide_eq_false (Nat.not_le.mpr h)]
      rfl
    · rw [h, Bool.and_false]
  exact ⟨hm, List.mem_filter.mpr ⟨hx, by rw [hm]; rfl⟩⟩

/-- Who takes part while an ordinary master asks: with the quota used, no trump master. -/
theorem takesPart_ordinary {b : PadBank} {x : PadReq} (hx : x ∈ takesPart b) (h : ∃ y ∈ b.reqs, y.trump = false) :
    b.grants < quota b ∨ x.trump = false := by
  obtain ⟨y, hy, hyt⟩ := h
  by_cases hq : b.grants < quota b
  · exact .inl hq
  · have hmask : trumpsMasked b = true := by
      rw [trumpsMasked, decide_eq_true (Nat.le_of_not_lt hq), Bool.true_and, List.any_eq_true]
      exact ⟨y, hy, by rw [hyt]; rfl⟩
    have hx := (List.mem_filter.mp hx).2
    rw [hmask, Bool.true_and, Bool.not_eq_true'] at hx
    exact .inr hx

/-- The requests that a round won by `w` leaves. -/
def leftBy (b : PadBank) (w : Nat) : List PadReq :=
  (b.reqs.filter fun r => r.master != w).map fun r => if trumpsMasked b && r.trump then r else { r with prio := min 15 (r.prio + 1) }

/-- A round changes nothing, or one of the requests of the highest priority among those that take part wins it. -/
theorem padRound_cases (b : PadBank) : padRound b = b ∨ ∃ top w, ((takesPart b).map PadReq.prio).max? = some top ∧
    tieWinner b.lastWin (((takesPart b).filter fun r => r.prio == top).map PadReq.master) = some w ∧
    (padRound b).owner = some w ∧ (padRound b).reqs = leftBy b w := by
  unfold padRound
  dsimp only
  split
  · exact .inl rfl
  · next top htop =>
    split
    · exact .inl rfl
    · next w hw => exact .inr ⟨top, w, htop, hw, rfl, rfl⟩

theorem padRound_won {b : PadBank} {w : Nat} (ho : b.owner = none) (hw : (padRound b).owner = some w) :
    ∃ r ∈ takesPart b, r.master = w ∧ (∀ x ∈ takesPart b, x.prio ≤ r.prio) ∧ (padRound b).reqs = leftBy b w := by
  rcases padRound_cases b with h | ⟨top, w', htop, htie, howner, hreqs⟩
  · rw [h, ho] at hw
    cases hw
  · rw [howner] at hw
    cases hw
    obtain ⟨r, hr, hmaster⟩ := List.mem_map.mp (tieWinner_mem htie)
    obtain ⟨htakes, hprio⟩ := List.mem_filter.mp hr
    rw [beq_iff_eq] at hprio
    refine ⟨r, htakes, hmaster, fun x hx => ?_, hreqs⟩
    rw [hprio]
    exact (List.max?_eq_some_iff.mp htop).2 _ (List.mem_map_of_mem hx)

/-- The requests left are of the other masters; those that took part have risen by one. -/
theorem mem_leftBy {b : PadBank} {w : Nat} {x : PadReq} (hx : x ∈ b.reqs) (hm : (trumpsMasked b && x.trump) = false) (hw : x.master ≠ w) :
    { x with prio := min 15 (x.prio + 1) } ∈ leftBy b w := by
  refine List.mem_map.mpr ⟨x, List.mem_filter.mpr ⟨hx, bne_iff_ne.mpr hw⟩, ?_⟩
  rw [hm]
  rfl

theorem leftBy_master {b : PadBank} {w : Nat} {x : PadReq} (hx : x ∈ leftBy b w) : x.master ≠ w := by
  obtain ⟨y, hy, rfl⟩ := List.mem_map.mp hx
  have hne := bne_iff_ne.mp (List.mem_filter.mp hy).2
  split <;> exact hne

theorem padRound_winner {b : PadBank} {w : Nat} (ho : b.owner = none) (hw : (padRound b).owner = some w) :
    ∃ r ∈ b.reqs, r.master = w ∧ ((∃ x ∈ b.reqs, x.trump = false) → b.grants < quota b ∨ r.trump = false) ∧
      (∀ x ∈ b.reqs, (b.grants < quota b ∨ x.trump = false) → x.prio ≤ r.prio ∧
        (x.master ≠ w → { x with prio := min 15 (x.prio + 1) } ∈ (padRound b).reqs)) ∧
      ∀ x ∈ (padRound b).reqs, x.master ≠ w := by
  obtain ⟨r, hr, hmaster, htop, hreqs⟩ := padRound_won ho hw
  rw [hreqs]
  refine ⟨r, List.mem_of_mem_filter hr, hmaster, takesPart_ordinary hr, fun x hx hfree => ?_, fun x hx => leftBy_master hx⟩
  obtain ⟨hmask, hpart⟩ := mem_takesPart hx hfree
  exact ⟨htop x hpart, mem_leftBy hx hmask⟩

/-- The device with a round's requests entered. -/
def roundAsked (d : Dev) (q n : Nat) (asks : List PadAsk) : Dev :=
  asks.foldl (fun d a => padAsk d q n a) (putBank d { getBank d q n with owner := none })
/-- The beats that the winner of a round takes. -/
def winnerBeats (b : PadBank) : Nat :=
  match (padRound b).owner with
  | some w => ((b.reqs.find? fun r => r.master == w).map PadReq.beats).getD 1
  | none => 0

theorem paddockRound_runs {q n : Nat} (asks : List PadAsk) (hup : quarterUp d q = true) (hh : halted d = false) (hl : bankLocked d q n = false) :
    paddockRound d q n asks = (
      let d := roundAsked d q n asks
      let b := getBank d q n
      putBank (maxReg d (PAD q + 0x100 + 4 * n) (winnerBeats b))
        (if winnerBeats b ≤ 1 then { padRound b with owner := none } else padRound b)) := by
  have hgo : ¬ (!quarterUp d q || halted d) = true := by rw [hup, hh]; decide
  unfold paddockRound
  dsimp only
  rw [if_neg hgo, hl, if_neg (by decide), if_neg (by decide)]
  rfl

theorem quotaWindow_ends {q n : Nat} (hup : quarterUp d q = true) (hh : halted d = false) : quotaWindow d q n = (
    let e := if (getBank d q n).masked then cnt d (PAD q + 0x3C) 1 else d
    putBank e { getBank d q n with grants := 0, masked := false, ctrl := reg e (PAD q) }) :=
  if_neg (by rw [hup, hh]; decide)

/-! ### DMA descriptors (R346, R350) -/

section
variable {x : DmaDesc}

/-- A fill moves every element. -/
theorem moveElems_fill (e : DmaEnv) (hx : x.mode = 1) (from_ : Option Dev) (es : List (Nat × Nat)) (i n : Nat) (d : Dev) :
    (moveElems e x from_ es i n d).2 = (n + es.length * x.dw, none) := by
  induction es generalizing i n d with
  | nil => simp [moveElems]
  | cons p es ih =>
    obtain ⟨a, b⟩ := p
    rw [moveElems, if_pos hx]
    dsimp only
    rw [ih, List.length_cons, Nat.add_mul, Nat.one_mul, Nat.add_assoc, Nat.add_comm x.dw]

theorem moveDesc_fill (d : Dev) (e : DmaEnv) (hx : x.mode = 1) : (moveDesc d e x).2 = ((elements x).length * x.dw, none) := by
  have hno : overlaps x = false := by
    unfold overlaps
    rw [hx]
    rfl
  have hmove : moveDesc d e x = moveElems e x none (elements x) 0 0 d := if_pos (by rw [hno]; rfl)
  rw [hmove, moveElems_fill e hx, Nat.zero_add]

theorem leNat_leBytes (n k : Nat) : leNat (leBytes n k) = n % 256 ^ k := by
  induction k generalizing n with
  | zero => exact (Nat.mod_one n).symm
  | succ k ih =>
    have hpow : 256 ^ (k + 1) = 256 * 256 ^ k := Nat.pow_succ'
    rw [leBytes, leNat, ih, BitVec.toNat_ofNat, hpow, Nat.mod_mul]

theorem convert_length (x : DmaDesc) (bs : List Byte) : (convert x bs).length = x.dw := length_leBytes _ _

/-- An element that is not sign-extended keeps its value in a destination that is no narrower. -/
theorem leNat_convert {bs : List Byte} (hs : x.sx = false) (hn : bs.length ≤ x.dw) : leNat (convert x bs) = leNat bs := by
  have hlt : leNat bs < 256 ^ x.dw := (leNat_lt bs).trans_le (Nat.pow_le_pow_right (by decide) hn)
  have hconv : convert x bs = leBytes (leNat bs) x.dw := by
    unfold convert
    dsimp only
    rw [hs, Bool.false_and, if_neg (by decide)]
  rw [hconv, leNat_leBytes, Nat.mod_eq_of_lt hlt]

end

/-- A descriptor moved in whole: counted, and after the last one the chain's status is written and the card done. -/
theorem descriptorStep_moves {u : UnitId} {host : List Byte} {fail padBad : Option Nat} {poisoned : Bool} {cycles st : Nat} {c : Card} {r : DmaRun}
    {ds : List DmaDesc} {x : DmaDesc} (hc : channelCard d u = some (c, r, ds, st)) (hx : ds[r.next]? = some x)
    (hm : (moveDesc d { unit := u, fn := c.fn, quarter := u.quarter, src := x.src, host := host, hostFail := fail, poisoned := poisoned,
                        padUe := padBad } x).2.2 = none) :
    descriptorStep d u host fail poisoned padBad cycles = (
      let m := moveDesc d { unit := u, fn := c.fn, quarter := u.quarter, src := x.src, host := host, hostFail := fail, poisoned := poisoned,
                            padUe := padBad } x
      let a := DMA u.quarter u.index
      let r' := { r with done := r.done + 1, next := r.next + 1 }
      let d := cnt (cnt (cnt m.1 (a + 0x10) m.2.1) (a + 0x1C) cycles) (a + 0x14) 1
      let d := { d with dma := { d.dma with runs := r' :: d.dma.runs.filter fun y => !(y.unit == u) } }
      if r.next + 1 < ds.length then d
      else putCard (if st = 0 then d else emitOut d (.hostWrite c.fn st (chainStatus r' 0))) { c with done := true }) := by
  unfold descriptorStep
  rw [hc]
  dsimp only
  rw [hx]
  dsimp only
  rw [hm]

/-- Settles O57: the slot by `commandSlot_opened`, the choice by `pickReq_mayServe`, the round by `padRound_winner`, the descriptor by
`descriptorStep_moves`. -/
theorem memoriesAndDmaComplete : Obligations.MemoriesAndDmaComplete := by
  unfold Obligations.MemoriesAndDmaComplete
  refine ⟨?_, pickReq_mayServe, ?_, ?_, ?_, ?_, ?_, ?_, fun b w => padRound_winner, ?_, ?_, fun d e x => moveDesc_fill d e, fun x bs =>
    ⟨convert_length x bs, leNat_convert⟩⟩
  · intro s h pc asks cycles hon hp hh
    have hr : SlotRuns s.dev h := ⟨hon, hp, hh⟩
    refine ⟨fun z hs hz => ?_, fun r hs hz hpick => ?_, fun hs hz hpick => ?_, fun hs => ?_⟩
    · exact congrArg (nextWith s) (commandSlot_refreshes hr hs hz)
    · refine congrArg (nextWith s) ((commandSlot_picks hr hs hz).trans ?_)
      exact congrArg (fun o : Option HbmReq => (o.map (serveReq _ _)).getD _) hpick
    · refine congrArg (nextWith s) ((commandSlot_picks hr hs hz).trans ?_)
      exact congrArg (fun o : Option HbmReq => (o.map (serveReq _ _)).getD _) hpick
    · exact congrArg (nextWith s) (commandSlot_waits hr hs)
  · intro s h pc b hon hp
    refine congrArg (nextWith s) (if_neg ?_)
    rw [hon, decide_eq_false (Nat.not_le.mpr hp)]
    decide
  · intro s a hen hon hsr hh ha hfree hbad
    have hr : Scrubs s.dev a := ⟨hen, hon, hsr, hh, ha, hfree, hbad⟩
    exact ⟨congrArg (nextWith s) (scrub_runs hr 0), congrArg (nextWith s) (scrub_runs hr 1), congrArg (nextWith s) (scrub_runs hr 2)⟩
  · intro s h c
    rfl
  · intro s h c hp hon hnew n l hn
    have hrun := congrArg (nextWith s) (ceThresh_reaches hp hon hnew hn)
    refine ⟨ceRaised s.dev h c, rfl, fun hlate hnone => ?_, fun hwin => ?_⟩
    · refine hrun.trans (congrArg (nextWith s) (if_neg fun hw => ?_))
      rcases (windowed_iff _ _ _).mp hw with ⟨e, he, h1, h2, h3⟩ | ⟨r, hr, h1, h2⟩
      · exact absurd (hlate e he h1 h2) (by omega)
      · exact hnone r hr h1 h2
    · exact hrun.trans (congrArg (nextWith s) (if_pos ((windowed_iff _ _ _).mpr hwin.symm)))
  · intro s h c r hf
    exact ⟨fun hn => congrArg (nextWith s) (retrainStep_steps hf hn), fun hn => congrArg (nextWith s) (retrainStep_ends hf hn)⟩
  · intro s q n asks hup hh hl
    exact congrArg (nextWith s) (paddockRound_runs asks hup hh hl)
  · intro s q n hup hh
    exact ⟨_, congrArg (nextWith s) (quotaWindow_ends hup hh), rfl⟩
  · intro s u host fail padBad poisoned cycles st c r ds x hc hx m a r' hm
    exact congrArg (nextWith s) (descriptorStep_moves hc hx hm)

end Sys2Proof.Machine
end
